-- ==== Sys2Proof/Word.lean ====
section
/-!
DEFINITION. The word types of the LX940 and their plainest arithmetic (spec/00_scope.md R6, R9, R11).
-/
namespace Sys2Proof

abbrev Byte := BitVec 8
abbrev Half16 := BitVec 16
abbrev W32 := BitVec 32
abbrev W64 := BitVec 64

/-- `x[h:l]` of R6 as a number: `n` bits of `x` from bit `l` up. -/
def bitsOf (x l n : Nat) : Nat := (x >>> l) % 2 ^ n

/-- Bit `i` of the number `x` (R6). -/
def bitOf (x i : Nat) : Bool := x.testBit i

/-- The two's-complement value of the low `w` bits of `x` (R9). -/
def signedOf (w x : Nat) : Int :=
  let y := x % 2 ^ w
  if y < 2 ^ (w - 1) then (y : Int) else (y : Int) - (2 ^ w : Nat)

/-- An exact integer reduced modulo `2^w` (R11). -/
def wrapTo (w : Nat) (v : Int) : Nat := (v % ((2 ^ w : Nat) : Int)).toNat

/-- The `n` low bytes of `x`, lowest first (R6: little-endian). -/
def bytesLE : Nat → Nat → List Byte
  | 0, _ => []
  | n + 1, x => BitVec.ofNat 8 x :: bytesLE n (x >>> 8)

/-- The number whose little-endian bytes are `bs` (R6). -/
def ofBytesLE : List Byte → Nat
  | [] => 0
  | b :: bs => b.toNat + 256 * ofBytesLE bs

end Sys2Proof
end

