-- ==== Sys2Proof/Syntax.lean ====
section
/-!
DEFINITION. The instructions of the LX940, one constructor for each row of spec/opcode_table.json: the 180 full-word
opcodes of R231 with the fields of their layouts (R210-R220, R317, R320, R336, R353), the 26 pair opcodes of R228 (a
pair word is the constructor of its half 0, with half 1 beside it), and the steps of the units and of the host
(spec/95_what_each_step_holds.md) with the operands that say which unit acts on what.
-/
namespace Sys2Proof

/-- The TYPE codes of R212. -/
inductive Ty where
  | i8 | i16 | i32 | i64 | n8 | n16 | n32 | n64 | f16 | b16 | f32 | f64 | e4m3 | e5m2 | bx
  deriving DecidableEq, Repr

/-- The guard of a full word (R207): `p[pred] ⊕ neg`. -/
structure Guard where
  neg : Bool
  pred : BitVec 3
  deriving DecidableEq, Repr

/-- Layout A (R210). -/
structure FA where
  dst : BitVec 9
  srca : BitVec 9
  srcb : BitVec 9
  fea : Bool
  feb : Bool
  u : Bool
  ty : Ty
  rnd : BitVec 2
  sat : Bool
  lmt : Bool
  lmk : BitVec 3
  lmp : BitVec 5
  deriving DecidableEq, Repr

/-- Layout B (R214). -/
structure FB where
  dst : BitVec 9
  srca : BitVec 9
  srcb : BitVec 9
  srcc : BitVec 9
  fea : Bool
  feb : Bool
  fec : Bool
  ty : Ty
  rnd : BitVec 2
  sat : Bool
  u : Bool
  deriving DecidableEq, Repr

/-- Layout I (R215). -/
structure FI where
  dst : BitVec 9
  srca : BitVec 9
  fe : Bool
  ty : Ty
  imm : BitVec 24
  deriving DecidableEq, Repr

/-- Layout M (R216). -/
structure FM where
  data : BitVec 9
  base : BitVec 9
  u : Bool
  off : BitVec 10
  wid : BitVec 3
  tse : Bool
  tslot : BitVec 3
  twait : BitVec 8
  fe : Bool
  scope : BitVec 3
  ord : BitVec 2
  deriving DecidableEq, Repr

/-- Layout J (R219). -/
structure FJ where
  off : BitVec 26
  reg : BitVec 9
  creg : BitVec 2
  cneg : Bool
  pred : BitVec 3
  pneg : Bool
  len : BitVec 8
  deriving DecidableEq, Repr

/-- ATOM's and CAS's reading of layout M (R317). -/
structure FAtom where
  data : BitVec 9
  base : BitVec 9
  u : Bool
  src : BitVec 9
  fes : Bool
  wid : BitVec 3
  aop : BitVec 4
  twait : BitVec 8
  fe : Bool
  scope : BitVec 3
  ord : BitVec 2
  deriving DecidableEq, Repr

/-- ATOMR's reading of layout M (R320). -/
structure FAtomr where
  data : BitVec 9
  base : BitVec 9
  u : Bool
  aop : BitVec 4
  off : BitVec 6
  wid : BitVec 3
  tse : Bool
  tslot : BitVec 3
  twait : BitVec 8
  fe : Bool
  scope : BitVec 3
  ord : BitVec 2
  deriving DecidableEq, Repr

/-- MMA's reading of layout A (R213, R336). -/
structure FMma where
  dst : BitVec 9
  srca : BitVec 9
  srcb : BitVec 9
  fea : Bool
  feb : Bool
  u : Bool
  ty : Ty
  rnd : BitVec 2
  sat : Bool
  mc : BitVec 2
  n : BitVec 6
  deriving DecidableEq, Repr

/-- A copy start's reading of layout M (R353) and the eight shape fields F0-F7 of R229. -/
structure FCopy where
  data : BitVec 9
  base : BitVec 9
  ssp : BitVec 2
  dsp : BitVec 2
  xop : BitVec 2
  stg : Bool
  ctag : BitVec 3
  wid : BitVec 3
  tse : Bool
  tslot : BitVec 3
  twait : BitVec 8
  fe : Bool
  f0 : BitVec 32
  f1 : BitVec 32
  f2 : BitVec 32
  f3 : BitVec 32
  f4 : BitVec 32
  f5 : BitVec 32
  f6 : BitVec 32
  f7 : BitVec 32
  deriving DecidableEq, Repr

/-- The pair opcodes of R228, by POP. -/
inductive Pop where
  | nop | mov | iadd | isub | imul | imin | imax | and_ | or_ | xor_ | andn | shl | shr | sar | not_ | ineg
  | fadd | fsub | fmul | fmin | fmax | fminnum | fmaxnum | fabs | fneg | fcopysign
  deriving DecidableEq, Repr

/-- A pair half's fields beside its POP (R224). -/
structure HalfArgs where
  pred : BitVec 3
  d : BitVec 9
  s : BitVec 9
  pty : BitVec 3
  u : Bool
  deriving DecidableEq, Repr

/-- A whole pair half (R224). -/
structure Half where
  pop : Pop
  args : HalfArgs
  deriving DecidableEq, Repr

/-- A Wellhead ring packet's fields beside its OP (R100), with the ring it stands in. `rsv` says that a reserved bit
of the packet outside PAYLOAD is not 0. -/
structure Pkt where
  ring : Nat
  tag : BitVec 32
  caddr : BitVec 64
  barrier : Bool
  payload : BitVec 256
  rsv : Bool
  deriving DecidableEq, Repr

/-- A mailbox request's header (R458): the function that sent it (0 the PF, v + 1 the VF v) and its TAG. -/
structure Mb where
  fn : Nat
  tag : BitVec 32
  deriving DecidableEq, Repr

/-- Who replies to a SYSCALL (R389, R390): a host's message in the mailbox, or with none the firmware; and the die that issued it. -/
structure Replier where
  mb : Option Mb
  die : Nat
  deriving DecidableEq, Repr

/-- The instructions (R231, R228) and the steps of units and host (spec/95_what_each_step_holds.md). -/
inductive Instr where
  | iadd (g : Guard) (f : FA)
  | isub (g : Guard) (f : FA)
  | imul (g : Guard) (f : FA)
  | imulh (g : Guard) (f : FA)
  | imad (g : Guard) (f : FB)
  | idiv (g : Guard) (f : FA)
  | irem (g : Guard) (f : FA)
  | imin (g : Guard) (f : FA)
  | imax (g : Guard) (f : FA)
  | iabs (g : Guard) (f : FA)
  | ineg (g : Guard) (f : FA)
  | isad (g : Guard) (f : FB)
  | iaddc (g : Guard) (f : FA)
  | and_ (g : Guard) (f : FA)
  | or_ (g : Guard) (f : FA)
  | xor_ (g : Guard) (f : FA)
  | not_ (g : Guard) (f : FA)
  | andn (g : Guard) (f : FA)
  | shl (g : Guard) (f : FA)
  | shr (g : Guard) (f : FA)
  | sar (g : Guard) (f : FA)
  | rot (g : Guard) (f : FA)
  | funnel (g : Guard) (f : FB)
  | popc (g : Guard) (f : FA)
  | clz (g : Guard) (f : FA)
  | ctz (g : Guard) (f : FA)
  | brev (g : Guard) (f : FA)
  | bfe (g : Guard) (f : FB)
  | bfi (g : Guard) (f : FB)
  | sel (g : Guard) (f : FB)
  | icmp (g : Guard) (f : FA)
  | mov (g : Guard) (f : FA)
  | movi (g : Guard) (f : FI)
  | movhi (g : Guard) (f : FI)
  | lea (g : Guard) (f : FB)
  | dp4 (g : Guard) (f : FB)
  | fadd (g : Guard) (f : FA)
  | fsub (g : Guard) (f : FA)
  | fmul (g : Guard) (f : FA)
  | fma (g : Guard) (f : FB)
  | fmin (g : Guard) (f : FA)
  | fmax (g : Guard) (f : FA)
  | fminnum (g : Guard) (f : FA)
  | fmaxnum (g : Guard) (f : FA)
  | fabs (g : Guard) (f : FA)
  | fneg (g : Guard) (f : FA)
  | fcopysign (g : Guard) (f : FA)
  | fcmp (g : Guard) (f : FA)
  | fclass (g : Guard) (f : FA)
  | fdiv (g : Guard) (f : FA)
  | fsqrt (g : Guard) (f : FA)
  | frcp (g : Guard) (f : FA)
  | frsq (g : Guard) (f : FA)
  | fexp2 (g : Guard) (f : FA)
  | flog2 (g : Guard) (f : FA)
  | fsin (g : Guard) (f : FA)
  | fcos (g : Guard) (f : FA)
  | ftanh (g : Guard) (f : FA)
  | fscale (g : Guard) (f : FA)
  | fgetexp (g : Guard) (f : FA)
  | fround (g : Guard) (f : FA)
  | ffrac (g : Guard) (f : FA)
  | fdot2 (g : Guard) (f : FB)
  | cvt (g : Guard) (f : FA)
  | cvtf8 (g : Guard) (f : FA)
  | bxpack (g : Guard) (f : FA)
  | bxunpack (g : Guard) (f : FA)
  | shfl (g : Guard) (f : FA)
  | red (g : Guard) (f : FA)
  | scan (g : Guard) (f : FA)
  | match_ (g : Guard) (f : FA)
  | elect (g : Guard) (f : FA)
  | vote (g : Guard) (f : FA)
  | rfal (g : Guard) (f : FA)
  | rdlane (g : Guard) (f : FA)
  | wrlane (g : Guard) (f : FA)
  | permx (g : Guard) (f : FA)
  | ld (g : Guard) (f : FM)
  | st (g : Guard) (f : FM)
  | ldl (g : Guard) (f : FM)
  | stl (g : Guard) (f : FM)
  | ldu (g : Guard) (f : FM)
  | stu (g : Guard) (f : FM)
  | ldx (g : Guard) (f : FM)
  | stx (g : Guard) (f : FM)
  | pref (g : Guard) (f : FM)
  | invl1 (g : Guard) (f : FM)
  | waitk (g : Guard) (f : FM)
  | fence (g : Guard) (f : FM)
  | fencex (g : Guard) (f : FM)
  | ost (g : Guard) (f : FM)
  | ald (g : Guard) (f : FM)
  | atom (g : Guard) (f : FAtom)
  | atomr (g : Guard) (f : FAtomr)
  | cas (g : Guard) (f : FAtom)
  | dcas (g : Guard) (f : FM)
  | amov (g : Guard) (f : FM)
  | datom (g : Guard) (f : FM)
  | bar (g : Guard) (f : FI)
  | barspec (g : Guard) (f : FI)
  | mbara (g : Guard) (f : FM)
  | mbarw (g : Guard) (f : FM)
  | fempty (g : Guard) (f : FA)
  | fefill (g : Guard) (f : FA)
  | sadd (g : Guard) (f : FA)
  | ssub (g : Guard) (f : FA)
  | smul (g : Guard) (f : FA)
  | smulh (g : Guard) (f : FA)
  | sdiv (g : Guard) (f : FA)
  | sand (g : Guard) (f : FA)
  | sor (g : Guard) (f : FA)
  | sxor (g : Guard) (f : FA)
  | snot (g : Guard) (f : FA)
  | sshl (g : Guard) (f : FA)
  | sshr (g : Guard) (f : FA)
  | ssar (g : Guard) (f : FA)
  | smin (g : Guard) (f : FA)
  | smax (g : Guard) (f : FA)
  | ssel (g : Guard) (f : FB)
  | scmp (g : Guard) (f : FA)
  | smov (g : Guard) (f : FA)
  | smovi (g : Guard) (f : FI)
  | smovhi (g : Guard) (f : FI)
  | spopc (g : Guard) (f : FA)
  | sclz (g : Guard) (f : FA)
  | sfadd (g : Guard) (f : FA)
  | sfmul (g : Guard) (f : FA)
  | sfma (g : Guard) (f : FB)
  | scvt (g : Guard) (f : FA)
  | bra (g : Guard) (f : FJ)
  | brc (g : Guard) (f : FJ)
  | brv (g : Guard) (f : FJ)
  | brx (g : Guard) (f : FJ)
  | call (g : Guard) (f : FJ)
  | ret (g : Guard) (f : FJ)
  | join (g : Guard) (f : FJ)
  | exit (g : Guard) (f : FJ)
  | nop (g : Guard) (f : FJ)
  | yield (g : Guard) (f : FJ)
  | region (g : Guard) (f : FJ)
  | setfmt (g : Guard) (f : FI)
  | getfmt (g : Guard) (f : FA)
  | getsr (g : Guard) (f : FI)
  | plog (g : Guard) (f : FA)
  | tcopy (g : Guard) (f : FCopy)
  | tgather (g : Guard) (f : FCopy)
  | tscatter (g : Guard) (f : FCopy)
  | tfill (g : Guard) (f : FCopy)
  | cwait (g : Guard) (f : FI)
  | cpoll (g : Guard) (f : FA)
  | stginit (g : Guard) (f : FI)
  | stgfill (g : Guard) (f : FI)
  | stgwait (g : Guard) (f : FA)
  | stgfree (g : Guard) (f : FI)
  | stgqry (g : Guard) (f : FA)
  | calloc (g : Guard) (f : FA)
  | cgate (g : Guard) (f : FA)
  | cpost (g : Guard) (f : FM)
  | cqry (g : Guard) (f : FA)
  | mclaim (g : Guard) (f : FI)
  | mrel (g : Guard) (f : FI)
  | mma (g : Guard) (f : FMma)
  | mzero (g : Guard) (f : FI)
  | mdrain (g : Guard) (f : FM)
  | mwait (g : Guard) (f : FI)
  | mscale (g : Guard) (f : FA)
  | emit (g : Guard) (f : FM)
  | evrd (g : Guard) (f : FA)
  | evwait (g : Guard) (f : FA)
  | aload (g : Guard) (f : FM)
  | aarm (g : Guard) (f : FI)
  | adisarm (g : Guard) (f : FI)
  | asave (g : Guard) (f : FM)
  | syscall (g : Guard) (f : FA)
  | trap (g : Guard) (f : FI)
  | brkpt (g : Guard) (f : FI)
  | rdcyc (g : Guard) (f : FA)
  | vdsub (g : Guard) (f : FM)
  | bqput (g : Guard) (f : FM)
  | bqget (g : Guard) (f : FM)
  | pairNop (a : HalfArgs) (h : Half)
  | pairMov (a : HalfArgs) (h : Half)
  | pairIadd (a : HalfArgs) (h : Half)
  | pairIsub (a : HalfArgs) (h : Half)
  | pairImul (a : HalfArgs) (h : Half)
  | pairImin (a : HalfArgs) (h : Half)
  | pairImax (a : HalfArgs) (h : Half)
  | pairAnd (a : HalfArgs) (h : Half)
  | pairOr (a : HalfArgs) (h : Half)
  | pairXor (a : HalfArgs) (h : Half)
  | pairAndn (a : HalfArgs) (h : Half)
  | pairShl (a : HalfArgs) (h : Half)
  | pairShr (a : HalfArgs) (h : Half)
  | pairSar (a : HalfArgs) (h : Half)
  | pairNot (a : HalfArgs) (h : Half)
  | pairIneg (a : HalfArgs) (h : Half)
  | pairFadd (a : HalfArgs) (h : Half)
  | pairFsub (a : HalfArgs) (h : Half)
  | pairFmul (a : HalfArgs) (h : Half)
  | pairFmin (a : HalfArgs) (h : Half)
  | pairFmax (a : HalfArgs) (h : Half)
  | pairFminnum (a : HalfArgs) (h : Half)
  | pairFmaxnum (a : HalfArgs) (h : Half)
  | pairFabs (a : HalfArgs) (h : Half)
  | pairFneg (a : HalfArgs) (h : Half)
  | pairFcopysign (a : HalfArgs) (h : Half)
  | ringDoorbell (fn : Nat) (ring : Nat) (tail : BitVec 16)
  | ringEnable (fn : Nat) (ring : Nat)
  | partitionRegisterWrite (p : Nat) (v : BitVec 128)
  | registerWrite (fn : Nat) (ring : Nat) (v : BitVec 128)
  | postEvent (k : Pkt)
  | create (k : Pkt)
  | preempt (k : Pkt)
  | resume (k : Pkt)
  | teardown (k : Pkt)
  | regionUpdate (k : Pkt)
  | regionReset (k : Pkt)
  | domainConfig (k : Pkt)
  | streamBind (k : Pkt)
  | streamClose (k : Pkt)
  | sliceExpiry (ctx : Nat)
  | saveComplete (ctx : Nat)
  | resumeComplete (ctx : Nat)
  | invalidationComplete (ctx : Nat)
  | lazyWriteOutComplete (core ctx : Nat)
  | firmwareActivation
  | pageInval (m : Mb) (cmd : BitVec 256)
  | pageResolve (m : Mb) (cmd : BitVec 256)
  | pageFail (m : Mb) (cmd : BitVec 256)
  | trapcfg (m : Mb) (cmd : BitVec 256)
  | tracecfg (m : Mb) (cmd : BitVec 256)
  | resolveRetry (m : Mb) (cmd : BitVec 256)
  | resolveSkip (m : Mb) (cmd : BitVec 256)
  | resolveGoto (m : Mb) (cmd : BitVec 256)
  | resolveRestart (m : Mb) (cmd : BitVec 256)
  | resolveKill (m : Mb) (cmd : BitVec 256)
  | halt (m : Mb) (cmd : BitVec 256)
  | release (m : Mb) (cmd : BitVec 256)
  | step (m : Mb) (cmd : BitVec 256)
  | readreg (m : Mb) (cmd : BitVec 256)
  | writereg (m : Mb) (cmd : BitVec 256)
  | getVersion (m : Mb) (msg : List Byte)
  | getCapabilities (m : Mb) (msg : List Byte)
  | negotiateAlgorithms (m : Mb) (msg : List Byte)
  | getDigests (m : Mb) (msg : List Byte)
  | getCertificate (m : Mb) (msg : List Byte)
  | challenge (m : Mb) (msg : List Byte)
  | getMeasurements (m : Mb) (msg : List Byte)
  | syscallReply (r : Replier) (seq : BitVec 32) (vals : List W64)
  | power (m : Mb) (w : BitVec 64)
  | unlock (m : Mb) (w : BitVec 64)
  | lock (m : Mb) (w : BitVec 64)
  | debuglvl (m : Mb) (w : BitVec 64)
  | fwstage (m : Mb) (w : BitVec 64)
  | fwact (m : Mb) (w : BitVec 64)
  | port (m : Mb) (w : BitVec 64)
  | bqcfg (m : Mb) (w : BitVec 64)
  | pwrcap (m : Mb) (w : BitVec 64)
  | idsig (m : Mb) (w : BitVec 64)
  | eventIntake (die n : Nat)
  | closeMarkerIntake (die n : Nat)
  | diecycleAdvance (die : Nat)
  | eventRelease (dom : Nat)
  | candidateDeadline (dom : Nat)
  | entryStallResume (dom : Nat)
  | pendStallResume (dom : Nat)
  | groupOffer (die core : Nat)
  | pendingLaunchRetry (die core : Nat)
  | launchComplete (ctx idx : Nat)
  | datomEntryArrival (n : Nat)
  | datomApply (ctx idx : Nat)
  | groupPlace (core : Nat)
  | stealRequest (core : Nat)
  | stealAnswer (core : Nat)
  | detDispatch (ctx region : Nat)
  | compactorMove (core : Nat)
  | groupSlotFree (core gslot : Nat)
  | hang (core gslot wid : Nat)
  | probeSend (core gslot wid : Nat)
  | probeArrival (n : Nat)
  | barrierArrival (core gslot wid : Nat)
  | trapTaken (core gslot wid : Nat)
  | homeAccess (n : Nat)
  | loadReturn (n : Nat)
  | mbarwPoll (core gslot wid slot : Nat)
  | pageWalkComplete (die n : Nat)
  | pullAttemptComplete (n : Nat) (page : List Byte) (ok : Bool)
  | pullRetry (n : Nat)
  | hostWrite (pa : Nat) (bytes : List Byte)
  | copyRetire (core n : Nat)
  | copyReplay (core n : Nat)
  | arrayStart (core : Nat)
  | arrayRetire (core : Nat)
  | drainStart (core : Nat)
  | drainRetire (core n : Nat)
  | mrelTakesEffect (core n : Nat)
  | chunkArrival (die n : Nat)
  | combineDeadline (die slot : Nat)
  | slotRelease (die slot : Nat)
  | submissionStart (die dec : Nat)
  | framePut (die dec : Nat)
  | submissionEnd (die dec : Nat)
  | flitReceive (port : Nat) (flit : BitVec 1280)
  | portTrained (port : Nat)
  | trainingTimeout (port : Nat)
  | lossOfSignal (port : Nat)
  | ucieModuleDown (k : Nat)
  | ucieModuleActive (k : Nat)
  | detectedError (kind core : Nat) (pa : Nat) (lasting : Bool)
  | pmD3hot
  | pmD0
  | powerRemoved
  | powerOn (absent : BitVec 18) (openPart : Bool) (image : List Byte)
  | clockThrottle
  | leaseRenew (die : Nat)
  | leaseLapse (die : Nat)
  | vfEnable (v : Nat) (on : Bool)
  | routeTableLoad (t : List (Nat × Nat × Option Nat))
  deriving DecidableEq, Repr

end Sys2Proof
end

