-- ==== Sys2Proof/WellFormed.lean ====
section
/-!
DEFINITION. Which instruction terms are encodable: the encoding checks of step 2 of R232 (R207-R230, R255, R277, R286,
R293, R302, R317-R325, R330, R336-R349, R353, R361-R370), each of which traps ILLEGAL when an instruction word breaks it.
-/
namespace Sys2Proof

/-- Bits of a type (R9). -/
def Ty.bits : Ty → Nat
  | .i8 | .n8 | .e4m3 | .e5m2 | .bx => 8
  | .i16 | .n16 | .f16 | .b16 => 16
  | .i32 | .n32 | .f32 => 32
  | .i64 | .n64 | .f64 => 64

/-- The classes of types that the instruction tables name. -/
inductive TySet where
  | allInt | signed | unsigned | int32up | move | n32n64 | i32n32 | bytes8 | ieee | ieeeF8 | special | f16b16 | notBx
  | bxFloat | bxDst | n64only | n32only | scmpT | moviT | i8only | iNoF8 | redT | matrix
  deriving DecidableEq, Repr

/-- Membership in a class of types. -/
def TySet.has (c : TySet) (t : Ty) : Bool :=
  match c, t with
  | _, .bx => c == .matrix
  | .allInt, t => (t matches .i8 | .i16 | .i32 | .i64 | .n8 | .n16 | .n32 | .n64)
  | .signed, t => (t matches .i8 | .i16 | .i32 | .i64)
  | .unsigned, t => (t matches .n8 | .n16 | .n32 | .n64)
  | .int32up, t => (t matches .i32 | .n32 | .i64 | .n64)
  | .move, t => (t matches .i32 | .n32 | .i64 | .n64)
  | .n32n64, t => (t matches .n32 | .n64)
  | .i32n32, t => (t matches .i32 | .n32)
  | .bytes8, t => (t matches .i8 | .n8)
  | .ieee, t => (t matches .f16 | .b16 | .f32 | .f64)
  | .ieeeF8, t => (t matches .f16 | .b16 | .f32 | .f64 | .e4m3 | .e5m2)
  | .special, t => (t matches .f16 | .b16 | .f32)
  | .f16b16, t => (t matches .f16 | .b16)
  | .notBx, _ => true
  | .bxFloat, t => (t matches .f32 | .f16 | .b16 | .e4m3 | .e5m2)
  | .bxDst, t => (t matches .f32 | .f16 | .b16)
  | .n64only, t => t == .n64
  | .n32only, t => t == .n32
  | .scmpT, t => (t matches .i8 | .i16 | .i32 | .i64 | .n8 | .n16 | .n32 | .n64 | .f16 | .b16 | .f32 | .f64)
  | .moviT, t => (t matches .i8 | .i16 | .i32 | .i64 | .n8 | .n16 | .n32 | .n64 | .f16 | .b16 | .f32 | .f64)
  | .i8only, t => t == .i8
  | .iNoF8, t => !(t matches .e4m3 | .e5m2)
  | .redT, t => !(t matches .e4m3 | .e5m2)
  | .matrix, t => (t matches .f16 | .b16 | .e4m3 | .e5m2 | .i8 | .n8)

/-- What a 9-bit register field names (R209, R65). -/
inductive Fld where
  | zero                -- must be 0
  | v                   -- a vector register of the type's width: a pair for 64 bits
  | v32                 -- one vector register
  | pair                -- an even vector register
  | quad                -- a vector register divisible by 4
  | s                   -- a uniform register
  | s4                  -- a uniform register divisible by 4
  | p                   -- a predicate
  | c                   -- a condition register
  | num (n : Nat)       -- a number of n bits
  deriving DecidableEq, Repr

/-- The static part of R209 and R65 for a field. -/
def Fld.ok (k : Fld) (t : Ty) (x : BitVec 9) : Bool :=
  match k with
  | .zero => x == 0
  | .v => t.bits != 64 || x.toNat % 2 == 0
  | .v32 => true
  | .pair => x.toNat % 2 == 0
  | .quad => x.toNat % 4 == 0
  | .s => x.toNat < 256
  | .s4 => x.toNat < 256 && x.toNat % 4 == 0
  | .p => x.toNat < 8
  | .c => x.toNat < 4
  | .num n => x.toNat < 2 ^ n

/-- GNEG = 1 with GPRED = 7 is reserved (R207). -/
def Guard.ok (g : Guard) : Bool := !(g.neg && g.pred == 7)

/-- The unguarded form (R207). -/
def Guard.isNone (g : Guard) : Bool := !g.neg && g.pred == 7

/-- How RND is used: a rounding mode or another number, or must be 0 (R212). -/
inductive Use where
  | yes | no
  deriving DecidableEq, Repr

/-- What a layout-A instruction asks of its fields. `u` 0: must be 0; 1: free, SRCB then names a uniform register;
2: must be 1. `lm` 0: no lane modifier; 1: on either source; 2: on SRCB only (R275); 3: on SRCA only (R213). -/
structure ASpec where
  dst : Fld
  a : Fld
  b : Fld
  fea : Use
  feb : Use
  u : Nat
  ty : TySet
  rnd : Use
  sat : Use
  lm : Nat
  deriving DecidableEq, Repr

/-- The lane-modifier rules of R221, R222, R275, R276. -/
def laneModOk (lm : Nat) (f : FA) : Bool :=
  if lm = 0 then !f.lmt && f.lmk == 0 && f.lmp == 0
  else
    f.lmk != 7 && ((f.lmk != 0 && f.lmk != 2) || f.lmp == 0) && !(f.lmt && f.u && f.lmk != 0) &&
    (f.lmk == 0 || lm == 1 || (lm == 2 && f.lmt) || (lm == 3 && !f.lmt))

/-- The checks of layout A (R210-R213). -/
def okA (g : Guard) (f : FA) (k : ASpec) : Bool :=
  g.ok && k.ty.has f.ty && k.dst.ok f.ty f.dst && k.a.ok f.ty f.srca &&
  (if k.u == 1 && f.u then (Fld.s).ok f.ty f.srcb else k.b.ok f.ty f.srcb) &&
  (k.fea == .yes || !f.fea) && (k.feb == .yes || !f.feb) &&
  (k.u == 1 || f.u == (k.u == 2)) && (k.rnd == .yes || f.rnd == 0) && (k.sat == .yes || !f.sat) && laneModOk k.lm f

/-- The operator of a comparison, in word bits [15:13] (R258, R282): RND and SAT together. -/
def cmpOp (f : FA) : Nat := f.rnd.toNat * 2 + f.sat.toNat

/-- What a layout-B instruction asks of its fields. -/
structure BSpec where
  dst : Fld
  a : Fld
  b : Fld
  c : Fld
  fec : Use
  u : Nat
  ty : TySet
  rnd : Use
  sat : Use
  deriving DecidableEq, Repr

/-- The checks of layout B (R214). -/
def okB (g : Guard) (f : FB) (k : BSpec) : Bool :=
  g.ok && k.ty.has f.ty && k.dst.ok f.ty f.dst && k.a.ok f.ty f.srca &&
  (if k.u == 1 && f.u then (Fld.s).ok f.ty f.srcb else k.b.ok f.ty f.srcb) && k.c.ok f.ty f.srcc &&
  (k.fec == .yes || !f.fec) && (k.u == 1 || !f.u) && (k.rnd == .yes || f.rnd == 0) && (k.sat == .yes || !f.sat)

/-- The immediate of a move, by type (R215). -/
def immOk (t : Ty) (imm : BitVec 24) : Bool :=
  match t with
  | .f16 | .b16 => imm.toNat < 2 ^ 16
  | .e4m3 | .e5m2 => imm.toNat < 2 ^ 8
  | _ => true

/-- Layout I with every field but IMM zero (TYPE zero is the code of I8). -/
def iBare (f : FI) : Bool := f.dst == 0 && f.srca == 0 && !f.fe && f.ty == .i8

/-- Layout J fields: which of OFF, REG, CREG/CNEG, PRED/PNEG, LEN may be set (R255). -/
def okJ (g : Guard) (f : FJ) (off reg cond pred len : Bool) : Bool :=
  g.ok && (off || f.off == 0) && (reg || f.reg == 0) && (cond || (f.creg == 0 && !f.cneg)) &&
  (pred || (f.pred == 0 && !f.pneg)) && (len || f.len == 0)

/-- Layout M with no order: OFF, WID, SCOPE, ORD as given. -/
def mNoOrd (f : FM) : Bool := f.scope == 0 && f.ord == 0

/-- An instruction that names no token has TSE and TSLOT 0; one that names them takes any TSLOT, with or
without TSE (R218, R220). -/
def mNoTok (f : FM) : Bool := !f.tse && f.tslot == 0

/-- A register field that holds `2^(wid)` bytes: pair for 8, quad for 16 (R65). -/
def dataOk (wid : BitVec 3) (x : BitVec 9) : Bool :=
  if wid == 3 then x.toNat % 2 == 0 else if wid == 4 then x.toNat % 4 == 0 else true

/-- BASE of a vector memory instruction: a pair, or a uniform register (R216). -/
def baseOk (u : Bool) (x : BitVec 9) : Bool := if u then x.toNat < 256 else x.toNat % 2 == 0

/-- A shape field (R229). -/
def shapeOk (x : BitVec 32) : Bool := x.toNat < 2 ^ 31 || x.toNat % 2 ^ 31 < 2 ^ 8

/-- IMM of the block and slot forms (R330). -/
def claimOk (imm : BitVec 24) (wait : Bool) : Bool :=
  let x := imm.toNat
  (wait || !x.testBit 22) && (x >>> 18) % 16 == 0 &&
  (x.testBit 23 || ((x >>> 8) % 2 ^ 10 == 0 && x % 256 != 0))

/-- A stage named in IMM or in a register (R362). -/
def stageOk (f : FI) : Bool :=
  f.dst == 0 && f.ty == .i8 &&
  (if f.imm.toNat.testBit 23 then f.imm.toNat % 2 ^ 23 < 4 && f.srca.toNat < 256
   else f.imm.toNat < 32 && f.srca == 0 && !f.fe)

/-- AARM and ADISARM (R377). -/
def armOk (f : FI) : Bool :=
  f.dst == 0 && f.ty == .i8 &&
  (if f.imm.toNat.testBit 23 then f.imm.toNat % 2 ^ 23 == 0 && f.srca.toNat < 256
   else f.imm.toNat < 2 ^ 10 && f.srca == 0 && !f.fe)

/-- Layout M of the event, automaton and video instructions (R369, R370): `u`, and whether a token may be set. -/
def sysM (f : FM) (tok : Bool) : Bool :=
  f.u && f.data.toNat < 256 && f.base.toNat < 256 && f.off == 0 && f.wid == 0 && mNoOrd f && (tok || mNoTok f)

/-- The width in bits of a pair type (R225). -/
def ptyBits (p : BitVec 3) : Nat :=
  match p.toNat with
  | 0 | 1 | 2 => 32
  | 3 | 4 => 16
  | _ => 64

/-- The types a pair opcode accepts (R228), by PTYPE code. -/
def Pop.takes (o : Pop) (p : Nat) : Bool :=
  match o with
  | .nop => p == 0
  | .mov | .sar | .ineg => p == 0 || p == 5
  | .iadd | .isub | .imin | .imax => p == 0 || p == 1 || p == 5 || p == 6
  | .imul => p == 0 || p == 1
  | .and_ | .or_ | .xor_ | .andn | .shl | .shr | .not_ => p == 1 || p == 6
  | .fadd | .fsub | .fmul | .fmin | .fmax | .fminnum | .fmaxnum | .fabs | .fneg | .fcopysign =>
    p == 2 || p == 3 || p == 4 || p == 7

/-- Whether a pair half reads D (R227). -/
def Pop.readsD : Pop → Bool
  | .nop | .mov | .not_ | .ineg | .fabs | .fneg => false
  | _ => true

/-- The registers a vector operand of a half covers. -/
def halfRegs (h : Half) (x : BitVec 9) : List Nat :=
  if ptyBits h.args.pty == 64 then [x.toNat, x.toNat + 1] else [x.toNat]

/-- The registers a half reads, each as often as it is read (R227). -/
def Half.reads (h : Half) : List Nat :=
  (if h.pop.readsD then halfRegs h h.args.d else []) ++
  (if h.pop == .nop || h.args.u then [] else halfRegs h h.args.s)

/-- The registers a half writes. -/
def Half.writes (h : Half) : List Nat := if h.pop == .nop then [] else halfRegs h h.args.d

/-- A half by itself (R225, R228, R65). -/
def Half.ok (h : Half) : Bool :=
  if h.pop == .nop then h.args.pred == 0 && h.args.d == 0 && h.args.s == 0 && h.args.pty == 0 && !h.args.u
  else
    h.pop.takes h.args.pty.toNat &&
    (ptyBits h.args.pty != 64 || (h.args.d.toNat % 2 == 0 && (h.args.u || h.args.s.toNat % 2 == 0))) &&
    (!h.args.u || h.args.s.toNat < 256)

/-- The bank rules of R227. -/
def pairOk (h0 h1 : Half) : Bool :=
  h0.ok && h1.ok &&
  (let rd := h0.reads ++ h1.reads
   (List.range 4).all (fun b => (rd.filter (fun r => r % 4 == b)).length ≤ 2)) &&
  h0.writes.all (fun r => !h1.writes.contains r) &&
  h0.reads.all (fun r => !h1.writes.contains r) && h1.reads.all (fun r => !h0.writes.contains r)

/-- CVT (R213, R294): the source type in SRCB[3:0]; neither type is BX. -/
def cvtOk (g : Guard) (f : FA) : Bool :=
  okA g f ⟨.v, .v32, .num 4, .yes, .no, 0, .notBx, .yes, .yes, 3⟩ && f.srcb.toNat < 14 &&
  (!(f.srcb == 3 || f.srcb == 7 || f.srcb == 11) || f.srca.toNat % 2 == 0)

/-- CVTF8 (R295): exactly one type is an 8-bit float; the wide side is an aligned quad; RND and SAT are 0 when
unpacking. -/
def cvtf8Ok (g : Guard) (f : FA) : Bool :=
  let src := f.srcb.toNat
  let pack := (f.ty == .e4m3 || f.ty == .e5m2) && (src == 8 || src == 9 || src == 10)
  let unpack := (f.ty == .f32 || f.ty == .f16 || f.ty == .b16) && (src == 12 || src == 13)
  okA g f ⟨if unpack then .quad else .v32, if pack then .quad else .v32, .num 4, .yes, .no, 0, .notBx, .yes, .yes, 3⟩ &&
  (pack || (unpack && f.rnd == 0 && !f.sat))

/-- RED and SCAN (R298): the operator in SRCB[2:0] and the types it accepts. -/
def redOk (g : Guard) (f : FA) : Bool :=
  let op := f.srcb.toNat
  let int := TySet.allInt.has f.ty
  okA g f ⟨.v, .v, .num 3, .yes, .no, 0, .redT, .yes, .yes, 0⟩ &&
  (if op < 3 then true else if op < 6 then int else !int) &&
  (f.rnd == 0 || (op == 0 && !int)) && (!f.sat || op == 0)

/-- MMA (R213, R336, R337 step 1). -/
def mmaOk (g : Guard) (f : FMma) : Bool :=
  g.ok && TySet.matrix.has f.ty && f.mc != 3 && f.n != 0 &&
  (if f.ty == .bx then f.rnd != 0 else f.rnd == 0) && (!f.sat || f.ty == .i8 || f.ty == .n8) &&
  (if f.u then f.srca.toNat < 256 && f.srcb.toNat < 256 else f.srca.toNat < 8 && f.srcb.toNat < 8 && !f.fea && !f.feb)

/-- The encoding checks of every instruction; unit and host steps have no encoding. -/
def wellFormed : Instr → Bool
  | .iadd g f => okA g f ⟨.v, .v, .v, .yes, .yes, 1, .allInt, .no, .yes, 1⟩
  | .isub g f => okA g f ⟨.v, .v, .v, .yes, .yes, 1, .allInt, .no, .yes, 1⟩
  | .imul g f => okA g f ⟨.v, .v, .v, .yes, .yes, 1, .allInt, .no, .yes, 1⟩
  | .imulh g f => okA g f ⟨.v, .v, .v, .yes, .yes, 1, .int32up, .no, .no, 1⟩
  | .imad g f => okB g f ⟨.v, .v, .v, .v, .yes, 1, .allInt, .no, .yes⟩
  | .idiv g f => okA g f ⟨.v, .v, .v, .yes, .yes, 1, .allInt, .no, .yes, 1⟩
  | .irem g f => okA g f ⟨.v, .v, .v, .yes, .yes, 1, .allInt, .no, .no, 1⟩
  | .imin g f => okA g f ⟨.v, .v, .v, .yes, .yes, 1, .allInt, .no, .no, 1⟩
  | .imax g f => okA g f ⟨.v, .v, .v, .yes, .yes, 1, .allInt, .no, .no, 1⟩
  | .iabs g f => okA g f ⟨.v, .zero, .v, .no, .yes, 1, .signed, .no, .yes, 2⟩
  | .ineg g f => okA g f ⟨.v, .zero, .v, .no, .yes, 1, .signed, .no, .yes, 2⟩
  | .isad g f => okB g f ⟨.v, .v, .v, .v, .yes, 1, .allInt, .no, .yes⟩
  | .iaddc g f => okA g f ⟨.v, .v, .v, .yes, .yes, 1, .n32n64, .yes, .no, 1⟩
  | .and_ g f => okA g f ⟨.v, .v, .v, .yes, .yes, 1, .allInt, .no, .no, 1⟩
  | .or_ g f => okA g f ⟨.v, .v, .v, .yes, .yes, 1, .allInt, .no, .no, 1⟩
  | .xor_ g f => okA g f ⟨.v, .v, .v, .yes, .yes, 1, .allInt, .no, .no, 1⟩
  | .not_ g f => okA g f ⟨.v, .zero, .v, .no, .yes, 1, .allInt, .no, .no, 2⟩
  | .andn g f => okA g f ⟨.v, .v, .v, .yes, .yes, 1, .allInt, .no, .no, 1⟩
  | .shl g f => okA g f ⟨.v, .v, .v32, .yes, .yes, 1, .unsigned, .no, .no, 1⟩
  | .shr g f => okA g f ⟨.v, .v, .v32, .yes, .yes, 1, .unsigned, .no, .no, 1⟩
  | .sar g f => okA g f ⟨.v, .v, .v32, .yes, .yes, 1, .signed, .no, .no, 1⟩
  | .rot g f => okA g f ⟨.v, .v, .v32, .yes, .yes, 1, .unsigned, .no, .no, 1⟩
  | .funnel g f => okB g f ⟨.v, .v, .v, .v32, .yes, 1, .n32n64, .no, .no⟩
  | .popc g f => okA g f ⟨.v, .zero, .v, .no, .yes, 1, .unsigned, .no, .no, 2⟩
  | .clz g f => okA g f ⟨.v, .zero, .v, .no, .yes, 1, .unsigned, .no, .no, 2⟩
  | .ctz g f => okA g f ⟨.v, .zero, .v, .no, .yes, 1, .unsigned, .no, .no, 2⟩
  | .brev g f => okA g f ⟨.v, .zero, .v, .no, .yes, 1, .unsigned, .no, .no, 2⟩
  | .bfe g f => okB g f ⟨.v, .v, .v32, .v32, .yes, 1, .allInt, .no, .no⟩
  | .bfi g f => okB g f ⟨.v, .v, .v, .v32, .yes, 1, .n32n64, .no, .no⟩
  | .sel g f => okB g f ⟨.v, .v, .v, .p, .no, 1, .notBx, .no, .no⟩
  | .icmp g f => okA g f ⟨.p, .v, .v, .yes, .yes, 1, .allInt, .yes, .yes, 1⟩ && cmpOp f < 6
  | .mov g f => okA g f ⟨.v, .zero, .v, .no, .yes, 1, .move, .no, .no, 2⟩
  | .movi g f => g.ok && TySet.moviT.has f.ty && (Fld.v).ok f.ty f.dst && f.srca == 0 && !f.fe && immOk f.ty f.imm
  | .movhi g f => g.ok && TySet.n32n64.has f.ty && (Fld.v).ok f.ty f.dst && (Fld.v).ok f.ty f.srca
  | .lea g f => okB g f ⟨.pair, .pair, .v32, .num 3, .no, 1, .i32n32, .no, .no⟩
  | .dp4 g f => okB g f ⟨.v32, .v32, .v32, .v32, .yes, 1, .bytes8, .no, .yes⟩
  | .fadd g f => okA g f ⟨.v, .v, .v, .yes, .yes, 1, .ieee, .yes, .yes, 1⟩
  | .fsub g f => okA g f ⟨.v, .v, .v, .yes, .yes, 1, .ieee, .yes, .yes, 1⟩
  | .fmul g f => okA g f ⟨.v, .v, .v, .yes, .yes, 1, .ieee, .yes, .yes, 1⟩
  | .fma g f => okB g f ⟨.v, .v, .v, .v, .yes, 1, .ieee, .yes, .yes⟩
  | .fmin g f => okA g f ⟨.v, .v, .v, .yes, .yes, 1, .ieee, .no, .no, 1⟩
  | .fmax g f => okA g f ⟨.v, .v, .v, .yes, .yes, 1, .ieee, .no, .no, 1⟩
  | .fminnum g f => okA g f ⟨.v, .v, .v, .yes, .yes, 1, .ieee, .no, .no, 1⟩
  | .fmaxnum g f => okA g f ⟨.v, .v, .v, .yes, .yes, 1, .ieee, .no, .no, 1⟩
  | .fabs g f => okA g f ⟨.v, .zero, .v, .no, .yes, 1, .ieeeF8, .no, .no, 2⟩
  | .fneg g f => okA g f ⟨.v, .zero, .v, .no, .yes, 1, .ieeeF8, .no, .no, 2⟩
  | .fcopysign g f => okA g f ⟨.v, .v, .v, .yes, .yes, 1, .ieeeF8, .no, .no, 1⟩
  | .fcmp g f => okA g f ⟨.p, .v, .v, .yes, .yes, 1, .ieee, .yes, .yes, 1⟩ && cmpOp f < 7
  | .fclass g f => okA g f ⟨.v32, .zero, .v, .no, .yes, 1, .ieeeF8, .no, .no, 2⟩
  | .fdiv g f => okA g f ⟨.v, .v, .v, .yes, .yes, 1, .ieee, .yes, .yes, 1⟩
  | .fsqrt g f => okA g f ⟨.v, .zero, .v, .no, .yes, 1, .ieee, .yes, .yes, 2⟩
  | .frcp g f => okA g f ⟨.v, .zero, .v, .no, .yes, 1, .ieee, .yes, .yes, 2⟩
  | .frsq g f => okA g f ⟨.v, .zero, .v, .no, .yes, 1, .ieee, .yes, .yes, 2⟩
  | .fexp2 g f => okA g f ⟨.v, .zero, .v, .no, .yes, 1, .special, .yes, .yes, 2⟩
  | .flog2 g f => okA g f ⟨.v, .zero, .v, .no, .yes, 1, .special, .yes, .yes, 2⟩
  | .fsin g f => okA g f ⟨.v, .zero, .v, .no, .yes, 1, .special, .yes, .yes, 2⟩
  | .fcos g f => okA g f ⟨.v, .zero, .v, .no, .yes, 1, .special, .yes, .yes, 2⟩
  | .ftanh g f => okA g f ⟨.v, .zero, .v, .no, .yes, 1, .special, .yes, .yes, 2⟩
  | .fscale g f => okA g f ⟨.v, .v, .v32, .yes, .yes, 1, .ieee, .yes, .yes, 1⟩
  | .fgetexp g f => okA g f ⟨.v32, .zero, .v, .no, .yes, 1, .ieee, .no, .no, 2⟩
  | .fround g f => okA g f ⟨.v, .zero, .v, .no, .yes, 1, .ieee, .yes, .no, 2⟩
  | .ffrac g f => okA g f ⟨.v, .zero, .v, .no, .yes, 1, .ieee, .no, .no, 2⟩
  | .fdot2 g f => okB g f ⟨.v32, .v32, .v32, .v32, .yes, 1, .f16b16, .yes, .yes⟩
  | .cvt g f => cvtOk g f
  | .cvtf8 g f => cvtf8Ok g f
  | .bxpack g f => okA g f ⟨.v32, .v, .num 2, .yes, .no, 0, .bxFloat, .yes, .yes, 3⟩ && f.srcb != 0
  | .bxunpack g f => okA g f ⟨.v, .v32, .num 2, .yes, .no, 0, .bxDst, .yes, .yes, 3⟩ && f.srcb != 0
  | .shfl g f => okA g f ⟨.v, .v, .v32, .yes, .yes, 1, .n32n64, .no, .no, 0⟩
  | .red g f => redOk g f
  | .scan g f => redOk g f
  | .match_ g f => okA g f ⟨.v32, .v, .zero, .yes, .no, 0, .n32n64, .no, .no, 0⟩
  | .elect g f => okA g f ⟨.p, .zero, .zero, .no, .no, 0, .n32only, .no, .no, 0⟩
  | .vote g f => okA g f ⟨(if f.srcb == 3 then .v32 else .p), .p, .num 2, .no, .no, 0, .n32only, .no, .no, 0⟩
  | .rfal g f => okA g f ⟨.s, .v, .zero, .yes, .no, 0, .move, .no, .no, 0⟩
  | .rdlane g f => okA g f ⟨.s, .v, .s, .yes, .yes, 2, .move, .no, .no, 0⟩
  | .wrlane g f => okA g f ⟨.v, .s, .s, .yes, .yes, 2, .move, .no, .no, 0⟩
  | .permx g f => okA g f ⟨.v32, .pair, .v32, .yes, .yes, 1, .n32only, .no, .no, 0⟩
  | .ld g f => g.ok && f.wid.toNat < 5 && dataOk f.wid f.data && baseOk f.u f.base && mNoOrd f
  | .st g f => g.ok && f.wid.toNat < 5 && dataOk f.wid f.data && baseOk f.u f.base && mNoOrd f
  | .ldl g f => g.ok && f.wid.toNat < 5 && dataOk f.wid f.data && (!f.u || f.base.toNat < 256) && mNoOrd f
  | .stl g f => g.ok && f.wid.toNat < 5 && dataOk f.wid f.data && (!f.u || f.base.toNat < 256) && mNoOrd f
  | .ldu g f => g.ok && f.wid.toNat < 4 && f.data.toNat < 256 && f.base.toNat < 256 && f.u && f.scope.toNat < 6 && f.ord.toNat < 2
  | .stu g f => g.ok && f.wid.toNat < 4 && f.data.toNat < 256 && f.base.toNat < 256 && f.u && f.scope.toNat < 6 && (f.ord == 0 || f.ord == 2)
  | .ldx g f => g.ok && (f.wid == 2 || f.wid == 3) && dataOk f.wid f.data && baseOk f.u f.base && f.scope.toNat < 6 && f.ord.toNat < 2
  | .stx g f => g.ok && (f.wid == 2 || f.wid == 3) && dataOk f.wid f.data && baseOk f.u f.base && f.scope.toNat < 6 && (f.ord == 0 || f.ord == 2)
  | .pref g f => g.ok && f.data == 0 && baseOk f.u f.base && f.wid == 0 && mNoTok f && mNoOrd f
  | .invl1 g f => g.ok && f.data == 0 && f.base == 0 && !f.u && f.off == 0 && f.wid == 0 && mNoTok f && !f.fe && mNoOrd f
  | .waitk g f => g.ok && f.data == 0 && f.base == 0 && !f.u && f.off == 0 && f.wid == 0 && mNoTok f && !f.fe && mNoOrd f
  | .fence g f => g.ok && f.data == 0 && f.base == 0 && !f.u && f.off == 0 && f.wid == 0 && mNoTok f && !f.fe && f.scope.toNat < 6 && f.ord != 0
  | .fencex g f => g.ok && f.data.toNat < 6 && f.base.toNat < 6 && f.data != f.base && !f.u && f.off == 0 && f.wid == 0 && mNoTok f && !f.fe && f.scope.toNat < 6 && f.ord == 0
  | .ost g f => g.ok && (f.wid == 2 || f.wid == 3 || f.wid == 4) && dataOk f.wid f.data && (!f.u || f.base.toNat < 256) && mNoOrd f
  | .ald g f => g.ok && (f.wid == 2 || f.wid == 3 || f.wid == 4) && dataOk f.wid f.data && (!f.u || f.base.toNat < 256) && mNoOrd f
  | .atom g f => g.ok && (f.wid == 2 || f.wid == 3) && dataOk f.wid f.data && dataOk f.wid f.src && baseOk f.u f.base && f.aop.toNat < 14 && f.scope.toNat < 6
  | .atomr g f => g.ok && (f.wid == 2 || f.wid == 3) && dataOk f.wid f.data && baseOk f.u f.base && f.aop.toNat < 14 && f.scope.toNat < 6
  | .cas g f => g.ok && (f.wid == 2 || f.wid == 3) && dataOk f.wid f.data && f.src.toNat % (if f.wid == 2 then 2 else 4) == 0 && baseOk f.u f.base && f.aop == 0 && f.scope.toNat < 6
  | .dcas g f => g.ok && (f.wid == 2 || f.wid == 3) && f.data.toNat % (if f.wid == 2 then 4 else 8) == 0 && (if f.u then f.base.toNat < 256 && f.base.toNat % 2 == 0 else f.base.toNat % 4 == 0) && f.off == 0 && f.scope.toNat < 6
  | .amov g f => g.ok && (f.wid == 2 || f.wid == 3) && dataOk f.wid f.data && (if f.u then f.base.toNat < 256 && f.base.toNat % 2 == 0 else f.base.toNat % 4 == 0) && f.off == 0 && f.scope.toNat < 6
  | .datom g f => g.ok && (f.wid == 2 || f.wid == 3) && dataOk f.wid f.data && baseOk f.u f.base && mNoOrd f
  | .bar g f => g.ok && iBare f && f.imm.toNat < 2 ^ 10
  | .barspec g f => g.ok && iBare f && f.imm.toNat < 2 ^ 10
  | .mbara g f => g.ok && f.data.toNat < 256 && f.base.toNat < 256 && f.u && f.wid == 3 && mNoTok f && 1 ≤ f.scope.toNat && f.scope.toNat < 6 && f.ord == 2
  | .mbarw g f => g.ok && f.data.toNat < 256 && f.base.toNat < 256 && f.u && f.wid == 3 && mNoTok f && 1 ≤ f.scope.toNat && f.scope.toNat < 6 && f.ord == 1
  | .fempty g f => okA g f ⟨.s, .zero, .zero, .no, .no, 0, .n64only, .no, .no, 0⟩
  | .fefill g f => okA g f ⟨.s, .s, .zero, .yes, .no, 0, .n64only, .no, .no, 0⟩
  | .sadd g f => okA g f ⟨.s, .s, .s, .yes, .yes, 0, .allInt, .no, .yes, 0⟩
  | .ssub g f => okA g f ⟨.s, .s, .s, .yes, .yes, 0, .allInt, .no, .yes, 0⟩
  | .smul g f => okA g f ⟨.s, .s, .s, .yes, .yes, 0, .allInt, .no, .yes, 0⟩
  | .smulh g f => okA g f ⟨.s, .s, .s, .yes, .yes, 0, .int32up, .no, .no, 0⟩
  | .sdiv g f => okA g f ⟨.s, .s, .s, .yes, .yes, 0, .allInt, .no, .yes, 0⟩
  | .sand g f => okA g f ⟨.s, .s, .s, .yes, .yes, 0, .allInt, .no, .no, 0⟩
  | .sor g f => okA g f ⟨.s, .s, .s, .yes, .yes, 0, .allInt, .no, .no, 0⟩
  | .sxor g f => okA g f ⟨.s, .s, .s, .yes, .yes, 0, .allInt, .no, .no, 0⟩
  | .snot g f => okA g f ⟨.s, .s, .zero, .yes, .no, 0, .allInt, .no, .no, 0⟩
  | .sshl g f => okA g f ⟨.s, .s, .s, .yes, .yes, 0, .allInt, .no, .no, 0⟩
  | .sshr g f => okA g f ⟨.s, .s, .s, .yes, .yes, 0, .allInt, .no, .no, 0⟩
  | .ssar g f => okA g f ⟨.s, .s, .s, .yes, .yes, 0, .allInt, .no, .no, 0⟩
  | .smin g f => okA g f ⟨.s, .s, .s, .yes, .yes, 0, .allInt, .no, .no, 0⟩
  | .smax g f => okA g f ⟨.s, .s, .s, .yes, .yes, 0, .allInt, .no, .no, 0⟩
  | .ssel g f => okB g f ⟨.s, .s, .s, .c, .no, 0, .iNoF8, .no, .no⟩
  | .scmp g f => okA g f ⟨.c, .s, .s, .yes, .yes, 0, .scmpT, .yes, .yes, 0⟩ && cmpOp f < 7 && (cmpOp f < 6 || !TySet.allInt.has f.ty)
  | .smov g f => okA g f ⟨.s, .s, .zero, .yes, .no, 0, .allInt, .no, .no, 0⟩
  | .smovi g f => g.ok && TySet.moviT.has f.ty && (Fld.s).ok f.ty f.dst && f.srca == 0 && !f.fe && immOk f.ty f.imm
  | .smovhi g f => g.ok && f.ty == .n64 && (Fld.s).ok f.ty f.dst && (Fld.s).ok f.ty f.srca
  | .spopc g f => okA g f ⟨.s, .s, .zero, .yes, .no, 0, .allInt, .no, .no, 0⟩
  | .sclz g f => okA g f ⟨.s, .s, .zero, .yes, .no, 0, .allInt, .no, .no, 0⟩
  | .sfadd g f => okA g f ⟨.s, .s, .s, .yes, .yes, 0, .ieee, .yes, .yes, 0⟩
  | .sfmul g f => okA g f ⟨.s, .s, .s, .yes, .yes, 0, .ieee, .yes, .yes, 0⟩
  | .sfma g f => okB g f ⟨.s, .s, .s, .s, .yes, 0, .ieee, .yes, .yes⟩
  | .scvt g f => okA g f ⟨.s, .s, .num 4, .yes, .no, 0, .notBx, .yes, .yes, 0⟩ && f.srcb.toNat < 14
  | .bra g f => okJ g f true false false false false
  | .brc g f => okJ g f true false true false false
  | .brv g f => okJ g f true false false true false
  | .brx g f => okJ g f true true false false true
  | .call g f => okJ g f true true false false false
  | .ret g f => okJ g f false true false false false
  | .join g f => okJ g f false false false false false && g.isNone
  | .exit g f => okJ g f false false false false false
  | .nop g f => okJ g f false false false false false
  | .yield g f => okJ g f false false false false false
  | .region g f => okJ g f false false false false false && g.isNone
  | .setfmt g f => g.ok && f.dst == 0 && f.ty == .n32 && !f.fe && (if f.imm.toNat.testBit 23 then f.imm.toNat == 2 ^ 23 && f.srca.toNat < 256 else f.imm.toNat < 16 && f.srca == 0)
  | .getfmt g f => okA g f ⟨.s, .zero, .zero, .no, .no, 0, .n32only, .no, .no, 0⟩
  | .getsr g f => g.ok && f.srca == 0 && !f.fe && f.imm.toNat < 10 && (if f.imm == 1 then f.ty == .n32 || (f.ty == .n64 && f.dst.toNat < 256) else f.ty == .n64 && f.dst.toNat < 256)
  | .plog g f => okA g f ⟨.zero, .s, .s, .yes, .yes, 0, .n64only, .no, .no, 0⟩
  | .tcopy g f => g.ok && f.data.toNat < 256 && f.base.toNat < 256 && f.wid.toNat < 5 && [f.f0, f.f1, f.f2, f.f3, f.f4, f.f5, f.f6, f.f7].all shapeOk
  | .tgather g f => g.ok && f.data.toNat < 256 && f.base.toNat < 256 && f.wid.toNat < 5 && [f.f0, f.f1, f.f2, f.f3, f.f4, f.f5, f.f6, f.f7].all shapeOk
  | .tscatter g f => g.ok && f.data.toNat < 256 && f.base.toNat < 256 && f.wid.toNat < 5 && [f.f0, f.f1, f.f2, f.f3, f.f4, f.f5, f.f6, f.f7].all shapeOk
  | .tfill g f => g.ok && f.data.toNat < 256 && f.base.toNat < 256 && f.wid.toNat < 5 && [f.f0, f.f1, f.f2, f.f3, f.f4, f.f5, f.f6, f.f7].all shapeOk
  | .cwait g f => g.ok && iBare f && f.imm.toNat < 256
  | .cpoll g f => okA g f ⟨.s, .zero, .zero, .no, .no, 0, .n64only, .no, .no, 0⟩
  | .stginit g f => g.ok && iBare f && f.imm.toNat < 4
  | .stgfill g f => g.ok && stageOk f
  | .stgwait g f => okA g f ⟨.s, .s, .num 7, .yes, .no, 0, .n64only, .no, .no, 0⟩
  | .stgfree g f => g.ok && stageOk f
  | .stgqry g f => okA g f ⟨.s, .zero, .num 5, .no, .no, 0, .n64only, .no, .no, 0⟩
  | .calloc g f => okA g f ⟨.s, .s, .s, .yes, .yes, 0, .n64only, .yes, .yes, 0⟩
  | .cgate g f => okA g f ⟨.zero, .s, .s, .yes, .yes, 0, .n64only, .no, .no, 0⟩
  | .cpost g f => g.ok && (f.wid == 2 || f.wid == 3) && dataOk f.wid f.data && f.base.toNat < 256 && f.u && f.off == 0 && mNoTok f && mNoOrd f
  | .cqry g f => okA g f ⟨.s, .s, .zero, .yes, .no, 0, .n64only, .no, .no, 0⟩
  | .mclaim g f => g.ok && f.dst.toNat < 4 && f.srca == 0 && !f.fe && f.ty == .i8 && claimOk f.imm true
  | .mrel g f => g.ok && iBare f && claimOk f.imm false
  | .mma g f => mmaOk g f
  | .mzero g f => g.ok && iBare f && claimOk f.imm false && f.imm.toNat.testBit 23
  | .mdrain g f => g.ok && f.data.toNat < 256 && f.data.toNat % 8 == 0 && f.base.toNat < 256 && f.u && f.off == 0 && f.wid == 0 && mNoOrd f
  | .mwait g f => g.ok && iBare f && f.imm.toNat < 3
  | .mscale g f => okA g f ⟨.num 3, .zero, .s, .no, .yes, 2, .i8only, .no, .no, 0⟩
  | .emit g f => g.ok && f.data.toNat < 256 && f.data.toNat % 4 == 0 && f.base.toNat < 256 && (f.u || f.base == 0) && f.off == 0 && f.wid == 0 && ((f.scope == 0 && f.ord == 0) || (f.scope == 4 && f.ord == 2) || (f.scope == 5 && f.ord == 2))
  | .evrd g f => okA g f ⟨.s4, .s, .zero, .yes, .no, 0, .n64only, .no, .no, 0⟩
  | .evwait g f => okA g f ⟨.s4, .s, .zero, .yes, .no, 0, .n64only, .no, .no, 0⟩
  | .aload g f => g.ok && sysM f true
  | .aarm g f => g.ok && armOk f
  | .adisarm g f => g.ok && armOk f
  | .asave g f => g.ok && sysM f true && f.base.toNat % 2 == 0
  | .syscall g f => okA g f ⟨.pair, .quad, .s, .yes, .yes, 2, .n64only, .no, .no, 0⟩
  | .trap g f => g.ok && iBare f && f.imm.toNat < 2 ^ 16
  | .brkpt g f => g.ok && iBare f && f.imm.toNat < 2 ^ 16
  | .rdcyc g f => okA g f ⟨.s, .zero, .zero, .no, .no, 0, .n64only, .no, .no, 0⟩
  | .vdsub g f => g.ok && sysM f true
  | .bqput g f => g.ok && sysM f false
  | .bqget g f => g.ok && sysM f false
  | .pairNop a h => pairOk ⟨.nop, a⟩ h
  | .pairMov a h => pairOk ⟨.mov, a⟩ h
  | .pairIadd a h => pairOk ⟨.iadd, a⟩ h
  | .pairIsub a h => pairOk ⟨.isub, a⟩ h
  | .pairImul a h => pairOk ⟨.imul, a⟩ h
  | .pairImin a h => pairOk ⟨.imin, a⟩ h
  | .pairImax a h => pairOk ⟨.imax, a⟩ h
  | .pairAnd a h => pairOk ⟨.and_, a⟩ h
  | .pairOr a h => pairOk ⟨.or_, a⟩ h
  | .pairXor a h => pairOk ⟨.xor_, a⟩ h
  | .pairAndn a h => pairOk ⟨.andn, a⟩ h
  | .pairShl a h => pairOk ⟨.shl, a⟩ h
  | .pairShr a h => pairOk ⟨.shr, a⟩ h
  | .pairSar a h => pairOk ⟨.sar, a⟩ h
  | .pairNot a h => pairOk ⟨.not_, a⟩ h
  | .pairIneg a h => pairOk ⟨.ineg, a⟩ h
  | .pairFadd a h => pairOk ⟨.fadd, a⟩ h
  | .pairFsub a h => pairOk ⟨.fsub, a⟩ h
  | .pairFmul a h => pairOk ⟨.fmul, a⟩ h
  | .pairFmin a h => pairOk ⟨.fmin, a⟩ h
  | .pairFmax a h => pairOk ⟨.fmax, a⟩ h
  | .pairFminnum a h => pairOk ⟨.fminnum, a⟩ h
  | .pairFmaxnum a h => pairOk ⟨.fmaxnum, a⟩ h
  | .pairFabs a h => pairOk ⟨.fabs, a⟩ h
  | .pairFneg a h => pairOk ⟨.fneg, a⟩ h
  | .pairFcopysign a h => pairOk ⟨.fcopysign, a⟩ h
  | .ringDoorbell _ _ _ => true
  | .ringEnable _ _ => true
  | .partitionRegisterWrite _ _ => true
  | .registerWrite _ _ _ => true
  | .postEvent _ => true
  | .create _ => true
  | .preempt _ => true
  | .resume _ => true
  | .teardown _ => true
  | .regionUpdate _ => true
  | .regionReset _ => true
  | .domainConfig _ => true
  | .streamBind _ => true
  | .streamClose _ => true
  | .sliceExpiry _ => true
  | .saveComplete _ => true
  | .resumeComplete _ => true
  | .invalidationComplete _ => true
  | .lazyWriteOutComplete _ _ => true
  | .firmwareActivation => true
  | .pageInval _ _ => true
  | .pageResolve _ _ => true
  | .pageFail _ _ => true
  | .trapcfg _ _ => true
  | .tracecfg _ _ => true
  | .resolveRetry _ _ => true
  | .resolveSkip _ _ => true
  | .resolveGoto _ _ => true
  | .resolveRestart _ _ => true
  | .resolveKill _ _ => true
  | .halt _ _ => true
  | .release _ _ => true
  | .step _ _ => true
  | .readreg _ _ => true
  | .writereg _ _ => true
  | .getVersion _ _ => true
  | .getCapabilities _ _ => true
  | .negotiateAlgorithms _ _ => true
  | .getDigests _ _ => true
  | .getCertificate _ _ => true
  | .challenge _ _ => true
  | .getMeasurements _ _ => true
  | .syscallReply _ _ _ => true
  | .power _ _ => true
  | .unlock _ _ => true
  | .lock _ _ => true
  | .debuglvl _ _ => true
  | .fwstage _ _ => true
  | .fwact _ _ => true
  | .port _ _ => true
  | .bqcfg _ _ => true
  | .pwrcap _ _ => true
  | .idsig _ _ => true
  | .eventIntake _ _ => true
  | .closeMarkerIntake _ _ => true
  | .diecycleAdvance _ => true
  | .eventRelease _ => true
  | .candidateDeadline _ => true
  | .entryStallResume _ => true
  | .pendStallResume _ => true
  | .groupOffer _ _ => true
  | .pendingLaunchRetry _ _ => true
  | .launchComplete _ _ => true
  | .datomEntryArrival _ => true
  | .datomApply _ _ => true
  | .groupPlace _ => true
  | .stealRequest _ => true
  | .stealAnswer _ => true
  | .detDispatch _ _ => true
  | .compactorMove _ => true
  | .groupSlotFree _ _ => true
  | .hang _ _ _ => true
  | .probeSend _ _ _ => true
  | .probeArrival _ => true
  | .barrierArrival _ _ _ => true
  | .trapTaken _ _ _ => true
  | .homeAccess _ => true
  | .loadReturn _ => true
  | .mbarwPoll _ _ _ _ => true
  | .pageWalkComplete _ _ => true
  | .pullAttemptComplete _ _ _ => true
  | .pullRetry _ => true
  | .hostWrite _ _ => true
  | .copyRetire _ _ => true
  | .copyReplay _ _ => true
  | .arrayStart _ => true
  | .arrayRetire _ => true
  | .drainStart _ => true
  | .drainRetire _ _ => true
  | .mrelTakesEffect _ _ => true
  | .chunkArrival _ _ => true
  | .combineDeadline _ _ => true
  | .slotRelease _ _ => true
  | .submissionStart _ _ => true
  | .framePut _ _ => true
  | .submissionEnd _ _ => true
  | .flitReceive _ _ => true
  | .portTrained _ => true
  | .trainingTimeout _ => true
  | .lossOfSignal _ => true
  | .ucieModuleDown _ => true
  | .ucieModuleActive _ => true
  | .detectedError _ _ _ _ => true
  | .pmD3hot => true
  | .pmD0 => true
  | .powerRemoved => true
  | .powerOn _ _ _ => true
  | .clockThrottle => true
  | .leaseRenew _ => true
  | .leaseLapse _ => true
  | .vfEnable _ _ => true
  | .routeTableLoad _ => true

/-- Well-formedness as a proposition. -/
abbrev WellFormed (i : Instr) : Prop := wellFormed i = true

end Sys2Proof
end

