-- ==== Sys2Proof/Decode.lean ====
section
/-!
DEFINITION. From words to instructions and back (spec/12_encoding.md R206-R232): the fields of each layout, the opcode
map of R231, the pair opcodes of R228, and the encoder written from the same tables. A word the map does not give is
refused by the name of what is wrong with it; the machine traps ILLEGAL on every one of them (R232 step 2).
-/
namespace Sys2Proof

/-- Why a word is no instruction (R232 step 2). -/
inductive DecodeErr where
  | short                      -- fewer bytes than the instruction has
  | unassigned (op : Nat)      -- an opcode R231 does not assign
  | reservedBit                -- a reserved bit that is not 0
  | reservedType               -- TYPE 0xF
  | reservedPop (pop : Nat)    -- a pair opcode R228 does not list
  | breach (i : Instr)         -- an instruction whose fields break R207-R230 or its chapter
  deriving DecidableEq, Repr

/-- The type of a TYPE code (R212). -/
def tyOf (c : BitVec 4) : Option Ty :=
  match c.toNat with
  | 0 => some .i8 | 1 => some .i16 | 2 => some .i32 | 3 => some .i64
  | 4 => some .n8 | 5 => some .n16 | 6 => some .n32 | 7 => some .n64
  | 8 => some .f16 | 9 => some .b16 | 10 => some .f32 | 11 => some .f64
  | 12 => some .e4m3 | 13 => some .e5m2 | 14 => some .bx
  | _ => none

/-- The TYPE code of a type (R212). -/
def tyCode (t : Ty) : BitVec 4 :=
  match t with
  | .i8 => 0 | .i16 => 1 | .i32 => 2 | .i64 => 3 | .n8 => 4 | .n16 => 5 | .n32 => 6 | .n64 => 7
  | .f16 => 8 | .b16 => 9 | .f32 => 10 | .f64 => 11 | .e4m3 => 12 | .e5m2 => 13 | .bx => 14

/-- Field of `n` bits from bit `l` of a word. -/
def fld (w : W64) (l n : Nat) : BitVec n := w.extractLsb' l n

/-- One bit of a word. -/
def flag (w : W64) (i : Nat) : Bool := w.getLsbD i

/-- A body whose reserved bits and TYPE are right. -/
def withTy {α : Type} (w : W64) (tl rn : Nat) (k : Ty → α) : Except DecodeErr α :=
  if w.toNat % 2 ^ rn != 0 then .error .reservedBit
  else match tyOf (fld w tl 4) with
    | none => .error .reservedType
    | some t => .ok (k t)

/-- The guard of a full word (R207). -/
def guardOf (w : W64) : Guard := { neg := flag w 53, pred := fld w 50 3 }

/-- Layout A (R210). -/
def unpackA (w : W64) : Except DecodeErr FA :=
  withTy w 16 4 (fun t => {
    dst := fld w 41 9, srca := fld w 32 9, srcb := fld w 23 9, fea := flag w 22, feb := flag w 21, u := flag w 20,
    ty := t, rnd := fld w 14 2, sat := flag w 13, lmt := flag w 12, lmk := fld w 9 3, lmp := fld w 4 5 })

/-- Layout B (R214). -/
def unpackB (w : W64) : Except DecodeErr FB :=
  withTy w 7 3 (fun t => {
    dst := fld w 41 9, srca := fld w 32 9, srcb := fld w 23 9, srcc := fld w 14 9, fea := flag w 13, feb := flag w 12,
    fec := flag w 11, ty := t, rnd := fld w 5 2, sat := flag w 4, u := flag w 3 })

/-- Layout I (R215). -/
def unpackI (w : W64) : Except DecodeErr FI :=
  withTy w 27 3 (fun t => {
    dst := fld w 41 9, srca := fld w 32 9, fe := flag w 31, ty := t, imm := fld w 3 24 })

/-- Layout M (R216). -/
def unpackM (w : W64) : Except DecodeErr FM :=
  .ok { data := fld w 41 9, base := fld w 32 9, u := flag w 31, off := fld w 21 10, wid := fld w 18 3,
        tse := flag w 17, tslot := fld w 14 3, twait := fld w 6 8, fe := flag w 5, scope := fld w 2 3, ord := fld w 0 2 }

/-- Layout J (R219). -/
def unpackJ (w : W64) : Except DecodeErr FJ :=
  .ok { off := fld w 24 26, reg := fld w 15 9, creg := fld w 13 2, cneg := flag w 12, pred := fld w 9 3,
        pneg := flag w 8, len := fld w 0 8 }

/-- ATOM's and CAS's layout M (R317): SRC in OFF[8:0], FES in OFF[9], AOP in {TSLOT, TSE}. -/
def unpackAtom (w : W64) : Except DecodeErr FAtom :=
  .ok { data := fld w 41 9, base := fld w 32 9, u := flag w 31, src := fld w 22 9, fes := flag w 21, wid := fld w 18 3,
        aop := fld w 14 4, twait := fld w 6 8, fe := flag w 5, scope := fld w 2 3, ord := fld w 0 2 }

/-- ATOMR's layout M (R320). -/
def unpackAtomr (w : W64) : Except DecodeErr FAtomr :=
  .ok { data := fld w 41 9, base := fld w 32 9, u := flag w 31, aop := fld w 27 4, off := fld w 21 6, wid := fld w 18 3,
        tse := flag w 17, tslot := fld w 14 3, twait := fld w 6 8, fe := flag w 5, scope := fld w 2 3, ord := fld w 0 2 }

/-- MMA's layout A (R213). -/
def unpackMma (w : W64) : Except DecodeErr FMma :=
  if flag w 4 then .error .reservedBit
  else withTy w 16 4 (fun t => {
    dst := fld w 41 9, srca := fld w 32 9, srcb := fld w 23 9, fea := flag w 22, feb := flag w 21, u := flag w 20,
    ty := t, rnd := fld w 14 2, sat := flag w 13, mc := fld w 11 2, n := fld w 5 6 })

/-- A copy start's layout M (R353), with the shape words of R229; U is 1, SCOPE and ORD are 0. -/
def unpackCopy (w : W64) (sh : List W64) : Except DecodeErr FCopy :=
  match sh with
  | [a, b, c, d] =>
    if !flag w 31 || w.toNat % 32 != 0 then .error .reservedBit
    else .ok {
      data := fld w 41 9, base := fld w 32 9, ssp := fld w 29 2, dsp := fld w 27 2, xop := fld w 25 2, stg := flag w 24,
      ctag := fld w 21 3, wid := fld w 18 3, tse := flag w 17, tslot := fld w 14 3, twait := fld w 6 8, fe := flag w 5,
      f0 := fld a 0 32, f1 := fld a 32 32, f2 := fld b 0 32, f3 := fld b 32 32, f4 := fld c 0 32, f5 := fld c 32 32,
      f6 := fld d 0 32, f7 := fld d 32 32 }
  | _ => .error .short

/-- The pair opcode of a POP (R228). -/
def popOf (c : BitVec 6) : Option Pop :=
  match c.toNat with
  | 0 => some .nop
  | 1 => some .mov
  | 2 => some .iadd
  | 3 => some .isub
  | 4 => some .imul
  | 5 => some .imin
  | 6 => some .imax
  | 7 => some .and_
  | 8 => some .or_
  | 9 => some .xor_
  | 10 => some .andn
  | 11 => some .shl
  | 12 => some .shr
  | 13 => some .sar
  | 14 => some .not_
  | 15 => some .ineg
  | 16 => some .fadd
  | 17 => some .fsub
  | 18 => some .fmul
  | 19 => some .fmin
  | 20 => some .fmax
  | 21 => some .fminnum
  | 22 => some .fmaxnum
  | 23 => some .fabs
  | 24 => some .fneg
  | 25 => some .fcopysign
  | _ => none

/-- The POP of a pair opcode (R228). -/
def popCode (p : Pop) : BitVec 6 :=
  match p with
  | .nop => 0
  | .mov => 1
  | .iadd => 2
  | .isub => 3
  | .imul => 4
  | .imin => 5
  | .imax => 6
  | .and_ => 7
  | .or_ => 8
  | .xor_ => 9
  | .andn => 10
  | .shl => 11
  | .shr => 12
  | .sar => 13
  | .not_ => 14
  | .ineg => 15
  | .fadd => 16
  | .fsub => 17
  | .fmul => 18
  | .fmin => 19
  | .fmax => 20
  | .fminnum => 21
  | .fmaxnum => 22
  | .fabs => 23
  | .fneg => 24
  | .fcopysign => 25

/-- A pair half from its 31 bits, which stand in `w` from bit `l` up (R224). -/
def unpackHalf (w : W64) (l : Nat) : Except DecodeErr Half :=
  match popOf (fld w (l + 25) 6) with
  | none => .error (.reservedPop (fld w (l + 25) 6).toNat)
  | some p => .ok { pop := p, args := {
      pred := fld w (l + 22) 3, d := fld w (l + 13) 9, s := fld w (l + 4) 9, pty := fld w (l + 1) 3, u := flag w l } }

/-- The instruction of a pair word: the constructor of half 0's mnemonic (R224). -/
def pairInstr (h0 h1 : Half) : Instr :=
  match h0.pop with
  | .nop => .pairNop h0.args h1
  | .mov => .pairMov h0.args h1
  | .iadd => .pairIadd h0.args h1
  | .isub => .pairIsub h0.args h1
  | .imul => .pairImul h0.args h1
  | .imin => .pairImin h0.args h1
  | .imax => .pairImax h0.args h1
  | .and_ => .pairAnd h0.args h1
  | .or_ => .pairOr h0.args h1
  | .xor_ => .pairXor h0.args h1
  | .andn => .pairAndn h0.args h1
  | .shl => .pairShl h0.args h1
  | .shr => .pairShr h0.args h1
  | .sar => .pairSar h0.args h1
  | .not_ => .pairNot h0.args h1
  | .ineg => .pairIneg h0.args h1
  | .fadd => .pairFadd h0.args h1
  | .fsub => .pairFsub h0.args h1
  | .fmul => .pairFmul h0.args h1
  | .fmin => .pairFmin h0.args h1
  | .fmax => .pairFmax h0.args h1
  | .fminnum => .pairFminnum h0.args h1
  | .fmaxnum => .pairFmaxnum h0.args h1
  | .fabs => .pairFabs h0.args h1
  | .fneg => .pairFneg h0.args h1
  | .fcopysign => .pairFcopysign h0.args h1

/-- A pair word (R224). -/
def decodePair (w : W64) : Except DecodeErr Instr :=
  if flag w 62 then .error .reservedBit
  else do
    let h0 ← unpackHalf w 0
    let h1 ← unpackHalf w 31
    pure (pairInstr h0 h1)

/-- How many words an instruction with this first word has (R206). -/
def wordCount (w : W64) : Nat :=
  if !flag w 63 && 0x180 ≤ (fld w 54 9).toNat && (fld w 54 9).toNat ≤ 0x183 then 5 else 1

/-- The fields of a full word by the opcode map of R231. -/
def decodeFull (w : W64) (sh : List W64) : Except DecodeErr Instr :=
  let g := guardOf w
  match (fld w 54 9).toNat with
  | 0x001 => (unpackA w).map (Instr.iadd g)
  | 0x002 => (unpackA w).map (Instr.isub g)
  | 0x003 => (unpackA w).map (Instr.imul g)
  | 0x004 => (unpackA w).map (Instr.imulh g)
  | 0x005 => (unpackB w).map (Instr.imad g)
  | 0x006 => (unpackA w).map (Instr.idiv g)
  | 0x007 => (unpackA w).map (Instr.irem g)
  | 0x008 => (unpackA w).map (Instr.imin g)
  | 0x009 => (unpackA w).map (Instr.imax g)
  | 0x00a => (unpackA w).map (Instr.iabs g)
  | 0x00b => (unpackA w).map (Instr.ineg g)
  | 0x00c => (unpackB w).map (Instr.isad g)
  | 0x00d => (unpackA w).map (Instr.iaddc g)
  | 0x00e => (unpackA w).map (Instr.and_ g)
  | 0x00f => (unpackA w).map (Instr.or_ g)
  | 0x010 => (unpackA w).map (Instr.xor_ g)
  | 0x011 => (unpackA w).map (Instr.not_ g)
  | 0x012 => (unpackA w).map (Instr.andn g)
  | 0x013 => (unpackA w).map (Instr.shl g)
  | 0x014 => (unpackA w).map (Instr.shr g)
  | 0x015 => (unpackA w).map (Instr.sar g)
  | 0x016 => (unpackA w).map (Instr.rot g)
  | 0x017 => (unpackB w).map (Instr.funnel g)
  | 0x018 => (unpackA w).map (Instr.popc g)
  | 0x019 => (unpackA w).map (Instr.clz g)
  | 0x01a => (unpackA w).map (Instr.ctz g)
  | 0x01b => (unpackA w).map (Instr.brev g)
  | 0x01c => (unpackB w).map (Instr.bfe g)
  | 0x01d => (unpackB w).map (Instr.bfi g)
  | 0x01e => (unpackB w).map (Instr.sel g)
  | 0x01f => (unpackA w).map (Instr.icmp g)
  | 0x020 => (unpackA w).map (Instr.mov g)
  | 0x021 => (unpackI w).map (Instr.movi g)
  | 0x022 => (unpackI w).map (Instr.movhi g)
  | 0x023 => (unpackB w).map (Instr.lea g)
  | 0x024 => (unpackB w).map (Instr.dp4 g)
  | 0x040 => (unpackA w).map (Instr.fadd g)
  | 0x041 => (unpackA w).map (Instr.fsub g)
  | 0x042 => (unpackA w).map (Instr.fmul g)
  | 0x043 => (unpackB w).map (Instr.fma g)
  | 0x044 => (unpackA w).map (Instr.fmin g)
  | 0x045 => (unpackA w).map (Instr.fmax g)
  | 0x046 => (unpackA w).map (Instr.fminnum g)
  | 0x047 => (unpackA w).map (Instr.fmaxnum g)
  | 0x048 => (unpackA w).map (Instr.fabs g)
  | 0x049 => (unpackA w).map (Instr.fneg g)
  | 0x04a => (unpackA w).map (Instr.fcopysign g)
  | 0x04b => (unpackA w).map (Instr.fcmp g)
  | 0x04c => (unpackA w).map (Instr.fclass g)
  | 0x04d => (unpackA w).map (Instr.fdiv g)
  | 0x04e => (unpackA w).map (Instr.fsqrt g)
  | 0x04f => (unpackA w).map (Instr.frcp g)
  | 0x050 => (unpackA w).map (Instr.frsq g)
  | 0x051 => (unpackA w).map (Instr.fexp2 g)
  | 0x052 => (unpackA w).map (Instr.flog2 g)
  | 0x053 => (unpackA w).map (Instr.fsin g)
  | 0x054 => (unpackA w).map (Instr.fcos g)
  | 0x055 => (unpackA w).map (Instr.ftanh g)
  | 0x056 => (unpackA w).map (Instr.fscale g)
  | 0x057 => (unpackA w).map (Instr.fgetexp g)
  | 0x058 => (unpackA w).map (Instr.fround g)
  | 0x059 => (unpackA w).map (Instr.ffrac g)
  | 0x05a => (unpackB w).map (Instr.fdot2 g)
  | 0x080 => (unpackA w).map (Instr.cvt g)
  | 0x081 => (unpackA w).map (Instr.cvtf8 g)
  | 0x082 => (unpackA w).map (Instr.bxpack g)
  | 0x083 => (unpackA w).map (Instr.bxunpack g)
  | 0x084 => (unpackA w).map (Instr.shfl g)
  | 0x085 => (unpackA w).map (Instr.red g)
  | 0x086 => (unpackA w).map (Instr.scan g)
  | 0x087 => (unpackA w).map (Instr.match_ g)
  | 0x088 => (unpackA w).map (Instr.elect g)
  | 0x089 => (unpackA w).map (Instr.vote g)
  | 0x08a => (unpackA w).map (Instr.rfal g)
  | 0x08b => (unpackA w).map (Instr.rdlane g)
  | 0x08c => (unpackA w).map (Instr.wrlane g)
  | 0x08d => (unpackA w).map (Instr.permx g)
  | 0x0c0 => (unpackM w).map (Instr.ld g)
  | 0x0c1 => (unpackM w).map (Instr.st g)
  | 0x0c2 => (unpackM w).map (Instr.ldl g)
  | 0x0c3 => (unpackM w).map (Instr.stl g)
  | 0x0c4 => (unpackM w).map (Instr.ldu g)
  | 0x0c5 => (unpackM w).map (Instr.stu g)
  | 0x0c6 => (unpackM w).map (Instr.ldx g)
  | 0x0c7 => (unpackM w).map (Instr.stx g)
  | 0x0c8 => (unpackM w).map (Instr.pref g)
  | 0x0c9 => (unpackM w).map (Instr.invl1 g)
  | 0x0ca => (unpackM w).map (Instr.waitk g)
  | 0x0cb => (unpackM w).map (Instr.fence g)
  | 0x0cc => (unpackM w).map (Instr.fencex g)
  | 0x0cd => (unpackM w).map (Instr.ost g)
  | 0x0ce => (unpackM w).map (Instr.ald g)
  | 0x100 => (unpackAtom w).map (Instr.atom g)
  | 0x101 => (unpackAtomr w).map (Instr.atomr g)
  | 0x102 => (unpackAtom w).map (Instr.cas g)
  | 0x103 => (unpackM w).map (Instr.dcas g)
  | 0x104 => (unpackM w).map (Instr.amov g)
  | 0x105 => (unpackM w).map (Instr.datom g)
  | 0x106 => (unpackI w).map (Instr.bar g)
  | 0x107 => (unpackI w).map (Instr.barspec g)
  | 0x108 => (unpackM w).map (Instr.mbara g)
  | 0x109 => (unpackM w).map (Instr.mbarw g)
  | 0x10a => (unpackA w).map (Instr.fempty g)
  | 0x10b => (unpackA w).map (Instr.fefill g)
  | 0x140 => (unpackA w).map (Instr.sadd g)
  | 0x141 => (unpackA w).map (Instr.ssub g)
  | 0x142 => (unpackA w).map (Instr.smul g)
  | 0x143 => (unpackA w).map (Instr.smulh g)
  | 0x144 => (unpackA w).map (Instr.sdiv g)
  | 0x145 => (unpackA w).map (Instr.sand g)
  | 0x146 => (unpackA w).map (Instr.sor g)
  | 0x147 => (unpackA w).map (Instr.sxor g)
  | 0x148 => (unpackA w).map (Instr.snot g)
  | 0x149 => (unpackA w).map (Instr.sshl g)
  | 0x14a => (unpackA w).map (Instr.sshr g)
  | 0x14b => (unpackA w).map (Instr.ssar g)
  | 0x14c => (unpackA w).map (Instr.smin g)
  | 0x14d => (unpackA w).map (Instr.smax g)
  | 0x14e => (unpackB w).map (Instr.ssel g)
  | 0x14f => (unpackA w).map (Instr.scmp g)
  | 0x150 => (unpackA w).map (Instr.smov g)
  | 0x151 => (unpackI w).map (Instr.smovi g)
  | 0x152 => (unpackI w).map (Instr.smovhi g)
  | 0x153 => (unpackA w).map (Instr.spopc g)
  | 0x154 => (unpackA w).map (Instr.sclz g)
  | 0x155 => (unpackA w).map (Instr.sfadd g)
  | 0x156 => (unpackA w).map (Instr.sfmul g)
  | 0x157 => (unpackB w).map (Instr.sfma g)
  | 0x158 => (unpackA w).map (Instr.scvt g)
  | 0x159 => (unpackJ w).map (Instr.bra g)
  | 0x15a => (unpackJ w).map (Instr.brc g)
  | 0x15b => (unpackJ w).map (Instr.brv g)
  | 0x15c => (unpackJ w).map (Instr.brx g)
  | 0x15d => (unpackJ w).map (Instr.call g)
  | 0x15e => (unpackJ w).map (Instr.ret g)
  | 0x15f => (unpackJ w).map (Instr.join g)
  | 0x160 => (unpackJ w).map (Instr.exit g)
  | 0x161 => (unpackJ w).map (Instr.nop g)
  | 0x162 => (unpackJ w).map (Instr.yield g)
  | 0x163 => (unpackJ w).map (Instr.region g)
  | 0x164 => (unpackI w).map (Instr.setfmt g)
  | 0x165 => (unpackA w).map (Instr.getfmt g)
  | 0x166 => (unpackI w).map (Instr.getsr g)
  | 0x167 => (unpackA w).map (Instr.plog g)
  | 0x180 => (unpackCopy w sh).map (Instr.tcopy g)
  | 0x181 => (unpackCopy w sh).map (Instr.tgather g)
  | 0x182 => (unpackCopy w sh).map (Instr.tscatter g)
  | 0x183 => (unpackCopy w sh).map (Instr.tfill g)
  | 0x184 => (unpackI w).map (Instr.cwait g)
  | 0x185 => (unpackA w).map (Instr.cpoll g)
  | 0x186 => (unpackI w).map (Instr.stginit g)
  | 0x187 => (unpackI w).map (Instr.stgfill g)
  | 0x188 => (unpackA w).map (Instr.stgwait g)
  | 0x189 => (unpackI w).map (Instr.stgfree g)
  | 0x18a => (unpackA w).map (Instr.stgqry g)
  | 0x18b => (unpackA w).map (Instr.calloc g)
  | 0x18c => (unpackA w).map (Instr.cgate g)
  | 0x18d => (unpackM w).map (Instr.cpost g)
  | 0x18e => (unpackA w).map (Instr.cqry g)
  | 0x1c0 => (unpackI w).map (Instr.mclaim g)
  | 0x1c1 => (unpackI w).map (Instr.mrel g)
  | 0x1c2 => (unpackMma w).map (Instr.mma g)
  | 0x1c3 => (unpackI w).map (Instr.mzero g)
  | 0x1c4 => (unpackM w).map (Instr.mdrain g)
  | 0x1c5 => (unpackI w).map (Instr.mwait g)
  | 0x1c6 => (unpackA w).map (Instr.mscale g)
  | 0x1c7 => (unpackM w).map (Instr.emit g)
  | 0x1c8 => (unpackA w).map (Instr.evrd g)
  | 0x1c9 => (unpackA w).map (Instr.evwait g)
  | 0x1ca => (unpackM w).map (Instr.aload g)
  | 0x1cb => (unpackI w).map (Instr.aarm g)
  | 0x1cc => (unpackI w).map (Instr.adisarm g)
  | 0x1cd => (unpackM w).map (Instr.asave g)
  | 0x1ce => (unpackA w).map (Instr.syscall g)
  | 0x1cf => (unpackI w).map (Instr.trap g)
  | 0x1d0 => (unpackI w).map (Instr.brkpt g)
  | 0x1d1 => (unpackA w).map (Instr.rdcyc g)
  | 0x1d2 => (unpackM w).map (Instr.vdsub g)
  | 0x1d3 => (unpackM w).map (Instr.bqput g)
  | 0x1d4 => (unpackM w).map (Instr.bqget g)
  | op => .error (.unassigned op)

/-- An instruction from its first word and its shape words: R232 step 2. -/
def decodeWords (w : W64) (sh : List W64) : Except DecodeErr Instr :=
  match (if flag w 63 then decodePair w else decodeFull w sh) with
  | .error e => .error e
  | .ok i => if wellFormed i then .ok i else .error (.breach i)

/-- The word of eight little-endian bytes (R206). -/
def wordOfBytes (bs : List Byte) : W64 := BitVec.ofNat 64 (ofBytesLE bs)

/-- The first eight bytes of a list as a word, and the bytes after them. -/
def takeWord (bs : List Byte) : Except DecodeErr (W64 × List Byte) :=
  match bs with
  | a :: b :: c :: d :: e :: f :: g :: h :: r => .ok (wordOfBytes [a, b, c, d, e, f, g, h], r)
  | _ => .error .short

/-- The instruction at the head of a list of bytes, and the bytes after it (R206). -/
def decode (bs : List Byte) : Except DecodeErr (Instr × List Byte) := do
  let (w, r) ← takeWord bs
  if wordCount w == 5 then
    let (a, r) ← takeWord r
    let (b, r) ← takeWord r
    let (c, r) ← takeWord r
    let (d, r) ← takeWord r
    let i ← decodeWords w [a, b, c, d]
    pure (i, r)
  else
    let i ← decodeWords w []
    pure (i, r)

/-- The instruction the decoder reads from words laid out as the device stores them: `w` numbers the bits from the
least significant bit of the first word up (R206). -/
def decodeTableWord (_nbits w : Nat) : Option Instr :=
  match decode (bytesLE 40 w) with
  | .ok (i, _) => some i
  | .error _ => none

/-- A full word from its opcode, its guard and its body (R207). -/
def fullWord (op : BitVec 9) (g : Guard) (body : BitVec 50) : W64 :=
  0#1 ++ op ++ BitVec.ofBool g.neg ++ g.pred ++ body

/-- The body of layout A (R210). -/
def packA (f : FA) : BitVec 50 :=
  f.dst ++ f.srca ++ f.srcb ++ BitVec.ofBool f.fea ++ BitVec.ofBool f.feb ++ BitVec.ofBool f.u ++ tyCode f.ty ++ f.rnd ++
  BitVec.ofBool f.sat ++ BitVec.ofBool f.lmt ++ f.lmk ++ f.lmp ++ 0#4

/-- The body of layout B (R214). -/
def packB (f : FB) : BitVec 50 :=
  f.dst ++ f.srca ++ f.srcb ++ f.srcc ++ BitVec.ofBool f.fea ++ BitVec.ofBool f.feb ++ BitVec.ofBool f.fec ++
  tyCode f.ty ++ f.rnd ++ BitVec.ofBool f.sat ++ BitVec.ofBool f.u ++ 0#3

/-- The body of layout I (R215). -/
def packI (f : FI) : BitVec 50 :=
  f.dst ++ f.srca ++ BitVec.ofBool f.fe ++ tyCode f.ty ++ f.imm ++ 0#3

/-- The body of layout M (R216). -/
def packM (f : FM) : BitVec 50 :=
  f.data ++ f.base ++ BitVec.ofBool f.u ++ f.off ++ f.wid ++ BitVec.ofBool f.tse ++ f.tslot ++ f.twait ++
  BitVec.ofBool f.fe ++ f.scope ++ f.ord

/-- The body of layout J (R219). -/
def packJ (f : FJ) : BitVec 50 :=
  f.off ++ f.reg ++ f.creg ++ BitVec.ofBool f.cneg ++ f.pred ++ BitVec.ofBool f.pneg ++ f.len

/-- The body of ATOM and CAS (R317). -/
def packAtom (f : FAtom) : BitVec 50 :=
  f.data ++ f.base ++ BitVec.ofBool f.u ++ f.src ++ BitVec.ofBool f.fes ++ f.wid ++ f.aop ++ f.twait ++
  BitVec.ofBool f.fe ++ f.scope ++ f.ord

/-- The body of ATOMR (R320). -/
def packAtomr (f : FAtomr) : BitVec 50 :=
  f.data ++ f.base ++ BitVec.ofBool f.u ++ f.aop ++ f.off ++ f.wid ++ BitVec.ofBool f.tse ++ f.tslot ++ f.twait ++
  BitVec.ofBool f.fe ++ f.scope ++ f.ord

/-- The body of MMA (R213). -/
def packMma (f : FMma) : BitVec 50 :=
  f.dst ++ f.srca ++ f.srcb ++ BitVec.ofBool f.fea ++ BitVec.ofBool f.feb ++ BitVec.ofBool f.u ++ tyCode f.ty ++ f.rnd ++
  BitVec.ofBool f.sat ++ f.mc ++ f.n ++ 0#1 ++ 0#4

/-- The body of a copy start (R353). -/
def packCopy (f : FCopy) : BitVec 50 :=
  f.data ++ f.base ++ 1#1 ++ f.ssp ++ f.dsp ++ f.xop ++ BitVec.ofBool f.stg ++ f.ctag ++ f.wid ++ BitVec.ofBool f.tse ++
  f.tslot ++ f.twait ++ BitVec.ofBool f.fe ++ 0#3 ++ 0#2

/-- The shape words of a copy start (R229). -/
def copyShape (f : FCopy) : List W64 := [f.f1 ++ f.f0, f.f3 ++ f.f2, f.f5 ++ f.f4, f.f7 ++ f.f6]

/-- The 31 bits of a pair half (R224). -/
def packHalf (h : Half) : BitVec 31 :=
  popCode h.pop ++ h.args.pred ++ h.args.d ++ h.args.s ++ h.args.pty ++ BitVec.ofBool h.args.u

/-- A pair word (R224). -/
def pairWord (h0 h1 : Half) : W64 := 1#1 ++ 0#1 ++ packHalf h1 ++ packHalf h0

/-- The words of an instruction; a step of a unit or of the host has none. -/
def encode (i : Instr) : Option (List W64) :=
  match i with
  | .iadd g f => some [fullWord 0x001 g (packA f)]
  | .isub g f => some [fullWord 0x002 g (packA f)]
  | .imul g f => some [fullWord 0x003 g (packA f)]
  | .imulh g f => some [fullWord 0x004 g (packA f)]
  | .imad g f => some [fullWord 0x005 g (packB f)]
  | .idiv g f => some [fullWord 0x006 g (packA f)]
  | .irem g f => some [fullWord 0x007 g (packA f)]
  | .imin g f => some [fullWord 0x008 g (packA f)]
  | .imax g f => some [fullWord 0x009 g (packA f)]
  | .iabs g f => some [fullWord 0x00a g (packA f)]
  | .ineg g f => some [fullWord 0x00b g (packA f)]
  | .isad g f => some [fullWord 0x00c g (packB f)]
  | .iaddc g f => some [fullWord 0x00d g (packA f)]
  | .and_ g f => some [fullWord 0x00e g (packA f)]
  | .or_ g f => some [fullWord 0x00f g (packA f)]
  | .xor_ g f => some [fullWord 0x010 g (packA f)]
  | .not_ g f => some [fullWord 0x011 g (packA f)]
  | .andn g f => some [fullWord 0x012 g (packA f)]
  | .shl g f => some [fullWord 0x013 g (packA f)]
  | .shr g f => some [fullWord 0x014 g (packA f)]
  | .sar g f => some [fullWord 0x015 g (packA f)]
  | .rot g f => some [fullWord 0x016 g (packA f)]
  | .funnel g f => some [fullWord 0x017 g (packB f)]
  | .popc g f => some [fullWord 0x018 g (packA f)]
  | .clz g f => some [fullWord 0x019 g (packA f)]
  | .ctz g f => some [fullWord 0x01a g (packA f)]
  | .brev g f => some [fullWord 0x01b g (packA f)]
  | .bfe g f => some [fullWord 0x01c g (packB f)]
  | .bfi g f => some [fullWord 0x01d g (packB f)]
  | .sel g f => some [fullWord 0x01e g (packB f)]
  | .icmp g f => some [fullWord 0x01f g (packA f)]
  | .mov g f => some [fullWord 0x020 g (packA f)]
  | .movi g f => some [fullWord 0x021 g (packI f)]
  | .movhi g f => some [fullWord 0x022 g (packI f)]
  | .lea g f => some [fullWord 0x023 g (packB f)]
  | .dp4 g f => some [fullWord 0x024 g (packB f)]
  | .fadd g f => some [fullWord 0x040 g (packA f)]
  | .fsub g f => some [fullWord 0x041 g (packA f)]
  | .fmul g f => some [fullWord 0x042 g (packA f)]
  | .fma g f => some [fullWord 0x043 g (packB f)]
  | .fmin g f => some [fullWord 0x044 g (packA f)]
  | .fmax g f => some [fullWord 0x045 g (packA f)]
  | .fminnum g f => some [fullWord 0x046 g (packA f)]
  | .fmaxnum g f => some [fullWord 0x047 g (packA f)]
  | .fabs g f => some [fullWord 0x048 g (packA f)]
  | .fneg g f => some [fullWord 0x049 g (packA f)]
  | .fcopysign g f => some [fullWord 0x04a g (packA f)]
  | .fcmp g f => some [fullWord 0x04b g (packA f)]
  | .fclass g f => some [fullWord 0x04c g (packA f)]
  | .fdiv g f => some [fullWord 0x04d g (packA f)]
  | .fsqrt g f => some [fullWord 0x04e g (packA f)]
  | .frcp g f => some [fullWord 0x04f g (packA f)]
  | .frsq g f => some [fullWord 0x050 g (packA f)]
  | .fexp2 g f => some [fullWord 0x051 g (packA f)]
  | .flog2 g f => some [fullWord 0x052 g (packA f)]
  | .fsin g f => some [fullWord 0x053 g (packA f)]
  | .fcos g f => some [fullWord 0x054 g (packA f)]
  | .ftanh g f => some [fullWord 0x055 g (packA f)]
  | .fscale g f => some [fullWord 0x056 g (packA f)]
  | .fgetexp g f => some [fullWord 0x057 g (packA f)]
  | .fround g f => some [fullWord 0x058 g (packA f)]
  | .ffrac g f => some [fullWord 0x059 g (packA f)]
  | .fdot2 g f => some [fullWord 0x05a g (packB f)]
  | .cvt g f => some [fullWord 0x080 g (packA f)]
  | .cvtf8 g f => some [fullWord 0x081 g (packA f)]
  | .bxpack g f => some [fullWord 0x082 g (packA f)]
  | .bxunpack g f => some [fullWord 0x083 g (packA f)]
  | .shfl g f => some [fullWord 0x084 g (packA f)]
  | .red g f => some [fullWord 0x085 g (packA f)]
  | .scan g f => some [fullWord 0x086 g (packA f)]
  | .match_ g f => some [fullWord 0x087 g (packA f)]
  | .elect g f => some [fullWord 0x088 g (packA f)]
  | .vote g f => some [fullWord 0x089 g (packA f)]
  | .rfal g f => some [fullWord 0x08a g (packA f)]
  | .rdlane g f => some [fullWord 0x08b g (packA f)]
  | .wrlane g f => some [fullWord 0x08c g (packA f)]
  | .permx g f => some [fullWord 0x08d g (packA f)]
  | .ld g f => some [fullWord 0x0c0 g (packM f)]
  | .st g f => some [fullWord 0x0c1 g (packM f)]
  | .ldl g f => some [fullWord 0x0c2 g (packM f)]
  | .stl g f => some [fullWord 0x0c3 g (packM f)]
  | .ldu g f => some [fullWord 0x0c4 g (packM f)]
  | .stu g f => some [fullWord 0x0c5 g (packM f)]
  | .ldx g f => some [fullWord 0x0c6 g (packM f)]
  | .stx g f => some [fullWord 0x0c7 g (packM f)]
  | .pref g f => some [fullWord 0x0c8 g (packM f)]
  | .invl1 g f => some [fullWord 0x0c9 g (packM f)]
  | .waitk g f => some [fullWord 0x0ca g (packM f)]
  | .fence g f => some [fullWord 0x0cb g (packM f)]
  | .fencex g f => some [fullWord 0x0cc g (packM f)]
  | .ost g f => some [fullWord 0x0cd g (packM f)]
  | .ald g f => some [fullWord 0x0ce g (packM f)]
  | .atom g f => some [fullWord 0x100 g (packAtom f)]
  | .atomr g f => some [fullWord 0x101 g (packAtomr f)]
  | .cas g f => some [fullWord 0x102 g (packAtom f)]
  | .dcas g f => some [fullWord 0x103 g (packM f)]
  | .amov g f => some [fullWord 0x104 g (packM f)]
  | .datom g f => some [fullWord 0x105 g (packM f)]
  | .bar g f => some [fullWord 0x106 g (packI f)]
  | .barspec g f => some [fullWord 0x107 g (packI f)]
  | .mbara g f => some [fullWord 0x108 g (packM f)]
  | .mbarw g f => some [fullWord 0x109 g (packM f)]
  | .fempty g f => some [fullWord 0x10a g (packA f)]
  | .fefill g f => some [fullWord 0x10b g (packA f)]
  | .sadd g f => some [fullWord 0x140 g (packA f)]
  | .ssub g f => some [fullWord 0x141 g (packA f)]
  | .smul g f => some [fullWord 0x142 g (packA f)]
  | .smulh g f => some [fullWord 0x143 g (packA f)]
  | .sdiv g f => some [fullWord 0x144 g (packA f)]
  | .sand g f => some [fullWord 0x145 g (packA f)]
  | .sor g f => some [fullWord 0x146 g (packA f)]
  | .sxor g f => some [fullWord 0x147 g (packA f)]
  | .snot g f => some [fullWord 0x148 g (packA f)]
  | .sshl g f => some [fullWord 0x149 g (packA f)]
  | .sshr g f => some [fullWord 0x14a g (packA f)]
  | .ssar g f => some [fullWord 0x14b g (packA f)]
  | .smin g f => some [fullWord 0x14c g (packA f)]
  | .smax g f => some [fullWord 0x14d g (packA f)]
  | .ssel g f => some [fullWord 0x14e g (packB f)]
  | .scmp g f => some [fullWord 0x14f g (packA f)]
  | .smov g f => some [fullWord 0x150 g (packA f)]
  | .smovi g f => some [fullWord 0x151 g (packI f)]
  | .smovhi g f => some [fullWord 0x152 g (packI f)]
  | .spopc g f => some [fullWord 0x153 g (packA f)]
  | .sclz g f => some [fullWord 0x154 g (packA f)]
  | .sfadd g f => some [fullWord 0x155 g (packA f)]
  | .sfmul g f => some [fullWord 0x156 g (packA f)]
  | .sfma g f => some [fullWord 0x157 g (packB f)]
  | .scvt g f => some [fullWord 0x158 g (packA f)]
  | .bra g f => some [fullWord 0x159 g (packJ f)]
  | .brc g f => some [fullWord 0x15a g (packJ f)]
  | .brv g f => some [fullWord 0x15b g (packJ f)]
  | .brx g f => some [fullWord 0x15c g (packJ f)]
  | .call g f => some [fullWord 0x15d g (packJ f)]
  | .ret g f => some [fullWord 0x15e g (packJ f)]
  | .join g f => some [fullWord 0x15f g (packJ f)]
  | .exit g f => some [fullWord 0x160 g (packJ f)]
  | .nop g f => some [fullWord 0x161 g (packJ f)]
  | .yield g f => some [fullWord 0x162 g (packJ f)]
  | .region g f => some [fullWord 0x163 g (packJ f)]
  | .setfmt g f => some [fullWord 0x164 g (packI f)]
  | .getfmt g f => some [fullWord 0x165 g (packA f)]
  | .getsr g f => some [fullWord 0x166 g (packI f)]
  | .plog g f => some [fullWord 0x167 g (packA f)]
  | .tcopy g f => some (fullWord 0x180 g (packCopy f) :: copyShape f)
  | .tgather g f => some (fullWord 0x181 g (packCopy f) :: copyShape f)
  | .tscatter g f => some (fullWord 0x182 g (packCopy f) :: copyShape f)
  | .tfill g f => some (fullWord 0x183 g (packCopy f) :: copyShape f)
  | .cwait g f => some [fullWord 0x184 g (packI f)]
  | .cpoll g f => some [fullWord 0x185 g (packA f)]
  | .stginit g f => some [fullWord 0x186 g (packI f)]
  | .stgfill g f => some [fullWord 0x187 g (packI f)]
  | .stgwait g f => some [fullWord 0x188 g (packA f)]
  | .stgfree g f => some [fullWord 0x189 g (packI f)]
  | .stgqry g f => some [fullWord 0x18a g (packA f)]
  | .calloc g f => some [fullWord 0x18b g (packA f)]
  | .cgate g f => some [fullWord 0x18c g (packA f)]
  | .cpost g f => some [fullWord 0x18d g (packM f)]
  | .cqry g f => some [fullWord 0x18e g (packA f)]
  | .mclaim g f => some [fullWord 0x1c0 g (packI f)]
  | .mrel g f => some [fullWord 0x1c1 g (packI f)]
  | .mma g f => some [fullWord 0x1c2 g (packMma f)]
  | .mzero g f => some [fullWord 0x1c3 g (packI f)]
  | .mdrain g f => some [fullWord 0x1c4 g (packM f)]
  | .mwait g f => some [fullWord 0x1c5 g (packI f)]
  | .mscale g f => some [fullWord 0x1c6 g (packA f)]
  | .emit g f => some [fullWord 0x1c7 g (packM f)]
  | .evrd g f => some [fullWord 0x1c8 g (packA f)]
  | .evwait g f => some [fullWord 0x1c9 g (packA f)]
  | .aload g f => some [fullWord 0x1ca g (packM f)]
  | .aarm g f => some [fullWord 0x1cb g (packI f)]
  | .adisarm g f => some [fullWord 0x1cc g (packI f)]
  | .asave g f => some [fullWord 0x1cd g (packM f)]
  | .syscall g f => some [fullWord 0x1ce g (packA f)]
  | .trap g f => some [fullWord 0x1cf g (packI f)]
  | .brkpt g f => some [fullWord 0x1d0 g (packI f)]
  | .rdcyc g f => some [fullWord 0x1d1 g (packA f)]
  | .vdsub g f => some [fullWord 0x1d2 g (packM f)]
  | .bqput g f => some [fullWord 0x1d3 g (packM f)]
  | .bqget g f => some [fullWord 0x1d4 g (packM f)]
  | .pairNop a h => some [pairWord ⟨.nop, a⟩ h]
  | .pairMov a h => some [pairWord ⟨.mov, a⟩ h]
  | .pairIadd a h => some [pairWord ⟨.iadd, a⟩ h]
  | .pairIsub a h => some [pairWord ⟨.isub, a⟩ h]
  | .pairImul a h => some [pairWord ⟨.imul, a⟩ h]
  | .pairImin a h => some [pairWord ⟨.imin, a⟩ h]
  | .pairImax a h => some [pairWord ⟨.imax, a⟩ h]
  | .pairAnd a h => some [pairWord ⟨.and_, a⟩ h]
  | .pairOr a h => some [pairWord ⟨.or_, a⟩ h]
  | .pairXor a h => some [pairWord ⟨.xor_, a⟩ h]
  | .pairAndn a h => some [pairWord ⟨.andn, a⟩ h]
  | .pairShl a h => some [pairWord ⟨.shl, a⟩ h]
  | .pairShr a h => some [pairWord ⟨.shr, a⟩ h]
  | .pairSar a h => some [pairWord ⟨.sar, a⟩ h]
  | .pairNot a h => some [pairWord ⟨.not_, a⟩ h]
  | .pairIneg a h => some [pairWord ⟨.ineg, a⟩ h]
  | .pairFadd a h => some [pairWord ⟨.fadd, a⟩ h]
  | .pairFsub a h => some [pairWord ⟨.fsub, a⟩ h]
  | .pairFmul a h => some [pairWord ⟨.fmul, a⟩ h]
  | .pairFmin a h => some [pairWord ⟨.fmin, a⟩ h]
  | .pairFmax a h => some [pairWord ⟨.fmax, a⟩ h]
  | .pairFminnum a h => some [pairWord ⟨.fminnum, a⟩ h]
  | .pairFmaxnum a h => some [pairWord ⟨.fmaxnum, a⟩ h]
  | .pairFabs a h => some [pairWord ⟨.fabs, a⟩ h]
  | .pairFneg a h => some [pairWord ⟨.fneg, a⟩ h]
  | .pairFcopysign a h => some [pairWord ⟨.fcopysign, a⟩ h]
  | .ringDoorbell _ _ _ => none
  | .ringEnable _ _ => none
  | .partitionRegisterWrite _ _ => none
  | .registerWrite _ _ _ => none
  | .postEvent _ => none
  | .create _ => none
  | .preempt _ => none
  | .resume _ => none
  | .teardown _ => none
  | .regionUpdate _ => none
  | .regionReset _ => none
  | .domainConfig _ => none
  | .streamBind _ => none
  | .streamClose _ => none
  | .sliceExpiry _ => none
  | .saveComplete _ => none
  | .resumeComplete _ => none
  | .invalidationComplete _ => none
  | .lazyWriteOutComplete _ _ => none
  | .firmwareActivation => none
  | .pageInval _ _ => none
  | .pageResolve _ _ => none
  | .pageFail _ _ => none
  | .trapcfg _ _ => none
  | .tracecfg _ _ => none
  | .resolveRetry _ _ => none
  | .resolveSkip _ _ => none
  | .resolveGoto _ _ => none
  | .resolveRestart _ _ => none
  | .resolveKill _ _ => none
  | .halt _ _ => none
  | .release _ _ => none
  | .step _ _ => none
  | .readreg _ _ => none
  | .writereg _ _ => none
  | .getVersion _ _ => none
  | .getCapabilities _ _ => none
  | .negotiateAlgorithms _ _ => none
  | .getDigests _ _ => none
  | .getCertificate _ _ => none
  | .challenge _ _ => none
  | .getMeasurements _ _ => none
  | .syscallReply _ _ _ => none
  | .power _ _ => none
  | .unlock _ _ => none
  | .lock _ _ => none
  | .debuglvl _ _ => none
  | .fwstage _ _ => none
  | .fwact _ _ => none
  | .port _ _ => none
  | .bqcfg _ _ => none
  | .pwrcap _ _ => none
  | .idsig _ _ => none
  | .eventIntake _ _ => none
  | .closeMarkerIntake _ _ => none
  | .diecycleAdvance _ => none
  | .eventRelease _ => none
  | .candidateDeadline _ => none
  | .entryStallResume _ => none
  | .pendStallResume _ => none
  | .groupOffer _ _ => none
  | .pendingLaunchRetry _ _ => none
  | .launchComplete _ _ => none
  | .datomEntryArrival _ => none
  | .datomApply _ _ => none
  | .groupPlace _ => none
  | .stealRequest _ => none
  | .stealAnswer _ => none
  | .detDispatch _ _ => none
  | .compactorMove _ => none
  | .groupSlotFree _ _ => none
  | .hang _ _ _ => none
  | .probeSend _ _ _ => none
  | .probeArrival _ => none
  | .barrierArrival _ _ _ => none
  | .trapTaken _ _ _ => none
  | .homeAccess _ => none
  | .loadReturn _ => none
  | .mbarwPoll _ _ _ _ => none
  | .pageWalkComplete _ _ => none
  | .pullAttemptComplete _ _ _ => none
  | .pullRetry _ => none
  | .hostWrite _ _ => none
  | .copyRetire _ _ => none
  | .copyReplay _ _ => none
  | .arrayStart _ => none
  | .arrayRetire _ => none
  | .drainStart _ => none
  | .drainRetire _ _ => none
  | .mrelTakesEffect _ _ => none
  | .chunkArrival _ _ => none
  | .combineDeadline _ _ => none
  | .slotRelease _ _ => none
  | .submissionStart _ _ => none
  | .framePut _ _ => none
  | .submissionEnd _ _ => none
  | .flitReceive _ _ => none
  | .portTrained _ => none
  | .trainingTimeout _ => none
  | .lossOfSignal _ => none
  | .ucieModuleDown _ => none
  | .ucieModuleActive _ => none
  | .detectedError _ _ _ _ => none
  | .pmD3hot => none
  | .pmD0 => none
  | .powerRemoved => none
  | .powerOn _ _ _ => none
  | .clockThrottle => none
  | .leaseRenew _ => none
  | .leaseLapse _ => none
  | .vfEnable _ _ => none
  | .routeTableLoad _ => none
/-- The bytes of an instruction as they stand in memory (R206). -/
def encodeBytes (i : Instr) : Option (List Byte) :=
  (encode i).map (fun ws => ws.flatMap (fun w => bytesLE 8 w.toNat))

end Sys2Proof
end

