-- ==== Sys2Proof/Machine/NumFmt.lean ====
section
/-!
DEFINITION. Number formats, exact arithmetic and rounding (spec/02_number_formats.md, R25-R50). A float operand is
decoded to an exact value, the operation is exact on integers, and one rounding packs the result.
-/
namespace Sys2Proof.Machine

/-- A binary float format (R28, R39): exponent and fraction widths, bias, largest finite magnitude and canonical NaN
as bit patterns; `hasInf` is false for E4M3. -/
structure Fmt where
  w : Nat
  ew : Nat
  mw : Nat
  bias : Nat
  maxMag : Nat
  canon : Nat
  hasInf : Bool
  deriving DecidableEq, Repr

def fmtF64 : Fmt := ⟨64, 11, 52, 1023, 0x7FEFFFFFFFFFFFFF, 0x7FF8000000000000, true⟩
def fmtF32 : Fmt := ⟨32, 8, 23, 127, 0x7F7FFFFF, 0x7FC00000, true⟩
def fmtF16 : Fmt := ⟨16, 5, 10, 15, 0x7BFF, 0x7E00, true⟩
def fmtB16 : Fmt := ⟨16, 8, 7, 127, 0x7F7F, 0x7FC0, true⟩
def fmtE4M3 : Fmt := ⟨8, 4, 3, 7, 0x7E, 0x7F, false⟩
def fmtE5M2 : Fmt := ⟨8, 5, 2, 15, 0x7B, 0x7E, true⟩

/-- The format of a float type (R9). -/
def tyFmt : Ty → Option Fmt
  | .f64 => some fmtF64
  | .f32 => some fmtF32
  | .f16 => some fmtF16
  | .b16 => some fmtB16
  | .e4m3 => some fmtE4M3
  | .e5m2 => some fmtE5M2
  | _ => none

/-- The width of a type in bits (R9). -/
def tyWidth : Ty → Nat
  | .i8 | .n8 | .e4m3 | .e5m2 | .bx => 8
  | .i16 | .n16 | .f16 | .b16 => 16
  | .i32 | .n32 | .f32 => 32
  | .i64 | .n64 | .f64 => 64

def tySigned : Ty → Bool
  | .i8 | .i16 | .i32 | .i64 => true
  | _ => false

def tyInt : Ty → Bool
  | .i8 | .i16 | .i32 | .i64 | .n8 | .n16 | .n32 | .n64 => true
  | _ => false

/-- F16, B16, F32, F64 (R286 "IEEE"). -/
def tyIeee : Ty → Bool
  | .f16 | .b16 | .f32 | .f64 => true
  | _ => false

def tyFloat : Ty → Bool
  | .f16 | .b16 | .f32 | .f64 | .e4m3 | .e5m2 => true
  | _ => false

/-- An operand's exact value: a NaN with its sign and its fraction left-justified to 52 bits, an infinity, or
`(-1)^s * m * 2^e`. -/
inductive FVal where
  | nan (s : Bool) (frac : Nat)
  | inf (s : Bool)
  | fin (s : Bool) (m : Nat) (e : Int)
  deriving DecidableEq, Repr

/-- Reads a bit pattern (R28, R39). -/
def fDecode (f : Fmt) (x : Nat) : FVal :=
  let s := x.testBit (f.w - 1)
  let ex := bitsOf x f.mw f.ew
  let fr := x % 2 ^ f.mw
  if f.hasInf = false ∧ ex = 2 ^ f.ew - 1 ∧ fr = 2 ^ f.mw - 1 then .nan s (fr <<< (52 - f.mw))
  else if f.hasInf ∧ ex = 2 ^ f.ew - 1 then
    if fr = 0 then .inf s else .nan s (fr <<< (52 - f.mw))
  else if ex = 0 then .fin s fr (1 - (f.bias : Int) - f.mw)
  else .fin s (2 ^ f.mw + fr) ((ex : Int) - f.bias - f.mw)

def fIsNan : FVal → Bool
  | .nan _ _ => true
  | _ => false

def fSign : FVal → Bool
  | .nan s _ => s
  | .inf s => s
  | .fin s _ _ => s

def fIsZero : FVal → Bool
  | .fin _ 0 _ => true
  | _ => false

/-- Places the sign bit over a magnitude pattern. -/
def withSign (f : Fmt) (s : Bool) (mag : Nat) : Nat := if s then mag + 2 ^ (f.w - 1) else mag

/-- How an operation rounds: mode (R32: 0 RNE, 1 RTZ, 2 RDN, 3 RUP), saturation (R34), NaN propagation (R36). -/
structure Rnd where
  rm : Nat
  sat : Bool
  nanp : Bool
  deriving DecidableEq, Repr

/-- FP32-style RNE without saturation and with canonical NaNs. -/
def rne : Rnd := ⟨0, false, false⟩

/-- A NaN result (R36, R37): the canonical NaN, or under NANP the first NaN source made quiet. -/
def packNan (f : Fmt) (nanp : Bool) (srcs : List FVal) : Nat :=
  match nanp, srcs.find? fIsNan with
  | true, some (.nan s fr) =>
    if f.hasInf then
      let top := fr >>> (52 - f.mw)
      withSign f s (((2 ^ f.ew - 1) <<< f.mw) + (top ||| 2 ^ (f.mw - 1)))
    else withSign f s 0x7F
  | _, _ => f.canon

/-- The result of an overflow of the given sign (R34). -/
def packOverflow (f : Fmt) (r : Rnd) (s : Bool) : Nat :=
  let big := if f.hasInf then (2 ^ f.ew - 1) <<< f.mw else 0x7F
  if r.sat then withSign f s f.maxMag
  else if r.rm = 0 then withSign f s big
  else if r.rm = 1 then withSign f s f.maxMag
  else if r.rm = 2 then (if s then withSign f s big else f.maxMag)
  else (if s then withSign f s f.maxMag else big)

/-- An infinite value packed (R35): E4M3 has no infinity. -/
def packInf (f : Fmt) (r : Rnd) (s : Bool) : Nat :=
  if f.hasInf then withSign f s ((2 ^ f.ew - 1) <<< f.mw)
  else if r.sat then withSign f s f.maxMag
  else withSign f s 0x7F

/-- Whether a discarded part rounds the kept magnitude `keep` up (R32): `cmp` is the discarded part against one
half (0 none, 1 below, 2 equal, 3 above). -/
def roundsUp (rm : Nat) (s : Bool) (keep cmp : Nat) : Bool :=
  match rm with
  | 0 => cmp == 3 || (cmp == 2 && keep % 2 == 1)
  | 1 => false
  | 2 => s && cmp != 0
  | _ => !s && cmp != 0

/-- `v / 2^d` for the exact magnitude `v` (with `sticky`, a little above it), as the kept integer and the discarded
part's comparison with one half. -/
def dropBits (v d : Nat) (sticky : Bool) : Nat × Nat :=
  let keep := v >>> d
  let rem := v % 2 ^ d
  let half := if d = 0 then 0 else 2 ^ (d - 1)
  let cmp :=
    if d = 0 then (if sticky then 1 else 0)
    else if rem = 0 then (if sticky then 1 else 0)
    else if rem < half then 1
    else if rem = half then (if sticky then 3 else 2)
    else 3
  (keep, cmp)

/-- Rounds the exact `(-1)^s * m * 2^e` (with `sticky`, a magnitude strictly between `m` and `m + 1` units) once to
the format (R30, R34): the one rounding of every float result. -/
def roundPack (f : Fmt) (r : Rnd) (s : Bool) (m : Nat) (e : Int) (sticky : Bool) : Nat :=
  if m = 0 ∧ sticky = false then withSign f s 0
  else
    let emin : Int := 1 - (f.bias : Int) - f.mw
    let q : Int := max (e + (Nat.log2 m : Int) - f.mw) emin
    let kc : Nat × Nat :=
      if q ≤ e then (m <<< (e - q).toNat, if sticky then 1 else 0)
      else dropBits m (q - e).toNat sticky
    let keep := if roundsUp r.rm s kc.1 kc.2 then kc.1 + 1 else kc.1
    let k := (q - emin).toNat
    let mag := if keep < 2 ^ f.mw then keep else (k + 1) * 2 ^ f.mw + (keep - 2 ^ f.mw)
    if mag > f.maxMag then packOverflow f r s else withSign f s mag

/-- An exact signed dyadic number `v * 2^e` rounded; `zs` is the sign of a zero. -/
def roundSigned (f : Fmt) (r : Rnd) (v e : Int) (zs : Bool) : Nat :=
  if v = 0 then withSign f zs 0 else roundPack f r (v < 0) v.natAbs e false

/-- The signed integer of a finite value over the unit `2^u`, `u` at or below its exponent. -/
def finOver (s : Bool) (m : Nat) (e u : Int) : Int :=
  let v : Int := ((m <<< (e - u).toNat : Nat) : Int)
  if s then -v else v

/-- The sign of an exact zero sum (R287). -/
def zeroSumSign (r : Rnd) (sa sb : Bool) : Bool := if sa = sb then sa else r.rm == 2

/-- a + b rounded once (R287). -/
def fAdd (f : Fmt) (r : Rnd) (xa xb : Nat) : Nat :=
  let a := fDecode f xa
  let b := fDecode f xb
  match a, b with
  | .nan _ _, _ => packNan f r.nanp [a, b]
  | _, .nan _ _ => packNan f r.nanp [a, b]
  | .inf s, .inf t => if s = t then packInf f r s else packNan f r.nanp []
  | .inf s, _ => packInf f r s
  | _, .inf s => packInf f r s
  | .fin s m e, .fin t n g =>
    let u := min e g
    let v := finOver s m e u + finOver t n g u
    let zs := if m = 0 ∧ n = 0 then zeroSumSign r s t else r.rm == 2
    roundSigned f r v u zs

/-- The negated bit pattern. -/
def fNegBits (f : Fmt) (x : Nat) : Nat := (x % 2 ^ f.w) ^^^ 2 ^ (f.w - 1)

/-- a - b rounded once (R287); NaN payloads pass as a source's own (R36). -/
def fSub (f : Fmt) (r : Rnd) (xa xb : Nat) : Nat :=
  let a := fDecode f xa
  let b := fDecode f xb
  if fIsNan a || fIsNan b then packNan f r.nanp [a, b] else fAdd f r xa (fNegBits f xb)

/-- a * b rounded once (R287). -/
def fMul (f : Fmt) (r : Rnd) (xa xb : Nat) : Nat :=
  let a := fDecode f xa
  let b := fDecode f xb
  match a, b with
  | .nan _ _, _ => packNan f r.nanp [a, b]
  | _, .nan _ _ => packNan f r.nanp [a, b]
  | .inf s, .inf t => packInf f r (s != t)
  | .inf s, .fin t n _ => if n = 0 then packNan f r.nanp [] else packInf f r (s != t)
  | .fin s m _, .inf t => if m = 0 then packNan f r.nanp [] else packInf f r (s != t)
  | .fin s m e, .fin t n g => roundPack f r (s != t) (m * n) (e + g) false

/-- A fused sum of a product and an addend in exact values, rounded once (R287). -/
def fmaVals (f : Fmt) (r : Rnd) (a b c : FVal) : Nat :=
  let prodInvalid := match a, b with
    | .inf _, .fin _ 0 _ => true
    | .fin _ 0 _, .inf _ => true
    | _, _ => false
  if fIsNan a || fIsNan b || fIsNan c || prodInvalid then packNan f r.nanp [a, b, c]
  else
    let ps := fSign a != fSign b
    match a, b, c with
    | .inf _, _, .inf t => if ps = t then packInf f r ps else packNan f r.nanp []
    | _, .inf _, .inf t => if ps = t then packInf f r ps else packNan f r.nanp []
    | .inf _, _, _ => packInf f r ps
    | _, .inf _, _ => packInf f r ps
    | _, _, .inf t => packInf f r t
    | .fin _ m e, .fin _ n g, .fin t k h =>
      let pe := e + g
      let u := min pe h
      let v := finOver ps (m * n) pe u + finOver t k h u
      let zs := if m * n = 0 ∧ k = 0 then zeroSumSign r ps t else r.rm == 2
      roundSigned f r v u zs
    | _, _, _ => f.canon

/-- a * b + c rounded once (R287). -/
def fFma (f : Fmt) (r : Rnd) (xa xb xc : Nat) : Nat :=
  fmaVals f r (fDecode f xa) (fDecode f xb) (fDecode f xc)

/-- a / b rounded once (R287). -/
def fDiv (f : Fmt) (r : Rnd) (xa xb : Nat) : Nat :=
  let a := fDecode f xa
  let b := fDecode f xb
  match a, b with
  | .nan _ _, _ => packNan f r.nanp [a, b]
  | _, .nan _ _ => packNan f r.nanp [a, b]
  | .inf _, .inf _ => packNan f r.nanp []
  | .inf s, .fin t _ _ => packInf f r (s != t)
  | .fin s _ _, .inf t => withSign f (s != t) 0
  | .fin s m e, .fin t n g =>
    if n = 0 then (if m = 0 then packNan f r.nanp [] else packInf f r (s != t))
    else if m = 0 then withSign f (s != t) 0
    else
      let k := 128 + Nat.log2 n
      let num := m <<< k
      roundPack f r (s != t) (num / n) (e - g - k) (num % n != 0)

/-- The integer square root, bit by bit from bit `i - 1` down. -/
def isqrtFrom (x : Nat) : Nat → Nat → Nat
  | 0, r => r
  | i + 1, r =>
    let c := r + 2 ^ i
    isqrtFrom x i (if c * c ≤ x then c else r)

/-- The largest `r` with `r * r ≤ x`. -/
def isqrt (x : Nat) : Nat := isqrtFrom x (Nat.log2 x / 2 + 1) 0

/-- The square root rounded once (R287). -/
def fSqrt (f : Fmt) (r : Rnd) (xb : Nat) : Nat :=
  match fDecode f xb with
  | .nan s fr => packNan f r.nanp [.nan s fr]
  | .inf s => if s then packNan f r.nanp [] else packInf f r false
  | .fin s m e =>
    if m = 0 then withSign f s 0
    else if s then packNan f r.nanp []
    else
      let odd := e % 2 != 0
      let m2 := if odd then 2 * m else m
      let e2 := if odd then e - 1 else e
      let x := m2 <<< 160
      let q := isqrt x
      roundPack f r false q (e2 / 2 - 80) (q * q != x)

/-- Exact comparison of two non-NaN values: -1, 0 or 1 (−0 equals +0). -/
def fCmpVal (a b : FVal) : Int :=
  match a, b with
  | .inf s, .inf t => if s = t then 0 else if s then -1 else 1
  | .inf s, _ => if s then -1 else 1
  | _, .inf t => if t then 1 else -1
  | .fin s m e, .fin t n g =>
    let u := min e g
    let d := finOver s m e u - finOver t n g u
    if d < 0 then -1 else if d = 0 then 0 else 1
  | _, _ => 0

/-- The comparison operators of R258: EQ NE LT LE GT GE UN; `none` for the reserved code. -/
def fCompare (op : Nat) (a b : FVal) : Bool :=
  let un := fIsNan a || fIsNan b
  let c := fCmpVal a b
  match op with
  | 0 => !un && c == 0
  | 1 => un || c != 0
  | 2 => !un && c < 0
  | 3 => !un && c ≤ 0
  | 4 => !un && c > 0
  | 5 => !un && c ≥ 0
  | _ => un

/-- Integer comparison of R258. -/
def iCompare (op : Nat) (a b : Int) : Bool :=
  match op with
  | 0 => a == b
  | 1 => a != b
  | 2 => a < b
  | 3 => a ≤ b
  | 4 => a > b
  | _ => a ≥ b

/-- minimum / maximum (R288): `big` chooses the maximum, `num` the minimumNumber forms. −0 is below +0. -/
def fMinMax (f : Fmt) (nanp big num : Bool) (xa xb : Nat) : Nat :=
  let a := fDecode f xa
  let b := fDecode f xb
  let pick :=
    let c := fCmpVal a b
    if c = 0 then (if fIsZero a && fIsZero b then (if fSign a != big then xa else xb) else xa)
    else if (c < 0) != big then xa else xb
  match fIsNan a, fIsNan b with
  | true, true => packNan f nanp [a, b]
  | true, false => if num then xb % 2 ^ f.w else packNan f nanp [a, b]
  | false, true => if num then xa % 2 ^ f.w else packNan f nanp [a, b]
  | false, false => pick % 2 ^ f.w

/-- FloorLog2 of a nonzero magnitude `m * 2^e`. -/
def floorLog2 (m : Nat) (e : Int) : Int := (Nat.log2 m : Int) + e

/-- RoundInt (R43, R45): the exact value rounded to an integer. -/
def roundInt (rm : Nat) (s : Bool) (m : Nat) (e : Int) : Int :=
  let mag : Nat :=
    if 0 ≤ e then m <<< e.toNat
    else
      let kc := dropBits m (-e).toNat false
      if roundsUp rm s kc.1 kc.2 then kc.1 + 1 else kc.1
  if s then -(mag : Int) else (mag : Int)

/-- The range of an integer type (R26). -/
def tyMin (t : Ty) : Int := if tySigned t then -((2 ^ (tyWidth t - 1) : Nat) : Int) else 0
def tyMax (t : Ty) : Int :=
  if tySigned t then ((2 ^ (tyWidth t - 1) : Nat) : Int) - 1 else ((2 ^ tyWidth t : Nat) : Int) - 1

/-- An operand read as an integer of type `t` (R273). -/
def readInt (t : Ty) (x : Nat) : Int :=
  if tySigned t then signedOf (tyWidth t) x else ((x % 2 ^ tyWidth t : Nat) : Int)

/-- An exact result reduced or clamped (R11, R27), as a bit pattern of the type's width. -/
def packInt (t : Ty) (sat : Bool) (v : Int) : Nat :=
  let v' := if sat then max (tyMin t) (min (tyMax t) v) else v
  wrapTo (tyWidth t) v'

/-- Float to float (R45): a NaN follows R36 and R37, an infinity R35, the rest is rounded once. -/
def cvtFF (src dst : Fmt) (r : Rnd) (x : Nat) : Nat :=
  match fDecode src x with
  | .nan s fr => packNan dst r.nanp [.nan s fr]
  | .inf s => packInf dst r s
  | .fin s m e => roundPack dst r s m e false

/-- Float to integer (R45, R46). -/
def cvtFI (src : Fmt) (dst : Ty) (r : Rnd) (x : Nat) : Nat :=
  let w := tyWidth dst
  let indef := 2 ^ (w - 1)
  match fDecode src x with
  | .nan _ _ => if r.sat then 0 else indef
  | .inf s => if r.sat then wrapTo w (if s then tyMin dst else tyMax dst) else indef
  | .fin s m e =>
    let v := roundInt r.rm s m e
    if tyMin dst ≤ v ∧ v ≤ tyMax dst then wrapTo w v
    else if r.sat then wrapTo w (if v < 0 then tyMin dst else tyMax dst)
    else indef

/-- Integer to float (R45). -/
def cvtIF (src : Ty) (dst : Fmt) (r : Rnd) (x : Nat) : Nat := roundSigned dst r (readInt src x) 0 false

/-- Conversion between two non-BX types (R45); equal types keep the value, a float NaN follows R36 (R294).
An integer that goes to a wider type of other signedness with SAT is clamped (notes/assumptions/103.md). -/
def convert (src dst : Ty) (r : Rnd) (x : Nat) : Nat :=
  match tyFmt src, tyFmt dst with
  | some a, some b => cvtFF a b r x
  | some a, none => cvtFI a dst r x
  | none, some b => cvtIF src b r x
  | none, none => packInt dst r.sat (readInt src x)

/-- FCLASS (R289): the class bit. E4M3 NaNs are quiet. -/
def fClass (f : Fmt) (x : Nat) : Nat :=
  match fDecode f x with
  | .inf s => if s then 2 ^ 0 else 2 ^ 7
  | .nan _ fr => if f.hasInf && !(fr.testBit 51) then 2 ^ 8 else 2 ^ 9
  | .fin s m e =>
    if m = 0 then (if s then 2 ^ 3 else 2 ^ 4)
    else
      let sub := m < 2 ^ f.mw && e == 1 - (f.bias : Int) - f.mw
      match s, sub with
      | true, false => 2 ^ 1
      | true, true => 2 ^ 2
      | false, true => 2 ^ 5
      | false, false => 2 ^ 6

/-- FSCALE (R291): a * 2^n with one rounding. The shift is bounded to what any format can tell apart. -/
def fScale (f : Fmt) (r : Rnd) (xa : Nat) (n : Int) : Nat :=
  match fDecode f xa with
  | .nan s fr => packNan f r.nanp [.nan s fr]
  | .inf s => packInf f r s
  | .fin s m e => roundPack f r s m (e + max (-5000) (min 5000 n)) false

/-- FGETEXP (R291), as a 32-bit pattern. -/
def fGetExp (f : Fmt) (x : Nat) : Nat :=
  match fDecode f x with
  | .nan _ _ => 0x80000000
  | .inf _ => 0x7FFFFFFF
  | .fin _ m e => if m = 0 then 0x80000000 else wrapTo 32 (floorLog2 m e)

/-- FROUND (R291): to an integral value; a zero keeps the sign. -/
def fRound (f : Fmt) (r : Rnd) (x : Nat) : Nat :=
  match fDecode f x with
  | .nan s fr => packNan f r.nanp [.nan s fr]
  | .inf s => packInf f r s
  | .fin s m e => roundPack f r s (roundInt r.rm s m e).natAbs 0 false

/-- FFRAC (R291): b - Trunc(b), exact. -/
def fFrac (f : Fmt) (nanp : Bool) (x : Nat) : Nat :=
  match fDecode f x with
  | .nan s fr => packNan f nanp [.nan s fr]
  | .inf _ => f.canon
  | .fin s m e =>
    if 0 ≤ e then withSign f s 0 else roundPack f ⟨0, false, nanp⟩ s (m % 2 ^ (-e).toNat) e false

/-- FDOT2 (R292): a0*b0 + a1*b1 + c exactly, rounded once to F32. -/
def fDot2 (f : Fmt) (r : Rnd) (xa xb xc : Nat) : Nat :=
  let a0 := fDecode f (xa % 65536)
  let a1 := fDecode f (xa / 65536 % 65536)
  let b0 := fDecode f (xb % 65536)
  let b1 := fDecode f (xb / 65536 % 65536)
  let c := fDecode fmtF32 xc
  let invalid := fun (a b : FVal) => match a, b with
    | .inf _, .fin _ 0 _ => true
    | .fin _ 0 _, .inf _ => true
    | _, _ => false
  let prod := fun (a b : FVal) => match a, b with
    | .fin s m e, .fin t n g => FVal.fin (s != t) (m * n) (e + g)
    | _, _ => FVal.inf (fSign a != fSign b)
  if [a0, a1, b0, b1, c].any fIsNan || invalid a0 b0 || invalid a1 b1 then
    packNan fmtF32 r.nanp [a0, a1, b0, b1, c]
  else
    let p := prod a0 b0
    let q := prod a1 b1
    let infs := [p, q, c].filter (fun v => match v with
      | .inf _ => true
      | _ => false)
    match infs with
    | v :: _ =>
      if infs.all (fun u => fSign u == fSign v) then packInf fmtF32 r (fSign v) else packNan fmtF32 r.nanp []
    | [] =>
      match p, q, c with
      | .fin s m e, .fin t n g, .fin u k h =>
        let lo := min e (min g h)
        let v := finOver s m e lo + finOver t n g lo + finOver u k h lo
        let allZero := m = 0 ∧ n = 0 ∧ k = 0
        let zs := if allZero ∧ s = t ∧ t = u then s else r.rm == 2
        roundSigned fmtF32 r v lo zs
      | _, _, _ => fmtF32.canon

end Sys2Proof.Machine
end

