-- ==== Sys2Proof/Machine/Bx.lean ====
section
/-!
DEFINITION. Block-exponent formats (R40-R44) and the summation of the matrix array (R47-R50).
-/
namespace Sys2Proof.Machine

/-- Magnitude bits of a BX format by its code (R213: 1 BX8, 2 BX4, 3 BX2). -/
def bxBits : Nat → Nat
  | 1 => 7
  | 2 => 3
  | _ => 1

/-- The value of a BX code (R40). -/
def bxDecode (b code e u : Nat) : FVal :=
  let s := code.testBit b
  let m := code % 2 ^ b
  if m = 0 then (if s then .nan false (2 ^ 51) else .fin false 0 0)
  else .fin s m ((e : Int) - 128 - u - (b - 1))

/-- BXUNPACK's value rounded to a format, through exact FP32 (R42). -/
def bxUnpack (f : Fmt) (r : Rnd) (b code e u : Nat) : Nat :=
  match bxDecode b code e u with
  | .nan _ _ => packNan f r.nanp [.nan false (2 ^ 51)]
  | .inf s => packInf f r s
  | .fin s m ex => roundPack f r s m ex false

/-- RoundMag of R43. -/
def bxRoundMag (b : Nat) (m : Nat) (ex e u : Int) (rm : Nat) : Nat :=
  (roundInt rm false m (ex + (b - 1 + 128 + u - e))).natAbs

/-- Compares two magnitudes. -/
def magLe (m : Nat) (e : Int) (n : Nat) (g : Int) : Bool :=
  let u := min e g
  m <<< (e - u).toNat ≤ n <<< (g - u).toNat

/-- The largest finite magnitude of a list. -/
def bxMax : List FVal → Nat × Int
  | [] => (0, 0)
  | .fin _ m e :: r =>
    let p := bxMax r
    if magLe m e p.1 p.2 then p else (m, e)
  | _ :: r => bxMax r

/-- Scale choice of R43: E, then the micro-exponent of each pair. -/
def bxScale (b : Nat) (xs : List FVal) : Nat × List Nat :=
  let a := bxMax xs
  let e : Nat :=
    if a.1 = 0 then 0
    else
      let e0 := (max 0 (min 255 (floorLog2 a.1 a.2 + 128))).toNat
      if e0 < 255 ∧ bxRoundMag b a.1 a.2 e0 0 0 = 2 ^ b then e0 + 1 else e0
  let us := (List.range 8).map (fun i =>
    let p := bxMax [xs.getD (2 * i) (.fin false 0 0), xs.getD (2 * i + 1) (.fin false 0 0)]
    if bxRoundMag b p.1 p.2 e 1 0 ≤ 2 ^ b - 1 then 1 else 0)
  (e, us)

/-- Whether the finite values of a block are all below 2^-135 in magnitude (R44). -/
def bxTiny (xs : List FVal) : Bool :=
  let a := bxMax xs
  a.1 == 0 || decide (floorLog2 a.1 a.2 < -135)

/-- One element's code (R43); a finite value of a `tiny` block is zero, as R44 has it, also where the rounding of R43 would give 1, while an
infinite element with sat = 1 has the ±max code there too, as R35 and R43 have it (both: notes/assumptions/102.md). -/
def bxCode (b : Nat) (rm : Nat) (sat tiny : Bool) (e u : Nat) (x : FVal) : Nat :=
  let nan := 2 ^ b
  let top := fun (s : Bool) => (if s then 2 ^ b else 0) + (2 ^ b - 1)
  match x with
  | .nan _ _ => nan
  | .inf s => if sat then top s else nan
  | .fin s m ex =>
    let v := (roundInt rm s m (ex + ((b : Int) - 1 + 128 + u - e))).natAbs
    if tiny then 0
    else if v > 2 ^ b - 1 then (if sat then top s else nan)
    else if v = 0 then 0
    else (if s then 2 ^ b else 0) + v

/-- The 32-bit word BXPACK gives lane element `j` of a block (R296). -/
def bxPackWord (b rm : Nat) (sat : Bool) (xs : List FVal) (j : Nat) : Nat :=
  let sc := bxScale b xs
  let code := bxCode b rm sat (bxTiny xs) sc.1 (sc.2.getD (j / 2) 0) (xs.getD j (.fin false 0 0))
  let ub := (List.range 8).foldl (fun acc i => acc + (sc.2.getD i 0) * 2 ^ i) 0
  ub * 2 ^ 24 + sc.1 * 2 ^ 16 + code

/-- An exact product of two decoded values (R47). -/
def exactProd (a b : FVal) (sx : Int) : FVal :=
  match a, b with
  | .nan s f, _ => .nan s f
  | _, .nan s f => .nan s f
  | .inf _, .fin _ 0 _ => .nan false (2 ^ 51)
  | .fin _ 0 _, .inf _ => .nan false (2 ^ 51)
  | .inf s, .inf t => .inf (s != t)
  | .inf s, .fin t _ _ => .inf (s != t)
  | .fin s _ _, .inf t => .inf (s != t)
  | .fin s m e, .fin t n g => .fin (s != t) (m * n) (e + g + sx)

/-- GroupSum of R47, as an FP32 pattern. -/
def groupSum (p : List FVal) : Nat :=
  let pinf := p.any (fun v => v == .inf false)
  let ninf := p.any (fun v => v == .inf true)
  if p.any fIsNan || (pinf && ninf) then fmtF32.canon
  else if pinf then packInf fmtF32 rne false
  else if ninf then packInf fmtF32 rne true
  else if p.all fIsZero then withSign fmtF32 (p.all fSign) 0
  else
    let eg := p.foldl (fun (acc : Option Int) v => match v with
      | .fin _ m e => if m = 0 then acc else
        let l := floorLog2 m e
        some (match acc with
          | none => l
          | some x => max x l)
      | _ => acc) none
    let q := (eg.getD 0) - 63
    let s := p.foldl (fun (acc : Int) v => match v with
      | .fin sg m e =>
        let t : Nat := if q ≤ e then m <<< (e - q).toNat else m >>> (q - e).toNat
        if sg then acc - t else acc + t
      | _ => acc) (0 : Int)
    roundSigned fmtF32 rne s q false

/-- The accumulation of an MMA output over its groups of 16 (R47), in ascending k. -/
def mmaAccum : List FVal → Nat → Nat → Nat
  | _, 0, acc => acc
  | p, n + 1, acc => mmaAccum (p.drop 16) n (fAdd fmtF32 rne acc (groupSum (p.take 16)))

end Sys2Proof.Machine
end

