-- ==== Sys2Proof/Config.lean ====
section
/-!
DEFINITION. The values the specification leaves to the implementation or to the outside, as constants without a
body: no proof can see what they are (notes/assumptions/5.md).
-/
namespace Sys2Proof.Config

/-- A 64-bit value the specification does not give, fresh for each value of the counter. -/
opaque freeValue : Nat → BitVec 64

/-- Whether the signatures over a digest verify (R459, R463): against the development keys (true) or the fused ones; the list is the
signed bytes with the signatures after them. -/
opaque signaturesVerify : Bool → List (BitVec 8) → Bool

/-- The SHA-384 of a byte string (R463, R464), a named standard the model does not compute. -/
opaque sha384 : List (BitVec 8) → BitVec 384

/-- The SLH-DSA signature of a digest by the device's key (R459 IDSIG), 16,224 bytes when truncated. -/
opaque slhSign : BitVec 384 → Nat → BitVec 8

/-- The device's 16-byte identity (R459). -/
opaque identity : BitVec 128

/-- The fused minimum security version (R463). -/
opaque fusedMinSvn : Nat

/-- The answer of the SPDM responder (R464, DMTF SPDM 1.3) to a request: code of the request, its body, the
transcript before it, the function asked and the measurements it reports. -/
opaque spdmResponse : Nat → List (BitVec 8) → List (BitVec 8) → Nat → List (BitVec 384) → List (BitVec 8)

/-- What the body of an UNLOCK token holds (R459, which does not lay it out): the partition, the device's identity, the
unlock counter. -/
opaque tokenBody : List (BitVec 8) → Nat × BitVec 128 × Nat

/-- The bytes of the boot ROM, which are measured (R464). -/
opaque bootRom : List (BitVec 8)

/-- The bytes of the fuses, which are measured (R464). -/
opaque fuses : List (BitVec 8)

/-- What a decoder makes of a bitstream (R445, R449): the codec code, the bitstream, the decoder context area and whether
film grain is applied give a status (0 OK, 1 UNSUPPORTED, 2 BITSTREAM) and, for each frame in output order, its width, its
height, whether it has 10-bit samples, its chroma (0 none, 1 4:2:0, 2 4:2:2, 3 4:4:4) and its samples: the rows of the luma
plane, then of Cb, then of Cr. -/
opaque decodeStream : Nat → List (BitVec 8) → List (BitVec 8) → Bool →
  Nat × List (Nat × Nat × Bool × Nat × List (BitVec 16))

/-- The bytes the decoder writes to its context area at the end of a submission (R452). -/
opaque decodeContext : Nat → List (BitVec 8) → List (BitVec 8) → List (BitVec 8)

/-- The bytes of a save area in the layout of firmware 1.x, whose form R88 leaves to LAYOUT: by the position in the
area. -/
opaque saveLayoutByte : Nat → Nat → BitVec 8

/-- Whether the device is an LX940-M (R1, R462). -/
opaque formM : Bool

/-- The power limit in watts that the boot image gives for the customer's package of an LX940-K or LX940-P (R462). -/
opaque packageLimit : List (BitVec 8) → Nat

/-- The UCIe modules that the package does not carry to its boundary (R1): bit h is module h. -/
opaque missingModules : BitVec 4

/-- The peer ports whose lanes the package does not carry to its boundary (R1, R201): bit p is port p. -/
opaque missingPorts : BitVec 18

/-- The set of the memory-side caches that a line may lie in (R57, R455), which the specification does not give. -/
opaque cacheSet : Nat → Nat

/-- What a read of a BAR gives where the specification lays nothing out (R456): by the function, the BAR and the offset. -/
opaque barByte : Nat → Nat → Nat → BitVec 8

end Sys2Proof.Config
end

