-- ==== Sys2Proof/Machine/SMap.lean ====
section
/-!
DEFINITION. Sparse maps: a list of (key, value) pairs with strictly rising keys; a key that is not listed reads as the
default its reader names. Used for every numbered family of registers and units of the State.
-/
namespace Sys2Proof.Machine

/-- A sparse map from numbers, sorted by key, without repeats. -/
abbrev SMap (α : Type) := List (Nat × α)

/-- The value at `k`, or `d`. -/
def mapGet {α : Type} (m : SMap α) (k : Nat) (d : α) : α :=
  match m with
  | [] => d
  | (j, v) :: r => if j = k then v else mapGet r k d

/-- Sets the value at `k`, keeping the keys sorted. -/
def mapSet {α : Type} (m : SMap α) (k : Nat) (v : α) : SMap α :=
  match m with
  | [] => [(k, v)]
  | (j, x) :: r => if k < j then (k, v) :: (j, x) :: r else if k = j then (k, v) :: r else (j, x) :: mapSet r k v

/-- The value at `k` if listed. -/
def mapFind {α : Type} (m : SMap α) (k : Nat) : Option α :=
  match m with
  | [] => none
  | (j, v) :: r => if j = k then some v else mapFind r k

/-- Takes `k` off the list. -/
def mapDel {α : Type} (m : SMap α) (k : Nat) : SMap α := m.filter (fun e => !(e.1 == k))

/-- The `n`-th element replaced. -/
def listSet {α : Type} (l : List α) (n : Nat) (v : α) : List α :=
  match l, n with
  | [], _ => []
  | _ :: r, 0 => v :: r
  | x :: r, n + 1 => x :: listSet r n v

/-- The `n`-th element taken out. -/
def listDrop {α : Type} (l : List α) (n : Nat) : List α :=
  match l, n with
  | [], _ => []
  | _ :: r, 0 => r
  | x :: r, n + 1 => x :: listDrop r n

/-- Inserts into a sorted list, after the elements that are not greater. -/
def insertBy {α : Type} (le : α → α → Bool) (x : α) (l : List α) : List α :=
  match l with
  | [] => [x]
  | y :: r => if le y x then y :: insertBy le x r else x :: y :: r

/-- A stable sort. -/
def sortBy {α : Type} (le : α → α → Bool) (l : List α) : List α := l.foldl (fun acc x => insertBy le x acc) []

/-- Keeps the first of equal elements. -/
def distinct {α : Type} [BEq α] (l : List α) : List α :=
  l.foldl (fun acc x => if acc.contains x then acc else acc ++ [x]) []

end Sys2Proof.Machine
end

