-- ==== Sys2Proof/Machine/State.lean ====
section
/-!
DEFINITION. The state of the device as plain data: everything spec/ gives the machine (INVENTORY.md, '## State'),
the reasons a step can stop, and the state after reset.
-/
namespace Sys2Proof.Machine

/-- The trap causes of R428. -/
inductive Cause where
  | illegal | role | feEmpty | bounds | align | pageNotPresent | pageProtection | pageLost | atomicMemtype | slot
  | accRange | stage | waitCycle | hang | user | brk | poison | combine | automaton | window | datomLog
  deriving DecidableEq, Repr

/-- An event record (R93). `hostRel` is the model's: the record came from a POST_EVENT packet and so carries a .sys
release whatever REL holds (R416). -/
structure EventRec where
  stream : BitVec 14
  kind : BitVec 8
  rel : Bool
  remote : Bool
  seq : BitVec 32
  stamp : BitVec 64
  p0 : BitVec 64
  p1 : BitVec 64
  hostRel : Bool := false
  deriving DecidableEq, Repr

/-- Which role of which group on which core, and which split slot of it (R133, R138). -/
structure Who where
  core : Nat
  gslot : Nat
  wid : Nat
  slot : Nat
  deriving DecidableEq, Repr

/-- What a split is held at (R141, R153): a JOIN, or a BAR or BARSPEC with its guard (R365). -/
inductive Hold where
  | none
  | join
  | bar (b count : Nat) (spec : Bool) (guard : Guard)
  deriving DecidableEq, Repr

/-- The settings of a combine batch (R168), with the issuer of its CALLOC. -/
structure Batch where
  first : Nat
  gen : Nat
  n : Nat
  outbase : Nat
  resbase : Nat
  stgbase : Nat
  outstride : Nat
  resstride : Nat
  deadline : Nat
  token0 : Nat
  rstream : Nat
  len : Nat
  kmax : Nat
  pfmt : Nat
  ofmt : Nat
  subst : Nat
  eager : Bool
  lateev : Bool
  sat : Bool
  rm : Nat
  ctx : Nat
  region : Nat
  launch : Nat
  deriving DecidableEq, Repr

/-- An instruction that has issued and waits for its end (R164, R361, R366, R376, R348, R386); `lanes` are the lanes of its
guard, where it may still trap (R429). A CALLOC keeps the batch and the records it has read, `w` that it is a CALLOC.W; `brkpt` is a BRKPT that has halted its warp (R391, R433). -/
inductive Wait where
  | stg (ring stage : Nat) (eph parity : Bool) (operand dst id : Nat)
  | mbarw (va q dst id scope : Nat) (lanes : W32)
  | evwait (stream thr dst id : Nat)
  | cwait (ids : List Nat)
  | mwait (ids : List Nat)
  | calloc (id die creg : Nat) (w : Bool) (b : Batch) (rows : List (List (Nat × W32 × Nat)))
  | answer (id : Nat) (lanes : W32)
  | brkpt
  deriving DecidableEq, Repr

/-- What a split that cannot issue waits for, as R145 publishes it. `again`: it waited for a uniform register and is to be looked at
again; `plu`: for the PLU, with its whole warp (R369). -/
inductive Block where
  | none
  | again
  | plu
  | groupRoles
  | barrier (b : Nat)
  | dispatcher
  | launches (stream : Nat)
  | copyWarps
  | nothing
  deriving DecidableEq, Repr

/-- A split: PC, mask, FMT (R138), the region entry (R268), its hold and wait, the acquires it has outstanding (R312), what it
was found to wait for when its instruction last could not issue, and whether it has issued an acquire of scope .die or wider, after
which its loads are served at home (R408). -/
structure Split where
  pc : W64
  mask : W32
  fmt : W32
  ctr : W32
  entry : W64
  hold : Hold := .none
  wait : Option Wait := none
  acqs : List Nat := []
  blk : Block := .none
  homeLd : Bool := false
  deriving DecidableEq, Repr

/-- A wait-list entry with its starvation counter (R138, R144). -/
structure WaitEntry where
  sp : Split
  starve : Nat
  deriving DecidableEq, Repr

/-- A producer outstanding into a vector register (R66, R67): word `k` of value `id`, the lanes still empty for it,
and the lanes its value is still to be written to. -/
structure Prod where
  id : Nat
  reg : Nat
  k : Nat
  mask : W32
  wmask : W32
  deriving DecidableEq, Repr

/-- A producer outstanding into a uniform register (R66, R67). -/
structure UProd where
  id : Nat
  reg : Nat
  k : Nat
  write : Bool
  deriving DecidableEq, Repr

/-- A trap record (R429). -/
structure TrapRec where
  pc : W64
  entry : W64
  addr : W64
  launch : W64
  ctr : W32
  mask : W32
  lanes : W32
  code : BitVec 16
  cause : Cause
  core : Nat
  warp : Nat
  split : Nat
  seq : W32
  deriving DecidableEq, Repr

/-- Whether a role runs (R190, R426). `trapped r n`: the record and the number of words of the trapping
instruction; `trapping` until what the role issued before has ended and the record can be written. `pageWait`: the pages awaited, the slot of the split that stopped, whether it restarts at its region's
entry (R190; a fetch and a BRX retry at their PC), the access kind of R189, and the lanes of the instruction with their
addresses. -/
inductive RunState where
  | run
  | pageWait (pasid : Nat) (pages : List Nat) (slot : Nat) (restart : Bool) (kind : Nat) (lanes : List (Nat × Nat))
  | trapping (r : TrapRec) (words : Nat)
  | trapped (r : TrapRec) (words : Nat) (logged : Option Nat)
  | exited
  deriving DecidableEq, Repr

/-- A speculator (R155-R159): the barrier and the phase it waits for, its buffered stores (physical byte, value;
oldest first), its read set of lines, whether it has stopped, the tokens its buffered stores count in (R218), the lines that
one of them covers whole (R304), and whether its phase has completed and the commit waits for a copy (R70). -/
structure Spec where
  bar : Nat
  ph : Nat
  buf : List (Nat × Byte)
  reads : List Nat
  stopped : Bool
  toks : List Nat := []
  clears : List Nat := []
  due : Bool := false
  deriving DecidableEq, Repr

/-- What a warp was doing when its save handler was started (R89): its splits and lists, its parking, how it ran. -/
structure Aside where
  splits : List (Option Split)
  wlist : List WaitEntry
  spilled : List WaitEntry
  parked : Option (Nat × Nat)
  run : RunState
  halted : Bool
  deriving DecidableEq, Repr

/-- A vector warp, copy warp or matrix thread (R133). `wslot` is its warp slot in its partition, or its thread of the MSQ (R17,
R142); `relFence` says that it has issued a release FENCE below .die (R401), `acqAt` gives the request number at its last synchronisation; `freed` says that an exited warp's slot and register block have been let go (R266). `aside` is set while its save handler, or the reload after a resume,
runs in it (R89); `saved` says that the handler has ended. -/
structure Warp where
  part : Nat
  wslot : Nat
  rbase : Nat
  vregs : SMap (List W32)
  prods : List Prod
  preds : List W32
  conds : List Bool
  toks : List Nat
  splits : List (Option Split)
  wlist : List WaitEntry
  spilled : List WaitEntry
  lastSlot : Nat
  run : RunState
  halted : Bool
  pend : Option (Cause × W64 × W32)
  parked : Option (Nat × Nat)
  spec : Option Spec
  wrote : List Nat
  dcount : List Nat
  seen : List (Nat × Nat)
  blockedAt : Nat
  expiryHeld : Bool
  sysOut : Option (Nat × Nat)
  aside : Option Aside
  saved : Bool
  freed : Bool
  relFence : Bool := false
  acqAt : Nat := 0
  deriving DecidableEq, Repr

/-- A group barrier (R152). -/
structure Bar where
  ph : Nat
  a : Nat
  e : Nat
  zero : Bool
  arrived : List Nat
  deriving DecidableEq, Repr

/-- A stage of a stage ring (R162). -/
structure Stage where
  fph : BitVec 16
  eph : BitVec 16
  deriving DecidableEq, Repr

/-- A launch template (R128). -/
structure Template where
  entry : W64
  gcount : Nat
  gcsrc : Bool
  gcpos : Nat
  gcfld : Nat
  vwarps : Nat
  cwarps : Nat
  mthread : Bool
  argl : Bool
  vregs : Nat
  sramsz : Nat
  region : Nat
  nrings : Nat
  rings : List Nat
  cstream : Nat
  cen : Bool
  crgroups : Nat
  crregkib : Nat
  crsramkib : Nat
  crregion : Nat
  deriving DecidableEq, Repr

/-- A group on a core (R133-R151). -/
structure Group where
  ctx : Nat
  launch : Nat
  gidx : Nat
  region : Nat
  tmpl : Template
  retiring : Bool
  warps : SMap Warp
  sregs : SMap W64
  sempty : List Nat
  uprods : List UProd
  bars : SMap Bar
  rings : List (List Stage)
  sbase : Nat
  deriving DecidableEq, Repr

/-- A TLB entry (R186) with the attributes of R182. -/
structure TlbEntry where
  pasid : Nat
  va : Nat
  size : Nat
  pa : Nat
  w : Bool
  x : Bool
  nc : Bool
  noatom : Bool
  sysat : Bool
  deriving DecidableEq, Repr

/-- Who holds an operand slot or accumulator block (R329, R87). -/
inductive Holder where
  | free
  | held (gslot : Nat)
  | lazy (ctx launch gidx : Nat)
  deriving DecidableEq, Repr

/-- An operand slot: holder, SX (R335), its bytes that are not 0 (R17), and whether a lasting error has poisoned it (R435). -/
structure OpSlot where
  holder : Holder
  sx : BitVec 8
  bytes : SMap Byte
  bad : Bool := false
  deriving DecidableEq, Repr

/-- An accumulator block: holder, its 256 words that are not 0 (R334), and whether a lasting error has poisoned it (R435). -/
structure AccBlock where
  holder : Holder
  words : SMap W32
  bad : Bool := false
  deriving DecidableEq, Repr

/-- One lane's access of a request: physical address, datum, and for DCAS and AMOV the second address; `nv` is the
new value of a compare and swap. -/
structure LaneAcc where
  lane : Nat
  pa : Nat
  v : Nat
  pa2 : Nat := 0
  v2 : Nat := 0
  nv : Nat := 0
  nv2 : Nat := 0
  deriving DecidableEq, Repr

/-- What a request asks of its home (R307-R324), or of the matrix storage (R350). -/
inductive ReqKind where
  | load
  | store
  | atom (aop : Nat) (ret : Bool)
  | cas
  | dcas
  | amov
  | mbara
  | poll (q : Nat)
  | ost
  | ald
  deriving DecidableEq, Repr

/-- A request in flight (R305, R307): issuer, kind, width in bytes, lanes, token, scope, order, the acquires it must
come after, whether L1 may serve it, whether it is on the sync channel, FMT for float atomics, the lane's request it follows
(R322, R323), whether its page is system-atomic (R71), what a host atomic unit has read for it (R72), and whether it was issued after
a release FENCE below .die (R401). -/
structure Req where
  id : Nat
  kind : ReqKind
  who : Who
  w : Nat
  lanes : List LaneAcc
  tok : Option Nat
  scope : Nat
  ord : Nat
  after : List Nat
  l1ok : Bool
  sync : Bool
  fmt : W32
  prev : Option Nat := none
  sysat : Bool := false
  got : Option (List Host.Cell) := none
  fenced : Bool := false
  deriving DecidableEq, Repr

/-- The last write of an aligned 8-byte word (R69): the path, the context and launch it was made for, the value the word had before, the
paths to which a FENCEX has made it visible, and of a write on path V its role, whose own copies and drains may still read the old value
(notes/assumptions/95.md). -/
structure Stale where
  path : Nat
  ctx : Nat
  launch : Nat
  old : Nat
  seen : List Nat
  role : Option Who := none
  deriving DecidableEq, Repr

/-- A value on its way back to its registers (R308). -/
structure Ret where
  id : Nat
  who : Who
  w : Nat
  vals : List (Nat × Nat)
  deriving DecidableEq, Repr

/-- A DATOM entry or a run entry (R325-R328). -/
structure DEntry where
  key : Nat
  val : Nat
  deriving DecidableEq, Repr

/-- A DATOM entry in flight to its home. -/
structure DInFlight where
  ctx : Nat
  launch : Nat
  pa : Nat
  f64 : Bool
  ent : DEntry
  who : Who
  tok : Option Nat
  deriving DecidableEq, Repr

/-- A holding buffer of a home unit (R74). -/
structure DBuf where
  home : Nat
  num : Nat
  ctx : Nat
  launch : Nat
  pa : Nat
  f64 : Bool
  ents : List DEntry
  deriving DecidableEq, Repr

/-- A spilled run (R328), with the physical address of its header in the log. -/
structure DRun where
  pa : Nat
  f64 : Bool
  ents : List DEntry
  logPa : Nat
  deriving DecidableEq, Repr

/-- A copy in flight (R353-R360). `shape` holds X, Y, Z, the source's row and plane strides, the destination's, and the
address of the index array; a peer copy counts in lines of 128 bytes, `asked` lists the lines it has requested of a remote node
(R204), and `via` the ports that its flits have gone by (R205). -/
structure Copy where
  id : Nat
  gslot : Nat
  wid : Nat
  op : Nat
  src : Nat
  dst : Nat
  ssp : Nat
  dsp : Nat
  xop : Nat
  w : Nat
  shape : List Int
  idx : List Nat
  imem : Bool
  ring : Nat
  stage : Nat
  node : Nat
  stg : Bool
  tag : Nat
  tok : Option Nat
  entries : List (Bool × Nat × Nat)
  done : List Nat
  asked : List Nat
  via : List Nat
  waitPage : Option Nat
  fault : Option Cause
  deriving DecidableEq, Repr

/-- A matrix operation issued and not retired (R339). -/
inductive MatKind where
  | mma (ty : Ty) (bx : Nat) (sat : Bool) (m n : Nat) (a b z : Nat) (sxa sxb : Int)
  | mzero (z count : Nat)
  deriving DecidableEq, Repr

/-- A queued or running matrix operation: `blk` counts the blocks it has computed (R339). -/
structure MatOp where
  id : Nat
  gslot : Nat
  kind : MatKind
  running : Bool
  blk : Nat := 0
  deriving DecidableEq, Repr

/-- A drain issued and not retired (R342-R347): `img` holds the tile once its blocks have been read, `rows` the physical
ranges of its destination's and its residual's rows once they have been translated, `homes` the home units that have made their
share of its writes (R73). -/
structure Drain where
  id : Nat
  gslot : Nat
  desc : Nat
  base : Nat
  tok : Option Nat
  img : Option (List W32)
  waitPage : Option Nat
  rows : Option (List (List (Nat × Nat)) × List (List (Nat × Nat))) := none
  homes : List Nat := []
  deriving DecidableEq, Repr

/-- A release of claims that has not taken effect (R332). -/
structure Mrel where
  gslot : Nat
  slots : List Nat
  blocks : List Nat
  before : List Nat
  deriving DecidableEq, Repr

/-- A core (R17). `l1rec` gives the promotion records of the bytes in its L1 (R402), `obs` the stores of its write queue whose
bytes have been read, each with the request number the core had come to (R408). `lastMt` is the last matrix thread issued and
`lastWarp` the last warp slot issued in each partition (R17, R142); in the present cycle the partitions `turn` (32 for the MSQ) have
issued, the splits `tried` have been found not ready, `ranks` gives the last place in the order of R136 that each group has come
to, `fills` lists the copies whose stage fills have been made (R359): group slot, %warp, number, and `freedNow` the group
slots that have been freed (R151). `answerAt` is the first cycle in which a steal of the core's may be answered (R108), `pause` the
roles that the compactor holds back (R148): group slot, %warp. `lazySram` lists the window blocks held for SAVED contexts (R87): context, launch, group index, first granule of the slice,
granules; `claimed` the contexts whose lazily held state has been claimed and is to be written out, `claims` the claims of slots and
blocks that wait for it: group slot, slots, blocks. -/
structure Core where
  groups : SMap Group
  runq : List (Nat × Nat × Nat)
  stealW : BitVec 16
  stealOut : Option Nat
  stealAt : Nat
  l1 : SMap (List Byte)
  l1rec : SMap (List (Nat × Nat))
  obs : List (Nat × Nat)
  tlb : List TlbEntry
  copies : List Copy
  slots : SMap OpSlot
  blocks : SMap AccBlock
  mq : List MatOp
  drains : List Drain
  mrels : List Mrel
  lastMt : Nat
  lastWarp : SMap Nat
  turn : List Nat
  tried : List Who
  ranks : SMap Nat
  fills : List (Nat × Nat × Nat)
  lazySram : List (Nat × Nat × Nat × Nat × Nat)
  claimed : List Nat
  claims : List (Nat × List Nat × List Nat)
  dead : Bool
  pause : List (Nat × Nat) := []
  freedNow : List Nat := []
  answerAt : Nat := 0
  deriving DecidableEq, Repr

/-- A location record (R113). -/
structure Loc where
  acc : Nat
  tmpl : Nat
  inven : Bool
  invclk : Nat
  invc : Nat
  fben : Bool
  fstrlo : Nat
  fstrhi : Nat
  fkval : Nat
  fkmask : Nat
  deriving DecidableEq, Repr

/-- A clock guard (R115). -/
structure Grd where
  en : Bool
  clk : Nat
  op : Nat
  const : Nat
  deriving DecidableEq, Repr

/-- A field comparison (R115). -/
structure CmpF where
  en : Bool
  fld : Nat
  op : Nat
  srcb : Bool
  const : Nat
  deriving DecidableEq, Repr

/-- An edge record (R114). -/
structure Edge where
  src : Nat
  tgt : Nat
  keep : Bool
  append : Bool
  binden : Bool
  bslot : Nat
  rst : Nat
  kval : Nat
  kmask : Nat
  strlo : Nat
  strhi : Nat
  grd0 : Grd
  grd1 : Grd
  cmp0 : CmpF
  cmp1 : CmpF
  deriving DecidableEq, Repr

/-- An automaton image (R112), its bytes beside its fields. -/
structure Image where
  raw : List Byte
  nclk : Nat
  nslot : Nat
  domain : Nat
  share : Bool
  ovf : Nat
  listmax : Nat
  candmax : Nat
  region : Nat
  locs : List Loc
  edges : List Edge
  tmpls : List Template
  deriving DecidableEq, Repr

/-- A candidate (R118). -/
structure Cand where
  seq : Nat
  loc : Nat
  reset : List Nat
  slots : List (Option EventRec)
  list : List EventRec
  deriving DecidableEq, Repr

/-- The states of an automaton slot (R125). -/
inductive AState where
  | free | loaded | armed | faulted
  deriving DecidableEq, Repr

/-- An automaton slot of a PLU (R125). `pos` is the position of the last event processed, `skip` the restored position
at or before which no event is offered (R126). -/
structure Auto where
  st : AState
  ctx : Nat
  img : Image
  imgVa : Nat
  cands : List Cand
  nextSeq : Nat
  drops : Nat
  pos : Option (Nat × Nat × Nat)
  skip : Option (Nat × Nat × Nat)
  deriving DecidableEq, Repr

/-- A record or marker held at its source before intake (R20): its class and its key in the class, the context that
sent it when it was an EMIT, whether it is remote, what is told when it is taken in: a token of a warp, or a ring packet's
completion; and the cycle of the PLU's die in which it came to its source. -/
structure Intake where
  cls : Nat
  key : Nat
  marker : Bool
  ev : EventRec
  emitter : Option Nat
  tok : Option (Who × Nat)
  port : Option Nat
  done : Option (Nat × W32 × W64)
  at_ : Nat
  deriving DecidableEq, Repr

/-- The states of a combine slot (R179). -/
inductive CState where
  | free | open_ | combined
  deriving DecidableEq, Repr

/-- A staging write of the Cistern that waits for a page after its slot is done with it (R178): for whom, the address, the bytes, and the
page. -/
structure Staged where
  ctx : Nat
  region : Nat
  launch : Nat
  va : Nat
  bytes : List Byte
  page : Nat
  deriving DecidableEq, Repr

/-- A combine slot (R166-R180): `prev` is the older batch kept for late posts (R172), `rows` are the expert index, the
gate and the chunk mask of each expected position, `out` the combined row, `outQ` its pieces by page that have not been written, `stgQ` the staging writes that wait for a page
(R178): virtual address and bytes, `waits` the pages awaited, `atStart` the status word at the start of the cycle (R179). -/
structure CSlot where
  st : CState
  held : Bool
  gen : Nat
  prevGen : Nat
  prev : Option Batch
  batch : Option Batch
  dups : Nat
  lates : Nat
  expmask : Nat
  arrmask : Nat
  result : Nat
  deadline : Nat
  rows : List (Nat × W32 × Nat)
  out : List Byte
  outQ : List (Nat × List Byte)
  stgQ : List (Nat × List Byte)
  waits : List Nat
  failed : Bool
  atStart : Nat
  deriving DecidableEq, Repr

/-- A chunk posted and not yet classified (R171), with the cycle of the Cistern's die in which it was posted. -/
structure Chunk where
  who : Who
  id : Nat
  q : Nat
  gen : Nat
  expert : Nat
  slot : Nat
  wide : Bool
  data : List Byte
  fromDie : Nat
  at_ : Nat
  deriving DecidableEq, Repr

/-- What a page walk answers (R187). -/
inductive WalkRes where
  | fill | protection | lost | wait
  deriving DecidableEq, Repr

/-- A page walk (R187): its number, who waits for it with the accesses of its instruction and whether a page wait restarts it at
its region's entry (R190), and its answer once it has one. -/
structure Walk where
  id : Nat
  pasid : Nat
  page : Nat
  kind : Nat
  path : Nat
  who : Who
  launch : Nat
  accs : List (Nat × Nat)
  restart : Bool
  res : Option WalkRes
  deriving DecidableEq, Repr

/-- A decoded frame (R448): width, height, 10-bit samples, chroma (0 none, 1 4:2:0, 2 4:2:2, 3 4:4:4), samples. -/
structure Frame where
  width : Nat
  height : Nat
  d10 : Bool
  chroma : Nat
  data : List (BitVec 16)
  deriving DecidableEq, Repr

/-- What a decoder keeps for a decoder context area (R449, R452): stale, frames output since NEWSEQ, frames held. -/
structure DecStream where
  stale : Bool
  frameNo : Nat
  held : List Frame
  deriving DecidableEq, Repr

/-- A decoder's current work (R447-R452). -/
structure DecJob where
  desc : Nat
  ctx : Nat
  region : Nat
  launch : Nat
  frames : List Frame
  made : Nat
  status : Nat
  newCtx : List Byte
  frameNo : Nat
  deriving DecidableEq, Repr

/-- The states of a decoder (R453). -/
inductive DState where
  | disabled | idle | busy | waiting
  deriving DecidableEq, Repr

/-- A queued VDSUB (R393): descriptor address, issuer's context, region and launch, and its token. -/
structure Sub where
  va : Nat
  ctx : Nat
  region : Nat
  launch : Nat
  tok : Option (Who × Nat)
  deriving DecidableEq, Repr

/-- A decoder (R446): `waitPage` is the page awaited (R452, R453), and `past` how many frames of its submission have been put before a
replay. -/
structure Decoder where
  st : DState
  waitPage : Option Nat
  queue : List Sub
  job : Option DecJob
  past : Nat := 0
  deriving DecidableEq, Repr

/-- A video batch queue (R109); `start` is its depth at the start of the cycle (R111). -/
structure BQ where
  enabled : Bool
  part : Nat
  cap : Nat
  lw : Nat
  stream : Nat
  ents : List (List Byte)
  start : Nat
  deriving DecidableEq, Repr

/-- What a role asks of a unit of a die that answers at the end of the cycle: a new GATE of a combine slot (R384), an entry to put
into a batch queue, the place where the entry taken from one is written (R110, R394). -/
inductive AskOp where
  | gate (handle word : Nat)
  | put (q : Nat) (entry : List Byte)
  | get (q : Nat) (ranges : List (Nat × Nat))
  deriving DecidableEq, Repr

/-- An ask with its role and the number of the answer. -/
structure Ask where
  who : Who
  id : Nat
  op : AskOp
  deriving DecidableEq, Repr

/-- A die (R19). Of its cycle so far: `intook` that the PLU has taken an entry in (R20), `arrived` the combine slots that have
taken a post (R173), `slotOut` that a slot has been released (R176), `combining` that the combining at its end has begun
(R174). `autoQ` are the automaton instructions that wait for the PLU, each with the cycle in which it came, and `autoGo` the one whose turn
it is in the present cycle (R378). -/
structure Die where
  cycle : Nat
  autos : SMap Auto
  launchCtr : SMap Nat
  intakeQ : List Intake
  intook : Bool
  asks : List Ask
  cslots : SMap CSlot
  staged : List Staged
  callocCtr : Nat
  chunkQ : List Chunk
  arrived : List Nat
  slotOut : Bool
  combining : Bool
  walks : List Walk
  walkCache : List (Nat × Nat × Nat)
  decoders : SMap Decoder
  bqs : SMap BQ
  sysSeq : Nat
  sysOut : List (Nat × Who × W32 × Nat)
  fwHeld : Bool
  meas : List (BitVec 384)
  leads : Bool
  leaseSeen : Nat
  leaseSince : Nat
  released : Option Nat
  autoQ : List (Who × Nat) := []
  autoGo : Option Who := none
  deriving DecidableEq, Repr

/-- A region control block (R78), with the die and the cycle of the fault that stopped it (R84). -/
structure Rcb where
  parent : Nat
  sramkib : Nat
  regkib : Nat
  pend : Nat
  groups : Nat
  cands : Nat
  cslots : Nat
  prio : Nat
  det : Bool
  fdom : Bool
  evstream : Nat
  inhmask : Nat
  usedsram : Nat
  usedreg : Nat
  usedpend : Nat
  usedgrp : Nat
  usedcand : Nat
  usedcslot : Nat
  stopped : Bool
  flaunch : Nat
  fcause : Nat
  faultAt : Nat × Nat := (0, 0)
  deriving DecidableEq, Repr

/-- A launch (R127-R132): how many of its groups have been admitted, placed and freed; whether it holds its PEND unit,
waits, has run its DATOM merge; its open child reserve; its DATOM log. -/
structure Launch where
  idx : Nat
  die : Nat
  slot : Nat
  tmpl : Template
  args : SMap W64
  count : Nat
  admitted : Nat
  freed : Nat
  pend : Bool
  waiting : Bool
  acq : Bool
  reserve : Option (Nat × Nat × Nat × Nat)
  drawn : List (Nat × Nat × Nat × Nat × Nat)
  logBlocks : List Nat
  logPos : Nat
  logRuns : List DRun
  applied : Bool
  at_ : Nat
  endedAt : Nat := 0
  deriving DecidableEq, Repr

/-- A trap log (R427). -/
structure TrapLog where
  base : Nat
  size : Nat
  head : Nat
  tail : Nat
  count : Nat
  heldIdx : List Nat
  deriving DecidableEq, Repr

/-- A saved group (R86, R87): the group, the core it ran on, its window bytes with their poisoned lines, and the slots and blocks it held
once they have been written out, the copies to replay and the releases that wait for them. -/
structure SavedGroup where
  core : Nat
  gslot : Nat
  grp : Group
  window : Option (List Byte)
  poisoned : List Nat := []
  slots : SMap OpSlot
  blocks : SMap AccBlock
  copies : List Copy
  mrels : List Mrel
  deriving DecidableEq, Repr

/-- The states of a context (R85). -/
inductive XState where
  | free | resident | saving | saved | resuming | stopped | draining
  deriving DecidableEq, Repr

/-- A context (R75-R92). `stopHeld`: a root stop waits for a save or a resume under way (R85); `open_` lists the ring
packets that complete when the state they wait for is reached (R101: 0 SAVED, 1 RESIDENT, 2 FREE); `handlers`: the save
handlers have been started (R89); `resolveHeld` the RESOLVEs to apply at resume (R432); `detAt` gives, by DET region, the
cycle at which its next group was found not to fit (R145). -/
structure Context where
  st : XState
  stopHeld : Bool
  handlers : Bool
  part : Nat
  pasid : Nat
  ptroot : Nat
  rcbbase : Nat
  nregions : Nat
  savebase : Nat
  savesize : Nat
  shmode : Bool
  handler : W64
  slice : Nat
  ctxstream : Nat
  sliceAt : Nat
  regions : List Rcb
  launches : List Launch
  tlog : Option TrapLog
  tmask : Nat
  tseq : Nat
  layout : Nat
  lazy : Bool
  usedkib : Nat
  saved : List SavedGroup
  detAt : SMap Nat
  detq : List (Nat × Nat)
  logMin : Nat
  open_ : List (Nat × Nat × W32 × W64)
  resolveHeld : List (Nat × BitVec 256)
  deriving DecidableEq, Repr

/-- The kinds of a time domain (R94). -/
inductive DomKind where
  | sequence | diecycle | host | peer
  deriving DecidableEq, Repr

/-- A buffered event with its intake number (R117). -/
structure Buffered where
  ev : EventRec
  ord : Nat
  deriving DecidableEq, Repr

/-- A step of R122 not yet done: offer an event to the candidates of an automaton that are left, then make a fresh
candidate; or accept. -/
inductive Work where
  | offer (slot : Nat) (ev : EventRec) (left : List Nat)
  | fresh (slot : Nat) (ev : EventRec)
  | expire (slot : Nat) (seq : Nat)
  | accept (slot : Nat) (c : Cand) (status stamp : Nat)
  deriving DecidableEq, Repr

/-- Why a domain is halted (R124, R130). -/
inductive Halt where
  | run | entry (ctx region : Nat) | pend (ctx region : Nat)
  deriving DecidableEq, Repr

/-- A time domain (R94-R99, R117, R118): `t` is the time point being processed, `work` the steps of it not yet done,
`haltedAt` the cycle at which it was found halted. -/
structure Domain where
  cfg : Bool
  kind : DomKind
  die : Nat
  drop : Nat
  stale : Nat
  buffer : Bool
  buf : List Buffered
  nextOrd : Nat
  t : Nat
  work : List Work
  halt : Halt
  haltedAt : Nat
  frontier : Nat
  deriving DecidableEq, Repr

/-- The states of a stream (R95). -/
inductive SState where
  | unbound | open_ | closed
  deriving DecidableEq, Repr

/-- A stream (R95, R98, R375). `closing` counts a close that has started (R485). -/
structure Stream where
  st : SState
  dom : Nat
  ctx : Nat
  last : Nat
  devseq : Nat
  latest : Option EventRec
  closing : Bool
  deriving DecidableEq, Repr

/-- The states of a ring (R105). -/
inductive RState where
  | disabled | idle | running | waiting | stopped
  deriving DecidableEq, Repr

/-- A Wellhead ring (R457, R105); `open_` counts the packets started and not complete. -/
structure Ring where
  base : Nat
  head : Nat
  tail : Nat
  pasid : Nat
  fe : Nat
  logsz : Nat
  shadow : Bool
  en : Bool
  st : RState
  open_ : Nat
  deriving DecidableEq, Repr

/-- A partition (R454), with its PLOG buffer (R272, R432). -/
structure Part where
  base : Nat
  limit : Nat
  en : Bool
  sec : Nat
  dbg : Nat
  pwr : Nat
  femask : Nat
  colours : Nat
  decmask : Nat
  vf : Bool
  plogBase : Nat
  plogSize : Nat
  plogCount : Nat
  plogDrops : Nat
  meas4 : BitVec 384 := 0
  meas5 : BitVec 384 := 0
  deriving DecidableEq, Repr

/-- A mailbox completion entry (R458): function, TAG, status, result and value. -/
structure MbDone where
  fn : Nat
  tag : W32
  status : Nat
  result : Nat
  value : W64
  body : List Byte
  deriving DecidableEq, Repr

/-- A message of the device to the host through the mailbox (R389, R458): the SYSCALL record. -/
structure SysMsg where
  die : Nat
  seq : Nat
  toHost : Bool
  rec_ : List Byte
  deriving DecidableEq, Repr

/-- A page command that waits for pulls on its range and for the accesses made before it (R188): those numbered below
`upto`. -/
structure PageCmd where
  mb : Mb
  action : Nat
  pasid : Nat
  va : Nat
  npages : Nat
  upto : Nat
  deriving DecidableEq, Repr

/-- A page pull in flight (R193); `via` is the port by which its attempt goes, none where it has no route. -/
structure Pull where
  pasid : Nat
  page : Nat
  pte : Nat
  rec_ : Nat
  level : Nat
  active : Bool
  nextAt : Nat
  die : Nat
  via : Option Nat
  deriving DecidableEq, Repr

/-- The states of a peer port (R201), in their code order. -/
inductive PState where
  | disabled | training | active | retrain | down | absent
  deriving DecidableEq, Repr

/-- A peer port (R199-R205); `fails` are the sequence numbers that have failed once and have not come since, `nak` the NAK that has come
in this cycle. -/
structure Port where
  st : PState
  seq : Nat
  lastGood : Nat
  replay : List (Nat × BitVec 1280)
  sent : List (BitVec 1280)
  tx : Nat
  unreach : Nat
  transient : Nat
  fails : List Nat
  toks : List (Nat × Who × Nat)
  nak : Option (BitVec 1280) := none
  deriving DecidableEq, Repr

/-- A wait probe (R145): its sender, the units it is on its way to, and the units that have forwarded it. A unit is a role
(core, group slot, %warp), a pending launch (1000, context, launch index), a halted domain (1001, domain, 0) or the
dispatcher of a region (1002, context, region). -/
structure Probe where
  sender : Nat × Nat × Nat
  todo : List (Nat × Nat × Nat)
  seen : List (Nat × Nat × Nat)
  deriving DecidableEq, Repr

/-- The device power states (R460). -/
inductive Power where
  | d0 | dieRetain | d3hot | d3cold
  deriving DecidableEq, Repr

/-- The firmware of the device (R91, R463). -/
structure Firmware where
  version : Nat
  svn : Nat
  layouts : Nat
  layout : Nat
  staged : Option (Nat × Nat × Nat)
  pending : Bool
  deriving DecidableEq, Repr

/-- A request that waits for the firmware leader (R458): the cycle in which it came, the ring it came from or 64 for a mailbox, the
function, and its packet or mailbox entries. -/
structure FwReq where
  at_ : Nat
  key : Nat
  fn : Nat
  words : List (List Byte)
  deriving DecidableEq, Repr

/-- One entry of the schedule: which agent moves next (notes/assumptions/5.md). `unitOld` is a step of a unit that takes the old value
of some words (R69); `ringLate` puts an entry of a ring at the end of a PLU's queue (R103); `hostAtomic` is an atomic
of the host (R416), `l1Evict` the loss of a line from an L1 (R58), `peerPoison` a peer's report that a line of a copy is poisoned there
(R197). `mailPut` is the host's write of a mailbox entry, `mailTake` the mailboxes' turn and `fwRun` the leader's (R458); `barRead` and
`barWrite` are the host's accesses of a BAR (R456), `cacheFill` a fill of a memory-side cache (R455). -/
inductive Sched where
  | unit (i : Instr)
  | unitOld (words : List Nat) (i : Instr)
  | issue (w : Who)
  | copyMove (core id n : Nat)
  | copyOld (core id n : Nat) (words : List Nat)
  | oldAccess (n : Nat) (words : List Nat)
  | drainPart (core id home : Nat)
  | arrayBlock (core : Nat)
  | ringFetch (ring : Nat)
  | ringLate (die n : Nat)
  | hostAtomic (aop w pa b : Nat)
  | l1Evict (core line : Nat)
  | peerPoison (core id : Nat)
  | mailPut (fn : Nat) (e : List Byte)
  | mailTake
  | fwRun
  | barRead (fn bar off n : Nat)
  | barWrite (fn bar off : Nat) (bytes : List Byte)
  | cacheFill (part line way : Nat)
  deriving DecidableEq, Repr

/-- The device. `olds` lists the words that the unit whose step is under way takes as they were (R69). `stepping` is a debugger's STEP that has been taken and whose one issue comes next (R434). `pmPending` says that a power-management write of D3hot waits for the saves it began (R460).
`mailReq` are the mailboxes' request rings, `mailLast` the function served last and `fwQ` the leader's queue (R458); `hostRd` is what the
host's last read of a BAR gave (R456). `msCache` gives the way of each line in a memory-side cache (R57, R455). `decStreams` is keyed by
context number × 2^64 + decoder context area (R449). `pwrLimit` and `noModule` are none until a boot has set them (R1, R462). -/
structure State where
  mem : List Host.Cell
  poison : List Nat
  promo : SMap (List (Nat × Nat))
  lineRec : SMap (Nat × Nat)
  stale : SMap Stale
  olds : List Nat
  errCount : SMap Nat
  inflight : List Req
  returns : List Ret
  datoms : List DInFlight
  dbufs : List DBuf
  dies : SMap Die
  cores : SMap Core
  ctxs : SMap Context
  domains : SMap Domain
  streams : SMap Stream
  decStreams : SMap DecStream := []
  rings : SMap Ring
  parts : SMap Part
  pageReqs : List (Nat × Nat)
  pulls : List Pull
  pageCmds : List PageCmd
  mbox : List MbDone
  mailReq : SMap (List (List Byte)) := []
  mailLast : Nat := 16
  fwQ : List FwReq := []
  hostRd : List Byte := []
  msCache : SMap Nat := []
  sysMsgs : List SysMsg
  spdm : SMap (List Byte)
  unlockCtr : Nat
  power : Power
  pmPending : Bool
  pwrcap : Nat
  pwrLimit : Option Nat
  clockMhz : Nat
  fw : Firmware
  node : Nat
  routes : SMap (Nat × Option Nat)
  linkStream : Option Nat
  ports : SMap Port
  ucie : List Bool
  noModule : Option (BitVec 4)
  probes : List Probe
  schedule : List Sched
  stepping : Option (Mb × Who)
  cur : Who
  nextId : Nat
  freeCtr : Nat
  deriving DecidableEq, Repr

/-- Why the model stops (never a trap of the device, which is a next state). -/
inductive Fault where
  /-- Raised by every instruction word executed while `State.cur` names no split of a resident role. The device has
  no such case: a word is issued by a split only, and `step` sets `cur` to one. Safe: the model stops. -/
  | noIssuer
  deriving DecidableEq, Repr

/-- Why the model gives no meaning. -/
inductive Refusal where
  /-- Raised by the arms of `exec` that have no meaning yet. Safe: the model stops. -/
  | notModelled (mnemonic : String)
  deriving DecidableEq, Repr

/-- What every meaning answers. -/
abbrev Out := Host.Outcome State Fault Refusal

/-- A core after reset: nothing resident, the steal generator at its seed (R107). -/
def Core.reset (n : Nat) : Core where
  groups := []
  runq := []
  stealW := 0x9E37 ^^^ BitVec.ofNat 16 n
  stealOut := none
  stealAt := 0
  l1 := []
  l1rec := []
  obs := []
  tlb := []
  copies := []
  slots := []
  blocks := []
  mq := []
  drains := []
  mrels := []
  lastMt := 0
  lastWarp := []
  turn := []
  tried := []
  ranks := []
  fills := []
  lazySram := []
  claimed := []
  claims := []
  dead := false

/-- A die after reset (R127, R167, R464; log 1). -/
def Die.reset : Die where
  cycle := 0
  autos := []
  launchCtr := []
  intakeQ := []
  intook := false
  asks := []
  cslots := []
  staged := []
  callocCtr := 0
  chunkQ := []
  arrived := []
  slotOut := false
  combining := false
  walks := []
  walkCache := []
  decoders := []
  bqs := []
  sysSeq := 0
  sysOut := []
  fwHeld := false
  meas := [0, 0, 0, 0, 0]
  leads := false
  leaseSeen := 0
  leaseSince := 0
  released := none

/-- A context slot that holds nothing (R85 FREE). -/
def Context.reset : Context where
  st := .free
  stopHeld := false
  handlers := false
  part := 0
  pasid := 0
  ptroot := 0
  rcbbase := 0
  nregions := 0
  savebase := 0
  savesize := 0
  shmode := false
  handler := 0
  slice := 0
  ctxstream := 0
  sliceAt := 0
  regions := []
  launches := []
  tlog := none
  tmask := 0
  tseq := 0
  layout := 0
  lazy := false
  usedkib := 0
  saved := []
  detAt := []
  detq := []
  logMin := 0
  open_ := []
  resolveHeld := []

/-- An unconfigured time domain. -/
def Domain.reset : Domain where
  cfg := false
  kind := .sequence
  die := 0
  drop := 0
  stale := 0
  buffer := false
  buf := []
  nextOrd := 0
  t := 0
  work := []
  halt := .run
  haltedAt := 0
  frontier := 0

/-- An unbound stream (R95). -/
def Stream.reset : Stream where
  st := .unbound
  dom := 0
  ctx := 0
  last := 0
  devseq := 0
  latest := none
  closing := false

/-- A ring after reset (R457, R105). -/
def Ring.reset : Ring where
  base := 0
  head := 0
  tail := 0
  pasid := 0
  fe := 0
  logsz := 0
  shadow := false
  en := false
  st := .disabled
  open_ := 0

/-- A partition register after reset (R454; SEC: log 3). -/
def Part.reset : Part where
  base := 0
  limit := 0
  en := false
  sec := 0
  dbg := 0
  pwr := 0
  femask := 0
  colours := 0xFFFF
  decmask := 0
  vf := false
  plogBase := 0
  plogSize := 0
  plogCount := 0
  plogDrops := 0

/-- A peer port after reset (R201, R202; log 4). -/
def Port.reset : Port where
  st := .disabled
  seq := 0
  lastGood := 0xFFF
  replay := []
  sent := []
  tx := 0
  unreach := 0
  transient := 0
  fails := []
  toks := []

/-- An unused combine slot (R180). -/
def CSlot.reset : CSlot where
  st := .free
  held := false
  gen := 0
  prevGen := 0
  prev := none
  batch := none
  dups := 0
  lates := 0
  expmask := 0
  arrmask := 0
  result := 0
  deadline := 0
  rows := []
  out := []
  outQ := []
  stgQ := []
  waits := []
  failed := false
  atStart := 0

/-- An empty automaton image. -/
def Image.empty : Image where
  raw := []
  nclk := 0
  nslot := 0
  domain := 0
  share := false
  ovf := 0
  listmax := 0
  candmax := 0
  region := 0
  locs := []
  edges := []
  tmpls := []

/-- A FREE automaton slot (R125). -/
def Auto.reset : Auto where
  st := .free
  ctx := 0
  img := Image.empty
  imgVa := 0
  cands := []
  nextSeq := 0
  drops := 0
  pos := none
  skip := none

/-- A disabled decoder (R453). -/
def Decoder.reset : Decoder where
  st := .disabled
  waitPage := none
  queue := []
  job := none

/-- A disabled batch queue (R109). -/
def BQ.reset : BQ where
  enabled := false
  part := 0
  cap := 0
  lw := 0
  stream := 0
  ents := []
  start := 0

/-- A free operand slot (R329). -/
def OpSlot.reset : OpSlot where
  holder := .free
  sx := 0
  bytes := []

/-- A free accumulator block (R329). -/
def AccBlock.reset : AccBlock where
  holder := .free
  words := []

/-- A barrier at placement (R152). -/
def Bar.reset : Bar where
  ph := 0
  a := 0
  e := 0
  zero := false
  arrived := []

/-- The device right after reset (spec/25_platform.md R454-R465; values the spec does not give: log 1 to 4). -/
def State.reset : State where
  mem := []
  poison := []
  promo := []
  lineRec := []
  stale := []
  olds := []
  errCount := []
  inflight := []
  returns := []
  datoms := []
  dbufs := []
  dies := []
  cores := []
  ctxs := []
  domains := []
  streams := []
  rings := []
  parts := []
  pageReqs := []
  pulls := []
  pageCmds := []
  mbox := []
  sysMsgs := []
  spdm := []
  unlockCtr := 0
  power := .d0
  pmPending := false
  pwrcap := 3200
  pwrLimit := none
  clockMhz := 1300
  fw := { version := 1, svn := 0, layouts := 8, layout := 3, staged := none, pending := false }
  node := 0xFFFF
  routes := []
  linkStream := none
  ports := []
  ucie := [false, false, false, false]
  noModule := none
  probes := []
  schedule := []
  stepping := none
  cur := { core := 0, gslot := 0, wid := 0, slot := 0 }
  nextId := 1
  freeCtr := 0

end Sys2Proof.Machine
end

