-- ==== Sys2Proof/Machine/Access.lean ====
section
/-!
DEFINITION. The objects of the State by number, and the one way to change each: cores, groups, warps, splits, dies,
contexts, regions, domains, streams, rings, partitions, ports.
-/
namespace Sys2Proof.Machine

/-- Core `c`. -/
def coreOf (s : State) (c : Nat) : Core := mapGet s.cores c (Core.reset c)

/-- Core `c` changed by `f`. -/
def modCore (s : State) (c : Nat) (f : Core → Core) : State := { s with cores := mapSet s.cores c (f (coreOf s c)) }

/-- Die `d`. -/
def dieOf (s : State) (d : Nat) : Die := mapGet s.dies d Die.reset

/-- Die `d` changed by `f`. -/
def modDie (s : State) (d : Nat) (f : Die → Die) : State := { s with dies := mapSet s.dies d (f (dieOf s d)) }

/-- Context `x`. -/
def ctxOf (s : State) (x : Nat) : Context := mapGet s.ctxs x Context.reset

/-- Context `x` changed by `f`. -/
def modCtx (s : State) (x : Nat) (f : Context → Context) : State := { s with ctxs := mapSet s.ctxs x (f (ctxOf s x)) }

/-- Time domain `d` (R94). -/
def domOf (s : State) (d : Nat) : Domain := mapGet s.domains d Domain.reset

/-- Time domain `d` changed by `f`. -/
def modDom (s : State) (d : Nat) (f : Domain → Domain) : State :=
  { s with domains := mapSet s.domains d (f (domOf s d)) }

/-- Stream `n` (R95). -/
def streamOf (s : State) (n : Nat) : Stream := mapGet s.streams n Stream.reset

/-- Stream `n` changed by `f`. -/
def modStream (s : State) (n : Nat) (f : Stream → Stream) : State :=
  { s with streams := mapSet s.streams n (f (streamOf s n)) }

/-- Ring `n` (R457). -/
def ringOf (s : State) (n : Nat) : Ring := mapGet s.rings n Ring.reset

/-- Ring `n` changed by `f`. -/
def modRing (s : State) (n : Nat) (f : Ring → Ring) : State := { s with rings := mapSet s.rings n (f (ringOf s n)) }

/-- Partition `n` (R454). -/
def partOf (s : State) (n : Nat) : Part := mapGet s.parts n Part.reset

/-- Partition `n` changed by `f`. -/
def modPart (s : State) (n : Nat) (f : Part → Part) : State := { s with parts := mapSet s.parts n (f (partOf s n)) }

/-- A peer port at reset: ABSENT where the package does not carry its lanes (R1, R201). -/
def portAtReset (n : Nat) : Port := { Port.reset with st := if Sys2Proof.Config.missingPorts.getLsbD n then .absent else .disabled }

/-- Peer port `n` (R199). -/
def portOf (s : State) (n : Nat) : Port := mapGet s.ports n (portAtReset n)

/-- Peer port `n` changed by `f`. -/
def modPort (s : State) (n : Nat) (f : Port → Port) : State := { s with ports := mapSet s.ports n (f (portOf s n)) }

/-- The group in slot `g` of core `c`, if one is there. -/
def groupAt (s : State) (c g : Nat) : Option Group := mapFind (coreOf s c).groups g

/-- The group in slot `g` of core `c` changed by `f`; nothing if the slot is free. -/
def modGroup (s : State) (c g : Nat) (f : Group → Group) : State :=
  match groupAt s c g with
  | some x => modCore s c (fun k => { k with groups := mapSet k.groups g (f x) })
  | none => s

/-- A warp, copy warp or matrix thread by its %warp (R133). -/
def warpAt (s : State) (c g w : Nat) : Option Warp :=
  match groupAt s c g with
  | some x => mapFind x.warps w
  | none => none

/-- The role changed by `f`. -/
def modWarp (s : State) (c g w : Nat) (f : Warp → Warp) : State :=
  modGroup s c g (fun x =>
    match mapFind x.warps w with
    | some y => { x with warps := mapSet x.warps w (f y) }
    | none => x)

/-- The split in slot `i` of a warp (R138). -/
def Warp.split (w : Warp) (i : Nat) : Option Split :=
  match w.splits[i]? with
  | some (some x) => some x
  | _ => none

/-- The split in slot `i` replaced. -/
def Warp.setSplit (w : Warp) (i : Nat) (x : Option Split) : Warp := { w with splits := listSet w.splits i x }

/-- The split that `who` names, changed by `f`. -/
def modSplit (s : State) (w : Who) (f : Split → Split) : State :=
  modWarp s w.core w.gslot w.wid (fun y => y.setSplit w.slot ((y.split w.slot).map f))

/-- Region `r` of a context. -/
def Context.region (x : Context) (r : Nat) : Option Rcb := x.regions[r]?

/-- Region `r` of context `x` changed by `f`. -/
def modRegion (s : State) (x r : Nat) (f : Rcb → Rcb) : State :=
  modCtx s x (fun c => match c.regions[r]? with
    | some k => { c with regions := listSet c.regions r (f k) }
    | none => c)

/-- The launch of context `x` with index `i` (R127). -/
def launchOf (s : State) (x i : Nat) : Option Launch := (ctxOf s x).launches.find? (fun l => l.idx == i)

/-- The launch with index `i` of context `x` changed by `f`. -/
def modLaunch (s : State) (x i : Nat) (f : Launch → Launch) : State :=
  modCtx s x (fun c => { c with launches := c.launches.map (fun l => if l.idx == i then f l else l) })

/-- The die a core stands on (R14). -/
def dieOfCore (c : Nat) : Nat := c / 64

/-- The next request number, and the state after it is given out. -/
def freshId (s : State) : Nat × State := (s.nextId, { s with nextId := s.nextId + 1 })

/-- A free value of `w` bits (notes/assumptions/5.md), and the state after it is drawn. -/
def freshFree (s : State) : Nat × State :=
  ((Sys2Proof.Config.freeValue s.freeCtr).toNat, { s with freeCtr := s.freeCtr + 1 })

/-- Lane `l` of a mask. -/
def inMask (m : W32) (l : Nat) : Bool := m.getLsbD l

/-- The lanes of a mask in ascending order (R10). -/
def lanesOf (m : W32) : List Nat := (List.range 32).filter (inMask m)

/-- The mask of a list of lanes. -/
def maskOf (ls : List Nat) : W32 := ls.foldl (fun m l => m ||| (1#32 <<< l)) 0

/-- Everything resident: (core, group slot, group), in core and slot order. -/
def residents (s : State) : List (Nat × Nat × Group) :=
  s.cores.flatMap (fun (c, k) => k.groups.map (fun (g, x) => (c, g, x)))

/-- Every warp changed by `f`, which is told its core, group slot, group and %warp. -/
def mapWarps (s : State) (f : Nat → Nat → Group → Nat → Warp → Warp) : State :=
  { s with cores := s.cores.map (fun (c, k) =>
      (c, { k with groups := k.groups.map (fun (g, x) =>
        (g, { x with warps := x.warps.map (fun (w, y) => (w, f c g x w y)) })) })) }

/-- Whether flits can be given to a port (R201): they wait in the replay buffer during RETRAIN. -/
def portUp (s : State) (p : Nat) : Bool := (portOf s p).st == .active || (portOf s p).st == .retrain

/-- The port that leads to a node (R198, R205): its primary, or its alternate when the primary cannot be used. -/
def routePort (s : State) (node : Nat) : Option Nat :=
  match mapFind s.routes node with
  | none => none
  | some (p, alt) =>
    if portUp s p then some p
    else match alt with
      | some q => if portUp s q then some q else none
      | none => none

end Sys2Proof.Machine
end

