-- ==== Sys2Proof/Machine/Memory.lean ====
section
/-!
DEFINITION. Physical memory: the map of R54, the homes of R55, R56, R71, bytes in one canonical form, poison marks
(R197, R304), the write queues of the cores (R396), their L1 caches (R58), and the performing of a write at its home
(R410, R411).
-/
namespace Sys2Proof.Machine

/-- The canonical form of the byte list: addresses strictly rising, no byte equal to what an unlisted address reads as
(0: notes/assumptions/2.md). -/
def Memory.wf (m : List Host.Cell) : Bool :=
  match m with
  | [] => true
  | (a, b) :: r =>
    b != 0 && Memory.wf r &&
    (match r with
     | [] => true
     | (a', _) :: _ => a < a')

/-- The byte at a physical address. -/
def memGet (m : List Host.Cell) (a : Nat) : Byte := mapGet m a 0

/-- Takes an address off a rising list. -/
def memDel (m : List Host.Cell) (a : Nat) : List Host.Cell :=
  match m with
  | [] => []
  | (j, x) :: r => if j = a then r else (j, x) :: memDel r a

/-- The byte at a physical address set; the list stays canonical. -/
def memSet (m : List Host.Cell) (a : Nat) (b : Byte) : List Host.Cell :=
  if b = 0 then memDel m a else mapSet m a b

/-- Bytes set from an address up. -/
def memSetBytes (m : List Host.Cell) (a : Nat) (bs : List Byte) : List Host.Cell :=
  match bs with
  | [] => m
  | b :: r => memSetBytes (memSet m a b) (a + 1) r

/-- `n` bytes from an address up. -/
def memGetBytes (m : List Host.Cell) (a n : Nat) : List Byte := (List.range n).map (fun i => memGet m (a + i))

/-- The little-endian number of `n` bytes at an address (R6). -/
def memNat (m : List Host.Cell) (a n : Nat) : Nat := ofBytesLE (memGetBytes m a n)

/-- HBM4E addresses (R54). -/
def inHbm (pa : Nat) : Bool := pa < 0x12000000000

/-- Flat SRAM addresses (R54). -/
def inSram (pa : Nat) : Bool := 0x20000000000 ≤ pa && pa < 0x20040000000

/-- Host memory addresses (R54). -/
def inHostMem (pa : Nat) : Bool := 0x40000000000 ≤ pa && pa < 2 ^ 52

/-- An address that no unit answers for (R54): a hole. -/
def inHole (pa : Nat) : Bool := !inHbm pa && !inSram pa && !inHostMem pa

/-- The slice of core `c` (R55). -/
def sliceBase (c : Nat) : Nat := 0x20000000000 + c * 0x400000

/-- The 128-byte line of an address. -/
def lineOf (pa : Nat) : Nat := pa / 128

/-- The global HBM channel of a line (R56). -/
def hbmChannel (pa : Nat) : Nat := (bitsOf pa 7 9) ^^^ (bitsOf pa 16 9) ^^^ (bitsOf pa 25 9)

/-- The home unit of an address (R71): a slice 0 to 255, an HBM channel 256 to 767, the host's 768. -/
def homeOf (pa : Nat) : Nat :=
  if inSram pa then (pa - 0x20000000000) / 0x400000 else if inHbm pa then 256 + hbmChannel pa else 768

/-- The lines that a range of bytes touches. -/
def linesOf (pa n : Nat) : List Nat :=
  if n = 0 then [] else (List.range ((pa + n - 1) / 128 - pa / 128 + 1)).map (fun i => pa / 128 + i)

/-- Whether two byte ranges overlap. -/
def overlaps (a n b m : Nat) : Bool := a < b + m && b < a + n

/-- Whether a line is poisoned (R197). -/
def isPoisoned (s : State) (line : Nat) : Bool := s.poison.contains line

/-- The bytes a request touches: ranges of (address, length). -/
def Req.ranges (r : Req) : List (Nat × Nat) :=
  r.lanes.flatMap (fun l => match r.kind with
    | .dcas | .amov => [(l.pa, r.w), (l.pa2, r.w)]
    | _ => [(l.pa, r.w)])

/-- Whether a request writes. -/
def Req.writes (r : Req) : Bool :=
  match r.kind with
  | .load => false
  | .poll _ => false
  | .ost => false
  | .ald => false
  | _ => true

/-- The bytes of memory a request reads: ranges of (address, length). -/
def Req.reads (r : Req) : List (Nat × Nat) :=
  match r.kind with
  | .store | .ost | .ald => []
  | .amov => r.lanes.map (fun l => (l.pa, r.w))
  | _ => r.ranges

/-- The lines a request touches. -/
def Req.lines (r : Req) : List Nat := r.ranges.foldl (fun ls (p, n) => ls ++ (linesOf p n).filter (fun l => !ls.contains l)) []

/-- Whether a read takes the newest bytes of its core's write queue (R396): a load of the data channel, or one of the sync channel
below .die. -/
def Req.queueServed (r : Req) : Bool := r.kind == .load && (!r.sync || r.scope < 3)

/-- Whether a request is one of the matrix storage, which is no memory (R350). -/
def Req.isMatrix (r : Req) : Bool := r.kind == .ost || r.kind == .ald

/-- Whether a request is a plain or sync store, which travels through its core's write queue (R396). -/
def Req.isStore (r : Req) : Bool := r.kind == .store

/-- Whether two requests touch a common byte. -/
def Req.meets (a b : Req) : Bool :=
  a.ranges.any (fun (p, n) => b.ranges.any (fun (q, m) => overlaps p n q m))

/-- Whether a request touches a line. -/
def Req.onLine (r : Req) (line : Nat) : Bool := r.ranges.any (fun (p, n) => (linesOf p n).contains line)

/-- Whether two requests come from one warp. -/
def sameWarp (a b : Who) : Bool := a.core == b.core && a.gslot == b.gslot && a.wid == b.wid

/-- Whether a value is still on its way: not performed, or performed and not returned. -/
def State.outstanding (s : State) (id : Nat) : Bool :=
  s.inflight.any (fun r => r.id == id) || s.returns.any (fun r => r.id == id)

/-- The earlier requests in flight of the warp of `r`. -/
def earlierOfWarp (s : State) (r : Req) : List Req :=
  s.inflight.filter (fun q => q.id < r.id && sameWarp q.who r.who)

/-- A store with release order (R312). -/
def Req.releases (r : Req) : Bool := r.writes && r.ord ≥ 2

/-- The scope at which a release is performed: a release to host memory is a .die release at least (R397). -/
def Req.effScope (r : Req) : Nat :=
  if r.lanes.any (fun l => inHostMem l.pa) then Nat.max r.scope 3 else r.scope

/-- A write to host memory that comes after a release FENCE below .die (R401): performed as a .die release (R397). -/
def Req.hostFenced (r : Req) : Bool := r.writes && r.fenced && r.lanes.any (fun l => inHostMem l.pa)

/-- Whether what a write must follow has happened: a release enters the write queue only when what it orders has been
performed at its scope (R312), and nothing enters before the acquires it must follow have returned, nor before an earlier read
of its warp that touches its bytes has been performed (R69). -/
def Req.mayEnter (s : State) (r : Req) : Bool :=
  r.after.all (fun i => !s.outstanding i) &&
  (earlierOfWarp s r).all (fun q => q.isStore || !q.meets r) &&
  (!(r.releases || r.hostFenced) ||
    (if r.effScope < 3 then (earlierOfWarp s r).all (fun q => q.isStore)
     else (earlierOfWarp s r).isEmpty && s.inflight.all (fun q => !(q.isStore && q.id < r.id && q.who.core == r.who.core))))

/-- Whether a write of the core has entered the core's write queue, which stores enter in issue order (R396). -/
def Req.entered (s : State) (r : Req) : Bool :=
  r.mayEnter s && s.inflight.all (fun q => !(q.isStore && q.id < r.id && q.who.core == r.who.core) || q.mayEnter s)

/-- The write queue of core `c`, oldest first (R396). -/
def writeQueue (s : State) (c : Nat) : List Req :=
  (s.inflight.filter (fun r => r.isStore && r.who.core == c)).takeWhile (fun r => r.mayEnter s)

/-- The byte that a write queue gives to an address, the newest (R396). -/
def queuedByte (q : List Req) (pa : Nat) : Option Byte :=
  q.foldl (fun acc r =>
    r.lanes.foldl (fun acc l =>
      if l.pa ≤ pa && pa < l.pa + r.w then some (BitVec.ofNat 8 (l.v >>> (8 * (pa - l.pa)))) else acc) acc) none

/-- Whether core `c` holds a line in its L1 (R58). -/
def l1Line (s : State) (c line : Nat) : Option (List Byte) := mapFind (coreOf s c).l1 line

/-- A line dropped from the L1 of core `c`, with the records of its bytes. -/
def l1Drop (s : State) (c line : Nat) : State :=
  modCore s c (fun k => { k with
    l1 := mapDel k.l1 line
    l1rec := k.l1rec.filter (fun e => lineOf e.1 != line) })

/-- Every line dropped from the L1 of core `c` (R314, R312). -/
def l1Clear (s : State) (c : Nat) : State := modCore s c (fun k => { k with l1 := [], l1rec := [] })

/-- A line put into an L1 with the promotion records of its bytes; the L1 holds 2048 lines (R58), and the lowest line goes when
it is full (notes/assumptions/7.md). -/
def l1Fill (s : State) (c line : Nat) : State :=
  let s := match (coreOf s c).l1 with
    | (low, _) :: _ => if (coreOf s c).l1.length ≥ 2048 && (l1Line s c line).isNone then l1Drop s c low else s
    | [] => s
  modCore s c (fun k => { k with
    l1 := mapSet k.l1 line (memGetBytes s.mem (line * 128) 128)
    l1rec := (s.promo.filter (fun e => lineOf e.1 == line)).foldl (fun m e => mapSet m e.1 e.2)
      (k.l1rec.filter (fun e => lineOf e.1 != line)) })

/-- A warp's token count changed (R218). -/
def countToken (k : Nat) (n : Int) (y : Warp) : Warp :=
  { y with toks := listSet y.toks k (((y.toks.getD k 0 : Nat) : Int) + n).toNat }

/-- A speculator rolled back (R157, R159): its buffer and read set are gone, the tokens of its buffered stores with them; every
split and wait-list entry stands at its region's entry PC, and the warp is parked at its barrier, from cycle `now` on, until the
phase completes; where it has completed and only the commit waits (R70), the warp runs its region again. -/
def rollback (now : Nat) (y : Warp) : Warp :=
  match y.spec with
  | some p =>
    let y := p.toks.foldl (fun y k => countToken k (-1) y) y
    { y with
      spec := none
      parked := if p.due then none else some (p.bar, p.ph)
      blockedAt := now
      splits := y.splits.map (fun o => o.map (fun x => { x with pc := x.entry, hold := .none, wait := none, blk := .none }))
      wlist := y.wlist.map (fun e => { e with sp := { e.sp with pc := e.sp.entry } })
      spilled := y.spilled.map (fun e => { e with sp := { e.sp with pc := e.sp.entry } }) }
  | none => y

/-- Every speculator that has read one of the lines is squashed (R157, R411). -/
def squashReaders (s : State) (lines : List Nat) : State :=
  mapWarps s (fun c _ _ _ y =>
    match y.spec with
    | some p => if p.reads.any (fun l => lines.contains l) then rollback (dieOf s (dieOfCore c)).cycle y else y
    | none => y)

/-- The promotion records after `n` bytes are written (R402, R410): a write sets them to the core-scope release it is, or to
none; an atomic's write (`chain`) goes on with the records it found (notes/assumptions/96.md). -/
def promoAfter (m : SMap (List (Nat × Nat))) (pa n : Nat) (chain : Bool) (promo : Option (Nat × Nat)) :
    SMap (List (Nat × Nat)) :=
  let m := if chain then m else m.filter (fun e => !(pa ≤ e.1 && e.1 < pa + n))
  match promo with
  | none => m
  | some p => (List.range n).foldl (fun m i => mapSet m (pa + i) (mapGet m (pa + i) [] ++ [p])) m

/-- The record of each home line after a write of it (R410): a core-scope release sets it, any other write sets it to none. -/
def lineRecAfter (m : SMap (Nat × Nat)) (lines : List Nat) (promo : Option (Nat × Nat)) : SMap (Nat × Nat) :=
  lines.foldl (fun m l => match promo with
    | some p => mapSet m l p
    | none => mapDel m l) m

/-- The aligned 8-byte words that a range of bytes touches (R395). -/
def wordsOf (pa n : Nat) : List Nat := if n = 0 then [] else (List.range ((pa + n - 1) / 8 - pa / 8 + 1)).map (fun i => pa / 8 + i)

/-- The words of a range whose old value no path may read any more (R69). -/
def settleWords (m : SMap Stale) (pa n : Nat) : SMap Stale := m.filter (fun e => !overlaps (8 * e.1) 8 pa n)

/-- A write performed at its home: the bytes, the promotion records (`promo` names the core and the place in its queue of a
core-scope release), the speculators that read the line (R411). -/
def homeWrite (s : State) (pa : Nat) (bs : List Byte) (chain : Bool) (promo : Option (Nat × Nat)) : State :=
  squashReaders { s with
    mem := memSetBytes s.mem pa bs
    promo := promoAfter s.promo pa bs.length chain promo
    lineRec := lineRecAfter s.lineRec (linesOf pa bs.length) promo
    stale := settleWords s.stale pa bs.length } (linesOf pa bs.length)

/-- A line's bytes with a write laid over them. -/
def patchLine (l : List Byte) (line pa : Nat) (bs : List Byte) : List Byte :=
  (List.range 128).map (fun i =>
    let a := line * 128 + i
    if pa ≤ a && a < pa + bs.length then bs.getD (a - pa) 0 else l.getD i 0)

/-- The L1 copy of core `c`, where one is present, updated with the bytes of a write that the core performed (R58: write
through). -/
def l1Update (s : State) (c pa : Nat) (bs : List Byte) : State :=
  (linesOf pa bs.length).foldl (fun s line =>
    match l1Line s c line with
    | some l => modCore s c (fun k => { k with
        l1 := mapSet k.l1 line (patchLine l line pa bs)
        l1rec := k.l1rec.filter (fun e => !(pa ≤ e.1 && e.1 < pa + bs.length)) })
    | none => s) s

/-- The part of a write that falls in a line: address and bytes. -/
def lineShare (pa : Nat) (bs : List Byte) (line : Nat) : Nat × List Byte :=
  let lo := max pa (line * 128)
  (lo, (bs.drop (lo - pa)).take (line * 128 + 128 - lo))

/-- The part of a unit's write in one line (R54, R197): in a hole nothing is written; a line covered whole loses its poison mark, one
that is poisoned and covered in part is not written. -/
def lineWrite (s : State) (pa : Nat) (bs : List Byte) : State :=
  if inHole pa then s
  else if bs.length == 128 then homeWrite { s with poison := s.poison.filter (fun l => l != lineOf pa) } pa bs false none
  else if isPoisoned s (lineOf pa) then s
  else homeWrite s pa bs false none

/-- A write by a unit outside the cores' write queues, performed at its home at once. -/
def unitWrite (s : State) (pa : Nat) (bs : List Byte) : State :=
  if (linesOf pa bs.length).any (fun l => isPoisoned s l || inHole (l * 128)) then
    (linesOf pa bs.length).foldl (fun s l => lineWrite s (lineShare pa bs l).1 (lineShare pa bs l).2) s
  else homeWrite s pa bs false none

/-- The values that the words of a range held in a memory, noted as what a write on a path for a context and launch leaves to be seen
(R69). `seen` are the paths that see the write at once, `role` the role of a write on path V. -/
def noteOld (s : State) (m : List Host.Cell) (path : Nat) (own : Nat × Nat) (seen : List Nat) (role : Option Who) (pa n : Nat) : State :=
  let one := fun (w : Nat) => ({
    path := path
    ctx := own.1
    launch := own.2
    old := memNat m (8 * w) 8
    seen := seen
    role := role } : Stale)
  { s with stale := (wordsOf pa n).foldl (fun m w => mapSet m w (one w)) s.stale }

/-- A write on path `path` for a context and launch, performed at its home at once: a read on another path may return a word's value
from before it until a FENCEX orders the two, or a read has returned the new value (R69, R403). -/
def pathWrite (s : State) (path : Nat) (own : Nat × Nat) (seen : List Nat) (pa : Nat) (bs : List Byte) : State :=
  noteOld (unitWrite s pa bs) s.mem path own seen none pa bs.length

/-- The context of a role that is resident. -/
def ctxOfRole (s : State) (w : Who) : Nat := (groupAt s w.core w.gslot).elim 0 (fun g => g.ctx)

/-- What the write numbered `id` of a role on path V leaves to be seen by the role's own copies and drains (R69, R403): nothing where
the role has synchronised since it issued the write, and nothing of a vector warp, which has neither (notes/assumptions/95.md). -/
def noteOldV (s : State) (m : List Host.Cell) (w : Who) (id pa n : Nat) : State :=
  match groupAt s w.core w.gslot, warpAt s w.core w.gslot w.wid with
  | some g, some y =>
    if 32 ≤ w.wid && y.acqAt ≤ id then noteOld s m 0 (g.ctx, g.launch) [] (some { w with slot := 0 }) pa n else s
  | _, _ => s

/-- A synchronisation of a role: an acquire, a wait that has ended, an arrival at a barrier, a FENCE (R400, R401). What it has written on
path V before is seen by whatever it does after it. -/
def synced (s : State) (w : Who) : State :=
  modWarp { s with stale := s.stale.filter (fun e => e.2.role != some { w with slot := 0 }) } w.core w.gslot w.wid
    (fun y => { y with acqAt := s.nextId })

/-- Whether a read on a path by a role may still return a word's old value (R69). -/
def Stale.hides (e : Stale) (path : Nat) (role : Option Who) : Bool :=
  e.path != path && !e.seen.contains path && (e.role.isNone || e.role == role)

/-- The byte that a read on a path by a role may return in place of the one at home (R69). -/
def staleByte (s : State) (path : Nat) (role : Option Who) (pa : Nat) : Byte :=
  match mapFind s.stale (pa / 8) with
  | some e => if e.hides path role then BitVec.ofNat 8 (e.old >>> (8 * (pa % 8))) else memGet s.mem pa
  | none => memGet s.mem pa

/-- A read on a path by a role (R69): of the words `olds` as they may still be seen. -/
def pathRead (s : State) (path : Nat) (role : Option Who) (olds : List Nat) (pa n : Nat) : List Byte :=
  (List.range n).map (fun i => if olds.contains ((pa + i) / 8) then staleByte s path role (pa + i) else memGet s.mem (pa + i))

/-- The words of a range that a read takes as they are at home. -/
def newWords (olds : List Nat) (pa n : Nat) : List (Nat × Nat) :=
  (wordsOf pa n).filterMap (fun w => if olds.contains w then none else some (8 * w, 8))

/-- A device-scope release of the writes of a context, of one launch alone if it is named: no path reads an old value of theirs any
more (R86, R132). -/
def settleOwned (s : State) (ctx : Nat) (launch : Option Nat) : State :=
  { s with stale := s.stale.filter (fun e => !(e.2.ctx == ctx && launch.getD e.2.launch == e.2.launch)) }

/-- The writes of the Cisterns for a context, and those of the peers, seen by every path: an event that releases them has been acquired
(R177, R203, R401). -/
def settleUnits (s : State) (ctx : Nat) : State :=
  { s with stale := s.stale.filter (fun e => !((e.2.path == 3 && e.2.ctx == ctx) || (e.2.path == 4 && e.2.ctx == 0xFFFF))) }

/-- The writes of the decoders for a context seen by every path: a BQGET has taken the entry that releases them (R450). -/
def settleDecoders (s : State) (ctx : Nat) : State :=
  { s with stale := s.stale.filter (fun e => !(e.2.path == 5 && e.2.ctx == ctx)) }

/-- The words of a list of ranges that a read has returned as they are at home. -/
def sawHome (s : State) (rs : List (Nat × Nat)) : State :=
  if s.stale.isEmpty then s else { s with stale := rs.foldl (fun m (a, n) => settleWords m a n) s.stale }

/-! ### Tokens, and stores performed -/

/-- The name that a role of a saved group goes by while its context is SAVED (R86): nothing stands on such a core. -/
def savedWho (ctx launch gidx wid : Nat) : Who where
  core := 65536 + ctx
  gslot := launch * 2 ^ 24 + gidx
  wid := wid
  slot := 0

/-- A token count changed (R218), of a resident or of a saved role. -/
def addToken (s : State) (w : Who) (k : Option Nat) (n : Int) : State :=
  match k with
  | none => s
  | some k =>
    if w.core < 65536 then modWarp s w.core w.gslot w.wid (countToken k n)
    else
      let one := fun (g : SavedGroup) =>
        if g.grp.launch * 2 ^ 24 + g.grp.gidx == w.gslot then
          { g with grp := { g.grp with warps := g.grp.warps.map (fun (i, y) => (i, if i == w.wid then countToken k n y else y)) } }
        else g
      modCtx s (w.core - 65536) (fun c => { c with saved := c.saved.map one })

/-- A request taken out, its token counted down (R218). -/
def retireReq (s : State) (r : Req) : State :=
  addToken { s with inflight := s.inflight.filter (fun q => q.id != r.id) } r.who r.tok (-1)

/-- The promotion record a write leaves (R410): a core-scope release, a write after a release FENCE below .die among them (R401), names
its core and how far the core's write queue had come: up to the store itself, or for an atomic, which the queue does not hold, up to
now. -/
def promoOf (s : State) (r : Req) : Option (Nat × Nat) :=
  if (r.releases || (r.writes && r.fenced)) && r.effScope < 3 then some (r.who.core, if r.isStore then r.id else s.nextId) else none

/-- Whether the lanes of a request together write every byte of a line (R304). -/
def Req.coversLine (r : Req) (line : Nat) : Bool :=
  (List.range 128).all (fun i => r.lanes.any (fun l => l.pa ≤ line * 128 + i && line * 128 + i < l.pa + r.w))

/-- The poison mark of a line a store writes whole cleared (R304). -/
def clearPoison (s : State) (r : Req) : State :=
  { s with poison := s.poison.filter (fun line => !(r.isStore && r.onLine line && r.coversLine line)) }

/-- A store performed at its home, lanes in ascending order (R305); another path may still see what was there before (R69). -/
def performStore (s : State) (r : Req) : State :=
  let m := s.mem
  let s := r.lanes.foldl (fun s l =>
    let bs := bytesLE r.w l.v
    l1Update (homeWrite s l.pa bs false (promoOf s r)) r.who.core l.pa bs) (clearPoison s r)
  retireReq (r.lanes.foldl (fun s l => noteOldV s m r.who r.id l.pa r.w) s) r

/-- The writes of core `c`'s write queue up to number `id` performed at their homes, oldest first (R402, R410). -/
def drainTo (s : State) (c id : Nat) : State :=
  ((writeQueue s c).filter (fun r => r.id < id)).foldl performStore s

/-- The writes of core `c`'s write queue up to the last that touches one of some lines performed at their homes, oldest first, and
those that its reads have taken bytes of (R408). -/
def drainLines (s : State) (c : Nat) (lines : List Nat) : State :=
  let due := fun (r : Req) => lines.any (fun l => r.onLine l) || (coreOf s c).obs.any (fun e => e.1 == r.id)
  drainTo s c (((writeQueue s c).filter due).foldl (fun m r => Nat.max m (r.id + 1)) 0)

/-- Whether a core-scope release that a record names still has writes of its core queued up to it (R402). -/
def recordOpen (s : State) (e : Nat × Nat) : Bool := (writeQueue s e.1).any (fun q => q.id < e.2)

/-- A write by the host (R59): every L1 copy of the lines is snooped out before it completes. -/
def hostWriteBytes (s : State) (pa : Nat) (bs : List Byte) : State :=
  let ls := linesOf pa bs.length
  let s := { s with cores := s.cores.map (fun (c, k) => (c, { k with
    l1 := k.l1.filter (fun e => !ls.contains e.1)
    l1rec := k.l1rec.filter (fun e => !ls.contains (lineOf e.1)) })) }
  homeWrite s pa bs false none

/-- The lines that a list of ranges covers whole. -/
def wholeLines (rs : List (Nat × Nat)) : List Nat :=
  (distinct (rs.flatMap (fun (pa, n) => linesOf pa n))).filter (fun l => rs.any (fun (pa, n) => pa ≤ l * 128 && l * 128 + 128 ≤ pa + n))

/-- Bytes written at physical addresses of the host's or the device's memory (R59, R456): holes discard them (R54); a line that is
poisoned and not covered whole stays (R197). -/
def hostPut (s : State) (pa : Nat) (bytes : List Byte) : State :=
  let whole := wholeLines [(pa, bytes.length)]
  let s := { s with poison := s.poison.filter (fun l => !whole.contains l) }
  let bad := fun (a : Nat) => inHole a || isPoisoned s (lineOf a)
  if (linesOf pa bytes.length).all (fun l => !bad (l * 128)) then hostWriteBytes s pa bytes
  else (List.range bytes.length).foldl (fun s i => if bad (pa + i) then s else hostWriteBytes s (pa + i) [bytes.getD i 0]) s

end Sys2Proof.Machine
end

