-- ==== Sys2Proof/Machine/Events.lean ====
section
/-!
DEFINITION. Event records (R93), the events the device generates (R98), and the sources that hold them for a PLU's
intake (R20).
-/
namespace Sys2Proof.Machine

/-- The 32 bytes of an event record as one number (R93). -/
def EventRec.bits (e : EventRec) : Nat :=
  e.p1.toNat <<< 192 + e.p0.toNat <<< 128 + e.stamp.toNat <<< 64 + e.seq.toNat <<< 32 + (if e.remote then 2 ^ 25 else 0) +
  (if e.rel then 2 ^ 24 else 0) + e.kind.toNat <<< 16 + e.stream.toNat

/-- The fields of a 32-byte record (R93); reserved bits are not kept. -/
def eventOfBits (x : Nat) : EventRec where
  stream := BitVec.ofNat 14 x
  kind := BitVec.ofNat 8 (x >>> 16)
  rel := x.testBit 24
  remote := x.testBit 25
  seq := BitVec.ofNat 32 (x >>> 32)
  stamp := BitVec.ofNat 64 (x >>> 64)
  p0 := BitVec.ofNat 64 (x >>> 128)
  p1 := BitVec.ofNat 64 (x >>> 192)

/-- Whether the reserved bits of a record are 0 (R93). -/
def eventRsvOk (x : Nat) : Bool := bitsOf x 26 6 == 0 && bitsOf x 14 2 == 0

/-- The die whose PLU a stream's records go to: its domain's (R94); an unbound stream's records stay on the die that
made them. -/
def dieOfStream (s : State) (n home : Nat) : Nat :=
  let t := streamOf s n
  if t.st == .unbound then home else (domOf s t.dom).die

/-- A record put on its way to the PLU of its stream: from a source of class `cls` and key `key` on die `d` (R20); a
record that crosses a bridge takes class 5, with its REMOTE bit set (R93). -/
def sendEvent (s : State) (d cls key : Nat) (e : EventRec) (emitter : Option Nat) (tok : Option (Who × Nat))
    (done : Option (Nat × W32 × W64)) : State :=
  let dst := dieOfStream s e.stream.toNat d
  let far := dst != d
  let i : Intake := {
    cls := if far then 5 else cls
    key := if far then d else key
    marker := false
    ev := { e with remote := far || e.remote }
    emitter := emitter
    tok := tok
    port := none
    done := done
    at_ := (dieOf s dst).cycle }
  modDie s dst (fun x => { x with intakeQ := x.intakeQ ++ [i] })

/-- An event the device generates on die `d` (R98): SEQ from the stream's device counter, STAMP the die's cycle. -/
def deviceEvent (s : State) (d cls key stream kind : Nat) (p0 p1 : Nat) (rel : Bool) : State :=
  let t := streamOf s stream
  let e : EventRec := {
    stream := BitVec.ofNat 14 stream
    kind := BitVec.ofNat 8 kind
    rel := rel
    remote := false
    seq := BitVec.ofNat 32 t.devseq
    stamp := BitVec.ofNat 64 (dieOf s d).cycle
    p0 := BitVec.ofNat 64 p0
    p1 := BitVec.ofNat 64 p1 }
  let s := modStream s stream (fun t => { t with devseq := (t.devseq + 1) % 2 ^ 32 })
  sendEvent s d cls key e none none none

/-- The keys of class 3 of R20, in its order. -/
def srcPlu : Nat := 0
/-- The page-walk unit. -/
def srcWalk : Nat := 1
/-- Batch queue `q`. -/
def srcQueue (q : Nat) : Nat := 2 + q
/-- Decoder `d`. -/
def srcDecoder (d : Nat) : Nat := 40 + d
/-- Port `p`. -/
def srcPort (p : Nat) : Nat := 60 + p
/-- The firmware core. -/
def srcFirmware : Nat := 100

end Sys2Proof.Machine
end

