-- ==== Sys2Proof/Machine/Charge.lean ====
section
/-!
DEFINITION. The region tree and its budgets (R78-R83): chains, inherited values, charges, reserves (R131).
-/
namespace Sys2Proof.Machine

/-- Amounts of the six budgets of an RCB (R78). -/
structure Use where
  sram : Nat := 0
  reg : Nat := 0
  pend : Nat := 0
  grp : Nat := 0
  cand : Nat := 0
  cslot : Nat := 0
  deriving DecidableEq, Repr

/-- The chain from a region to the root, at most `fuel` long (R79: at most 8). -/
def chainFrom (rs : List Rcb) (fuel r : Nat) : List Nat :=
  match fuel with
  | 0 => [r]
  | n + 1 => if r = 0 then [0] else match rs[r]? with
    | some k => r :: chainFrom rs n k.parent
    | none => [r]

/-- The chain of a region (R81). -/
def chainOf (rs : List Rcb) (r : Nat) : List Nat := chainFrom rs 8 r

/-- Whether a region inherits the field of INHMASK bit `b` (R80). -/
def Rcb.inherits (k : Rcb) (b : Nat) : Bool := k.inhmask.testBit b

/-- The effective PRIO (R80). -/
def prioOf (rs : List Rcb) (r : Nat) : Nat :=
  match (chainOf rs r).find? (fun i => match rs[i]? with
    | some k => !k.inherits 6
    | none => false) with
  | some i => match rs[i]? with
    | some k => k.prio
    | none => 0
  | none => 0

/-- The effective DET (R80). -/
def detOf (rs : List Rcb) (r : Nat) : Bool :=
  match (chainOf rs r).find? (fun i => match rs[i]? with
    | some k => !k.inherits 7
    | none => false) with
  | some i => match rs[i]? with
    | some k => k.det
    | none => false
  | none => false

/-- Whether one RCB admits a use: at each budget with a limit of its own, used plus request stays within it (R81); a budget of
which nothing is asked refuses nothing (notes/assumptions/105.md). -/
def Rcb.admits (k : Rcb) (u : Use) : Bool :=
  (u.reg == 0 || k.inherits 0 || k.usedreg + u.reg ≤ k.regkib) &&
  (u.sram == 0 || k.inherits 1 || k.usedsram + u.sram ≤ k.sramkib) &&
  (u.cand == 0 || k.inherits 2 || k.usedcand + u.cand ≤ k.cands) &&
  (u.grp == 0 || k.inherits 3 || k.usedgrp + u.grp ≤ k.groups) &&
  (u.pend == 0 || k.inherits 4 || k.usedpend + u.pend ≤ k.pend) &&
  (u.cslot == 0 || k.inherits 5 || k.usedcslot + u.cslot ≤ k.cslots)

/-- A charge added to one RCB. -/
def Rcb.add (k : Rcb) (u : Use) : Rcb :=
  { k with
    usedsram := k.usedsram + u.sram
    usedreg := k.usedreg + u.reg
    usedpend := k.usedpend + u.pend
    usedgrp := k.usedgrp + u.grp
    usedcand := k.usedcand + u.cand
    usedcslot := k.usedcslot + u.cslot }

/-- A charge taken off one RCB. -/
def Rcb.sub (k : Rcb) (u : Use) : Rcb :=
  { k with
    usedsram := k.usedsram - u.sram
    usedreg := k.usedreg - u.reg
    usedpend := k.usedpend - u.pend
    usedgrp := k.usedgrp - u.grp
    usedcand := k.usedcand - u.cand
    usedcslot := k.usedcslot - u.cslot }

/-- The regions of a chain changed by `f`. -/
def onChain (rs : List Rcb) (ch : List Nat) (f : Rcb → Rcb) : List Rcb :=
  ch.foldl (fun rs i => match rs[i]? with
    | some k => listSet rs i (f k)
    | none => rs) rs

/-- The first region of the chain that refuses a use (R81). -/
def refuser (rs : List Rcb) (r : Nat) (u : Use) : Option Nat :=
  (chainOf rs r).find? (fun i => match rs[i]? with
    | some k => !k.admits u
    | none => true)

/-- Whether the chain of `r` admits a use (R81). -/
def admitted (rs : List Rcb) (r : Nat) (u : Use) : Bool := (refuser rs r u).isNone

/-- A use charged to region `r` of context `x` and its ancestors. -/
def charge (s : State) (x r : Nat) (u : Use) : State :=
  modCtx s x (fun c => { c with regions := onChain c.regions (chainOf c.regions r) (fun k => k.add u) })

/-- A charge returned. -/
def uncharge (s : State) (x r : Nat) (u : Use) : State :=
  modCtx s x (fun c => { c with regions := onChain c.regions (chainOf c.regions r) (fun k => k.sub u) })

/-- The least power of two that is at least `n`, between `lo` and `lo * 2^fuel`. -/
def roundPow2 (fuel lo n : Nat) : Nat :=
  match fuel with
  | 0 => lo
  | k + 1 => if n ≤ lo then lo else roundPow2 k (2 * lo) n

/-- A warp's register block in 4 KiB granules (R146). -/
def regGranules (t : Template) : Nat := roundPow2 6 1 (((t.vregs + 1) * 128 + 4095) / 4096)

/-- A group's SRAM block in KiB (R60), 0 without one. -/
def sramKib (t : Template) : Nat := if t.sramsz = 0 then 0 else roundPow2 9 4 ((t.sramsz + 1023) / 1024)

/-- What a group of a template is charged at its admission (R81). -/
def groupUse (t : Template) : Use :=
  { grp := 1, reg := (t.vwarps + 1) * regGranules t * 4, sram := sramKib t }

/-- What of a use the open reserves for region `r` give, oldest launch first (R131): the draws and what is left. -/
def drawReserves (ls : List Launch) (r : Nat) (u : Use) : List (Nat × Nat × Nat × Nat) × Use :=
  ls.foldl (fun (acc, u) l => match l.reserve with
    | some (cr, g, rg, sr) =>
      if cr = r then
        let dg := Nat.min g u.grp
        let dr := Nat.min rg u.reg
        let ds := Nat.min sr u.sram
        if dg + dr + ds = 0 then (acc, u)
        else (acc ++ [(l.idx, dg, dr, ds)], { u with grp := u.grp - dg, reg := u.reg - dr, sram := u.sram - ds })
      else (acc, u)
    | none => (acc, u)) ([], u)

/-- Launches in ascending index. -/
def sortedLaunches (ls : List Launch) : List Launch := sortBy (fun a b => a.idx ≤ b.idx) ls

/-- Admission of group `gidx` of launch `idx` (R81, R131): none when a region refuses what the reserves do not give. -/
def admitGroup (s : State) (x idx gidx : Nat) (t : Template) : Option State :=
  let c := ctxOf s x
  let (draws, rest) := drawReserves (sortedLaunches c.launches) t.region (groupUse t)
  if admitted c.regions t.region rest then
    let s := charge s x t.region rest
    let s := draws.foldl (fun s (o, g, rg, sr) => modLaunch s x o (fun l => match l.reserve with
      | some (cr, a, b, d) => { l with reserve := some (cr, a - g, b - rg, d - sr) }
      | none => l)) s
    some (modLaunch s x idx (fun l => { l with drawn := l.drawn ++ draws.map (fun (o, g, rg, sr) => (gidx, o, g, rg, sr)) }))
  else none

/-- A group's charges returned (R81, R131): what it drew goes back to its reserve while the reserving launch lives. -/
def giveBack (s : State) (x idx gidx r : Nat) (u : Use) : State :=
  match launchOf s x idx with
  | none => uncharge s x r u
  | some l =>
    let (kept, s, left) := l.drawn.foldl (fun (kept, s, left) (gi, o, g, rg, sr) =>
      if gi = gidx then
        let dg := Nat.min g left.grp
        let dr := Nat.min rg left.reg
        let ds := Nat.min sr left.sram
        let left : Use := { left with grp := left.grp - dg, reg := left.reg - dr, sram := left.sram - ds }
        let live := match launchOf s x o with
          | some m => m.reserve.isSome
          | none => false
        let s := if live then modLaunch s x o (fun m => match m.reserve with
            | some (cr, a, b, d) => { m with reserve := some (cr, a + dg, b + dr, d + ds) }
            | none => m)
          else uncharge s x r { grp := dg, reg := dr, sram := ds }
        (kept ++ [(gi, o, g - dg, rg - dr, sr - ds)], s, left)
      else (kept ++ [(gi, o, g, rg, sr)], s, left)) (([] : List (Nat × Nat × Nat × Nat × Nat)), s, u)
    let s := modLaunch s x idx (fun m => { m with drawn := kept })
    uncharge s x r left

/-- Whether region `d` is `r` or stands above it. -/
def isBelow (rs : List Rcb) (r d : Nat) : Bool := (chainOf rs r).contains d

end Sys2Proof.Machine
end

