-- ==== Sys2Proof/Machine/Page.lean ====
section
/-!
DEFINITION. Page tables, TLBs, walk caches, page requests and the start of pulls (spec/10_page.md R181-R193).
-/
namespace Sys2Proof.Machine

/-- What a walk finds (R187). -/
inductive WalkOut where
  | malformed
  | lost
  | notPresent
  | remote (pte rec_ level : Nat)
  | leaf (e : TlbEntry)
  deriving DecidableEq, Repr

/-- The reserved bits of a PRESENT entry (R182). -/
def pteRsvOk (e : Nat) : Bool := bitsOf e 59 5 == 0 && bitsOf e 52 4 == 0 && bitsOf e 7 5 == 0 && !e.testBit 2

/-- The physical address in bits [51:12] of an entry. -/
def pteBase (e : Nat) : Nat := bitsOf e 12 40 * 4096

/-- The page size of a leaf at a level (R181). -/
def leafSize (level : Nat) : Nat := 4096 * 512 ^ level

/-- Whether an entry is a well-formed PRESENT leaf of a level (R182, R184). -/
def leafOk (e level : Nat) : Bool :=
  e % 4 == 1 && pteRsvOk e && e.testBit 5 && level ≤ 2 && (level == 0 || !e.testBit 6) &&
  pteBase e % leafSize level == 0 && !inHole (pteBase e)

/-- The TLB entry of a leaf. -/
def tlbOf (pasid va e size pa : Nat) : TlbEntry where
  pasid := pasid
  va := va / size * size
  size := size
  pa := pa
  w := e.testBit 3
  x := e.testBit 4
  nc := e.testBit 56
  noatom := e.testBit 57
  sysat := e.testBit 58

/-- The entry filled for a level 0 leaf (R185): 64 KiB when the aligned sixteen agree, else 4 KiB. -/
def contigFill (m : List Host.Cell) (pasid va table idx e : Nat) : TlbEntry :=
  let first := idx / 16 * 16
  let es := (List.range 16).map (fun i => memNat m (table + 8 * (first + i)) 8)
  let e0 := es.headD 0
  let attrs := fun (x : Nat) => (bitsOf x 56 3, bitsOf x 3 2)
  let ok := e.testBit 6 && bitsOf e0 12 40 % 16 == 0 &&
    (List.range 16).all (fun i =>
      let x := es.getD i 0
      leafOk x 0 && x.testBit 6 && attrs x == attrs e0 && bitsOf x 12 40 == bitsOf e0 12 40 + i)
  if ok then tlbOf pasid va e 65536 (pteBase e0) else tlbOf pasid va e 4096 (pteBase e)

/-- The walk-cache key of a non-leaf entry (R186). -/
def walkKey (level va : Nat) : Nat := level * 2 ^ 57 + va >>> (12 + 9 * level)

/-- The walk from a table of a level down (R181-R185), with the non-leaf entries read on the way. -/
def walkAt (m : List Host.Cell) (cache : List (Nat × Nat × Nat)) (pasid va : Nat) (level table : Nat) :
    WalkOut × List (Nat × Nat × Nat) :=
  let idx := bitsOf va (12 + 9 * level) 9
  let pte := table + 8 * idx
  let e := memNat m pte 8
  let here : WalkOut :=
    if inHole table then .malformed
    else if e % 4 = 0 then .notPresent
    else if e % 4 = 1 then (if leafOk e level then
        (if level = 0 then .leaf (contigFill m pasid va table idx e)
         else .leaf (tlbOf pasid va e (leafSize level) (pteBase e)))
      else .malformed)
    else if level ≥ 3 || bitsOf e 52 12 != 0 || bitsOf e 2 3 != 0 then .malformed
    else if e % 4 = 2 then .remote pte (bitsOf e 5 47 * 32) level
    else .lost
  match level with
  | 0 => (here, [])
  | n + 1 =>
    match cache.find? (fun c => c.1 == pasid && c.2.1 == walkKey level va) with
    | some c => walkAt m cache pasid va n c.2.2
    | none =>
      if !inHole table && e % 4 = 1 && pteRsvOk e && !e.testBit 5 then
        let (o, l) := walkAt m cache pasid va n (pteBase e)
        (o, (pasid, walkKey level va, pteBase e) :: l)
      else (here, [])

/-- The entries that a walk from a table of a level down reads (R187). -/
def walkReads (m : List Host.Cell) (cache : List (Nat × Nat × Nat)) (pasid va : Nat) (level table : Nat) : List Nat :=
  let pte := table + 8 * bitsOf va (12 + 9 * level) 9
  match level with
  | 0 => [pte]
  | n + 1 =>
    match cache.find? (fun c => c.1 == pasid && c.2.1 == walkKey level va) with
    | some c => walkReads m cache pasid va n c.2.2
    | none =>
      let e := memNat m pte 8
      if !inHole table && e % 4 = 1 && pteRsvOk e && !e.testBit 5 then pte :: walkReads m cache pasid va n (pteBase e) else [pte]

/-- The walker's reads are acquires of system scope (R187, R415): the core-scope releases that the entries hold, or that the records
of their lines name, are promoted before the walk uses them (R402, R410). Each round may bring other entries to light. -/
def promoteWalk (fuel : Nat) (s : State) (die pasid ptroot va : Nat) : State :=
  match fuel with
  | 0 => s
  | n + 1 =>
    let es := walkReads s.mem (dieOf s die).walkCache pasid va 4 (ptroot * 4096)
    let recs := distinct (es.flatMap (fun a =>
      (mapFind s.lineRec (lineOf a)).toList ++ (List.range 8).flatMap (fun i => mapGet s.promo (a + i) [])))
    match recs.filter (recordOpen s) with
    | [] => s
    | due => promoteWalk n (due.foldl (fun s (c, id) => drainTo s c id) s) die pasid ptroot va

/-- Whether a frame holds bytes of a window allocation, to which no virtual address maps (R61). -/
def inWindow (s : State) (pa size : Nat) : Bool :=
  (residents s).any (fun (_, _, g) => g.tmpl.sramsz != 0 && overlaps pa size g.sbase g.tmpl.sramsz) ||
  s.cores.any (fun (c, k) => k.lazySram.any (fun (_, _, _, a, n) => overlaps pa size (sliceBase c + a * 4096) (n * 4096)))

/-- A walk for an address on a die, with the walk cache kept (8192 entries, the oldest out first). -/
def walk (s : State) (die pasid ptroot va : Nat) : WalkOut × State :=
  let s := promoteWalk 6 s die pasid ptroot va
  let c := (dieOf s die).walkCache
  let (o, l) := walkAt s.mem c pasid va 4 (ptroot * 4096)
  (o, modDie s die (fun d => { d with walkCache := (d.walkCache ++ l).drop ((d.walkCache ++ l).length - 8192) }))

/-- The context that a PASID belongs to (R195: ACTIVE or DRAINING). -/
def ctxOfPasid (s : State) (pasid : Nat) : Option Nat :=
  (s.ctxs.find? (fun (_, c) => c.st != .free && c.pasid == pasid)).map (·.1)

/-- The entry of a core's TLB that translates an address (R186). -/
def tlbFind (k : Core) (pasid va : Nat) : Option TlbEntry :=
  k.tlb.find? (fun e => e.pasid == pasid && e.va ≤ va && va < e.va + e.size)

/-- An entry put into a core's TLB (1024 entries; the oldest goes out, notes/assumptions/7.md). -/
def tlbFill (s : State) (c : Nat) (e : TlbEntry) : State :=
  modCore s c (fun k =>
    let t := k.tlb.filter (fun x => !(x.pasid == e.pasid && overlaps x.va x.size e.va e.size))
    { k with tlb := (t ++ [e]).drop (t.length + 1 - 1024) })

/-- The physical address of a virtual one under an entry. -/
def TlbEntry.phys (e : TlbEntry) (va : Nat) : Nat := e.pa + (va - e.va)

/-- The access kinds of R189: 0 read, 1 write, 2 atomic, 3 fetch. -/
def permits (e : TlbEntry) (kind : Nat) : Bool :=
  if kind = 1 || kind = 2 then e.w else if kind = 3 then e.x else true

/-- Whether an entry lets an access of a kind reach an address (R189): it permits it, and the address's frame is no window's (R61,
notes/assumptions/98.md). -/
def TlbEntry.allows (e : TlbEntry) (s : State) (kind va : Nat) : Bool :=
  permits e kind && !inWindow s (e.phys va / 4096 * 4096) 4096

/-- A page request (R189): one event for each (PASID, 4 KiB page) until a RESOLVE or FAIL closes it. -/
def pageRequest (s : State) (die ctx va kind path launch : Nat) : State :=
  let c := ctxOf s ctx
  let page := va / 4096
  if s.pageReqs.contains (c.pasid, page) then s
  else
    let s := { s with pageReqs := s.pageReqs ++ [(c.pasid, page)] }
    deviceEvent s die 3 srcWalk c.ctxstream 0xE6 (page * 4096 + path * 4 + kind)
      (c.pasid * 2 ^ 32 + launch % 2 ^ 32) false

/-- Whether a pull record is well formed and pending (R192, R193); one that is not pending is taken as malformed
(notes/assumptions/128.md). -/
def pullOk (m : List Host.Cell) (rec_ level : Nat) : Bool :=
  let r := memNat m rec_ 32
  bitsOf r 224 32 == 0 && bitsOf r 180 12 == 0 && bitsOf r 0 64 == 0 && bitsOf r 192 8 == 0 &&
  bitsOf r 128 52 % leafSize level == 0 && leafOk (bitsOf r 64 64) level && !inHole rec_

/-- Whether a page of a context is still awaited: a page request is open or a pull is under way (R189, R193). -/
def pageOpen (s : State) (pasid page : Nat) : Bool :=
  s.pageReqs.contains (pasid, page) ||
  s.pulls.any (fun p => p.pasid == pasid && p.page ≤ page * 4096 && page * 4096 < p.page + leafSize p.level)

/-- The port by which an attempt of a pull goes: that of its source node's route (R192, R193, R198). -/
def pullRoute (s : State) (rec_ : Nat) : Option Nat := routePort s (bitsOf (memNat s.mem rec_ 32) 208 16)

/-- Whether the frame that a pull record names may receive its page: it holds nothing of a window (R61, notes/assumptions/98.md). -/
def pullFrameOk (s : State) (rec_ level : Nat) : Bool := !inWindow s (pteBase (memNat s.mem (rec_ + 8) 8)) (leafSize level)

/-- The start of a pull (R193), unless one is in flight for the entry; none when the record is malformed or not pending
(notes/assumptions/128.md). -/
def startPull (s : State) (die pasid va pte rec_ level : Nat) : Option State :=
  if s.pulls.any (fun p => p.pte == pte) then some s
  else if pullOk s.mem rec_ level && pullFrameOk s rec_ level then
    let p : Pull := {
      pasid := pasid
      page := va / leafSize level * leafSize level
      pte := pte
      rec_ := rec_
      level := level
      active := true
      nextAt := 0
      die := die
      via := pullRoute s rec_ }
    some { s with pulls := s.pulls ++ [p] }
  else none

/-- The answers of a translation made by a unit outside the warps (R187). -/
inductive Trans where
  | ok (pa : Nat) (e : TlbEntry)
  | protection
  | lost
  | wait
  deriving DecidableEq, Repr

/-- Whether an address is canonical and in the user half (R51). -/
def userVa (va : Nat) : Bool := va < 2 ^ 56

/-- A walk made and answered for one address: the fill or the refusal, with the page request or pull it starts. -/
def answerWalk (s : State) (die ctx va kind path launch : Nat) : Trans × State :=
  let c := ctxOf s ctx
  let (o, s) := walk s die c.pasid c.ptroot va
  match o with
  | .malformed => (.protection, s)
  | .lost => (.lost, s)
  | .notPresent => (.wait, pageRequest s die ctx va kind path launch)
  | .remote pte rec_ level =>
    match startPull s die c.pasid va pte rec_ level with
    | some s => (.wait, s)
    | none => (.protection, s)
  | .leaf e => if e.allows s kind va then (.ok (e.phys va) e, s) else (.protection, s)

/-- A translation by a unit of a die (R178, R347, R360, R452), which walks for itself. -/
def unitTranslate (s : State) (die ctx va kind path launch : Nat) : Trans × State :=
  if !userVa va then (.protection, s) else answerWalk s die ctx va kind path launch

/-- A translation by an engine of core `c`: through the core's TLB, with a walk on a miss. -/
def engineTranslate (s : State) (c ctx va kind path launch : Nat) : Trans × State :=
  if !userVa va then (.protection, s)
  else match tlbFind (coreOf s c) (ctxOf s ctx).pasid va with
    | some e => if e.allows s kind va then (.ok (e.phys va) e, s) else (.protection, s)
    | none =>
      let (t, s) := answerWalk s (dieOfCore c) ctx va kind path launch
      match t with
      | .ok pa e => (.ok pa e, tlbFill s c e)
      | t => (t, s)

/-- Bytes read by a unit of a die at a virtual address, page by page; the first page that fails decides. -/
def unitRead (fuel : Nat) (s : State) (die ctx va n path launch : Nat) : Except Trans (List Byte) × State :=
  match fuel with
  | 0 => (.ok [], s)
  | k + 1 =>
    if n = 0 then (.ok [], s)
    else
      let len := Nat.min n (4096 - va % 4096)
      match unitTranslate s die ctx va 0 path launch with
      | (.ok pa _, s) =>
        match unitRead k s die ctx (va + len) (n - len) path launch with
        | (.ok r, s) => (.ok (memGetBytes s.mem pa len ++ r), s)
        | e => e
      | (t, s) => (.error t, s)

/-- Whether every page of a range translates for an access of a kind, and the ranges of physical bytes. -/
def unitRanges (fuel : Nat) (s : State) (die ctx va n kind path launch : Nat) :
    Except Trans (List (Nat × Nat)) × State :=
  match fuel with
  | 0 => (.ok [], s)
  | k + 1 =>
    if n = 0 then (.ok [], s)
    else
      let len := Nat.min n (4096 - va % 4096)
      match unitTranslate s die ctx va kind path launch with
      | (.ok pa _, s) =>
        match unitRanges k s die ctx (va + len) (n - len) kind path launch with
        | (.ok r, s) => (.ok ((pa, len) :: r), s)
        | e => e
      | (t, s) => (.error t, s)

/-- Bytes written over a list of physical ranges, by a unit. -/
def writeRanges (s : State) (rs : List (Nat × Nat)) (bs : List Byte) : State :=
  match rs with
  | [] => s
  | (pa, n) :: r => writeRanges (unitWrite s pa (bs.take n)) r (bs.drop n)

end Sys2Proof.Machine
end

