-- ==== Sys2Proof/Machine/Ops.lean ====
section
/-!
DEFINITION. The named operations of the machine: registers and their full/empty bits (R64-R67), splits and the issue
boundary (R138-R141), the fault domain's stop (R84), taking a trap (R426-R429) and returning from one (R432), and the
flow of one instruction word (R232).
-/
namespace Sys2Proof.Machine

/-! ### Registers -/

/-- Vector register `r` in lane `l`. -/
def vreg (y : Warp) (r l : Nat) : W32 := (mapGet y.vregs r []).getD l 0

/-- `n` vector registers from `r` up as one number, the lowest register first (R65). -/
def vregN (y : Warp) (r n l : Nat) : Nat :=
  (List.range n).foldl (fun acc k => acc + (vreg y (r + k) l).toNat <<< (32 * k)) 0

/-- Vector register `r` written in the lanes of a mask. -/
def setVreg (y : Warp) (r : Nat) (m : W32) (f : Nat → W32) : Warp :=
  { y with vregs := mapSet y.vregs r ((List.range 32).map (fun l => if inMask m l then f l else vreg y r l)) }

/-- `n` vector registers from `r` up written in the lanes of a mask. -/
def setVregN (y : Warp) (r n : Nat) (m : W32) (f : Nat → Nat) : Warp :=
  (List.range n).foldl (fun y k => setVreg y (r + k) m (fun l => BitVec.ofNat 32 (f l >>> (32 * k)))) y

/-- Uniform register `r`. -/
def sreg (g : Group) (r : Nat) : W64 := mapGet g.sregs r 0

/-- Uniform register `r` written. -/
def setSreg (g : Group) (r : Nat) (v : W64) : Group := { g with sregs := mapSet g.sregs r v }

/-- Predicate `p` in every lane; p7 reads 1 (R64). -/
def predOf (y : Warp) (p : Nat) : W32 := if p = 7 then BitVec.allOnes 32 else y.preds.getD p 0

/-- Predicate `p` written in the lanes of a mask; writes to p7 are discarded (R65). -/
def setPred (y : Warp) (p : Nat) (m v : W32) : Warp :=
  if p = 7 then y else { y with preds := listSet y.preds p ((predOf y p &&& ~~~m) ||| (v &&& m)) }

/-- Condition `c`. -/
def condOf (y : Warp) (c : Nat) : Bool := y.conds.getD c false

/-- Condition `c` written. -/
def setCond (y : Warp) (c : Nat) (v : Bool) : Warp := { y with conds := listSet y.conds c v }

/-- Whether vector register `r` is empty in lane `l` (R66). -/
def vEmpty (y : Warp) (r l : Nat) : Bool := y.prods.any (fun p => p.reg == r && inMask p.mask l)

/-- Whether uniform register `r` is empty (R66). -/
def uEmpty (g : Group) (r : Nat) : Bool := g.sempty.contains r || g.uprods.any (fun p => p.reg == r)

/-- A producer into `n` vector registers from `r` up marks them empty in its lanes at issue; older producers no longer
write there (R66, R67). -/
def produceV (y : Warp) (id r n : Nat) (m : W32) : Warp :=
  let older := y.prods.map (fun p => if r ≤ p.reg && p.reg < r + n then { p with wmask := p.wmask &&& ~~~m } else p)
  { y with prods := older ++ (List.range n).map (fun k => { id := id, reg := r + k, k := k, mask := m, wmask := m }) }

/-- A producer into a uniform register (R66, R67). -/
def produceU (g : Group) (id r k : Nat) : Group :=
  let older := g.uprods.map (fun p => if p.reg == r then { p with write := false } else p)
  { g with uprods := older ++ [{ id := id, reg := r, k := k, write := true }] }

/-- The values of producer `id` arrive in some lanes: written where it is the latest producer, and no longer
outstanding (R67). -/
def arriveV (y : Warp) (id : Nat) (vals : List (Nat × Nat)) : Warp :=
  let m := maskOf (vals.map (·.1))
  let val := fun (l : Nat) => mapGet vals l 0
  let y := y.prods.foldl (fun y p =>
    if p.id == id then setVreg y p.reg (p.wmask &&& m) (fun l => BitVec.ofNat 32 (val l >>> (32 * p.k))) else y) y
  let prods := y.prods.map (fun p => if p.id == id then { p with mask := p.mask &&& ~~~m, wmask := p.wmask &&& ~~~m } else p)
  { y with prods := prods.filter (fun p => p.mask != 0) }

/-- The splits of a group that wait for a full/empty bit of its uniform registers are to be looked at again after a change of one
(R66): until then they are not blocked; one that is found to wait still has been blocked all along (R145). -/
def unblockU (g : Group) : Group :=
  let one := fun (x : Split) => if x.wait.isNone && x.blk == .groupRoles then { x with blk := .again } else x
  { g with warps := g.warps.map (fun (w, y) => (w, { y with splits := y.splits.map (fun o => o.map one) })) }

/-- The value of producer `id` arrives in its uniform registers (R67): a register with no other value outstanding
becomes full. -/
def arriveU (g : Group) (id : Nat) (v : Nat) : Group :=
  let mine := g.uprods.filter (fun p => p.id == id)
  let rest := g.uprods.filter (fun p => p.id != id)
  let g := mine.foldl (fun g p => if p.write then setSreg g p.reg (BitVec.ofNat 64 (v >>> (64 * p.k))) else g) g
  let done := (mine.map (·.reg)).filter (fun r => rest.all (fun p => p.reg != r))
  unblockU { g with uprods := rest, sempty := g.sempty.filter (fun r => !done.contains r) }

/-! ### The issuer -/

/-- The role whose instruction is being executed, read once. -/
structure Iss where
  w : Who
  grp : Group
  wp : Warp
  sp : Split
  deriving DecidableEq, Repr

/-- The issuer that `State.cur` names, if it is resident. -/
def issuer (s : State) : Option Iss :=
  match groupAt s s.cur.core s.cur.gslot with
  | none => none
  | some g => match mapFind g.warps s.cur.wid with
    | none => none
    | some y => (y.split s.cur.slot).map (fun x => { w := s.cur, grp := g, wp := y, sp := x })

/-- Vector warps are %warp 0 to 31, copy warps 32 to 35, the matrix thread 64 (R133). -/
def Iss.isVec (x : Iss) : Bool := x.w.wid < 32
/-- A copy warp. -/
def Iss.isCopy (x : Iss) : Bool := 32 ≤ x.w.wid && x.w.wid < 64
/-- The matrix thread. -/
def Iss.isMat (x : Iss) : Bool := x.w.wid == 64

/-- The die of the issuer. -/
def Iss.die (x : Iss) : Nat := dieOfCore x.w.core

/-- The issuer's group changed. -/
def onGroup (s : State) (x : Iss) (f : Group → Group) : State := modGroup s x.w.core x.w.gslot f

/-- The issuer's warp changed. -/
def onWarp (s : State) (x : Iss) (f : Warp → Warp) : State := modWarp s x.w.core x.w.gslot x.w.wid f

/-- The issuer's split changed. -/
def onSplit (s : State) (x : Iss) (f : Split → Split) : State := modSplit s x.w f

/-- The lanes that pass a guard (R208). -/
def guardMask (x : Iss) (g : Guard) : W32 :=
  let p := predOf x.wp g.pred.toNat
  x.sp.mask &&& (if g.neg then ~~~p else p)

/-! ### Splits and the issue boundary (R138-R141) -/

/-- Ascending (PC, FMT) (R138). -/
def Split.le (a b : Split) : Bool := a.pc < b.pc || (a.pc == b.pc && a.fmt ≤ b.fmt)

/-- Equal in PC and FMT (R138, R140). -/
def Split.same (a b : Split) : Bool := a.pc == b.pc && a.fmt == b.fmt

/-- Two splits merged (R140, R268). -/
def Split.merge (a b : Split) : Split :=
  let one := a.ctr == b.ctr && a.entry == b.entry
  { a with
    mask := a.mask ||| b.mask
    ctr := if a.ctr ≤ b.ctr then b.ctr else a.ctr
    entry := if one then a.entry else a.pc
    hold := if a.hold == b.hold then a.hold else .none
    blk := if a.blk == b.blk then a.blk else .none
    acqs := a.acqs ++ b.acqs.filter (fun i => !a.acqs.contains i)
    homeLd := a.homeLd || b.homeLd }

/-- An entry put into the wait list: merged or inserted in order (R138). -/
def waitPut (l : List WaitEntry) (e : WaitEntry) : List WaitEntry :=
  if l.any (fun x => x.sp.same e.sp) then
    l.map (fun x => if x.sp.same e.sp then { sp := x.sp.merge e.sp, starve := Nat.max x.starve e.starve } else x)
  else insertBy (fun a b => a.sp.le b.sp) e l

/-- WaitInsert of R139: beyond 8 entries the highest spills. -/
def waitInsert (y : Warp) (e : WaitEntry) : Warp :=
  let l := waitPut y.wlist e
  { y with wlist := l.take 8, spilled := (l.drop 8).foldl waitPut y.spilled }

/-- The lowest free slot (R139). -/
def freeSlot (y : Warp) : Option Nat := (List.range 4).find? (fun i => (y.split i).isNone)

/-- A split placed in the lowest free slot, or in the wait list (R139). -/
def placeSplit (y : Warp) (x : Split) : Warp :=
  match freeSlot y with
  | some i => y.setSplit i (some x)
  | none => waitInsert y { sp := x, starve := 0 }

/-- Step 2 of R140. A split whose instruction has issued and waits is not merged. -/
def mergeSlots (y : Warp) : Warp :=
  ([(0, 1), (0, 2), (0, 3), (1, 2), (1, 3), (2, 3)] : List (Nat × Nat)).foldl (fun y (i, j) =>
    match y.split i, y.split j with
    | some a, some b =>
      if a.same b && a.wait.isNone && b.wait.isNone then (y.setSplit i (some (a.merge b))).setSplit j none else y
    | _, _ => y) y

/-- Step 3 of R140. -/
def absorb (y : Warp) : Warp :=
  (List.range 4).foldl (fun y i => match y.split i with
    | some a =>
      if a.wait.isSome then y
      else y.wlist.foldl (fun y e => match y.split i with
        | some a => if e.sp.same a then { y.setSplit i (some (a.merge e.sp)) with wlist := y.wlist.filter (fun f => f != e) } else y
        | none => y) y
    | none => y) y

/-- Step 4 of R140. -/
def refill (fuel : Nat) (y : Warp) : Warp :=
  match fuel with
  | 0 => y
  | n + 1 => match freeSlot y, y.wlist with
    | some i, e :: r => refill n { y.setSplit i (some e.sp) with wlist := r }
    | _, _ => y

/-- Step 5 of R140. -/
def unspill (fuel : Nat) (y : Warp) : Warp :=
  match fuel with
  | 0 => y
  | n + 1 => match y.spilled with
    | e :: r => if y.wlist.length < 8 then unspill n { waitInsert { y with spilled := r } e with spilled := r } else y
    | [] => y

/-- Whether a warp holds another split or wait-list entry with the same FMT and a lower PC (R141). -/
def lowerExists (y : Warp) (slot : Nat) (x : Split) : Bool :=
  (List.range 4).any (fun i => i != slot && (match y.split i with
    | some q => q.fmt == x.fmt && q.pc < x.pc
    | none => false)) ||
  (y.wlist ++ y.spilled).any (fun e => e.sp.fmt == x.fmt && e.sp.pc < x.pc)

/-- The splits held at a JOIN that nothing holds any longer are released (R141). -/
def releaseJoins (y : Warp) : Warp :=
  (List.range 4).foldl (fun y i => match y.split i with
    | some x => if x.hold == .join && !lowerExists y i x then y.setSplit i (some { x with hold := .none }) else y
    | none => y) y

/-- When every slot is occupied and held and the wait list is not empty, the held split with the highest (PC, slot) goes
into the wait list, where it stays held (R141, R153). -/
def rotateHeld (y : Warp) : Warp :=
  let occ := (List.range 4).filterMap (fun i => (y.split i).map (fun x => (i, x)))
  if occ.length == 4 && occ.all (fun (_, x) => x.hold != .none && x.wait.isNone) && !y.wlist.isEmpty then
    match occ.foldl (fun (b : Option (Nat × Split)) (i, x) => match b with
        | some (j, z) => if z.pc ≤ x.pc then some (i, x) else some (j, z)
        | none => some (i, x)) none with
    | some (i, x) => waitInsert (y.setSplit i none) { sp := { x with blk := .none }, starve := 0 }
    | none => y
  else y

/-- The issue boundary (R140, R141): a JOIN is released, or a held split moved, once the splits that have met are one. -/
def boundary (y : Warp) : Warp :=
  let y := { y with splits := y.splits.map (fun o => match o with
    | some x => if x.mask == 0 then none else some x
    | none => none) }
  unspill 64 (refill 4 (rotateHeld (releaseJoins (absorb (mergeSlots y)))))

/-- The starved entry, if one has reached 2^24 issues (R144). -/
def starved (y : Warp) : Option WaitEntry := (y.wlist ++ y.spilled).find? (fun e => e.starve ≥ 2 ^ 24)

/-- The HANG of a warp made pending where one of its entries has starved (R144, R430). -/
def pendHang (y : Warp) : Warp :=
  match starved y with
  | some e => { y with pend := some (.hang, e.sp.pc, e.sp.mask) }
  | none => y

/-- One issue of a warp counted by every wait-list entry that was in its list before it, as `old` has it (R144); an entry that reaches
2^24 makes HANG pending. -/
def countStarvation (old y : Warp) : Warp :=
  let was := fun (e : WaitEntry) => (old.wlist ++ old.spilled).any (fun f => f.sp.same e.sp)
  let up := fun (e : WaitEntry) => if was e then { e with starve := e.starve + 1 } else e
  pendHang { y with wlist := y.wlist.map up, spilled := y.spilled.map up }

/-! ### Lazily held state (R87, R88) -/

/-- Whether anything of a context is held lazily on a core (R87). -/
def lazyOn (k : Core) (x : Nat) : Bool :=
  k.lazySram.any (fun e => e.1 == x) ||
  k.slots.any (fun (_, o) => match o.holder with
    | .lazy c _ _ => c == x
    | _ => false) ||
  k.blocks.any (fun (_, b) => match b.holder with
    | .lazy c _ _ => c == x
    | _ => false)

/-- The save area written (R88): the header with LAYOUT, LAZY and USEDKIB; the bytes of the rest are the layout's
(notes/assumptions/5.md). -/
def writeArea (s : State) (x : Nat) (rest : Bool) : State :=
  let c := ctxOf s x
  let h := c.layout * 2 ^ 48 + (if c.lazy then 2 ^ 32 else 0) + c.usedkib
  let (n, s) := freshFree s
  let bs := bytesLE 8 h ++ (if rest then (List.range (c.usedkib * 1024 - 8)).map (fun i => Sys2Proof.Config.saveLayoutByte n i) else [])
  unitWrite s c.savebase bs

/-- LAZY brought up to date in a context and in its header, where nothing is held lazily for it any more (R88). -/
def settleLazy (s : State) (x : Nat) : State :=
  if (ctxOf s x).lazy && !s.cores.any (fun (_, k) => lazyOn k x) then
    writeArea (modCtx s x (fun c => { c with lazy := false })) x false
  else s

/-- Every item held by group `g` (R331): a slot taken from FREE has its exponent cleared. -/
def takeItems (k : Core) (g : Nat) (it : List Nat × List Nat) : Core :=
  let k := it.1.foldl (fun k i =>
    let o := mapGet k.slots i OpSlot.reset
    { k with slots := mapSet k.slots i { o with holder := .held g, sx := if o.holder == .held g then o.sx else 0 } }) k
  it.2.foldl (fun k z => { k with blocks := mapSet k.blocks z { mapGet k.blocks z AccBlock.reset with holder := .held g } }) k

/-- A claim that waits for a write-out (R329) is served first when it is done (R87): its items are the claiming group's. -/
def serveClaim (k : Core) (q : Nat × List Nat × List Nat) : Core :=
  let may := fun (h : Holder) => h == .free || h == .held q.1
  if q.2.1.all (fun i => may (mapGet k.slots i OpSlot.reset).holder) && q.2.2.all (fun z => may (mapGet k.blocks z AccBlock.reset).holder) then
    { takeItems k q.1 q.2 with claims := k.claims.filter (fun e => e != q) }
  else k

/-- The poisoned lines of a group's window, counted from its start (R435). -/
def poisonedIn (s : State) (g : Group) : List Nat :=
  (List.range (sramKib g.tmpl * 8)).filter (fun i => isPoisoned s (g.sbase / 128 + i))

/-- What is held lazily for a context on a core written to its save area and let go; the claims on it are served (R87). -/
def writeOut (s : State) (c x : Nat) : State :=
  let k := coreOf s c
  let s := modCore s c (fun k => { k with claimed := k.claimed.filter (fun y => y != x) })
  if !lazyOn k x then s
  else
    let mine := fun (h : Holder) (g : SavedGroup) => h == .lazy x g.grp.launch g.grp.gidx
    let one := fun (g : SavedGroup) =>
      if g.core != c then g
      else { g with
        window := if k.lazySram.any (fun e => e.1 == x && e.2.1 == g.grp.launch && e.2.2.1 == g.grp.gidx)
          then some (memGetBytes s.mem g.grp.sbase g.grp.tmpl.sramsz) else g.window
        poisoned := if k.lazySram.any (fun e => e.1 == x && e.2.1 == g.grp.launch && e.2.2.1 == g.grp.gidx)
          then poisonedIn s g.grp else g.poisoned
        slots := (k.slots.filter (fun (_, o) => mine o.holder g)).foldl (fun m (i, o) => mapSet m i o) g.slots
        blocks := (k.blocks.filter (fun (_, b) => mine b.holder g)).foldl (fun m (i, b) => mapSet m i b) g.blocks }
    let let_ := fun (h : Holder) => match h with
      | .lazy q _ _ => if q == x then Holder.free else h
      | h => h
    let s := modCtx s x (fun q => { q with saved := q.saved.map one })
    let s := modCore s c (fun k =>
      let k : Core := { k with
        lazySram := k.lazySram.filter (fun e => e.1 != x)
        slots := k.slots.map (fun (i, o) => (i, { o with holder := let_ o.holder }))
        blocks := k.blocks.map (fun (i, b) => (i, { b with holder := let_ b.holder })) }
      k.claims.foldl serveClaim k)
    let s := modCtx s x (fun q => { q with lazy := s.cores.any (fun (_, k) => lazyOn k x) })
    writeArea s x true

/-! ### The fault domain (R84) -/

/-- The code of a cause (R428). -/
def Cause.code (c : Cause) : Nat :=
  match c with
  | .illegal => 0x01 | .role => 0x02 | .feEmpty => 0x03 | .bounds => 0x04 | .align => 0x05 | .pageNotPresent => 0x06
  | .pageProtection => 0x07 | .pageLost => 0x08 | .atomicMemtype => 0x09 | .slot => 0x0A | .accRange => 0x0B
  | .stage => 0x0C | .waitCycle => 0x0D | .hang => 0x0E | .user => 0x0F | .brk => 0x10 | .poison => 0x11
  | .combine => 0x12 | .automaton => 0x13 | .window => 0x14 | .datomLog => 0x15

/-- The read-only upper half of an RCB as the device writes it (R78, bits [511:256]). -/
def Rcb.roBits (k : Rcb) : Nat :=
  k.usedsram + k.usedreg <<< 32 + k.usedpend <<< 64 + k.usedgrp <<< 88 + k.usedcand <<< 104 +
  (if k.stopped then 1 else 0) <<< 174 + k.usedcslot <<< 176 + k.flaunch <<< 192 + k.fcause <<< 224

/-- The RO fields of region `r` of context `x` written back to memory (R78). -/
def writeBackRcb (s : State) (x r : Nat) : State :=
  let c := ctxOf s x
  match c.regions[r]? with
  | some k => unitWrite s (c.rcbbase + 64 * r + 32) (bytesLE 32 k.roBits)
  | none => s

/-- The nearest fault domain at or above a region (R84). -/
def faultDomain (rs : List Rcb) (r : Nat) : Nat :=
  ((chainOf rs r).find? (fun i => i == 0 || (match rs[i]? with
    | some k => k.fdom
    | none => false))).getD 0

/-- What core `c` keeps for the group in slot `g` let go: claims, copies, matrix work, drains, releases. -/
def releaseCore (k : Core) (g : Nat) : Core :=
  { k with
    slots := k.slots.map (fun (i, o) => (i, if o.holder == .held g then { o with holder := .free } else o))
    blocks := k.blocks.map (fun (i, b) => (i, if b.holder == .held g then { b with holder := .free } else b))
    copies := k.copies.filter (fun q => q.gslot != g)
    mq := k.mq.filter (fun q => q.gslot != g)
    drains := k.drains.filter (fun q => q.gslot != g)
    claims := k.claims.filter (fun q => q.1 != g)
    ranks := mapDel k.ranks g
    pause := k.pause.filter (fun q => q.1 != g)
    mrels := k.mrels.filter (fun q => q.gslot != g) }

/-- The head of a trap log moved over the records no longer held (R427). -/
def advanceHead (fuel : Nat) (l : TrapLog) : TrapLog :=
  match fuel with
  | 0 => l
  | n + 1 =>
    if l.count = 0 || l.heldIdx.contains l.head then l
    else advanceHead n { l with head := (l.head + 1) % l.size, count := l.count - 1 }

/-- A record that is no longer held (R427). -/
def freeRecord (s : State) (x : Nat) (i : Option Nat) : State :=
  match i with
  | none => s
  | some i => modCtx s x (fun c => match c.tlog with
    | some l => { c with tlog := some (advanceHead l.size { l with heldIdx := l.heldIdx.filter (· != i) }) }
    | none => c)

/-- The trap record that a role holds (R427). -/
def recordOf (y : Warp) : Option Nat :=
  match y.run, y.aside with
  | .trapped _ _ i, _ => i
  | _, some a => match a.run with
    | .trapped _ _ i => i
    | _ => none
  | _, none => none

/-- The records held by the roles of a group let go. -/
def freeRecords (s : State) (g : Group) : State := g.warps.foldl (fun s (_, y) => freeRecord s g.ctx (recordOf y)) s

/-- A split that stops at its region's entry (R190). -/
def Split.restart (x : Split) : Split := { x with pc := x.entry, hold := .none, wait := none, blk := .none }

/-- The page-walk records of a group's roles dropped. -/
def dropWalksOf (s : State) (c g : Nat) : State :=
  modDie s (dieOfCore c) (fun d => { d with walks := d.walks.filter (fun w => !(w.who.core == c && w.who.gslot == g)) })

/-- A group taken off its core without saving (R84, R92); stores already issued still drain. -/
def dropGroup (s : State) (c g : Nat) : State :=
  let s := dropWalksOf ((groupAt s c g).elim s (freeRecords s)) c g
  let s := modCore s c (fun k => releaseCore { k with groups := mapDel k.groups g } g)
  { s with
    inflight := s.inflight.filter (fun r => r.isStore || !(r.who.core == c && r.who.gslot == g))
    returns := s.returns.filter (fun r => !(r.who.core == c && r.who.gslot == g)) }

/-- The launches of context `x` that `bad` names discarded, with their DATOM entries, and their log blocks returned
(R74, R84, R92). -/
def dropLaunches (s : State) (x : Nat) (bad : Launch → Bool) : State :=
  let ls := (ctxOf s x).launches.filter bad
  let gone := fun (i : Nat) => ls.any (fun l => l.idx == i)
  let s := { s with
    datoms := s.datoms.filter (fun d => !(d.ctx == x && gone d.launch))
    dbufs := s.dbufs.filter (fun d => !(d.ctx == x && gone d.launch))
    cores := s.cores.map (fun (c, k) => (c, { k with runq := k.runq.filter (fun q => !(q.1 == x && gone q.2.1)) })) }
  modCtx s x (fun c => { c with
    launches := c.launches.filter (fun l => !bad l)
    detq := c.detq.filter (fun q => !gone q.1) })

/-- Every group of context `x` that `bad` names dropped. -/
def dropGroups (s : State) (x : Nat) (bad : Group → Bool) : State :=
  (residents s).foldl (fun s (c, g, k) => if k.ctx == x && bad k then dropGroup s c g else s) s

/-- Saved groups of context `x` that `bad` names discarded with what is lazily held for them (R85, R87). -/
def dropSaved (s : State) (x : Nat) (bad : Group → Bool) : State :=
  let gone := (ctxOf s x).saved.filter (fun g => bad g.grp)
  let mine := fun (c l i : Nat) => c == x && gone.any (fun g => g.grp.launch == l && g.grp.gidx == i)
  let let_ := fun (h : Holder) => match h with
    | .lazy c l i => if mine c l i then Holder.free else h
    | h => h
  let core := fun (k : Core) => { k with
    slots := k.slots.map (fun (i, o) => (i, { o with holder := let_ o.holder }))
    blocks := k.blocks.map (fun (i, b) => (i, { b with holder := let_ b.holder }))
    lazySram := k.lazySram.filter (fun (c, l, i, _, _) => !mine c l i) }
  let s := gone.foldl (fun s g => freeRecords s g.grp) s
  modCtx { s with cores := s.cores.map (fun (c, k) => (c, core k)) } x (fun c => { c with saved := c.saved.filter (fun g => !bad g.grp) })

/-- The automata of context `x` whose region `bad` names lose their candidates; the armed ones become FAULTED
(R125). -/
def faultAutomata (s : State) (x : Nat) (bad : Nat → Bool) : State :=
  let one := fun (a : Auto) =>
    if a.ctx == x && a.st != .free && bad a.img.region then
      { a with cands := [], st := if a.st == .armed then .faulted else a.st }
    else a
  let die := fun (k : Die) => { k with autos := k.autos.map (fun (i, a) => (i, one a)) }
  let keep := fun (d : Domain) (w : Work) => match w with
    | .accept i _ _ _ => match mapFind (dieOf s d.die).autos i with
      | some a => !(a.ctx == x && bad a.img.region)
      | none => false
    | _ => true
  let dom := fun (d : Domain) => { d with work := d.work.filter (keep d) }
  { s with
    dies := s.dies.map (fun (d, k) => (d, die k))
    domains := s.domains.map (fun (d, k) => (d, dom k)) }

/-- The open child reserves of the launches that `bad` names returned to the regions outside a stopped domain (R84, R131). -/
def returnReserves (s : State) (x : Nat) (bad : Launch → Bool) (below : Nat → Bool) : State :=
  ((ctxOf s x).launches.filter bad).foldl (fun s l => match l.reserve with
    | some (r, g, rg, sr) => if below r then s else uncharge s x r { grp := g, reg := rg, sram := sr }
    | none => s) s

/-- The stream that is told of the stop of a fault domain (R84 step 4). -/
def faultStream (c : Context) (dom : Nat) : Nat :=
  if dom = 0 then c.ctxstream else (((c.regions[dom]?).bind (fun k => c.regions[k.parent]?)).map (fun q => q.evstream)).getD 0

/-- The stop of a fault domain (R84 steps 1 to 4) on account of a launch, told of by die `die`. -/
def stopRegion (s : State) (x dom cause launch die : Nat) : State :=
  let rs := (ctxOf s x).regions
  let below := fun (r : Nat) => isBelow rs r dom
  match rs[dom]? with
  | none => s
  | some k =>
    let s := dropGroups s x (fun g => below g.region)
    let s := settleLazy (dropSaved s x (fun g => below g.region)) x
    let s := returnReserves s x (fun l => below l.tmpl.region) below
    let s := dropLaunches s x (fun l => below l.tmpl.region)
    let s := faultAutomata s x below
    let back : Use := { sram := k.usedsram, reg := k.usedreg, pend := k.usedpend, grp := k.usedgrp, cand := k.usedcand }
    let s := if dom = 0 then s else uncharge s x k.parent back
    let s := modCtx s x (fun c => { c with
      regions := (List.range c.regions.length).map (fun i =>
        let q := c.regions.getD i k
        if below i then { q with usedsram := 0, usedreg := 0, usedpend := 0, usedgrp := 0, usedcand := 0 } else q)
      launches := c.launches.map (fun l => match l.reserve with
        | some (cr, _, _, _) => if below cr then { l with reserve := some (cr, 0, 0, 0) } else l
        | none => l) })
    let s := modRegion s x dom (fun q => { q with stopped := true, fcause := cause, flaunch := launch % 2 ^ 32 })
    let s := writeBackRcb s x dom
    let stream := faultStream (ctxOf s x) dom
    let s := deviceEvent s die 3 srcFirmware stream 0xE1 (cause * 256 + dom) (launch % 2 ^ 32) false
    if dom = 0 then modCtx s x (fun c => { c with st := .stopped, lazy := false, stopHeld := false }) else s

/-- A record that tells of a fault as it is told where a fault of a lower launch index has come in its cycle (R84). -/
def retell (stream p0 p1 p0' p1' : Nat) (i : Intake) : Intake :=
  if i.ev.stream.toNat == stream && i.ev.kind == 0xE1 && i.ev.p0.toNat == p0 && i.ev.p1.toNat == p1 then
    { i with ev := { i.ev with p0 := BitVec.ofNat 64 p0', p1 := BitVec.ofNat 64 p1' } }
  else i

/-- A second fault of a domain in the cycle of the first (R84): that of the lower launch index fills FCAUSE and FLAUNCH, and the one
event tells of it. -/
def secondFault (s : State) (x dom cause launch : Nat) (k : Rcb) : State :=
  if launch % 2 ^ 32 < k.flaunch then
    let s := modRegion s x dom (fun q => { q with fcause := cause, flaunch := launch % 2 ^ 32 })
    if k.stopped then
      let tell := retell (faultStream (ctxOf s x) dom) (k.fcause * 256 + dom) k.flaunch (cause * 256 + dom) (launch % 2 ^ 32)
      { writeBackRcb s x dom with dies := s.dies.map (fun (d, q) => (d, { q with intakeQ := q.intakeQ.map tell })) }
    else s
  else s

/-- A fault reported to the fault domain of region `r` (R84): no effect on a domain stopped by a fault of an earlier cycle; a root stop
waits for a save or a resume under way (R85). -/
def regionFault (s : State) (x r cause launch die : Nat) : State :=
  let c := ctxOf s x
  let dom := faultDomain c.regions r
  let now := (die, (dieOf s die).cycle)
  match c.regions[dom]? with
  | none => s
  | some k =>
    if k.stopped || (dom == 0 && c.stopHeld) then
      if k.faultAt == now then secondFault s x dom cause launch k else s
    else
      let s := modRegion s x dom (fun q => { q with faultAt := now })
      if dom = 0 && (c.st == .saving || c.st == .resuming) then
        modRegion (modCtx s x (fun c => { c with stopHeld := true })) x 0
          (fun q => { q with fcause := cause, flaunch := launch % 2 ^ 32 })
      else if c.st == .free || c.st == .draining then s
      else stopRegion s x dom cause launch die

/-! ### Taking a trap, and returning from one (R426-R432) -/

/-- The 64 bytes of a trap record (R429). -/
def TrapRec.bits (r : TrapRec) : Nat :=
  r.pc.toNat <<< 448 + r.entry.toNat <<< 384 + r.addr.toNat <<< 320 + r.launch.toNat <<< 256 + r.ctr.toNat <<< 224 +
  r.mask.toNat <<< 192 + r.lanes.toNat <<< 160 + r.code.toNat <<< 144 + r.cause.code <<< 136 + r.core <<< 128 +
  r.warp <<< 121 + r.split <<< 119 + r.seq.toNat <<< 80

/-- Whether a trap has a handler (R427): a log that is not full, its cause in the mask, and not PAGE_LOST. -/
def trapHandled (c : Context) (cause : Cause) : Bool :=
  match c.tlog with
  | some l => c.tmask.testBit (cause.code - 1) && l.count < l.size && cause != .pageLost
  | none => false

/-- The record put into the trap log and the notice sent (R427): the index and the state. -/
def logTrap (s : State) (x die : Nat) (r : TrapRec) : Nat × State :=
  let c := ctxOf s x
  match c.tlog with
  | none => (0, s)
  | some l =>
    let s := unitWrite s (l.base + 64 * l.tail) (bytesLE 64 r.bits)
    let s := modCtx s x (fun c => { c with
      tseq := (c.tseq + 1) % 2 ^ 32
      tlog := some { l with tail := (l.tail + 1) % l.size, count := l.count + 1, heldIdx := l.heldIdx ++ [l.tail] } })
    (l.tail, deviceEvent s die 3 srcFirmware c.ctxstream 0xE8 l.tail (r.warp * 65536 + r.core * 256 + r.cause.code) true)

/-- Whether what a role issued has ended (R426, as at step 3 of R86): its loads, atomics and stores, a copy warp's copies but those
that fault or wait for a page (notes/assumptions/121.md), the matrix thread's operations. -/
def roleQuiet (s : State) (w : Who) : Bool :=
  let k := coreOf s w.core
  s.inflight.all (fun r => !sameWarp r.who w) && s.returns.all (fun r => !sameWarp r.who w) &&
  s.datoms.all (fun d => !sameWarp d.who w) &&
  k.copies.all (fun q => q.gslot != w.gslot || q.wid != w.wid || q.waitPage.isSome || q.fault.isSome) &&
  (w.wid != 64 || (k.mq.all (fun q => q.gslot != w.gslot) && k.drains.all (fun q => q.gslot != w.gslot)))

/-- The trap of a role that has stopped (R426, R427): its record in the log and the notice sent, or, where no handler takes it, its
fault domain stops. -/
def recordTrap (s : State) (w : Who) (r : TrapRec) (words : Nat) : State :=
  match groupAt s w.core w.gslot with
  | some g =>
    let c := ctxOf s g.ctx
    let r := { r with seq := BitVec.ofNat 32 c.tseq }
    if trapHandled c r.cause then
      let (i, s) := logTrap s g.ctx (dieOfCore w.core) r
      modWarp s w.core w.gslot w.wid (fun y => { y with run := .trapped r words (some i) })
    else
      let s := modWarp s w.core w.gslot w.wid (fun y => { y with run := .trapped r words none })
      regionFault s g.ctx g.region r.cause.code g.launch (dieOfCore w.core)
  | none => s

/-- A trap of the role that `w` names (R426): the warp stops, a HANG or WAIT_CYCLE that was pending in it is dropped (R430), a claim that
its matrix thread waits for is given up (R331), and its
record is written once what it issued before has ended.
`words` is the length of the trapping instruction. -/
def takeTrap (s : State) (w : Who) (cause : Cause) (lanes : W32) (addr : Nat) (code words : Nat) : State :=
  match groupAt s w.core w.gslot, warpAt s w.core w.gslot w.wid with
  | some g, some y =>
    let sp := (y.split w.slot).getD { pc := 0, mask := 0, fmt := 0, ctr := 0, entry := 0 }
    let r : TrapRec := {
      pc := sp.pc
      entry := sp.entry
      addr := BitVec.ofNat 64 addr
      launch := BitVec.ofNat 64 g.launch
      ctr := sp.ctr
      mask := if w.wid < 32 then sp.mask else 1
      lanes := if w.wid < 32 then lanes else 1
      code := BitVec.ofNat 16 code
      cause := cause
      core := w.core
      warp := w.wid
      split := w.slot
      seq := 0 }
    let s := modWarp s w.core w.gslot w.wid (fun y => { y with pend := none })
    let s := if w.wid = 64 then modCore s w.core (fun k => { k with claims := k.claims.filter (fun q => q.1 != w.gslot) }) else s
    if roleQuiet s w then recordTrap s w r words
    else modWarp s w.core w.gslot w.wid (fun y => { y with run := .trapping r words })
  | _, _ => s

/-- A TRAPPED warp set running again with the trapping split at `pc` (R432). -/
def resumeTrapped (s : State) (c g w : Nat) (pc : TrapRec → Nat → W64) : State :=
  match groupAt s c g, warpAt s c g w with
  | some k, some y => match y.run with
    | .trapped r n i =>
      let s := freeRecord s k.ctx i
      modWarp s c g w (fun y =>
        let y := { y with run := .run, pend := none }
        let y := y.setSplit r.split ((y.split r.split).map (fun x => { x with pc := pc r n, hold := .none, wait := none, blk := .none }))
        if r.cause == .hang then
          { y with wlist := y.wlist.map (fun e => { e with starve := 0 }), spilled := y.spilled.map (fun e => { e with starve := 0 }) }
        else y)
    | _ => s
  | _, _ => s

/-! ### The flow of one instruction word (R232) -/

/-- The entry by which a core's unit would reach an address of a context (R186, R187): the TLB's, else what a walk finds. -/
def entryFor (s : State) (c ctx va : Nat) : Option TlbEntry :=
  let x := ctxOf s ctx
  if !userVa va then none
  else match tlbFind (coreOf s c) x.pasid va with
    | some e => some e
    | none => match (walk s (dieOfCore c) x.pasid x.ptroot va).1 with
      | .leaf e => some e
      | _ => none

/-- How many words the instruction at a split's PC has (R206): five where it is a copy start; one where its word cannot be read. -/
def wordsAt (s : State) (w : Who) : Nat :=
  match groupAt s w.core w.gslot, (warpAt s w.core w.gslot w.wid).bind (fun y => y.split w.slot) with
  | some g, some q => (entryFor s w.core g.ctx q.pc.toNat).elim 1 (fun e => wordCount (BitVec.ofNat 64 (memNat s.mem (e.phys q.pc.toNat) 8)))
  | _, _ => 1

/-- How executing a word ends. -/
inductive Res where
  | done (s : State)                                            -- whole effect; the PC moves past the instruction
  | jump (s : State)                                            -- whole effect, the PC with it
  | hold (b : Block) (s : State)                                -- not issued: it waits at its PC
  | issued (b : Block) (s : State)                              -- issued, and its end is awaited
  | trap (c : Cause) (lanes : W32) (addr code : Nat) (s : State) -- no effect but the trap
  deriving Repr

/-- The roles that may issue an instruction (R134). -/
structure Roles where
  vec : Bool
  copy : Bool
  mat : Bool
  deriving DecidableEq, Repr

/-- Every role. -/
def Roles.all : Roles := ⟨true, true, true⟩
/-- Vector warps only. -/
def Roles.vector : Roles := ⟨true, false, false⟩
/-- Copy warps only. -/
def Roles.copyOnly : Roles := ⟨false, true, false⟩
/-- The matrix thread only. -/
def Roles.matOnly : Roles := ⟨false, false, true⟩

/-- Whether a role may issue (R134). -/
def Roles.allow (r : Roles) (x : Iss) : Bool := (x.isVec && r.vec) || (x.isCopy && r.copy) || (x.isMat && r.mat)

/-- The registers of an instruction as R66 and R67 meet them. `src` is the lane a lane reads (R222). -/
inductive Opd where
  | v (reg n : Nat) (src : Nat → Nat) (fe : Bool)   -- vector source
  | u (reg : Nat) (fe : Bool)                       -- uniform source
  | vd (reg n : Nat)                                -- vector destination of a plain write
  | ud (reg : Nat)                                  -- uniform destination of a plain write
  | vl (reg n : Nat)                                -- vector destination of a long-latency producer
  | pre (m : W32) (b : Block) (fe : Bool)           -- the lanes of G for which a source is found empty, and what that waits for

/-- The vector registers an operand names (R209). -/
def Opd.vregs (o : Opd) : List (Nat × Nat) :=
  match o with
  | .v r n _ _ => [(r, n)]
  | .vd r n => [(r, n)]
  | .vl r n => [(r, n)]
  | _ => []

/-- The lanes of `m` in which an operand is empty (R66, R222). -/
def Opd.emptyIn (o : Opd) (x : Iss) (m : W32) : W32 :=
  match o with
  | .v r n src _ => maskOf ((lanesOf m).filter (fun l => (List.range n).any (fun k => vEmpty x.wp (r + k) (src l))))
  | .u r _ => if uEmpty x.grp r then m else 0
  | .vd r n => maskOf ((lanesOf m).filter (fun l => (List.range n).any (fun k => vEmpty x.wp (r + k) l)))
  | .ud r => if uEmpty x.grp r then m else 0
  | .vl _ _ => 0
  | .pre q _ _ => q &&& m

/-- Whether an empty operand traps FE_EMPTY rather than waits. -/
def Opd.traps (o : Opd) : Bool :=
  match o with
  | .v _ _ _ fe => fe
  | .u _ fe => fe
  | .pre _ _ fe => fe
  | _ => false

/-- What a wait on an operand publishes (R145). -/
def Opd.block (o : Opd) : Block :=
  match o with
  | .u _ _ => .groupRoles
  | .ud _ => .groupRoles
  | .pre _ b _ => b
  | _ => .nothing

/-- Whether a vector register lies within the warp's count (R209, R65). -/
def Iss.hasRegs (x : Iss) (r n : Nat) : Bool := r + n ≤ x.grp.tmpl.vregs + 1

/-- What a split that is in a slot waits for (R145): a barrier it is held at, or what its instruction was found to need. -/
def Split.block (x : Split) : Block :=
  match x.hold with
  | .bar b _ _ _ => .barrier b
  | .join => .nothing
  | .none => x.blk

/-- What a warp waits for (R145): its barrier while it is parked there or its speculation has stopped, else what each of its splits
waits for. -/
def Warp.blocks (y : Warp) : List Block :=
  match y.parked, y.spec with
  | some (b, _), _ => [.barrier b]
  | none, some p => if p.stopped then [if p.due then .nothing else .barrier p.bar] else (y.splits.filterMap id).map Split.block
  | none, none => (y.splits.filterMap id).map Split.block

/-- Whether a role has been blocked since it last could issue (R145): it runs, and each of its splits was found to wait. -/
def wasBlocked (y : Warp) : Bool := y.run == .run && !y.halted && !y.blocks.isEmpty && y.blocks.all (fun b => b != .none)

/-- Whether a role is blocked (R145): none of its splits can issue, and none is to be looked at again. -/
def roleBlocked (y : Warp) : Bool := wasBlocked y && y.blocks.all (fun b => b != .again)

/-- What a split waits for noted; a warp that is blocked only now is blocked from now on (R145). -/
def setSplitBlock (now slot : Nat) (b : Block) (y : Warp) : Warp :=
  let z := y.setSplit slot ((y.split slot).map (fun x => { x with blk := b }))
  if wasBlocked y then z else { z with blockedAt := now }

/-- The unit that issues for a role: its partition, or 32 for the MSQ (R17). -/
def issueUnit (wid part : Nat) : Nat := if wid == 64 then 32 else part

/-- A role's place in the order of R136: the matrix thread, the copy warps, the vector warps. -/
def roleRank (wid : Nat) : Nat := if wid == 64 then 0 else if 32 ≤ wid then wid - 31 else wid + 5

/-- The roles of a group in the order of R136. -/
def byRank (ws : List Nat) : List Nat := sortBy (fun a b => decide (roleRank a ≤ roleRank b)) ws

/-- The place of a role's own accesses in a cycle (R136): after the stage fills of its copies (R359), which have the place before. -/
def rankPlace (wid : Nat) : Nat := 2 * roleRank wid + 1

/-- The last place in the order of R136 that a role's group has come to in this cycle. -/
def rankAt (s : State) (w : Who) : Nat := mapGet (coreOf s w.core).ranks w.gslot 0

/-- Whether no role of a group that comes after this one in the order of R136 has been served in this cycle. -/
def rankOk (s : State) (w : Who) : Bool := rankAt s w ≤ rankPlace w.wid

/-- A place in the order of R136 reached by a role's group in this cycle. -/
def setRank (s : State) (w : Who) (place : Nat) : State :=
  modCore s w.core (fun k => { k with ranks := mapSet k.ranks w.gslot (Nat.max place (mapGet k.ranks w.gslot 0)) })

/-- A role's place in the order of R136 reached by its group in this cycle. -/
def noteRank (s : State) (w : Who) : State := setRank s w (rankPlace w.wid)

/-- A split found not ready (R142, R145): in this cycle it is not chosen again. One that has found a uniform register full or empty has
made its access of this cycle (R136). -/
def setBlocked (s : State) (w : Who) (b : Block) : State :=
  let now := (dieOf s (dieOfCore w.core)).cycle
  let s := if b == .groupRoles then noteRank s w else s
  modWarp (modCore s w.core (fun k => { k with tried := w :: k.tried })) w.core w.gslot w.wid (setSplitBlock now w.slot b)

/-- An issue noted: the turn of its partition or of the MSQ is taken in this cycle, and the next goes on from there (R17, R136,
R142); the entries that were in the warp's wait list count it (R144). -/
def noteIssue (s : State) (x : Iss) : State :=
  let w := x.w
  let s := modCore (noteRank s w) w.core (fun k => { k with
    turn := issueUnit w.wid x.wp.part :: k.turn
    lastMt := if w.wid == 64 then x.wp.wslot else k.lastMt
    lastWarp := if w.wid == 64 then k.lastWarp else mapSet k.lastWarp x.wp.part x.wp.wslot })
  modWarp s w.core w.gslot w.wid (fun y => countStarvation x.wp { y with lastSlot := w.slot })

/-- The boundary after an issue (R140, R142, R144). -/
def endIssue (s : State) (x : Iss) : State :=
  modWarp (noteIssue s x) x.w.core x.w.gslot x.w.wid (fun y =>
    boundary (y.setSplit x.w.slot ((y.split x.w.slot).map (fun q => { q with blk := .none }))))

/-- An instruction issued whose end is awaited: the boundary follows its issue (R140). -/
def awaitEnd (s : State) (x : Iss) (b : Block) : State :=
  let now := (dieOf s (dieOfCore x.w.core)).cycle
  modWarp (noteIssue s x) x.w.core x.w.gslot x.w.wid (fun y => boundary (setSplitBlock now x.w.slot b y))

/-- The PC of the issuing split moved past the instruction. -/
def stepPc (s : State) (w : Who) (words : Nat) : State :=
  modSplit s w (fun x => { x with pc := x.pc + BitVec.ofNat 64 (8 * words), hold := .none, wait := none, blk := .none })

/-- An acquire of scope .die or wider by a split (R397, R408): its core's L1 is invalidated, and its loads are served at home. -/
def acquireWide (s : State) (w : Who) : State := l1Clear (modSplit (synced s w) w (fun q => { q with homeLd := true })) w.core

/-- A warp whose splits have all made such an acquire. -/
def homeLoads (y : Warp) : Warp := { y with splits := y.splits.map (fun o => o.map (fun q => { q with homeLd := true })) }

/-- A split whose wait has ended goes on after its instruction (R164, R376). -/
def wakeSplit (s : State) (w : Who) (words : Nat) : State :=
  let s := stepPc (synced s w) w words
  modWarp s w.core w.gslot w.wid boundary

/-- Whether what a CWAIT or an MWAIT of a group waits for has retired (R348, R361). -/
def waitOver (k : Core) (g : Nat) (w : Wait) : Bool :=
  match w with
  | .cwait ids => k.copies.all (fun q => q.gslot != g || !ids.contains q.id)
  | .mwait ids => k.mq.all (fun q => q.gslot != g || !ids.contains q.id) && k.drains.all (fun q => q.gslot != g || !ids.contains q.id)
  | _ => false

/-- The CWAITs and MWAITs of a group that wait for nothing any more go on (R348, R361). -/
def wakeDone (s : State) (c g : Nat) : State :=
  match groupAt s c g with
  | none => s
  | some k => k.warps.foldl (fun s (w, y) => (List.range 4).foldl (fun s i =>
      match (y.split i).bind (fun q => q.wait) with
      | some q => if waitOver (coreOf s c) g q then wakeSplit s { core := c, gslot := g, wid := w, slot := i } 1 else s
      | none => s) s) s

/-- A speculator that meets a stopping instruction waits there for its phase (R158). -/
def stopSpeculation (s : State) (w : Who) : State :=
  modWarp s w.core w.gslot w.wid (fun y => { y with spec := y.spec.map (fun p => { p with stopped := true }) })

/-- The end of an instruction. A word that traps has been issued (R142). A trap of a speculator stops the speculation instead
(R158). -/
def finish (x : Iss) (words : Nat) (r : Res) : Out :=
  match r with
  | .done s => .next (endIssue (stepPc s x.w words) x)
  | .jump s => .next (endIssue s x)
  | .hold b s => .next (setBlocked s x.w b)
  | .issued b s => .next (awaitEnd s x b)
  | .trap c lanes addr code s =>
    if x.wp.spec.isSome then .next (setBlocked (stopSpeculation s x.w) x.w (.barrier ((x.wp.spec.map (·.bar)).getD 0)))
    else .next (takeTrap (noteIssue s x) x.w c lanes addr code words)

/-- Steps 2 (registers) and 3 of R232, the stops of R158, the guard (R208), the token wait (R218), the full/empty rules
(R66, R67), then the instruction itself. `stops` says that the instruction stops a speculator. -/
def runWord (roles : Roles) (stops : Bool) (words : Nat) (g : Guard) (tw : BitVec 8)
    (ops : Iss → W32 → List Opd) (body : Iss → W32 → State → Res) (s : State) : Out :=
  match issuer s with
  | none => .fault .noIssuer
  | some x =>
    let m := guardMask x g
    let os := ops x m
    let r : Res :=
      if x.isVec && os.any (fun o => o.vregs.any (fun (r, n) => !x.hasRegs r n)) then .trap .illegal x.sp.mask 0 0 s
      else if !roles.allow x then .trap .role x.sp.mask 0 0 s
      else if stops && x.wp.spec.isSome then .hold (.barrier ((x.wp.spec.map (·.bar)).getD 0)) (stopSpeculation s x.w)
      else if (List.range 8).any (fun i => tw.getLsbD i && x.wp.toks.getD i 0 != 0) then .hold .nothing s
      else if m == 0 then .done s
      else
        let bad := os.foldl (fun acc o => if o.traps then acc ||| o.emptyIn x m else acc) 0
        if bad != 0 then .trap .feEmpty bad 0 0 s
        else match os.find? (fun o => !o.traps && o.emptyIn x m != 0) with
          | some o => .hold o.block s
          | none => body x m s
    finish x words r

end Sys2Proof.Machine
end

