-- ==== Sys2Proof/Machine/Special.lean ====
section
/-!
DEFINITION. The special functions of R290, correctly rounded: each is computed on fixed-point integers with 512
fraction bits, far beyond the precision any result of F16, B16 or F32 needs, and rounded once with a sticky bit
(notes/assumptions/6.md). Exact results are returned exactly.
-/
namespace Sys2Proof.Machine

/-- Fraction bits of the fixed-point work. -/
def fxP : Nat := 512

/-- ⌊ln 2 * 2^512⌋. -/
def fxLn2 : Nat := 0xb17217f7d1cf79abc9e3b39803f2f6af40f343267298b62d8a0d175b8baafa2be7b876206debac98559552fb4afa1b10ed2eae35c138214427573b291169b825

/-- ⌊π * 2^512⌋. -/
def fxPi : Nat := 0x3243f6a8885a308d313198a2e03707344a4093822299f31d0082efa98ec4e6c89452821e638d01377be5466cf34e90c6cc0ac29b7c97c50dd3f84d5b5b5470917

/-- Fixed-point product. -/
def fxMul (a b : Nat) : Nat := (a * b) >>> fxP

/-- `Σ y^k / k!` from term `t` (term number `k`) on, with fuel. -/
def fxExpSeries (y : Nat) : Nat → Nat → Nat → Nat
  | 0, _, _ => 0
  | n + 1, k, t => t + fxExpSeries y n (k + 1) (fxMul t y / (k + 1))

/-- e^y for a fixed-point `0 ≤ y < 1`. -/
def fxExp (y : Nat) : Nat := fxExpSeries y 120 0 (2 ^ fxP)

/-- `Σ (-1)^j y^(2j+c) / (2j+c)!` from term `t` with factorial position `k` on, with the terms' signs alternating. -/
def fxAlt (y2 : Nat) : Nat → Nat → Nat → Int
  | 0, _, _ => 0
  | n + 1, k, t => (t : Int) - fxAlt y2 n (k + 2) (fxMul t y2 / ((k + 1) * (k + 2)))

/-- sin y for a fixed-point `0 ≤ y ≤ π/2`. -/
def fxSin (y : Nat) : Nat := (fxAlt (fxMul y y) 70 1 y).toNat

/-- cos y for a fixed-point `0 ≤ y ≤ π/2`. -/
def fxCos (y : Nat) : Nat := (fxAlt (fxMul y y) 70 0 (2 ^ fxP)).toNat

/-- `Σ z^(2k+1) / (2k+1)` from power `t` on. -/
def fxAtanhSeries (z2 : Nat) : Nat → Nat → Nat → Nat
  | 0, _, _ => 0
  | n + 1, k, t => t / k + fxAtanhSeries z2 n (k + 2) (fxMul t z2)

/-- A dyadic magnitude `m * 2^e` in fixed point (truncated). -/
def fxOf (m : Nat) (e : Int) : Nat :=
  if 0 ≤ e + fxP then m <<< (e + fxP).toNat else m >>> (-(e + fxP)).toNat

/-- FRCP (R290). -/
def fRcp (f : Fmt) (r : Rnd) (x : Nat) : Nat :=
  match fDecode f x with
  | .nan s fr => packNan f r.nanp [.nan s fr]
  | .inf s => withSign f s 0
  | .fin s m e =>
    if m = 0 then packInf f r s
    else
      let k := 160 + Nat.log2 m
      roundPack f r s (2 ^ k / m) (-e - k) (2 ^ k % m != 0)

/-- FRSQ (R290). -/
def fRsq (f : Fmt) (r : Rnd) (x : Nat) : Nat :=
  match fDecode f x with
  | .nan s fr => packNan f r.nanp [.nan s fr]
  | .inf s => if s then packNan f r.nanp [] else withSign f false 0
  | .fin s m e =>
    if m = 0 then packInf f r s
    else if s then packNan f r.nanp []
    else
      let odd := e % 2 != 0
      let m2 := if odd then 2 * m else m
      let e2 := if odd then e - 1 else e
      let k := 160 + Nat.log2 m2
      let q := isqrt (2 ^ (2 * k) / m2)
      roundPack f r false q (-(e2 / 2) - k) (q * q * m2 != 2 ^ (2 * k))

/-- The fixed-point magnitude `v` of a result known not to be exact, rounded. -/
def fxRound (f : Fmt) (r : Rnd) (s : Bool) (v : Nat) (scale : Int) : Nat :=
  roundPack f r s v (scale - fxP) true

/-- FEXP2 (R290). -/
def fExp2 (f : Fmt) (r : Rnd) (x : Nat) : Nat :=
  match fDecode f x with
  | .nan s fr => packNan f r.nanp [.nan s fr]
  | .inf s => if s then withSign f false 0 else packInf f r false
  | .fin s m e =>
    if m = 0 then roundPack f r false 1 0 false
    else if 10 ≤ floorLog2 m e then roundPack f r false (2 ^ 64) (if s then -2000 else 2000) true
    else
      let n := if 0 ≤ e then (if s then -((m <<< e.toNat : Nat) : Int) else ((m <<< e.toNat : Nat) : Int))
        else (if s then -((m : Int)) else (m : Int)) / ((2 ^ (-e).toNat : Nat) : Int)
      let fr : Nat := if 0 ≤ e then 0
        else ((if s then -((m : Int)) else (m : Int)) % ((2 ^ (-e).toNat : Nat) : Int)).toNat
      if fr = 0 then roundPack f r false 1 n false
      else fxRound f r false (fxExp (fxMul (fxOf fr e) fxLn2)) n

/-- FLOG2 (R290): log2 of `y * 2^E` with `y` between 3/4 and 3/2. -/
def fLog2 (f : Fmt) (r : Rnd) (x : Nat) : Nat :=
  match fDecode f x with
  | .nan s fr => packNan f r.nanp [.nan s fr]
  | .inf s => if s then packNan f r.nanp [] else packInf f r false
  | .fin s m e =>
    if m = 0 then packInf f r true
    else if s then packNan f r.nanp []
    else
      let l := Nat.log2 m
      let e0 : Int := e + l
      if m = 2 ^ l then roundSigned f r e0 0 false
      else
        let high := 2 * m ≥ 3 * 2 ^ l
        let big : Nat := if high then 2 ^ (l + 1) else 2 ^ l
        let ei : Int := if high then e0 + 1 else e0
        let d : Nat := if high then big - m else m - big
        let z := (d <<< fxP) / (m + big)
        let at_ := fxAtanhSeries (fxMul z z) 130 1 z
        let frac := (((2 * at_) <<< fxP) / fxLn2 : Nat)
        let v : Int := ei * ((2 ^ fxP : Nat) : Int) + (if high then -(frac : Int) else (frac : Int))
        let mag := v.natAbs
        fxRound f r (v < 0) (if v < 0 && !high || v > 0 && high then mag - 1 else mag) 0

/-- sin(π t) of a fixed-point `0 < t < 1` that is no multiple of 1/2. -/
def fxSinPi (t : Nat) : Nat :=
  let half := 2 ^ (fxP - 1)
  let u := if t > half then 2 ^ fxP - t else t
  if u ≤ 2 ^ (fxP - 2) then fxSin (fxMul u fxPi) else fxCos (fxMul (half - u) fxPi)

/-- FSIN and FCOS (R290): sin(π x), or cos(π x) as sin(π (|x| + 1/2)). -/
def fSinPi (f : Fmt) (r : Rnd) (cos : Bool) (x : Nat) : Nat :=
  match fDecode f x with
  | .nan s fr => packNan f r.nanp [.nan s fr]
  | .inf _ => packNan f r.nanp []
  | .fin s m e =>
    if 1 ≤ e then (if cos then roundPack f r false 1 0 false else withSign f s 0)
    else
      let sh := (1 - e).toNat
      let v := (2 * m + (if cos then 2 ^ sh / 2 else 0)) % (2 * 2 ^ sh)
      let neg := (v ≥ 2 ^ sh) != (s && !cos)
      let t := v % 2 ^ sh
      if t = 0 then (if cos then withSign f false 0 else withSign f s 0)
      else if 2 * t = 2 ^ sh then roundPack f r neg 1 0 false
      else fxRound f r neg (fxSinPi ((t <<< fxP) >>> sh)) 0

/-- e^y for a fixed-point `y ≥ 0`, as a fixed-point number with a binary scale. -/
def fxExpBig (y : Nat) : Nat × Nat :=
  let n := y / fxLn2
  (fxExp (y - n * fxLn2), n)

/-- FTANH (R290). -/
def fTanh (f : Fmt) (r : Rnd) (x : Nat) : Nat :=
  match fDecode f x with
  | .nan s fr => packNan f r.nanp [.nan s fr]
  | .inf s => roundPack f r s 1 0 false
  | .fin s m e =>
    if m = 0 then withSign f s 0
    else if floorLog2 m e < -100 then roundPack f r s (m * 2 ^ 160 - 1) (e - 160) true
    else if 6 ≤ floorLog2 m e then roundPack f r s (2 ^ 160 - 1) (-160) true
    else
      let ep := fxExpBig (2 * fxOf m e)
      let big := ep.1 <<< ep.2
      fxRound f r s (((big - 2 ^ fxP) <<< fxP) / (big + 2 ^ fxP)) 0

end Sys2Proof.Machine
end

