-- ==== Sys2Proof/Machine/Operands.lean ====
section
/-!
DEFINITION. Operand forms: the sources and destinations of layouts A, B and I (R210-R215), lane modifiers (R221-R223),
widening into registers (R254, R273), and the shapes that the vector and uniform instructions share.
-/
namespace Sys2Proof.Machine

/-- Registers a value of a type takes (R65). -/
def tyRegs (t : Ty) : Nat := if tyWidth t = 64 then 2 else 1

/-- PERM8's map (R223). -/
def perm8 (p i : Nat) : Nat :=
  let a := match p / 8 with
    | 0 => 1
    | 1 => 7
    | 2 => 3
    | _ => 5
  (a * i + p % 8) % 8

/-- The lane that lane `l` reads under a modifier (R221). -/
def laneSrc (k p l : Nat) : Nat :=
  let b := l / 32 * 32
  let j := l % 32
  match k with
  | 1 => b + (j + p) % 32
  | 2 => b + (31 - j)
  | 3 => b + j / 8 * 8 + perm8 p (j % 8)
  | 4 => b + p
  | 5 => b + (j ^^^ p)
  | 6 => if j + p ≤ 31 then b + j + p else l
  | _ => l

/-- The lane SRCA of layout A reads. -/
def laneA (f : FA) (l : Nat) : Nat := if f.lmt then l else laneSrc f.lmk.toNat f.lmp.toNat l
/-- The lane SRCB of layout A reads. -/
def laneB (f : FA) (l : Nat) : Nat := if f.lmt then laneSrc f.lmk.toNat f.lmp.toNat l else l

/-- A result of a type as it stands in its register or pair (R273). -/
def extV (t : Ty) (v : Nat) : Nat :=
  match t with
  | .i8 => wrapTo 32 (signedOf 8 v)
  | .i16 => wrapTo 32 (signedOf 16 v)
  | t => v % 2 ^ tyWidth t

/-- A result of a type as it stands in an s register (R254). -/
def extS (t : Ty) (v : Nat) : W64 :=
  if tySigned t then BitVec.ofNat 64 (wrapTo 64 (signedOf (tyWidth t) v)) else BitVec.ofNat 64 (v % 2 ^ tyWidth t)

/-- The low bits of a type. -/
def lowT (t : Ty) (v : Nat) : Nat := v % 2 ^ tyWidth t

/-- SRCA of layout A as an operand of `n` registers. -/
def opA (f : FA) (n : Nat) : Opd := .v f.srca.toNat n (laneA f) f.fea
/-- SRCB of layout A as an operand of `n` registers, or a uniform register. -/
def opB (f : FA) (n : Nat) : Opd := if f.u then .u f.srcb.toNat f.feb else .v f.srcb.toNat n (laneB f) f.feb

/-- SRCA of layout A in lane `l`. -/
def valA (f : FA) (x : Iss) (n l : Nat) : Nat := vregN x.wp f.srca.toNat n (laneA f l)
/-- SRCB of layout A in lane `l` (R211). -/
def valB (f : FA) (x : Iss) (n l : Nat) : Nat :=
  if f.u then (sreg x.grp f.srcb.toNat).toNat % 2 ^ (32 * n) else vregN x.wp f.srcb.toNat n (laneB f l)

/-- The value of a 32-bit source: a uniform register gives its low 32 bits. -/
def valB32 (f : FA) (x : Iss) (l : Nat) : Nat := valB f x 1 l

/-- SRCB of layout B as an operand of `n` registers. -/
def opBb (f : FB) (n : Nat) : Opd := if f.u then .u f.srcb.toNat f.feb else .v f.srcb.toNat n id f.feb
/-- SRCB of layout B in lane `l`. -/
def valBb (f : FB) (x : Iss) (n l : Nat) : Nat :=
  if f.u then (sreg x.grp f.srcb.toNat).toNat % 2 ^ (32 * n) else vregN x.wp f.srcb.toNat n l

/-- Rounding of a layout-A float instruction: RND, SAT, and the split's NANP (R32, R34, R36). -/
def rndA (f : FA) (x : Iss) : Rnd := ⟨f.rnd.toNat, f.sat, x.sp.fmt.getLsbD 3⟩
/-- Rounding of a layout-B float instruction. -/
def rndB (f : FB) (x : Iss) : Rnd := ⟨f.rnd.toNat, f.sat, x.sp.fmt.getLsbD 3⟩
/-- Rounding taken from FMT (R33). -/
def fmtRnd (fmt : W32) : Rnd := ⟨fmt.toNat % 4, fmt.getLsbD 2, fmt.getLsbD 3⟩

/-- The token mask of an instruction that has none. -/
def noTok : BitVec 8 := 0

/-- A per-lane result written to a vector destination in the lanes of G (R274). -/
def writeLanes (s : State) (x : Iss) (m : W32) (dst n : Nat) (v : Nat → Nat) : State :=
  onWarp s x (fun y => setVregN y dst n m v)

/-- A vector instruction of two sources in layout A: `na`, `nb`, `nd` registers each. -/
def vecA2 (g : Guard) (f : FA) (na nb nd : Nat) (op : Iss → Nat → Nat → Nat) (s : State) : Out :=
  runWord .vector false 1 g noTok (fun _ _ => [opA f na, opB f nb, .vd f.dst.toNat nd])
    (fun x m s => .done (writeLanes s x m f.dst.toNat nd (fun l => op x (valA f x na l) (valB f x nb l)))) s

/-- A vector instruction whose one source is SRCB (R275). -/
def vecA1 (g : Guard) (f : FA) (nb nd : Nat) (op : Iss → Nat → Nat) (s : State) : Out :=
  runWord .vector false 1 g noTok (fun _ _ => [opB f nb, .vd f.dst.toNat nd])
    (fun x m s => .done (writeLanes s x m f.dst.toNat nd (fun l => op x (valB f x nb l)))) s

/-- A vector instruction whose one source is SRCA (R213). -/
def vecAa (g : Guard) (f : FA) (na nd : Nat) (op : Iss → Nat → Nat) (s : State) : Out :=
  runWord .vector false 1 g noTok (fun _ _ => [opA f na, .vd f.dst.toNat nd])
    (fun x m s => .done (writeLanes s x m f.dst.toNat nd (fun l => op x (valA f x na l)))) s

/-- A vector instruction of three sources in layout B. -/
def vecB3 (g : Guard) (f : FB) (na nb nc nd : Nat) (op : Iss → Nat → Nat → Nat → Nat) (s : State) : Out :=
  runWord .vector false 1 g noTok
    (fun _ _ => [.v f.srca.toNat na id f.fea, opBb f nb, .v f.srcc.toNat nc id f.fec, .vd f.dst.toNat nd])
    (fun x m s => .done (writeLanes s x m f.dst.toNat nd
      (fun l => op x (vregN x.wp f.srca.toNat na l) (valBb f x nb l) (vregN x.wp f.srcc.toNat nc l)))) s

/-- A vector comparison writing a predicate (R282, R289). -/
def vecCmp (g : Guard) (f : FA) (op : Nat → Nat → Bool) (s : State) : Out :=
  let n := tyRegs f.ty
  runWord .vector false 1 g noTok (fun _ _ => [opA f n, opB f n])
    (fun x m s => .done (onWarp s x (fun y => setPred y f.dst.toNat m
      (maskOf ((lanesOf m).filter (fun l => op (valA f x n l) (valB f x n l))))))) s

/-- A uniform register of layout A read at the type's width (R254). -/
def sval (x : Iss) (t : Ty) (r : BitVec 9) : Nat := lowT t (sreg x.grp r.toNat).toNat

/-- A uniform instruction of two sources (R253-R256). -/
def sca2 (g : Guard) (f : FA) (op : Iss → Nat → Nat → Nat) (s : State) : Out :=
  runWord .all false 1 g noTok
    (fun _ _ => [.u f.srca.toNat f.fea, .u f.srcb.toNat f.feb, .ud f.dst.toNat])
    (fun x _ s => .done (onGroup s x (fun k => setSreg k f.dst.toNat
      (extS f.ty (op x (sval x f.ty f.srca) (sval x f.ty f.srcb)))))) s

/-- A uniform instruction of one source (R253-R256). -/
def sca1 (g : Guard) (f : FA) (op : Iss → Nat → Nat) (s : State) : Out :=
  runWord .all false 1 g noTok (fun _ _ => [.u f.srca.toNat f.fea, .ud f.dst.toNat])
    (fun x _ s => .done (onGroup s x (fun k => setSreg k f.dst.toNat
      (extS f.ty (op x (sval x f.ty f.srca)))))) s

/-- An immediate taken by type (R215), as a bit pattern of the type's width. -/
def immOf (t : Ty) (imm : BitVec 24) : Nat :=
  match t with
  | .i8 | .i16 | .i32 | .i64 => wrapTo (tyWidth t) (signedOf 24 imm.toNat)
  | .f32 => imm.toNat * 2 ^ 8
  | .f64 => imm.toNat * 2 ^ 40
  | t => imm.toNat % 2 ^ tyWidth t

end Sys2Proof.Machine
end

