-- ==== Sys2Proof/Machine/MemOps.lean ====
section
/-!
DEFINITION. What the memory instructions share (R303-R312): translating the lanes of an instruction, poison, requests by
128-byte line, tokens, acquires, the group's window, a speculator's buffer and read set, and reads made at once.
-/
namespace Sys2Proof.Machine

/-- How the lanes of an instruction translate (R304 steps 3 and 4). -/
inductive TRes where
  | ok (pas : List (Nat × Nat × TlbEntry)) (s : State)
  | trap (c : Cause) (lanes : W32) (addr kind : Nat) (s : State)
  | wait (s : State)

/-- What is known of one lane's page: its entry, a refusal, a wait, or nothing yet. -/
inductive LaneT where
  | hit (e : TlbEntry)
  | refuse
  | lost
  | page
  | unknown
  deriving DecidableEq, Repr

/-- One lane's page looked up in the TLB and among the answers of the role's walks (R186, R187). -/
def laneLookup (s : State) (x : Iss) (pasid kind va : Nat) : LaneT :=
  match tlbFind (coreOf s x.w.core) pasid va with
  | some e => if e.allows s kind va then .hit e else .refuse
  | none =>
    match (dieOf s x.die).walks.find? (fun k => k.pasid == pasid && k.page == va / 4096 && k.who == x.w) with
    | some k => match k.res with
      | some .protection => .refuse
      | some .lost => .lost
      | some .wait => .page
      | _ => .unknown
    | none => .unknown

/-- The answered walks of a role dropped. -/
def dropWalks (s : State) (x : Iss) : State :=
  modDie s x.die (fun d => { d with walks := d.walks.filter (fun k => !(k.who == x.w && k.res.isSome)) })

/-- A walk opened for a page: it joins the one that is open for its page, else takes one of the unit's 256 walkers, if one is free
(R187). -/
def openWalk (s : State) (x : Iss) (pasid kind path : Nat) (restart : Bool) (accs : List (Nat × Nat)) (va : Nat) : State :=
  let d := dieOf s x.die
  let page := va / 4096
  let open_ := distinct ((d.walks.filter (fun k => k.res.isNone)).map (fun k => (k.pasid, k.page)))
  if d.walks.any (fun k => k.pasid == pasid && k.page == page && k.who == x.w && k.res != some .fill) ||
      (!open_.contains (pasid, page) && open_.length ≥ 256) then s
  else
    let (id, s) := freshId s
    let k : Walk := {
      id := id
      pasid := pasid
      page := page
      kind := kind
      path := path
      who := x.w
      launch := x.grp.launch
      accs := accs
      restart := restart
      res := none }
    modDie s x.die (fun d => { d with walks := d.walks.filter (fun q => !(q.pasid == pasid && q.page == k.page && q.who == x.w)) ++ [k] })

/-- The lanes of a list as a mask, and the address of the lowest. -/
def blame (l : List (Nat × Nat)) : W32 × Nat := (maskOf (l.map (·.1)), (l.map (·.2)).headD 0)

/-- Every lane's address translated (R304 steps 3, 4; R187's order of outcomes). `restart` says that a page wait ends at
the region's entry (R190). -/
def translateLanes (s : State) (x : Iss) (kind path : Nat) (restart : Bool) (accs : List (Nat × Nat)) : TRes :=
  let pasid := (ctxOf s x.grp.ctx).pasid
  let out := accs.filter (fun a => !userVa a.2)
  if !out.isEmpty then .trap .pageProtection (blame out).1 (blame out).2 kind s
  else
    let rs := accs.map (fun a => (a, laneLookup s x pasid kind a.2))
    let unknown := rs.filter (fun r => r.2 == .unknown)
    if !unknown.isEmpty then
      .wait (unknown.foldl (fun s r => openWalk s x pasid kind path restart accs r.1.2) s)
    else
      let s := dropWalks s x
      let pick := fun (k : LaneT) => (rs.filter (fun r => r.2 == k)).map (·.1)
      if !(pick .lost).isEmpty then .trap .pageLost (blame (pick .lost)).1 (blame (pick .lost)).2 kind s
      else if !(pick .refuse).isEmpty then .trap .pageProtection (blame (pick .refuse)).1 (blame (pick .refuse)).2 kind s
      else if !(pick .page).isEmpty then
        let pages := distinct ((pick .page).map (fun a => a.2 / 4096))
        .wait (onWarp s x (fun y => { y with run := .pageWait pasid pages x.w.slot restart kind accs }))
      else
        .ok (rs.filterMap (fun r => match r.2 with
          | .hit e => some (r.1.1, e.phys r.1.2, e)
          | _ => none)) s

/-- The translation of an instruction's lanes, then `k`; a trap or a wait ends the instruction. -/
def withTranslation (s : State) (x : Iss) (kind path : Nat) (restart : Bool) (accs : List (Nat × Nat))
    (k : List (Nat × Nat × TlbEntry) → State → Res) : Res :=
  match translateLanes s x kind path restart accs with
  | .ok pas s => k pas s
  | .trap c lanes addr kind s => .trap c lanes addr kind s
  | .wait s => .hold .nothing s

/-- ALIGN (R53), before translation: the lanes whose address is not a multiple of the width. -/
def misaligned (w : Nat) (accs : List (Nat × Nat)) : List (Nat × Nat) := accs.filter (fun a => a.2 % w != 0)

/-- The lanes of an access that find a poisoned line (R304): any lane of a load, a sync access or an atomic; a lane of a
plain store unless the lanes of its line together write all of it. -/
def poisoned (s : State) (store : Bool) (w : Nat) (pas : List (Nat × Nat)) : List (Nat × Nat) :=
  pas.filter (fun a => isPoisoned s (lineOf a.2) &&
    !(store && (List.range 128).all (fun i => pas.any (fun b => b.2 ≤ lineOf a.2 * 128 + i && lineOf a.2 * 128 + i < b.2 + w))))

/-- A POISON trap of the issuer on some lines (R304): it waits while a store of its core that may clear their marks is on its
way, as a load takes the newest queued bytes (R396). -/
def poisonTrap (s : State) (lines : List Nat) (lanes : W32) (addr : Nat) : Res :=
  if s.inflight.any (fun r => r.isStore && r.who.core == s.cur.core && lines.any (fun l => r.onLine l)) then .hold .nothing s
  else .trap .poison lanes addr 0 s

/-- The acquires of the issuing split that have not returned (R312). -/
def pendingAcqs (s : State) (x : Iss) : List Nat := x.sp.acqs.filter (fun i => s.outstanding i)

/-- The token an instruction sets (R216). -/
def tokOf (tse : Bool) (slot : BitVec 3) : Option Nat := if tse then some slot.toNat else none

/-- The lines of a list of lane accesses in the order of the lanes (R305). -/
def lineGroups (accs : List LaneAcc) : List (List LaneAcc) :=
  (distinct (accs.map (fun a => lineOf a.pa))).map (fun l => accs.filter (fun a => lineOf a.pa == l))

/-- The requests of an instruction sent, one for each line (R305), with their token (R218) and the acquires they come
after (R312): the numbers given to them, with the lanes of each. `chain` says that each is performed after the one before it (R322,
R323); `sys` tells a system-atomic address (R71). -/
def sendReqs (s : State) (x : Iss) (kind : ReqKind) (w scope ord : Nat) (tok : Option Nat) (l1ok sync : Bool)
    (groups : List (List LaneAcc)) (chain : Bool := false) (sys : Nat → Bool := fun _ => false) : List (Nat × W32) × State :=
  let after := pendingAcqs s x
  groups.foldl (fun (ids, s) g =>
    let (id, s) := freshId s
    let prev := if chain then ids.getLast?.map (·.1) else none
    let r : Req := {
      id := id
      kind := kind
      who := x.w
      w := w
      lanes := g
      tok := tok
      scope := scope
      ord := ord
      after := after
      l1ok := l1ok
      sync := sync
      fmt := x.sp.fmt
      prev := prev
      sysat := g.any (fun l => sys l.pa)
      fenced := x.wp.relFence }
    (ids ++ [(id, maskOf (g.map (·.lane)))], addToken { s with inflight := s.inflight ++ [r] } x.w tok 1)) ([], s)

/-- Acquires of a scope remembered in the issuing split (R312, R408). -/
def addAcqs (s : State) (x : Iss) (ids : List (Nat × W32)) (scope : Nat) : State :=
  onSplit (synced s x.w) x (fun p => { p with
    acqs := p.acqs.filter (fun i => s.outstanding i) ++ ids.map (·.1)
    homeLd := p.homeLd || scope ≥ 3 })

/-- The lines a role has written since its last arrival (R157). -/
def noteWrites (s : State) (w : Who) (lines : List Nat) : State :=
  modWarp s w.core w.gslot w.wid (fun y => { y with wrote := y.wrote ++ lines.filter (fun l => !y.wrote.contains l) })

/-- The byte core `c` sees at an address at once: the newest in its write queue `q`, its L1's where `l1ok` (R58), the
home's. -/
def coreByte (s : State) (q : List Req) (c : Nat) (l1ok : Bool) (pa : Nat) : Byte :=
  match queuedByte q pa with
  | some b => b
  | none => match (if l1ok then l1Line s c (lineOf pa) else none) with
    | some l => l.getD (pa % 128) 0
    | none => memGet s.mem pa

/-- A read of `n` bytes by core `c` at once. -/
def coreRead (s : State) (c : Nat) (l1ok : Bool) (pa n : Nat) : Nat :=
  let q := writeQueue s c
  ofBytesLE ((List.range n).map (fun i => coreByte s q c l1ok (pa + i)))

/-- Whether the L1 may hold an address under an entry (R18, R58, R182). -/
def l1able (pa : Nat) (e : TlbEntry) : Bool := !inSram pa && !e.nc

/-- The stores of a core's write queue `q` whose bytes a read of some ranges takes, remembered with the request number the core
has come to: what the core does at a home from then on comes after them (R408). -/
def noteObs (s : State) (c : Nat) (q : List Req) (rs : List (Nat × Nat)) : State :=
  let ids := (q.filter (fun r => r.ranges.any (fun (p, n) => rs.any (fun (a, m) => overlaps p n a m)))).map (·.id)
  if ids.isEmpty then s
  else modCore s c (fun k => { k with
    obs := k.obs.filter (fun e => s.inflight.any (fun r => r.id == e.1)) ++ ids.map (fun i => (i, s.nextId)) })

/-- Whether what core `c` has read from its write queue before it gave out number `id` has been performed (R408). -/
def obsClear (s : State) (c id : Nat) : Bool :=
  (coreOf s c).obs.all (fun e => id < e.2 || s.inflight.all (fun r => r.id != e.1))

/-! ### When a home serves a request -/

/-- The write queue that a read looks into (R396). -/
def Req.queue (r : Req) (s : State) : List Req := if r.queueServed then writeQueue s r.who.core else []

/-- Whether a request is served at a home (R408): all but a read that its core's write queue gives whole, or that the L1 may give. -/
def Req.atHome (r : Req) (s : State) : Bool :=
  !r.queueServed || (!r.l1ok && r.reads.any (fun (a, n) => (List.range n).any (fun i => (queuedByte (r.queue s) (a + i)).isNone)))

/-- Whether a home may serve a request now: what it must come after has returned or been performed (R69, R307, R312, R396,
R408). A read that the write queue serves comes after its own warp's stores once these have entered the queue. -/
def eligible (s : State) (r : Req) : Bool :=
  r.after.all (fun i => !s.outstanding i) &&
  (match r.prev with
   | some i => s.inflight.all (fun q => q.id != i)
   | none => true) &&
  (earlierOfWarp s r).all (fun q => !q.meets r || (r.queueServed && q.isStore && q.entered s)) &&
  (!(r.isStore || r.releases) || r.entered s) &&
  (r.isMatrix || !r.atHome s || obsClear s r.who.core r.id) &&
  (if r.isStore then s.inflight.all (fun q => !(q.isStore && q.id < r.id && q.who.core == r.who.core && q.meets r && q.entered s))
   else if r.queueServed then true
   else (writeQueue s r.who.core).all (fun q => !r.lines.any (fun l => q.onLine l)))

/-- The promotion records of the writes that a request reads (R402): those at home of the bytes it takes there, those that came
with the line of the bytes its L1 gives. -/
def readRecs (s : State) (r : Req) : List (Nat × Nat) :=
  let q := if r.queueServed then writeQueue s r.who.core else []
  let k := coreOf s r.who.core
  distinct (r.reads.flatMap (fun (a, n) => (List.range n).flatMap (fun i =>
    if (queuedByte q (a + i)).isSome then []
    else if r.queueServed && r.l1ok && (mapFind k.l1 (lineOf (a + i))).isSome then mapGet k.l1rec (a + i) []
    else mapGet s.promo (a + i) [])))

/-- The records of the home lines that a request reads (R410). -/
def lineRecs (s : State) (r : Req) : List (Nat × Nat) :=
  distinct (r.reads.flatMap (fun (a, n) => (linesOf a n).filterMap (fun l => mapFind s.lineRec l)))

/-- What an acquire does before it returns (R312, R397, R402, R410): at .dev and .sys the core-scope releases of other cores that it
reads, and those that the lines' records name, are promoted; at .die and wider the issuing core's L1 is invalidated. Any other sync
read remembers those it reads whose writes are still queued, for a FENCE that makes it such an acquire (R401). -/
def acquireAt (s : State) (r : Req) : State :=
  let due := fun (l : List (Nat × Nat)) => l.filter (fun e => e.1 != r.who.core && recordOpen s e)
  let acq := r.ord % 2 == 1
  let s :=
    if acq && r.scope ≥ 4 then (due (readRecs s r ++ lineRecs s r)).foldl (fun s (c, id) => drainTo s c id) s
    else
      let read := due (readRecs s r)
      if r.sync && !r.isStore && !read.isEmpty then
        modWarp s r.who.core r.who.gslot r.who.wid (fun y => { y with seen := distinct (y.seen ++ read) })
      else s
  if acq && r.scope ≥ 3 then l1Clear s r.who.core else s

/-- The byte a load takes (R58, R69, R396): the newest in its core's write queue `q`, its L1's, or the home's; of the words `olds` it
takes in its place what path V may still see. -/
def loadByte (s : State) (r : Req) (q : List Req) (olds : List Nat) (pa : Nat) : Byte :=
  match queuedByte q pa with
  | some b => b
  | none => match (if r.queueServed && r.l1ok then l1Line s r.who.core (lineOf pa) else none) with
    | some l => l.getD (pa % 128) 0
    | none => if olds.contains (pa / 8) then staleByte s 0 none pa else memGet s.mem pa

/-- The values of a load's lanes, the bytes of a speculator's buffer `buf` before those of memory (R156). -/
def loadVals (s : State) (r : Req) (buf : SMap Byte) (olds : List Nat) : List (Nat × Nat) :=
  let q := r.queue s
  r.lanes.map (fun l => (l.lane, ofBytesLE ((List.range r.w).map (fun i => mapGet buf (l.pa + i) (loadByte s r q olds (l.pa + i))))))

/-- The bytes of a read's words that it takes as they are at home. -/
def newReads (r : Req) (olds : List Nat) : List (Nat × Nat) :=
  (distinct (r.reads.flatMap (fun (a, n) => wordsOf a n))).filterMap (fun w => if olds.contains w then none else some (8 * w, 8))

/-- The request that a read made at once stands for (R156, R264): it is never in flight. -/
def nowReq (s : State) (x : Iss) (w scope ord : Nat) (l1ok sync : Bool) (pas : List (Nat × Nat)) : Req where
  id := s.nextId
  kind := .load
  who := x.w
  w := w
  lanes := pas.map (fun (l, pa) => { lane := l, pa := pa, v := 0 })
  tok := none
  scope := scope
  ord := ord
  after := pendingAcqs s x
  l1ok := l1ok
  sync := sync
  fmt := x.sp.fmt

/-- What a read made at once leaves: what it saw in the write queue (R408), what a FENCE may have to promote (R401), and no older copy
of the lines it took from their homes (R404). -/
def readNow (s : State) (r : Req) : State :=
  let s := sawHome (noteObs (acquireAt s r) r.who.core (r.queue s) r.reads) r.reads
  if r.l1ok then s else r.lines.foldl (fun s l => l1Drop s r.who.core l) s

/-- Whether a store of the core that has not entered its write queue touches a line (R411). -/
def notEntered (s : State) (c : Nat) (lines : List Nat) : Bool :=
  s.inflight.any (fun r => r.isStore && r.who.core == c && !r.entered s && lines.any (fun l => r.onLine l))

/-- The lines of a list of reads that are not served wholly from the buffer (R156). -/
def specLines (p : Spec) (n : Nat) (pas : List Nat) : List Nat :=
  distinct ((pas.filter (fun pa => (List.range n).any (fun i => (mapFind p.buf (pa + i)).isNone))).map lineOf)

/-- The read set of a speculator with lines added, or none when a 65th is needed (R156, R158). -/
def specReadSet (p : Spec) (lines : List Nat) : Option Spec :=
  let reads := distinct (p.reads ++ lines)
  if reads.length ≤ 64 then some { p with reads := reads } else none

/-- The lines that some writes together cover whole (R304). -/
def coveredLines (ws : List (Nat × List Byte)) : List Nat :=
  (distinct (ws.map (fun e => lineOf e.1))).filter (fun line => (List.range 128).all (fun i =>
    ws.any (fun (pa, bs) => pa ≤ line * 128 + i && line * 128 + i < pa + bs.length)))

/-- The buffer of a speculator with a store added, which counts in its token once for each line (R218, R305), or none when a 33rd
line is needed (R156, R158). -/
def specStore (p : Spec) (tok : Option Nat) (ws : List (Nat × List Byte)) : Option Spec :=
  let buf := ws.foldl (fun b (pa, bs) => (List.range bs.length).foldl (fun b i => mapSet b (pa + i) (bs.getD i 0)) b) p.buf
  let n := (distinct (ws.map (fun e => lineOf e.1))).length
  if (distinct (buf.map (fun e => lineOf e.1))).length ≤ 32 then some { p with
    buf := buf
    toks := p.toks ++ (tok.map (fun k => List.replicate n k)).getD []
    clears := p.clears ++ (coveredLines ws).filter (fun l => !p.clears.contains l) }
  else none

/-- A speculator that must stop waits for its phase (R158). -/
def specStop (s : State) (x : Iss) : Res :=
  .hold (.barrier ((x.wp.spec.map (·.bar)).getD 0)) (stopSpeculation s x.w)

/-- Whether a speculator's read waits (R69, R396, R411): as any read does, or for a store of the core to its lines to enter the write
queue, so that a store that enters later finds the line in the read set. -/
def specWaits (s : State) (r : Req) : Bool := !eligible s r || notEntered s r.who.core r.lines

/-- The physical address of a window offset of a group (R60, R61). -/
def windowPa (g : Group) (off : Nat) : Nat := g.sbase + off

/-- What a speculator's store adds to its warp: the buffer, and the token its requests count in (R156, R218). -/
def specBuffer (p p' : Spec) (y : Warp) : Warp :=
  (p'.toks.drop p.toks.length).foldl (fun y k => countToken k 1 y) { y with spec := some p' }

/-- Whether a copy of the group holds a window range that stops an access (R70): any range it writes, and for a store any
range it reads. -/
def scoreboardHit (s : State) (x : Iss) (store : Bool) (n : Nat) (offs : List Nat) : Bool :=
  (coreOf s x.w.core).copies.any (fun c => c.gslot == x.w.gslot &&
    c.entries.any (fun (wr, b, len) => (wr || store) && offs.any (fun o => overlaps o n b len)))

/-- A release to memory made by an instruction that is not a store: whether every earlier access of its warp on path V has been
performed at the scope, a store below .die when it has entered the write queue, and at .die or wider every write queued on its core
(R374, R396). -/
def releasedAt (s : State) (x : Iss) (scope : Nat) : Bool :=
  if scope < 3 then s.inflight.all (fun r => !sameWarp r.who x.w || (r.isStore && r.entered s))
  else s.inflight.all (fun r => !sameWarp r.who x.w && !(r.isStore && r.who.core == x.w.core))

end Sys2Proof.Machine
end

