-- ==== Sys2Proof/Machine/BarOps.lean ====
section
/-!
DEFINITION. Group barriers: arrival, completion, speculation, squash, commit (R152-R159, R365), and what a role's exit
does (R151, R154, R266).
-/
namespace Sys2Proof.Machine

/-- The roles of a group that have not exited (R152). -/
def liveRoles (g : Group) : Nat := (g.warps.filter (fun (_, y) => y.run != .exited)).length

/-- The roles a group was launched with (R364). -/
def launchedRoles (t : Template) : Nat := t.vwarps + 1 + t.cwarps + (if t.mthread then 1 else 0)

/-- Barrier `b` of a group. -/
def barOf (g : Group) (b : Nat) : Bar := mapGet g.bars b Bar.reset

/-- A barrier's state replaced. -/
def setBar (s : State) (c g b : Nat) (v : Bar) : State := modGroup s c g (fun k => { k with bars := mapSet k.bars b v })

/-- A held split moved past the barrier it is held at. -/
def passBar (b : Nat) (n : Nat) (x : Split) : Split :=
  match x.hold with
  | .bar b' _ _ _ => if b' == b then { x with pc := x.pc + BitVec.ofNat 64 (8 * n), hold := .none, blk := .none } else x
  | _ => x

/-- The PCs at which some splits are held at barrier `b`. -/
def barPcs (b : Nat) (splits : List (Option Split)) : List W64 :=
  (splits.filterMap id).filterMap (fun x => match x.hold with
    | .bar b' _ _ _ => if b' == b then some x.pc else none
    | _ => none)

/-- A wait-list entry that stands with splits held at a barrier moved past it. -/
def passEntry (pcs : List W64) (n : Nat) (e : WaitEntry) : WaitEntry :=
  if pcs.contains e.sp.pc then { e with sp := { e.sp with pc := e.sp.pc + BitVec.ofNat 64 (8 * n), hold := .none } } else e

/-- A warp all of whose splits and entries stand at barrier `b` moved past it by `n` words. -/
def warpPast (y : Warp) (b n : Nat) : Warp :=
  let up := passEntry (barPcs b y.splits) n
  boundary { y with
    splits := y.splits.map (fun o => o.map (passBar b n))
    wlist := y.wlist.map up
    spilled := y.spilled.map up }

/-- What is set aside while a role's handler runs, with a role parked at barrier `b` moved past it (R89, R154). -/
def asidePast (b : Nat) (a : Aside) : Aside :=
  if a.parked.elim false (fun p => p.1 == b) then
    let up := passEntry (barPcs b a.splits) 1
    { a with
      parked := none
      splits := a.splits.map (fun o => o.map (passBar b 1))
      wlist := a.wlist.map up
      spilled := a.spilled.map up }
  else a

/-- The REGION that follows BARSPEC, done for every split of a warp that becomes a speculator (R155): each stands after
it, with its counter advanced and its entry PC there. -/
def warpSpeculates (y : Warp) (b ph : Nat) : Warp :=
  let y := warpPast y b 2
  let enter := fun (x : Split) => { x with ctr := x.ctr + 1, entry := x.pc }
  { y with
    splits := y.splits.map (fun o => o.map enter)
    wlist := y.wlist.map (fun e => { e with sp := enter e.sp })
    spilled := y.spilled.map (fun e => { e with sp := enter e.sp })
    spec := some { bar := b, ph := ph, buf := [], reads := [], stopped := false } }

/-- The buffered bytes of a speculator written to their homes (R159), after what its core's write queue holds for their
lines, and counted among the warp's writes; a line that one of its stores covers whole loses its poison mark (R304), and the
stores are counted out of their tokens (R218). -/
def commitBuf (s : State) (c g w : Nat) (p : Spec) : State :=
  let who : Who := { core := c, gslot := g, wid := w, slot := 0 }
  let lines := distinct (p.buf.map (fun e => lineOf e.1))
  let s := drainLines s c lines
  let s := { s with poison := s.poison.filter (fun l => !p.clears.contains l) }
  let promo := (warpAt s c g w).bind (fun y => if y.relFence then some (c, s.nextId) else none)
  let m := s.mem
  let s := p.buf.foldl (fun s (a, b) => l1Update (homeWrite s a [b] false promo) c a [b]) s
  let s := p.buf.foldl (fun s (a, _) => noteOldV s m who s.nextId a 1) s
  let s := modWarp s c g w (fun y => p.toks.foldl (fun y k => countToken k (-1) y) y)
  noteWrites s who lines

/-- Whether a copy of the group holds a window range that a buffered store falls in (R70): the store then stalls. -/
def commitStalls (s : State) (c g : Nat) (p : Spec) : Bool :=
  match groupAt s c g with
  | none => false
  | some k => (coreOf s c).copies.any (fun q => q.gslot == g && q.entries.any (fun (_, b, len) =>
      p.buf.any (fun (a, _) => k.sbase ≤ a && a < k.sbase + k.tmpl.sramsz && overlaps (a - k.sbase) 1 b len)))

/-- The commit of a speculator whose phase has completed (R159): it waits while a store of it stalls (R70). -/
def commit (s : State) (c g w : Nat) (p : Spec) : State :=
  if commitStalls s c g p then
    modWarp s c g w (fun y => { y with spec := some { p with stopped := true, reads := [], due := true } })
  else commitBuf (modWarp s c g w (fun y => { y with spec := none })) c g w p

/-- Completion of a phase (R154): the phase counts on, parked roles are released, those among them whose handler runs, and no speculator
is squashed any more; then what the speculators had buffered is performed, as if it had been issued now (R159, R411), and they go on as
ordinary warps. -/
def completePhase (s : State) (c g b : Nat) : State :=
  match groupAt s c g with
  | none => s
  | some k =>
    let q := barOf k b
    let s := setBar s c g b { ph := (q.ph + 1) % 2 ^ 16, a := 0, e := 0, zero := false, arrived := [] }
    let s := k.warps.foldl (fun s (w, _) => modWarp s c g w (fun y => { y with aside := y.aside.map (asidePast b) })) s
    let s := k.warps.foldl (fun s (w, y) =>
      match y.parked, y.spec with
      | some (b', _), _ => if b' == b then modWarp s c g w (fun y => { warpPast y b 1 with parked := none }) else s
      | none, some p => if p.bar == b then modWarp s c g w (fun y => { y with spec := y.spec.map (fun p => { p with reads := [] }) }) else s
      | none, none => s) s
    (byRank (k.warps.map (fun e => e.1))).foldl (fun s w =>
      match (mapFind k.warps w).bind (fun y => if y.parked.isSome then none else y.spec) with
      | some p => if p.bar == b && !p.due then commit s c g w p else s
      | none => s) s

/-- Whether a barrier is full: A = E, or every role that has not exited when the count is 0 (R152, R154). -/
def barFull (g : Group) (q : Bar) : Bool := q.a != 0 && q.a == (if q.zero then liveRoles g else q.e)

/-- The speculators of a group compared with the lines a role wrote since its previous arrival (R157). -/
def squashBy (s : State) (c g : Nat) (lines : List Nat) : State :=
  let now := (dieOf s (dieOfCore c)).cycle
  modGroup s c g (fun k => { k with warps := k.warps.map (fun (w, y) =>
    (w, match y.spec with
      | some p => if p.reads.any (fun l => lines.contains l) then rollback now y else y
      | none => y)) })

/-- The arrival of role `w` at barrier `b` takes effect (R153, R154, R155, R157). -/
def arrive (s : State) (c g w b count : Nat) (spec : Bool) : State :=
  match groupAt s c g, warpAt s c g w with
  | some _, some y =>
    let s := squashBy (synced s { core := c, gslot := g, wid := w, slot := 0 }) c g y.wrote
    let s := modWarp s c g w (fun y => { y with wrote := [] })
    match groupAt s c g with
    | none => s
    | some k =>
      let q := barOf k b
      let q := if q.a = 0 then { q with e := count, zero := count == 0 } else q
      let q := { q with a := q.a + 1, arrived := q.arrived ++ [w] }
      let s := setBar s c g b q
      let parked := fun (s : State) => modWarp s c g w (fun y =>
        { y with parked := some (b, q.ph), blockedAt := (dieOf s (dieOfCore c)).cycle })
      if barFull k q then completePhase (parked s) c g b
      else if spec then modWarp s c g w (fun y => warpSpeculates y b q.ph)
      else parked s
  | _, _ => s

/-- Barriers with count 0 that an exit completes (R154). -/
def exitCompletes (s : State) (c g : Nat) : State :=
  (List.range 16).foldl (fun s b => match groupAt s c g with
    | some k => if (barOf k b).zero && barFull k (barOf k b) then completePhase s c g b else s
    | none => s) s

/-- The register block of an exited warp let go once nothing is outstanding into it, and its KiB returned (R151, R266). -/
def freeWarp (s : State) (c g w : Nat) : State :=
  match groupAt s c g, warpAt s c g w with
  | some k, some y =>
    if y.run == .exited && !y.freed && y.prods.isEmpty then
      let s := modWarp s c g w (fun y => { y with freed := true, vregs := [] })
      if w < 32 then giveBack s k.ctx k.launch k.gidx k.region { reg := regGranules k.tmpl * 4 } else s
    else s
  | _, _ => s

/-- A warp with no lane left has exited (R137, R266): its registers are let go, barriers of count 0 may complete (R154), and the
last exit makes the group RETIRING (R150). -/
def checkExit (s : State) (c g w : Nat) : State :=
  match groupAt s c g, warpAt s c g w with
  | some _, some y =>
    if y.run == .run && y.splits.all (fun o => o.isNone) && y.wlist.isEmpty && y.spilled.isEmpty then
      let s := freeWarp (modWarp s c g w (fun y => { y with run := .exited, halted := false, vregs := [] })) c g w
      let s := exitCompletes s c g
      modGroup s c g (fun k => if liveRoles k = 0 then { k with retiring := true } else k)
    else s
  | _, _ => s

end Sys2Proof.Machine
end

