-- ==== Sys2Proof/Machine/Control.lean ====
section
/-!
DEFINITION. Control transfers, JOIN, EXIT, NOP, YIELD, REGION, FMT, status and logging (R261-R272).
-/
namespace Sys2Proof.Machine

/-- A word whose encoding check depends on the issuing role: ILLEGAL comes before the role and the guard (R232). -/
def runWordIf (bad : Iss → Bool) (roles : Roles) (stops : Bool) (g : Guard)
    (ops : Iss → W32 → List Opd) (body : Iss → W32 → State → Res) (s : State) : Out :=
  match issuer s with
  | none => .fault .noIssuer
  | some x => if bad x then finish x 1 (.trap .illegal x.sp.mask 0 0 s) else runWord roles stops 1 g noTok ops body s

/-- The target of layout J's OFF (R219). -/
def targetOf (pc : W64) (off : BitVec 26) : W64 := pc + 8 + (off.signExtend 64 <<< 3)

/-- The lanes of the issuing split placed at their next PCs, lowest first (R139, R261): `nx` gives a lane's next PC. -/
def placeLanes (s : State) (x : Iss) (nx : Nat → W64) : State :=
  let ls := if x.isVec then lanesOf x.sp.mask else [0]
  let pcs := sortBy (fun a b => decide (a ≤ b)) (distinct (ls.map nx))
  let at_ := fun (p : W64) => maskOf (ls.filter (fun l => nx l == p))
  match pcs with
  | [] => s
  | p :: r => onWarp s x (fun y =>
    let y := y.setSplit x.w.slot ((y.split x.w.slot).map (fun q => { q with pc := p, mask := at_ p, hold := .none, blk := .none }))
    r.foldl (fun y p => placeSplit y { x.sp with pc := p, mask := at_ p, hold := .none, wait := none, blk := .none }) y)

/-- A transfer of the moving lanes to per-lane targets (R261). -/
def transfer (s : State) (x : Iss) (moving : W32) (t : Nat → W64) : State :=
  placeLanes s x (fun l => if inMask moving l then t l else x.sp.pc + 8)

/-- The targets that R262 refuses: misaligned ones trap ALIGN, non-canonical or firmware ones PAGE_PROTECTION. -/
def checkTargets (s : State) (ts : List (Nat × W64)) (k : State → Res) : Res :=
  let mis := ts.filter (fun t => t.2.toNat % 8 != 0)
  let out := ts.filter (fun t => !userVa t.2.toNat)
  if !mis.isEmpty then .trap .align (maskOf (mis.map (·.1))) ((mis.map (·.2.toNat)).headD 0) 0 s
  else if !out.isEmpty then .trap .pageProtection (maskOf (out.map (·.1))) ((out.map (·.2.toNat)).headD 0) 3 s
  else k s

/-- BRA (R261). -/
def execBra (g : Guard) (f : FJ) (s : State) : Out :=
  runWord .all false 1 g noTok (fun _ _ => [])
    (fun x m s => .jump (transfer s x m (fun _ => targetOf x.sp.pc f.off))) s

/-- BRC (R261). -/
def execBrc (g : Guard) (f : FJ) (s : State) : Out :=
  runWord .all false 1 g noTok (fun _ _ => [])
    (fun x m s =>
      let go := condOf x.wp f.creg.toNat != f.cneg
      .jump (transfer s x (if go then m else 0) (fun _ => targetOf x.sp.pc f.off))) s

/-- BRV (R261). -/
def execBrv (g : Guard) (f : FJ) (s : State) : Out :=
  runWord .vector false 1 g noTok (fun _ _ => [])
    (fun x m s =>
      let p := predOf x.wp f.pred.toNat
      .jump (transfer s x (m &&& (if f.pneg then ~~~p else p)) (fun _ => targetOf x.sp.pc f.off))) s

/-- Whether the link register of CALL and RET is out of R209's bounds for the issuing role (R255). -/
def badLink (r : BitVec 9) (x : Iss) : Bool := if x.isVec then r.toNat % 2 != 0 else r.toNat ≥ 256

/-- CALL (R261): the link of each moving lane is PC + 8. -/
def execCall (g : Guard) (f : FJ) (s : State) : Out :=
  let r := f.reg.toNat
  runWordIf (badLink f.reg) .all false g
    (fun x _ => if x.isVec then [.vd r 2] else [.ud r])
    (fun x m s =>
      let link := x.sp.pc + 8
      let s := if x.isVec then writeLanes s x m r 2 (fun _ => link.toNat) else onGroup s x (fun k => setSreg k r link)
      .jump (transfer s x m (fun _ => targetOf x.sp.pc f.off))) s

/-- RET (R261, R262). -/
def execRet (g : Guard) (f : FJ) (s : State) : Out :=
  let r := f.reg.toNat
  runWordIf (badLink f.reg) .all false g
    (fun x _ => if x.isVec then [.v r 2 id false] else [.u r false])
    (fun x m s =>
      let t := fun (l : Nat) => if x.isVec then BitVec.ofNat 64 (vregN x.wp r 2 l) else sreg x.grp r
      checkTargets s ((lanesOf m).map (fun l => (l, t l))) (fun s => .jump (transfer s x m t))) s

/-- BRX (R262, R264): the table is read on path V; a page wait ends with the BRX issued again (R264). -/
def execBrx (g : Guard) (f : FJ) (s : State) : Out :=
  let r := f.reg.toNat
  runWord .vector false 1 g noTok (fun _ _ => [.v r 1 id false])
    (fun x m s =>
      let base := (targetOf x.sp.pc f.off).toNat
      let idx := fun (l : Nat) => (vreg x.wp r l).toNat
      let ls := lanesOf m
      let above := ls.filter (fun l => idx l > f.len.toNat)
      if !above.isEmpty then .trap .bounds (maskOf above) 0 0 s
      else
        let accs := ls.map (fun l => (l, (base + 8 * idx l) % 2 ^ 64))
        withTranslation s x 0 0 false accs (fun pas s =>
          let ps := pas.map (fun p => (p.1, p.2.1))
          let bad := poisoned s false 8 ps
          if !bad.isEmpty then
            poisonTrap s (bad.map (fun q => lineOf q.2)) (maskOf (bad.map (·.1)))
              ((accs.filter (fun a => bad.any (fun b => b.1 == a.1))).map (·.2) |>.headD 0)
          else
            let q := nowReq s x 8 0 0 (pas.all (fun p => l1able p.2.1 p.2.2) && !x.sp.homeLd) false ps
            if !eligible s q || (x.wp.spec.isSome && specWaits s q) then .hold .nothing s
            else
              let go := fun (s : State) (vals : List (Nat × Nat)) =>
                let t := vals.map (fun (l, v) => (l, BitVec.ofNat 64 base + BitVec.ofNat 64 v))
                checkTargets (readNow s q) t (fun s => .jump (transfer s x m (fun l => mapGet t l 0)))
              match x.wp.spec with
              | none => go s (loadVals s q [] [])
              | some p => match specReadSet p (specLines p 8 (ps.map (·.2))) with
                | none => specStop s x
                | some p' => go (onWarp s x (fun y => { y with spec := some p' })) (loadVals s q p.buf []))) s

/-- JOIN (R141, R265): held while a lower split waits; never held in a copy warp or the matrix thread. The boundary steps of
R140 are made at a failed try too (notes/assumptions/124.md). -/
def execJoin (g : Guard) (_f : FJ) (s : State) : Out :=
  runWord .all false 1 g noTok (fun _ _ => [])
    (fun x _ s =>
      if x.isVec && lowerExists x.wp x.w.slot x.sp then
        let s := onSplit s x (fun q => { q with hold := .join })
        .hold .nothing (onWarp s x boundary)
      else .done s) s

/-- EXIT (R266): the lanes of G leave the split; a role with no lane left has exited. -/
def execExit (g : Guard) (_f : FJ) (s : State) : Out :=
  match runWord .all true 1 g noTok (fun _ _ => [])
      (fun x m s => .done (onSplit s x (fun q => { q with mask := if x.isVec then q.mask &&& ~~~m else 0 }))) s with
  | .next t => .next (checkExit t s.cur.core s.cur.gslot s.cur.wid)
  | r => r

/-- NOP (R267). -/
def execNop (g : Guard) (_f : FJ) (s : State) : Out :=
  runWord .all false 1 g noTok (fun _ _ => []) (fun _ _ s => .done s) s

/-- A warp's reload ended (R89): it goes on where it was when its handler was started. -/
def endReload (y : Warp) : Warp :=
  match y.aside with
  | some a =>
    { y with
      splits := a.splits
      wlist := a.wlist
      spilled := a.spilled
      parked := a.parked
      run := a.run
      halted := a.halted
      aside := none }
  | none => y

/-- YIELD (R267): the turn ends, and the next issue is another warp's where R142 finds one. Where it ends a save handler
it marks the warp saved, and where it ends the reload after a resume the warp goes on where it was (R89). -/
def execYield (g : Guard) (_f : FJ) (s : State) : Out :=
  runWord .all true 1 g noTok (fun _ _ => [])
    (fun x _ s =>
      let c := ctxOf s x.grp.ctx
      if x.wp.aside.isSome && c.st == .resuming then .jump (wakeDone (onWarp s x endReload) x.w.core x.w.gslot)
      else .done (if x.wp.aside.isSome && c.st == .saving then onWarp s x (fun y => { y with saved := true }) else s)) s

/-- REGION (R269). -/
def execRegion (g : Guard) (_f : FJ) (s : State) : Out :=
  runWord .all true 1 g noTok (fun _ _ => [])
    (fun x _ s => .done (onSplit s x (fun q => { q with ctr := q.ctr + 1, entry := q.pc + 8 }))) s

/-- SETFMT (R270): a value with a bit above 3 traps ILLEGAL (R38). -/
def execSetfmt (g : Guard) (f : FI) (s : State) : Out :=
  let reg := f.imm.getLsbD 23
  runWord .all false 1 g noTok (fun _ _ => if reg then [.u f.srca.toNat f.fe] else [])
    (fun x m s =>
      let v := if reg then (sreg x.grp f.srca.toNat).toNat % 2 ^ 32 else f.imm.toNat % 16
      if v ≥ 16 then .trap .illegal m 0 0 s else .done (onSplit s x (fun q => { q with fmt := BitVec.ofNat 32 v }))) s

/-- GETFMT (R270). -/
def execGetfmt (g : Guard) (f : FA) (s : State) : Out :=
  runWord .all false 1 g noTok (fun _ _ => [.ud f.dst.toNat])
    (fun x _ s => .done (onGroup s x (fun k => setSreg k f.dst.toNat (x.sp.fmt.setWidth 64)))) s

/-- A status register (R271). -/
def statusOf (x : Iss) (n : Nat) : W64 :=
  match n with
  | 0 => 32
  | 1 => 0
  | 2 => BitVec.ofNat 64 x.w.wid
  | 3 => BitVec.ofNat 64 x.grp.gidx
  | 4 => BitVec.ofNat 64 x.w.core
  | 5 => BitVec.ofNat 64 x.die
  | 6 => x.sp.ctr.setWidth 64
  | 7 => BitVec.ofNat 64 x.grp.launch
  | 8 => if x.isVec then x.sp.mask.setWidth 64 else 1
  | _ => x.sp.entry

/-- GETSR (R271). %lane in a vector warp goes to each lane of a vector register. -/
def execGetsr (g : Guard) (f : FI) (s : State) : Out :=
  let lane := f.imm == 1
  let bad := fun (x : Iss) => lane && (if x.isVec then f.ty != .n32 else f.ty != .n64 || f.dst.toNat ≥ 256)
  runWordIf bad .all false g
    (fun x _ => if lane && x.isVec then [.vd f.dst.toNat 1] else [.ud f.dst.toNat])
    (fun x m s => .done (if lane && x.isVec then writeLanes s x m f.dst.toNat 1 (fun l => l)
      else onGroup s x (fun k => setSreg k f.dst.toNat (statusOf x f.imm.toNat)))) s

/-- The partition of a context. -/
def partNoOf (s : State) (ctx : Nat) : Nat := (ctxOf s ctx).part

/-- PLOG (R272): one record at OBSERVE or INVASIVE; a full buffer drops it. -/
def execPlog (g : Guard) (f : FA) (s : State) : Out :=
  runWord .all false 1 g noTok (fun _ _ => [.u f.srca.toNat f.fea, .u f.srcb.toNat f.feb])
    (fun x _ s =>
      let n := partNoOf s x.grp.ctx
      let p := partOf s n
      if p.dbg = 0 then .done s
      else if p.plogCount ≥ p.plogSize then .done (modPart s n (fun p => { p with plogDrops := p.plogDrops + 1 }))
      else
        let v := (dieOf s x.die).cycle % 2 ^ 16 + x.w.core <<< 16 + x.w.wid <<< 24 + (x.grp.launch % 2 ^ 32) <<< 32 +
          x.sp.pc.toNat <<< 64 + (sreg x.grp f.srca.toNat).toNat <<< 128 + (sreg x.grp f.srcb.toNat).toNat <<< 192
        let s := unitWrite s (p.plogBase + 32 * p.plogCount) (bytesLE 32 v)
        .done (modPart s n (fun p => { p with plogCount := p.plogCount + 1 }))) s

end Sys2Proof.Machine
end

