-- ==== Sys2Proof/Machine/Mem.lean ====
section
/-!
DEFINITION. Class 011 less OST and ALD: loads, stores, prefetch, invalidation, waits and fences (R302-R316).
-/
namespace Sys2Proof.Machine

/-- Registers of a width in bytes (R65). -/
def widRegs (w : Nat) : Nat := if w = 16 then 4 else if w = 8 then 2 else 1

/-- The width of a WID code (R217). -/
def widOf (k : BitVec 3) : Nat := 2 ^ k.toNat

/-- The lanes of G with their byte addresses (R303). -/
def laneAddrs (x : Iss) (m : W32) (base : BitVec 9) (u : Bool) (off : Int) (w : Nat) : List (Nat × Nat) :=
  (lanesOf m).map (fun l =>
    let b := if u then (sreg x.grp base.toNat).toNat else vregN x.wp base.toNat 2 l
    (l, wrapTo 64 ((b : Int) + off * (w : Int))))

/-- BASE as an operand (R216). -/
def opBase (base : BitVec 9) (u fe : Bool) (n : Nat) : Opd := if u then .u base.toNat fe else .v base.toNat n id fe

/-- The address check of R53, then translation (R304), then `k` with the physical lanes. -/
def withLanes (s : State) (x : Iss) (kind w : Nat) (accs : List (Nat × Nat))
    (k : List (Nat × Nat × TlbEntry) → State → Res) : Res :=
  let mis := misaligned w accs
  if !mis.isEmpty then .trap .align (blame mis).1 (blame mis).2 0 s
  else withTranslation s x kind 0 true accs k

/-- The poison check of R304: `k` when no lane meets a poisoned line it may not touch. -/
def withClean (s : State) (store : Bool) (w : Nat) (accs : List (Nat × Nat)) (pas : List (Nat × Nat × TlbEntry))
    (k : State → Res) : Res :=
  let bad := poisoned s store w (pas.map (fun p => (p.1, p.2.1)))
  if bad.isEmpty then k s
  else
    let b := accs.filter (fun a => bad.any (fun q => q.1 == a.1))
    poisonTrap s (bad.map (fun q => lineOf q.2)) (blame b).1 (blame b).2

/-- Speculators of the issuer's core that have read a line a store enters the queue for (R411). -/
def squashCore (s : State) (c : Nat) (lines : List Nat) : State :=
  modCore s c (fun k => { k with groups := k.groups.map (fun (g, x) =>
    (g, { x with warps := x.warps.map (fun (w, y) => (w, match y.spec with
      | some p => if p.reads.any (fun l => lines.contains l) then rollback (dieOf s (dieOfCore c)).cycle y else y
      | none => y)) })) })

/-- A speculator's load made at once (R156, R158): it waits as its read must, and stops where it needs a 65th line; else `k` with the
values of its lanes, its read set grown. -/
def specLoad (s : State) (x : Iss) (p : Spec) (r : Req) (k : List (Nat × Nat) → State → Res) : Res :=
  if specWaits s r then .hold .nothing s
  else match specReadSet p (specLines p r.w (r.lanes.map (fun l => l.pa))) with
    | none => specStop s x
    | some p' => k (loadVals s r p.buf []) (onWarp (readNow s r) x (fun y => { y with spec := y.spec.map (fun _ => p') }))

/-- The values of a read made at once on their way back to their registers. -/
def sendNow (s : State) (x : Iss) (w : Nat) (vals : List (Nat × Nat)) : Nat × State :=
  let (id, s) := freshId s
  (id, { s with returns := s.returns ++ [{ id := id, who := x.w, w := w, vals := vals }] })

/-- A load of the lanes at physical addresses into vector registers (R308): requests, or for a speculator a read at once
from its buffer and memory (R156). The L1 serves none of a split that has made an acquire of scope .die or wider (R408). -/
def loadLanes (s : State) (x : Iss) (w dst : Nat) (tok : Option Nat) (scope ord : Nat) (sync l1 : Bool)
    (pas : List (Nat × Nat)) : Res :=
  let n := widRegs w
  let l1 := l1 && !x.sp.homeLd
  match x.wp.spec with
  | some p => specLoad s x p (nowReq s x w scope ord l1 sync pas) (fun vals s =>
      let (id, s) := sendNow s x w vals
      .done (onWarp s x (fun y => produceV y id dst n (maskOf (pas.map (·.1))))))
  | none =>
    let accs := pas.map (fun (l, pa) => ({ lane := l, pa := pa, v := 0 } : LaneAcc))
    let (ids, s) := sendReqs s x .load w scope ord tok l1 sync (lineGroups accs)
    let s := onWarp s x (fun y => ids.foldl (fun y (id, m) => produceV y id dst n m) y)
    .done (if ord % 2 = 1 then addAcqs s x ids scope else s)

/-- A store of the lanes (R308): requests into the core's write queue, or a speculator's buffer (R156). -/
def storeLanes (s : State) (x : Iss) (w : Nat) (tok : Option Nat) (scope ord : Nat) (sync : Bool)
    (pas : List (Nat × Nat × Nat)) : Res :=
  match x.wp.spec with
  | some p =>
    match specStore p tok (pas.map (fun (_, pa, v) => (pa, bytesLE w v))) with
    | none => specStop s x
    | some p' => .done (onWarp s x (specBuffer p p'))
  | none =>
    let accs := pas.map (fun (l, pa, v) => ({ lane := l, pa := pa, v := v } : LaneAcc))
    let lines := distinct (pas.map (fun (_, pa, _) => lineOf pa))
    let s := squashCore s x.w.core lines
    let (_, s) := sendReqs s x .store w scope ord tok false sync (lineGroups accs)
    .done (noteWrites s x.w lines)

/-- LD and LDX (R309, R312). -/
def loadWord (g : Guard) (f : FM) (sync : Bool) (s : State) : Out :=
  let w := widOf f.wid
  runWord .vector (f.ord != 0) 1 g f.twait
    (fun _ _ => [opBase f.base f.u f.fe 2, .vl f.data.toNat (widRegs w)])
    (fun x m s =>
      let accs := laneAddrs x m f.base f.u f.off.toInt w
      withLanes s x 0 w accs (fun pas s => withClean s false w accs pas (fun s =>
        let l1 := pas.all (fun p => l1able p.2.1 p.2.2) && (!sync || f.scope.toNat < 3)
        loadLanes s x w f.data.toNat (tokOf f.tse f.tslot) f.scope.toNat f.ord.toNat sync l1
          (pas.map (fun p => (p.1, p.2.1)))))) s

/-- ST and STX (R309, R312). -/
def storeWord (g : Guard) (f : FM) (sync : Bool) (s : State) : Out :=
  let w := widOf f.wid
  runWord .vector (f.ord != 0) 1 g f.twait
    (fun _ _ => [opBase f.base f.u f.fe 2, .v f.data.toNat (widRegs w) id f.fe])
    (fun x m s =>
      let accs := laneAddrs x m f.base f.u f.off.toInt w
      withLanes s x 1 w accs (fun pas s => withClean s (!sync) w accs pas (fun s =>
        storeLanes s x w (tokOf f.tse f.tslot) f.scope.toNat f.ord.toNat sync
          (pas.map (fun p => (p.1, p.2.1, vregN x.wp f.data.toNat (widRegs w) p.1 % 2 ^ (8 * w))))))) s

/-- LD (R309). -/
def execLd (g : Guard) (f : FM) (s : State) : Out := loadWord g f false s
/-- ST (R309). -/
def execSt (g : Guard) (f : FM) (s : State) : Out := storeWord g f false s
/-- LDX (R312). -/
def execLdx (g : Guard) (f : FM) (s : State) : Out := loadWord g f true s
/-- STX (R312). -/
def execStx (g : Guard) (f : FM) (s : State) : Out := storeWord g f true s

/-- The lanes of G with their window offsets (R303). -/
def windowOffs (x : Iss) (m : W32) (base : BitVec 9) (u : Bool) (off : Int) (w : Nat) : List (Nat × Int) :=
  (lanesOf m).map (fun l =>
    let b := if u then (sreg x.grp base.toNat).toNat else (vreg x.wp base.toNat l).toNat
    (l, signedOf 32 b + off * (w : Int)))

/-- The checks of a window access (R53, R60, R304), then `k` with the offsets. -/
def withWindow (s : State) (x : Iss) (w : Nat) (offs : List (Nat × Int)) (k : List (Nat × Nat) → Res) : Res :=
  let mis := offs.filter (fun o => o.2 % (w : Int) != 0)
  let out := offs.filter (fun o => o.2 < 0 || o.2 + (w : Int) > (x.grp.tmpl.sramsz : Int))
  let at_ := fun (l : List (Nat × Int)) => (maskOf (l.map (·.1)), wrapTo 64 ((l.map (·.2)).headD 0))
  if !mis.isEmpty then .trap .align (at_ mis).1 (at_ mis).2 0 s
  else if !out.isEmpty then .trap .window (at_ out).1 (at_ out).2 0 s
  else k (offs.map (fun o => (o.1, o.2.toNat)))

/-- LDL (R310). -/
def execLdl (g : Guard) (f : FM) (s : State) : Out :=
  let w := widOf f.wid
  runWord .vector false 1 g f.twait
    (fun _ _ => [opBase f.base f.u f.fe 1, .vl f.data.toNat (widRegs w)])
    (fun x m s => withWindow s x w (windowOffs x m f.base f.u f.off.toInt w) (fun offs =>
      let pas := offs.map (fun o => (o.1, windowPa x.grp o.2))
      let bad := poisoned s false w pas
      if !bad.isEmpty then
        let b := offs.filter (fun a => bad.any (fun q => q.1 == a.1))
        poisonTrap s (bad.map (fun q => lineOf q.2)) (blame b).1 (blame b).2
      else if scoreboardHit s x false w (offs.map (·.2)) then .hold .nothing s
      else loadLanes s x w f.data.toNat (tokOf f.tse f.tslot) 0 0 false false pas)) s

/-- STL (R310). -/
def execStl (g : Guard) (f : FM) (s : State) : Out :=
  let w := widOf f.wid
  runWord .vector false 1 g f.twait
    (fun _ _ => [opBase f.base f.u f.fe 1, .v f.data.toNat (widRegs w) id f.fe])
    (fun x m s => withWindow s x w (windowOffs x m f.base f.u f.off.toInt w) (fun offs =>
      let pas := offs.map (fun o => (o.1, windowPa x.grp o.2))
      let bad := poisoned s true w pas
      if !bad.isEmpty then
        let b := offs.filter (fun a => bad.any (fun q => q.1 == a.1))
        poisonTrap s (bad.map (fun q => lineOf q.2)) (blame b).1 (blame b).2
      else if scoreboardHit s x true w (offs.map (·.2)) then .hold .nothing s
      else storeLanes s x w (tokOf f.tse f.tslot) 0 0 false
        (pas.map (fun p => (p.1, p.2, vregN x.wp f.data.toNat (widRegs w) p.1 % 2 ^ (8 * w)))))) s

/-- The one address of a uniform access (R311), as lane 0. -/
def uniformAddr (x : Iss) (base : BitVec 9) (off : Int) (w : Nat) : Nat :=
  wrapTo 64 (((sreg x.grp base.toNat).toNat : Int) + off * (w : Int))

/-- The one access of a warp-wide instruction, checked and translated (R304); a trap names every lane of G (R429). -/
def withWide (s : State) (x : Iss) (m : W32) (kind w va : Nat) (k : List (Nat × Nat × TlbEntry) → State → Res) : Res :=
  withLanes s x kind w ((lanesOf m).map (fun l => (l, va))) (fun pas s => k ((pas.take 1).map (fun p => (0, p.2))) s)

/-- The poison check of a warp-wide access (R304). -/
def wideClean (s : State) (m : W32) (va : Nat) (pas : List (Nat × Nat × TlbEntry)) (k : State → Res) : Res :=
  if pas.any (fun p => isPoisoned s (lineOf p.2.1)) then poisonTrap s (pas.map (fun p => lineOf p.2.1)) m va else k s

/-- LDU (R311): s[DATA] is marked empty until the value arrives. -/
def execLdu (g : Guard) (f : FM) (s : State) : Out :=
  let w := widOf f.wid
  runWord .all (f.ord != 0) 1 g f.twait (fun _ _ => [.u f.base.toNat f.fe])
    (fun x m s =>
      let va := uniformAddr x f.base f.off.toInt w
      withWide s x m 0 w va (fun pas s => wideClean s m va pas (fun s =>
        let l1 := pas.all (fun p => l1able p.2.1 p.2.2) && f.scope.toNat < 3 && !x.sp.homeLd
        match x.wp.spec with
        | some p => specLoad s x p (nowReq s x w f.scope.toNat f.ord.toNat l1 true (pas.map (fun q => (0, q.2.1)))) (fun vals s =>
            let (id, s) := sendNow s x w vals
            .done (onGroup s x (fun k => produceU k id f.data.toNat 0)))
        | none =>
          let la := pas.map (fun q => ({ lane := 0, pa := q.2.1, v := 0 } : LaneAcc))
          let (ids, s) := sendReqs s x .load w f.scope.toNat f.ord.toNat (tokOf f.tse f.tslot) l1 true [la]
          let s := onGroup s x (fun k => ids.foldl (fun k i => produceU k i.1 f.data.toNat 0) k)
          .done (if f.ord == 1 then addAcqs s x ids f.scope.toNat else s)))) s

/-- STU (R311). -/
def execStu (g : Guard) (f : FM) (s : State) : Out :=
  let w := widOf f.wid
  runWord .all (f.ord != 0) 1 g f.twait (fun _ _ => [.u f.base.toNat f.fe, .u f.data.toNat f.fe])
    (fun x m s =>
      let va := uniformAddr x f.base f.off.toInt w
      withWide s x m 1 w va (fun pas s => wideClean s m va pas (fun s =>
        storeLanes s x w (tokOf f.tse f.tslot) f.scope.toNat f.ord.toNat true
          (pas.map (fun p => (0, p.2.1, (sreg x.grp f.data.toNat).toNat % 2 ^ (8 * w))))))) s

/-- The line of one prefetched lane brought into the L1; a lane that cannot be is ignored (R313). -/
def prefetch (s : State) (x : Iss) (va : Nat) : State :=
  match entryFor s x.w.core x.grp.ctx va with
    | some e => if l1able (e.phys va) e && !isPoisoned s (lineOf (e.phys va)) then l1Fill s x.w.core (lineOf (e.phys va)) else s
    | none => s

/-- PREF (R313). -/
def execPref (g : Guard) (f : FM) (s : State) : Out :=
  runWord .vector false 1 g f.twait (fun _ _ => [opBase f.base f.u f.fe 2])
    (fun x m s => .done ((laneAddrs x m f.base f.u f.off.toInt 1).foldl (fun s a => prefetch s x a.2) s)) s

/-- INVL1 (R314): no later load of the split is served from a line cached before, so its own loads in flight, which may
still be served from the L1, come first. -/
def execInvl1 (g : Guard) (f : FM) (s : State) : Out :=
  runWord .vector false 1 g f.twait (fun _ _ => []) (fun x _ s => .done (l1Clear s x.w.core)) s

/-- WAITK (R314): the token wait is the whole of it. -/
def execWaitk (g : Guard) (f : FM) (s : State) : Out :=
  runWord .all false 1 g f.twait (fun _ _ => []) (fun _ _ s => .done s) s

/-- Whether every earlier access of the warp on path V, and every write queued on its core, has been performed (R315,
R396). -/
def coreDrained (s : State) (x : Iss) : Bool :=
  s.inflight.all (fun r => !sameWarp r.who x.w && !(r.isStore && r.who.core == x.w.core))

/-- Whether every sync-channel load of the warp has returned (R315). -/
def syncReturned (s : State) (x : Iss) : Bool :=
  s.inflight.all (fun r => !(sameWarp r.who x.w && r.sync && !r.isStore)) && s.returns.all (fun r => !sameWarp r.who x.w) &&
  (pendingAcqs s x).isEmpty

/-- What the acquire side of a FENCE does when it completes (R315, R397, R401, R402): at .dev and .sys the core-scope releases
that the warp's sync reads have read are promoted; at .die or wider the L1 is invalidated, and the split's loads are served at home
from then on (R408). -/
def fenceAcquire (s : State) (x : Iss) (scope : Nat) : State :=
  let s := if scope < 4 then s
    else onWarp (x.wp.seen.foldl (fun s (c, id) => drainTo s c id) s) x (fun y => { y with seen := [] })
  if scope < 3 then s else acquireWide s x.w

/-- What the release side of a FENCE below .die leaves (R401): the warp's later writes are core-scope releases. -/
def fenceRelease (s : State) (x : Iss) (scope : Nat) : State := if scope < 3 then onWarp s x (fun y => { y with relFence := true }) else s

/-- FENCE (R315): it waits at issue for what it orders, then acquires. -/
def execFence (g : Guard) (f : FM) (s : State) : Out :=
  runWord .all true 1 g f.twait (fun _ _ => [])
    (fun x _ s =>
      if f.ord.getLsbD 1 && !coreDrained s x then .hold .nothing s
      else if f.ord.getLsbD 0 && !syncReturned s x then .hold .nothing s
      else
        let s := synced s x.w
        let s := if f.ord.getLsbD 1 then fenceRelease s x f.scope.toNat else s
        .done (if f.ord.getLsbD 0 then fenceAcquire s x f.scope.toNat else s)) s

/-- Whether a group slot holds a group of the issuer's context. -/
def ofContext (s : State) (x : Iss) (core gslot : Nat) : Bool :=
  match groupAt s core gslot with
  | some g => g.ctx == x.grp.ctx
  | none => false

/-- Whether every write on a path that a FENCEX of the issuer covers has been performed (R316): 0 V, 1 C, 2 M, 3 B, 4 L,
5 D. A group's writes may have been acquired by any other of its context, so all of the context's are waited for
(notes/assumptions/94.md). -/
def pathDrained (s : State) (x : Iss) (path : Nat) : Bool :=
  match path with
  | 0 => s.inflight.all (fun r => !(r.writes && r.who.core == x.w.core))
  | 1 => s.cores.all (fun (n, k) => k.copies.all (fun c => !ofContext s x n c.gslot))
  | 2 => s.cores.all (fun (n, k) => k.drains.all (fun d => !ofContext s x n d.gslot))
  | 3 => s.dies.all (fun (_, d) => d.chunkQ.all (fun c => !ofContext s x c.who.core c.who.gslot))
  | 4 => s.cores.all (fun (n, k) => k.copies.all (fun c => !(ofContext s x n c.gslot && (c.ssp == 2 || c.dsp == 3))))
  | _ => true

/-- The words last written on a path for a context, those of the peers' transfers among the writes of path L, seen from now on by another path (R316, R403). -/
def seeWords (m : SMap Stale) (ctx src dst : Nat) : SMap Stale :=
  m.map (fun (w, e) => (w, if e.path == src && (e.ctx == ctx || e.ctx == 0xFFFF) then { e with seen := e.seen ++ [dst] } else e))

/-- What a FENCEX of the issuer makes visible once it completes (R316, R403): the words written on its first path to its second;
one to path V leaves no old copy of a covered line in the L1. -/
def fencexSee (s : State) (x : Iss) (src dst : Nat) : State :=
  let s := { s with stale := seeWords s.stale x.grp.ctx src dst }
  if dst = 0 then l1Clear s x.w.core else s

/-- FENCEX (R316): it completes when every covered write has been performed; no later access of the role comes before. -/
def execFencex (g : Guard) (f : FM) (s : State) : Out :=
  runWord .all true 1 g f.twait (fun _ _ => [])
    (fun x _ s =>
      if pathDrained s x f.data.toNat then .done (fencexSee s x f.data.toNat f.base.toNat)
      else .hold .nothing s) s

end Sys2Proof.Machine
end

