-- ==== Sys2Proof/Machine/Atomic.lean ====
section
/-!
DEFINITION. Atomics (R317-R328) at issue, and what home units do with requests: HOME_ACCESS, LOAD_RETURN, DATOM entries
and their application (R71-R74, R305-R308, R402, R410).
-/
namespace Sys2Proof.Machine

/-- An atomic operator at width `w` bytes (R318). -/
def atomOp (aop w : Nat) (fmt : W32) (old b : Nat) : Nat :=
  let bits := 8 * w
  let t := if w = 4 then fmtF32 else fmtF64
  let r := fmtRnd fmt
  match aop with
  | 0 => (old + b) % 2 ^ bits
  | 1 => fAdd t r old b
  | 2 => if signedOf bits old ≤ signedOf bits b then old else b
  | 3 => if signedOf bits old ≤ signedOf bits b then b else old
  | 4 => if old ≤ b then old else b
  | 5 => if old ≤ b then b else old
  | 6 => fMinMax t r.nanp false true old b
  | 7 => fMinMax t r.nanp true true old b
  | 8 => old &&& b
  | 9 => old ||| b
  | 10 => old ^^^ b
  | 11 => b
  | 12 => if old ≥ b then 0 else old + 1
  | _ => if old = 0 || old > b then b else old - 1

/-- The memory-type checks of an atomic (R72): `pair` for DCAS and AMOV. -/
def badMemtype (pas : List (Nat × Nat × TlbEntry)) : List Nat :=
  (pas.filter (fun p => p.2.2.noatom)).map (·.1)

/-- An atomic's checks (R304, R72), then `k` with the physical lanes. -/
def withAtomic (s : State) (x : Iss) (w : Nat) (accs : List (Nat × Nat))
    (k : List (Nat × Nat × TlbEntry) → State → Res) : Res :=
  withLanes s x 2 w accs (fun pas s =>
    let bad := badMemtype pas
    if !bad.isEmpty then .trap .atomicMemtype (maskOf bad) ((accs.filter (fun a => bad.contains a.1)).map (·.2) |>.headD 0) 0 s
    else withClean s false w accs pas (fun s => k pas s))

/-- The lines that an atomic's lanes write (R157): both of a DCAS, the second of an AMOV. -/
def atomLines (kind : ReqKind) (groups : List (List LaneAcc)) : List Nat :=
  distinct (groups.flatten.flatMap (fun a => match kind with
    | .dcas => [lineOf a.pa, lineOf a.pa2]
    | .amov => [lineOf a.pa2]
    | _ => [lineOf a.pa]))

/-- Whether an address lies on a system-atomic page, by the lanes' translations (R71, R182). -/
def sysatAt (pas : List (Nat × Nat × TlbEntry)) (pa : Nat) : Bool := pas.any (fun p => p.2.1 == pa && p.2.2.sysat)

/-- An atomic's requests sent, with the lines noted and the old values' registers marked empty. -/
def sendAtomic (s : State) (x : Iss) (kind : ReqKind) (w scope ord : Nat) (tok : Option Nat) (dst : Option (Nat × Nat))
    (groups : List (List LaneAcc)) (sys : Nat → Bool) : Res :=
  let lines := atomLines kind groups
  let (ids, s) := sendReqs s x kind w scope ord tok false true groups (kind == .dcas || kind == .amov) sys
  let s := match dst with
    | some (d, n) => onWarp s x (fun y => ids.foldl (fun y (id, m) => produceV y id d n m) y)
    | none => s
  let s := noteWrites s x.w lines
  .done (if ord % 2 = 1 then addAcqs s x ids scope else s)

/-- ATOM (R317-R319). -/
def execAtom (g : Guard) (f : FAtom) (s : State) : Out :=
  let w := widOf f.wid
  let n := widRegs w
  runWord .vector true 1 g f.twait
    (fun _ _ => [opBase f.base f.u f.fe 2, .v f.src.toNat n id f.fes, .vl f.data.toNat n])
    (fun x m s =>
      let accs := laneAddrs x m f.base f.u 0 w
      withAtomic s x w accs (fun pas s =>
        let la := pas.map (fun p => ({ lane := p.1, pa := p.2.1, v := vregN x.wp f.src.toNat n p.1 } : LaneAcc))
        sendAtomic s x (.atom f.aop.toNat true) w f.scope.toNat f.ord.toNat none (some (f.data.toNat, n)) (lineGroups la) (sysatAt pas))) s

/-- ATOMR (R320). -/
def execAtomr (g : Guard) (f : FAtomr) (s : State) : Out :=
  let w := widOf f.wid
  let n := widRegs w
  runWord .vector true 1 g f.twait
    (fun _ _ => [opBase f.base f.u f.fe 2, .v f.data.toNat n id f.fe])
    (fun x m s =>
      let accs := laneAddrs x m f.base f.u f.off.toInt w
      withAtomic s x w accs (fun pas s =>
        let la := pas.map (fun p => ({ lane := p.1, pa := p.2.1, v := vregN x.wp f.data.toNat n p.1 } : LaneAcc))
        sendAtomic s x (.atom f.aop.toNat false) w f.scope.toNat f.ord.toNat (tokOf f.tse f.tslot) none (lineGroups la) (sysatAt pas))) s

/-- CAS (R321): SRC holds cmp and then new. -/
def execCas (g : Guard) (f : FAtom) (s : State) : Out :=
  let w := widOf f.wid
  let n := widRegs w
  runWord .vector true 1 g f.twait
    (fun _ _ => [opBase f.base f.u f.fe 2, .v f.src.toNat (2 * n) id f.fes, .vl f.data.toNat n])
    (fun x m s =>
      let accs := laneAddrs x m f.base f.u 0 w
      withAtomic s x w accs (fun pas s =>
        let la := pas.map (fun p => ({
          lane := p.1
          pa := p.2.1
          v := vregN x.wp f.src.toNat n p.1
          nv := vregN x.wp (f.src.toNat + n) n p.1 } : LaneAcc))
        sendAtomic s x .cas w f.scope.toNat f.ord.toNat none (some (f.data.toNat, n)) (lineGroups la) (sysatAt pas))) s

/-- The two addresses of each lane of DCAS and AMOV (R322). -/
def pairAddrs (x : Iss) (m : W32) (base : BitVec 9) (u : Bool) : List (Nat × Nat × Nat) :=
  (lanesOf m).map (fun l =>
    if u then (l, (sreg x.grp base.toNat).toNat, (sreg x.grp (base.toNat + 1)).toNat)
    else (l, vregN x.wp base.toNat 2 l, vregN x.wp (base.toNat + 2) 2 l))

/-- BASE of DCAS and AMOV as operands (R322). -/
def opPairBase (base : BitVec 9) (u fe : Bool) : List Opd :=
  if u then [.u base.toNat fe, .u (base.toNat + 1) fe] else [.v base.toNat 4 id fe]

/-- The address that ADDR of a memory-type trap of a pair gives (R429): of the lowest lane at fault the word whose page is; the second
where only its page is. -/
def pairBlame (as : List (Nat × Nat × Nat)) (bad : List (Nat × TlbEntry × Nat × TlbEntry × Nat)) : Nat :=
  match bad with
  | [] => 0
  | (l, e, a, f, b) :: _ =>
    let own := fun (e : TlbEntry) (pa : Nat) => e.noatom || (e.sysat && inHostMem pa)
    let va := ((as.find? (fun q => q.1 == l)).map (fun q => q.2)).getD (0, 0)
    if !own e a && (own f b || inHostMem b && !inHostMem a) then va.2 else va.1

/-- The checks of DCAS and AMOV on both words, then `k` with both physical addresses (R72, R322). -/
def withPair (s : State) (x : Iss) (w : Nat) (as : List (Nat × Nat × Nat))
    (k : List (Nat × TlbEntry × Nat × TlbEntry × Nat) → State → Res) : Res :=
  let accs := as.flatMap (fun a => [(a.1, a.2.1), (a.1, a.2.2)])
  withLanes s x 2 w accs (fun pas s =>
    let two := as.map (fun a => a.1)
    let get := fun (l i : Nat) => (pas.filter (fun p => p.1 == l)).getD i (l, 0, { pasid := 0, va := 0, size := 0, pa := 0, w := false, x := false, nc := false, noatom := false, sysat := false })
    let rows := two.map (fun l => (l, (get l 0).2.2, (get l 0).2.1, (get l 1).2.2, (get l 1).2.1))
    let bad := rows.filter (fun (_, e, a, f, b) => e.noatom || f.noatom || (e.sysat && inHostMem a) || (f.sysat && inHostMem b) ||
      inHostMem a != inHostMem b)
    if !bad.isEmpty then
      .trap .atomicMemtype (maskOf (bad.map (·.1))) (pairBlame as bad) 0 s
    else withClean s false w accs pas (fun s => k rows s))

/-- DCAS (R322). -/
def execDcas (g : Guard) (f : FM) (s : State) : Out :=
  let w := widOf f.wid
  let n := widRegs w
  let d := f.data.toNat
  runWord .vector true 1 g f.twait
    (fun _ _ => .v d (4 * n) id f.fe :: opPairBase f.base f.u f.fe)
    (fun x m s => withPair s x w (pairAddrs x m f.base f.u) (fun rows s =>
      let v := fun (i l : Nat) => vregN x.wp (d + i * n) n l
      let la := rows.map (fun (l, _, a, _, b) => ({
        lane := l, pa := a, pa2 := b, v := v 0 l, v2 := v 1 l, nv := v 2 l, nv2 := v 3 l } : LaneAcc))
      sendAtomic s x .dcas w f.scope.toNat f.ord.toNat (tokOf f.tse f.tslot) (some (d, 2 * n)) (la.map (fun a => [a])) (fun _ => false))) s

/-- AMOV (R323). -/
def execAmov (g : Guard) (f : FM) (s : State) : Out :=
  let w := widOf f.wid
  let n := widRegs w
  runWord .vector true 1 g f.twait
    (fun _ _ => .vl f.data.toNat n :: opPairBase f.base f.u f.fe)
    (fun x m s => withPair s x w (pairAddrs x m f.base f.u) (fun rows s =>
      let la := rows.map (fun (l, _, a, _, b) => ({ lane := l, pa := a, pa2 := b, v := 0 } : LaneAcc))
      sendAtomic s x .amov w f.scope.toNat f.ord.toNat (tokOf f.tse f.tslot) (some (f.data.toNat, n)) (la.map (fun a => [a])) (fun _ => false))) s

/-- DATOM (R325, R326): one entry for each lane, with its key; a lane's 2^26-th in one launch faults the launch. -/
def execDatom (g : Guard) (f : FM) (s : State) : Out :=
  let w := widOf f.wid
  let n := widRegs w
  runWord .vector true 1 g f.twait
    (fun _ _ => [opBase f.base f.u f.fe 2, .v f.data.toNat n id f.fe])
    (fun x m s =>
      let accs := laneAddrs x m f.base f.u f.off.toInt w
      withLanes s x 2 w accs (fun pas s =>
        let bad := (pas.filter (fun p => p.2.2.noatom || inHostMem p.2.1)).map (·.1)
        if !bad.isEmpty then
          .trap .atomicMemtype (maskOf bad) ((accs.filter (fun a => bad.contains a.1)).map (·.2) |>.headD 0) 0 s
        else withClean s false w accs pas (fun s =>
          let cnt := fun (l : Nat) => x.wp.dcount.getD l 0
          if pas.any (fun p => cnt p.1 + 1 ≥ 2 ^ 26) then
            .done (regionFault s x.grp.ctx x.grp.region Cause.datomLog.code x.grp.launch x.die)
          else
            let es := pas.map (fun p => ({
              ctx := x.grp.ctx
              launch := x.grp.launch
              pa := p.2.1
              f64 := w == 8
              ent := { key := (x.grp.gidx % 2 ^ 24) <<< 40 + x.w.wid <<< 33 + p.1 <<< 26 + cnt p.1,
                       val := vregN x.wp f.data.toNat n p.1 }
              who := x.w
              tok := tokOf f.tse f.tslot } : DInFlight))
            let s := { s with datoms := s.datoms ++ es }
            let s := addToken s x.w (tokOf f.tse f.tslot) es.length
            .done (onWarp s x (fun y => { y with dcount := (List.range 32).map (fun l =>
              if pas.any (fun p => p.1 == l) then cnt l + 1 else cnt l) }))))) s

/-! ### Home units -/

/-- Values sent back to a role (R308). -/
def pushReturn (s : State) (r : Req) (vals : List (Nat × Nat)) : State :=
  { s with returns := s.returns ++ [{ id := r.id, who := r.who, w := r.w, vals := vals }] }

/-- The barrier word's update (R161). -/
def mbarWord (v : Nat) : Nat :=
  let count := v % 2 ^ 16
  let expect := bitsOf v 32 16
  let phase := bitsOf v 48 16
  if expect = 0 || count ≥ expect || bitsOf v 16 16 != 0 then v
  else if count + 1 = expect then ((phase + 1) % 2 ^ 16) <<< 48 + expect <<< 32
  else v + 1

/-- What an atomic does to one lane's words in a memory: the words it writes, with their values, and the value it returns
(R161, R318-R323). -/
def laneAtom (r : Req) (m : List Host.Cell) (l : LaneAcc) : List (Nat × Nat) × Nat :=
  let a := memNat m l.pa r.w
  match r.kind with
  | .atom aop _ => ([(l.pa, atomOp aop r.w r.fmt a l.v)], a)
  | .cas => (if a = l.v then [(l.pa, l.nv)] else [], a)
  | .dcas =>
    let b := memNat m l.pa2 r.w
    (if !overlaps l.pa r.w l.pa2 r.w && a == l.v && b == l.v2 then [(l.pa, l.nv), (l.pa2, l.nv2)] else [], a + b * 2 ^ (8 * r.w))
  | .amov => ([(l.pa2, a)], a)
  | .mbara => ([(l.pa, mbarWord a)], a)
  | _ => ([], a)

/-- The lanes of an atomic in ascending order from a memory on (R305, R319): the writes, and the values by lane. -/
def atomLanes (r : Req) (m : List Host.Cell) (ls : List LaneAcc) : List (Nat × Nat) × List (Nat × Nat) :=
  match ls with
  | [] => ([], [])
  | l :: rest =>
    let (ws, v) := laneAtom r m l
    let (ws', vs) := atomLanes r (ws.foldl (fun m (a, x) => memSetBytes m a (bytesLE r.w x)) m) rest
    (ws ++ ws', (l.lane, v) :: vs)

/-- Whether an atomic returns its old values. -/
def ReqKind.returns (k : ReqKind) : Bool :=
  match k with
  | .atom _ ret => ret
  | _ => true

/-- An atomic performed at its home (R71, R319): from the words a host atomic unit has read for it, else from those there now. The
issuing core keeps no copy of the lines. -/
def performAtom (s : State) (r : Req) : State :=
  let (ws, vals) := atomLanes r (r.got.getD s.mem) r.lanes
  let m := s.mem
  let s := sawHome (r.lines.foldl (fun s l => l1Drop s r.who.core l) s) r.reads
  let s := ws.foldl (fun s (a, v) => homeWrite s a (bytesLE r.w v) true (promoOf s r)) s
  let s := ws.foldl (fun s (a, _) => noteOldV s m r.who r.id a r.w) s
  if r.kind.returns then pushReturn (retireReq s r) r vals else retireReq s r

/-- A load performed (R308, R396): its values go back; a line it takes from its home enters the L1 where it may, and leaves it
otherwise, so that no later load of the core goes back to an older value. `olds` are the words of which it takes what another path has
left to be seen (R69). -/
def performLoad (s : State) (r : Req) (olds : List Nat) : State :=
  let vals := loadVals s r [] olds
  let s := noteObs s r.who.core (r.queue s) r.reads
  let s := if olds.isEmpty then sawHome s r.reads else sawHome s (newReads r olds)
  let s := r.lines.foldl (fun s line =>
    if r.l1ok then (if !olds.isEmpty || (l1Line s r.who.core line).isSome then s else l1Fill s r.who.core line)
    else l1Drop s r.who.core line) s
  pushReturn (retireReq s r) r vals

/-- Where matrix addresses stand among a request's addresses: slots from the first, blocks from the second (R349). -/
def slotSpace : Nat := 2 ^ 60
/-- The place of block addresses. -/
def blockSpace : Nat := 2 ^ 61

/-- OST performed (R350): the lanes in ascending order into the slot's bytes. -/
def performOst (s : State) (r : Req) : State :=
  let one := fun (k : Core) (l : LaneAcc) =>
    let a := l.pa - slotSpace
    let o := mapGet k.slots (a / 2 ^ 18) OpSlot.reset
    let bs := bytesLE r.w l.v
    let bytes := (List.range r.w).foldl (fun m j => mapSet m (a % 2 ^ 18 + j) (bs.getD j 0)) o.bytes
    { k with slots := mapSet k.slots (a / 2 ^ 18) { o with bytes := bytes.filter (fun e => e.2 != 0) } }
  retireReq (modCore s r.who.core (fun k => r.lanes.foldl one k)) r

/-- ALD performed (R350): one word of a block for each lane. -/
def performAld (s : State) (r : Req) : State :=
  let k := coreOf s r.who.core
  let word := fun (l : LaneAcc) =>
    let a := l.pa - blockSpace
    (mapGet (mapGet k.blocks (a / 1024) AccBlock.reset).words (a % 1024 / 4) 0).toNat
  pushReturn (retireReq s r) r (r.lanes.map (fun l => (l.lane, word l)))

/-- One request performed, indivisibly (R305, R307). -/
def perform (s : State) (r : Req) (olds : List Nat := []) : State :=
  let s := acquireAt s r
  match r.kind with
  | .store => performStore s r
  | .load => performLoad s r olds
  | .ost => performOst s r
  | .ald => performAld s r
  | .poll _ => retireReq s r
  | _ => performAtom s r

/-- Whether an atomic goes to a host atomic unit of the device, which reads and writes one after the other: a host write may fall
between (R71, R72). -/
def Req.twoSteps (r : Req) : Bool :=
  !r.sysat && r.got.isNone && r.lanes.any (fun l => inHostMem l.pa) &&
  (match r.kind with
   | .atom _ _ | .cas | .dcas | .amov => true
   | _ => false)

/-- The words of an atomic read by a host atomic unit (R72). -/
def hostRead (s : State) (r : Req) : State :=
  let m := r.ranges.foldl (fun m (a, n) => memSetBytes m a (memGetBytes s.mem a n)) []
  { s with inflight := s.inflight.map (fun q => if q.id == r.id then { q with got := some m } else q) }

/-- HOME_ACCESS: the `n`-th request in flight reaches its home (R307); nothing happens while it may not. -/
def execHomeAccess (n : Nat) (s : State) : Out :=
  match s.inflight[n]? with
  | some r => if !eligible s r then .next s else if r.twoSteps then .next (hostRead s r) else .next (perform s r)
  | none => .next s

/-- The host atomic whose words a host atomic unit has read and not yet written (R71, R72). -/
def hostHalf (s : State) : Option Req := s.inflight.find? (fun r => r.got.isSome)

/-- An atomic of the host on a word of its own memory (R416): it reads and writes indivisibly; on a page that is not system-atomic its
write may also come by itself, as HOST_WRITE. -/
def hostAtomic (aop w pa b : Nat) (s : State) : State :=
  if pa % w = 0 && inHostMem pa && (w = 4 || w = 8) then hostPut s pa (bytesLE w (atomOp aop w 0 (memNat s.mem pa w) b)) else s

/-- A home access of a vector warp's load that takes the old value of some words another path has written, where it may (R69). -/
def oldAccess (n : Nat) (words : List Nat) (s : State) : State :=
  match s.inflight[n]? with
  | some r => if eligible s r && r.kind == .load && r.who.wid < 32 then perform s r words else s
  | none => s

/-- LOAD_RETURN: the `n`-th value on its way arrives in its registers (R67, R308). -/
def execLoadReturn (n : Nat) (s : State) : Out :=
  match s.returns[n]? with
  | none => .next s
  | some r =>
    let s := { s with returns := listDrop s.returns n }
    let s := modWarp s r.who.core r.who.gslot r.who.wid (fun y => arriveV y r.id r.vals)
    let s := freeWarp s r.who.core r.who.gslot r.who.wid
    .next (modGroup s r.who.core r.who.gslot (fun k => arriveU k r.id ((r.vals.map (·.2)).headD 0)))

/-- A run's bytes in the log (R328). -/
def runBytes (launch : Nat) (pa : Nat) (f64 : Bool) (es : List DEntry) : List Byte :=
  bytesLE 32 ((if f64 then 1 else 0) + es.length <<< 8 + pa <<< 128 + launch <<< 192) ++
  es.flatMap (fun e => bytesLE 16 (e.key + e.val <<< 64))

/-- The lowest 64 KiB block of the spare space of a context's save area that none of its launches holds (R328): the spare
space begins after the minimum of R77 (notes/assumptions/93.md). -/
def freeLogBlock (c : Context) : Option Nat :=
  let held := c.launches.flatMap (fun l => l.logBlocks)
  let n := (c.savesize - c.logMin) / 64
  ((List.range (min n (held.length + 1))).map (fun i => c.savebase + c.logMin * 1024 + i * 65536)).find?
    (fun b => !held.contains b)

/-- The spill of a buffer's run into its launch's log (R74, R327, R328); a full log faults the launch. -/
def spillRun (s : State) (d : DBuf) : Option State :=
  match launchOf s d.ctx d.launch with
  | none => some s
  | some l =>
    let size := 32 + 16 * d.ents.length
    let fits := !l.logBlocks.isEmpty && l.logPos + size ≤ 65536
    let c := ctxOf s d.ctx
    let write := fun (s : State) (block pos : Nat) (l : Launch) =>
      let at_ := block + pos
      let s := unitWrite s at_ (runBytes d.launch d.pa d.f64 d.ents)
      modLaunch s d.ctx d.launch (fun _ => { l with
        logPos := pos + size
        logRuns := l.logRuns ++ [{ pa := d.pa, f64 := d.f64, ents := d.ents, logPa := at_ }] })
    if fits then some (write s (l.logBlocks.getLastD 0) l.logPos l)
    else if l.logBlocks.length ≥ 16 then none
    else match freeLogBlock c with
      | none => none
      | some b =>
        let s := if !l.logBlocks.isEmpty && l.logPos + 32 ≤ 65536 then unitWrite s (l.logBlocks.getLastD 0 + l.logPos) (bytesLE 32 0) else s
        some (write s b 0 { l with logBlocks := l.logBlocks ++ [b] })

/-- The fault of a launch whose log is full (R74). -/
def datomLogFault (s : State) (x launch die : Nat) : State :=
  match launchOf s x launch with
  | some l => regionFault s x l.tmpl.region Cause.datomLog.code launch die
  | none => s

/-- The die of a home unit (R55, R56). -/
def dieOfHome (h : Nat) : Nat := if h < 256 then h / 64 else if h < 768 then (h - 256) / 128 else 0

/-- DATOM_ENTRY_ARRIVAL: the `n`-th entry enters a holding buffer of its home (R74, R327). -/
def execDatomEntryArrival (n : Nat) (s : State) : Out :=
  match s.datoms[n]? with
  | none => .next s
  | some e =>
    let h := homeOf e.pa
    let s := addToken { s with datoms := listDrop s.datoms n } e.who e.tok (-1)
    let mine := fun (b : DBuf) => b.home == h && b.ctx == e.ctx && b.launch == e.launch && b.pa == e.pa
    let put := fun (s : State) (num : Nat) (old : List DEntry) =>
      let b : DBuf := {
        home := h
        num := num
        ctx := e.ctx
        launch := e.launch
        pa := e.pa
        f64 := e.f64
        ents := insertBy (fun a b => decide (a.key ≤ b.key)) e.ent old }
      { s with dbufs := s.dbufs.filter (fun q => !(q.home == h && q.num == num)) ++ [b] }
    match s.dbufs.find? mine with
    | some b =>
      if b.ents.length < 16 then .next (put s b.num b.ents)
      else match spillRun s b with
        | some s => .next (put s b.num [])
        | none => .next (datomLogFault s e.ctx e.launch (dieOfHome h))
    | none =>
      let here := s.dbufs.filter (fun b => b.home == h)
      match (List.range 64).find? (fun i => here.all (fun b => b.num != i)) with
      | some i => .next (put s i [])
      | none =>
        let most := here.foldl (fun (b : Option DBuf) q => match b with
          | some p => if q.ents.length > p.ents.length || (q.ents.length == p.ents.length && q.num < p.num) then some q else some p
          | none => some q) none
        match most with
        | none => .next s
        | some b => match spillRun s b with
          | some s => .next (put s b.num [])
          | none =>
            let s := datomLogFault s b.ctx b.launch (dieOfHome h)
            .next (if (launchOf s e.ctx e.launch).isSome then
              put { s with dbufs := s.dbufs.filter (fun q => !(q.home == h && q.num == b.num)) } b.num [] else s)

/-- Whether the groups of a launch have all been freed. -/
def Launch.ended (l : Launch) : Bool := l.admitted == l.count && l.freed == l.count

/-- Whether a launch of lower index comes first in the application (R74, R327): in a deterministic region each of the region; in another
each that has ended in the same cycle of its die. -/
def appliesFirst (rs : List Rcb) (l m : Launch) : Bool :=
  m.idx < l.idx && !m.applied &&
  (if detOf rs l.tmpl.region then m.tmpl.region == l.tmpl.region
   else m.ended && !detOf rs m.tmpl.region && m.die == l.die && m.endedAt == l.endedAt)

/-- Whether the DATOM entries of a launch may be applied (R74, R327): it has ended, in a cycle that is over, none is in flight, and no
launch comes first. -/
def mayApply (s : State) (x : Nat) (l : Launch) : Bool :=
  l.ended && !l.applied && l.endedAt < (dieOf s l.die).cycle && s.datoms.all (fun d => !(d.ctx == x && d.launch == l.idx)) &&
  (ctxOf s x).launches.all (fun m => !appliesFirst (ctxOf s x).regions l m)

/-- The additions of one word in key order, RNE with sat = 0 and NANP = 0 (R327). -/
def applyWord (s : State) (pa : Nat) (f64 : Bool) (es : List DEntry) : State :=
  let f := if f64 then fmtF64 else fmtF32
  let n := if f64 then 8 else 4
  let v := es.foldl (fun v e => fAdd f rne v (e.val % 2 ^ (8 * n))) (memNat s.mem pa n)
  homeWrite s pa (bytesLE n v) false none

/-- DATOM_APPLY: the runs and buffers of an ended launch merged by key and applied (R74, R327). -/
def execDatomApply (ctx idx : Nat) (s : State) : Out :=
  match launchOf s ctx idx with
  | none => .next s
  | some l =>
    if !mayApply s ctx l then .next s
    else
      let bufs := s.dbufs.filter (fun b => b.ctx == ctx && b.launch == idx)
      let runs := l.logRuns.map (fun r => (r.pa, r.f64, r.ents)) ++ bufs.map (fun b => (b.pa, b.f64, b.ents))
      let words := distinct (runs.map (fun r => r.1))
      let s := words.foldl (fun s pa =>
        let mine := runs.filter (fun r => r.1 == pa)
        let es := sortBy (fun a b => decide (a.key ≤ b.key)) (mine.flatMap (fun r => r.2.2))
        applyWord s pa ((mine.map (fun r => r.2.1)).headD false) es) s
      let s := { s with dbufs := s.dbufs.filter (fun b => !(b.ctx == ctx && b.launch == idx)) }
      .next (modLaunch s ctx idx (fun l => { l with applied := true, logRuns := [] }))

end Sys2Proof.Machine
end

