-- ==== Sys2Proof/Machine/Sync.lean ====
section
/-!
DEFINITION. Barriers, memory barrier words, uniform full/empty, stage rings and the waits for copies (R152-R165,
R361-R368).
-/
namespace Sys2Proof.Machine

/-- The issue of an instruction whose end may still be awaited: a split that already waits in it goes on with `again`. -/
def orWait (again : Iss → Wait → State → Res) (issue : State → Out) (s : State) : Out :=
  match issuer s with
  | none => .fault .noIssuer
  | some x => match x.sp.wait with
    | some w => finish x 1 (again x w s)
    | none => issue s

/-- A wait begun: the split has issued its instruction and stands at it (R363, R366). -/
def beginWait (s : State) (x : Iss) (w : Wait) : State := onSplit s x (fun q => { q with wait := some w })

/-- A release at group scope by an instruction that is not a store: it waits for the role's earlier accesses (R374). -/
def groupReleased (s : State) (x : Iss) : Bool := releasedAt s x 1 && (pendingAcqs s x).isEmpty

/-! ### Group barriers -/

/-- A role's split that has issued a barrier instruction of barrier `b` held at it, whatever its guard (R153, R364, R365). -/
def holdAtBar (s : State) (x : Iss) (g : Guard) (b count : Nat) (spec : Bool) : Res :=
  .issued (.barrier b) (onSplit s x (fun q => { q with hold := .bar b count spec g }))

/-- The barrier that a barrier instruction names, and its count (R364). -/
def barNo (f : FI) : Nat := f.imm.toNat % 16
/-- The count of a barrier instruction (R364). -/
def barCount (f : FI) : Nat := f.imm.toNat / 16 % 64

/-- BAR (R364, R365). -/
def execBar (g : Guard) (f : FI) (s : State) : Out :=
  runWord .all true 1 { neg := false, pred := 7 } noTok (fun _ _ => []) (fun x _ s => holdAtBar s x g (barNo f) (barCount f) false) s

/-- Whether the word at a physical address is a REGION (R155). -/
def isRegionAt (s : State) (c pa : Nat) : Bool :=
  match decodeWords (BitVec.ofNat 64 (coreRead s c false pa 8)) [] with
  | .ok (.region _ _) => true
  | _ => false

/-- BARSPEC (R155, R364, R365): the word after it is read as a fetch is. Where it is no REGION the split is held with a count that no
barrier takes, so that it traps in place of arriving, and only where a lane passes its guard (notes/assumptions/125.md). -/
def execBarspec (g : Guard) (f : FI) (s : State) : Out :=
  runWord .vector true 1 { neg := false, pred := 7 } noTok (fun _ _ => [])
    (fun x _ s => withTranslation s x 3 0 false ((lanesOf x.sp.mask).map (fun l => (l, (x.sp.pc + 8).toNat))) (fun pas s =>
      holdAtBar s x g (barNo f) (if pas.all (fun p => isRegionAt s x.w.core p.2.1) then barCount f else 63) true)) s

/-- The barrier instruction at which all of a role stands (R153): its PC, barrier, count, whether it speculates, its
guard, and the lanes there. -/
def standsAt (y : Warp) : Option (W64 × Nat × Nat × Bool × Guard × W32) :=
  let occ := (List.range 4).filterMap (fun i => y.split i)
  match occ with
  | [] => none
  | x :: _ => match x.hold with
    | .bar b n sp g =>
      let rest := (y.wlist ++ y.spilled).map (fun e => e.sp)
      if occ.all (fun q => q.hold == x.hold && q.pc == x.pc && q.wait.isNone) && rest.all (fun q => q.pc == x.pc) then
        some (x.pc, b, n, sp, g, (occ ++ rest).foldl (fun m q => m ||| q.mask) 0)
      else none
    | _ => none

/-- Whether every access the role issued has been performed: its own requests, reads too, as the arrival is a release (R400);
a copy warp's copies, the matrix thread's drains (R153). -/
def roleWritesDone (s : State) (c g w : Nat) : Bool :=
  s.inflight.all (fun r => !(r.who.core == c && r.who.gslot == g && r.who.wid == w)) &&
  (coreOf s c).copies.all (fun q => !(q.gslot == g && q.wid == w)) &&
  (w != 64 || (coreOf s c).drains.all (fun d => d.gslot != g))

/-- Whether a barrier instruction's count is refused (R152, R364): above 37 or the launched roles, or other than E in its phase. -/
def countBad (k : Group) (b n : Nat) : Bool :=
  let q := barOf k b
  n > 37 || n > launchedRoles k.tmpl || (q.a != 0 && (n != q.e || (n == 0) != q.zero))

/-- BARRIER_ARRIVAL: the arrival of a role all of which stands at one barrier instruction takes effect, once what it must wait
for is done (R153, R365), in its place in the order of the cycle (R154); a count that is refused traps (R152, R364); with no lane of
the guard the role goes on at once. A commit that waited for a copy is made (R70). A HALTED role arrives too, but does not speculate (R433). -/
def execBarrierArrival (core gslot wid : Nat) (s : State) : Out :=
  let who : Who := { core := core, gslot := gslot, wid := wid, slot := 0 }
  match groupAt s core gslot, warpAt s core gslot wid with
  | some k, some y =>
    if (y.spec.elim false (fun p => p.due)) then .next (y.spec.elim s (commit s core gslot wid))
    else if y.run != .run || y.parked.isSome || y.spec.isSome || !rankOk s who then .next s
    else match standsAt y with
      | none => .next s
      | some (_, b, n, sp, g, lanes) =>
        let p := predOf y g.pred.toNat
        let m := lanes &&& (if g.neg then ~~~p else p)
        let slot := ((List.range 4).find? (fun i => (y.split i).isSome)).getD 0
        if m == 0 then .next (modWarp s core gslot wid (fun y => warpPast y b 1))
        else if countBad k b n then .next (takeTrap s { who with slot := slot } .illegal m 0 0 1)
        else if roleWritesDone s core gslot wid then .next (arrive (noteRank s who) core gslot wid b n (sp && !y.halted))
        else .next s
  | _, _ => .next s

/-! ### Memory barrier words -/

/-- The one access of MBARA and MBARW, checked (R366, R160, R72). -/
def withBarWord (s : State) (x : Iss) (m : W32) (f : FM) (k : List (Nat × Nat × TlbEntry) → State → Res) : Res :=
  let va := uniformAddr x f.base f.off.toInt 8
  withWide s x m 2 8 va (fun pas s =>
    if pas.any (fun p => p.2.2.noatom || inHostMem p.2.1) then .trap .atomicMemtype m va 0 s
    else wideClean s m va pas (fun s => k pas s))

/-- MBARA (R161, R366). -/
def execMbara (g : Guard) (f : FM) (s : State) : Out :=
  runWord .all true 1 g f.twait (fun _ _ => [.u f.base.toNat f.fe])
    (fun x m s => withBarWord s x m f (fun pas s =>
      let la := pas.map (fun p => ({ lane := 0, pa := p.2.1, v := 0 } : LaneAcc))
      let (ids, s) := sendReqs s x .mbara 8 f.scope.toNat 2 none false true [la]
      let s := noteWrites s x.w (pas.map (fun p => lineOf p.2.1))
      .done (onGroup s x (fun k => ids.foldl (fun k i => produceU k i.1 f.data.toNat 0) k)))) s

/-- MBARW (R161, R366): q is read and the destination marked empty at issue; MBARW_POLL makes its reads. -/
def execMbarw (g : Guard) (f : FM) (s : State) : Out :=
  orWait (fun _ _ s => .hold .dispatcher s)
    (runWord .all true 1 g f.twait (fun _ _ => [.u f.base.toNat f.fe, .u f.data.toNat f.fe])
      (fun x m s => withBarWord s x m f (fun _ s =>
        let q := bitsOf (sreg x.grp f.data.toNat).toNat 48 16
        let (id, s) := freshId s
        let s := onGroup s x (fun k => produceU k id f.data.toNat 0)
        .issued .dispatcher (beginWait (addAcqs s x [] f.scope.toNat) x (.mbarw (uniformAddr x f.base f.off.toInt 8) q f.data.toNat id f.scope.toNat m))))) s

/-- Whether a barrier word is malformed (R161). -/
def mbarMalformed (v : Nat) : Bool := bitsOf v 32 16 == 0 || v % 2 ^ 16 ≥ bitsOf v 32 16 || bitsOf v 16 16 != 0

/-- The request an MBARW's read is (R161): a sync load with acquire order, after the acquires `after` of its split (R400). -/
def pollReq (w : Who) (id pa q scope : Nat) (after : List Nat) : Req where
  id := id
  kind := .poll q
  who := w
  w := 8
  lanes := [{ lane := 0, pa := pa, v := 0 }]
  tok := none
  scope := scope
  ord := 1
  after := after
  l1ok := false
  sync := true
  fmt := 0

/-- An MBARW taken back: its register waits for it no longer, and its split no longer waits. -/
def dropPoll (s : State) (who : Who) (id : Nat) : State :=
  modSplit (modGroup s who.core who.gslot (fun k => { k with uprods := k.uprods.filter (fun p => p.id != id) })) who
    (fun q => { q with wait := none })

/-- One read of an MBARW at the home of its word (R161, R366): it ends the wait when the phase has passed or the word is
malformed; the core keeps no older copy of the line. -/
def pollWord (s : State) (who : Who) (sp : Split) (va pa q id scope : Nat) (lanes : W32) : State :=
  let r := pollReq who id pa q scope sp.acqs
  if !eligible s r then s
  else if isPoisoned s (lineOf pa) then takeTrap (dropPoll s who id) who .poison lanes va 0 1
  else
    let s := sawHome (l1Drop (acquireAt s r) who.core (lineOf pa)) r.reads
    let v := memNat s.mem pa 8
    if bitsOf v 48 16 != q || mbarMalformed v then wakeSplit (modGroup s who.core who.gslot (fun k => arriveU k id v)) who 1 else s

/-- MBARW_POLL: the word's address is translated again, and the word read with acquire order (R161, R188, R366). -/
def execMbarwPoll (core gslot wid slot : Nat) (s : State) : Out :=
  let who : Who := { core := core, gslot := gslot, wid := wid, slot := slot }
  match groupAt s core gslot, warpAt s core gslot wid with
  | some k, some y => match y.split slot with
    | none => .next s
    | some sp => match sp.wait with
      | some (.mbarw va q _ id scope lanes) =>
        if y.run != .run || y.halted then .next s
        else match engineTranslate s core k.ctx va 2 0 k.launch with
          | (.ok pa e, s) =>
            if e.noatom || inHostMem pa then .next (takeTrap (dropPoll s who id) who .atomicMemtype lanes va 0 1)
            else .next (pollWord s who sp va pa q id scope lanes)
          | (.protection, s) => .next (takeTrap (dropPoll s who id) who .pageProtection lanes va 2 1)
          | (.lost, s) => .next (takeTrap (dropPoll s who id) who .pageLost lanes va 2 1)
          | (.wait, s) => .next (modWarp (dropPoll s who id) core gslot wid (fun y => { y with
              run := .pageWait (ctxOf s k.ctx).pasid [va / 4096] slot true 2 ((lanesOf lanes).map (fun l => (l, va))) }))
      | _ => .next s
  | _, _ => .next s

/-! ### Uniform full/empty -/

/-- Whether a producer is outstanding into a uniform register. -/
def uProducing (g : Group) (r : Nat) : Bool := g.uprods.any (fun p => p.reg == r)

/-- FEMPTY (R367). -/
def execFempty (g : Guard) (f : FA) (s : State) : Out :=
  let r := f.dst.toNat
  runWord .all true 1 g noTok (fun _ _ => [])
    (fun x _ s =>
      if uProducing x.grp r then .hold .groupRoles s
      else .done (onGroup s x (fun k => if k.sempty.contains r then k else { k with sempty := k.sempty ++ [r] }))) s

/-- FEFILL (R367): a group-scope release. -/
def execFefill (g : Guard) (f : FA) (s : State) : Out :=
  let r := f.dst.toNat
  runWord .all true 1 g noTok (fun _ _ => [.u f.srca.toNat f.fea])
    (fun x _ s =>
      if uProducing x.grp r || !x.grp.sempty.contains r then .hold .groupRoles s
      else if !groupReleased s x then .hold .nothing s
      else .done (onGroup (synced s x.w) x (fun k =>
        unblockU { setSreg k r (sreg x.grp f.srca.toNat) with sempty := k.sempty.filter (fun q => q != r) }))) s

/-! ### Stage rings -/

/-- A stage of a ring of a group, if it exists (R162). -/
def stageOf (g : Group) (ring stage : Nat) : Option Stage := (g.rings[ring]?).bind (fun l => l[stage]?)

/-- Whether a role waits on a ring (R163): a split held in an STGWAIT that names it. -/
def ringAwaited (g : Group) (ring : Nat) : Bool :=
  g.warps.any (fun (_, y) => y.splits.any (fun o => match o.bind (fun q => q.wait) with
    | some (.stg r _ _ _ _ _ _) => r == ring
    | _ => false))

/-- What an STGWAIT answers for a counter value (R164, R363); none while it waits. -/
def stageAnswer (c : Nat) (parity : Bool) (operand : Nat) : Option Nat :=
  if parity then (if c % 2 != operand % 2 then some c else none)
  else
    let d := (c + 2 ^ 16 - operand % 2 ^ 16) % 2 ^ 16
    if d = 1 then some c
    else if 2 ≤ d ∧ d ≤ 2 ^ 15 then some (c + (d - 1) <<< 16 + 2 ^ 32)
    else none

/-- The counter an STGWAIT names. -/
def Stage.counter (t : Stage) (eph : Bool) : Nat := if eph then t.eph.toNat else t.fph.toNat

/-- The STGWAITs of a group evaluated, after every update of a cycle and again after a resume (R163, R164, R165). -/
def evalStages (s : State) (c g : Nat) : State :=
  match groupAt s c g with
  | none => s
  | some k => k.warps.foldl (fun s (w, y) => (List.range 4).foldl (fun s i =>
      match (y.split i).bind (fun q => q.wait) with
      | some (.stg r st eph par op _ id) =>
        match (stageOf k r st).bind (fun t => stageAnswer (t.counter eph) par op) with
        | some v => wakeSplit (modGroup s c g (fun k => arriveU k id v)) { core := c, gslot := g, wid := w, slot := i } 1
        | none => s
      | _ => s) s) s

/-- A stage's counters replaced; the waits on it are evaluated at the end of the cycle (R163). -/
def setStage (s : State) (c g ring stage : Nat) (t : Stage) : State :=
  modGroup s c g (fun k => { k with rings := listSet k.rings ring (listSet (k.rings.getD ring []) stage t) })

/-- STGFILL's effect on an EMPTY stage (R163): none when it is FULL. -/
def Stage.fill (t : Stage) : Option Stage := if t.fph == t.eph then some { t with fph := t.fph + 1 } else none

/-- STGFREE's effect on a FULL stage (R163): none when it is EMPTY. -/
def Stage.free (t : Stage) : Option Stage := if t.fph == t.eph then none else some { t with eph := t.eph + 1 }

/-- STGFILL and STGFREE (R163, R362). -/
def stageOp (g : Guard) (f : FI) (op : Stage → Option Stage) (s : State) : Out :=
  let reg := f.imm.getLsbD 23
  let ring := f.imm.toNat % 4
  runWord .all true 1 g noTok (fun _ _ => if reg then [.u f.srca.toNat f.fe] else [])
    (fun x m s =>
      let stage := if reg then (sreg x.grp f.srca.toNat).toNat % 2 ^ 32 else f.imm.toNat / 4 % 8
      match stageOf x.grp ring stage with
      | none => .trap .stage m 0 0 s
      | some t =>
        if !groupReleased s x then .hold .nothing s
        else match op t with
          | none => .trap .stage m 0 0 s
          | some t => .done (setStage s x.w.core x.w.gslot ring stage t)) s

/-- STGFILL (R163, R362). -/
def execStgfill (g : Guard) (f : FI) (s : State) : Out := stageOp g f Stage.fill s
/-- STGFREE (R163, R362). -/
def execStgfree (g : Guard) (f : FI) (s : State) : Out := stageOp g f Stage.free s

/-- STGINIT (R163): it traps while a role waits on the ring. -/
def execStginit (g : Guard) (f : FI) (s : State) : Out :=
  let ring := f.imm.toNat % 4
  runWord .all true 1 g noTok (fun _ _ => [])
    (fun x m s =>
      if ring ≥ x.grp.tmpl.nrings || ringAwaited x.grp ring then .trap .stage m 0 0 s
      else .done (onGroup s x (fun k =>
        { k with rings := listSet k.rings ring ((k.rings.getD ring []).map (fun _ => { fph := 0, eph := 0 })) }))) s

/-- STGQRY (R163, R363). -/
def execStgqry (g : Guard) (f : FA) (s : State) : Out :=
  runWord .all false 1 g noTok (fun _ _ => [.ud f.dst.toNat])
    (fun x m s => match stageOf x.grp (f.srcb.toNat % 4) (f.srcb.toNat / 4 % 8) with
      | none => .trap .stage m 0 0 s
      | some t => .done (onGroup s x (fun k =>
          setSreg k f.dst.toNat (BitVec.ofNat 64 (t.fph.toNat + t.eph.toNat * 2 ^ 16))))) s

/-- STGWAIT (R163, R164, R362, R363): its test is made after every update of the cycle, of this one the first time. -/
def execStgwait (g : Guard) (f : FA) (s : State) : Out :=
  let ring := f.srcb.toNat % 4
  let stage := f.srcb.toNat / 4 % 8
  let eph := f.srcb.getLsbD 5
  let par := f.srcb.getLsbD 6
  orWait (fun _ _ s => .hold .groupRoles s)
    (runWord .all true 1 g noTok (fun _ _ => [.u f.srca.toNat f.fea])
      (fun x m s => match stageOf x.grp ring stage with
        | none => .trap .stage m 0 0 s
        | some _ =>
          let op := (sreg x.grp f.srca.toNat).toNat % 2 ^ 16
          let (id, s) := freshId s
          let s := onGroup s x (fun k => produceU k id f.dst.toNat 0)
          .issued .groupRoles (beginWait s x (.stg ring stage eph par op f.dst.toNat id)))) s

/-! ### Waiting for copies -/

/-- The copies of the issuer's group in flight whose tag `p` names. -/
def groupCopies (s : State) (x : Iss) (p : Nat → Bool) : List Copy :=
  (coreOf s x.w.core).copies.filter (fun c => c.gslot == x.w.gslot && p c.tag)

/-- CWAIT (R361): the copies started before it issued; it goes on when the last of them retires. -/
def execCwait (g : Guard) (f : FI) (s : State) : Out :=
  orWait (fun _ _ s => .hold .copyWarps s)
    (runWord .all true 1 g noTok (fun _ _ => [])
      (fun x _ s =>
        let ids := (groupCopies s x (fun t => f.imm.getLsbD t)).map (fun c => c.id)
        if ids.isEmpty then .done (synced s x.w) else .issued .copyWarps (beginWait s x (.cwait ids)))) s

/-- CPOLL (R361). -/
def execCpoll (g : Guard) (f : FA) (s : State) : Out :=
  runWord .all false 1 g noTok (fun _ _ => [.ud f.dst.toNat])
    (fun x _ s =>
      let v := (List.range 8).foldl (fun acc t => acc + Nat.min 255 (groupCopies s x (fun k => k == t)).length * 2 ^ (8 * t)) 0
      .done (onGroup s x (fun k => setSreg k f.dst.toNat (BitVec.ofNat 64 v)))) s

end Sys2Proof.Machine
end

