-- ==== Sys2Proof/Machine/Plu.lean ====
section
/-!
DEFINITION. The PLU: intake (R20, R95-R97), canonical release (R117, R118), candidates (R119-R124), acceptance (R127-R130).
-/
namespace Sys2Proof.Machine

/-! ### Completions of ring packets -/

/-- A Wellhead packet complete (R101, R102): the completion written at its physical address, of which a hole takes nothing (R54), and a
WAITING ring with no packet open running again (R105). -/
def ringDone (s : State) (ring : Nat) (tag : W32) (caddr : W64) (status result : Nat) : State :=
  let s := if caddr.toNat = 0 || caddr.toNat % 8 != 0 then s
    else hostPut s caddr.toNat (bytesLE 8 (status + result % 2 ^ 16 * 2 ^ 16 + tag.toNat * 2 ^ 32))
  modRing s ring (fun r =>
    let r := { r with open_ := r.open_ - 1 }
    if r.st == .waiting && r.open_ == 0 then { r with st := .running } else r)

/-! ### Domains, streams, frontiers -/

/-- The last stamps of the OPEN streams of a domain. -/
def openLasts (s : State) (n : Nat) : List Nat :=
  (s.streams.filter (fun (_, t) => t.st == .open_ && t.dom == n)).map (fun (_, t) => t.last)

/-- The frontier of a domain (R95, R117): the least last stamp of its OPEN streams; where there is none it stays. -/
def frontierOf (s : State) (n : Nat) : Nat :=
  match openLasts s n with
  | [] => (domOf s n).frontier
  | l :: r => r.foldl Nat.min l

/-- The frontier of a domain kept, and its reorder buffer taken back when it holds no OPEN stream and no event (R99); the
event at which the domain is halted counts (notes/assumptions/107.md). -/
def refreshDom (s : State) (n : Nat) : State :=
  let f := frontierOf s n
  let none_ := (openLasts s n).isEmpty
  modDom s n (fun d => { d with frontier := f, buffer := d.buffer && !(none_ && d.buf.isEmpty && d.work.isEmpty) })

/-- Canonical order (R117): STAMP, STREAM, SEQ, then intake order. -/
def canonLe (a b : Buffered) : Bool :=
  let k := fun (x : Buffered) => ((x.ev.stamp.toNat * 2 ^ 14 + x.ev.stream.toNat) * 2 ^ 32 + x.ev.seq.toNat, x.ord)
  (k a).1 < (k b).1 || ((k a).1 == (k b).1 && (k a).2 ≤ (k b).2)

/-- The next event of a domain in canonical order that its frontier has passed (R117). -/
def nextEvent (s : State) (n : Nat) : Option Buffered :=
  match (domOf s n).buf.foldl (fun (b : Option Buffered) x => match b with
      | some y => if canonLe y x then some y else some x
      | none => some x) none with
  | some x => if x.ev.stamp.toNat < frontierOf s n then some x else none
  | none => none

/-! ### Automata -/

/-- Automaton slot `i` of a die. -/
def autoOf (s : State) (die i : Nat) : Auto := mapGet (dieOf s die).autos i Auto.reset

/-- Automaton slot `i` of a die changed. -/
def modAuto (s : State) (die i : Nat) (f : Auto → Auto) : State :=
  modDie s die (fun d => { d with autos := mapSet d.autos i (f (mapGet d.autos i Auto.reset)) })

/-- A 32-bit field of an event by its code (R115). -/
def evField (e : EventRec) (fld : Nat) : Nat :=
  match fld with
  | 0 => e.p0.toNat % 2 ^ 32
  | 1 => e.p0.toNat / 2 ^ 32
  | 2 => e.p1.toNat % 2 ^ 32
  | _ => e.p1.toNat / 2 ^ 32

/-- A clock guard on the time since a reset (R115, R119). -/
def guardHolds (g : Grd) (stamp reset : Nat) : Bool :=
  if !g.en then true
  else
    let v := (stamp + 2 ^ 64 - reset) % 2 ^ 64
    match g.op with
    | 0 => v < g.const
    | 1 => v ≤ g.const
    | 2 => v == g.const
    | 3 => v ≥ g.const
    | _ => v > g.const

/-- A field comparison (R115, R120): false against an empty slot. -/
def cmpHolds (c : CmpF) (e : EventRec) (slots : List (Option EventRec)) : Bool :=
  if !c.en then true
  else
    let a := evField e c.fld
    let test := fun (b : Nat) => match c.op with
      | 0 => a == b
      | 1 => a != b
      | 2 => decide (a < b)
      | 3 => decide (a ≤ b)
      | 4 => decide (a > b)
      | _ => decide (a ≥ b)
    if c.srcb then match slots.getD (c.const % 8) none with
      | some b => test (evField b c.fld)
      | none => false
    else test c.const

/-- A location of an image. -/
def Image.loc (m : Image) (i : Nat) : Loc :=
  m.locs.getD i { acc := 0, tmpl := 0, inven := false, invclk := 0, invc := 0, fben := false, fstrlo := 0, fstrhi := 0, fkval := 0, fkmask := 0 }

/-- Whether an edge is enabled for a candidate at an event (R120). -/
def edgeEnabled (m : Image) (c : Cand) (e : EventRec) (k : Edge) : Bool :=
  let stamp := e.stamp.toNat
  let reset := fun (x : Nat) => c.reset.getD x 0
  let l := m.loc k.tgt
  k.src == c.loc && e.kind != 0 && k.strlo ≤ e.stream.toNat && e.stream.toNat ≤ k.strhi &&
  (e.kind.toNat &&& k.kmask) == k.kval &&
  guardHolds k.grd0 stamp (reset k.grd0.clk) && guardHolds k.grd1 stamp (reset k.grd1.clk) &&
  cmpHolds k.cmp0 e c.slots && cmpHolds k.cmp1 e c.slots &&
  (!l.inven || (if k.rst.testBit l.invclk then true else (stamp + 2 ^ 64 - reset l.invclk) % 2 ^ 64 ≤ l.invc)) &&
  (!k.append || c.list.length < m.listmax)

/-- The lowest-numbered enabled edge. -/
def enabledEdge (m : Image) (c : Cand) (e : EventRec) : Option Edge := m.edges.find? (edgeEnabled m c e)

/-- Forbid(l, e) of R121. -/
def forbids (l : Loc) (e : EventRec) : Bool :=
  l.fben && e.kind != 0 && l.fstrlo ≤ e.stream.toNat && e.stream.toNat ≤ l.fstrhi && (e.kind.toNat &&& l.fkmask) == l.fkval

/-- A fresh candidate in location 0 at an event (R122). -/
def freshCand (seq : Nat) (e : EventRec) : Cand where
  seq := seq
  loc := 0
  reset := List.replicate 4 e.stamp.toNat
  slots := List.replicate 8 none
  list := []

/-- Take of R122, without what entering the target does. -/
def takeEdge (c : Cand) (k : Edge) (e : EventRec) : Cand :=
  { c with
    loc := k.tgt
    reset := (List.range 4).map (fun x => if k.rst.testBit x then e.stamp.toNat else c.reset.getD x 0)
    slots := if k.binden then listSet c.slots k.bslot (some e) else c.slots
    list := if k.append then c.list ++ [e] else c.list }

/-- The deadline of a candidate (R119). -/
def deadlineOf (m : Image) (c : Cand) : Option Nat :=
  let l := m.loc c.loc
  if l.inven then some (c.reset.getD l.invclk 0 + l.invc) else none

/-- The entries a candidate takes (R124). -/
def Cand.entries (c : Cand) : Nat := 1 + (c.list.length + 7) / 8

/-- The entries in use on a die: candidates, and candidates whose acceptance waits (R124, R130). -/
def dieEntries (s : State) (die : Nat) : Nat :=
  ((dieOf s die).autos.foldl (fun n (_, a) => n + a.cands.foldl (fun n c => n + c.entries) 0) 0) +
  (s.domains.foldl (fun n (_, d) => if d.die == die then n + d.work.foldl (fun n w => match w with
    | .accept _ c _ _ => n + c.entries
    | _ => n) 0 else n) 0)

/-- The entries an automaton uses. -/
def Auto.entries (a : Auto) : Nat := a.cands.foldl (fun n c => n + c.entries) 0

/-- A candidate discarded, its entries and charges returned (R123). -/
def discardCand (s : State) (die i : Nat) (c : Cand) : State :=
  let a := autoOf s die i
  uncharge (modAuto s die i (fun a => { a with cands := a.cands.filter (fun d => d.seq != c.seq) })) a.ctx a.img.region
    { cand := c.entries }

/-- The launch index the counter of a context on a die would assign next (R84, R127). -/
def nextLaunch (s : State) (die ctx : Nat) : Nat := mapGet (dieOf s die).launchCtr ctx 0 * 4 + die

/-- What a try for entries gives (R124). -/
inductive EntryOut where
  | ok (s : State)
  | drop (s : State)
  | stall
  | faulted (s : State)

/-- `n` entries for an automaton, with its overflow policy (R124); `keep` is the candidate that needs them. -/
def takeEntry (fuel : Nat) (s : State) (die i : Nat) (keep : Option Nat) (n : Nat) : EntryOut :=
  let a := autoOf s die i
  let regions := (ctxOf s a.ctx).regions
  let dropNew := EntryOut.drop (modAuto s die i (fun a => { a with drops := (a.drops + 1) % 2 ^ 32 }))
  if a.entries + n ≤ a.img.candmax && dieEntries s die + n ≤ 16384 && admitted regions a.img.region { cand := n } then
    .ok (charge s a.ctx a.img.region { cand := n })
  else match a.img.ovf with
    | 0 => match fuel, a.cands.find? (fun c => some c.seq != keep) with
      | fuel + 1, some c =>
        takeEntry fuel (modAuto (discardCand s die i c) die i (fun a => { a with drops := (a.drops + 1) % 2 ^ 32 })) die i keep n
      | _, _ => dropNew
    | 1 => dropNew
    | 2 => .stall
    | _ =>
      let s := a.cands.foldl (fun s c => discardCand s die i c) s
      let s := modAuto s die i (fun a => { a with st := .faulted })
      .faulted (regionFault s a.ctx a.img.region Cause.automaton.code (nextLaunch s die a.ctx) die)

/-! ### Acceptance -/

/-- The words of a bound event (R129). -/
def evWords (e : Option EventRec) : List W64 :=
  match e with
  | some e => [BitVec.ofNat 64 (e.bits % 2 ^ 64), e.stamp, e.p0, e.p1]
  | none => [0, 0, 0, 0]

/-- The arguments of a launch but its count and group index (R129): registers from s0 up. -/
def launchArgs (t : Template) (die i : Nat) (c : Cand) (idx count status stamp : Nat) : SMap W64 :=
  let n := if t.argl then 32 else 8
  let evs := (List.range n).flatMap (fun j => evWords (if t.argl then c.list[j]? else c.slots.getD j none))
  let filled := if t.argl then c.list.length
    else (List.range 8).foldl (fun m j => if (c.slots.getD j none).isSome then m + 2 ^ j else m) 0
  let tail := [idx, 0, count, die * 256 + i, c.seq, filled, stamp, status].map (fun v => BitVec.ofNat 64 v)
  (List.range (evs ++ tail).length).zip (evs ++ tail)

/-- The group count of a launch (R128): none when it faults. -/
def groupCount (t : Template) (c : Cand) : Option Nat :=
  if !t.gcsrc then some t.gcount
  else match (if t.argl then c.list[t.gcpos]? else c.slots.getD t.gcpos none) with
    | some e => if evField e t.gcfld ≤ 2 ^ 24 then some (evField e t.gcfld) else none
    | none => none

/-- The events a candidate has bound, in its slots and in its list (R374). -/
def Cand.events (c : Cand) : List EventRec := c.slots.filterMap id ++ c.list

/-- Acceptance of a candidate (R127-R130): its entries return, the launch takes the next index; none when no PEND unit is
to be had. -/
def acceptCand (s : State) (die i : Nat) (c : Cand) (status stamp : Nat) : Option State :=
  let a := autoOf s die i
  match a.img.tmpls[(a.img.loc c.loc).tmpl]? with
  | none => some s
  | some t =>
    if !admitted (ctxOf s a.ctx).regions t.region { pend := 1 } then none
    else
      let s := uncharge s a.ctx a.img.region { cand := c.entries }
      let idx := nextLaunch s die a.ctx
      let s := modDie s die (fun d => { d with launchCtr := mapSet d.launchCtr a.ctx (mapGet d.launchCtr a.ctx 0 + 1) })
      match groupCount t c with
      | none => some (regionFault s a.ctx t.region Cause.automaton.code idx die)
      | some n =>
        let l : Launch := {
          idx := idx
          die := die
          slot := i
          tmpl := t
          args := launchArgs t die i c idx n status stamp
          count := n
          admitted := 0
          freed := 0
          pend := n != 0
          waiting := false
          acq := c.events.any (fun e => e.rel || e.hostRel)
          reserve := none
          drawn := []
          logBlocks := []
          logPos := 0
          logRuns := []
          applied := false
          at_ := (dieOf s die).cycle }
        let s := if n = 0 then s else charge s a.ctx t.region { pend := 1 }
        some (modCtx s a.ctx (fun x => { x with launches := x.launches ++ [l] }))

/-! ### The processing of R122 -/

/-- One step of R122: what it leaves to do first, or why the domain halts at it. -/
inductive WorkOut where
  | next (more : List Work) (s : State)
  | halt (h : Halt)

/-- A candidate replaced. -/
def putCand (s : State) (die i : Nat) (c : Cand) : State :=
  modAuto s die i (fun a => { a with cands := a.cands.map (fun d => if d.seq == c.seq then c else d) })

/-- What entering a location does (R122): a discard, an acceptance, or nothing. -/
def enterLoc (s : State) (die i : Nat) (c : Cand) (e : EventRec) : List Work × State :=
  let m := (autoOf s die i).img
  let l := m.loc c.loc
  let out := modAuto s die i (fun a => { a with cands := a.cands.filter (fun d => d.seq != c.seq) })
  if c.loc = 0 then ([], discardCand s die i c)
  else if l.acc = 1 then ([.accept i c 0 e.stamp.toNat], out)
  else if l.acc = 2 && m.listmax > 0 && c.list.length == m.listmax then ([.accept i c 1 e.stamp.toNat], out)
  else ([], s)

/-- One step of the work of a domain on die `die` (R122-R124, R130). -/
def workStep (s : State) (die : Nat) (w : Work) : WorkOut :=
  match w with
  | .offer i e left =>
    let a := autoOf s die i
    match left with
    | [] => .next [.fresh i e] s
    | q :: rest => match a.cands.find? (fun c => c.seq == q) with
      | none => .next [.offer i e rest] s
      | some c =>
        if a.st != .armed then .next [] s
        else if forbids (a.img.loc c.loc) e then .next [.offer i e rest] (discardCand s die i c)
        else match enabledEdge a.img c e with
          | none => .next [.offer i e rest] s
          | some k =>
            let left := if !a.img.share && !k.keep then [] else [Work.offer i e rest]
            let go := fun (s : State) =>
              let c := takeEdge c k e
              let (acc, s) := enterLoc (putCand s die i c) die i c e
              WorkOut.next (acc ++ left) s
            if k.append && c.list.length % 8 = 0 then
              match takeEntry a.cands.length s die i (some c.seq) 1 with
              | .ok s => go s
              | .drop s => .next left (discardCand s die i c)
              | .stall => .halt (.entry a.ctx a.img.region)
              | .faulted s => .next [] s
            else go s
  | .fresh i e =>
    let a := autoOf s die i
    if a.st != .armed then .next [] s
    else
      let c := freshCand a.nextSeq e
      match enabledEdge a.img c e with
      | none => .next [] s
      | some k =>
        match takeEntry a.cands.length s die i none (if k.append then 2 else 1) with
        | .ok s =>
          let c := takeEdge c k e
          let s := modAuto s die i (fun a => { a with nextSeq := (a.nextSeq + 1) % 2 ^ 64, cands := a.cands ++ [c] })
          let (acc, s) := enterLoc s die i c e
          .next acc s
        | .drop s => .next [] s
        | .stall => .halt (.entry a.ctx a.img.region)
        | .faulted s => .next [] s
  | .expire i q =>
    let a := autoOf s die i
    match a.cands.find? (fun c => c.seq == q) with
    | none => .next [] s
    | some c =>
      if (a.img.loc c.loc).acc = 2 then
        let s := modAuto s die i (fun a => { a with cands := a.cands.filter (fun d => d.seq != q) })
        .next [.accept i c 2 ((deadlineOf a.img c).getD 0 + 1)] s
      else .next [] (discardCand s die i c)
  | .accept i c status stamp =>
    match acceptCand s die i c status stamp with
    | some s => .next [] s
    | none =>
      let a := autoOf s die i
      let r := match a.img.tmpls[(a.img.loc c.loc).tmpl]? with
        | some t => t.region
        | none => 0
      .halt (.pend a.ctx r)

/-- An upper bound on the steps that a list of work takes. -/
def workFuel (ws : List Work) : Nat :=
  ws.foldl (fun n w => n + (match w with
    | .offer _ _ l => 2 * l.length + 4
    | _ => 3)) 1

/-- The work of domain `n` done until nothing is left or it halts (R124, R130); what is left of it is kept in the domain. A visit that
consumes its event leaves no `offer` of it behind, also where its APPEND was refused (R122). -/
def runWork (fuel : Nat) (s : State) (n : Nat) (ws : List Work) : State :=
  match fuel, ws with
  | _, [] => refreshDom (modDom s n (fun d => { d with work := [], halt := .run })) n
  | 0, ws => modDom s n (fun d => { d with work := ws })
  | fuel + 1, w :: r => match workStep s (domOf s n).die w with
    | .halt h =>
      let now := (dieOf s (domOf s n).die).cycle
      modDom s n (fun d => { d with work := w :: r, halt := h, haltedAt := if d.halt == .run then now else d.haltedAt })
    | .next more s => runWork fuel (modDom s n (fun d => { d with halt := .run, work := more ++ r })) n (more ++ r)

end Sys2Proof.Machine
end

