-- ==== Sys2Proof/Machine/PluSteps.lean ====
section
/-!
DEFINITION. The steps of a PLU: intake of records and close markers (R20, R95-R97), the die's cycle (R97), canonical release
(R117, R118, R122), deadlines (R118, R123), and the end of a halt (R124, R130).
-/
namespace Sys2Proof.Machine

/-- Whether the `n`-th entry held for a PLU is the first of its source (R20, R118: each source keeps its order). -/
def firstOfSource (q : List Intake) (n : Nat) : Bool :=
  match q[n]? with
  | some i => (q.take n).all (fun j => !(j.cls == i.cls && j.key == i.key))
  | none => false

/-- What is told when an entry has been taken in: a token of a warp (R373), a ring packet's completion (R101). -/
def takenIn (s : State) (i : Intake) : State :=
  let s := match i.tok with
    | some (w, k) => addToken s w (some k) (-1)
    | none => s
  match i.done with
  | some (ring, tag, caddr) => ringDone s ring tag caddr 0 0
  | none => s

/-- What R95 makes of a record at intake. -/
inductive Taken where
  | drop | stale | beat | keep | held
  deriving DecidableEq, Repr

/-- The row of R95 that a record meets, with the holding of R118; `stamp` is the record's own, or the die's cycle in a DIECYCLE domain.
A PEER domain takes no record of a core or of the host (R373, R95), any other none that came over a link (R202); a device-generated
event meets R95 in every domain (R98). -/
def intakeRow (s : State) (i : Intake) (stamp : Nat) : Taken :=
  let t := streamOf s i.ev.stream.toNat
  let d := domOf s t.dom
  if t.st != .open_ then .drop
  else if (match i.emitter with
    | some c => c != t.ctx
    | none => false) then .drop
  else if (if d.kind == .peer then i.port.isNone && (i.emitter.isSome || i.done.isSome) else i.port.isSome) then .drop
  else if i.ev.kind != 0 && d.buf.length ≥ 512 then .held
  else if stamp < t.last then .stale
  else if i.ev.kind == 0 then .beat
  else .keep

/-- The stamp with which a record enters (R94). -/
def intakeStamp (s : State) (die : Nat) (i : Intake) : Nat :=
  if (domOf s (streamOf s i.ev.stream.toNat).dom).kind == .diecycle then (dieOf s die).cycle else i.ev.stamp.toNat

/-- Whether the `n`-th entry held for a PLU could be taken in (R20, R118): it is the first of its source, and no full buffer holds it. -/
def mayTake (s : State) (die n : Nat) : Bool :=
  let d := dieOf s die
  match d.intakeQ[n]? with
  | some i => firstOfSource d.intakeQ n && (i.marker || intakeRow s i (intakeStamp s die i) != .held)
  | none => false

/-- Whether entry `i` ranks above `j` in the order of R20; of the rings the lower number comes first (notes/assumptions/134.md). -/
def ranksAbove (i j : Intake) : Bool := i.cls < j.cls || (i.cls == j.cls && i.key < j.key)

/-- Whether the `n`-th entry is the one a PLU takes in next (R20, R96): one in a cycle, the first in the order of the classes. -/
def intakeFirst (s : State) (die n : Nat) : Bool :=
  let d := dieOf s die
  !d.intook && mayTake s die n &&
  (List.range d.intakeQ.length).all (fun m => !mayTake s die m || (match d.intakeQ[m]?, d.intakeQ[n]? with
    | some j, some i => !ranksAbove j i
    | _, _ => true))

/-- Whether the `n`-th entry may be taken in before its PLU's cycle ends: it came in an earlier cycle. One that came in this cycle is taken
in at its end, when every arrival of the cycle is known (R20). -/
def intakeTurn (s : State) (die n : Nat) : Bool :=
  intakeFirst s die n && (match (dieOf s die).intakeQ[n]? with
    | some i => i.at_ != (dieOf s die).cycle
    | none => false)

/-- The `n`-th entry taken off its source: the cycle's intake (R20). -/
def takeOff (s : State) (die n : Nat) : State :=
  modDie s die (fun d => { d with intakeQ := listDrop d.intakeQ n, intook := true })

/-- A record taken in by the PLU of a die (R94, R95, R117, R118). A record of a stream that was never bound has no domain to count it;
the counters wrap at 2^64 (notes/assumptions/133.md). -/
def takeRecord (s : State) (die n : Nat) (i : Intake) : State :=
  let num := i.ev.stream.toNat
  let t := streamOf s num
  let stamp := intakeStamp s die i
  let row := intakeRow s i stamp
  let s := takenIn (takeOff s die n) i
  match row with
  | .drop => if t.st == .unbound then s else modDom s t.dom (fun d => { d with drop := (d.drop + 1) % 2 ^ 64 })
  | .stale => modDom s t.dom (fun d => { d with stale := (d.stale + 1) % 2 ^ 64 })
  | .beat => refreshDom (modStream s num (fun t => { t with last := stamp })) t.dom
  | _ =>
    let s := modStream s num (fun t => { t with last := stamp })
    let s := modDom s t.dom (fun d => { d with
      buf := d.buf ++ [{ ev := { i.ev with stamp := BitVec.ofNat 64 stamp }, ord := d.nextOrd }]
      nextOrd := d.nextOrd + 1 })
    refreshDom s t.dom

/-- A close marker taken in (R96): the stream closes. -/
def takeMarker (s : State) (die n : Nat) (i : Intake) : State :=
  let num := i.ev.stream.toNat
  let dom := (streamOf s num).dom
  let s := takenIn (takeOff s die n) i
  refreshDom (modStream s num (fun t => { t with st := if t.st == .open_ then .closed else t.st, closing := false })) dom

/-- EVENT_INTAKE: the `n`-th record held for the PLU of a die is taken in (R20). -/
def execEventIntake (die n : Nat) (s : State) : Out :=
  match (dieOf s die).intakeQ[n]? with
  | none => .next s
  | some i => .next (if i.marker || !intakeTurn s die n then s else takeRecord s die n i)

/-- CLOSE_MARKER_INTAKE: the `n`-th entry, a close marker, is taken in (R96). -/
def execCloseMarkerIntake (die n : Nat) (s : State) : Out :=
  match (dieOf s die).intakeQ[n]? with
  | none => .next s
  | some i => .next (if !i.marker || !intakeTurn s die n then s else takeMarker s die n i)

/-- The intake of a die's cycle at its end, where none has been made (R20). -/
def endIntake (s : State) (die : Nat) : State :=
  match (List.range (dieOf s die).intakeQ.length).find? (intakeFirst s die) with
  | none => s
  | some n => match (dieOf s die).intakeQ[n]? with
    | none => s
    | some i => if i.marker then takeMarker s die n i else takeRecord s die n i

/-- An entry of a ring put at the end of a PLU's queue (R103): two entries of one ring that are held together come of packets without
BARRIER between them, which may complete in any order. -/
def ringLate (s : State) (die n : Nat) : State :=
  match (dieOf s die).intakeQ[n]? with
  | some i => if i.cls == 4 then modDie s die (fun d => { d with intakeQ := listDrop d.intakeQ n ++ [i] }) else s
  | none => s

/-- The armed automata of a domain, in ascending id (R122). -/
def armedOf (s : State) (n : Nat) : List (Nat × Auto) :=
  (dieOf s (domOf s n).die).autos.filter (fun (_, a) => a.st == .armed && a.img.domain == n)

/-- The deadlines of a domain: deadline, automaton, candidate, in the order of R118. -/
def deadlinesOf (s : State) (n : Nat) : List (Nat × Nat × Nat) :=
  (armedOf s n).flatMap (fun (i, a) => a.cands.filterMap (fun c => (deadlineOf a.img c).map (fun d => (d, i, c.seq))))

/-- The first of the least deadlines. -/
def firstDeadline (s : State) (n : Nat) : Option (Nat × Nat × Nat) :=
  (deadlinesOf s n).foldl (fun (b : Option (Nat × Nat × Nat)) x => match b with
    | some y => if x.1 < y.1 then some x else some y
    | none => some x) none

/-- Whether a record fills an EVWAIT (R376). -/
def evMeets (e : EventRec) (thr : Nat) : Bool := (e.seq.toNat + 2 ^ 32 - thr % 2 ^ 32) % 2 ^ 32 < 2 ^ 31

/-- The four registers of an EVRD or EVWAIT filled with a record; a release it carries is acquired (R376). -/
def fillEvent (s : State) (w : Who) (id : Nat) (e : EventRec) : State :=
  let s := modGroup s w.core w.gslot (fun g => arriveU g id e.bits)
  match e.rel || e.hostRel, groupAt s w.core w.gslot with
  | true, some g => acquireWide (settleUnits s g.ctx) w
  | _, _ => s

/-- The EVWAITs on a stream tested after a change of its record (R376). -/
def wakeEvwaits (s : State) (stream : Nat) (e : EventRec) : State :=
  (residents s).foldl (fun s (c, g, k) => k.warps.foldl (fun s (w, y) => (List.range 4).foldl (fun s i =>
    match (y.split i).bind (fun q => q.wait) with
    | some (.evwait st thr _ id) =>
      let who : Who := { core := c, gslot := g, wid := w, slot := i }
      if st == stream && evMeets e thr then wakeSplit (fillEvent s who id e) who 1 else s
    | _ => s) s) s) s

/-- Whether a restored automaton has already seen an event (R126). -/
def seenBefore (a : Auto) (e : EventRec) : Bool :=
  match a.skip with
  | some (st, sm, sq) =>
    (e.stamp.toNat * 2 ^ 14 + e.stream.toNat) * 2 ^ 32 + e.seq.toNat ≤ (st * 2 ^ 14 + sm) * 2 ^ 32 + sq
  | none => false

/-- EVENT_RELEASE: the next event of a domain in canonical order below its frontier goes to its automata (R117, R118, R122),
and to its stream's latest record (R375). -/
def execEventRelease (dom : Nat) (s : State) : Out :=
  let d := domOf s dom
  if !d.cfg || d.halt != .run || !d.work.isEmpty then .next s
  else match nextEvent s dom with
    | none => .next s
    | some b =>
      let e := b.ev
      let num := e.stream.toNat
      if (deadlinesOf s dom).any (fun x => x.1 + 1 ≤ e.stamp.toNat) then .next s
      else
        let see := (armedOf s dom).filter (fun (_, a) => !seenBefore a e)
        let ws := see.map (fun (i, a) => Work.offer i e (a.cands.map (fun c => c.seq)))
        let s := modDom s dom (fun d => { d with buf := d.buf.filter (fun x => x.ord != b.ord), t := e.stamp.toNat })
        let s := see.foldl (fun s (i, _) => modAuto s d.die i (fun a =>
          { a with pos := some (e.stamp.toNat, num, e.seq.toNat) })) s
        let s := if (streamOf s num).dom == dom then
            wakeEvwaits (modStream s num (fun t => { t with latest := some e })) num e
          else s
        .next (runWork (workFuel ws) s dom ws)

/-- CANDIDATE_DEADLINE: the first candidate of a domain whose deadline has passed is accepted or discarded (R118, R123). -/
def execCandidateDeadline (dom : Nat) (s : State) : Out :=
  let d := domOf s dom
  if !d.cfg || d.halt != .run || !d.work.isEmpty then .next s
  else match firstDeadline s dom with
    | none => .next s
    | some (dl, i, q) =>
      let early := match nextEvent s dom with
        | some b => b.ev.stamp.toNat < dl + 1
        | none => false
      if early || !(dl + 1 < frontierOf s dom) then .next s
      else
        let s := modDom s dom (fun d => { d with t := dl + 1 })
        .next (runWork (workFuel [.expire i q]) s dom [.expire i q])

/-- ENTRY_STALL_RESUME: a domain halted for an entry goes on at the same step (R124). -/
def execEntryStallResume (dom : Nat) (s : State) : Out :=
  let d := domOf s dom
  match d.halt with
  | .entry _ _ => .next (runWork (workFuel d.work) s dom d.work)
  | _ => .next s

/-- PEND_STALL_RESUME: a domain halted for a PEND unit goes on at the same step (R130). -/
def execPendStallResume (dom : Nat) (s : State) : Out :=
  let d := domOf s dom
  match d.halt with
  | .pend _ _ => .next (runWork (workFuel d.work) s dom d.work)
  | _ => .next s

end Sys2Proof.Machine
end

