-- ==== Sys2Proof/Machine/Image.lean ====
section
/-!
DEFINITION. Automaton images and states in memory: their layouts (R112-R115, R128, R126, R380) and their checks (R116, R128,
R379).
-/
namespace Sys2Proof.Machine

/-- Bytes `a` to `a + n - 1` of a list as a number. -/
def bytesAt (bs : List Byte) (a n : Nat) : Nat := ofBytesLE ((bs.drop a).take n)

/-- A launch template's fields (R128). -/
def templateOf (v : Nat) : Template where
  entry := BitVec.ofNat 64 v
  gcount := bitsOf v 96 32
  gcsrc := v.testBit 128
  gcpos := bitsOf v 144 5
  gcfld := bitsOf v 149 2
  vwarps := bitsOf v 151 5
  cwarps := bitsOf v 156 3
  mthread := v.testBit 159
  argl := v.testBit 160
  vregs := bitsOf v 161 10
  sramsz := bitsOf v 171 22
  region := bitsOf v 193 8
  nrings := bitsOf v 201 3
  rings := (List.range 4).map (fun i => bitsOf v (204 + 3 * i) 3)
  cstream := bitsOf v 219 14
  cen := v.testBit 233
  crgroups := bitsOf v 256 16
  crregkib := bitsOf v 272 32
  crsramkib := bitsOf v 304 32
  crregion := bitsOf v 336 8

/-- Whether a template carries a child reserve (R128). -/
def Template.hasReserve (t : Template) : Bool := t.crgroups != 0 || t.crregkib != 0 || t.crsramkib != 0

/-- Whether a template is well formed in a context of `n` regions (R128); with a child reserve its CRREGION exists too, without one it
is not looked at (notes/assumptions/136.md). -/
def templateOk (v n : Nat) : Bool :=
  let t := templateOf v
  bitsOf v 344 680 == 0 && bitsOf v 234 22 == 0 && bitsOf v 216 3 == 0 && bitsOf v 129 15 == 0 && bitsOf v 64 32 == 0 &&
  t.nrings ≤ 4 && t.cwarps ≤ 4 && t.vregs < 512 && t.sramsz % 128 == 0 && t.sramsz ≤ 2 ^ 21 &&
  t.entry.toNat % 8 == 0 && t.entry.toNat < 2 ^ 56 && t.region < n &&
  (if t.gcsrc then t.argl || t.gcpos < 8 else 1 ≤ t.gcount && t.gcount ≤ 2 ^ 24) && (!t.hasReserve || t.crregion < n)

/-- A location record's fields (R113). -/
def locOf (v : Nat) : Loc where
  acc := bitsOf v 0 2
  tmpl := bitsOf v 2 2
  inven := v.testBit 4
  invclk := bitsOf v 5 2
  invc := bitsOf v 8 32
  fben := v.testBit 7
  fstrlo := bitsOf v 40 14
  fstrhi := bitsOf v 54 14
  fkval := bitsOf v 68 8
  fkmask := bitsOf v 76 8

/-- A clock guard's fields (R115). -/
def grdOf (v : Nat) : Grd where
  en := v.testBit 37
  clk := bitsOf v 35 2
  op := bitsOf v 32 3
  const := bitsOf v 0 32

/-- A field comparison's fields (R115). -/
def cmpOf (v : Nat) : CmpF where
  en := v.testBit 38
  fld := bitsOf v 36 2
  op := bitsOf v 33 3
  srcb := v.testBit 32
  const := bitsOf v 0 32

/-- An edge record's fields (R114). -/
def edgeOf (v : Nat) : Edge where
  src := bitsOf v 0 4
  tgt := bitsOf v 4 4
  keep := v.testBit 8
  append := v.testBit 9
  binden := v.testBit 10
  bslot := bitsOf v 11 3
  rst := bitsOf v 14 4
  kval := bitsOf v 18 8
  kmask := bitsOf v 26 8
  strlo := bitsOf v 34 14
  strhi := bitsOf v 48 14
  grd0 := grdOf (bitsOf v 62 38)
  grd1 := grdOf (bitsOf v 100 38)
  cmp0 := cmpOf (bitsOf v 138 39)
  cmp1 := cmpOf (bitsOf v 177 39)

/-- The numbers of locations, edges and templates in a header, and the length of the image (R112). -/
def imageSizes (h : Nat) : Nat × Nat × Nat × Nat :=
  let nl := bitsOf h 0 4 + 1
  let ne := bitsOf h 4 5 + 1
  let nt := bitsOf h 25 2 + 1
  (nl, ne, nt, 64 + 16 * nl + 32 * ne + 128 * nt)

/-- The image in a list of bytes (R112). -/
def imageOf (bs : List Byte) : Image :=
  let h := bytesAt bs 0 64
  let (nl, ne, nt, len) := imageSizes h
  {
    raw := bs.take len
    nclk := bitsOf h 9 3
    nslot := bitsOf h 12 4
    domain := bitsOf h 16 6
    share := h.testBit 22
    ovf := bitsOf h 23 2
    listmax := bitsOf h 27 6
    candmax := bitsOf h 33 15
    region := bitsOf h 48 8
    locs := (List.range nl).map (fun i => locOf (bytesAt bs (64 + 16 * i) 16))
    edges := (List.range ne).map (fun i => edgeOf (bytesAt bs (64 + 16 * nl + 32 * i) 32))
    tmpls := (List.range nt).map (fun i => templateOf (bytesAt bs (64 + 16 * nl + 32 * ne + 128 * i) 128)) }

/-- A location checked by R113 and R116: `i` is its number. -/
def locOk (m : Image) (v i : Nat) : Bool :=
  let l := locOf v
  bitsOf v 84 44 == 0 && l.acc != 3 && l.tmpl < m.tmpls.length && l.fstrlo ≤ l.fstrhi && l.fkval &&& l.fkmask == l.fkval &&
  (!l.inven || l.invclk < m.nclk) && (l.acc != 2 || l.inven || m.listmax > 0) &&
  (i != 0 || (!l.inven && !l.fben && l.acc == 0))

/-- A guard checked: its clock only when it is enabled. -/
def grdOk (m : Image) (g : Grd) : Bool := g.op ≤ 4 && (!g.en || g.clk < m.nclk)

/-- A comparison checked: its slot only when it is enabled and compares with one. -/
def cmpOk (m : Image) (c : CmpF) : Bool := c.op ≤ 5 && (!c.srcb || (c.const < 8 && (!c.en || c.const < m.nslot)))

/-- An edge checked by R114, R115 and R116. -/
def edgeOk (m : Image) (v : Nat) : Bool :=
  let k := edgeOf v
  bitsOf v 216 40 == 0 && k.strlo ≤ k.strhi && k.kval &&& k.kmask == k.kval && k.src < m.locs.length &&
  k.tgt < m.locs.length && !(k.src == 0 && k.tgt == 0) && k.rst >>> m.nclk == 0 && (!k.binden || k.bslot < m.nslot) &&
  (!k.append || m.listmax > 0) && grdOk m k.grd0 && grdOk m k.grd1 && cmpOk m k.cmp0 && cmpOk m k.cmp1

/-- An image checked by R112 to R116 in a context of `n` regions. -/
def imageOk (bs : List Byte) (n : Nat) : Bool :=
  let h := bytesAt bs 0 64
  let m := imageOf bs
  let (nl, ne, nt, _) := imageSizes h
  bitsOf h 56 456 == 0 && m.region < n && 1 ≤ m.candmax && m.candmax ≤ 16384 && m.listmax ≤ 32 && m.nslot ≤ 8 && m.nclk ≤ 4 &&
  (List.range nl).all (fun i => locOk m (bytesAt bs (64 + 16 * i) 16) i) &&
  (List.range ne).all (fun i => edgeOk m (bytesAt bs (64 + 16 * nl + 32 * i) 32)) &&
  (List.range nt).all (fun i => templateOk (bytesAt bs (64 + 16 * nl + 32 * ne + 128 * i) 128) n)

/-- The core record of a candidate (R126). -/
def candCore (c : Cand) : Nat :=
  let slots := (List.range 8).foldl (fun m j => if (c.slots.getD j none).isSome then m + 2 ^ j else m) 0
  c.seq % 2 ^ 64 * 2 ^ 448 + (List.range 4).foldl (fun v x => v + c.reset.getD x 0 % 2 ^ 64 * 2 ^ (192 + 64 * x)) 0 +
  slots * 2 ^ 22 + c.list.length * 2 ^ 16 + c.loc

/-- A candidate's record: its core, its bound events, its list (R126). -/
def candBytes (c : Cand) : List Byte :=
  bytesLE 64 (candCore c) ++ (c.slots.filterMap id ++ c.list).flatMap (fun e => bytesLE 32 e.bits)

/-- The state header of an automaton (R380). -/
def stateHeader (a : Auto) (imgVa : Nat) : Nat :=
  let (st, sm, sq) := a.pos.getD (0, 0, 0)
  imgVa % 2 ^ 64 * 2 ^ 448 + a.nextSeq % 2 ^ 64 * 2 ^ 384 + st % 2 ^ 64 * 2 ^ 320 + sq % 2 ^ 32 * 2 ^ 288 +
  a.drops % 2 ^ 32 * 2 ^ 256 + sm % 2 ^ 14 * 2 ^ 242 + (if a.pos.isSome then 2 ^ 241 else 0) + a.cands.length * 2 ^ 226

/-- The header and the records of an automaton's state (R126, R382). -/
def stateBytes (a : Auto) (imgVa : Nat) : List Byte := bytesLE 64 (stateHeader a imgVa) ++ a.cands.flatMap candBytes

/-- The length of the record whose core is `v` (R382). -/
def recordLen (v : Nat) : Nat :=
  64 + 32 * ((List.range 8).foldl (fun n j => if v.testBit (22 + j) then n + 1 else n) 0 + bitsOf v 16 6)

/-- A record of a saved candidate (R126): whether the host posted it is not in it, so every record that neither crossed a link or a
bridge nor was made by the device is taken for one with the host's release (R416, notes/assumptions/100.md). -/
def savedEvent (x : Nat) : EventRec :=
  let e := eventOfBits x
  { e with hostRel := !e.remote && e.kind.toNat < 0xE0 }

/-- Whether the reserved bits of a record and of its events are 0 (R8, R93, R126). -/
def candRsvOk (bs : List Byte) : Bool :=
  let v := bytesAt bs 0 64
  bitsOf v 30 162 == 0 && bitsOf v 4 12 == 0 &&
  (List.range ((recordLen v - 64) / 32)).all (fun k => eventRsvOk (bytesAt bs (64 + 32 * k) 32))

/-- The candidate in a record at the head of a list of bytes (R126). -/
def candOf (bs : List Byte) : Cand :=
  let v := bytesAt bs 0 64
  let filled := (List.range 8).filter (fun j => v.testBit (22 + j))
  let ev := fun (k : Nat) => savedEvent (bytesAt bs (64 + 32 * k) 32)
  {
    seq := bitsOf v 448 64
    loc := bitsOf v 0 4
    reset := (List.range 4).map (fun x => bitsOf v (192 + 64 * x) 64)
    slots := (List.range 8).map (fun j =>
      if filled.contains j then some (ev (filled.filter (fun i => i < j)).length) else none)
    list := (List.range (bitsOf v 16 6)).map (fun k => ev (filled.length + k)) }

/-- Whether a restored record breaks one of the rules of R379, after the record before it. -/
def candOk (m : Image) (nextSeq : Nat) (before : Option Nat) (c : Cand) : Bool :=
  c.loc < m.locs.length && (c.slots.drop m.nslot).all (fun o => o.isNone) && c.list.length ≤ m.listmax && c.seq < nextSeq &&
  (match before with
   | some q => q < c.seq
   | none => true)

/-- Every candidate of a list checked in order. -/
def candsOk (m : Image) (nextSeq : Nat) (before : Option Nat) (cs : List Cand) : Bool :=
  match cs with
  | [] => true
  | c :: r => candOk m nextSeq before c && candsOk m nextSeq (some c.seq) r

end Sys2Proof.Machine
end

