-- ==== Sys2Proof/Machine/Net.lean ====
section
/-!
DEFINITION. Peer flits (R199), routes (R198) and the sending of a flit on a port (R200).
-/
namespace Sys2Proof.Machine

/-- One bit into the CRC-64 of R199. -/
def crcBit (c : W64) (b : Bool) : W64 :=
  let top := c.getLsbD 63 != b
  let c := c <<< 1
  if top then c ^^^ 0x42F0E1EBA9EA3693 else c

/-- The CRC-64 of R199 over bits [1215:0], from the highest bit down. -/
def crc64 (f : BitVec 1280) : W64 :=
  (List.range 1216).foldl (fun c i => crcBit c (f.getLsbD (1215 - i))) (BitVec.allOnes 64)

/-- A field of a flit. -/
def flitFld (f : BitVec 1280) (l n : Nat) : Nat := bitsOf f.toNat l n

/-- What a flit to be sent holds beside its link fields (R199). -/
structure FlitBody where
  type : Nat
  dst : Nat
  op : Nat := 0
  addr : Nat := 0
  nev : Nat := 0
  xid : Nat := 0
  body : List Byte := []
  src : Nat := 0
  deriving DecidableEq, Repr

/-- A whole flit (R199). -/
def mkFlit (b : FlitBody) (seq ackseq : Nat) : BitVec 1280 :=
  let low := b.type + (seq % 4096) <<< 23 + 1 <<< 35 + (ackseq % 4096) <<< 36 + (b.dst % 65536) <<< 48 +
    (b.src % 65536) <<< 64 +
    (b.op % 8) <<< 80 + (b.addr % 2 ^ 45) <<< 83 + (b.nev % 4) <<< 128 + (b.xid % 2 ^ 32) <<< 160 + ofBytesLE (b.body.take 128) <<< 192
  let f := BitVec.ofNat 1280 low
  f ||| BitVec.ofNat 1280 ((crc64 f).toNat <<< 1216)

/-- The die that carries a port (R16). -/
def dieOfPort (p : Nat) : Nat := if p < 5 then 0 else if p < 9 then 1 else if p < 14 then 2 else 3

/-- Whether the replay buffer of a port has room (R200: 512 flits). -/
def portRoom (s : State) (p : Nat) : Bool := (portOf s p).replay.length < 512

/-- The transmit counter of a node's alternate port first raised to the larger of the two when traffic moves to it
(R202). -/
def raiseTx (s : State) (node p : Nat) : State :=
  match mapFind s.routes node with
  | some (q, _) => if q = p then s else modPort s p (fun x => { x with tx := Nat.max x.tx (portOf s q).tx })
  | none => s

/-- Flits put on the wire of a port; its transmit counter counts them (R202). -/
def Port.put (q : Port) (fs : List (BitVec 1280)) : Port := { q with sent := q.sent ++ fs, tx := q.tx + fs.length }

/-- A flit given to a port and kept for replay (R199, R200): the sequence number it took, and the state. During RETRAIN it waits in the
replay buffer (R201); what goes by an alternate port first raises that port's counter (R202). -/
def sendAs (s : State) (p : Nat) (b : FlitBody) : Nat × State :=
  let s := raiseTx s b.dst p
  let q := portOf s p
  let f := mkFlit b q.seq q.lastGood
  let kept := fun (q : Port) => { q with seq := (q.seq + 1) % 4096, replay := q.replay ++ [(q.seq, f)] }
  (q.seq, modPort s p (fun q => if q.st == .active then (kept q).put [f] else kept q))

/-- A flit of this node sent on a port. -/
def sendFlit (s : State) (p : Nat) (b : FlitBody) : Nat × State := sendAs s p { b with src := s.node }

/-- Whether a flit is a data flit of a transfer (R199). -/
def flitOfXid (f : BitVec 1280) (xid : Nat) : Bool := flitFld f 0 4 == 2 && flitFld f 160 32 == xid % 2 ^ 32

/-- Whether a flit of a transfer is still unacknowledged on some port (R204). -/
def xidUnacked (s : State) (xid : Nat) : Bool := s.ports.any (fun (_, q) => q.replay.any (fun r => flitOfXid r.2 xid))

/-- The flits up to ACKSEQ acknowledged (R200), with the tokens of the events among them. -/
def ackFlits (s : State) (p ack : Nat) : State :=
  let old := fun (n : Nat) => (ack + 4096 - n) % 4096 < 2048
  let ts := (portOf s p).toks.filter (fun t => old t.1)
  let s := ts.foldl (fun s (_, w, k) => addToken s w (some k) (-1)) s
  modPort s p (fun q => { q with replay := q.replay.filter (fun r => !old r.1), toks := q.toks.filter (fun t => !old t.1) })

/-- The elements of a line added in RNE with sat = 0 and NANP = 0 (R204): `op` 1 is F32, 2 is B16. -/
def addLine (op : Nat) (old new : List Byte) : List Byte :=
  let n := if op = 1 then 4 else 2
  let t := if op = 1 then fmtF32 else fmtB16
  (List.range (128 / n)).flatMap (fun i =>
    bytesLE n (fAdd t rne (ofBytesLE ((old.drop (i * n)).take n)) (ofBytesLE ((new.drop (i * n)).take n))))

/-- A line put or added at its home (R204) on path L, for a launch of another device; a put covers the line and clears its poison mark, an
add into a poisoned line is not performed (R197, notes/assumptions/101.md), and nothing of a window is written (R61). -/
def landLine (s : State) (op pa : Nat) (bs : List Byte) : State :=
  let put := fun (s : State) (bs : List Byte) => pathWrite s 4 (0xFFFF, 0) [] pa bs
  if inHole pa || inWindow s pa 128 then s
  else if op = 0 then put { s with poison := s.poison.filter (fun l => l != lineOf pa) } bs
  else if isPoisoned s (lineOf pa) then s
  else put s (addLine op (memGetBytes s.mem pa 128) bs)

/-- A NAK that has come acts (R200): what it acknowledges is let go, and the rest is replayed. -/
def endNak (s : State) (p : Nat) : State :=
  match (portOf s p).nak with
  | none => s
  | some f =>
    let s := modPort s p (fun q => { q with nak := none })
    let s := if flitFld f 35 1 = 1 then ackFlits s p (flitFld f 36 12) else s
    modPort s p (fun q => if q.st == .active then q.put (q.replay.map (fun r => r.2)) else q)

/-- A peer's report that a line of a copy is poisoned there (R197): POISON is raised in the copy's region when the copy ends (R360,
notes/assumptions/101.md). -/
def peerPoison (s : State) (core id : Nat) : State :=
  modCore s core (fun k => { k with copies := k.copies.map (fun c =>
    if c.id == id && c.fault.isNone && ((c.ssp == 2 && !c.asked.isEmpty) || (c.dsp == 3 && c.xop != 0 && !c.done.isEmpty)) then
      { c with fault := some .poison }
    else c) })

end Sys2Proof.Machine
end

