-- ==== Sys2Proof/Machine/Copy.lean ====
section
/-!
DEFINITION. Copy starts and the copy engine (R229, R230, R353-R360), with the peer transfers of path L (R204, R205).
-/
namespace Sys2Proof.Machine

/-! ### The start of a copy -/

/-- The shape fields of a copy in order (R229). -/
def copyFields (f : FCopy) : List (BitVec 32) := [f.f0, f.f1, f.f2, f.f3, f.f4, f.f5, f.f6, f.f7]

/-- Whether a field names a uniform register (R229). -/
def isSub (v : BitVec 32) : Bool := v.getLsbD 31

/-- The value of a field (R229). -/
def fieldVal (x : Iss) (v : BitVec 32) : Nat := if isSub v then (sreg x.grp (v.toNat % 256)).toNat else v.toNat % 2 ^ 31

/-- The value of a stride field (R354). -/
def strideVal (x : Iss) (v : BitVec 32) : Int :=
  if isSub v then (sreg x.grp (v.toNat % 256)).toInt else ((v.toNat % 2 ^ 31 : Nat) : Int)

/-- The fields that hold strides, by operation: 0 TCOPY, 1 TGATHER, 2 TSCATTER, 3 TFILL (R354). -/
def strideFields (op : Nat) : List Nat :=
  match op with
  | 0 => [3, 4, 5, 6]
  | 3 => [5, 6]
  | _ => [4, 5]

/-- What a copy start has read (R357 step 2). -/
structure CopyArgs where
  op : Nat
  dst : Nat
  src : Nat
  fs : List Nat
  st : List Int
  deriving DecidableEq, Repr

/-- A field by number. -/
def CopyArgs.f (a : CopyArgs) (i : Nat) : Nat := a.fs.getD i 0
/-- A stride by number. -/
def CopyArgs.s (a : CopyArgs) (i : Nat) : Int := a.st.getD i 0
/-- TGATHER or TSCATTER. -/
def CopyArgs.indexed (a : CopyArgs) : Bool := a.op == 1 || a.op == 2

/-- The operands of a copy start. -/
def copyArgs (x : Iss) (op : Nat) (f : FCopy) : CopyArgs where
  op := op
  dst := (sreg x.grp f.data.toNat).toNat
  src := (sreg x.grp f.base.toNat).toNat
  fs := (copyFields f).map (fieldVal x)
  st := (copyFields f).map (strideVal x)

/-- Whether either side is a peer's. -/
def isPeer (f : FCopy) : Bool := f.ssp == 2 || f.dsp == 3

/-- The combinations of R355. -/
def combOk (op : Nat) (f : FCopy) : Bool :=
  let local_ := f.dsp.toNat < 3 && f.xop == 0
  if op = 3 then f.ssp == 0 && local_ && f.wid.toNat ≤ 3
  else
    (f.ssp.toNat < 2 && local_) ||
    (op == 0 && f.ssp.toNat < 2 && f.dsp == 3 && f.xop != 3) ||
    (op == 0 && f.ssp == 2 && f.dsp.toNat < 2 && f.xop == 0)

/-- Step 3 of R357: R354, R355, and the high bits of window and slot addresses. -/
def copyLegal (a : CopyArgs) (f : FCopy) : Bool :=
  combOk a.op f && (f.xop != 1 || f.wid == 2) && (f.xop != 2 || f.wid == 1) &&
  a.f 0 ≤ 2 ^ 24 && a.f 1 ≤ 2 ^ 24 && a.f 7 < 2 ^ 21 &&
  (a.indexed || a.f 2 ≤ 2 ^ 16) &&
  (!a.indexed || (a.f 6 ≤ 1 && (if a.f 6 = 1 then a.f 3 == 0 else a.f 2 ≤ 255 && 1 ≤ a.f 3 && a.f 3 ≤ 255))) &&
  (a.op != 3 || (a.f 3 == 0 && a.f 4 == 0)) &&
  (strideFields a.op).all (fun i => decide (-(2 ^ 40 : Int) ≤ a.s i) && decide (a.s i < 2 ^ 40)) &&
  (f.stg || a.f 7 / 2 ^ 16 == 0) &&
  (if isPeer f then a.f 7 % 2 ^ 16 != 0xFFFF else a.f 7 % 2 ^ 16 == 0) &&
  (f.dsp != 1 || a.dst < 2 ^ 32) && (f.dsp != 2 || a.dst < 2 ^ 21) && (a.op == 3 || f.ssp != 1 || a.src < 2 ^ 32)

/-- The registers of the index list of IMEM = 0 (R356). -/
def indexRegs (a : CopyArgs) : List Nat := (List.range (a.f 1)).map (fun r => a.f 2 + r * a.f 3)

/-- Step 4 of R357 (R356). -/
def copyBounds (a : CopyArgs) : Bool :=
  !a.indexed || a.f 6 == 1 || a.f 1 == 0 || a.f 2 + (a.f 1 - 1) * a.f 3 ≤ 255

/-- Whether a number is a multiple of another. -/
def multOf (v : Int) (w : Nat) : Bool := v % (w : Int) == 0

/-- Step 5 of R357: bases, the index array, strides, the peer rule of R355. -/
def copyAligned (a : CopyArgs) (f : FCopy) : Bool :=
  let w := widOf f.wid
  let lines := !isPeer f || (multOf ((a.f 0 * w : Nat) : Int) 128 && a.dst % 128 == 0 && a.src % 128 == 0 &&
    (a.f 1 ≤ 1 || (multOf (a.s 3) 128 && multOf (a.s 5) 128)) && (a.f 2 ≤ 1 || (multOf (a.s 4) 128 && multOf (a.s 6) 128)))
  a.dst % w == 0 && (a.op == 3 || a.src % w == 0) &&
  (!a.indexed || a.f 6 == 0 || (a.f 2 % w == 0 && a.f 2 % 4 == 0)) &&
  (strideFields a.op).all (fun i => multOf (a.s i) w) && lines

/-- The copy as it starts (R358); `idx` are the indices known at issue. An element of 16 bytes is moved as its two 8-byte halves
(R306), and a peer copy moves lines. -/
def copyOf (x : Iss) (a : CopyArgs) (f : FCopy) (id : Nat) (idx : List Nat) : Copy :=
  let w := widOf f.wid
  let peer := isPeer f
  let unit := if peer then 128 else min w 8
  let z := if a.indexed then 1 else a.f 2
  let n := fun (v : Nat) => ((v : Nat) : Int)
  {
    id := id
    gslot := x.w.gslot
    wid := x.w.wid
    op := a.op
    src := a.src
    dst := a.dst
    ssp := f.ssp.toNat
    dsp := f.dsp.toNat
    xop := f.xop.toNat
    w := unit
    shape := if a.indexed then [n (a.f 0 * w / unit), n (a.f 1), n z, a.s 4, 0, a.s 5, 0, n (a.f 2)]
      else [n (a.f 0 * w / unit), n (a.f 1), n z, a.s 3, a.s 4, a.s 5, a.s 6, 0]
    idx := idx
    imem := a.indexed && a.f 6 == 1
    ring := a.f 7 / 2 ^ 19 % 4
    stage := a.f 7 / 2 ^ 16 % 8
    node := a.f 7 % 2 ^ 16
    stg := f.stg
    tag := f.ctag.toNat
    tok := tokOf f.tse f.tslot
    entries := []
    done := []
    asked := []
    via := []
    waitPage := none
    fault := none }

/-- A number of the shape. -/
def Copy.sh (c : Copy) (i : Nat) : Int := c.shape.getD i 0

/-- How many elements a copy moves (R358). -/
def Copy.count (c : Copy) : Nat := (c.sh 0).toNat * (c.sh 1).toNat * (c.sh 2).toNat

/-- The offset of row `q` of a side, relative to its base (R358): `src` selects the side. -/
def Copy.rowOff (c : Copy) (src : Bool) (q : Nat) : Int :=
  let y := (c.sh 1).toNat
  if (c.op == 1 && src) || (c.op == 2 && !src) then ((c.idx.getD q 0 : Nat) : Int) * c.sh (if src then 3 else 5)
  else ((q / y : Nat) : Int) * c.sh (if src then 4 else 6) + ((q % y : Nat) : Int) * c.sh (if src then 3 else 5)

/-- The address of element `k` on a side, modulo 2^64 (R358). -/
def Copy.addr (c : Copy) (src : Bool) (k : Nat) : Nat :=
  let x := (c.sh 0).toNat
  wrapTo 64 (((if src then c.src else c.dst : Nat) : Int) + c.rowOff src (k / x) + ((k % x * c.w : Nat) : Int))

/-- The lowest address of row `q` of a side, modulo 2^64 (R358). -/
def Copy.rowAt (c : Copy) (src : Bool) (q : Nat) : Nat := wrapTo 64 (((if src then c.src else c.dst : Nat) : Int) + c.rowOff src q)

/-- The bytes of a row. -/
def Copy.rowLen (c : Copy) : Nat := (c.sh 0).toNat * c.w

/-- The rows that bound a side: every row where it is indexed, else those at the corners of its shape. -/
def Copy.boundRows (c : Copy) (src : Bool) : List Nat :=
  let y := (c.sh 1).toNat
  let z := (c.sh 2).toNat
  if (c.op == 1 && src) || (c.op == 2 && !src) then List.range y
  else [0, y - 1, (z - 1) * y, (z - 1) * y + (y - 1)]

/-- The lowest byte of a side's span and the byte after its highest (R357). A side whose rows advance by strides of less than 2^40 lies
in a range of less than 2^40 bytes only if its corners do, and then no row of it wraps. -/
def Copy.span (c : Copy) (src : Bool) : Nat × Nat :=
  let es := (c.boundRows src).map (c.rowAt src)
  let lo := es.foldl min (es.headD 0)
  let hi := es.foldl max (es.headD 0)
  (lo, hi + c.rowLen)

/-- Whether a side is indexed by an array that is read during the copy (R357). -/
def Copy.unknown (c : Copy) (src : Bool) : Bool := c.imem && ((c.op == 1 && src) || (c.op == 2 && !src))

/-- The window bytes a side touches: none when it leaves the declared size (R357 step 6). -/
def windowEntry (g : Group) (c : Copy) (src : Bool) : Option (Bool × Nat × Nat) :=
  if c.unknown src then some (!src, 0, g.tmpl.sramsz)
  else if (c.span src).2 ≤ g.tmpl.sramsz then some (!src, (c.span src).1, (c.span src).2 - (c.span src).1)
  else none

/-- The scoreboard entries of a copy, one for each side that touches the window (R357); none when one is out of it. -/
def copyEntries (g : Group) (c : Copy) : Option (List (Bool × Nat × Nat)) :=
  if c.count = 0 then some []
  else
    match (if c.op != 3 && c.ssp == 1 then (windowEntry g c true).map (fun e => [e]) else some []),
          (if c.dsp == 1 then (windowEntry g c false).map (fun e => [e]) else some []) with
    | some a, some b => some (b ++ a)
    | _, _ => none

/-- Whether the slot of core `k` is held by group `g` (R329). -/
def slotHeld (k : Core) (g i : Nat) : Bool := (mapGet k.slots i OpSlot.reset).holder == .held g

/-- Whether an operand-slot range is in a slot the group holds, below 0x3_0000 (R357 step 7). -/
def slotRangeOk (k : Core) (g a n : Nat) : Bool :=
  a < 2 ^ 21 && a % 2 ^ 18 + n ≤ 0x30000 && slotHeld k g (a / 2 ^ 18)

/-- Step 7 of R357: the slot the base names is held, and every row known at issue lies in a slot that is. -/
def copySlotsOk (k : Core) (c : Copy) : Bool :=
  c.dsp != 2 ||
  (slotHeld k c.gslot (c.dst / 2 ^ 18 % 8) &&
   (c.unknown false || c.count == 0 ||
    (List.range ((c.sh 1).toNat * (c.sh 2).toNat)).all (fun q => slotRangeOk k c.gslot (c.rowAt false q) c.rowLen)))

/-- Step 9 of R357: the first translated base that is not in the user half. -/
def badBase (c : Copy) : Option Nat :=
  let arr := (c.sh 7).toNat
  if c.dsp == 0 && !userVa c.dst then some c.dst
  else if c.op != 3 && c.ssp == 0 && !userVa c.src then some c.src
  else if c.imem && !userVa arr then some arr
  else none

/-- The role of a copy. -/
def Copy.role (c : Copy) (core : Nat) : Who where
  core := core
  gslot := c.gslot
  wid := c.wid
  slot := 0

/-- Whether a copy may retire in this cycle as far as other accesses go. Its retirement and its stage fill release what its copy warp did
on path V before it (R400, R401); the fill takes the place of the copy warp in the order of R136, before the warp's own accesses and in
the order in which its copies started (R359). -/
def Copy.mayRetire (s : State) (core : Nat) (c : Copy) : Bool :=
  s.inflight.all (fun r => !sameWarp r.who (c.role core) || c.id < r.id || (r.isStore && r.entered s)) &&
  (!c.stg || (rankAt s (c.role core) < rankPlace c.wid &&
    (coreOf s core).fills.all (fun (g, w, i) => g != c.gslot || w != c.wid || i < c.id)))

/-- The stage fill of a copy noted in its cycle (R136, R359). -/
def noteFill (s : State) (core : Nat) (c : Copy) : State :=
  modCore (setRank s (c.role core) (rankPlace c.wid - 1)) core (fun k => { k with fills := (c.gslot, c.wid, c.id) :: k.fills })

/-- The stage fill of a copy that retires (R359): STAGE is raised to the group's fault domain where the stage is FULL. -/
def copyFill (s : State) (core : Nat) (g : Group) (c : Copy) : State :=
  if !c.stg then s
  else
    let s := noteFill s core c
    match (stageOf g c.ring c.stage).bind Stage.fill with
    | some t => setStage s core c.gslot c.ring c.stage t
    | none => regionFault s g.ctx g.region Cause.stage.code g.launch (dieOfCore core)

/-- A copy taken off the engine and what its retirement does (R359, R360); a CWAIT that waits for no other goes on (R361). -/
def retireCopy (s : State) (core : Nat) (c : Copy) : State :=
  let s := modCore s core (fun k => { k with copies := k.copies.filter (fun q => q.id != c.id) })
  let s := wakeDone (addToken s (c.role core) c.tok (-1)) core c.gslot
  match groupAt s core c.gslot with
  | none => s
  | some g => match c.fault with
    | some f => regionFault s g.ctx g.region f.code g.launch (dieOfCore core)
    | none => copyFill s core g c

/-- The tokens a copy start waits on: none where its guard fails, which R357 tests first. -/
def copyTwait (g : Guard) (f : FCopy) (s : State) : BitVec 8 :=
  match issuer s with
  | some x => if guardMask x g == 0 then noTok else f.twait
  | none => f.twait

/-- The base that an ALIGN trap of a copy start names (R429): the one that is not aligned, or that of the side with the stride that is
not (notes/assumptions/127.md). -/
def alignBlame (a : CopyArgs) (f : FCopy) : Nat :=
  let w := widOf f.wid
  let bad := fun (i : Nat) => (strideFields a.op).contains i && !multOf (a.s i) w
  if a.dst % w != 0 then a.dst
  else if a.op != 3 && a.src % w != 0 then a.src
  else if a.indexed && a.f 6 == 1 && !(a.f 2 % w == 0 && a.f 2 % 4 == 0) then a.f 2
  else if bad 5 || bad 6 then a.dst
  else if bad 3 || bad 4 then a.src
  else if a.dst % 128 == 0 && a.src % 128 != 0 then a.src
  else a.dst

/-- The base that a WINDOW trap of a copy start names (R429): that of the side which leaves the window, the destination's first. -/
def windowBlame (g : Group) (c : Copy) : Nat :=
  if c.dsp == 1 && (windowEntry g c false).isNone then c.dst else c.src

/-- A copy start (R357): the checks in their order, then the copy. -/
def copyStart (op : Nat) (g : Guard) (f : FCopy) (s : State) : Out :=
  runWord .copyOnly true 5 g (copyTwait g f s)
    (fun _ _ => [.u f.data.toNat f.fe, .u f.base.toNat f.fe] ++
      (copyFields f).filterMap (fun v => if isSub v then some (Opd.u (v.toNat % 256) false) else none))
    (fun x m s =>
      let a := copyArgs x op f
      if !copyLegal a f then .trap .illegal m 0 0 s
      else if !copyBounds a then .trap .bounds m 0 0 s
      else if !copyAligned a f then .trap .align m (alignBlame a f) 0 s
      else
        let known := a.indexed && a.f 6 == 0
        if known && (indexRegs a).any (fun r => uEmpty x.grp r) then .hold .groupRoles s
        else
          let idx := if known then (indexRegs a).map (fun r => (sreg x.grp r).toNat % 2 ^ 32) else []
          let (id, s) := freshId s
          let c := copyOf x a f id idx
          let k := coreOf s x.w.core
          match copyEntries x.grp c with
          | none => .trap .window m (windowBlame x.grp c) 0 s
          | some es =>
            if !copySlotsOk k c then .trap .slot m 0 0 s
            else if f.stg && (stageOf x.grp c.ring c.stage).isNone then .trap .stage m 0 0 s
            else match badBase c with
              | some va => .trap .pageProtection m va (if f.dsp == 0 && va == a.dst then 1 else 0) s
              | none =>
                if k.copies.length ≥ 64 || (k.copies.flatMap (·.entries)).length + es.length > 32 then .hold .nothing s
                else if !(pendingAcqs s x).isEmpty then .hold .nothing s
                else
                  let s := modCore s x.w.core (fun k => { k with copies := k.copies ++ [{ c with entries := es }] })
                  let s := addToken s x.w c.tok 1
                  if c.count = 0 && c.mayRetire s x.w.core then .done (retireCopy s x.w.core { c with entries := es })
                  else if isPeer f && (routePort s c.node).isNone then
                    .done (regionFault s x.grp.ctx x.grp.region Cause.poison.code x.grp.launch x.die)
                  else .done s) s

/-- TCOPY (R353). -/
def execTcopy (g : Guard) (f : FCopy) (s : State) : Out := copyStart 0 g f s
/-- TGATHER (R353, R356). -/
def execTgather (g : Guard) (f : FCopy) (s : State) : Out := copyStart 1 g f s
/-- TSCATTER (R353, R356). -/
def execTscatter (g : Guard) (f : FCopy) (s : State) : Out := copyStart 2 g f s
/-- TFILL (R353). -/
def execTfill (g : Guard) (f : FCopy) (s : State) : Out := copyStart 3 g f s

/-! ### The engine -/

/-- How far the engine gets with an element. -/
inductive Moved where
  | ok (s : State)
  | page (va : Nat) (s : State)
  | stop (c : Cause) (s : State)
  | full (s : State)

/-- The physical address of an element's side in a translated or window space (R353, R360). -/
def sidePa (s : State) (core : Nat) (g : Group) (c : Copy) (space va kind : Nat) : Except Cause Nat × Bool × State :=
  if space = 1 then
    if va + c.w ≤ g.tmpl.sramsz then (.ok (windowPa g va), false, s) else (.error .window, false, s)
  else
    match engineTranslate s core g.ctx va kind (if c.ssp == 2 || c.dsp == 3 then 4 else 1) g.launch with
    | (.ok pa _, s) => (.ok pa, false, s)
    | (.protection, s) => (.error .pageProtection, false, s)
    | (.lost, s) => (.error .pageLost, false, s)
    | (.wait, s) => (.ok 0, true, s)

/-- Whether a later element of the loop order that has been moved covers the byte (R358). -/
def hiddenByte (c : Copy) (k a : Nat) : Bool :=
  c.done.any (fun e => e > k && c.addr false e ≤ a && a < c.addr false e + c.w)

/-- An element's bytes with the addresses that stand (R358). -/
def standing (c : Copy) (k a : Nat) (bs : List Byte) : List (Nat × Byte) :=
  (List.range bs.length).filterMap (fun i => if hiddenByte c k (a + i) then none else some (i, bs.getD i 0))

/-- The bytes of a destination in an operand slot (R349, R357). -/
def slotPut (s : State) (core : Nat) (c : Copy) (k a : Nat) (bs : List Byte) : Moved :=
  if !slotRangeOk (coreOf s core) c.gslot a c.w then .stop .slot s
  else
    .ok (modCore s core (fun q =>
      let i := a / 2 ^ 18
      let o := mapGet q.slots i OpSlot.reset
      let bytes := (standing c k a bs).foldl (fun m (j, b) => mapSet m (a % 2 ^ 18 + j) b) o.bytes
      { q with slots := mapSet q.slots i { o with bytes := bytes.filter (fun e => e.2 != 0) } }))

/-- The path a copy travels (R355): 1 C, 4 L. -/
def Copy.path (c : Copy) : Nat := if c.ssp == 2 || c.dsp == 3 then 4 else 1

/-- The paths that see a copy's write at once: path V where it is to the window, by the range scoreboard (R70, R403). -/
def Copy.seen (c : Copy) : List Nat := if c.dsp == 1 then [0] else []

/-- The bytes of a destination in memory, performed at their home (R358): a poisoned line stops the copy, unless the write covers it
whole and so clears its mark (R197). -/
def memPut (s : State) (core : Nat) (g : Group) (c : Copy) (k a pa : Nat) (bs : List Byte) : Moved :=
  let own := (g.ctx, g.launch)
  let line := lineOf pa
  let st := standing c k a bs
  let whole := pa % 128 == 0 && bs.length == 128
  if isPoisoned s line && !whole then .stop .poison s
  else
    let s := { s with poison := s.poison.filter (fun l => !(whole && l == line)) }
    let s := if st.length = bs.length then pathWrite s c.path own c.seen pa bs
      else st.foldl (fun s (j, b) => pathWrite s c.path own c.seen (pa + j) [b]) s
    .ok (noteWrites s (c.role core) [line])

/-- A copy of core `core` by its number changed. -/
def modCopy (s : State) (core id : Nat) (f : Copy → Copy) : State :=
  modCore s core (fun k => { k with copies := k.copies.map (fun c => if c.id == id then f c else c) })

/-- A flit of a copy has gone by a port (R205). -/
def goesBy (s : State) (core id p : Nat) : State := modCopy s core id (fun c => { c with via := distinct (c.via ++ [p]) })

/-- An element given to its destination; a line for a peer that a later element of the loop order has gone to already is not sent
(R358). -/
def putElement (s : State) (core : Nat) (g : Group) (c : Copy) (k : Nat) (bs : List Byte) : Moved :=
  let a := c.addr false k
  if c.dsp = 2 then slotPut s core c k a bs
  else if c.dsp = 3 then
    if c.xop == 0 && hiddenByte c k a then .ok s
    else match routePort s c.node with
    | none => .stop .poison s
    | some p =>
      if !portRoom s p then .full s
      else .ok (goesBy (sendFlit s p { type := 2, dst := c.node, op := c.xop, addr := a / 128, xid := c.id, body := bs }).2 core c.id p)
  else match sidePa s core g c c.dsp a 1 with
    | (.error f, _, s) => .stop f s
    | (.ok _, true, s) => .page a s
    | (.ok pa, false, s) => memPut s core g c k a pa bs

/-- An element read at its source and given to its destination (R358). -/
def moveElement (s : State) (core : Nat) (g : Group) (c : Copy) (olds : List Nat) (k : Nat) : Moved :=
  let a := c.addr true k
  if c.op = 3 then putElement s core g c k (bytesLE c.w c.src)
  else if c.ssp = 2 then
    if c.asked.contains k then .full s
    else match routePort s c.node with
      | none => .stop .poison s
      | some p =>
        if !portRoom s p then .full s
        else
          let s := (sendFlit s p { type := 2, dst := c.node, op := 3, addr := a / 128, xid := c.id }).2
          .full (modCopy (goesBy s core c.id p) core c.id (fun d => { d with asked := d.asked ++ [k] }))
  else match sidePa s core g c c.ssp a 0 with
    | (.error f, _, s) => .stop f s
    | (.ok _, true, s) => .page a s
    | (.ok pa, false, s) =>
      if (linesOf pa c.w).any (fun l => isPoisoned s l) then .stop .poison s
      else putElement (sawHome s (newWords olds pa c.w)) core g c k (pathRead s c.path (some (c.role core)) olds pa c.w)

/-- The bytes of a destination that appear together: a whole row of an operand slot (R351), an aligned word of memory (R69). -/
def Copy.grain (c : Copy) : Nat := if c.dsp == 2 then 128 else 8

/-- The elements of a row of a copy not yet moved that fall in the grain `t` of the destination. -/
def Copy.rowIn (c : Copy) (t q : Nat) : List Nat :=
  let x := (c.sh 0).toNat
  (List.range x).filterMap (fun i =>
    if !c.done.contains (q * x + i) && c.addr false (q * x + i) / c.grain == t then some (q * x + i) else none)

/-- The elements not yet moved that are moved with element `k`: those that fall in its grain of the destination (R69, R351). -/
def Copy.together (c : Copy) (k : Nat) : List Nat :=
  if c.dsp == 3 || c.w ≥ c.grain then [k]
  else (List.range ((c.sh 1).toNat * (c.sh 2).toNat)).flatMap (c.rowIn (c.addr false k / c.grain))

/-- Whether both sides of an element translate, without its move (R360). -/
def sideReady (s : State) (core : Nat) (g : Group) (c : Copy) (k : Nat) : Moved :=
  let one := fun (s : State) (space : Nat) (src : Bool) =>
    if space ≥ 2 then Moved.ok s
    else match sidePa s core g c space (c.addr src k) (if src then 0 else 1) with
      | (.error f, _, s) => .stop f s
      | (.ok _, true, s) => .page (c.addr src k) s
      | (.ok _, false, s) => .ok s
  match (if c.op = 3 then Moved.ok s else one s c.ssp true) with
  | .ok s => one s c.dsp false
  | m => m

/-- The old value of the word that several elements have written together: what it held before the first of them (R69). -/
def wordOld (before s : State) (core : Nat) (g : Group) (c : Copy) (k : Nat) : State :=
  if c.dsp ≥ 2 then s
  else match sidePa s core g c c.dsp (c.addr false k) 1 with
    | (.ok pa, false, _) =>
      { s with stale := match mapFind s.stale (pa / 8) with
        | some e => mapSet s.stale (pa / 8) { e with old := memNat before.mem (8 * (pa / 8)) 8 }
        | none => s.stale }
    | _ => s

/-- Some elements moved together: none of them takes effect where one meets a page or a stop. -/
def moveTogether (s : State) (core : Nat) (g : Group) (c : Copy) (olds : List Nat) (ks : List Nat) : Moved :=
  match ks with
  | [k] => moveElement s core g c olds k
  | _ =>
    let ready := ks.foldl (fun (m : Moved) k => match m with
      | .ok s => sideReady s core g c k
      | m => m) (.ok s)
    match ready with
    | .ok s => match ks.foldl (fun (m : Moved) k => match m with
        | .ok s => moveElement s core g c olds k
        | m => m) (.ok s) with
      | .ok t => .ok (wordOld s t core g c (ks.headD 0))
      | .page va _ => .page va s
      | .stop f _ => .stop f s
      | .full _ => .full s
    | m => m

/-- Whether two ranges of addresses of two copies' sides in one space may meet. -/
def sidesMeet (ds es a n b m : Nat) : Bool := ds == es && ds < 2 && overlaps a n b m

/-- The earlier copies of a copy's warp that have yet to retire and go by its path: each may still move any of its elements, in a replay
if not now (R69, R360). -/
def copiesBefore (k : Core) (c : Copy) : List Copy :=
  k.copies.filter (fun e => e.id < c.id && e.gslot == c.gslot && e.wid == c.wid && e.path == c.path && e.fault.isNone)

/-- Whether a copy's index array has not been read yet. -/
def Copy.unread (c : Copy) : Bool := c.imem && c.idx.length != (c.sh 1).toNat

/-- Whether some elements of a copy must wait for an earlier copy of its warp, which writes their bytes or reads the bytes that they
write: accesses of one warp on one path to one address go in program order (R69). -/
def copyBehind (k : Core) (c : Copy) (ks : List Nat) : Bool :=
  (copiesBefore k c).any (fun e => e.unread || (List.range e.count).any (fun j => ks.any (fun i =>
    sidesMeet e.dsp c.dsp (e.addr false j) e.w (c.addr false i) c.w ||
    (c.op != 3 && sidesMeet e.dsp c.ssp (e.addr false j) e.w (c.addr true i) c.w) ||
    (e.op != 3 && sidesMeet e.ssp c.dsp (e.addr true j) e.w (c.addr false i) c.w))))

/-- Whether a copy's index array must wait for an earlier copy of its warp (R69). -/
def indexBehind (k : Core) (c : Copy) : Bool :=
  c.unread && (copiesBefore k c).any (fun e => e.dsp == 0 && (e.unread || (List.range e.count).any (fun j =>
    overlaps (e.addr false j) e.w (c.sh 7).toNat (4 * (c.sh 1).toNat))))

/-- The copy with number `id` on a core. -/
def copyById (s : State) (core id : Nat) : Option Copy := (coreOf s core).copies.find? (fun c => c.id == id)

/-- The index array of IMEM = 1 read on path C (R356), unless it has been; of the words `olds` as path C may still see them (R69). -/
def readIndices (s : State) (core : Nat) (g : Group) (c : Copy) (olds : List Nat) : Moved :=
  let y := (c.sh 1).toNat
  let arr := (c.sh 7).toNat
  if !c.unread then .ok s
  else
    (List.range y).foldl (fun (m : Moved) r => match m with
      | .ok s =>
        match sidePa s core g c 0 (wrapTo 64 ((arr + 4 * r : Nat) : Int)) 0 with
        | (.error f, _, s) => .stop f s
        | (.ok _, true, s) => .page (arr + 4 * r) s
        | (.ok pa, false, s) =>
          if isPoisoned s (lineOf pa) then .stop .poison s
          else .ok (modCopy (sawHome s (newWords olds pa 4)) core c.id (fun q =>
            { q with idx := q.idx ++ [ofBytesLE (pathRead s c.path (some (c.role core)) olds pa 4)] }))
      | m => m) (.ok (modCopy s core c.id (fun q => { q with idx := [] })))

/-- One element of a copy in flight moved, with those that appear together with it, if it has not been (R358), with what it meets
recorded in the copy; nothing while an access of its copy warp, or a store its core has read from the write queue, comes first (R69,
R408). -/
def advanceCopy (s : State) (core id k : Nat) (olds : List Nat := []) : State :=
  match copyById s core id with
  | none => s
  | some c =>
    if c.waitPage.isSome || c.fault.isSome || c.done.contains k || !obsClear s core id || indexBehind (coreOf s core) c then s
    else match groupAt s core c.gslot with
      | none => s
      | some g =>
        let note := fun (m : Moved) (okk : State → State) => match m with
          | .ok s => okk s
          | .page va s => modCopy s core id (fun q => { q with waitPage := some (va / 4096) })
          | .stop f s => modCopy s core id (fun q => { q with fault := some f })
          | .full s => s
        note (readIndices s core g c olds) (fun s => match copyById s core id with
          | none => s
          | some c =>
            let ks := c.together k
            if c.count ≤ k || copyBehind (coreOf s core) c ks then s
            else note (moveTogether s core g c olds ks) (fun s => modCopy s core id (fun q => { q with done := q.done ++ ks })))

/-- Every element left of a copy, in the loop order, as far as it gets. -/
def runCopy (s : State) (core id : Nat) : State :=
  match copyById s core id with
  | none => s
  | some c =>
    let left := (List.range c.count).filter (fun k => !c.done.contains k)
    if left.isEmpty then s else left.foldl (fun s k => advanceCopy s core id k) s

/-- Whether a copy that faults or waits is abandoned, to be replayed at the resume: its context is being saved (R86). -/
def abandoned (s : State) (core : Nat) (c : Copy) : Bool :=
  (groupAt s core c.gslot).elim false (fun g => (ctxOf s g.ctx).st == .saving)

/-- COPY_RETIRE: the rest of the `n`-th copy of a core moves, and the copy retires when every element has been moved and
every write of it performed, or when it stopped (R359, R360), and nothing must come before its retirement. -/
def execCopyRetire (core n : Nat) (s : State) : Out :=
  match (coreOf s core).copies[n]? with
  | none => .next s
  | some c =>
    if c.waitPage.isSome || (c.fault.isSome && abandoned s core c) then .next s
    else
      let s := runCopy s core c.id
      match copyById s core c.id with
      | none => .next s
      | some c =>
        if (c.fault.isSome && abandoned s core c) || !c.mayRetire s core then .next s
        else if c.fault.isSome then .next (retireCopy s core c)
        else if c.done.length = c.count && !(c.dsp == 3 && xidUnacked s c.id) then .next (retireCopy s core c)
        else .next s

/-- COPY_REPLAY: a copy that waited begins again from its first element, its index array read again (R191, R360). -/
def execCopyReplay (core n : Nat) (s : State) : Out :=
  match (coreOf s core).copies[n]? with
  | none => .next s
  | some c => match c.waitPage, groupAt s core c.gslot with
    | some p, some g =>
      if pageOpen s (ctxOf s g.ctx).pasid p || abandoned s core c then .next s
      else .next (modCopy s core c.id (fun q =>
        { q with waitPage := none, done := [], asked := [], idx := if q.imem then [] else q.idx }))
    | _, _ => .next s

end Sys2Proof.Machine
end

