-- ==== Sys2Proof/Machine/Flags.lean ====
section
/-!
DEFINITION. The outcomes instructions compute as truth values: comparisons into predicates and conditions (R258, R282,
R289), the carry of IADDC (R280). No instruction sets a status flag (R31, R275).
-/
namespace Sys2Proof.Machine

/-- A comparison of two values of a type by the operator code of R258. -/
def compareAs (t : Ty) (op a b : Nat) : Bool :=
  match tyFmt t with
  | some f => fCompare op (fDecode f a) (fDecode f b)
  | none => iCompare op (readInt t a) (readInt t b)

/-- The sum and the carry of an addition with carry (R280). -/
def addCarry (w a b : Nat) (cin : Bool) : Nat × Bool :=
  let v := a + b + (if cin then 1 else 0)
  (v % 2 ^ w, v ≥ 2 ^ w)

end Sys2Proof.Machine
end

