-- ==== Sys2Proof/Machine/VecFloat.lean ====
section
/-!
DEFINITION. Class 001, floating point (R286-R292).
-/
namespace Sys2Proof.Machine

/-- The format of a float type; integer types never reach it (R286). -/
def fmtOf (t : Ty) : Fmt := (tyFmt t).getD fmtF32

/-- A two-source float instruction (R287). -/
def floatA2 (g : Guard) (f : FA) (op : Fmt → Rnd → Nat → Nat → Nat) (s : State) : Out :=
  let n := tyRegs f.ty
  vecA2 g f n n n (fun x a b => op (fmtOf f.ty) (rndA f x) (lowT f.ty a) (lowT f.ty b)) s

/-- A one-source float instruction (R287, R290). -/
def floatA1 (g : Guard) (f : FA) (op : Fmt → Rnd → Nat → Nat) (s : State) : Out :=
  let n := tyRegs f.ty
  vecA1 g f n n (fun x b => op (fmtOf f.ty) (rndA f x) (lowT f.ty b)) s

/-- FADD (R287). -/
def execFadd (g : Guard) (f : FA) (s : State) : Out := floatA2 g f fAdd s
/-- FSUB (R287). -/
def execFsub (g : Guard) (f : FA) (s : State) : Out := floatA2 g f fSub s
/-- FMUL (R287). -/
def execFmul (g : Guard) (f : FA) (s : State) : Out := floatA2 g f fMul s
/-- FMA (R287). -/
def execFma (g : Guard) (f : FB) (s : State) : Out :=
  let n := tyRegs f.ty
  vecB3 g f n n n n (fun x a b c => fFma (fmtOf f.ty) (rndB f x) (lowT f.ty a) (lowT f.ty b) (lowT f.ty c)) s
/-- FMIN (R288). -/
def execFmin (g : Guard) (f : FA) (s : State) : Out := floatA2 g f (fun t r => fMinMax t r.nanp false false) s
/-- FMAX (R288). -/
def execFmax (g : Guard) (f : FA) (s : State) : Out := floatA2 g f (fun t r => fMinMax t r.nanp true false) s
/-- FMINNUM (R288). -/
def execFminnum (g : Guard) (f : FA) (s : State) : Out := floatA2 g f (fun t r => fMinMax t r.nanp false true) s
/-- FMAXNUM (R288). -/
def execFmaxnum (g : Guard) (f : FA) (s : State) : Out := floatA2 g f (fun t r => fMinMax t r.nanp true true) s

/-- The sign bit of a format. -/
def signBit (t : Fmt) : Nat := 2 ^ (t.w - 1)

/-- FABS (R289). -/
def execFabs (g : Guard) (f : FA) (s : State) : Out := floatA1 g f (fun t _ b => b % signBit t) s
/-- FNEG (R289). -/
def execFneg (g : Guard) (f : FA) (s : State) : Out := floatA1 g f (fun t _ b => b ^^^ signBit t) s
/-- FCOPYSIGN (R289). -/
def execFcopysign (g : Guard) (f : FA) (s : State) : Out :=
  floatA2 g f (fun t _ a b => a % signBit t + b / signBit t % 2 * signBit t) s
/-- FCMP (R289). -/
def execFcmp (g : Guard) (f : FA) (s : State) : Out := vecCmp g f (compareAs f.ty (cmpOp f)) s
/-- FCLASS (R289). -/
def execFclass (g : Guard) (f : FA) (s : State) : Out :=
  vecA1 g f (tyRegs f.ty) 1 (fun _ b => fClass (fmtOf f.ty) (lowT f.ty b)) s
/-- FDIV (R287). -/
def execFdiv (g : Guard) (f : FA) (s : State) : Out := floatA2 g f fDiv s
/-- FSQRT (R287). -/
def execFsqrt (g : Guard) (f : FA) (s : State) : Out := floatA1 g f fSqrt s
/-- FRCP (R290). -/
def execFrcp (g : Guard) (f : FA) (s : State) : Out := floatA1 g f fRcp s
/-- FRSQ (R290). -/
def execFrsq (g : Guard) (f : FA) (s : State) : Out := floatA1 g f fRsq s
/-- FEXP2 (R290). -/
def execFexp2 (g : Guard) (f : FA) (s : State) : Out := floatA1 g f fExp2 s
/-- FLOG2 (R290). -/
def execFlog2 (g : Guard) (f : FA) (s : State) : Out := floatA1 g f fLog2 s
/-- FSIN (R290). -/
def execFsin (g : Guard) (f : FA) (s : State) : Out := floatA1 g f (fun t r => fSinPi t r false) s
/-- FCOS (R290). -/
def execFcos (g : Guard) (f : FA) (s : State) : Out := floatA1 g f (fun t r => fSinPi t r true) s
/-- FTANH (R290). -/
def execFtanh (g : Guard) (f : FA) (s : State) : Out := floatA1 g f fTanh s
/-- FSCALE (R291): SRCB is a 32-bit I32. -/
def execFscale (g : Guard) (f : FA) (s : State) : Out :=
  let n := tyRegs f.ty
  vecA2 g f n 1 n (fun x a b => fScale (fmtOf f.ty) (rndA f x) (lowT f.ty a) (signedOf 32 b)) s
/-- FGETEXP (R291). -/
def execFgetexp (g : Guard) (f : FA) (s : State) : Out :=
  vecA1 g f (tyRegs f.ty) 1 (fun _ b => fGetExp (fmtOf f.ty) (lowT f.ty b)) s
/-- FROUND (R291). -/
def execFround (g : Guard) (f : FA) (s : State) : Out := floatA1 g f fRound s
/-- FFRAC (R291). -/
def execFfrac (g : Guard) (f : FA) (s : State) : Out := floatA1 g f (fun t r => fFrac t r.nanp) s
/-- FDOT2 (R292). -/
def execFdot2 (g : Guard) (f : FB) (s : State) : Out :=
  vecB3 g f 1 1 1 1 (fun x a b c => fDot2 (fmtOf f.ty) (rndB f x) a b c) s

end Sys2Proof.Machine
end

