-- ==== Sys2Proof/Machine/Matrix.lean ====
section
/-!
DEFINITION. Operand slots and accumulator blocks, the array, the drain unit (R329-R352, R47-R50).
-/
namespace Sys2Proof.Machine

/-- Operand slot `i` of a core. -/
def slotOf (k : Core) (i : Nat) : OpSlot := mapGet k.slots i OpSlot.reset
/-- Accumulator block `z` of a core. -/
def blockOf (k : Core) (z : Nat) : AccBlock := mapGet k.blocks z AccBlock.reset

/-- The items of MCLAIM's and MREL's IMM (R330): slots, and blocks. -/
def claimItems (imm : BitVec 24) : List Nat × List Nat :=
  let v := imm.toNat
  if v.testBit 23 then ([], (List.range (bitsOf v 9 9 + 1)).map (fun i => bitsOf v 0 9 + i))
  else ((List.range 8).filter (fun i => v.testBit i), [])

/-- Whether a block range leaves the 512 blocks (R330). -/
def badBlocks (bs : List Nat) : Bool := bs.any (fun z => z ≥ 512)

/-- Who holds the items of a claim. -/
def holders (k : Core) (it : List Nat × List Nat) : List Holder :=
  it.1.map (fun i => (slotOf k i).holder) ++ it.2.map (fun z => (blockOf k z).holder)

/-- Whether the issuing group holds every item (R329). -/
def allHeld (k : Core) (g : Nat) (it : List Nat × List Nat) : Bool := (holders k it).all (fun h => h == .held g)

/-- The contexts that hold one of the items of a claim lazily (R329). -/
def lazyHolders (k : Core) (it : List Nat × List Nat) : List Nat :=
  distinct ((holders k it).filterMap (fun h => match h with
    | .lazy x _ _ => some x
    | _ => none))

/-- A group's claim waits no longer (R331). -/
def endClaim (g : Nat) (k : Core) : Core := { k with claims := k.claims.filter (fun q => q.1 != g) }

/-- MCLAIM (R330, R331): all or none. What is held lazily counts as FREE: the claim waits while it is written out, and is then served
first (R87, R329). -/
def execMclaim (g : Guard) (f : FI) (s : State) : Out :=
  let it := claimItems f.imm
  let c := f.dst.toNat
  runWord .matOnly false 1 g noTok (fun _ _ => [])
    (fun x m s =>
      let k := coreOf s x.w.core
      let hs := holders k it
      let other := hs.any (fun h => match h with
        | .held q => q != x.w.gslot
        | _ => false)
      let owners := lazyHolders k it
      if badBlocks it.2 then .trap .accRange m 0 0 s
      else if other then
        (if f.imm.getLsbD 22 then .hold .nothing s else .done (onWarp (modCore s x.w.core (endClaim x.w.gslot)) x (fun y => setCond y c false)))
      else if !owners.isEmpty then
        .hold .nothing (modCore s x.w.core (fun k => { k with
          claimed := distinct (k.claimed ++ owners)
          claims := k.claims.filter (fun q => q.1 != x.w.gslot) ++ [(x.w.gslot, it.1, it.2)] }))
      else .done (onWarp (modCore s x.w.core (fun k => endClaim x.w.gslot (takeItems k x.w.gslot it))) x (fun y => setCond y c true))) s

/-- The blocks of a matrix operation's tile (R334). -/
def MatKind.blocks (m : MatKind) : List Nat :=
  match m with
  | .mma _ _ _ m n _ _ z _ _ => (List.range ((m / 16) * (n / 16))).map (fun i => z + i)
  | .mzero z n => (List.range n).map (fun i => z + i)

/-- The operand slots a matrix operation reads. -/
def MatKind.slots (m : MatKind) : List Nat :=
  match m with
  | .mma _ _ _ _ _ a b _ _ _ => [a, b]
  | .mzero _ _ => []

/-- Whether two lists share an element. -/
def shares (a b : List Nat) : Bool := a.any (fun i => b.contains i)

/-- The operand slot a copy writes (R357). -/
def Copy.slots (c : Copy) : List Nat := if c.dsp == 2 then [c.dst / 2 ^ 18] else []

/-- The slots that an OST in flight writes, or the blocks that an ALD reads (R350). -/
def Req.matItems (r : Req) : List Nat × List Nat :=
  match r.kind with
  | .ost => (r.lanes.map (fun l => (l.pa - slotSpace) / 2 ^ 18), [])
  | .ald => ([], r.lanes.map (fun l => (l.pa - blockSpace) / 1024))
  | _ => ([], [])

/-- A drain descriptor's field (R343). -/
def descFld (d l n : Nat) : Nat := bitsOf d l n
/-- M and N of an M code and an n (R213). -/
def tileM (mc : Nat) : Nat := 64 * 2 ^ mc
/-- The blocks of a drain's tile. -/
def drainBlocks (d : Nat) : List Nat :=
  (List.range ((tileM (descFld d 9 2) / 16) * descFld d 11 6)).map (fun i => descFld d 0 9 + i)

/-- MREL (R330, R332): the release takes effect when the matrix work issued before it has
retired and no OST, ALD or copy is in flight to its items. -/
def execMrel (g : Guard) (f : FI) (s : State) : Out :=
  let it := claimItems f.imm
  runWord .matOnly false 1 g noTok (fun _ _ => [])
    (fun x m s =>
      let k := coreOf s x.w.core
      if badBlocks it.2 then .trap .accRange m 0 0 s
      else if !allHeld k x.w.gslot it then .trap .slot m 0 0 s
      else
        let before :=
          (k.mq.filter (fun q => shares q.kind.slots it.1 || shares q.kind.blocks it.2)).map (·.id) ++
          (k.drains.filter (fun d => shares (drainBlocks d.desc) it.2)).map (·.id)
        let r : Mrel := { gslot := x.w.gslot, slots := it.1, blocks := it.2, before := before }
        .done (modCore s x.w.core (fun k => { k with mrels := k.mrels ++ [r] }))) s

/-- Whether a copy into the items of a release, or an OST or ALD that names them, is in flight (R332). -/
def relBusy (s : State) (core : Nat) (r : Mrel) : Bool :=
  (coreOf s core).copies.any (fun c => c.gslot == r.gslot && shares c.slots r.slots) ||
  s.inflight.any (fun q => q.who.core == core && q.who.gslot == r.gslot && (shares q.matItems.1 r.slots || shares q.matItems.2 r.blocks))

/-- MREL_TAKES_EFFECT: the items of the `n`-th release of a core become FREE (R332). -/
def execMrelTakesEffect (core n : Nat) (s : State) : Out :=
  let k := coreOf s core
  match k.mrels[n]? with
  | none => .next s
  | some r =>
    if shares r.before (k.mq.map (·.id) ++ k.drains.map (·.id)) || relBusy s core r then .next s
    else .next (modCore s core (fun k => { k with
      mrels := listDrop k.mrels n
      slots := k.slots.map (fun (i, o) => (i, if r.slots.contains i && o.holder == .held r.gslot then { o with holder := .free } else o))
      blocks := k.blocks.map (fun (z, b) => (z, if r.blocks.contains z && b.holder == .held r.gslot then { b with holder := .free } else b)) }))

/-! ### The array -/

/-- K of a type (R49). -/
def kOf (t : Ty) (bx : Nat) : Nat :=
  match t with
  | .f16 | .b16 => 64
  | .bx => if bx = 1 then 128 else if bx = 2 then 256 else 512
  | _ => 128

/-- A byte of an operand slot. -/
def slotByte (o : OpSlot) (a : Nat) : Nat := (mapGet o.bytes a 0).toNat

/-- Element `k` of row `r` of a float operand (R333, R338). -/
def slotElem (t : Ty) (bx : Nat) (o : OpSlot) (r k : Nat) : FVal :=
  match t with
  | .bx =>
    let b := bxBits bx
    let code := (slotByte o (128 * r + k * (b + 1) / 8) >>> (k * (b + 1) % 8)) % 2 ^ (b + 1)
    let sc := 0x20000 + 64 * r + 2 * (k / 16)
    bxDecode b code (slotByte o sc) (bitsOf (slotByte o (sc + 1)) (k % 16 / 2) 1)
  | .f16 | .b16 => fDecode (fmtOf t) (slotByte o (128 * r + 2 * k) + slotByte o (128 * r + 2 * k + 1) * 256)
  | _ => fDecode (fmtOf t) (slotByte o (128 * r + k))

/-- The word of tile element (i, j) within its block and the block (R334). -/
def accPlace (z n i j : Nat) : Nat × Nat := (z + (i / 16) * (n / 16) + j / 16, 16 * (i % 16) + j % 16)

/-- A tile element's word. -/
def accWord (k : Core) (z n i j : Nat) : W32 :=
  let p := accPlace z n i j
  mapGet (blockOf k p.1).words p.2 0

/-- A block whose words are given by their number; words of 0 are not listed. -/
def blockWords (f : Nat → W32) : SMap W32 := ((List.range 256).map (fun i => (i, f i))).filter (fun e => e.2 != 0)

/-- The other signedness of an integer operand (R336). -/
def otherSign (t : Ty) : Ty := if t == .i8 then .n8 else .i8

/-- The new value of a tile element (R338, R47, R48). -/
def mmaElem (t : Ty) (bx : Nat) (sat : Bool) (a b : OpSlot) (sx : Int) (i j acc : Nat) : Nat :=
  let kk := kOf t bx
  match t with
  | .i8 | .n8 =>
    let tb := if sat then otherSign t else t
    wrapTo 32 ((List.range kk).foldl (fun (v : Int) k =>
      v + readInt t (slotByte a (128 * i + k)) * readInt tb (slotByte b (128 * j + k))) (acc : Int))
  | t =>
    mmaAccum ((List.range kk).map (fun k => exactProd (slotElem t bx a i k) (slotElem t bx b j k) sx)) (kk / 16) acc

/-- How many blocks a matrix operation writes (R334, R341). -/
def MatKind.count (m : MatKind) : Nat :=
  match m with
  | .mma _ _ _ m n _ _ _ _ _ => (m / 16) * (n / 16)
  | .mzero _ n => n

/-- A matrix operation's effect on its `q`-th block (R338, R341): each row of an operand is read whole (R351). -/
def runBlock (k : Core) (m : MatKind) (q : Nat) : Core :=
  match m with
  | .mzero z _ => { k with blocks := mapSet k.blocks (z + q) { blockOf k (z + q) with words := [] } }
  | .mma t bx sat _ n a b z sxa sxb =>
    let oa := slotOf k a
    let ob := slotOf k b
    let bpr := n / 16
    let words := blockWords (fun w =>
      let i := 16 * (q / bpr) + w / 16
      let j := 16 * (q % bpr) + w % 16
      BitVec.ofNat 32 (mmaElem t bx sat oa ob (sxa + sxb) i j (mapGet (blockOf k (z + q)).words w 0).toNat))
    { k with blocks := mapSet k.blocks (z + q) { blockOf k (z + q) with words := words } }

/-- A matrix operation's effect on its blocks from the `i`-th on, on a core (R338, R341). -/
def runMat (k : Core) (m : MatKind) (i : Nat) : Core :=
  (List.range (m.count - i)).foldl (fun k q => runBlock k m (i + q)) k

/-- Whether the matrix instruction queue has room (R339): 16 issued and not started. -/
def mqRoom (k : Core) : Bool :=
  (k.mq.filter (fun q => !q.running)).length + (k.drains.filter (fun d => d.img.isNone)).length < 16

/-- The tile checks of R337 steps 2 and 3. -/
def tileTrap (k : Core) (g m n z : Nat) (slots : List Nat) : Option Cause :=
  let count := (m / 16) * (n / 16)
  if m * n > 131072 || z + count > 512 then some .accRange
  else if !allHeld k g (slots, (List.range count).map (fun i => z + i)) then some .slot
  else none

/-- MMA (R336, R337): the operands' scale exponents are those at its issue (R340). -/
def execMma (g : Guard) (f : FMma) (s : State) : Out :=
  runWord .matOnly false 1 g noTok
    (fun _ _ => if f.u then [.u f.srca.toNat f.fea, .u f.srcb.toNat f.feb] else [])
    (fun x lanes s =>
      let k := coreOf s x.w.core
      let a := if f.u then (sreg x.grp f.srca.toNat).toNat else f.srca.toNat
      let b := if f.u then (sreg x.grp f.srcb.toNat).toNat else f.srcb.toNat
      let m := tileM f.mc.toNat
      let n := 16 * f.n.toNat
      match tileTrap k x.w.gslot m n f.dst.toNat [] with
      | some .accRange => .trap .accRange lanes 0 0 s
      | _ =>
        if a ≥ 8 || b ≥ 8 then .trap .slot lanes 0 0 s
        else match tileTrap k x.w.gslot m n f.dst.toNat [a, b] with
          | some c => .trap c lanes 0 0 s
          | none =>
            if !mqRoom k then .hold .nothing s
            else
              let (id, s) := freshId s
              let op : MatOp := {
                id := id
                gslot := x.w.gslot
                kind := .mma f.ty f.rnd.toNat f.sat m n a b f.dst.toNat (slotOf k a).sx.toInt (slotOf k b).sx.toInt
                running := false }
              .done (modCore s x.w.core (fun k => { k with mq := k.mq ++ [op] }))) s

/-- MZERO (R341). -/
def execMzero (g : Guard) (f : FI) (s : State) : Out :=
  let it := claimItems f.imm
  runWord .matOnly false 1 g noTok (fun _ _ => [])
    (fun x m s =>
      let k := coreOf s x.w.core
      if badBlocks it.2 then .trap .accRange m 0 0 s
      else if !allHeld k x.w.gslot it then .trap .slot m 0 0 s
      else if !mqRoom k then .hold .nothing s
      else
        let (id, s) := freshId s
        let op : MatOp := { id := id, gslot := x.w.gslot, kind := .mzero (it.2.headD 0) it.2.length, running := false }
        .done (modCore s x.w.core (fun k => { k with mq := k.mq ++ [op] }))) s

/-- MSCALE (R340). -/
def execMscale (g : Guard) (f : FA) (s : State) : Out :=
  let i := f.dst.toNat
  runWord .matOnly false 1 g noTok (fun _ _ => [.u f.srcb.toNat f.feb])
    (fun x m s =>
      if !slotHeld (coreOf s x.w.core) x.w.gslot i then .trap .slot m 0 0 s
      else .done (modCore s x.w.core (fun k =>
        { k with slots := mapSet k.slots i { slotOf k i with sx := BitVec.ofNat 8 (sreg x.grp f.srcb.toNat).toNat } }))) s

/-- ARRAY_START: the array, when it is free, takes the operation at the head of the queue (R339). -/
def execArrayStart (core : Nat) (s : State) : Out :=
  .next (modCore s core (fun k => match k.mq with
    | q :: r => { k with mq := { q with running := true } :: r }
    | [] => k))

/-- Whether the array may write the blocks of the operation at the head of its queue: it runs, and no earlier drain has yet to read
one of them (R339, R346). -/
def arrayMay (k : Core) (q : MatOp) : Bool :=
  q.running && !k.drains.any (fun d => d.id < q.id && d.img.isNone && shares (drainBlocks d.desc) q.kind.blocks)

/-- The array computes the next block of the running operation (R339). -/
def arrayBlock (s : State) (core : Nat) : State :=
  let k := coreOf s core
  match k.mq with
  | q :: r =>
    if !arrayMay k q || q.blk ≥ q.kind.count then s
    else modCore s core (fun k => runBlock { k with mq := { q with blk := q.blk + 1 } :: r } q.kind q.blk)
  | [] => s

/-- ARRAY_RETIRE: the running operation computes the blocks that are left, and retires (R339, R346). -/
def execArrayRetire (core : Nat) (s : State) : Out :=
  let k := coreOf s core
  match k.mq with
  | q :: r => if !arrayMay k q then .next s else .next (wakeDone (modCore s core (fun k => runMat { k with mq := r } q.kind q.blk)) core q.gslot)
  | [] => .next s

/-! ### The drain unit -/

/-- OFMT of a descriptor (R343). -/
def drainTy (d : Nat) : Ty := (tyOf (BitVec.ofNat 4 (descFld d 18 4))).getD .i8
/-- Bytes of an output element. -/
def drainE (d : Nat) : Nat := tyWidth (drainTy d) / 8
/-- N of a descriptor. -/
def drainN (d : Nat) : Nat := 16 * descFld d 11 6
/-- M of a descriptor. -/
def drainM (d : Nat) : Nat := tileM (descFld d 9 2)
/-- Bytes of a residual element: F32, F16, B16. -/
def resE (d : Nat) : Nat := if descFld d 31 2 = 0 then 4 else 2
/-- The residual's type. -/
def resTy (d : Nat) : Ty := if descFld d 31 2 = 0 then .f32 else if descFld d 31 2 = 1 then .f16 else .b16
/-- One bit of a descriptor. -/
def descBit (d i : Nat) : Bool := d.testBit i

/-- The rules of R343. -/
def drainLegal (d : Nat) : Bool :=
  let int := descBit d 17
  let add := descBit d 26
  let res := descBit d 27
  let drop := descBit d 28
  let scl := descBit d 29
  let okTy := match tyOf (BitVec.ofNat 4 (descFld d 18 4)) with
    | some t => !(t == .i64 || t == .n64 || t == .f64 || t == .bx)
    | none => false
  let t := drainTy d
  descFld d 448 64 == 0 && descFld d 344 40 == 0 && descFld d 33 31 == 0 &&
  descFld d 31 2 != 3 && okTy && descFld d 11 6 != 0 && descFld d 9 2 != 3 &&
  (!(int && !scl) || (!res && !drop)) &&
  (!add || (t == .f32 || t == .f16 || t == .b16 || (t == .i32 && (int || scl)))) &&
  (res || (descFld d 128 64 == 0 && descFld d 96 32 == 0)) &&
  (drop || (descFld d 256 64 == 0 && descFld d 320 24 == 0 && descFld d 384 64 == 0 && descFld d 224 32 == 0)) &&
  (scl || descFld d 192 32 == 0) &&
  descFld d 64 32 % 128 == 0 && descFld d 64 32 ≥ drainN d * drainE d &&
  (!res || (descFld d 96 32 % 128 == 0 && descFld d 96 32 ≥ drainN d * resE d)) &&
  (!(res && descBit d 30) || descFld d 160 32 == 0)

/-- Bytes from the base of a range to its end (R344). -/
def drainLen (d : Nat) : Nat := (drainM d - 1) * descFld d 64 32 + drainN d * drainE d
/-- The same for the residual. -/
def resLen (d : Nat) : Nat := (drainM d - 1) * descFld d 96 32 + drainN d * resE d
/-- RESADDR. -/
def resAddr (d : Nat) : Nat := descFld d 128 64

/-- The checks of R344 from ALIGN on. -/
def drainTrap (g : Group) (d base : Nat) : Option (Cause × Nat) :=
  let res := descBit d 27
  let win := descBit d 25
  let rwin := descBit d 30
  if base % 128 != 0 then some (.align, base)
  else if res && resAddr d % 128 != 0 then some (.align, resAddr d)
  else if win && base + drainLen d > g.tmpl.sramsz then some (.window, base)
  else if res && rwin && resAddr d + resLen d > g.tmpl.sramsz then some (.window, resAddr d)
  else if !win && !userVa (base + drainLen d - 1) then some (.pageProtection, base)
  else if res && !rwin && !userVa (resAddr d + resLen d - 1) then some (.pageProtection, resAddr d)
  else none

/-- The descriptor in the eight registers from `d` up (R343). -/
def readDesc (g : Group) (d : Nat) : Nat :=
  (List.range 8).foldl (fun acc q => acc + (sreg g (d + q)).toNat * 2 ^ (64 * q)) 0

/-- MDRAIN (R342, R344). -/
def execMdrain (g : Guard) (f : FM) (s : State) : Out :=
  runWord .matOnly false 1 g f.twait
    (fun _ _ => .u f.base.toNat f.fe :: (List.range 8).map (fun q => Opd.u (f.data.toNat + q) f.fe))
    (fun x m s =>
      let k := coreOf s x.w.core
      let d := readDesc x.grp f.data.toNat
      let base := (sreg x.grp f.base.toNat).toNat
      if !drainLegal d || (descBit d 25 && base ≥ 2 ^ 32) then .trap .illegal m 0 0 s
      else match tileTrap k x.w.gslot (drainM d) (drainN d) (descFld d 0 9) [] with
        | some c => .trap c m 0 0 s
        | none => match drainTrap x.grp d base with
          | some (c, va) => .trap c m va (if c == .pageProtection && va == base then 1 else 0) s
          | none =>
            if !mqRoom k || !(pendingAcqs s x).isEmpty then .hold .nothing s
            else
              let (id, s) := freshId s
              let tok := tokOf f.tse f.tslot
              let dr : Drain := {
                id := id
                gslot := x.w.gslot
                desc := d
                base := base
                tok := tok
                img := none
                waitPage := none }
              .done (addToken (modCore s x.w.core (fun k => { k with drains := k.drains ++ [dr] })) x.w tok 1)) s

/-- How the rows of a range translate. -/
inductive RowsT where
  | ok (rows : List (List (Nat × Nat))) (s : State)
  | page (va : Nat) (s : State)
  | stop (c : Cause) (s : State)

/-- The physical ranges of `n` bytes at an address of path M (R347), page by page. -/
def rowPhys (fuel : Nat) (s : State) (core : Nat) (g : Group) (win : Bool) (va n kind : Nat) : RowsT :=
  if win then .ok [[(windowPa g va, n)]] s
  else match fuel with
    | 0 => .ok [[]] s
    | fuel + 1 =>
      if n = 0 then .ok [[]] s
      else
        let len := Nat.min n (4096 - va % 4096)
        match engineTranslate s core g.ctx va kind 2 g.launch with
        | (.ok pa _, s) => match rowPhys fuel s core g win (va + len) (n - len) kind with
          | .ok rows s => .ok [(pa, len) :: rows.headD []] s
          | r => r
        | (.protection, s) => .stop .pageProtection s
        | (.lost, s) => .stop .pageLost s
        | (.wait, s) => .page va s

/-- Every row of a range translated (R347). -/
def rowsPhys (s : State) (core : Nat) (g : Group) (win : Bool) (va stride rows n kind : Nat) : RowsT :=
  (List.range rows).foldl (fun acc i => match acc with
    | .ok l s => match rowPhys 3 s core g win (va + i * stride) n kind with
      | .ok r s => .ok (l ++ r) s
      | e => e
    | e => e) (.ok [] s)

/-- Every page of a range translated, also those that no row touches (R344, R347). -/
def spanPages (s : State) (core : Nat) (g : Group) (win : Bool) (va n kind : Nat) : RowsT :=
  if win then .ok [] s
  else (List.range ((va + n + 4095) / 4096 - va / 4096)).foldl (fun acc i => match acc with
    | .ok l s => match rowPhys 1 s core g win ((va / 4096 + i) * 4096) 1 kind with
      | .ok _ s => .ok l s
      | e => e
    | e => e) (.ok [] s)

/-- A range of a drain translated, every page of it, and its rows. -/
def spanRows (s : State) (core : Nat) (g : Group) (win : Bool) (va stride rows n kind : Nat) : RowsT :=
  match spanPages s core g win va ((rows - 1) * stride + n) kind with
  | .ok _ s => rowsPhys s core g win va stride rows n kind
  | e => e

/-- Both ranges of a drain translated: the destination rows, then the residual's (R347). -/
def drainRows (s : State) (core : Nat) (g : Group) (d base : Nat) : RowsT × List (List (Nat × Nat)) :=
  match spanRows s core g (descBit d 25) base (descFld d 64 32) (drainM d) (drainN d * drainE d) 1 with
  | .ok dst s =>
    if descBit d 27 then
      match spanRows s core g (descBit d 30) (resAddr d) (descFld d 96 32) (drainM d) (drainN d * resE d) 0 with
      | .ok res s => (.ok dst s, res)
      | e => (e, [])
    else (.ok dst s, [])
  | e => (e, [])

/-- A drain taken off, its token counted down, and a cause raised to its group's fault domain (R347). -/
def retireDrain (s : State) (core : Nat) (d : Drain) (c : Option Cause) : State :=
  let s := modCore s core (fun k => { k with drains := k.drains.filter (fun q => q.id != d.id) })
  let s := wakeDone (addToken s { core := core, gslot := d.gslot, wid := 64, slot := 0 } d.tok (-1)) core d.gslot
  match c, groupAt s core d.gslot with
  | some f, some g => regionFault s g.ctx g.region f.code g.launch (dieOfCore core)
  | _, _ => s

/-- A drain of a core by number changed. -/
def modDrain (s : State) (core id : Nat) (f : Drain → Drain) : State :=
  modCore s core (fun k => { k with drains := k.drains.map (fun d => if d.id == id then f d else d) })

/-- The words of a tile in rows (R334). -/
def tileWords (k : Core) (d : Nat) : List W32 :=
  (List.range (drainM d)).flatMap (fun i => (List.range (drainN d)).map (fun j => accWord k (descFld d 0 9) (drainN d) i j))

/-- DRAIN_START: the drain unit takes the first drain it has not read, translates its pages and reads its blocks, after the
operations issued before it that write them have retired (R346, R347). -/
def execDrainStart (core : Nat) (s : State) : Out :=
  let k := coreOf s core
  match k.drains.find? (fun d => d.img.isNone) with
  | none => .next s
  | some d => match groupAt s core d.gslot with
    | none => .next s
    | some g =>
      let waiting := match d.waitPage with
        | some p => pageOpen s (ctxOf s g.ctx).pasid p
        | none => false
      if waiting || k.mq.any (fun q => q.id < d.id && shares q.kind.blocks (drainBlocks d.desc)) then .next s
      else match (drainRows s core g d.desc d.base).1 with
        | .stop c s => .next (retireDrain s core d (some c))
        | .page va s => .next (modDrain s core d.id (fun q => { q with waitPage := some (va / 4096) }))
        | .ok _ s => .next (modDrain s core d.id (fun q => { q with waitPage := none, img := some (tileWords k d.desc) }))

/-- An exact value rounded to FP32 in RNE (R345). -/
def roundF32 (v : FVal) : Nat :=
  match v with
  | .nan s fr => packNan fmtF32 false [.nan s fr]
  | .inf s => packInf fmtF32 rne s
  | .fin s m e => roundPack fmtF32 rne s m e false

/-- Three rounds of the dropout hash (R345). -/
def dropHash (h : W64) : W64 :=
  (List.range 3).foldl (fun (h : W64) _ =>
    let h := (h ^^^ (h >>> 29)) * 0xD6E8FEB86659FD93
    (h ^^^ (h >>> 32)) * 0xA3B195D42C6F1E07) h

/-- Whether dropout keeps element (i, j) (R345). -/
def dropKeeps (d i j : Nat) : Bool :=
  let row := (descFld d 384 32 + i) % 2 ^ 32
  let col := (descFld d 416 32 + j) % 2 ^ 32
  let h : W64 := BitVec.ofNat 64 (descFld d 256 64) ^^^ BitVec.ofNat 64 (row <<< 24) ^^^ BitVec.ofNat 64 col ^^^
    BitVec.ofNat 64 (descFld d 336 8 <<< 56)
  (dropHash h).toNat >>> 48 < descFld d 320 16

/-- The final rounding of a descriptor (R343). -/
def drainRnd (d : Nat) : Rnd := ⟨descFld d 22 2, descBit d 24, false⟩

/-- What reaches the final step for element (i, j): an integer on the integer path, an FP32 pattern otherwise (R345). -/
def drainValue (d i j : Nat) (word : W32) (res : Nat) : Int ⊕ Nat :=
  let int := descBit d 17
  let scl := descBit d 29
  if int && !scl then .inl word.toInt
  else
    let v : FVal := if int then .fin (word.toInt < 0) word.toInt.natAbs 0 else fDecode fmtF32 word.toNat
    let a := if scl then roundF32 (exactProd v (fDecode fmtF32 (descFld d 192 32)) 0) else word.toNat
    let a := if descBit d 27 then fAdd fmtF32 rne a (convert (resTy d) .f32 rne res) else a
    let a := if descBit d 28 then (if dropKeeps d i j then fMul fmtF32 rne a (descFld d 224 32) else 0) else a
    .inr a

/-- The output element (R345): `old` is what the destination holds, for add-on-store. -/
def drainOut (d : Nat) (v : Int ⊕ Nat) (old : Nat) : Nat :=
  let t := drainTy d
  let r := drainRnd d
  let out := match v with
    | .inl a => convert .i32 t r (wrapTo 32 a)
    | .inr a => convert .f32 t r a
  if !descBit d 26 then out
  else match tyFmt t with
    | none => packInt .i32 r.sat (readInt .i32 old + readInt .i32 out)
    | some f =>
      let a : FVal := match v with
        | .inl a => .fin (a < 0) a.natAbs 0
        | .inr a => fDecode fmtF32 a
      fmaVals f r a (.fin false 1 0) (fDecode f old)

/-- The bytes at a list of physical ranges. -/
def rangeBytes (s : State) (rs : List (Nat × Nat)) : List Byte := rs.flatMap (fun (pa, n) => memGetBytes s.mem pa n)

/-- The bytes that a unit reads on a path for a role (R69): of the words that its step takes as they were, as they may still be seen. -/
def unitBytes (s : State) (path : Nat) (role : Option Who) (rs : List (Nat × Nat)) : List Byte :=
  rs.flatMap (fun (pa, n) => pathRead s path role s.olds pa n)

/-- What such a read leaves: the words it has taken as they are at home are seen by every path from then on. -/
def unitSaw (s : State) (rs : List (Nat × Nat)) : State := sawHome s (rs.flatMap (fun (pa, n) => newWords s.olds pa n))

/-- The lines that a list of ranges touches. -/
def rangeLines (rs : List (Nat × Nat)) : List Nat := distinct (rs.flatMap (fun (pa, n) => linesOf pa n))

/-- The output bytes of row `i` of a drain. -/
def drainRowBytes (d i : Nat) (words : List W32) (res old : List Byte) : List Byte :=
  let e := drainE d
  let q := resE d
  (List.range (drainN d)).flatMap (fun j =>
    let rv := ofBytesLE ((res.drop (j * q)).take q)
    let ov := ofBytesLE ((old.drop (j * e)).take e)
    bytesLE e (drainOut d (drainValue d i j (words.getD (i * drainN d + j) 0) rv) ov))

/-- The pieces of a row's ranges, one for each line: address, place in the row, length. -/
def linePieces (rs : List (Nat × Nat)) (off : Nat) : List (Nat × Nat × Nat) :=
  match rs with
  | [] => []
  | (pa, n) :: r =>
    (linesOf pa n).map (fun l =>
      let lo := max pa (l * 128)
      (lo, off + (lo - pa), min (pa + n) (l * 128 + 128) - lo)) ++ linePieces r (off + n)

/-- The home units that a drain writes at (R73). -/
def drainHomes (dst : List (List (Nat × Nat))) : List Nat :=
  distinct (dst.flatMap (fun rs => (linePieces rs 0).map (fun p => homeOf p.1)))

/-- One piece of a row written on path M: a poisoned line covered whole loses its mark, one covered in part is not written
(R197). -/
def drainPiece (s : State) (own : Nat × Nat) (pa : Nat) (bs : List Byte) : State :=
  if bs.length == 128 then pathWrite { s with poison := s.poison.filter (fun l => l != lineOf pa) } 2 own [] pa bs
  else if isPoisoned s (lineOf pa) then s
  else pathWrite s 2 own [] pa bs

/-- The matrix thread of a group. -/
def matRole (core gslot : Nat) : Who where
  core := core
  gslot := gslot
  wid := 64
  slot := 0

/-- The share of one home unit of a drain's writes, made as one indivisible update (R73, R345, R347). -/
def drainShare (s : State) (core : Nat) (own : Nat × Nat) (h : Nat) (d : Drain) (img : List W32) (dst res : List (List (Nat × Nat))) : State :=
  let s := (List.range dst.length).foldl (fun s i =>
    let s := unitSaw s (res.getD i [])
    let rs := dst.getD i []
    let mine := (linePieces rs 0).filter (fun p => homeOf p.1 == h)
    if mine.isEmpty then s
    else
      let bs := drainRowBytes d.desc i img (unitBytes s 2 (some (matRole core d.gslot)) (res.getD i [])) (rangeBytes s rs)
      mine.foldl (fun s (pa, off, n) => drainPiece s own pa ((bs.drop off).take n)) s) s
  let lines := distinct (dst.flatMap (fun rs => ((linePieces rs 0).filter (fun p => homeOf p.1 == h)).map (fun p => lineOf p.1)))
  modDrain (noteWrites s (matRole core d.gslot) lines) core d.id (fun q => { q with homes := q.homes ++ [h] })

/-- The ranges of a drain: whether in the window, the base, the bytes; its destination's, then its residual's. -/
def drainSpans (d : Drain) : (Bool × Nat × Nat) × Option (Bool × Nat × Nat) :=
  ((descBit d.desc 25, d.base, drainLen d.desc),
   if descBit d.desc 27 then some (descBit d.desc 30, resAddr d.desc, resLen d.desc) else none)

/-- Whether two ranges of one thread may meet. -/
def spansMeet (a : Bool × Nat × Nat) (b : Option (Bool × Nat × Nat)) : Bool :=
  match b with
  | some b => a.1 == b.1 && overlaps a.2.1 a.2.2 b.2.1 b.2.2
  | none => false

/-- Whether an earlier drain of the same thread that has not retired writes what a drain reads or writes, or reads what it writes:
accesses of one thread on path M to one address go in program order (R69). -/
def drainBehind (k : Core) (d : Drain) : Bool :=
  k.drains.any (fun e => e.id < d.id && e.gslot == d.gslot &&
    (spansMeet (drainSpans e).1 (some (drainSpans d).1) || spansMeet (drainSpans e).1 (drainSpans d).2 ||
     spansMeet (drainSpans d).1 (drainSpans e).2))

/-- Some of a drain's shares written, its pages translated and the lines it reads checked before the first (R347): `pick` chooses the
home units among those left, and `fin` retires it once none is left. -/
def drainWrite (s : State) (core : Nat) (d : Drain) (pick : Nat → Bool) (fin : Bool) : State :=
  match d.img, groupAt s core d.gslot with
  | some img, some g =>
    if drainBehind (coreOf s core) d || !obsClear s core d.id then s
    else
      let go := fun (s : State) (dst res : List (List (Nat × Nat))) =>
        let read := (res.flatMap rangeLines) ++ (if descBit d.desc 26 then dst.flatMap rangeLines else [])
        if d.homes.isEmpty && read.any (fun l => isPoisoned s l) then retireDrain s core d (some .poison)
        else
          let s := modDrain s core d.id (fun q => { q with rows := some (dst, res) })
          let left := (drainHomes dst).filter (fun h => !d.homes.contains h && pick h)
          let s := left.foldl (fun s h => drainShare s core (g.ctx, g.launch) h d img dst res) s
          if !fin then s
          else
            let part := dst.any (fun rs => (rangeLines rs).any (fun l => isPoisoned s l))
            retireDrain s core d (if part then some .poison else none)
      match d.rows with
      | some (dst, res) => go s dst res
      | none => match drainRows s core g d.desc d.base with
        | (.stop c s, _) => retireDrain s core d (some c)
        | (.page va s, _) => modDrain s core d.id (fun q => { q with waitPage := some (va / 4096) })
        | (.ok dst s, res) => go s dst res
  | _, _ => s

/-- The share of home unit `h` of a drain of a core written (R73). -/
def drainPart (s : State) (core id h : Nat) : State :=
  match (coreOf s core).drains.find? (fun d => d.id == id) with
  | some d => drainWrite s core d (fun q => q == h) false
  | none => s

/-- DRAIN_RETIRE: the `n`-th drain of a core, its blocks read, writes what is left of its tile and retires (R345, R347). -/
def execDrainRetire (core n : Nat) (s : State) : Out :=
  match (coreOf s core).drains[n]? with
  | none => .next s
  | some d => .next (drainWrite s core d (fun _ => true) true)

/-- MWAIT (R348): the operations of the thread issued before it; it goes on when the last of them retires. -/
def execMwait (g : Guard) (f : FI) (s : State) : Out :=
  let live := fun (s : State) (x : Iss) (sel : Nat) =>
    let k := coreOf s x.w.core
    (if sel != 2 then (k.mq.filter (fun q => q.gslot == x.w.gslot)).map (·.id) else []) ++
    (if sel != 1 then (k.drains.filter (fun d => d.gslot == x.w.gslot)).map (·.id) else [])
  orWait (fun _ _ s => .hold .nothing s)
    (runWord .matOnly false 1 g noTok (fun _ _ => [])
      (fun x _ s =>
        let ids := live s x f.imm.toNat
        if ids.isEmpty then .done s else .issued .nothing (beginWait s x (.mwait ids)))) s

/-! ### OST and ALD -/

/-- The lanes of G with their matrix addresses (R349). -/
def matAddrs (x : Iss) (m : W32) (f : FM) : List (Nat × Nat) :=
  let w := widOf f.wid
  (lanesOf m).map (fun l =>
    let b := if f.u then (sreg x.grp f.base.toNat).toNat % 2 ^ 32 else (vreg x.wp f.base.toNat l).toNat
    (l, wrapTo 32 ((b : Int) + f.off.toInt * (w : Int))))

/-- The checks of R349 in their order, then `k`. -/
def withMat (s : State) (w : Nat) (as : List (Nat × Nat)) (outside unheld : Nat → Bool) (c : Cause) (k : Res) : Res :=
  let mis := misaligned w as
  let out := as.filter (fun a => outside a.2)
  let bad := as.filter (fun a => unheld a.2)
  if !mis.isEmpty then .trap .align (blame mis).1 (blame mis).2 0 s
  else if !out.isEmpty then .trap c (blame out).1 0 0 s
  else if !bad.isEmpty then .trap .slot (blame bad).1 0 0 s
  else k

/-- OST (R349, R350): one request for each row that the lanes touch, performed whole (R305, R351). -/
def execOst (g : Guard) (f : FM) (s : State) : Out :=
  let w := widOf f.wid
  let n := widRegs w
  runWord .vector false 1 g f.twait
    (fun _ _ => [opBase f.base f.u f.fe 1, .v f.data.toNat n id f.fe])
    (fun x m s =>
      let as := matAddrs x m f
      let k := coreOf s x.w.core
      withMat s w as (fun a => a ≥ 2 ^ 21 || a % 2 ^ 18 ≥ 0x30000) (fun a => !slotHeld k x.w.gslot (a / 2 ^ 18)) .slot
        (let la := as.map (fun (l, a) => ({ lane := l, pa := slotSpace + a, v := vregN x.wp f.data.toNat n l } : LaneAcc))
         .done (sendReqs s x .ost w 0 0 (tokOf f.tse f.tslot) false false (lineGroups la)).2)) s

/-- The words of an ALD: for each lane and each of its words, the register it fills and the request it makes (R351). -/
def aldWords (d n : Nat) (as : List (Nat × Nat)) : List (Nat × LaneAcc) :=
  (List.range n).flatMap (fun k => as.map (fun (l, a) => (d + k, ({ lane := l, pa := blockSpace + a + 4 * k, v := 0 } : LaneAcc))))

/-- ALD (R349, R350): the destination is marked empty and each word is read by a request of its own (R308, R351). -/
def execAld (g : Guard) (f : FM) (s : State) : Out :=
  let w := widOf f.wid
  let n := widRegs w
  runWord .vector false 1 g f.twait
    (fun _ _ => [opBase f.base f.u f.fe 1, .vl f.data.toNat n])
    (fun x m s =>
      let as := matAddrs x m f
      let k := coreOf s x.w.core
      let held := fun (z : Nat) => (blockOf k z).holder == .held x.w.gslot
      withMat s w as (fun a => a ≥ 2 ^ 19) (fun a => !held (a / 1024)) .accRange
        (let ws := aldWords f.data.toNat n as
         let (ids, s) := sendReqs s x .ald 4 0 0 (tokOf f.tse f.tslot) false false (ws.map (fun e => [e.2]))
         .done (onWarp s x (fun y => (ws.zip ids).foldl (fun y (e, i) => produceV y i.1 e.1 1 i.2) y)))) s

end Sys2Proof.Machine
end

