-- ==== Sys2Proof/Machine/EventIns.lean ====
section
/-!
DEFINITION. The event and automaton instructions: EMIT, EVRD, EVWAIT, ALOAD, AARM, ADISARM, ASAVE (R369-R382).
-/
namespace Sys2Proof.Machine

/-! ### Structures in translated memory (R371) -/

/-- A range of bytes cut at the page boundaries: address and length of each piece. -/
def pagePieces (va n : Nat) : List (Nat × Nat) :=
  if n = 0 then []
  else (List.range ((va + n - 1) / 4096 - va / 4096 + 1)).map (fun i =>
    let a := if i = 0 then va else (va / 4096 + i) * 4096
    (a, Nat.min (va + n) ((va / 4096 + i + 1) * 4096) - a))

/-- A range of an instruction translated whole (R371, R304), then `k` with its physical ranges; a trap names every lane of
G. -/
def withRange (s : State) (x : Iss) (m : W32) (kind path va n : Nat) (k : List (Nat × Nat) → State → Res) : Res :=
  let ps := pagePieces va n
  withTranslation s x kind path true (ps.flatMap (fun p => (lanesOf m).map (fun l => (l, p.1)))) (fun pas s =>
    k ((pas.filter (fun p => some p.1 == (lanesOf m).head?)).zip ps |>.map (fun (p, q) => (p.2.1, q.2))) s)

/-- The offset of the first byte of a list of ranges that lies in one of the lines `bad`. -/
def firstIn (rs : List (Nat × Nat)) (bad : List Nat) : Nat :=
  ((rs.flatMap (fun (pa, n) => (List.range n).map (fun i => pa + i))).findIdx (fun a => bad.contains (lineOf a)))

/-- The bytes of a structure, checked whole (R371), then `k`. -/
def structRead (s : State) (x : Iss) (m : W32) (path va n : Nat) (k : List Byte → State → Res) : Res :=
  withRange s x m 0 path va n (fun rs s =>
    let bad := (rangeLines rs).filter (fun l => isPoisoned s l)
    if bad.isEmpty then k (rangeBytes s rs) s else .trap .poison m (va + firstIn rs bad) 0 s)

/-- A structure to be written, checked whole (R371, R197), then `k` with its ranges. -/
def structRange (s : State) (x : Iss) (m : W32) (path va n : Nat) (k : List (Nat × Nat) → State → Res) : Res :=
  withRange s x m 1 path va n (fun rs s =>
    let bad := (rangeLines rs).filter (fun l => isPoisoned s l && !(wholeLines rs).contains l)
    if bad.isEmpty then k rs s else .trap .poison m (va + firstIn rs bad) 0 s)

/-- A structure written at its home; poisoned lines covered whole lose their marks, and the core's L1 drops its copies. -/
def structWrite (s : State) (w : Who) (rs : List (Nat × Nat)) (bs : List Byte) : State :=
  let whole := wholeLines rs
  let s := writeRanges { s with poison := s.poison.filter (fun l => !whole.contains l) } rs bs
  noteWrites ((rangeLines rs).foldl (fun s l => l1Drop s w.core l) s) w (rangeLines rs)

/-- A device-scope release by an instruction that hands its work to a unit (R374, R379, R393, R394). -/
def deviceReleased (s : State) (x : Iss) : Bool := coreDrained s x && (pendingAcqs s x).isEmpty

/-! ### EMIT -/

/-- The record that EMIT reads (R372): what the device writes itself is not taken from it. -/
def emitRecord (x : Iss) (d : Nat) (rel : Bool) : EventRec :=
  let e := eventOfBits ((List.range 4).foldl (fun v i => v + (sreg x.grp (d + i)).toNat * 2 ^ (64 * i)) 0)
  { e with rel := rel, remote := false }

/-- Whether EMIT traps ILLEGAL (R372). -/
def emitIllegal (x : Iss) (f : FM) : Bool :=
  let w0 := (sreg x.grp f.data.toNat).toNat
  let node := (sreg x.grp f.base.toNat).toNat
  bitsOf w0 14 2 != 0 || bitsOf w0 16 8 ≥ 0xE0 || (f.u && node ≥ 0xFFFF)

/-- Whether the issuer's copies to a node have been performed (R203). -/
def copiesTo (s : State) (x : Iss) (node : Nat) : Bool :=
  (coreOf s x.w.core).copies.any (fun c => c.gslot == x.w.gslot && c.wid == x.w.wid && c.dsp == 3 && c.node == node)

/-- The local form of EMIT (R373). -/
def emitLocal (s : State) (x : Iss) (e : EventRec) (tok : Option Nat) : Res :=
  let held := (dieOf s x.die).intakeQ.filter (fun i => i.cls == 1 && i.key == x.w.core)
  if held.length ≥ 4 then .hold .nothing s
  else
    let s := addToken s x.w tok 1
    .done (sendEvent s x.die 1 x.w.core e (some x.grp.ctx) (tok.map (fun k => (x.w, k))) none)

/-- The remote form of EMIT (R202, R203, R205): STAMP from the port's transmit counter. -/
def emitRemote (s : State) (x : Iss) (e : EventRec) (node : Nat) (tok : Option Nat) : Res :=
  if e.rel && copiesTo s x node then .hold .nothing s
  else match routePort s node with
    | none => match mapFind s.routes node with
      | some (p, _) => .done (modPort s p (fun q => { q with unreach := (q.unreach + 1) % 2 ^ 32 }))
      | none => .done s
    | some p =>
      if !portRoom s p then .hold .nothing s
      else
        let s := raiseTx s node p
        let e := { e with stamp := BitVec.ofNat 64 (portOf s p).tx }
        let (seq, s) := sendFlit s p { type := 1, dst := node, nev := 0, body := bytesLE 128 e.bits }
        match tok with
        | none => .done s
        | some k => .done (modPort (addToken s x.w tok 1) p (fun q => { q with toks := q.toks ++ [(seq, x.w, k)] }))

/-- EMIT (R372-R374). -/
def execEmit (g : Guard) (f : FM) (s : State) : Out :=
  runWord .all true 1 g f.twait
    (fun _ _ => (List.range 4).map (fun i => Opd.u (f.data.toNat + i) f.fe) ++ (if f.u then [Opd.u f.base.toNat f.fe] else []))
    (fun x m s =>
      if emitIllegal x f then .trap .illegal m 0 0 s
      else
        let rel := f.ord == 2
        let e := emitRecord x f.data.toNat rel
        if rel && !deviceReleased s x then .hold .nothing s
        else if f.u then emitRemote s x e (sreg x.grp f.base.toNat).toNat (tokOf f.tse f.tslot)
        else emitLocal s x e (tokOf f.tse f.tslot)) s

/-! ### EVRD and EVWAIT -/

/-- The stream word of EVRD and EVWAIT (R376): the stream and the threshold. -/
def streamWord (x : Iss) (f : FA) : Nat × Nat :=
  let v := (sreg x.grp f.srca.toNat).toNat
  (v % 2 ^ 14, v / 2 ^ 32)

/-- Whether a stream is OPEN and bound to the issuing context (R376). -/
def streamMine (s : State) (x : Iss) (n : Nat) : Bool :=
  (streamOf s n).st == .open_ && (streamOf s n).ctx == x.grp.ctx

/-- The four registers of an EVRD or EVWAIT marked empty (R376): the number of the value, and the state. -/
def produceEvent (s : State) (x : Iss) (d : Nat) : Nat × State :=
  let (id, s) := freshId s
  (id, onGroup s x (fun k => (List.range 4).foldl (fun k i => produceU k id (d + i) i) k))

/-- EVRD (R375, R376): all zeros where the record is unfilled or not the context's. -/
def execEvrd (g : Guard) (f : FA) (s : State) : Out :=
  runWord .all true 1 g noTok (fun _ _ => [.u f.srca.toNat f.fea])
    (fun x _ s =>
      let n := (streamWord x f).1
      let (id, s) := produceEvent s x f.dst.toNat
      match (if streamMine s x n then (streamOf s n).latest else none) with
      | some e => .done (fillEvent s x.w id e)
      | none => .done (onGroup s x (fun k => arriveU k id 0))) s

/-- EVWAIT (R376): tested at issue, at each change of the record, and again when the warp is resumed. -/
def execEvwait (g : Guard) (f : FA) (s : State) : Out :=
  let test := fun (s : State) (x : Iss) (n thr id : Nat) => match (streamOf s n).latest with
    | some e => if evMeets e thr then some (fillEvent s x.w id e) else none
    | none => none
  orWait (fun x w s => match w with
      | .evwait n thr _ id => match test s x n thr id with
        | some s => .done s
        | none => .hold (.launches n) s
      | _ => .hold .nothing s)
    (runWord .all true 1 g noTok (fun _ _ => [.u f.srca.toNat f.fea])
      (fun x m s =>
        let (n, thr) := streamWord x f
        if !streamMine s x n then .trap .automaton m 0 0 s
        else
          let (id, s) := produceEvent s x f.dst.toNat
          match test s x n thr id with
          | some s => .done s
          | none => .issued (.launches n) (beginWait s x (.evwait n thr f.dst.toNat id)))) s

/-! ### Automata -/

/-- Whether an automaton slot belongs to the issuer's context and stands in one of the states (R125, R378). -/
def autoMine (s : State) (x : Iss) (die i : Nat) (sts : List AState) : Bool :=
  let a := autoOf s die i
  sts.contains a.st && a.ctx == x.grp.ctx

/-- The place of a role's request among those that reach a unit of a die in one cycle (R307): local cores by number, then the bridges by
die; in a core by partition, then by warp slot. -/
def homeKey (s : State) (die : Nat) (w : Who) : Nat :=
  let (p, t) := ((warpAt s w.core w.gslot w.wid).map (fun y => (y.part, y.wslot))).getD (0, 0)
  (if dieOfCore w.core == die then 0 else 2 ^ 24) + w.core * 2 ^ 12 + p * 2 ^ 8 + t

/-- An ask given to a unit of a die: its role is held until the answer (R369). -/
def askUnit (s : State) (x : Iss) (m : W32) (die id : Nat) (op : AskOp) : Res :=
  let s := modDie s die (fun d => { d with asks := d.asks ++ [{ who := x.w, id := id, op := op }] })
  .issued .nothing (beginWait s x (.answer id m))

/-- An automaton instruction given to the PLU of a die (R378): it holds its warp, and is taken in its turn, at most one in a cycle. One that
cannot go on in its turn comes again. -/
def pluTurn (x : Iss) (die : Nat) (k : State → Res) (s : State) : Res :=
  let ask := fun (s : State) => modDie s die (fun d =>
    if d.autoQ.any (fun e => e.1 == x.w) then d else { d with autoQ := d.autoQ ++ [(x.w, d.cycle)] })
  if (dieOf s die).autoGo == some x.w then
    match k (modDie s die (fun d => { d with autoGo := none })) with
    | .hold _ t => .hold .plu (ask t)
    | r => r
  else .hold .plu (ask s)

/-- Whether a role still stands at the automaton instruction that it has given to a PLU. -/
def atPlu (s : State) (w : Who) : Bool :=
  match warpAt s w.core w.gslot w.wid with
  | some y => y.run == .run && !y.halted && (y.split w.slot).elim false (fun q => q.blk == .plu)
  | none => false

/-- The end of a cycle for the automaton instructions of a die (R378): the first to have come has the next turn, in the order of R307
among those that met in a cycle. One that has not used its turn comes again. -/
def endAutos (s : State) (die : Nat) : State :=
  let d := dieOf s die
  let le := fun (a b : Who × Nat) => decide (a.2 < b.2) || (a.2 == b.2 && decide (homeKey s die a.1 ≤ homeKey s die b.1))
  let q := sortBy le ((d.autoQ ++ (d.autoGo.map (fun w => (w, d.cycle))).toList).filter (fun e => atPlu s e.1))
  modDie s die (fun d => { d with autoGo := q.head?.map (fun e => e.1), autoQ := q.drop 1 })

/-- An automaton slot freed (R125, R379): its candidates discarded, their charges returned. -/
def freeAuto (s : State) (die i : Nat) : State :=
  let a := autoOf s die i
  let s := a.cands.foldl (fun s c => discardCand s die i c) s
  modDie s die (fun d => { d with autos := mapDel d.autos i })

/-- The image at a virtual address read whole (R112, R371), then `k`. -/
def readImage (s : State) (x : Iss) (m : W32) (va : Nat) (k : List Byte → State → Res) : Res :=
  structRead s x m 0 va 64 (fun h s =>
    let (_, _, _, len) := imageSizes (ofBytesLE h)
    structRead s x m 0 va len k)

/-- `n` candidate records read one after another (R126), then `k` with the candidates; a reserved bit that is not 0 traps (R8). -/
def readCands (n : Nat) (s : State) (x : Iss) (m : W32) (va : Nat) (acc : List Cand)
    (k : List Cand → State → Res) : Res :=
  match n with
  | 0 => k acc s
  | n + 1 => structRead s x m 0 va 64 (fun h s =>
      let len := recordLen (ofBytesLE h)
      structRead s x m 0 va len (fun bs s =>
        if candRsvOk bs then readCands n s x m (va + len) (acc ++ [candOf bs]) k else .trap .automaton m 0 0 s))

/-- The acceptance of an ALOAD by the PLU (R116, R125, R379): `a` is the automaton as it would stand. -/
def acceptLoad (s : State) (x : Iss) (m : W32) (die i : Nat) (a : Auto) (bs : List Byte) : Res :=
  let regions := (ctxOf s x.grp.ctx).regions
  let d := domOf s a.img.domain
  let n := a.entries
  if (autoOf s die i).st != .free || !imageOk bs regions.length || !d.cfg || d.die != die ||
      !candsOk a.img a.nextSeq none a.cands || n > a.img.candmax || dieEntries s die + n > 16384 ||
      !admitted regions a.img.region { cand := n } then .trap .automaton m 0 0 s
  else .done (modAuto (charge s x.grp.ctx a.img.region { cand := n }) die i (fun _ => a))

/-- A LOADED automaton with its image alone (R379). -/
def loadedAuto (ctx : Nat) (bs : List Byte) (va : Nat) : Auto :=
  { Auto.reset with st := .loaded, ctx := ctx, img := imageOf bs, imgVa := va }

/-- ALOAD with STATE = 1 (R126, R379, R380). -/
def loadState (s : State) (x : Iss) (m : W32) (die i va : Nat) : Res :=
  structRead s x m 0 va 64 (fun h s =>
    let v := ofBytesLE h
    let img := bitsOf v 448 64
    let n := bitsOf v 226 15
    if img % 64 != 0 || n > 16384 || bitsOf v 0 226 != 0 then .trap .automaton m 0 0 s
    else readImage s x m img (fun bs s => readCands n s x m (va + 64) [] (fun cs s =>
      let pos := if v.testBit 241 then some (bitsOf v 320 64, bitsOf v 242 14, bitsOf v 288 32) else none
      let a := { loadedAuto x.grp.ctx bs img with
        cands := cs
        nextSeq := bitsOf v 384 64
        drops := bitsOf v 256 32
        pos := pos
        skip := pos }
      acceptLoad s x m die i a bs)))

/-- ALOAD (R377-R380). Its memory work is done when the PLU accepts it, so its token counts nothing afterwards. -/
def execAload (g : Guard) (f : FM) (s : State) : Out :=
  let free := fun (x : Iss) => (sreg x.grp f.data.toNat).getLsbD 10
  runWord .vector true 1 g f.twait
    (fun x _ => [.u f.data.toNat f.fe] ++ (if free x then [] else [.u f.base.toNat f.fe]))
    (fun x m s =>
      let cw := (sreg x.grp f.data.toNat).toNat
      let die := bitsOf cw 8 2
      let i := bitsOf cw 0 8
      let va := (sreg x.grp f.base.toNat).toNat
      if cw ≥ 2 ^ 12 || (cw.testBit 10 && cw.testBit 11) then .trap .automaton m 0 0 s
      else if cw.testBit 10 then pluTurn x die (fun s =>
        if autoMine s x die i [.loaded, .faulted] then .done (freeAuto s die i) else .trap .automaton m 0 0 s) s
      else if va % 64 != 0 then .trap .align m va 0 s
      else if !deviceReleased s x then .hold .nothing s
      else pluTurn x die (fun s =>
        if cw.testBit 11 then loadState s x m die i va
        else readImage s x m va (fun bs s => acceptLoad s x m die i (loadedAuto x.grp.ctx bs va) bs)) s) s

/-- ASAVE (R382): the image at s[BASE+1], the header and the records at s[BASE]. -/
def execAsave (g : Guard) (f : FM) (s : State) : Out :=
  runWord .vector true 1 g f.twait
    (fun _ _ => [.u f.data.toNat f.fe, .u f.base.toNat f.fe, .u (f.base.toNat + 1) f.fe])
    (fun x m s =>
      let cw := (sreg x.grp f.data.toNat).toNat
      let die := bitsOf cw 8 2
      let i := bitsOf cw 0 8
      let va := (sreg x.grp f.base.toNat).toNat
      let img := (sreg x.grp (f.base.toNat + 1)).toNat
      if cw ≥ 2 ^ 10 then .trap .automaton m 0 0 s
      else if va % 64 != 0 then .trap .align m va 0 s
      else if img % 64 != 0 then .trap .align m img 0 s
      else if !deviceReleased s x then .hold .nothing s
      else pluTurn x die (fun s =>
        if !autoMine s x die i [.loaded] then .trap .automaton m 0 0 s
        else
          let a := autoOf s die i
          let bs := stateBytes a img
          structRange s x m 0 va bs.length (fun rs s => structRange s x m 0 img a.img.raw.length (fun is s =>
            .done (structWrite (structWrite s x.w is a.img.raw) x.w rs bs)))) s) s

/-- The control word of AARM and ADISARM (R377). -/
def armWord (x : Iss) (f : FI) : Nat :=
  if f.imm.getLsbD 23 then (sreg x.grp f.srca.toNat).toNat else f.imm.toNat

/-- Whether an automaton of the same DET region is armed on another die (R127). -/
def detElsewhere (s : State) (die : Nat) (a : Auto) : Bool :=
  detOf (ctxOf s a.ctx).regions a.img.region &&
  s.dies.any (fun (d, k) => d != die && k.autos.any (fun (_, b) =>
    b.st == .armed && b.ctx == a.ctx && b.img.region == a.img.region))

/-- The time point that a domain processes next (R118): the first deadline it completes or event it releases, if one lies below the
frontier, else the frontier. -/
def processingPoint (s : State) (n : Nat) : Nat :=
  let ev := (nextEvent s n).map (fun b => b.ev.stamp.toNat)
  let dl := (firstDeadline s n).map (fun x => x.1 + 1)
  [ev, dl].foldl (fun t o => match o with
    | some v => Nat.min t v
    | none => t) (frontierOf s n)

/-- AARM (R125, R127, R381): candidates whose deadline lies below the domain's processing point are completed first, in creation order.
It waits while the domain is halted. -/
def execAarm (g : Guard) (f : FI) (s : State) : Out :=
  runWord .vector true 1 g noTok (fun _ _ => if f.imm.getLsbD 23 then [.u f.srca.toNat f.fe] else [])
    (fun x m s =>
      let cw := armWord x f
      let die := bitsOf cw 8 2
      let i := bitsOf cw 0 8
      if cw ≥ 2 ^ 10 then .trap .automaton m 0 0 s
      else pluTurn x die (fun s =>
        let a := autoOf s die i
        let d := domOf s a.img.domain
        if !autoMine s x die i [.loaded] || detElsewhere s die a then .trap .automaton m 0 0 s
        else if d.halt != .run || !d.work.isEmpty then .hold .plu s
        else
          let late := a.cands.filter (fun c => match deadlineOf a.img c with
            | some dl => dl < processingPoint s a.img.domain
            | none => false)
          let ws := late.map (fun c => Work.expire i c.seq)
          let s := modAuto s die i (fun a => { a with st := .armed })
          .done (if ws.isEmpty then s else runWork (workFuel ws) s a.img.domain ws)) s) s

/-- Whether a step of R122 belongs to automaton slot `i`. -/
def Work.ofSlot (w : Work) (i : Nat) : Bool :=
  match w with
  | .offer j _ _ | .fresh j _ | .expire j _ | .accept j _ _ _ => j == i

/-- ADISARM (R125, R381): between two processing steps, so it waits while a step of the slot is halted. -/
def execAdisarm (g : Guard) (f : FI) (s : State) : Out :=
  runWord .vector true 1 g noTok (fun _ _ => if f.imm.getLsbD 23 then [.u f.srca.toNat f.fe] else [])
    (fun x m s =>
      let cw := armWord x f
      let die := bitsOf cw 8 2
      let i := bitsOf cw 0 8
      if cw ≥ 2 ^ 10 then .trap .automaton m 0 0 s
      else pluTurn x die (fun s =>
        if !autoMine s x die i [.armed] then .trap .automaton m 0 0 s
        else if (domOf s (autoOf s die i).img.domain).work.any (fun w => w.ofSlot i) then .hold .plu s
        else .done (modAuto s die i (fun a => { a with st := .loaded }))) s) s

end Sys2Proof.Machine
end

