-- ==== Sys2Proof/Machine/UnitMem.lean ====
section
/-!
DEFINITION. Reads and writes of translated memory by the units outside the cores: the Cistern (R178) and the decoders (R452).
-/
namespace Sys2Proof.Machine

/-- What a unit's access comes to: its bytes, a page that is awaited, or a fault that is not resolved. -/
inductive UnitOut where
  | ok (bs : List Byte) (s : State)
  | wait (page : Nat) (s : State)
  | fault (c : Cause) (s : State)

/-- The pieces of a range translated one after another; the first that fails decides. -/
def unitPieces (s : State) (die ctx kind path launch : Nat) (ps : List (Nat × Nat)) :
    List (Nat × Nat) × Option (Trans × Nat) × State :=
  match ps with
  | [] => ([], none, s)
  | (va, n) :: r => match unitTranslate s die ctx va kind path launch with
    | (.ok pa _, s) =>
      let (rs, e, s) := unitPieces s die ctx kind path launch r
      ((pa, n) :: rs, e, s)
    | (t, s) => ([], some (t, va / 4096), s)

/-- A range translated whole, then `k` with its physical ranges. -/
def withUnitRange (s : State) (die ctx kind path launch va n : Nat) (k : List (Nat × Nat) → State → UnitOut) : UnitOut :=
  match unitPieces s die ctx kind path launch (pagePieces va n) with
  | (rs, none, s) => k rs s
  | (_, some (.wait, page), s) => .wait page s
  | (_, some (.lost, _), s) => .fault .pageLost s
  | (_, some (_, _), s) => .fault .pageProtection s

/-- Bytes read by a unit (R197: a poisoned line raises POISON). -/
def unitGet (s : State) (die ctx path launch va n : Nat) : UnitOut :=
  withUnitRange s die ctx 0 path launch va n (fun rs s =>
    if (rangeLines rs).any (fun l => isPoisoned s l) then .fault .poison s
    else .ok (unitBytes s path none rs) (unitSaw s rs))

/-- Bytes written over a list of physical ranges on a path, for a context and launch (R69). -/
def writeRangesOn (s : State) (path : Nat) (own : Nat × Nat) (rs : List (Nat × Nat)) (bs : List Byte) : State :=
  match rs with
  | [] => s
  | (pa, n) :: r => writeRangesOn (pathWrite s path own [] pa (bs.take n)) path own r (bs.drop n)

/-- Bytes written by a unit (R197: a poisoned line is cleared when it is covered whole, and raises POISON otherwise). -/
def unitPut (s : State) (die ctx path launch va : Nat) (bs : List Byte) : UnitOut :=
  withUnitRange s die ctx 1 path launch va bs.length (fun rs s =>
    let whole := wholeLines rs
    if (rangeLines rs).any (fun l => isPoisoned s l && !whole.contains l) then .fault .poison s
    else .ok [] (writeRangesOn { s with poison := s.poison.filter (fun l => !whole.contains l) } path (ctx, launch) rs bs))

/-! ### What roles ask of the units of a die -/

/-- The asks of a die that `p` picks, in the order of R307, and the die without them. -/
def takeAsks (s : State) (die : Nat) (p : AskOp → Bool) : List Ask × State :=
  let as := sortBy (fun a b => decide (homeKey s die a.who ≤ homeKey s die b.who)) ((dieOf s die).asks.filter (fun a => p a.op))
  (as, modDie s die (fun d => { d with asks := d.asks.filter (fun a => !p a.op) }))

/-- A role told that its ask is answered (R369, R386): it goes on, or traps with a cause. -/
def answerRole (s : State) (w : Who) (id : Nat) (trap : Option Cause) : State :=
  match ((warpAt s w.core w.gslot w.wid).bind (fun y => y.split w.slot)).bind (fun q => q.wait) with
  | some (.answer i lanes) =>
    if i != id then s
    else match trap with
      | some c => takeTrap (modSplit s w (fun q => { q with wait := none })) w c lanes 0 0 1
      | none => wakeSplit s w 1
  | _ => s

end Sys2Proof.Machine
end

