-- ==== Sys2Proof/Machine/Combine.lean ====
section
/-!
DEFINITION. The Cistern: batches, arrivals, combining and release (R166-R180), and CALLOC, CGATE, CPOST and CQRY (R383-R387).
-/
namespace Sys2Proof.Machine

/-! ### Slots and batches -/

/-- Combine slot `i` of a die. -/
def cslotOf (s : State) (die i : Nat) : CSlot := mapGet (dieOf s die).cslots i CSlot.reset

/-- Combine slot `i` of a die changed. -/
def modCslot (s : State) (die i : Nat) (f : CSlot → CSlot) : State :=
  modDie s die (fun d => { d with cslots := mapSet d.cslots i (f (mapGet d.cslots i CSlot.reset)) })

/-- The type that PFMT and OFMT name (R168). -/
def chunkTy (v : Nat) : Ty := if v = 0 then .f32 else if v = 1 then .f16 else .b16

/-- The bytes of an element of that type. -/
def chunkW (v : Nat) : Nat := if v = 0 then 4 else 2

/-- The bytes of a slot's staging area (R170). -/
def stageSize (b : Batch) : Nat := (256 + (b.kmax + 1) * b.len * chunkW b.pfmt + 127) / 128 * 128

/-- The batch in a descriptor (R168), for an issuer. -/
def batchOf (v ctx region launch : Nat) : Batch where
  first := 0
  gen := 0
  n := bitsOf v 91 13 + 1
  outbase := bitsOf v 448 64
  resbase := bitsOf v 384 64
  stgbase := bitsOf v 320 64
  outstride := bitsOf v 224 32
  resstride := bitsOf v 192 32
  deadline := bitsOf v 160 32
  token0 := bitsOf v 128 32
  rstream := bitsOf v 114 14
  len := 64 * (bitsOf v 104 8 + 1)
  kmax := bitsOf v 88 3
  pfmt := bitsOf v 86 2
  ofmt := bitsOf v 84 2
  subst := bitsOf v 82 2
  eager := v.testBit 81
  lateev := v.testBit 80
  sat := v.testBit 79
  rm := bitsOf v 77 2
  ctx := ctx
  region := region
  launch := launch

/-- Whether a range of bytes lies in the user half (R168). -/
def userRange (va n : Nat) : Bool := va + n ≤ 2 ^ 56

/-- Whether a descriptor is well formed (R168). -/
def batchOk (v : Nat) : Bool :=
  let b := batchOf v 0 0 0
  let toktab := bitsOf v 256 64
  let row := b.len * chunkW b.ofmt
  bitsOf v 0 77 == 0 && bitsOf v 112 2 == 0 && b.n ≤ 8192 && b.deadline != 0 && b.pfmt != 3 && b.ofmt != 3 && b.subst != 3 &&
  b.outbase % 128 == 0 && b.resbase % 128 == 0 && b.stgbase % 128 == 0 && toktab % 64 == 0 && b.outstride % 128 == 0 &&
  b.resstride % 128 == 0 && userRange b.outbase ((b.n - 1) * b.outstride + row) &&
  (b.resbase == 0 || userRange b.resbase ((b.n - 1) * b.resstride + row)) && userRange b.stgbase (b.n * stageSize b) &&
  userRange toktab (64 * b.n)

/-- The enabled entries of a token record: expert, gate, no chunk yet (R169). -/
def tokenRows (v : Nat) : List (Nat × W32 × Nat) :=
  (List.range 8).filterMap (fun p =>
    let e := bitsOf v (64 * p) 64
    if e.testBit 40 then some (bitsOf e 32 8, BitVec.ofNat 32 e, 0) else none)

/-- Whether numbers strictly ascend. -/
def ascending (l : List Nat) : Bool :=
  match l with
  | a :: b :: r => a < b && ascending (b :: r)
  | _ => true

/-- Whether a token record is well formed (R169). -/
def tokenOk (v kmax : Nat) : Bool :=
  let rows := tokenRows v
  let k := rows.length
  1 ≤ k && k ≤ kmax + 1 && ascending (rows.map (fun r => r.1)) &&
  (List.range 8).all (fun p =>
    let e := bitsOf v (64 * p) 64
    if p < k then bitsOf e 41 23 == 0 && e.testBit 40 else e == 0)

/-- The lowest run of `n` free slots (R166): it starts at slot 0 or behind a slot in use. -/
def freeRun (s : State) (die n : Nat) : Option Nat :=
  let used := ((dieOf s die).cslots.filter (fun (_, c) => c.st != .free)).map (fun (i, _) => i)
  (0 :: used.map (fun i => i + 1)).find? (fun f => f + n ≤ 8192 && used.all (fun i => !(f ≤ i && i < f + n)))

/-- The allocation of a batch (R166, R167, R179): the handle of its first slot, or none. -/
def callocTry (s : State) (die : Nat) (b : Batch) (rows : List (List (Nat × W32 × Nat))) : Option (Nat × State) :=
  match freeRun s die b.n with
  | none => none
  | some first =>
    if !admitted (ctxOf s b.ctx).regions b.region { cslot := b.n } then none
    else
      let gen := ((dieOf s die).callocCtr + 1) % 2 ^ 16
      let b := { b with first := first, gen := gen }
      let s := charge s b.ctx b.region { cslot := b.n }
      let due := (dieOf s die).cycle + b.deadline
      let s := modDie s die (fun d => { d with callocCtr := gen })
      let s := (List.range b.n).foldl (fun s t => modCslot s die (first + t) (fun c =>
        let r := rows.getD t []
        { CSlot.reset with
          st := .open_
          held := true
          gen := gen
          prevGen := c.gen
          prev := c.batch
          batch := some b
          expmask := 2 ^ r.length - 1
          deadline := due
          rows := r
          atStart := c.atStart })) s
      some (gen * 2 ^ 32 + die * 2 ^ 13 + first, s)

/-- CALLOC (R166-R169, R371, R383): the batch is read and checked, and goes to the Cistern, which serves it at the end of the
cycle. -/
def execCalloc (g : Guard) (f : FA) (s : State) : Out :=
  orWait (fun _ _ s => .hold .nothing s)
    (runWord .vector true 1 g noTok (fun _ _ => [.u f.srca.toNat f.fea, .u f.srcb.toNat f.feb])
      (fun x m s =>
        let die := (sreg x.grp f.srcb.toNat).toNat
        let va := (sreg x.grp f.srca.toNat).toNat
        if die ≥ 4 then .trap .combine m 0 0 s
        else if va % 64 != 0 then .trap .align m va 0 s
        else if !deviceReleased s x then .hold .nothing s
        else structRead s x m 0 va 64 (fun bs s =>
          let v := ofBytesLE bs
          if !batchOk v then .trap .combine m 0 0 s
          else
            let b := batchOf v x.grp.ctx x.grp.region x.grp.launch
            structRead s x m 0 (bitsOf v 256 64) (64 * b.n) (fun ts s =>
              let recs := (List.range b.n).map (fun t => bytesAt ts (64 * t) 64)
              if !recs.all (fun r => tokenOk r b.kmax) then .trap .combine m 0 0 s
              else
                let (id, s) := freshId s
                let s := onGroup s x (fun k => produceU k id f.dst.toNat 0)
                .issued .nothing (beginWait s x (.calloc id die f.rnd.toNat f.sat b (recs.map tokenRows))))))) s

/-- What a split waits in. -/
def waitOf (s : State) (w : Who) : Option Wait :=
  ((warpAt s w.core w.gslot w.wid).bind (fun y => y.split w.slot)).bind (fun q => q.wait)

/-- The answer to a CALLOC (R383): the handle and c true, or 0 and c false. -/
def callocAnswer (s : State) (w : Who) (id creg h : Nat) (ok : Bool) : State :=
  let s := modGroup s w.core w.gslot (fun k => arriveU k id h)
  wakeSplit (modWarp s w.core w.gslot w.wid (fun y => setCond y creg ok)) w 1

/-- A waiting CALLOC served by the Cistern of a die (R166, R383): a CALLOC.W that cannot be goes on waiting. -/
def serveCalloc (s : State) (die : Nat) (w : Who) : State :=
  match waitOf s w with
  | some (.calloc id d creg keep b rows) =>
    if d != die then s
    else match callocTry s die b rows with
      | some (h, s) => callocAnswer s w id creg h true
      | none => if keep then s else callocAnswer s w id creg 0 false
  | _ => s

/-- The CALLOCs that wait for the Cistern of a die, in the order of R307. -/
def callocsAt (s : State) (die : Nat) : List Who :=
  let all := (residents s).flatMap (fun (c, g, k) => k.warps.flatMap (fun (w, y) =>
    (List.range 4).filterMap (fun i => match (y.split i).bind (fun q => q.wait) with
      | some (.calloc _ d _ _ _ _) => if d == die then some { core := c, gslot := g, wid := w, slot := i } else none
      | _ => none)))
  sortBy (fun a b => decide (homeKey s die a ≤ homeKey s die b)) all

/-! ### Combining (R174, R175) -/

/-- The elements of `w` bytes of a row. -/
def rowElems (w : Nat) : Nat → List Byte → List Nat
  | 0, _ => []
  | n + 1, bs => ofBytesLE (bs.take w) :: rowElems w n (bs.drop w)

/-- The present positions, ascending. -/
def CSlot.present (c : CSlot) : List Nat := (List.range c.rows.length).filter (fun p => c.arrmask.testBit p)

/-- The gates of the present positions as R175 leaves them. -/
def CSlot.gates (c : CSlot) (b : Batch) : List Nat :=
  let gs := c.present.map (fun p => (c.rows.getD p (0, 0, 0)).2.1.toNat)
  if b.subst = 1 && c.arrmask != c.expmask then
    let sum := gs.foldl (fun v g => fAdd fmtF32 rne v g) 0
    match fDecode fmtF32 sum with
    | .fin _ m _ => if m = 0 then gs else gs.map (fun g => fDiv fmtF32 rne g sum)
    | _ => gs
  else gs

/-- The output row of R175 from the residual row, if there is one, and the present rows. -/
def combineRow (b : Batch) (gates : List Nat) (res : Option (List Byte)) (rows : List (List Byte)) : List Byte :=
  let wide := fun (f : Nat) (bs : List Byte) => (rowElems (chunkW f) b.len bs).map (fun v => convert (chunkTy f) .f32 rne v)
  let acc := match res with
    | some r => wide b.ofmt r
    | none => List.replicate b.len 0
  let acc := (gates.zip rows).foldl (fun acc (g, y) => List.zipWith (fun v a => fFma fmtF32 rne g v a) (wide b.pfmt y) acc) acc
  acc.flatMap (fun v => bytesLE (chunkW b.ofmt) (convert .f32 (chunkTy b.ofmt) ⟨b.rm, b.sat, false⟩ v))

/-- The pieces of a write, page by page: addresses and bytes (R178). -/
def writePieces (va : Nat) (bs : List Byte) : List (Nat × List Byte) :=
  (pagePieces va bs.length).map (fun (a, n) => (a, (bs.drop (a - va)).take n))

/-- The staging writes that a slot still has to make, made without it from now on (R178): each waits for its page. -/
def leaveStage (s : State) (die i : Nat) (b : Batch) : State :=
  let c := cslotOf s die i
  let one := fun ((va, bs) : Nat × List Byte) => ({
    ctx := b.ctx
    region := b.region
    launch := b.launch
    va := va
    bytes := bs
    page := va / 4096 } : Staged)
  modCslot (modDie s die (fun d => { d with staged := d.staged ++ c.stgQ.map one })) die i (fun q => { q with stgQ := [], waits := [] })

/-- A Cistern fault that is not resolved (R178, R197): the token will be released FAILED, and the domain is told. -/
def slotFault (s : State) (die i : Nat) (b : Batch) (c : Cause) : State :=
  regionFault (leaveStage (modCslot s die i (fun q => { q with failed := true, result := 2 })) die i b) b.ctx b.region c.code b.launch die

/-- The staging writes of a die whose page is ready made, each as far as it goes now (R178). -/
def retryStaged (s : State) (die : Nat) (ready : Nat → Nat → Bool) : State :=
  (dieOf s die).staged.foldl (fun s e =>
    if !ready (ctxOf s e.ctx).pasid e.page then s
    else
      let gone := fun (s : State) => modDie s die (fun d => { d with staged := d.staged.filter (fun q => q != e) })
      match unitPut s die e.ctx 3 e.launch e.va e.bytes with
      | .ok _ s => gone s
      | .wait p s => modDie s die (fun d => { d with staged := d.staged.map (fun q => if q == e then { q with page := p } else q) })
      | .fault c s => regionFault (gone s) e.ctx e.region c.code e.launch die) s

/-- The staging writes of a die that wait for one of the pages `bad` given up, with a cause (R178, R188). -/
def failStaged (s : State) (die : Nat) (bad : Nat → Nat → Bool) (cause : Cause) : State :=
  (dieOf s die).staged.foldl (fun s e =>
    if !bad (ctxOf s e.ctx).pasid e.page then s
    else regionFault (modDie s die (fun d => { d with staged := d.staged.filter (fun q => q != e) })) e.ctx e.region cause.code e.launch die) s

/-- A page that a slot awaits. -/
def slotWaits (s : State) (die i p : Nat) : State := modCslot s die i (fun c => { c with waits := distinct (c.waits ++ [p]) })

/-- Whether an access of a slot has still to wait for a page that is awaited already (R178). -/
def slotBlocked (s : State) (die i va n : Nat) : Bool :=
  (cslotOf s die i).waits.any (fun p => va / 4096 ≤ p && p ≤ (va + n - 1) / 4096)

/-- The staging writes of a slot made, each as far as its page allows (R170, R178). -/
def flushStage (s : State) (die i : Nat) (b : Batch) (q : List (Nat × List Byte)) : State :=
  match q with
  | [] => s
  | (va, bs) :: r =>
    if (cslotOf s die i).failed then s
    else if slotBlocked s die i va bs.length then flushStage s die i b r
    else
      let done := fun (s : State) => modCslot s die i (fun c => { c with stgQ := c.stgQ.filter (fun e => e != (va, bs)) })
      match unitPut s die b.ctx 3 b.launch va bs with
      | .ok _ s => flushStage (done s) die i b r
      | .wait p s => flushStage (slotWaits s die i p) die i b r
      | .fault c s => slotFault (done s) die i b c

/-- The pieces of a row read by the Cistern, each as far as its page allows; none where one waits or faults (R178). -/
def readPieces (s : State) (die i : Nat) (b : Batch) (q : List (Nat × Nat)) : Option (List Byte) × State :=
  match q with
  | [] => (some [], s)
  | (va, n) :: r =>
    if slotBlocked s die i va n then (none, (readPieces s die i b r).2)
    else match unitGet s die b.ctx 3 b.launch va n with
      | .ok bs s =>
        let (l, s) := readPieces s die i b r
        (l.map (fun l => bs ++ l), s)
      | .wait p s => (none, (readPieces (slotWaits s die i p) die i b r).2)
      | .fault c s => (none, slotFault s die i b c)

/-- Rows read by the Cistern, page by page; none where a piece waits or faults (R178). -/
def readRows (s : State) (die i : Nat) (b : Batch) (q : List (Nat × Nat)) : Option (List (List Byte)) × State :=
  match q with
  | [] => (some [], s)
  | (va, n) :: r =>
    let (row, s) := readPieces s die i b (pagePieces va n)
    let (l, s) := readRows s die i b r
    (row.bind (fun bs => l.map (fun l => bs :: l)), s)

/-- The residual row of a slot's token, where there is one: address and bytes (R175). -/
def residualRead (b : Batch) (i : Nat) : List (Nat × Nat) :=
  if b.resbase = 0 then [] else [(b.resbase + (i - b.first) * b.resstride, b.len * chunkW b.ofmt)]

/-- The staged rows of the present positions: addresses and bytes (R170, R175). -/
def stagedReads (c : CSlot) (b : Batch) (i : Nat) : List (Nat × Nat) :=
  let n := b.len * chunkW b.pfmt
  c.present.map (fun p => (b.stgbase + (i - b.first) * stageSize b + 256 + p * n, n))

/-- The combine of a COMBINED slot that has no output yet (R175, R178): what waits for a page is tried again once it is resolved, and
no staged row is read before the slot's staging writes are made. -/
def tryCombine (s : State) (die i : Nat) : State :=
  let c := cslotOf s die i
  match c.batch with
  | none => s
  | some b =>
    if c.result = 2 || !c.out.isEmpty then s
    else
      let s := flushStage s die i b c.stgQ
      let c := cslotOf s die i
      if c.failed then s
      else
        let res := residualRead b i
        let staged := c.stgQ.isEmpty
        match readRows s die i b (res ++ (if staged then stagedReads c b i else [])) with
        | (some rows, s) =>
          if !staged then s
          else
            let out := combineRow b (c.gates b) (rows.take res.length).head? (rows.drop res.length)
            modCslot s die i (fun c => { c with out := out, outQ := writePieces (b.outbase + (i - b.first) * b.outstride) out })
        | (none, s) => s

/-- A slot enters COMBINED (R174): its status is fixed with the positions present. -/
def enterCombined (s : State) (die i : Nat) : State :=
  let c := cslotOf s die i
  let subst := c.batch.elim 0 (fun b => b.subst)
  let result := if c.failed then 2 else if c.arrmask = c.expmask then 0 else if subst = 2 then 2 else 1
  let s := modCslot s die i (fun c => { c with st := .combined, result := result })
  match result, c.batch with
  | 2, some b => leaveStage s die i b
  | _, _ => tryCombine s die i

/-- Whether an OPEN slot is combined at the end of the current cycle (R174). -/
def combineDue (s : State) (die i : Nat) : Bool :=
  let c := cslotOf s die i
  c.st == .open_ && (c.arrmask == c.expmask || c.deadline ≤ (dieOf s die).cycle)

/-- A CGATE's new gate stored (R384), or the cause of its trap. -/
def gateSlot (s : State) (die h v : Nat) : Option Cause × State :=
  let i := bitsOf h 0 13
  let c := cslotOf s die i
  match (List.range c.rows.length).find? (fun p => (c.rows.getD p (0, 0, 0)).1 == bitsOf v 32 8) with
  | some p =>
    if bitsOf h 32 16 != c.gen || c.st != .open_ then (some .combine, s)
    else (none, modCslot s die i (fun c =>
      let (e, _, k) := c.rows.getD p (0, 0, 0)
      { c with rows := listSet c.rows p (e, BitVec.ofNat 32 v, k) }))
  | none => (some .combine, s)

/-- The CGATEs of a die's cycle (R179 step 3, R384). -/
def serveGates (s : State) (die : Nat) : State :=
  let (as, s) := takeAsks s die (fun o => match o with
    | .gate _ _ => true
    | _ => false)
  as.foldl (fun s a => match a.op with
    | .gate h v =>
      let (t, s) := gateSlot s die h v
      answerRole s a.who a.id t
    | _ => s) s

/-- The status word of a slot (R180). -/
def CSlot.status (c : CSlot) : Nat :=
  let st := match c.st with
    | .free => 0
    | .open_ => 1
    | .combined => 2
  c.gen * 2 ^ 48 + c.lates * 2 ^ 40 + c.dups * 2 ^ 32 + c.expmask * 2 ^ 24 + c.arrmask * 2 ^ 16 + c.result * 2 ^ 8 + st

/-! ### Release (R176, R177) -/

/-- Whether every lower slot of a batch has been released (R176). -/
def lowerReleased (s : State) (die i : Nat) (b : Batch) : Bool :=
  (List.range (i - b.first)).all (fun t =>
    let c := cslotOf s die (b.first + t)
    !(c.st != .free && c.gen == b.gen))

/-- Whether a slot could be released now (R176, R178): it is COMBINED and at its turn, and waits for no page, or is FAILED. -/
def releasable (s : State) (die i : Nat) : Bool :=
  let c := cslotOf s die i
  match c.batch with
  | none => false
  | some b =>
    let eager := b.eager && !detOf (ctxOf s b.ctx).regions b.region
    c.st == .combined && (eager || lowerReleased s die i b) && (c.result == 2 || (c.waits.isEmpty && !c.out.isEmpty))

/-- The slot that a Cistern releases next (R176): the lowest of those that may be, one in a cycle, and none once a post of the cycle has
been taken (R179). -/
def nextRelease (s : State) (die : Nat) : Option Nat :=
  let d := dieOf s die
  if d.slotOut || !d.arrived.isEmpty || d.combining then none
  else (d.cslots.map (fun e => e.1)).find? (releasable s die)

/-- A slot released and freed with its event (R176, R177); its charge returns. -/
def freeSlotEvent (s : State) (die i : Nat) (b : Batch) : State :=
  let c := cslotOf s die i
  let miss := c.expmask ^^^ (c.arrmask &&& c.expmask)
  let s := modCslot s die i (fun c => { c with st := .free, out := [], outQ := [], stgQ := [], waits := [] })
  let s := uncharge (modDie s die (fun d => { d with slotOut := true })) b.ctx b.region { cslot := 1 }
  deviceEvent s die 2 0 b.rstream 0xE4 (b.token0 + (i - b.first)) (c.result + miss * 2 ^ 8 + b.gen * 2 ^ 32) true

/-- The pieces of the output row of a slot written, each as far as its page allows (R176, R178). -/
def flushOut (s : State) (die i : Nat) (b : Batch) (q : List (Nat × List Byte)) : State :=
  match q with
  | [] => s
  | (va, bs) :: r =>
    if (cslotOf s die i).failed then s
    else match unitPut s die b.ctx 3 b.launch va bs with
      | .ok _ s => flushOut (modCslot s die i (fun c => { c with outQ := c.outQ.filter (fun e => e != (va, bs)) })) die i b r
      | .wait p s => flushOut (slotWaits s die i p) die i b r
      | .fault f s => slotFault s die i b f

/-- A COMBINED slot at its turn writes its row, performs it, emits its event and is freed (R176-R178). -/
def releaseSlot (s : State) (die i : Nat) : State :=
  let c := cslotOf s die i
  match c.batch with
  | none => s
  | some b =>
    if c.result = 2 then freeSlotEvent s die i b
    else
      let s := flushOut s die i b c.outQ
      let c := cslotOf s die i
      if c.failed || c.outQ.isEmpty then freeSlotEvent s die i b else s

/-- SLOT_RELEASE: the slot that the Cistern of a die releases next (R176-R179). -/
def execSlotRelease (die slot : Nat) (s : State) : Out :=
  .next (if nextRelease s die == some slot then releaseSlot s die slot else s)

/-- COMBINE_DEADLINE: an OPEN slot is combined in its deadline cycle, or when every position is present (R174, R175), after the CGATEs
of the cycle (R179); a post that comes later is one of the next cycle. -/
def execCombineDeadline (die slot : Nat) (s : State) : Out :=
  if !combineDue s die slot || (nextRelease s die).isSome then .next s
  else
    let s := serveGates s die
    .next (modDie (if combineDue s die slot then enterCombined s die slot else s) die (fun d => { d with combining := true }))

/-- The end of a cycle for the Cistern of a die, in the order of R179: the release that is due, the CGATEs, the combining, the CALLOCs;
then the next cycle begins. -/
def endCistern (s : State) (die : Nat) : State :=
  let s := match nextRelease s die with
    | some i => releaseSlot s die i
    | none => s
  let s := serveGates s die
  let s := ((dieOf s die).cslots.map (fun e => e.1)).foldl (fun s i => if combineDue s die i then enterCombined s die i else s) s
  let s := (callocsAt s die).foldl (fun s w => serveCalloc s die w) s
  modDie s die (fun d => { d with
    arrived := []
    slotOut := false
    combining := false
    cslots := d.cslots.map (fun (i, c) => (i, { c with atStart := c.status })) })

/-! ### Arrivals (R171-R173) -/

/-- What R171 makes of a post. -/
inductive Post where
  | trap
  | dup
  | accept (p : Nat)
  | late (b : Option Batch)
  deriving DecidableEq, Repr

/-- The classification of a post (R171, R386); a late one goes with the batch that its GEN names, if the slot has held it, and it is that
batch's L which bounds q (notes/assumptions/130.md). -/
def classify (s : State) (die : Nat) (k : Chunk) : Post :=
  let c := cslotOf s die k.slot
  match c.batch with
  | none => .trap
  | some b =>
    if c.gen = k.gen then
      if k.q ≥ b.len / 64 then .trap
      else if c.st == .open_ then
        match (List.range c.rows.length).find? (fun p => (c.rows.getD p (0, 0, 0)).1 == k.expert) with
        | none => .trap
        | some p =>
          if k.wide != (b.pfmt == 0) then .trap
          else if ((c.rows.getD p (0, 0, 0)).2.2).testBit k.q then .dup
          else .accept p
      else .late (some b)
    else if c.st != .free && c.prevGen = k.gen then
      if k.q ≥ (c.prev.getD b).len / 64 then .trap else .late c.prev
    else .trap

/-- A chunk accepted at position `p`: its bit, and its staging writes (R170, R171), the mask of its position with them; the mask of a
position without a chunk is not written (notes/assumptions/131.md). -/
def acceptChunk (s : State) (die : Nat) (k : Chunk) (b : Batch) (p : Nat) : State :=
  let w := chunkW b.pfmt
  let stg := b.stgbase + (k.slot - b.first) * stageSize b
  let s := modCslot s die k.slot (fun c =>
    let (e, g, m) := c.rows.getD p (0, 0, 0)
    let m := m ||| 2 ^ k.q
    { c with
      rows := listSet c.rows p (e, g, m)
      arrmask := if m = 2 ^ (b.len / 64) - 1 then c.arrmask ||| 2 ^ p else c.arrmask
      stgQ := if c.failed then [] else
        c.stgQ ++ writePieces (stg + 256 + p * b.len * w + k.q * 64 * w) k.data ++ [(stg + 32 * p, bytesLE 32 m)] })
  flushStage s die k.slot b (cslotOf s die k.slot).stgQ

/-- A post classified and stored (R171-R173), and its poster told (R386). -/
def takeChunk (s : State) (die : Nat) (k : Chunk) : State :=
  let tell := fun (s : State) (c : Option Cause) => answerRole s k.who k.id c
  match classify s die k with
  | .trap => tell s (some .combine)
  | .dup => tell (modCslot s die k.slot (fun c => { c with dups := Nat.min 255 (c.dups + 1) })) none
  | .accept p => match (cslotOf s die k.slot).batch with
    | some b => tell (acceptChunk s die k b p) none
    | none => tell s (some .combine)
  | .late b =>
    let s := modCslot s die k.slot (fun c => { c with lates := Nat.min 255 (c.lates + 1) })
    tell (match b with
      | some b =>
        if b.lateev then
          deviceEvent s die 2 0 b.rstream 0xE5 (b.token0 + (k.slot - b.first)) (b.gen * 2 ^ 32 + k.expert) false
        else s
      | none => s) none

/-- Whether the `n`-th post held for a Cistern is taken next (R173, R179): it was posted in an earlier cycle, no release of this one is
still to come, two posts at most are taken in a cycle and one for a slot, and of those for its slot it is the first by core, then
by bridge. -/
def chunkTurn (s : State) (die n : Nat) : Bool :=
  let d := dieOf s die
  match d.chunkQ[n]? with
  | none => false
  | some k =>
    let waits := fun (c : Chunk) => c.slot == k.slot && c.at_ != d.cycle
    waits k && !d.combining && (nextRelease s die).isNone && d.arrived.length < 2 && !d.arrived.contains k.slot &&
    d.chunkQ.all (fun c => !waits c || homeKey s die k.who ≤ homeKey s die c.who)

/-- CHUNK_ARRIVAL: the `n`-th post held for a Cistern is classified and stored (R171-R173). -/
def execChunkArrival (die n : Nat) (s : State) : Out :=
  match (dieOf s die).chunkQ[n]? with
  | none => .next s
  | some k =>
    if !chunkTurn s die n then .next s
    else .next (takeChunk (modDie s die (fun d => { d with chunkQ := listDrop d.chunkQ n, arrived := d.arrived ++ [k.slot] })) die k)

/-- CPOST (R385, R386): every lane's registers are read at issue; the warp is held until the post is classified. -/
def execCpost (g : Guard) (f : FM) (s : State) : Out :=
  let wide := f.wid == 3
  let n := if wide then 2 else 1
  let d := f.data.toNat
  orWait (fun _ _ s => .hold .nothing s)
    (runWord .vector true 1 g f.twait
      (fun x m => [.u f.base.toNat f.fe, .v d n id f.fe,
        .pre (if (List.range 32).any (fun l => (List.range n).any (fun i => vEmpty x.wp (d + i) l)) then m else 0) .nothing f.fe])
      (fun x m s =>
        let v := (sreg x.grp f.base.toNat).toNat
        if bitsOf v 56 8 != 0 || bitsOf v 15 9 != 0 then .trap .combine m 0 0 s
        else if !(pendingAcqs s x).isEmpty then .hold .nothing s
        else
          let (id, s) := freshId s
          let k : Chunk := {
            who := x.w
            id := id
            q := bitsOf v 48 8
            gen := bitsOf v 32 16
            expert := bitsOf v 24 8
            slot := bitsOf v 0 13
            wide := wide
            data := (List.range 32).flatMap (fun l => bytesLE (4 * n) (vregN x.wp d n l))
            fromDie := x.die
            at_ := (dieOf s (bitsOf v 13 2)).cycle }
          let s := modDie s (bitsOf v 13 2) (fun e => { e with chunkQ := e.chunkQ ++ [k] })
          .issued .nothing (beginWait s x (.answer id m)))) s

/-- CGATE (R384): the Cistern answers in step 3 of its cycle (R179); once it has begun to combine in a cycle, the CGATE issues in the
next. -/
def execCgate (g : Guard) (f : FA) (s : State) : Out :=
  orWait (fun _ _ s => .hold .nothing s)
    (runWord .vector true 1 g noTok (fun _ _ => [.u f.srca.toNat f.fea, .u f.srcb.toNat f.feb])
      (fun x m s =>
        let h := (sreg x.grp f.srca.toNat).toNat
        let v := (sreg x.grp f.srcb.toNat).toNat
        if bitsOf v 40 24 != 0 then .trap .combine m 0 0 s
        else if (dieOf s (bitsOf h 13 2)).combining then .hold .nothing s
        else
          let (id, s) := freshId s
          askUnit s x m (bitsOf h 13 2) id (.gate h v))) s

/-- CQRY (R180, R387): the word as it was at the start of the cycle (R179). -/
def execCqry (g : Guard) (f : FA) (s : State) : Out :=
  runWord .vector false 1 g noTok (fun _ _ => [.u f.srca.toNat f.fea, .ud f.dst.toNat])
    (fun x _ s =>
      let h := (sreg x.grp f.srca.toNat).toNat
      .done (onGroup s x (fun k => setSreg k f.dst.toNat
        (BitVec.ofNat 64 (cslotOf s (bitsOf h 13 2) (bitsOf h 0 13)).atStart)))) s

end Sys2Proof.Machine
end

