-- ==== Sys2Proof/Machine/Launch.lean ====
section
/-!
DEFINITION. From launch to free slot: admission (R81, R82, R130), placement (R135, R146, R147), stealing (R107, R108), the DET
dispatcher (R149), the compactor (R148), the freed slot (R151), completion (R132), and the progress rules (R144, R145).
-/
namespace Sys2Proof.Machine

/-! ### Partitions and their cores -/

/-- The cores of partition `p` (R454): none while it is disabled. -/
def coresOf (s : State) (p : Nat) : List Nat :=
  let q := partOf s p
  if q.en then (List.range (q.limit + 1 - q.base)).map (fun i => q.base + i) else []

/-- The enabled partition that a core belongs to. -/
def partOfCore (s : State) (core : Nat) : Option Nat := (List.range 16).find? (fun p => (coresOf s p).contains core)

/-! ### Buddy allocation (R147) -/

/-- Whether `n` granules from `a` up are free. -/
def granFree (live : List (Nat × Nat)) (a n : Nat) : Bool := live.all (fun l => !overlaps a n l.1 l.2)

/-- Whether the block of order `k` at `a` is a free block of the allocator: free, and not half of a larger free one. -/
def isFreeBlock (total : Nat) (live : List (Nat × Nat)) (k a : Nat) : Bool :=
  granFree live a (2 ^ k) && (2 ^ k ≥ total || !granFree live (a / 2 ^ (k + 1) * 2 ^ (k + 1)) (2 ^ (k + 1)))

/-- The lowest free block of exactly an order. -/
def freeBlock (total : Nat) (live : List (Nat × Nat)) (k : Nat) : Option Nat :=
  ((List.range (total / 2 ^ k)).map (fun i => i * 2 ^ k)).find? (isFreeBlock total live k)

/-- The least of some numbers. -/
def leastOf (l : List Nat) : Option Nat :=
  l.foldl (fun (b : Option Nat) x => match b with
    | some y => some (Nat.min x y)
    | none => some x) none

/-- Where a request of order `k` goes (R147): the lowest free block of its order, else the lowest larger one is split. -/
def buddyAlloc (total : Nat) (live : List (Nat × Nat)) (k : Nat) : Option Nat :=
  match freeBlock total live k with
  | some a => some a
  | none => leastOf ((List.range 11).filterMap (fun i => if i > k && 2 ^ i ≤ total then freeBlock total live i else none))

/-- The order of a size that is a power of two. -/
def orderOf (n : Nat) : Nat := Nat.log2 n

/-! ### SRAM slices -/

/-- The entries of a page table that hold a byte that is not 0. -/
def tableEntries (m : List Host.Cell) (table : Nat) : List Nat :=
  distinct ((m.filter (fun c => table ≤ c.1 && c.1 < table + 4096)).map (fun c => (c.1 - table) / 8))

/-- The physical ranges that a page table of a level maps (R181, R182). -/
def mappedRanges (m : List Host.Cell) (level table : Nat) : List (Nat × Nat) :=
  let es := (tableEntries m table).map (fun i => memNat m (table + 8 * i) 8)
  let leaves := (es.filter (fun e => leafOk e level)).map (fun e => (pteBase e, leafSize level))
  match level with
  | 0 => leaves
  | n + 1 => leaves ++ (es.filter (fun e => e % 4 == 1 && pteRsvOk e && !e.testBit 5)).flatMap (fun e => mappedRanges m n (pteBase e))

/-- The granules of a core's slice that some context's page table maps (R62: pinned until unmapped). -/
def pinnedSram (s : State) (core : Nat) : List (Nat × Nat) :=
  let base := sliceBase core
  let all := s.ctxs.flatMap (fun (_, c) => if c.st == .free then [] else mappedRanges s.mem 4 (c.ptroot * 4096))
  (all.filter (fun (a, n) => overlaps a n base 0x400000)).map (fun (a, n) =>
    let lo := Nat.max a base
    ((lo - base) / 4096, (Nat.min (a + n) (base + 0x400000) - lo) / 4096))

/-- The window of a group as granules of its core's slice. -/
def windowBlock (core : Nat) (g : Group) : Option (Nat × Nat) :=
  if sramKib g.tmpl = 0 then none else some ((g.sbase - sliceBase core) / 4096, sramKib g.tmpl / 4)

/-- The granules of a core's slice that resident windows and page tables hold. -/
def heldSram (s : State) (core : Nat) : List (Nat × Nat) :=
  (coreOf s core).groups.filterMap (fun (_, g) => windowBlock core g) ++ pinnedSram s core

/-- The granules of a core's slice that are in use, those held lazily among them (R87). -/
def liveSram (s : State) (core : Nat) : List (Nat × Nat) :=
  heldSram s core ++ (coreOf s core).lazySram.map (fun (_, _, _, a, n) => (a, n))

/-! ### Placement (R146) -/

/-- What a warp holds of a partition: its register block (first granule, granules; none for a copy warp), and whether it holds a
warp slot. -/
structure Seat where
  part : Nat
  base : Nat
  size : Nat
  slot : Bool
  deriving DecidableEq, Repr

/-- What the warps of a core hold (R146): an exited warp gives its slot back at once, its block when nothing is outstanding into it
(R151, R266). -/
def liveWarps (k : Core) : List Seat :=
  k.groups.flatMap (fun (_, g) => (g.warps.filter (fun (w, y) => w != 64 && !y.freed)).map (fun (w, y) =>
    { part := y.part, base := y.rbase, size := if w < 32 then regGranules g.tmpl else 0, slot := y.run != .exited }))

/-- The register blocks in use in a partition. -/
def partBlocks (occ : List Seat) (p : Nat) : List (Nat × Nat) :=
  (occ.filter (fun o => o.part == p && o.size != 0)).map (fun o => (o.base, o.size))

/-- The warps resident in a partition. -/
def partCount (occ : List Seat) (p : Nat) : Nat := (occ.filter (fun o => o.part == p && o.slot)).length

/-- The partition and the block for one more warp (R146): `n` granules, 0 for a copy warp. -/
def placeWarp (occ : List Seat) (n : Nat) : Option (Nat × Nat) :=
  let room := fun (p : Nat) => if n = 0 then some 0 else buddyAlloc 32 (partBlocks occ p) (orderOf n)
  let ok := (List.range 32).filterMap (fun p => if partCount occ p < 16 then (room p).map (fun a => (p, a)) else none)
  ok.foldl (fun (b : Option (Nat × Nat)) c => match b with
    | some d => if partCount occ c.1 < partCount occ d.1 then some c else some d
    | none => some c) none

/-- The warps of a template that take a warp slot, in ascending %warp. -/
def slotWarps (t : Template) : List Nat := List.range (t.vwarps + 1) ++ (List.range t.cwarps).map (fun i => 32 + i)

/-- Where a group goes on a core: its slot, the base of its window, and the place of each warp. -/
structure Place where
  gslot : Nat
  sbase : Nat
  parts : List (Nat × Nat × Nat)
  deriving DecidableEq, Repr

/-- The warps `ws` of a template seated one after another (R146): all the seats with the places of the warps, and the first warp that
finds none. -/
def seatAll (t : Template) (occ : List Seat) (ws : List Nat) (out : List (Nat × Nat × Nat)) :
    List Seat × List (Nat × Nat × Nat) × Option Nat :=
  match ws with
  | [] => (occ, out, none)
  | w :: r =>
    let n := if w < 32 then regGranules t else 0
    match placeWarp occ n with
    | some (p, a) => seatAll t (occ ++ [{ part := p, base := a, size := n, slot := true }]) r (out ++ [(w, p, a)])
    | none => (occ, out, some w)

/-- The places of the warps `ws` of a template on a core, or none. -/
def placeWarps (k : Core) (t : Template) (ws : List Nat) : Option (List (Nat × Nat × Nat)) :=
  match seatAll t (liveWarps k) ws [] with
  | (_, out, none) => some out
  | _ => none

/-- Whether and how a group of a template fits a core (R146), with the granules `live` of its slice in use and the group slots `barred`
not to be had. -/
def fitsIn (s : State) (core : Nat) (t : Template) (barred : List Nat) (live : List (Nat × Nat)) : Option Place :=
  let k := coreOf s core
  if k.dead then none
  else match (List.range 32).find? (fun i => (mapFind k.groups i).isNone && !barred.contains i) with
    | none => none
    | some gslot =>
      if t.mthread && (k.groups.filter (fun (_, g) => g.tmpl.mthread)).length ≥ 8 then none
      else
        let sram := if sramKib t = 0 then some 0
          else (buddyAlloc 1024 live (orderOf (sramKib t / 4))).map (fun a => sliceBase core + a * 4096)
        match sram, placeWarps k t (slotWarps t) with
        | some b, some ps => some { gslot := gslot, sbase := b, parts := ps }
        | _, _ => none

/-- Whether and how a group of a template fits a core as it is (R146). -/
def fits (s : State) (core : Nat) (t : Template) : Option Place := fitsIn s core t [] (liveSram s core)

/-- The contexts that hold one of some granules of a core's slice lazily. -/
def lazyOwners (k : Core) (a n : Nat) : List Nat :=
  distinct ((k.lazySram.filter (fun (_, _, _, b, m) => overlaps a n b m)).map (fun e => e.1))

/-- A group that would fit if lazily held windows were gone claims them (R87): they are to be written out. -/
def claimRoom (s : State) (core : Nat) (t : Template) : State :=
  if (fits s core t).isSome then s
  else match fitsIn s core t [] (heldSram s core) with
    | none => s
    | some p =>
      let owners := lazyOwners (coreOf s core) ((p.sbase - sliceBase core) / 4096) (sramKib t / 4)
      modCore s core (fun k => { k with claimed := distinct (k.claimed ++ owners) })

/-- A role at placement (R138, R64, R268): vector warps with every lane active. -/
def newWarp (entry : W64) (wid part rbase : Nat) : Warp where
  part := part
  wslot := 0
  rbase := rbase
  vregs := []
  prods := []
  preds := List.replicate 8 0
  conds := List.replicate 4 false
  toks := List.replicate 8 0
  splits := [some { pc := entry, mask := if wid < 32 then BitVec.allOnes 32 else 1, fmt := 0, ctr := 0, entry := entry }, none, none, none]
  wlist := []
  spilled := []
  lastSlot := 3
  run := .run
  halted := false
  pend := none
  parked := none
  spec := none
  wrote := []
  dcount := List.replicate 32 0
  seen := []
  blockedAt := 0
  expiryHeld := false
  sysOut := none
  aside := none
  saved := false
  freed := false

/-- A group at placement (R135): its arguments with its group index, every register full. -/
def newGroup (ctx : Nat) (l : Launch) (gidx : Nat) (p : Place) : Group where
  ctx := ctx
  launch := l.idx
  gidx := gidx
  region := l.tmpl.region
  tmpl := l.tmpl
  retiring := false
  warps := (p.parts ++ (if l.tmpl.mthread then [(64, 0, 0)] else [])).foldl
    (fun m (w, part, rbase) => mapSet m w (newWarp l.tmpl.entry w part rbase)) []
  sregs := mapSet l.args (if l.tmpl.argl then 129 else 33) (BitVec.ofNat 64 gidx)
  sempty := []
  uprods := []
  bars := []
  rings := (List.range l.tmpl.nrings).map (fun i =>
    List.replicate (l.tmpl.rings.getD i 0 + 1) { fph := 0, eph := 0 })
  sbase := p.sbase

/-- The warp slots of a partition, or for `p` = 32 the threads of the MSQ, that are taken (R17, R142). -/
def takenSlots (k : Core) (p : Nat) : List Nat :=
  k.groups.flatMap (fun (_, g) => (g.warps.filter (fun (w, y) => y.run != .exited && issueUnit w y.part == p)).map (fun (_, y) => y.wslot))

/-- The roles of a new group given warp slots and a thread of the MSQ, in ascending %warp: the lowest that is free
(notes/assumptions/99.md). -/
def seatGroup (k : Core) (gslot : Nat) (g : Group) : Core :=
  let seat := fun (k : Core) (w : Nat) (y : Warp) =>
    let taken := takenSlots k (issueUnit w y.part)
    let n := ((List.range 16).find? (fun i => !taken.contains i)).getD 0
    let groups := match mapFind k.groups gslot with
      | some x => mapSet k.groups gslot { x with warps := mapSet x.warps w { y with wslot := n } }
      | none => k.groups
    { k with groups := groups }
  (g.warps.filter (fun (_, y) => y.run != .exited)).foldl (fun k (w, y) => seat k w y)
    { k with groups := mapSet k.groups gslot { g with warps := g.warps.map (fun (w, y) => (w, { y with wslot := 16 })) } }

/-- The child reserve taken at the placement of group 0 (R131): none when CRREGION's chain refuses it. -/
def takeReserve (s : State) (ctx : Nat) (l : Launch) (gidx : Nat) : Option State :=
  let t := l.tmpl
  if gidx != 0 || !t.hasReserve then some s
  else
    let u : Use := { grp := t.crgroups, reg := t.crregkib, sram := t.crsramkib }
    if admitted (ctxOf s ctx).regions t.crregion u then
      some (modLaunch (charge s ctx t.crregion u) ctx l.idx (fun l =>
        { l with reserve := some (t.crregion, t.crgroups, t.crregkib, t.crsramkib) }))
    else none

/-- The acquire of a group before its first instruction (R374, R408): its core's L1 is invalidated, and its loads are served at home. -/
def groupAcquires (s : State) (core gslot : Nat) : State :=
  modGroup (l1Clear s core) core gslot (fun g => { g with warps := g.warps.map (fun (w, y) => (w, homeLoads y)) })

/-- A group placed on a core, not in the slots `barred` (R135, R146, R374); none when it does not fit or its reserve is refused. -/
def placeAt (s : State) (core ctx idx gidx : Nat) (barred : List Nat) : Option State :=
  match launchOf s ctx idx with
  | none => none
  | some l => match fitsIn s core l.tmpl barred (liveSram s core), takeReserve s ctx l gidx with
    | some p, some s =>
      let s := modCore s core (fun k => seatGroup k p.gslot (newGroup ctx l gidx p))
      some (if l.acq then groupAcquires (settleUnits s ctx) core p.gslot else s)
    | _, _ => none

/-- A group placed on a core. -/
def placeGroup (s : State) (core ctx idx gidx : Nat) : Option State := placeAt s core ctx idx gidx []

/-! ### Admission (R81, R82, R130) -/

/-- The launches that the PLU of a die may offer or retry: in each region of each RESIDENT context the first to have been accepted, on
any die, that has groups to be admitted (R130). Of launches from different dies the later one is the one accepted later, whatever its
index (notes/assumptions/135.md). -/
def offerable (s : State) (die : Nat) : List (Nat × Launch) :=
  s.ctxs.flatMap (fun (x, c) =>
    if c.st != .resident then []
    else
      let open_ := c.launches.filter (fun l => l.admitted < l.count)
      let first := fun (l : Launch) => ((open_.find? (fun m => m.tmpl.region == l.tmpl.region)).map (fun m => m.idx)) == some l.idx
      (open_.filter (fun l => l.die == die && first l)).map (fun l => (x, l)))

/-- Launches in ascending index. -/
def byIndex (ls : List (Nat × Launch)) : List (Nat × Launch) := sortBy (fun a b => decide (a.2.idx ≤ b.2.idx)) ls

/-- The power states left when a group becomes QUEUED or is admitted (R460). -/
def wakePower (s : State) (p : Nat) : State :=
  let s := if s.power == .dieRetain then
      { s with power := .d0, parts := s.parts.map (fun (n, q) => (n, if q.pwr = 2 then { q with pwr := 0 } else q)) }
    else s
  if (partOf s p).pwr = 1 then modPart s p (fun q => { q with pwr := 0 }) else s

/-- The next group of a launch admitted and queued (R81, R130, R150): on a core's run queue, or with its region's dispatcher;
the launch returns its PEND unit with its last group. None when the chain refuses it. -/
def admitNext (s : State) (ctx core : Nat) (l : Launch) : Option State :=
  match admitGroup s ctx l.idx l.admitted l.tmpl with
  | none => none
  | some s =>
    let det := detOf (ctxOf s ctx).regions l.tmpl.region
    let last := l.admitted + 1 == l.count
    let s := if det then modCtx s ctx (fun c => { c with detq := c.detq ++ [(l.idx, l.admitted)] })
      else modCore s core (fun k => { k with runq := k.runq ++ [(ctx, l.idx, l.admitted)] })
    let s := modLaunch s ctx l.idx (fun m => { m with admitted := m.admitted + 1, waiting := false, pend := m.pend && !last })
    let s := if last && l.pend then uncharge s ctx l.tmpl.region { pend := 1 } else s
    some (wakePower s (ctxOf s ctx).part)

/-- Whether a core may take groups of a context. -/
def coreServes (s : State) (core ctx : Nat) : Bool :=
  (coresOf s (ctxOf s ctx).part).contains core && !(coreOf s core).dead

/-- Whether launches are offered in the device's power state (R460). -/
def offersOn (s : State) : Bool := s.power == .d0 || s.power == .dieRetain

/-- GROUP_OFFER: the PLU of a die offers the next group of its first launch that is not waiting, to a core of the partition
(R130, R82); a refused launch waits. -/
def execGroupOffer (die core : Nat) (s : State) : Out :=
  match byIndex ((offerable s die).filter (fun e => !e.2.waiting)) with
  | [] => .next s
  | (x, l) :: _ =>
    if !offersOn s || !coreServes s core x then .next s
    else match admitNext s x core l with
      | some s => .next s
      | none => .next (modLaunch s x l.idx (fun m => { m with waiting := true, at_ := (dieOf s die).cycle }))

/-- PENDING_LAUNCH_RETRY: the waiting launches of a die tried again in index order (R130); the first that is admitted has its
group queued. -/
def execPendingLaunchRetry (die core : Nat) (s : State) : Out :=
  if !offersOn s then .next s
  else .next (((byIndex ((offerable s die).filter (fun e => e.2.waiting))).findSome? (fun (x, l) =>
    if coreServes s core x then admitNext s x core l else none)).getD s)

/-! ### Run queues (R106-R108) -/

/-- The order of a run queue (R106). -/
def queueLe (s : State) (a b : Nat × Nat × Nat) : Bool :=
  let prio := fun (q : Nat × Nat × Nat) => match launchOf s q.1 q.2.1 with
    | some l => prioOf (ctxOf s q.1).regions l.tmpl.region
    | none => 0
  let p := prio a
  let q := prio b
  p > q || (p == q && (a.2.1 < b.2.1 || (a.2.1 == b.2.1 && (a.2.2 < b.2.2 || (a.2.2 == b.2.2 && a.1 ≤ b.1)))))

/-- A core's queued groups of RESIDENT contexts in the order in which they are served. -/
def queueOf (s : State) (core : Nat) : List (Nat × Nat × Nat) :=
  sortBy (queueLe s) ((coreOf s core).runq.filter (fun q => (ctxOf s q.1).st == .resident))

/-- An entry taken off a core's run queue. -/
def unqueue (s : State) (core : Nat) (q : Nat × Nat × Nat) : State :=
  modCore s core (fun k => { k with runq := k.runq.filter (fun e => e != q) })

/-- The steals that a core has still to answer when local dispatch takes its tail group (R108): they are answered from the new tail, in
the next cycle at the earliest. -/
def putOffSteals (s : State) (v : Nat) : State :=
  { s with cores := s.cores.map (fun (c, k) => (c, if k.stealOut == some v
      then { k with answerAt := (dieOf s (dieOfCore c)).cycle + 1 } else k)) }

/-- GROUP_PLACE: the head of a core's run queue is placed when it fits (R106, R146, R150); where only lazily held windows stand in its
way it claims them (R87). -/
def execGroupPlace (core : Nat) (s : State) : Out :=
  match queueOf s core with
  | [] => .next s
  | q :: r => match placeGroup s core q.1 q.2.1 q.2.2 with
    | some t => .next (unqueue (if r.isEmpty then putOffSteals t core else t) core q)
    | none => .next ((launchOf s q.1 q.2.1).elim s (fun l => claimRoom s core l.tmpl))

/-- One draw of the steal generator (R107). -/
def stealDraw (w : BitVec 16) : BitVec 16 :=
  let w := w ^^^ (w <<< 7)
  let w := w ^^^ (w >>> 9)
  w ^^^ (w <<< 8)

/-- Draws until the victim is not the thief (R107): the generator and the victim. -/
def stealVictim (fuel : Nat) (w : BitVec 16) (thief base c : Nat) : BitVec 16 × Nat :=
  let w := stealDraw w
  let v := base + w.toNat % c
  match fuel with
  | 0 => (w, v)
  | n + 1 => if v = thief then stealVictim n w thief base c else (w, v)

/-- STEAL_REQUEST: a core with a free group slot and an empty queue asks a victim (R107); none while the core clocks stand (R460). -/
def execStealRequest (core : Nat) (s : State) : Out :=
  let k := coreOf s core
  match partOfCore s core with
  | none => .next s
  | some p =>
    let c := (coresOf s p).length
    if s.power != .d0 || c ≤ 1 || k.dead || !k.runq.isEmpty || k.stealOut.isSome || k.groups.length ≥ 32 ||
        (dieOf s (dieOfCore core)).cycle < k.stealAt then .next s
    else
      let (w, v) := stealVictim 65536 k.stealW core (partOf s p).base c
      .next (modCore s core (fun k => { k with stealW := w, stealOut := some v }))

/-- STEAL_ANSWER: the victim answers the request of core `core` with its tail group if that fits the thief, in a slot that has not been
freed in this cycle (R151), else with EMPTY (R107, R108). A tail that is also the head and fits its own core goes there: local dispatch
comes first, and the answer is given from what is left, in the next cycle (R108). -/
def execStealAnswer (core : Nat) (s : State) : Out :=
  match (coreOf s core).stealOut with
  | none => .next s
  | some v =>
    let now := (dieOf s (dieOfCore core)).cycle
    let none_ := modCore s core (fun k => { k with stealOut := none, stealAt := now + 64 })
    if s.power != .d0 || now < (coreOf s core).answerAt then .next s
    else match (queueOf s v).getLast? with
    | none => .next none_
    | some q =>
      let local_ := if (queueOf s v).length = 1 then placeGroup s v q.1 q.2.1 q.2.2 else none
      match local_ with
      | some t => .next (unqueue (putOffSteals t v) v q)
      | none => match placeAt s core q.1 q.2.1 q.2.2 (coreOf s core).freedNow with
      | some s => .next (unqueue (modCore s core (fun k => { k with stealOut := none })) v q)
      | none => .next none_

/-! ### The DET dispatcher (R149) -/

/-- The next group of a region's dispatcher. -/
def detNextOf (s : State) (ctx region : Nat) : Option (Nat × Nat) :=
  let c := ctxOf s ctx
  let mine := c.detq.filter (fun q => match launchOf s ctx q.1 with
    | some l => l.tmpl.region == region
    | none => false)
  (sortBy (fun a b => decide (a.1 < b.1) || (a.1 == b.1 && decide (a.2 ≤ b.2))) mine).head?

/-- DET_DISPATCH: the dispatcher places its next group on the lowest core that it fits (R149), or claims what lazily held windows keep
from it on the lowest (R87). -/
def execDetDispatch (ctx region : Nat) (s : State) : Out :=
  match detNextOf s ctx region with
  | none => .next s
  | some q =>
    if (ctxOf s ctx).st != .resident then .next s
    else match (coresOf s (ctxOf s ctx).part).findSome? (fun c => placeGroup s c ctx q.1 q.2) with
      | some s => .next (modCtx s ctx (fun c => { c with detq := c.detq.filter (fun e => e != q), detAt := mapDel c.detAt region }))
      | none =>
        let now := (dieOf s (q.1 % 4)).cycle
        let s := match (launchOf s ctx q.1).bind (fun l => ((coresOf s (ctxOf s ctx).part).find? (fun c =>
            (fitsIn s c l.tmpl [] (heldSram s c)).isSome)).map (fun c => claimRoom s c l.tmpl)) with
          | some t => t
          | none => s
        .next (modCtx s ctx (fun c =>
          { c with detAt := if (mapFind c.detAt region).isSome then c.detAt else mapSet c.detAt region now }))

/-! ### The compactor (R148) -/

/-- The lowest free block of order `k` that lies below `a` (R148). -/
def lowerBlock (total : Nat) (live : List (Nat × Nat)) (k a : Nat) : Option Nat :=
  match freeBlock total live k with
  | some b => if b < a then some b else none
  | none => none

/-- The moves that free a block of order `k` (R148): live blocks (key, first granule, granules) in descending address, each
into the lowest free block of its order below it; none when no such sequence frees one. -/
def compact (total k : Nat) (fixed : List (Nat × Nat)) (todo done : List (Nat × Nat × Nat)) : Option (List (Nat × Nat)) :=
  match todo with
  | [] => none
  | (key, a, n) :: rest =>
    let others := fixed ++ (rest ++ done).map (fun b => b.2)
    let live := (a, n) :: others
    match lowerBlock total live (orderOf n) a with
    | some b =>
      if (buddyAlloc total ((b, n) :: others) k).isSome then some [(key, b)]
      else (compact total k fixed rest (done ++ [(key, b, n)])).map (fun l => (key, b) :: l)
    | none => compact total k fixed rest (done ++ [(key, a, n)])

/-- Blocks in descending address. -/
def descending (bs : List (Nat × Nat × Nat)) : List (Nat × Nat × Nat) := sortBy (fun a b => decide (b.2.1 ≤ a.2.1)) bs

/-- The free granules of an area. -/
def freeCount (total : Nat) (live : List (Nat × Nat)) : Nat := ((List.range total).filter (fun a => granFree live a 1)).length

/-- Whether the compactor may move what a group holds: its context is RESIDENT, or its save has begun while a move of it was in progress
(R148, R86). -/
def movable (s : State) (core gslot : Nat) (g : Group) : Bool :=
  (ctxOf s g.ctx).st == .resident || ((ctxOf s g.ctx).st == .saving && (coreOf s core).pause.any (fun e => e.1 == gslot))

/-- The register blocks of a partition of a core that may move: key 64 × group slot + %warp, first granule, granules. -/
def partLive (s : State) (core p : Nat) : List (Nat × Nat × Nat) :=
  (coreOf s core).groups.flatMap (fun (i, g) =>
    (g.warps.filter (fun (w, y) => w < 32 && !y.freed && y.part == p && movable s core i g)).map (fun (w, y) => (64 * i + w, y.rbase, regGranules g.tmpl)))

/-- The moves of register blocks that let the first warp of a template in that finds no block (R148): in the partition with the most
free granules, once the group's lower warps have their blocks. -/
def regMoves (s : State) (core : Nat) (t : Template) : Option (List (Nat × Nat)) :=
  match seatAll t (liveWarps (coreOf s core)) (slotWarps t) [] with
  | (_, _, none) => none
  | (occ, _, some w) =>
    let n := regGranules t
    let free := fun (p : Nat) => freeCount 32 (partBlocks occ p)
    let best := (List.range 32).foldl (fun b p => if free p > free b then p else b) 0
    if 32 ≤ w || free best < n || (List.range 32).any (fun p => (buddyAlloc 32 (partBlocks occ p) (orderOf n)).isSome) then none
    else
      let mine := partLive s core best
      let fixed := (partBlocks occ best).filter (fun b => mine.all (fun m => m.2 != b))
      compact 32 (orderOf n) fixed (descending mine) []

/-- Whether a register block can be moved: no producer is outstanding into it (R148). -/
def regQuiet (k : Core) (key : Nat) : Bool :=
  match mapFind k.groups (key / 64) with
  | some g => match mapFind g.warps (key % 64) with
    | some y => y.prods.isEmpty
    | none => false
  | none => false

/-- The moves of windows that let a group's block in, with the granules `live` in use (R148, R62). -/
def sramMoves (s : State) (core : Nat) (t : Template) (live : List (Nat × Nat)) : Option (List (Nat × Nat)) :=
  let k := coreOf s core
  let wins := (k.groups.filter (fun (i, g) => movable s core i g)).filterMap (fun (i, g) => (windowBlock core g).map (fun b => (i, b.1, b.2)))
  let fixed := live.filter (fun b => wins.all (fun m => m.2 != b))
  let o := orderOf (sramKib t / 4)
  if sramKib t = 0 || (buddyAlloc 1024 live o).isSome || freeCount 1024 live < sramKib t / 4 then none
  else compact 1024 o fixed (descending wins) []

/-- Whether a window can be moved: no copy holds a range of it, no drain is in flight, no request is on its way to it
(R62). -/
def windowQuiet (s : State) (core gslot : Nat) : Bool :=
  let k := coreOf s core
  k.copies.all (fun c => c.gslot != gslot || c.entries.isEmpty) && k.drains.all (fun d => d.gslot != gslot) &&
  (match mapFind k.groups gslot with
   | some g => s.inflight.all (fun r => r.ranges.all (fun (a, n) => !overlaps a n g.sbase g.tmpl.sramsz))
   | none => false)

/-- An address that lies in `n` units from `a` up, carried to `b`. -/
def carry (a b n x : Nat) : Nat := if a ≤ x && x < a + n then b + (x - a) else x

/-- What a map holds for `n` units from `a` up, carried to `b` in place of what it held there. -/
def carryMap {α : Type} (m : SMap α) (a b n : Nat) : SMap α :=
  let mine := m.filter (fun e => a ≤ e.1 && e.1 < a + n)
  mine.foldl (fun m e => mapSet m (b + (e.1 - a)) e.2) (m.filter (fun e => !(a ≤ e.1 && e.1 < a + n) && !(b ≤ e.1 && e.1 < b + n)))

/-- A role of a group whose window moves: what it has buffered, read and written there goes with it (R61, R156, R157). -/
def carryWarp (a b n : Nat) (y : Warp) : Warp :=
  let line := carry (a / 128) (b / 128) (n / 128)
  { y with
    wrote := y.wrote.map line
    spec := y.spec.map (fun p => { p with
      buf := p.buf.foldl (fun m e => mapSet m (carry a b n e.1) e.2) []
      reads := p.reads.map line
      clears := p.clears.map line }) }

/-- A window moved to another block of its slice: offsets and contents stay (R61, R62), with the records of its lines and what the
group's speculators have buffered and read of it. -/
def moveWindow (s : State) (core gslot b : Nat) : State :=
  match groupAt s core gslot with
  | none => s
  | some g =>
    let n := sramKib g.tmpl * 1024
    let base := sliceBase core + b * 4096
    let s := { s with
      mem := memSetBytes s.mem base (memGetBytes s.mem g.sbase g.tmpl.sramsz)
      promo := carryMap s.promo g.sbase base n
      lineRec := carryMap s.lineRec (g.sbase / 128) (base / 128) (n / 128)
      stale := carryMap s.stale (g.sbase / 8) (base / 8) (n / 8)
      errCount := carryMap s.errCount (g.sbase / 128) (base / 128) (n / 128)
      poison := (s.poison.filter (fun l => !(base / 128 ≤ l && l < base / 128 + n / 128))).map (carry (g.sbase / 128) (base / 128) (n / 128)) }
    modGroup s core gslot (fun g => { g with
      sbase := base
      warps := g.warps.map (fun (w, y) => (w, carryWarp g.sbase base n y)) })

/-- A register block moved. -/
def moveRegs (s : State) (core key b : Nat) : State :=
  modWarp s core (key / 64) (key % 64) (fun y => { y with rbase := b })

/-- The groups that a core's compactor works for: the head of its queue, and the next group of each dispatcher of its partition that fits
no core (R148). -/
def compactFor (s : State) (core : Nat) : List Template :=
  let tmpl := fun (x i : Nat) => (launchOf s x i).map (fun l => l.tmpl)
  let dets := s.ctxs.flatMap (fun (x, c) =>
    if c.st == .resident && coreServes s core x then
      (List.range c.regions.length).filterMap (fun r => ((detNextOf s x r).bind (fun q => tmpl x q.1)).bind (fun t =>
        if (coresOf s c.part).all (fun i => (fits s i t).isNone) then some t else none))
    else [])
  ((queueOf s core).head?.bind (fun q => tmpl q.1 q.2.1)).toList ++ dets

/-- The moves that bring a group in that does not fit: of register blocks (true), else of windows (R148). -/
def movesFor (s : State) (core : Nat) (t : Template) : Option (Bool × List (Nat × Nat)) :=
  if (fits s core t).isSome then none
  else match regMoves s core t with
    | some ms => some (true, ms)
    | none => (sramMoves s core t (liveSram s core)).map (fun ms => (false, ms))

/-- The roles that some moves hold back (R148, R62): the warp of a register block, every role of the group of a window. -/
def heldBack (k : Core) (p : Bool × List (Nat × Nat)) : List (Nat × Nat) :=
  if p.1 then p.2.map (fun m => (m.1 / 64, m.1 % 64))
  else p.2.flatMap (fun m => (mapFind k.groups m.1).elim [] (fun g => g.warps.map (fun e => (m.1, e.1))))

/-- Whether every block of some moves is quiet. -/
def movesQuiet (s : State) (core : Nat) (p : Bool × List (Nat × Nat)) : Bool :=
  p.2.all (fun m => if p.1 then regQuiet (coreOf s core) m.1 else windowQuiet s core m.1)

/-- COMPACTOR_MOVE: the compactor works for the first group that some moves bring in (R148, R62). It stops issue in what holds the blocks;
once every block is quiet the whole sequence of moves is made, and issue goes on. Where lazily held windows stand in the way they are to
be written out (R87). -/
def execCompactorMove (core : Nat) (s : State) : Out :=
  let ts := if s.power == .d0 then compactFor s core else []
  let hold := fun (s : State) (l : List (Nat × Nat)) => modCore s core (fun k => { k with pause := l })
  match ts.findSome? (movesFor s core) with
  | some p =>
    .next (if movesQuiet s core p then
        p.2.foldl (fun s m => if p.1 then moveRegs s core m.1 m.2 else moveWindow s core m.1 m.2) (hold s [])
      else hold s (heldBack (coreOf s core) p))
  | none =>
    let lazies := distinct ((coreOf s core).lazySram.map (fun e => e.1))
    let s := hold s []
    .next (if ts.any (fun t => (fits s core t).isNone && (sramMoves s core t (heldSram s core)).isSome) then
        modCore s core (fun k => { k with claimed := distinct (k.claimed ++ lazies) })
      else s)

/-! ### The freed slot and the launch's end -/

/-- Whether the RETIRING conditions of R150 hold, and every register block has been let go (R266). -/
def mayFree (s : State) (core gslot : Nat) : Bool :=
  let k := coreOf s core
  (groupAt s core gslot).elim true (fun g => g.warps.all (fun (_, y) => y.freed)) &&
  k.copies.all (fun c => c.gslot != gslot) && k.drains.all (fun d => d.gslot != gslot) && k.mq.all (fun q => q.gslot != gslot) &&
  s.returns.all (fun r => !(r.who.core == core && r.who.gslot == gslot)) &&
  s.inflight.all (fun r => !(r.who.core == core && r.who.gslot == gslot)) &&
  s.dies.all (fun (_, d) => d.chunkQ.all (fun c => !(c.who.core == core && c.who.gslot == gslot)))

/-- A group of a launch freed: a launch whose last group has been freed has ended, in this cycle of its PLU's die (R131). -/
def noteFreed (s : State) (x idx : Nat) : State :=
  modLaunch s x idx (fun l =>
    let l := { l with freed := l.freed + 1 }
    if l.ended then { l with endedAt := (dieOf s l.die).cycle } else l)

/-- GROUP_SLOT_FREE: the slot of a RETIRING group is freed with all it holds (R151), and with what its save handlers had had saved
of it (R89). -/
def execGroupSlotFree (core gslot : Nat) (s : State) : Out :=
  match groupAt s core gslot with
  | none => .next s
  | some g =>
    if !g.retiring || !mayFree s core gslot then .next s
    else
      let s := dropGroup s core gslot
      let s := modCore s core (fun k => { k with freedNow := k.freedNow ++ [gslot] })
      let s := if (ctxOf s g.ctx).st == .saving then
          modCtx s g.ctx (fun c => { c with saved := c.saved.filter (fun e => !(e.core == core && e.gslot == gslot)) })
        else s
      let s := giveBack s g.ctx g.launch g.gidx g.region { grp := 1, sram := sramKib g.tmpl }
      .next (noteFreed s g.ctx g.launch)

/-- Whether nothing of a launch's DATOMs is left to apply (R74). -/
def datomsDone (s : State) (ctx : Nat) (l : Launch) : Bool :=
  l.applied || (l.logRuns.isEmpty && s.datoms.all (fun d => !(d.ctx == ctx && d.launch == l.idx)) &&
    s.dbufs.all (fun b => !(b.ctx == ctx && b.launch == l.idx)))

/-- LAUNCH_COMPLETE: a launch whose groups have all been freed and whose DATOMs have been applied completes (R74, R131, R132,
R328). -/
def execLaunchComplete (ctx idx : Nat) (s : State) : Out :=
  match launchOf s ctx idx with
  | none => .next s
  | some l =>
    if !l.ended || !datomsDone s ctx l then .next s
    else
      let s := match l.reserve with
        | some (r, g, rg, sr) => uncharge s ctx r { grp := g, reg := rg, sram := sr }
        | none => s
      let s := modCtx s ctx (fun c => { c with
        launches := c.launches.filter (fun m => m.idx != idx) })
      let s := settleOwned s ctx (some idx)
      .next (if l.tmpl.cen then deviceEvent s l.die 3 srcPlu l.tmpl.cstream 0xE3 l.idx l.count true else s)

/-! ### Progress (R144, R145) -/

/-- HANG: a warp with a wait-list entry that has starved (R144, R430). -/
def execHang (core gslot wid : Nat) (s : State) : Out :=
  match warpAt s core gslot wid with
  | none => .next s
  | some y =>
    if y.run != .run || y.halted || y.pend.isSome then .next s
    else .next (modWarp s core gslot wid pendHang)

/-- A producer that never answers taken back: the registers of an instruction that waited and is given up are full again
(R426). -/
def dropWait (g : Group) (w : Option Wait) : Group :=
  let id := match w with
    | some (.stg _ _ _ _ _ _ i) => i
    | some (.mbarw _ _ _ i _ _) => i
    | some (.evwait _ _ _ i) => i
    | some (.calloc i _ _ _ _ _) => i
    | _ => 0
  if id = 0 then g
  else
    let rest := g.uprods.filter (fun p => p.id != id)
    let full := ((g.uprods.filter (fun p => p.id == id)).map (fun p => p.reg)).filter (fun r => rest.all (fun p => p.reg != r))
    { g with uprods := rest, sempty := g.sempty.filter (fun r => !full.contains r) }

/-- Whether a warp has an instruction under way that a unit answers and that is not given up (R110, R384, R386): the warp's next
boundary comes when it has ended (R426). -/
def underWay (y : Warp) : Bool :=
  y.splits.any (fun o => match o.bind (fun q => q.wait) with
    | some (.answer _ _) => true
    | _ => false)

/-- TRAP_TAKEN: the trap of a role that has stopped is recorded once what it issued before has ended (R426); a pending HANG or WAIT_CYCLE
is taken at the next boundary of the warp's last split (R426, R430); a speculator stops, and its trap is taken once it has committed
(R158). -/
def execTrapTaken (core gslot wid : Nat) (s : State) : Out :=
  match warpAt s core gslot wid with
  | none => .next s
  | some y => match y.run, y.pend with
    | .trapping r words, _ =>
      let who : Who := { core := core, gslot := gslot, wid := wid, slot := r.split }
      .next (if roleQuiet s who then recordTrap s who r words else s)
    | _, none => .next s
    | _, some (c, addr, lanes) =>
      if y.run != .run || y.halted || underWay y then .next s
      else if y.spec.isSome then
        .next (modWarp s core gslot wid (fun y => { y with spec := y.spec.map (fun p => { p with stopped := true }) }))
      else
        let slot := if (y.split y.lastSlot).isSome then y.lastSlot
          else ((List.range 4).find? (fun i => (y.split i).isSome)).getD 0
        let who : Who := { core := core, gslot := gslot, wid := wid, slot := slot }
        let s := modGroup s core gslot (fun g => dropWait g ((y.split slot).bind (fun q => q.wait)))
        let s := modSplit s who (fun q => { q with wait := none })
        let lanes := if c == .hang then lanes else (y.split slot).elim lanes (fun q => q.mask)
        .next (takeTrap s who c lanes addr.toNat 0 (wordsAt s who))

/-- The blocked roles of a group. -/
def blockedRoles (c g : Nat) (k : Group) : List (Nat × Nat × Nat) :=
  (k.warps.filter (fun (_, y) => roleBlocked y)).map (fun (w, _) => (c, g, w))

/-- The blocked roles of the resident groups of a region and those below it. -/
def regionRoles (s : State) (x r : Nat) : List (Nat × Nat × Nat) :=
  (residents s).flatMap (fun (c, g, k) =>
    if k.ctx == x && isBelow (ctxOf s x).regions k.region r then blockedRoles c g k else [])

/-- Whether a launch is pending on admission. -/
def Launch.blocked (l : Launch) : Bool := l.waiting && l.admitted < l.count

/-- How many entries the first step of a domain's work takes at once (R124): two for a fresh candidate whose first edge has APPEND. -/
def entriesWanted (s : State) (die : Nat) (ws : List Work) : Nat :=
  match ws with
  | .fresh i e :: _ =>
    let a := autoOf s die i
    if (enabledEdge a.img (freshCand a.nextSeq e) e).any (fun k => k.append) then 2 else 1
  | _ => 1

/-- The context and region whose charge a halted domain awaits (R124, R130): the region of the chain that refuses it; where none does, since
CANDMAX or the die's entries refuse, the automaton's own (notes/assumptions/111.md). -/
def awaitedRegion (s : State) (d : Domain) : Option (Nat × Nat) :=
  let at_ := fun (x r : Nat) (u : Use) => some (x, (refuser (ctxOf s x).regions r u).getD r)
  match d.halt with
  | .run => none
  | .entry x r => at_ x r { cand := entriesWanted s d.die d.work }
  | .pend x r => at_ x r { pend := 1 }

/-- What role `w` of a group awaits at barrier `b` (R145): the roles that have not arrived. Where all of these have exited the phase
never completes, and the group forwards the probe to its blocked roles, the sender among them (R154, notes/assumptions/126.md). -/
def barAwaits (c g : Nat) (k : Group) (w b : Nat) : List (Nat × Nat × Nat) :=
  let left := (k.warps.filter (fun (v, y) => v != w && y.run != .exited && !(barOf k b).arrived.contains v)).map (fun (v, _) => (c, g, v))
  if left.isEmpty && (barOf k b).arrived.contains w then blockedRoles c g k else left

/-- The identities that a unit awaits (R145): empty when it is not blocked or publishes nothing. -/
def publishes (s : State) (u : Nat × Nat × Nat) : List (Nat × Nat × Nat) :=
  if u.1 = 1000 then
    match launchOf s u.2.1 u.2.2 with
    | some l =>
      if l.blocked then
        let rs := (ctxOf s u.2.1).regions
        match refuser rs l.tmpl.region (drawReserves (sortedLaunches (ctxOf s u.2.1).launches) l.tmpl.region (groupUse l.tmpl)).2 with
        | some r => regionRoles s u.2.1 r
        | none => []
      else []
    | none => []
  else if u.1 = 1001 then
    match awaitedRegion s (domOf s u.2.1) with
    | some (x, r) => regionRoles s x r
    | none => []
  else if u.1 = 1002 then
    if (mapFind (ctxOf s u.2.1).detAt u.2.2).isSome then regionRoles s u.2.1 u.2.2 else []
  else
    match groupAt s u.1 u.2.1, warpAt s u.1 u.2.1 u.2.2 with
    | some k, some y =>
      if !roleBlocked y then []
      else
        let others := (k.warps.filter (fun (w, _) => w != u.2.2)).map (fun (w, _) => (u.1, u.2.1, w))
        distinct (y.blocks.flatMap (fun b => match b with
          | .groupRoles => others
          | .copyWarps => (k.warps.filter (fun (w, _) => 32 ≤ w && w < 64)).map (fun (w, _) => (u.1, u.2.1, w))
          | .barrier b => barAwaits u.1 u.2.1 k u.2.2 b
          | .dispatcher =>
            if detOf (ctxOf s k.ctx).regions k.region && (detNextOf s k.ctx k.region).isSome then [(1002, k.ctx, k.region)] else []
          | .launches n => ((ctxOf s k.ctx).launches.filter (fun l => l.pend && l.tmpl.cen && l.tmpl.cstream == n)).map
              (fun l => (1000, k.ctx, l.idx))
          | _ => []))
    | _, _ => []

/-- Since when a unit has been blocked, with the cycle of its die. -/
def blockedSince (s : State) (u : Nat × Nat × Nat) : Option (Nat × Nat) :=
  if u.1 = 1000 then (launchOf s u.2.1 u.2.2).bind (fun l => if l.blocked then some (l.at_, (dieOf s l.die).cycle) else none)
  else if u.1 = 1001 then
    let d := domOf s u.2.1
    if d.halt == .run then none else some (d.haltedAt, (dieOf s d.die).cycle)
  else if u.1 = 1002 then (mapFind (ctxOf s u.2.1).detAt u.2.2).bind (fun t =>
    (detNextOf s u.2.1 u.2.2).map (fun q => (t, (dieOf s (q.1 % 4)).cycle)))
  else (warpAt s u.1 u.2.1 u.2.2).bind (fun y =>
    if roleBlocked y then some (y.blockedAt, (dieOf s (dieOfCore u.1)).cycle) else none)

/-- The time from which the next 2^20 cycles count. -/
def restartClock (s : State) (u : Nat × Nat × Nat) (now : Nat) : State :=
  if u.1 = 1000 then modLaunch s u.2.1 u.2.2 (fun l => { l with at_ := now })
  else if u.1 = 1001 then modDom s u.2.1 (fun d => { d with haltedAt := now })
  else if u.1 = 1002 then modCtx s u.2.1 (fun c => { c with detAt := mapSet c.detAt u.2.2 now })
  else modWarp s u.1 u.2.1 u.2.2 (fun y => { y with blockedAt := now })

/-- WAIT_CYCLE raised at the sender of a probe that came back (R145). -/
def raiseCycle (s : State) (u : Nat × Nat × Nat) : State :=
  if (blockedSince s u).isNone then s
  else if u.1 = 1000 then
    match launchOf s u.2.1 u.2.2 with
    | some l => regionFault s u.2.1 l.tmpl.region Cause.waitCycle.code l.idx l.die
    | none => s
  else if u.1 = 1001 then
    let d := domOf s u.2.1
    match d.halt with
    | .entry x r => regionFault s x r Cause.waitCycle.code (nextLaunch s d.die x) d.die
    | .pend x r => regionFault s x r Cause.waitCycle.code (nextLaunch s d.die x) d.die
    | .run => s
  else if u.1 = 1002 then
    match detNextOf s u.2.1 u.2.2 with
    | some q => regionFault s u.2.1 u.2.2 Cause.waitCycle.code q.1 (q.1 % 4)
    | none => s
  else modWarp s u.1 u.2.1 u.2.2 (fun y => if y.pend.isSome then y else { y with pend := some (.waitCycle, 0, BitVec.allOnes 32) })

/-- PROBE_SEND: a unit that has been blocked for 2^20 cycles sends a probe to what it awaits (R145). -/
def execProbeSend (core gslot wid : Nat) (s : State) : Out :=
  let u := (core, gslot, wid)
  match blockedSince s u with
  | none => .next s
  | some (t, now) =>
    if now < t + 2 ^ 20 then .next s
    else
      let to_ := publishes s u
      let s := restartClock s u now
      let s := if to_.contains u then raiseCycle s u else s
      let rest := to_.filter (fun v => v != u)
      .next (if rest.isEmpty then s else { s with probes := s.probes ++ [{ sender := u, todo := rest, seen := [u] }] })

/-- PROBE_ARRIVAL: the `n`-th probe reaches the first unit it travels to, which forwards it once or drops it (R145). -/
def execProbeArrival (n : Nat) (s : State) : Out :=
  match s.probes[n]? with
  | none => .next s
  | some p => match p.todo with
    | [] => .next { s with probes := listDrop s.probes n }
    | u :: rest =>
      let more := if p.seen.contains u then [] else publishes s u
      let back := more.contains p.sender
      let todo := rest ++ more.filter (fun v => v != p.sender && !p.seen.contains v && !rest.contains v)
      let p := { p with todo := todo, seen := if p.seen.contains u then p.seen else p.seen ++ [u] }
      let s := { s with probes := if todo.isEmpty then listDrop s.probes n else listSet s.probes n p }
      .next (if back then raiseCycle s p.sender else s)

end Sys2Proof.Machine
end

