-- ==== Sys2Proof/Machine/Video.lean ====
section
/-!
DEFINITION. Video submission and batch queues (R109-R111, R393, R394), and the decoders (R445-R453).
-/
namespace Sys2Proof.Machine

/-! ### Batch queues -/

/-- Batch queue `q` of a die. -/
def bqOf (s : State) (die q : Nat) : BQ := mapGet (dieOf s die).bqs q BQ.reset

/-- Batch queue `q` of a die changed. -/
def modBq (s : State) (die q : Nat) (f : BQ → BQ) : State :=
  modDie s die (fun d => { d with bqs := mapSet d.bqs q (f (mapGet d.bqs q BQ.reset)) })

/-- The low-water event of a queue (R111). -/
def lowWater (s : State) (die q : Nat) : State :=
  let b := bqOf s die q
  deviceEvent s die 3 (srcQueue q) b.stream 0xE2 q b.ents.length false

/-- Whether a queue is FULL (R109). -/
def BQ.full (b : BQ) : Bool := b.ents.length ≥ b.cap

/-- An entry put at the tail (R109); none when the queue is FULL or DISABLED. -/
def bqPut (s : State) (die q : Nat) (e : List Byte) : Option State :=
  let b := bqOf s die q
  if !b.enabled || b.full then none else some (modBq s die q (fun b => { b with ents := b.ents ++ [e] }))

/-- The head entry taken (R109). -/
def bqGet (s : State) (die q : Nat) : Option (List Byte × State) :=
  let b := bqOf s die q
  match b.ents with
  | [] => none
  | e :: r =>
    if !b.enabled then none else some (e, modBq s die q (fun b => { b with ents := r }))

/-- The status word of BQPUT and BQGET (R394). -/
def bqStatus (s : State) (die q st : Nat) : Nat := (bqOf s die q).ents.length * 2 ^ 32 + st

/-- Whether a queue may be used by the issuer's partition (R394); one that is DISABLED belongs to none and answers so. -/
def bqBound (s : State) (x : Iss) (die q : Nat) : Bool :=
  let b := bqOf s die q
  !b.enabled || b.part == (ctxOf s x.grp.ctx).part

/-- The queue that an ask is for. -/
def AskOp.queue (o : AskOp) : Option Nat :=
  match o with
  | .put q _ | .get q _ => some q
  | .gate _ _ => none

/-- A BQPUT or BQGET applied to its queue (R109, R394): its status, 0 OK, 1 refused, 2 DISABLED. -/
def runQueueOp (s : State) (die : Nat) (w : Who) (op : AskOp) : Nat × State :=
  match op with
  | .put q e =>
    if !(bqOf s die q).enabled then (2, s)
    else match bqPut s die q e with
      | some s => (0, s)
      | none => (1, s)
  | .get q rs =>
    if !(bqOf s die q).enabled then (2, s)
    else match bqGet s die q with
      | some (e, s) => (0, acquireWide (settleDecoders (structWrite s w rs e) (ctxOfRole s w)) w)
      | none => (1, s)
  | .gate _ _ => (0, s)

/-- An ask of a queue applied at the cycle's end, and its role told: s[DATA], empty since issue, is filled with the status word
(R394). -/
def answerQueue (s : State) (die : Nat) (a : Ask) : State :=
  let (st, s) := runQueueOp s die a.who a.op
  let s := modGroup s a.who.core a.who.gslot (fun k => arriveU k a.id (bqStatus s die (a.op.queue.getD 0) st))
  answerRole s a.who a.id none

/-- Whether an operation waits for the cycle's end, since one of the same cycle may go before it (R110): a put on a FULL queue, a get on
any other. -/
def mustMeet (b : BQ) (op : AskOp) : Bool :=
  b.enabled && (match op with
    | .put _ _ => b.full
    | _ => !b.full)

/-- A BQPUT or BQGET given to its queue, s[DATA] empty until it has answered (R110, R394). -/
def askQueue (s : State) (x : Iss) (m : W32) (r die q : Nat) (op : AskOp) : Res :=
  let (id, s) := freshId s
  let s := onGroup s x (fun k => produceU k id r 0)
  if mustMeet (bqOf s die q) op then askUnit s x m die id op
  else
    let (st, s) := runQueueOp s die x.w op
    .done (onGroup s x (fun k => arriveU k id (bqStatus s die q st)))

/-- The queue asks of a die's cycle applied (R110): on a FULL queue the gets first, on any other the puts. -/
def meetQueue (s : State) (die q : Nat) : State :=
  let (as, s) := takeAsks s die (fun o => o.queue == some q)
  let isGet := fun (a : Ask) => match a.op with
    | .get _ _ => true
    | _ => false
  let gets := as.filter isGet
  let puts := as.filter (fun a => !isGet a)
  (if (bqOf s die q).full then gets ++ puts else puts ++ gets).foldl (fun s a => answerQueue s die a) s

/-- The end of a cycle for the batch queues of a die (R110, R111): the asks that meet, then the low-water event of a queue that fell
below LW in the cycle. -/
def endQueues (s : State) (die : Nat) : State :=
  ((dieOf s die).bqs.map (fun e => e.1)).foldl (fun s q =>
    let s := meetQueue s die q
    let b := bqOf s die q
    let s := if b.enabled && b.start ≥ b.lw && b.ents.length < b.lw then lowWater s die q else s
    modBq s die q (fun b => { b with start := b.ents.length })) s

/-- The checks of BQPUT and BQGET before their range (R371, R394), then `k`. -/
def withQueue (s : State) (x : Iss) (m : W32) (f : FM) (k : Nat → Nat → Nat → Res) : Res :=
  let v := (sreg x.grp f.data.toNat).toNat
  let va := (sreg x.grp f.base.toNat).toNat
  let q := v % 32
  let die := v / 32 % 4
  if v ≥ 2 ^ 7 then .trap .illegal m 0 0 s
  else if !bqBound s x die q then .trap .bounds m 0 0 s
  else if va % 64 != 0 then .trap .align m va 0 s
  else k die q va

/-- BQPUT (R109, R110, R394). -/
def execBqput (g : Guard) (f : FM) (s : State) : Out :=
  orWait (fun _ _ s => .hold .nothing s)
    (runWord .vector true 1 g f.twait (fun _ _ => [.u f.data.toNat f.fe, .u f.base.toNat f.fe])
      (fun x m s => withQueue s x m f (fun die q va =>
        if !deviceReleased s x then .hold .nothing s
        else structRead s x m 5 va 64 (fun e s => askQueue s x m f.data.toNat die q (.put q e))))) s

/-- BQGET (R109, R110, R394, R450). -/
def execBqget (g : Guard) (f : FM) (s : State) : Out :=
  orWait (fun _ _ s => .hold .nothing s)
    (runWord .vector true 1 g f.twait (fun _ _ => [.u f.data.toNat f.fe, .u f.base.toNat f.fe])
      (fun x m s => withQueue s x m f (fun die q va =>
        if !deviceReleased s x then .hold .nothing s
        else structRange s x m 5 va 64 (fun rs s => askQueue s x m f.data.toNat die q (.get q rs))))) s

/-! ### Decoders -/

/-- Decoder `d` of a die. -/
def decOf (s : State) (die d : Nat) : Decoder := mapGet (dieOf s die).decoders d Decoder.reset

/-- Decoder `d` of a die changed. -/
def modDec (s : State) (die d : Nat) (f : Decoder → Decoder) : State :=
  modDie s die (fun e => { e with decoders := mapSet e.decoders d (f (mapGet e.decoders d Decoder.reset)) })

/-- VDSUB (R393): the descriptor is queued; it waits while the queue of 16 is full. -/
def execVdsub (g : Guard) (f : FM) (s : State) : Out :=
  runWord .vector true 1 g f.twait (fun _ _ => [.u f.data.toNat f.fe, .u f.base.toNat f.fe])
    (fun x m s =>
      let v := (sreg x.grp f.data.toNat).toNat
      let va := (sreg x.grp f.base.toNat).toNat
      let dec := v % 8
      let die := v / 8 % 4
      if v ≥ 2 ^ 5 then .trap .illegal m 0 0 s
      else if !(partOf s (ctxOf s x.grp.ctx).part).decmask.testBit (8 * die + dec) then .trap .bounds m 0 0 s
      else if va % 64 != 0 then .trap .align m va 0 s
      else if (decOf s die dec).queue.length ≥ 16 || !deviceReleased s x then .hold .nothing s
      else structRead s x m 5 va 64 (fun _ s =>
        let tok := tokOf f.tse f.tslot
        let sub : Sub := {
          va := va
          ctx := x.grp.ctx
          region := x.grp.region
          launch := x.grp.launch
          tok := tok.map (fun k => (x.w, k)) }
        .done (modDec (addToken s x.w tok 1) die dec (fun d => { d with
          queue := d.queue ++ [sub]
          st := if d.st == .idle then .busy else d.st })))) s

/-- The luma pitch in bytes (R448). -/
def vPitch (v : Nat) : Nat := bitsOf v 208 16 * 128

/-- MAXH rounded up to a multiple of 16 (R448). -/
def vHa (v : Nat) : Nat := (bitsOf v 224 16 + 15) / 16 * 16

/-- The slot stride (R448). -/
def vStride (v : Nat) : Nat := (vPitch v * vHa v * 3 / 2 + 4095) / 4096 * 4096

/-- The context area's size (R448). -/
def vCtxSize (v : Nat) : Nat :=
  let nref := match bitsOf v 180 2 with
    | 0 => 8
    | 1 => 16
    | _ => 0
  65536 + nref * vStride v

/-- Whether samples are written as 16 bits (R448). -/
def vWide (v : Nat) (d10 : Bool) : Bool := bitsOf v 182 2 == 1 || (bitsOf v 182 2 == 2 && d10)

/-- Whether a submission descriptor is well formed (R447, R448). -/
def vdOk (v : Nat) : Bool :=
  let ofmt := bitsOf v 182 2
  let maxw := bitsOf v 240 16
  let maxh := bitsOf v 224 16
  bitsOf v 0 176 == 0 && bitsOf v 192 2 == 0 && bitsOf v 448 64 % 16 == 0 && bitsOf v 384 64 % 4096 == 0 &&
  bitsOf v 320 64 % 4096 == 0 && 16 ≤ maxw && maxw ≤ 16384 && 16 ≤ maxh && maxh ≤ 16384 && vPitch v != 0 && ofmt != 3 &&
  bitsOf v 180 2 != 3 && (ofmt != 2 || vPitch v % 256 == 0) && maxw * (if ofmt = 1 then 2 else 1) ≤ vPitch v

/-- Whether the rows of a descriptor hold MAXW samples of a frame's width (R448); the sample width of planar frames is known only once
they are decoded (notes/assumptions/50.md). -/
def pitchHolds (v : Nat) (f : Frame) : Bool := bitsOf v 240 16 * (if vWide v f.d10 then 2 else 1) ≤ vPitch v

/-- Whether a decoded frame fits the slots of a descriptor (R448). -/
def frameFits (v : Nat) (f : Frame) : Bool :=
  f.width ≤ bitsOf v 240 16 && f.height ≤ bitsOf v 224 16 && pitchHolds v f

/-- The integer mean of chroma samples (R448). -/
def meanOf (l : List Nat) : Nat := if l.isEmpty then 0 else (l.foldl (· + ·) 0 + l.length / 2) / l.length

/-- The chroma sample at (x, y) of plane `c`, 0 Cb, 1 Cr, reduced to 4:2:0 (R448). -/
def chromaAt (f : Frame) (c x y : Nat) : Nat :=
  let cw := if f.chroma = 3 then f.width else (f.width + 1) / 2
  let ch := if f.chroma = 1 then (f.height + 1) / 2 else f.height
  let at_ := fun (i j : Nat) => (f.data.getD (f.width * f.height + c * cw * ch + j * cw + i) 0).toNat
  let two := fun (i n : Nat) => [2 * i, 2 * i + 1].filter (fun k => k < n)
  match f.chroma with
  | 0 => if f.d10 then 512 else 128
  | 1 => at_ x y
  | 2 => meanOf ((two y ch).map (fun j => at_ x j))
  | _ => meanOf ((two y ch).flatMap (fun j => (two x cw).map (fun i => at_ i j)))

/-- A sample as an output format stores it (R448). -/
def sampleBytes (ofmt : Nat) (d10 : Bool) (x : Nat) : List Byte :=
  match ofmt with
  | 0 => bytesLE 1 (if d10 then Nat.min 255 ((x + 2) / 4) else x)
  | 1 => bytesLE 2 (if d10 then x * 64 else x * 256)
  | _ => if d10 then bytesLE 2 (x % 1024) else bytesLE 1 x

/-- The rows of a frame at a slot's base: address and bytes (R448). -/
def frameRows (v base : Nat) (f : Frame) : List (Nat × List Byte) :=
  let ofmt := bitsOf v 182 2
  let p := vPitch v
  let ha := vHa v
  let cw := (f.width + 1) / 2
  let ch := (f.height + 1) / 2
  let put := sampleBytes ofmt f.d10
  let luma := (List.range f.height).map (fun y =>
    (base + y * p, (List.range f.width).flatMap (fun x => put (f.data.getD (y * f.width + x) 0).toNat)))
  let chroma := if ofmt = 2 then
      (List.range 2).flatMap (fun c => (List.range ch).map (fun y =>
        (base + p * ha + c * (p / 2 * (ha / 2)) + y * (p / 2), (List.range cw).flatMap (fun x => put (chromaAt f c x y)))))
    else (List.range ch).map (fun y =>
      (base + p * ha + y * p, (List.range cw).flatMap (fun x => put (chromaAt f 0 x y) ++ put (chromaAt f 1 x y))))
  luma ++ chroma

/-- The key of a decoder context area. -/
def vKey (ctx v : Nat) : Nat := ctx * 2 ^ 64 + bitsOf v 384 64

/-- The stream state that goes with a context area, whichever decoder it is submitted to (R449, R452). -/
def streamAt (s : State) (key : Nat) : DecStream := mapGet s.decStreams key { stale := false, frameNo := 0, held := [] }

/-- The frames a submission outputs: as many as its slots (R449). -/
def DecJob.outputs (j : DecJob) : Nat := Nat.min j.frames.length (bitsOf j.desc 176 4 + 1)

/-- A decoder waits for a page, and will replay its submission from its start (R452, R453). -/
def decWait (s : State) (die dec page : Nat) : State :=
  modDec s die dec (fun d => { d with
    st := .waiting
    waitPage := some page
    past := Nat.max d.past (d.job.elim 0 (fun j => j.made))
    job := none })

/-- The state of a decoder that has no submission in hand (R453): BUSY while its queue is not empty. -/
def decIdle (queue : List Sub) : DState := if queue.isEmpty then .idle else .busy

/-- What a submission begins with: the state of its context area, discarded first with NEWSEQ (R447, R449). -/
def streamFor (s : State) (ctx v : Nat) : DecStream :=
  if v.testBit 184 then { stale := false, frameNo := 0, held := [] } else streamAt s (vKey ctx v)

/-- A fault of a decoder (R452): the cause goes to the issuer's fault domain, and the submission ends FAULT, with the frames that
it has put. -/
def decFault (s : State) (die dec : Nat) (sub : Sub) (v : Nat) (c : Cause) : State :=
  let s := modDec s die dec (fun d =>
    let j : DecJob := {
      desc := v
      ctx := sub.ctx
      region := sub.region
      launch := sub.launch
      frames := []
      made := Nat.max d.past (d.job.elim 0 (fun j => j.made))
      status := 4
      newCtx := []
      frameNo := (streamFor s sub.ctx v).frameNo }
    { d with job := some j, waitPage := none, st := .busy })
  regionFault s sub.ctx sub.region c.code sub.launch die

/-- Whether R445 lists a frame of a codec: 0 AV1, 1 HEVC, 2 JPEG. -/
def frameListed (codec : Nat) (f : Frame) : Bool :=
  f.width ≤ 16384 &&
  (match codec with
   | 0 => f.chroma ≤ 1 && f.height ≤ 8704
   | 1 => f.chroma == 1 && f.height ≤ 8704
   | _ => !f.d10 && f.height ≤ 16384 && f.chroma ≤ 3)

/-- What keeps decoded frames from the slots of a descriptor (R448): rows too short for the sample width (5), frames too large (1). -/
def frameFault (v : Nat) (fs : List Frame) : Option Nat :=
  if !fs.all (pitchHolds v) then some 5
  else if !fs.all (frameFits v) then some 1
  else none

/-- The job of a well-formed submission, from its bitstream and its context area (R447-R449, R452), of which NEWSEQ leaves no stream state;
what R445 does not list is UNSUPPORTED. -/
def decodeJob (s : State) (sub : Sub) (v : Nat) (src area : List Byte) : DecJob :=
  let codec := bitsOf v 180 2
  let t := streamFor s sub.ctx v
  let area := if v.testBit 184 then [] else area
  let base : DecJob := {
    desc := v
    ctx := sub.ctx
    region := sub.region
    launch := sub.launch
    frames := []
    made := 0
    status := 0
    newCtx := []
    frameNo := t.frameNo }
  let (st, fs) := if src.isEmpty then (0, []) else Sys2Proof.Config.decodeStream codec src area (v.testBit 185)
  let fs : List Frame := fs.map (fun (w, h, d10, ch, data) => { width := w, height := h, d10 := d10, chroma := ch, data := data })
  if st = 1 || !fs.all (frameListed codec) then { base with status := 1 }
  else match frameFault v (if st = 0 then t.held ++ fs else t.held) with
    | some n => { base with status := n }
    | none => { base with
        status := if st = 0 then 0 else 2
        frames := t.held ++ fs.filter (frameFits v)
        newCtx := Sys2Proof.Config.decodeContext codec src area }

/-- SUBMISSION_START: the decoder takes the head of its queue, reads its descriptor, its bitstream and its context area
(R446, R447, R452). -/
def execSubmissionStart (die dec : Nat) (s : State) : Out :=
  let d := decOf s die dec
  match d.queue with
  | [] => .next s
  | sub :: rest =>
    if d.st == .disabled || d.job.isSome || d.waitPage.isSome then .next s
    else match unitGet s die sub.ctx 5 sub.launch sub.va 64 with
      | .wait p s => .next (decWait s die dec p)
      | .fault c s =>
        let s := match sub.tok with
          | some (w, k) => addToken s w (some k) (-1)
          | none => s
        .next (regionFault (modDec s die dec (fun d => { d with queue := rest, st := decIdle rest, past := 0 })) sub.ctx sub.region c.code sub.launch die)
      | .ok bs s =>
        let s := match sub.tok with
          | some (w, k) => addToken s w (some k) (-1)
          | none => s
        let sub := { sub with tok := none }
        let s := modDec s die dec (fun d => { d with queue := sub :: rest, st := .busy })
        let v := ofBytesLE bs
        let start := fun (s : State) (j : DecJob) => modDec s die dec (fun d => { d with job := some j })
        let none_ := fun (status : Nat) => ({
          desc := v
          ctx := sub.ctx
          region := sub.region
          launch := sub.launch
          frames := []
          made := 0
          status := status
          newCtx := []
          frameNo := 0 } : DecJob)
        if !vdOk v then .next (start s (none_ 5))
        else if (streamFor s sub.ctx v).stale then .next (start s (none_ 3))
        else match unitGet s die sub.ctx 5 sub.launch (bitsOf v 448 64) (bitsOf v 288 32) with
          | .wait p s => .next (decWait s die dec p)
          | .fault c s => .next (decFault s die dec sub v c)
          | .ok src s => match unitGet s die sub.ctx 5 sub.launch (bitsOf v 384 64) (vCtxSize v) with
            | .wait p s => .next (decWait s die dec p)
            | .fault c s => .next (decFault s die dec sub v c)
            | .ok area s => .next (start s (decodeJob s sub v src area))

/-- The frame descriptor of the `k`-th frame of a job (R450). -/
def frameDesc (die dec : Nat) (j : DecJob) (k : Nat) (f : Frame) : Nat :=
  let v := j.desc
  let y := bitsOf v 320 64 + k * vStride v
  y % 2 ^ 64 * 2 ^ 448 + (y + vPitch v * vHa v) % 2 ^ 64 * 2 ^ 384 + bitsOf v 256 32 * 2 ^ 352 +
  (j.frameNo + k) % 2 ^ 32 * 2 ^ 320 + f.width % 2 ^ 16 * 2 ^ 304 + f.height % 2 ^ 16 * 2 ^ 288 + bitsOf v 208 16 * 2 ^ 272 +
  bitsOf v 182 2 * 2 ^ 270 + (if vWide v f.d10 then 2 ^ 269 else 0) + (die * 8 + dec) * 2 ^ 264

/-- The rows of a frame written one after another. -/
def putRows (s : State) (die ctx launch : Nat) (rows : List (Nat × List Byte)) : UnitOut :=
  match rows with
  | [] => .ok [] s
  | (va, bs) :: r => match unitPut s die ctx 5 launch va bs with
    | .ok _ s => putRows s die ctx launch r
    | o => o

/-- FRAME_PUT: the next frame of the submission is written to its slot, and its descriptor put into the batch queue
(R448-R450, R453): on a FULL queue the decoder waits. A
queue that is not bound to the submitter's partition takes nothing, as R394 has it of a BQPUT. -/
def execFramePut (die dec : Nat) (s : State) : Out :=
  let d := decOf s die dec
  match d.queue, d.job with
  | sub :: _, some j =>
    if j.made ≥ j.outputs then .next s
    else match j.frames[j.made]? with
      | none => .next s
      | some f =>
        match putRows s die j.ctx j.launch (frameRows j.desc (bitsOf j.desc 320 64 + j.made * vStride j.desc) f) with
        | .wait p s => .next (decWait s die dec p)
        | .fault c s => .next (decFault s die dec sub j.desc c)
        | .ok _ s =>
          let made := fun (s : State) =>
            modDec s die dec (fun d => { d with st := .busy, job := some { j with made := j.made + 1 } })
          let q := bitsOf j.desc 187 5
          if !j.desc.testBit 186 || !(bqOf s die q).enabled || (bqOf s die q).part != (ctxOf s j.ctx).part then .next (made s)
          else match bqPut s die q (bytesLE 64 (frameDesc die dec j j.made f)) with
            | some s => .next (made s)
            | none => .next (modDec s die dec (fun d => { d with st := .waiting }))
  | _, _ => .next s

/-- The end of a submission: its event, the stream's state, the queue (R449, R451, R452). -/
def endSubmission (s : State) (die dec : Nat) (j : DecJob) (status : Nat) : State :=
  let v := j.desc
  let key := vKey j.ctx v
  let t := streamAt s key
  let t := if status = 0 then { stale := false, frameNo := j.frameNo + j.made, held := j.frames.drop j.outputs }
    else if status = 2 || status = 4 then { t with stale := true, held := [], frameNo := j.frameNo + j.made }
    else streamFor s j.ctx v
  let s := if status = 5 || status = 3 then s else { s with decStreams := mapSet s.decStreams key t }
  let s := modDec s die dec (fun d => { d with
    queue := d.queue.drop 1
    job := none
    waitPage := none
    past := 0
    st := decIdle (d.queue.drop 1) })
  deviceEvent s die 3 (srcDecoder dec) (bitsOf v 194 14) 0xEA (bitsOf v 256 32) (j.made * 256 + status) true

/-- SUBMISSION_END: after every frame, the decoder writes the context area when the status is OK, and emits its event (R451,
R452). -/
def execSubmissionEnd (die dec : Nat) (s : State) : Out :=
  let d := decOf s die dec
  match d.queue, d.job with
  | sub :: _, some j =>
    if j.made < j.outputs then .next s
    else if j.status != 0 then .next (endSubmission s die dec j j.status)
    else match unitPut s die j.ctx 5 j.launch (bitsOf j.desc 384 64) (j.newCtx.take (vCtxSize j.desc)) with
      | .ok _ s => .next (endSubmission s die dec j 0)
      | .wait p s => .next (decWait s die dec p)
      | .fault c s => .next (decFault s die dec sub j.desc c)
  | _, _ => .next s

end Sys2Proof.Machine
end

