-- ==== Sys2Proof/Machine/Context.lean ====
section
/-!
DEFINITION. Contexts: descriptors and region trees (R76-R81), pre-emption and save (R86-R89, R159, R165, R352), resume (R90),
teardown (R92, R195), firmware activation (R91).
-/
namespace Sys2Proof.Machine

/-- The die whose firmware core leads (R465), if one does that is not held in reset (R463). -/
def leaderOf (s : State) : Option Nat := (List.range 4).find? (fun d => (dieOf s d).leads && !(dieOf s d).fwHeld)

/-- Whether no leader takes a request (R463, R465). -/
def fwDown (s : State) : Bool := (leaderOf s).isNone

/-! ### Descriptors and region trees -/

/-- The reserved bits, the PASID, the alignments and the handler of a context descriptor (R76). -/
def descOk (v : Nat) : Bool :=
  bitsOf v 384 128 == 0 && bitsOf v 256 13 == 0 && bitsOf v 180 16 == 0 && bitsOf v 128 12 == 0 && bitsOf v 116 12 == 0 &&
  bitsOf v 64 6 == 0 && bitsOf v 52 12 == 0 && bitsOf v 0 12 == 0 && bitsOf v 204 20 != 0 &&
  (!v.testBit 269 || (bitsOf v 320 64 < 2 ^ 56 && bitsOf v 320 64 % 8 == 0))

/-- The software fields of an RCB; the device's own are 0 (R78). -/
def rcbOf (v : Nat) : Rcb where
  parent := bitsOf v 0 8
  sramkib := bitsOf v 64 32
  regkib := bitsOf v 96 32
  pend := bitsOf v 128 24
  groups := bitsOf v 152 16
  cands := bitsOf v 168 24
  cslots := bitsOf v 240 16
  prio := bitsOf v 222 4
  det := v.testBit 220
  fdom := v.testBit 221
  evstream := bitsOf v 226 14
  inhmask := bitsOf v 212 8
  usedsram := 0
  usedreg := 0
  usedpend := 0
  usedgrp := 0
  usedcand := 0
  usedcslot := 0
  stopped := false
  flaunch := 0
  fcause := 0

/-- The reserved bits of an RCB (R78). -/
def rcbRsvOk (v : Nat) : Bool := bitsOf v 488 24 == 0 && bitsOf v 384 46 == 0 && bitsOf v 192 20 == 0 && bitsOf v 8 56 == 0

/-- Whether a region tree is well formed (R79). -/
def treeOk (rs : List Rcb) : Bool :=
  (List.range rs.length).all (fun i => match rs[i]? with
    | some k => if i = 0 then k.parent == 0 && k.inhmask == 0 else k.parent < i && (chainOf rs i).length ≤ 8
    | none => false)

/-- The RCB array of a context read (R78, R79): none when it is malformed. -/
def readTree (s : State) (base n : Nat) : Option (List Rcb) :=
  let vs := (List.range n).map (fun i => memNat s.mem (base + 64 * i) 64)
  let rs := vs.map rcbOf
  if inHole base || !vs.all rcbRsvOk || !treeOk rs then none else some rs

/-- What is in use in a region itself: its USED amounts less those of its children (R81). -/
def ownUse (rs : List Rcb) (i : Nat) (k : Rcb) : Rcb :=
  (List.range rs.length).foldl (fun q j => match rs[j]? with
    | some c => if j != i && c.parent == i then q.sub
        { sram := c.usedsram, reg := c.usedreg, pend := c.usedpend, grp := c.usedgrp, cand := c.usedcand, cslot := c.usedcslot }
      else q
    | none => q) k

/-- The new tree with the old one's charges and stops, each region's own use charged along its new chain (R81). -/
def moveCharges (old new : List Rcb) : List Rcb :=
  let base := (List.range new.length).map (fun i =>
    let n := new.getD i (rcbOf 0)
    match old[i]? with
    | some o => { n with stopped := o.stopped, flaunch := o.flaunch, fcause := o.fcause, faultAt := o.faultAt }
    | none => n)
  (List.range new.length).foldl (fun rs i => match old[i]? with
    | some o =>
      let w := ownUse old i o
      onChain rs (chainOf rs i) (fun k => k.add
        { sram := w.usedsram, reg := w.usedreg, pend := w.usedpend, grp := w.usedgrp, cand := w.usedcand, cslot := w.usedcslot })
    | none => rs) base

/-- The die whose cycle counter a context's time slice runs on: the one of its partition's first core
(notes/assumptions/24.md). -/
def clockDie (s : State) (x : Nat) : Nat := dieOfCore (partOf s (ctxOf s x).part).base

/-- The context a descriptor makes (R76, R77). -/
def newContext (v : Nat) (rs : List Rcb) : Context where
  st := .resident
  stopHeld := false
  handlers := false
  part := bitsOf v 284 4
  pasid := bitsOf v 204 20
  ptroot := bitsOf v 12 40
  rcbbase := bitsOf v 64 52
  nregions := bitsOf v 196 8
  savebase := bitsOf v 128 52
  savesize := bitsOf v 224 32
  shmode := v.testBit 269
  handler := BitVec.ofNat 64 (bitsOf v 320 64)
  slice := bitsOf v 288 32
  ctxstream := bitsOf v 270 14
  sliceAt := 0
  regions := rs
  launches := []
  tlog := none
  tmask := 0
  tseq := 0
  layout := 0
  lazy := false
  usedkib := 0
  saved := []
  detAt := []
  detq := []
  logMin := 0
  open_ := []
  resolveHeld := []

/-! ### Packets that wait for a state -/

/-- The packets that wait for a context's state complete (R101). -/
def completeOpen (s : State) (x code status : Nat) : State :=
  let mine := (ctxOf s x).open_.filter (fun o => o.1 == code)
  let s := modCtx s x (fun c => { c with open_ := c.open_.filter (fun o => o.1 != code) })
  mine.foldl (fun s (_, r, t, a) => ringDone s r t a status 0) s

/-- Whether a packet waits for a state. -/
def awaits (s : State) (x code : Nat) : Bool := (ctxOf s x).open_.any (fun o => o.1 == code)

/-! ### Saving -/

/-- The resident groups of a context: core, slot, group. -/
def groupsOf (s : State) (x : Nat) : List (Nat × Nat × Group) := (residents s).filter (fun e => e.2.2.ctx == x)

/-- Whether a role belongs to a resident group of a context. -/
def whoOf (s : State) (x : Nat) (w : Who) : Bool :=
  match groupAt s w.core w.gslot with
  | some g => g.ctx == x
  | none => false

/-- A save begins (R86 steps 1 and 2): nothing more issues, and every speculator is rolled back. -/
def beginSave (s : State) (x : Nat) : State :=
  let s := modCtx s x (fun c => { c with st := .saving, handlers := false })
  mapWarps s (fun c _ g _ y => if g.ctx == x then rollback (dieOf s (dieOfCore c)).cycle y else y)

/-- A role that has stopped at a trap whose record is not written yet (R426). -/
def isTrapping (y : Warp) : Bool :=
  match y.run with
  | .trapping _ _ => true
  | _ => false

/-- Whether step 3 of R86 is done: loads, atomics, stores, SYSCALL replies, posts, copies and matrix work of the context's
groups are at an end, no trap is still to be recorded, and no compactor move is in progress; a copy that faults or waits for a page is abandoned, to be replayed. -/
def drained (s : State) (x : Nat) : Bool :=
  s.inflight.all (fun r => !whoOf s x r.who) && s.returns.all (fun r => !whoOf s x r.who) &&
  s.datoms.all (fun d => d.ctx != x) &&
  s.dies.all (fun (_, d) => d.sysOut.all (fun e => !whoOf s x e.2.1) && d.chunkQ.all (fun c => !whoOf s x c.who) &&
    d.asks.all (fun a => !whoOf s x a.who)) &&
  (groupsOf s x).all (fun (c, g, z) =>
    let k := coreOf s c
    k.pause.all (fun e => e.1 != g) && z.warps.all (fun (_, y) => !isTrapping y) &&
    k.copies.all (fun q => q.gslot != g || q.waitPage.isSome || q.fault.isSome) && k.mq.all (fun q => q.gslot != g) &&
    k.drains.all (fun q => q.gslot != g))

/-- The page-walk records of a group's roles dropped; a role whose walk has been answered by a page request or a pull waits for the
page, and stands at its region's entry (R190). -/
def dropGroupWalks (s : State) (c g : Nat) : State :=
  let back := (dieOf s (dieOfCore c)).walks.filter (fun w => w.who.core == c && w.who.gslot == g && w.res == some .wait && w.restart)
  let s := back.foldl (fun s w => modSplit s w.who Split.restart) s
  dropWalksOf s c g

/-- A role taken out of a wait for a page: it stands at its region's entry, or at the instruction that retries (R190). -/
def leavePageWait (y : Warp) : Warp :=
  match y.run with
  | .pageWait _ _ slot restart _ _ =>
    let y := { y with run := .run }
    if restart then y.setSplit slot ((y.split slot).map Split.restart) else y
  | _ => y

/-- A waiting CALLOC.W is given up, to be issued again (R383); the other waits are kept (R165, R376). -/
def reissue (w : Option Wait) : Bool :=
  match w with
  | some (.calloc _ _ _ _ _ _) => true
  | _ => false

/-- A group as it is saved (R86 step 4). -/
def savedForm (g : Group) : Group :=
  let all := fun (y : Warp) => y.splits ++ (y.aside.map (fun a => a.splits)).getD []
  let g := g.warps.foldl (fun g (_, y) => (all y).foldl (fun g o => match o with
    | some q => if reissue q.wait then dropWait g q.wait else g
    | none => g) g) g
  let one := fun (y : Warp) =>
    let y := leavePageWait y
    let split := fun (q : Split) => { q with wait := if reissue q.wait then none else q.wait, acqs := [], blk := .none }
    { y with
      splits := y.splits.map (fun o => o.map split)
      aside := y.aside.map (fun a => { a with splits := a.splits.map (fun o => o.map split) })
      saved := false }
  { g with warps := g.warps.map (fun (w, y) => (w, one y)) }

/-- The tokens that are still to come to a role given another name (R86, R90): from `f`. -/
def renameToks (s : State) (f : Who → Who) : State :=
  let tok := fun (t : Option (Who × Nat)) => t.map (fun (w, k) => (f w, k))
  let dec := fun (d : Decoder) => { d with queue := d.queue.map (fun q => { q with tok := tok q.tok }) }
  let die := fun (d : Die) => { d with
    intakeQ := d.intakeQ.map (fun i => { i with tok := tok i.tok })
    decoders := d.decoders.map (fun (i, q) => (i, dec q)) }
  let port := fun (p : Port) => { p with toks := p.toks.map (fun (a, w, k) => (a, f w, k)) }
  { s with
    dies := s.dies.map (fun (d, k) => (d, die k))
    ports := s.ports.map (fun (n, p) => (n, port p)) }

/-- The copies of a group that have been abandoned, as they are recorded to replay from their start (R86 step 3). -/
def replayCopies (k : Core) (g : Nat) : List Copy :=
  (k.copies.filter (fun c => c.gslot == g)).map (fun c =>
    { c with waitPage := none, fault := none, done := [], asked := [], idx := if c.imem then [] else c.idx })

/-- What a core holds for the group in slot `g` passes to `h`. -/
def passHolder (k : Core) (g : Nat) (h : Holder) : Core :=
  { k with
    slots := k.slots.map (fun (i, o) => (i, if o.holder == .held g then { o with holder := h } else o))
    blocks := k.blocks.map (fun (i, b) => (i, if b.holder == .held g then { b with holder := h } else b)) }

/-- A resident group saved (R86 step 4, R87): its window, slots and blocks stay on the core, tagged with their owner. In
save-handler mode nothing is held lazily (R89): `early` is what the device saved before the handlers ran, of which it keeps what the
group still holds. -/
def saveGroup (s : State) (x c g : Nat) (k : Group) (early : Option SavedGroup) : State :=
  let core := coreOf s c
  let s := dropGroupWalks s c g
  let k := (groupAt s c g).getD k
  let sg : SavedGroup := {
    core := c
    gslot := g
    grp := savedForm k
    window := none
    slots := ((early.map (fun e => e.slots)).getD []).filter (fun (i, _) => (mapGet core.slots i OpSlot.reset).holder == .held g)
    blocks := ((early.map (fun e => e.blocks)).getD []).filter (fun (i, _) => (mapGet core.blocks i AccBlock.reset).holder == .held g)
    copies := replayCopies core g
    mrels := core.mrels.filter (fun m => m.gslot == g) }
  let win := if early.isSome then [] else (windowBlock c k).toList.map (fun (a, n) => (x, k.launch, k.gidx, a, n))
  let h : Holder := if early.isSome then .free else .lazy x k.launch k.gidx
  let s := modCore s c (fun q =>
    let q := passHolder q g h
    { releaseCore q g with groups := mapDel q.groups g, lazySram := q.lazySram ++ win })
  let s := renameToks s (fun w => if w.core == c && w.gslot == g then savedWho x k.launch k.gidx w.wid else w)
  modCtx s x (fun q => { q with saved := q.saved.filter (fun e => !(e.core == c && e.gslot == g)) ++ [sg] })

/-- The RO fields of every RCB written back (R78). -/
def writeBackTree (s : State) (x : Nat) : State :=
  (List.range (ctxOf s x).regions.length).foldl (fun s r => writeBackRcb s x r) s

/-! ### Teardown -/

/-- A combine slot freed without an event (R92, R179): it keeps its batch, GEN and counters till it is allocated again (R171, R180). -/
def dropCslot (c : CSlot) : CSlot := { c with st := .free, out := [], outQ := [], stgQ := [], waits := [] }

/-- A ring bound to a PASID that enters DRAINING stops (R105). -/
def stopRings (s : State) (pasid : Nat) : State :=
  let one := fun (r : Ring) => if r.pasid == pasid && r.st != .disabled then { r with st := .stopped } else r
  { s with rings := s.rings.map (fun (n, r) => (n, one r)) }

/-- A decoder without the submissions of a context (R452). -/
def dropSubs (x : Nat) (d : Decoder) : Decoder :=
  let mine := (d.queue.head?.map (fun q => q.ctx == x)).getD false
  let queue := d.queue.filter (fun q => q.ctx != x)
  { d with
    queue := queue
    job := if mine then none else d.job
    waitPage := if mine then none else d.waitPage
    past := if mine then 0 else d.past
    st := if mine then decIdle queue else d.st }

/-- A teardown begins (R92 steps 1 to 5). -/
def beginTeardown (s : State) (x : Nat) : State :=
  let p := (ctxOf s x).pasid
  let s := dropGroups s x (fun _ => true)
  let s := settleLazy (dropSaved s x (fun _ => true)) x
  let s := dropLaunches s x (fun _ => true)
  let s := faultAutomata s x (fun _ => true)
  let die := fun (d : Die) => { d with
    autos := d.autos.map (fun (i, a) => (i, if a.st != .free && a.ctx == x then Auto.reset else a))
    staged := d.staged.filter (fun e => e.ctx != x)
    cslots := d.cslots.map (fun (i, c) => (i, if c.st != .free && (c.batch.map (fun b => b.ctx == x)).getD false then dropCslot c else c))
    chunkQ := d.chunkQ.filter (fun k => !whoOf s x k.who)
    asks := d.asks.filter (fun a => !whoOf s x a.who)
    decoders := d.decoders.map (fun (i, q) => (i, dropSubs x q)) }
  let s := { s with
    dies := s.dies.map (fun (d, k) => (d, die k))
    decStreams := s.decStreams.filter (fun e => e.1 / 2 ^ 64 != x) }
  stopRings (modCtx s x (fun c => { c with st := .draining, stopHeld := false, resolveHeld := [] })) p

/-- Whether a store in flight comes from a group that is gone. -/
def orphan (s : State) (w : Who) : Bool := (groupAt s w.core w.gslot).isNone

/-- INVALIDATION_COMPLETE: the walks and pulls of a DRAINING PASID have ended and no translation of it is left; the context
and the PASID are FREE, and the packet completes (R92, R195). -/
def execInvalidationComplete (ctx : Nat) (s : State) : Out :=
  let c := ctxOf s ctx
  if c.st != .draining || s.pulls.any (fun p => p.pasid == c.pasid) || s.inflight.any (fun r => orphan s r.who) then .next s
  else
    let die := fun (d : Die) => { d with
      walkCache := d.walkCache.filter (fun e => e.1 != c.pasid)
      walks := d.walks.filter (fun w => w.pasid != c.pasid)
      launchCtr := mapDel d.launchCtr ctx }
    let s := { s with
      cores := s.cores.map (fun (n, k) => (n, { k with tlb := k.tlb.filter (fun e => e.pasid != c.pasid) }))
      dies := s.dies.map (fun (d, k) => (d, die k))
      pageReqs := s.pageReqs.filter (fun q => q.1 != c.pasid) }
    let s := completeOpen s ctx 2 0
    .next (modCtx s ctx (fun _ => Context.reset))

/-! ### The end of a save -/

/-- A root stop that was held until now (R85). -/
def heldStop (s : State) (x : Nat) : State :=
  let c := ctxOf s x
  match c.stopHeld, c.regions[0]? with
  | true, some k => stopRegion (modCtx s x (fun c => { c with stopHeld := false })) x 0 k.fcause k.flaunch (clockDie s x)
  | _, _ => s

/-- A role whose save handler starts (R89): one split with every lane at HANDLER, what it was doing set aside. -/
def startHandler (pc : W64) (wid : Nat) (y : Warp) : Warp :=
  if y.run == .exited || y.aside.isSome then y
  else
    let y := leavePageWait y
    let all := y.splits.filterMap id ++ (y.wlist ++ y.spilled).map (fun e => e.sp)
    let low := (sortBy (fun a b => Split.le a b) all).headD { pc := pc, mask := 0, fmt := 0, ctr := 0, entry := pc }
    let m := all.foldl (fun m q => m ||| q.mask) 0
    { y with
      aside := some {
        splits := y.splits
        wlist := y.wlist
        spilled := y.spilled
        parked := y.parked
        run := y.run
        halted := y.halted }
      splits := [some { low with pc := pc, mask := if wid < 32 then m else 1, entry := pc, hold := .none, wait := none, acqs := [], blk := .none }, none, none, none]
      wlist := []
      spilled := []
      parked := none
      run := .run
      halted := false
      pend := none
      saved := false }

/-- The save handlers started (R89): the device first saves the operand slots and the accumulator blocks of each group. An
abandoned copy stays with its group until the save, so that what waits for its end still waits (R150, R332). -/
def startHandlers (s : State) (x : Nat) : State :=
  let pc := (ctxOf s x).handler
  let s := (groupsOf s x).foldl (fun s (c, g, k) =>
    let core := coreOf s c
    let sg : SavedGroup := {
      core := c
      gslot := g
      grp := k
      window := none
      slots := core.slots.filter (fun (_, o) => o.holder == .held g)
      blocks := core.blocks.filter (fun (_, b) => b.holder == .held g)
      copies := []
      mrels := [] }
    modCtx s x (fun q => { q with saved := q.saved ++ [sg] })) s
  let s := mapWarps s (fun _ _ g w y => if g.ctx == x then startHandler pc w y else y)
  modCtx s x (fun c => { c with handlers := true })

/-- Whether every role of a context has ended its save handler (R89). -/
def handlersDone (s : State) (x : Nat) : Bool :=
  (groupsOf s x).all (fun (_, _, g) => g.warps.all (fun (_, y) => y.run == .exited || y.saved))

/-- The state after a unit's step, which always has one. -/
def afterStep (s : State) (o : Out) : State :=
  match o with
  | .next t => t
  | _ => s

/-- RETIRING groups that may go are freed before a save (R150). -/
def freeRetired (s : State) (x : Nat) : State := (groupsOf s x).foldl (fun s (c, g, _) => afterStep s (execGroupSlotFree c g s)) s

/-- The save done (R86 steps 4 and 5): the groups, the header, the RCBs; then the packets and what was held. -/
def finishSave (s : State) (x : Nat) : State :=
  let sh := (ctxOf s x).shmode
  let s := freeRetired s x
  let s := (groupsOf s x).foldl (fun s (c, g, k) =>
    let early := (ctxOf s x).saved.find? (fun e => e.core == c && e.gslot == g)
    saveGroup s x c g k (if sh then early else none)) s
  let (n, s) := freshFree s
  let s := modCtx s x (fun c => { c with
    st := .saved
    handlers := false
    saved := c.saved.filter (fun e => e.grp.warps.any (fun (_, y) => y.run != .exited) || !e.copies.isEmpty)
    layout := s.fw.layout
    lazy := s.cores.any (fun (_, k) => lazyOn k x)
    usedkib := n % (c.savesize + 1) })
  let s := writeBackTree (writeArea (settleOwned s x none) x true) x
  let s := completeOpen s x 0 0
  let s := heldStop s x
  if awaits s x 2 then beginTeardown s x else s

/-- SAVE_COMPLETE: the save of a context goes on, once step 3 of R86 is done: in save-handler mode the handlers start and
must end first (R89); then the context is SAVED (R85, R86, R88). -/
def execSaveComplete (ctx : Nat) (s : State) : Out :=
  let c := ctxOf s ctx
  if c.st != .saving || !drained s ctx then .next s
  else if !c.shmode then .next (finishSave s ctx)
  else if !c.handlers then .next (startHandlers s ctx)
  else if handlersDone s ctx then .next (finishSave s ctx)
  else .next s

/-- SLICE_EXPIRY: the time slice of a context ends (R85); while a warp of it is HALTED it is kept until RELEASE (R430). The slice
counts from CREATE, from the end of a resume and from a REGION_RESET of region 0 (notes/assumptions/24.md). -/
def execSliceExpiry (ctx : Nat) (s : State) : Out :=
  let c := ctxOf s ctx
  if c.st != .resident || c.slice = 0 || (dieOf s (clockDie s ctx)).cycle < c.sliceAt + c.slice * 1024 then .next s
  else if (groupsOf s ctx).any (fun (_, _, g) => g.warps.any (fun (_, y) => y.halted)) then
    .next (mapWarps s (fun _ _ g _ y => if g.ctx == ctx && y.halted then { y with expiryHeld := true } else y))
  else .next (beginSave s ctx)

/-! ### Lazily held state -/

/-- LAZY_WRITE_OUT_COMPLETE: the lazily held state of a context on a core, which a claim or the compactor needs, is written out and
handed over (R87). -/
def execLazyWriteOutComplete (core ctx : Nat) (s : State) : Out :=
  .next (if (coreOf s core).claimed.contains ctx then writeOut s core ctx else s)

/-! ### Resume -/

/-- The operand slots and accumulator blocks that a saved group held. -/
def claimsOf (s : State) (x : Nat) (g : SavedGroup) : List Nat × List Nat :=
  let k := coreOf s g.core
  let mine := fun (h : Holder) => h == .lazy x g.grp.launch g.grp.gidx
  (distinct ((k.slots.filter (fun (_, o) => mine o.holder)).map (fun e => e.1) ++ g.slots.map (fun e => e.1)),
   distinct ((k.blocks.filter (fun (_, b) => mine b.holder)).map (fun e => e.1) ++ g.blocks.map (fun e => e.1)))

/-- Whether a holder stands in the way of a saved group on a core. -/
def inWay (h : Holder) : Bool :=
  match h with
  | .held _ => true
  | _ => false

/-- Where a saved group goes on a core (R90, R146): as a new group, its window and claims in place where they are still held
for it. -/
def fitsSaved (s : State) (c x : Nat) (g : SavedGroup) : Option Place :=
  let k := coreOf s c
  let t := g.grp.tmpl
  let (sl, bl) := claimsOf s x g
  let here := fun (e : Nat × Nat × Nat × Nat × Nat) => e.1 == x && e.2.1 == g.grp.launch && e.2.2.1 == g.grp.gidx
  if k.dead || sl.any (fun i => inWay (mapGet k.slots i OpSlot.reset).holder) ||
      bl.any (fun i => inWay (mapGet k.blocks i AccBlock.reset).holder) then none
  else match (List.range 32).find? (fun i => (mapFind k.groups i).isNone) with
    | none => none
    | some gslot =>
      if t.mthread && (k.groups.filter (fun (_, g) => g.tmpl.mthread)).length ≥ 8 then none
      else
        let room := fun (live : List (Nat × Nat)) => (buddyAlloc 1024 live (orderOf (sramKib t / 4))).map (fun a => sliceBase c + a * 4096)
        let sram := if sramKib t = 0 || k.lazySram.any here then some g.grp.sbase
          else match room (liveSram s c) with
            | some b => some b
            | none => room (heldSram s c)
        let ws := (g.grp.warps.filter (fun (w, y) => w != 64 && y.run != .exited)).map (fun e => e.1)
        match sram, placeWarps k t ws with
        | some b, some ps => some { gslot := gslot, sbase := b, parts := ps }
        | _, _ => none

/-- The lazily held state of others written out where a saved group needs the room (R87). -/
def clearWay (s : State) (c x : Nat) (g : SavedGroup) (p : Place) : State :=
  let k := coreOf s c
  let mine := k.lazySram.any (fun e => e.1 == x && e.2.1 == g.grp.launch && e.2.2.1 == g.grp.gidx)
  let s := if mine || sramKib g.grp.tmpl = 0 then s
    else (lazyOwners k ((p.sbase - sliceBase c) / 4096) (sramKib g.grp.tmpl / 4)).foldl (fun s q => writeOut s c q) s
  let (sl, bl) := claimsOf s x g
  let hs := sl.map (fun i => (mapGet k.slots i OpSlot.reset).holder) ++ bl.map (fun i => (mapGet k.blocks i AccBlock.reset).holder)
  hs.foldl (fun s h => match h with
    | .lazy q l i => if q == x && l == g.grp.launch && i == g.grp.gidx then s else writeOut s c q
    | _ => s) s

/-- The registers of a role that the reload handler will fill: until it does they hold values the manual does not give
(R89, notes/assumptions/5.md). -/
def freeRegs (n ctr : Nat) : SMap (List W32) :=
  (List.range n).map (fun r => (r, (List.range 32).map (fun l => (Sys2Proof.Config.freeValue (ctr + 32 * r + l)).setWidth 32)))

/-- A split that waits in an instruction it has issued publishes again what it waits for (R145, R165). -/
def Split.resumed (x : Split) : Split :=
  match x.wait with
  | some (.stg _ _ _ _ _ _ _) => { x with blk := .groupRoles }
  | some (.mbarw _ _ _ _ _ _) => { x with blk := .dispatcher }
  | some (.evwait n _ _ _) => { x with blk := .launches n }
  | some (.cwait _) => { x with blk := .copyWarps }
  | some _ => { x with blk := .nothing }
  | none => x

/-- The roles of a saved group as they stand when it has been placed (R89, R90). In save-handler mode the predicates, the condition
registers and FMT are what the handler left (notes/assumptions/56.md). -/
def resumedWarps (c : Context) (g : SavedGroup) (p : Place) (ctr now : Nat) : SMap Warp :=
  g.grp.warps.map (fun (w, y) =>
    let y := match p.parts.find? (fun e => e.1 == w) with
      | some (_, part, rbase) => { y with part := part, rbase := rbase }
      | none => y
    let y := { y with saved := false, blockedAt := now, splits := y.splits.map (fun o => o.map Split.resumed) }
    if y.aside.isSome && y.run != .exited then
      (w, { y with
        vregs := if w < 32 then freeRegs (g.grp.tmpl.vregs + 1) (ctr + 16384 * w) else []
        splits := [((y.splits.findSome? id)).map (fun q => { q with pc := c.handler + 8, entry := c.handler + 8, hold := .none, wait := none, blk := .none }), none, none, none] })
    else (w, y))

/-- The EVWAITs of a placed group tested against the records of their streams (R376). -/
def retestEvwaits (s : State) (c g : Nat) : State :=
  match groupAt s c g with
  | none => s
  | some k => k.warps.foldl (fun s (w, y) => (List.range 4).foldl (fun s i =>
      match (y.split i).bind (fun q => q.wait) with
      | some (.evwait st thr _ id) =>
        let who : Who := { core := c, gslot := g, wid := w, slot := i }
        match (streamOf s st).latest with
        | some e => if evMeets e thr then wakeSplit (fillEvent s who id e) who 1 else s
        | none => s
      | _ => s) s) s

/-- A RESOLVE applied to a TRAPPED role (R432): 0 RETRY, 1 SKIP, 2 GOTO, 3 RESTART, 4 KILL. -/
def resolveWarp (s : State) (c g w act : Nat) (target : W64) : State :=
  match groupAt s c g, warpAt s c g w with
  | some k, some y => match y.run with
    | .trapped r words i =>
      let who : Who := { core := c, gslot := g, wid := w, slot := r.split }
      match act with
      | 0 => resumeTrapped s c g w (fun r _ => r.pc)
      | 1 => resumeTrapped s c g w (fun r n => r.pc + BitVec.ofNat 64 (8 * n))
      | 2 =>
        let s := resumeTrapped s c g w (fun _ _ => target)
        if target.toNat % 8 != 0 then takeTrap s who .align r.lanes target.toNat 0 words
        else if !userVa target.toNat then takeTrap s who .pageProtection r.lanes target.toNat 3 words
        else s
      | 3 => resumeTrapped s c g w (fun r _ => r.entry)
      | _ => regionFault (freeRecord s k.ctx i) k.ctx k.region r.cause.code k.launch (dieOfCore c)
    | _ => s
  | _, _ => s

/-- A RESOLVE applied to a role, or to what it was doing when its save handler was started (R432, R89). -/
def resolveRole (s : State) (c g w act : Nat) (target : W64) : State :=
  match warpAt s c g w with
  | none => s
  | some y => match y.aside with
    | none => resolveWarp s c g w act target
    | some _ =>
      let s := resolveWarp (modWarp s c g w endReload) c g w act target
      modWarp s c g w (fun z => { y with aside := some {
        splits := z.splits
        wlist := z.wlist
        spilled := z.spilled
        parked := z.parked
        run := z.run
        halted := z.halted } })

/-- Whether a role is TRAPPED, or was when its save handler was started. -/
def isTrapped (y : Warp) : Bool :=
  let t := fun (r : RunState) => match r with
    | .trapped _ _ _ => true
    | _ => false
  t y.run || (y.aside.map (fun a => t a.run)).getD false

/-- A window's lines with nothing left of what their block held before (R69, R435), and the poison its own lines bring. -/
def ownLines (s : State) (base n : Nat) (poisoned : List Nat) : State :=
  { s with
    stale := s.stale.filter (fun e => !(base / 8 ≤ e.1 && e.1 < base / 8 + n / 8))
    poison := s.poison.filter (fun l => !(base / 128 ≤ l && l < base / 128 + n / 128)) ++ poisoned.map (fun i => base / 128 + i) }

/-- A group whose operand slots or blocks a lasting error had poisoned while they were held for it raises POISON as it is reloaded
(R435, notes/assumptions/138.md). -/
def raiseLost (s : State) (c gslot : Nat) (bad : Bool) : State :=
  match bad, groupAt s c gslot with
  | true, some g => regionFault s g.ctx g.region Cause.poison.code g.launch (dieOfCore c)
  | _, _ => s

/-- A saved group placed on a core at a place (R90), what stands in its way having been written out; a partition that is
CORE-GATED wakes for it (R460, R461). -/
def restoreAt (s : State) (c x : Nat) (g : SavedGroup) (p : Place) : State :=
  let old := coreOf s g.core
  let mine := fun (h : Holder) => h == .lazy x g.grp.launch g.grp.gidx
  let here := fun (e : Nat × Nat × Nat × Nat × Nat) => e.1 == x && e.2.1 == g.grp.launch && e.2.2.1 == g.grp.gidx
  let slots := (old.slots.filter (fun (_, o) => mine o.holder)) ++ g.slots
  let blocks := (old.blocks.filter (fun (_, b) => mine b.holder)) ++ g.blocks
  let lost := slots.any (fun e => e.2.bad) || blocks.any (fun e => e.2.bad)
  let inPlace := old.lazySram.any here
  let window := if inPlace then some (memGetBytes s.mem g.grp.sbase g.grp.tmpl.sramsz) else g.window
  let bad := if inPlace then poisonedIn s g.grp else g.poisoned
  let s := modCore s g.core (fun k => { k with
    lazySram := k.lazySram.filter (fun e => !here e)
    slots := k.slots.map (fun (i, o) => (i, if mine o.holder then { o with holder := .free, bad := false } else o))
    blocks := k.blocks.map (fun (i, b) => (i, if mine b.holder then { b with holder := .free, bad := false } else b)) })
  let cx := ctxOf s x
  let ctr := s.freeCtr
  let s := { s with freeCtr := s.freeCtr + 16384 * 65 }
  let grp := { g.grp with sbase := p.sbase, warps := resumedWarps cx g p ctr (dieOf s (dieOfCore c)).cycle }
  let s := modCore s c (fun k => { seatGroup k p.gslot grp with
    slots := slots.foldl (fun m (i, o) => mapSet m i { o with holder := .held p.gslot, bad := false }) k.slots
    blocks := blocks.foldl (fun m (i, b) => mapSet m i { b with holder := .held p.gslot, bad := false }) k.blocks
    copies := k.copies ++ g.copies.map (fun q => { q with gslot := p.gslot })
    mrels := k.mrels ++ g.mrels.map (fun m => { m with gslot := p.gslot }) })
  let s := modPart s cx.part (fun q => { q with pwr := if q.pwr = 1 then 0 else q.pwr })
  let s := ownLines s p.sbase (sramKib g.grp.tmpl * 1024) bad
  let s := match window with
    | some bs => { s with mem := memSetBytes s.mem p.sbase bs }
    | none => s
  let s := l1Clear s c
  let s := (g.grp.warps.map (fun e => e.1)).foldl (fun s w => renameToks s (fun q =>
    if q == savedWho x g.grp.launch g.grp.gidx w then { core := c, gslot := p.gslot, wid := w, slot := 0 } else q)) s
  let held := cx.resolveHeld.filter (fun e => bitsOf e.2.toNat 56 8 == g.core && bitsOf e.2.toNat 51 5 == g.gslot)
  let s := modCtx s x (fun q => { q with
    saved := q.saved.filter (fun e => !(e.core == g.core && e.gslot == g.gslot))
    resolveHeld := q.resolveHeld.filter (fun e => !held.contains e) })
  let s := wakeDone (retestEvwaits (settleLazy s x) c p.gslot) c p.gslot
  let s := held.foldl (fun s e => resolveRole s c p.gslot (bitsOf e.2.toNat 44 7) (bitsOf e.2.toNat 128 3) (BitVec.ofNat 64 (e.2.toNat / 2 ^ 192))) s
  raiseLost s c p.gslot lost

/-- A saved group placed on a core where it was found to fit (R90). What stands in its way is written out first (R87); it is placed there
if the room has not gone to a claim that waited for it. -/
def restoreGroup (s : State) (c x : Nat) (g : SavedGroup) (p : Place) : State :=
  let s := clearWay s c x g p
  match (ctxOf s x).saved.find? (fun e => e.core == g.core && e.gslot == g.gslot) with
  | some g => if fitsSaved s c x g == some p then restoreAt s c x g p else s
  | none => s

/-- A core's claims on what it holds lazily for a context come before the context's resume (R87): it is written out, and the groups and
the compactors that wait for the room have it. -/
def claimsFirst (s : State) (x : Nat) : State :=
  let cores := (s.cores.filter (fun e => e.2.claimed.contains x)).map (fun e => e.1)
  let s := cores.foldl (fun s c => writeOut s c x) s
  let place := fun (s : State) => cores.foldl (fun s c => afterStep s (execGroupPlace c s)) s
  let det := fun (s : State) => (s.ctxs.flatMap (fun (y, c) => (List.range c.regions.length).map (fun r => (y, r)))).foldl
    (fun s e => afterStep s (execDetDispatch e.1 e.2 s)) s
  if cores.isEmpty then s
  else det (place (cores.foldl (fun s c => afterStep s (execCompactorMove c s)) (det (place s))))

/-- The saved groups of a context placed, each on its own core if it fits there, else on the lowest that it fits (R90); on none whose
compactor is at work (R87), and none while the core clocks stand (R460). -/
def placeSaved (s : State) (x : Nat) : State :=
  if s.power != .d0 then s else
  let s := claimsFirst s x
  ((ctxOf s x).saved.map (fun g => (g.core, g.gslot))).foldl (fun s key =>
    match (ctxOf s x).saved.find? (fun g => (g.core, g.gslot) == key) with
    | none => s
    | some g => match (g.core :: coresOf s (ctxOf s x).part).findSome? (fun c =>
        if coreServes s c x && (coreOf s c).pause.isEmpty then (fitsSaved s c x g).map (fun p => (c, p)) else none) with
    | some (c, p) => restoreGroup s c x g p
    | none => s) s

/-- A resume begins (R90). -/
def beginResume (s : State) (x : Nat) : State := placeSaved (modCtx s x (fun c => { c with st := .resuming })) x

/-- RESUME_COMPLETE: once every saved group has been placed and reloaded the context is RESIDENT (R85, R90), and what was
held until then follows. -/
def execResumeComplete (ctx : Nat) (s : State) : Out :=
  if (ctxOf s ctx).st != .resuming then .next s
  else
    let s := placeSaved s ctx
    if !(ctxOf s ctx).saved.isEmpty || (groupsOf s ctx).any (fun (_, _, g) => g.warps.any (fun (_, y) => y.aside.isSome && y.run != .exited)) then
      .next s
    else
      let now := (dieOf s (clockDie s ctx)).cycle
      let was := (ctxOf s ctx).lazy
      let s := modCtx s ctx (fun c => { c with st := .resident, sliceAt := now, lazy := false })
      let s := if was then writeArea s ctx false else s
      let s := completeOpen s ctx 1 0
      let s := heldStop s ctx
      if !awaits s ctx 0 then .next s
      else if (ctxOf s ctx).st == .resident then .next (beginSave s ctx)
      else .next (completeOpen s ctx 0 5)

/-! ### Firmware activation -/

/-- Whether a SAVED context holds a layout that an image cannot convert (R91). -/
def layoutBlocks (s : State) (layouts : Nat) : Bool :=
  s.ctxs.any (fun (_, c) => c.st == .saved && !layouts.testBit c.layout)

/-- The staged firmware put in force, if nothing blocks it (R91). It is a release 1.x, the firmware the manual describes, and writes
layout 3 (R88). -/
def activate (s : State) : State :=
  match s.fw.staged with
  | none => s
  | some (v, svn, ls) =>
    if layoutBlocks s ls then { s with fw := { s.fw with pending := true } }
    else
      { s with fw := { version := v, svn := svn, layouts := ls, layout := 3, staged := none, pending := false } }

/-- FIRMWARE_ACTIVATION: a pending activation proceeds when no SAVED context stands in its way (R91). -/
def execFirmwareActivation (s : State) : Out := .next (if s.fw.pending then activate s else s)

end Sys2Proof.Machine
end

