-- ==== Sys2Proof/Machine/Cycle.lean ====
section
/-!
DEFINITION. The cycle of a die (R97): what the units do at its end, and what begins anew with it.
-/
namespace Sys2Proof.Machine

/-- The groups of the cores of a die: core, group slot. -/
def groupsOfDie (s : State) (die : Nat) : List (Nat × Nat) :=
  ((residents s).filter (fun e => dieOfCore e.1 == die)).map (fun e => (e.1, e.2.1))

/-- What the waits of a die's groups are found to be after every update of a cycle: STGWAITs (R163, R165), EVWAITs (R376). -/
def endWaits (s : State) (die : Nat) : State :=
  (groupsOfDie s die).foldl (fun s (c, g) => retestEvwaits (evalStages s c g) c g) s

/-- A new cycle of a die's cores: every partition and MSQ may issue again, and every split is looked at again (R17, R142). -/
def newTurns (s : State) (die : Nat) : State :=
  let one := fun (k : Core) => { k with turn := [], tried := [], ranks := [], fills := [], freedNow := [] }
  { s with cores := s.cores.map (fun (c, k) => (c, if dieOfCore c == die then one k else k)) }

/-- The NAKs that have come to the ports of a die in its cycle act (R200, R201). -/
def endNaks (s : State) (die : Nat) : State :=
  ((s.ports.map (fun e => e.1)).filter (fun p => dieOfPort p == die)).foldl endNak s

/-- What the units of a die do at the end of its cycle (R20, R110, R111, R142, R163, R174, R179, R201, R378). -/
def endCycle (s : State) (die : Nat) : State :=
  newTurns (endAutos (endIntake (endNaks (endWaits (endCistern (endQueues s die) die) die) die) die) die) die

/-- The next cycle of a die begins: its counter steps, and every OPEN stream of its DIECYCLE domains is raised to it (R97). -/
def newCycle (s : State) (die : Nat) : State :=
  let cycle := ((dieOf s die).cycle + 1) % 2 ^ 64
  let s := modDie s die (fun d => { d with cycle := cycle, intook := false })
  let mine := fun (n : Nat) => (domOf s n).cfg && (domOf s n).kind == .diecycle && (domOf s n).die == die
  let up := fun (t : Stream) => if t.st == .open_ && mine t.dom then { t with last := Nat.max t.last cycle } else t
  let s := { s with streams := s.streams.map (fun (n, t) => (n, up t)) }
  (s.domains.map (fun e => e.1)).foldl (fun s n => if mine n then refreshDom s n else s) s

/-- DIECYCLE_ADVANCE: a cycle of a die ends and the next begins (R97); in D3HOT and D3COLD the die counters stand (R460). -/
def execDiecycleAdvance (die : Nat) (s : State) : Out :=
  .next (if s.power == .d3hot || s.power == .d3cold then s else newCycle (endCycle s die) die)

end Sys2Proof.Machine
end

