-- ==== Sys2Proof/Machine/Wellhead.lean ====
section
/-!
DEFINITION. The Wellhead: partition and ring registers (R454, R457, R7), rings (R103-R105), and the ring packets (R101, R102,
R77-R85, R90, R92, R94-R96, R99, R485, R416).
-/
namespace Sys2Proof.Machine

/-! ### Rings -/

/-- The packets a ring holds (R457). -/
def Ring.capacity (r : Ring) : Nat := 2 ^ (r.logsz + 6)

/-- Whether a ring has packets that have not been started (R105). -/
def Ring.hasWork (r : Ring) : Bool := r.tail % r.capacity != r.head

/-- The partition that a ring is served for (R457): the enabled one whose FEMASK holds its front end. -/
def ringPart (s : State) (ring : Nat) : Option Nat :=
  (List.range 16).find? (fun p => (partOf s p).en && (partOf s p).femask.testBit (ringOf s ring).fe)

/-- Whether a ring's function is enabled, which makes it a shadow ring (R104, R457). -/
def isShadow (s : State) (ring : Nat) : Bool := (partOf s (ring / 4)).vf

/-- An IDLE ring whose tail is not its head runs (R105). -/
def wakeRing (r : Ring) : Ring := if r.st == .idle && r.hasWork then { r with st := .running } else r

/-- RING_DOORBELL: a write of a ring's TAIL (R105, R457); only the PF's counts. -/
def execRingDoorbell (fn ring : Nat) (tail : BitVec 16) (s : State) : Out :=
  if fn != 0 || ring ≥ 64 || s.power == .d3cold then .next s else .next (modRing s ring (fun r => wakeRing { r with tail := tail.toNat }))

/-- RING_ENABLE: EN written from 0 to 1 (R105, R457). -/
def execRingEnable (fn ring : Nat) (s : State) : Out :=
  if fn != 0 || ring ≥ 64 || s.power == .d3cold || (ringOf s ring).en then .next s
  else .next (modRing s ring (fun r =>
    wakeRing { r with en := true, st := if r.st == .disabled || r.st == .stopped then .idle else r.st }))

/-- REGISTER_WRITE: the fields of a ring register with no behaviour of their own: BASE, PASID, FE, LOGSZ, and EN written 0
(R7, R457). HEAD and SHADOW are read-only, TAIL and EN's rise have steps of their own. -/
def execRegisterWrite (fn ring : Nat) (v : BitVec 128) (s : State) : Out :=
  if fn != 0 || ring ≥ 64 || s.power == .d3cold then .next s
  else
    let x := v.toNat
    .next (modRing s ring (fun r => { r with
      base := bitsOf x 64 64
      pasid := bitsOf x 12 20
      fe := bitsOf x 8 4
      logsz := bitsOf x 4 4
      en := r.en && x.testBit 0 }))

/-- VF_ENABLE: a virtual function enabled or disabled; its four rings are shadow rings while it is enabled (R456, R457). -/
def execVfEnable (v : Nat) (on : Bool) (s : State) : Out :=
  if v ≥ 16 || s.power == .d3cold then .next s
  else
    let s := modPart s v (fun p => { p with vf := on })
    .next ((List.range 4).foldl (fun s i => modRing s (4 * v + i) (fun r => { r with shadow := on })) s)

/-! ### Partition registers -/

/-- The fields of a partition register that a write sets (R454). -/
def partWritten (p : Part) (x : Nat) : Part :=
  { p with
    base := bitsOf x 0 8
    limit := bitsOf x 8 8
    en := x.testBit 16
    femask := bitsOf x 64 16
    colours := bitsOf x 80 16
    decmask := bitsOf x 96 32 }

/-- A partition register as it reads (R454): its reserved bits are 0. -/
def Part.bits (p : Part) : Nat :=
  p.decmask * 2 ^ 96 + p.colours * 2 ^ 80 + p.femask * 2 ^ 64 + p.pwr * 2 ^ 56 + p.dbg * 2 ^ 54 + p.sec * 2 ^ 52 +
  (if p.en then 2 ^ 16 else 0) + p.limit * 2 ^ 8 + p.base

/-- Whether two enabled partitions keep apart (R454). -/
def partsApart (a b : Part) : Bool :=
  !(a.en && b.en) || ((a.limit < b.base || b.limit < a.base) && (a.femask &&& b.femask) == 0 && (a.decmask &&& b.decmask) == 0)

/-- A measurement extended with some data (R464). -/
def extended (m : BitVec 384) (data : List Byte) : BitVec 384 :=
  Sys2Proof.Config.sha384 (bytesLE 48 m.toNat ++ bytesLE 48 (Sys2Proof.Config.sha384 data).toNat)

/-- A measurement extended on every die (R464). -/
def extendMeas (s : State) (i : Nat) (data : List Byte) : State :=
  (List.range 4).foldl (fun s d => modDie s d (fun k => { k with meas := listSet k.meas i (extended (k.meas.getD i 0) data) })) s

/-- Whether a decoder is bound to an enabled partition (R453, R454). -/
def decBound (s : State) (die dec : Nat) : Bool :=
  (List.range 16).any (fun p => (partOf s p).en && (partOf s p).decmask.testBit (8 * die + dec))

/-- The decoders brought into line with the partitions (R453): a decoder that is bound becomes IDLE, one that no longer is
becomes DISABLED. -/
def bindDecoders (s : State) : State :=
  (List.range 32).foldl (fun s i =>
    let d := decOf s (i / 8) (i % 8)
    if decBound s (i / 8) (i % 8) then
      (if d.st == .disabled then modDec s (i / 8) (i % 8) (fun d => { d with st := .idle }) else s)
    else if d.st == .disabled then s
    else modDec s (i / 8) (i % 8) (fun _ => Decoder.reset)) s

/-- PARTITION_REGISTER_WRITE: discarded whole while a context of the partition is not FREE, or where the result breaks R454;
an enabling is measured, for the device and for the partition (R464). -/
def execPartitionRegisterWrite (p : Nat) (v : BitVec 128) (s : State) : Out :=
  let x := v.toNat
  let old := partOf s p
  let new := partWritten old x
  let busy := s.ctxs.any (fun (_, c) => c.st != .free && c.part == p)
  if p ≥ 16 || s.power == .d3cold || busy || new.base > new.limit || !((List.range 16).all (fun q => q == p || partsApart new (partOf s q))) then .next s
  else
    let s := modPart s p (fun _ => new)
    let s := if new.en && !old.en then
        modPart (extendMeas s 4 (bytesLE 16 new.bits)) p (fun q => { q with meas5 := extended q.meas5 (bytesLE 16 new.bits) })
      else s
    .next (bindDecoders s)

/-! ### Packets -/

/-- The status codes of R102. -/
def stOk : Nat := 0
/-- No slot is free. -/
def stNoSlot : Nat := 1
/-- Malformed. -/
def stMalformed : Nat := 2
/-- The PASID is in use. -/
def stPasidBusy : Nat := 3
/-- The save area is too short. -/
def stSaveShort : Nat := 4
/-- The state does not allow it. -/
def stBadState : Nat := 5
/-- Not permitted. -/
def stPriv : Nat := 6
/-- No such operation. -/
def stBadOp : Nat := 7
/-- STEP: the split is not ready. -/
def stBlocked : Nat := 8

/-- A packet that completes at once (R102). -/
def packetDone (s : State) (k : Pkt) (status result : Nat) : State := ringDone s k.ring k.tag k.caddr status result

/-- A packet started (R102-R105): a BARRIER packet waits for the earlier ones; one with a misaligned CADDR is refused without a
completion; a reserved bit, `bad` operands, or a control packet on a shadow ring are refused, in this order
(notes/assumptions/108.md). A control packet stays open while no firmware core leads (R463, R465). Nothing is fetched in D3HOT and D3COLD (R460, R461). `f` is told
the partition. -/
def withPacket (k : Pkt) (control bad : Bool) (s : State) (f : Nat → State → State) : Out :=
  match ringPart s k.ring with
  | none => .next s
  | some p =>
    let r := ringOf s k.ring
    if r.st == .disabled || r.st == .stopped || !(s.power == .d0 || s.power == .dieRetain) then .next s
    else if k.barrier && r.open_ != 0 then .next (modRing s k.ring (fun r => { r with st := .waiting }))
    else if k.caddr.toNat % 8 != 0 then .next s
    else
      let s := modRing s k.ring (fun r => { r with open_ := r.open_ + 1 })
      if control && fwDown s then .next s
      else if k.rsv || bad then .next (packetDone s k stMalformed 0)
      else if control && isShadow s k.ring then .next (packetDone s k stPriv 0)
      else .next (f p s)

/-- A packet that names a context: PRIV when it belongs to another partition, BAD_STATE when it is FREE (R85, R457). -/
def withContext (k : Pkt) (bad : Bool) (s : State) (f : Nat → State → State) : Out :=
  withPacket k true bad s (fun p s =>
    let x := bitsOf k.payload.toNat 0 8
    let c := ctxOf s x
    if c.st == .free then packetDone s k stBadState 0
    else if c.part != p then packetDone s k stPriv 0
    else f x s)

/-- A packet that completes when its context reaches a state (R101). -/
def waitFor (s : State) (x code : Nat) (k : Pkt) : State :=
  modCtx s x (fun c => { c with open_ := c.open_ ++ [(code, k.ring, k.tag, k.caddr)] })

/-- POST_EVENT: the record goes to its stream's PLU, in class 4 of R20, as a record with a .sys release (R95, R101, R102, R416);
the packet completes when it has entered intake. A record of a stream that is bound to no domain goes to die 0's PLU
(notes/assumptions/132.md). -/
def execPostEvent (k : Pkt) (s : State) : Out :=
  let v := k.payload.toNat
  let e := eventOfBits v
  withPacket k false (!eventRsvOk v || e.kind.toNat ≥ 0xE0) s (fun p s =>
    let t := streamOf s e.stream.toNat
    if t.st == .open_ && (ctxOf s t.ctx).part != p then packetDone s k stPriv 0
    else
      let dst := dieOfStream s e.stream.toNat 0
      let i : Intake := {
        cls := 4
        key := k.ring
        marker := false
        ev := { e with remote := false, hostRel := true }
        emitter := none
        tok := none
        port := none
        done := some (k.ring, k.tag, k.caddr)
        at_ := (dieOf s dst).cycle }
      modDie s dst (fun d => { d with intakeQ := d.intakeQ ++ [i] }))

/-- The lowest FREE context number (R77). -/
def freeCtx (s : State) : Option Nat := (List.range 256).find? (fun i => (ctxOf s i).st == .free)

/-- The least size in KiB of the save area of a context whose root RCB is `r`, in a partition of `n` cores (R77). -/
def saveMin (r : Rcb) (n : Nat) : Nat := 64 + r.regkib + r.sramkib + 2 * r.groups + 2048 * n

/-- CREATE (R75-R79); the save area keeps its bytes until the first save (R88, notes/assumptions/106.md). -/
def execCreate (k : Pkt) (s : State) : Out :=
  withPacket k true (bitsOf k.payload.toNat 64 192 != 0) s (fun p s =>
    let a := bitsOf k.payload.toNat 0 64
    let v := memNat s.mem a 64
    let c := newContext v []
    if c.part != p then packetDone s k stPriv 0
    else match freeCtx s with
      | none => packetDone s k stNoSlot 0
      | some x =>
        if inHole a || !descOk v then packetDone s k stMalformed 0
        else match readTree s c.rcbbase (c.nregions + 1) with
          | none => packetDone s k stMalformed 0
          | some rs =>
            let r := rs.getD 0 (rcbOf 0)
            let n := (coresOf s p).length
            if (ctxOfPasid s c.pasid).isSome then packetDone s k stPasidBusy 0
            else if c.savesize < saveMin r n then packetDone s k stSaveShort 0
            else
              let s := modCtx s x (fun _ => newContext v rs)
              let s := modCtx s x (fun c => { c with sliceAt := (dieOf s (clockDie s x)).cycle, logMin := saveMin r n })
              packetDone (writeBackTree s x) k stOk x)

/-- PREEMPT (R85, R86): completes when the context is SAVED. -/
def execPreempt (k : Pkt) (s : State) : Out :=
  withContext k (bitsOf k.payload.toNat 8 248 != 0) s (fun x s =>
    match (ctxOf s x).st with
    | .resident => beginSave (waitFor s x 0 k) x
    | .resuming => waitFor s x 0 k
    | _ => packetDone s k stBadState 0)

/-- RESUME (R85, R90): completes when the context is RESIDENT. -/
def execResume (k : Pkt) (s : State) : Out :=
  withContext k (bitsOf k.payload.toNat 8 248 != 0) s (fun x s =>
    match (ctxOf s x).st with
    | .saved => beginResume (waitFor s x 1 k) x
    | _ => packetDone s k stBadState 0)

/-- TEARDOWN (R85, R92): completes when the context is FREE. -/
def execTeardown (k : Pkt) (s : State) : Out :=
  withContext k (bitsOf k.payload.toNat 8 248 != 0) s (fun x s =>
    match (ctxOf s x).st with
    | .resident => beginTeardown (waitFor s x 2 k) x
    | .stopped => beginTeardown (waitFor s x 2 k) x
    | .saved => beginTeardown (waitFor s x 2 k) x
    | .saving => waitFor s x 2 k
    | _ => packetDone s k stBadState 0)

/-- REGION_UPDATE (R79, R81, R85): the RCBs are read again; a tree that is not well formed leaves the old one in force. -/
def execRegionUpdate (k : Pkt) (s : State) : Out :=
  withContext k (bitsOf k.payload.toNat 8 248 != 0) s (fun x s =>
    let c := ctxOf s x
    if !(c.st == .resident || c.st == .saved || c.st == .stopped) then packetDone s k stBadState 0
    else match readTree s c.rcbbase (c.nregions + 1) with
      | none => packetDone s k stMalformed 0
      | some rs => packetDone (modCtx s x (fun c => { c with regions := moveCharges c.regions rs })) k stOk 0)

/-- REGION_RESET (R84, R85). -/
def execRegionReset (k : Pkt) (s : State) : Out :=
  withContext k (bitsOf k.payload.toNat 16 240 != 0) s (fun x s =>
    let c := ctxOf s x
    let r := bitsOf k.payload.toNat 8 8
    if !(c.st == .resident || c.st == .saved || c.st == .stopped) then packetDone s k stBadState 0
    else match c.regions[r]? with
      | none => packetDone s k stMalformed 0
      | some q =>
        if !q.stopped || (r = 0 && c.st != .stopped) then packetDone s k stBadState 0
        else
          let s := modRegion s x r (fun q => { q with stopped := false })
          let s := if r = 0 then modCtx s x (fun c => { c with st := .resident, sliceAt := (dieOf s (clockDie s x)).cycle }) else s
          packetDone s k stOk 0)

/-- The kinds of a time domain by code (R101). -/
def domKindOf (n : Nat) : DomKind :=
  match n with
  | 0 => .sequence
  | 1 => .diecycle
  | 2 => .host
  | _ => .peer

/-- DOMAIN_CONFIG (R94, R99): refused on an active domain. -/
def execDomainConfig (k : Pkt) (s : State) : Out :=
  let v := k.payload.toNat
  withPacket k true (bitsOf v 6 2 != 0 || bitsOf v 12 244 != 0) s (fun _ s =>
    let d := bitsOf v 0 6
    if (domOf s d).buffer then packetDone s k stBadState 0
    else packetDone (modDom s d (fun q => { q with cfg := true, kind := domKindOf (bitsOf v 8 2), die := bitsOf v 10 2 })) k stOk 0)

/-- The domains that hold a reorder buffer of a die (R99). -/
def buffersOn (s : State) (die : Nat) : Nat := (s.domains.filter (fun (_, d) => d.buffer && d.die == die)).length

/-- STREAM_BIND (R95, R98, R99, R375, R485). -/
def execStreamBind (k : Pkt) (s : State) : Out :=
  let v := k.payload.toNat
  withPacket k true (bitsOf v 14 2 != 0 || bitsOf v 22 2 != 0 || bitsOf v 32 32 != 0 || bitsOf v 128 128 != 0) s (fun p s =>
    let n := bitsOf v 0 14
    let d := bitsOf v 16 6
    let x := bitsOf v 24 8
    let c := ctxOf s x
    let q := domOf s d
    if c.st != .free && c.part != p then packetDone s k stPriv 0
    else if c.st == .free || c.st == .draining || !q.cfg || (streamOf s n).st == .open_ then packetDone s k stBadState 0
    else if !q.buffer && buffersOn s q.die ≥ 16 then packetDone s k stNoSlot 0
    else
      let t : Stream := {
        st := .open_
        dom := d
        ctx := x
        last := bitsOf v 64 64
        devseq := 0
        latest := none
        closing := false }
      let s := modDom (modStream s n (fun _ => t)) d (fun q => { q with buffer := true })
      packetDone (refreshDom s d) k stOk 0)

/-- STREAM_CLOSE (R95, R96, R485): a close marker goes to the PLU of the stream's domain; the packet completes when it has
entered intake. A stream whose context has been torn down is bound to a context of partition 0 (notes/assumptions/109.md). -/
def execStreamClose (k : Pkt) (s : State) : Out :=
  let v := k.payload.toNat
  withPacket k true (bitsOf v 14 242 != 0) s (fun p s =>
    let n := bitsOf v 0 14
    let t := streamOf s n
    if t.st != .open_ || t.closing then packetDone s k stBadState 0
    else if (ctxOf s t.ctx).part != p then packetDone s k stPriv 0
    else
      let i : Intake := {
        cls := 4
        key := k.ring
        marker := true
        ev := { eventOfBits 0 with stream := BitVec.ofNat 14 n }
        emitter := none
        tok := none
        port := none
        done := some (k.ring, k.tag, k.caddr)
        at_ := (dieOf s (domOf s t.dom).die).cycle }
      let s := modStream s n (fun t => { t with closing := true })
      modDie s (domOf s t.dom).die (fun d => { d with intakeQ := d.intakeQ ++ [i] }))

end Sys2Proof.Machine
end

