-- ==== Sys2Proof/Machine/PageCmds.lean ====
section
/-!
DEFINITION. The mailbox's answers (R458, R461), page commands (R188), walks' ends (R187, R189), pulls (R193), host writes (R59).
-/
namespace Sys2Proof.Machine

/-! ### The mailbox -/

/-- A completion entry of a function's mailbox (R458). -/
def mbDone (s : State) (m : Mb) (status result value : Nat) (body : List Byte) : State :=
  { s with mbox := s.mbox ++ [{
      fn := m.fn
      tag := m.tag
      status := status
      result := result % 2 ^ 16
      value := BitVec.ofNat 64 value
      body := body }] }

/-- A mailbox request taken (R458, R461): a VF may send SPDM (`cls` 3) and SYSCALL (4) only; in D3HOT only SYSTEM (5) and SPDM are taken, in
D3COLD, and where no firmware core leads (R463, R465), nothing answers. -/
def withMail (m : Mb) (cls : Nat) (s : State) (f : State → State) : Out :=
  if s.power == .d3cold || fwDown s || m.fn > 16 || (m.fn != 0 && !(partOf s (m.fn - 1)).vf) then .next s
  else if m.fn != 0 && cls != 3 && cls != 4 then .next (mbDone s m stPriv 0 0 [])
  else if s.power == .d3hot && cls != 3 && cls != 5 then .next (mbDone s m stBadState 0 0 [])
  else .next (f s)

/-! ### Units that wait for a page -/

/-- Decoder submissions that wait begin again (R452, R453). -/
def wakeDecoders (s : State) (ready : Nat → Nat → Bool) : State :=
  let ctx := fun (d : Decoder) => (d.queue.head?.map (fun q => q.ctx)).getD 0
  let one := fun (d : Decoder) => match d.waitPage with
    | some p => if ready (ctxOf s (ctx d)).pasid p then { d with waitPage := none, st := .busy } else d
    | none => d
  { s with dies := s.dies.map (fun (n, k) => (n, { k with decoders := k.decoders.map (fun (i, d) => (i, one d)) })) }

/-- The Cistern slots that wait walk again (R178). -/
def wakeCslots (s : State) (ready : Nat → Nat → Bool) : State :=
  s.dies.foldl (fun s (n, k) => k.cslots.foldl (fun s (i, c) => match c.batch with
    | some b =>
      let go := ready (ctxOf s b.ctx).pasid
      if c.waits.any go then
        let s := modCslot s n i (fun c => { c with waits := c.waits.filter (fun p => !go p) })
        if c.st == .combined then tryCombine s n i else flushStage s n i b c.stgQ
      else s
    | none => s) (retryStaged s n ready)) s

/-- The roles that have a walk answered by a request or a pull for a `ready` page, while others of theirs are open: they begin again as
those that wait for the page alone (R190). -/
def wakeWalkers (s : State) (ready : Nat → Nat → Bool) : State :=
  s.dies.foldl (fun s (n, k) => k.walks.foldl (fun s w =>
    if w.res == some .wait && ready w.pasid w.page then
      let s := modDie s n (fun d => { d with walks := d.walks.filter (fun q => q.who != w.who) })
      modWarp s w.who.core w.who.gslot w.who.wid (fun y =>
        if y.run == .run then leavePageWait { y with run := .pageWait w.pasid [w.page] w.who.slot w.restart w.kind w.accs } else y)
    else s) s) s

/-- Every unit whose awaited page is `ready` walks again (R188, R190, R193); copies and drains by their own steps. -/
def wakeWaiters (s : State) (ready : Nat → Nat → Bool) : State :=
  let s := mapWarps s (fun _ _ _ _ y => match y.run with
    | .pageWait pasid pages _ _ _ _ => if pages.any (ready pasid) then leavePageWait y else y
    | _ => y)
  wakeCslots (wakeDecoders (wakeWalkers s ready) ready) ready

/-- A role whose access is refused (R188, R193): it traps, with the lanes of its instruction whose access falls on a page of the
range in LANES and the lowest one's address in ADDR (R429); a speculator stops instead, and its instruction is issued again after the
commit (R158). -/
def failRole (s : State) (range : Nat → Bool) (cause : Cause) (who : Who) (kind : Nat) (accs : List (Nat × Nat)) : State :=
  let mine := accs.filter (fun l => range (l.2 / 4096))
  let s := modWarp s who.core who.gslot who.wid (fun y => { y with run := .run })
  match (warpAt s who.core who.gslot who.wid).bind (fun y => y.spec) with
  | some p => setBlocked (stopSpeculation s who) who (.barrier p.bar)
  | none => takeTrap s who cause (maskOf (mine.map (fun l => l.1))) ((mine.map (fun l => l.2)).headD 0) kind (wordsAt s who)

/-- A role that waits for a page of `bad`, or whose walk has found one not present while others of its are open, refused; `range` gives the
pages of the range (R188). -/
def failOne (s : State) (bad range : Nat → Nat → Bool) (cause : Cause) (w : Who) : State :=
  match ((warpAt s w.core w.gslot w.wid).elim .exited (fun y => y.run) : RunState) with
  | .pageWait pasid pages slot _ kind accs =>
    if pages.any (bad pasid) then failRole s (range pasid) cause { w with slot := slot } kind accs else s
  | .run =>
    match (dieOf s (dieOfCore w.core)).walks.find? (fun k => sameWarp k.who w && k.res == some .wait && bad k.pasid k.page) with
    | some k =>
      let s := modDie s (dieOfCore w.core) (fun d => { d with walks := d.walks.filter (fun q => q.who != k.who) })
      failRole s (range k.pasid) cause k.who k.kind k.accs
    | none => s
  | _ => s

/-- The decoder submissions that wait for a page end with a fault (R452). -/
def failDecoders (s : State) (bad : Nat → Nat → Bool) (cause : Cause) : State :=
  s.dies.foldl (fun s (n, k) => k.decoders.foldl (fun s (i, d) => match d.waitPage, d.queue with
    | some p, sub :: rest =>
      if bad (ctxOf s sub.ctx).pasid p then
        match unitGet s n sub.ctx 5 sub.launch sub.va 64 with
        | .ok bs s => decFault s n i sub (ofBytesLE bs) cause
        | .wait _ s => regionFault (modDec s n i (fun d => { d with queue := rest, waitPage := none, st := decIdle rest, past := 0 })) sub.ctx sub.region
            cause.code sub.launch n
        | .fault _ s => regionFault (modDec s n i (fun d => { d with queue := rest, waitPage := none, st := decIdle rest, past := 0 })) sub.ctx sub.region
            cause.code sub.launch n
      else s
    | _, _ => s) s) s

/-- Every unit that waits for one of the pages `bad` is refused with a cause: warps trap, those of a group in the order of R136 (R430), engine
operations raise it to their region's fault domain (R188, R193). -/
def failWaiters (s : State) (bad range : Nat → Nat → Bool) (cause : Cause) : State :=
  let s := (residents s).foldl (fun s (c, g, k) => (byRank (k.warps.map (fun e => e.1))).foldl (fun s w =>
    failOne s bad range cause { core := c, gslot := g, wid := w, slot := 0 }) s) s
  let pasidOf := fun (s : State) (c g : Nat) => (ctxOf s ((groupAt s c g).map (fun k => k.ctx) |>.getD 0)).pasid
  let s := s.cores.foldl (fun s (c, k) =>
    let s := k.copies.foldl (fun s q => match q.waitPage with
      | some p => if bad (pasidOf s c q.gslot) p then modCopy s c q.id (fun q => { q with waitPage := none, fault := some cause }) else s
      | none => s) s
    k.drains.foldl (fun s d => match d.waitPage with
      | some p => if bad (pasidOf s c d.gslot) p then retireDrain s c d (some cause) else s
      | none => s) s) s
  let s := s.dies.foldl (fun s (n, k) => k.cslots.foldl (fun s (i, c) => match c.batch with
    | some b => if c.waits.any (bad (ctxOf s b.ctx).pasid) then slotFault s n i b cause else s
    | none => s) (failStaged s n bad cause)) s
  failDecoders s bad cause

/-! ### Page commands -/

/-- Whether a page lies in the range of a page command (R188): the whole address space for NPAGES = 0. -/
def PageCmd.within (c : PageCmd) (page : Nat) : Bool := c.npages == 0 || (c.va / 4096 ≤ page && page < c.va / 4096 + c.npages)

/-- Whether a page command is well formed and names a PASID that is ACTIVE (R188, R195). -/
def pageCmdOk (s : State) (cmd action : Nat) : Bool :=
  bitsOf cmd 84 44 == 0 && bitsOf cmd 18 46 == 0 && bitsOf cmd 0 16 == 0 && bitsOf cmd 16 2 == action &&
  bitsOf cmd 192 64 % 4096 == 0 &&
  (match ctxOfPasid s (bitsOf cmd 64 20) with
   | some x => bitsOf cmd 64 20 != 0 && (ctxOf s x).st != .draining
   | none => false)

/-- The translations of a range taken off every TLB and walk cache, and the answers of overtaken walks discarded; those answered by a page
request or a pull wait for it as they did (R188). -/
def invalidate (s : State) (c : PageCmd) : State :=
  let hit := fun (e : TlbEntry) => e.pasid == c.pasid && (c.npages == 0 || overlaps e.va e.size c.va (c.npages * 4096))
  let again := fun (w : Walk) => w.pasid == c.pasid && c.within w.page && w.res != some .wait
  let die := fun (d : Die) => { d with
    walkCache := d.walkCache.filter (fun e => e.1 != c.pasid)
    walks := d.walks.map (fun w => if again w then { w with res := none } else w) }
  { s with
    cores := s.cores.map (fun (n, k) => (n, { k with tlb := k.tlb.filter (fun e => !hit e) }))
    dies := s.dies.map (fun (d, k) => (d, die k)) }

/-- The speculators of a context that hold buffered stores rolled back, so that none is performed at an address translated before a page
command (R188, notes/assumptions/137.md). -/
def squashBuffered (s : State) (x : Nat) : State :=
  mapWarps s (fun c _ g _ y =>
    if g.ctx == x && y.spec.elim false (fun p => !p.buf.isEmpty) then rollback (dieOf s (dieOfCore c)).cycle y else y)

/-- Whether a page command is done (R188): the accesses made before it have been performed, those of a drain that has begun to write and
of a BQGET that has not been answered among them, and no walk or pull that was open on its range is. -/
def cmdDone (s : State) (c : PageCmd) : Bool :=
  let x := (ctxOfPasid s c.pasid).getD 256
  s.inflight.all (fun r => r.id ≥ c.upto || !whoOf s x r.who) && s.datoms.all (fun d => d.ctx != x) &&
  (groupsOf s x).all (fun (n, g, _) => (coreOf s n).drains.all (fun d => d.gslot != g || d.rows.isNone || d.id ≥ c.upto)) &&
  s.dies.all (fun (_, d) => d.walks.all (fun w => w.id ≥ c.upto || w.res.isSome || w.pasid != c.pasid || !c.within w.page)) &&
  s.dies.all (fun (_, d) => d.asks.all (fun a => a.id ≥ c.upto || !whoOf s x a.who)) &&
  s.pulls.all (fun p => p.pasid != c.pasid ||
    !(c.npages = 0 || overlaps p.page (leafSize p.level) c.va (c.npages * 4096)))

/-- The page requests of `gone` closed (R189). -/
def closeRequests (s : State) (gone : Nat → Nat → Bool) : State :=
  { s with pageReqs := s.pageReqs.filter (fun q => !gone q.1 q.2) }

/-- What a page command does as it completes (R188): RESOLVE (1) sends every unit that waits on a page request of the range to walk again,
FAIL (2) refuses it with PAGE_NOT_PRESENT, INVAL (0) does no more. -/
def pageCmdEffect (s : State) (c : PageCmd) : State :=
  let gone := fun (q p : Nat) => s.pageReqs.contains (q, p) && q == c.pasid && c.within p
  match c.action with
  | 0 => s
  | 1 => wakeWaiters (closeRequests s gone) gone
  | _ => failWaiters (closeRequests s gone) gone (fun q p => q == c.pasid && c.within p) .pageNotPresent

/-- An open page command that is done completes with its effect (R188, R467). -/
def finishPageCmd (s : State) (c : PageCmd) : State :=
  if cmdDone s c && !fwDown s then
    mbDone (pageCmdEffect { s with pageCmds := s.pageCmds.filter (fun q => q != c) } c) c.mb stOk 0 0 []
  else s

/-- A page command as it is taken. -/
def pageCmdOf (s : State) (m : Mb) (cmd action : Nat) : PageCmd where
  mb := m
  action := action
  pasid := bitsOf cmd 64 20
  va := bitsOf cmd 192 64
  npages := bitsOf cmd 128 64
  upto := s.nextId

/-- A page command taken (R188): no translation of its range is held any more. -/
def takePageCmd (s : State) (c : PageCmd) : State :=
  squashBuffered (invalidate { s with pageCmds := s.pageCmds ++ [c] } c) ((ctxOfPasid s c.pasid).getD 256)

/-- A page command: taken once; given again while it is open it is tested for its end (R188, R466). -/
def pageCommand (m : Mb) (cmd : BitVec 256) (action : Nat) (s : State) : Out :=
  match s.pageCmds.find? (fun c => c.mb == m && c.action == action) with
  | some c => .next (finishPageCmd s c)
  | none => withMail m 1 s (fun s =>
    if !pageCmdOk s cmd.toNat action then mbDone s m stMalformed 0 0 []
    else
      let c := pageCmdOf s m cmd.toNat action
      finishPageCmd (takePageCmd s c) c)

/-- PAGE_INVAL (R188). -/
def execPageInval (m : Mb) (cmd : BitVec 256) (s : State) : Out := pageCommand m cmd 0 s

/-- PAGE_RESOLVE (R188-R191, R233): every unit waiting on a page request in the range walks again. -/
def execPageResolve (m : Mb) (cmd : BitVec 256) (s : State) : Out := pageCommand m cmd 1 s

/-- PAGE_FAIL (R188): every unit waiting on a page request in the range is refused with PAGE_NOT_PRESENT. -/
def execPageFail (m : Mb) (cmd : BitVec 256) (s : State) : Out := pageCommand m cmd 2 s

/-! ### Walks -/

/-- Whether the TLB refuses an access of an instruction (R187, R189): PAGE_PROTECTION then comes before a page request or a pull. -/
def tlbRefuses (s : State) (w : Walk) : Bool :=
  w.accs.any (fun (_, va) => (tlbFind (coreOf s w.who.core) w.pasid va).elim false (fun e => !e.allows s w.kind va))

/-- A role whose walks have all been answered, some by a page request or a pull (R187, R190): it waits for those pages, unless one of
its pages is refused, which its next issue takes first; pages whose request or pull has ended since are walked for again. -/
def settleWaiter (s : State) (die : Nat) (who : Who) : State :=
  let mine := (dieOf s die).walks.filter (fun w => w.who == who)
  let waits := mine.filter (fun w => w.res == some .wait)
  if mine.any (fun w => (w.res != some .wait && w.res != some .fill) || tlbRefuses s w) then s
  else match waits with
    | [] => s
    | w :: _ =>
      let s := modDie s die (fun d => { d with walks := d.walks.filter (fun q => q.who != who) })
      let pages := distinct ((waits.filter (fun w => pageOpen s w.pasid w.page)).map (fun w => w.page))
      if pages.isEmpty then s
      else modWarp s who.core who.gslot who.wid (fun y =>
        if y.run == .run then { y with run := .pageWait w.pasid pages who.slot w.restart w.kind w.accs } else y)

/-- PAGE_WALK_COMPLETE: the `n`-th walk of a die ends, for every role that has joined it (R187, R189, R192, R193, R195). -/
def execPageWalkComplete (die n : Nat) (s : State) : Out :=
  match (dieOf s die).walks[n]? with
  | none => .next s
  | some w =>
    if w.res.isSome then .next s
    else
      let same := fun (q : Walk) => q.pasid == w.pasid && q.page == w.page && q.res.isNone
      let answer := fun (s : State) (r : WalkRes) => modDie s die (fun d =>
        { d with walks := d.walks.map (fun q => if same q then { q with res := some r } else q) })
      let drop := fun (s : State) => modDie s die (fun d => { d with walks := d.walks.filter (fun q => !same q) })
      match ctxOfPasid s w.pasid with
      | none => .next (drop s)
      | some x =>
        let c := ctxOf s x
        if c.st == .draining then .next (drop s)
        else
          let va := w.page * 4096
          let joined := (dieOf s die).walks.filter same
          let (o, s) := walk s die w.pasid c.ptroot va
          let settle := fun (s : State) => joined.foldl (fun s q => settleWaiter s die q.who) s
          match o with
          | .malformed => .next (answer s .protection)
          | .lost => .next (answer s .lost)
          | .notPresent => .next (settle (answer (pageRequest s die x va w.kind w.path w.launch) .wait))
          | .remote pte rec_ level => match startPull s die w.pasid va pte rec_ level with
            | some s => .next (settle (answer s .wait))
            | none => .next (answer s .protection)
          | .leaf e => .next (settle (joined.foldl (fun s q => tlbFill s q.who.core e) (drop s)))

/-! ### Pulls -/

/-- A pull record's TRIES or RESULT written (R192): bytes 25 and 24. -/
def pullRecord (s : State) (rec_ off v : Nat) : State := unitWrite s (rec_ + off) [BitVec.ofNat 8 v]

/-- The pages of a pull. -/
def Pull.covers (p : Pull) (pasid page : Nat) : Bool :=
  p.pasid == pasid && p.page ≤ page * 4096 && page * 4096 < p.page + leafSize p.level

/-- PULL_ATTEMPT_COMPLETE: an attempt of the `n`-th pull ends (R193): with the page, which is installed, where its frame is still no
window's (R61); or failed, as one without a
route does (R205), to be retried 2^16 cycles later, and lost after the fourth. Of a DRAINING PASID nothing is installed (R195). -/
def execPullAttemptComplete (n : Nat) (page : List Byte) (ok : Bool) (s : State) : Out :=
  match s.pulls[n]? with
  | none => .next s
  | some p =>
    if !p.active then .next s
    else
      let gone := { s with pulls := listDrop s.pulls n }
      let ending : Bool := match ctxOfPasid s p.pasid with
        | some x => (ctxOf s x).st == .draining
        | none => true
      let tries := memNat s.mem (p.rec_ + 25) 1 + 1
      if ending then .next gone
      else if ok && p.via.isSome then
        let leaf := memNat s.mem (p.rec_ + 8) 8
        if !pullFrameOk s p.rec_ p.level then .next (wakeWaiters gone p.covers) else
        let s := unitWrite gone (pteBase leaf) (page.take (leafSize p.level))
        let s := pullRecord (pullRecord s p.rec_ 25 tries) p.rec_ 24 1
        let s := unitWrite s p.pte (bytesLE 8 leaf)
        .next (wakeWaiters s p.covers)
      else if tries < 4 then
        let s := pullRecord s p.rec_ 25 tries
        .next { s with pulls := listSet s.pulls n { p with active := false, nextAt := (dieOf s p.die).cycle + 2 ^ 16 } }
      else
        let e := memNat s.mem p.pte 8
        let s := pullRecord (pullRecord gone p.rec_ 25 tries) p.rec_ 24 2
        let s := unitWrite s p.pte (bytesLE 8 (e / 4 * 4 + 3))
        .next (failWaiters s p.covers p.covers .pageLost)

/-- PULL_RETRY: the `n`-th pull, which failed, starts its next attempt (R193). -/
def execPullRetry (n : Nat) (s : State) : Out :=
  match s.pulls[n]? with
  | none => .next s
  | some p =>
    if p.active || (dieOf s p.die).cycle < p.nextAt then .next s
    else .next { s with pulls := listSet s.pulls n { p with active := true, via := pullRoute s p.rec_ } }

/-! ### Host writes -/

/-- HOST_WRITE: a write of the host through a BAR or to its own memory (R59, R456); without power the device takes none (R461). -/
def execHostWrite (pa : Nat) (bytes : List Byte) (s : State) : Out :=
  .next (if s.power == .d3cold && !inHostMem pa then s else hostPut s pa bytes)

end Sys2Proof.Machine
end

