-- ==== Sys2Proof/Machine/Debug.lean ====
section
/-!
DEFINITION. Debug commands (R431-R434): TRAPCFG, TRACECFG, RESOLVE, HALT, RELEASE, STEP, READREG, WRITEREG.
-/
namespace Sys2Proof.Machine

/-- The operands of a debug command (R431). -/
structure DbgCmd where
  ctx : Nat
  core : Nat
  gslot : Nat
  warp : Nat
  split : Nat
  arg0 : Nat
  arg1 : Nat
  deriving DecidableEq, Repr

/-- The fields of a debug command (R431). -/
def dbgCmdOf (v : Nat) : DbgCmd where
  ctx := bitsOf v 64 8
  core := bitsOf v 56 8
  gslot := bitsOf v 51 5
  warp := bitsOf v 44 7
  split := bitsOf v 42 2
  arg0 := bitsOf v 128 64
  arg1 := bitsOf v 192 64

/-- A debug command taken (R431, R432, R458, R461): OP and the reserved bits, then the context's state, then the level. -/
def withDebug (m : Mb) (cmd : BitVec 256) (op level : Nat) (s : State) (f : DbgCmd → State → State) : Out :=
  withMail m 2 s (fun s =>
    let v := cmd.toNat
    let d := dbgCmdOf v
    if bitsOf v 72 56 != 0 || bitsOf v 8 34 != 0 || bitsOf v 0 8 != op then mbDone s m stMalformed 0 0 []
    else if (ctxOf s d.ctx).st == .free then mbDone s m stBadState 0 0 []
    else if (partOf s (ctxOf s d.ctx).part).dbg < level then mbDone s m stPriv 0 0 []
    else f d s)

/-- The role a debug command names, of its context, that has not exited; none in DIE-RETAIN (R461). -/
def dbgWarp (s : State) (d : DbgCmd) : Option (Group × Warp) :=
  if s.power == .dieRetain then none
  else match groupAt s d.core d.gslot, warpAt s d.core d.gslot d.warp with
    | some g, some y => if g.ctx == d.ctx && y.run != .exited then some (g, y) else none
    | _, _ => none

/-- A role whose trap record counts no more (R427): neither the one it holds nor the one set aside with a save handler. -/
def cutRecord (y : Warp) : Warp :=
  let r := fun (r : RunState) => match r with
    | .trapped t w _ => RunState.trapped t w none
    | r => r
  { y with run := r y.run, aside := y.aside.map (fun a => { a with run := r a.run }) }

/-- A saved group with the trap records of its roles cut. -/
def cutSaved (g : SavedGroup) : SavedGroup :=
  { g with grp := { g.grp with warps := g.grp.warps.map (fun (w, y) => (w, cutRecord y)) } }

/-- TRAPCFG (R427, R432): a new log starts empty; the records of the old one count no more. -/
def execTrapcfg (m : Mb) (cmd : BitVec 256) (s : State) : Out :=
  withDebug m cmd 0x30 0 s (fun d s =>
    let n := bitsOf d.arg1 0 12
    if d.arg0 % 64 != 0 || n < 6 || n > 12 then mbDone s m stMalformed 0 0 []
    else
      let s := mapWarps s (fun _ _ g _ y => if g.ctx == d.ctx then cutRecord y else y)
      let log : TrapLog := {
        base := d.arg0
        size := 2 ^ n
        head := 0
        tail := 0
        count := 0
        heldIdx := [] }
      let s := modCtx s d.ctx (fun c => { c with tlog := some log, tmask := bitsOf d.arg1 32 32, saved := c.saved.map cutSaved })
      mbDone s m stOk 0 0 [])

/-- TRACECFG (R272, R432): the PLOG buffer of the context's partition, which starts empty; ARG1 = 0 answers the drop count in
the result field. -/
def execTracecfg (m : Mb) (cmd : BitVec 256) (s : State) : Out :=
  withDebug m cmd 0x31 1 s (fun d s =>
    let p := (ctxOf s d.ctx).part
    if d.arg1 = 0 then mbDone s m stOk (partOf s p).plogDrops 0 []
    else
      let s := modPart s p (fun p => { p with
        plogBase := d.arg0
        plogSize := 2 ^ bitsOf d.arg1 0 12
        plogCount := 0
        plogDrops := 0 })
      mbDone s m stOk 0 0 [])

/-- A RESOLVE (R432): of a TRAPPED role; one sent while the context is SAVED applies at its resume. -/
def resolveCmd (m : Mb) (cmd : BitVec 256) (act : Nat) (s : State) : Out :=
  withDebug m cmd 0x32 0 s (fun d s =>
    let c := ctxOf s d.ctx
    if bitsOf d.arg0 0 3 != act then mbDone s m stMalformed 0 0 []
    else match c.saved.find? (fun g => g.core == d.core && g.gslot == d.gslot && c.st != .saving) with
      | some g => match mapFind g.grp.warps d.warp with
        | some y =>
          if isTrapped y then mbDone (modCtx s d.ctx (fun c => { c with resolveHeld := c.resolveHeld ++ [(m.fn, cmd)] })) m stOk 0 0 []
          else mbDone s m stBadState 0 0 []
        | none => mbDone s m stBadState 0 0 []
      | none => match dbgWarp s d with
        | some (_, y) =>
          if isTrapped y then mbDone (resolveRole s d.core d.gslot d.warp act (BitVec.ofNat 64 d.arg1)) m stOk 0 0 []
          else mbDone s m stBadState 0 0 []
        | none => mbDone s m stBadState 0 0 [])

/-- RESOLVE RETRY: the role goes on at the trapping PC (R432). -/
def execResolveRetry (m : Mb) (cmd : BitVec 256) (s : State) : Out := resolveCmd m cmd 0 s
/-- RESOLVE SKIP: the role goes on after the trapping instruction (R432). -/
def execResolveSkip (m : Mb) (cmd : BitVec 256) (s : State) : Out := resolveCmd m cmd 1 s
/-- RESOLVE GOTO: the role goes on at ARG1 (R432). -/
def execResolveGoto (m : Mb) (cmd : BitVec 256) (s : State) : Out := resolveCmd m cmd 2 s
/-- RESOLVE RESTART: the role goes on at its region's entry PC (R432). -/
def execResolveRestart (m : Mb) (cmd : BitVec 256) (s : State) : Out := resolveCmd m cmd 3 s
/-- RESOLVE KILL: the trap goes to the fault domain (R432, R84). -/
def execResolveKill (m : Mb) (cmd : BitVec 256) (s : State) : Out := resolveCmd m cmd 4 s

/-- The roles that HALT and RELEASE name: one, or the whole group for WARP = 0x7F (R432). -/
def dbgRoles (s : State) (d : DbgCmd) : List Nat :=
  if d.warp = 0x7F then
    match groupAt s d.core d.gslot with
    | some g => if g.ctx == d.ctx && s.power != .dieRetain then (g.warps.filter (fun (_, y) => y.run != .exited)).map (fun e => e.1) else []
    | none => []
  else if (dbgWarp s d).isSome then [d.warp] else []

/-- HALT (R430, R433): a speculator is rolled back first and recorded as arrived. -/
def execHalt (m : Mb) (cmd : BitVec 256) (s : State) : Out :=
  withDebug m cmd 0x33 2 s (fun d s => match dbgRoles s d with
    | [] => mbDone s m stBadState 0 0 []
    | ws => mbDone (ws.foldl (fun s w => modWarp s d.core d.gslot w (fun y => { rollback (dieOf s (dieOfCore d.core)).cycle y with halted := true })) s) m stOk 0 0 [])

/-- A halt ended (R433): a role halted at a BRKPT goes on after it. -/
def releaseWarp (s : State) (c g w : Nat) : State :=
  let s := modWarp s c g w (fun y => { y with halted := false })
  (List.range 4).foldl (fun s i => match (warpAt s c g w).bind (fun y => (y.split i).bind (fun q => q.wait)) with
    | some .brkpt => wakeSplit s { core := c, gslot := g, wid := w, slot := i } 1
    | _ => s) s

/-- A slice expiry that was deferred, applied when no role of the context is HALTED any more (R430, R432). -/
def lateExpiry (s : State) (x : Nat) : State :=
  let ws := (groupsOf s x).flatMap (fun (_, _, g) => g.warps.map (fun e => e.2))
  if ws.any (fun y => y.expiryHeld) && ws.all (fun y => !y.halted) then
    let s := mapWarps s (fun _ _ g _ y => if g.ctx == x then { y with expiryHeld := false } else y)
    if (ctxOf s x).st == .resident then beginSave s x else s
  else s

/-- RELEASE (R432, R433). -/
def execRelease (m : Mb) (cmd : BitVec 256) (s : State) : Out :=
  withDebug m cmd 0x34 2 s (fun d s =>
    match (dbgRoles s d).filter (fun w => (warpAt s d.core d.gslot w).elim false (fun y => y.halted)) with
    | [] => mbDone s m stBadState 0 0 []
    | ws => mbDone (lateExpiry (ws.foldl (fun s w => releaseWarp s d.core d.gslot w) s) d.ctx) m stOk 0 0 [])

/-- STEP (R434): the one issue of the named split is the machine's next step, which completes the command; a split that is
held, or that waits, is BLOCKED. -/
def execStep (m : Mb) (cmd : BitVec 256) (s : State) : Out :=
  withDebug m cmd 0x35 2 s (fun d s => match dbgWarp s d with
    | none => mbDone s m stBadState 0 0 []
    | some (_, y) => match y.split d.split with
      | none => mbDone s m stBadState 0 0 []
      | some q =>
        if !y.halted || y.run != .run || s.stepping.isSome then mbDone s m stBadState 0 0 []
        else if q.hold != .none || y.parked.isSome || (q.wait.isSome && q.wait != some .brkpt) then mbDone s m stBlocked 0 0 []
        else { s with stepping := some (m, { core := d.core, gslot := d.gslot, wid := d.warp, slot := d.split }) })

/-- The register that READREG and WRITEREG name (R432): uniform or vector, and its number; none where the role has none
such. -/
def dbgReg (g : Group) (d : DbgCmd) : Option (Bool × Nat) :=
  let n := bitsOf d.arg0 0 9
  if d.arg0.testBit 9 then (if n < 256 then some (true, n) else none)
  else if d.warp < 32 && n ≤ g.tmpl.vregs then some (false, n) else none

/-- READREG and WRITEREG on a HALTED or TRAPPED role (R432). -/
def regCmd (m : Mb) (cmd : BitVec 256) (op : Nat) (s : State) (f : DbgCmd → Group → Warp → Bool → Nat → Nat → State → State) : Out :=
  withDebug m cmd op 2 s (fun d s => match dbgWarp s d with
    | none => mbDone s m stBadState 0 0 []
    | some (g, y) =>
      if !y.halted && !isTrapped y then mbDone s m stBadState 0 0 []
      else match dbgReg g d with
        | none => mbDone s m stMalformed 0 0 []
        | some (u, n) => f d g y u n (bitsOf d.arg0 10 5) s)

/-- READREG (R432, R458): the value in bytes 16 to 23 of the completion. -/
def execReadreg (m : Mb) (cmd : BitVec 256) (s : State) : Out :=
  regCmd m cmd 0x36 s (fun _ g y u n l s => mbDone s m stOk 0 (if u then (sreg g n).toNat else (vreg y n l).toNat) [])

/-- WRITEREG (R432): an empty register is left full. -/
def execWritereg (m : Mb) (cmd : BitVec 256) (s : State) : Out :=
  regCmd m cmd 0x37 s (fun d _ _ u n l s =>
    let s := if u then modGroup s d.core d.gslot (fun g =>
        setSreg { g with sempty := g.sempty.filter (fun r => r != n), uprods := g.uprods.filter (fun p => p.reg != n) } n (BitVec.ofNat 64 d.arg1))
      else modWarp s d.core d.gslot d.warp (fun y =>
        let full := fun (p : Prod) => if p.reg == n then
            { p with mask := p.mask &&& ~~~(maskOf [l]), wmask := p.wmask &&& ~~~(maskOf [l]) } else p
        setVreg { y with prods := (y.prods.map full).filter (fun p => p.mask != 0) } n (maskOf [l]) (fun _ => BitVec.ofNat 32 d.arg1))
    mbDone s m stOk 0 0 [])

end Sys2Proof.Machine
end

