-- ==== Sys2Proof/Machine/System.lean ====
section
/-!
DEFINITION. SYSCALL and its reply, TRAP, BRKPT and RDCYC (R388-R392).
-/
namespace Sys2Proof.Machine

/-- The record of a SYSCALL (R388): the header, then 16 bytes for each lane. -/
def syscallRecord (s : State) (x : Iss) (m : W32) (service seq src : Nat) : List Byte :=
  let h := x.sp.pc.toNat * 2 ^ 448 + x.grp.launch % 2 ^ 64 * 2 ^ 384 + m.toNat * 2 ^ 352 + service % 2 ^ 32 * 2 ^ 320 +
    seq % 2 ^ 32 * 2 ^ 288 + (ctxOf s x.grp.ctx).pasid % 2 ^ 20 * 2 ^ 268 + x.grp.ctx % 256 * 2 ^ 260 +
    x.w.core % 256 * 2 ^ 252 + x.w.wid % 128 * 2 ^ 245
  bytesLE 64 h ++ (List.range 32).flatMap (fun l => if inMask m l then bytesLE 16 (vregN x.wp src 4 l) else List.replicate 16 0)

/-- SYSCALL (R388, R389): one outstanding for each warp, after a system-scope release. -/
def execSyscall (g : Guard) (f : FA) (s : State) : Out :=
  runWord .vector true 1 g noTok
    (fun _ _ => [.v f.srca.toNat 4 id f.fea, .u f.srcb.toNat f.feb, .vl f.dst.toNat 2])
    (fun x m s =>
      if x.wp.sysOut.isSome || !deviceReleased s x then .hold .nothing s
      else
        let service := (sreg x.grp f.srcb.toNat).toNat % 2 ^ 32
        let seq := (dieOf s x.die).sysSeq
        let r := syscallRecord s x m service seq f.srca.toNat
        let (id, s) := freshId s
        let s := onWarp s x (fun y => { produceV y id f.dst.toNat 2 m with sysOut := some (seq, id) })
        let s := modDie s x.die (fun d => { d with
          sysSeq := (seq + 1) % 2 ^ 32
          sysOut := d.sysOut ++ [(seq, x.w, m, id)] })
        .done { s with sysMsgs := s.sysMsgs ++ [{ die := x.die, seq := seq, toHost := service ≥ 2 ^ 31, rec_ := r }] }) s

/-- The state code of a port (R201). -/
def PState.code (p : PState) : Nat :=
  match p with
  | .disabled => 0
  | .training => 1
  | .active => 2
  | .retrain => 3
  | .down => 4
  | .absent => 5

/-- What firmware 1.x replies to lane `l` of a request (R390). -/
def firmwareReply (s : State) (r : List Byte) (l : Nat) : Nat :=
  let slot := ofBytesLE ((r.drop (64 + 16 * l)).take 8)
  match bytesAt r 40 4 with
  | 0 => slot
  | 1 => s.node
  | 2 => if slot % 256 ≤ 17 then (portOf s (slot % 256)).st.code else 2 ^ 64 - 1
  | _ => 2 ^ 64 - 1

/-- A reply to request `seq` of a die reaches its warp (R389, R390): the values of its lanes come from `vals`. -/
def replyTo (s : State) (die : Nat) (w : Who) (m : W32) (id q : Nat) (val : Nat → Nat) : State :=
  let out := (lanesOf m).map (fun l => (l, val l))
  let s := modDie s die (fun d => { d with sysOut := d.sysOut.filter (fun e => e.1 != q) })
  let s := { s with sysMsgs := s.sysMsgs.filter (fun m => !(m.die == die && m.seq == q)) }
  match warpAt s w.core w.gslot w.wid with
  | some y =>
    if y.sysOut == some (q, id) then
      l1Clear (freeWarp (modWarp (synced s w) w.core w.gslot w.wid (fun y => homeLoads { arriveV y id out with sysOut := none }))
        w.core w.gslot w.wid) w.core
    else s
  | none => s

/-- SYSCALL_REPLY: firmware's own answer to a request that was sent to it, or a mailbox message with the host's values, a missing one as 0
(R389, R390, R458). A reply whose SEQ is not outstanding is discarded; a virtual function's is for a group of its partition
(notes/assumptions/139.md). -/
def execSyscallReply (r : Replier) (seq : BitVec 32) (vals : List W64) (s : State) : Out :=
  let q := seq.toNat
  let die := r.die
  let found := match (dieOf s die).sysOut.find? (fun e => e.1 == q), s.sysMsgs.find? (fun m => m.die == die && m.seq == q) with
    | some e, some msg => some (e.2.1, e.2.2.1, e.2.2.2, msg)
    | _, _ => none
  match r.mb with
  | none => match found with
    | some (w, lanes, id, msg) =>
      if msg.toHost || (dieOf s die).fwHeld then .next s
      else .next (replyTo s die w lanes id q (firmwareReply s msg.rec_))
    | none => .next s
  | some m => withMail m 4 s (fun s => match found with
    | some (w, lanes, id, msg) =>
      let mine := m.fn = 0 || (groupAt s w.core w.gslot).elim false (fun g => (ctxOf s g.ctx).part == m.fn - 1)
      let s := if msg.toHost && mine then replyTo s die w lanes id q (fun l => (vals.getD l 0).toNat) else s
      mbDone s m stOk 0 0 []
    | none => mbDone s m stOk 0 0 [])

/-- TRAP (R391): USER. -/
def execTrap (g : Guard) (f : FI) (s : State) : Out :=
  runWord .all true 1 g noTok (fun _ _ => []) (fun _ m s => .trap .user m 0 (f.imm.toNat % 2 ^ 16) s) s

/-- Whether the partition of a group's context is at a debug level (R454). -/
def dbgOf (s : State) (g : Group) : Nat := (partOf s (ctxOf s g.ctx).part).dbg

/-- BRKPT (R391, R433): at INVASIVE it halts its warp at its own PC and writes no record; otherwise it traps BREAK. -/
def execBrkpt (g : Guard) (f : FI) (s : State) : Out :=
  runWord .all true 1 g noTok (fun _ _ => [])
    (fun x m s =>
      if dbgOf s x.grp = 2 then
        .issued .nothing (onWarp (onSplit s x (fun q => { q with wait := some .brkpt })) x (fun y => { y with halted := true }))
      else .trap .brk m 0 (f.imm.toNat % 2 ^ 16) s) s

/-- RDCYC (R392). -/
def execRdcyc (g : Guard) (f : FA) (s : State) : Out :=
  runWord .all false 1 g noTok (fun _ _ => [.ud f.dst.toNat])
    (fun x _ s => .done (onGroup s x (fun k => setSreg k f.dst.toNat (BitVec.ofNat 64 (dieOf s x.die).cycle)))) s

end Sys2Proof.Machine
end

