-- ==== Sys2Proof/Machine/Link.lean ====
section
/-!
DEFINITION. The peer links: port states (R201), flits received (R198-R200), remote events (R202), collective transfers (R204), a
port that goes DOWN (R205), route tables (R198); the UCIe modules (R196).
-/
namespace Sys2Proof.Machine

/-- The link event of a port (R201): none before a link stream is set; `lost` is the count of R205. -/
def linkEvent (s : State) (p lost : Nat) : State :=
  match s.linkStream with
  | none => s
  | some n => deviceEvent s (dieOfPort p) 3 (srcPort p) n 0xE7 (s.node * 2 ^ 16 + p) ((portOf s p).st.code + lost % 2 ^ 32 * 2 ^ 32) false

/-- A port in a new state, with its event (R201). -/
def portTo (s : State) (p : Nat) (st : PState) : State := linkEvent (modPort s p (fun q => { q with st := st })) p 0

/-- What becomes of the traffic of a port whose state leaves its flits nowhere to go (R205): events are lost, transfers are
replayed on the alternate or raise POISON, an attempt of a page pull fails. -/
def portLost (s : State) (p : Nat) : Nat × State :=
  let q := portOf s p
  let lost := (q.replay.filter (fun r => flitFld r.2 0 4 == 1)).length
  let s := q.toks.foldl (fun s (_, w, k) => addToken s w (some k) (-1)) s
  let s := modPort s p (fun q => { q with replay := [], toks := [], fails := [] })
  let one := fun (s : State) (c : Copy) =>
    if !c.via.contains p then c
    else if (routePort s c.node).isSome && !(c.dsp == 3 && c.xop != 0) then { c with done := [], asked := [], via := [] }
    else { c with fault := some .poison }
  (lost, { s with
    cores := s.cores.map (fun (n, k) => (n, { k with copies := k.copies.map (one s) }))
    pulls := s.pulls.map (fun q => if q.active && q.via == some p then { q with via := none } else q) })

/-- A port that goes to a state in which it carries nothing: its traffic is dealt with, and the event tells the events lost
(R201, R205). -/
def portDown (s : State) (p : Nat) (st : PState) : State :=
  let (lost, s) := portLost (modPort s p (fun q => { q with st := st })) p
  linkEvent s p lost

/-- PORT_TRAINED: TRAINING ends in ACTIVE, with a node number given by then; RETRAIN ends with a replay, counted transient
(R198, R201). -/
def execPortTrained (port : Nat) (s : State) : Out :=
  match (portOf s port).st with
  | .training =>
    let s := if s.node = 0xFFFF then
        let (n, s) := freshFree s
        { s with node := n % 0xFFFF }
      else s
    .next (portTo (modPort s port (fun q => { q with seq := 0, lastGood := 0xFFF, replay := [] })) port .active)
  | .retrain =>
    let s := modPort s port (fun q => { q.put (q.replay.map (fun r => r.2)) with transient := q.transient + 1, fails := [] })
    .next (portTo s port .active)
  | _ => .next s

/-- TRAINING_TIMEOUT: a port that has not trained within 10 ms goes DOWN (R201, R205). -/
def execTrainingTimeout (port : Nat) (s : State) : Out :=
  match (portOf s port).st with
  | .training => .next (portDown s port .down)
  | .retrain => .next (portDown s port .down)
  | _ => .next s

/-- LOSS_OF_SIGNAL: an ACTIVE port enters RETRAIN; a NAK of the same cycle is not looked at (R201). -/
def execLossOfSignal (port : Nat) (s : State) : Out :=
  if (portOf s port).st == .active then .next (portTo (modPort s port (fun q => { q with nak := none })) port .retrain)
  else .next s

/-- UCIE_MODULE_DOWN: its traffic moves to the modules that remain (R196). -/
def execUcieModuleDown (k : Nat) (s : State) : Out := .next { s with ucie := listSet s.ucie k false }

/-- Whether the package does not carry a UCIe module to its boundary (R1). -/
def moduleMissing (s : State) (k : Nat) : Bool := (s.noModule.getD Sys2Proof.Config.missingModules).getLsbD k

/-- UCIE_MODULE_ACTIVE: host traffic uses the module; fetching resumes with the first one (R196). A module that the package does not
carry never becomes active (R1), and none does while the device has no power (R461). -/
def execUcieModuleActive (k : Nat) (s : State) : Out :=
  .next (if moduleMissing s k || s.power == .d3cold then s else { s with ucie := listSet s.ucie k true })

/-- ROUTE_TABLE_LOAD: each destination node's primary port and its alternate (R198). -/
def execRouteTableLoad (t : List (Nat × Nat × Option Nat)) (s : State) : Out :=
  .next { s with routes := t.foldl (fun m (n, p, a) => mapSet m n (p, a)) [] }

/-! ### Flits received -/

/-- Whether a flit is whole and well formed (R200). -/
def flitOk (f : BitVec 1280) : Bool :=
  flitFld f 1216 64 == (crc64 f).toNat && flitFld f 0 4 ≤ 4 && flitFld f 4 19 == 0 && flitFld f 130 30 == 0 &&
  !(flitFld f 0 4 == 2 && flitFld f 80 3 == 7)

/-- A control flit of the link itself (R199, R200): IDLE 0 or NAK 3, with the last good SEQ; it takes no sequence number. -/
def sendControl (s : State) (p type : Nat) : State :=
  let q := portOf s p
  modPort s p (fun q' => q'.put [mkFlit { type := type, dst := 0xFFFF, src := s.node } q.seq q.lastGood])

/-- The records of an EVENT flit taken to their streams' PLUs, with REMOTE set (R93, R202): in class 6 of R20 by their
port, also where the stream's domain is on another die than the port and they cross a bridge (notes/assumptions/129.md). -/
def landEvents (s : State) (p : Nat) (f : BitVec 1280) : State :=
  (List.range (flitFld f 128 2 + 1)).foldl (fun s i =>
    let e := eventOfBits (flitFld f (192 + 256 * i) 256)
    let dst := dieOfStream s e.stream.toNat (dieOfPort p)
    let k : Intake := {
      cls := 6
      key := p
      marker := false
      ev := { e with remote := true }
      emitter := none
      tok := none
      port := some p
      done := none
      at_ := (dieOf s dst).cycle }
    modDie s dst (fun d => { d with intakeQ := d.intakeQ ++ [k] })) s

/-- A line read by a remote node that arrives (R204): it goes to the element that asked for it; none when it cannot be taken
yet. -/
def landGet (s : State) (xid addr : Nat) (bs : List Byte) : Option State :=
  match s.cores.findSome? (fun (n, k) => (k.copies.find? (fun c => c.id % 2 ^ 32 == xid && c.ssp == 2)).map (fun c => (n, c))) with
  | none => some s
  | some (n, c) => match c.asked.find? (fun k => !c.done.contains k && c.addr true k / 128 == addr), groupAt s n c.gslot with
    | some k, some g => match putElement s n g c k bs with
      | .ok s => some (modCopy s n c.id (fun q => { q with done := q.done ++ [k] }))
      | .page va s => some (modCopy s n c.id (fun q => { q with waitPage := some (va / 4096) }))
      | .stop f s => some (modCopy s n c.id (fun q => { q with fault := some f }))
      | .full _ => none
    | _, _ => some s

/-- A line sent back to the node that asked for it (R204, R193): none when no port has room; nothing where there is no route, or
where the line is poisoned or a window's, whose bytes no read returns (R61, R197, notes/assumptions/101.md). -/
def sendLine (s : State) (f : BitVec 1280) (op : Nat) : Option State :=
  match routePort s (flitFld f 64 16) with
  | none => some s
  | some p =>
    let pa := flitFld f 83 45 * 128
    if isPoisoned s (lineOf pa) || inWindow s pa 128 then some s
    else if !portRoom s p then none
    else
      some (sendFlit s p { type := 2, dst := flitFld f 64 16, op := op, addr := flitFld f 83 45, xid := flitFld f 160 32, body := memGetBytes s.mem pa 128 }).2

/-- What a flit for another node does (R198): forwarded on its destination's port; none when the port has no room. -/
def forward (s : State) (f : BitVec 1280) : Option State :=
  match routePort s (flitFld f 48 16) with
  | none => some s
  | some p =>
    if !portRoom s p then none
    else some (sendAs s p {
      type := flitFld f 0 4
      dst := flitFld f 48 16
      op := flitFld f 80 3
      addr := flitFld f 83 45
      nev := flitFld f 128 2
      xid := flitFld f 160 32
      body := bytesLE 128 (flitFld f 192 1024)
      src := flitFld f 64 16 }).2

/-- What an EVENT or DATA flit in sequence does (R198, R202, R204); none when it cannot be taken yet. -/
def landFlit (s : State) (p : Nat) (f : BitVec 1280) : Option State :=
  let body := bytesLE 128 (flitFld f 192 1024)
  let pa := flitFld f 83 45 * 128
  if flitFld f 48 16 != s.node then forward s f
  else if flitFld f 0 4 = 1 then some (landEvents s p f)
  else match flitFld f 80 3 with
    | 3 => sendLine s f 4
    | 4 => landGet s (flitFld f 160 32) (flitFld f 83 45) body
    | 5 => sendLine s f 6
    | 6 => some s
    | op => some (landLine s op pa body)

/-- Whether a flit takes a sequence number (R199, R200): an EVENT or a DATA flit. -/
def sequenced (f : BitVec 1280) : Bool := flitFld f 0 4 == 1 || flitFld f 0 4 == 2

/-- Whether a flit that is discarded may have taken a sequence number (R200): all but an IDLE, a NAK or a TRAIN. -/
def mayBeSequenced (f : BitVec 1280) : Bool := flitFld f 0 4 != 0 && flitFld f 0 4 != 3 && flitFld f 0 4 != 4

/-- FLIT_RECEIVE: a port that is ACTIVE checks a flit (R200): a bad one is discarded and answered with NAK, and where its SEQ has failed
before the port enters RETRAIN; a NAK brings a replay at the cycle's end (R201); a flit in sequence acts and is acknowledged. -/
def execFlitReceive (port : Nat) (flit : BitVec 1280) (s : State) : Out :=
  let q := portOf s port
  let want := (q.lastGood + 1) % 4096
  if q.st != .active then .next s
  else if !flitOk flit then
    let seq := flitFld flit 23 12
    let again := mayBeSequenced flit && q.fails.contains seq
    let s := modPort s port (fun q => { q with fails := if mayBeSequenced flit && !again then q.fails ++ [seq] else q.fails })
    let s := sendControl s port 3
    .next (if again then portTo s port .retrain else s)
  else if flitFld flit 0 4 = 3 then .next (modPort s port (fun q => { q with nak := some flit }))
  else
    let s := if flitFld flit 35 1 = 1 then ackFlits s port (flitFld flit 36 12) else s
    if !sequenced flit then .next s
    else
      let seq := flitFld flit 23 12
      if seq != want then .next (if (seq + 4096 - want) % 4096 < 2048 then sendControl s port 3 else s)
      else match landFlit s port flit with
        | none => .next s
        | some s =>
          let s := modPort s port (fun q => { q with
            lastGood := seq
            fails := q.fails.filter (fun n => n != seq)
            transient := if q.fails.contains seq then q.transient + 1 else q.transient })
          .next (sendControl s port 0)

end Sys2Proof.Machine
end

