-- ==== Sys2Proof/Machine/VecInt.lean ====
section
/-!
DEFINITION. Class 000, integer and logic (R277-R285).
-/
namespace Sys2Proof.Machine

/-- The quotient of IDIV and SDIV (R279, R257). -/
def quotOf (t : Ty) (sat : Bool) (xa xb : Nat) : Nat :=
  let a := readInt t xa
  let b := readInt t xb
  if b = 0 then (if !sat then 2 ^ tyWidth t - 1 else wrapTo (tyWidth t) (if a ≥ 0 then tyMax t else tyMin t))
  else if tySigned t && a == tyMin t && b == -1 then wrapTo (tyWidth t) (if sat then tyMax t else tyMin t)
  else wrapTo (tyWidth t) (Int.tdiv a b)

/-- The remainder of IREM (R279). -/
def remOf (t : Ty) (xa xb : Nat) : Nat :=
  let a := readInt t xa
  let b := readInt t xb
  if b = 0 then lowT t xa
  else if tySigned t && a == tyMin t && b == -1 then 0
  else wrapTo (tyWidth t) (a - Int.tdiv a b * b)

/-- The high half of the exact product (R256, R278). -/
def mulHigh (t : Ty) (xa xb : Nat) : Nat :=
  wrapTo (tyWidth t) ((readInt t xa * readInt t xb) / ((2 ^ tyWidth t : Nat) : Int))

/-- ASR (R10) of the source as its type reads it (R11, R256): under an N type the sign is plus, so the fill is 0
(DEDUCED: assumption log 91). -/
def asr (t : Ty) (xa n : Nat) : Nat := wrapTo (tyWidth t) (readInt t xa / ((2 ^ n : Nat) : Int))

/-- Number of 1 bits (R256, R278). -/
def popcount (w x : Nat) : Nat := ((List.range w).filter (fun i => x.testBit i)).length

/-- Leading zeros, w for 0 (R256, R278). -/
def clz (w x : Nat) : Nat := if x % 2 ^ w = 0 then w else w - 1 - Nat.log2 (x % 2 ^ w)

/-- Trailing zeros, w for 0 (R278). -/
def ctz (w x : Nat) : Nat := ((List.range w).find? (fun i => x.testBit i)).getD w

/-- Bits reversed (R278). -/
def bitrev (w x : Nat) : Nat := (List.range w).foldl (fun acc i => acc + (if x.testBit (w - 1 - i) then 2 ^ i else 0)) 0

/-- Rotation (R278). -/
def rotl (w a k : Nat) : Nat := ((a <<< k) ||| (a >>> (w - k))) % 2 ^ w

/-- BFE (R281). -/
def bitExtract (t : Ty) (xa xb xc : Nat) : Nat :=
  let w := tyWidth t
  let pos := Nat.min (xb % 256) w
  let len := Nat.min (xc % 256) w
  let field := wrapTo len (readInt t xa / ((2 ^ pos : Nat) : Int))
  if len = 0 then 0
  else if tySigned t then wrapTo w (signedOf len field) else field

/-- BFI (R281). -/
def bitInsert (w a b c : Nat) : Nat :=
  let pos := Nat.min (c % 256) w
  let len := Nat.min (c / 256 % 256) w
  let m := ((2 ^ len - 1) <<< pos) % 2 ^ w
  (a &&& (2 ^ w - 1 - m)) ||| ((b <<< pos) &&& m)

/-- DP4's sum (R285). -/
def dp4 (signed sat : Bool) (a b c : Nat) : Nat :=
  let bt : Ty := if signed then .i8 else .n8
  let rt : Ty := if signed then .i32 else .n32
  let sum := (List.range 4).foldl (fun acc i => acc + readInt bt (a >>> (8 * i)) * readInt bt (b >>> (8 * i))) (0 : Int)
  packInt rt sat (readInt rt c + sum)

/-- A two-source integer instruction of one type (R278). -/
def intA2 (g : Guard) (f : FA) (op : Nat → Nat → Nat) (s : State) : Out :=
  let n := tyRegs f.ty
  vecA2 g f n n n (fun _ a b => extV f.ty (op (lowT f.ty a) (lowT f.ty b))) s

/-- A one-source integer instruction (R278). -/
def intA1 (g : Guard) (f : FA) (op : Nat → Nat) (s : State) : Out :=
  let n := tyRegs f.ty
  vecA1 g f n n (fun _ b => extV f.ty (op (lowT f.ty b))) s

/-- A shift: the count is 32 bits wide (R277, R278). -/
def shiftA (g : Guard) (f : FA) (op : Nat → Nat → Nat) (s : State) : Out :=
  let n := tyRegs f.ty
  vecA2 g f n 1 n (fun _ a b => extV f.ty (op (lowT f.ty a) (b % tyWidth f.ty))) s

/-- IADD (R278). -/
def execIadd (g : Guard) (f : FA) (s : State) : Out :=
  intA2 g f (fun a b => packInt f.ty f.sat (readInt f.ty a + readInt f.ty b)) s
/-- ISUB (R278). -/
def execIsub (g : Guard) (f : FA) (s : State) : Out :=
  intA2 g f (fun a b => packInt f.ty f.sat (readInt f.ty a - readInt f.ty b)) s
/-- IMUL (R278). -/
def execImul (g : Guard) (f : FA) (s : State) : Out :=
  intA2 g f (fun a b => packInt f.ty f.sat (readInt f.ty a * readInt f.ty b)) s
/-- IMULH (R278). -/
def execImulh (g : Guard) (f : FA) (s : State) : Out := intA2 g f (mulHigh f.ty) s
/-- IMAD (R278). -/
def execImad (g : Guard) (f : FB) (s : State) : Out :=
  let n := tyRegs f.ty
  vecB3 g f n n n n (fun _ a b c =>
    extV f.ty (packInt f.ty f.sat (readInt f.ty a * readInt f.ty b + readInt f.ty c))) s
/-- IDIV (R279). -/
def execIdiv (g : Guard) (f : FA) (s : State) : Out := intA2 g f (quotOf f.ty f.sat) s
/-- IREM (R279). -/
def execIrem (g : Guard) (f : FA) (s : State) : Out := intA2 g f (remOf f.ty) s
/-- IMIN (R278). -/
def execImin (g : Guard) (f : FA) (s : State) : Out :=
  intA2 g f (fun a b => if readInt f.ty a ≤ readInt f.ty b then a else b) s
/-- IMAX (R278). -/
def execImax (g : Guard) (f : FA) (s : State) : Out :=
  intA2 g f (fun a b => if readInt f.ty a ≤ readInt f.ty b then b else a) s
/-- IABS (R278). -/
def execIabs (g : Guard) (f : FA) (s : State) : Out :=
  intA1 g f (fun b => packInt f.ty f.sat |readInt f.ty b|) s
/-- INEG (R278). -/
def execIneg (g : Guard) (f : FA) (s : State) : Out :=
  intA1 g f (fun b => packInt f.ty f.sat (-readInt f.ty b)) s
/-- ISAD (R278). -/
def execIsad (g : Guard) (f : FB) (s : State) : Out :=
  let n := tyRegs f.ty
  vecB3 g f n n n n (fun _ a b c =>
    extV f.ty (packInt f.ty f.sat (|readInt f.ty a - readInt f.ty b| + readInt f.ty c))) s
/-- IADDC (R280): the carry predicate is p[RND]. -/
def execIaddc (g : Guard) (f : FA) (s : State) : Out :=
  let n := tyRegs f.ty
  let w := tyWidth f.ty
  runWord .vector false 1 g noTok (fun _ _ => [opA f n, opB f n, .vd f.dst.toNat n])
    (fun x m s =>
      let r := fun (l : Nat) => addCarry w (lowT f.ty (valA f x n l)) (lowT f.ty (valB f x n l))
        (inMask (predOf x.wp f.rnd.toNat) l)
      let s := writeLanes s x m f.dst.toNat n (fun l => (r l).1)
      .done (onWarp s x (fun y => setPred y f.rnd.toNat m (maskOf ((lanesOf m).filter (fun l => (r l).2)))))) s
/-- AND (R278). -/
def execAnd (g : Guard) (f : FA) (s : State) : Out := intA2 g f (fun a b => a &&& b) s
/-- OR (R278). -/
def execOr (g : Guard) (f : FA) (s : State) : Out := intA2 g f (fun a b => a ||| b) s
/-- XOR (R278). -/
def execXor (g : Guard) (f : FA) (s : State) : Out := intA2 g f (fun a b => a ^^^ b) s
/-- NOT (R278). -/
def execNot (g : Guard) (f : FA) (s : State) : Out := intA1 g f (fun b => 2 ^ tyWidth f.ty - 1 - b) s
/-- ANDN (R278). -/
def execAndn (g : Guard) (f : FA) (s : State) : Out :=
  intA2 g f (fun a b => a &&& (2 ^ tyWidth f.ty - 1 - b)) s
/-- SHL (R278). -/
def execShl (g : Guard) (f : FA) (s : State) : Out := shiftA g f (fun a k => a <<< k) s
/-- SHR (R278). -/
def execShr (g : Guard) (f : FA) (s : State) : Out := shiftA g f (fun a k => a >>> k) s
/-- SAR (R278). -/
def execSar (g : Guard) (f : FA) (s : State) : Out := shiftA g f (asr f.ty) s
/-- ROT (R278). -/
def execRot (g : Guard) (f : FA) (s : State) : Out := shiftA g f (rotl (tyWidth f.ty)) s
/-- FUNNEL (R278). -/
def execFunnel (g : Guard) (f : FB) (s : State) : Out :=
  let n := tyRegs f.ty
  let w := tyWidth f.ty
  vecB3 g f n n 1 n (fun _ a b c => ((a * 2 ^ w + b) >>> (c % (2 * w))) % 2 ^ w) s
/-- POPC (R278). -/
def execPopc (g : Guard) (f : FA) (s : State) : Out := intA1 g f (popcount (tyWidth f.ty)) s
/-- CLZ (R278). -/
def execClz (g : Guard) (f : FA) (s : State) : Out := intA1 g f (clz (tyWidth f.ty)) s
/-- CTZ (R278). -/
def execCtz (g : Guard) (f : FA) (s : State) : Out := intA1 g f (ctz (tyWidth f.ty)) s
/-- BREV (R278). -/
def execBrev (g : Guard) (f : FA) (s : State) : Out := intA1 g f (bitrev (tyWidth f.ty)) s
/-- BFE (R281). -/
def execBfe (g : Guard) (f : FB) (s : State) : Out :=
  let n := tyRegs f.ty
  vecB3 g f n 1 1 n (fun _ a b c => extV f.ty (bitExtract f.ty a b c)) s
/-- BFI (R281). -/
def execBfi (g : Guard) (f : FB) (s : State) : Out :=
  let n := tyRegs f.ty
  vecB3 g f n n 1 n (fun _ a b c => bitInsert (tyWidth f.ty) a b c) s
/-- SEL (R282): the bits of the type's width, written under R273. -/
def execSel (g : Guard) (f : FB) (s : State) : Out :=
  let n := tyRegs f.ty
  runWord .vector false 1 g noTok (fun _ _ => [.v f.srca.toNat n id f.fea, opBb f n, .vd f.dst.toNat n])
    (fun x m s => .done (writeLanes s x m f.dst.toNat n (fun l =>
      extV f.ty (if inMask (predOf x.wp f.srcc.toNat) l then vregN x.wp f.srca.toNat n l else valBb f x n l)))) s
/-- ICMP (R282). -/
def execIcmp (g : Guard) (f : FA) (s : State) : Out := vecCmp g f (compareAs f.ty (cmpOp f)) s
/-- MOV (R283). -/
def execMov (g : Guard) (f : FA) (s : State) : Out := intA1 g f (fun b => b) s
/-- MOVI (R283). -/
def execMovi (g : Guard) (f : FI) (s : State) : Out :=
  let n := tyRegs f.ty
  runWord .vector false 1 g noTok (fun _ _ => [.vd f.dst.toNat n])
    (fun x m s => .done (writeLanes s x m f.dst.toNat n (fun _ => extV f.ty (immOf f.ty f.imm)))) s
/-- MOVHI (R283). -/
def execMovhi (g : Guard) (f : FI) (s : State) : Out :=
  let n := tyRegs f.ty
  runWord .vector false 1 g noTok (fun _ _ => [.v f.srca.toNat n id f.fe, .vd f.dst.toNat n])
    (fun x m s => .done (writeLanes s x m f.dst.toNat n (fun l =>
      (vregN x.wp f.srca.toNat n l * 2 ^ 24 + f.imm.toNat) % 2 ^ tyWidth f.ty))) s
/-- LEA (R284). -/
def execLea (g : Guard) (f : FB) (s : State) : Out :=
  runWord .vector false 1 g noTok (fun _ _ => [.v f.srca.toNat 2 id f.fea, opBb f 1, .vd f.dst.toNat 2])
    (fun x m s => .done (writeLanes s x m f.dst.toNat 2 (fun l =>
      wrapTo 64 ((vregN x.wp f.srca.toNat 2 l : Int) + readInt f.ty (valBb f x 1 l) * ((2 ^ (f.srcc.toNat % 8) : Nat) : Int))))) s
/-- DP4 (R285). -/
def execDp4 (g : Guard) (f : FB) (s : State) : Out :=
  vecB3 g f 1 1 1 1 (fun _ a b c => dp4 (f.ty == .i8) f.sat a b c) s

end Sys2Proof.Machine
end

