-- ==== Sys2Proof/Machine/Pair.lean ====
section
/-!
DEFINITION. Pair words (R224-R228): one meaning for each pair opcode of half 0, with half 1 beside it. Both halves read
before either writes.
-/
namespace Sys2Proof.Machine

/-- The value a half computes from D and S: by type, with FMT's rounding (R226). -/
abbrev HalfOp := Ty → Rnd → Nat → Nat → Nat

/-- The type of a PTYPE code (R225). -/
def ptyOf (p : BitVec 3) : Ty :=
  match p.toNat with
  | 0 => .i32
  | 1 => .n32
  | 2 => .f32
  | 3 => .f16
  | 4 => .b16
  | 5 => .i64
  | 6 => .n64
  | _ => .f64

/-- What a NOP half computes (R228). -/
def halfNop : HalfOp := fun _ _ d _ => d
/-- What a MOV half computes (R228). -/
def halfMov : HalfOp := fun _ _ _ b => b
/-- What a IADD half computes (R228). -/
def halfIadd : HalfOp := fun t _ d b => packInt t false (readInt t d + readInt t b)
/-- What a ISUB half computes (R228). -/
def halfIsub : HalfOp := fun t _ d b => packInt t false (readInt t d - readInt t b)
/-- What a IMUL half computes (R228). -/
def halfImul : HalfOp := fun t _ d b => packInt t false (readInt t d * readInt t b)
/-- What a IMIN half computes (R228). -/
def halfImin : HalfOp := fun t _ d b => if readInt t d ≤ readInt t b then d else b
/-- What a IMAX half computes (R228). -/
def halfImax : HalfOp := fun t _ d b => if readInt t d ≤ readInt t b then b else d
/-- What a AND half computes (R228). -/
def halfAnd : HalfOp := fun _ _ d b => d &&& b
/-- What a OR half computes (R228). -/
def halfOr : HalfOp := fun _ _ d b => d ||| b
/-- What a XOR half computes (R228). -/
def halfXor : HalfOp := fun _ _ d b => d ^^^ b
/-- What a ANDN half computes (R228). -/
def halfAndn : HalfOp := fun t _ d b => d &&& (2 ^ tyWidth t - 1 - b)
/-- What a SHL half computes (R228). -/
def halfShl : HalfOp := fun t _ d b => d <<< (b % tyWidth t)
/-- What a SHR half computes (R228). -/
def halfShr : HalfOp := fun t _ d b => d >>> (b % tyWidth t)
/-- What a SAR half computes (R228). -/
def halfSar : HalfOp := fun t _ d b => asr t d (b % tyWidth t)
/-- What a NOT half computes (R228). -/
def halfNot : HalfOp := fun t _ _ b => 2 ^ tyWidth t - 1 - b
/-- What a INEG half computes (R228). -/
def halfIneg : HalfOp := fun t _ _ b => packInt t false (-readInt t b)
/-- What a FADD half computes (R228). -/
def halfFadd : HalfOp := fun t r d b => fAdd (fmtOf t) r d b
/-- What a FSUB half computes (R228). -/
def halfFsub : HalfOp := fun t r d b => fSub (fmtOf t) r d b
/-- What a FMUL half computes (R228). -/
def halfFmul : HalfOp := fun t r d b => fMul (fmtOf t) r d b
/-- What a FMIN half computes (R228). -/
def halfFmin : HalfOp := fun t r d b => fMinMax (fmtOf t) r.nanp false false d b
/-- What a FMAX half computes (R228). -/
def halfFmax : HalfOp := fun t r d b => fMinMax (fmtOf t) r.nanp true false d b
/-- What a FMINNUM half computes (R228). -/
def halfFminnum : HalfOp := fun t r d b => fMinMax (fmtOf t) r.nanp false true d b
/-- What a FMAXNUM half computes (R228). -/
def halfFmaxnum : HalfOp := fun t r d b => fMinMax (fmtOf t) r.nanp true true d b
/-- What a FABS half computes (R228). -/
def halfFabs : HalfOp := fun t _ _ b => b % signBit (fmtOf t)
/-- What a FNEG half computes (R228). -/
def halfFneg : HalfOp := fun t _ _ b => b ^^^ signBit (fmtOf t)
/-- What a FCOPYSIGN half computes (R228). -/
def halfFcopysign : HalfOp := fun t _ d b => d % signBit (fmtOf t) + b / signBit (fmtOf t) % 2 * signBit (fmtOf t)

/-- What a half computes, by its pair opcode (R228). -/
def halfOp (p : Pop) : HalfOp :=
  match p with
  | .nop => halfNop
  | .mov => halfMov
  | .iadd => halfIadd
  | .isub => halfIsub
  | .imul => halfImul
  | .imin => halfImin
  | .imax => halfImax
  | .and_ => halfAnd
  | .or_ => halfOr
  | .xor_ => halfXor
  | .andn => halfAndn
  | .shl => halfShl
  | .shr => halfShr
  | .sar => halfSar
  | .not_ => halfNot
  | .ineg => halfIneg
  | .fadd => halfFadd
  | .fsub => halfFsub
  | .fmul => halfFmul
  | .fmin => halfFmin
  | .fmax => halfFmax
  | .fminnum => halfFminnum
  | .fmaxnum => halfFmaxnum
  | .fabs => halfFabs
  | .fneg => halfFneg
  | .fcopysign => halfFcopysign

/-- The lanes in which a half runs: its guard on the split's active mask (R226). -/
def halfMask (x : Iss) (a : HalfArgs) : W32 := guardMask x { neg := false, pred := a.pred }

/-- The registers of a half met as R66 and R67 say, in the half's own lanes. -/
def halfOpds (x : Iss) (h : Half) : List Opd :=
  let m := halfMask x h.args
  let n := tyRegs (ptyOf h.args.pty)
  let emp := fun (r : BitVec 9) => maskOf ((lanesOf m).filter (fun l => (List.range n).any (fun k => vEmpty x.wp (r.toNat + k) l)))
  if h.pop == .nop then []
  else
    (if h.pop.readsD then [.pre (emp h.args.d) .nothing false] else []) ++
    [if h.args.u then .pre (if uEmpty x.grp h.args.s.toNat then m else 0) .groupRoles false else .pre (emp h.args.s) .nothing false] ++
    [.pre (emp h.args.d) .nothing false]

/-- What a half writes in lane `l`: the operation on the registers as the split read them (R226, R273). -/
def halfValue (op : HalfOp) (x : Iss) (a : HalfArgs) (l : Nat) : Nat :=
  let t := ptyOf a.pty
  let n := tyRegs t
  let b := if a.u then (sreg x.grp a.s.toNat).toNat else vregN x.wp a.s.toNat n l
  extV t (op t (fmtRnd x.sp.fmt) (lowT t (vregN x.wp a.d.toNat n l)) (lowT t b))

/-- One half's write. -/
def halfWrite (y : Warp) (op : HalfOp) (p : Pop) (x : Iss) (a : HalfArgs) : Warp :=
  if p == .nop then y else setVregN y a.d.toNat (tyRegs (ptyOf a.pty)) (halfMask x a) (halfValue op x a)

/-- Whether a half names a register beyond the warp's count (R209). -/
def halfBeyond (x : Iss) (h : Half) : Bool :=
  x.isVec && (h.reads ++ h.writes).any (fun r => !x.hasRegs r 1)

/-- A pair word whose half 0 has opcode `p` and computes `op` (R224, R226). -/
def pairExec (p : Pop) (op : HalfOp) (a : HalfArgs) (h : Half) (s : State) : Out :=
  let h0 : Half := { pop := p, args := a }
  runWordIf (fun x => halfBeyond x h0 || halfBeyond x h) .vector false { neg := false, pred := 7 }
    (fun x _ => halfOpds x h0 ++ halfOpds x h)
    (fun x _ s => .done (onWarp s x (fun y => halfWrite (halfWrite y op p x a) (halfOp h.pop) h.pop x h.args))) s

/-- A pair word whose half 0 is NOP (R228). -/
def execPairNop (a : HalfArgs) (h : Half) (s : State) : Out := pairExec .nop halfNop a h s
/-- A pair word whose half 0 is MOV (R228). -/
def execPairMov (a : HalfArgs) (h : Half) (s : State) : Out := pairExec .mov halfMov a h s
/-- A pair word whose half 0 is IADD (R228). -/
def execPairIadd (a : HalfArgs) (h : Half) (s : State) : Out := pairExec .iadd halfIadd a h s
/-- A pair word whose half 0 is ISUB (R228). -/
def execPairIsub (a : HalfArgs) (h : Half) (s : State) : Out := pairExec .isub halfIsub a h s
/-- A pair word whose half 0 is IMUL (R228). -/
def execPairImul (a : HalfArgs) (h : Half) (s : State) : Out := pairExec .imul halfImul a h s
/-- A pair word whose half 0 is IMIN (R228). -/
def execPairImin (a : HalfArgs) (h : Half) (s : State) : Out := pairExec .imin halfImin a h s
/-- A pair word whose half 0 is IMAX (R228). -/
def execPairImax (a : HalfArgs) (h : Half) (s : State) : Out := pairExec .imax halfImax a h s
/-- A pair word whose half 0 is AND (R228). -/
def execPairAnd (a : HalfArgs) (h : Half) (s : State) : Out := pairExec .and_ halfAnd a h s
/-- A pair word whose half 0 is OR (R228). -/
def execPairOr (a : HalfArgs) (h : Half) (s : State) : Out := pairExec .or_ halfOr a h s
/-- A pair word whose half 0 is XOR (R228). -/
def execPairXor (a : HalfArgs) (h : Half) (s : State) : Out := pairExec .xor_ halfXor a h s
/-- A pair word whose half 0 is ANDN (R228). -/
def execPairAndn (a : HalfArgs) (h : Half) (s : State) : Out := pairExec .andn halfAndn a h s
/-- A pair word whose half 0 is SHL (R228). -/
def execPairShl (a : HalfArgs) (h : Half) (s : State) : Out := pairExec .shl halfShl a h s
/-- A pair word whose half 0 is SHR (R228). -/
def execPairShr (a : HalfArgs) (h : Half) (s : State) : Out := pairExec .shr halfShr a h s
/-- A pair word whose half 0 is SAR (R228). -/
def execPairSar (a : HalfArgs) (h : Half) (s : State) : Out := pairExec .sar halfSar a h s
/-- A pair word whose half 0 is NOT (R228). -/
def execPairNot (a : HalfArgs) (h : Half) (s : State) : Out := pairExec .not_ halfNot a h s
/-- A pair word whose half 0 is INEG (R228). -/
def execPairIneg (a : HalfArgs) (h : Half) (s : State) : Out := pairExec .ineg halfIneg a h s
/-- A pair word whose half 0 is FADD (R228). -/
def execPairFadd (a : HalfArgs) (h : Half) (s : State) : Out := pairExec .fadd halfFadd a h s
/-- A pair word whose half 0 is FSUB (R228). -/
def execPairFsub (a : HalfArgs) (h : Half) (s : State) : Out := pairExec .fsub halfFsub a h s
/-- A pair word whose half 0 is FMUL (R228). -/
def execPairFmul (a : HalfArgs) (h : Half) (s : State) : Out := pairExec .fmul halfFmul a h s
/-- A pair word whose half 0 is FMIN (R228). -/
def execPairFmin (a : HalfArgs) (h : Half) (s : State) : Out := pairExec .fmin halfFmin a h s
/-- A pair word whose half 0 is FMAX (R228). -/
def execPairFmax (a : HalfArgs) (h : Half) (s : State) : Out := pairExec .fmax halfFmax a h s
/-- A pair word whose half 0 is FMINNUM (R228). -/
def execPairFminnum (a : HalfArgs) (h : Half) (s : State) : Out := pairExec .fminnum halfFminnum a h s
/-- A pair word whose half 0 is FMAXNUM (R228). -/
def execPairFmaxnum (a : HalfArgs) (h : Half) (s : State) : Out := pairExec .fmaxnum halfFmaxnum a h s
/-- A pair word whose half 0 is FABS (R228). -/
def execPairFabs (a : HalfArgs) (h : Half) (s : State) : Out := pairExec .fabs halfFabs a h s
/-- A pair word whose half 0 is FNEG (R228). -/
def execPairFneg (a : HalfArgs) (h : Half) (s : State) : Out := pairExec .fneg halfFneg a h s
/-- A pair word whose half 0 is FCOPYSIGN (R228). -/
def execPairFcopysign (a : HalfArgs) (h : Half) (s : State) : Out := pairExec .fcopysign halfFcopysign a h s

end Sys2Proof.Machine
end

