-- ==== Sys2Proof/Machine/Platform.lean ====
section
/-!
DEFINITION. The platform: SYSTEM operations (R459), power states (R460), clocks (R462), boot (R463), measurements and SPDM (R464),
the firmware leader (R465), detected errors (R435, R197).
-/
namespace Sys2Proof.Machine

/-! ### Power -/

/-- Whether a partition has a group that is RESIDENT or QUEUED (R460). -/
def partBusy (s : State) (p : Nat) : Bool :=
  let mine := fun (x : Nat) => (ctxOf s x).st != .free && (ctxOf s x).part == p
  (residents s).any (fun e => mine e.2.2.ctx) || s.cores.any (fun (_, k) => k.runq.any (fun q => mine q.1)) ||
  s.ctxs.any (fun (x, c) => mine x && !c.detq.isEmpty)

/-- The PWR field of every partition set: the whole device's state (R454, R460). -/
def setPwr (s : State) (v : Nat) : State := (List.range 16).foldl (fun s p => modPart s p (fun q => { q with pwr := v })) s

/-- POWER (R459, R460): CORE-GATED, DIE-RETAIN and D0; a transition that R460 does not list is refused. -/
def execPower (m : Mb) (w : BitVec 64) (s : State) : Out :=
  withMail m 5 s (fun s =>
    let p := bitsOf w.toNat 8 4
    let done := fun (s : State) => mbDone s m stOk 0 0 []
    let bad := mbDone s m stBadState 0 0 []
    match bitsOf w.toNat 0 3 with
    | 0 => if s.power == .dieRetain then done (setPwr { s with power := .d0 } 0) else bad
    | 1 => if s.power == .d0 && (partOf s p).pwr = 0 && !partBusy s p then done (modPart s p (fun q => { q with pwr := 1 })) else bad
    | 2 => if s.power == .d0 && s.parts.all (fun (_, q) => !q.en || q.pwr = 1) then done (setPwr { s with power := .dieRetain } 2) else bad
    | 3 => bad
    | _ => mbDone s m stMalformed 0 0 [])

/-- PM_D3HOT: every RESIDENT context is pre-empted, what is held lazily is written out, every port is disabled; then D3HOT
(R460). It is given again until the saves are done. -/
def execPmD3hot (s : State) : Out :=
  if !(s.power == .d0 || s.power == .dieRetain) then .next s
  else
    let s := { s with pmPending := true }
    let s := s.ctxs.foldl (fun s (x, c) => if c.st == .resident then beginSave s x else s) s
    if s.ctxs.any (fun (_, c) => c.st == .saving || c.st == .resuming || c.st == .resident) then .next s
    else
      let s := (s.cores.map (fun e => e.1)).foldl (fun s c => (s.ctxs.map (fun e => e.1)).foldl (fun s x => writeOut s c x) s) s
      let s := (List.range 18).foldl (fun s p =>
        if (portOf s p).st == .disabled || (portOf s p).st == .absent then s else portDown s p .disabled) s
      .next (setPwr { s with power := .d3hot, pmPending := false } 3)

/-- PM_D0: D3HOT ends; contexts stay SAVED and ports DISABLED (R460). -/
def execPmD0 (s : State) : Out :=
  if s.power == .d3hot then .next (setPwr { s with power := .d0 } 0) else .next s

/-- POWER_REMOVED: D3HOT goes to D3COLD, and all state of the device is lost; the host's memory is not the device's (R460). -/
def execPowerRemoved (s : State) : Out :=
  if s.power != .d3hot then .next s
  else .next { State.reset with
    power := .d3cold
    mem := s.mem.filter (fun c => inHostMem c.1)
    schedule := s.schedule
    freeCtr := s.freeCtr }

/-- Whether a firmware image is accepted (R463): an OPEN part takes the development keys. -/
def fwImageOk (openPart : Bool) (img : List Byte) : Bool :=
  let n := bytesAt img 16 8
  let body := (img.drop 20480).take n
  Sys2Proof.Config.signaturesVerify openPart (img.take 16864) && Sys2Proof.Config.fusedMinSvn ≤ bytesAt img 4 4 && body.length == n &&
  Sys2Proof.Config.sha384 body == BitVec.ofNat 384 (bytesAt img 24 48)

/-- The partition register's SEC of every partition, as bytes to be measured. -/
def secBytes (s : State) : List Byte := (List.range 16).map (fun p => BitVec.ofNat 8 (partOf s p).sec)

/-- POWER_ON: boot from the image of the boot flash (R460, R463, R464): a die whose check fails holds its firmware core; the
partitions are LOCKED, or OPEN on a part whose fuse is unprogrammed (R459); the ports `absent` are ABSENT (R201), the UCIe modules
that the package does not carry never become active (R1), and the power limit is the form's (R462). -/
def execPowerOn (absent : BitVec 18) (openPart : Bool) (image : List Byte) (s : State) : Out :=
  if s.power != .d3cold then .next s
  else
    let ok := fwImageOk openPart image
    let s := { s with
      power := .d0
      noModule := some Sys2Proof.Config.missingModules
      pwrLimit := some (if Sys2Proof.Config.formM then 3200 else Sys2Proof.Config.packageLimit image) }
    let s := (List.range 16).foldl (fun s p => modPart s p (fun q => { q with sec := if openPart then 2 else 0 })) s
    let s := (List.range 18).foldl (fun s p => modPort s p (fun q => { q with st := if absent.getLsbD p then .absent else .disabled })) s
    let s := (List.range 4).foldl (fun s d => modDie s d (fun k => { k with fwHeld := !ok })) s
    if !ok then .next s
    else
      let s := { s with fw := {
        version := bytesAt image 0 4
        svn := bytesAt image 4 4
        layouts := bytesAt image 8 8
        layout := 3
        staged := none
        pending := false } }
      let s := extendMeas s 0 Sys2Proof.Config.bootRom
      let s := extendMeas s 1 (image.take 20480)
      let s := extendMeas s 2 ((image.drop 20480).take (bytesAt image 16 8))
      let s := (List.range 16).foldl (fun s p => modPart s p (fun q =>
        { q with meas4 := extended 0 (Sys2Proof.Config.fuses ++ [BitVec.ofNat 8 q.sec]) })) s
      .next (extendMeas s 3 (Sys2Proof.Config.fuses ++ secBytes s))

/-- CLOCK_THROTTLE: the mean power over 1 ms exceeds the cap; the arithmetic clock falls by a step of 50 MHz, to 650 MHz at
least (R462). -/
def execClockThrottle (s : State) : Out :=
  .next (if s.power == .d3cold then s else { s with clockMhz := Nat.max 650 (s.clockMhz - 50) })

/-- The most that PWRCAP accepts (R462): the form's limit, until a boot has told it. -/
def powerLimit (s : State) : Nat :=
  s.pwrLimit.getD (if Sys2Proof.Config.formM then 3200 else Sys2Proof.Config.packageLimit [])

/-- PWRCAP (R459, R462): at most the form's limit. -/
def execPwrcap (m : Mb) (w : BitVec 64) (s : State) : Out :=
  withMail m 5 s (fun s =>
    let v := bitsOf w.toNat 0 16
    if v > powerLimit s then mbDone s m stMalformed 0 0 [] else mbDone { s with pwrcap := v } m stOk 0 0 [])

/-! ### Security -/

/-- A role whose halt has ended, and that of what it was doing when its save handler was started (R89, R433): a BRKPT is passed. -/
def freedWarp (y : Warp) : Warp :=
  let past := fun (q : Split) => if q.wait == some .brkpt then { q with wait := none, pc := q.pc + 8 } else q
  { y with
    halted := false
    splits := y.splits.map (fun o => o.map past)
    aside := y.aside.map (fun a => { a with halted := false, splits := a.splits.map (fun o => o.map past) }) }

/-- A role of a resident group released, with what its save handler has set aside. -/
def releaseRole (s : State) (c g w : Nat) (y : Warp) : State :=
  let s := if y.halted then releaseWarp s c g w else s
  modWarp s c g w (fun y => { y with aside := y.aside.map (fun a => (freedWarp { y with aside := some a }).aside.getD a) })

/-- The roles of a saved group released. -/
def releaseSaved (g : SavedGroup) : SavedGroup :=
  let one := fun (y : Warp) => if y.halted || y.aside.isSome then freedWarp y else y
  { g with grp := { g.grp with warps := g.grp.warps.map (fun (w, y) => (w, one y)) } }

/-- Every halt of a partition released, in the groups of SAVED contexts too (R459). -/
def releasePart (s : State) (p : Nat) : State :=
  let mine := (residents s).filter (fun e => (ctxOf s e.2.2.ctx).part == p)
  let s := mine.foldl (fun s (c, g, k) => k.warps.foldl (fun s (w, y) => releaseRole s c g w y) s) s
  let ctx := fun (c : Context) => if c.part == p then { c with saved := c.saved.map releaseSaved } else c
  let s := { s with ctxs := s.ctxs.map (fun (x, c) => (x, ctx c)) }
  s.ctxs.foldl (fun s (x, c) => if c.part == p then lateExpiry s x else s) s

/-- UNLOCK (R459): the token's signatures, identity and counter, then the contexts and the state. -/
def execUnlock (m : Mb) (w : BitVec 64) (s : State) : Out :=
  withMail m 5 s (fun s =>
    let tok := memGetBytes s.mem w.toNat (64 + 384 + 16224)
    let (p, ident, ctr) := Sys2Proof.Config.tokenBody (tok.take 64)
    if !Sys2Proof.Config.signaturesVerify false tok || ident != Sys2Proof.Config.identity || ctr != s.unlockCtr || p ≥ 16 then
      mbDone s m stMalformed 0 0 []
    else if (partOf s p).sec != 0 || s.ctxs.any (fun (_, c) => c.st != .free && c.part == p) then mbDone s m stBadState 0 0 []
    else mbDone (modPart s p (fun q => { q with sec := 1 })) m stOk 0 0 [])

/-- LOCK (R459). -/
def execLock (m : Mb) (w : BitVec 64) (s : State) : Out :=
  withMail m 5 s (fun s =>
    let p := bitsOf w.toNat 8 4
    match (partOf s p).sec with
    | 0 => mbDone s m stOk 0 0 []
    | 1 =>
      let s := modPart (releasePart s p) p (fun q => { q with sec := 0, dbg := 0 })
      mbDone { s with unlockCtr := s.unlockCtr + 1 } m stOk 0 0 []
    | _ => mbDone s m stBadState 0 0 [])

/-- DEBUGLVL (R459). -/
def execDebuglvl (m : Mb) (w : BitVec 64) (s : State) : Out :=
  withMail m 5 s (fun s =>
    let p := bitsOf w.toNat 8 4
    let v := bitsOf w.toNat 0 2
    if v = 3 then mbDone s m stMalformed 0 0 []
    else if v != 0 && (partOf s p).sec = 0 then mbDone s m stPriv 0 0 []
    else
      let s := if (partOf s p).dbg = 2 && v < 2 then releasePart s p else s
      mbDone (modPart s p (fun q => { q with dbg := v })) m stOk 0 0 [])

/-- IDSIG (R459): the signature of the SHA-384 of the function's last SPDM transcript, written at an address. -/
def execIdsig (m : Mb) (w : BitVec 64) (s : State) : Out :=
  withMail m 5 s (fun s =>
    let d := Sys2Proof.Config.sha384 (mapGet s.spdm m.fn [])
    let sig := (List.range 16224).map (fun i => Sys2Proof.Config.slhSign d i)
    if inHole w.toNat then mbDone s m stMalformed 0 0 [] else mbDone (hostPut s w.toNat sig) m stOk 0 0 [])

/-! ### Firmware -/

/-- FWSTAGE (R459, R463): an image read and verified. -/
def execFwstage (m : Mb) (w : BitVec 64) (s : State) : Out :=
  withMail m 5 s (fun s =>
    let n := memNat s.mem (w.toNat + 16) 8
    if inHole w.toNat || w.toNat + 20480 + n > 2 ^ 52 then mbDone s m stMalformed 0 0 []
    else
      let img := memGetBytes s.mem w.toNat (20480 + n)
      if !fwImageOk ((partOf s 0).sec == 2) img then mbDone s m stMalformed 0 0 []
      else
        let fw := { s.fw with staged := some (bytesAt img 0 4, bytesAt img 4 4, bytesAt img 8 8) }
        mbDone { s with fw := fw } m stOk 0 0 [])

/-- FWACT (R91, R459): the staged image put in force, or pending. -/
def execFwact (m : Mb) (_w : BitVec 64) (s : State) : Out :=
  withMail m 5 s (fun s =>
    if s.fw.staged.isNone then mbDone s m stBadState 0 0 [] else mbDone (activate s) m stOk 0 0 [])

/-! ### Ports and batch queues -/

/-- PORT (R201, R459): a port enabled or disabled, and the link stream. -/
def execPort (m : Mb) (w : BitVec 64) (s : State) : Out :=
  withMail m 5 s (fun s =>
    let p := bitsOf w.toNat 0 5
    if p > 17 then mbDone s m stMalformed 0 0 []
    else if (portOf s p).st == .absent then mbDone s m stBadState 0 0 []
    else
      let s := { s with linkStream := some (bitsOf w.toNat 16 14) }
      let st := (portOf s p).st
      let s := if w.getLsbD 8 then (if st == .disabled || st == .down then portTo s p .training else s)
        else if st == .disabled then s else portDown s p .disabled
      mbDone s m stOk 0 0 [])

/-- BQCFG (R109, R111, R459): a DISABLED queue configured and enabled. -/
def execBqcfg (m : Mb) (w : BitVec 64) (s : State) : Out :=
  withMail m 5 s (fun s =>
    let v := w.toNat
    let q := bitsOf v 0 5
    let die := bitsOf v 5 2
    if (bqOf s die q).enabled then mbDone s m stBadState 0 0 []
    else
      let b : BQ := {
        enabled := true
        part := bitsOf v 8 4
        cap := bitsOf v 16 12 + 1
        lw := bitsOf v 28 12
        stream := bitsOf v 40 14
        ents := []
        start := 0 }
      let s := modBq s die q (fun _ => b)
      mbDone (if b.lw > 0 then lowWater s die q else s) m stOk 0 0 [])

/-! ### SPDM -/

/-- The measurements that a function's responder reports (R464): a VF's 4 and 5 are those of its own partition alone
(notes/assumptions/76.md). -/
def measOf (s : State) (fn : Nat) : List (BitVec 384) :=
  let all := (dieOf s 0).meas
  if fn = 0 then all else all.take 3 ++ [(partOf s (fn - 1)).meas4, (partOf s (fn - 1)).meas5]

/-- An SPDM request (R458, R464): the responder's answer is the completion's body, and both join the transcript, which
GET_VERSION begins. -/
def spdm (m : Mb) (code : Nat) (msg : List Byte) (s : State) : Out :=
  withMail m 3 s (fun s =>
    let t := if code = 0x84 then [] else mapGet s.spdm m.fn []
    let r := Sys2Proof.Config.spdmResponse code msg t m.fn (measOf s m.fn)
    mbDone { s with spdm := mapSet s.spdm m.fn (t ++ msg ++ r) } m stOk 0 0 r)

/-- GET_VERSION (R464). -/
def execGetVersion (m : Mb) (msg : List Byte) (s : State) : Out := spdm m 0x84 msg s
/-- GET_CAPABILITIES (R464). -/
def execGetCapabilities (m : Mb) (msg : List Byte) (s : State) : Out := spdm m 0xE1 msg s
/-- NEGOTIATE_ALGORITHMS (R464). -/
def execNegotiateAlgorithms (m : Mb) (msg : List Byte) (s : State) : Out := spdm m 0xE3 msg s
/-- GET_DIGESTS (R464). -/
def execGetDigests (m : Mb) (msg : List Byte) (s : State) : Out := spdm m 0x81 msg s
/-- GET_CERTIFICATE (R464). -/
def execGetCertificate (m : Mb) (msg : List Byte) (s : State) : Out := spdm m 0x82 msg s
/-- CHALLENGE (R464). -/
def execChallenge (m : Mb) (msg : List Byte) (s : State) : Out := spdm m 0x83 msg s
/-- GET_MEASUREMENTS (R464). -/
def execGetMeasurements (m : Mb) (msg : List Byte) (s : State) : Out := spdm m 0xE0 msg s

/-! ### The firmware leader -/

/-- The lease word's address (R465). -/
def leaseAddr : Nat := 0x011FFFFFFF80

/-- The lease word (R465). -/
def leaseOf (epoch beat leader : Nat) : Nat := epoch % 2 ^ 32 * 2 ^ 32 + beat % 2 ^ 16 * 2 ^ 16 + leader % 4

/-- What a die has seen of the lease, with the cycle at which it saw it. -/
def seeLease (s : State) (die w : Nat) (leads : Bool) : State :=
  modDie s die (fun d => { d with leads := leads, leaseSeen := w, leaseSince := d.cycle })

/-- Whether a die's compare and swap of the lease is due (R465): a leader's renewal, or a follower's after a lapse. -/
def leaseDue (s : State) (die : Nat) : Bool :=
  let d := dieOf s die
  !d.fwHeld && d.leaseSeen == memNat s.mem leaseAddr 8 && d.leaseSince + (if d.leads then 2600000 else 13000000) ≤ d.cycle

/-- The dies in the order in which requests that meet reach the home of the lease word (R307): its own die, then the bridges by die. -/
def leaseOrder : List Nat :=
  let h := hbmChannel leaseAddr / 128
  h :: (List.range 4).filter (fun d => d != h)

/-- Whether a die's compare and swap is the first of those that meet (R307, R465). -/
def leaseTurn (s : State) (die : Nat) : Bool := leaseOrder.find? (leaseDue s) == some die

/-- LEASE_RENEW: the leader adds 1 to BEAT every 2,600,000 of its cycles by a compare and swap; one whose swap fails stops
leading (R465). -/
def execLeaseRenew (die : Nat) (s : State) : Out :=
  let d := dieOf s die
  if !d.leads || d.fwHeld || d.cycle < d.leaseSince + 2600000 || s.power == .d3cold then .next s
  else
    let w := memNat s.mem leaseAddr 8
    if w != d.leaseSeen then .next (seeLease s die w false)
    else if !leaseTurn s die then .next s
    else
      let v := leaseOf (bitsOf w 32 32) (bitsOf w 16 16 + 1) (bitsOf w 0 2)
      .next (seeLease (unitWrite s leaseAddr (bytesLE 8 v)) die v true)

/-- LEASE_LAPSE: a follower looks at the lease; one that has seen it unchanged for 13,000,000 of its cycles takes it by a
compare and swap, and tells of it on the link stream (R465). Those that meet go in the order of R307. -/
def execLeaseLapse (die : Nat) (s : State) : Out :=
  let d := dieOf s die
  let w := memNat s.mem leaseAddr 8
  if d.leads || d.fwHeld || s.power == .d3cold then .next s
  else if w != d.leaseSeen then .next (seeLease s die w false)
  else if d.cycle < d.leaseSince + 13000000 || !leaseTurn s die then .next s
  else
    let v := leaseOf (bitsOf w 32 32 + 1) 0 die
    let s := seeLease (unitWrite s leaseAddr (bytesLE 8 v)) die v true
    match s.linkStream with
    | some n => .next (deviceEvent s die 3 srcFirmware n 0xEB die (bitsOf v 32 32) false)
    | none => .next s

/-! ### Detected errors -/

/-- A core taken out of service (R435): each group on it raises POISON to its fault domain, and what is queued on it goes to
another core of its partition. -/
def removeCore (s : State) (core : Nat) : State :=
  let s := modCore s core (fun k => { k with dead := true })
  let s := ((residents s).filter (fun e => e.1 == core)).foldl (fun s e =>
    if (groupAt s e.1 e.2.1).isSome then regionFault s e.2.2.ctx e.2.2.region Cause.poison.code e.2.2.launch (dieOfCore core) else s) s
  let q := (coreOf s core).runq
  let s := modCore s core (fun k => { k with runq := [] })
  q.foldl (fun s e =>
    match (coresOf s (ctxOf s e.1).part).find? (fun c => !(coreOf s c).dead) with
    | some c => modCore s c (fun k => { k with runq := k.runq ++ [e] })
    | none => s) s

/-- What a core holds lazily in an operand slot or an accumulator block that fails is poisoned (R435). -/
def poisonHeld (kind n : Nat) (k : Core) : Core :=
  let lost := fun (h : Holder) => match h with
    | .lazy _ _ _ => true
    | _ => false
  if kind = 2 then { k with slots := k.slots.map (fun (i, o) => (i, if i = n % 8 && lost o.holder then { o with bad := true } else o)) }
  else if kind = 3 then { k with blocks := k.blocks.map (fun (i, b) => (i, if i = n % 512 && lost b.holder then { b with bad := true } else b)) }
  else k

/-- DETECTED_ERROR (R197, R435): `kind` 0 to 3 is a core's storage, 4 an SRAM slice, 5 HBM; `pa` is the address, or the operand slot or
accumulator block. A transient one is counted; a lasting one takes the core out of service or poisons the line, and is reported. -/
def execDetectedError (kind core : Nat) (pa : Nat) (lasting : Bool) (s : State) : Out :=
  if s.power == .d3cold then .next s
  else if !lasting then
    let k := kind * 1024 + core
    .next { s with errCount := mapSet s.errCount k (mapGet s.errCount k 0 + 1) }
  else
    let s := if kind < 4 then modCore (removeCore s core) core (poisonHeld kind pa)
      else if isPoisoned s (lineOf pa) then s else { s with poison := s.poison ++ [lineOf pa] }
    match s.linkStream with
    | some n => .next (if kind ≤ 4 then deviceEvent s (dieOfCore core) 3 srcFirmware n 0xE9 core kind false else s)
    | none => .next s

end Sys2Proof.Machine
end

