-- ==== Sys2Proof/Machine/VecConv.lean ====
section
/-!
DEFINITION. Class 010, conversion and lane exchange (R293-R301).
-/
namespace Sys2Proof.Machine

/-- The source type named in SRCB[3:0] (R213). -/
def srcTy (f : FA) : Ty := (tyOf (f.srcb.extractLsb' 0 4)).getD .i8

/-- CVT (R294). -/
def execCvt (g : Guard) (f : FA) (s : State) : Out :=
  let t := srcTy f
  vecAa g f (tyRegs t) (tyRegs f.ty) (fun x a => extV f.ty (convert t f.ty (rndA f x) (lowT t a))) s

/-- CVTF8 (R295): four conversions, packing into bytes or unpacking into a quad. -/
def execCvtf8 (g : Guard) (f : FA) (s : State) : Out :=
  let t := srcTy f
  if tyWidth f.ty = 8 then
    vecAa g f 4 1 (fun x a => (List.range 4).foldl (fun acc i =>
      acc + convert t f.ty (rndA f x) (lowT t (a >>> (32 * i))) % 256 * 2 ^ (8 * i)) 0) s
  else
    vecAa g f 1 4 (fun x a => (List.range 4).foldl (fun acc i =>
      acc + lowT f.ty (convert t f.ty (rndA f x) (a >>> (8 * i) % 256)) * 2 ^ (32 * i)) 0) s

/-- Value bits of a BX type (R213): code 1 BX8, 2 BX4, 3 BX2. -/
def bxOf (f : FA) : Nat := bxBits f.srcb.toNat

/-- BXPACK (R296): every lane of the block supplies its element, active or not. -/
def execBxpack (g : Guard) (f : FA) (s : State) : Out :=
  let el := fun (l j : Nat) => laneA f (l / 16 * 16 + j)
  runWord .vector false 1 g noTok
    (fun _ _ => (List.range 16).map (fun j => .v f.srca.toNat 1 (fun l => el l j) f.fea) ++ [.vd f.dst.toNat 1])
    (fun x m s => .done (writeLanes s x m f.dst.toNat 1 (fun l =>
      let xs := (List.range 16).map (fun j => fDecode (fmtOf f.ty) (lowT f.ty (vreg x.wp f.srca.toNat (el l j)).toNat))
      bxPackWord (bxOf f) f.rnd.toNat f.sat xs (l % 16)))) s

/-- BXUNPACK (R296). -/
def execBxunpack (g : Guard) (f : FA) (s : State) : Out :=
  let b := bxOf f
  runWord .vector false 1 g noTok (fun _ _ => [opA f 1, .vd f.dst.toNat (tyRegs f.ty)])
    (fun x m s => .done (writeLanes s x m f.dst.toNat (tyRegs f.ty) (fun l =>
      let a := valA f x 1 l
      bxUnpack (fmtOf f.ty) (rndA f x) b (a % 2 ^ (b + 1)) (a >>> 16 % 256) (if a.testBit (24 + l % 16 / 2) then 1 else 0)))) s

/-- SHFL (R297). The lane a lane reads is known once its index is full. -/
def execShfl (g : Guard) (f : FA) (s : State) : Out :=
  let n := tyRegs f.ty
  let lane := fun (x : Iss) (l : Nat) => let i := valB f x 1 l; if i < 32 then i else l
  runWord .vector false 1 g noTok
    (fun x m =>
      if (opB f 1).emptyIn x m != 0 then [opB f 1, .vl f.srca.toNat n, .vd f.dst.toNat n]
      else [.v f.srca.toNat n (lane x) f.fea, opB f 1, .vd f.dst.toNat n])
    (fun x m s => .done (writeLanes s x m f.dst.toNat n (fun l => vregN x.wp f.srca.toNat n (lane x l)))) s

/-- The operator of RED and SCAN on two present values (R298). -/
def redOp (f : FA) (x : Iss) (a b : Nat) : Nat :=
  let t := f.ty
  match tyFmt t, f.srcb.toNat with
  | none, 0 => packInt t f.sat (readInt t a + readInt t b)
  | none, 1 => if readInt t a ≤ readInt t b then a else b
  | none, 2 => if readInt t a ≤ readInt t b then b else a
  | none, 3 => a &&& b
  | none, 4 => a ||| b
  | none, _ => a ^^^ b
  | some q, 0 => fAdd q (rndA f x) a b
  | some q, 1 => fMinMax q (rndA f x).nanp false false a b
  | some q, 2 => fMinMax q (rndA f x).nanp true false a b
  | some q, 6 => fMinMax q (rndA f x).nanp false true a b
  | some q, _ => fMinMax q (rndA f x).nanp true true a b

/-- Op with absent lanes (R298); a value met by no other passes as it is, a NaN too (notes/assumptions/104.md). -/
def redOpt (f : FA) (x : Iss) (a b : Option Nat) : Option Nat :=
  match a, b with
  | none, b => b
  | a, none => a
  | some a, some b => some (redOp f x a b)

/-- The present values of the lanes of G (R298). -/
def redSources (f : FA) (x : Iss) (m : W32) : List (Option Nat) :=
  (List.range 32).map (fun l => if inMask m l then some (lowT f.ty (vregN x.wp f.srca.toNat (tyRegs f.ty) l)) else none)

/-- RED's tree (R298). -/
def redTree (f : FA) (x : Iss) (v : List (Option Nat)) : List (Option Nat) :=
  [1, 2, 4, 8, 16].foldl (fun v d => (List.range 32).map (fun l =>
    if l % (2 * d) = 0 then redOpt f x (v.getD l none) (v.getD (l + d) none) else v.getD l none)) v

/-- SCAN's prefixes (R299). -/
def scanTree (f : FA) (x : Iss) (v : List (Option Nat)) : List (Option Nat) :=
  [1, 2, 4, 8, 16].foldl (fun v d => (List.range 32).map (fun l =>
    if d ≤ l then redOpt f x (v.getD (l - d) none) (v.getD l none) else v.getD l none)) v

/-- RED (R298). -/
def execRed (g : Guard) (f : FA) (s : State) : Out :=
  let n := tyRegs f.ty
  runWord .vector false 1 g noTok (fun _ _ => [.v f.srca.toNat n id f.fea, .vd f.dst.toNat n])
    (fun x m s =>
      let r := (redTree f x (redSources f x m)).getD 0 none
      .done (writeLanes s x m f.dst.toNat n (fun _ => extV f.ty (r.getD 0)))) s

/-- SCAN (R299). -/
def execScan (g : Guard) (f : FA) (s : State) : Out :=
  let n := tyRegs f.ty
  runWord .vector false 1 g noTok (fun _ _ => [.v f.srca.toNat n id f.fea, .vd f.dst.toNat n])
    (fun x m s =>
      let r := scanTree f x (redSources f x m)
      .done (writeLanes s x m f.dst.toNat n (fun l => extV f.ty ((r.getD l none).getD 0)))) s

/-- MATCH (R300). -/
def execMatch (g : Guard) (f : FA) (s : State) : Out :=
  let n := tyRegs f.ty
  runWord .vector false 1 g noTok (fun _ _ => [.v f.srca.toNat n id f.fea, .vd f.dst.toNat 1])
    (fun x m s =>
      let v := fun (l : Nat) => vregN x.wp f.srca.toNat n l
      .done (writeLanes s x m f.dst.toNat 1 (fun l =>
        (maskOf ((lanesOf m).filter (fun k => v k == v l))).toNat))) s

/-- ELECT (R300). -/
def execElect (g : Guard) (f : FA) (s : State) : Out :=
  runWord .vector false 1 g noTok (fun _ _ => [])
    (fun x m s => .done (onWarp s x (fun y => setPred y f.dst.toNat m (maskOf ((lanesOf m).take 1))))) s

/-- VOTE (R300). -/
def execVote (g : Guard) (f : FA) (s : State) : Out :=
  let ballot := f.srcb == 3
  runWord .vector false 1 g noTok (fun _ _ => if ballot then [.vd f.dst.toNat 1] else [])
    (fun x m s =>
      let p := predOf x.wp f.srca.toNat &&& m
      if ballot then .done (writeLanes s x m f.dst.toNat 1 (fun _ => p.toNat))
      else
        let r : Bool := match f.srcb.toNat with
          | 0 => p == m
          | 1 => p != 0
          | _ => p == m || p == 0
        .done (onWarp s x (fun y => setPred y f.dst.toNat m (if r then m else 0)))) s

/-- RFAL (R301): once per issue, from the lowest lane of G. -/
def execRfal (g : Guard) (f : FA) (s : State) : Out :=
  let n := tyRegs f.ty
  let low := fun (m : W32) => (lanesOf m).headD 0
  runWord .vector false 1 g noTok (fun _ m => [.v f.srca.toNat n (fun _ => low m) f.fea, .ud f.dst.toNat])
    (fun x m s => .done (onGroup s x (fun k => setSreg k f.dst.toNat
      (extS f.ty (vregN x.wp f.srca.toNat n (low m)))))) s

/-- RDLANE (R301). -/
def execRdlane (g : Guard) (f : FA) (s : State) : Out :=
  let n := tyRegs f.ty
  let lane := fun (x : Iss) => (sreg x.grp f.srcb.toNat).toNat % 2 ^ 32
  runWord .vector false 1 g noTok
    (fun x _ =>
      if uEmpty x.grp f.srcb.toNat || lane x ≥ 32 then [.u f.srcb.toNat f.feb, .vl f.srca.toNat n]
      else [.u f.srcb.toNat f.feb, .v f.srca.toNat n (fun _ => lane x) f.fea, .ud f.dst.toNat])
    (fun x m s =>
      if lane x ≥ 32 then .trap .bounds m 0 0 s
      else .done (onGroup s x (fun k => setSreg k f.dst.toNat (extS f.ty (vregN x.wp f.srca.toNat n (lane x)))))) s

/-- WRLANE (R301). -/
def execWrlane (g : Guard) (f : FA) (s : State) : Out :=
  let n := tyRegs f.ty
  let lane := fun (x : Iss) => (sreg x.grp f.srca.toNat).toNat % 2 ^ 32
  runWord .vector false 1 g noTok
    (fun _ _ => [.u f.srca.toNat f.fea, .u f.srcb.toNat f.feb, .vl f.dst.toNat n])
    (fun x m s =>
      if lane x ≥ 32 then .trap .bounds m 0 0 s
      else if !inMask x.sp.mask (lane x) then .done s
      else if (List.range n).any (fun k => vEmpty x.wp (f.dst.toNat + k) (lane x)) then .hold .nothing s
      else .done (writeLanes s x (maskOf [lane x]) f.dst.toNat n (fun _ => extV f.ty (sval x f.ty f.srcb)))) s

/-- PERMX (R297). -/
def execPermx (g : Guard) (f : FA) (s : State) : Out :=
  let idx := fun (x : Iss) (l : Nat) => valB f x 1 l % 64
  let a := f.srca.toNat
  let lo := fun (x : Iss) (l : Nat) => vEmpty x.wp a (idx x l)
  let hi := fun (x : Iss) (l : Nat) => vEmpty x.wp (a + 1) (idx x l - 32)
  runWord .vector false 1 g noTok
    (fun x m =>
      if (opB f 1).emptyIn x m != 0 then [opB f 1, .vl a 2, .vd f.dst.toNat 1]
      else
        let wait := maskOf ((lanesOf m).filter (fun l => if idx x l < 32 then lo x l else hi x l))
        [opB f 1, .vl a 2, .vd f.dst.toNat 1, .pre wait .nothing f.fea])
    (fun x m s => .done (writeLanes s x m f.dst.toNat 1 (fun l =>
      if idx x l < 32 then (vreg x.wp a (idx x l)).toNat else (vreg x.wp (a + 1) (idx x l - 32)).toNat))) s

end Sys2Proof.Machine
end

