-- ==== Sys2Proof/Machine/Scalar.lean ====
section
/-!
DEFINITION. Uniform arithmetic, conditions and constants of class 101 (R253-R260).
-/
namespace Sys2Proof.Machine

/-- An integer result of two uniform sources. -/
def sInt2 (g : Guard) (f : FA) (op : Nat → Nat → Nat) (s : State) : Out := sca2 g f (fun _ a b => op a b) s

/-- SADD (R256). -/
def execSadd (g : Guard) (f : FA) (s : State) : Out :=
  sInt2 g f (fun a b => packInt f.ty f.sat (readInt f.ty a + readInt f.ty b)) s
/-- SSUB (R256). -/
def execSsub (g : Guard) (f : FA) (s : State) : Out :=
  sInt2 g f (fun a b => packInt f.ty f.sat (readInt f.ty a - readInt f.ty b)) s
/-- SMUL (R256). -/
def execSmul (g : Guard) (f : FA) (s : State) : Out :=
  sInt2 g f (fun a b => packInt f.ty f.sat (readInt f.ty a * readInt f.ty b)) s
/-- SMULH (R256). -/
def execSmulh (g : Guard) (f : FA) (s : State) : Out := sInt2 g f (mulHigh f.ty) s
/-- SDIV (R257). -/
def execSdiv (g : Guard) (f : FA) (s : State) : Out := sInt2 g f (quotOf f.ty f.sat) s
/-- SAND (R256). -/
def execSand (g : Guard) (f : FA) (s : State) : Out := sInt2 g f (fun a b => a &&& b) s
/-- SOR (R256). -/
def execSor (g : Guard) (f : FA) (s : State) : Out := sInt2 g f (fun a b => a ||| b) s
/-- SXOR (R256). -/
def execSxor (g : Guard) (f : FA) (s : State) : Out := sInt2 g f (fun a b => a ^^^ b) s
/-- SNOT (R256). -/
def execSnot (g : Guard) (f : FA) (s : State) : Out := sca1 g f (fun _ a => 2 ^ tyWidth f.ty - 1 - a) s
/-- SSHL (R256). -/
def execSshl (g : Guard) (f : FA) (s : State) : Out := sInt2 g f (fun a b => a <<< (b % tyWidth f.ty)) s
/-- SSHR (R256). -/
def execSshr (g : Guard) (f : FA) (s : State) : Out := sInt2 g f (fun a b => a >>> (b % tyWidth f.ty)) s
/-- SSAR (R256). -/
def execSsar (g : Guard) (f : FA) (s : State) : Out := sInt2 g f (fun a b => asr f.ty a (b % tyWidth f.ty)) s
/-- SMIN (R256). -/
def execSmin (g : Guard) (f : FA) (s : State) : Out :=
  sInt2 g f (fun a b => if readInt f.ty a ≤ readInt f.ty b then a else b) s
/-- SMAX (R256). -/
def execSmax (g : Guard) (f : FA) (s : State) : Out :=
  sInt2 g f (fun a b => if readInt f.ty a ≤ readInt f.ty b then b else a) s
/-- SPOPC (R256). -/
def execSpopc (g : Guard) (f : FA) (s : State) : Out := sca1 g f (fun _ a => popcount (tyWidth f.ty) a) s
/-- SCLZ (R256). -/
def execSclz (g : Guard) (f : FA) (s : State) : Out := sca1 g f (fun _ a => clz (tyWidth f.ty) a) s
/-- SMOV (R256). -/
def execSmov (g : Guard) (f : FA) (s : State) : Out := sca1 g f (fun _ a => a) s

/-- SSEL (R258). -/
def execSsel (g : Guard) (f : FB) (s : State) : Out :=
  runWord .all false 1 g noTok
    (fun _ _ => [.u f.srca.toNat f.fea, .u f.srcb.toNat f.feb, .ud f.dst.toNat])
    (fun x _ s => .done (onGroup s x (fun k => setSreg k f.dst.toNat
      (extS f.ty (if condOf x.wp f.srcc.toNat then sval x f.ty f.srca else sval x f.ty f.srcb))))) s

/-- SCMP (R258): the c set of the warp is shared by its splits. -/
def execScmp (g : Guard) (f : FA) (s : State) : Out :=
  runWord .all false 1 g noTok (fun _ _ => [.u f.srca.toNat f.fea, .u f.srcb.toNat f.feb])
    (fun x _ s => .done (onWarp s x (fun y => setCond y f.dst.toNat
      (compareAs f.ty (cmpOp f) (sval x f.ty f.srca) (sval x f.ty f.srcb))))) s

/-- SMOVI (R260). -/
def execSmovi (g : Guard) (f : FI) (s : State) : Out :=
  runWord .all false 1 g noTok (fun _ _ => [.ud f.dst.toNat])
    (fun x _ s => .done (onGroup s x (fun k => setSreg k f.dst.toNat (extS f.ty (immOf f.ty f.imm))))) s

/-- SMOVHI (R260). -/
def execSmovhi (g : Guard) (f : FI) (s : State) : Out :=
  runWord .all false 1 g noTok (fun _ _ => [.u f.srca.toNat f.fe, .ud f.dst.toNat])
    (fun x _ s => .done (onGroup s x (fun k => setSreg k f.dst.toNat
      (BitVec.ofNat 64 ((sreg x.grp f.srca.toNat).toNat * 2 ^ 24 + f.imm.toNat))))) s

/-- SFADD (R259). -/
def execSfadd (g : Guard) (f : FA) (s : State) : Out := sca2 g f (fun x a b => fAdd (fmtOf f.ty) (rndA f x) a b) s
/-- SFMUL (R259). -/
def execSfmul (g : Guard) (f : FA) (s : State) : Out := sca2 g f (fun x a b => fMul (fmtOf f.ty) (rndA f x) a b) s
/-- SFMA (R259). -/
def execSfma (g : Guard) (f : FB) (s : State) : Out :=
  runWord .all false 1 g noTok
    (fun _ _ => [.u f.srca.toNat f.fea, .u f.srcb.toNat f.feb, .u f.srcc.toNat f.fec, .ud f.dst.toNat])
    (fun x _ s => .done (onGroup s x (fun k => setSreg k f.dst.toNat
      (extS f.ty (fFma (fmtOf f.ty) (rndB f x) (sval x f.ty f.srca) (sval x f.ty f.srcb) (sval x f.ty f.srcc)))))) s
/-- SCVT (R259). -/
def execScvt (g : Guard) (f : FA) (s : State) : Out :=
  runWord .all false 1 g noTok (fun _ _ => [.u f.srca.toNat f.fea, .ud f.dst.toNat])
    (fun x _ s => .done (onGroup s x (fun k => setSreg k f.dst.toNat
      (extS f.ty (convert (srcTy f) f.ty (rndA f x) (sval x (srcTy f) f.srca)))))) s

end Sys2Proof.Machine
end

