-- ==== Sys2Proof/Machine/Dispatch.lean ====
section
/-!
DEFINITION. What each instruction and each step of a unit or of the host does: one meaning for each constructor of Instr.
-/
namespace Sys2Proof.Machine

def exec (i : Instr) (s : State) : Host.Outcome State Fault Refusal :=
  match i with
  | .iadd g f => Sys2Proof.Machine.execIadd g f s
  | .isub g f => Sys2Proof.Machine.execIsub g f s
  | .imul g f => Sys2Proof.Machine.execImul g f s
  | .imulh g f => Sys2Proof.Machine.execImulh g f s
  | .imad g f => Sys2Proof.Machine.execImad g f s
  | .idiv g f => Sys2Proof.Machine.execIdiv g f s
  | .irem g f => Sys2Proof.Machine.execIrem g f s
  | .imin g f => Sys2Proof.Machine.execImin g f s
  | .imax g f => Sys2Proof.Machine.execImax g f s
  | .iabs g f => Sys2Proof.Machine.execIabs g f s
  | .ineg g f => Sys2Proof.Machine.execIneg g f s
  | .isad g f => Sys2Proof.Machine.execIsad g f s
  | .iaddc g f => Sys2Proof.Machine.execIaddc g f s
  | .and_ g f => Sys2Proof.Machine.execAnd g f s
  | .or_ g f => Sys2Proof.Machine.execOr g f s
  | .xor_ g f => Sys2Proof.Machine.execXor g f s
  | .not_ g f => Sys2Proof.Machine.execNot g f s
  | .andn g f => Sys2Proof.Machine.execAndn g f s
  | .shl g f => Sys2Proof.Machine.execShl g f s
  | .shr g f => Sys2Proof.Machine.execShr g f s
  | .sar g f => Sys2Proof.Machine.execSar g f s
  | .rot g f => Sys2Proof.Machine.execRot g f s
  | .funnel g f => Sys2Proof.Machine.execFunnel g f s
  | .popc g f => Sys2Proof.Machine.execPopc g f s
  | .clz g f => Sys2Proof.Machine.execClz g f s
  | .ctz g f => Sys2Proof.Machine.execCtz g f s
  | .brev g f => Sys2Proof.Machine.execBrev g f s
  | .bfe g f => Sys2Proof.Machine.execBfe g f s
  | .bfi g f => Sys2Proof.Machine.execBfi g f s
  | .sel g f => Sys2Proof.Machine.execSel g f s
  | .icmp g f => Sys2Proof.Machine.execIcmp g f s
  | .mov g f => Sys2Proof.Machine.execMov g f s
  | .movi g f => Sys2Proof.Machine.execMovi g f s
  | .movhi g f => Sys2Proof.Machine.execMovhi g f s
  | .lea g f => Sys2Proof.Machine.execLea g f s
  | .dp4 g f => Sys2Proof.Machine.execDp4 g f s
  | .fadd g f => Sys2Proof.Machine.execFadd g f s
  | .fsub g f => Sys2Proof.Machine.execFsub g f s
  | .fmul g f => Sys2Proof.Machine.execFmul g f s
  | .fma g f => Sys2Proof.Machine.execFma g f s
  | .fmin g f => Sys2Proof.Machine.execFmin g f s
  | .fmax g f => Sys2Proof.Machine.execFmax g f s
  | .fminnum g f => Sys2Proof.Machine.execFminnum g f s
  | .fmaxnum g f => Sys2Proof.Machine.execFmaxnum g f s
  | .fabs g f => Sys2Proof.Machine.execFabs g f s
  | .fneg g f => Sys2Proof.Machine.execFneg g f s
  | .fcopysign g f => Sys2Proof.Machine.execFcopysign g f s
  | .fcmp g f => Sys2Proof.Machine.execFcmp g f s
  | .fclass g f => Sys2Proof.Machine.execFclass g f s
  | .fdiv g f => Sys2Proof.Machine.execFdiv g f s
  | .fsqrt g f => Sys2Proof.Machine.execFsqrt g f s
  | .frcp g f => Sys2Proof.Machine.execFrcp g f s
  | .frsq g f => Sys2Proof.Machine.execFrsq g f s
  | .fexp2 g f => Sys2Proof.Machine.execFexp2 g f s
  | .flog2 g f => Sys2Proof.Machine.execFlog2 g f s
  | .fsin g f => Sys2Proof.Machine.execFsin g f s
  | .fcos g f => Sys2Proof.Machine.execFcos g f s
  | .ftanh g f => Sys2Proof.Machine.execFtanh g f s
  | .fscale g f => Sys2Proof.Machine.execFscale g f s
  | .fgetexp g f => Sys2Proof.Machine.execFgetexp g f s
  | .fround g f => Sys2Proof.Machine.execFround g f s
  | .ffrac g f => Sys2Proof.Machine.execFfrac g f s
  | .fdot2 g f => Sys2Proof.Machine.execFdot2 g f s
  | .cvt g f => Sys2Proof.Machine.execCvt g f s
  | .cvtf8 g f => Sys2Proof.Machine.execCvtf8 g f s
  | .bxpack g f => Sys2Proof.Machine.execBxpack g f s
  | .bxunpack g f => Sys2Proof.Machine.execBxunpack g f s
  | .shfl g f => Sys2Proof.Machine.execShfl g f s
  | .red g f => Sys2Proof.Machine.execRed g f s
  | .scan g f => Sys2Proof.Machine.execScan g f s
  | .match_ g f => Sys2Proof.Machine.execMatch g f s
  | .elect g f => Sys2Proof.Machine.execElect g f s
  | .vote g f => Sys2Proof.Machine.execVote g f s
  | .rfal g f => Sys2Proof.Machine.execRfal g f s
  | .rdlane g f => Sys2Proof.Machine.execRdlane g f s
  | .wrlane g f => Sys2Proof.Machine.execWrlane g f s
  | .permx g f => Sys2Proof.Machine.execPermx g f s
  | .ld g f => Sys2Proof.Machine.execLd g f s
  | .st g f => Sys2Proof.Machine.execSt g f s
  | .ldl g f => Sys2Proof.Machine.execLdl g f s
  | .stl g f => Sys2Proof.Machine.execStl g f s
  | .ldu g f => Sys2Proof.Machine.execLdu g f s
  | .stu g f => Sys2Proof.Machine.execStu g f s
  | .ldx g f => Sys2Proof.Machine.execLdx g f s
  | .stx g f => Sys2Proof.Machine.execStx g f s
  | .pref g f => Sys2Proof.Machine.execPref g f s
  | .invl1 g f => Sys2Proof.Machine.execInvl1 g f s
  | .waitk g f => Sys2Proof.Machine.execWaitk g f s
  | .fence g f => Sys2Proof.Machine.execFence g f s
  | .fencex g f => Sys2Proof.Machine.execFencex g f s
  | .ost g f => Sys2Proof.Machine.execOst g f s
  | .ald g f => Sys2Proof.Machine.execAld g f s
  | .atom g f => Sys2Proof.Machine.execAtom g f s
  | .atomr g f => Sys2Proof.Machine.execAtomr g f s
  | .cas g f => Sys2Proof.Machine.execCas g f s
  | .dcas g f => Sys2Proof.Machine.execDcas g f s
  | .amov g f => Sys2Proof.Machine.execAmov g f s
  | .datom g f => Sys2Proof.Machine.execDatom g f s
  | .bar g f => Sys2Proof.Machine.execBar g f s
  | .barspec g f => Sys2Proof.Machine.execBarspec g f s
  | .mbara g f => Sys2Proof.Machine.execMbara g f s
  | .mbarw g f => Sys2Proof.Machine.execMbarw g f s
  | .fempty g f => Sys2Proof.Machine.execFempty g f s
  | .fefill g f => Sys2Proof.Machine.execFefill g f s
  | .sadd g f => Sys2Proof.Machine.execSadd g f s
  | .ssub g f => Sys2Proof.Machine.execSsub g f s
  | .smul g f => Sys2Proof.Machine.execSmul g f s
  | .smulh g f => Sys2Proof.Machine.execSmulh g f s
  | .sdiv g f => Sys2Proof.Machine.execSdiv g f s
  | .sand g f => Sys2Proof.Machine.execSand g f s
  | .sor g f => Sys2Proof.Machine.execSor g f s
  | .sxor g f => Sys2Proof.Machine.execSxor g f s
  | .snot g f => Sys2Proof.Machine.execSnot g f s
  | .sshl g f => Sys2Proof.Machine.execSshl g f s
  | .sshr g f => Sys2Proof.Machine.execSshr g f s
  | .ssar g f => Sys2Proof.Machine.execSsar g f s
  | .smin g f => Sys2Proof.Machine.execSmin g f s
  | .smax g f => Sys2Proof.Machine.execSmax g f s
  | .ssel g f => Sys2Proof.Machine.execSsel g f s
  | .scmp g f => Sys2Proof.Machine.execScmp g f s
  | .smov g f => Sys2Proof.Machine.execSmov g f s
  | .smovi g f => Sys2Proof.Machine.execSmovi g f s
  | .smovhi g f => Sys2Proof.Machine.execSmovhi g f s
  | .spopc g f => Sys2Proof.Machine.execSpopc g f s
  | .sclz g f => Sys2Proof.Machine.execSclz g f s
  | .sfadd g f => Sys2Proof.Machine.execSfadd g f s
  | .sfmul g f => Sys2Proof.Machine.execSfmul g f s
  | .sfma g f => Sys2Proof.Machine.execSfma g f s
  | .scvt g f => Sys2Proof.Machine.execScvt g f s
  | .bra g f => Sys2Proof.Machine.execBra g f s
  | .brc g f => Sys2Proof.Machine.execBrc g f s
  | .brv g f => Sys2Proof.Machine.execBrv g f s
  | .brx g f => Sys2Proof.Machine.execBrx g f s
  | .call g f => Sys2Proof.Machine.execCall g f s
  | .ret g f => Sys2Proof.Machine.execRet g f s
  | .join g f => Sys2Proof.Machine.execJoin g f s
  | .exit g f => Sys2Proof.Machine.execExit g f s
  | .nop g f => Sys2Proof.Machine.execNop g f s
  | .yield g f => Sys2Proof.Machine.execYield g f s
  | .region g f => Sys2Proof.Machine.execRegion g f s
  | .setfmt g f => Sys2Proof.Machine.execSetfmt g f s
  | .getfmt g f => Sys2Proof.Machine.execGetfmt g f s
  | .getsr g f => Sys2Proof.Machine.execGetsr g f s
  | .plog g f => Sys2Proof.Machine.execPlog g f s
  | .tcopy g f => Sys2Proof.Machine.execTcopy g f s
  | .tgather g f => Sys2Proof.Machine.execTgather g f s
  | .tscatter g f => Sys2Proof.Machine.execTscatter g f s
  | .tfill g f => Sys2Proof.Machine.execTfill g f s
  | .cwait g f => Sys2Proof.Machine.execCwait g f s
  | .cpoll g f => Sys2Proof.Machine.execCpoll g f s
  | .stginit g f => Sys2Proof.Machine.execStginit g f s
  | .stgfill g f => Sys2Proof.Machine.execStgfill g f s
  | .stgwait g f => Sys2Proof.Machine.execStgwait g f s
  | .stgfree g f => Sys2Proof.Machine.execStgfree g f s
  | .stgqry g f => Sys2Proof.Machine.execStgqry g f s
  | .calloc g f => Sys2Proof.Machine.execCalloc g f s
  | .cgate g f => Sys2Proof.Machine.execCgate g f s
  | .cpost g f => Sys2Proof.Machine.execCpost g f s
  | .cqry g f => Sys2Proof.Machine.execCqry g f s
  | .mclaim g f => Sys2Proof.Machine.execMclaim g f s
  | .mrel g f => Sys2Proof.Machine.execMrel g f s
  | .mma g f => Sys2Proof.Machine.execMma g f s
  | .mzero g f => Sys2Proof.Machine.execMzero g f s
  | .mdrain g f => Sys2Proof.Machine.execMdrain g f s
  | .mwait g f => Sys2Proof.Machine.execMwait g f s
  | .mscale g f => Sys2Proof.Machine.execMscale g f s
  | .emit g f => Sys2Proof.Machine.execEmit g f s
  | .evrd g f => Sys2Proof.Machine.execEvrd g f s
  | .evwait g f => Sys2Proof.Machine.execEvwait g f s
  | .aload g f => Sys2Proof.Machine.execAload g f s
  | .aarm g f => Sys2Proof.Machine.execAarm g f s
  | .adisarm g f => Sys2Proof.Machine.execAdisarm g f s
  | .asave g f => Sys2Proof.Machine.execAsave g f s
  | .syscall g f => Sys2Proof.Machine.execSyscall g f s
  | .trap g f => Sys2Proof.Machine.execTrap g f s
  | .brkpt g f => Sys2Proof.Machine.execBrkpt g f s
  | .rdcyc g f => Sys2Proof.Machine.execRdcyc g f s
  | .vdsub g f => Sys2Proof.Machine.execVdsub g f s
  | .bqput g f => Sys2Proof.Machine.execBqput g f s
  | .bqget g f => Sys2Proof.Machine.execBqget g f s
  | .pairNop a h => Sys2Proof.Machine.execPairNop a h s
  | .pairMov a h => Sys2Proof.Machine.execPairMov a h s
  | .pairIadd a h => Sys2Proof.Machine.execPairIadd a h s
  | .pairIsub a h => Sys2Proof.Machine.execPairIsub a h s
  | .pairImul a h => Sys2Proof.Machine.execPairImul a h s
  | .pairImin a h => Sys2Proof.Machine.execPairImin a h s
  | .pairImax a h => Sys2Proof.Machine.execPairImax a h s
  | .pairAnd a h => Sys2Proof.Machine.execPairAnd a h s
  | .pairOr a h => Sys2Proof.Machine.execPairOr a h s
  | .pairXor a h => Sys2Proof.Machine.execPairXor a h s
  | .pairAndn a h => Sys2Proof.Machine.execPairAndn a h s
  | .pairShl a h => Sys2Proof.Machine.execPairShl a h s
  | .pairShr a h => Sys2Proof.Machine.execPairShr a h s
  | .pairSar a h => Sys2Proof.Machine.execPairSar a h s
  | .pairNot a h => Sys2Proof.Machine.execPairNot a h s
  | .pairIneg a h => Sys2Proof.Machine.execPairIneg a h s
  | .pairFadd a h => Sys2Proof.Machine.execPairFadd a h s
  | .pairFsub a h => Sys2Proof.Machine.execPairFsub a h s
  | .pairFmul a h => Sys2Proof.Machine.execPairFmul a h s
  | .pairFmin a h => Sys2Proof.Machine.execPairFmin a h s
  | .pairFmax a h => Sys2Proof.Machine.execPairFmax a h s
  | .pairFminnum a h => Sys2Proof.Machine.execPairFminnum a h s
  | .pairFmaxnum a h => Sys2Proof.Machine.execPairFmaxnum a h s
  | .pairFabs a h => Sys2Proof.Machine.execPairFabs a h s
  | .pairFneg a h => Sys2Proof.Machine.execPairFneg a h s
  | .pairFcopysign a h => Sys2Proof.Machine.execPairFcopysign a h s
  | .ringDoorbell fn ring tail => Sys2Proof.Machine.execRingDoorbell fn ring tail s
  | .ringEnable fn ring => Sys2Proof.Machine.execRingEnable fn ring s
  | .partitionRegisterWrite p v => Sys2Proof.Machine.execPartitionRegisterWrite p v s
  | .registerWrite fn ring v => Sys2Proof.Machine.execRegisterWrite fn ring v s
  | .postEvent k => Sys2Proof.Machine.execPostEvent k s
  | .create k => Sys2Proof.Machine.execCreate k s
  | .preempt k => Sys2Proof.Machine.execPreempt k s
  | .resume k => Sys2Proof.Machine.execResume k s
  | .teardown k => Sys2Proof.Machine.execTeardown k s
  | .regionUpdate k => Sys2Proof.Machine.execRegionUpdate k s
  | .regionReset k => Sys2Proof.Machine.execRegionReset k s
  | .domainConfig k => Sys2Proof.Machine.execDomainConfig k s
  | .streamBind k => Sys2Proof.Machine.execStreamBind k s
  | .streamClose k => Sys2Proof.Machine.execStreamClose k s
  | .sliceExpiry ctx => Sys2Proof.Machine.execSliceExpiry ctx s
  | .saveComplete ctx => Sys2Proof.Machine.execSaveComplete ctx s
  | .resumeComplete ctx => Sys2Proof.Machine.execResumeComplete ctx s
  | .invalidationComplete ctx => Sys2Proof.Machine.execInvalidationComplete ctx s
  | .lazyWriteOutComplete core ctx => Sys2Proof.Machine.execLazyWriteOutComplete core ctx s
  | .firmwareActivation => Sys2Proof.Machine.execFirmwareActivation s
  | .pageInval m cmd => Sys2Proof.Machine.execPageInval m cmd s
  | .pageResolve m cmd => Sys2Proof.Machine.execPageResolve m cmd s
  | .pageFail m cmd => Sys2Proof.Machine.execPageFail m cmd s
  | .trapcfg m cmd => Sys2Proof.Machine.execTrapcfg m cmd s
  | .tracecfg m cmd => Sys2Proof.Machine.execTracecfg m cmd s
  | .resolveRetry m cmd => Sys2Proof.Machine.execResolveRetry m cmd s
  | .resolveSkip m cmd => Sys2Proof.Machine.execResolveSkip m cmd s
  | .resolveGoto m cmd => Sys2Proof.Machine.execResolveGoto m cmd s
  | .resolveRestart m cmd => Sys2Proof.Machine.execResolveRestart m cmd s
  | .resolveKill m cmd => Sys2Proof.Machine.execResolveKill m cmd s
  | .halt m cmd => Sys2Proof.Machine.execHalt m cmd s
  | .release m cmd => Sys2Proof.Machine.execRelease m cmd s
  | .step m cmd => Sys2Proof.Machine.execStep m cmd s
  | .readreg m cmd => Sys2Proof.Machine.execReadreg m cmd s
  | .writereg m cmd => Sys2Proof.Machine.execWritereg m cmd s
  | .getVersion m msg => Sys2Proof.Machine.execGetVersion m msg s
  | .getCapabilities m msg => Sys2Proof.Machine.execGetCapabilities m msg s
  | .negotiateAlgorithms m msg => Sys2Proof.Machine.execNegotiateAlgorithms m msg s
  | .getDigests m msg => Sys2Proof.Machine.execGetDigests m msg s
  | .getCertificate m msg => Sys2Proof.Machine.execGetCertificate m msg s
  | .challenge m msg => Sys2Proof.Machine.execChallenge m msg s
  | .getMeasurements m msg => Sys2Proof.Machine.execGetMeasurements m msg s
  | .syscallReply r seq vals => Sys2Proof.Machine.execSyscallReply r seq vals s
  | .power m w => Sys2Proof.Machine.execPower m w s
  | .unlock m w => Sys2Proof.Machine.execUnlock m w s
  | .lock m w => Sys2Proof.Machine.execLock m w s
  | .debuglvl m w => Sys2Proof.Machine.execDebuglvl m w s
  | .fwstage m w => Sys2Proof.Machine.execFwstage m w s
  | .fwact m w => Sys2Proof.Machine.execFwact m w s
  | .port m w => Sys2Proof.Machine.execPort m w s
  | .bqcfg m w => Sys2Proof.Machine.execBqcfg m w s
  | .pwrcap m w => Sys2Proof.Machine.execPwrcap m w s
  | .idsig m w => Sys2Proof.Machine.execIdsig m w s
  | .eventIntake die n => Sys2Proof.Machine.execEventIntake die n s
  | .closeMarkerIntake die n => Sys2Proof.Machine.execCloseMarkerIntake die n s
  | .diecycleAdvance die => Sys2Proof.Machine.execDiecycleAdvance die s
  | .eventRelease dom => Sys2Proof.Machine.execEventRelease dom s
  | .candidateDeadline dom => Sys2Proof.Machine.execCandidateDeadline dom s
  | .entryStallResume dom => Sys2Proof.Machine.execEntryStallResume dom s
  | .pendStallResume dom => Sys2Proof.Machine.execPendStallResume dom s
  | .groupOffer die core => Sys2Proof.Machine.execGroupOffer die core s
  | .pendingLaunchRetry die core => Sys2Proof.Machine.execPendingLaunchRetry die core s
  | .launchComplete ctx idx => Sys2Proof.Machine.execLaunchComplete ctx idx s
  | .datomEntryArrival n => Sys2Proof.Machine.execDatomEntryArrival n s
  | .datomApply ctx idx => Sys2Proof.Machine.execDatomApply ctx idx s
  | .groupPlace core => Sys2Proof.Machine.execGroupPlace core s
  | .stealRequest core => Sys2Proof.Machine.execStealRequest core s
  | .stealAnswer core => Sys2Proof.Machine.execStealAnswer core s
  | .detDispatch ctx region => Sys2Proof.Machine.execDetDispatch ctx region s
  | .compactorMove core => Sys2Proof.Machine.execCompactorMove core s
  | .groupSlotFree core gslot => Sys2Proof.Machine.execGroupSlotFree core gslot s
  | .hang core gslot wid => Sys2Proof.Machine.execHang core gslot wid s
  | .probeSend core gslot wid => Sys2Proof.Machine.execProbeSend core gslot wid s
  | .probeArrival n => Sys2Proof.Machine.execProbeArrival n s
  | .barrierArrival core gslot wid => Sys2Proof.Machine.execBarrierArrival core gslot wid s
  | .trapTaken core gslot wid => Sys2Proof.Machine.execTrapTaken core gslot wid s
  | .homeAccess n => Sys2Proof.Machine.execHomeAccess n s
  | .loadReturn n => Sys2Proof.Machine.execLoadReturn n s
  | .mbarwPoll core gslot wid slot => Sys2Proof.Machine.execMbarwPoll core gslot wid slot s
  | .pageWalkComplete die n => Sys2Proof.Machine.execPageWalkComplete die n s
  | .pullAttemptComplete n page ok => Sys2Proof.Machine.execPullAttemptComplete n page ok s
  | .pullRetry n => Sys2Proof.Machine.execPullRetry n s
  | .hostWrite pa bytes => Sys2Proof.Machine.execHostWrite pa bytes s
  | .copyRetire core n => Sys2Proof.Machine.execCopyRetire core n s
  | .copyReplay core n => Sys2Proof.Machine.execCopyReplay core n s
  | .arrayStart core => Sys2Proof.Machine.execArrayStart core s
  | .arrayRetire core => Sys2Proof.Machine.execArrayRetire core s
  | .drainStart core => Sys2Proof.Machine.execDrainStart core s
  | .drainRetire core n => Sys2Proof.Machine.execDrainRetire core n s
  | .mrelTakesEffect core n => Sys2Proof.Machine.execMrelTakesEffect core n s
  | .chunkArrival die n => Sys2Proof.Machine.execChunkArrival die n s
  | .combineDeadline die slot => Sys2Proof.Machine.execCombineDeadline die slot s
  | .slotRelease die slot => Sys2Proof.Machine.execSlotRelease die slot s
  | .submissionStart die dec => Sys2Proof.Machine.execSubmissionStart die dec s
  | .framePut die dec => Sys2Proof.Machine.execFramePut die dec s
  | .submissionEnd die dec => Sys2Proof.Machine.execSubmissionEnd die dec s
  | .flitReceive port flit => Sys2Proof.Machine.execFlitReceive port flit s
  | .portTrained port => Sys2Proof.Machine.execPortTrained port s
  | .trainingTimeout port => Sys2Proof.Machine.execTrainingTimeout port s
  | .lossOfSignal port => Sys2Proof.Machine.execLossOfSignal port s
  | .ucieModuleDown k => Sys2Proof.Machine.execUcieModuleDown k s
  | .ucieModuleActive k => Sys2Proof.Machine.execUcieModuleActive k s
  | .detectedError kind core pa lasting => Sys2Proof.Machine.execDetectedError kind core pa lasting s
  | .pmD3hot => Sys2Proof.Machine.execPmD3hot s
  | .pmD0 => Sys2Proof.Machine.execPmD0 s
  | .powerRemoved => Sys2Proof.Machine.execPowerRemoved s
  | .powerOn absent openPart image => Sys2Proof.Machine.execPowerOn absent openPart image s
  | .clockThrottle => Sys2Proof.Machine.execClockThrottle s
  | .leaseRenew die => Sys2Proof.Machine.execLeaseRenew die s
  | .leaseLapse die => Sys2Proof.Machine.execLeaseLapse die s
  | .vfEnable v on => Sys2Proof.Machine.execVfEnable v on s
  | .routeTableLoad t => Sys2Proof.Machine.execRouteTableLoad t s

end Sys2Proof.Machine
end

