-- ==== Sys2Proof/Machine/Mailbox.lean ====
section
/-!
DEFINITION. The queue of the firmware leader (R458, R465): ring packets (R100, R101) and mailbox requests; and the host's accesses of the
BARs (R454, R456, R457) and the fills of the memory-side caches (R57, R455).
-/
namespace Sys2Proof.Machine

/-! ### Ring packets -/

/-- The packet in 64 bytes, for ring `r` (R100). -/
def pktOf (r v : Nat) : Pkt where
  ring := r
  tag := BitVec.ofNat 32 (v >>> 32)
  caddr := BitVec.ofNat 64 (v >>> 448)
  barrier := v.testBit 8
  payload := BitVec.ofNat 256 (v >>> 192)
  rsv := bitsOf v 64 128 != 0 || bitsOf v 9 23 != 0

/-- The control or event step that an OP starts (R101). -/
def packetInstr (op : Nat) (k : Pkt) : Option Instr :=
  match op with
  | 0x01 => some (.postEvent k)
  | 0x10 => some (.create k)
  | 0x11 => some (.preempt k)
  | 0x12 => some (.resume k)
  | 0x13 => some (.teardown k)
  | 0x14 => some (.regionUpdate k)
  | 0x15 => some (.regionReset k)
  | 0x20 => some (.domainConfig k)
  | 0x21 => some (.streamBind k)
  | 0x22 => some (.streamClose k)
  | _ => none

/-- Whether an OP is a control packet, which the leader runs (R458). -/
def isControl (op : Nat) : Bool := op != 1 && (packetInstr op (pktOf 0 0)).isSome

/-- An OP that is not assigned (R102): BAD_OP, after MALFORMED for a reserved bit. -/
def badPacket (k : Pkt) (s : State) : Out :=
  withPacket k false false s (fun _ s => packetDone s k stBadOp 0)

/-! ### The leader's queue (R458) -/

/-- The cycle by which arrivals at the leader are ordered: its die's, or die 0's while none leads. -/
def fwNow (s : State) : Nat := (dieOf s ((leaderOf s).getD 0)).cycle

/-- A request put in its place: behind all that came before it, within one cycle before those of higher rings and of the mailboxes. -/
def fwInsert (q : FwReq) (l : List FwReq) : List FwReq :=
  match l with
  | [] => [q]
  | e :: r => if e.at_ == q.at_ && q.key < e.key then q :: e :: r else e :: fwInsert q r

/-- A request that reaches the leader's queue. -/
def fwPut (s : State) (key fn : Nat) (words : List (List Byte)) : State :=
  { s with fwQ := fwInsert { at_ := fwNow s, key := key, fn := fn, words := words } s.fwQ }

/-- The state in which a ring is left by a control packet of it that has run: where it had ended its fetching, waited or come to its tail it
does so still (R105). -/
def ringAfter (was : Ring) (q : Ring) : Ring :=
  match was.st, q.st with
  | .running, _ => q
  | .waiting, .running => if q.open_ = 0 then q else { q with st := .waiting }
  | st, .running => { q with st := st }
  | _, _ => q

/-- A control packet run by the leader (R103, R105, R458): it has been started, and it completes though its ring has stopped. -/
def runPacket (bs : List Byte) (r : Nat) (s : State) : Out :=
  let was := ringOf s r
  let s := modRing s r (fun q => { q with open_ := q.open_ - 1, st := .running })
  let k := { pktOf r (ofBytesLE bs) with barrier := false }
  match packetInstr (bytesAt bs 0 1) k with
  | some i => match exec i s with
    | .next t => .next (modRing t r (ringAfter was))
    | o => o
  | none => .next s

/-! ### Mailbox requests (R458) -/

/-- The step that a debug command's OP names (R432); a RESOLVE goes by its action. -/
def debugInstr (m : Mb) (cmd : BitVec 256) : Option (State → Out) :=
  match bitsOf cmd.toNat 0 8 with
  | 0x30 => some (execTrapcfg m cmd)
  | 0x31 => some (execTracecfg m cmd)
  | 0x32 => match bitsOf cmd.toNat 128 3 with
    | 1 => some (execResolveSkip m cmd)
    | 2 => some (execResolveGoto m cmd)
    | 3 => some (execResolveRestart m cmd)
    | 4 => some (execResolveKill m cmd)
    | _ => some (execResolveRetry m cmd)
  | 0x33 => some (execHalt m cmd)
  | 0x34 => some (execRelease m cmd)
  | 0x35 => some (execStep m cmd)
  | 0x36 => some (execReadreg m cmd)
  | 0x37 => some (execWritereg m cmd)
  | _ => none

/-- The step that a page command's ACTION names (R188); the fourth code is malformed, as the first one finds. -/
def pageInstr (m : Mb) (cmd : BitVec 256) : State → Out :=
  match bitsOf cmd.toNat 16 2 with
  | 1 => execPageResolve m cmd
  | 2 => execPageFail m cmd
  | _ => execPageInval m cmd

/-- The step that an SPDM message's code names (R464, notes/assumptions/140.md). -/
def spdmInstr (m : Mb) (msg : List Byte) : Option (State → Out) :=
  match bytesAt msg 1 1 with
  | 0x84 => some (execGetVersion m msg)
  | 0xE1 => some (execGetCapabilities m msg)
  | 0xE3 => some (execNegotiateAlgorithms m msg)
  | 0x81 => some (execGetDigests m msg)
  | 0x82 => some (execGetCertificate m msg)
  | 0x83 => some (execChallenge m msg)
  | 0xE0 => some (execGetMeasurements m msg)
  | _ => none

/-- The step that a SYSTEM operation names (R459). -/
def systemInstr (m : Mb) (op : Nat) (w : BitVec 64) : Option (State → Out) :=
  match op with
  | 0x01 => some (execPower m w)
  | 0x02 => some (execUnlock m w)
  | 0x03 => some (execLock m w)
  | 0x04 => some (execDebuglvl m w)
  | 0x05 => some (execFwstage m w)
  | 0x06 => some (execFwact m w)
  | 0x07 => some (execPort m w)
  | 0x08 => some (execBqcfg m w)
  | 0x09 => some (execPwrcap m w)
  | 0x0A => some (execIdsig m w)
  | _ => none

/-- The die whose SYSCALL record to the host a reply's SEQ names: the lowest with such a record (notes/assumptions/139.md). -/
def replyDie (s : State) (seq : Nat) : Nat :=
  ((List.range 4).find? (fun d => s.sysMsgs.any (fun m => m.die == d && m.seq == seq && m.toHost))).getD 0

/-- How many entries a request takes, by its header (R458). -/
def mailLen (h : List Byte) : Nat := if bytesAt h 1 1 ≤ 9 then bytesAt h 1 1 + 1 else 1

/-- The least length of the body of a class (R388, R431, R188, R458). -/
def bodyLen (cls : Nat) : Nat :=
  match cls with
  | 1 => 32
  | 2 => 32
  | 4 => 260
  | 5 => 16
  | _ => 0

/-- The step that a request of a class asks for, by its body (R458). -/
def mailInstr (s : State) (m : Mb) (cls : Nat) (body : List Byte) : Option (State → Out) :=
  let cmd := BitVec.ofNat 256 (bytesAt body 0 32)
  match cls with
  | 1 => some (pageInstr m cmd)
  | 2 => debugInstr m cmd
  | 3 => spdmInstr m body
  | 4 => some (execSyscallReply ⟨some m, replyDie s (bytesAt body 0 4)⟩ (BitVec.ofNat 32 (bytesAt body 0 4))
      ((List.range 32).map (fun l => BitVec.ofNat 64 (bytesAt body (4 + 8 * l) 8))))
  | 5 => systemInstr m (bytesAt body 0 1) (BitVec.ofNat 64 (bytesAt body 8 8))
  | _ => none

/-- A mailbox request run by the leader (R458, notes/assumptions/140.md): one whose header does not hold together is MALFORMED, and a class
or an operation that is not assigned is BAD_OP, or MALFORMED for a debug command (R431). -/
def runMail (fn : Nat) (es : List (List Byte)) (s : State) : Out :=
  let h := es.headD []
  let m : Mb := { fn := fn, tag := BitVec.ofNat 32 (bytesAt h 4 4) }
  let cls := bytesAt h 0 1
  let len := bytesAt h 2 2
  let body := ((es.flatMap id).drop 8).take len
  if bytesAt h 1 1 > 9 || len + 8 > 64 * es.length || len < bodyLen cls then
    withMail m cls s (fun s => mbDone s m stMalformed 0 0 [])
  else match mailInstr s m cls body with
    | some f => f s
    | none => if cls = 3 then spdm m (bytesAt body 1 1) body s
      else withMail m cls s (fun s => mbDone s m (if cls = 2 then stMalformed else stBadOp) 0 0 [])

/-- Whether a function's mailbox is there: the PF's, or an enabled VF's (R456). -/
def hasMail (s : State) (fn : Nat) : Bool := s.power != .d3cold && (fn = 0 || (fn ≤ 16 && (partOf s (fn - 1)).vf))

/-- An entry of 64 bytes that the host writes into a function's request ring, of 4096 entries (R458). -/
def mailPut (fn : Nat) (e : List Byte) (s : State) : Out :=
  let q := mapGet s.mailReq fn []
  if !hasMail s fn || e.length != 64 || q.length ≥ 4096 then .next s
  else .next { s with mailReq := mapSet s.mailReq fn (q ++ [e]) }

/-- Whether a function's request ring holds a whole request. -/
def mailWhole (s : State) (fn : Nat) : Bool :=
  hasMail s fn && (match mapGet s.mailReq fn [] with
    | [] => false
    | h :: r => mailLen h ≤ r.length + 1)

/-- The mailboxes' turn (R458): the functions are served round-robin from the PF, each in ring order; the request reaches the leader's
queue. -/
def mailTake (s : State) : Out :=
  match ((List.range 17).map (fun i => (s.mailLast + 1 + i) % 17)).find? (mailWhole s) with
  | none => .next s
  | some fn =>
    let q := mapGet s.mailReq fn []
    let n := mailLen (q.headD [])
    .next { (fwPut s 64 fn (q.take n)) with
      mailReq := mapSet s.mailReq fn (q.drop n)
      mailLast := fn }

/-- The leader's turn: it runs the head of its queue, once the cycle in which it came is over, so that what comes before it in that cycle
has come (R458). -/
def fwRun (s : State) : Out :=
  match s.fwQ with
  | [] => .next s
  | q :: r =>
    if fwDown s || s.power == .d3cold || (q.at_ == fwNow s && s.power != .d3hot) then .next s
    else if q.key < 64 then runPacket (q.words.headD []) q.key { s with fwQ := r }
    else runMail q.fn q.words { s with fwQ := r }

/-! ### The BARs (R454, R456, R457) -/

/-- A ring register as it reads (R457). -/
def Ring.bits (r : Ring) : Nat :=
  r.base * 2 ^ 64 + r.head % 2 ^ 16 * 2 ^ 48 + r.tail % 2 ^ 16 * 2 ^ 32 + r.pasid * 2 ^ 12 + r.fe * 2 ^ 8 + r.logsz * 2 ^ 4 +
  (if r.shadow then 2 else 0) + (if r.en then 1 else 0)

/-- The dies that hold their firmware core in reset, as offset 0x5008 reads (R463). -/
def fwHeldBits (s : State) : Nat := (List.range 4).foldl (fun v d => if (dieOf s d).fwHeld then v + 2 ^ d else v) 0

/-- The bytes of the PF's BAR0 that the manual lays out (R456, R463), by offset. -/
def pfByte (s : State) (off : Nat) : Byte :=
  let at_ := fun (v : Nat) => BitVec.ofNat 8 (v / 2 ^ (8 * (off % 16)))
  if 0x1000 ≤ off && off < 0x1100 then at_ (partOf s ((off - 0x1000) / 16)).bits
  else if 0x2000 ≤ off && off < 0x2400 then at_ (ringOf s ((off - 0x2000) / 16)).bits
  else if 0x5000 ≤ off && off < 0x5008 then at_ s.pwrcap
  else if 0x5008 ≤ off && off < 0x5010 then at_ (fwHeldBits s * 2 ^ 64)
  else Sys2Proof.Config.barByte 0 0 off

/-- The bytes of a VF's BAR0 that the manual lays out: the HEAD fields of its four rings (R456). -/
def vfByte (s : State) (v off : Nat) : Byte :=
  if 0x100 ≤ off && off < 0x120 then BitVec.ofNat 8 ((ringOf s (4 * v + (off - 0x100) / 8)).head / 2 ^ (8 * (off % 8)))
  else Sys2Proof.Config.barByte (v + 1) 0 off

/-- A byte of a BAR (R456): of device physical memory through the PF's BAR2, where holes read all ones. -/
def barByte (s : State) (fn bar off : Nat) : Byte :=
  if fn = 0 && bar = 0 then pfByte s off
  else if fn = 0 && bar = 2 then (if inHole off || 2 ^ 42 ≤ off then 0xFF else memGet s.mem off)
  else if bar = 0 then vfByte s (fn - 1) off
  else Sys2Proof.Config.barByte fn bar off

/-- The host reads `n` bytes of a BAR (R456). -/
def barRead (fn bar off n : Nat) (s : State) : Out :=
  if !hasMail s fn then .next s
  else .next { s with hostRd := (List.range n).map (fun i => barByte s fn bar (off + i)) }

/-- A ring register written whole (R457): its fields, then EN's rise, then the doorbell. -/
def writeRing (r : Nat) (v : BitVec 128) (s : State) : Out :=
  match execRegisterWrite 0 r v s with
  | .next s => match (if v.getLsbD 0 then execRingEnable 0 r s else .next s) with
    | .next s => execRingDoorbell 0 r (BitVec.ofNat 16 (bitsOf v.toNat 32 16)) s
    | o => o
  | o => o

/-- A register's value with the bytes of a write in place (R7). -/
def patched (old off : Nat) (bs : List Byte) : BitVec 128 :=
  let o := bytesLE 16 old
  BitVec.ofNat 128 (ofBytesLE (o.take (off % 16) ++ bs ++ o.drop (off % 16 + bs.length)))

/-- The host writes bytes through a BAR (R7, R456): a partition's or a ring's register, or device physical memory. Of a VF nothing is
writable but its mailbox. -/
def barWrite (fn bar off : Nat) (bs : List Byte) (s : State) : Out :=
  if fn != 0 || s.power == .d3cold || bs.isEmpty then .next s
  else if bar = 2 then (if 2 ^ 42 < off + bs.length then .next s else execHostWrite off bs s)
  else if bar != 0 || off % 16 + bs.length > 16 then .next s
  else if 0x1000 ≤ off && off < 0x1100 then
    let p := (off - 0x1000) / 16
    execPartitionRegisterWrite p (patched (partOf s p).bits off bs) s
  else if 0x2000 ≤ off && off < 0x2400 then
    let r := (off - 0x2000) / 16
    writeRing r (patched (ringOf s r).bits off bs) s
  else .next s

/-! ### The memory-side caches (R57, R455) -/

/-- A line that is not held is filled for a partition into a way that one of its colours names; what that way of the set held is
evicted. No value depends on it. -/
def cacheFill (p line way : Nat) (s : State) : Out :=
  if !inHbm (line * 128) || way ≥ 16 || !(partOf s p).en || !(partOf s p).colours.testBit way || (mapFind s.msCache line).isSome then .next s
  else .next { s with msCache := mapSet (s.msCache.filter (fun e =>
    !(e.2 == way && Sys2Proof.Config.cacheSet e.1 == Sys2Proof.Config.cacheSet line))) line way }

end Sys2Proof.Machine
end

