-- ==== Sys2Proof/Machine/Issue.lean ====
section
/-!
DEFINITION. Who moves next and with what: which splits may issue (R142), the fetch of an instruction's words (R232, R233), the
issue of one instruction, a debugger's STEP (R434), the ring fetcher (R100-R105), and the order in which the units move where
the schedule names none (notes/assumptions/5.md).
-/
namespace Sys2Proof.Machine

/-! ### The issue of one instruction -/

/-- Whether a context lets a role issue: RESIDENT, or saving or resuming while the role runs its handler (R86, R89). -/
def ctxIssues (c : Context) (y : Warp) : Bool :=
  match c.st with
  | .resident => true
  | .saving => y.aside.isSome && !y.saved
  | .resuming => y.aside.isSome
  | _ => false

/-- Whether a split waits for something that ends without it: a barrier, or the end of an instruction it has issued (R142). -/
def splitWaits (q : Split) : Bool :=
  q.wait.isSome || (match q.hold with
    | .bar _ _ _ _ => true
    | _ => false)

/-- Whether one split holds its whole warp (R369): it waits for the answer of a unit of the event chapter, or for the PLU. -/
def holdsWarp (q : Split) : Bool :=
  match q.wait with
  | some (.evwait _ _ _ _) | some (.calloc _ _ _ _ _ _) | some (.answer _ _) => true
  | some _ => false
  | none => q.blk == .plu

/-- Whether another split of a warp holds it (R369). -/
def warpHeld (y : Warp) (slot : Nat) : Bool :=
  (List.range 4).any (fun i => i != slot && (y.split i).elim false holdsWarp)

/-- Whether a split may issue (R142): its role runs, is not halted, parked, stopped, held or about to trap, none of its entries has
starved (R144), and no compactor move holds it back (R148). -/
def mayIssue (s : State) (w : Who) : Bool :=
  match groupAt s w.core w.gslot, warpAt s w.core w.gslot w.wid with
  | some g, some y =>
    s.power == .d0 && (partOf s (ctxOf s g.ctx).part).pwr = 0 && !(coreOf s w.core).dead && ctxIssues (ctxOf s g.ctx) y && y.run == .run && !y.halted &&
    y.parked.isNone && y.pend.isNone && (starved y).isNone && !(coreOf s w.core).pause.contains (w.gslot, w.wid) && !(y.spec.elim false (fun p => p.stopped)) && !warpHeld y w.slot &&
    (y.split w.slot).elim false (fun q => !splitWaits q)
  | _, _ => false

/-! ### The choice of the next issue (R17, R142) -/

/-- Whether a split may issue and has not been found not ready in this cycle. -/
def isReady (s : State) (w : Who) : Bool := mayIssue s w && !(coreOf s w.core).tried.contains w

/-- The places of a ring of `n` after `last`, in turn. -/
def turnFrom (n last : Nat) : List Nat := (List.range n).map (fun i => (last + 1 + i) % n)

/-- The first ready split of a role, its slots taking turns (R142). -/
def readySlot (s : State) (c g w : Nat) (y : Warp) : Option Who :=
  ((turnFrom 4 y.lastSlot).map (fun i => ({ core := c, gslot := g, wid := w, slot := i } : Who))).find? (isReady s)

/-- What a unit of a core could issue (R17): for each of its roles with a ready split, the role's priority (R83; the MSQ looks at
none), its warp slot, and the split. -/
def readyOf (s : State) (c unit : Nat) : List (Nat × Nat × Who) :=
  (coreOf s c).groups.flatMap (fun (g, k) => k.warps.filterMap (fun (w, y) =>
    if issueUnit w y.part == unit then
      (readySlot s c g w y).map (fun who => (if unit == 32 then 0 else prioOf (ctxOf s k.ctx).regions k.region, y.wslot, who))
    else none))

/-- The split that a unit issues next (R17, R142): of the roles with the highest priority the first in turn after the last. -/
def choiceOf (s : State) (c unit : Nat) : Option Who :=
  let k := coreOf s c
  let rs := readyOf s c unit
  let top := rs.foldl (fun m r => Nat.max m r.1) 0
  let last := if unit == 32 then k.lastMt else mapGet k.lastWarp unit 15
  (turnFrom 16 last).findSome? (fun i => (rs.find? (fun r => r.1 == top && r.2.1 == i)).map (fun r => r.2.2))

/-- Whether a role can be given an issue in this cycle: its unit has not issued in it (R17, R142), and no role of its group that
comes after it in the order of R136 has been served in it. -/
def turnFree (s : State) (w : Who) : Bool :=
  match warpAt s w.core w.gslot w.wid with
  | some y => !(coreOf s w.core).turn.contains (issueUnit w.wid y.part) && rankOk s w
  | none => false

/-- Whether a split is the one that issues: it can be given an issue, and its unit chooses it. -/
def isTurn (s : State) (w : Who) : Bool :=
  match warpAt s w.core w.gslot w.wid with
  | some y => turnFree s w && choiceOf s w.core (issueUnit w.wid y.part) == some w
  | none => false

/-- What the fetch of a word gives. -/
inductive Fetched where
  | word (w : W64)
  | stop (r : Res)

/-- The word at an address fetched for a role (R232 step 1, R187, R233): no state changes where the TLB holds the page. -/
def fetchWord (s : State) (x : Iss) (pc : Nat) : Fetched :=
  let lanes := if x.isVec then lanesOf x.sp.mask else [0]
  let other := withTranslation s x 3 0 false (lanes.map (fun l => (l, pc))) (fun _ s => .hold .nothing s)
  if userVa pc then
    match laneLookup s x (ctxOf s x.grp.ctx).pasid 3 pc with
    | .hit e =>
      if isPoisoned s (lineOf (e.phys pc)) then .stop (.trap .poison x.sp.mask pc 0 s)
      else .word (BitVec.ofNat 64 (memNat s.mem (e.phys pc) 8))
    | _ => .stop other
  else .stop other

/-- The words of a list of addresses fetched in order, or the first stop. -/
def fetchWords (s : State) (x : Iss) (pcs : List Nat) : Except Res (List W64) :=
  match pcs with
  | [] => .ok []
  | a :: r => match fetchWord s x a with
    | .stop q => .error q
    | .word w => match fetchWords s x r with
      | .ok ws => .ok (w :: ws)
      | .error q => .error q

/-- The shape words that follow a first word: four after an opcode of five words (R206). -/
def shapeAddrs (pc : Nat) (w : W64) : List Nat := if wordCount w == 5 then [pc + 8, pc + 16, pc + 24, pc + 32] else []

/-- What the words at a role's PC say (R232 steps 1 and 2): an instruction, or how the issue ends instead, with the words it
would have had. -/
inductive Found where
  | instr (i : Instr)
  | stop (words : Nat) (r : Res)

/-- The instruction at a role's PC. -/
def fetchInstr (s : State) (x : Iss) : Found :=
  match fetchWord s x x.sp.pc.toNat with
  | .stop r => .stop 1 r
  | .word w => match fetchWords s x (shapeAddrs x.sp.pc.toNat w) with
    | .error r => .stop 5 r
    | .ok sh => match decodeWords w sh with
      | .ok i => .instr i
      | .error _ => .stop (sh.length + 1) (.trap .illegal x.sp.mask 0 0 s)

/-- The instruction at the PC of `State.cur` fetched and executed. -/
def issueCur (x : Iss) (s : State) : Out :=
  match fetchInstr s x with
  | .instr i => exec i s
  | .stop n r => finish x n r

/-- One issue of a split: nothing where it is not its turn. -/
def issueWord (w : Who) (s : State) : Out :=
  if isTurn s w then
    let s := { s with cur := w }
    match issuer s with
    | some x => issueCur x s
    | none => .next s
  else .next s

/-! ### A debugger's STEP (R434) -/

/-- Whether a role waits for a walk, a page request or a pull. -/
def awaitsPage (s : State) (w : Who) : Bool :=
  (dieOf s (dieOfCore w.core)).walks.any (fun k => k.who == w && k.res.isNone) ||
  (warpAt s w.core w.gslot w.wid).elim false (fun y => match y.run with
    | .pageWait _ _ _ _ _ _ => true
    | _ => false)

/-- The occupied slots of a warp as a 4-bit mask (R434). -/
def slotMask (y : Warp) : Nat := (List.range 4).foldl (fun acc i => if (y.split i).isSome then acc + 2 ^ i else acc) 0

/-- How a STEP completes after its issue (R434): not yet where the issue waits for a page, BLOCKED where nothing was issued, else
OK with the occupied slots. A role that the step ends is HALTED no more, and an expiry that its halt deferred is applied (R430). -/
def stepEnd (s : State) (m : Mb) (w : Who) : State :=
  match warpAt s w.core w.gslot w.wid with
  | none => mbDone s m stOk 0 0 []
  | some y =>
    if awaitsPage s w then { s with stepping := some (m, w) }
    else if y.run == .run && (coreOf s w.core).tried.contains w then mbDone s m stBlocked 0 0 []
    else mbDone (lateExpiry s (ctxOfRole s w)) m stOk (slotMask y) 0 []

/-- The one issue of a STEP (R434): the halt does not hold it back, and a BRKPT the role stands at is passed first (R433). -/
def debugStep (m : Mb) (w : Who) (s : State) : Out :=
  let s := { s with
    stepping := none
    cur := w }
  let s := match issuer s with
    | some x => if x.sp.wait == some .brkpt then wakeSplit s w 1 else s
    | none => s
  match issuer s with
  | none => .next (mbDone s m stBadState 0 0 [])
  | some x =>
    if splitWaits x.sp || warpHeld x.wp w.slot || x.wp.run != .run || x.wp.parked.isSome then .next (mbDone s m stBlocked 0 0 [])
    else match issueCur x (modCore s w.core (fun k => { k with tried := k.tried.filter (fun v => v != w) })) with
      | .next t => .next (stepEnd t m w)
      | r => r

/-- The STEP whose issue is the machine's next step, if one stands that does not wait for a page, and whose role, if it is still there,
can be given an issue in this cycle (R17, R434). -/
def steppingNow (s : State) : Option (Mb × Who) :=
  s.stepping.filter (fun e => !awaitsPage s e.2 && (turnFree s e.2 || (warpAt s e.2.core e.2.gslot e.2.wid).isNone))

/-! ### The ring fetcher (R100-R105) -/

/-- Whether a ring's next packet can be read: it is served (R457), lies in no hole (R54), it runs (R105), a link to the host is up (R196), and the
device is in D0 or DIE-RETAIN (R460, R461). -/
def ringFetches (s : State) (r : Nat) : Bool :=
  (ringPart s r).isSome && !inHole ((ringOf s r).base + 64 * (ringOf s r).head) && (ringOf s r).en && (ringOf s r).st == .running && (ringOf s r).hasWork && s.ucie.any id &&
  (s.power == .d0 || s.power == .dieRetain)

/-- HEAD moved past a packet that has started; the ring that reaches its tail is IDLE (R105). -/
def headPast (r : Ring) : Ring :=
  let r := { r with head := (r.head + 1) % r.capacity }
  if r.hasWork then r else { r with st := if r.st == .running then .idle else r.st }

/-- The next packet of a ring started, with HEAD past it (R103): an event at once; a control packet, which counts as started, goes to the
leader's queue (R458). A BARRIER packet with earlier packets open waits, and one with a misaligned CADDR is refused (R102). -/
def fetchRing (r : Nat) (s : State) : Out :=
  if !ringFetches s r then .next s
  else
    let q := ringOf s r
    let bs := memGetBytes s.mem (q.base + 64 * q.head) 64
    let k := pktOf r (ofBytesLE bs)
    if k.barrier && q.open_ != 0 then .next (modRing s r (fun q => { q with st := .waiting }))
    else if k.caddr.toNat % 8 != 0 then .next (modRing s r headPast)
    else if isControl (bytesAt bs 0 1) then
      .next (modRing (fwPut (modRing s r (fun q => { q with open_ := q.open_ + 1 })) r 0 [bs]) r headPast)
    else
      let out := match packetInstr (bytesAt bs 0 1) k with
        | some i => exec i s
        | none => badPacket k s
      match out with
      | .next t => .next (modRing t r headPast)
      | o => o

/-! ### The order where the schedule names none -/

/-- The steps that the dies' units could make: intake, walks, Cistern, decoders, leases. The combining comes with the cycle's end. -/
def dieSteps (s : State) : List (State → Out) :=
  s.dies.flatMap (fun (d, k) =>
    (List.range k.intakeQ.length).flatMap (fun n => [execEventIntake d n, execCloseMarkerIntake d n]) ++
    (List.range k.walks.length).map (fun n => execPageWalkComplete d n) ++
    (List.range k.chunkQ.length).map (fun n => execChunkArrival d n) ++
    k.cslots.map (fun (i, _) => execSlotRelease d i) ++
    k.decoders.flatMap (fun (i, _) => [execSubmissionStart d i, execFramePut d i, execSubmissionEnd d i]) ++
    [execLeaseRenew d, execLeaseLapse d])

/-- The steps that time domains, contexts, launches and pulls could make. -/
def queueSteps (s : State) : List (State → Out) :=
  s.domains.flatMap (fun (d, _) => [execCandidateDeadline d, execEventRelease d, execEntryStallResume d, execPendStallResume d, execProbeSend 1001 d 0]) ++
  s.ctxs.flatMap (fun (x, c) =>
    [execSliceExpiry x, execSaveComplete x, execResumeComplete x, execInvalidationComplete x] ++
    (List.range c.regions.length).flatMap (fun r => [execDetDispatch x r, execProbeSend 1002 x r]) ++
    c.launches.flatMap (fun l => [execDatomApply x l.idx, execLaunchComplete x l.idx, execProbeSend 1000 x l.idx])) ++
  (List.range s.pulls.length).map (fun n => execPullRetry n) ++
  (if s.fw.pending then [execFirmwareActivation] else []) ++ [mailTake, fwRun] ++ (if s.pmPending then [execPmD3hot] else [])

/-- The steps that a role could make besides issuing. -/
def roleSteps (c g w : Nat) : List (State → Out) :=
  [execTrapTaken c g w, execBarrierArrival c g w, execHang c g w] ++ (List.range 4).map (fun i => execMbarwPoll c g w i) ++
  [execProbeSend c g w]

/-- The steps that a core's units could make. -/
def coreSteps (s : State) : List (State → Out) :=
  s.cores.flatMap (fun (c, k) =>
    (List.range k.mrels.length).map (fun n => execMrelTakesEffect c n) ++ [execArrayRetire c, execArrayStart c, execDrainStart c] ++
    (List.range k.drains.length).map (fun n => execDrainRetire c n) ++
    (List.range k.copies.length).flatMap (fun n => [execCopyReplay c n, execCopyRetire c n]) ++
    k.groups.flatMap (fun (g, x) => (byRank (x.warps.map (fun e => e.1))).flatMap (roleSteps c g) ++ [execGroupSlotFree c g]) ++
    k.claimed.map (fun x => execLazyWriteOutComplete c x) ++ [execGroupPlace c, execCompactorMove c, execStealAnswer c, execStealRequest c])

/-- The steps that memory and the launch offers could make. -/
def memorySteps (s : State) : List (State → Out) :=
  (List.range s.returns.length).map (fun n => execLoadReturn n) ++
  (List.range s.inflight.length).map (fun n => execHomeAccess n) ++
  (List.range s.datoms.length).map (fun n => execDatomEntryArrival n) ++
  (List.range s.probes.length).map (fun n => execProbeArrival n) ++
  s.ctxs.flatMap (fun (x, c) => c.launches.flatMap (fun l =>
    ((s.cores.map (fun e => e.1)).filter (fun n => n / 64 == l.die && (ctxOf s x).st == .resident)).flatMap (fun n =>
      [execPendingLaunchRetry l.die n, execGroupOffer l.die n])))

/-- A page command that is open, given again so that its end is tested (R188). -/
def pageCmdAgain (c : PageCmd) : State → Out :=
  match c.action with
  | 0 => execPageInval c.mb 0
  | 1 => execPageResolve c.mb 0
  | _ => execPageFail c.mb 0

/-- Whether a step of a unit would change anything. -/
def changes (s : State) (f : State → Out) : Bool :=
  match f s with
  | .next t => t != s
  | _ => false

/-- The splits whose turn it is, in the order of their cores; in a core the matrix threads, the copy warps and the vector warps in
turn (R136). -/
def turns (s : State) : List Who :=
  s.cores.flatMap (fun (c, k) =>
    let all := k.groups.flatMap (fun (g, x) => x.warps.filterMap (fun (w, y) => readySlot s c g w y))
    (sortBy (fun a b => decide (roleRank a.wid ≤ roleRank b.wid)) all).filter (isTurn s))

/-- The die whose cycle count is least, the lowest number first. -/
def slowestDie (s : State) : Nat :=
  (List.range 4).foldl (fun b d => if (dieOf s d).cycle < (dieOf s b).cycle then d else b) 0

/-- The step made where the schedule is empty: a step of a unit that changes something, else an issue, else a die's cycle. -/
def defaultStep (s : State) : Out :=
  let units := memorySteps s ++ coreSteps s ++ dieSteps s ++ queueSteps s ++ s.pageCmds.map pageCmdAgain
  match units.find? (changes s) with
  | some f => f s
  | none => match turns s with
    | w :: _ => issueWord w s
    | [] => execDiecycleAdvance (slowestDie s) s

/-! ### Steps of their own -/

/-- Whether an entry of the schedule is an access of the host. -/
def ofHost (e : Sched) : Bool :=
  match e with
  | .hostAtomic _ _ _ _ => true
  | .barRead _ _ _ _ | .barWrite _ _ _ _ => true
  | .unit i => match i with
    | .hostWrite _ _ => true
    | _ => false
  | _ => false

/-- The host atomic whose unit has read its words and is to write them now (R71, R405): nothing of the device comes between the two, only
an access of the host (R416). -/
def hostFinishes (s : State) : Option Req := if (s.schedule.head?).elim false ofHost then none else hostHalf s

/-- A step of a unit that takes the old value of some words where it may (R69). -/
def withOlds (words : List Nat) (f : State → Out) (s : State) : Out :=
  match f { s with olds := words } with
  | .next t => .next { t with olds := [] }
  | r => r

/-! ### A program loaded from outside (notes/assumptions/8.md) -/

/-- The template of a group with one role of each kind, entered at an address. -/
def loadTemplate (entry : W64) : Template where
  entry := entry
  gcount := 0
  gcsrc := false
  gcpos := 0
  gcfld := 0
  vwarps := 0
  cwarps := 1
  mthread := true
  argl := false
  vregs := 255
  sramsz := 0
  region := 0
  nrings := 0
  rings := []
  cstream := 0
  cen := false
  crgroups := 0
  crregkib := 0
  crsramkib := 0
  crregion := 0

/-- The launch of that group, admitted whole. -/
def loadLaunch (entry : W64) : Launch where
  idx := 0
  die := 0
  slot := 0
  tmpl := loadTemplate entry
  args := []
  count := 1
  admitted := 1
  freed := 0
  pend := false
  waiting := false
  acq := false
  reserve := none
  drawn := []
  logBlocks := []
  logPos := 0
  logRuns := []
  applied := false
  at_ := 0

/-- The page that holds the program: virtual and physical address 4096. -/
def loadPage : TlbEntry where
  pasid := 1
  va := 4096
  size := 4096
  pa := 4096
  w := false
  x := true
  nc := false
  noatom := false
  sysat := false

/-- The role that issues a word (R134): the copy warp for the copy engine's, the matrix thread for class 111, else vector warp
0. -/
def roleOfWord (w : W64) : Nat :=
  let op := (fld w 54 9).toNat
  if flag w 63 then 0 else if wordCount w == 5 then 32 else if op ≥ 0x1c0 then 64 else 0

/-- A context, a group and a mapped page in which words at 4096 are the next to issue on core 0. -/
def loadWords (s : State) (w : Nat) : State :=
  let entry : W64 := 4096
  let root : Rcb := rcbOf 0
  let x : Context := { newContext 0 [root] with
    pasid := 1
    launches := [loadLaunch entry] }
  let g := newGroup 0 (loadLaunch entry) 0 { gslot := 0, sbase := 0, parts := [(0, 0, 0), (32, 1, 0)] }
  let s := modCtx s 0 (fun _ => x)
  let s := modCore s 0 (fun k => { k with
    groups := [(0, g)]
    tlb := [loadPage]
    turn := []
    tried := []
    ranks := []
    fills := []
    freedNow := []
    pause := []
    dead := false })
  { s with
    mem := memSetBytes s.mem 4096 (bytesLE 40 w)
    power := .d0
    inflight := s.inflight.map (fun r => { r with got := none })
    stepping := none
    schedule := [.issue { core := 0, gslot := 0, wid := roleOfWord (BitVec.ofNat 64 w), slot := 0 }] }

end Sys2Proof.Machine
end

