-- ==== Sys2Proof/Machine/Step.lean ====
section
/-!
DEFINITION. One step of the device: the second half of a host atomic unit's work, else a debugger's STEP that has been taken, else the
head of the schedule, else the default order (notes/assumptions/5.md); and where a test places a word (notes/assumptions/8.md).
-/
namespace Sys2Proof.Machine

/-- One entry of the schedule carried out. An instruction word is issued by a split only: an entry that names one as the step of a
unit names nothing of the device, and is passed over. -/
def runEntry (e : Sched) (s : State) : Host.Outcome State Fault Refusal :=
  match e with
  | .unit i => if (encode i).isSome then .next s else exec i s
  | .unitOld words i => if (encode i).isSome then .next s else withOlds words (exec i) s
  | .issue w => issueWord w s
  | .copyMove core id n => .next (advanceCopy s core id n)
  | .copyOld core id n words => .next (advanceCopy s core id n words)
  | .oldAccess n words => .next (oldAccess n words s)
  | .drainPart core id home => .next (drainPart s core id home)
  | .arrayBlock core => .next (arrayBlock s core)
  | .ringFetch r => fetchRing r s
  | .ringLate die n => .next (ringLate s die n)
  | .hostAtomic aop w pa b => .next (hostAtomic aop w pa b s)
  | .l1Evict core line => .next (l1Drop s core line)
  | .peerPoison core id => .next (peerPoison s core id)
  | .mailPut fn e => mailPut fn e s
  | .mailTake => mailTake s
  | .fwRun => fwRun s
  | .barRead fn bar off n => barRead fn bar off n s
  | .barWrite fn bar off bs => barWrite fn bar off bs s
  | .cacheFill p line way => cacheFill p line way s

/-- One step of the device. -/
def step (s : State) : Host.Outcome State Fault Refusal :=
  match hostFinishes s with
  | some r => .next (perform s r)
  | none => match steppingNow s with
    | some (m, w) => debugStep m w s
    | none => match s.schedule with
      | e :: r => runEntry e { s with schedule := r }
      | [] => defaultStep s

/-- The state with an instruction's words where the next step fetches them. -/
def State.withFetchWord (s : State) (_nbits w : Nat) : State := loadWords s w

end Sys2Proof.Machine
end

