-- ==== Sys2Proof/Safety.lean ====
section
/-!
DEFINITION. What the statements about the device speak of: the conditions under which a split issues an instruction whole
(R232), the shape of each instruction word (who may issue it, whether it stops a speculator, its length, its guard and its
tokens), the ends of an instruction, and the invariant that every step keeps.
-/
namespace Sys2Proof.Machine

/-! ### Issuing an instruction whole -/

/-- No token that a mask names is outstanding in a warp (R218). -/
def tokensFree (y : Warp) (tw : BitVec 8) : Bool := (List.range 8).all (fun i => !(tw.getLsbD i) || y.toks.getD i 0 == 0)

/-- The registers of the operands lie within a vector warp's count (R209). -/
def inCount (x : Iss) (os : List Opd) : Bool := !x.isVec || os.all (fun o => o.vregs.all (fun r => x.hasRegs r.1 r.2))

/-- Every operand is full in the lanes of a mask (R66). -/
def allFull (x : Iss) (m : W32) (os : List Opd) : Bool := os.all (fun o => o.emptyIn x m == 0)

/-- Split `x`, which `State.cur` names, may issue an instruction but for its operands: all of `Ready` except that they are full. -/
def Issuable (s : State) (x : Iss) (roles : Roles) (stops : Bool) (g : Guard) (tw : BitVec 8) (os : List Opd) : Prop :=
  issuer s = some x ∧ inCount x os = true ∧ roles.allow x = true ∧ (stops = true → x.wp.spec = none) ∧
  tokensFree x.wp tw = true ∧ guardMask x g ≠ 0

/-- Split `x`, which `State.cur` names, issues an instruction whole: its role may (R134), its registers are within the count
(R209), it does not speculate where the instruction stops a speculator (R158), no token it waits for is outstanding (R218), a
lane passes the guard (R208), and every operand is full (R66, R67). -/
def Ready (s : State) (x : Iss) (roles : Roles) (stops : Bool) (g : Guard) (tw : BitVec 8) (os : List Opd) : Prop :=
  issuer s = some x ∧ inCount x os = true ∧ roles.allow x = true ∧ (stops = true → x.wp.spec = none) ∧
  tokensFree x.wp tw = true ∧ guardMask x g ≠ 0 ∧ allFull x (guardMask x g) os = true

/-- The next state of an instruction of `n` words whose effect leaves `s`: the split's PC past it (R232 step 9) and the
issue boundary (R140). -/
def past (x : Iss) (n : Nat) (s : State) : State := endIssue (stepPc s x.w n) x

/-- The next state of a transfer of control whose effect leaves `s`, the split's PC with it (R261). -/
def jumped (x : Iss) (s : State) : State := endIssue s x

/-- The state with a vector result of `n` registers in the lanes of the guard (R274). -/
def vecResult (s : State) (x : Iss) (g : Guard) (dst : BitVec 9) (n : Nat) (v : Nat → Nat) : State :=
  writeLanes s x (guardMask x g) dst.toNat n v

/-- The state with a uniform result (R253). -/
def uniResult (s : State) (x : Iss) (dst : BitVec 9) (v : W64) : State := onGroup s x (fun k => setSreg k dst.toNat v)

/-- The state with a predicate result in the lanes of the guard (R274). -/
def predResult (s : State) (x : Iss) (g : Guard) (dst : BitVec 9) (v : Nat → Bool) : State :=
  onWarp s x (fun y => setPred y dst.toNat (guardMask x g) (maskOf ((lanesOf (guardMask x g)).filter v)))

/-- The TLB of the core holds every page of the lanes' accesses, in the user half and allowing them (R186, R187). -/
def pagesHeld (s : State) (x : Iss) (kind : Nat) (accs : List (Nat × Nat)) : Bool :=
  accs.all (fun a => userVa a.2 && (match laneLookup s x (ctxOf s x.grp.ctx).pasid kind a.2 with
    | .hit _ => true
    | _ => false))

/-- The lanes with the physical addresses and the entries that the TLB gives them. -/
def physLanes (s : State) (x : Iss) (kind : Nat) (accs : List (Nat × Nat)) : List (Nat × Nat × TlbEntry) :=
  accs.filterMap (fun a => match laneLookup s x (ctxOf s x.grp.ctx).pasid kind a.2 with
    | .hit e => some (a.1, e.phys a.2, e)
    | _ => none)

/-- The physical ranges of `n` bytes at an address whose pages the TLB holds (R371), for the lanes of a mask. -/
def heldRange (s : State) (x : Iss) (m : W32) (kind va n : Nat) : Option (List (Nat × Nat)) :=
  let ps := pagePieces va n
  let accs := ps.flatMap (fun p => (lanesOf m).map (fun l => (l, p.1)))
  if pagesHeld s x kind accs then
    some (((physLanes s x kind accs).filter (fun p => some p.1 == (lanesOf m).head?)).zip ps |>.map (fun (p, q) => (p.2.1, q.2)))
  else none

/-- The bytes of a structure whose pages the TLB holds and none of whose lines is poisoned (R371). -/
def heldBytes (s : State) (x : Iss) (m : W32) (va n : Nat) : Option (List Byte) :=
  match heldRange s x m 0 va n with
  | some rs => if (rangeLines rs).any (fun l => isPoisoned s l) then none else some (rangeBytes s rs)
  | none => none

/-! ### The shape of an instruction word -/

/-- What R232 asks of a word before its operands: who may issue it, whether it stops a speculator, its words, its guard, the
tokens it waits for. -/
structure Shape where
  roles : Roles
  stops : Bool
  words : Nat
  guard : Guard
  tok : BitVec 8
  deriving DecidableEq, Repr

/-- The guard of a word that has none (R207). -/
def noGuard : Guard := { neg := false, pred := 7 }

/-- The shape of each instruction word, EXIT apart, which ends its role with its last lane (R266); a step of a unit or of the
host has none. -/
def shapeOf (i : Instr) : Option Shape :=
  match i with
  | .iadd g _ | .isub g _ | .imul g _ | .imulh g _ | .idiv g _ | .irem g _ | .imin g _ | .imax g _ | .iabs g _ | .ineg g _
  | .iaddc g _ | .and_ g _ | .or_ g _ | .xor_ g _ | .not_ g _ | .andn g _ | .shl g _ | .shr g _ | .sar g _ | .rot g _
  | .popc g _ | .clz g _ | .ctz g _ | .brev g _ | .icmp g _ | .mov g _ => some ⟨.vector, false, 1, g, 0⟩
  | .imad g _ | .isad g _ | .funnel g _ | .bfe g _ | .bfi g _ | .sel g _ | .lea g _ | .dp4 g _ | .fma g _ | .fdot2 g _ =>
    some ⟨.vector, false, 1, g, 0⟩
  | .movi g _ | .movhi g _ => some ⟨.vector, false, 1, g, 0⟩
  | .fadd g _ | .fsub g _ | .fmul g _ | .fmin g _ | .fmax g _ | .fminnum g _ | .fmaxnum g _ | .fabs g _ | .fneg g _
  | .fcopysign g _ | .fcmp g _ | .fclass g _ | .fdiv g _ | .fsqrt g _ | .frcp g _ | .frsq g _ | .fexp2 g _ | .flog2 g _
  | .fsin g _ | .fcos g _ | .ftanh g _ | .fscale g _ | .fgetexp g _ | .fround g _ | .ffrac g _ =>
    some ⟨.vector, false, 1, g, 0⟩
  | .cvt g _ | .cvtf8 g _ | .bxpack g _ | .bxunpack g _ | .shfl g _ | .red g _ | .scan g _ | .match_ g _ | .elect g _
  | .vote g _ | .rfal g _ | .rdlane g _ | .wrlane g _ | .permx g _ => some ⟨.vector, false, 1, g, 0⟩
  | .ld g f | .st g f | .ldx g f | .stx g f => some ⟨.vector, f.ord != 0, 1, g, f.twait⟩
  | .ldl g f | .stl g f | .pref g f | .invl1 g f | .ost g f | .ald g f => some ⟨.vector, false, 1, g, f.twait⟩
  | .ldu g f | .stu g f => some ⟨.all, f.ord != 0, 1, g, f.twait⟩
  | .waitk g f => some ⟨.all, false, 1, g, f.twait⟩
  | .fence g f | .fencex g f => some ⟨.all, true, 1, g, f.twait⟩
  | .atom g f | .cas g f => some ⟨.vector, true, 1, g, f.twait⟩
  | .atomr g f => some ⟨.vector, true, 1, g, f.twait⟩
  | .dcas g f | .amov g f | .datom g f => some ⟨.vector, true, 1, g, f.twait⟩
  | .bar _ _ => some ⟨.all, true, 1, noGuard, 0⟩
  | .barspec _ _ => some ⟨.vector, true, 1, noGuard, 0⟩
  | .mbara g f | .mbarw g f => some ⟨.all, true, 1, g, f.twait⟩
  | .fempty g _ | .fefill g _ => some ⟨.all, true, 1, g, 0⟩
  | .sadd g _ | .ssub g _ | .smul g _ | .smulh g _ | .sdiv g _ | .sand g _ | .sor g _ | .sxor g _ | .snot g _ | .sshl g _
  | .sshr g _ | .ssar g _ | .smin g _ | .smax g _ | .scmp g _ | .smov g _ | .spopc g _ | .sclz g _ | .sfadd g _ | .sfmul g _
  | .scvt g _ => some ⟨.all, false, 1, g, 0⟩
  | .ssel g _ | .sfma g _ => some ⟨.all, false, 1, g, 0⟩
  | .smovi g _ | .smovhi g _ => some ⟨.all, false, 1, g, 0⟩
  | .bra g _ | .brc g _ | .call g _ | .ret g _ | .join g _ | .nop g _ => some ⟨.all, false, 1, g, 0⟩
  | .brv g _ | .brx g _ => some ⟨.vector, false, 1, g, 0⟩
  | .exit _ _ => none
  | .yield g _ | .region g _ => some ⟨.all, true, 1, g, 0⟩
  | .setfmt g _ | .getsr g _ => some ⟨.all, false, 1, g, 0⟩
  | .getfmt g _ | .plog g _ => some ⟨.all, false, 1, g, 0⟩
  | .tcopy g f | .tgather g f | .tscatter g f | .tfill g f => some ⟨.copyOnly, true, 5, g, f.twait⟩
  | .cwait g _ | .stginit g _ | .stgfill g _ | .stgfree g _ => some ⟨.all, true, 1, g, 0⟩
  | .stgwait g _ => some ⟨.all, true, 1, g, 0⟩
  | .cpoll g _ | .stgqry g _ => some ⟨.all, false, 1, g, 0⟩
  | .calloc g _ | .cgate g _ => some ⟨.vector, true, 1, g, 0⟩
  | .cpost g f => some ⟨.vector, true, 1, g, f.twait⟩
  | .cqry g _ => some ⟨.vector, false, 1, g, 0⟩
  | .mclaim g _ | .mrel g _ | .mzero g _ | .mwait g _ => some ⟨.matOnly, false, 1, g, 0⟩
  | .mma g _ => some ⟨.matOnly, false, 1, g, 0⟩
  | .mscale g _ => some ⟨.matOnly, false, 1, g, 0⟩
  | .mdrain g f => some ⟨.matOnly, false, 1, g, f.twait⟩
  | .emit g f => some ⟨.all, true, 1, g, f.twait⟩
  | .evrd g _ | .evwait g _ => some ⟨.all, true, 1, g, 0⟩
  | .aload g f | .asave g f => some ⟨.vector, true, 1, g, f.twait⟩
  | .aarm g _ | .adisarm g _ => some ⟨.vector, true, 1, g, 0⟩
  | .syscall g _ => some ⟨.vector, true, 1, g, 0⟩
  | .trap g _ | .brkpt g _ => some ⟨.all, true, 1, g, 0⟩
  | .rdcyc g _ => some ⟨.all, false, 1, g, 0⟩
  | .vdsub g f | .bqput g f | .bqget g f => some ⟨.vector, true, 1, g, f.twait⟩
  | .pairNop _ _ | .pairMov _ _ | .pairIadd _ _ | .pairIsub _ _ | .pairImul _ _ | .pairImin _ _ | .pairImax _ _ | .pairAnd _ _
  | .pairOr _ _ | .pairXor _ _ | .pairAndn _ _ | .pairShl _ _ | .pairShr _ _ | .pairSar _ _ | .pairNot _ _ | .pairIneg _ _
  | .pairFadd _ _ | .pairFsub _ _ | .pairFmul _ _ | .pairFmin _ _ | .pairFmax _ _ | .pairFminnum _ _ | .pairFmaxnum _ _
  | .pairFabs _ _ | .pairFneg _ _ | .pairFcopysign _ _ => some ⟨.vector, false, 1, noGuard, 0⟩
  | _ => none

/-! ### Words that are ILLEGAL for their role -/

/-- SRCB of layout A or B as vector registers, where it is no uniform register (R211). -/
def srcRegs (u : Bool) (r : BitVec 9) (n : Nat) : List (Nat × Nat) := if u then [] else [(r.toNat, n)]

/-- The runs of vector registers that half of a pair word names: D, and S where it is no uniform register; a NOP half none (R224, R228). -/
def halfNames (p : Pop) (a : HalfArgs) : List (Nat × Nat) :=
  if p = .nop then [] else (a.d.toNat, tyRegs (ptyOf a.pty)) :: srcRegs a.u a.s (tyRegs (ptyOf a.pty))

/-- The runs of vector registers that an instruction word names as a vector warp issues it, their numbers and lengths (R209). -/
def regsNamed (i : Instr) : List (Nat × Nat) :=
  match i with
  | .iadd _ f | .isub _ f | .imul _ f | .imulh _ f | .idiv _ f | .irem _ f | .imin _ f | .imax _ f | .iaddc _ f | .and_ _ f
  | .or_ _ f | .xor_ _ f | .andn _ f | .fadd _ f | .fsub _ f | .fmul _ f | .fdiv _ f | .fmin _ f | .fmax _ f | .fminnum _ f
  | .fmaxnum _ f | .fcopysign _ f =>
    (f.srca.toNat, tyRegs f.ty) :: (f.dst.toNat, tyRegs f.ty) :: srcRegs f.u f.srcb (tyRegs f.ty)
  | .shl _ f | .shr _ f | .sar _ f | .rot _ f | .fscale _ f | .shfl _ f =>
    (f.srca.toNat, tyRegs f.ty) :: (f.dst.toNat, tyRegs f.ty) :: srcRegs f.u f.srcb 1
  | .iabs _ f | .ineg _ f | .not_ _ f | .popc _ f | .clz _ f | .ctz _ f | .brev _ f | .mov _ f | .fabs _ f | .fneg _ f
  | .fsqrt _ f | .frcp _ f | .frsq _ f | .fexp2 _ f | .flog2 _ f | .fsin _ f | .fcos _ f | .ftanh _ f | .fround _ f | .ffrac _ f =>
    (f.dst.toNat, tyRegs f.ty) :: srcRegs f.u f.srcb (tyRegs f.ty)
  | .fclass _ f | .fgetexp _ f => (f.dst.toNat, 1) :: srcRegs f.u f.srcb (tyRegs f.ty)
  | .icmp _ f | .fcmp _ f => (f.srca.toNat, tyRegs f.ty) :: srcRegs f.u f.srcb (tyRegs f.ty)
  | .imad _ f | .isad _ f | .fma _ f =>
    (f.srca.toNat, tyRegs f.ty) :: (f.srcc.toNat, tyRegs f.ty) :: (f.dst.toNat, tyRegs f.ty) :: srcRegs f.u f.srcb (tyRegs f.ty)
  | .funnel _ f | .bfi _ f =>
    (f.srca.toNat, tyRegs f.ty) :: (f.srcc.toNat, 1) :: (f.dst.toNat, tyRegs f.ty) :: srcRegs f.u f.srcb (tyRegs f.ty)
  | .bfe _ f => (f.srca.toNat, tyRegs f.ty) :: (f.srcc.toNat, 1) :: (f.dst.toNat, tyRegs f.ty) :: srcRegs f.u f.srcb 1
  | .sel _ f => (f.srca.toNat, tyRegs f.ty) :: (f.dst.toNat, tyRegs f.ty) :: srcRegs f.u f.srcb (tyRegs f.ty)
  | .lea _ f => (f.srca.toNat, 2) :: (f.dst.toNat, 2) :: srcRegs f.u f.srcb 1
  | .dp4 _ f | .fdot2 _ f => (f.srca.toNat, 1) :: (f.srcc.toNat, 1) :: (f.dst.toNat, 1) :: srcRegs f.u f.srcb 1
  | .movi _ f => [(f.dst.toNat, tyRegs f.ty)]
  | .movhi _ f => [(f.srca.toNat, tyRegs f.ty), (f.dst.toNat, tyRegs f.ty)]
  | .cvt _ f => [(f.srca.toNat, tyRegs (srcTy f)), (f.dst.toNat, tyRegs f.ty)]
  | .cvtf8 _ f => if tyWidth f.ty = 8 then [(f.srca.toNat, 4), (f.dst.toNat, 1)] else [(f.srca.toNat, 1), (f.dst.toNat, 4)]
  | .bxpack _ f => [(f.srca.toNat, 1), (f.dst.toNat, 1)]
  | .bxunpack _ f => [(f.srca.toNat, 1), (f.dst.toNat, tyRegs f.ty)]
  | .permx _ f => (f.srca.toNat, 2) :: (f.dst.toNat, 1) :: srcRegs f.u f.srcb 1
  | .red _ f | .scan _ f => [(f.srca.toNat, tyRegs f.ty), (f.dst.toNat, tyRegs f.ty)]
  | .match_ _ f => [(f.srca.toNat, tyRegs f.ty), (f.dst.toNat, 1)]
  | .vote _ f => if f.srcb = 3 then [(f.dst.toNat, 1)] else []
  | .rfal _ f | .rdlane _ f => [(f.srca.toNat, tyRegs f.ty)]
  | .wrlane _ f => [(f.dst.toNat, tyRegs f.ty)]
  | .ld _ f | .ldx _ f | .st _ f | .stx _ f | .datom _ f => (f.data.toNat, widRegs (widOf f.wid)) :: srcRegs f.u f.base 2
  | .ldl _ f | .stl _ f | .ost _ f | .ald _ f => (f.data.toNat, widRegs (widOf f.wid)) :: srcRegs f.u f.base 1
  | .pref _ f => srcRegs f.u f.base 2
  | .atom _ f =>
    (f.data.toNat, widRegs (widOf f.wid)) :: (f.src.toNat, widRegs (widOf f.wid)) :: srcRegs f.u f.base 2
  | .cas _ f => (f.data.toNat, widRegs (widOf f.wid)) :: (f.src.toNat, 2 * widRegs (widOf f.wid)) :: srcRegs f.u f.base 2
  | .atomr _ f => (f.data.toNat, widRegs (widOf f.wid)) :: srcRegs f.u f.base 2
  | .dcas _ f => (f.data.toNat, 4 * widRegs (widOf f.wid)) :: srcRegs f.u f.base 4
  | .amov _ f => (f.data.toNat, widRegs (widOf f.wid)) :: srcRegs f.u f.base 4
  | .cpost _ f => [(f.data.toNat, if f.wid = 3 then 2 else 1)]
  | .call _ f | .ret _ f => [(f.reg.toNat, 2)]
  | .brx _ f => [(f.reg.toNat, 1)]
  | .getsr _ f => if f.imm = 1 then [(f.dst.toNat, 1)] else []
  | .pairNop _ h => halfNames h.pop h.args
  | .pairMov a h | .pairIadd a h | .pairIsub a h | .pairImul a h | .pairImin a h | .pairImax a h | .pairAnd a h
  | .pairOr a h | .pairXor a h | .pairAndn a h | .pairShl a h | .pairShr a h | .pairSar a h | .pairNot a h | .pairIneg a h
  | .pairFadd a h | .pairFsub a h | .pairFmul a h | .pairFmin a h | .pairFmax a h | .pairFminnum a h | .pairFmaxnum a h
  | .pairFabs a h | .pairFneg a h | .pairFcopysign a h => halfNames .mov a ++ halfNames h.pop h.args
  | _ => []

/-- Whether a word is ILLEGAL for the role that issues it (R209, R255, R271): a vector warp's register lies beyond its count; the link
register of CALL and RET is odd in a vector warp or no uniform register in another role; GETSR of %lane has not the type and the
destination of its role. -/
def roleIllegal (i : Instr) (x : Iss) : Bool :=
  (x.isVec && (regsNamed i).any (fun r => !x.hasRegs r.1 r.2)) ||
  (match i with
  | .call _ f | .ret _ f => if x.isVec then f.reg.toNat % 2 != 0 else 256 ≤ f.reg.toNat
  | .getsr _ f => f.imm == 1 && (if x.isVec then f.ty != .n32 else f.ty != .n64 || 256 ≤ f.dst.toNat)
  | _ => false)

/-! ### Frames -/

/-- A register that an instruction writes (R253, R273). -/
inductive Dest where
  | vec (r n : Nat)
  | uni (r : Nat)
  | pred (p : Nat)
  | cond (c : Nat)
  deriving DecidableEq, Repr

/-- The registers that half of a pair word writes. -/
def halfDests (a : HalfArgs) : Dest := .vec a.d.toNat (tyRegs (ptyOf a.pty))

/-- The registers written by an instruction word whose whole effect is on the registers of its role, or on its splits; none for
the others. -/
def destsOf (i : Instr) : Option (List Dest) :=
  match i with
  | .iadd _ f | .isub _ f | .imul _ f | .imulh _ f | .idiv _ f | .irem _ f | .imin _ f | .imax _ f | .iabs _ f | .ineg _ f
  | .and_ _ f | .or_ _ f | .xor_ _ f | .not_ _ f | .andn _ f | .shl _ f | .shr _ f | .sar _ f | .rot _ f | .popc _ f
  | .clz _ f | .ctz _ f | .brev _ f | .mov _ f => some [.vec f.dst.toNat (tyRegs f.ty)]
  | .iaddc _ f => some [.vec f.dst.toNat (tyRegs f.ty), .pred f.rnd.toNat]
  | .imad _ f | .isad _ f | .funnel _ f | .bfe _ f | .bfi _ f | .sel _ f | .fma _ f => some [.vec f.dst.toNat (tyRegs f.ty)]
  | .lea _ f => some [.vec f.dst.toNat 2]
  | .dp4 _ f | .fdot2 _ f => some [.vec f.dst.toNat 1]
  | .movi _ f | .movhi _ f => some [.vec f.dst.toNat (tyRegs f.ty)]
  | .icmp _ f | .fcmp _ f | .elect _ f => some [.pred f.dst.toNat]
  | .fadd _ f | .fsub _ f | .fmul _ f | .fmin _ f | .fmax _ f | .fminnum _ f | .fmaxnum _ f | .fabs _ f | .fneg _ f
  | .fcopysign _ f | .fdiv _ f | .fsqrt _ f | .frcp _ f | .frsq _ f | .fexp2 _ f | .flog2 _ f | .fsin _ f | .fcos _ f
  | .ftanh _ f | .fscale _ f | .fround _ f | .ffrac _ f => some [.vec f.dst.toNat (tyRegs f.ty)]
  | .fclass _ f | .fgetexp _ f | .bxpack _ f | .match_ _ f | .permx _ f => some [.vec f.dst.toNat 1]
  | .cvt _ f | .bxunpack _ f | .shfl _ f | .red _ f | .scan _ f => some [.vec f.dst.toNat (tyRegs f.ty)]
  | .cvtf8 _ f => some [.vec f.dst.toNat (if tyWidth f.ty = 8 then 1 else 4)]
  | .vote _ f => some (if f.srcb = 3 then [.vec f.dst.toNat 1] else [.pred f.dst.toNat])
  | .rfal _ f | .rdlane _ f => some [.uni f.dst.toNat]
  | .sadd _ f | .ssub _ f | .smul _ f | .smulh _ f | .sdiv _ f | .sand _ f | .sor _ f | .sxor _ f | .snot _ f | .sshl _ f
  | .sshr _ f | .ssar _ f | .smin _ f | .smax _ f | .smov _ f | .spopc _ f | .sclz _ f | .sfadd _ f | .sfmul _ f
  | .scvt _ f | .getfmt _ f | .rdcyc _ f | .cpoll _ f | .stgqry _ f | .cqry _ f => some [.uni f.dst.toNat]
  | .scmp _ f => some [.cond f.dst.toNat]
  | .ssel _ f | .sfma _ f => some [.uni f.dst.toNat]
  | .smovi _ f | .smovhi _ f => some [.uni f.dst.toNat]
  | .getsr _ f => some [.vec f.dst.toNat 1, .uni f.dst.toNat]
  | .bra _ _ | .brc _ _ | .brv _ _ | .ret _ _ | .join _ _ | .nop _ _ | .region _ _ => some []
  | .call _ f => some [.vec f.reg.toNat 2, .uni f.reg.toNat]
  | .setfmt _ _ | .waitk _ _ => some []
  | .bar _ _ => some []
  | .pairNop _ h => some [halfDests h.args]
  | .pairMov a h | .pairIadd a h | .pairIsub a h | .pairImul a h | .pairImin a h | .pairImax a h | .pairAnd a h
  | .pairOr a h | .pairXor a h | .pairAndn a h | .pairShl a h | .pairShr a h | .pairSar a h | .pairNot a h | .pairIneg a h
  | .pairFadd a h | .pairFsub a h | .pairFmul a h | .pairFmin a h | .pairFmax a h | .pairFminnum a h | .pairFmaxnum a h
  | .pairFabs a h | .pairFneg a h | .pairFcopysign a h => some [halfDests a, halfDests h.args]
  | _ => none

/-- The instruction words that write memory at their issue: PLOG its record, ASAVE and BQGET their structures, TRAP and BRKPT the
record of their trap, and FENCE, whose acquire promotes the core-scope releases read before it (R402). -/
def writesAtIssue (i : Instr) : Bool :=
  match i with
  | .plog _ _ | .asave _ _ | .bqget _ _ | .trap _ _ | .brkpt _ _ | .fence _ _ => true
  | _ => false

/-! ### Ring packets, the mailbox and debug commands -/

/-- A ring packet is started and its operands are taken (R102-R105, R457): its ring is served for partition `p` and runs or may
run, a BARRIER has nothing before it, CADDR is aligned, no reserved bit is set, and of a control packet the ring is no shadow ring and a firmware core runs. -/
def PacketReady (s : State) (k : Pkt) (control : Bool) (p : Nat) : Prop :=
  ringPart s k.ring = some p ∧ (ringOf s k.ring).st ≠ .disabled ∧ (ringOf s k.ring).st ≠ .stopped ∧
  (k.barrier = true → (ringOf s k.ring).open_ = 0) ∧ k.caddr.toNat % 8 = 0 ∧ k.rsv = false ∧
  (s.power = .d0 ∨ s.power = .dieRetain) ∧ (control = true → isShadow s k.ring = false ∧ fwDown s = false)

/-- The state with one more packet of a ring open. -/
def opened (s : State) (k : Pkt) : State := modRing s k.ring (fun r => { r with open_ := r.open_ + 1 })

/-- A mailbox request of class `cls` is taken (R458, R461): 1 PAGE, 2 DEBUG, 3 SPDM, 4 SYSCALL, 5 SYSTEM. -/
def MailReady (s : State) (m : Mb) (cls : Nat) : Prop :=
  s.power ≠ .d3cold ∧ fwDown s = false ∧ m.fn ≤ 16 ∧ (m.fn ≠ 0 → (partOf s (m.fn - 1)).vf = true ∧ (cls = 3 ∨ cls = 4)) ∧
  (s.power = .d3hot → cls = 3 ∨ cls = 5)

/-- A debug command is taken (R431, R432): its operation and reserved bits, a context that is not FREE, a partition at the
command's level or above. -/
def DebugReady (s : State) (m : Mb) (cmd : BitVec 256) (op level : Nat) : Prop :=
  MailReady s m 2 ∧ bitsOf cmd.toNat 72 56 = 0 ∧ bitsOf cmd.toNat 8 34 = 0 ∧ bitsOf cmd.toNat 0 8 = op ∧
  (ctxOf s (dbgCmdOf cmd.toNat).ctx).st ≠ .free ∧ level ≤ (partOf s (ctxOf s (dbgCmdOf cmd.toNat).ctx).part).dbg

/-! ### What a run keeps -/

/-- What every step keeps: memory in its canonical form (addresses strictly rising, no byte that an unlisted one reads as). -/
def Inv (s : State) : Prop := Memory.wf s.mem = true

/-- A safe run: the device goes on, and its memory stays in its canonical form. -/
def Safe (s : State) : Prop := Inv s ∧ ∃ t, step s = .next t

end Sys2Proof.Machine
end

