-- ==== Sys2Proof/Certificates/Slice0/Obligations.lean ====
section
/-!
DEFINITION. The statements for the provers: what the rules of spec/ say that the machine does.
-/
open Sys2Proof
open Sys2Proof.Machine

/-! ### Decoding, the step, reset -/

/-- R206, R231: the word at the head of a list of bytes that `encode` writes for a well-formed instruction word decodes to
that instruction, with every operand at every value the encoding admits, and leaves the bytes after it. -/
def Obligations.EncodeThenDecode : Prop :=
  ∀ (i : Instr) (bs rest : List Byte), WellFormed i → encodeBytes i = some bs → decode (bs ++ rest) = .ok (i, rest)

/-- R206, R207, R210, R214, R215, R216, R219, R224: words written out field by field from the spec's layouts decode to the
instructions they stand for. -/
def Obligations.WrittenWordsDecode : Prop :=
  -- IADD v3, v5, v6 of I32: opcode 0x001, no guard, DST 3, SRCA 5, SRCB 6, TYPE 2
  decodeWords (0b0_000000001_0_111_000000011_000000101_000000110_0_0_0_0010_00_0_0_000_00000_0000#64) [] =
    .ok (.iadd ⟨false, 7⟩ ⟨3, 5, 6, false, false, false, .i32, 0, false, false, 0, 0⟩) ∧
  -- FMA v8, v2, v4, v6 of F64 toward zero under p2: opcode 0x043, layout B
  decodeWords (0b0_001000011_0_010_000001000_000000010_000000100_000000110_0_0_0_1011_01_0_0_000#64) [] =
    .ok (.fma ⟨false, 2⟩ ⟨8, 2, 4, 6, false, false, false, .f64, 1, false, false⟩) ∧
  -- SMOVI s7, 5 of I64: opcode 0x151, layout I
  decodeWords (0b0_101010001_0_111_000000111_000000000_0_0011_000000000000000000000101_000#64) [] =
    .ok (.smovi ⟨false, 7⟩ ⟨7, 0, false, .i64, 5⟩) ∧
  -- LD.W4 v9, [v10 + 1 * 4], token 3, wait for token 0: opcode 0x0c0, layout M
  decodeWords (0b0_011000000_0_111_000001001_000001010_0_0000000001_010_1_011_00000001_0_000_00#64) [] =
    .ok (.ld ⟨false, 7⟩ ⟨9, 10, false, 1, 2, true, 3, 1, false, 0, 0⟩) ∧
  -- BRC c1 negated, 4 words back: opcode 0x15a, layout J
  decodeWords (0b0_101011010_0_111_11111111111111111111111100_000000000_01_1_000_0_00000000#64) [] =
    .ok (.brc ⟨false, 7⟩ ⟨-4, 0, 1, true, 0, false, 0⟩) ∧
  -- a pair word: half 0 IADD v1, v2 of I32, half 1 MOV v3, v4 of I32
  decodeWords (0b1_0_000001_111_000000011_000000100_000_0_000010_111_000000001_000000010_000_0#64) [] =
    .ok (.pairIadd ⟨7, 1, 2, 0, false⟩ ⟨.mov, ⟨7, 3, 4, 0, false⟩⟩)

/-- R17, R142, R206, R232: where the schedule names the issue of the split whose turn it is, every word of its instruction lies on a page that the
core's TLB holds and on no poisoned line, and the words decode to an instruction, the step is `exec` of that instruction with the
split as `State.cur` and the entry taken off the schedule; words that decode to none trap ILLEGAL in a warp that does not
speculate. The schedule is the model's (notes/assumptions/5.md); no host atomic is half done (notes/assumptions/114.md). -/
def Obligations.StepRunsDecodedInstruction : Prop :=
  ∀ (s : State) (w : Who) (r : List Sched) (x : Iss) (rd : Nat → W64),
    hostFinishes s = none → s.stepping = none → s.schedule = .issue w :: r →
    let t := { s with schedule := r, cur := w }
    let pc := x.sp.pc.toNat
    let more := if wordCount (rd pc) = 5 then [pc + 8, pc + 16, pc + 24, pc + 32] else []
    isTurn { s with schedule := r } w = true → issuer t = some x →
    (∀ a, a ∈ pc :: more → userVa a = true ∧ ∃ e, laneLookup t x (ctxOf t x.grp.ctx).pasid 3 a = .hit e ∧
      isPoisoned t (lineOf (e.phys a)) = false ∧ rd a = BitVec.ofNat 64 (memNat t.mem (e.phys a) 8)) →
    (∀ i, decodeWords (rd pc) (more.map rd) = .ok i → step s = exec i t) ∧
    (∀ e, decodeWords (rd pc) (more.map rd) = .error e → x.wp.spec = none →
      step s = .next (takeTrap (noteIssue t x) w .illegal x.sp.mask 0 0 (more.length + 1)))

/-- Where the schedule names the step of a unit or of the host, the step is that step, with the entry taken off; an entry that
names an instruction word as such a step is passed over. A host atomic that has read its words is finished first, but for an access of
the host (R71, R416). The schedule is the model's (notes/assumptions/5.md, notes/assumptions/114.md). -/
def Obligations.StepRunsScheduledUnit : Prop :=
  (∀ (s : State) (r : Req), hostFinishes s = some r → step s = .next (perform s r)) ∧
  ∀ (s : State) (i : Instr) (r : List Sched), hostFinishes s = none → s.stepping = none → s.schedule = .unit i :: r →
    (encode i = none → step s = exec i { s with schedule := r }) ∧
    (∀ ws, encode i = some ws → step s = .next { s with schedule := r })

/-- The canonical form of memory is kept by every step, from every state that has it: addresses strictly rising, no listed
byte 0. That unlisted memory reads 0 is the model's choice (notes/assumptions/2.md). -/
def Obligations.StepKeepsMemoryForm : Prop := ∀ (s t : State), Inv s → step s = .next t → Inv t

/-- R18, R85, R95, R105, R107, R125, R179, R457: after reset no context, stream, ring, automaton or combine slot is in use, each
core's steal generator stands at its seed, and memory has its canonical form. That the dies' cycle counters and unwritten memory
read 0 are the model's choices (notes/assumptions/1.md, notes/assumptions/2.md). -/
def Obligations.ResetLeavesNothingInUse : Prop :=
  Inv State.reset ∧ State.reset.power = .d0 ∧
  (∀ c, (ctxOf State.reset c).st = .free) ∧ (∀ n, (streamOf State.reset n).st = .unbound) ∧
  (∀ n, (ringOf State.reset n).st = .disabled ∧ (ringOf State.reset n).en = false) ∧
  (∀ d a, (autoOf State.reset d a).st = .free) ∧ (∀ d c, (cslotOf State.reset d c).st = .free) ∧
  (∀ c g, groupAt State.reset c g = none) ∧ (∀ c, (coreOf State.reset c).stealW = 0x9E37 ^^^ BitVec.ofNat 16 c) ∧
  (∀ d, (dieOf State.reset d).cycle = 0) ∧ (∀ a, memGet State.reset.mem a = 0)

/-! ### What comes before an instruction's effect -/

/-- R134: an instruction word that the issuing role may not issue traps ROLE, before its guard and with no other effect; the
lanes are the split's active lanes. -/
def Obligations.OtherRolesTrap : Prop :=
  ∀ (i : Instr) (h : Shape) (s : State) (x : Iss),
    shapeOf i = some h → issuer s = some x → h.roles.allow x = false → x.sp.wait = none → x.wp.spec = none →
    exec i s = .next (takeTrap (noteIssue s x) x.w .role x.sp.mask 0 0 h.words)

/-- R208, R209, R232: with no lane that passes its guard an instruction word has no effect but that the PC moves past it; where
the word is ILLEGAL for its role (`roleIllegal`: a vector warp's register beyond its count, a CALL, RET or GETSR whose field its role
may not use) it traps ILLEGAL all the same. A copy's word, of five words, tests its guard before its tokens (R357). -/
def Obligations.NoLaneNoEffect : Prop :=
  ∀ (i : Instr) (h : Shape) (s : State) (x : Iss),
    shapeOf i = some h → issuer s = some x → h.roles.allow x = true → x.sp.wait = none →
    (h.stops = true → x.wp.spec = none) → (h.words = 5 ∨ tokensFree x.wp h.tok = true) → guardMask x h.guard = 0 →
    exec i s = if roleIllegal i x then finish x h.words (.trap .illegal x.sp.mask 0 0 s) else .next (past x h.words s)

/-- R218: an instruction word that names a token still outstanding is not issued: nothing changes but that its split is
blocked; a copy's word waits only with a lane that passes its guard (R357). A word that is ILLEGAL for its role (`roleIllegal`) traps
ILLEGAL first (R232). -/
def Obligations.TokenHoldsIssue : Prop :=
  ∀ (i : Instr) (h : Shape) (s : State) (x : Iss),
    shapeOf i = some h → issuer s = some x → h.roles.allow x = true → x.sp.wait = none →
    (h.stops = true → x.wp.spec = none) → tokensFree x.wp h.tok = false → (h.words = 5 → guardMask x h.guard ≠ 0) →
    exec i s = if roleIllegal i x then finish x h.words (.trap .illegal x.sp.mask 0 0 s) else .next (setBlocked s x.w .nothing)

/-- R158: a speculating warp that meets an instruction that stops a speculator stops there: nothing changes but that its
speculation is stopped and that it waits for its barrier. -/
def Obligations.SpeculatorStops : Prop :=
  ∀ (i : Instr) (h : Shape) (s : State) (x : Iss) (p : Spec),
    shapeOf i = some h → issuer s = some x → h.roles.allow x = true → x.sp.wait = none → h.stops = true →
    x.wp.spec = some p →
    exec i s = .next (setBlocked (stopSpeculation s x.w) x.w (.barrier p.bar))

/-! ### Class 000: integer and logic -/

/-- R278: the two-source integer and logic instructions complete with the result of R278 in each lane
of the guard, as R273 writes it, and the PC past the word. -/
def Obligations.IntegerTwoSourceCompletes : Prop :=
  ∀ (s : State) (x : Iss) (g : Guard) (f : FA),
    let n := tyRegs f.ty
    Ready s x .vector false g 0 [opA f n, opB f n, .vd f.dst.toNat n] →
    let put := fun (op : Nat → Nat → Nat) => (.next (past x 1 (vecResult s x g f.dst n (fun l =>
      extV f.ty (op (lowT f.ty (valA f x n l)) (lowT f.ty (valB f x n l)))))) : Out)
    let a := readInt f.ty
    exec (.iadd g f) s = put (fun p q => packInt f.ty f.sat (a p + a q)) ∧
    exec (.isub g f) s = put (fun p q => packInt f.ty f.sat (a p - a q)) ∧
    exec (.imul g f) s = put (fun p q => packInt f.ty f.sat (a p * a q)) ∧
    exec (.imulh g f) s = put (fun p q => wrapTo (tyWidth f.ty) ((a p * a q) / ((2 ^ tyWidth f.ty : Nat) : Int))) ∧
    exec (.imin g f) s = put (fun p q => if a p ≤ a q then p else q) ∧
    exec (.imax g f) s = put (fun p q => if a p ≤ a q then q else p) ∧
    exec (.and_ g f) s = put (fun p q => p &&& q) ∧
    exec (.or_ g f) s = put (fun p q => p ||| q) ∧
    exec (.xor_ g f) s = put (fun p q => p ^^^ q) ∧
    exec (.andn g f) s = put (fun p q => p &&& (2 ^ tyWidth f.ty - 1 - q))

/-- R278: the one-source integer instructions IABS, INEG, NOT, POPC, CLZ, CTZ, BREV and MOV (R283) complete with their result in each
lane of the guard, for every type. R277, R278: the shifts SHL, SHR, SAR and the rotation ROT complete; the count is SRCB modulo the
width. -/
def Obligations.OneSourceAndShiftsComplete : Prop :=
  ∀ (s : State) (x : Iss) (g : Guard) (f : FA),
    let n := tyRegs f.ty
    let w := tyWidth f.ty
    let a := fun (l : Nat) => lowT f.ty (valA f x n l)
    let b := fun (l : Nat) => lowT f.ty (valB f x n l)
    let k := fun (l : Nat) => valB f x 1 l % w
    let result := fun (v : Nat → Nat) => past x 1 (vecResult s x g f.dst n (fun l => extV f.ty (v l)))
    (Ready s x .vector false g 0 [opB f n, .vd f.dst.toNat n] →
      exec (.iabs g f) s = .next (result (fun l => packInt f.ty f.sat |readInt f.ty (b l)|)) ∧
      exec (.ineg g f) s = .next (result (fun l => packInt f.ty f.sat (-readInt f.ty (b l)))) ∧
      exec (.not_ g f) s = .next (result (fun l => 2 ^ w - 1 - b l)) ∧
      exec (.popc g f) s = .next (result (fun l => ((List.range w).filter (fun i => (b l).testBit i)).length)) ∧
      exec (.clz g f) s = .next (result (fun l => if b l = 0 then w else w - 1 - Nat.log2 (b l))) ∧
      exec (.ctz g f) s = .next (result (fun l => ((List.range w).find? (fun i => (b l).testBit i)).getD w)) ∧
      exec (.brev g f) s = .next (result (fun l => bitrev w (b l))) ∧
      exec (.mov g f) s = .next (result b)) ∧
    (Ready s x .vector false g 0 [opA f n, opB f 1, .vd f.dst.toNat n] →
      exec (.shl g f) s = .next (result (fun l => a l <<< k l)) ∧
      exec (.shr g f) s = .next (result (fun l => a l >>> k l)) ∧
      exec (.sar g f) s = .next (result (fun l => wrapTo w (readInt f.ty (a l) / ((2 ^ k l : Nat) : Int)))) ∧
      exec (.rot g f) s = .next (result (fun l => (a l <<< k l ||| a l >>> (w - k l)) % 2 ^ w)))

/-- R273, R274, R278, R283: there is a next state after each of IABS, INEG, NOT, POPC, CLZ, CTZ, BREV, MOV, SHL, SHR, SAR and ROT, and
in it every lane of the guard reads the result in the destination register or pair, and every other register and lane of the warp
reads what it did. -/
def Obligations.OneSourceResultsAreRead : Prop :=
  ∀ (s : State) (x : Iss) (g : Guard) (f : FA),
    let n := tyRegs f.ty
    let w := tyWidth f.ty
    let m := guardMask x g
    let a := fun (l : Nat) => lowT f.ty (valA f x n l)
    let b := fun (l : Nat) => lowT f.ty (valB f x n l)
    let k := fun (l : Nat) => valB f x 1 l % w
    let reads := fun (i : Instr) (v : Nat → Nat) => ∃ t y, exec i s = .next t ∧ warpAt t x.w.core x.w.gslot x.w.wid = some y ∧
      (∀ l, inMask m l = true → vregN y f.dst.toNat n l = extV f.ty (v l)) ∧
      (∀ r l, l < 32 → inMask m l = false ∨ r < f.dst.toNat ∨ f.dst.toNat + n ≤ r → vreg y r l = vreg x.wp r l)
    (Ready s x .vector false g 0 [opB f n, .vd f.dst.toNat n] →
      reads (.iabs g f) (fun l => packInt f.ty f.sat |readInt f.ty (b l)|) ∧
      reads (.ineg g f) (fun l => packInt f.ty f.sat (-readInt f.ty (b l))) ∧
      reads (.not_ g f) (fun l => 2 ^ w - 1 - b l) ∧
      reads (.popc g f) (fun l => ((List.range w).filter (fun i => (b l).testBit i)).length) ∧
      reads (.clz g f) (fun l => if b l = 0 then w else w - 1 - Nat.log2 (b l)) ∧
      reads (.ctz g f) (fun l => ((List.range w).find? (fun i => (b l).testBit i)).getD w) ∧
      reads (.brev g f) (fun l => bitrev w (b l)) ∧ reads (.mov g f) b) ∧
    (Ready s x .vector false g 0 [opA f n, opB f 1, .vd f.dst.toNat n] →
      reads (.shl g f) (fun l => a l <<< k l) ∧ reads (.shr g f) (fun l => a l >>> k l) ∧
      reads (.sar g f) (fun l => wrapTo w (readInt f.ty (a l) / ((2 ^ k l : Nat) : Int))) ∧
      reads (.rot g f) (fun l => (a l <<< k l ||| a l >>> (w - k l)) % 2 ^ w))

/-- R278, R285, R292: the three-source instructions complete with their result in each lane of the guard. -/
def Obligations.ThreeSourceCompletes : Prop :=
  ∀ (s : State) (x : Iss) (g : Guard) (f : FB),
    let n := tyRegs f.ty
    let ops := fun (na nb nc nd : Nat) => ([.v f.srca.toNat na id f.fea, opBb f nb, .v f.srcc.toNat nc id f.fec, .vd f.dst.toNat nd] : List Opd)
    let put := fun (na nb nc nd : Nat) (op : Nat → Nat → Nat → Nat) => (.next (past x 1 (vecResult s x g f.dst nd (fun l =>
      op (vregN x.wp f.srca.toNat na l) (valBb f x nb l) (vregN x.wp f.srcc.toNat nc l)))) : Out)
    let a := readInt f.ty
    let w := tyWidth f.ty
    (Ready s x .vector false g 0 (ops n n n n) →
      exec (.imad g f) s = put n n n n (fun p q r => extV f.ty (packInt f.ty f.sat (a p * a q + a r))) ∧
      exec (.isad g f) s = put n n n n (fun p q r => extV f.ty (packInt f.ty f.sat (|a p - a q| + a r))) ∧
      exec (.fma g f) s = put n n n n (fun p q r =>
        fFma (fmtOf f.ty) ⟨f.rnd.toNat, f.sat, x.sp.fmt.getLsbD 3⟩ (lowT f.ty p) (lowT f.ty q) (lowT f.ty r))) ∧
    (Ready s x .vector false g 0 (ops n n 1 n) →
      exec (.funnel g f) s = put n n 1 n (fun p q r => (p * 2 ^ w + q) / 2 ^ (r % (2 * w)) % 2 ^ w)) ∧
    (Ready s x .vector false g 0 (ops 1 1 1 1) →
      exec (.dp4 g f) s = put 1 1 1 1 (dp4 (f.ty == .i8) f.sat) ∧
      exec (.fdot2 g f) s = put 1 1 1 1 (fDot2 (fmtOf f.ty) ⟨f.rnd.toNat, f.sat, x.sp.fmt.getLsbD 3⟩))

/-- R280: IADDC computes SRCA + SRCB + carry in each lane, the carry being p[RND]; the destination receives the sum modulo 2^w,
and p[RND] receives the carry out. -/
def Obligations.AddWithCarry : Prop :=
  ∀ (s : State) (x : Iss) (g : Guard) (f : FA),
    let n := tyRegs f.ty
    let w := tyWidth f.ty
    Ready s x .vector false g 0 [opA f n, opB f n, .vd f.dst.toNat n] →
    let sum := fun (l : Nat) => lowT f.ty (valA f x n l) + lowT f.ty (valB f x n l) +
      (if inMask (predOf x.wp f.rnd.toNat) l then 1 else 0)
    exec (.iaddc g f) s = .next (past x 1 (predResult (vecResult s x g f.dst n (fun l => sum l % 2 ^ w)) x g (f.rnd.setWidth 9)
      (fun l => decide (sum l ≥ 2 ^ w))))

/-- R282, R283: SEL, ICMP, MOVI and MOVHI complete. -/
def Obligations.SelectAndMoveComplete : Prop :=
  ∀ (s : State) (x : Iss) (g : Guard) (fa : FA) (fb : FB) (fi : FI),
    (let n := tyRegs fb.ty
     Ready s x .vector false g 0 [.v fb.srca.toNat n id fb.fea, opBb fb n, .vd fb.dst.toNat n] →
     exec (.sel g fb) s = .next (past x 1 (vecResult s x g fb.dst n (fun l => extV fb.ty
       (if inMask (predOf x.wp fb.srcc.toNat) l then vregN x.wp fb.srca.toNat n l else valBb fb x n l))))) ∧
    (let n := tyRegs fa.ty
     Ready s x .vector false g 0 [opA fa n, opB fa n] →
     exec (.icmp g fa) s = .next (past x 1 (predResult s x g fa.dst (fun l =>
       compareAs fa.ty (cmpOp fa) (valA fa x n l) (valB fa x n l))))) ∧
    (let n := tyRegs fi.ty
     Ready s x .vector false g 0 [.vd fi.dst.toNat n] →
     exec (.movi g fi) s = .next (past x 1 (vecResult s x g fi.dst n (fun _ => extV fi.ty (immOf fi.ty fi.imm))))) ∧
    (let n := tyRegs fi.ty
     Ready s x .vector false g 0 [.v fi.srca.toNat n id fi.fe, .vd fi.dst.toNat n] →
     exec (.movhi g fi) s = .next (past x 1 (vecResult s x g fi.dst n (fun l =>
       (vregN x.wp fi.srca.toNat n l * 2 ^ 24 + fi.imm.toNat) % 2 ^ tyWidth fi.ty))))

/-! ### Class 001: floating point -/

/-- R286 to R289: the two-source float instructions complete, each a single rounding of the exact result (R32) to the type.
R287, R289 to R291: the one-source float instructions complete. -/
def Obligations.FloatArithmeticCompletes : Prop :=
  (∀ (s : State) (x : Iss) (g : Guard) (f : FA),
     let n := tyRegs f.ty
     let t := fmtOf f.ty
     let r : Rnd := ⟨f.rnd.toNat, f.sat, x.sp.fmt.getLsbD 3⟩
     (Ready s x .vector false g 0 [opA f n, opB f n, .vd f.dst.toNat n] →
       let put := fun (op : Nat → Nat → Nat) => (.next (past x 1 (vecResult s x g f.dst n (fun l =>
         op (lowT f.ty (valA f x n l)) (lowT f.ty (valB f x n l))))) : Out)
       exec (.fadd g f) s = put (fAdd t r) ∧ exec (.fsub g f) s = put (fSub t r) ∧ exec (.fmul g f) s = put (fMul t r) ∧
       exec (.fdiv g f) s = put (fDiv t r) ∧
       exec (.fmin g f) s = put (fMinMax t r.nanp false false) ∧ exec (.fmax g f) s = put (fMinMax t r.nanp true false) ∧
       exec (.fminnum g f) s = put (fMinMax t r.nanp false true) ∧ exec (.fmaxnum g f) s = put (fMinMax t r.nanp true true) ∧
       exec (.fcopysign g f) s = put (fun a b => a % 2 ^ (t.w - 1) + b / 2 ^ (t.w - 1) % 2 * 2 ^ (t.w - 1))) ∧
     (Ready s x .vector false g 0 [opA f n, opB f 1, .vd f.dst.toNat n] →
       exec (.fscale g f) s = .next (past x 1 (vecResult s x g f.dst n (fun l =>
         fScale t r (lowT f.ty (valA f x n l)) (signedOf 32 (valB f x 1 l)))))) ∧
     (Ready s x .vector false g 0 [opA f n, opB f n] →
       exec (.fcmp g f) s = .next (past x 1 (predResult s x g f.dst (fun l =>
         compareAs f.ty (cmpOp f) (valA f x n l) (valB f x n l)))))) ∧
  (∀ (s : State) (x : Iss) (g : Guard) (f : FA),
     let n := tyRegs f.ty
     let t := fmtOf f.ty
     let r : Rnd := ⟨f.rnd.toNat, f.sat, x.sp.fmt.getLsbD 3⟩
     (Ready s x .vector false g 0 [opB f n, .vd f.dst.toNat n] →
       let put := fun (op : Nat → Nat) => (.next (past x 1 (vecResult s x g f.dst n (fun l => op (lowT f.ty (valB f x n l))))) : Out)
       exec (.fabs g f) s = put (fun b => b % 2 ^ (t.w - 1)) ∧ exec (.fneg g f) s = put (fun b => b ^^^ 2 ^ (t.w - 1)) ∧
       exec (.fsqrt g f) s = put (fSqrt t r) ∧ exec (.frcp g f) s = put (fRcp t r) ∧ exec (.frsq g f) s = put (fRsq t r) ∧
       exec (.fexp2 g f) s = put (fExp2 t r) ∧ exec (.flog2 g f) s = put (fLog2 t r) ∧
       exec (.fsin g f) s = put (fSinPi t r false) ∧ exec (.fcos g f) s = put (fSinPi t r true) ∧
       exec (.ftanh g f) s = put (fTanh t r) ∧ exec (.fround g f) s = put (fRound t r) ∧
       exec (.ffrac g f) s = put (fFrac t r.nanp)) ∧
     (Ready s x .vector false g 0 [opB f n, .vd f.dst.toNat 1] →
       let put := fun (op : Nat → Nat) => (.next (past x 1 (vecResult s x g f.dst 1 (fun l => op (lowT f.ty (valB f x n l))))) : Out)
       exec (.fclass g f) s = put (fClass t) ∧ exec (.fgetexp g f) s = put (fGetExp t)))

/-! ### Class 010: conversion and lane exchange -/

/-- R294 to R296: CVT, CVTF8, BXPACK and BXUNPACK complete. -/
def Obligations.ConversionsComplete : Prop :=
  ∀ (s : State) (x : Iss) (g : Guard) (f : FA),
    let t := srcTy f
    let put := fun (nd : Nat) (v : Nat → Nat) => (.next (past x 1 (vecResult s x g f.dst nd v)) : Out)
    let rnd : Rnd := ⟨f.rnd.toNat, f.sat, x.sp.fmt.getLsbD 3⟩
    (Ready s x .vector false g 0 [opA f (tyRegs t), .vd f.dst.toNat (tyRegs f.ty)] →
      exec (.cvt g f) s = put (tyRegs f.ty) (fun l => extV f.ty (convert t f.ty rnd (lowT t (valA f x (tyRegs t) l))))) ∧
    (tyWidth f.ty = 8 → Ready s x .vector false g 0 [opA f 4, .vd f.dst.toNat 1] →
      exec (.cvtf8 g f) s = put 1 (fun l => (List.range 4).foldl (fun acc i =>
        acc + convert t f.ty rnd (lowT t (valA f x 4 l >>> (32 * i))) % 256 * 2 ^ (8 * i)) 0)) ∧
    (tyWidth f.ty ≠ 8 → Ready s x .vector false g 0 [opA f 1, .vd f.dst.toNat 4] →
      exec (.cvtf8 g f) s = put 4 (fun l => (List.range 4).foldl (fun acc i =>
        acc + lowT f.ty (convert t f.ty rnd (valA f x 1 l >>> (8 * i) % 256)) * 2 ^ (32 * i)) 0)) ∧
    (let el := fun (l j : Nat) => laneA f (l / 16 * 16 + j)
     Ready s x .vector false g 0 ((List.range 16).map (fun j => .v f.srca.toNat 1 (fun l => el l j) f.fea) ++ [.vd f.dst.toNat 1]) →
      exec (.bxpack g f) s = put 1 (fun l => bxPackWord (bxOf f) f.rnd.toNat f.sat
        ((List.range 16).map (fun j => fDecode (fmtOf f.ty) (lowT f.ty (vreg x.wp f.srca.toNat (el l j)).toNat))) (l % 16))) ∧
    (Ready s x .vector false g 0 [opA f 1, .vd f.dst.toNat (tyRegs f.ty)] →
      exec (.bxunpack g f) s = put (tyRegs f.ty) (fun l => bxUnpack (fmtOf f.ty) rnd (bxOf f)
        (valA f x 1 l % 2 ^ (bxOf f + 1)) (valA f x 1 l >>> 16 % 256) (if (valA f x 1 l).testBit (24 + l % 16 / 2) then 1 else 0)))

/-- R297 to R301: the lane exchanges complete: SHFL and PERMX read the lane that their index names, RED and SCAN combine the lanes
of the guard by their trees, MATCH, ELECT and VOTE compare them, RFAL, RDLANE and WRLANE cross to the uniform registers. RDLANE and
WRLANE of a lane number of 32 or more trap BOUNDS; WRLANE to a lane that is not active writes nothing, and one whose destination is
empty in its lane waits. -/
def Obligations.LaneExchangesComplete : Prop :=
  ∀ (s : State) (x : Iss) (g : Guard) (f : FA),
    let n := tyRegs f.ty
    let m := guardMask x g
    let put := fun (nd : Nat) (v : Nat → Nat) => (.next (past x 1 (vecResult s x g f.dst nd v)) : Out)
    (let src := fun (l : Nat) => if valB f x 1 l < 32 then valB f x 1 l else l
     Ready s x .vector false g 0 [.v f.srca.toNat n src f.fea, opB f 1, .vd f.dst.toNat n] →
      exec (.shfl g f) s = put n (fun l => vregN x.wp f.srca.toNat n (src l))) ∧
    (let idx := fun (l : Nat) => valB f x 1 l % 64
     Ready s x .vector false g 0 [opB f 1, .vl f.srca.toNat 2, .vd f.dst.toNat 1, .pre (maskOf ((lanesOf m).filter (fun l =>
       if idx l < 32 then vEmpty x.wp f.srca.toNat (idx l) else vEmpty x.wp (f.srca.toNat + 1) (idx l - 32)))) .nothing f.fea] →
      exec (.permx g f) s = put 1 (fun l => if idx l < 32 then (vreg x.wp f.srca.toNat (idx l)).toNat
        else (vreg x.wp (f.srca.toNat + 1) (idx l - 32)).toNat)) ∧
    (Ready s x .vector false g 0 [.v f.srca.toNat n id f.fea, .vd f.dst.toNat n] →
      exec (.red g f) s = put n (fun _ => extV f.ty (((redTree f x (redSources f x m)).getD 0 none).getD 0)) ∧
      exec (.scan g f) s = put n (fun l => extV f.ty (((scanTree f x (redSources f x m)).getD l none).getD 0))) ∧
    (Ready s x .vector false g 0 [.v f.srca.toNat n id f.fea, .vd f.dst.toNat 1] →
      exec (.match_ g f) s = put 1 (fun l => (maskOf ((lanesOf m).filter (fun k =>
        vregN x.wp f.srca.toNat n k == vregN x.wp f.srca.toNat n l))).toNat)) ∧
    (Ready s x .vector false g 0 [] →
      exec (.elect g f) s = .next (past x 1 (predResult s x g f.dst (fun l => some l == (lanesOf m).head?))) ∧
      (f.srcb ≠ 3 → let p := predOf x.wp f.srca.toNat &&& m
        exec (.vote g f) s = .next (past x 1 (predResult s x g f.dst (fun _ =>
          if f.srcb = 0 then p == m else if f.srcb = 1 then p != 0 else p == m || p == 0))))) ∧
    (f.srcb = 3 → Ready s x .vector false g 0 [.vd f.dst.toNat 1] →
      exec (.vote g f) s = put 1 (fun _ => (predOf x.wp f.srca.toNat &&& m).toNat)) ∧
    (let low := (lanesOf m).headD 0
     Ready s x .vector false g 0 [.v f.srca.toNat n (fun _ => low) f.fea, .ud f.dst.toNat] →
      exec (.rfal g f) s = .next (past x 1 (uniResult s x f.dst (extS f.ty (vregN x.wp f.srca.toNat n low))))) ∧
    (let lane := (sreg x.grp f.srcb.toNat).toNat % 2 ^ 32
     lane < 32 → Ready s x .vector false g 0 [.u f.srcb.toNat f.feb, .v f.srca.toNat n (fun _ => lane) f.fea, .ud f.dst.toNat] →
      exec (.rdlane g f) s = .next (past x 1 (uniResult s x f.dst (extS f.ty (vregN x.wp f.srca.toNat n lane))))) ∧
    ((sreg x.grp f.srcb.toNat).toNat % 2 ^ 32 ≥ 32 → Ready s x .vector false g 0 [.u f.srcb.toNat f.feb, .vl f.srca.toNat n] →
      exec (.rdlane g f) s = finish x 1 (.trap .bounds m 0 0 s)) ∧
    (let lane := (sreg x.grp f.srca.toNat).toNat % 2 ^ 32
     Ready s x .vector false g 0 [.u f.srca.toNat f.fea, .u f.srcb.toNat f.feb, .vl f.dst.toNat n] →
      (lane ≥ 32 → exec (.wrlane g f) s = finish x 1 (.trap .bounds m 0 0 s)) ∧
      (lane < 32 → inMask x.sp.mask lane = false → exec (.wrlane g f) s = .next (past x 1 s)) ∧
      (lane < 32 → inMask x.sp.mask lane = true → (∃ k, k < n ∧ vEmpty x.wp (f.dst.toNat + k) lane = true) →
        exec (.wrlane g f) s = .next (setBlocked s x.w .nothing)) ∧
      (lane < 32 → inMask x.sp.mask lane = true → (∀ k, k < n → vEmpty x.wp (f.dst.toNat + k) lane = false) →
        exec (.wrlane g f) s = .next (past x 1 (writeLanes s x (maskOf [lane]) f.dst.toNat n
          (fun _ => extV f.ty (sval x f.ty f.srcb))))))

/-! ### Class 101: uniform arithmetic -/

/-- R253 to R260: the uniform instructions complete on every role, their result in a uniform register (a condition for SCMP),
sign- or zero-extended to 64 bits (R254). SSAR under an N type fills with 0, the model's reading (log 91). -/
def Obligations.UniformArithmeticCompletes : Prop :=
  ∀ (s : State) (x : Iss) (g : Guard) (f : FA) (b : FB) (i : FI),
    let result := fun (dst : BitVec 9) (v : W64) => past x 1 (uniResult s x dst v)
    let w := tyWidth f.ty
    let p := sval x f.ty f.srca
    let q := sval x f.ty f.srcb
    let a := readInt f.ty
    let rnd : Rnd := ⟨f.rnd.toNat, f.sat, x.sp.fmt.getLsbD 3⟩
    let out := fun (v : Nat) => result f.dst (extS f.ty v)
    (Ready s x .all false g 0 [.u f.srca.toNat f.fea, .u f.srcb.toNat f.feb, .ud f.dst.toNat] →
      exec (.sadd g f) s = .next (out (packInt f.ty f.sat (a p + a q))) ∧
      exec (.ssub g f) s = .next (out (packInt f.ty f.sat (a p - a q))) ∧
      exec (.smul g f) s = .next (out (packInt f.ty f.sat (a p * a q))) ∧
      exec (.smulh g f) s = .next (out (wrapTo w ((a p * a q) / ((2 ^ w : Nat) : Int)))) ∧
      exec (.sand g f) s = .next (out (p &&& q)) ∧
      exec (.sor g f) s = .next (out (p ||| q)) ∧
      exec (.sxor g f) s = .next (out (p ^^^ q)) ∧
      exec (.sshl g f) s = .next (out (p <<< (q % w))) ∧
      exec (.sshr g f) s = .next (out (p >>> (q % w))) ∧
      exec (.ssar g f) s = .next (out (wrapTo w (a p / ((2 ^ (q % w) : Nat) : Int)))) ∧
      exec (.smin g f) s = .next (out (if a p ≤ a q then p else q)) ∧
      exec (.smax g f) s = .next (out (if a p ≤ a q then q else p)) ∧
      exec (.sfadd g f) s = .next (out (fAdd (fmtOf f.ty) rnd p q)) ∧
      exec (.sfmul g f) s = .next (out (fMul (fmtOf f.ty) rnd p q))) ∧
    (Ready s x .all false g 0 [.u f.srca.toNat f.fea, .ud f.dst.toNat] →
      exec (.snot g f) s = .next (out (2 ^ w - 1 - p)) ∧
      exec (.spopc g f) s = .next (out (popcount w p)) ∧
      exec (.sclz g f) s = .next (out (if p = 0 then w else w - 1 - Nat.log2 p)) ∧
      exec (.smov g f) s = .next (out p) ∧
      exec (.scvt g f) s = .next (out (convert (srcTy f) f.ty rnd (sval x (srcTy f) f.srca)))) ∧
    (Ready s x .all false g 0 [.u f.srca.toNat f.fea, .u f.srcb.toNat f.feb] →
      exec (.scmp g f) s = .next (past x 1 (onWarp s x (fun y => setCond y f.dst.toNat (compareAs f.ty (cmpOp f) p q))))) ∧
    (Ready s x .all false g 0 [.u b.srca.toNat b.fea, .u b.srcb.toNat b.feb, .ud b.dst.toNat] →
      exec (.ssel g b) s = .next (result b.dst
        (extS b.ty (if condOf x.wp b.srcc.toNat then sval x b.ty b.srca else sval x b.ty b.srcb)))) ∧
    (Ready s x .all false g 0 [.u b.srca.toNat b.fea, .u b.srcb.toNat b.feb, .u b.srcc.toNat b.fec, .ud b.dst.toNat] →
      exec (.sfma g b) s = .next (result b.dst (extS b.ty (fFma (fmtOf b.ty) ⟨b.rnd.toNat, b.sat, x.sp.fmt.getLsbD 3⟩
        (sval x b.ty b.srca) (sval x b.ty b.srcb) (sval x b.ty b.srcc))))) ∧
    (Ready s x .all false g 0 [.ud i.dst.toNat] → exec (.smovi g i) s = .next (result i.dst (extS i.ty (immOf i.ty i.imm)))) ∧
    (Ready s x .all false g 0 [.u i.srca.toNat i.fe, .ud i.dst.toNat] →
      exec (.smovhi g i) s = .next (result i.dst (BitVec.ofNat 64 ((sreg x.grp i.srca.toNat).toNat * 2 ^ 24 + i.imm.toNat))))

/-- R253 to R260: there is a next state after each of SADD, SSUB, SMUL, SMULH, SAND, SOR, SXOR, SSHL, SSHR, SSAR, SMIN, SMAX, SFADD,
SFMUL, SNOT, SPOPC, SCLZ, SMOV, SCVT, SSEL, SFMA, SMOVI and SMOVHI in which the destination reads the result and every other uniform
register reads what it did, and one after SCMP in which the condition holds the comparison's answer. SSAR under an N type fills
with 0, the model's reading (log 91). -/
def Obligations.UniformResultsAreRead : Prop :=
  ∀ (s : State) (x : Iss) (g : Guard) (f : FA) (b : FB) (i : FI),
    let w := tyWidth f.ty
    let p := sval x f.ty f.srca
    let q := sval x f.ty f.srcb
    let a := readInt f.ty
    let rnd : Rnd := ⟨f.rnd.toNat, f.sat, x.sp.fmt.getLsbD 3⟩
    let reads := fun (j : Instr) (dst : BitVec 9) (v : W64) => ∃ t k, exec j s = .next t ∧ groupAt t x.w.core x.w.gslot = some k ∧
      sreg k dst.toNat = v ∧ ∀ r, r ≠ dst.toNat → sreg k r = sreg x.grp r
    let out := fun (j : Instr) (v : Nat) => reads j f.dst (extS f.ty v)
    (Ready s x .all false g 0 [.u f.srca.toNat f.fea, .u f.srcb.toNat f.feb, .ud f.dst.toNat] →
      out (.sadd g f) (packInt f.ty f.sat (a p + a q)) ∧ out (.ssub g f) (packInt f.ty f.sat (a p - a q)) ∧
      out (.smul g f) (packInt f.ty f.sat (a p * a q)) ∧ out (.smulh g f) (wrapTo w ((a p * a q) / ((2 ^ w : Nat) : Int))) ∧
      out (.sand g f) (p &&& q) ∧ out (.sor g f) (p ||| q) ∧ out (.sxor g f) (p ^^^ q) ∧
      out (.sshl g f) (p <<< (q % w)) ∧ out (.sshr g f) (p >>> (q % w)) ∧
      out (.ssar g f) (wrapTo w (a p / ((2 ^ (q % w) : Nat) : Int))) ∧
      out (.smin g f) (if a p ≤ a q then p else q) ∧ out (.smax g f) (if a p ≤ a q then q else p) ∧
      out (.sfadd g f) (fAdd (fmtOf f.ty) rnd p q) ∧ out (.sfmul g f) (fMul (fmtOf f.ty) rnd p q)) ∧
    (Ready s x .all false g 0 [.u f.srca.toNat f.fea, .ud f.dst.toNat] →
      out (.snot g f) (2 ^ w - 1 - p) ∧ out (.spopc g f) (popcount w p) ∧
      out (.sclz g f) (if p = 0 then w else w - 1 - Nat.log2 p) ∧ out (.smov g f) p ∧
      out (.scvt g f) (convert (srcTy f) f.ty rnd (sval x (srcTy f) f.srca))) ∧
    (Ready s x .all false g 0 [.u f.srca.toNat f.fea, .u f.srcb.toNat f.feb] → f.dst.toNat < x.wp.conds.length →
      ∃ t y, exec (.scmp g f) s = .next t ∧ warpAt t x.w.core x.w.gslot x.w.wid = some y ∧
        condOf y f.dst.toNat = compareAs f.ty (cmpOp f) p q ∧ ∀ c, c ≠ f.dst.toNat → condOf y c = condOf x.wp c) ∧
    (Ready s x .all false g 0 [.u b.srca.toNat b.fea, .u b.srcb.toNat b.feb, .ud b.dst.toNat] →
      reads (.ssel g b) b.dst (extS b.ty (if condOf x.wp b.srcc.toNat then sval x b.ty b.srca else sval x b.ty b.srcb))) ∧
    (Ready s x .all false g 0 [.u b.srca.toNat b.fea, .u b.srcb.toNat b.feb, .u b.srcc.toNat b.fec, .ud b.dst.toNat] →
      reads (.sfma g b) b.dst (extS b.ty (fFma (fmtOf b.ty) ⟨b.rnd.toNat, b.sat, x.sp.fmt.getLsbD 3⟩
        (sval x b.ty b.srca) (sval x b.ty b.srcb) (sval x b.ty b.srcc)))) ∧
    (Ready s x .all false g 0 [.ud i.dst.toNat] → reads (.smovi g i) i.dst (extS i.ty (immOf i.ty i.imm))) ∧
    (Ready s x .all false g 0 [.u i.srca.toNat i.fe, .ud i.dst.toNat] →
      reads (.smovhi g i) i.dst (BitVec.ofNat 64 ((sreg x.grp i.srca.toNat).toNat * 2 ^ 24 + i.imm.toNat)))

/-! ### Control transfers, status and formats -/

/-- R261 to R265: the transfers of control complete: the moving lanes go to their targets, the others to the next word, and
the lanes of the split are regrouped by PC (R139). BRA moves the lanes of the guard, BRC all of them or none by a condition,
BRV those of a predicate, CALL also writes the link, RET and BRX take each lane's target from a register or a table. R261:
where every active lane of a split moves, the split goes to the target whole and no other split changes. R262, R264: an index of BRX
beyond its table traps BOUNDS, a misaligned target of RET traps ALIGN and one outside the user half PAGE_PROTECTION. -/
def Obligations.TransfersComplete : Prop :=
  (∀ (s : State) (x : Iss) (g : Guard) (f : FJ),
     let m := guardMask x g
     let target := x.sp.pc + 8 + (f.off.signExtend 64 <<< 3)
     let go := fun (s : State) (mv : W32) (t : Nat → W64) => (.next (jumped x (transfer s x mv t)) : Out)
     let good := fun (t : Nat → W64) => ∀ l, l ∈ lanesOf m → (t l).toNat % 8 = 0 ∧ userVa (t l).toNat = true
     (Ready s x .all false g 0 [] →
       exec (.bra g f) s = go s m (fun _ => target) ∧
       exec (.brc g f) s = go s (if condOf x.wp f.creg.toNat != f.cneg then m else 0) (fun _ => target)) ∧
     (Ready s x .vector false g 0 [] →
       exec (.brv g f) s = go s (m &&& (if f.pneg then ~~~predOf x.wp f.pred.toNat else predOf x.wp f.pred.toNat))
         (fun _ => target)) ∧
     (x.isVec = true → f.reg.toNat % 2 = 0 → Ready s x .all false g 0 [.vd f.reg.toNat 2] →
       exec (.call g f) s = go (vecResult s x g f.reg 2 (fun _ => (x.sp.pc + 8).toNat)) m (fun _ => target)) ∧
     (x.isVec = false → f.reg.toNat < 256 → Ready s x .all false g 0 [.ud f.reg.toNat] →
       exec (.call g f) s = go (uniResult s x f.reg (x.sp.pc + 8)) m (fun _ => target)) ∧
     (let t := fun (l : Nat) => BitVec.ofNat 64 (vregN x.wp f.reg.toNat 2 l)
      x.isVec = true → f.reg.toNat % 2 = 0 → good t → Ready s x .all false g 0 [.v f.reg.toNat 2 id false] →
       exec (.ret g f) s = go s m t) ∧
     (let t := fun (_ : Nat) => sreg x.grp f.reg.toNat
      x.isVec = false → f.reg.toNat < 256 → good t → Ready s x .all false g 0 [.u f.reg.toNat false] →
       exec (.ret g f) s = go s m t) ∧
     (let idx := fun (l : Nat) => (vreg x.wp f.reg.toNat l).toNat
      let accs := (lanesOf m).map (fun l => (l, (target.toNat + 8 * idx l) % 2 ^ 64))
      let u := dropWalks s x
      let pas := physLanes s x 0 accs
      let q := nowReq u x 8 0 0 (pas.all (fun p => l1able p.2.1 p.2.2) && !x.sp.homeLd) false (pas.map (fun p => (p.1, p.2.1)))
      let t := fun (l : Nat) => mapGet ((loadVals u q [] []).map (fun v => (v.1, target + BitVec.ofNat 64 v.2))) l 0
      (∀ l, l ∈ lanesOf m → idx l ≤ f.len.toNat) → pagesHeld s x 0 accs = true → x.wp.spec = none →
      poisoned u false 8 (pas.map (fun p => (p.1, p.2.1))) = [] → eligible u q = true →
      good t → Ready s x .vector false g 0 [.v f.reg.toNat 1 id false] →
       exec (.brx g f) s = go (readNow u q) m t) ∧
     (let above := (lanesOf m).filter (fun l => (vreg x.wp f.reg.toNat l).toNat > f.len.toNat)
      above ≠ [] → Ready s x .vector false g 0 [.v f.reg.toNat 1 id false] →
       exec (.brx g f) s = finish x 1 (.trap .bounds (maskOf above) 0 0 s)) ∧
     (let t := fun (l : Nat) => vregN x.wp f.reg.toNat 2 l
      let mis := (lanesOf m).filter (fun l => t l % 8 ≠ 0)
      let out := (lanesOf m).filter (fun l => userVa (t l) = false)
      x.isVec = true → f.reg.toNat % 2 = 0 → Ready s x .all false g 0 [.v f.reg.toNat 2 id false] →
       (mis ≠ [] → exec (.ret g f) s = finish x 1 (.trap .align (maskOf mis) (t (mis.headD 0)) 0 s)) ∧
       (mis = [] → out ≠ [] → exec (.ret g f) s = finish x 1 (.trap .pageProtection (maskOf out) (t (out.headD 0)) 3 s))) ∧
     (let t := (sreg x.grp f.reg.toNat).toNat
      x.isVec = false → f.reg.toNat < 256 → Ready s x .all false g 0 [.u f.reg.toNat false] →
       (t % 8 ≠ 0 → exec (.ret g f) s = finish x 1 (.trap .align (maskOf (lanesOf m)) t 0 s)) ∧
       (t % 8 = 0 → userVa t = false → exec (.ret g f) s = finish x 1 (.trap .pageProtection (maskOf (lanesOf m)) t 3 s)))) ∧
  (∀ (s : State) (x : Iss) (g : Guard) (f : FJ),
     Ready s x .vector false g 0 [] → guardMask x g = x.sp.mask →
     exec (.bra g f) s = .next (jumped x (onWarp s x (fun y => y.setSplit x.w.slot ((y.split x.w.slot).map (fun q =>
       { q with pc := x.sp.pc + 8 + (f.off.signExtend 64 <<< 3), mask := x.sp.mask, hold := .none, blk := .none }))))))

/-- R265 to R272: JOIN (where no split waits below it), EXIT, NOP, YIELD, REGION, SETFMT, GETFMT, GETSR and PLOG complete.
R141: a JOIN below which a split or a wait-list entry of its FMT waits is held at its PC; that the boundary steps are made at it all the
same is the model's choice (log 124). -/
def Obligations.StatusAndControlComplete : Prop :=
  (∀ (s : State) (x : Iss) (g : Guard) (j : FJ) (a : FA) (i : FI),
     let m := guardMask x g
     (Ready s x .all false g 0 [] →
       exec (.nop g j) s = .next (past x 1 s) ∧
       ((x.isVec = true → lowerExists x.wp x.w.slot x.sp = false) → exec (.join g j) s = .next (past x 1 s))) ∧
     (Ready s x .all true g 0 [] →
       exec (.exit g j) s = .next (checkExit
         (past x 1 (onSplit s x (fun q => { q with mask := if x.isVec then q.mask &&& ~~~m else 0 }))) x.w.core x.w.gslot x.w.wid) ∧
       exec (.region g j) s = .next (past x 1 (onSplit s x (fun q => { q with ctr := q.ctr + 1, entry := q.pc + 8 }))) ∧
       (x.wp.aside = none → exec (.yield g j) s = .next (past x 1 s)) ∧
       (x.wp.aside ≠ none → (ctxOf s x.grp.ctx).st = .saving →
         exec (.yield g j) s = .next (past x 1 (onWarp s x (fun y => { y with saved := true })))) ∧
       (∀ a, x.wp.aside = some a → (ctxOf s x.grp.ctx).st = .resuming →
         exec (.yield g j) s = .next (jumped x (wakeDone (onWarp s x endReload) x.w.core x.w.gslot)))) ∧
     (i.imm.getLsbD 23 = false → Ready s x .all false g 0 [] →
       exec (.setfmt g i) s = .next (past x 1 (onSplit s x (fun q => { q with fmt := BitVec.ofNat 32 (i.imm.toNat % 16) })))) ∧
     (i.imm.getLsbD 23 = true → (sreg x.grp i.srca.toNat).toNat % 2 ^ 32 < 16 → Ready s x .all false g 0 [.u i.srca.toNat i.fe] →
       exec (.setfmt g i) s = .next (past x 1 (onSplit s x (fun q =>
         { q with fmt := BitVec.ofNat 32 ((sreg x.grp i.srca.toNat).toNat % 2 ^ 32) })))) ∧
     (Ready s x .all false g 0 [.ud a.dst.toNat] →
       exec (.getfmt g a) s = .next (past x 1 (uniResult s x a.dst (x.sp.fmt.setWidth 64))) ∧
       exec (.rdcyc g a) s = .next (past x 1 (uniResult s x a.dst (BitVec.ofNat 64 (dieOf s (x.w.core / 64)).cycle)))) ∧
     (i.imm = 1 → x.isVec = true → i.ty = .n32 → Ready s x .all false g 0 [.vd i.dst.toNat 1] →
       exec (.getsr g i) s = .next (past x 1 (vecResult s x g i.dst 1 (fun l => l)))) ∧
     (i.imm ≠ 1 ∨ (x.isVec = false ∧ i.ty = .n64 ∧ i.dst.toNat < 256) → Ready s x .all false g 0 [.ud i.dst.toNat] →
       exec (.getsr g i) s = .next (past x 1 (uniResult s x i.dst (statusOf x i.imm.toNat)))) ∧
     (let n := (ctxOf s x.grp.ctx).part
      let p := partOf s n
      Ready s x .all false g 0 [.u a.srca.toNat a.fea, .u a.srcb.toNat a.feb] →
       (p.dbg = 0 → exec (.plog g a) s = .next (past x 1 s)) ∧
       (p.dbg ≠ 0 → p.plogSize ≤ p.plogCount →
         exec (.plog g a) s = .next (past x 1 (modPart s n (fun p => { p with plogDrops := p.plogDrops + 1 })))) ∧
       (p.dbg ≠ 0 → p.plogCount < p.plogSize →
         exec (.plog g a) s = .next (past x 1 (modPart (unitWrite s (p.plogBase + 32 * p.plogCount) (bytesLE 32
           ((dieOf s (x.w.core / 64)).cycle % 2 ^ 16 + x.w.core <<< 16 + x.w.wid <<< 24 + (x.grp.launch % 2 ^ 32) <<< 32 +
             x.sp.pc.toNat <<< 64 + (sreg x.grp a.srca.toNat).toNat <<< 128 + (sreg x.grp a.srcb.toNat).toNat <<< 192)))
           n (fun p => { p with plogCount := p.plogCount + 1 })))))) ∧
  (∀ (s : State) (x : Iss) (g : Guard) (j : FJ),
     Ready s x .all false g 0 [] → x.isVec = true → lowerExists x.wp x.w.slot x.sp = true →
     exec (.join g j) s = .next (setBlocked (onWarp (onSplit s x (fun q => { q with hold := .join })) x boundary) x.w .nothing))

/-! ### Pair words -/

/-- R224, R226, R228: a pair word completes: both halves read the registers before either writes, half 0 writes first, each in the
lanes of its own predicate, by FMT's rounding. `pairInstr` names each of the 26 constructors by its first half: pairNop, pairMov,
pairIadd, pairIsub, pairImul, pairImin, pairImax, pairAnd, pairOr, pairXor, pairAndn, pairShl, pairShr, pairSar, pairNot,
pairIneg, pairFadd, pairFsub, pairFmul, pairFmin, pairFmax, pairFminnum, pairFmaxnum, pairFabs, pairFneg, pairFcopysign. -/
def Obligations.PairWordsComplete : Prop :=
  ∀ (s : State) (x : Iss) (a : HalfArgs) (h : Half) (p : Pop),
    let h0 : Half := ⟨p, a⟩
    Ready s x .vector false noGuard 0 (halfOpds x h0 ++ halfOpds x h) → halfBeyond x h0 = false → halfBeyond x h = false →
    exec (pairInstr h0 h) s = .next (past x 1 (onWarp s x (fun y =>
      halfWrite (halfWrite y (halfOp p) p x a) (halfOp h.pop) h.pop x h.args)))

/-! ### Class 011: memory -/

/-- R305, R308, R309, R312: a vector load completes in a warp that does not speculate, where every address is aligned, every
page is held and no line is poisoned: one request for each 128-byte line, in the order of the lanes, carrying the token, the
scope and the order; memory and every register keep their values, and the registers are empty until the value arrives. R305,
R308, R309, R312, R411: a vector store completes in a warp that does not speculate, under the same conditions: one request for
each line, with the low bits of each lane's registers; performed memory is unchanged until the home takes it. R156, R158: in a warp that
speculates a load takes its value at once, the bytes of the store buffer before those of memory, its lines joining the read set, and a
store goes into the store buffer; a 65th line of the one or a 33rd of the other stops the speculation. R53, R304: a misaligned address
traps ALIGN, one outside the user half PAGE_PROTECTION, the lowest lane's address with it. -/
def Obligations.VectorAccessesIssue : Prop :=
  (∀ (s : State) (x : Iss) (g : Guard) (f : FM),
     let w := 2 ^ f.wid.toNat
     let m := guardMask x g
     let accs := laneAddrs x m f.base f.u f.off.toInt w
     let u := dropWalks s x
     let pas := physLanes s x 0 accs
     let la := pas.map (fun p => ({ lane := p.1, pa := p.2.1, v := 0 } : LaneAcc))
     Ready s x .vector (f.ord != 0) g f.twait [opBase f.base f.u f.fe 2, .vl f.data.toNat (widRegs w)] →
     x.wp.spec = none → misaligned w accs = [] → pagesHeld s x 0 accs = true →
     poisoned u false w (pas.map (fun p => (p.1, p.2.1))) = [] →
     let send := fun (sync l1 : Bool) =>
       sendReqs u x .load w f.scope.toNat f.ord.toNat (tokOf f.tse f.tslot) (l1 && !x.sp.homeLd) sync (lineGroups la)
     let fin := fun (r : List (Nat × W32) × State) =>
       let t := onWarp r.2 x (fun y => r.1.foldl (fun y i => produceV y i.1 f.data.toNat (widRegs w) i.2) y)
       (.next (past x 1 (if f.ord.toNat % 2 = 1 then addAcqs t x r.1 f.scope.toNat else t)) : Out)
     let l1 := pas.all (fun p => l1able p.2.1 p.2.2)
     exec (.ld g f) s = fin (send false l1) ∧ exec (.ldx g f) s = fin (send true (l1 && decide (f.scope.toNat < 3)))) ∧
  (∀ (s : State) (x : Iss) (g : Guard) (f : FM),
     let w := 2 ^ f.wid.toNat
     let n := widRegs w
     let m := guardMask x g
     let accs := laneAddrs x m f.base f.u f.off.toInt w
     let u := dropWalks s x
     let pas := physLanes s x 1 accs
     let la := pas.map (fun p => ({ lane := p.1, pa := p.2.1, v := vregN x.wp f.data.toNat n p.1 % 2 ^ (8 * w) } : LaneAcc))
     let lines := distinct (pas.map (fun p => p.2.1 / 128))
     Ready s x .vector (f.ord != 0) g f.twait [opBase f.base f.u f.fe 2, .v f.data.toNat n id f.fe] →
     x.wp.spec = none → misaligned w accs = [] → pagesHeld s x 1 accs = true →
     let fin := fun (sync : Bool) => (.next (past x 1 (noteWrites
       (sendReqs (squashCore u x.w.core lines) x .store w f.scope.toNat f.ord.toNat (tokOf f.tse f.tslot) false sync (lineGroups la)).2
       x.w lines)) : Out)
     (poisoned u true w (pas.map (fun p => (p.1, p.2.1))) = [] → exec (.st g f) s = fin false) ∧
     (poisoned u false w (pas.map (fun p => (p.1, p.2.1))) = [] → exec (.stx g f) s = fin true)) ∧
  (∀ (s : State) (x : Iss) (g : Guard) (f : FM) (p : Spec),
     let w := 2 ^ f.wid.toNat
     let accs := laneAddrs x (guardMask x g) f.base f.u f.off.toInt w
     let u := dropWalks s x
     let pas := physLanes s x 0 accs
     let pa := pas.map (fun q => (q.1, q.2.1))
     Ready s x .vector (f.ord != 0) g f.twait [opBase f.base f.u f.fe 2, .vl f.data.toNat (widRegs w)] →
     x.wp.spec = some p → misaligned w accs = [] → pagesHeld s x 0 accs = true → poisoned u false w pa = [] →
     let l1 := pas.all (fun q => l1able q.2.1 q.2.2)
     let ends := fun (i : Instr) (sync l1 : Bool) =>
       let q := nowReq u x w f.scope.toNat f.ord.toNat (l1 && !x.sp.homeLd) sync pa
       (specWaits u q = true → exec i s = .next (setBlocked u x.w .nothing)) ∧
       (specWaits u q = false → specReadSet p (specLines p w (pa.map (fun e => e.2))) = none →
         exec i s = .next (setBlocked (stopSpeculation u x.w) x.w (.barrier p.bar))) ∧
       (∀ p', specWaits u q = false → specReadSet p (specLines p w (pa.map (fun e => e.2))) = some p' →
         let r := sendNow (onWarp (readNow u q) x (fun y => { y with spec := y.spec.map (fun _ => p') })) x w (loadVals u q p.buf [])
         exec i s = .next (past x 1 (onWarp r.2 x (fun y => produceV y r.1 f.data.toNat (widRegs w) (maskOf (pa.map (fun e => e.1)))))))
     ends (.ld g f) false l1 ∧ ends (.ldx g f) true (l1 && decide (f.scope.toNat < 3))) ∧
  (∀ (s : State) (x : Iss) (g : Guard) (f : FM) (p : Spec),
     let w := 2 ^ f.wid.toNat
     let n := widRegs w
     let accs := laneAddrs x (guardMask x g) f.base f.u f.off.toInt w
     let u := dropWalks s x
     let pas := physLanes s x 1 accs
     Ready s x .vector (f.ord != 0) g f.twait [opBase f.base f.u f.fe 2, .v f.data.toNat n id f.fe] →
     x.wp.spec = some p → misaligned w accs = [] → pagesHeld s x 1 accs = true →
     let put := specStore p (tokOf f.tse f.tslot) (pas.map (fun q => (q.2.1, bytesLE w (vregN x.wp f.data.toNat n q.1 % 2 ^ (8 * w)))))
     let ends := fun (i : Instr) =>
       (put = none → exec i s = .next (setBlocked (stopSpeculation u x.w) x.w (.barrier p.bar))) ∧
       (∀ p', put = some p' → exec i s = .next (past x 1 (onWarp u x (specBuffer p p'))))
     (poisoned u true w (pas.map (fun q => (q.1, q.2.1))) = [] → ends (.st g f)) ∧
     (poisoned u false w (pas.map (fun q => (q.1, q.2.1))) = [] → ends (.stx g f))) ∧
  (∀ (s : State) (x : Iss) (g : Guard) (f : FM),
     let w := 2 ^ f.wid.toNat
     let accs := laneAddrs x (guardMask x g) f.base f.u f.off.toInt w
     let mis := accs.filter (fun a => a.2 % w ≠ 0)
     let out := accs.filter (fun a => userVa a.2 = false)
     let traps := fun (i : Instr) (kind : Nat) =>
       (mis ≠ [] → exec i s = finish x 1 (.trap .align (blame mis).1 (blame mis).2 0 s)) ∧
       (mis = [] → out ≠ [] → exec i s = finish x 1 (.trap .pageProtection (blame out).1 (blame out).2 kind s))
     (Ready s x .vector (f.ord != 0) g f.twait [opBase f.base f.u f.fe 2, .vl f.data.toNat (widRegs w)] →
       traps (.ld g f) 0 ∧ traps (.ldx g f) 0) ∧
     (Ready s x .vector (f.ord != 0) g f.twait [opBase f.base f.u f.fe 2, .v f.data.toNat (widRegs w) id f.fe] →
       traps (.st g f) 1 ∧ traps (.stx g f) 1))

/-- R60, R303, R310: LDL and STL complete within the group's declared window, where no copy of the group holds a range that
stops them: the physical address is the window's base and the offset. R311: LDU and STU complete: one access at the uniform
address, on the sync channel. In a warp that speculates the values
come from the store buffer before memory and stores go into it (R156). R53, R60, R304: a misaligned access traps ALIGN, one outside the
declared window WINDOW, a uniform one outside the user half PAGE_PROTECTION; a copy of the group that holds the range holds LDL and STL
back (R70). -/
def Obligations.WindowAndUniformAccessesIssue : Prop :=
  (∀ (s : State) (x : Iss) (g : Guard) (f : FM),
     let w := 2 ^ f.wid.toNat
     let n := widRegs w
     let offs := windowOffs x (guardMask x g) f.base f.u f.off.toInt w
     let pas := offs.map (fun o => (o.1, x.grp.sbase + o.2.toNat))
     x.wp.spec = none →
     (∀ o, o ∈ offs → o.2 % (w : Int) = 0 ∧ 0 ≤ o.2 ∧ o.2 + (w : Int) ≤ (x.grp.tmpl.sramsz : Int)) →
     (Ready s x .vector false g f.twait [opBase f.base f.u f.fe 1, .vl f.data.toNat n] → poisoned s false w pas = [] →
       scoreboardHit s x false w (offs.map (fun o => o.2.toNat)) = false →
       let r := sendReqs s x .load w 0 0 (tokOf f.tse f.tslot) false false
         (lineGroups (pas.map (fun p => ({ lane := p.1, pa := p.2, v := 0 } : LaneAcc))))
       exec (.ldl g f) s = .next (past x 1 (onWarp r.2 x (fun y => r.1.foldl (fun y i => produceV y i.1 f.data.toNat n i.2) y)))) ∧
     (Ready s x .vector false g f.twait [opBase f.base f.u f.fe 1, .v f.data.toNat n id f.fe] → poisoned s true w pas = [] →
       scoreboardHit s x true w (offs.map (fun o => o.2.toNat)) = false →
       let lines := distinct (pas.map (fun p => p.2 / 128))
       exec (.stl g f) s = .next (past x 1 (noteWrites (sendReqs (squashCore s x.w.core lines) x .store w 0 0 (tokOf f.tse f.tslot)
         false false (lineGroups (pas.map (fun p => ({ lane := p.1, pa := p.2, v := vregN x.wp f.data.toNat n p.1 % 2 ^ (8 * w) } : LaneAcc))))).2
         x.w lines)))) ∧
  (∀ (s : State) (x : Iss) (g : Guard) (f : FM),
     let w := 2 ^ f.wid.toNat
     let n := widRegs w
     let offs := windowOffs x (guardMask x g) f.base f.u f.off.toInt w
     let mis := offs.filter (fun o => o.2 % (w : Int) ≠ 0)
     let out := offs.filter (fun o => o.2 < 0 ∨ o.2 + (w : Int) > (x.grp.tmpl.sramsz : Int))
     let first := fun (l : List (Nat × Int)) => wrapTo 64 ((l.map (fun o => o.2)).headD 0)
     let pas := offs.map (fun o => (o.1, x.grp.sbase + o.2.toNat))
     let ends := fun (i : Instr) (store : Bool) =>
       (mis ≠ [] → exec i s = finish x 1 (.trap .align (maskOf (mis.map (fun o => o.1))) (first mis) 0 s)) ∧
       (mis = [] → out ≠ [] → exec i s = finish x 1 (.trap .window (maskOf (out.map (fun o => o.1))) (first out) 0 s)) ∧
       (mis = [] → out = [] → poisoned s store w pas = [] → scoreboardHit s x store w (offs.map (fun o => o.2.toNat)) = true →
         exec i s = .next (setBlocked s x.w .nothing))
     (Ready s x .vector false g f.twait [opBase f.base f.u f.fe 1, .vl f.data.toNat n] → ends (.ldl g f) false) ∧
     (Ready s x .vector false g f.twait [opBase f.base f.u f.fe 1, .v f.data.toNat n id f.fe] → ends (.stl g f) true)) ∧
  (∀ (s : State) (x : Iss) (g : Guard) (f : FM) (p : Spec),
     let w := 2 ^ f.wid.toNat
     let n := widRegs w
     let offs := windowOffs x (guardMask x g) f.base f.u f.off.toInt w
     let pas := offs.map (fun o => (o.1, x.grp.sbase + o.2.toNat))
     x.wp.spec = some p →
     (∀ o, o ∈ offs → o.2 % (w : Int) = 0 ∧ 0 ≤ o.2 ∧ o.2 + (w : Int) ≤ (x.grp.tmpl.sramsz : Int)) →
     (Ready s x .vector false g f.twait [opBase f.base f.u f.fe 1, .vl f.data.toNat n] → poisoned s false w pas = [] →
       scoreboardHit s x false w (offs.map (fun o => o.2.toNat)) = false →
       let q := nowReq s x w 0 0 false false pas
       ∀ p', specWaits s q = false → specReadSet p (specLines p w (pas.map (fun e => e.2))) = some p' →
         let r := sendNow (onWarp (readNow s q) x (fun y => { y with spec := y.spec.map (fun _ => p') })) x w (loadVals s q p.buf [])
         exec (.ldl g f) s = .next (past x 1 (onWarp r.2 x (fun y => produceV y r.1 f.data.toNat n (maskOf (pas.map (fun e => e.1))))))) ∧
     (Ready s x .vector false g f.twait [opBase f.base f.u f.fe 1, .v f.data.toNat n id f.fe] → poisoned s true w pas = [] →
       scoreboardHit s x true w (offs.map (fun o => o.2.toNat)) = false →
       ∀ p', specStore p (tokOf f.tse f.tslot) (pas.map (fun e => (e.2, bytesLE w (vregN x.wp f.data.toNat n e.1 % 2 ^ (8 * w))))) = some p' →
         exec (.stl g f) s = .next (past x 1 (onWarp s x (specBuffer p p'))))) ∧
  (∀ (s : State) (x : Iss) (g : Guard) (f : FM),
     let w : Nat := 2 ^ f.wid.toNat
     let va := wrapTo 64 (((sreg x.grp f.base.toNat).toNat : Int) + f.off.toInt * (w : Int))
     let all := maskOf (lanesOf (guardMask x g))
     let traps := fun (i : Instr) (kind : Nat) =>
       (va % w ≠ 0 → exec i s = finish x 1 (.trap .align all va 0 s)) ∧
       (va % w = 0 → userVa va = false → exec i s = finish x 1 (.trap .pageProtection all va kind s))
     (Ready s x .all (f.ord != 0) g f.twait [.u f.base.toNat f.fe] → traps (.ldu g f) 0) ∧
     (Ready s x .all (f.ord != 0) g f.twait [.u f.base.toNat f.fe, .u f.data.toNat f.fe] → traps (.stu g f) 1)) ∧
  (∀ (s : State) (x : Iss) (g : Guard) (f : FM) (e : TlbEntry) (p : Spec),
     let w : Nat := 2 ^ f.wid.toNat
     let va := wrapTo 64 (((sreg x.grp f.base.toNat).toNat : Int) + f.off.toInt * (w : Int))
     let u := dropWalks s x
     x.wp.spec = some p → va % w = 0 → userVa va = true → isPoisoned u (lineOf (e.phys va)) = false →
     (Ready s x .all (f.ord != 0) g f.twait [.u f.base.toNat f.fe] →
       laneLookup s x (ctxOf s x.grp.ctx).pasid 0 va = .hit e →
       let q := nowReq u x w f.scope.toNat f.ord.toNat (l1able (e.phys va) e && decide (f.scope.toNat < 3) && !x.sp.homeLd) true
         [(0, e.phys va)]
       ∀ p', specWaits u q = false → specReadSet p (specLines p w [e.phys va]) = some p' →
         let r := sendNow (onWarp (readNow u q) x (fun y => { y with spec := y.spec.map (fun _ => p') })) x w (loadVals u q p.buf [])
         exec (.ldu g f) s = .next (past x 1 (onGroup r.2 x (fun k => produceU k r.1 f.data.toNat 0)))) ∧
     (Ready s x .all (f.ord != 0) g f.twait [.u f.base.toNat f.fe, .u f.data.toNat f.fe] →
       laneLookup s x (ctxOf s x.grp.ctx).pasid 1 va = .hit e →
       ∀ p', specStore p (tokOf f.tse f.tslot) [(e.phys va, bytesLE w ((sreg x.grp f.data.toNat).toNat % 2 ^ (8 * w)))] = some p' →
         exec (.stu g f) s = .next (past x 1 (onWarp u x (specBuffer p p'))))) ∧
  (∀ (s : State) (x : Iss) (g : Guard) (f : FM) (e : TlbEntry),
     let w : Nat := 2 ^ f.wid.toNat
     let va := wrapTo 64 (((sreg x.grp f.base.toNat).toNat : Int) + f.off.toInt * (w : Int))
     let u := dropWalks s x
     x.wp.spec = none → va % w = 0 → userVa va = true → isPoisoned u (lineOf (e.phys va)) = false →
     (Ready s x .all (f.ord != 0) g f.twait [.u f.base.toNat f.fe] →
       laneLookup s x (ctxOf s x.grp.ctx).pasid 0 va = .hit e →
       let r := sendReqs u x .load w f.scope.toNat f.ord.toNat (tokOf f.tse f.tslot)
         (l1able (e.phys va) e && decide (f.scope.toNat < 3) && !x.sp.homeLd) true [[{ lane := 0, pa := e.phys va, v := 0 }]]
       let t := onGroup r.2 x (fun k => r.1.foldl (fun k i => produceU k i.1 f.data.toNat 0) k)
       exec (.ldu g f) s = .next (past x 1 (if f.ord == 1 then addAcqs t x r.1 f.scope.toNat else t))) ∧
     (Ready s x .all (f.ord != 0) g f.twait [.u f.base.toNat f.fe, .u f.data.toNat f.fe] →
       laneLookup s x (ctxOf s x.grp.ctx).pasid 1 va = .hit e →
       exec (.stu g f) s = .next (past x 1 (noteWrites (sendReqs (squashCore u x.w.core [e.phys va / 128]) x .store w f.scope.toNat
         f.ord.toNat (tokOf f.tse f.tslot) false true
         [[{ lane := 0, pa := e.phys va, v := (sreg x.grp f.data.toNat).toNat % 2 ^ (8 * w) }]]).2 x.w [e.phys va / 128]))))

/-- R313 to R316: PREF, INVL1, WAITK, FENCE and FENCEX complete; the fences where what they order has been performed. After a FENCEX
the second path sees the words written on the first for the context; that it waits for the writes of every group of the context on the
path is the model's reading (log 94), and its effect on what is seen is in the model's terms (log 112). -/
def Obligations.PrefetchAndFencesComplete : Prop :=
  ∀ (s : State) (x : Iss) (g : Guard) (f : FM),
    (Ready s x .vector false g f.twait [opBase f.base f.u f.fe 2] →
      exec (.pref g f) s = .next (past x 1
        ((laneAddrs x (guardMask x g) f.base f.u f.off.toInt 1).foldl (fun s a => prefetch s x a.2) s))) ∧
    (Ready s x .vector false g f.twait [] →
      exec (.invl1 g f) s = .next (past x 1 (modCore s x.w.core (fun k => { k with l1 := [], l1rec := [] })))) ∧
    (Ready s x .all false g f.twait [] → exec (.waitk g f) s = .next (past x 1 s)) ∧
    (Ready s x .all true g f.twait [] →
      ((f.ord.getLsbD 1 = true → coreDrained s x = true) → (f.ord.getLsbD 0 = true → syncReturned s x = true) →
        (let s' := if f.ord.getLsbD 1 then fenceRelease (synced s x.w) x f.scope.toNat else synced s x.w
         exec (.fence g f) s = .next (past x 1 (if f.ord.getLsbD 0 then fenceAcquire s' x f.scope.toNat else s')))) ∧
      (let seen : State := { s with stale := seeWords s.stale x.grp.ctx f.data.toNat f.base.toNat }
       pathDrained s x f.data.toNat = true → exec (.fencex g f) s = .next (past x 1 (if f.base.toNat = 0
        then modCore seen x.w.core (fun k => { k with l1 := [], l1rec := [] }) else seen))))

/-! ### Class 100: atomics -/

/-- R72, R317 to R323: the atomics complete at issue where every address is aligned, every page is held and allows atomics, and
no line is poisoned: one request for each line, or one for each lane of DCAS and AMOV, which are performed one after the other, with the
operands of its lanes; the registers of an old value are empty until it arrives. -/
def Obligations.AtomicsIssue : Prop :=
  ∀ (s : State) (x : Iss) (g : Guard) (a : FAtom) (r : FAtomr) (f : FM),
    let u := dropWalks s x
    let m := guardMask x g
    let ok := fun (w : Nat) (accs : List (Nat × Nat)) => misaligned w accs = [] ∧ pagesHeld s x 2 accs = true ∧
      badMemtype (physLanes s x 2 accs) = [] ∧ poisoned u false w ((physLanes s x 2 accs).map (fun p => (p.1, p.2.1))) = []
    (let w := 2 ^ a.wid.toNat
     let n := widRegs w
     let accs := laneAddrs x m a.base a.u 0 w
     let pas := physLanes s x 2 accs
     ok w accs →
     (Ready s x .vector true g a.twait [opBase a.base a.u a.fe 2, .v a.src.toNat n id a.fes, .vl a.data.toNat n] →
      ∃ t, sendAtomic u x (.atom a.aop.toNat true) w a.scope.toNat a.ord.toNat none (some (a.data.toNat, n))
          (lineGroups (pas.map (fun p => ({ lane := p.1, pa := p.2.1, v := vregN x.wp a.src.toNat n p.1 } : LaneAcc)))) (sysatAt pas)
          = .done t ∧
        exec (.atom g a) s = .next (past x 1 t)) ∧
     (Ready s x .vector true g a.twait [opBase a.base a.u a.fe 2, .v a.src.toNat (2 * n) id a.fes, .vl a.data.toNat n] →
      ∃ t, sendAtomic u x .cas w a.scope.toNat a.ord.toNat none (some (a.data.toNat, n))
          (lineGroups (pas.map (fun p => ({
            lane := p.1
            pa := p.2.1
            v := vregN x.wp a.src.toNat n p.1
            nv := vregN x.wp (a.src.toNat + n) n p.1 } : LaneAcc)))) (sysatAt pas) = .done t ∧
        exec (.cas g a) s = .next (past x 1 t))) ∧
    (let w := 2 ^ r.wid.toNat
     let n := widRegs w
     let accs := laneAddrs x m r.base r.u r.off.toInt w
     let pas := physLanes s x 2 accs
     ok w accs → Ready s x .vector true g r.twait [opBase r.base r.u r.fe 2, .v r.data.toNat n id r.fe] →
      ∃ t, sendAtomic u x (.atom r.aop.toNat false) w r.scope.toNat r.ord.toNat (tokOf r.tse r.tslot) none
          (lineGroups (pas.map (fun p => ({ lane := p.1, pa := p.2.1, v := vregN x.wp r.data.toNat n p.1 } : LaneAcc)))) (sysatAt pas)
          = .done t ∧
        exec (.atomr g r) s = .next (past x 1 t)) ∧
    (let w := 2 ^ f.wid.toNat
     let n := widRegs w
     let two := pairAddrs x m f.base f.u
     let accs := two.flatMap (fun p => [(p.1, p.2.1), (p.1, p.2.2)])
     let at_ := fun (l i : Nat) => (((physLanes s x 2 accs).filter (fun p => p.1 == l)).map (fun p => p.2.1)).getD i 0
     let v := fun (i l : Nat) => vregN x.wp (f.data.toNat + i * n) n l
     ok w accs → (∀ p, p ∈ physLanes s x 2 accs → p.2.2.sysat = true → inHostMem p.2.1 = false) →
     (∀ l, l ∈ lanesOf m → inHostMem (at_ l 0) = inHostMem (at_ l 1)) →
     (Ready s x .vector true g f.twait (.v f.data.toNat (4 * n) id f.fe :: opPairBase f.base f.u f.fe) →
      ∃ t, sendAtomic u x .dcas w f.scope.toNat f.ord.toNat (tokOf f.tse f.tslot) (some (f.data.toNat, 2 * n))
          ((lanesOf m).map (fun l =>
            [({ lane := l, pa := at_ l 0, pa2 := at_ l 1, v := v 0 l, v2 := v 1 l, nv := v 2 l, nv2 := v 3 l } : LaneAcc)])) (fun _ => false)
          = .done t ∧
        exec (.dcas g f) s = .next (past x 1 t)) ∧
     (Ready s x .vector true g f.twait (.vl f.data.toNat n :: opPairBase f.base f.u f.fe) →
      ∃ t, sendAtomic u x .amov w f.scope.toNat f.ord.toNat (tokOf f.tse f.tslot) (some (f.data.toNat, n))
          ((lanesOf m).map (fun l => [({ lane := l, pa := at_ l 0, pa2 := at_ l 1, v := 0 } : LaneAcc)])) (fun _ => false) = .done t ∧
        exec (.amov g f) s = .next (past x 1 t))) ∧
    (let w := 2 ^ f.wid.toNat
     let n := widRegs w
     let accs := laneAddrs x m f.base f.u f.off.toInt w
     let pas := physLanes s x 2 accs
     let cnt := fun (l : Nat) => x.wp.dcount.getD l 0
     ok w accs → (∀ p, p ∈ pas → inHostMem p.2.1 = false ∧ cnt p.1 + 1 < 2 ^ 26) →
     Ready s x .vector true g f.twait [opBase f.base f.u f.fe 2, .v f.data.toNat n id f.fe] →
      exec (.datom g f) s = .next (past x 1 (onWarp (addToken { u with datoms := u.datoms ++ pas.map (fun p => ({
          ctx := x.grp.ctx
          launch := x.grp.launch
          pa := p.2.1
          f64 := w == 8
          ent := { key := (x.grp.gidx % 2 ^ 24) <<< 40 + x.w.wid <<< 33 + p.1 <<< 26 + cnt p.1, val := vregN x.wp f.data.toNat n p.1 }
          who := x.w
          tok := tokOf f.tse f.tslot } : DInFlight)) } x.w (tokOf f.tse f.tslot) pas.length) x (fun y =>
        { y with dcount := (List.range 32).map (fun l => if pas.any (fun p => p.1 == l) then cnt l + 1 else cnt l) }))))

/-! ### Barriers, barrier words, full/empty -/

/-- R153, R155, R364, R365: BAR and BARSPEC (before a REGION) hold the split at the barrier with its count, whatever their guard, for
the arrival that takes effect once all of the role stands there; a BARSPEC before no REGION is held with a count that no barrier takes,
the model's way to its trap (log 125). R161, R366: MBARA sends one release-ordered access of its barrier
word; MBARW reads its phase operand, marks its destination empty and waits for the polls of the word. -/
def Obligations.BarrierInstructionsComplete : Prop :=
  (∀ (s : State) (x : Iss) (g : Guard) (f : FI),
     let held := fun (s : State) (count : Nat) (spec : Bool) => (.next (awaitEnd (onSplit s x (fun q =>
       { q with hold := .bar (f.imm.toNat % 16) count spec g })) x (.barrier (f.imm.toNat % 16))) : Out)
     let count := f.imm.toNat / 16 % 64
     let accs := (lanesOf x.sp.mask).map (fun l => (l, (x.sp.pc + 8).toNat))
     (Ready s x .all true noGuard 0 [] → exec (.bar g f) s = held s count false) ∧
     (Ready s x .vector true noGuard 0 [] → pagesHeld s x 3 accs = true →
       ((∀ p, p ∈ physLanes s x 3 accs → isRegionAt (dropWalks s x) x.w.core p.2.1 = true) →
         exec (.barspec g f) s = held (dropWalks s x) count true) ∧
       ((∃ p, p ∈ physLanes s x 3 accs ∧ isRegionAt (dropWalks s x) x.w.core p.2.1 = false) →
         exec (.barspec g f) s = held (dropWalks s x) 63 true))) ∧
  (∀ (s : State) (x : Iss) (g : Guard) (f : FM) (e : TlbEntry),
     let va := wrapTo 64 (((sreg x.grp f.base.toNat).toNat : Int) + f.off.toInt * 8)
     let u := dropWalks s x
     let pa := e.phys va
     va % 8 = 0 → userVa va = true → laneLookup s x (ctxOf s x.grp.ctx).pasid 2 va = .hit e → e.noatom = false →
     inHostMem pa = false → isPoisoned u (lineOf pa) = false →
     (Ready s x .all true g f.twait [.u f.base.toNat f.fe] →
       let r := sendReqs u x .mbara 8 f.scope.toNat 2 none false true [[{ lane := 0, pa := pa, v := 0 }]]
       exec (.mbara g f) s = .next (past x 1 (onGroup (noteWrites r.2 x.w [lineOf pa]) x (fun k =>
         r.1.foldl (fun k i => produceU k i.1 f.data.toNat 0) k)))) ∧
     (Ready s x .all true g f.twait [.u f.base.toNat f.fe, .u f.data.toNat f.fe] → x.sp.wait = none →
       let q := bitsOf (sreg x.grp f.data.toNat).toNat 48 16
       let t := onGroup { u with nextId := u.nextId + 1 } x (fun k => produceU k u.nextId f.data.toNat 0)
       exec (.mbarw g f) s = .next (awaitEnd (beginWait (addAcqs t x [] f.scope.toNat) x
         (.mbarw va q f.data.toNat u.nextId f.scope.toNat (guardMask x g))) x .dispatcher)))

/-- R161: what an arrival makes of a barrier word: a malformed word keeps its value; one arrival short of the count starts the
next phase; otherwise the count rises by 1 and the other fields stay. -/
def Obligations.BarrierWordArrival : Prop :=
  ∀ (phase expect rest count : BitVec 16),
    let v := phase.toNat * 2 ^ 48 + expect.toNat * 2 ^ 32 + rest.toNat * 2 ^ 16 + count.toNat
    (expect = 0 ∨ count.toNat ≥ expect.toNat ∨ rest ≠ 0 → mbarWord v = v) ∧
    (count.toNat < expect.toNat → rest = 0 → count.toNat + 1 = expect.toNat →
      mbarWord v = (phase.toNat + 1) % 2 ^ 16 * 2 ^ 48 + expect.toNat * 2 ^ 32) ∧
    (count.toNat < expect.toNat → rest = 0 → count.toNat + 1 ≠ expect.toNat →
      mbarWord v = phase.toNat * 2 ^ 48 + expect.toNat * 2 ^ 32 + (count.toNat + 1))

/-- R367: FEMPTY marks a uniform register empty and FEFILL fills an empty one, each where no value is on its way to it, and waits
otherwise. R163, R164, R361 to R363: STGFILL and STGFREE raise the stage's FPH and EPH by 1, STGINIT clears the counters of a ring that
no role waits on, STGQRY reads them, STGWAIT goes to wait for its counter; CWAIT completes where no copy it names is left and otherwise
waits; CPOLL counts the copies of each tag. R162, R163, R362, R363: a ring or stage that does not exist, a fill of a FULL stage, a free
of an EMPTY one and a STGINIT of a ring a role waits on trap STAGE. R66, R67: an operand that is empty and has FE traps FE_EMPTY in the
lanes where one is, else one that is empty waits; said of the two-source integer and uniform instructions and of the vector accesses. -/
def Obligations.FullEmptyStagesAndWaitsComplete : Prop :=
  (∀ (s : State) (x : Iss) (g : Guard) (f : FA),
     let r := f.dst.toNat
     (uProducing x.grp r = false →
       (Ready s x .all true g 0 [] →
         exec (.fempty g f) s = .next (past x 1 (onGroup s x (fun k =>
           if k.sempty.contains r then k else { k with sempty := k.sempty ++ [r] })))) ∧
       (Ready s x .all true g 0 [.u f.srca.toNat f.fea] → x.grp.sempty.contains r = true →
         (groupReleased s x = true → exec (.fefill g f) s = .next (past x 1 (onGroup (synced s x.w) x (fun k =>
           unblockU { setSreg k r (sreg x.grp f.srca.toNat) with sempty := k.sempty.filter (fun q => q != r) })))) ∧
         (groupReleased s x = false → exec (.fefill g f) s = .next (setBlocked s x.w .nothing)))) ∧
     (uProducing x.grp r = true → Ready s x .all true g 0 [] → exec (.fempty g f) s = .next (setBlocked s x.w .groupRoles)) ∧
     (uProducing x.grp r = true ∨ x.grp.sempty.contains r = false → Ready s x .all true g 0 [.u f.srca.toNat f.fea] →
       exec (.fefill g f) s = .next (setBlocked s x.w .groupRoles))) ∧
  (∀ (s : State) (x : Iss) (g : Guard) (i : FI) (a : FA),
     let m := guardMask x g
     let bad := finish x 1 (.trap .stage m 0 0 s)
     let waits := fun (s : State) (w : Wait) (b : Block) => (.next (awaitEnd (beginWait s x w) x b) : Out)
     (let reg := i.imm.getLsbD 23
      let ring := i.imm.toNat % 4
      let stage := if reg then (sreg x.grp i.srca.toNat).toNat % 2 ^ 32 else i.imm.toNat / 4 % 8
      Ready s x .all true g 0 (if reg then [.u i.srca.toNat i.fe] else []) →
       (stageOf x.grp ring stage = none → exec (.stgfill g i) s = bad ∧ exec (.stgfree g i) s = bad) ∧
       (∀ t, stageOf x.grp ring stage = some t →
        (groupReleased s x = true →
         (t.fph = t.eph → exec (.stgfree g i) s = bad ∧ exec (.stgfill g i) s =
           .next (past x 1 (setStage s x.w.core x.w.gslot ring stage { t with fph := t.fph + 1 }))) ∧
         (t.fph ≠ t.eph → exec (.stgfill g i) s = bad ∧ exec (.stgfree g i) s =
           .next (past x 1 (setStage s x.w.core x.w.gslot ring stage { t with eph := t.eph + 1 })))) ∧
        (groupReleased s x = false → exec (.stgfill g i) s = .next (setBlocked s x.w .nothing) ∧
          exec (.stgfree g i) s = .next (setBlocked s x.w .nothing)))) ∧
     (let ring := i.imm.toNat % 4
      Ready s x .all true g 0 [] →
       (ring < x.grp.tmpl.nrings → ringAwaited x.grp ring = false →
         exec (.stginit g i) s = .next (past x 1 (onGroup s x (fun k =>
           { k with rings := listSet k.rings ring ((k.rings.getD ring []).map (fun _ => { fph := 0, eph := 0 })) })))) ∧
       (x.grp.tmpl.nrings ≤ ring ∨ ringAwaited x.grp ring = true → exec (.stginit g i) s = bad)) ∧
     (let ring := a.srcb.toNat % 4
      let stage := a.srcb.toNat / 4 % 8
      (Ready s x .all false g 0 [.ud a.dst.toNat] →
       (stageOf x.grp ring stage = none → exec (.stgqry g a) s = bad) ∧
       (∀ t, stageOf x.grp ring stage = some t →
         exec (.stgqry g a) s = .next (past x 1 (uniResult s x a.dst (BitVec.ofNat 64 (t.fph.toNat + t.eph.toNat * 2 ^ 16)))))) ∧
      (Ready s x .all true g 0 [.u a.srca.toNat a.fea] → x.sp.wait = none →
       (stageOf x.grp ring stage = none → exec (.stgwait g a) s = bad) ∧
       (∀ t, stageOf x.grp ring stage = some t → exec (.stgwait g a) s =
         waits (onGroup { s with nextId := s.nextId + 1 } x (fun k => produceU k s.nextId a.dst.toNat 0))
           (.stg ring stage (a.srcb.getLsbD 5) (a.srcb.getLsbD 6) ((sreg x.grp a.srca.toNat).toNat % 2 ^ 16) a.dst.toNat s.nextId)
           .groupRoles))) ∧
     (let ids := (groupCopies s x (fun t => i.imm.getLsbD t)).map (fun c => c.id)
      Ready s x .all true g 0 [] → x.sp.wait = none →
       (ids = [] → exec (.cwait g i) s = .next (past x 1 (synced s x.w))) ∧
       (ids ≠ [] → exec (.cwait g i) s = waits s (.cwait ids) .copyWarps)) ∧
     (Ready s x .all false g 0 [.ud a.dst.toNat] →
       exec (.cpoll g a) s = .next (past x 1 (uniResult s x a.dst (BitVec.ofNat 64 ((List.range 8).foldl (fun acc t =>
         acc + Nat.min 255 ((coreOf s x.w.core).copies.filter (fun c => c.gslot == x.w.gslot && c.tag == t)).length * 2 ^ (8 * t)) 0)))))) ∧
  (∀ (s : State) (x : Iss) (g : Guard) (f : FA) (l : FM),
     let n := tyRegs f.ty
     let w := 2 ^ l.wid.toNat
     let m := guardMask x g
     let ends := fun (is : List Instr) (os : List Opd) =>
       let bad := (os.filter (fun o => o.traps)).foldl (fun acc o => acc ||| o.emptyIn x m) 0
       ∀ i, i ∈ is → (bad ≠ 0 → exec i s = finish x 1 (.trap .feEmpty bad 0 0 s)) ∧
         (bad = 0 → ∀ o, os.find? (fun o => o.emptyIn x m != 0) = some o → exec i s = .next (setBlocked s x.w o.block))
     (Issuable s x .vector false g 0 [opA f n, opB f n, .vd f.dst.toNat n] →
       ends [.iadd g f, .isub g f, .imul g f, .imulh g f, .imin g f, .imax g f, .and_ g f, .or_ g f, .xor_ g f, .andn g f]
         [opA f n, opB f n, .vd f.dst.toNat n]) ∧
     (Issuable s x .all false g 0 [.u f.srca.toNat f.fea, .u f.srcb.toNat f.feb, .ud f.dst.toNat] →
       ends [.sadd g f, .ssub g f, .smul g f, .smulh g f, .sand g f, .sor g f, .sxor g f, .sshl g f, .sshr g f, .ssar g f, .smin g f, .smax g f]
         [.u f.srca.toNat f.fea, .u f.srcb.toNat f.feb, .ud f.dst.toNat]) ∧
     (Issuable s x .vector (l.ord != 0) g l.twait [opBase l.base l.u l.fe 2, .vl l.data.toNat (widRegs w)] →
       ends [.ld g l, .ldx g l] [opBase l.base l.u l.fe 2, .vl l.data.toNat (widRegs w)]) ∧
     (Issuable s x .vector (l.ord != 0) g l.twait [opBase l.base l.u l.fe 2, .v l.data.toNat (widRegs w) id l.fe] →
       ends [.st g l, .stx g l] [opBase l.base l.u l.fe 2, .v l.data.toNat (widRegs w) id l.fe]))

/-! ### Stage rings and waits for copies -/

/-- R164: what STGWAIT answers for a counter `c` and an operand `p`: with PARITY it waits while their low bits agree; without it,
it waits while c equals p, or stands more than 2^15 ahead of it, answers c when c is p + 1, and otherwise answers with MISSED. R163,
R363: at the end of the cycle (`evalStages`) a waiting STGWAIT that has an answer gets it in its register and goes on; one that has none
goes on waiting (said of a group in which one split waits for a stage). -/
def Obligations.StageWaitAnswers : Prop :=
  (∀ (c p : BitVec 16),
    (stageAnswer c.toNat true p.toNat = if c.toNat % 2 = p.toNat % 2 then none else some c.toNat) ∧
    (c = p → stageAnswer c.toNat false p.toNat = none) ∧
    (c = p + 1 → stageAnswer c.toNat false p.toNat = some c.toNat) ∧
    (2 ≤ (c - p).toNat → (c - p).toNat ≤ 2 ^ 15 →
      stageAnswer c.toNat false p.toNat = some (c.toNat + ((c - p).toNat - 1) * 2 ^ 16 + 2 ^ 32)) ∧
    (2 ^ 15 < (c - p).toNat → stageAnswer c.toNat false p.toNat = none)) ∧
  (∀ (s : State) (c g : Nat) (k : Group) (a b : List (Nat × Warp)) (w i r st d op id : Nat) (y : Warp) (sp : Split) (eph par : Bool) (t : Stage),
    let noWait := fun (q : Split) => ∀ r st e p o d n, q.wait ≠ some (.stg r st e p o d n)
    groupAt s c g = some k → k.warps = a ++ (w, y) :: b → (∀ z, z ∈ a ++ b → ∀ j q, z.2.split j = some q → noWait q) →
    (∀ j q, j ≠ i → y.split j = some q → noWait q) → i < 4 → y.split i = some sp → sp.wait = some (.stg r st eph par op d id) →
    stageOf k r st = some t →
    let n := if eph then t.eph.toNat else t.fph.toNat
    (∀ v, stageAnswer n par op = some v →
      evalStages s c g = wakeSplit (modGroup s c g (fun k => arriveU k id v)) { core := c, gslot := g, wid := w, slot := i } 1) ∧
    (stageAnswer n par op = none → evalStages s c g = s))

/-! ### Copies -/

/-- R353 to R358: a copy start completes, where its shape is legal, its indices are in bounds and full, its addresses are
aligned, its window ranges, operand slots, stage and bases are good and the engine has room: the copy is in flight with its
scoreboard entries, its token counts one more, and the PC is past the five words. A copy of no element retires at once where nothing
that it must follow is left (R359, R400); one to a node without a route raises POISON for its launch (R205). -/
def Obligations.CopiesStart : Prop :=
  ∀ (s : State) (x : Iss) (g : Guard) (f : FCopy) (op : Nat) (es : List (Bool × Nat × Nat)),
    let i : Instr := if op = 0 then .tcopy g f else if op = 1 then .tgather g f else if op = 2 then .tscatter g f else .tfill g f
    let a := copyArgs x op f
    let known := a.indexed && a.f 6 == 0
    let c := copyOf x a f s.nextId (if known then (indexRegs a).map (fun r => (sreg x.grp r).toNat % 2 ^ 32) else [])
    let k := coreOf s x.w.core
    op < 4 →
    Ready s x .copyOnly true g f.twait ([.u f.data.toNat f.fe, .u f.base.toNat f.fe] ++
      (copyFields f).filterMap (fun v => if isSub v then some (Opd.u (v.toNat % 256) false) else none)) →
    copyLegal a f = true → copyBounds a = true → copyAligned a f = true →
    (known = true → ∀ r, r ∈ indexRegs a → uEmpty x.grp r = false) → copyEntries x.grp c = some es → copySlotsOk k c = true →
    (f.stg = true → (stageOf x.grp c.ring c.stage).isSome = true) → badBase c = none → k.copies.length < 64 →
    (k.copies.flatMap (fun q => q.entries)).length + es.length ≤ 32 → pendingAcqs s x = [] →
    let t := addToken (modCore { s with nextId := s.nextId + 1 } x.w.core (fun k =>
      { k with copies := k.copies ++ [{ c with entries := es }] })) x.w c.tok 1
    let now := c.count = 0 ∧ c.mayRetire t x.w.core = true
    (now → exec i s = .next (past x 5 (retireCopy t x.w.core { c with entries := es }))) ∧
    (¬now → (isPeer f = true → (routePort t c.node).isSome = true) → exec i s = .next (past x 5 t)) ∧
    (¬now → isPeer f = true → routePort t c.node = none →
      exec i s = .next (past x 5 (regionFault t x.grp.ctx x.grp.region Cause.poison.code x.grp.launch x.die)))

/-! ### The matrix unit -/

/-- R330 to R332, R336, R337, R340 to R344, R348: the matrix instructions complete on the matrix thread: MCLAIM takes all its
items or none, MREL and the operations join their queues, MSCALE writes a slot's exponent, MWAIT completes where nothing is
left. R330, R334, R337, R340, R343, R344: a block beyond 512 or a tile too large traps ACC_RANGE, an item that the group does not hold
or an operand slot beyond 7 traps SLOT, a bad drain descriptor ILLEGAL, its bases ALIGN, WINDOW or PAGE_PROTECTION; a full queue holds MMA,
MZERO and MDRAIN. R349 to R351: OST sends its lanes' bytes to the rows of operand slots the group holds, one request for each row, which stores
them whole, lanes ascending; ALD sends a request for each word of blocks it holds, which arrives in its register later; a misaligned lane
traps ALIGN, one outside the slots or blocks SLOT or ACC_RANGE, one in an item not held SLOT. -/
def Obligations.MatrixInstructionsComplete : Prop :=
  (∀ (s : State) (x : Iss) (g : Guard) (i : FI) (a : FA) (f : FMma) (d : FM),
     let k := coreOf s x.w.core
     let it := claimItems i.imm
     let s1 := { s with nextId := s.nextId + 1 }
     let bad := fun (c : Cause) => finish x 1 (.trap c (guardMask x g) 0 0 s)
     (Ready s x .matOnly false g 0 [] → badBlocks it.2 = false →
       ((∀ h, h ∈ holders k it → h = .free ∨ h = .held x.w.gslot) →
         exec (.mclaim g i) s = .next (past x 1 (onWarp (modCore s x.w.core (fun k => endClaim x.w.gslot (takeItems k x.w.gslot it))) x
           (fun y => setCond y i.dst.toNat true)))) ∧
       (i.imm.getLsbD 22 = false → (∃ h q, h ∈ holders k it ∧ h = .held q ∧ q ≠ x.w.gslot) →
         exec (.mclaim g i) s = .next (past x 1 (onWarp (modCore s x.w.core (endClaim x.w.gslot)) x
           (fun y => setCond y i.dst.toNat false)))) ∧
       (i.imm.getLsbD 22 = true → (∃ h q, h ∈ holders k it ∧ h = .held q ∧ q ≠ x.w.gslot) →
         exec (.mclaim g i) s = .next (setBlocked s x.w .nothing)) ∧
       (allHeld k x.w.gslot it = true → ∃ r : Mrel, r.gslot = x.w.gslot ∧ r.slots = it.1 ∧ r.blocks = it.2 ∧
         exec (.mrel g i) s = .next (past x 1 (modCore s x.w.core (fun k => { k with mrels := k.mrels ++ [r] })))) ∧
       (allHeld k x.w.gslot it = true → mqRoom k = true →
         exec (.mzero g i) s = .next (past x 1 (modCore s1 x.w.core (fun k => { k with mq := k.mq ++
           [{ id := s.nextId, gslot := x.w.gslot, kind := .mzero (it.2.headD 0) it.2.length, running := false }] })))) ∧
       (allHeld k x.w.gslot it = true → mqRoom k = false → exec (.mzero g i) s = .next (setBlocked s x.w .nothing)) ∧
       (allHeld k x.w.gslot it = false → exec (.mrel g i) s = bad .slot ∧ exec (.mzero g i) s = bad .slot)) ∧
     (Ready s x .matOnly false g 0 [] → badBlocks it.2 = true →
       exec (.mclaim g i) s = bad .accRange ∧ exec (.mrel g i) s = bad .accRange ∧ exec (.mzero g i) s = bad .accRange) ∧
     (Ready s x .matOnly false g 0 (if f.u then [.u f.srca.toNat f.fea, .u f.srcb.toNat f.feb] else []) →
       let p := if f.u then (sreg x.grp f.srca.toNat).toNat else f.srca.toNat
       let q := if f.u then (sreg x.grp f.srcb.toNat).toNat else f.srcb.toNat
       let m := 64 * 2 ^ f.mc.toNat
       let n := 16 * f.n.toNat
       let large := m * n > 131072 ∨ f.dst.toNat + (m / 16) * (n / 16) > 512
       let held := allHeld k x.w.gslot ([p, q], (List.range ((m / 16) * (n / 16))).map (fun z => f.dst.toNat + z))
       (large → exec (.mma g f) s = bad .accRange) ∧
       (¬large → 8 ≤ p ∨ 8 ≤ q ∨ held = false → exec (.mma g f) s = bad .slot) ∧
       (¬large → p < 8 → q < 8 → held = true → mqRoom k = false → exec (.mma g f) s = .next (setBlocked s x.w .nothing)) ∧
       (¬large → p < 8 → q < 8 → held = true → mqRoom k = true →
       exec (.mma g f) s = .next (past x 1 (modCore s1 x.w.core (fun k => { k with mq := k.mq ++ [{
         id := s.nextId
         gslot := x.w.gslot
         kind := .mma f.ty f.rnd.toNat f.sat m n p q f.dst.toNat (slotOf (coreOf s x.w.core) p).sx.toInt
           (slotOf (coreOf s x.w.core) q).sx.toInt
         running := false }] }))))) ∧
     (Ready s x .matOnly false g 0 [.u a.srcb.toNat a.feb] →
       (slotHeld k x.w.gslot a.dst.toNat = false → exec (.mscale g a) s = bad .slot) ∧
       (slotHeld k x.w.gslot a.dst.toNat = true → exec (.mscale g a) s = .next (past x 1 (modCore s x.w.core (fun k => { k with
         slots := mapSet k.slots a.dst.toNat { slotOf k a.dst.toNat with sx := (sreg x.grp a.srcb.toNat).setWidth 8 } }))))) ∧
     (Ready s x .matOnly false g d.twait (.u d.base.toNat d.fe :: (List.range 8).map (fun q => Opd.u (d.data.toNat + q) d.fe)) →
       let v := readDesc x.grp d.data.toNat
       let base := (sreg x.grp d.base.toNat).toNat
       let tok := tokOf d.tse d.tslot
       let legal := drainLegal v = true ∧ (v.testBit 25 = true → base < 2 ^ 32)
       let tile := tileTrap k x.w.gslot (drainM v) (drainN v) (bitsOf v 0 9) []
       (¬legal → exec (.mdrain g d) s = bad .illegal) ∧
       (∀ c, legal → tile = some c → exec (.mdrain g d) s = bad c) ∧
       (∀ c va, legal → tile = none → drainTrap x.grp v base = some (c, va) → exec (.mdrain g d) s =
         finish x 1 (.trap c (guardMask x g) va (if c == .pageProtection && va == base then 1 else 0) s)) ∧
       (legal → tile = none → drainTrap x.grp v base = none → mqRoom k = false ∨ pendingAcqs s x ≠ [] →
         exec (.mdrain g d) s = .next (setBlocked s x.w .nothing)) ∧
       (legal → tile = none → drainTrap x.grp v base = none → mqRoom k = true → pendingAcqs s x = [] →
       exec (.mdrain g d) s = .next (past x 1 (addToken (modCore s1 x.w.core (fun k => { k with drains := k.drains ++ [{
         id := s.nextId
         gslot := x.w.gslot
         desc := v
         base := base
         tok := tok
         img := none
         waitPage := none }] })) x.w tok 1)))) ∧
     (Ready s x .matOnly false g 0 [] → x.sp.wait = none →
       (∀ q, q ∈ k.mq → q.gslot ≠ x.w.gslot) → (∀ q, q ∈ k.drains → q.gslot ≠ x.w.gslot) →
       exec (.mwait g i) s = .next (past x 1 s))) ∧
  (∀ (s : State) (x : Iss) (g : Guard) (f : FM),
     let w := 2 ^ f.wid.toNat
     let n := widRegs w
     let as := matAddrs x (guardMask x g) f
     let k := coreOf s x.w.core
     let ends := fun (i : Instr) (c : Cause) (inside : Nat → Bool) (held : Nat → Bool) =>
       let mis := as.filter (fun a => a.2 % w ≠ 0)
       let out := as.filter (fun a => inside a.2 = false)
       let free := as.filter (fun a => held a.2 = false)
       (mis ≠ [] → exec i s = finish x 1 (.trap .align (blame mis).1 (blame mis).2 0 s)) ∧
       (mis = [] → out ≠ [] → exec i s = finish x 1 (.trap c (blame out).1 0 0 s)) ∧
       (mis = [] → out = [] → free ≠ [] → exec i s = finish x 1 (.trap .slot (blame free).1 0 0 s))
     (Ready s x .vector false g f.twait [opBase f.base f.u f.fe 1, .v f.data.toNat n id f.fe] →
       ends (.ost g f) .slot (fun a => decide (a < 2 ^ 21) && decide (a % 2 ^ 18 < 0x30000)) (fun a => slotHeld k x.w.gslot (a / 2 ^ 18))) ∧
     (Ready s x .vector false g f.twait [opBase f.base f.u f.fe 1, .vl f.data.toNat n] →
       ends (.ald g f) .accRange (fun a => decide (a < 2 ^ 19)) (fun a => (blockOf k (a / 1024)).holder == .held x.w.gslot))) ∧
  (∀ (s : State) (x : Iss) (g : Guard) (f : FM),
     let w := 2 ^ f.wid.toNat
     let n := widRegs w
     let as := matAddrs x (guardMask x g) f
     let k := coreOf s x.w.core
     misaligned w as = [] →
     ((∀ p, p ∈ as → p.2 < 2 ^ 21 ∧ p.2 % 2 ^ 18 < 0x30000 ∧ (slotOf k (p.2 / 2 ^ 18)).holder = .held x.w.gslot) →
       Ready s x .vector false g f.twait [opBase f.base f.u f.fe 1, .v f.data.toNat n id f.fe] →
       exec (.ost g f) s = .next (past x 1 (sendReqs s x .ost w 0 0 (tokOf f.tse f.tslot) false false (lineGroups (as.map (fun p =>
         ({ lane := p.1, pa := slotSpace + p.2, v := vregN x.wp f.data.toNat n p.1 } : LaneAcc))))).2)) ∧
     ((∀ p, p ∈ as → p.2 < 2 ^ 19 ∧ (blockOf k (p.2 / 1024)).holder = .held x.w.gslot) →
       Ready s x .vector false g f.twait [opBase f.base f.u f.fe 1, .vl f.data.toNat n] →
       let ws := (List.range n).flatMap (fun i => as.map (fun p =>
         (f.data.toNat + i, ({ lane := p.1, pa := blockSpace + p.2 + 4 * i, v := 0 } : LaneAcc))))
       let r := sendReqs s x .ald 4 0 0 (tokOf f.tse f.tslot) false false (ws.map (fun e => [e.2]))
       exec (.ald g f) s = .next (past x 1 (onWarp r.2 x (fun y =>
         (ws.zip r.1).foldl (fun y e => produceV y e.2.1 e.1.1 1 e.2.2) y))))) ∧
  (∀ (s : State) (n : Nat) (r : Req), s.inflight[n]? = some r → eligible s r = true → r.ord = 0 → r.sync = false →
     let gone := { s with inflight := s.inflight.filter (fun q => q.id != r.id) }
     (r.kind = .ost → ∃ t, exec (.homeAccess n) s = .next (addToken t r.who r.tok (-1)) ∧
       { t with cores := s.cores } = gone ∧ coreOf t r.who.core = r.lanes.foldl (fun k l =>
         let a := l.pa - slotSpace
         let bs := bytesLE r.w l.v
         let bytes := (List.range r.w).foldl (fun m j => mapSet m (a % 2 ^ 18 + j) (bs.getD j 0)) (slotOf k (a / 2 ^ 18)).bytes
         { k with slots := mapSet k.slots (a / 2 ^ 18) { slotOf k (a / 2 ^ 18) with bytes := bytes.filter (fun e => e.2 != 0) } })
         (coreOf s r.who.core)) ∧
     (r.kind = .ald → ∃ t, exec (.homeAccess n) s = .next t ∧ t.returns = s.returns ++ [{
       id := r.id
       who := r.who
       w := r.w
       vals := r.lanes.map (fun l => (l.lane,
         (mapGet (blockOf (coreOf s r.who.core) ((l.pa - blockSpace) / 1024)).words ((l.pa - blockSpace) % 1024 / 4) 0).toNat)) }]))

/-! ### Events and automata -/

/-- R372 to R376: EMIT sends its record to the die's intake, or (R202, R203, R205) with U = 1 as an EVENT flit by the port of its node,
stamped with that port's transmit counter; without a route it is counted unreachable and the EMIT completes. EVRD reads the latest record of a stream of the
context and zeros otherwise, EVWAIT completes where the record meets its threshold and otherwise waits. R125, R377 to R382:
ALOAD frees a slot, or loads an image the PLU accepts; AARM arms a LOADED automaton of the context, the candidates that are late
completed, ADISARM makes an ARMED one LOADED again, ASAVE writes the image and the state of a LOADED one, each in the turn that the PLU
gives it at the end of a cycle (R378); where the PLU refuses, each traps AUTOMATON, as does an EVWAIT on a stream that is not the
context's. -/
def Obligations.EventAndAutomatonInstructionsComplete : Prop :=
  (∀ (s : State) (x : Iss) (g : Guard) (f : FM) (a : FA),
     (Ready s x .all true g f.twait ((List.range 4).map (fun i => Opd.u (f.data.toNat + i) f.fe) ++ (if f.u then [Opd.u f.base.toNat f.fe] else [])) →
       let tok := tokOf f.tse f.tslot
       let e := emitRecord x f.data.toNat (f.ord == 2)
       let node := (sreg x.grp f.base.toNat).toNat
       let held := ((dieOf s x.die).intakeQ.filter (fun i => i.cls == 1 && i.key == x.w.core)).length
       (emitIllegal x f = true → exec (.emit g f) s = finish x 1 (.trap .illegal (guardMask x g) 0 0 s)) ∧
       (emitIllegal x f = false → (f.ord = 2 → deviceReleased s x = true) →
        (f.u = false →
         (held < 4 → exec (.emit g f) s = .next (past x 1 (sendEvent (addToken s x.w tok 1) x.die 1 x.w.core e (some x.grp.ctx)
           (tok.map (fun k => (x.w, k))) none))) ∧
         (4 ≤ held → exec (.emit g f) s = .next (setBlocked s x.w .nothing))) ∧
        (f.u = true → (f.ord = 2 → copiesTo s x node = false) →
         (routePort s node = none →
           (∀ p q, mapFind s.routes node = some (p, q) →
             exec (.emit g f) s = .next (past x 1 (modPort s p (fun r => { r with unreach := (r.unreach + 1) % 2 ^ 32 })))) ∧
           (mapFind s.routes node = none → exec (.emit g f) s = .next (past x 1 s))) ∧
         (∀ p, routePort s node = some p → portRoom s p = false → exec (.emit g f) s = .next (setBlocked s x.w .nothing)) ∧
         (∀ p, routePort s node = some p → portRoom s p = true →
           let t := raiseTx s node p
           let sent : EventRec := { e with stamp := BitVec.ofNat 64 (portOf t p).tx }
           let r := sendFlit t p { type := 1, dst := node, nev := 0, body := bytesLE 128 sent.bits }
           (tok = none → exec (.emit g f) s = .next (past x 1 r.2)) ∧
           (∀ k, tok = some k → exec (.emit g f) s = .next (past x 1
             (modPort (addToken r.2 x.w tok 1) p (fun q => { q with toks := q.toks ++ [(r.1, x.w, k)] }))))))) ∧
       (emitIllegal x f = false → f.ord = 2 → deviceReleased s x = false → exec (.emit g f) s = .next (setBlocked s x.w .nothing))) ∧
     (Ready s x .all true g 0 [.u a.srca.toNat a.fea] →
       let n := (sreg x.grp a.srca.toNat).toNat % 2 ^ 14
       let thr := (sreg x.grp a.srca.toNat).toNat / 2 ^ 32
       let r := produceEvent s x a.dst.toNat
       let mine := (streamOf s n).st == .open_ && (streamOf s n).ctx == x.grp.ctx
       (∀ e, mine = true → (streamOf s n).latest = some e → exec (.evrd g a) s = .next (past x 1 (fillEvent r.2 x.w r.1 e))) ∧
       (mine = false ∨ (streamOf s n).latest = none →
         exec (.evrd g a) s = .next (past x 1 (onGroup r.2 x (fun k => arriveU k r.1 0)))) ∧
       (mine = false → x.sp.wait = none → exec (.evwait g a) s = finish x 1 (.trap .automaton (guardMask x g) 0 0 s)) ∧
       (mine = true → x.sp.wait = none →
         (∀ e, (streamOf s n).latest = some e → evMeets e thr = true →
           exec (.evwait g a) s = .next (past x 1 (fillEvent r.2 x.w r.1 e))) ∧
         ((∀ e, (streamOf s n).latest = some e → evMeets e thr = false) →
           exec (.evwait g a) s = .next (awaitEnd (beginWait r.2 x (.evwait n thr a.dst.toNat r.1)) x (.launches n)))))) ∧
  (∀ (s : State) (x : Iss) (g : Guard) (f : FM) (i : FI),
     let m := guardMask x g
     let turn := fun (die : Nat) => (dieOf s die).autoGo = some x.w
     let given := fun (die : Nat) => modDie s die (fun d => { d with autoGo := none })
     let bad := fun (t : State) => finish x 1 (.trap .automaton m 0 0 t)
     let queued := fun (die : Nat) => (.next (setBlocked (modDie s die (fun d =>
       if d.autoQ.any (fun e => e.1 == x.w) then d else { d with autoQ := d.autoQ ++ [(x.w, d.cycle)] })) x.w .plu) : Out)
     (let cw := (sreg x.grp f.data.toNat).toNat
      let die := bitsOf cw 8 2
      let n := bitsOf cw 0 8
      let va := (sreg x.grp f.base.toNat).toNat
      let p := given die
      let u := dropWalks p x
      (cw.testBit 10 = true → Ready s x .vector true g f.twait [.u f.data.toNat f.fe] →
       (2 ^ 12 ≤ cw ∨ cw.testBit 11 = true → exec (.aload g f) s = bad s) ∧
       (cw < 2 ^ 12 → cw.testBit 11 = false →
        (¬turn die → exec (.aload g f) s = queued die) ∧
        (turn die → autoMine s x die n [.loaded, .faulted] = true → exec (.aload g f) s = .next (past x 1 (freeAuto p die n))) ∧
        (turn die → autoMine s x die n [.loaded, .faulted] = false → exec (.aload g f) s = bad p))) ∧
      (cw.testBit 10 = false → Ready s x .vector true g f.twait [.u f.data.toNat f.fe, .u f.base.toNat f.fe] →
       (2 ^ 12 ≤ cw → exec (.aload g f) s = bad s) ∧
       (cw < 2 ^ 12 → va % 64 ≠ 0 → exec (.aload g f) s = finish x 1 (.trap .align m va 0 s)) ∧
       (cw < 2 ^ 12 → va % 64 = 0 → deviceReleased s x = true →
        (¬turn die → exec (.aload g f) s = queued die) ∧
        (∀ h bs, turn die → cw.testBit 11 = false → heldBytes p x m va 64 = some h →
         heldBytes u x m va (imageSizes (ofBytesLE h)).2.2.2 = some bs →
         let v := dropWalks u x
         let a := loadedAuto x.grp.ctx bs va
         let ok := (autoOf v die n).st = .free ∧ imageOk bs (ctxOf v x.grp.ctx).regions.length = true ∧ (domOf v a.img.domain).cfg = true ∧
           (domOf v a.img.domain).die = die ∧ dieEntries v die ≤ 16384 ∧
           admitted (ctxOf v x.grp.ctx).regions a.img.region { cand := 0 } = true
         (ok → exec (.aload g f) s =
           .next (past x 1 (modAuto (charge v x.grp.ctx a.img.region { cand := 0 }) die n (fun _ => a)))) ∧
         (¬ok → exec (.aload g f) s = bad v)) ∧
        (∀ t, turn die → cw.testBit 11 = true → loadState p x m die n va = .done t → exec (.aload g f) s = .next (past x 1 t))))) ∧
     (let cw := if i.imm.getLsbD 23 then (sreg x.grp i.srca.toNat).toNat else i.imm.toNat
      let die := bitsOf cw 8 2
      let n := bitsOf cw 0 8
      let p := given die
      let a := autoOf p die n
      Ready s x .vector true g 0 (if i.imm.getLsbD 23 then [.u i.srca.toNat i.fe] else []) →
      (2 ^ 10 ≤ cw → exec (.aarm g i) s = bad s ∧ exec (.adisarm g i) s = bad s) ∧
      (cw < 2 ^ 10 → ¬turn die → exec (.aarm g i) s = queued die ∧ exec (.adisarm g i) s = queued die) ∧
      (cw < 2 ^ 10 → turn die →
       (autoMine p x die n [.loaded] = false ∨ detElsewhere p die a = true → exec (.aarm g i) s = bad p) ∧
       (autoMine p x die n [.loaded] = true → detElsewhere p die a = false → (domOf p a.img.domain).halt = .run →
         (domOf p a.img.domain).work = [] →
         let late := a.cands.filter (fun c => (deadlineOf a.img c).elim false (fun t => t < processingPoint p a.img.domain))
         let t := modAuto p die n (fun a => { a with st := .armed })
         (late = [] → exec (.aarm g i) s = .next (past x 1 t)) ∧
         (late ≠ [] → let ws := late.map (fun c => Work.expire n c.seq)
           exec (.aarm g i) s = .next (past x 1 (runWork (workFuel ws) t a.img.domain ws)))) ∧
       (autoMine p x die n [.armed] = false → exec (.adisarm g i) s = bad p) ∧
       (autoMine p x die n [.armed] = true → (∀ w, w ∈ (domOf p a.img.domain).work → w.ofSlot n = false) →
         exec (.adisarm g i) s = .next (past x 1 (modAuto p die n (fun a => { a with st := .loaded })))))) ∧
     (let cw := (sreg x.grp f.data.toNat).toNat
      let die := bitsOf cw 8 2
      let n := bitsOf cw 0 8
      let va := (sreg x.grp f.base.toNat).toNat
      let img := (sreg x.grp (f.base.toNat + 1)).toNat
      let p := given die
      let a := autoOf p die n
      let bs := stateBytes a img
      Ready s x .vector true g f.twait [.u f.data.toNat f.fe, .u f.base.toNat f.fe, .u (f.base.toNat + 1) f.fe] →
      (2 ^ 10 ≤ cw → exec (.asave g f) s = bad s) ∧
      (cw < 2 ^ 10 → va % 64 = 0 → img % 64 = 0 → deviceReleased s x = true →
       (¬turn die → exec (.asave g f) s = queued die) ∧
       (turn die → autoMine p x die n [.loaded] = false → exec (.asave g f) s = bad p) ∧
       (∀ rs is, turn die → autoMine p x die n [.loaded] = true → s.poison = [] → heldRange p x m 1 va bs.length = some rs →
         heldRange (dropWalks p x) x m 1 img a.img.raw.length = some is →
         exec (.asave g f) s = .next (past x 1
           (structWrite (structWrite (dropWalks (dropWalks p x) x) x.w is a.img.raw) x.w rs bs)))))) ∧
  (∀ (s : State) (die : Nat) (w : Who) (c : Nat), (dieOf s die).autoGo = none → (dieOf s die).autoQ = [(w, c)] → atPlu s w = true →
    (dieOf (endAutos s die) die).autoGo = some w ∧ (dieOf (endAutos s die) die).autoQ = [])

/-! ### Combining, the host, video -/

/-- R383 to R387: CALLOC, its batch read and checked, marks its register empty and goes to the Cistern; CGATE goes to the Cistern with
its gate; CPOST gives its chunk to the Cistern of the die; each holds its warp until the answer. CQRY reads a slot's status as the cycle
began. R166, R179, R383, R384: at the end of the cycle the Cistern answers a CALLOC with the handle and c true where the slots are free,
and otherwise with 0 and c false or, for CALLOC.W, not yet; and it writes a CGATE's gate to an expected expert of an OPEN slot, or
refuses it, as it does of an expert that is not expected. A die beyond 3, a batch or token record that R168 or R169 refuses, and a
reserved bit of a gate or post word trap COMBINE; a misaligned batch traps ALIGN. -/
def Obligations.CombineInstructionsComplete : Prop :=
  (∀ (s : State) (x : Iss) (g : Guard) (a : FA) (f : FM),
    let m := guardMask x g
    let u := dropWalks s x
    let bad := fun (t : State) => finish x 1 (.trap .combine m 0 0 t)
    (∀ bs ts,
      let die := (sreg x.grp a.srcb.toNat).toNat
      let va := (sreg x.grp a.srca.toNat).toNat
      let b := batchOf (ofBytesLE bs) x.grp.ctx x.grp.region x.grp.launch
      let rows := (List.range b.n).map (fun t => tokenRows (bytesAt ts (64 * t) 64))
      let v := dropWalks u x
      Ready s x .vector true g 0 [.u a.srca.toNat a.fea, .u a.srcb.toNat a.feb] → x.sp.wait = none →
      (4 ≤ die → exec (.calloc g a) s = bad s) ∧
      (die < 4 → va % 64 ≠ 0 → exec (.calloc g a) s = finish x 1 (.trap .align m va 0 s)) ∧
      (die < 4 → va % 64 = 0 → deviceReleased s x = true → heldBytes s x m va 64 = some bs → batchOk (ofBytesLE bs) = false →
        exec (.calloc g a) s = bad u) ∧
      (die < 4 → va % 64 = 0 → deviceReleased s x = true → heldBytes s x m va 64 = some bs → batchOk (ofBytesLE bs) = true →
      heldBytes u x m (bitsOf (ofBytesLE bs) 256 64) (64 * b.n) = some ts →
      ((∃ t, t < b.n ∧ tokenOk (bytesAt ts (64 * t) 64) b.kmax = false) → exec (.calloc g a) s = bad v) ∧
      ((∀ t, t < b.n → tokenOk (bytesAt ts (64 * t) 64) b.kmax = true) →
      exec (.calloc g a) s = .next (awaitEnd (beginWait
        (onGroup { v with nextId := v.nextId + 1 } x (fun k => produceU k v.nextId a.dst.toNat 0)) x
        (.calloc v.nextId die a.rnd.toNat a.sat b rows)) x .nothing)))) ∧
    (let h := (sreg x.grp a.srca.toNat).toNat
     let v := (sreg x.grp a.srcb.toNat).toNat
     Ready s x .vector true g 0 [.u a.srca.toNat a.fea, .u a.srcb.toNat a.feb] → x.sp.wait = none →
      (bitsOf v 40 24 ≠ 0 → exec (.cgate g a) s = bad s) ∧
      (bitsOf v 40 24 = 0 → (dieOf s (bitsOf h 13 2)).combining = true → exec (.cgate g a) s = .next (setBlocked s x.w .nothing)) ∧
      (bitsOf v 40 24 = 0 → (dieOf s (bitsOf h 13 2)).combining = false →
      exec (.cgate g a) s = .next (awaitEnd (beginWait (modDie { s with nextId := s.nextId + 1 } (bitsOf h 13 2) (fun d =>
        { d with asks := d.asks ++ [{ who := x.w, id := s.nextId, op := .gate h v }] })) x (.answer s.nextId m)) x .nothing))) ∧
    (let n := if f.wid == 3 then 2 else 1
     let v := (sreg x.grp f.base.toNat).toNat
     Ready s x .vector true g f.twait [.u f.base.toNat f.fe, .v f.data.toNat n id f.fe,
       .pre (if (List.range 32).any (fun l => (List.range n).any (fun i => vEmpty x.wp (f.data.toNat + i) l)) then m else 0) .nothing f.fe] →
     x.sp.wait = none →
      (bitsOf v 56 8 ≠ 0 ∨ bitsOf v 15 9 ≠ 0 → exec (.cpost g f) s = bad s) ∧
      (bitsOf v 56 8 = 0 → bitsOf v 15 9 = 0 → pendingAcqs s x ≠ [] → exec (.cpost g f) s = .next (setBlocked s x.w .nothing)) ∧
      (bitsOf v 56 8 = 0 → bitsOf v 15 9 = 0 → pendingAcqs s x = [] →
      exec (.cpost g f) s = .next (awaitEnd (beginWait (modDie { s with nextId := s.nextId + 1 } (bitsOf v 13 2) (fun e =>
        { e with chunkQ := e.chunkQ ++ [{
          who := x.w
          id := s.nextId
          q := bitsOf v 48 8
          gen := bitsOf v 32 16
          expert := bitsOf v 24 8
          slot := bitsOf v 0 13
          wide := f.wid == 3
          data := (List.range 32).flatMap (fun l => bytesLE (4 * n) (vregN x.wp f.data.toNat n l))
          fromDie := x.die
          at_ := (dieOf s (bitsOf v 13 2)).cycle }] })) x (.answer s.nextId m)) x .nothing))) ∧
    (Ready s x .vector false g 0 [.u a.srca.toNat a.fea, .ud a.dst.toNat] →
      let h := (sreg x.grp a.srca.toNat).toNat
      exec (.cqry g a) s = .next (past x 1 (uniResult s x a.dst
        (BitVec.ofNat 64 (cslotOf s (bitsOf h 13 2) (bitsOf h 0 13)).atStart))))) ∧
  (∀ (s : State) (die : Nat) (w : Who),
    (∀ id creg keep b rows, waitOf s w = some (.calloc id die creg keep b rows) →
      let answer := fun (t : State) (h : Nat) (ok : Bool) => wakeSplit (modWarp (modGroup t w.core w.gslot (fun k => arriveU k id h))
        w.core w.gslot w.wid (fun y => setCond y creg ok)) w 1
      (∀ h t, callocTry s die b rows = some (h, t) → serveCalloc s die w = answer t h true) ∧
      (callocTry s die b rows = none → keep = false → serveCalloc s die w = answer s 0 false) ∧
      (callocTry s die b rows = none → keep = true → serveCalloc s die w = s)) ∧
    (∀ h v p,
      let c := cslotOf s die (bitsOf h 0 13)
      (List.range c.rows.length).find? (fun p => (c.rows.getD p (0, 0, 0)).1 == bitsOf v 32 8) = some p →
      (bitsOf h 32 16 = c.gen → c.st = .open_ → gateSlot s die h v = (none, modCslot s die (bitsOf h 0 13) (fun c =>
        { c with rows := listSet c.rows p ((c.rows.getD p (0, 0, 0)).1, BitVec.ofNat 32 v, (c.rows.getD p (0, 0, 0)).2.2) }))) ∧
      (bitsOf h 32 16 ≠ c.gen ∨ c.st ≠ .open_ → gateSlot s die h v = (some .combine, s))) ∧
    (∀ h v,
      let c := cslotOf s die (bitsOf h 0 13)
      (List.range c.rows.length).find? (fun p => (c.rows.getD p (0, 0, 0)).1 == bitsOf v 32 8) = none → gateSlot s die h v = (some .combine, s)))

/-- R388, R391: SYSCALL sends its record and marks its destination empty; TRAP takes USER with its code; BRKPT halts its warp at
its own PC where the partition is at INVASIVE, and takes BREAK otherwise. -/
def Obligations.SystemCallsAndTrapsComplete : Prop :=
  ∀ (s : State) (x : Iss) (g : Guard) (a : FA) (i : FI),
    let m := guardMask x g
    (Ready s x .vector true g 0 [.v a.srca.toNat 4 id a.fea, .u a.srcb.toNat a.feb, .vl a.dst.toNat 2] → x.wp.sysOut = none →
      deviceReleased s x = true →
      let service := (sreg x.grp a.srcb.toNat).toNat % 2 ^ 32
      let seq := (dieOf s x.die).sysSeq
      let t := modDie (onWarp { s with nextId := s.nextId + 1 } x (fun y =>
        { produceV y s.nextId a.dst.toNat 2 m with sysOut := some (seq, s.nextId) })) x.die (fun d =>
        { d with sysSeq := (seq + 1) % 2 ^ 32, sysOut := d.sysOut ++ [(seq, x.w, m, s.nextId)] })
      exec (.syscall g a) s = .next (past x 1 { t with sysMsgs := t.sysMsgs ++
        [{ die := x.die, seq := seq, toHost := decide (service ≥ 2 ^ 31), rec_ := syscallRecord s x m service seq a.srca.toNat }] })) ∧
    (Ready s x .all true g 0 [] →
      exec (.trap g i) s = .next (takeTrap (noteIssue s x) x.w .user m 0 (i.imm.toNat % 2 ^ 16) 1) ∧
      ((partOf s (ctxOf s x.grp.ctx).part).dbg = 2 → exec (.brkpt g i) s = .next (awaitEnd
        (onWarp (onSplit s x (fun q => { q with wait := some .brkpt })) x (fun y => { y with halted := true })) x .nothing)) ∧
      ((partOf s (ctxOf s x.grp.ctx).part).dbg ≠ 2 → exec (.brkpt g i) s = .next (takeTrap (noteIssue s x) x.w .brk m 0 (i.imm.toNat % 2 ^ 16) 1)))

/-- R109, R393, R394: VDSUB queues its descriptor with a decoder the partition may use; BQPUT puts an entry and BQGET takes one,
each with the queue's status word in its register. That a queue that is not enabled belongs to no partition and answers DISABLED is the model's reading (log 47), as is that (R110) a put
on a FULL queue and a get on any other wait for the end of the cycle (log 48), at which, of a put and a get that meet there, the get goes first on a FULL queue and the put on any other. -/
def Obligations.VideoInstructionsComplete : Prop :=
  (∀ (s : State) (x : Iss) (g : Guard) (f : FM),
    let m := guardMask x g
    let u := dropWalks s x
    let v := (sreg x.grp f.data.toNat).toNat
    let va := (sreg x.grp f.base.toNat).toNat
    Ready s x .vector true g f.twait [.u f.data.toNat f.fe, .u f.base.toNat f.fe] → va % 64 = 0 → deviceReleased s x = true →
    (∀ bs, v < 2 ^ 5 → (partOf s (ctxOf s x.grp.ctx).part).decmask.testBit (8 * (v / 8 % 4) + v % 8) = true →
      (decOf s (v / 8 % 4) (v % 8)).queue.length < 16 → heldBytes s x m va 64 = some bs →
      let tok := tokOf f.tse f.tslot
      exec (.vdsub g f) s = .next (past x 1 (modDec (addToken u x.w tok 1) (v / 8 % 4) (v % 8) (fun d => { d with
        queue := d.queue ++ [{
          va := va
          ctx := x.grp.ctx
          region := x.grp.region
          launch := x.grp.launch
          tok := tok.map (fun k => (x.w, k)) }]
        st := if d.st = .idle then .busy else d.st })))) ∧
    (let die := v / 32 % 4
     let q := v % 32
     let b := bqOf s die q
     let t := onGroup { u with nextId := u.nextId + 1 } x (fun k => produceU k u.nextId f.data.toNat 0)
     let answer := fun (r : State) (st : Nat) =>
       (.next (past x 1 (onGroup r x (fun k => arriveU k u.nextId ((bqOf r die q).ents.length * 2 ^ 32 + st)))) : Out)
     let taken := fun (r : State) (w : Who) (rs : List (Nat × Nat)) (e : List Byte) =>
       acquireWide (settleDecoders (structWrite r w rs e) (ctxOfRole s w)) w
     let asked := fun (op : AskOp) => (.next (awaitEnd (beginWait (modDie t die (fun d =>
       { d with asks := d.asks ++ [{ who := x.w, id := u.nextId, op := op }] })) x (.answer u.nextId m)) x .nothing) : Out)
     v < 2 ^ 7 → x.sp.wait = none → (b.enabled = true → b.part = (ctxOf s x.grp.ctx).part) →
     (∀ e, heldBytes s x m va 64 = some e →
       (b.enabled = false → exec (.bqput g f) s = answer t 2) ∧
       (b.enabled = true → b.ents.length < b.cap →
         exec (.bqput g f) s = answer (modBq t die q (fun b => { b with ents := b.ents ++ [e] })) 0) ∧
       (b.enabled = true → b.cap ≤ b.ents.length → exec (.bqput g f) s = asked (.put q e))) ∧
     (∀ rs, heldRange s x m 1 va 64 = some rs → s.poison = [] →
       (b.enabled = false → exec (.bqget g f) s = answer t 2) ∧
       (∀ e r, b.enabled = true → b.cap ≤ b.ents.length → b.ents = e :: r → exec (.bqget g f) s =
         answer (taken (modBq t die q (fun b => { b with ents := r })) x.w rs e) 0) ∧
       (b.enabled = true → b.ents.length < b.cap → exec (.bqget g f) s = asked (.get q rs))))) ∧
  (∀ (s : State) (die q : Nat) (p r : Ask) (e : List Byte) (rs : List (Nat × Nat)),
    let b := bqOf s die q
    let t := modDie s die (fun d => { d with asks := [] })
    p.op = .put q e → r.op = .get q rs → (dieOf s die).asks = [p, r] ∨ (dieOf s die).asks = [r, p] →
    (b.cap ≤ b.ents.length → meetQueue s die q = answerQueue (answerQueue t die r) die p) ∧
    (b.ents.length < b.cap → meetQueue s die q = answerQueue (answerQueue t die p) die r)) ∧
  (∀ (s : State) (die : Nat) (a : Ask),
    let told := fun (t : State) (q st : Nat) => answerQueue s die a = answerRole (modGroup t a.who.core a.who.gslot
      (fun k => arriveU k a.id ((bqOf t die q).ents.length * 2 ^ 32 + st))) a.who a.id none
    (∀ q e, a.op = .put q e → (bqOf s die q).enabled = true →
      ((bqOf s die q).ents.length < (bqOf s die q).cap → told (modBq s die q (fun b => { b with ents := b.ents ++ [e] })) q 0) ∧
      ((bqOf s die q).cap ≤ (bqOf s die q).ents.length → told s q 1)) ∧
    (∀ q rs, a.op = .get q rs → (bqOf s die q).enabled = true →
      (∀ e r, (bqOf s die q).ents = e :: r →
        told (acquireWide (settleDecoders (structWrite (modBq s die q (fun b => { b with ents := r })) a.who rs e) (ctxOfRole s a.who)) a.who) q 0) ∧
      ((bqOf s die q).ents = [] → told s q 1)))

/-! ### Rings, registers and packets -/

/-- R7, R105, R454, R457: the register steps of the PF: a TAIL write and EN's rise wake an IDLE ring that has work, the other
fields of a ring register are written, a virtual function's four rings become shadow rings while it is enabled, and a partition
register is written where no context of the partition is in use and it stays apart from the others; other functions' writes of
ring registers change nothing, and in D3COLD no write does (R460). R464: a partition's enabling is measured. -/
def Obligations.RegisterStepsComplete : Prop :=
  ∀ (s : State) (fn ring : Nat) (tail : BitVec 16) (v : BitVec 128) (vf : Nat) (on : Bool),
    let wake := fun (r : Ring) => if r.st = .idle ∧ r.tail % 2 ^ (r.logsz + 6) ≠ r.head then { r with st := .running } else r
    (s.power = .d3cold → exec (.ringDoorbell fn ring tail) s = .next s ∧ exec (.ringEnable fn ring) s = .next s ∧
      exec (.registerWrite fn ring v) s = .next s ∧ exec (.vfEnable vf on) s = .next s ∧ exec (.partitionRegisterWrite vf v) s = .next s) ∧
    (ring < 64 → s.power ≠ .d3cold →
      exec (.ringDoorbell 0 ring tail) s = .next (modRing s ring (fun r => wake { r with tail := tail.toNat })) ∧
      ((ringOf s ring).en = false → exec (.ringEnable 0 ring) s = .next (modRing s ring (fun r =>
        wake { r with en := true, st := if r.st = .disabled ∨ r.st = .stopped then .idle else r.st }))) ∧
      exec (.registerWrite 0 ring v) s = .next (modRing s ring (fun r => { r with
        base := v.toNat / 2 ^ 64
        pasid := v.toNat / 2 ^ 12 % 2 ^ 20
        fe := v.toNat / 2 ^ 8 % 2 ^ 4
        logsz := v.toNat / 2 ^ 4 % 2 ^ 4
        en := r.en && v.getLsbD 0 }))) ∧
    (fn ≠ 0 → exec (.ringDoorbell fn ring tail) s = .next s ∧ exec (.ringEnable fn ring) s = .next s ∧
      exec (.registerWrite fn ring v) s = .next s) ∧
    (vf < 16 → s.power ≠ .d3cold → exec (.vfEnable vf on) s = .next ((List.range 4).foldl (fun s i => modRing s (4 * vf + i)
      (fun r => { r with shadow := on })) (modPart s vf (fun p => { p with vf := on })))) ∧
    (let new := partWritten (partOf s vf) v.toNat
     vf < 16 → s.power ≠ .d3cold → (∀ e, e ∈ s.ctxs → e.2.st ≠ .free → e.2.part ≠ vf) → new.base ≤ new.limit →
     (∀ q, q < 16 → q ≠ vf → partsApart new (partOf s q) = true) →
     let t := modPart s vf (fun _ => new)
     exec (.partitionRegisterWrite vf v) s = .next (bindDecoders
       (if new.en = true ∧ (partOf s vf).en = false then
          modPart (extendMeas t 4 (bytesLE 16 new.bits)) vf (fun q => { q with meas5 := extended q.meas5 (bytesLE 16 new.bits) })
        else t)))

/-- R94, R95, R99, R101, R102, R416, R485: the packets about events complete: POST_EVENT hands its record to its stream's PLU and
completes with its intake, DOMAIN_CONFIG configures a domain with no reorder buffer, STREAM_BIND opens a stream, STREAM_CLOSE hands
a close marker to the PLU. -/
def Obligations.EventPacketsComplete : Prop :=
  ∀ (s : State) (k : Pkt) (p : Nat),
    let v := k.payload.toNat
    let u := opened s k
    let taken := fun (t : State) (die : Nat) (marker : Bool) (e : EventRec) => modDie t die (fun d => { d with intakeQ := d.intakeQ ++ [{
      cls := 4
      key := k.ring
      marker := marker
      ev := e
      emitter := none
      tok := none
      port := none
      done := some (k.ring, k.tag, k.caddr)
      at_ := (dieOf s die).cycle }] })
    (let e := eventOfBits v
     PacketReady s k false p → eventRsvOk v = true → e.kind.toNat < 0xE0 →
     ((streamOf s e.stream.toNat).st = .open_ → (ctxOf s (streamOf s e.stream.toNat).ctx).part = p) →
     exec (.postEvent k) s = .next (taken u (dieOfStream u e.stream.toNat 0) false { e with remote := false, hostRel := true })) ∧
    (PacketReady s k true p → bitsOf v 6 2 = 0 → bitsOf v 12 244 = 0 → (domOf s (v % 2 ^ 6)).buffer = false →
     exec (.domainConfig k) s = .next (ringDone (modDom u (v % 2 ^ 6) (fun q =>
       { q with cfg := true, kind := domKindOf (bitsOf v 8 2), die := bitsOf v 10 2 })) k.ring k.tag k.caddr 0 0)) ∧
    (let n := bitsOf v 0 14
     let d := bitsOf v 16 6
     let c := ctxOf s (bitsOf v 24 8)
     PacketReady s k true p → bitsOf v 14 2 = 0 → bitsOf v 22 2 = 0 → bitsOf v 32 32 = 0 → bitsOf v 128 128 = 0 →
     c.st ≠ .free → c.st ≠ .draining → c.part = p → (domOf s d).cfg = true → (streamOf s n).st ≠ .open_ →
     ((domOf s d).buffer = false → buffersOn s (domOf s d).die < 16) →
     exec (.streamBind k) s = .next (ringDone (refreshDom (modDom (modStream u n (fun _ => {
       st := .open_
       dom := d
       ctx := bitsOf v 24 8
       last := bitsOf v 64 64
       devseq := 0
       latest := none
       closing := false })) d (fun q => { q with buffer := true })) d) k.ring k.tag k.caddr 0 0)) ∧
    (let n := bitsOf v 0 14
     let t := streamOf s n
     PacketReady s k true p → bitsOf v 14 242 = 0 → t.st = .open_ → t.closing = false → (ctxOf s t.ctx).part = p →
     exec (.streamClose k) s = .next (taken (modStream u n (fun t => { t with closing := true })) (domOf s t.dom).die true
       { eventOfBits 0 with stream := BitVec.ofNat 14 n }))

/-- R75 to R79, R81, R84 to R86, R90, R92, R101: the packets about contexts complete: CREATE with the lowest FREE context number,
the RCBs read and their RO fields written; PREEMPT, RESUME and TEARDOWN begin, and complete when the context has reached SAVED,
RESIDENT or FREE; REGION_UPDATE takes a new tree with the charges moved; REGION_RESET clears a stopped region. That CREATE and
REGION_RESET start the slice on the context's die (log 24) and that CREATE keeps the least number of log entries (log 93) are the model's
choices. -/
def Obligations.ContextPacketsComplete : Prop :=
  ∀ (s : State) (k : Pkt) (p x : Nat),
    let v := k.payload.toNat
    let u := opened s k
    let done := fun (t : State) (result : Nat) => (.next (ringDone t k.ring k.tag k.caddr 0 result) : Out)
    let c := ctxOf s (bitsOf v 0 8)
    (let a := bitsOf v 0 64
     let d := memNat s.mem a 64
     let n := newContext d []
     PacketReady s k true p → bitsOf v 64 192 = 0 → n.part = p → freeCtx s = some x → inHole a = false → descOk d = true →
     ctxOfPasid s n.pasid = none → ∀ rs, readTree s n.rcbbase (n.nregions + 1) = some rs →
     64 + (rs.getD 0 (rcbOf 0)).regkib + (rs.getD 0 (rcbOf 0)).sramkib + 2 * (rs.getD 0 (rcbOf 0)).groups +
       2048 * (coresOf s p).length ≤ n.savesize →
     let t := modCtx u x (fun _ => newContext d rs)
     exec (.create k) s = done (writeBackTree (modCtx t x (fun c => { c with
       sliceAt := (dieOf t (clockDie t x)).cycle
       logMin := 64 + (rs.getD 0 (rcbOf 0)).regkib + (rs.getD 0 (rcbOf 0)).sramkib + 2 * (rs.getD 0 (rcbOf 0)).groups +
         2048 * (coresOf s p).length })) x) x) ∧
    (PacketReady s k true p → bitsOf v 8 248 = 0 → c.part = p →
      (c.st = .resident → exec (.preempt k) s = .next (beginSave (waitFor u (bitsOf v 0 8) 0 k) (bitsOf v 0 8))) ∧
      (c.st = .resuming → exec (.preempt k) s = .next (waitFor u (bitsOf v 0 8) 0 k)) ∧
      (c.st = .saved → exec (.resume k) s = .next (beginResume (waitFor u (bitsOf v 0 8) 1 k) (bitsOf v 0 8))) ∧
      (c.st = .resident ∨ c.st = .stopped ∨ c.st = .saved →
        exec (.teardown k) s = .next (beginTeardown (waitFor u (bitsOf v 0 8) 2 k) (bitsOf v 0 8))) ∧
      (c.st = .saving → exec (.teardown k) s = .next (waitFor u (bitsOf v 0 8) 2 k)) ∧
      (∀ rs, c.st = .resident ∨ c.st = .saved ∨ c.st = .stopped → readTree s c.rcbbase (c.nregions + 1) = some rs →
        exec (.regionUpdate k) s = done (modCtx u (bitsOf v 0 8) (fun c => { c with regions := moveCharges c.regions rs })) 0)) ∧
    (PacketReady s k true p → bitsOf v 16 240 = 0 → c.part = p → ∀ q, c.regions[bitsOf v 8 8]? = some q → q.stopped = true →
      (bitsOf v 8 8 ≠ 0 → c.st = .resident ∨ c.st = .saved ∨ c.st = .stopped →
        exec (.regionReset k) s = done (modRegion u (bitsOf v 0 8) (bitsOf v 8 8) (fun q => { q with stopped := false })) 0) ∧
      (bitsOf v 8 8 = 0 → c.st = .stopped →
        let t := modRegion u (bitsOf v 0 8) 0 (fun q => { q with stopped := false })
        exec (.regionReset k) s = done (modCtx t (bitsOf v 0 8) (fun c =>
          { c with st := .resident, sliceAt := (dieOf t (clockDie t (bitsOf v 0 8))).cycle })) 0))

/-! ### Contexts -/

/-- R85 to R92, R195, R430: the steps of contexts complete: a slice that has run out begins a save, or is kept while a warp is
HALTED; a drained save ends, in save-handler mode after its handlers; a resume whose groups are all placed and reloaded ends; a
teardown whose pulls and stores have ended frees the context and every translation of its PASID; lazily held state that a core
claims is written out; a pending firmware activation is tried again. That the slice is measured on the context's die (log 24) and that a PREEMPT that waits
completes with BAD_STATE where a held stop comes first (log 60) are the model's choices. -/
def Obligations.ContextStepsComplete : Prop :=
  ∀ (s : State) (x core : Nat),
    let c := ctxOf s x
    (c.st = .resident → c.slice ≠ 0 → c.sliceAt + c.slice * 1024 ≤ (dieOf s (clockDie s x)).cycle →
      ((∀ e y, e ∈ groupsOf s x → y ∈ e.2.2.warps → y.2.halted = false) → exec (.sliceExpiry x) s = .next (beginSave s x)) ∧
      (∀ e y, e ∈ groupsOf s x → y ∈ e.2.2.warps → y.2.halted = true → exec (.sliceExpiry x) s =
        .next (mapWarps s (fun _ _ g _ y => if g.ctx == x && y.halted then { y with expiryHeld := true } else y)))) ∧
    (c.st = .saving → drained s x = true →
      (c.shmode = false → exec (.saveComplete x) s = .next (finishSave s x)) ∧
      (c.shmode = true → c.handlers = false → exec (.saveComplete x) s = .next (startHandlers s x)) ∧
      (c.shmode = true → c.handlers = true → handlersDone s x = true → exec (.saveComplete x) s = .next (finishSave s x))) ∧
    (let t := placeSaved s x
     c.st = .resuming → (ctxOf t x).saved = [] →
     (∀ e y, e ∈ groupsOf t x → y ∈ e.2.2.warps → y.2.aside.isSome = true → y.2.run = .exited) →
     let t1 := modCtx t x (fun c => { c with st := .resident, sliceAt := (dieOf t (clockDie t x)).cycle, lazy := false })
     let t2 := heldStop (completeOpen (if (ctxOf t x).lazy then writeArea t1 x false else t1) x 1 0) x
     (awaits t2 x 0 = false → exec (.resumeComplete x) s = .next t2) ∧
     (awaits t2 x 0 = true → (ctxOf t2 x).st = .resident → exec (.resumeComplete x) s = .next (beginSave t2 x)) ∧
     (awaits t2 x 0 = true → (ctxOf t2 x).st ≠ .resident → exec (.resumeComplete x) s = .next (completeOpen t2 x 0 5))) ∧
    (c.st = .draining → (∀ q, q ∈ s.pulls → q.pasid ≠ c.pasid) →
      (∀ r, r ∈ s.inflight → (groupAt s r.who.core r.who.gslot).isSome = true) →
      exec (.invalidationComplete x) s = .next (modCtx (completeOpen { s with
        cores := s.cores.map (fun e => (e.1, { e.2 with tlb := e.2.tlb.filter (fun q => q.pasid != c.pasid) }))
        dies := s.dies.map (fun e => (e.1, { e.2 with
          walkCache := e.2.walkCache.filter (fun q => q.1 != c.pasid)
          walks := e.2.walks.filter (fun w => w.pasid != c.pasid)
          launchCtr := mapDel e.2.launchCtr x }))
        pageReqs := s.pageReqs.filter (fun q => q.1 != c.pasid) } x 2 0) x (fun _ => Context.reset))) ∧
    exec (.lazyWriteOutComplete core x) s = .next (if x ∈ (coreOf s core).claimed then writeOut s core x else s) ∧
    (s.fw.pending = true → exec .firmwareActivation s = .next (activate s))

/-! ### Pages -/

/-- R188, R189, R192, R193: the page commands, the end of a walk and the steps of a pull complete: a new command takes the
translations of its range off every TLB and walk cache and rolls back the context's speculators that hold stores (the model's choice, log
137); given again it is tested for its end; once the accesses before it have been performed RESOLVE makes the units that wait walk again
and FAIL refuses them, and it completes. A walk fills the TLB of every role that joined it, or tells them why not; a pull with a route
installs its page; one that fails is retried, or lost after the fourth attempt. That an attempt without a route can only fail is the
model's choice (log 116, with R205). -/
def Obligations.PageStepsComplete : Prop :=
  ∀ (s : State) (m : Mb) (cmd : BitVec 256) (die n : Nat) (page : List Byte),
    let v := cmd.toNat
    let pasid := bitsOf v 64 20
    let fin := fun (t : State) (c : PageCmd) => (.next (if cmdDone t c = true ∧ fwDown t = false
      then mbDone (pageCmdEffect { t with pageCmds := t.pageCmds.filter (fun q => q != c) } c) m 0 0 0 [] else t) : Out)
    (∀ action i, (action, i) ∈ [(0, Instr.pageInval m cmd), (1, .pageResolve m cmd), (2, .pageFail m cmd)] →
      (MailReady s m 1 → (∀ c, c ∈ s.pageCmds → c.mb ≠ m) → pageCmdOk s v action = true →
        let c : PageCmd := { mb := m, action := action, pasid := pasid, va := bitsOf v 192 64, npages := bitsOf v 128 64, upto := s.nextId }
        exec i s = fin (squashBuffered (invalidate { s with pageCmds := s.pageCmds ++ [c] } c) ((ctxOfPasid s pasid).getD 256)) c) ∧
      (∀ c, s.pageCmds.find? (fun q => q.mb == m && q.action == action) = some c → exec i s = fin s c)) ∧
    (∀ t c, let gone := fun (q p : Nat) => t.pageReqs.contains (q, p) && q == c.pasid && c.within p
      (c.action = 0 → pageCmdEffect t c = t) ∧
      (c.action = 1 → pageCmdEffect t c = wakeWaiters { t with pageReqs := t.pageReqs.filter (fun q => !gone q.1 q.2) } gone) ∧
      (c.action = 2 → pageCmdEffect t c = failWaiters { t with pageReqs := t.pageReqs.filter (fun q => !gone q.1 q.2) } gone
        (fun q p => q == c.pasid && c.within p) .pageNotPresent)) ∧
    (∀ w x, (dieOf s die).walks[n]? = some w → w.res = none → ctxOfPasid s w.pasid = some x → (ctxOf s x).st ≠ .draining →
      let same := fun (q : Walk) => q.pasid == w.pasid && q.page == w.page && q.res.isNone
      let r := walk s die w.pasid (ctxOf s x).ptroot (w.page * 4096)
      let joined := (dieOf s die).walks.filter same
      let settle := fun (t : State) => (.next (joined.foldl (fun t q => settleWaiter t die q.who) t) : Out)
      let answer := fun (t : State) (a : WalkRes) => modDie t die (fun d =>
        { d with walks := d.walks.map (fun q => if same q then { q with res := some a } else q) })
      (r.1 = .malformed → exec (.pageWalkComplete die n) s = .next (answer r.2 .protection)) ∧
      (r.1 = .lost → exec (.pageWalkComplete die n) s = .next (answer r.2 .lost)) ∧
      (r.1 = .notPresent → exec (.pageWalkComplete die n) s =
        settle (answer (pageRequest r.2 die x (w.page * 4096) w.kind w.path w.launch) .wait)) ∧
      (∀ pte rec_ level t, r.1 = .remote pte rec_ level → startPull r.2 die w.pasid (w.page * 4096) pte rec_ level = some t →
        exec (.pageWalkComplete die n) s = settle (answer t .wait)) ∧
      (∀ e, r.1 = .leaf e → exec (.pageWalkComplete die n) s = settle (joined.foldl
        (fun t q => tlbFill t q.who.core e)
        (modDie r.2 die (fun d => { d with walks := d.walks.filter (fun q => !same q) }))))) ∧
    (∀ p x, s.pulls[n]? = some p → p.active = true → ctxOfPasid s p.pasid = some x → (ctxOf s x).st ≠ .draining →
      let tries := memNat s.mem (p.rec_ + 25) 1 + 1
      let leaf := memNat s.mem (p.rec_ + 8) 8
      let gone := { s with pulls := listDrop s.pulls n }
      let put := fun (t : State) (at_ b : Nat) => unitWrite t (p.rec_ + at_) [BitVec.ofNat 8 b]
      let failed := fun (ok : Bool) =>
        (tries < 4 → exec (.pullAttemptComplete n page ok) s = .next { put s 25 tries with
          pulls := listSet (put s 25 tries).pulls n { p with active := false, nextAt := (dieOf s p.die).cycle + 2 ^ 16 } }) ∧
        (4 ≤ tries → exec (.pullAttemptComplete n page ok) s = .next (failWaiters
          (unitWrite (put (put gone 25 tries) 24 2) p.pte (bytesLE 8 (memNat s.mem p.pte 8 / 4 * 4 + 3)))
          p.covers p.covers .pageLost))
      failed false ∧ (p.via = none → failed true) ∧
      (p.via ≠ none → pullFrameOk s p.rec_ p.level = false →
        exec (.pullAttemptComplete n page true) s = .next (wakeWaiters gone p.covers)) ∧
      (p.via ≠ none → pullFrameOk s p.rec_ p.level = true → exec (.pullAttemptComplete n page true) s = .next (wakeWaiters (unitWrite (put (put (unitWrite gone
        (pteBase leaf) (page.take (leafSize p.level))) 25 tries) 24 1) p.pte (bytesLE 8 leaf)) p.covers))) ∧
    (∀ p, s.pulls[n]? = some p → p.active = false → p.nextAt ≤ (dieOf s p.die).cycle →
      exec (.pullRetry n) s = .next { s with pulls := listSet s.pulls n { p with
        active := true
        via := routePort s (bitsOf (memNat s.mem p.rec_ 32) 208 16) } })

/-! ### Debug commands -/

/-- R430 to R434: the debug commands complete: TRAPCFG with an empty log, TRACECFG with an empty buffer or the drop count,
RESOLVE of a TRAPPED role at once, or at its resume while it is saved, HALT and RELEASE of the roles named, STEP with the machine's
next step, READREG and WRITEREG of a register of a HALTED or TRAPPED role. That TRACECFG answers the drop count in the result field
(notes/assumptions/66.md), that a RESOLVE of a saved role answers OK at once (notes/assumptions/58.md) and that a STEP's issue is the
machine's next step (notes/assumptions/67.md) are the model's choices. -/
def Obligations.DebugCommandsComplete : Prop :=
  ∀ (s : State) (m : Mb) (cmd : BitVec 256),
    let d := dbgCmdOf cmd.toNat
    let c := ctxOf s d.ctx
    let done := fun (t : State) (result value : Nat) => (.next (mbDone t m 0 result value []) : Out)
    let n := bitsOf d.arg1 0 12
    (DebugReady s m cmd 0x30 0 → d.arg0 % 64 = 0 → 6 ≤ n → n ≤ 12 →
      exec (.trapcfg m cmd) s = done (modCtx (mapWarps s (fun _ _ g _ y => if g.ctx == d.ctx then cutRecord y else y)) d.ctx (fun c =>
        { c with
          tlog := some { base := d.arg0, size := 2 ^ n, head := 0, tail := 0, count := 0, heldIdx := [] }
          tmask := bitsOf d.arg1 32 32
          saved := c.saved.map cutSaved })) 0 0) ∧
    (DebugReady s m cmd 0x31 1 →
      (d.arg1 = 0 → exec (.tracecfg m cmd) s = done s (partOf s c.part).plogDrops 0) ∧
      (d.arg1 ≠ 0 → exec (.tracecfg m cmd) s = done (modPart s c.part (fun p =>
        { p with plogBase := d.arg0, plogSize := 2 ^ n, plogCount := 0, plogDrops := 0 })) 0 0)) ∧
    (let held := c.saved.find? (fun g => g.core == d.core && g.gslot == d.gslot && c.st != .saving)
     let said := fun (act : Nat) (i : Instr) => DebugReady s m cmd 0x32 0 → bitsOf d.arg0 0 3 = act →
       (∀ g y, held = none → dbgWarp s d = some (g, y) → isTrapped y = true →
         exec i s = done (resolveRole s d.core d.gslot d.warp act (BitVec.ofNat 64 d.arg1)) 0 0) ∧
       (∀ g y, held = some g → mapFind g.grp.warps d.warp = some y → isTrapped y = true →
         exec i s = done (modCtx s d.ctx (fun c => { c with resolveHeld := c.resolveHeld ++ [(m.fn, cmd)] })) 0 0)
     said 0 (.resolveRetry m cmd) ∧ said 1 (.resolveSkip m cmd) ∧ said 2 (.resolveGoto m cmd) ∧ said 3 (.resolveRestart m cmd) ∧
     said 4 (.resolveKill m cmd)) ∧
    (DebugReady s m cmd 0x33 2 → dbgRoles s d ≠ [] →
      exec (.halt m cmd) s = done ((dbgRoles s d).foldl (fun t w => modWarp t d.core d.gslot w (fun y =>
        { rollback (dieOf t (dieOfCore d.core)).cycle y with halted := true })) s) 0 0) ∧
    (let ws := (dbgRoles s d).filter (fun w => (warpAt s d.core d.gslot w).elim false (fun y => y.halted))
     DebugReady s m cmd 0x34 2 → ws ≠ [] →
      exec (.release m cmd) s = done (lateExpiry (ws.foldl (fun t w => releaseWarp t d.core d.gslot w) s) d.ctx) 0 0) ∧
    (∀ g y q, DebugReady s m cmd 0x35 2 → dbgWarp s d = some (g, y) → y.split d.split = some q → y.halted = true → y.run = .run →
      s.stepping = none → q.hold = .none → y.parked = none → (q.wait = none ∨ q.wait = some .brkpt) →
      exec (.step m cmd) s = .next { s with
        stepping := some (m, { core := d.core, gslot := d.gslot, wid := d.warp, slot := d.split }) }) ∧
    (∀ g y r, dbgWarp s d = some (g, y) → (y.halted = true ∨ isTrapped y = true) →
      (DebugReady s m cmd 0x36 2 → dbgReg g d = some (true, r) → exec (.readreg m cmd) s = done s 0 (sreg g r).toNat) ∧
      (DebugReady s m cmd 0x36 2 → dbgReg g d = some (false, r) →
        exec (.readreg m cmd) s = done s 0 (vreg y r (bitsOf d.arg0 10 5)).toNat) ∧
      (DebugReady s m cmd 0x37 2 → dbgReg g d = some (true, r) →
        exec (.writereg m cmd) s = done (modGroup s d.core d.gslot (fun g => setSreg { g with
          sempty := g.sempty.filter (fun q => q != r)
          uprods := g.uprods.filter (fun p => p.reg != r) } r (BitVec.ofNat 64 d.arg1))) 0 0) ∧
      (DebugReady s m cmd 0x37 2 → dbgReg g d = some (false, r) →
        let l := maskOf [bitsOf d.arg0 10 5]
        exec (.writereg m cmd) s = done (modWarp s d.core d.gslot d.warp (fun y => setVreg { y with
          prods := (y.prods.map (fun p => if p.reg == r then { p with mask := p.mask &&& ~~~l, wmask := p.wmask &&& ~~~l }
            else p)).filter (fun p => p.mask != 0) } r l (fun _ => BitVec.ofNat 32 d.arg1))) 0 0))

/-! ### The mailbox -/

/-- R458, R464: each SPDM request completes with the responder's answer, and both join the transcript, which GET_VERSION
begins; a virtual function's report names its own partition's measurements 4 and 5 (notes/assumptions/76.md). R91, R109, R111, R201,
R389, R390, R459 to R464: the SYSTEM operations and the replies to SYSCALL complete: POWER between D0, CORE-GATED and DIE-RETAIN, UNLOCK
with a token that verifies, LOCK and DEBUGLVL, FWSTAGE and FWACT of an image that verifies, PORT, BQCFG of a DISABLED queue, PWRCAP within
the limit, IDSIG; firmware's reply to a SYSCALL, the host's, and one whose SEQ is not outstanding. That a missing reply value reads as 0
(notes/assumptions/45.md), that FWACT answers OK while its activation is pending (notes/assumptions/75.md) and what answers a host's reply
(notes/assumptions/139.md) are the model's choices. -/
def Obligations.MailboxOperationsComplete : Prop :=
  (∀ (s : State) (m : Mb) (msg : List Byte), MailReady s m 3 →
     let said := fun (code : Nat) (i : Instr) (t : List Byte) =>
       let r := Sys2Proof.Config.spdmResponse code msg t m.fn (measOf s m.fn)
       exec i s = .next (mbDone { s with spdm := mapSet s.spdm m.fn (t ++ msg ++ r) } m 0 0 0 r)
     let t := mapGet s.spdm m.fn []
     said 0x84 (.getVersion m msg) [] ∧ said 0xE1 (.getCapabilities m msg) t ∧ said 0xE3 (.negotiateAlgorithms m msg) t ∧
     said 0x81 (.getDigests m msg) t ∧ said 0x82 (.getCertificate m msg) t ∧ said 0x83 (.challenge m msg) t ∧
     said 0xE0 (.getMeasurements m msg) t) ∧
  (∀ (s : State) (m : Mb) (w : BitVec 64) (vals : List W64),
     let v := w.toNat
     let p := bitsOf v 8 4
     let done := fun (t : State) => (.next (mbDone t m 0 0 0 []) : Out)
     (MailReady s m 5 →
       (bitsOf v 0 3 = 0 → s.power = .dieRetain → exec (.power m w) s = done (setPwr { s with power := .d0 } 0)) ∧
       (bitsOf v 0 3 = 1 → s.power = .d0 → (partOf s p).pwr = 0 → partBusy s p = false →
         exec (.power m w) s = done (modPart s p (fun q => { q with pwr := 1 }))) ∧
       (bitsOf v 0 3 = 2 → s.power = .d0 → (∀ e, e ∈ s.parts → e.2.en = true → e.2.pwr = 1) →
         exec (.power m w) s = done (setPwr { s with power := .dieRetain } 2)) ∧
       (let tok := memGetBytes s.mem v (64 + 384 + 16224)
        let b := Sys2Proof.Config.tokenBody (tok.take 64)
        Sys2Proof.Config.signaturesVerify false tok = true → b.2.1 = Sys2Proof.Config.identity → b.2.2 = s.unlockCtr → b.1 < 16 →
        (partOf s b.1).sec = 0 → (∀ e, e ∈ s.ctxs → e.2.st ≠ .free → e.2.part ≠ b.1) →
        exec (.unlock m w) s = done (modPart s b.1 (fun q => { q with sec := 1 }))) ∧
       ((partOf s p).sec = 0 → exec (.lock m w) s = done s) ∧
       ((partOf s p).sec = 1 → exec (.lock m w) s = .next (mbDone
         { modPart (releasePart s p) p (fun q => { q with sec := 0, dbg := 0 }) with
           unlockCtr := (modPart (releasePart s p) p (fun q => { q with sec := 0, dbg := 0 })).unlockCtr + 1 } m 0 0 0 [])) ∧
       (let l := bitsOf v 0 2
        l ≠ 3 → (l ≠ 0 → (partOf s p).sec ≠ 0) →
        exec (.debuglvl m w) s = done (modPart (if (partOf s p).dbg = 2 ∧ l < 2 then releasePart s p else s) p
          (fun q => { q with dbg := l }))) ∧
       (let n := memNat s.mem (v + 16) 8
        let img := memGetBytes s.mem v (20480 + n)
        inHole v = false → v + 20480 + n ≤ 2 ^ 52 → fwImageOk ((partOf s 0).sec == 2) img = true →
        exec (.fwstage m w) s = done { s with fw := { s.fw with
          staged := some (bytesAt img 0 4, bytesAt img 4 4, bytesAt img 8 8) } }) ∧
       (s.fw.staged ≠ none → exec (.fwact m w) s = done (activate s)) ∧
       (let n := bitsOf v 0 5
        let t := { s with linkStream := some (bitsOf v 16 14) }
        n < 18 → (portOf s n).st ≠ .absent →
        (w.getLsbD 8 = true → (portOf s n).st = .disabled ∨ (portOf s n).st = .down →
          exec (.port m w) s = done (portTo t n .training)) ∧
        (w.getLsbD 8 = false → (portOf s n).st ≠ .disabled → exec (.port m w) s = done (portDown t n .disabled))) ∧
       (let q := bitsOf v 0 5
        let die := bitsOf v 5 2
        let t := modBq s die q (fun _ => {
          enabled := true
          part := bitsOf v 8 4
          cap := bitsOf v 16 12 + 1
          lw := bitsOf v 28 12
          stream := bitsOf v 40 14
          ents := []
          start := 0 })
        (bqOf s die q).enabled = false →
        exec (.bqcfg m w) s = done (if bitsOf v 28 12 > 0 then lowWater t die q else t)) ∧
       (v % 2 ^ 16 ≤ powerLimit s → exec (.pwrcap m w) s = done { s with pwrcap := v % 2 ^ 16 }) ∧
       (inHole v = false → exec (.idsig m w) s = done (hostPut s v ((List.range 16224).map (fun i =>
         Sys2Proof.Config.slhSign (Sys2Proof.Config.sha384 (mapGet s.spdm m.fn [])) i))))) ∧
     (∀ (die : Nat) (seq : BitVec 32) (who : Who) (lanes : W32) (id : Nat) (msg : SysMsg) (y : Warp),
       (dieOf s die).sysOut.find? (fun e => e.1 == seq.toNat) = some (seq.toNat, who, lanes, id) →
       s.sysMsgs.find? (fun m => m.die == die && m.seq == seq.toNat) = some msg →
       warpAt s who.core who.gslot who.wid = some y → y.sysOut = some (seq.toNat, id) →
       let t := modDie s die (fun d => { d with sysOut := d.sysOut.filter (fun e => e.1 != seq.toNat) })
       let reply := fun (val : Nat → Nat) => l1Clear (freeWarp (modWarp
         (synced { t with sysMsgs := s.sysMsgs.filter (fun m => !(m.die == die && m.seq == seq.toNat)) } who) who.core who.gslot who.wid
         (fun y => homeLoads { arriveV y id ((lanesOf lanes).map (fun l => (l, val l))) with sysOut := none })) who.core who.gslot
         who.wid) who.core
       (msg.toHost = false → (dieOf s die).fwHeld = false →
         exec (.syscallReply ⟨none, die⟩ seq vals) s = .next (reply (firmwareReply s msg.rec_))) ∧
       (MailReady s m 4 → msg.toHost = true →
         (m.fn = 0 ∨ (groupAt s who.core who.gslot).any (fun g => (ctxOf s g.ctx).part == m.fn - 1) = true) →
         exec (.syscallReply ⟨some m, die⟩ seq vals) s = .next (mbDone (reply (fun l => (vals.getD l 0).toNat)) m 0 0 0 []))) ∧
     (∀ (die : Nat) (seq : BitVec 32), (dieOf s die).sysOut.find? (fun e => e.1 == seq.toNat) = none →
       exec (.syscallReply ⟨none, die⟩ seq vals) s = .next s ∧
       (MailReady s m 4 → exec (.syscallReply ⟨some m, die⟩ seq vals) s = done s)))

/-! ### Events -/

/-- R20, R94 to R97, R117, R118, R122 to R124, R130, R375: the steps of a PLU complete: the one entry of a cycle that the order of
R20 puts first is dropped, counted stale, taken as a heartbeat or kept, by the row of R95 that it meets, or, a close marker, closes
its stream; a die's cycle ends with what its units do then, and the next raises the streams of its DIECYCLE domains; the next event of a
domain in canonical order is offered to its armed automata, after every earlier deadline; a halted domain goes on at the step where it
halted. That the counters of dropped and stale records wrap at 2^64 (notes/assumptions/133.md), the order of rings within class 4
(notes/assumptions/134.md), the class of a peer record that comes in on another die (notes/assumptions/129.md) and the die that takes
in a record of an unbound stream (notes/assumptions/132.md) are the model's choices. -/
def Obligations.EventStepsComplete : Prop :=
  ∀ (s : State) (die n dom : Nat),
    let q := (dieOf s die).intakeQ
    let d := domOf s dom
    (∀ i, q[n]? = some i → intakeTurn s die n = true →
      let num := i.ev.stream.toNat
      let t := streamOf s num
      let stamp := intakeStamp s die i
      let u := takenIn (modDie s die (fun d => { d with intakeQ := listDrop d.intakeQ n, intook := true })) i
      (i.marker = false →
        (intakeRow s i stamp = .drop → t.st ≠ .unbound →
          exec (.eventIntake die n) s = .next (modDom u t.dom (fun d => { d with drop := (d.drop + 1) % 2 ^ 64 }))) ∧
        (intakeRow s i stamp = .drop → t.st = .unbound → exec (.eventIntake die n) s = .next u) ∧
        (intakeRow s i stamp = .stale →
          exec (.eventIntake die n) s = .next (modDom u t.dom (fun d => { d with stale := (d.stale + 1) % 2 ^ 64 }))) ∧
        (intakeRow s i stamp = .beat →
          exec (.eventIntake die n) s = .next (refreshDom (modStream u num (fun t => { t with last := stamp })) t.dom)) ∧
        (intakeRow s i stamp = .keep →
          exec (.eventIntake die n) s = .next (refreshDom (modDom (modStream u num (fun t => { t with last := stamp })) t.dom (fun d =>
            { d with
              buf := d.buf ++ [{ ev := { i.ev with stamp := BitVec.ofNat 64 stamp }, ord := d.nextOrd }]
              nextOrd := d.nextOrd + 1 })) t.dom))) ∧
      (i.marker = true → exec (.closeMarkerIntake die n) s = .next (refreshDom (modStream u num (fun t =>
        { t with st := if t.st == .open_ then .closed else t.st, closing := false })) t.dom))) ∧
    (let u := endCycle s die
     let cycle := ((dieOf u die).cycle + 1) % 2 ^ 64
     let t := modDie u die (fun d => { d with cycle := cycle, intook := false })
     let mine := fun (n : Nat) => (domOf t n).cfg && (domOf t n).kind == .diecycle && (domOf t n).die == die
     (s.power = .d3hot ∨ s.power = .d3cold → exec (.diecycleAdvance die) s = .next s) ∧
     (s.power ≠ .d3hot → s.power ≠ .d3cold →
       exec (.diecycleAdvance die) s = .next ((u.domains.map (fun e => e.1)).foldl (fun s n => if mine n then refreshDom s n else s)
       { t with streams := u.streams.map (fun e => (e.1, if e.2.st == .open_ && mine e.2.dom
         then { e.2 with last := Nat.max e.2.last cycle } else e.2)) }))) ∧
    (∀ b, d.cfg = true → d.halt = .run → d.work = [] → nextEvent s dom = some b →
      (∀ l, l ∈ deadlinesOf s dom → b.ev.stamp.toNat ≤ l.1) →
      let num := b.ev.stream.toNat
      let see := (armedOf s dom).filter (fun e => !seenBefore e.2 b.ev)
      let ws := see.map (fun e => Work.offer e.1 b.ev (e.2.cands.map (fun c => c.seq)))
      let t := see.foldl (fun t e => modAuto t d.die e.1 (fun a => { a with pos := some (b.ev.stamp.toNat, num, b.ev.seq.toNat) }))
        (modDom s dom (fun d => { d with buf := d.buf.filter (fun x => x.ord != b.ord), t := b.ev.stamp.toNat }))
      exec (.eventRelease dom) s = .next (runWork (workFuel ws) (if (streamOf t num).dom == dom then
        wakeEvwaits (modStream t num (fun t => { t with latest := some b.ev })) num b.ev else t) dom ws)) ∧
    (∀ dl i c, d.cfg = true → d.halt = .run → d.work = [] → firstDeadline s dom = some (dl, i, c) → dl + 1 < frontierOf s dom →
      (∀ b, nextEvent s dom = some b → dl + 1 ≤ b.ev.stamp.toNat) →
      exec (.candidateDeadline dom) s = .next (runWork (workFuel [.expire i c]) (modDom s dom (fun d => { d with t := dl + 1 })) dom
        [.expire i c])) ∧
    (∀ x r, d.halt = .entry x r → exec (.entryStallResume dom) s = .next (runWork (workFuel d.work) s dom d.work)) ∧
    (∀ x r, d.halt = .pend x r → exec (.pendStallResume dom) s = .next (runWork (workFuel d.work) s dom d.work))

/-! ### From launch to free slot -/

/-- R81, R82, R106 to R108, R130, R132, R146, R148 to R151: the steps of dispatch complete: a group offered is admitted and queued
or makes its launch wait, a waiting launch is tried again, the head of a queue is placed where it fits, a core with an empty queue
asks a victim and takes its tail group, unless the victim's own core takes it first, a claim is made on lazily held windows, a DET
dispatcher places its next group on the lowest core that it fits, the compactor holds the roles of the blocks that it is to move and moves
them once they are quiet, a RETIRING group's slot is freed, and a launch completes. Which of two launches of one region is the later one
goes by their acceptance (notes/assumptions/135.md), a model's choice. -/
def Obligations.DispatchStepsComplete : Prop :=
  ∀ (s : State) (die core x idx : Nat),
    (∀ y l r, byIndex ((offerable s die).filter (fun e => !e.2.waiting)) = (y, l) :: r → offersOn s = true →
      coreServes s core y = true →
      (∀ t, admitNext s y core l = some t → exec (.groupOffer die core) s = .next t) ∧
      (admitNext s y core l = none → exec (.groupOffer die core) s =
        .next (modLaunch s y l.idx (fun m => { m with waiting := true, at_ := (dieOf s die).cycle })))) ∧
    (∀ t, offersOn s = true → (byIndex ((offerable s die).filter (fun e => e.2.waiting))).findSome? (fun e =>
        if coreServes s core e.1 then admitNext s e.1 core e.2 else none) = some t →
      exec (.pendingLaunchRetry die core) s = .next t) ∧
    (∀ q r, queueOf s core = q :: r →
      (∀ t, placeGroup s core q.1 q.2.1 q.2.2 = some t →
        exec (.groupPlace core) s = .next (unqueue (if r.isEmpty then putOffSteals t core else t) core q)) ∧
      (∀ l p, placeGroup s core q.1 q.2.1 q.2.2 = none → launchOf s q.1 q.2.1 = some l → fits s core l.tmpl = none →
        fitsIn s core l.tmpl [] (heldSram s core) = some p → exec (.groupPlace core) s = .next (modCore s core (fun k => { k with
          claimed := distinct (k.claimed ++
            lazyOwners (coreOf s core) ((p.sbase - sliceBase core) / 4096) (sramKib l.tmpl / 4)) })))) ∧
    (∀ p, s.power = .d0 → partOfCore s core = some p → 1 < (coresOf s p).length → (coreOf s core).dead = false → (coreOf s core).runq = [] →
      (coreOf s core).stealOut = none → (coreOf s core).groups.length < 32 → (coreOf s core).stealAt ≤ (dieOf s (core / 64)).cycle →
      let v := stealVictim 65536 (coreOf s core).stealW core (partOf s p).base (coresOf s p).length
      exec (.stealRequest core) s = .next (modCore s core (fun k => { k with stealW := v.1, stealOut := some v.2 }))) ∧
    (∀ v, (coreOf s core).stealOut = some v →
      let now := (dieOf s (core / 64)).cycle
      let empty := modCore s core (fun k => { k with
        stealOut := none
        stealAt := now + 64 })
      (s.power ≠ .d0 ∨ now < (coreOf s core).answerAt → exec (.stealAnswer core) s = .next s) ∧
      (s.power = .d0 → (coreOf s core).answerAt ≤ now →
        (queueOf s v = [] → exec (.stealAnswer core) s = .next empty) ∧
        (∀ q t, queueOf s v = [q] → placeGroup s v q.1 q.2.1 q.2.2 = some t → exec (.stealAnswer core) s =
          .next (unqueue (putOffSteals t v) v q)) ∧
        (∀ q, (queueOf s v).getLast? = some q → (queueOf s v = [q] → placeGroup s v q.1 q.2.1 q.2.2 = none) →
          (∀ t, placeAt s core q.1 q.2.1 q.2.2 (coreOf s core).freedNow = some t →
            exec (.stealAnswer core) s = .next (unqueue (modCore t core (fun k => { k with stealOut := none })) v q)) ∧
          (placeAt s core q.1 q.2.1 q.2.2 (coreOf s core).freedNow = none → exec (.stealAnswer core) s = .next empty)))) ∧
    (∀ r q t, detNextOf s x r = some q → (ctxOf s x).st = .resident →
      (coresOf s (ctxOf s x).part).findSome? (fun c => placeGroup s c x q.1 q.2) = some t →
      exec (.detDispatch x r) s = .next (modCtx t x (fun c =>
        { c with detq := c.detq.filter (fun e => e != q), detAt := mapDel c.detAt r }))) ∧
    (∀ r q, detNextOf s x r = some q → (ctxOf s x).st = .resident →
      (coresOf s (ctxOf s x).part).findSome? (fun c => placeGroup s c x q.1 q.2) = none →
      let wait := fun (t : State) => modCtx t x (fun c =>
        { c with detAt := if (mapFind c.detAt r).isSome then c.detAt else mapSet c.detAt r (dieOf s (q.1 % 4)).cycle })
      ∀ l, launchOf s x q.1 = some l →
        let c := (coresOf s (ctxOf s x).part).find? (fun c => (fitsIn s c l.tmpl [] (heldSram s c)).isSome)
        (c = none → exec (.detDispatch x r) s = .next (wait s)) ∧
        (∀ c', c = some c' → exec (.detDispatch x r) s = .next (wait (claimRoom s c' l.tmpl)))) ∧
    (s.power = .d0 →
      let hold := fun (l : List (Nat × Nat)) => modCore s core (fun k => { k with pause := l })
      (∀ ms, (compactFor s core).findSome? (movesFor s core) = some (true, ms) →
        (movesQuiet s core (true, ms) = true →
          exec (.compactorMove core) s = .next (ms.foldl (fun s m => moveRegs s core m.1 m.2) (hold []))) ∧
        (movesQuiet s core (true, ms) = false →
          exec (.compactorMove core) s = .next (hold (ms.map (fun m => (m.1 / 64, m.1 % 64)))))) ∧
      (∀ ms, (compactFor s core).findSome? (movesFor s core) = some (false, ms) →
        (movesQuiet s core (false, ms) = true →
          exec (.compactorMove core) s = .next (ms.foldl (fun s m => moveWindow s core m.1 m.2) (hold []))) ∧
        (movesQuiet s core (false, ms) = false → exec (.compactorMove core) s = .next (hold (ms.flatMap (fun m =>
          (mapFind (coreOf s core).groups m.1).elim [] (fun g => g.warps.map (fun e => (m.1, e.1)))))))) ∧
      ((compactFor s core).findSome? (movesFor s core) = none →
        let stuck := (compactFor s core).any (fun t => (fits s core t).isNone && (sramMoves s core t (heldSram s core)).isSome)
        (stuck = false → exec (.compactorMove core) s = .next (hold [])) ∧
        (stuck = true → exec (.compactorMove core) s = .next (modCore (hold []) core (fun k =>
          { k with claimed := distinct (k.claimed ++ distinct ((coreOf s core).lazySram.map (fun e => e.1))) }))))) ∧
    (∀ slot g, groupAt s core slot = some g → g.retiring = true → mayFree s core slot = true →
      let t := modCore (dropGroup s core slot) core (fun k => { k with freedNow := k.freedNow ++ [slot] })
      let u := if (ctxOf t g.ctx).st = .saving then
          modCtx t g.ctx (fun c => { c with saved := c.saved.filter (fun e => !(e.core == core && e.gslot == slot)) }) else t
      let v := giveBack u g.ctx g.launch g.gidx g.region { grp := 1, sram := sramKib g.tmpl }
      exec (.groupSlotFree core slot) s = .next (modLaunch v g.ctx g.launch (fun l =>
        if l.admitted = l.count ∧ l.freed + 1 = l.count then
          { l with
            freed := l.freed + 1
            endedAt := (dieOf v l.die).cycle }
        else { l with freed := l.freed + 1 }))) ∧
    (∀ l, launchOf s x idx = some l → l.admitted = l.count → l.freed = l.count → datomsDone s x l = true →
      let u := match l.reserve with
        | some (r, g, rg, sr) => uncharge s x r { grp := g, reg := rg, sram := sr }
        | none => s
      let t := settleOwned (modCtx u x (fun c => { c with
        launches := c.launches.filter (fun m => m.idx != idx) })) x (some idx)
      exec (.launchComplete x idx) s = .next (if l.tmpl.cen then deviceEvent t l.die 3 srcPlu l.tmpl.cstream 0xE3 l.idx l.count true
        else t))

/-- R144, R145, R152 to R154, R161, R366, R426, R430: the steps of roles complete: a starved wait-list entry makes HANG pending, a
pending trap is taken at the boundary, a speculator's after its commit, the trap of a role that has stopped is recorded once what the
role issued before has ended, a role all of which stands at one barrier arrives, passes
it with no lane, or traps where its count is refused, a commit that waited for a copy is made, a unit that has been blocked for 2^20
cycles sends a probe and a unit reached forwards it once, and an MBARW's read ends its wait when the phase has passed. -/
def Obligations.RoleStepsComplete : Prop :=
  ∀ (s : State) (core gslot wid : Nat) (y : Warp), warpAt s core gslot wid = some y →
    (∀ e, starved y = some e → y.run = .run → y.halted = false → y.pend = none →
      exec (.hang core gslot wid) s = .next (modWarp s core gslot wid (fun y => { y with pend := some (.hang, e.sp.pc, e.sp.mask) }))) ∧
    (∀ c a lanes, y.pend = some (c, a, lanes) → y.run = .run → y.halted = false → underWay y = false → y.spec = none →
      (y.split y.lastSlot).isSome = true →
      let who : Who := { core := core, gslot := gslot, wid := wid, slot := y.lastSlot }
      let t := modSplit (modWarp (modGroup s core gslot (fun g => dropWait g ((y.split y.lastSlot).bind (fun q => q.wait)))) core gslot
        wid (fun y => { y with pend := none })) who (fun q => { q with wait := none })
      exec (.trapTaken core gslot wid) s = .next (takeTrap t who c
        (if c = .hang then lanes else (y.split y.lastSlot).elim lanes (fun q => q.mask)) a.toNat 0 (wordsAt t who))) ∧
    (∀ r n, y.run = .trapping r n →
      let who : Who := { core := core, gslot := gslot, wid := wid, slot := r.split }
      roleQuiet s who = true → exec (.trapTaken core gslot wid) s = .next (recordTrap s who r n)) ∧
    (∀ r, y.pend = some r → y.run = .run → y.halted = false → underWay y = false → y.spec ≠ none → exec (.trapTaken core gslot wid) s =
      .next (modWarp s core gslot wid (fun y => { y with spec := y.spec.map (fun p => { p with stopped := true }) }))) ∧
    (∀ k p, groupAt s core gslot = some k → y.spec = some p → p.due = true →
      exec (.barrierArrival core gslot wid) s = .next (commit s core gslot wid p)) ∧
    (∀ k pc b n sp g lanes, groupAt s core gslot = some k → y.run = .run → y.parked = none → y.spec = none →
      let who : Who := { core := core, gslot := gslot, wid := wid, slot := 0 }
      rankOk s who = true → standsAt y = some (pc, b, n, sp, g, lanes) →
      let p := predOf y g.pred.toNat
      let m := lanes &&& (if g.neg then ~~~p else p)
      let good := n ≤ 37 ∧ n ≤ launchedRoles k.tmpl ∧ ((barOf k b).a ≠ 0 → n = (barOf k b).e ∧ ((n = 0) ↔ (barOf k b).zero = true))
      (m = 0 → exec (.barrierArrival core gslot wid) s = .next (modWarp s core gslot wid (fun y => warpPast y b 1))) ∧
      (m ≠ 0 → good → roleWritesDone s core gslot wid = true →
        exec (.barrierArrival core gslot wid) s = .next (arrive (noteRank s who) core gslot wid b n (sp && !y.halted))) ∧
      (m ≠ 0 → good → roleWritesDone s core gslot wid = false → exec (.barrierArrival core gslot wid) s = .next s) ∧
      (∀ slot, m ≠ 0 → ¬ good → (List.range 4).find? (fun i => (y.split i).isSome) = some slot →
        exec (.barrierArrival core gslot wid) s =
          .next (takeTrap s { core := core, gslot := gslot, wid := wid, slot := slot } .illegal m 0 0 1))) ∧
    (∀ slot k sp va q dst id scope lanes pa e u, groupAt s core gslot = some k → y.split slot = some sp →
      sp.wait = some (.mbarw va q dst id scope lanes) → y.run = .run → y.halted = false →
      engineTranslate s core k.ctx va 2 0 k.launch = (.ok pa e, u) → e.noatom = false → inHostMem pa = false →
      let who : Who := { core := core, gslot := gslot, wid := wid, slot := slot }
      let r := pollReq who id pa q scope sp.acqs
      eligible u r = true → isPoisoned u (lineOf pa) = false →
      let t := sawHome (l1Drop (acquireAt u r) core (lineOf pa)) [(pa, 8)]
      let v := memNat t.mem pa 8
      (bitsOf v 48 16 ≠ q ∨ mbarMalformed v = true →
        exec (.mbarwPoll core gslot wid slot) s = .next (wakeSplit (modGroup t core gslot (fun k => arriveU k id v)) who 1)) ∧
      (bitsOf v 48 16 = q → mbarMalformed v = false → exec (.mbarwPoll core gslot wid slot) s = .next t)) ∧
    (∀ t now, blockedSince s (core, gslot, wid) = some (t, now) → t + 2 ^ 20 ≤ now →
      let u := (core, gslot, wid)
      let s1 := restartClock s u now
      let s2 := if (publishes s u).contains u then raiseCycle s1 u else s1
      let rest := (publishes s u).filter (fun v => v != u)
      exec (.probeSend core gslot wid) s = .next (if rest.isEmpty then s2
        else { s2 with probes := s2.probes ++ [{ sender := u, todo := rest, seen := [u] }] })) ∧
    (∀ n p u rest, s.probes[n]? = some p → p.todo = u :: rest →
      let more := if p.seen.contains u then [] else publishes s u
      let todo := rest ++ more.filter (fun v => v != p.sender && !p.seen.contains v && !rest.contains v)
      let q := { p with todo := todo, seen := if p.seen.contains u then p.seen else p.seen ++ [u] }
      let t := { s with probes := if todo.isEmpty then listDrop s.probes n else listSet s.probes n q }
      exec (.probeArrival n) s = .next (if more.contains p.sender then raiseCycle t p.sender else t))

/-! ### Memory -/

/-- R59, R67, R74, R305 to R308, R327, R328: the steps of memory complete: a request in flight is performed at its home when what
orders it has been performed, an atomic to host memory in two steps, a value returned arrives in its registers, a DATOM entry
enters a holding buffer of its home or spills a run, or faults the launch whose log is full, the entries of an ended launch are
applied in key order, and the host's bytes are written, a line written whole losing its poison mark. -/
def Obligations.MemoryStepsComplete : Prop :=
  ∀ (s : State) (n x idx pa : Nat) (bytes : List Byte),
    (∀ r, s.inflight[n]? = some r → eligible s r = true →
      (r.twoSteps = false → exec (.homeAccess n) s = .next (perform s r)) ∧
      (r.twoSteps = true → exec (.homeAccess n) s = .next { s with inflight := s.inflight.map (fun q => if q.id == r.id then { q with
        got := some (r.ranges.foldl (fun m a => memSetBytes m a.1 (memGetBytes s.mem a.1 a.2)) []) } else q) })) ∧
    (∀ r, s.returns[n]? = some r → exec (.loadReturn n) s = .next (modGroup (freeWarp (modWarp { s with returns := listDrop s.returns n }
      r.who.core r.who.gslot r.who.wid (fun y => arriveV y r.id r.vals)) r.who.core r.who.gslot r.who.wid) r.who.core r.who.gslot
      (fun k => arriveU k r.id ((r.vals.map (fun e => e.2)).headD 0)))) ∧
    (∀ e, s.datoms[n]? = some e →
      let h := homeOf e.pa
      let u := addToken { s with datoms := listDrop s.datoms n } e.who e.tok (-1)
      let here := u.dbufs.filter (fun b => b.home == h)
      let put := fun (t : State) (num : Nat) (old : List DEntry) => (.next { t with
        dbufs := t.dbufs.filter (fun q => !(q.home == h && q.num == num)) ++ [{
          home := h
          num := num
          ctx := e.ctx
          launch := e.launch
          pa := e.pa
          f64 := e.f64
          ents := insertBy (fun a b => decide (a.key ≤ b.key)) e.ent old }] } : Out)
      let mine := u.dbufs.find? (fun b => b.home == h && b.ctx == e.ctx && b.launch == e.launch && b.pa == e.pa)
      (∀ b, mine = some b → b.ents.length < 16 → exec (.datomEntryArrival n) s = put u b.num b.ents) ∧
      (∀ b t, mine = some b → 16 ≤ b.ents.length → spillRun u b = some t → exec (.datomEntryArrival n) s = put t b.num []) ∧
      (∀ b, mine = some b → 16 ≤ b.ents.length → spillRun u b = none →
        exec (.datomEntryArrival n) s = .next (datomLogFault u e.ctx e.launch (dieOfHome h))) ∧
      (∀ i, mine = none → (List.range 64).find? (fun i => here.all (fun b => b.num != i)) = some i →
        exec (.datomEntryArrival n) s = put u i []) ∧
      (∀ b, mine = none → (List.range 64).find? (fun i => here.all (fun b => b.num != i)) = none → b ∈ here →
        (∀ q, q ∈ here → q = b ∨ q.ents.length < b.ents.length ∨ (q.ents.length = b.ents.length ∧ b.num < q.num)) →
        (∀ t, spillRun u b = some t → exec (.datomEntryArrival n) s = put t b.num []) ∧
        (spillRun u b = none →
          let t := datomLogFault u b.ctx b.launch (dieOfHome h)
          ((launchOf t e.ctx e.launch).isSome = true → exec (.datomEntryArrival n) s =
            put { t with dbufs := t.dbufs.filter (fun q => !(q.home == h && q.num == b.num)) } b.num []) ∧
          ((launchOf t e.ctx e.launch).isSome = false → exec (.datomEntryArrival n) s = .next t)))) ∧
    (∀ l, launchOf s x idx = some l → mayApply s x l = true →
      let runs := l.logRuns.map (fun r => (r.pa, r.f64, r.ents)) ++
        (s.dbufs.filter (fun b => b.ctx == x && b.launch == idx)).map (fun b => (b.pa, b.f64, b.ents))
      let t := (distinct (runs.map (fun r => r.1))).foldl (fun t pa =>
        let mine := runs.filter (fun r => r.1 == pa)
        applyWord t pa ((mine.map (fun r => r.2.1)).headD false)
          (sortBy (fun a b => decide (a.key ≤ b.key)) (mine.flatMap (fun r => r.2.2)))) s
      exec (.datomApply x idx) s = .next (modLaunch { t with dbufs := t.dbufs.filter (fun b => !(b.ctx == x && b.launch == idx)) } x idx
        (fun l => { l with applied := true, logRuns := [] }))) ∧
    ((s.power ≠ .d3cold ∨ inHostMem pa = true) →
     let u := { s with poison := s.poison.filter (fun l => !(wholeLines [(pa, bytes.length)]).contains l) }
     (∀ l, l ∈ linesOf pa bytes.length → inHole (l * 128) = false ∧ isPoisoned u l = false) →
      exec (.hostWrite pa bytes) s = .next (hostWriteBytes u pa bytes))

/-! ### The engines of a core -/

/-- R191, R332, R339, R345 to R347, R358 to R360: the engines' steps complete: a copy that has moved every element with every write
of it performed, or that stopped, retires once what comes before its release has been performed; one that waited begins again; the array takes the head of its queue and, what reads its
blocks having read them, writes its result; the drain unit reads the blocks of the first drain not read, and an image that was
read is written, home unit by home unit, and its drain retires; a release takes effect when what was issued before it has retired and no copy, OST
or ALD of its group is at work in what it names. -/
def Obligations.EngineStepsComplete : Prop :=
  ∀ (s : State) (core n : Nat),
    let k := coreOf s core
    (∀ c d, k.copies[n]? = some c → c.waitPage = none → (c.fault = none ∨ abandoned s core c = false) →
      let t := runCopy s core c.id
      copyById t core c.id = some d → d.mayRetire t core = true → (d.fault.isSome = true ∧ abandoned t core d = false ∨
        d.fault = none ∧ d.done.length = d.count ∧ (d.dsp = 3 → xidUnacked t d.id = false)) →
      exec (.copyRetire core n) s = .next (retireCopy t core d)) ∧
    (∀ c p g, k.copies[n]? = some c → c.waitPage = some p → groupAt s core c.gslot = some g →
      pageOpen s (ctxOf s g.ctx).pasid p = false → abandoned s core c = false →
      exec (.copyReplay core n) s = .next (modCore s core (fun k => { k with copies := k.copies.map (fun q =>
        if q.id == c.id then { q with waitPage := none, done := [], asked := [], idx := if q.imem then [] else q.idx } else q) }))) ∧
    (∀ q r, k.mq = q :: r → exec (.arrayStart core) s = .next (modCore s core (fun k =>
      { k with mq := { q with running := true } :: r }))) ∧
    (∀ q r, k.mq = q :: r → q.running = true →
      (∀ d, d ∈ k.drains → d.id < q.id → d.img = none → shares (drainBlocks d.desc) q.kind.blocks = false) →
      exec (.arrayRetire core) s = .next (wakeDone (modCore s core (fun k =>
        (List.range (q.kind.count - q.blk)).foldl (fun k i => runBlock k q.kind (q.blk + i)) { k with mq := r })) core q.gslot)) ∧
    (∀ d g dst t, k.drains.find? (fun d => d.img.isNone) = some d → groupAt s core d.gslot = some g → d.waitPage = none →
      (∀ q, q ∈ k.mq → q.id < d.id → shares q.kind.blocks (drainBlocks d.desc) = false) →
      (drainRows s core g d.desc d.base).1 = .ok dst t →
      exec (.drainStart core) s = .next (modCore t core (fun q => { q with drains := q.drains.map (fun e =>
        if e.id == d.id then { e with waitPage := none, img := some (tileWords k d.desc) } else e) }))) ∧
    (∀ d img g dst res t, k.drains[n]? = some d → d.img = some img → groupAt s core d.gslot = some g → d.rows = none →
      drainBehind k d = false → obsClear s core d.id = true → drainRows s core g d.desc d.base = (.ok dst t, res) → t.poison = [] →
      let u := ((drainHomes dst).filter (fun h => !d.homes.contains h)).foldl
        (fun u h => drainShare u core (g.ctx, g.launch) h d img dst res)
        (modDrain t core d.id (fun q => { q with rows := some (dst, res) }))
      exec (.drainRetire core n) s = .next (retireDrain u core d none)) ∧
    (∀ r, k.mrels[n]? = some r →
      (∀ i, i ∈ r.before → (∀ q, q ∈ k.mq → q.id ≠ i) ∧ (∀ d, d ∈ k.drains → d.id ≠ i)) →
      (∀ c, c ∈ k.copies → c.gslot = r.gslot → shares c.slots r.slots = false) →
      (∀ q, q ∈ s.inflight → q.who.core = core → q.who.gslot = r.gslot →
        shares q.matItems.1 r.slots = false ∧ shares q.matItems.2 r.blocks = false) →
      exec (.mrelTakesEffect core n) s = .next (modCore s core (fun k => { k with
        mrels := listDrop k.mrels n
        slots := k.slots.map (fun e => (e.1, if r.slots.contains e.1 && e.2.holder == .held r.gslot
          then { e.2 with holder := .free } else e.2))
        blocks := k.blocks.map (fun e => (e.1, if r.blocks.contains e.1 && e.2.holder == .held r.gslot
          then { e.2 with holder := .free } else e.2)) })))

/-! ### Cistern and decoders -/

/-- R170 to R178, R386, R446 to R453: the steps of the Cistern and of the decoders complete: a post is accepted, counted as a
duplicate or as late, or trapped, at its turn; a slot all of whose positions are present, or whose deadline has come, is combined;
the lowest COMBINED slot that may be is written, page by page, and released, one in a cycle; a decoder takes the head of its queue, writes
the next frame of its submission with its descriptor, which a queue of another partition does not take, and ends it with its event. Which
batch's length bounds q in a late post (notes/assumptions/130.md) and which mask bytes are written (notes/assumptions/131.md) are the
model's choices. -/
def Obligations.CisternAndDecoderStepsComplete : Prop :=
  ∀ (s : State) (die n : Nat),
    (∀ k, (dieOf s die).chunkQ[n]? = some k → chunkTurn s die n = true →
      let t := modDie s die (fun d => { d with chunkQ := listDrop d.chunkQ n, arrived := d.arrived ++ [k.slot] })
      let told := fun (t : State) (c : Option Cause) => (.next (answerRole t k.who k.id c) : Out)
      (classify t die k = .trap → exec (.chunkArrival die n) s = told t (some .combine)) ∧
      (classify t die k = .dup → exec (.chunkArrival die n) s = told (modCslot t die k.slot (fun c =>
        { c with dups := Nat.min 255 (c.dups + 1) })) none) ∧
      (∀ p b, classify t die k = .accept p → (cslotOf s die k.slot).batch = some b →
        exec (.chunkArrival die n) s = told (acceptChunk t die k b p) none) ∧
      (let u := modCslot t die k.slot (fun c => { c with lates := Nat.min 255 (c.lates + 1) })
       (classify t die k = .late none → exec (.chunkArrival die n) s = told u none) ∧
       (∀ b, classify t die k = .late (some b) →
        exec (.chunkArrival die n) s = told (if b.lateev then deviceEvent u die 2 0 b.rstream 0xE5
          (b.token0 + (k.slot - b.first)) (b.gen * 2 ^ 32 + k.expert) false else u) none))) ∧
    (let c := cslotOf s die n
     let t := serveGates s die
     c.st = .open_ → (c.arrmask = c.expmask ∨ c.deadline ≤ (dieOf s die).cycle) → nextRelease s die = none →
      combineDue t die n = true →
      exec (.combineDeadline die n) s = .next (modDie (enterCombined t die n) die (fun d => { d with combining := true }))) ∧
    (∀ b, (cslotOf s die n).batch = some b → nextRelease s die = some n →
      let c := cslotOf s die n
      (c.result = 2 → exec (.slotRelease die n) s = .next (freeSlotEvent s die n b)) ∧
      (c.result ≠ 2 →
        let u := flushOut s die n b c.outQ
        ((cslotOf u die n).failed = true ∨ (cslotOf u die n).outQ = [] →
          exec (.slotRelease die n) s = .next (freeSlotEvent u die n b)) ∧
        ((cslotOf u die n).failed = false → (cslotOf u die n).outQ ≠ [] → exec (.slotRelease die n) s = .next u))) ∧
    (∀ sub rest bs t, (decOf s die n).queue = sub :: rest → (decOf s die n).st ≠ .disabled → (decOf s die n).job = none →
      (decOf s die n).waitPage = none → unitGet s die sub.ctx 5 sub.launch sub.va 64 = .ok bs t →
      let v := ofBytesLE bs
      let t1 := modDec (match sub.tok with
        | some (w, k) => addToken t w (some k) (-1)
        | none => t) die n (fun d => { d with queue := { sub with tok := none } :: rest, st := .busy })
      let ends := fun (status : Nat) => (.next (modDec t1 die n (fun d => { d with job := some {
        desc := v
        ctx := sub.ctx
        region := sub.region
        launch := sub.launch
        frames := []
        made := 0
        status := status
        newCtx := []
        frameNo := 0 } })) : Out)
      let stale := (streamFor t1 sub.ctx v).stale
      (vdOk v = false → exec (.submissionStart die n) s = ends 5) ∧
      (vdOk v = true → stale = true → exec (.submissionStart die n) s = ends 3) ∧
      (∀ src t2 area t3, vdOk v = true → stale = false → unitGet t1 die sub.ctx 5 sub.launch (bitsOf v 448 64) (bitsOf v 288 32) = .ok src t2 →
        unitGet t2 die sub.ctx 5 sub.launch (bitsOf v 384 64) (vCtxSize v) = .ok area t3 →
        exec (.submissionStart die n) s = .next (modDec t3 die n (fun d =>
          { d with job := some (decodeJob t3 { sub with tok := none } v src area) })))) ∧
    (∀ sub rest j f bs t, (decOf s die n).queue = sub :: rest → (decOf s die n).job = some j → j.made < j.outputs →
      j.frames[j.made]? = some f →
      putRows s die j.ctx j.launch (frameRows j.desc (bitsOf j.desc 320 64 + j.made * vStride j.desc) f) = .ok bs t →
      let made := fun (t : State) => (.next (modDec t die n (fun d => { d with st := .busy, job := some { j with made := j.made + 1 } })) : Out)
      let q := bitsOf j.desc 187 5
      let mine := (bqOf t die q).enabled = true ∧ (bqOf t die q).part = (ctxOf t j.ctx).part
      (j.desc.testBit 186 = false ∨ ¬ mine → exec (.framePut die n) s = made t) ∧
      (∀ u, j.desc.testBit 186 = true → mine → bqPut t die q (bytesLE 64 (frameDesc die n j j.made f)) = some u →
        exec (.framePut die n) s = made u)) ∧
    (∀ sub rest j, (decOf s die n).queue = sub :: rest → (decOf s die n).job = some j → j.outputs ≤ j.made →
      (j.status ≠ 0 → exec (.submissionEnd die n) s = .next (endSubmission s die n j j.status)) ∧
      (∀ bs t, j.status = 0 → unitPut s die j.ctx 5 j.launch (bitsOf j.desc 384 64) (j.newCtx.take (vCtxSize j.desc)) = .ok bs t →
        exec (.submissionEnd die n) s = .next (endSubmission t die n j 0)))

/-! ### The peer links and the platform -/

/-- R196, R198 to R202, R205: the steps of the links complete: a port that has trained is ACTIVE, one that has not in time is DOWN,
one that loses its signal retrains; a module that the package does not carry never becomes active; a bad flit is answered with NAK,
and the second failure of one SEQ brings RETRAIN; a NAK brings a replay at the end of its cycle, unless the signal is lost in it; a flit in sequence acts, counts as received and is acknowledged. -/
def Obligations.LinkStepsComplete : Prop :=
  ∀ (s : State) (p k : Nat) (f : BitVec 1280) (routes : List (Nat × Nat × Option Nat)),
    let q := portOf s p
    let want := (q.lastGood + 1) % 4096
    (q.st = .training → s.node ≠ 0xFFFF → exec (.portTrained p) s = .next (portTo (modPort s p (fun q =>
      { q with seq := 0, lastGood := 0xFFF, replay := [] })) p .active)) ∧
    (q.st = .training → s.node = 0xFFFF → exec (.portTrained p) s = .next (portTo (modPort
      { (freshFree s).2 with node := (freshFree s).1 % 0xFFFF } p (fun q =>
      { q with seq := 0, lastGood := 0xFFF, replay := [] })) p .active)) ∧
    (q.st = .retrain → exec (.portTrained p) s = .next (portTo (modPort s p (fun q => { q with
      sent := q.sent ++ q.replay.map (fun r => r.2)
      tx := q.tx + (q.replay.map (fun r => r.2)).length
      transient := q.transient + 1
      fails := [] })) p .active)) ∧
    (q.st = .training ∨ q.st = .retrain → exec (.trainingTimeout p) s = .next (portDown s p .down)) ∧
    (q.st = .active → exec (.lossOfSignal p) s = .next (portTo (modPort s p (fun q => { q with nak := none })) p .retrain)) ∧
    exec (.ucieModuleDown k) s = .next { s with ucie := listSet s.ucie k false } ∧
    (moduleMissing s k = false → s.power ≠ .d3cold →
      exec (.ucieModuleActive k) s = .next { s with ucie := listSet s.ucie k true }) ∧
    (moduleMissing s k = true ∨ s.power = .d3cold → exec (.ucieModuleActive k) s = .next s) ∧
    exec (.routeTableLoad routes) s = .next { s with routes := routes.foldl (fun m e => mapSet m e.1 e.2) [] } ∧
    (q.st = .active → flitOk f = false →
      let seq := flitFld f 23 12
      let counts := flitFld f 0 4 ≠ 0 ∧ flitFld f 0 4 ≠ 3 ∧ flitFld f 0 4 ≠ 4
      (counts → seq ∉ q.fails → exec (.flitReceive p f) s =
        .next (sendControl (modPort s p (fun q => { q with fails := q.fails ++ [seq] })) p 3)) ∧
      (counts → seq ∈ q.fails → exec (.flitReceive p f) s =
        .next (portTo (sendControl (modPort s p (fun q => { q with fails := q.fails })) p 3) p .retrain)) ∧
      (¬ counts → exec (.flitReceive p f) s = .next (sendControl (modPort s p (fun q => { q with fails := q.fails })) p 3))) ∧
    (q.st = .active → flitOk f = true →
      let t := if flitFld f 35 1 = 1 then ackFlits s p (flitFld f 36 12) else s
      (flitFld f 0 4 = 3 → exec (.flitReceive p f) s = .next (modPort s p (fun q => { q with nak := some f }))) ∧
      (q.nak = some f → endNak s p = (
        let s := modPort s p (fun q => { q with nak := none })
        modPort (if flitFld f 35 1 = 1 then ackFlits s p (flitFld f 36 12) else s) p (fun q =>
          if q.st = .active then { q with
            sent := q.sent ++ q.replay.map (fun r => r.2)
            tx := q.tx + (q.replay.map (fun r => r.2)).length }
          else q))) ∧
      (∀ u, flitFld f 0 4 = 1 ∨ flitFld f 0 4 = 2 → flitFld f 23 12 = want → landFlit t p f = some u →
        exec (.flitReceive p f) s = .next (sendControl (modPort u p (fun q => { q with
          lastGood := want
          fails := q.fails.filter (fun n => n != want)
          transient := if q.fails.contains want then q.transient + 1 else q.transient })) p 0)))

/-- R197, R435, R460, R462, R463, R465: the steps of the platform complete: D3HOT is entered when no context is left resident, and
left; with power removed all state but the host's memory is at reset; POWER_ON boots an image; the arithmetic clock falls by a
step; the leader renews its lease and a follower takes one that has lapsed; a detected error is counted, or poisons its line, or
takes its core out of service with what that held lazily poisoned, and is reported. Compare-and-swaps of the lease that meet go in the order of R307. -/
def Obligations.PlatformStepsComplete : Prop :=
  ∀ (s : State) (core pa die kind : Nat) (absent : BitVec 18) (openPart : Bool) (image : List Byte),
    (s.power = .d0 ∨ s.power = .dieRetain →
      let t := s.ctxs.foldl (fun t e => if e.2.st == .resident then beginSave t e.1 else t) { s with pmPending := true }
      ((∃ e, e ∈ t.ctxs ∧ (e.2.st = .saving ∨ e.2.st = .resuming ∨ e.2.st = .resident)) → exec .pmD3hot s = .next t) ∧
      ((∀ e, e ∈ t.ctxs → e.2.st ≠ .saving ∧ e.2.st ≠ .resuming ∧ e.2.st ≠ .resident) →
        let t1 := (t.cores.map (fun e => e.1)).foldl (fun t c => (t.ctxs.map (fun e => e.1)).foldl (fun t x => writeOut t c x) t) t
        let t2 := (List.range 18).foldl (fun t p =>
          if (portOf t p).st = .disabled ∨ (portOf t p).st = .absent then t else portDown t p .disabled) t1
        exec .pmD3hot s = .next (setPwr { t2 with power := .d3hot, pmPending := false } 3))) ∧
    (s.power = .d3hot →
      exec .pmD0 s = .next (setPwr { s with power := .d0 } 0) ∧
      exec .powerRemoved s = .next { State.reset with
        power := .d3cold
        mem := s.mem.filter (fun c => inHostMem c.1)
        schedule := s.schedule
        freeCtr := s.freeCtr }) ∧
    (s.power = .d3cold →
      let t1 := (List.range 16).foldl (fun t p => modPart t p (fun q => { q with sec := if openPart then 2 else 0 })) { s with
        power := .d0
        noModule := some Sys2Proof.Config.missingModules
        pwrLimit := some (if Sys2Proof.Config.formM then 3200 else Sys2Proof.Config.packageLimit image) }
      let t2 := (List.range 18).foldl (fun t p => modPort t p (fun q => { q with st := if absent.getLsbD p then .absent else .disabled })) t1
      let t3 := (List.range 4).foldl (fun t d => modDie t d (fun k => { k with fwHeld := !fwImageOk openPart image })) t2
      let t4 := { t3 with fw := {
        version := bytesAt image 0 4
        svn := bytesAt image 4 4
        layouts := bytesAt image 8 8
        layout := 3
        staged := none
        pending := false } }
      let t5 := extendMeas (extendMeas (extendMeas t4 0 Sys2Proof.Config.bootRom) 1 (image.take 20480)) 2
        ((image.drop 20480).take (bytesAt image 16 8))
      let t6 := (List.range 16).foldl (fun t p => modPart t p (fun q =>
        { q with meas4 := extended 0 (Sys2Proof.Config.fuses ++ [BitVec.ofNat 8 q.sec]) })) t5
      (fwImageOk openPart image = false → exec (.powerOn absent openPart image) s = .next t3) ∧
      (fwImageOk openPart image = true →
        exec (.powerOn absent openPart image) s = .next (extendMeas t6 3 (Sys2Proof.Config.fuses ++ secBytes t6)))) ∧
    (s.power ≠ .d3cold → exec .clockThrottle s = .next { s with clockMhz := Nat.max 650 (s.clockMhz - 50) }) ∧
    (s.power ≠ .d3cold →
     let d := dieOf s die
     let w := memNat s.mem 0x011FFFFFFF80 8
     (d.leads = true → d.fwHeld = false → d.leaseSince + 2600000 ≤ d.cycle →
       (w = d.leaseSeen → leaseTurn s die = true → exec (.leaseRenew die) s =
         let v := leaseOf (bitsOf w 32 32) (bitsOf w 16 16 + 1) (bitsOf w 0 2)
         .next (seeLease (unitWrite s 0x011FFFFFFF80 (bytesLE 8 v)) die v true)) ∧
       (w ≠ d.leaseSeen → exec (.leaseRenew die) s = .next (seeLease s die w false))) ∧
     (d.leads = false → d.fwHeld = false →
       let v := leaseOf (bitsOf w 32 32 + 1) 0 die
       let t := seeLease (unitWrite s 0x011FFFFFFF80 (bytesLE 8 v)) die v true
       (w ≠ d.leaseSeen → exec (.leaseLapse die) s = .next (seeLease s die w false)) ∧
       (w = d.leaseSeen → d.leaseSince + 13000000 ≤ d.cycle → leaseTurn s die = true →
         (s.linkStream = none → exec (.leaseLapse die) s = .next t) ∧
         (∀ n, s.linkStream = some n → exec (.leaseLapse die) s =
           .next (deviceEvent t die 3 100 n 0xEB die (bitsOf v 32 32) false))) ∧
       (w = d.leaseSeen → leaseTurn s die = false → exec (.leaseLapse die) s = .next s))) ∧
    (s.power ≠ .d3cold → exec (.detectedError kind core pa false) s = .next { s with
      errCount := mapSet s.errCount (kind * 1024 + core) (mapGet s.errCount (kind * 1024 + core) 0 + 1) } ∧
     (let t := if kind < 4 then modCore (removeCore s core) core (poisonHeld kind pa) else if isPoisoned s (lineOf pa) then s else { s with poison := s.poison ++ [lineOf pa] }
      (t.linkStream = none → exec (.detectedError kind core pa true) s = .next t) ∧
      (∀ n, t.linkStream = some n → exec (.detectedError kind core pa true) s = .next
        (if kind ≤ 4 then deviceEvent t (core / 64) 3 100 n 0xE9 core kind false else t))))

/-! ### Values -/

/-- R279, R257: IDIV and SDIV write the quotient rounded toward zero, IREM the remainder; a divisor of 0 gives all ones, or with
SAT the largest or least value by the sign of the dividend, with the dividend as remainder; the least value divided by -1 gives
itself, or with SAT the largest value, with remainder 0. -/
def Obligations.DivisionTowardZero : Prop :=
  ∀ (s : State) (x : Iss) (g : Guard) (f : FA),
    let n := tyRegs f.ty
    let w := tyWidth f.ty
    let least : Int := if tySigned f.ty then -(2 ^ (w - 1)) else 0
    let most : Int := if tySigned f.ty then 2 ^ (w - 1) - 1 else 2 ^ w - 1
    let quot := fun (p q : Nat) =>
      let a := readInt f.ty p
      let b := readInt f.ty q
      (if b = 0 then (if f.sat = false then 2 ^ w - 1 else if 0 ≤ a then wrapTo w most else wrapTo w least)
       else if tySigned f.ty = true ∧ a = least ∧ b = -1 then (if f.sat = false then wrapTo w least else wrapTo w most)
       else wrapTo w (Int.tdiv a b) : Nat)
    let rem := fun (p q : Nat) =>
      let a := readInt f.ty p
      let b := readInt f.ty q
      (if b = 0 then p % 2 ^ w else if tySigned f.ty = true ∧ a = least ∧ b = -1 then 0 else wrapTo w (Int.tmod a b) : Nat)
    (Ready s x .vector false g 0 [opA f n, opB f n, .vd f.dst.toNat n] →
      exec (.idiv g f) s = .next (past x 1 (vecResult s x g f.dst n (fun l =>
        extV f.ty (quot (lowT f.ty (valA f x n l)) (lowT f.ty (valB f x n l)))))) ∧
      exec (.irem g f) s = .next (past x 1 (vecResult s x g f.dst n (fun l =>
        extV f.ty (rem (lowT f.ty (valA f x n l)) (lowT f.ty (valB f x n l))))))) ∧
    (Ready s x .all false g 0 [.u f.srca.toNat f.fea, .u f.srcb.toNat f.feb, .ud f.dst.toNat] →
      exec (.sdiv g f) s = .next (past x 1 (uniResult s x f.dst (extS f.ty (quot (sval x f.ty f.srca) (sval x f.ty f.srcb))))))

/-- R281, R284: BFE extracts the field of b and c from a, sign-extended for a signed type, BFI inserts b into a under the mask of
c, and LEA adds b, extended by its type and shifted, to the 64-bit a. -/
def Obligations.BitFieldsAndAddress : Prop :=
  ∀ (s : State) (x : Iss) (g : Guard) (f : FB),
    let n := tyRegs f.ty
    let w := tyWidth f.ty
    let a := fun (n l : Nat) => vregN x.wp f.srca.toNat n l
    let c := fun (l : Nat) => vregN x.wp f.srcc.toNat 1 l
    (Ready s x .vector false g 0 [.v f.srca.toNat n id f.fea, opBb f 1, .v f.srcc.toNat 1 id f.fec, .vd f.dst.toNat n] →
      exec (.bfe g f) s = .next (past x 1 (vecResult s x g f.dst n (fun l =>
        let pos := Nat.min (valBb f x 1 l % 2 ^ 8) w
        let len := Nat.min (c l % 2 ^ 8) w
        let field : Int := readInt f.ty (a n l) / 2 ^ pos % 2 ^ len
        extV f.ty (if len = 0 then 0
          else if tySigned f.ty then wrapTo w (if field < 2 ^ (len - 1) then field else field - 2 ^ len) else field.toNat))))) ∧
    (Ready s x .vector false g 0 [.v f.srca.toNat n id f.fea, opBb f n, .v f.srcc.toNat 1 id f.fec, .vd f.dst.toNat n] →
      exec (.bfi g f) s = .next (past x 1 (vecResult s x g f.dst n (fun l =>
        let pos := Nat.min (c l % 2 ^ 8) w
        let len := Nat.min (c l / 2 ^ 8 % 2 ^ 8) w
        let m := (2 ^ len - 1) * 2 ^ pos % 2 ^ w
        (a n l &&& (2 ^ w - 1 - m)) ||| (valBb f x n l * 2 ^ pos &&& m))))) ∧
    (Ready s x .vector false g 0 [.v f.srca.toNat 2 id f.fea, opBb f 1, .vd f.dst.toNat 2] →
      exec (.lea g f) s = .next (past x 1 (vecResult s x g f.dst 2 (fun l =>
        wrapTo 64 ((a 2 l : Int) + readInt f.ty (valBb f x 1 l) * 2 ^ (f.srcc.toNat % 2 ^ 3))))))

/-- R223: PERM8 entry p is the affine map of its multiplier and its offset modulo 8; the 32 entries are 32 distinct permutations
of 0 to 7. -/
def Obligations.Perm8IsAffine : Prop :=
  (∀ p i, p < 32 → i < 8 → perm8 p i = (([1, 7, 3, 5] : List Nat).getD (p / 8) 0 * i + p % 8) % 8) ∧
  (∀ p i j, p < 32 → i < 8 → j < 8 → perm8 p i = perm8 p j → i = j) ∧
  (∀ p q, p < 32 → q < 32 → (∀ i, i < 8 → perm8 p i = perm8 q i) → p = q) ∧
  (List.range 8).map (perm8 17) = [1, 4, 7, 2, 5, 0, 3, 6] ∧ laneSrc 3 17 13 = 8

/-! ### What an instruction leaves as it was -/

/-- R208, R253, R273, R274: an instruction word whose effect is on its role's registers or splits, and that took no trap, changes no
memory, context, die, ring, stream, link or partition, no other core, group or role, nothing of its own core but the groups and
whose turn it is to issue, no uniform register, predicate or condition
but the one it names, and no vector register but the ones it names, in the lanes of its guard. -/
def Obligations.RegisterFrame : Prop :=
  ∀ (i : Instr) (h : Shape) (ds : List Dest) (s t : State) (x : Iss) (y : Warp),
    shapeOf i = some h → destsOf i = some ds → issuer s = some x → x.wp.run = .run → x.sp.wait = none → exec i s = .next t →
    warpAt t x.w.core x.w.gslot x.w.wid = some y → y.run = .run →
    { t with cores := s.cores } = s ∧
    (∀ c, c ≠ x.w.core → coreOf t c = coreOf s c) ∧
    (let k := coreOf s x.w.core
     { coreOf t x.w.core with
       groups := k.groups
       turn := k.turn
       tried := k.tried
       ranks := k.ranks
       lastWarp := k.lastWarp
       lastMt := k.lastMt } = k) ∧
    (∀ q, q ≠ x.w.gslot → groupAt t x.w.core q = groupAt s x.w.core q) ∧
    (∃ k, groupAt t x.w.core x.w.gslot = some k ∧ { k with warps := x.grp.warps, sregs := x.grp.sregs } = x.grp ∧
      (∀ r, Dest.uni r ∉ ds → sreg k r = sreg x.grp r) ∧
      (∀ v, v ≠ x.w.wid → mapFind k.warps v = mapFind x.grp.warps v)) ∧
    (∀ r l, l < 32 → inMask (guardMask x h.guard) l = false ∨ (∀ q n, Dest.vec q n ∈ ds → r < q ∨ q + n ≤ r) →
      vreg y r l = vreg x.wp r l) ∧
    (∀ p, Dest.pred p ∉ ds → predOf y p = predOf x.wp p) ∧ (∀ c, Dest.cond c ∉ ds → condOf y c = condOf x.wp c) ∧
    y.prods = x.wp.prods ∧ y.toks = x.wp.toks ∧ y.part = x.wp.part ∧ y.rbase = x.wp.rbase

/-- R305, R307, R309, R319, R322, R323: memory changes where a request reaches its home: an instruction word changes none at its issue (but for
the few that write a structure or a record then, or where a trap or the stop of a fault domain is recorded), and a request
changes no byte outside the words of its lanes, once what its acquire makes of earlier stores has been done. Its lanes act in
ascending order, each after those before it: a store leaves each lane's value, a later lane's where words meet; an atomic leaves the
result of its operation on the word that the lane finds, which goes back to its role; a load that no queue and no L1 serves gives back
the words as they stand. A host atomic unit reads first and changes nothing yet. -/
def Obligations.MemoryFrame : Prop :=
  (∀ (i : Instr) (h : Shape) (s t : State) (x : Iss) (y : Warp),
    shapeOf i = some h → writesAtIssue i = false → issuer s = some x → x.wp.run = .run → exec i s = .next t →
    warpAt t x.w.core x.w.gslot x.w.wid = some y → y.run = .run →
    (∀ (n : Nat) (p q : Rcb), (ctxOf s x.grp.ctx).regions[n]? = some p → (ctxOf t x.grp.ctx).regions[n]? = some q →
      q.stopped = p.stopped) → t.mem = s.mem) ∧
  (∀ (n : Nat) (s t : State) (r : Req), Inv s → s.inflight[n]? = some r → eligible s r = true →
    exec (.homeAccess n) s = .next t →
    let u := acquireAt s r
    (r.twoSteps = true → t.mem = s.mem ∧ t.returns = s.returns) ∧
    (r.twoSteps = false →
      (r.ord % 2 = 0 → u.mem = s.mem ∧ u.returns = s.returns) ∧ (r.writes = false → t.mem = u.mem) ∧
      (∀ a, (∀ l, l ∈ r.lanes → (a < l.pa ∨ l.pa + r.w ≤ a) ∧ (r.kind = .dcas ∨ r.kind = .amov → a < l.pa2 ∨ l.pa2 + r.w ≤ a)) →
        memGet t.mem a = memGet u.mem a) ∧
      (let run := fun (eff : LaneAcc → Nat → Nat → List (Nat × Nat) × Nat) =>
         r.lanes.foldl (fun (p : List Host.Cell × List Host.Cell × List (Nat × Nat)) l =>
           let e := eff l (memNat p.1 l.pa r.w) (memNat p.1 l.pa2 r.w)
           let put := fun (m : List Host.Cell) => e.1.foldl (fun m q => memSetBytes m q.1 (bytesLE r.w q.2)) m
           (put p.1, put p.2.1, p.2.2 ++ [(l.lane, e.2)])) (r.got.getD u.mem, u.mem, [])
       let back := fun (vals : List (Nat × Nat)) => t.returns = u.returns ++ [{ id := r.id, who := r.who, w := r.w, vals := vals }]
       let leaves := fun (eff : LaneAcc → Nat → Nat → List (Nat × Nat) × Nat) => t.mem = (run eff).2.1 ∧ back (run eff).2.2
       (r.kind = .store → t.mem = r.lanes.foldl (fun m l => memSetBytes m l.pa (bytesLE r.w l.v)) u.mem) ∧
       (∀ op, r.kind = .atom op true → leaves (fun l old _ => ([(l.pa, atomOp op r.w r.fmt old l.v)], old))) ∧
       (∀ op, r.kind = .atom op false →
         t.mem = (run (fun l old _ => ([(l.pa, atomOp op r.w r.fmt old l.v)], old))).2.1 ∧ t.returns = u.returns) ∧
       (r.kind = .cas → leaves (fun l old _ => (if old = l.v then [(l.pa, l.nv)] else [], old))) ∧
       (r.kind = .dcas → leaves (fun l old other =>
         (if overlaps l.pa r.w l.pa2 r.w = false ∧ old = l.v ∧ other = l.v2 then [(l.pa, l.nv), (l.pa2, l.nv2)] else [],
          old + other * 2 ^ (8 * r.w)))) ∧
       (r.kind = .amov → leaves (fun l old _ => ([(l.pa2, old)], old))) ∧
       (r.kind = .load → r.queueServed = false →
         back (r.lanes.map (fun l => (l.lane, memNat u.mem l.pa r.w)))))))

/-! ### Traps -/

/-- R426, R427, R429: a trap that its context handles stops the warp TRAPPED with its record: the record of R429 stands in the log at
its tail, the tail moves on, one more record is held, the sequence number counts on, every other byte of memory and every register
keeps its value, and the notice, KIND 0xE8 with a release, goes to the die of the context's event stream. While what the warp issued
before has not ended it stands with no record written (RoleStepsComplete says how TRAP_TAKEN writes it). -/
def Obligations.HandledTrapIsRecorded : Prop :=
  ∀ (s : State) (x : Iss) (g : Guard) (i : FI) (l : TrapLog),
    let n := x.grp.ctx
    let c := ctxOf s n
    Inv s → Ready s x .all true g 0 [] → c.tlog = some l → trapHandled c .user = true →
    (∀ a, a ∈ linesOf (l.base + 64 * l.tail) 64 → isPoisoned s a = false) →
    let r : TrapRec := {
      pc := x.sp.pc
      entry := x.sp.entry
      addr := 0
      launch := BitVec.ofNat 64 x.grp.launch
      ctr := x.sp.ctr
      mask := if x.w.wid < 32 then x.sp.mask else 1
      lanes := if x.w.wid < 32 then guardMask x g else 1
      code := BitVec.ofNat 16 i.imm.toNat
      cause := .user
      core := x.w.core
      warp := x.w.wid
      split := x.w.slot
      seq := BitVec.ofNat 32 c.tseq }
    (roleQuiet s x.w = false → ∃ t y, exec (.trap g i) s = .next t ∧ warpAt t x.w.core x.w.gslot x.w.wid = some y ∧
      y.run = .trapping { r with seq := 0 } 1 ∧ y.vregs = x.wp.vregs ∧ t.mem = s.mem ∧ (ctxOf t n).tlog = some l) ∧
    (roleQuiet s x.w = true → ∃ t y, exec (.trap g i) s = .next t ∧ warpAt t x.w.core x.w.gslot x.w.wid = some y ∧
      y.run = .trapped r 1 (some l.tail) ∧ y.vregs = x.wp.vregs ∧ y.preds = x.wp.preds ∧ y.conds = x.wp.conds ∧ y.splits = x.wp.splits ∧
      y.wlist.map (fun e => e.sp) = x.wp.wlist.map (fun e => e.sp) ∧
      memNat t.mem (l.base + 64 * l.tail) 64 = r.bits % 2 ^ 512 ∧
      (∀ a, a < l.base + 64 * l.tail ∨ l.base + 64 * l.tail + 64 ≤ a → memGet t.mem a = memGet s.mem a) ∧
      (ctxOf t n).tlog = some { l with tail := (l.tail + 1) % l.size, count := l.count + 1, heldIdx := l.heldIdx ++ [l.tail] } ∧
      (ctxOf t n).tseq = (c.tseq + 1) % 2 ^ 32 ∧
      (∃ e : Intake, e.ev.stream = BitVec.ofNat 14 c.ctxstream ∧ e.ev.kind = 0xE8 ∧ e.ev.rel = true ∧ e.marker = false ∧
        e.ev.p0 = BitVec.ofNat 64 l.tail ∧ e.ev.p1 = BitVec.ofNat 64 (x.w.wid * 2 ^ 16 + x.w.core * 2 ^ 8 + 0x0F) ∧
        let d := dieOfStream s (c.ctxstream % 2 ^ 14) (x.w.core / 64)
        (dieOf t d).intakeQ = (dieOf s d).intakeQ ++ [e]))

/-- R427, R432: a RESOLVE lets a TRAPPED warp go on: RETRY at the trapping instruction, SKIP after it, GOTO at an aligned address of
the user half, RESTART at its region's entry; its record is held no more, and its registers and memory keep their values. -/
def Obligations.ResolveResumes : Prop :=
  ∀ (s : State) (m : Mb) (cmd : BitVec 256) (g : Group) (y : Warp) (r : TrapRec) (words idx : Nat) (q : Split),
    let d := dbgCmdOf cmd.toNat
    let target : W64 := BitVec.ofNat 64 d.arg1
    DebugReady s m cmd 0x32 0 → (ctxOf s d.ctx).saved = [] → dbgWarp s d = some (g, y) → y.run = .trapped r words (some idx) →
    y.aside = none → y.split r.split = some q →
    let goesOn := fun (act : Nat) (i : Instr) (pc : W64) => bitsOf d.arg0 0 3 = act →
      ∃ t z, exec i s = .next t ∧ warpAt t d.core d.gslot d.warp = some z ∧ z.run = .run ∧
        z.split r.split = some { q with pc := pc, hold := .none, wait := none, blk := .none } ∧ z.vregs = y.vregs ∧ z.preds = y.preds ∧
        z.conds = y.conds ∧ t.mem = s.mem ∧ (∀ l, (ctxOf t d.ctx).tlog = some l → idx ∉ l.heldIdx)
    goesOn 0 (.resolveRetry m cmd) r.pc ∧ goesOn 1 (.resolveSkip m cmd) (r.pc + BitVec.ofNat 64 (8 * words)) ∧
    (d.arg1 % 8 = 0 → d.arg1 < 2 ^ 56 → goesOn 2 (.resolveGoto m cmd) target) ∧ goesOn 3 (.resolveRestart m cmd) r.entry
end

