-- ==== Sys2Proof/Laws/Maps.lean ====
section
/-!
SUPPORT. What the sparse maps and lists do: a read after a write, the keys kept rising.
-/
namespace Sys2Proof.Machine

theorem mapGet_mapSet_same {α : Type} (m : SMap α) (k : Nat) (v d : α) : mapGet (mapSet m k v) k d = v := by
  induction m with
  | nil => simp [mapSet, mapGet]
  | cons e r ih =>
    obtain ⟨j, x⟩ := e
    simp only [mapSet]
    split
    · simp [mapGet]
    · split
      · simp [mapGet]
      · rename_i _ h
        simp only [mapGet, if_neg (Ne.symm h), ih]

theorem mapGet_mapSet_other {α : Type} (m : SMap α) (k q : Nat) (v d : α) (h : q ≠ k) :
    mapGet (mapSet m k v) q d = mapGet m q d := by
  induction m with
  | nil => simp [mapSet, mapGet, Ne.symm h]
  | cons e r ih =>
    obtain ⟨j, x⟩ := e
    simp only [mapSet]
    split
    · simp [mapGet, Ne.symm h]
    · split
      · rename_i _ hkj
        subst hkj
        simp [mapGet, Ne.symm h]
      · simp only [mapGet, ih]

@[simp] theorem mapGet_mapSet {α : Type} (m : SMap α) (k q : Nat) (v d : α) :
    mapGet (mapSet m k v) q d = if q = k then v else mapGet m q d := by
  split
  · rename_i h
    subst h
    exact mapGet_mapSet_same m q v d
  · rename_i h
    exact mapGet_mapSet_other m k q v d h

theorem mapFind_eq_none_or_get {α : Type} (m : SMap α) (k : Nat) (d : α) :
    mapFind m k = none ∧ mapGet m k d = d ∨ mapFind m k = some (mapGet m k d) := by
  induction m with
  | nil => simp [mapFind, mapGet]
  | cons e r ih =>
    obtain ⟨j, x⟩ := e
    by_cases h : j = k <;> simp [mapFind, mapGet, h, ih]

theorem mapGet_of_mapFind {α : Type} {m : SMap α} {k : Nat} {x : α} (d : α) (h : mapFind m k = some x) :
    mapGet m k d = x := by
  rcases mapFind_eq_none_or_get m k d with ⟨h', -⟩ | h'
  · rw [h] at h'
    cases h'
  · rw [h] at h'
    exact (Option.some.inj h').symm

@[simp] theorem mapFind_mapSet_same {α : Type} (m : SMap α) (k : Nat) (v : α) : mapFind (mapSet m k v) k = some v := by
  induction m with
  | nil => simp [mapSet, mapFind]
  | cons e r ih =>
    obtain ⟨j, x⟩ := e
    simp only [mapSet]
    split
    · simp [mapFind]
    · split
      · simp [mapFind]
      · rename_i _ h
        simp only [mapFind, if_neg (Ne.symm h), ih]

theorem mapFind_mapSet_other {α : Type} (m : SMap α) (k q : Nat) (v : α) (h : q ≠ k) :
    mapFind (mapSet m k v) q = mapFind m q := by
  induction m with
  | nil => simp [mapSet, mapFind, Ne.symm h]
  | cons e r ih =>
    obtain ⟨j, x⟩ := e
    simp only [mapSet]
    split
    · simp [mapFind, Ne.symm h]
    · split
      · rename_i _ hkj
        subst hkj
        simp [mapFind, Ne.symm h]
      · simp only [mapFind, ih]

/-- Writing a map twice at one key leaves the second value. -/
theorem mapSet_mapSet_same {α : Type} (m : SMap α) (k : Nat) (v w : α) : mapSet (mapSet m k v) k w = mapSet m k w := by
  induction m with
  | nil => simp [mapSet]
  | cons e r ih =>
    obtain ⟨j, x⟩ := e
    simp only [mapSet]
    split
    · simp [mapSet]
    · split
      · simp [mapSet]
      · rename_i h1 h2
        simp [mapSet, h1, h2, ih]

theorem listSet_length {α : Type} (l : List α) (n : Nat) (v : α) : (listSet l n v).length = l.length := by
  induction l generalizing n with
  | nil => simp [listSet]
  | cons x r ih => cases n <;> simp [listSet, ih]

theorem listSet_getElem? {α : Type} (l : List α) (n k : Nat) (v : α) :
    (listSet l n v)[k]? = if k = n ∧ n < l.length then some v else l[k]? := by
  induction l generalizing n k with
  | nil => simp [listSet]
  | cons x r ih =>
    cases n with
    | zero => cases k <;> simp [listSet]
    | succ n => cases k <;> simp [listSet, ih]

theorem listSet_getD {α : Type} (l : List α) (n k : Nat) (v d : α) :
    (listSet l n v).getD k d = if k = n ∧ n < l.length then v else l.getD k d := by
  simp only [List.getD_eq_getElem?_getD, listSet_getElem?]
  split <;> simp

end Sys2Proof.Machine
end

