-- ==== Sys2Proof/Laws/Memory.lean ====
section
/-!
SUPPORT. The laws of memory: every operation keeps the canonical form, a byte reads as it was written last, and the other
bytes are left alone.
-/
namespace Sys2Proof.Machine

/-- Every listed address of a canonical list lies above `a`. -/
def memAbove (a : Nat) (m : List Host.Cell) : Prop := ∀ e ∈ m, a < e.1

theorem memory_wf_cons {a : Nat} {b : Byte} {r : List Host.Cell} :
    Memory.wf ((a, b) :: r) = true ↔ b ≠ 0 ∧ Memory.wf r = true ∧ memAbove a r := by
  induction r generalizing a b with
  | nil => simp [Memory.wf, memAbove]
  | cons e r ih =>
    obtain ⟨a', b'⟩ := e
    rw [Memory.wf]
    simp only [Bool.and_eq_true, bne_iff_ne, decide_eq_true_eq]
    constructor
    · rintro ⟨⟨hb, hr⟩, hlt⟩
      refine ⟨hb, hr, ?_⟩
      obtain ⟨-, -, hab⟩ := ih.1 hr
      intro e he
      rcases List.mem_cons.1 he with rfl | he
      · exact hlt
      · exact lt_trans hlt (hab e he)
    · rintro ⟨hb, hr, hab⟩
      exact ⟨⟨hb, hr⟩, hab (a', b') (by simp)⟩

theorem memory_wf_tail {e : Host.Cell} {r : List Host.Cell} (h : Memory.wf (e :: r) = true) : Memory.wf r = true :=
  (memory_wf_cons.1 h).2.1

theorem memAbove_mapSet {a k : Nat} {v : Byte} {m : List Host.Cell} (hk : a < k) (h : memAbove a m) :
    memAbove a (mapSet m k v) := by
  induction m with
  | nil => intro e he; simp [mapSet] at he; subst he; exact hk
  | cons e r ih =>
    obtain ⟨j, x⟩ := e
    have hr : memAbove a r := fun e he => h e (List.mem_cons_of_mem _ he)
    simp only [mapSet]
    split
    · intro e he
      rcases List.mem_cons.1 he with rfl | he
      · exact hk
      · exact h e he
    · split
      · intro e he
        rcases List.mem_cons.1 he with rfl | he
        · exact hk
        · exact hr e he
      · intro e he
        rcases List.mem_cons.1 he with rfl | he
        · exact h (j, x) (by simp)
        · exact ih hr e he

theorem memAbove_memDel {a k : Nat} {m : List Host.Cell} (h : memAbove a m) : memAbove a (memDel m k) := by
  induction m with
  | nil => simpa [memDel] using h
  | cons e r ih =>
    obtain ⟨j, x⟩ := e
    have hr : memAbove a r := fun e he => h e (List.mem_cons_of_mem _ he)
    simp only [memDel]
    split
    · exact hr
    · intro e he
      rcases List.mem_cons.1 he with rfl | he
      · exact h (j, x) (by simp)
      · exact ih hr e he

theorem memory_wf_mapSet {m : List Host.Cell} (k : Nat) {v : Byte} (hv : v ≠ 0) (h : Memory.wf m = true) :
    Memory.wf (mapSet m k v) = true := by
  induction m with
  | nil =>
    simp only [mapSet, Memory.wf, Bool.and_true, bne_iff_ne]
    exact hv
  | cons e r ih =>
    obtain ⟨j, x⟩ := e
    obtain ⟨hx, hr, ha⟩ := memory_wf_cons.1 h
    simp only [mapSet]
    split
    · rename_i hk
      refine memory_wf_cons.2 ⟨hv, h, ?_⟩
      intro e he
      rcases List.mem_cons.1 he with rfl | he
      · exact hk
      · exact lt_trans hk (ha e he)
    · split
      · rename_i _ hk
        subst hk
        exact memory_wf_cons.2 ⟨hv, hr, ha⟩
      · rename_i h1 h2
        exact memory_wf_cons.2 ⟨hx, ih hr, memAbove_mapSet (by omega) ha⟩

theorem memory_wf_memDel {m : List Host.Cell} (k : Nat) (h : Memory.wf m = true) : Memory.wf (memDel m k) = true := by
  induction m with
  | nil => simpa [memDel] using h
  | cons e r ih =>
    obtain ⟨j, x⟩ := e
    obtain ⟨hx, hr, ha⟩ := memory_wf_cons.1 h
    simp only [memDel]
    split
    · exact hr
    · exact memory_wf_cons.2 ⟨hx, ih hr, memAbove_memDel ha⟩

/-- Setting a byte keeps the canonical form. -/
theorem memory_wf_memSet {m : List Host.Cell} (a : Nat) (b : Byte) (h : Memory.wf m = true) :
    Memory.wf (memSet m a b) = true := by
  unfold memSet
  split
  · exact memory_wf_memDel a h
  · rename_i hb
    exact memory_wf_mapSet a hb h

/-- Setting bytes keeps the canonical form. -/
theorem memory_wf_memSetBytes {m : List Host.Cell} (a : Nat) (bs : List Byte) (h : Memory.wf m = true) :
    Memory.wf (memSetBytes m a bs) = true := by
  induction bs generalizing m a with
  | nil => simpa [memSetBytes] using h
  | cons b r ih => exact ih (a + 1) (memory_wf_memSet a b h)

/-- A filter, as a loss of power makes, keeps the canonical form. -/
theorem memory_wf_filter {m : List Host.Cell} (p : Host.Cell → Bool) (h : Memory.wf m = true) :
    Memory.wf (m.filter p) = true := by
  induction m with
  | nil => simpa using h
  | cons e r ih =>
    obtain ⟨j, x⟩ := e
    obtain ⟨hx, hr, ha⟩ := memory_wf_cons.1 h
    by_cases hp : p (j, x) = true
    · rw [List.filter_cons_of_pos hp]
      exact memory_wf_cons.2 ⟨hx, ih hr, fun e he => ha e (List.mem_of_mem_filter he)⟩
    · rw [List.filter_cons_of_neg hp]
      exact ih hr

theorem memGet_of_above {a q : Nat} {m : List Host.Cell} (h : memAbove a m) (hq : q ≤ a) : memGet m q = 0 := by
  induction m with
  | nil => rfl
  | cons e r ih =>
    obtain ⟨j, x⟩ := e
    have hj : a < j := h (j, x) (by simp)
    have hr : memAbove a r := fun e he => h e (List.mem_cons_of_mem _ he)
    unfold memGet
    rw [mapGet, if_neg (by omega)]
    exact ih hr

theorem memGet_memDel {m : List Host.Cell} (a q : Nat) (h : Memory.wf m = true) :
    memGet (memDel m a) q = if q = a then 0 else memGet m q := by
  induction m with
  | nil => simp [memDel, memGet, mapGet]
  | cons e r ih =>
    obtain ⟨j, x⟩ := e
    obtain ⟨hx, hr, ha⟩ := memory_wf_cons.1 h
    simp only [memDel]
    by_cases hj : j = a
    · subst hj
      rw [if_pos rfl]
      by_cases hq : q = j
      · subst hq
        rw [if_pos rfl]
        exact memGet_of_above ha (le_refl q)
      · rw [if_neg hq]
        unfold memGet
        rw [mapGet, if_neg (Ne.symm hq)]
    · rw [if_neg hj]
      unfold memGet at ih ⊢
      by_cases hq : j = q
      · subst hq
        simp [mapGet, hj]
      · simp only [mapGet, if_neg hq]
        exact ih hr

/-- A byte reads as it was set last, and every other byte as before. -/
theorem memGet_memSet {m : List Host.Cell} (a q : Nat) (b : Byte) (h : Memory.wf m = true) :
    memGet (memSet m a b) q = if q = a then b else memGet m q := by
  unfold memSet
  split
  · rename_i hb
    rw [memGet_memDel a q h, hb]
  · unfold memGet
    exact mapGet_mapSet m a q b 0

/-- Bytes outside those set read as before. -/
theorem memGet_memSetBytes_outside {m : List Host.Cell} (a q : Nat) (bs : List Byte) (h : Memory.wf m = true)
    (hq : q < a ∨ a + bs.length ≤ q) : memGet (memSetBytes m a bs) q = memGet m q := by
  induction bs generalizing m a with
  | nil => rfl
  | cons b r ih =>
    have hlen : (b :: r).length = r.length + 1 := rfl
    rw [memSetBytes, ih (a + 1) (memory_wf_memSet a b h) (by omega), memGet_memSet a q b h, if_neg (by omega)]

/-- A byte among those set reads as it was set. -/
theorem memGet_memSetBytes_inside {m : List Host.Cell} (a i : Nat) (bs : List Byte) (h : Memory.wf m = true)
    (hi : i < bs.length) : memGet (memSetBytes m a bs) (a + i) = bs.getD i 0 := by
  induction bs generalizing m a i with
  | nil => simp at hi
  | cons b r ih =>
    cases i with
    | zero =>
      show memGet (memSetBytes (memSet m a b) (a + 1) r) a = b
      rw [memGet_memSetBytes_outside (a + 1) a r (memory_wf_memSet a b h) (by omega), memGet_memSet a a b h, if_pos rfl]
    | succ i =>
      have : a + (i + 1) = (a + 1) + i := by omega
      rw [memSetBytes, this, ih (a + 1) i (memory_wf_memSet a b h) (by simpa using hi)]
      simp

end Sys2Proof.Machine
end

