-- ==== Sys2Proof/Laws/State.lean ====
section
/-!
SUPPORT. What each update of the state leaves alone: one lemma for each field and update, so that no proof unfolds one.
-/
namespace Sys2Proof.Machine

@[simp] theorem modCore_mem (s : State) (n : Nat) (f : Core → Core) : (modCore s n f).mem = s.mem := rfl
@[simp] theorem modCore_poison (s : State) (n : Nat) (f : Core → Core) : (modCore s n f).poison = s.poison := rfl
@[simp] theorem modCore_promo (s : State) (n : Nat) (f : Core → Core) : (modCore s n f).promo = s.promo := rfl
@[simp] theorem modCore_lineRec (s : State) (n : Nat) (f : Core → Core) : (modCore s n f).lineRec = s.lineRec := rfl
@[simp] theorem modCore_stale (s : State) (n : Nat) (f : Core → Core) : (modCore s n f).stale = s.stale := rfl
@[simp] theorem modCore_olds (s : State) (n : Nat) (f : Core → Core) : (modCore s n f).olds = s.olds := rfl
@[simp] theorem modCore_errCount (s : State) (n : Nat) (f : Core → Core) : (modCore s n f).errCount = s.errCount := rfl
@[simp] theorem modCore_inflight (s : State) (n : Nat) (f : Core → Core) : (modCore s n f).inflight = s.inflight := rfl
@[simp] theorem modCore_returns (s : State) (n : Nat) (f : Core → Core) : (modCore s n f).returns = s.returns := rfl
@[simp] theorem modCore_datoms (s : State) (n : Nat) (f : Core → Core) : (modCore s n f).datoms = s.datoms := rfl
@[simp] theorem modCore_dbufs (s : State) (n : Nat) (f : Core → Core) : (modCore s n f).dbufs = s.dbufs := rfl
@[simp] theorem modCore_dies (s : State) (n : Nat) (f : Core → Core) : (modCore s n f).dies = s.dies := rfl
@[simp] theorem modCore_ctxs (s : State) (n : Nat) (f : Core → Core) : (modCore s n f).ctxs = s.ctxs := rfl
@[simp] theorem modCore_domains (s : State) (n : Nat) (f : Core → Core) : (modCore s n f).domains = s.domains := rfl
@[simp] theorem modCore_streams (s : State) (n : Nat) (f : Core → Core) : (modCore s n f).streams = s.streams := rfl
@[simp] theorem modCore_decStreams (s : State) (n : Nat) (f : Core → Core) : (modCore s n f).decStreams = s.decStreams := rfl
@[simp] theorem modCore_rings (s : State) (n : Nat) (f : Core → Core) : (modCore s n f).rings = s.rings := rfl
@[simp] theorem modCore_parts (s : State) (n : Nat) (f : Core → Core) : (modCore s n f).parts = s.parts := rfl
@[simp] theorem modCore_pageReqs (s : State) (n : Nat) (f : Core → Core) : (modCore s n f).pageReqs = s.pageReqs := rfl
@[simp] theorem modCore_pulls (s : State) (n : Nat) (f : Core → Core) : (modCore s n f).pulls = s.pulls := rfl
@[simp] theorem modCore_pageCmds (s : State) (n : Nat) (f : Core → Core) : (modCore s n f).pageCmds = s.pageCmds := rfl
@[simp] theorem modCore_mbox (s : State) (n : Nat) (f : Core → Core) : (modCore s n f).mbox = s.mbox := rfl
@[simp] theorem modCore_mailReq (s : State) (n : Nat) (f : Core → Core) : (modCore s n f).mailReq = s.mailReq := rfl
@[simp] theorem modCore_mailLast (s : State) (n : Nat) (f : Core → Core) : (modCore s n f).mailLast = s.mailLast := rfl
@[simp] theorem modCore_fwQ (s : State) (n : Nat) (f : Core → Core) : (modCore s n f).fwQ = s.fwQ := rfl
@[simp] theorem modCore_hostRd (s : State) (n : Nat) (f : Core → Core) : (modCore s n f).hostRd = s.hostRd := rfl
@[simp] theorem modCore_msCache (s : State) (n : Nat) (f : Core → Core) : (modCore s n f).msCache = s.msCache := rfl
@[simp] theorem modCore_sysMsgs (s : State) (n : Nat) (f : Core → Core) : (modCore s n f).sysMsgs = s.sysMsgs := rfl
@[simp] theorem modCore_spdm (s : State) (n : Nat) (f : Core → Core) : (modCore s n f).spdm = s.spdm := rfl
@[simp] theorem modCore_unlockCtr (s : State) (n : Nat) (f : Core → Core) : (modCore s n f).unlockCtr = s.unlockCtr := rfl
@[simp] theorem modCore_power (s : State) (n : Nat) (f : Core → Core) : (modCore s n f).power = s.power := rfl
@[simp] theorem modCore_pmPending (s : State) (n : Nat) (f : Core → Core) : (modCore s n f).pmPending = s.pmPending := rfl
@[simp] theorem modCore_pwrcap (s : State) (n : Nat) (f : Core → Core) : (modCore s n f).pwrcap = s.pwrcap := rfl
@[simp] theorem modCore_pwrLimit (s : State) (n : Nat) (f : Core → Core) : (modCore s n f).pwrLimit = s.pwrLimit := rfl
@[simp] theorem modCore_clockMhz (s : State) (n : Nat) (f : Core → Core) : (modCore s n f).clockMhz = s.clockMhz := rfl
@[simp] theorem modCore_fw (s : State) (n : Nat) (f : Core → Core) : (modCore s n f).fw = s.fw := rfl
@[simp] theorem modCore_node (s : State) (n : Nat) (f : Core → Core) : (modCore s n f).node = s.node := rfl
@[simp] theorem modCore_routes (s : State) (n : Nat) (f : Core → Core) : (modCore s n f).routes = s.routes := rfl
@[simp] theorem modCore_linkStream (s : State) (n : Nat) (f : Core → Core) : (modCore s n f).linkStream = s.linkStream := rfl
@[simp] theorem modCore_ports (s : State) (n : Nat) (f : Core → Core) : (modCore s n f).ports = s.ports := rfl
@[simp] theorem modCore_ucie (s : State) (n : Nat) (f : Core → Core) : (modCore s n f).ucie = s.ucie := rfl
@[simp] theorem modCore_noModule (s : State) (n : Nat) (f : Core → Core) : (modCore s n f).noModule = s.noModule := rfl
@[simp] theorem modCore_probes (s : State) (n : Nat) (f : Core → Core) : (modCore s n f).probes = s.probes := rfl
@[simp] theorem modCore_schedule (s : State) (n : Nat) (f : Core → Core) : (modCore s n f).schedule = s.schedule := rfl
@[simp] theorem modCore_stepping (s : State) (n : Nat) (f : Core → Core) : (modCore s n f).stepping = s.stepping := rfl
@[simp] theorem modCore_cur (s : State) (n : Nat) (f : Core → Core) : (modCore s n f).cur = s.cur := rfl
@[simp] theorem modCore_nextId (s : State) (n : Nat) (f : Core → Core) : (modCore s n f).nextId = s.nextId := rfl
@[simp] theorem modCore_freeCtr (s : State) (n : Nat) (f : Core → Core) : (modCore s n f).freeCtr = s.freeCtr := rfl

@[simp] theorem modDie_mem (s : State) (n : Nat) (f : Die → Die) : (modDie s n f).mem = s.mem := rfl
@[simp] theorem modDie_poison (s : State) (n : Nat) (f : Die → Die) : (modDie s n f).poison = s.poison := rfl
@[simp] theorem modDie_promo (s : State) (n : Nat) (f : Die → Die) : (modDie s n f).promo = s.promo := rfl
@[simp] theorem modDie_lineRec (s : State) (n : Nat) (f : Die → Die) : (modDie s n f).lineRec = s.lineRec := rfl
@[simp] theorem modDie_stale (s : State) (n : Nat) (f : Die → Die) : (modDie s n f).stale = s.stale := rfl
@[simp] theorem modDie_olds (s : State) (n : Nat) (f : Die → Die) : (modDie s n f).olds = s.olds := rfl
@[simp] theorem modDie_errCount (s : State) (n : Nat) (f : Die → Die) : (modDie s n f).errCount = s.errCount := rfl
@[simp] theorem modDie_inflight (s : State) (n : Nat) (f : Die → Die) : (modDie s n f).inflight = s.inflight := rfl
@[simp] theorem modDie_returns (s : State) (n : Nat) (f : Die → Die) : (modDie s n f).returns = s.returns := rfl
@[simp] theorem modDie_datoms (s : State) (n : Nat) (f : Die → Die) : (modDie s n f).datoms = s.datoms := rfl
@[simp] theorem modDie_dbufs (s : State) (n : Nat) (f : Die → Die) : (modDie s n f).dbufs = s.dbufs := rfl
@[simp] theorem modDie_cores (s : State) (n : Nat) (f : Die → Die) : (modDie s n f).cores = s.cores := rfl
@[simp] theorem modDie_ctxs (s : State) (n : Nat) (f : Die → Die) : (modDie s n f).ctxs = s.ctxs := rfl
@[simp] theorem modDie_domains (s : State) (n : Nat) (f : Die → Die) : (modDie s n f).domains = s.domains := rfl
@[simp] theorem modDie_streams (s : State) (n : Nat) (f : Die → Die) : (modDie s n f).streams = s.streams := rfl
@[simp] theorem modDie_decStreams (s : State) (n : Nat) (f : Die → Die) : (modDie s n f).decStreams = s.decStreams := rfl
@[simp] theorem modDie_rings (s : State) (n : Nat) (f : Die → Die) : (modDie s n f).rings = s.rings := rfl
@[simp] theorem modDie_parts (s : State) (n : Nat) (f : Die → Die) : (modDie s n f).parts = s.parts := rfl
@[simp] theorem modDie_pageReqs (s : State) (n : Nat) (f : Die → Die) : (modDie s n f).pageReqs = s.pageReqs := rfl
@[simp] theorem modDie_pulls (s : State) (n : Nat) (f : Die → Die) : (modDie s n f).pulls = s.pulls := rfl
@[simp] theorem modDie_pageCmds (s : State) (n : Nat) (f : Die → Die) : (modDie s n f).pageCmds = s.pageCmds := rfl
@[simp] theorem modDie_mbox (s : State) (n : Nat) (f : Die → Die) : (modDie s n f).mbox = s.mbox := rfl
@[simp] theorem modDie_mailReq (s : State) (n : Nat) (f : Die → Die) : (modDie s n f).mailReq = s.mailReq := rfl
@[simp] theorem modDie_mailLast (s : State) (n : Nat) (f : Die → Die) : (modDie s n f).mailLast = s.mailLast := rfl
@[simp] theorem modDie_fwQ (s : State) (n : Nat) (f : Die → Die) : (modDie s n f).fwQ = s.fwQ := rfl
@[simp] theorem modDie_hostRd (s : State) (n : Nat) (f : Die → Die) : (modDie s n f).hostRd = s.hostRd := rfl
@[simp] theorem modDie_msCache (s : State) (n : Nat) (f : Die → Die) : (modDie s n f).msCache = s.msCache := rfl
@[simp] theorem modDie_sysMsgs (s : State) (n : Nat) (f : Die → Die) : (modDie s n f).sysMsgs = s.sysMsgs := rfl
@[simp] theorem modDie_spdm (s : State) (n : Nat) (f : Die → Die) : (modDie s n f).spdm = s.spdm := rfl
@[simp] theorem modDie_unlockCtr (s : State) (n : Nat) (f : Die → Die) : (modDie s n f).unlockCtr = s.unlockCtr := rfl
@[simp] theorem modDie_power (s : State) (n : Nat) (f : Die → Die) : (modDie s n f).power = s.power := rfl
@[simp] theorem modDie_pmPending (s : State) (n : Nat) (f : Die → Die) : (modDie s n f).pmPending = s.pmPending := rfl
@[simp] theorem modDie_pwrcap (s : State) (n : Nat) (f : Die → Die) : (modDie s n f).pwrcap = s.pwrcap := rfl
@[simp] theorem modDie_pwrLimit (s : State) (n : Nat) (f : Die → Die) : (modDie s n f).pwrLimit = s.pwrLimit := rfl
@[simp] theorem modDie_clockMhz (s : State) (n : Nat) (f : Die → Die) : (modDie s n f).clockMhz = s.clockMhz := rfl
@[simp] theorem modDie_fw (s : State) (n : Nat) (f : Die → Die) : (modDie s n f).fw = s.fw := rfl
@[simp] theorem modDie_node (s : State) (n : Nat) (f : Die → Die) : (modDie s n f).node = s.node := rfl
@[simp] theorem modDie_routes (s : State) (n : Nat) (f : Die → Die) : (modDie s n f).routes = s.routes := rfl
@[simp] theorem modDie_linkStream (s : State) (n : Nat) (f : Die → Die) : (modDie s n f).linkStream = s.linkStream := rfl
@[simp] theorem modDie_ports (s : State) (n : Nat) (f : Die → Die) : (modDie s n f).ports = s.ports := rfl
@[simp] theorem modDie_ucie (s : State) (n : Nat) (f : Die → Die) : (modDie s n f).ucie = s.ucie := rfl
@[simp] theorem modDie_noModule (s : State) (n : Nat) (f : Die → Die) : (modDie s n f).noModule = s.noModule := rfl
@[simp] theorem modDie_probes (s : State) (n : Nat) (f : Die → Die) : (modDie s n f).probes = s.probes := rfl
@[simp] theorem modDie_schedule (s : State) (n : Nat) (f : Die → Die) : (modDie s n f).schedule = s.schedule := rfl
@[simp] theorem modDie_stepping (s : State) (n : Nat) (f : Die → Die) : (modDie s n f).stepping = s.stepping := rfl
@[simp] theorem modDie_cur (s : State) (n : Nat) (f : Die → Die) : (modDie s n f).cur = s.cur := rfl
@[simp] theorem modDie_nextId (s : State) (n : Nat) (f : Die → Die) : (modDie s n f).nextId = s.nextId := rfl
@[simp] theorem modDie_freeCtr (s : State) (n : Nat) (f : Die → Die) : (modDie s n f).freeCtr = s.freeCtr := rfl

@[simp] theorem modCtx_mem (s : State) (n : Nat) (f : Context → Context) : (modCtx s n f).mem = s.mem := rfl
@[simp] theorem modCtx_poison (s : State) (n : Nat) (f : Context → Context) : (modCtx s n f).poison = s.poison := rfl
@[simp] theorem modCtx_promo (s : State) (n : Nat) (f : Context → Context) : (modCtx s n f).promo = s.promo := rfl
@[simp] theorem modCtx_lineRec (s : State) (n : Nat) (f : Context → Context) : (modCtx s n f).lineRec = s.lineRec := rfl
@[simp] theorem modCtx_stale (s : State) (n : Nat) (f : Context → Context) : (modCtx s n f).stale = s.stale := rfl
@[simp] theorem modCtx_olds (s : State) (n : Nat) (f : Context → Context) : (modCtx s n f).olds = s.olds := rfl
@[simp] theorem modCtx_errCount (s : State) (n : Nat) (f : Context → Context) : (modCtx s n f).errCount = s.errCount := rfl
@[simp] theorem modCtx_inflight (s : State) (n : Nat) (f : Context → Context) : (modCtx s n f).inflight = s.inflight := rfl
@[simp] theorem modCtx_returns (s : State) (n : Nat) (f : Context → Context) : (modCtx s n f).returns = s.returns := rfl
@[simp] theorem modCtx_datoms (s : State) (n : Nat) (f : Context → Context) : (modCtx s n f).datoms = s.datoms := rfl
@[simp] theorem modCtx_dbufs (s : State) (n : Nat) (f : Context → Context) : (modCtx s n f).dbufs = s.dbufs := rfl
@[simp] theorem modCtx_dies (s : State) (n : Nat) (f : Context → Context) : (modCtx s n f).dies = s.dies := rfl
@[simp] theorem modCtx_cores (s : State) (n : Nat) (f : Context → Context) : (modCtx s n f).cores = s.cores := rfl
@[simp] theorem modCtx_domains (s : State) (n : Nat) (f : Context → Context) : (modCtx s n f).domains = s.domains := rfl
@[simp] theorem modCtx_streams (s : State) (n : Nat) (f : Context → Context) : (modCtx s n f).streams = s.streams := rfl
@[simp] theorem modCtx_decStreams (s : State) (n : Nat) (f : Context → Context) : (modCtx s n f).decStreams = s.decStreams := rfl
@[simp] theorem modCtx_rings (s : State) (n : Nat) (f : Context → Context) : (modCtx s n f).rings = s.rings := rfl
@[simp] theorem modCtx_parts (s : State) (n : Nat) (f : Context → Context) : (modCtx s n f).parts = s.parts := rfl
@[simp] theorem modCtx_pageReqs (s : State) (n : Nat) (f : Context → Context) : (modCtx s n f).pageReqs = s.pageReqs := rfl
@[simp] theorem modCtx_pulls (s : State) (n : Nat) (f : Context → Context) : (modCtx s n f).pulls = s.pulls := rfl
@[simp] theorem modCtx_pageCmds (s : State) (n : Nat) (f : Context → Context) : (modCtx s n f).pageCmds = s.pageCmds := rfl
@[simp] theorem modCtx_mbox (s : State) (n : Nat) (f : Context → Context) : (modCtx s n f).mbox = s.mbox := rfl
@[simp] theorem modCtx_mailReq (s : State) (n : Nat) (f : Context → Context) : (modCtx s n f).mailReq = s.mailReq := rfl
@[simp] theorem modCtx_mailLast (s : State) (n : Nat) (f : Context → Context) : (modCtx s n f).mailLast = s.mailLast := rfl
@[simp] theorem modCtx_fwQ (s : State) (n : Nat) (f : Context → Context) : (modCtx s n f).fwQ = s.fwQ := rfl
@[simp] theorem modCtx_hostRd (s : State) (n : Nat) (f : Context → Context) : (modCtx s n f).hostRd = s.hostRd := rfl
@[simp] theorem modCtx_msCache (s : State) (n : Nat) (f : Context → Context) : (modCtx s n f).msCache = s.msCache := rfl
@[simp] theorem modCtx_sysMsgs (s : State) (n : Nat) (f : Context → Context) : (modCtx s n f).sysMsgs = s.sysMsgs := rfl
@[simp] theorem modCtx_spdm (s : State) (n : Nat) (f : Context → Context) : (modCtx s n f).spdm = s.spdm := rfl
@[simp] theorem modCtx_unlockCtr (s : State) (n : Nat) (f : Context → Context) : (modCtx s n f).unlockCtr = s.unlockCtr := rfl
@[simp] theorem modCtx_power (s : State) (n : Nat) (f : Context → Context) : (modCtx s n f).power = s.power := rfl
@[simp] theorem modCtx_pmPending (s : State) (n : Nat) (f : Context → Context) : (modCtx s n f).pmPending = s.pmPending := rfl
@[simp] theorem modCtx_pwrcap (s : State) (n : Nat) (f : Context → Context) : (modCtx s n f).pwrcap = s.pwrcap := rfl
@[simp] theorem modCtx_pwrLimit (s : State) (n : Nat) (f : Context → Context) : (modCtx s n f).pwrLimit = s.pwrLimit := rfl
@[simp] theorem modCtx_clockMhz (s : State) (n : Nat) (f : Context → Context) : (modCtx s n f).clockMhz = s.clockMhz := rfl
@[simp] theorem modCtx_fw (s : State) (n : Nat) (f : Context → Context) : (modCtx s n f).fw = s.fw := rfl
@[simp] theorem modCtx_node (s : State) (n : Nat) (f : Context → Context) : (modCtx s n f).node = s.node := rfl
@[simp] theorem modCtx_routes (s : State) (n : Nat) (f : Context → Context) : (modCtx s n f).routes = s.routes := rfl
@[simp] theorem modCtx_linkStream (s : State) (n : Nat) (f : Context → Context) : (modCtx s n f).linkStream = s.linkStream := rfl
@[simp] theorem modCtx_ports (s : State) (n : Nat) (f : Context → Context) : (modCtx s n f).ports = s.ports := rfl
@[simp] theorem modCtx_ucie (s : State) (n : Nat) (f : Context → Context) : (modCtx s n f).ucie = s.ucie := rfl
@[simp] theorem modCtx_noModule (s : State) (n : Nat) (f : Context → Context) : (modCtx s n f).noModule = s.noModule := rfl
@[simp] theorem modCtx_probes (s : State) (n : Nat) (f : Context → Context) : (modCtx s n f).probes = s.probes := rfl
@[simp] theorem modCtx_schedule (s : State) (n : Nat) (f : Context → Context) : (modCtx s n f).schedule = s.schedule := rfl
@[simp] theorem modCtx_stepping (s : State) (n : Nat) (f : Context → Context) : (modCtx s n f).stepping = s.stepping := rfl
@[simp] theorem modCtx_cur (s : State) (n : Nat) (f : Context → Context) : (modCtx s n f).cur = s.cur := rfl
@[simp] theorem modCtx_nextId (s : State) (n : Nat) (f : Context → Context) : (modCtx s n f).nextId = s.nextId := rfl
@[simp] theorem modCtx_freeCtr (s : State) (n : Nat) (f : Context → Context) : (modCtx s n f).freeCtr = s.freeCtr := rfl

@[simp] theorem modDom_mem (s : State) (n : Nat) (f : Domain → Domain) : (modDom s n f).mem = s.mem := rfl
@[simp] theorem modDom_poison (s : State) (n : Nat) (f : Domain → Domain) : (modDom s n f).poison = s.poison := rfl
@[simp] theorem modDom_promo (s : State) (n : Nat) (f : Domain → Domain) : (modDom s n f).promo = s.promo := rfl
@[simp] theorem modDom_lineRec (s : State) (n : Nat) (f : Domain → Domain) : (modDom s n f).lineRec = s.lineRec := rfl
@[simp] theorem modDom_stale (s : State) (n : Nat) (f : Domain → Domain) : (modDom s n f).stale = s.stale := rfl
@[simp] theorem modDom_olds (s : State) (n : Nat) (f : Domain → Domain) : (modDom s n f).olds = s.olds := rfl
@[simp] theorem modDom_errCount (s : State) (n : Nat) (f : Domain → Domain) : (modDom s n f).errCount = s.errCount := rfl
@[simp] theorem modDom_inflight (s : State) (n : Nat) (f : Domain → Domain) : (modDom s n f).inflight = s.inflight := rfl
@[simp] theorem modDom_returns (s : State) (n : Nat) (f : Domain → Domain) : (modDom s n f).returns = s.returns := rfl
@[simp] theorem modDom_datoms (s : State) (n : Nat) (f : Domain → Domain) : (modDom s n f).datoms = s.datoms := rfl
@[simp] theorem modDom_dbufs (s : State) (n : Nat) (f : Domain → Domain) : (modDom s n f).dbufs = s.dbufs := rfl
@[simp] theorem modDom_dies (s : State) (n : Nat) (f : Domain → Domain) : (modDom s n f).dies = s.dies := rfl
@[simp] theorem modDom_cores (s : State) (n : Nat) (f : Domain → Domain) : (modDom s n f).cores = s.cores := rfl
@[simp] theorem modDom_ctxs (s : State) (n : Nat) (f : Domain → Domain) : (modDom s n f).ctxs = s.ctxs := rfl
@[simp] theorem modDom_streams (s : State) (n : Nat) (f : Domain → Domain) : (modDom s n f).streams = s.streams := rfl
@[simp] theorem modDom_decStreams (s : State) (n : Nat) (f : Domain → Domain) : (modDom s n f).decStreams = s.decStreams := rfl
@[simp] theorem modDom_rings (s : State) (n : Nat) (f : Domain → Domain) : (modDom s n f).rings = s.rings := rfl
@[simp] theorem modDom_parts (s : State) (n : Nat) (f : Domain → Domain) : (modDom s n f).parts = s.parts := rfl
@[simp] theorem modDom_pageReqs (s : State) (n : Nat) (f : Domain → Domain) : (modDom s n f).pageReqs = s.pageReqs := rfl
@[simp] theorem modDom_pulls (s : State) (n : Nat) (f : Domain → Domain) : (modDom s n f).pulls = s.pulls := rfl
@[simp] theorem modDom_pageCmds (s : State) (n : Nat) (f : Domain → Domain) : (modDom s n f).pageCmds = s.pageCmds := rfl
@[simp] theorem modDom_mbox (s : State) (n : Nat) (f : Domain → Domain) : (modDom s n f).mbox = s.mbox := rfl
@[simp] theorem modDom_mailReq (s : State) (n : Nat) (f : Domain → Domain) : (modDom s n f).mailReq = s.mailReq := rfl
@[simp] theorem modDom_mailLast (s : State) (n : Nat) (f : Domain → Domain) : (modDom s n f).mailLast = s.mailLast := rfl
@[simp] theorem modDom_fwQ (s : State) (n : Nat) (f : Domain → Domain) : (modDom s n f).fwQ = s.fwQ := rfl
@[simp] theorem modDom_hostRd (s : State) (n : Nat) (f : Domain → Domain) : (modDom s n f).hostRd = s.hostRd := rfl
@[simp] theorem modDom_msCache (s : State) (n : Nat) (f : Domain → Domain) : (modDom s n f).msCache = s.msCache := rfl
@[simp] theorem modDom_sysMsgs (s : State) (n : Nat) (f : Domain → Domain) : (modDom s n f).sysMsgs = s.sysMsgs := rfl
@[simp] theorem modDom_spdm (s : State) (n : Nat) (f : Domain → Domain) : (modDom s n f).spdm = s.spdm := rfl
@[simp] theorem modDom_unlockCtr (s : State) (n : Nat) (f : Domain → Domain) : (modDom s n f).unlockCtr = s.unlockCtr := rfl
@[simp] theorem modDom_power (s : State) (n : Nat) (f : Domain → Domain) : (modDom s n f).power = s.power := rfl
@[simp] theorem modDom_pmPending (s : State) (n : Nat) (f : Domain → Domain) : (modDom s n f).pmPending = s.pmPending := rfl
@[simp] theorem modDom_pwrcap (s : State) (n : Nat) (f : Domain → Domain) : (modDom s n f).pwrcap = s.pwrcap := rfl
@[simp] theorem modDom_pwrLimit (s : State) (n : Nat) (f : Domain → Domain) : (modDom s n f).pwrLimit = s.pwrLimit := rfl
@[simp] theorem modDom_clockMhz (s : State) (n : Nat) (f : Domain → Domain) : (modDom s n f).clockMhz = s.clockMhz := rfl
@[simp] theorem modDom_fw (s : State) (n : Nat) (f : Domain → Domain) : (modDom s n f).fw = s.fw := rfl
@[simp] theorem modDom_node (s : State) (n : Nat) (f : Domain → Domain) : (modDom s n f).node = s.node := rfl
@[simp] theorem modDom_routes (s : State) (n : Nat) (f : Domain → Domain) : (modDom s n f).routes = s.routes := rfl
@[simp] theorem modDom_linkStream (s : State) (n : Nat) (f : Domain → Domain) : (modDom s n f).linkStream = s.linkStream := rfl
@[simp] theorem modDom_ports (s : State) (n : Nat) (f : Domain → Domain) : (modDom s n f).ports = s.ports := rfl
@[simp] theorem modDom_ucie (s : State) (n : Nat) (f : Domain → Domain) : (modDom s n f).ucie = s.ucie := rfl
@[simp] theorem modDom_noModule (s : State) (n : Nat) (f : Domain → Domain) : (modDom s n f).noModule = s.noModule := rfl
@[simp] theorem modDom_probes (s : State) (n : Nat) (f : Domain → Domain) : (modDom s n f).probes = s.probes := rfl
@[simp] theorem modDom_schedule (s : State) (n : Nat) (f : Domain → Domain) : (modDom s n f).schedule = s.schedule := rfl
@[simp] theorem modDom_stepping (s : State) (n : Nat) (f : Domain → Domain) : (modDom s n f).stepping = s.stepping := rfl
@[simp] theorem modDom_cur (s : State) (n : Nat) (f : Domain → Domain) : (modDom s n f).cur = s.cur := rfl
@[simp] theorem modDom_nextId (s : State) (n : Nat) (f : Domain → Domain) : (modDom s n f).nextId = s.nextId := rfl
@[simp] theorem modDom_freeCtr (s : State) (n : Nat) (f : Domain → Domain) : (modDom s n f).freeCtr = s.freeCtr := rfl

@[simp] theorem modStream_mem (s : State) (n : Nat) (f : Stream → Stream) : (modStream s n f).mem = s.mem := rfl
@[simp] theorem modStream_poison (s : State) (n : Nat) (f : Stream → Stream) : (modStream s n f).poison = s.poison := rfl
@[simp] theorem modStream_promo (s : State) (n : Nat) (f : Stream → Stream) : (modStream s n f).promo = s.promo := rfl
@[simp] theorem modStream_lineRec (s : State) (n : Nat) (f : Stream → Stream) : (modStream s n f).lineRec = s.lineRec := rfl
@[simp] theorem modStream_stale (s : State) (n : Nat) (f : Stream → Stream) : (modStream s n f).stale = s.stale := rfl
@[simp] theorem modStream_olds (s : State) (n : Nat) (f : Stream → Stream) : (modStream s n f).olds = s.olds := rfl
@[simp] theorem modStream_errCount (s : State) (n : Nat) (f : Stream → Stream) : (modStream s n f).errCount = s.errCount := rfl
@[simp] theorem modStream_inflight (s : State) (n : Nat) (f : Stream → Stream) : (modStream s n f).inflight = s.inflight := rfl
@[simp] theorem modStream_returns (s : State) (n : Nat) (f : Stream → Stream) : (modStream s n f).returns = s.returns := rfl
@[simp] theorem modStream_datoms (s : State) (n : Nat) (f : Stream → Stream) : (modStream s n f).datoms = s.datoms := rfl
@[simp] theorem modStream_dbufs (s : State) (n : Nat) (f : Stream → Stream) : (modStream s n f).dbufs = s.dbufs := rfl
@[simp] theorem modStream_dies (s : State) (n : Nat) (f : Stream → Stream) : (modStream s n f).dies = s.dies := rfl
@[simp] theorem modStream_cores (s : State) (n : Nat) (f : Stream → Stream) : (modStream s n f).cores = s.cores := rfl
@[simp] theorem modStream_ctxs (s : State) (n : Nat) (f : Stream → Stream) : (modStream s n f).ctxs = s.ctxs := rfl
@[simp] theorem modStream_domains (s : State) (n : Nat) (f : Stream → Stream) : (modStream s n f).domains = s.domains := rfl
@[simp] theorem modStream_decStreams (s : State) (n : Nat) (f : Stream → Stream) : (modStream s n f).decStreams = s.decStreams := rfl
@[simp] theorem modStream_rings (s : State) (n : Nat) (f : Stream → Stream) : (modStream s n f).rings = s.rings := rfl
@[simp] theorem modStream_parts (s : State) (n : Nat) (f : Stream → Stream) : (modStream s n f).parts = s.parts := rfl
@[simp] theorem modStream_pageReqs (s : State) (n : Nat) (f : Stream → Stream) : (modStream s n f).pageReqs = s.pageReqs := rfl
@[simp] theorem modStream_pulls (s : State) (n : Nat) (f : Stream → Stream) : (modStream s n f).pulls = s.pulls := rfl
@[simp] theorem modStream_pageCmds (s : State) (n : Nat) (f : Stream → Stream) : (modStream s n f).pageCmds = s.pageCmds := rfl
@[simp] theorem modStream_mbox (s : State) (n : Nat) (f : Stream → Stream) : (modStream s n f).mbox = s.mbox := rfl
@[simp] theorem modStream_mailReq (s : State) (n : Nat) (f : Stream → Stream) : (modStream s n f).mailReq = s.mailReq := rfl
@[simp] theorem modStream_mailLast (s : State) (n : Nat) (f : Stream → Stream) : (modStream s n f).mailLast = s.mailLast := rfl
@[simp] theorem modStream_fwQ (s : State) (n : Nat) (f : Stream → Stream) : (modStream s n f).fwQ = s.fwQ := rfl
@[simp] theorem modStream_hostRd (s : State) (n : Nat) (f : Stream → Stream) : (modStream s n f).hostRd = s.hostRd := rfl
@[simp] theorem modStream_msCache (s : State) (n : Nat) (f : Stream → Stream) : (modStream s n f).msCache = s.msCache := rfl
@[simp] theorem modStream_sysMsgs (s : State) (n : Nat) (f : Stream → Stream) : (modStream s n f).sysMsgs = s.sysMsgs := rfl
@[simp] theorem modStream_spdm (s : State) (n : Nat) (f : Stream → Stream) : (modStream s n f).spdm = s.spdm := rfl
@[simp] theorem modStream_unlockCtr (s : State) (n : Nat) (f : Stream → Stream) : (modStream s n f).unlockCtr = s.unlockCtr := rfl
@[simp] theorem modStream_power (s : State) (n : Nat) (f : Stream → Stream) : (modStream s n f).power = s.power := rfl
@[simp] theorem modStream_pmPending (s : State) (n : Nat) (f : Stream → Stream) : (modStream s n f).pmPending = s.pmPending := rfl
@[simp] theorem modStream_pwrcap (s : State) (n : Nat) (f : Stream → Stream) : (modStream s n f).pwrcap = s.pwrcap := rfl
@[simp] theorem modStream_pwrLimit (s : State) (n : Nat) (f : Stream → Stream) : (modStream s n f).pwrLimit = s.pwrLimit := rfl
@[simp] theorem modStream_clockMhz (s : State) (n : Nat) (f : Stream → Stream) : (modStream s n f).clockMhz = s.clockMhz := rfl
@[simp] theorem modStream_fw (s : State) (n : Nat) (f : Stream → Stream) : (modStream s n f).fw = s.fw := rfl
@[simp] theorem modStream_node (s : State) (n : Nat) (f : Stream → Stream) : (modStream s n f).node = s.node := rfl
@[simp] theorem modStream_routes (s : State) (n : Nat) (f : Stream → Stream) : (modStream s n f).routes = s.routes := rfl
@[simp] theorem modStream_linkStream (s : State) (n : Nat) (f : Stream → Stream) : (modStream s n f).linkStream = s.linkStream := rfl
@[simp] theorem modStream_ports (s : State) (n : Nat) (f : Stream → Stream) : (modStream s n f).ports = s.ports := rfl
@[simp] theorem modStream_ucie (s : State) (n : Nat) (f : Stream → Stream) : (modStream s n f).ucie = s.ucie := rfl
@[simp] theorem modStream_noModule (s : State) (n : Nat) (f : Stream → Stream) : (modStream s n f).noModule = s.noModule := rfl
@[simp] theorem modStream_probes (s : State) (n : Nat) (f : Stream → Stream) : (modStream s n f).probes = s.probes := rfl
@[simp] theorem modStream_schedule (s : State) (n : Nat) (f : Stream → Stream) : (modStream s n f).schedule = s.schedule := rfl
@[simp] theorem modStream_stepping (s : State) (n : Nat) (f : Stream → Stream) : (modStream s n f).stepping = s.stepping := rfl
@[simp] theorem modStream_cur (s : State) (n : Nat) (f : Stream → Stream) : (modStream s n f).cur = s.cur := rfl
@[simp] theorem modStream_nextId (s : State) (n : Nat) (f : Stream → Stream) : (modStream s n f).nextId = s.nextId := rfl
@[simp] theorem modStream_freeCtr (s : State) (n : Nat) (f : Stream → Stream) : (modStream s n f).freeCtr = s.freeCtr := rfl

@[simp] theorem modRing_mem (s : State) (n : Nat) (f : Ring → Ring) : (modRing s n f).mem = s.mem := rfl
@[simp] theorem modRing_poison (s : State) (n : Nat) (f : Ring → Ring) : (modRing s n f).poison = s.poison := rfl
@[simp] theorem modRing_promo (s : State) (n : Nat) (f : Ring → Ring) : (modRing s n f).promo = s.promo := rfl
@[simp] theorem modRing_lineRec (s : State) (n : Nat) (f : Ring → Ring) : (modRing s n f).lineRec = s.lineRec := rfl
@[simp] theorem modRing_stale (s : State) (n : Nat) (f : Ring → Ring) : (modRing s n f).stale = s.stale := rfl
@[simp] theorem modRing_olds (s : State) (n : Nat) (f : Ring → Ring) : (modRing s n f).olds = s.olds := rfl
@[simp] theorem modRing_errCount (s : State) (n : Nat) (f : Ring → Ring) : (modRing s n f).errCount = s.errCount := rfl
@[simp] theorem modRing_inflight (s : State) (n : Nat) (f : Ring → Ring) : (modRing s n f).inflight = s.inflight := rfl
@[simp] theorem modRing_returns (s : State) (n : Nat) (f : Ring → Ring) : (modRing s n f).returns = s.returns := rfl
@[simp] theorem modRing_datoms (s : State) (n : Nat) (f : Ring → Ring) : (modRing s n f).datoms = s.datoms := rfl
@[simp] theorem modRing_dbufs (s : State) (n : Nat) (f : Ring → Ring) : (modRing s n f).dbufs = s.dbufs := rfl
@[simp] theorem modRing_dies (s : State) (n : Nat) (f : Ring → Ring) : (modRing s n f).dies = s.dies := rfl
@[simp] theorem modRing_cores (s : State) (n : Nat) (f : Ring → Ring) : (modRing s n f).cores = s.cores := rfl
@[simp] theorem modRing_ctxs (s : State) (n : Nat) (f : Ring → Ring) : (modRing s n f).ctxs = s.ctxs := rfl
@[simp] theorem modRing_domains (s : State) (n : Nat) (f : Ring → Ring) : (modRing s n f).domains = s.domains := rfl
@[simp] theorem modRing_streams (s : State) (n : Nat) (f : Ring → Ring) : (modRing s n f).streams = s.streams := rfl
@[simp] theorem modRing_decStreams (s : State) (n : Nat) (f : Ring → Ring) : (modRing s n f).decStreams = s.decStreams := rfl
@[simp] theorem modRing_parts (s : State) (n : Nat) (f : Ring → Ring) : (modRing s n f).parts = s.parts := rfl
@[simp] theorem modRing_pageReqs (s : State) (n : Nat) (f : Ring → Ring) : (modRing s n f).pageReqs = s.pageReqs := rfl
@[simp] theorem modRing_pulls (s : State) (n : Nat) (f : Ring → Ring) : (modRing s n f).pulls = s.pulls := rfl
@[simp] theorem modRing_pageCmds (s : State) (n : Nat) (f : Ring → Ring) : (modRing s n f).pageCmds = s.pageCmds := rfl
@[simp] theorem modRing_mbox (s : State) (n : Nat) (f : Ring → Ring) : (modRing s n f).mbox = s.mbox := rfl
@[simp] theorem modRing_mailReq (s : State) (n : Nat) (f : Ring → Ring) : (modRing s n f).mailReq = s.mailReq := rfl
@[simp] theorem modRing_mailLast (s : State) (n : Nat) (f : Ring → Ring) : (modRing s n f).mailLast = s.mailLast := rfl
@[simp] theorem modRing_fwQ (s : State) (n : Nat) (f : Ring → Ring) : (modRing s n f).fwQ = s.fwQ := rfl
@[simp] theorem modRing_hostRd (s : State) (n : Nat) (f : Ring → Ring) : (modRing s n f).hostRd = s.hostRd := rfl
@[simp] theorem modRing_msCache (s : State) (n : Nat) (f : Ring → Ring) : (modRing s n f).msCache = s.msCache := rfl
@[simp] theorem modRing_sysMsgs (s : State) (n : Nat) (f : Ring → Ring) : (modRing s n f).sysMsgs = s.sysMsgs := rfl
@[simp] theorem modRing_spdm (s : State) (n : Nat) (f : Ring → Ring) : (modRing s n f).spdm = s.spdm := rfl
@[simp] theorem modRing_unlockCtr (s : State) (n : Nat) (f : Ring → Ring) : (modRing s n f).unlockCtr = s.unlockCtr := rfl
@[simp] theorem modRing_power (s : State) (n : Nat) (f : Ring → Ring) : (modRing s n f).power = s.power := rfl
@[simp] theorem modRing_pmPending (s : State) (n : Nat) (f : Ring → Ring) : (modRing s n f).pmPending = s.pmPending := rfl
@[simp] theorem modRing_pwrcap (s : State) (n : Nat) (f : Ring → Ring) : (modRing s n f).pwrcap = s.pwrcap := rfl
@[simp] theorem modRing_pwrLimit (s : State) (n : Nat) (f : Ring → Ring) : (modRing s n f).pwrLimit = s.pwrLimit := rfl
@[simp] theorem modRing_clockMhz (s : State) (n : Nat) (f : Ring → Ring) : (modRing s n f).clockMhz = s.clockMhz := rfl
@[simp] theorem modRing_fw (s : State) (n : Nat) (f : Ring → Ring) : (modRing s n f).fw = s.fw := rfl
@[simp] theorem modRing_node (s : State) (n : Nat) (f : Ring → Ring) : (modRing s n f).node = s.node := rfl
@[simp] theorem modRing_routes (s : State) (n : Nat) (f : Ring → Ring) : (modRing s n f).routes = s.routes := rfl
@[simp] theorem modRing_linkStream (s : State) (n : Nat) (f : Ring → Ring) : (modRing s n f).linkStream = s.linkStream := rfl
@[simp] theorem modRing_ports (s : State) (n : Nat) (f : Ring → Ring) : (modRing s n f).ports = s.ports := rfl
@[simp] theorem modRing_ucie (s : State) (n : Nat) (f : Ring → Ring) : (modRing s n f).ucie = s.ucie := rfl
@[simp] theorem modRing_noModule (s : State) (n : Nat) (f : Ring → Ring) : (modRing s n f).noModule = s.noModule := rfl
@[simp] theorem modRing_probes (s : State) (n : Nat) (f : Ring → Ring) : (modRing s n f).probes = s.probes := rfl
@[simp] theorem modRing_schedule (s : State) (n : Nat) (f : Ring → Ring) : (modRing s n f).schedule = s.schedule := rfl
@[simp] theorem modRing_stepping (s : State) (n : Nat) (f : Ring → Ring) : (modRing s n f).stepping = s.stepping := rfl
@[simp] theorem modRing_cur (s : State) (n : Nat) (f : Ring → Ring) : (modRing s n f).cur = s.cur := rfl
@[simp] theorem modRing_nextId (s : State) (n : Nat) (f : Ring → Ring) : (modRing s n f).nextId = s.nextId := rfl
@[simp] theorem modRing_freeCtr (s : State) (n : Nat) (f : Ring → Ring) : (modRing s n f).freeCtr = s.freeCtr := rfl

@[simp] theorem modPart_mem (s : State) (n : Nat) (f : Part → Part) : (modPart s n f).mem = s.mem := rfl
@[simp] theorem modPart_poison (s : State) (n : Nat) (f : Part → Part) : (modPart s n f).poison = s.poison := rfl
@[simp] theorem modPart_promo (s : State) (n : Nat) (f : Part → Part) : (modPart s n f).promo = s.promo := rfl
@[simp] theorem modPart_lineRec (s : State) (n : Nat) (f : Part → Part) : (modPart s n f).lineRec = s.lineRec := rfl
@[simp] theorem modPart_stale (s : State) (n : Nat) (f : Part → Part) : (modPart s n f).stale = s.stale := rfl
@[simp] theorem modPart_olds (s : State) (n : Nat) (f : Part → Part) : (modPart s n f).olds = s.olds := rfl
@[simp] theorem modPart_errCount (s : State) (n : Nat) (f : Part → Part) : (modPart s n f).errCount = s.errCount := rfl
@[simp] theorem modPart_inflight (s : State) (n : Nat) (f : Part → Part) : (modPart s n f).inflight = s.inflight := rfl
@[simp] theorem modPart_returns (s : State) (n : Nat) (f : Part → Part) : (modPart s n f).returns = s.returns := rfl
@[simp] theorem modPart_datoms (s : State) (n : Nat) (f : Part → Part) : (modPart s n f).datoms = s.datoms := rfl
@[simp] theorem modPart_dbufs (s : State) (n : Nat) (f : Part → Part) : (modPart s n f).dbufs = s.dbufs := rfl
@[simp] theorem modPart_dies (s : State) (n : Nat) (f : Part → Part) : (modPart s n f).dies = s.dies := rfl
@[simp] theorem modPart_cores (s : State) (n : Nat) (f : Part → Part) : (modPart s n f).cores = s.cores := rfl
@[simp] theorem modPart_ctxs (s : State) (n : Nat) (f : Part → Part) : (modPart s n f).ctxs = s.ctxs := rfl
@[simp] theorem modPart_domains (s : State) (n : Nat) (f : Part → Part) : (modPart s n f).domains = s.domains := rfl
@[simp] theorem modPart_streams (s : State) (n : Nat) (f : Part → Part) : (modPart s n f).streams = s.streams := rfl
@[simp] theorem modPart_decStreams (s : State) (n : Nat) (f : Part → Part) : (modPart s n f).decStreams = s.decStreams := rfl
@[simp] theorem modPart_rings (s : State) (n : Nat) (f : Part → Part) : (modPart s n f).rings = s.rings := rfl
@[simp] theorem modPart_pageReqs (s : State) (n : Nat) (f : Part → Part) : (modPart s n f).pageReqs = s.pageReqs := rfl
@[simp] theorem modPart_pulls (s : State) (n : Nat) (f : Part → Part) : (modPart s n f).pulls = s.pulls := rfl
@[simp] theorem modPart_pageCmds (s : State) (n : Nat) (f : Part → Part) : (modPart s n f).pageCmds = s.pageCmds := rfl
@[simp] theorem modPart_mbox (s : State) (n : Nat) (f : Part → Part) : (modPart s n f).mbox = s.mbox := rfl
@[simp] theorem modPart_mailReq (s : State) (n : Nat) (f : Part → Part) : (modPart s n f).mailReq = s.mailReq := rfl
@[simp] theorem modPart_mailLast (s : State) (n : Nat) (f : Part → Part) : (modPart s n f).mailLast = s.mailLast := rfl
@[simp] theorem modPart_fwQ (s : State) (n : Nat) (f : Part → Part) : (modPart s n f).fwQ = s.fwQ := rfl
@[simp] theorem modPart_hostRd (s : State) (n : Nat) (f : Part → Part) : (modPart s n f).hostRd = s.hostRd := rfl
@[simp] theorem modPart_msCache (s : State) (n : Nat) (f : Part → Part) : (modPart s n f).msCache = s.msCache := rfl
@[simp] theorem modPart_sysMsgs (s : State) (n : Nat) (f : Part → Part) : (modPart s n f).sysMsgs = s.sysMsgs := rfl
@[simp] theorem modPart_spdm (s : State) (n : Nat) (f : Part → Part) : (modPart s n f).spdm = s.spdm := rfl
@[simp] theorem modPart_unlockCtr (s : State) (n : Nat) (f : Part → Part) : (modPart s n f).unlockCtr = s.unlockCtr := rfl
@[simp] theorem modPart_power (s : State) (n : Nat) (f : Part → Part) : (modPart s n f).power = s.power := rfl
@[simp] theorem modPart_pmPending (s : State) (n : Nat) (f : Part → Part) : (modPart s n f).pmPending = s.pmPending := rfl
@[simp] theorem modPart_pwrcap (s : State) (n : Nat) (f : Part → Part) : (modPart s n f).pwrcap = s.pwrcap := rfl
@[simp] theorem modPart_pwrLimit (s : State) (n : Nat) (f : Part → Part) : (modPart s n f).pwrLimit = s.pwrLimit := rfl
@[simp] theorem modPart_clockMhz (s : State) (n : Nat) (f : Part → Part) : (modPart s n f).clockMhz = s.clockMhz := rfl
@[simp] theorem modPart_fw (s : State) (n : Nat) (f : Part → Part) : (modPart s n f).fw = s.fw := rfl
@[simp] theorem modPart_node (s : State) (n : Nat) (f : Part → Part) : (modPart s n f).node = s.node := rfl
@[simp] theorem modPart_routes (s : State) (n : Nat) (f : Part → Part) : (modPart s n f).routes = s.routes := rfl
@[simp] theorem modPart_linkStream (s : State) (n : Nat) (f : Part → Part) : (modPart s n f).linkStream = s.linkStream := rfl
@[simp] theorem modPart_ports (s : State) (n : Nat) (f : Part → Part) : (modPart s n f).ports = s.ports := rfl
@[simp] theorem modPart_ucie (s : State) (n : Nat) (f : Part → Part) : (modPart s n f).ucie = s.ucie := rfl
@[simp] theorem modPart_noModule (s : State) (n : Nat) (f : Part → Part) : (modPart s n f).noModule = s.noModule := rfl
@[simp] theorem modPart_probes (s : State) (n : Nat) (f : Part → Part) : (modPart s n f).probes = s.probes := rfl
@[simp] theorem modPart_schedule (s : State) (n : Nat) (f : Part → Part) : (modPart s n f).schedule = s.schedule := rfl
@[simp] theorem modPart_stepping (s : State) (n : Nat) (f : Part → Part) : (modPart s n f).stepping = s.stepping := rfl
@[simp] theorem modPart_cur (s : State) (n : Nat) (f : Part → Part) : (modPart s n f).cur = s.cur := rfl
@[simp] theorem modPart_nextId (s : State) (n : Nat) (f : Part → Part) : (modPart s n f).nextId = s.nextId := rfl
@[simp] theorem modPart_freeCtr (s : State) (n : Nat) (f : Part → Part) : (modPart s n f).freeCtr = s.freeCtr := rfl

@[simp] theorem modPort_mem (s : State) (n : Nat) (f : Port → Port) : (modPort s n f).mem = s.mem := rfl
@[simp] theorem modPort_poison (s : State) (n : Nat) (f : Port → Port) : (modPort s n f).poison = s.poison := rfl
@[simp] theorem modPort_promo (s : State) (n : Nat) (f : Port → Port) : (modPort s n f).promo = s.promo := rfl
@[simp] theorem modPort_lineRec (s : State) (n : Nat) (f : Port → Port) : (modPort s n f).lineRec = s.lineRec := rfl
@[simp] theorem modPort_stale (s : State) (n : Nat) (f : Port → Port) : (modPort s n f).stale = s.stale := rfl
@[simp] theorem modPort_olds (s : State) (n : Nat) (f : Port → Port) : (modPort s n f).olds = s.olds := rfl
@[simp] theorem modPort_errCount (s : State) (n : Nat) (f : Port → Port) : (modPort s n f).errCount = s.errCount := rfl
@[simp] theorem modPort_inflight (s : State) (n : Nat) (f : Port → Port) : (modPort s n f).inflight = s.inflight := rfl
@[simp] theorem modPort_returns (s : State) (n : Nat) (f : Port → Port) : (modPort s n f).returns = s.returns := rfl
@[simp] theorem modPort_datoms (s : State) (n : Nat) (f : Port → Port) : (modPort s n f).datoms = s.datoms := rfl
@[simp] theorem modPort_dbufs (s : State) (n : Nat) (f : Port → Port) : (modPort s n f).dbufs = s.dbufs := rfl
@[simp] theorem modPort_dies (s : State) (n : Nat) (f : Port → Port) : (modPort s n f).dies = s.dies := rfl
@[simp] theorem modPort_cores (s : State) (n : Nat) (f : Port → Port) : (modPort s n f).cores = s.cores := rfl
@[simp] theorem modPort_ctxs (s : State) (n : Nat) (f : Port → Port) : (modPort s n f).ctxs = s.ctxs := rfl
@[simp] theorem modPort_domains (s : State) (n : Nat) (f : Port → Port) : (modPort s n f).domains = s.domains := rfl
@[simp] theorem modPort_streams (s : State) (n : Nat) (f : Port → Port) : (modPort s n f).streams = s.streams := rfl
@[simp] theorem modPort_decStreams (s : State) (n : Nat) (f : Port → Port) : (modPort s n f).decStreams = s.decStreams := rfl
@[simp] theorem modPort_rings (s : State) (n : Nat) (f : Port → Port) : (modPort s n f).rings = s.rings := rfl
@[simp] theorem modPort_parts (s : State) (n : Nat) (f : Port → Port) : (modPort s n f).parts = s.parts := rfl
@[simp] theorem modPort_pageReqs (s : State) (n : Nat) (f : Port → Port) : (modPort s n f).pageReqs = s.pageReqs := rfl
@[simp] theorem modPort_pulls (s : State) (n : Nat) (f : Port → Port) : (modPort s n f).pulls = s.pulls := rfl
@[simp] theorem modPort_pageCmds (s : State) (n : Nat) (f : Port → Port) : (modPort s n f).pageCmds = s.pageCmds := rfl
@[simp] theorem modPort_mbox (s : State) (n : Nat) (f : Port → Port) : (modPort s n f).mbox = s.mbox := rfl
@[simp] theorem modPort_mailReq (s : State) (n : Nat) (f : Port → Port) : (modPort s n f).mailReq = s.mailReq := rfl
@[simp] theorem modPort_mailLast (s : State) (n : Nat) (f : Port → Port) : (modPort s n f).mailLast = s.mailLast := rfl
@[simp] theorem modPort_fwQ (s : State) (n : Nat) (f : Port → Port) : (modPort s n f).fwQ = s.fwQ := rfl
@[simp] theorem modPort_hostRd (s : State) (n : Nat) (f : Port → Port) : (modPort s n f).hostRd = s.hostRd := rfl
@[simp] theorem modPort_msCache (s : State) (n : Nat) (f : Port → Port) : (modPort s n f).msCache = s.msCache := rfl
@[simp] theorem modPort_sysMsgs (s : State) (n : Nat) (f : Port → Port) : (modPort s n f).sysMsgs = s.sysMsgs := rfl
@[simp] theorem modPort_spdm (s : State) (n : Nat) (f : Port → Port) : (modPort s n f).spdm = s.spdm := rfl
@[simp] theorem modPort_unlockCtr (s : State) (n : Nat) (f : Port → Port) : (modPort s n f).unlockCtr = s.unlockCtr := rfl
@[simp] theorem modPort_power (s : State) (n : Nat) (f : Port → Port) : (modPort s n f).power = s.power := rfl
@[simp] theorem modPort_pmPending (s : State) (n : Nat) (f : Port → Port) : (modPort s n f).pmPending = s.pmPending := rfl
@[simp] theorem modPort_pwrcap (s : State) (n : Nat) (f : Port → Port) : (modPort s n f).pwrcap = s.pwrcap := rfl
@[simp] theorem modPort_pwrLimit (s : State) (n : Nat) (f : Port → Port) : (modPort s n f).pwrLimit = s.pwrLimit := rfl
@[simp] theorem modPort_clockMhz (s : State) (n : Nat) (f : Port → Port) : (modPort s n f).clockMhz = s.clockMhz := rfl
@[simp] theorem modPort_fw (s : State) (n : Nat) (f : Port → Port) : (modPort s n f).fw = s.fw := rfl
@[simp] theorem modPort_node (s : State) (n : Nat) (f : Port → Port) : (modPort s n f).node = s.node := rfl
@[simp] theorem modPort_routes (s : State) (n : Nat) (f : Port → Port) : (modPort s n f).routes = s.routes := rfl
@[simp] theorem modPort_linkStream (s : State) (n : Nat) (f : Port → Port) : (modPort s n f).linkStream = s.linkStream := rfl
@[simp] theorem modPort_ucie (s : State) (n : Nat) (f : Port → Port) : (modPort s n f).ucie = s.ucie := rfl
@[simp] theorem modPort_noModule (s : State) (n : Nat) (f : Port → Port) : (modPort s n f).noModule = s.noModule := rfl
@[simp] theorem modPort_probes (s : State) (n : Nat) (f : Port → Port) : (modPort s n f).probes = s.probes := rfl
@[simp] theorem modPort_schedule (s : State) (n : Nat) (f : Port → Port) : (modPort s n f).schedule = s.schedule := rfl
@[simp] theorem modPort_stepping (s : State) (n : Nat) (f : Port → Port) : (modPort s n f).stepping = s.stepping := rfl
@[simp] theorem modPort_cur (s : State) (n : Nat) (f : Port → Port) : (modPort s n f).cur = s.cur := rfl
@[simp] theorem modPort_nextId (s : State) (n : Nat) (f : Port → Port) : (modPort s n f).nextId = s.nextId := rfl
@[simp] theorem modPort_freeCtr (s : State) (n : Nat) (f : Port → Port) : (modPort s n f).freeCtr = s.freeCtr := rfl

@[simp] theorem coreOf_modCore (s : State) (n q : Nat) (f : Core → Core) :
    coreOf (modCore s n f) q = if q = n then f (coreOf s n) else coreOf s q := by
  unfold coreOf modCore
  simp only [mapGet_mapSet]
  split <;> simp_all [coreOf]

@[simp] theorem dieOf_modDie (s : State) (n q : Nat) (f : Die → Die) :
    dieOf (modDie s n f) q = if q = n then f (dieOf s n) else dieOf s q := by
  unfold dieOf modDie
  simp only [mapGet_mapSet]
  split <;> simp_all [dieOf]

@[simp] theorem ctxOf_modCtx (s : State) (n q : Nat) (f : Context → Context) :
    ctxOf (modCtx s n f) q = if q = n then f (ctxOf s n) else ctxOf s q := by
  unfold ctxOf modCtx
  simp only [mapGet_mapSet]
  split <;> simp_all [ctxOf]

@[simp] theorem domOf_modDom (s : State) (n q : Nat) (f : Domain → Domain) :
    domOf (modDom s n f) q = if q = n then f (domOf s n) else domOf s q := by
  unfold domOf modDom
  simp only [mapGet_mapSet]
  split <;> simp_all [domOf]

@[simp] theorem streamOf_modStream (s : State) (n q : Nat) (f : Stream → Stream) :
    streamOf (modStream s n f) q = if q = n then f (streamOf s n) else streamOf s q := by
  unfold streamOf modStream
  simp only [mapGet_mapSet]
  split <;> simp_all [streamOf]

@[simp] theorem ringOf_modRing (s : State) (n q : Nat) (f : Ring → Ring) :
    ringOf (modRing s n f) q = if q = n then f (ringOf s n) else ringOf s q := by
  unfold ringOf modRing
  simp only [mapGet_mapSet]
  split <;> simp_all [ringOf]

@[simp] theorem partOf_modPart (s : State) (n q : Nat) (f : Part → Part) :
    partOf (modPart s n f) q = if q = n then f (partOf s n) else partOf s q := by
  unfold partOf modPart
  simp only [mapGet_mapSet]
  split <;> simp_all [partOf]

@[simp] theorem portOf_modPort (s : State) (n q : Nat) (f : Port → Port) :
    portOf (modPort s n f) q = if q = n then f (portOf s n) else portOf s q := by
  unfold portOf modPort
  simp only [mapGet_mapSet]
  split <;> simp_all [portOf]

@[simp] theorem dieOf_modCore (s : State) (n q : Nat) (f : Core → Core) : dieOf (modCore s n f) q = dieOf s q := rfl
@[simp] theorem ctxOf_modCore (s : State) (n q : Nat) (f : Core → Core) : ctxOf (modCore s n f) q = ctxOf s q := rfl
@[simp] theorem domOf_modCore (s : State) (n q : Nat) (f : Core → Core) : domOf (modCore s n f) q = domOf s q := rfl
@[simp] theorem streamOf_modCore (s : State) (n q : Nat) (f : Core → Core) : streamOf (modCore s n f) q = streamOf s q := rfl
@[simp] theorem ringOf_modCore (s : State) (n q : Nat) (f : Core → Core) : ringOf (modCore s n f) q = ringOf s q := rfl
@[simp] theorem partOf_modCore (s : State) (n q : Nat) (f : Core → Core) : partOf (modCore s n f) q = partOf s q := rfl
@[simp] theorem portOf_modCore (s : State) (n q : Nat) (f : Core → Core) : portOf (modCore s n f) q = portOf s q := rfl
@[simp] theorem coreOf_modDie (s : State) (n q : Nat) (f : Die → Die) : coreOf (modDie s n f) q = coreOf s q := rfl
@[simp] theorem ctxOf_modDie (s : State) (n q : Nat) (f : Die → Die) : ctxOf (modDie s n f) q = ctxOf s q := rfl
@[simp] theorem domOf_modDie (s : State) (n q : Nat) (f : Die → Die) : domOf (modDie s n f) q = domOf s q := rfl
@[simp] theorem streamOf_modDie (s : State) (n q : Nat) (f : Die → Die) : streamOf (modDie s n f) q = streamOf s q := rfl
@[simp] theorem ringOf_modDie (s : State) (n q : Nat) (f : Die → Die) : ringOf (modDie s n f) q = ringOf s q := rfl
@[simp] theorem partOf_modDie (s : State) (n q : Nat) (f : Die → Die) : partOf (modDie s n f) q = partOf s q := rfl
@[simp] theorem portOf_modDie (s : State) (n q : Nat) (f : Die → Die) : portOf (modDie s n f) q = portOf s q := rfl
@[simp] theorem coreOf_modCtx (s : State) (n q : Nat) (f : Context → Context) : coreOf (modCtx s n f) q = coreOf s q := rfl
@[simp] theorem dieOf_modCtx (s : State) (n q : Nat) (f : Context → Context) : dieOf (modCtx s n f) q = dieOf s q := rfl
@[simp] theorem domOf_modCtx (s : State) (n q : Nat) (f : Context → Context) : domOf (modCtx s n f) q = domOf s q := rfl
@[simp] theorem streamOf_modCtx (s : State) (n q : Nat) (f : Context → Context) : streamOf (modCtx s n f) q = streamOf s q := rfl
@[simp] theorem ringOf_modCtx (s : State) (n q : Nat) (f : Context → Context) : ringOf (modCtx s n f) q = ringOf s q := rfl
@[simp] theorem partOf_modCtx (s : State) (n q : Nat) (f : Context → Context) : partOf (modCtx s n f) q = partOf s q := rfl
@[simp] theorem portOf_modCtx (s : State) (n q : Nat) (f : Context → Context) : portOf (modCtx s n f) q = portOf s q := rfl
@[simp] theorem coreOf_modDom (s : State) (n q : Nat) (f : Domain → Domain) : coreOf (modDom s n f) q = coreOf s q := rfl
@[simp] theorem dieOf_modDom (s : State) (n q : Nat) (f : Domain → Domain) : dieOf (modDom s n f) q = dieOf s q := rfl
@[simp] theorem ctxOf_modDom (s : State) (n q : Nat) (f : Domain → Domain) : ctxOf (modDom s n f) q = ctxOf s q := rfl
@[simp] theorem streamOf_modDom (s : State) (n q : Nat) (f : Domain → Domain) : streamOf (modDom s n f) q = streamOf s q := rfl
@[simp] theorem ringOf_modDom (s : State) (n q : Nat) (f : Domain → Domain) : ringOf (modDom s n f) q = ringOf s q := rfl
@[simp] theorem partOf_modDom (s : State) (n q : Nat) (f : Domain → Domain) : partOf (modDom s n f) q = partOf s q := rfl
@[simp] theorem portOf_modDom (s : State) (n q : Nat) (f : Domain → Domain) : portOf (modDom s n f) q = portOf s q := rfl
@[simp] theorem coreOf_modStream (s : State) (n q : Nat) (f : Stream → Stream) : coreOf (modStream s n f) q = coreOf s q := rfl
@[simp] theorem dieOf_modStream (s : State) (n q : Nat) (f : Stream → Stream) : dieOf (modStream s n f) q = dieOf s q := rfl
@[simp] theorem ctxOf_modStream (s : State) (n q : Nat) (f : Stream → Stream) : ctxOf (modStream s n f) q = ctxOf s q := rfl
@[simp] theorem domOf_modStream (s : State) (n q : Nat) (f : Stream → Stream) : domOf (modStream s n f) q = domOf s q := rfl
@[simp] theorem ringOf_modStream (s : State) (n q : Nat) (f : Stream → Stream) : ringOf (modStream s n f) q = ringOf s q := rfl
@[simp] theorem partOf_modStream (s : State) (n q : Nat) (f : Stream → Stream) : partOf (modStream s n f) q = partOf s q := rfl
@[simp] theorem portOf_modStream (s : State) (n q : Nat) (f : Stream → Stream) : portOf (modStream s n f) q = portOf s q := rfl
@[simp] theorem coreOf_modRing (s : State) (n q : Nat) (f : Ring → Ring) : coreOf (modRing s n f) q = coreOf s q := rfl
@[simp] theorem dieOf_modRing (s : State) (n q : Nat) (f : Ring → Ring) : dieOf (modRing s n f) q = dieOf s q := rfl
@[simp] theorem ctxOf_modRing (s : State) (n q : Nat) (f : Ring → Ring) : ctxOf (modRing s n f) q = ctxOf s q := rfl
@[simp] theorem domOf_modRing (s : State) (n q : Nat) (f : Ring → Ring) : domOf (modRing s n f) q = domOf s q := rfl
@[simp] theorem streamOf_modRing (s : State) (n q : Nat) (f : Ring → Ring) : streamOf (modRing s n f) q = streamOf s q := rfl
@[simp] theorem partOf_modRing (s : State) (n q : Nat) (f : Ring → Ring) : partOf (modRing s n f) q = partOf s q := rfl
@[simp] theorem portOf_modRing (s : State) (n q : Nat) (f : Ring → Ring) : portOf (modRing s n f) q = portOf s q := rfl
@[simp] theorem coreOf_modPart (s : State) (n q : Nat) (f : Part → Part) : coreOf (modPart s n f) q = coreOf s q := rfl
@[simp] theorem dieOf_modPart (s : State) (n q : Nat) (f : Part → Part) : dieOf (modPart s n f) q = dieOf s q := rfl
@[simp] theorem ctxOf_modPart (s : State) (n q : Nat) (f : Part → Part) : ctxOf (modPart s n f) q = ctxOf s q := rfl
@[simp] theorem domOf_modPart (s : State) (n q : Nat) (f : Part → Part) : domOf (modPart s n f) q = domOf s q := rfl
@[simp] theorem streamOf_modPart (s : State) (n q : Nat) (f : Part → Part) : streamOf (modPart s n f) q = streamOf s q := rfl
@[simp] theorem ringOf_modPart (s : State) (n q : Nat) (f : Part → Part) : ringOf (modPart s n f) q = ringOf s q := rfl
@[simp] theorem portOf_modPart (s : State) (n q : Nat) (f : Part → Part) : portOf (modPart s n f) q = portOf s q := rfl
@[simp] theorem coreOf_modPort (s : State) (n q : Nat) (f : Port → Port) : coreOf (modPort s n f) q = coreOf s q := rfl
@[simp] theorem dieOf_modPort (s : State) (n q : Nat) (f : Port → Port) : dieOf (modPort s n f) q = dieOf s q := rfl
@[simp] theorem ctxOf_modPort (s : State) (n q : Nat) (f : Port → Port) : ctxOf (modPort s n f) q = ctxOf s q := rfl
@[simp] theorem domOf_modPort (s : State) (n q : Nat) (f : Port → Port) : domOf (modPort s n f) q = domOf s q := rfl
@[simp] theorem streamOf_modPort (s : State) (n q : Nat) (f : Port → Port) : streamOf (modPort s n f) q = streamOf s q := rfl
@[simp] theorem ringOf_modPort (s : State) (n q : Nat) (f : Port → Port) : ringOf (modPort s n f) q = ringOf s q := rfl
@[simp] theorem partOf_modPort (s : State) (n q : Nat) (f : Port → Port) : partOf (modPort s n f) q = partOf s q := rfl

@[simp] theorem modGroup_mem (s : State) (c g : Nat) (f : Group → Group) : (modGroup s c g f).mem = s.mem := by
  unfold modGroup
  split <;> rfl
@[simp] theorem modWarp_mem (s : State) (c g w : Nat) (f : Warp → Warp) : (modWarp s c g w f).mem = s.mem := modGroup_mem s c g _
@[simp] theorem modSplit_mem (s : State) (w : Who) (f : Split → Split) : (modSplit s w f).mem = s.mem := modWarp_mem s _ _ _ _
@[simp] theorem onGroup_mem (s : State) (x : Iss) (f : Group → Group) : (onGroup s x f).mem = s.mem := modGroup_mem s _ _ f
@[simp] theorem onWarp_mem (s : State) (x : Iss) (f : Warp → Warp) : (onWarp s x f).mem = s.mem := modWarp_mem s _ _ _ f
@[simp] theorem onSplit_mem (s : State) (x : Iss) (f : Split → Split) : (onSplit s x f).mem = s.mem := modSplit_mem s _ f
@[simp] theorem noteRank_mem (s : State) (w : Who) : (noteRank s w).mem = s.mem := rfl
@[simp] theorem setBlocked_mem (s : State) (w : Who) (b : Block) : (setBlocked s w b).mem = s.mem := by
  unfold setBlocked
  split
  · exact (modWarp_mem _ _ _ _ _).trans (noteRank_mem s w)
  · exact (modWarp_mem _ _ _ _ _).trans rfl
@[simp] theorem noteIssue_mem (s : State) (x : Iss) : (noteIssue s x).mem = s.mem := (modWarp_mem _ _ _ _ _).trans (noteRank_mem s x.w)
@[simp] theorem endIssue_mem (s : State) (x : Iss) : (endIssue s x).mem = s.mem := (modWarp_mem _ _ _ _ _).trans (noteIssue_mem s x)
@[simp] theorem awaitEnd_mem (s : State) (x : Iss) (b : Block) : (awaitEnd s x b).mem = s.mem := (modWarp_mem _ _ _ _ _).trans (noteIssue_mem s x)
@[simp] theorem stepPc_mem (s : State) (w : Who) (n : Nat) : (stepPc s w n).mem = s.mem := modSplit_mem s _ _
@[simp] theorem stopSpeculation_mem (s : State) (w : Who) : (stopSpeculation s w).mem = s.mem := modWarp_mem s _ _ _ _

@[simp] theorem modGroup_poison (s : State) (c g : Nat) (f : Group → Group) : (modGroup s c g f).poison = s.poison := by
  unfold modGroup
  split <;> rfl
@[simp] theorem modWarp_poison (s : State) (c g w : Nat) (f : Warp → Warp) : (modWarp s c g w f).poison = s.poison := modGroup_poison s c g _
@[simp] theorem modSplit_poison (s : State) (w : Who) (f : Split → Split) : (modSplit s w f).poison = s.poison := modWarp_poison s _ _ _ _
@[simp] theorem onGroup_poison (s : State) (x : Iss) (f : Group → Group) : (onGroup s x f).poison = s.poison := modGroup_poison s _ _ f
@[simp] theorem onWarp_poison (s : State) (x : Iss) (f : Warp → Warp) : (onWarp s x f).poison = s.poison := modWarp_poison s _ _ _ f
@[simp] theorem onSplit_poison (s : State) (x : Iss) (f : Split → Split) : (onSplit s x f).poison = s.poison := modSplit_poison s _ f
@[simp] theorem noteRank_poison (s : State) (w : Who) : (noteRank s w).poison = s.poison := rfl
@[simp] theorem setBlocked_poison (s : State) (w : Who) (b : Block) : (setBlocked s w b).poison = s.poison := by
  unfold setBlocked
  split
  · exact (modWarp_poison _ _ _ _ _).trans (noteRank_poison s w)
  · exact (modWarp_poison _ _ _ _ _).trans rfl
@[simp] theorem noteIssue_poison (s : State) (x : Iss) : (noteIssue s x).poison = s.poison := (modWarp_poison _ _ _ _ _).trans (noteRank_poison s x.w)
@[simp] theorem endIssue_poison (s : State) (x : Iss) : (endIssue s x).poison = s.poison := (modWarp_poison _ _ _ _ _).trans (noteIssue_poison s x)
@[simp] theorem awaitEnd_poison (s : State) (x : Iss) (b : Block) : (awaitEnd s x b).poison = s.poison := (modWarp_poison _ _ _ _ _).trans (noteIssue_poison s x)
@[simp] theorem stepPc_poison (s : State) (w : Who) (n : Nat) : (stepPc s w n).poison = s.poison := modSplit_poison s _ _
@[simp] theorem stopSpeculation_poison (s : State) (w : Who) : (stopSpeculation s w).poison = s.poison := modWarp_poison s _ _ _ _

@[simp] theorem modGroup_promo (s : State) (c g : Nat) (f : Group → Group) : (modGroup s c g f).promo = s.promo := by
  unfold modGroup
  split <;> rfl
@[simp] theorem modWarp_promo (s : State) (c g w : Nat) (f : Warp → Warp) : (modWarp s c g w f).promo = s.promo := modGroup_promo s c g _
@[simp] theorem modSplit_promo (s : State) (w : Who) (f : Split → Split) : (modSplit s w f).promo = s.promo := modWarp_promo s _ _ _ _
@[simp] theorem onGroup_promo (s : State) (x : Iss) (f : Group → Group) : (onGroup s x f).promo = s.promo := modGroup_promo s _ _ f
@[simp] theorem onWarp_promo (s : State) (x : Iss) (f : Warp → Warp) : (onWarp s x f).promo = s.promo := modWarp_promo s _ _ _ f
@[simp] theorem onSplit_promo (s : State) (x : Iss) (f : Split → Split) : (onSplit s x f).promo = s.promo := modSplit_promo s _ f
@[simp] theorem noteRank_promo (s : State) (w : Who) : (noteRank s w).promo = s.promo := rfl
@[simp] theorem setBlocked_promo (s : State) (w : Who) (b : Block) : (setBlocked s w b).promo = s.promo := by
  unfold setBlocked
  split
  · exact (modWarp_promo _ _ _ _ _).trans (noteRank_promo s w)
  · exact (modWarp_promo _ _ _ _ _).trans rfl
@[simp] theorem noteIssue_promo (s : State) (x : Iss) : (noteIssue s x).promo = s.promo := (modWarp_promo _ _ _ _ _).trans (noteRank_promo s x.w)
@[simp] theorem endIssue_promo (s : State) (x : Iss) : (endIssue s x).promo = s.promo := (modWarp_promo _ _ _ _ _).trans (noteIssue_promo s x)
@[simp] theorem awaitEnd_promo (s : State) (x : Iss) (b : Block) : (awaitEnd s x b).promo = s.promo := (modWarp_promo _ _ _ _ _).trans (noteIssue_promo s x)
@[simp] theorem stepPc_promo (s : State) (w : Who) (n : Nat) : (stepPc s w n).promo = s.promo := modSplit_promo s _ _
@[simp] theorem stopSpeculation_promo (s : State) (w : Who) : (stopSpeculation s w).promo = s.promo := modWarp_promo s _ _ _ _

@[simp] theorem modGroup_lineRec (s : State) (c g : Nat) (f : Group → Group) : (modGroup s c g f).lineRec = s.lineRec := by
  unfold modGroup
  split <;> rfl
@[simp] theorem modWarp_lineRec (s : State) (c g w : Nat) (f : Warp → Warp) : (modWarp s c g w f).lineRec = s.lineRec := modGroup_lineRec s c g _
@[simp] theorem modSplit_lineRec (s : State) (w : Who) (f : Split → Split) : (modSplit s w f).lineRec = s.lineRec := modWarp_lineRec s _ _ _ _
@[simp] theorem onGroup_lineRec (s : State) (x : Iss) (f : Group → Group) : (onGroup s x f).lineRec = s.lineRec := modGroup_lineRec s _ _ f
@[simp] theorem onWarp_lineRec (s : State) (x : Iss) (f : Warp → Warp) : (onWarp s x f).lineRec = s.lineRec := modWarp_lineRec s _ _ _ f
@[simp] theorem onSplit_lineRec (s : State) (x : Iss) (f : Split → Split) : (onSplit s x f).lineRec = s.lineRec := modSplit_lineRec s _ f
@[simp] theorem noteRank_lineRec (s : State) (w : Who) : (noteRank s w).lineRec = s.lineRec := rfl
@[simp] theorem setBlocked_lineRec (s : State) (w : Who) (b : Block) : (setBlocked s w b).lineRec = s.lineRec := by
  unfold setBlocked
  split
  · exact (modWarp_lineRec _ _ _ _ _).trans (noteRank_lineRec s w)
  · exact (modWarp_lineRec _ _ _ _ _).trans rfl
@[simp] theorem noteIssue_lineRec (s : State) (x : Iss) : (noteIssue s x).lineRec = s.lineRec := (modWarp_lineRec _ _ _ _ _).trans (noteRank_lineRec s x.w)
@[simp] theorem endIssue_lineRec (s : State) (x : Iss) : (endIssue s x).lineRec = s.lineRec := (modWarp_lineRec _ _ _ _ _).trans (noteIssue_lineRec s x)
@[simp] theorem awaitEnd_lineRec (s : State) (x : Iss) (b : Block) : (awaitEnd s x b).lineRec = s.lineRec := (modWarp_lineRec _ _ _ _ _).trans (noteIssue_lineRec s x)
@[simp] theorem stepPc_lineRec (s : State) (w : Who) (n : Nat) : (stepPc s w n).lineRec = s.lineRec := modSplit_lineRec s _ _
@[simp] theorem stopSpeculation_lineRec (s : State) (w : Who) : (stopSpeculation s w).lineRec = s.lineRec := modWarp_lineRec s _ _ _ _

@[simp] theorem modGroup_stale (s : State) (c g : Nat) (f : Group → Group) : (modGroup s c g f).stale = s.stale := by
  unfold modGroup
  split <;> rfl
@[simp] theorem modWarp_stale (s : State) (c g w : Nat) (f : Warp → Warp) : (modWarp s c g w f).stale = s.stale := modGroup_stale s c g _
@[simp] theorem modSplit_stale (s : State) (w : Who) (f : Split → Split) : (modSplit s w f).stale = s.stale := modWarp_stale s _ _ _ _
@[simp] theorem onGroup_stale (s : State) (x : Iss) (f : Group → Group) : (onGroup s x f).stale = s.stale := modGroup_stale s _ _ f
@[simp] theorem onWarp_stale (s : State) (x : Iss) (f : Warp → Warp) : (onWarp s x f).stale = s.stale := modWarp_stale s _ _ _ f
@[simp] theorem onSplit_stale (s : State) (x : Iss) (f : Split → Split) : (onSplit s x f).stale = s.stale := modSplit_stale s _ f
@[simp] theorem noteRank_stale (s : State) (w : Who) : (noteRank s w).stale = s.stale := rfl
@[simp] theorem setBlocked_stale (s : State) (w : Who) (b : Block) : (setBlocked s w b).stale = s.stale := by
  unfold setBlocked
  split
  · exact (modWarp_stale _ _ _ _ _).trans (noteRank_stale s w)
  · exact (modWarp_stale _ _ _ _ _).trans rfl
@[simp] theorem noteIssue_stale (s : State) (x : Iss) : (noteIssue s x).stale = s.stale := (modWarp_stale _ _ _ _ _).trans (noteRank_stale s x.w)
@[simp] theorem endIssue_stale (s : State) (x : Iss) : (endIssue s x).stale = s.stale := (modWarp_stale _ _ _ _ _).trans (noteIssue_stale s x)
@[simp] theorem awaitEnd_stale (s : State) (x : Iss) (b : Block) : (awaitEnd s x b).stale = s.stale := (modWarp_stale _ _ _ _ _).trans (noteIssue_stale s x)
@[simp] theorem stepPc_stale (s : State) (w : Who) (n : Nat) : (stepPc s w n).stale = s.stale := modSplit_stale s _ _
@[simp] theorem stopSpeculation_stale (s : State) (w : Who) : (stopSpeculation s w).stale = s.stale := modWarp_stale s _ _ _ _

@[simp] theorem modGroup_olds (s : State) (c g : Nat) (f : Group → Group) : (modGroup s c g f).olds = s.olds := by
  unfold modGroup
  split <;> rfl
@[simp] theorem modWarp_olds (s : State) (c g w : Nat) (f : Warp → Warp) : (modWarp s c g w f).olds = s.olds := modGroup_olds s c g _
@[simp] theorem modSplit_olds (s : State) (w : Who) (f : Split → Split) : (modSplit s w f).olds = s.olds := modWarp_olds s _ _ _ _
@[simp] theorem onGroup_olds (s : State) (x : Iss) (f : Group → Group) : (onGroup s x f).olds = s.olds := modGroup_olds s _ _ f
@[simp] theorem onWarp_olds (s : State) (x : Iss) (f : Warp → Warp) : (onWarp s x f).olds = s.olds := modWarp_olds s _ _ _ f
@[simp] theorem onSplit_olds (s : State) (x : Iss) (f : Split → Split) : (onSplit s x f).olds = s.olds := modSplit_olds s _ f
@[simp] theorem noteRank_olds (s : State) (w : Who) : (noteRank s w).olds = s.olds := rfl
@[simp] theorem setBlocked_olds (s : State) (w : Who) (b : Block) : (setBlocked s w b).olds = s.olds := by
  unfold setBlocked
  split
  · exact (modWarp_olds _ _ _ _ _).trans (noteRank_olds s w)
  · exact (modWarp_olds _ _ _ _ _).trans rfl
@[simp] theorem noteIssue_olds (s : State) (x : Iss) : (noteIssue s x).olds = s.olds := (modWarp_olds _ _ _ _ _).trans (noteRank_olds s x.w)
@[simp] theorem endIssue_olds (s : State) (x : Iss) : (endIssue s x).olds = s.olds := (modWarp_olds _ _ _ _ _).trans (noteIssue_olds s x)
@[simp] theorem awaitEnd_olds (s : State) (x : Iss) (b : Block) : (awaitEnd s x b).olds = s.olds := (modWarp_olds _ _ _ _ _).trans (noteIssue_olds s x)
@[simp] theorem stepPc_olds (s : State) (w : Who) (n : Nat) : (stepPc s w n).olds = s.olds := modSplit_olds s _ _
@[simp] theorem stopSpeculation_olds (s : State) (w : Who) : (stopSpeculation s w).olds = s.olds := modWarp_olds s _ _ _ _

@[simp] theorem modGroup_errCount (s : State) (c g : Nat) (f : Group → Group) : (modGroup s c g f).errCount = s.errCount := by
  unfold modGroup
  split <;> rfl
@[simp] theorem modWarp_errCount (s : State) (c g w : Nat) (f : Warp → Warp) : (modWarp s c g w f).errCount = s.errCount := modGroup_errCount s c g _
@[simp] theorem modSplit_errCount (s : State) (w : Who) (f : Split → Split) : (modSplit s w f).errCount = s.errCount := modWarp_errCount s _ _ _ _
@[simp] theorem onGroup_errCount (s : State) (x : Iss) (f : Group → Group) : (onGroup s x f).errCount = s.errCount := modGroup_errCount s _ _ f
@[simp] theorem onWarp_errCount (s : State) (x : Iss) (f : Warp → Warp) : (onWarp s x f).errCount = s.errCount := modWarp_errCount s _ _ _ f
@[simp] theorem onSplit_errCount (s : State) (x : Iss) (f : Split → Split) : (onSplit s x f).errCount = s.errCount := modSplit_errCount s _ f
@[simp] theorem noteRank_errCount (s : State) (w : Who) : (noteRank s w).errCount = s.errCount := rfl
@[simp] theorem setBlocked_errCount (s : State) (w : Who) (b : Block) : (setBlocked s w b).errCount = s.errCount := by
  unfold setBlocked
  split
  · exact (modWarp_errCount _ _ _ _ _).trans (noteRank_errCount s w)
  · exact (modWarp_errCount _ _ _ _ _).trans rfl
@[simp] theorem noteIssue_errCount (s : State) (x : Iss) : (noteIssue s x).errCount = s.errCount := (modWarp_errCount _ _ _ _ _).trans (noteRank_errCount s x.w)
@[simp] theorem endIssue_errCount (s : State) (x : Iss) : (endIssue s x).errCount = s.errCount := (modWarp_errCount _ _ _ _ _).trans (noteIssue_errCount s x)
@[simp] theorem awaitEnd_errCount (s : State) (x : Iss) (b : Block) : (awaitEnd s x b).errCount = s.errCount := (modWarp_errCount _ _ _ _ _).trans (noteIssue_errCount s x)
@[simp] theorem stepPc_errCount (s : State) (w : Who) (n : Nat) : (stepPc s w n).errCount = s.errCount := modSplit_errCount s _ _
@[simp] theorem stopSpeculation_errCount (s : State) (w : Who) : (stopSpeculation s w).errCount = s.errCount := modWarp_errCount s _ _ _ _

@[simp] theorem modGroup_inflight (s : State) (c g : Nat) (f : Group → Group) : (modGroup s c g f).inflight = s.inflight := by
  unfold modGroup
  split <;> rfl
@[simp] theorem modWarp_inflight (s : State) (c g w : Nat) (f : Warp → Warp) : (modWarp s c g w f).inflight = s.inflight := modGroup_inflight s c g _
@[simp] theorem modSplit_inflight (s : State) (w : Who) (f : Split → Split) : (modSplit s w f).inflight = s.inflight := modWarp_inflight s _ _ _ _
@[simp] theorem onGroup_inflight (s : State) (x : Iss) (f : Group → Group) : (onGroup s x f).inflight = s.inflight := modGroup_inflight s _ _ f
@[simp] theorem onWarp_inflight (s : State) (x : Iss) (f : Warp → Warp) : (onWarp s x f).inflight = s.inflight := modWarp_inflight s _ _ _ f
@[simp] theorem onSplit_inflight (s : State) (x : Iss) (f : Split → Split) : (onSplit s x f).inflight = s.inflight := modSplit_inflight s _ f
@[simp] theorem noteRank_inflight (s : State) (w : Who) : (noteRank s w).inflight = s.inflight := rfl
@[simp] theorem setBlocked_inflight (s : State) (w : Who) (b : Block) : (setBlocked s w b).inflight = s.inflight := by
  unfold setBlocked
  split
  · exact (modWarp_inflight _ _ _ _ _).trans (noteRank_inflight s w)
  · exact (modWarp_inflight _ _ _ _ _).trans rfl
@[simp] theorem noteIssue_inflight (s : State) (x : Iss) : (noteIssue s x).inflight = s.inflight := (modWarp_inflight _ _ _ _ _).trans (noteRank_inflight s x.w)
@[simp] theorem endIssue_inflight (s : State) (x : Iss) : (endIssue s x).inflight = s.inflight := (modWarp_inflight _ _ _ _ _).trans (noteIssue_inflight s x)
@[simp] theorem awaitEnd_inflight (s : State) (x : Iss) (b : Block) : (awaitEnd s x b).inflight = s.inflight := (modWarp_inflight _ _ _ _ _).trans (noteIssue_inflight s x)
@[simp] theorem stepPc_inflight (s : State) (w : Who) (n : Nat) : (stepPc s w n).inflight = s.inflight := modSplit_inflight s _ _
@[simp] theorem stopSpeculation_inflight (s : State) (w : Who) : (stopSpeculation s w).inflight = s.inflight := modWarp_inflight s _ _ _ _

@[simp] theorem modGroup_returns (s : State) (c g : Nat) (f : Group → Group) : (modGroup s c g f).returns = s.returns := by
  unfold modGroup
  split <;> rfl
@[simp] theorem modWarp_returns (s : State) (c g w : Nat) (f : Warp → Warp) : (modWarp s c g w f).returns = s.returns := modGroup_returns s c g _
@[simp] theorem modSplit_returns (s : State) (w : Who) (f : Split → Split) : (modSplit s w f).returns = s.returns := modWarp_returns s _ _ _ _
@[simp] theorem onGroup_returns (s : State) (x : Iss) (f : Group → Group) : (onGroup s x f).returns = s.returns := modGroup_returns s _ _ f
@[simp] theorem onWarp_returns (s : State) (x : Iss) (f : Warp → Warp) : (onWarp s x f).returns = s.returns := modWarp_returns s _ _ _ f
@[simp] theorem onSplit_returns (s : State) (x : Iss) (f : Split → Split) : (onSplit s x f).returns = s.returns := modSplit_returns s _ f
@[simp] theorem noteRank_returns (s : State) (w : Who) : (noteRank s w).returns = s.returns := rfl
@[simp] theorem setBlocked_returns (s : State) (w : Who) (b : Block) : (setBlocked s w b).returns = s.returns := by
  unfold setBlocked
  split
  · exact (modWarp_returns _ _ _ _ _).trans (noteRank_returns s w)
  · exact (modWarp_returns _ _ _ _ _).trans rfl
@[simp] theorem noteIssue_returns (s : State) (x : Iss) : (noteIssue s x).returns = s.returns := (modWarp_returns _ _ _ _ _).trans (noteRank_returns s x.w)
@[simp] theorem endIssue_returns (s : State) (x : Iss) : (endIssue s x).returns = s.returns := (modWarp_returns _ _ _ _ _).trans (noteIssue_returns s x)
@[simp] theorem awaitEnd_returns (s : State) (x : Iss) (b : Block) : (awaitEnd s x b).returns = s.returns := (modWarp_returns _ _ _ _ _).trans (noteIssue_returns s x)
@[simp] theorem stepPc_returns (s : State) (w : Who) (n : Nat) : (stepPc s w n).returns = s.returns := modSplit_returns s _ _
@[simp] theorem stopSpeculation_returns (s : State) (w : Who) : (stopSpeculation s w).returns = s.returns := modWarp_returns s _ _ _ _

@[simp] theorem modGroup_datoms (s : State) (c g : Nat) (f : Group → Group) : (modGroup s c g f).datoms = s.datoms := by
  unfold modGroup
  split <;> rfl
@[simp] theorem modWarp_datoms (s : State) (c g w : Nat) (f : Warp → Warp) : (modWarp s c g w f).datoms = s.datoms := modGroup_datoms s c g _
@[simp] theorem modSplit_datoms (s : State) (w : Who) (f : Split → Split) : (modSplit s w f).datoms = s.datoms := modWarp_datoms s _ _ _ _
@[simp] theorem onGroup_datoms (s : State) (x : Iss) (f : Group → Group) : (onGroup s x f).datoms = s.datoms := modGroup_datoms s _ _ f
@[simp] theorem onWarp_datoms (s : State) (x : Iss) (f : Warp → Warp) : (onWarp s x f).datoms = s.datoms := modWarp_datoms s _ _ _ f
@[simp] theorem onSplit_datoms (s : State) (x : Iss) (f : Split → Split) : (onSplit s x f).datoms = s.datoms := modSplit_datoms s _ f
@[simp] theorem noteRank_datoms (s : State) (w : Who) : (noteRank s w).datoms = s.datoms := rfl
@[simp] theorem setBlocked_datoms (s : State) (w : Who) (b : Block) : (setBlocked s w b).datoms = s.datoms := by
  unfold setBlocked
  split
  · exact (modWarp_datoms _ _ _ _ _).trans (noteRank_datoms s w)
  · exact (modWarp_datoms _ _ _ _ _).trans rfl
@[simp] theorem noteIssue_datoms (s : State) (x : Iss) : (noteIssue s x).datoms = s.datoms := (modWarp_datoms _ _ _ _ _).trans (noteRank_datoms s x.w)
@[simp] theorem endIssue_datoms (s : State) (x : Iss) : (endIssue s x).datoms = s.datoms := (modWarp_datoms _ _ _ _ _).trans (noteIssue_datoms s x)
@[simp] theorem awaitEnd_datoms (s : State) (x : Iss) (b : Block) : (awaitEnd s x b).datoms = s.datoms := (modWarp_datoms _ _ _ _ _).trans (noteIssue_datoms s x)
@[simp] theorem stepPc_datoms (s : State) (w : Who) (n : Nat) : (stepPc s w n).datoms = s.datoms := modSplit_datoms s _ _
@[simp] theorem stopSpeculation_datoms (s : State) (w : Who) : (stopSpeculation s w).datoms = s.datoms := modWarp_datoms s _ _ _ _

@[simp] theorem modGroup_dbufs (s : State) (c g : Nat) (f : Group → Group) : (modGroup s c g f).dbufs = s.dbufs := by
  unfold modGroup
  split <;> rfl
@[simp] theorem modWarp_dbufs (s : State) (c g w : Nat) (f : Warp → Warp) : (modWarp s c g w f).dbufs = s.dbufs := modGroup_dbufs s c g _
@[simp] theorem modSplit_dbufs (s : State) (w : Who) (f : Split → Split) : (modSplit s w f).dbufs = s.dbufs := modWarp_dbufs s _ _ _ _
@[simp] theorem onGroup_dbufs (s : State) (x : Iss) (f : Group → Group) : (onGroup s x f).dbufs = s.dbufs := modGroup_dbufs s _ _ f
@[simp] theorem onWarp_dbufs (s : State) (x : Iss) (f : Warp → Warp) : (onWarp s x f).dbufs = s.dbufs := modWarp_dbufs s _ _ _ f
@[simp] theorem onSplit_dbufs (s : State) (x : Iss) (f : Split → Split) : (onSplit s x f).dbufs = s.dbufs := modSplit_dbufs s _ f
@[simp] theorem noteRank_dbufs (s : State) (w : Who) : (noteRank s w).dbufs = s.dbufs := rfl
@[simp] theorem setBlocked_dbufs (s : State) (w : Who) (b : Block) : (setBlocked s w b).dbufs = s.dbufs := by
  unfold setBlocked
  split
  · exact (modWarp_dbufs _ _ _ _ _).trans (noteRank_dbufs s w)
  · exact (modWarp_dbufs _ _ _ _ _).trans rfl
@[simp] theorem noteIssue_dbufs (s : State) (x : Iss) : (noteIssue s x).dbufs = s.dbufs := (modWarp_dbufs _ _ _ _ _).trans (noteRank_dbufs s x.w)
@[simp] theorem endIssue_dbufs (s : State) (x : Iss) : (endIssue s x).dbufs = s.dbufs := (modWarp_dbufs _ _ _ _ _).trans (noteIssue_dbufs s x)
@[simp] theorem awaitEnd_dbufs (s : State) (x : Iss) (b : Block) : (awaitEnd s x b).dbufs = s.dbufs := (modWarp_dbufs _ _ _ _ _).trans (noteIssue_dbufs s x)
@[simp] theorem stepPc_dbufs (s : State) (w : Who) (n : Nat) : (stepPc s w n).dbufs = s.dbufs := modSplit_dbufs s _ _
@[simp] theorem stopSpeculation_dbufs (s : State) (w : Who) : (stopSpeculation s w).dbufs = s.dbufs := modWarp_dbufs s _ _ _ _

@[simp] theorem modGroup_dies (s : State) (c g : Nat) (f : Group → Group) : (modGroup s c g f).dies = s.dies := by
  unfold modGroup
  split <;> rfl
@[simp] theorem modWarp_dies (s : State) (c g w : Nat) (f : Warp → Warp) : (modWarp s c g w f).dies = s.dies := modGroup_dies s c g _
@[simp] theorem modSplit_dies (s : State) (w : Who) (f : Split → Split) : (modSplit s w f).dies = s.dies := modWarp_dies s _ _ _ _
@[simp] theorem onGroup_dies (s : State) (x : Iss) (f : Group → Group) : (onGroup s x f).dies = s.dies := modGroup_dies s _ _ f
@[simp] theorem onWarp_dies (s : State) (x : Iss) (f : Warp → Warp) : (onWarp s x f).dies = s.dies := modWarp_dies s _ _ _ f
@[simp] theorem onSplit_dies (s : State) (x : Iss) (f : Split → Split) : (onSplit s x f).dies = s.dies := modSplit_dies s _ f
@[simp] theorem noteRank_dies (s : State) (w : Who) : (noteRank s w).dies = s.dies := rfl
@[simp] theorem setBlocked_dies (s : State) (w : Who) (b : Block) : (setBlocked s w b).dies = s.dies := by
  unfold setBlocked
  split
  · exact (modWarp_dies _ _ _ _ _).trans (noteRank_dies s w)
  · exact (modWarp_dies _ _ _ _ _).trans rfl
@[simp] theorem noteIssue_dies (s : State) (x : Iss) : (noteIssue s x).dies = s.dies := (modWarp_dies _ _ _ _ _).trans (noteRank_dies s x.w)
@[simp] theorem endIssue_dies (s : State) (x : Iss) : (endIssue s x).dies = s.dies := (modWarp_dies _ _ _ _ _).trans (noteIssue_dies s x)
@[simp] theorem awaitEnd_dies (s : State) (x : Iss) (b : Block) : (awaitEnd s x b).dies = s.dies := (modWarp_dies _ _ _ _ _).trans (noteIssue_dies s x)
@[simp] theorem stepPc_dies (s : State) (w : Who) (n : Nat) : (stepPc s w n).dies = s.dies := modSplit_dies s _ _
@[simp] theorem stopSpeculation_dies (s : State) (w : Who) : (stopSpeculation s w).dies = s.dies := modWarp_dies s _ _ _ _

@[simp] theorem modGroup_ctxs (s : State) (c g : Nat) (f : Group → Group) : (modGroup s c g f).ctxs = s.ctxs := by
  unfold modGroup
  split <;> rfl
@[simp] theorem modWarp_ctxs (s : State) (c g w : Nat) (f : Warp → Warp) : (modWarp s c g w f).ctxs = s.ctxs := modGroup_ctxs s c g _
@[simp] theorem modSplit_ctxs (s : State) (w : Who) (f : Split → Split) : (modSplit s w f).ctxs = s.ctxs := modWarp_ctxs s _ _ _ _
@[simp] theorem onGroup_ctxs (s : State) (x : Iss) (f : Group → Group) : (onGroup s x f).ctxs = s.ctxs := modGroup_ctxs s _ _ f
@[simp] theorem onWarp_ctxs (s : State) (x : Iss) (f : Warp → Warp) : (onWarp s x f).ctxs = s.ctxs := modWarp_ctxs s _ _ _ f
@[simp] theorem onSplit_ctxs (s : State) (x : Iss) (f : Split → Split) : (onSplit s x f).ctxs = s.ctxs := modSplit_ctxs s _ f
@[simp] theorem noteRank_ctxs (s : State) (w : Who) : (noteRank s w).ctxs = s.ctxs := rfl
@[simp] theorem setBlocked_ctxs (s : State) (w : Who) (b : Block) : (setBlocked s w b).ctxs = s.ctxs := by
  unfold setBlocked
  split
  · exact (modWarp_ctxs _ _ _ _ _).trans (noteRank_ctxs s w)
  · exact (modWarp_ctxs _ _ _ _ _).trans rfl
@[simp] theorem noteIssue_ctxs (s : State) (x : Iss) : (noteIssue s x).ctxs = s.ctxs := (modWarp_ctxs _ _ _ _ _).trans (noteRank_ctxs s x.w)
@[simp] theorem endIssue_ctxs (s : State) (x : Iss) : (endIssue s x).ctxs = s.ctxs := (modWarp_ctxs _ _ _ _ _).trans (noteIssue_ctxs s x)
@[simp] theorem awaitEnd_ctxs (s : State) (x : Iss) (b : Block) : (awaitEnd s x b).ctxs = s.ctxs := (modWarp_ctxs _ _ _ _ _).trans (noteIssue_ctxs s x)
@[simp] theorem stepPc_ctxs (s : State) (w : Who) (n : Nat) : (stepPc s w n).ctxs = s.ctxs := modSplit_ctxs s _ _
@[simp] theorem stopSpeculation_ctxs (s : State) (w : Who) : (stopSpeculation s w).ctxs = s.ctxs := modWarp_ctxs s _ _ _ _

@[simp] theorem modGroup_domains (s : State) (c g : Nat) (f : Group → Group) : (modGroup s c g f).domains = s.domains := by
  unfold modGroup
  split <;> rfl
@[simp] theorem modWarp_domains (s : State) (c g w : Nat) (f : Warp → Warp) : (modWarp s c g w f).domains = s.domains := modGroup_domains s c g _
@[simp] theorem modSplit_domains (s : State) (w : Who) (f : Split → Split) : (modSplit s w f).domains = s.domains := modWarp_domains s _ _ _ _
@[simp] theorem onGroup_domains (s : State) (x : Iss) (f : Group → Group) : (onGroup s x f).domains = s.domains := modGroup_domains s _ _ f
@[simp] theorem onWarp_domains (s : State) (x : Iss) (f : Warp → Warp) : (onWarp s x f).domains = s.domains := modWarp_domains s _ _ _ f
@[simp] theorem onSplit_domains (s : State) (x : Iss) (f : Split → Split) : (onSplit s x f).domains = s.domains := modSplit_domains s _ f
@[simp] theorem noteRank_domains (s : State) (w : Who) : (noteRank s w).domains = s.domains := rfl
@[simp] theorem setBlocked_domains (s : State) (w : Who) (b : Block) : (setBlocked s w b).domains = s.domains := by
  unfold setBlocked
  split
  · exact (modWarp_domains _ _ _ _ _).trans (noteRank_domains s w)
  · exact (modWarp_domains _ _ _ _ _).trans rfl
@[simp] theorem noteIssue_domains (s : State) (x : Iss) : (noteIssue s x).domains = s.domains := (modWarp_domains _ _ _ _ _).trans (noteRank_domains s x.w)
@[simp] theorem endIssue_domains (s : State) (x : Iss) : (endIssue s x).domains = s.domains := (modWarp_domains _ _ _ _ _).trans (noteIssue_domains s x)
@[simp] theorem awaitEnd_domains (s : State) (x : Iss) (b : Block) : (awaitEnd s x b).domains = s.domains := (modWarp_domains _ _ _ _ _).trans (noteIssue_domains s x)
@[simp] theorem stepPc_domains (s : State) (w : Who) (n : Nat) : (stepPc s w n).domains = s.domains := modSplit_domains s _ _
@[simp] theorem stopSpeculation_domains (s : State) (w : Who) : (stopSpeculation s w).domains = s.domains := modWarp_domains s _ _ _ _

@[simp] theorem modGroup_streams (s : State) (c g : Nat) (f : Group → Group) : (modGroup s c g f).streams = s.streams := by
  unfold modGroup
  split <;> rfl
@[simp] theorem modWarp_streams (s : State) (c g w : Nat) (f : Warp → Warp) : (modWarp s c g w f).streams = s.streams := modGroup_streams s c g _
@[simp] theorem modSplit_streams (s : State) (w : Who) (f : Split → Split) : (modSplit s w f).streams = s.streams := modWarp_streams s _ _ _ _
@[simp] theorem onGroup_streams (s : State) (x : Iss) (f : Group → Group) : (onGroup s x f).streams = s.streams := modGroup_streams s _ _ f
@[simp] theorem onWarp_streams (s : State) (x : Iss) (f : Warp → Warp) : (onWarp s x f).streams = s.streams := modWarp_streams s _ _ _ f
@[simp] theorem onSplit_streams (s : State) (x : Iss) (f : Split → Split) : (onSplit s x f).streams = s.streams := modSplit_streams s _ f
@[simp] theorem noteRank_streams (s : State) (w : Who) : (noteRank s w).streams = s.streams := rfl
@[simp] theorem setBlocked_streams (s : State) (w : Who) (b : Block) : (setBlocked s w b).streams = s.streams := by
  unfold setBlocked
  split
  · exact (modWarp_streams _ _ _ _ _).trans (noteRank_streams s w)
  · exact (modWarp_streams _ _ _ _ _).trans rfl
@[simp] theorem noteIssue_streams (s : State) (x : Iss) : (noteIssue s x).streams = s.streams := (modWarp_streams _ _ _ _ _).trans (noteRank_streams s x.w)
@[simp] theorem endIssue_streams (s : State) (x : Iss) : (endIssue s x).streams = s.streams := (modWarp_streams _ _ _ _ _).trans (noteIssue_streams s x)
@[simp] theorem awaitEnd_streams (s : State) (x : Iss) (b : Block) : (awaitEnd s x b).streams = s.streams := (modWarp_streams _ _ _ _ _).trans (noteIssue_streams s x)
@[simp] theorem stepPc_streams (s : State) (w : Who) (n : Nat) : (stepPc s w n).streams = s.streams := modSplit_streams s _ _
@[simp] theorem stopSpeculation_streams (s : State) (w : Who) : (stopSpeculation s w).streams = s.streams := modWarp_streams s _ _ _ _

@[simp] theorem modGroup_decStreams (s : State) (c g : Nat) (f : Group → Group) : (modGroup s c g f).decStreams = s.decStreams := by
  unfold modGroup
  split <;> rfl
@[simp] theorem modWarp_decStreams (s : State) (c g w : Nat) (f : Warp → Warp) : (modWarp s c g w f).decStreams = s.decStreams := modGroup_decStreams s c g _
@[simp] theorem modSplit_decStreams (s : State) (w : Who) (f : Split → Split) : (modSplit s w f).decStreams = s.decStreams := modWarp_decStreams s _ _ _ _
@[simp] theorem onGroup_decStreams (s : State) (x : Iss) (f : Group → Group) : (onGroup s x f).decStreams = s.decStreams := modGroup_decStreams s _ _ f
@[simp] theorem onWarp_decStreams (s : State) (x : Iss) (f : Warp → Warp) : (onWarp s x f).decStreams = s.decStreams := modWarp_decStreams s _ _ _ f
@[simp] theorem onSplit_decStreams (s : State) (x : Iss) (f : Split → Split) : (onSplit s x f).decStreams = s.decStreams := modSplit_decStreams s _ f
@[simp] theorem noteRank_decStreams (s : State) (w : Who) : (noteRank s w).decStreams = s.decStreams := rfl
@[simp] theorem setBlocked_decStreams (s : State) (w : Who) (b : Block) : (setBlocked s w b).decStreams = s.decStreams := by
  unfold setBlocked
  split
  · exact (modWarp_decStreams _ _ _ _ _).trans (noteRank_decStreams s w)
  · exact (modWarp_decStreams _ _ _ _ _).trans rfl
@[simp] theorem noteIssue_decStreams (s : State) (x : Iss) : (noteIssue s x).decStreams = s.decStreams := (modWarp_decStreams _ _ _ _ _).trans (noteRank_decStreams s x.w)
@[simp] theorem endIssue_decStreams (s : State) (x : Iss) : (endIssue s x).decStreams = s.decStreams := (modWarp_decStreams _ _ _ _ _).trans (noteIssue_decStreams s x)
@[simp] theorem awaitEnd_decStreams (s : State) (x : Iss) (b : Block) : (awaitEnd s x b).decStreams = s.decStreams := (modWarp_decStreams _ _ _ _ _).trans (noteIssue_decStreams s x)
@[simp] theorem stepPc_decStreams (s : State) (w : Who) (n : Nat) : (stepPc s w n).decStreams = s.decStreams := modSplit_decStreams s _ _
@[simp] theorem stopSpeculation_decStreams (s : State) (w : Who) : (stopSpeculation s w).decStreams = s.decStreams := modWarp_decStreams s _ _ _ _

@[simp] theorem modGroup_rings (s : State) (c g : Nat) (f : Group → Group) : (modGroup s c g f).rings = s.rings := by
  unfold modGroup
  split <;> rfl
@[simp] theorem modWarp_rings (s : State) (c g w : Nat) (f : Warp → Warp) : (modWarp s c g w f).rings = s.rings := modGroup_rings s c g _
@[simp] theorem modSplit_rings (s : State) (w : Who) (f : Split → Split) : (modSplit s w f).rings = s.rings := modWarp_rings s _ _ _ _
@[simp] theorem onGroup_rings (s : State) (x : Iss) (f : Group → Group) : (onGroup s x f).rings = s.rings := modGroup_rings s _ _ f
@[simp] theorem onWarp_rings (s : State) (x : Iss) (f : Warp → Warp) : (onWarp s x f).rings = s.rings := modWarp_rings s _ _ _ f
@[simp] theorem onSplit_rings (s : State) (x : Iss) (f : Split → Split) : (onSplit s x f).rings = s.rings := modSplit_rings s _ f
@[simp] theorem noteRank_rings (s : State) (w : Who) : (noteRank s w).rings = s.rings := rfl
@[simp] theorem setBlocked_rings (s : State) (w : Who) (b : Block) : (setBlocked s w b).rings = s.rings := by
  unfold setBlocked
  split
  · exact (modWarp_rings _ _ _ _ _).trans (noteRank_rings s w)
  · exact (modWarp_rings _ _ _ _ _).trans rfl
@[simp] theorem noteIssue_rings (s : State) (x : Iss) : (noteIssue s x).rings = s.rings := (modWarp_rings _ _ _ _ _).trans (noteRank_rings s x.w)
@[simp] theorem endIssue_rings (s : State) (x : Iss) : (endIssue s x).rings = s.rings := (modWarp_rings _ _ _ _ _).trans (noteIssue_rings s x)
@[simp] theorem awaitEnd_rings (s : State) (x : Iss) (b : Block) : (awaitEnd s x b).rings = s.rings := (modWarp_rings _ _ _ _ _).trans (noteIssue_rings s x)
@[simp] theorem stepPc_rings (s : State) (w : Who) (n : Nat) : (stepPc s w n).rings = s.rings := modSplit_rings s _ _
@[simp] theorem stopSpeculation_rings (s : State) (w : Who) : (stopSpeculation s w).rings = s.rings := modWarp_rings s _ _ _ _

@[simp] theorem modGroup_parts (s : State) (c g : Nat) (f : Group → Group) : (modGroup s c g f).parts = s.parts := by
  unfold modGroup
  split <;> rfl
@[simp] theorem modWarp_parts (s : State) (c g w : Nat) (f : Warp → Warp) : (modWarp s c g w f).parts = s.parts := modGroup_parts s c g _
@[simp] theorem modSplit_parts (s : State) (w : Who) (f : Split → Split) : (modSplit s w f).parts = s.parts := modWarp_parts s _ _ _ _
@[simp] theorem onGroup_parts (s : State) (x : Iss) (f : Group → Group) : (onGroup s x f).parts = s.parts := modGroup_parts s _ _ f
@[simp] theorem onWarp_parts (s : State) (x : Iss) (f : Warp → Warp) : (onWarp s x f).parts = s.parts := modWarp_parts s _ _ _ f
@[simp] theorem onSplit_parts (s : State) (x : Iss) (f : Split → Split) : (onSplit s x f).parts = s.parts := modSplit_parts s _ f
@[simp] theorem noteRank_parts (s : State) (w : Who) : (noteRank s w).parts = s.parts := rfl
@[simp] theorem setBlocked_parts (s : State) (w : Who) (b : Block) : (setBlocked s w b).parts = s.parts := by
  unfold setBlocked
  split
  · exact (modWarp_parts _ _ _ _ _).trans (noteRank_parts s w)
  · exact (modWarp_parts _ _ _ _ _).trans rfl
@[simp] theorem noteIssue_parts (s : State) (x : Iss) : (noteIssue s x).parts = s.parts := (modWarp_parts _ _ _ _ _).trans (noteRank_parts s x.w)
@[simp] theorem endIssue_parts (s : State) (x : Iss) : (endIssue s x).parts = s.parts := (modWarp_parts _ _ _ _ _).trans (noteIssue_parts s x)
@[simp] theorem awaitEnd_parts (s : State) (x : Iss) (b : Block) : (awaitEnd s x b).parts = s.parts := (modWarp_parts _ _ _ _ _).trans (noteIssue_parts s x)
@[simp] theorem stepPc_parts (s : State) (w : Who) (n : Nat) : (stepPc s w n).parts = s.parts := modSplit_parts s _ _
@[simp] theorem stopSpeculation_parts (s : State) (w : Who) : (stopSpeculation s w).parts = s.parts := modWarp_parts s _ _ _ _

@[simp] theorem modGroup_pageReqs (s : State) (c g : Nat) (f : Group → Group) : (modGroup s c g f).pageReqs = s.pageReqs := by
  unfold modGroup
  split <;> rfl
@[simp] theorem modWarp_pageReqs (s : State) (c g w : Nat) (f : Warp → Warp) : (modWarp s c g w f).pageReqs = s.pageReqs := modGroup_pageReqs s c g _
@[simp] theorem modSplit_pageReqs (s : State) (w : Who) (f : Split → Split) : (modSplit s w f).pageReqs = s.pageReqs := modWarp_pageReqs s _ _ _ _
@[simp] theorem onGroup_pageReqs (s : State) (x : Iss) (f : Group → Group) : (onGroup s x f).pageReqs = s.pageReqs := modGroup_pageReqs s _ _ f
@[simp] theorem onWarp_pageReqs (s : State) (x : Iss) (f : Warp → Warp) : (onWarp s x f).pageReqs = s.pageReqs := modWarp_pageReqs s _ _ _ f
@[simp] theorem onSplit_pageReqs (s : State) (x : Iss) (f : Split → Split) : (onSplit s x f).pageReqs = s.pageReqs := modSplit_pageReqs s _ f
@[simp] theorem noteRank_pageReqs (s : State) (w : Who) : (noteRank s w).pageReqs = s.pageReqs := rfl
@[simp] theorem setBlocked_pageReqs (s : State) (w : Who) (b : Block) : (setBlocked s w b).pageReqs = s.pageReqs := by
  unfold setBlocked
  split
  · exact (modWarp_pageReqs _ _ _ _ _).trans (noteRank_pageReqs s w)
  · exact (modWarp_pageReqs _ _ _ _ _).trans rfl
@[simp] theorem noteIssue_pageReqs (s : State) (x : Iss) : (noteIssue s x).pageReqs = s.pageReqs := (modWarp_pageReqs _ _ _ _ _).trans (noteRank_pageReqs s x.w)
@[simp] theorem endIssue_pageReqs (s : State) (x : Iss) : (endIssue s x).pageReqs = s.pageReqs := (modWarp_pageReqs _ _ _ _ _).trans (noteIssue_pageReqs s x)
@[simp] theorem awaitEnd_pageReqs (s : State) (x : Iss) (b : Block) : (awaitEnd s x b).pageReqs = s.pageReqs := (modWarp_pageReqs _ _ _ _ _).trans (noteIssue_pageReqs s x)
@[simp] theorem stepPc_pageReqs (s : State) (w : Who) (n : Nat) : (stepPc s w n).pageReqs = s.pageReqs := modSplit_pageReqs s _ _
@[simp] theorem stopSpeculation_pageReqs (s : State) (w : Who) : (stopSpeculation s w).pageReqs = s.pageReqs := modWarp_pageReqs s _ _ _ _

@[simp] theorem modGroup_pulls (s : State) (c g : Nat) (f : Group → Group) : (modGroup s c g f).pulls = s.pulls := by
  unfold modGroup
  split <;> rfl
@[simp] theorem modWarp_pulls (s : State) (c g w : Nat) (f : Warp → Warp) : (modWarp s c g w f).pulls = s.pulls := modGroup_pulls s c g _
@[simp] theorem modSplit_pulls (s : State) (w : Who) (f : Split → Split) : (modSplit s w f).pulls = s.pulls := modWarp_pulls s _ _ _ _
@[simp] theorem onGroup_pulls (s : State) (x : Iss) (f : Group → Group) : (onGroup s x f).pulls = s.pulls := modGroup_pulls s _ _ f
@[simp] theorem onWarp_pulls (s : State) (x : Iss) (f : Warp → Warp) : (onWarp s x f).pulls = s.pulls := modWarp_pulls s _ _ _ f
@[simp] theorem onSplit_pulls (s : State) (x : Iss) (f : Split → Split) : (onSplit s x f).pulls = s.pulls := modSplit_pulls s _ f
@[simp] theorem noteRank_pulls (s : State) (w : Who) : (noteRank s w).pulls = s.pulls := rfl
@[simp] theorem setBlocked_pulls (s : State) (w : Who) (b : Block) : (setBlocked s w b).pulls = s.pulls := by
  unfold setBlocked
  split
  · exact (modWarp_pulls _ _ _ _ _).trans (noteRank_pulls s w)
  · exact (modWarp_pulls _ _ _ _ _).trans rfl
@[simp] theorem noteIssue_pulls (s : State) (x : Iss) : (noteIssue s x).pulls = s.pulls := (modWarp_pulls _ _ _ _ _).trans (noteRank_pulls s x.w)
@[simp] theorem endIssue_pulls (s : State) (x : Iss) : (endIssue s x).pulls = s.pulls := (modWarp_pulls _ _ _ _ _).trans (noteIssue_pulls s x)
@[simp] theorem awaitEnd_pulls (s : State) (x : Iss) (b : Block) : (awaitEnd s x b).pulls = s.pulls := (modWarp_pulls _ _ _ _ _).trans (noteIssue_pulls s x)
@[simp] theorem stepPc_pulls (s : State) (w : Who) (n : Nat) : (stepPc s w n).pulls = s.pulls := modSplit_pulls s _ _
@[simp] theorem stopSpeculation_pulls (s : State) (w : Who) : (stopSpeculation s w).pulls = s.pulls := modWarp_pulls s _ _ _ _

@[simp] theorem modGroup_pageCmds (s : State) (c g : Nat) (f : Group → Group) : (modGroup s c g f).pageCmds = s.pageCmds := by
  unfold modGroup
  split <;> rfl
@[simp] theorem modWarp_pageCmds (s : State) (c g w : Nat) (f : Warp → Warp) : (modWarp s c g w f).pageCmds = s.pageCmds := modGroup_pageCmds s c g _
@[simp] theorem modSplit_pageCmds (s : State) (w : Who) (f : Split → Split) : (modSplit s w f).pageCmds = s.pageCmds := modWarp_pageCmds s _ _ _ _
@[simp] theorem onGroup_pageCmds (s : State) (x : Iss) (f : Group → Group) : (onGroup s x f).pageCmds = s.pageCmds := modGroup_pageCmds s _ _ f
@[simp] theorem onWarp_pageCmds (s : State) (x : Iss) (f : Warp → Warp) : (onWarp s x f).pageCmds = s.pageCmds := modWarp_pageCmds s _ _ _ f
@[simp] theorem onSplit_pageCmds (s : State) (x : Iss) (f : Split → Split) : (onSplit s x f).pageCmds = s.pageCmds := modSplit_pageCmds s _ f
@[simp] theorem noteRank_pageCmds (s : State) (w : Who) : (noteRank s w).pageCmds = s.pageCmds := rfl
@[simp] theorem setBlocked_pageCmds (s : State) (w : Who) (b : Block) : (setBlocked s w b).pageCmds = s.pageCmds := by
  unfold setBlocked
  split
  · exact (modWarp_pageCmds _ _ _ _ _).trans (noteRank_pageCmds s w)
  · exact (modWarp_pageCmds _ _ _ _ _).trans rfl
@[simp] theorem noteIssue_pageCmds (s : State) (x : Iss) : (noteIssue s x).pageCmds = s.pageCmds := (modWarp_pageCmds _ _ _ _ _).trans (noteRank_pageCmds s x.w)
@[simp] theorem endIssue_pageCmds (s : State) (x : Iss) : (endIssue s x).pageCmds = s.pageCmds := (modWarp_pageCmds _ _ _ _ _).trans (noteIssue_pageCmds s x)
@[simp] theorem awaitEnd_pageCmds (s : State) (x : Iss) (b : Block) : (awaitEnd s x b).pageCmds = s.pageCmds := (modWarp_pageCmds _ _ _ _ _).trans (noteIssue_pageCmds s x)
@[simp] theorem stepPc_pageCmds (s : State) (w : Who) (n : Nat) : (stepPc s w n).pageCmds = s.pageCmds := modSplit_pageCmds s _ _
@[simp] theorem stopSpeculation_pageCmds (s : State) (w : Who) : (stopSpeculation s w).pageCmds = s.pageCmds := modWarp_pageCmds s _ _ _ _

@[simp] theorem modGroup_mbox (s : State) (c g : Nat) (f : Group → Group) : (modGroup s c g f).mbox = s.mbox := by
  unfold modGroup
  split <;> rfl
@[simp] theorem modWarp_mbox (s : State) (c g w : Nat) (f : Warp → Warp) : (modWarp s c g w f).mbox = s.mbox := modGroup_mbox s c g _
@[simp] theorem modSplit_mbox (s : State) (w : Who) (f : Split → Split) : (modSplit s w f).mbox = s.mbox := modWarp_mbox s _ _ _ _
@[simp] theorem onGroup_mbox (s : State) (x : Iss) (f : Group → Group) : (onGroup s x f).mbox = s.mbox := modGroup_mbox s _ _ f
@[simp] theorem onWarp_mbox (s : State) (x : Iss) (f : Warp → Warp) : (onWarp s x f).mbox = s.mbox := modWarp_mbox s _ _ _ f
@[simp] theorem onSplit_mbox (s : State) (x : Iss) (f : Split → Split) : (onSplit s x f).mbox = s.mbox := modSplit_mbox s _ f
@[simp] theorem noteRank_mbox (s : State) (w : Who) : (noteRank s w).mbox = s.mbox := rfl
@[simp] theorem setBlocked_mbox (s : State) (w : Who) (b : Block) : (setBlocked s w b).mbox = s.mbox := by
  unfold setBlocked
  split
  · exact (modWarp_mbox _ _ _ _ _).trans (noteRank_mbox s w)
  · exact (modWarp_mbox _ _ _ _ _).trans rfl
@[simp] theorem noteIssue_mbox (s : State) (x : Iss) : (noteIssue s x).mbox = s.mbox := (modWarp_mbox _ _ _ _ _).trans (noteRank_mbox s x.w)
@[simp] theorem endIssue_mbox (s : State) (x : Iss) : (endIssue s x).mbox = s.mbox := (modWarp_mbox _ _ _ _ _).trans (noteIssue_mbox s x)
@[simp] theorem awaitEnd_mbox (s : State) (x : Iss) (b : Block) : (awaitEnd s x b).mbox = s.mbox := (modWarp_mbox _ _ _ _ _).trans (noteIssue_mbox s x)
@[simp] theorem stepPc_mbox (s : State) (w : Who) (n : Nat) : (stepPc s w n).mbox = s.mbox := modSplit_mbox s _ _
@[simp] theorem stopSpeculation_mbox (s : State) (w : Who) : (stopSpeculation s w).mbox = s.mbox := modWarp_mbox s _ _ _ _

@[simp] theorem modGroup_mailReq (s : State) (c g : Nat) (f : Group → Group) : (modGroup s c g f).mailReq = s.mailReq := by
  unfold modGroup
  split <;> rfl
@[simp] theorem modWarp_mailReq (s : State) (c g w : Nat) (f : Warp → Warp) : (modWarp s c g w f).mailReq = s.mailReq := modGroup_mailReq s c g _
@[simp] theorem modSplit_mailReq (s : State) (w : Who) (f : Split → Split) : (modSplit s w f).mailReq = s.mailReq := modWarp_mailReq s _ _ _ _
@[simp] theorem onGroup_mailReq (s : State) (x : Iss) (f : Group → Group) : (onGroup s x f).mailReq = s.mailReq := modGroup_mailReq s _ _ f
@[simp] theorem onWarp_mailReq (s : State) (x : Iss) (f : Warp → Warp) : (onWarp s x f).mailReq = s.mailReq := modWarp_mailReq s _ _ _ f
@[simp] theorem onSplit_mailReq (s : State) (x : Iss) (f : Split → Split) : (onSplit s x f).mailReq = s.mailReq := modSplit_mailReq s _ f
@[simp] theorem noteRank_mailReq (s : State) (w : Who) : (noteRank s w).mailReq = s.mailReq := rfl
@[simp] theorem setBlocked_mailReq (s : State) (w : Who) (b : Block) : (setBlocked s w b).mailReq = s.mailReq := by
  unfold setBlocked
  split
  · exact (modWarp_mailReq _ _ _ _ _).trans (noteRank_mailReq s w)
  · exact (modWarp_mailReq _ _ _ _ _).trans rfl
@[simp] theorem noteIssue_mailReq (s : State) (x : Iss) : (noteIssue s x).mailReq = s.mailReq := (modWarp_mailReq _ _ _ _ _).trans (noteRank_mailReq s x.w)
@[simp] theorem endIssue_mailReq (s : State) (x : Iss) : (endIssue s x).mailReq = s.mailReq := (modWarp_mailReq _ _ _ _ _).trans (noteIssue_mailReq s x)
@[simp] theorem awaitEnd_mailReq (s : State) (x : Iss) (b : Block) : (awaitEnd s x b).mailReq = s.mailReq := (modWarp_mailReq _ _ _ _ _).trans (noteIssue_mailReq s x)
@[simp] theorem stepPc_mailReq (s : State) (w : Who) (n : Nat) : (stepPc s w n).mailReq = s.mailReq := modSplit_mailReq s _ _
@[simp] theorem stopSpeculation_mailReq (s : State) (w : Who) : (stopSpeculation s w).mailReq = s.mailReq := modWarp_mailReq s _ _ _ _

@[simp] theorem modGroup_mailLast (s : State) (c g : Nat) (f : Group → Group) : (modGroup s c g f).mailLast = s.mailLast := by
  unfold modGroup
  split <;> rfl
@[simp] theorem modWarp_mailLast (s : State) (c g w : Nat) (f : Warp → Warp) : (modWarp s c g w f).mailLast = s.mailLast := modGroup_mailLast s c g _
@[simp] theorem modSplit_mailLast (s : State) (w : Who) (f : Split → Split) : (modSplit s w f).mailLast = s.mailLast := modWarp_mailLast s _ _ _ _
@[simp] theorem onGroup_mailLast (s : State) (x : Iss) (f : Group → Group) : (onGroup s x f).mailLast = s.mailLast := modGroup_mailLast s _ _ f
@[simp] theorem onWarp_mailLast (s : State) (x : Iss) (f : Warp → Warp) : (onWarp s x f).mailLast = s.mailLast := modWarp_mailLast s _ _ _ f
@[simp] theorem onSplit_mailLast (s : State) (x : Iss) (f : Split → Split) : (onSplit s x f).mailLast = s.mailLast := modSplit_mailLast s _ f
@[simp] theorem noteRank_mailLast (s : State) (w : Who) : (noteRank s w).mailLast = s.mailLast := rfl
@[simp] theorem setBlocked_mailLast (s : State) (w : Who) (b : Block) : (setBlocked s w b).mailLast = s.mailLast := by
  unfold setBlocked
  split
  · exact (modWarp_mailLast _ _ _ _ _).trans (noteRank_mailLast s w)
  · exact (modWarp_mailLast _ _ _ _ _).trans rfl
@[simp] theorem noteIssue_mailLast (s : State) (x : Iss) : (noteIssue s x).mailLast = s.mailLast := (modWarp_mailLast _ _ _ _ _).trans (noteRank_mailLast s x.w)
@[simp] theorem endIssue_mailLast (s : State) (x : Iss) : (endIssue s x).mailLast = s.mailLast := (modWarp_mailLast _ _ _ _ _).trans (noteIssue_mailLast s x)
@[simp] theorem awaitEnd_mailLast (s : State) (x : Iss) (b : Block) : (awaitEnd s x b).mailLast = s.mailLast := (modWarp_mailLast _ _ _ _ _).trans (noteIssue_mailLast s x)
@[simp] theorem stepPc_mailLast (s : State) (w : Who) (n : Nat) : (stepPc s w n).mailLast = s.mailLast := modSplit_mailLast s _ _
@[simp] theorem stopSpeculation_mailLast (s : State) (w : Who) : (stopSpeculation s w).mailLast = s.mailLast := modWarp_mailLast s _ _ _ _

@[simp] theorem modGroup_fwQ (s : State) (c g : Nat) (f : Group → Group) : (modGroup s c g f).fwQ = s.fwQ := by
  unfold modGroup
  split <;> rfl
@[simp] theorem modWarp_fwQ (s : State) (c g w : Nat) (f : Warp → Warp) : (modWarp s c g w f).fwQ = s.fwQ := modGroup_fwQ s c g _
@[simp] theorem modSplit_fwQ (s : State) (w : Who) (f : Split → Split) : (modSplit s w f).fwQ = s.fwQ := modWarp_fwQ s _ _ _ _
@[simp] theorem onGroup_fwQ (s : State) (x : Iss) (f : Group → Group) : (onGroup s x f).fwQ = s.fwQ := modGroup_fwQ s _ _ f
@[simp] theorem onWarp_fwQ (s : State) (x : Iss) (f : Warp → Warp) : (onWarp s x f).fwQ = s.fwQ := modWarp_fwQ s _ _ _ f
@[simp] theorem onSplit_fwQ (s : State) (x : Iss) (f : Split → Split) : (onSplit s x f).fwQ = s.fwQ := modSplit_fwQ s _ f
@[simp] theorem noteRank_fwQ (s : State) (w : Who) : (noteRank s w).fwQ = s.fwQ := rfl
@[simp] theorem setBlocked_fwQ (s : State) (w : Who) (b : Block) : (setBlocked s w b).fwQ = s.fwQ := by
  unfold setBlocked
  split
  · exact (modWarp_fwQ _ _ _ _ _).trans (noteRank_fwQ s w)
  · exact (modWarp_fwQ _ _ _ _ _).trans rfl
@[simp] theorem noteIssue_fwQ (s : State) (x : Iss) : (noteIssue s x).fwQ = s.fwQ := (modWarp_fwQ _ _ _ _ _).trans (noteRank_fwQ s x.w)
@[simp] theorem endIssue_fwQ (s : State) (x : Iss) : (endIssue s x).fwQ = s.fwQ := (modWarp_fwQ _ _ _ _ _).trans (noteIssue_fwQ s x)
@[simp] theorem awaitEnd_fwQ (s : State) (x : Iss) (b : Block) : (awaitEnd s x b).fwQ = s.fwQ := (modWarp_fwQ _ _ _ _ _).trans (noteIssue_fwQ s x)
@[simp] theorem stepPc_fwQ (s : State) (w : Who) (n : Nat) : (stepPc s w n).fwQ = s.fwQ := modSplit_fwQ s _ _
@[simp] theorem stopSpeculation_fwQ (s : State) (w : Who) : (stopSpeculation s w).fwQ = s.fwQ := modWarp_fwQ s _ _ _ _

@[simp] theorem modGroup_hostRd (s : State) (c g : Nat) (f : Group → Group) : (modGroup s c g f).hostRd = s.hostRd := by
  unfold modGroup
  split <;> rfl
@[simp] theorem modWarp_hostRd (s : State) (c g w : Nat) (f : Warp → Warp) : (modWarp s c g w f).hostRd = s.hostRd := modGroup_hostRd s c g _
@[simp] theorem modSplit_hostRd (s : State) (w : Who) (f : Split → Split) : (modSplit s w f).hostRd = s.hostRd := modWarp_hostRd s _ _ _ _
@[simp] theorem onGroup_hostRd (s : State) (x : Iss) (f : Group → Group) : (onGroup s x f).hostRd = s.hostRd := modGroup_hostRd s _ _ f
@[simp] theorem onWarp_hostRd (s : State) (x : Iss) (f : Warp → Warp) : (onWarp s x f).hostRd = s.hostRd := modWarp_hostRd s _ _ _ f
@[simp] theorem onSplit_hostRd (s : State) (x : Iss) (f : Split → Split) : (onSplit s x f).hostRd = s.hostRd := modSplit_hostRd s _ f
@[simp] theorem noteRank_hostRd (s : State) (w : Who) : (noteRank s w).hostRd = s.hostRd := rfl
@[simp] theorem setBlocked_hostRd (s : State) (w : Who) (b : Block) : (setBlocked s w b).hostRd = s.hostRd := by
  unfold setBlocked
  split
  · exact (modWarp_hostRd _ _ _ _ _).trans (noteRank_hostRd s w)
  · exact (modWarp_hostRd _ _ _ _ _).trans rfl
@[simp] theorem noteIssue_hostRd (s : State) (x : Iss) : (noteIssue s x).hostRd = s.hostRd := (modWarp_hostRd _ _ _ _ _).trans (noteRank_hostRd s x.w)
@[simp] theorem endIssue_hostRd (s : State) (x : Iss) : (endIssue s x).hostRd = s.hostRd := (modWarp_hostRd _ _ _ _ _).trans (noteIssue_hostRd s x)
@[simp] theorem awaitEnd_hostRd (s : State) (x : Iss) (b : Block) : (awaitEnd s x b).hostRd = s.hostRd := (modWarp_hostRd _ _ _ _ _).trans (noteIssue_hostRd s x)
@[simp] theorem stepPc_hostRd (s : State) (w : Who) (n : Nat) : (stepPc s w n).hostRd = s.hostRd := modSplit_hostRd s _ _
@[simp] theorem stopSpeculation_hostRd (s : State) (w : Who) : (stopSpeculation s w).hostRd = s.hostRd := modWarp_hostRd s _ _ _ _

@[simp] theorem modGroup_msCache (s : State) (c g : Nat) (f : Group → Group) : (modGroup s c g f).msCache = s.msCache := by
  unfold modGroup
  split <;> rfl
@[simp] theorem modWarp_msCache (s : State) (c g w : Nat) (f : Warp → Warp) : (modWarp s c g w f).msCache = s.msCache := modGroup_msCache s c g _
@[simp] theorem modSplit_msCache (s : State) (w : Who) (f : Split → Split) : (modSplit s w f).msCache = s.msCache := modWarp_msCache s _ _ _ _
@[simp] theorem onGroup_msCache (s : State) (x : Iss) (f : Group → Group) : (onGroup s x f).msCache = s.msCache := modGroup_msCache s _ _ f
@[simp] theorem onWarp_msCache (s : State) (x : Iss) (f : Warp → Warp) : (onWarp s x f).msCache = s.msCache := modWarp_msCache s _ _ _ f
@[simp] theorem onSplit_msCache (s : State) (x : Iss) (f : Split → Split) : (onSplit s x f).msCache = s.msCache := modSplit_msCache s _ f
@[simp] theorem noteRank_msCache (s : State) (w : Who) : (noteRank s w).msCache = s.msCache := rfl
@[simp] theorem setBlocked_msCache (s : State) (w : Who) (b : Block) : (setBlocked s w b).msCache = s.msCache := by
  unfold setBlocked
  split
  · exact (modWarp_msCache _ _ _ _ _).trans (noteRank_msCache s w)
  · exact (modWarp_msCache _ _ _ _ _).trans rfl
@[simp] theorem noteIssue_msCache (s : State) (x : Iss) : (noteIssue s x).msCache = s.msCache := (modWarp_msCache _ _ _ _ _).trans (noteRank_msCache s x.w)
@[simp] theorem endIssue_msCache (s : State) (x : Iss) : (endIssue s x).msCache = s.msCache := (modWarp_msCache _ _ _ _ _).trans (noteIssue_msCache s x)
@[simp] theorem awaitEnd_msCache (s : State) (x : Iss) (b : Block) : (awaitEnd s x b).msCache = s.msCache := (modWarp_msCache _ _ _ _ _).trans (noteIssue_msCache s x)
@[simp] theorem stepPc_msCache (s : State) (w : Who) (n : Nat) : (stepPc s w n).msCache = s.msCache := modSplit_msCache s _ _
@[simp] theorem stopSpeculation_msCache (s : State) (w : Who) : (stopSpeculation s w).msCache = s.msCache := modWarp_msCache s _ _ _ _

@[simp] theorem modGroup_sysMsgs (s : State) (c g : Nat) (f : Group → Group) : (modGroup s c g f).sysMsgs = s.sysMsgs := by
  unfold modGroup
  split <;> rfl
@[simp] theorem modWarp_sysMsgs (s : State) (c g w : Nat) (f : Warp → Warp) : (modWarp s c g w f).sysMsgs = s.sysMsgs := modGroup_sysMsgs s c g _
@[simp] theorem modSplit_sysMsgs (s : State) (w : Who) (f : Split → Split) : (modSplit s w f).sysMsgs = s.sysMsgs := modWarp_sysMsgs s _ _ _ _
@[simp] theorem onGroup_sysMsgs (s : State) (x : Iss) (f : Group → Group) : (onGroup s x f).sysMsgs = s.sysMsgs := modGroup_sysMsgs s _ _ f
@[simp] theorem onWarp_sysMsgs (s : State) (x : Iss) (f : Warp → Warp) : (onWarp s x f).sysMsgs = s.sysMsgs := modWarp_sysMsgs s _ _ _ f
@[simp] theorem onSplit_sysMsgs (s : State) (x : Iss) (f : Split → Split) : (onSplit s x f).sysMsgs = s.sysMsgs := modSplit_sysMsgs s _ f
@[simp] theorem noteRank_sysMsgs (s : State) (w : Who) : (noteRank s w).sysMsgs = s.sysMsgs := rfl
@[simp] theorem setBlocked_sysMsgs (s : State) (w : Who) (b : Block) : (setBlocked s w b).sysMsgs = s.sysMsgs := by
  unfold setBlocked
  split
  · exact (modWarp_sysMsgs _ _ _ _ _).trans (noteRank_sysMsgs s w)
  · exact (modWarp_sysMsgs _ _ _ _ _).trans rfl
@[simp] theorem noteIssue_sysMsgs (s : State) (x : Iss) : (noteIssue s x).sysMsgs = s.sysMsgs := (modWarp_sysMsgs _ _ _ _ _).trans (noteRank_sysMsgs s x.w)
@[simp] theorem endIssue_sysMsgs (s : State) (x : Iss) : (endIssue s x).sysMsgs = s.sysMsgs := (modWarp_sysMsgs _ _ _ _ _).trans (noteIssue_sysMsgs s x)
@[simp] theorem awaitEnd_sysMsgs (s : State) (x : Iss) (b : Block) : (awaitEnd s x b).sysMsgs = s.sysMsgs := (modWarp_sysMsgs _ _ _ _ _).trans (noteIssue_sysMsgs s x)
@[simp] theorem stepPc_sysMsgs (s : State) (w : Who) (n : Nat) : (stepPc s w n).sysMsgs = s.sysMsgs := modSplit_sysMsgs s _ _
@[simp] theorem stopSpeculation_sysMsgs (s : State) (w : Who) : (stopSpeculation s w).sysMsgs = s.sysMsgs := modWarp_sysMsgs s _ _ _ _

@[simp] theorem modGroup_spdm (s : State) (c g : Nat) (f : Group → Group) : (modGroup s c g f).spdm = s.spdm := by
  unfold modGroup
  split <;> rfl
@[simp] theorem modWarp_spdm (s : State) (c g w : Nat) (f : Warp → Warp) : (modWarp s c g w f).spdm = s.spdm := modGroup_spdm s c g _
@[simp] theorem modSplit_spdm (s : State) (w : Who) (f : Split → Split) : (modSplit s w f).spdm = s.spdm := modWarp_spdm s _ _ _ _
@[simp] theorem onGroup_spdm (s : State) (x : Iss) (f : Group → Group) : (onGroup s x f).spdm = s.spdm := modGroup_spdm s _ _ f
@[simp] theorem onWarp_spdm (s : State) (x : Iss) (f : Warp → Warp) : (onWarp s x f).spdm = s.spdm := modWarp_spdm s _ _ _ f
@[simp] theorem onSplit_spdm (s : State) (x : Iss) (f : Split → Split) : (onSplit s x f).spdm = s.spdm := modSplit_spdm s _ f
@[simp] theorem noteRank_spdm (s : State) (w : Who) : (noteRank s w).spdm = s.spdm := rfl
@[simp] theorem setBlocked_spdm (s : State) (w : Who) (b : Block) : (setBlocked s w b).spdm = s.spdm := by
  unfold setBlocked
  split
  · exact (modWarp_spdm _ _ _ _ _).trans (noteRank_spdm s w)
  · exact (modWarp_spdm _ _ _ _ _).trans rfl
@[simp] theorem noteIssue_spdm (s : State) (x : Iss) : (noteIssue s x).spdm = s.spdm := (modWarp_spdm _ _ _ _ _).trans (noteRank_spdm s x.w)
@[simp] theorem endIssue_spdm (s : State) (x : Iss) : (endIssue s x).spdm = s.spdm := (modWarp_spdm _ _ _ _ _).trans (noteIssue_spdm s x)
@[simp] theorem awaitEnd_spdm (s : State) (x : Iss) (b : Block) : (awaitEnd s x b).spdm = s.spdm := (modWarp_spdm _ _ _ _ _).trans (noteIssue_spdm s x)
@[simp] theorem stepPc_spdm (s : State) (w : Who) (n : Nat) : (stepPc s w n).spdm = s.spdm := modSplit_spdm s _ _
@[simp] theorem stopSpeculation_spdm (s : State) (w : Who) : (stopSpeculation s w).spdm = s.spdm := modWarp_spdm s _ _ _ _

@[simp] theorem modGroup_unlockCtr (s : State) (c g : Nat) (f : Group → Group) : (modGroup s c g f).unlockCtr = s.unlockCtr := by
  unfold modGroup
  split <;> rfl
@[simp] theorem modWarp_unlockCtr (s : State) (c g w : Nat) (f : Warp → Warp) : (modWarp s c g w f).unlockCtr = s.unlockCtr := modGroup_unlockCtr s c g _
@[simp] theorem modSplit_unlockCtr (s : State) (w : Who) (f : Split → Split) : (modSplit s w f).unlockCtr = s.unlockCtr := modWarp_unlockCtr s _ _ _ _
@[simp] theorem onGroup_unlockCtr (s : State) (x : Iss) (f : Group → Group) : (onGroup s x f).unlockCtr = s.unlockCtr := modGroup_unlockCtr s _ _ f
@[simp] theorem onWarp_unlockCtr (s : State) (x : Iss) (f : Warp → Warp) : (onWarp s x f).unlockCtr = s.unlockCtr := modWarp_unlockCtr s _ _ _ f
@[simp] theorem onSplit_unlockCtr (s : State) (x : Iss) (f : Split → Split) : (onSplit s x f).unlockCtr = s.unlockCtr := modSplit_unlockCtr s _ f
@[simp] theorem noteRank_unlockCtr (s : State) (w : Who) : (noteRank s w).unlockCtr = s.unlockCtr := rfl
@[simp] theorem setBlocked_unlockCtr (s : State) (w : Who) (b : Block) : (setBlocked s w b).unlockCtr = s.unlockCtr := by
  unfold setBlocked
  split
  · exact (modWarp_unlockCtr _ _ _ _ _).trans (noteRank_unlockCtr s w)
  · exact (modWarp_unlockCtr _ _ _ _ _).trans rfl
@[simp] theorem noteIssue_unlockCtr (s : State) (x : Iss) : (noteIssue s x).unlockCtr = s.unlockCtr := (modWarp_unlockCtr _ _ _ _ _).trans (noteRank_unlockCtr s x.w)
@[simp] theorem endIssue_unlockCtr (s : State) (x : Iss) : (endIssue s x).unlockCtr = s.unlockCtr := (modWarp_unlockCtr _ _ _ _ _).trans (noteIssue_unlockCtr s x)
@[simp] theorem awaitEnd_unlockCtr (s : State) (x : Iss) (b : Block) : (awaitEnd s x b).unlockCtr = s.unlockCtr := (modWarp_unlockCtr _ _ _ _ _).trans (noteIssue_unlockCtr s x)
@[simp] theorem stepPc_unlockCtr (s : State) (w : Who) (n : Nat) : (stepPc s w n).unlockCtr = s.unlockCtr := modSplit_unlockCtr s _ _
@[simp] theorem stopSpeculation_unlockCtr (s : State) (w : Who) : (stopSpeculation s w).unlockCtr = s.unlockCtr := modWarp_unlockCtr s _ _ _ _

@[simp] theorem modGroup_power (s : State) (c g : Nat) (f : Group → Group) : (modGroup s c g f).power = s.power := by
  unfold modGroup
  split <;> rfl
@[simp] theorem modWarp_power (s : State) (c g w : Nat) (f : Warp → Warp) : (modWarp s c g w f).power = s.power := modGroup_power s c g _
@[simp] theorem modSplit_power (s : State) (w : Who) (f : Split → Split) : (modSplit s w f).power = s.power := modWarp_power s _ _ _ _
@[simp] theorem onGroup_power (s : State) (x : Iss) (f : Group → Group) : (onGroup s x f).power = s.power := modGroup_power s _ _ f
@[simp] theorem onWarp_power (s : State) (x : Iss) (f : Warp → Warp) : (onWarp s x f).power = s.power := modWarp_power s _ _ _ f
@[simp] theorem onSplit_power (s : State) (x : Iss) (f : Split → Split) : (onSplit s x f).power = s.power := modSplit_power s _ f
@[simp] theorem noteRank_power (s : State) (w : Who) : (noteRank s w).power = s.power := rfl
@[simp] theorem setBlocked_power (s : State) (w : Who) (b : Block) : (setBlocked s w b).power = s.power := by
  unfold setBlocked
  split
  · exact (modWarp_power _ _ _ _ _).trans (noteRank_power s w)
  · exact (modWarp_power _ _ _ _ _).trans rfl
@[simp] theorem noteIssue_power (s : State) (x : Iss) : (noteIssue s x).power = s.power := (modWarp_power _ _ _ _ _).trans (noteRank_power s x.w)
@[simp] theorem endIssue_power (s : State) (x : Iss) : (endIssue s x).power = s.power := (modWarp_power _ _ _ _ _).trans (noteIssue_power s x)
@[simp] theorem awaitEnd_power (s : State) (x : Iss) (b : Block) : (awaitEnd s x b).power = s.power := (modWarp_power _ _ _ _ _).trans (noteIssue_power s x)
@[simp] theorem stepPc_power (s : State) (w : Who) (n : Nat) : (stepPc s w n).power = s.power := modSplit_power s _ _
@[simp] theorem stopSpeculation_power (s : State) (w : Who) : (stopSpeculation s w).power = s.power := modWarp_power s _ _ _ _

@[simp] theorem modGroup_pmPending (s : State) (c g : Nat) (f : Group → Group) : (modGroup s c g f).pmPending = s.pmPending := by
  unfold modGroup
  split <;> rfl
@[simp] theorem modWarp_pmPending (s : State) (c g w : Nat) (f : Warp → Warp) : (modWarp s c g w f).pmPending = s.pmPending := modGroup_pmPending s c g _
@[simp] theorem modSplit_pmPending (s : State) (w : Who) (f : Split → Split) : (modSplit s w f).pmPending = s.pmPending := modWarp_pmPending s _ _ _ _
@[simp] theorem onGroup_pmPending (s : State) (x : Iss) (f : Group → Group) : (onGroup s x f).pmPending = s.pmPending := modGroup_pmPending s _ _ f
@[simp] theorem onWarp_pmPending (s : State) (x : Iss) (f : Warp → Warp) : (onWarp s x f).pmPending = s.pmPending := modWarp_pmPending s _ _ _ f
@[simp] theorem onSplit_pmPending (s : State) (x : Iss) (f : Split → Split) : (onSplit s x f).pmPending = s.pmPending := modSplit_pmPending s _ f
@[simp] theorem noteRank_pmPending (s : State) (w : Who) : (noteRank s w).pmPending = s.pmPending := rfl
@[simp] theorem setBlocked_pmPending (s : State) (w : Who) (b : Block) : (setBlocked s w b).pmPending = s.pmPending := by
  unfold setBlocked
  split
  · exact (modWarp_pmPending _ _ _ _ _).trans (noteRank_pmPending s w)
  · exact (modWarp_pmPending _ _ _ _ _).trans rfl
@[simp] theorem noteIssue_pmPending (s : State) (x : Iss) : (noteIssue s x).pmPending = s.pmPending := (modWarp_pmPending _ _ _ _ _).trans (noteRank_pmPending s x.w)
@[simp] theorem endIssue_pmPending (s : State) (x : Iss) : (endIssue s x).pmPending = s.pmPending := (modWarp_pmPending _ _ _ _ _).trans (noteIssue_pmPending s x)
@[simp] theorem awaitEnd_pmPending (s : State) (x : Iss) (b : Block) : (awaitEnd s x b).pmPending = s.pmPending := (modWarp_pmPending _ _ _ _ _).trans (noteIssue_pmPending s x)
@[simp] theorem stepPc_pmPending (s : State) (w : Who) (n : Nat) : (stepPc s w n).pmPending = s.pmPending := modSplit_pmPending s _ _
@[simp] theorem stopSpeculation_pmPending (s : State) (w : Who) : (stopSpeculation s w).pmPending = s.pmPending := modWarp_pmPending s _ _ _ _

@[simp] theorem modGroup_pwrcap (s : State) (c g : Nat) (f : Group → Group) : (modGroup s c g f).pwrcap = s.pwrcap := by
  unfold modGroup
  split <;> rfl
@[simp] theorem modWarp_pwrcap (s : State) (c g w : Nat) (f : Warp → Warp) : (modWarp s c g w f).pwrcap = s.pwrcap := modGroup_pwrcap s c g _
@[simp] theorem modSplit_pwrcap (s : State) (w : Who) (f : Split → Split) : (modSplit s w f).pwrcap = s.pwrcap := modWarp_pwrcap s _ _ _ _
@[simp] theorem onGroup_pwrcap (s : State) (x : Iss) (f : Group → Group) : (onGroup s x f).pwrcap = s.pwrcap := modGroup_pwrcap s _ _ f
@[simp] theorem onWarp_pwrcap (s : State) (x : Iss) (f : Warp → Warp) : (onWarp s x f).pwrcap = s.pwrcap := modWarp_pwrcap s _ _ _ f
@[simp] theorem onSplit_pwrcap (s : State) (x : Iss) (f : Split → Split) : (onSplit s x f).pwrcap = s.pwrcap := modSplit_pwrcap s _ f
@[simp] theorem noteRank_pwrcap (s : State) (w : Who) : (noteRank s w).pwrcap = s.pwrcap := rfl
@[simp] theorem setBlocked_pwrcap (s : State) (w : Who) (b : Block) : (setBlocked s w b).pwrcap = s.pwrcap := by
  unfold setBlocked
  split
  · exact (modWarp_pwrcap _ _ _ _ _).trans (noteRank_pwrcap s w)
  · exact (modWarp_pwrcap _ _ _ _ _).trans rfl
@[simp] theorem noteIssue_pwrcap (s : State) (x : Iss) : (noteIssue s x).pwrcap = s.pwrcap := (modWarp_pwrcap _ _ _ _ _).trans (noteRank_pwrcap s x.w)
@[simp] theorem endIssue_pwrcap (s : State) (x : Iss) : (endIssue s x).pwrcap = s.pwrcap := (modWarp_pwrcap _ _ _ _ _).trans (noteIssue_pwrcap s x)
@[simp] theorem awaitEnd_pwrcap (s : State) (x : Iss) (b : Block) : (awaitEnd s x b).pwrcap = s.pwrcap := (modWarp_pwrcap _ _ _ _ _).trans (noteIssue_pwrcap s x)
@[simp] theorem stepPc_pwrcap (s : State) (w : Who) (n : Nat) : (stepPc s w n).pwrcap = s.pwrcap := modSplit_pwrcap s _ _
@[simp] theorem stopSpeculation_pwrcap (s : State) (w : Who) : (stopSpeculation s w).pwrcap = s.pwrcap := modWarp_pwrcap s _ _ _ _

@[simp] theorem modGroup_pwrLimit (s : State) (c g : Nat) (f : Group → Group) : (modGroup s c g f).pwrLimit = s.pwrLimit := by
  unfold modGroup
  split <;> rfl
@[simp] theorem modWarp_pwrLimit (s : State) (c g w : Nat) (f : Warp → Warp) : (modWarp s c g w f).pwrLimit = s.pwrLimit := modGroup_pwrLimit s c g _
@[simp] theorem modSplit_pwrLimit (s : State) (w : Who) (f : Split → Split) : (modSplit s w f).pwrLimit = s.pwrLimit := modWarp_pwrLimit s _ _ _ _
@[simp] theorem onGroup_pwrLimit (s : State) (x : Iss) (f : Group → Group) : (onGroup s x f).pwrLimit = s.pwrLimit := modGroup_pwrLimit s _ _ f
@[simp] theorem onWarp_pwrLimit (s : State) (x : Iss) (f : Warp → Warp) : (onWarp s x f).pwrLimit = s.pwrLimit := modWarp_pwrLimit s _ _ _ f
@[simp] theorem onSplit_pwrLimit (s : State) (x : Iss) (f : Split → Split) : (onSplit s x f).pwrLimit = s.pwrLimit := modSplit_pwrLimit s _ f
@[simp] theorem noteRank_pwrLimit (s : State) (w : Who) : (noteRank s w).pwrLimit = s.pwrLimit := rfl
@[simp] theorem setBlocked_pwrLimit (s : State) (w : Who) (b : Block) : (setBlocked s w b).pwrLimit = s.pwrLimit := by
  unfold setBlocked
  split
  · exact (modWarp_pwrLimit _ _ _ _ _).trans (noteRank_pwrLimit s w)
  · exact (modWarp_pwrLimit _ _ _ _ _).trans rfl
@[simp] theorem noteIssue_pwrLimit (s : State) (x : Iss) : (noteIssue s x).pwrLimit = s.pwrLimit := (modWarp_pwrLimit _ _ _ _ _).trans (noteRank_pwrLimit s x.w)
@[simp] theorem endIssue_pwrLimit (s : State) (x : Iss) : (endIssue s x).pwrLimit = s.pwrLimit := (modWarp_pwrLimit _ _ _ _ _).trans (noteIssue_pwrLimit s x)
@[simp] theorem awaitEnd_pwrLimit (s : State) (x : Iss) (b : Block) : (awaitEnd s x b).pwrLimit = s.pwrLimit := (modWarp_pwrLimit _ _ _ _ _).trans (noteIssue_pwrLimit s x)
@[simp] theorem stepPc_pwrLimit (s : State) (w : Who) (n : Nat) : (stepPc s w n).pwrLimit = s.pwrLimit := modSplit_pwrLimit s _ _
@[simp] theorem stopSpeculation_pwrLimit (s : State) (w : Who) : (stopSpeculation s w).pwrLimit = s.pwrLimit := modWarp_pwrLimit s _ _ _ _

@[simp] theorem modGroup_clockMhz (s : State) (c g : Nat) (f : Group → Group) : (modGroup s c g f).clockMhz = s.clockMhz := by
  unfold modGroup
  split <;> rfl
@[simp] theorem modWarp_clockMhz (s : State) (c g w : Nat) (f : Warp → Warp) : (modWarp s c g w f).clockMhz = s.clockMhz := modGroup_clockMhz s c g _
@[simp] theorem modSplit_clockMhz (s : State) (w : Who) (f : Split → Split) : (modSplit s w f).clockMhz = s.clockMhz := modWarp_clockMhz s _ _ _ _
@[simp] theorem onGroup_clockMhz (s : State) (x : Iss) (f : Group → Group) : (onGroup s x f).clockMhz = s.clockMhz := modGroup_clockMhz s _ _ f
@[simp] theorem onWarp_clockMhz (s : State) (x : Iss) (f : Warp → Warp) : (onWarp s x f).clockMhz = s.clockMhz := modWarp_clockMhz s _ _ _ f
@[simp] theorem onSplit_clockMhz (s : State) (x : Iss) (f : Split → Split) : (onSplit s x f).clockMhz = s.clockMhz := modSplit_clockMhz s _ f
@[simp] theorem noteRank_clockMhz (s : State) (w : Who) : (noteRank s w).clockMhz = s.clockMhz := rfl
@[simp] theorem setBlocked_clockMhz (s : State) (w : Who) (b : Block) : (setBlocked s w b).clockMhz = s.clockMhz := by
  unfold setBlocked
  split
  · exact (modWarp_clockMhz _ _ _ _ _).trans (noteRank_clockMhz s w)
  · exact (modWarp_clockMhz _ _ _ _ _).trans rfl
@[simp] theorem noteIssue_clockMhz (s : State) (x : Iss) : (noteIssue s x).clockMhz = s.clockMhz := (modWarp_clockMhz _ _ _ _ _).trans (noteRank_clockMhz s x.w)
@[simp] theorem endIssue_clockMhz (s : State) (x : Iss) : (endIssue s x).clockMhz = s.clockMhz := (modWarp_clockMhz _ _ _ _ _).trans (noteIssue_clockMhz s x)
@[simp] theorem awaitEnd_clockMhz (s : State) (x : Iss) (b : Block) : (awaitEnd s x b).clockMhz = s.clockMhz := (modWarp_clockMhz _ _ _ _ _).trans (noteIssue_clockMhz s x)
@[simp] theorem stepPc_clockMhz (s : State) (w : Who) (n : Nat) : (stepPc s w n).clockMhz = s.clockMhz := modSplit_clockMhz s _ _
@[simp] theorem stopSpeculation_clockMhz (s : State) (w : Who) : (stopSpeculation s w).clockMhz = s.clockMhz := modWarp_clockMhz s _ _ _ _

@[simp] theorem modGroup_fw (s : State) (c g : Nat) (f : Group → Group) : (modGroup s c g f).fw = s.fw := by
  unfold modGroup
  split <;> rfl
@[simp] theorem modWarp_fw (s : State) (c g w : Nat) (f : Warp → Warp) : (modWarp s c g w f).fw = s.fw := modGroup_fw s c g _
@[simp] theorem modSplit_fw (s : State) (w : Who) (f : Split → Split) : (modSplit s w f).fw = s.fw := modWarp_fw s _ _ _ _
@[simp] theorem onGroup_fw (s : State) (x : Iss) (f : Group → Group) : (onGroup s x f).fw = s.fw := modGroup_fw s _ _ f
@[simp] theorem onWarp_fw (s : State) (x : Iss) (f : Warp → Warp) : (onWarp s x f).fw = s.fw := modWarp_fw s _ _ _ f
@[simp] theorem onSplit_fw (s : State) (x : Iss) (f : Split → Split) : (onSplit s x f).fw = s.fw := modSplit_fw s _ f
@[simp] theorem noteRank_fw (s : State) (w : Who) : (noteRank s w).fw = s.fw := rfl
@[simp] theorem setBlocked_fw (s : State) (w : Who) (b : Block) : (setBlocked s w b).fw = s.fw := by
  unfold setBlocked
  split
  · exact (modWarp_fw _ _ _ _ _).trans (noteRank_fw s w)
  · exact (modWarp_fw _ _ _ _ _).trans rfl
@[simp] theorem noteIssue_fw (s : State) (x : Iss) : (noteIssue s x).fw = s.fw := (modWarp_fw _ _ _ _ _).trans (noteRank_fw s x.w)
@[simp] theorem endIssue_fw (s : State) (x : Iss) : (endIssue s x).fw = s.fw := (modWarp_fw _ _ _ _ _).trans (noteIssue_fw s x)
@[simp] theorem awaitEnd_fw (s : State) (x : Iss) (b : Block) : (awaitEnd s x b).fw = s.fw := (modWarp_fw _ _ _ _ _).trans (noteIssue_fw s x)
@[simp] theorem stepPc_fw (s : State) (w : Who) (n : Nat) : (stepPc s w n).fw = s.fw := modSplit_fw s _ _
@[simp] theorem stopSpeculation_fw (s : State) (w : Who) : (stopSpeculation s w).fw = s.fw := modWarp_fw s _ _ _ _

@[simp] theorem modGroup_node (s : State) (c g : Nat) (f : Group → Group) : (modGroup s c g f).node = s.node := by
  unfold modGroup
  split <;> rfl
@[simp] theorem modWarp_node (s : State) (c g w : Nat) (f : Warp → Warp) : (modWarp s c g w f).node = s.node := modGroup_node s c g _
@[simp] theorem modSplit_node (s : State) (w : Who) (f : Split → Split) : (modSplit s w f).node = s.node := modWarp_node s _ _ _ _
@[simp] theorem onGroup_node (s : State) (x : Iss) (f : Group → Group) : (onGroup s x f).node = s.node := modGroup_node s _ _ f
@[simp] theorem onWarp_node (s : State) (x : Iss) (f : Warp → Warp) : (onWarp s x f).node = s.node := modWarp_node s _ _ _ f
@[simp] theorem onSplit_node (s : State) (x : Iss) (f : Split → Split) : (onSplit s x f).node = s.node := modSplit_node s _ f
@[simp] theorem noteRank_node (s : State) (w : Who) : (noteRank s w).node = s.node := rfl
@[simp] theorem setBlocked_node (s : State) (w : Who) (b : Block) : (setBlocked s w b).node = s.node := by
  unfold setBlocked
  split
  · exact (modWarp_node _ _ _ _ _).trans (noteRank_node s w)
  · exact (modWarp_node _ _ _ _ _).trans rfl
@[simp] theorem noteIssue_node (s : State) (x : Iss) : (noteIssue s x).node = s.node := (modWarp_node _ _ _ _ _).trans (noteRank_node s x.w)
@[simp] theorem endIssue_node (s : State) (x : Iss) : (endIssue s x).node = s.node := (modWarp_node _ _ _ _ _).trans (noteIssue_node s x)
@[simp] theorem awaitEnd_node (s : State) (x : Iss) (b : Block) : (awaitEnd s x b).node = s.node := (modWarp_node _ _ _ _ _).trans (noteIssue_node s x)
@[simp] theorem stepPc_node (s : State) (w : Who) (n : Nat) : (stepPc s w n).node = s.node := modSplit_node s _ _
@[simp] theorem stopSpeculation_node (s : State) (w : Who) : (stopSpeculation s w).node = s.node := modWarp_node s _ _ _ _

@[simp] theorem modGroup_routes (s : State) (c g : Nat) (f : Group → Group) : (modGroup s c g f).routes = s.routes := by
  unfold modGroup
  split <;> rfl
@[simp] theorem modWarp_routes (s : State) (c g w : Nat) (f : Warp → Warp) : (modWarp s c g w f).routes = s.routes := modGroup_routes s c g _
@[simp] theorem modSplit_routes (s : State) (w : Who) (f : Split → Split) : (modSplit s w f).routes = s.routes := modWarp_routes s _ _ _ _
@[simp] theorem onGroup_routes (s : State) (x : Iss) (f : Group → Group) : (onGroup s x f).routes = s.routes := modGroup_routes s _ _ f
@[simp] theorem onWarp_routes (s : State) (x : Iss) (f : Warp → Warp) : (onWarp s x f).routes = s.routes := modWarp_routes s _ _ _ f
@[simp] theorem onSplit_routes (s : State) (x : Iss) (f : Split → Split) : (onSplit s x f).routes = s.routes := modSplit_routes s _ f
@[simp] theorem noteRank_routes (s : State) (w : Who) : (noteRank s w).routes = s.routes := rfl
@[simp] theorem setBlocked_routes (s : State) (w : Who) (b : Block) : (setBlocked s w b).routes = s.routes := by
  unfold setBlocked
  split
  · exact (modWarp_routes _ _ _ _ _).trans (noteRank_routes s w)
  · exact (modWarp_routes _ _ _ _ _).trans rfl
@[simp] theorem noteIssue_routes (s : State) (x : Iss) : (noteIssue s x).routes = s.routes := (modWarp_routes _ _ _ _ _).trans (noteRank_routes s x.w)
@[simp] theorem endIssue_routes (s : State) (x : Iss) : (endIssue s x).routes = s.routes := (modWarp_routes _ _ _ _ _).trans (noteIssue_routes s x)
@[simp] theorem awaitEnd_routes (s : State) (x : Iss) (b : Block) : (awaitEnd s x b).routes = s.routes := (modWarp_routes _ _ _ _ _).trans (noteIssue_routes s x)
@[simp] theorem stepPc_routes (s : State) (w : Who) (n : Nat) : (stepPc s w n).routes = s.routes := modSplit_routes s _ _
@[simp] theorem stopSpeculation_routes (s : State) (w : Who) : (stopSpeculation s w).routes = s.routes := modWarp_routes s _ _ _ _

@[simp] theorem modGroup_linkStream (s : State) (c g : Nat) (f : Group → Group) : (modGroup s c g f).linkStream = s.linkStream := by
  unfold modGroup
  split <;> rfl
@[simp] theorem modWarp_linkStream (s : State) (c g w : Nat) (f : Warp → Warp) : (modWarp s c g w f).linkStream = s.linkStream := modGroup_linkStream s c g _
@[simp] theorem modSplit_linkStream (s : State) (w : Who) (f : Split → Split) : (modSplit s w f).linkStream = s.linkStream := modWarp_linkStream s _ _ _ _
@[simp] theorem onGroup_linkStream (s : State) (x : Iss) (f : Group → Group) : (onGroup s x f).linkStream = s.linkStream := modGroup_linkStream s _ _ f
@[simp] theorem onWarp_linkStream (s : State) (x : Iss) (f : Warp → Warp) : (onWarp s x f).linkStream = s.linkStream := modWarp_linkStream s _ _ _ f
@[simp] theorem onSplit_linkStream (s : State) (x : Iss) (f : Split → Split) : (onSplit s x f).linkStream = s.linkStream := modSplit_linkStream s _ f
@[simp] theorem noteRank_linkStream (s : State) (w : Who) : (noteRank s w).linkStream = s.linkStream := rfl
@[simp] theorem setBlocked_linkStream (s : State) (w : Who) (b : Block) : (setBlocked s w b).linkStream = s.linkStream := by
  unfold setBlocked
  split
  · exact (modWarp_linkStream _ _ _ _ _).trans (noteRank_linkStream s w)
  · exact (modWarp_linkStream _ _ _ _ _).trans rfl
@[simp] theorem noteIssue_linkStream (s : State) (x : Iss) : (noteIssue s x).linkStream = s.linkStream := (modWarp_linkStream _ _ _ _ _).trans (noteRank_linkStream s x.w)
@[simp] theorem endIssue_linkStream (s : State) (x : Iss) : (endIssue s x).linkStream = s.linkStream := (modWarp_linkStream _ _ _ _ _).trans (noteIssue_linkStream s x)
@[simp] theorem awaitEnd_linkStream (s : State) (x : Iss) (b : Block) : (awaitEnd s x b).linkStream = s.linkStream := (modWarp_linkStream _ _ _ _ _).trans (noteIssue_linkStream s x)
@[simp] theorem stepPc_linkStream (s : State) (w : Who) (n : Nat) : (stepPc s w n).linkStream = s.linkStream := modSplit_linkStream s _ _
@[simp] theorem stopSpeculation_linkStream (s : State) (w : Who) : (stopSpeculation s w).linkStream = s.linkStream := modWarp_linkStream s _ _ _ _

@[simp] theorem modGroup_ports (s : State) (c g : Nat) (f : Group → Group) : (modGroup s c g f).ports = s.ports := by
  unfold modGroup
  split <;> rfl
@[simp] theorem modWarp_ports (s : State) (c g w : Nat) (f : Warp → Warp) : (modWarp s c g w f).ports = s.ports := modGroup_ports s c g _
@[simp] theorem modSplit_ports (s : State) (w : Who) (f : Split → Split) : (modSplit s w f).ports = s.ports := modWarp_ports s _ _ _ _
@[simp] theorem onGroup_ports (s : State) (x : Iss) (f : Group → Group) : (onGroup s x f).ports = s.ports := modGroup_ports s _ _ f
@[simp] theorem onWarp_ports (s : State) (x : Iss) (f : Warp → Warp) : (onWarp s x f).ports = s.ports := modWarp_ports s _ _ _ f
@[simp] theorem onSplit_ports (s : State) (x : Iss) (f : Split → Split) : (onSplit s x f).ports = s.ports := modSplit_ports s _ f
@[simp] theorem noteRank_ports (s : State) (w : Who) : (noteRank s w).ports = s.ports := rfl
@[simp] theorem setBlocked_ports (s : State) (w : Who) (b : Block) : (setBlocked s w b).ports = s.ports := by
  unfold setBlocked
  split
  · exact (modWarp_ports _ _ _ _ _).trans (noteRank_ports s w)
  · exact (modWarp_ports _ _ _ _ _).trans rfl
@[simp] theorem noteIssue_ports (s : State) (x : Iss) : (noteIssue s x).ports = s.ports := (modWarp_ports _ _ _ _ _).trans (noteRank_ports s x.w)
@[simp] theorem endIssue_ports (s : State) (x : Iss) : (endIssue s x).ports = s.ports := (modWarp_ports _ _ _ _ _).trans (noteIssue_ports s x)
@[simp] theorem awaitEnd_ports (s : State) (x : Iss) (b : Block) : (awaitEnd s x b).ports = s.ports := (modWarp_ports _ _ _ _ _).trans (noteIssue_ports s x)
@[simp] theorem stepPc_ports (s : State) (w : Who) (n : Nat) : (stepPc s w n).ports = s.ports := modSplit_ports s _ _
@[simp] theorem stopSpeculation_ports (s : State) (w : Who) : (stopSpeculation s w).ports = s.ports := modWarp_ports s _ _ _ _

@[simp] theorem modGroup_ucie (s : State) (c g : Nat) (f : Group → Group) : (modGroup s c g f).ucie = s.ucie := by
  unfold modGroup
  split <;> rfl
@[simp] theorem modWarp_ucie (s : State) (c g w : Nat) (f : Warp → Warp) : (modWarp s c g w f).ucie = s.ucie := modGroup_ucie s c g _
@[simp] theorem modSplit_ucie (s : State) (w : Who) (f : Split → Split) : (modSplit s w f).ucie = s.ucie := modWarp_ucie s _ _ _ _
@[simp] theorem onGroup_ucie (s : State) (x : Iss) (f : Group → Group) : (onGroup s x f).ucie = s.ucie := modGroup_ucie s _ _ f
@[simp] theorem onWarp_ucie (s : State) (x : Iss) (f : Warp → Warp) : (onWarp s x f).ucie = s.ucie := modWarp_ucie s _ _ _ f
@[simp] theorem onSplit_ucie (s : State) (x : Iss) (f : Split → Split) : (onSplit s x f).ucie = s.ucie := modSplit_ucie s _ f
@[simp] theorem noteRank_ucie (s : State) (w : Who) : (noteRank s w).ucie = s.ucie := rfl
@[simp] theorem setBlocked_ucie (s : State) (w : Who) (b : Block) : (setBlocked s w b).ucie = s.ucie := by
  unfold setBlocked
  split
  · exact (modWarp_ucie _ _ _ _ _).trans (noteRank_ucie s w)
  · exact (modWarp_ucie _ _ _ _ _).trans rfl
@[simp] theorem noteIssue_ucie (s : State) (x : Iss) : (noteIssue s x).ucie = s.ucie := (modWarp_ucie _ _ _ _ _).trans (noteRank_ucie s x.w)
@[simp] theorem endIssue_ucie (s : State) (x : Iss) : (endIssue s x).ucie = s.ucie := (modWarp_ucie _ _ _ _ _).trans (noteIssue_ucie s x)
@[simp] theorem awaitEnd_ucie (s : State) (x : Iss) (b : Block) : (awaitEnd s x b).ucie = s.ucie := (modWarp_ucie _ _ _ _ _).trans (noteIssue_ucie s x)
@[simp] theorem stepPc_ucie (s : State) (w : Who) (n : Nat) : (stepPc s w n).ucie = s.ucie := modSplit_ucie s _ _
@[simp] theorem stopSpeculation_ucie (s : State) (w : Who) : (stopSpeculation s w).ucie = s.ucie := modWarp_ucie s _ _ _ _

@[simp] theorem modGroup_noModule (s : State) (c g : Nat) (f : Group → Group) : (modGroup s c g f).noModule = s.noModule := by
  unfold modGroup
  split <;> rfl
@[simp] theorem modWarp_noModule (s : State) (c g w : Nat) (f : Warp → Warp) : (modWarp s c g w f).noModule = s.noModule := modGroup_noModule s c g _
@[simp] theorem modSplit_noModule (s : State) (w : Who) (f : Split → Split) : (modSplit s w f).noModule = s.noModule := modWarp_noModule s _ _ _ _
@[simp] theorem onGroup_noModule (s : State) (x : Iss) (f : Group → Group) : (onGroup s x f).noModule = s.noModule := modGroup_noModule s _ _ f
@[simp] theorem onWarp_noModule (s : State) (x : Iss) (f : Warp → Warp) : (onWarp s x f).noModule = s.noModule := modWarp_noModule s _ _ _ f
@[simp] theorem onSplit_noModule (s : State) (x : Iss) (f : Split → Split) : (onSplit s x f).noModule = s.noModule := modSplit_noModule s _ f
@[simp] theorem noteRank_noModule (s : State) (w : Who) : (noteRank s w).noModule = s.noModule := rfl
@[simp] theorem setBlocked_noModule (s : State) (w : Who) (b : Block) : (setBlocked s w b).noModule = s.noModule := by
  unfold setBlocked
  split
  · exact (modWarp_noModule _ _ _ _ _).trans (noteRank_noModule s w)
  · exact (modWarp_noModule _ _ _ _ _).trans rfl
@[simp] theorem noteIssue_noModule (s : State) (x : Iss) : (noteIssue s x).noModule = s.noModule := (modWarp_noModule _ _ _ _ _).trans (noteRank_noModule s x.w)
@[simp] theorem endIssue_noModule (s : State) (x : Iss) : (endIssue s x).noModule = s.noModule := (modWarp_noModule _ _ _ _ _).trans (noteIssue_noModule s x)
@[simp] theorem awaitEnd_noModule (s : State) (x : Iss) (b : Block) : (awaitEnd s x b).noModule = s.noModule := (modWarp_noModule _ _ _ _ _).trans (noteIssue_noModule s x)
@[simp] theorem stepPc_noModule (s : State) (w : Who) (n : Nat) : (stepPc s w n).noModule = s.noModule := modSplit_noModule s _ _
@[simp] theorem stopSpeculation_noModule (s : State) (w : Who) : (stopSpeculation s w).noModule = s.noModule := modWarp_noModule s _ _ _ _

@[simp] theorem modGroup_probes (s : State) (c g : Nat) (f : Group → Group) : (modGroup s c g f).probes = s.probes := by
  unfold modGroup
  split <;> rfl
@[simp] theorem modWarp_probes (s : State) (c g w : Nat) (f : Warp → Warp) : (modWarp s c g w f).probes = s.probes := modGroup_probes s c g _
@[simp] theorem modSplit_probes (s : State) (w : Who) (f : Split → Split) : (modSplit s w f).probes = s.probes := modWarp_probes s _ _ _ _
@[simp] theorem onGroup_probes (s : State) (x : Iss) (f : Group → Group) : (onGroup s x f).probes = s.probes := modGroup_probes s _ _ f
@[simp] theorem onWarp_probes (s : State) (x : Iss) (f : Warp → Warp) : (onWarp s x f).probes = s.probes := modWarp_probes s _ _ _ f
@[simp] theorem onSplit_probes (s : State) (x : Iss) (f : Split → Split) : (onSplit s x f).probes = s.probes := modSplit_probes s _ f
@[simp] theorem noteRank_probes (s : State) (w : Who) : (noteRank s w).probes = s.probes := rfl
@[simp] theorem setBlocked_probes (s : State) (w : Who) (b : Block) : (setBlocked s w b).probes = s.probes := by
  unfold setBlocked
  split
  · exact (modWarp_probes _ _ _ _ _).trans (noteRank_probes s w)
  · exact (modWarp_probes _ _ _ _ _).trans rfl
@[simp] theorem noteIssue_probes (s : State) (x : Iss) : (noteIssue s x).probes = s.probes := (modWarp_probes _ _ _ _ _).trans (noteRank_probes s x.w)
@[simp] theorem endIssue_probes (s : State) (x : Iss) : (endIssue s x).probes = s.probes := (modWarp_probes _ _ _ _ _).trans (noteIssue_probes s x)
@[simp] theorem awaitEnd_probes (s : State) (x : Iss) (b : Block) : (awaitEnd s x b).probes = s.probes := (modWarp_probes _ _ _ _ _).trans (noteIssue_probes s x)
@[simp] theorem stepPc_probes (s : State) (w : Who) (n : Nat) : (stepPc s w n).probes = s.probes := modSplit_probes s _ _
@[simp] theorem stopSpeculation_probes (s : State) (w : Who) : (stopSpeculation s w).probes = s.probes := modWarp_probes s _ _ _ _

@[simp] theorem modGroup_schedule (s : State) (c g : Nat) (f : Group → Group) : (modGroup s c g f).schedule = s.schedule := by
  unfold modGroup
  split <;> rfl
@[simp] theorem modWarp_schedule (s : State) (c g w : Nat) (f : Warp → Warp) : (modWarp s c g w f).schedule = s.schedule := modGroup_schedule s c g _
@[simp] theorem modSplit_schedule (s : State) (w : Who) (f : Split → Split) : (modSplit s w f).schedule = s.schedule := modWarp_schedule s _ _ _ _
@[simp] theorem onGroup_schedule (s : State) (x : Iss) (f : Group → Group) : (onGroup s x f).schedule = s.schedule := modGroup_schedule s _ _ f
@[simp] theorem onWarp_schedule (s : State) (x : Iss) (f : Warp → Warp) : (onWarp s x f).schedule = s.schedule := modWarp_schedule s _ _ _ f
@[simp] theorem onSplit_schedule (s : State) (x : Iss) (f : Split → Split) : (onSplit s x f).schedule = s.schedule := modSplit_schedule s _ f
@[simp] theorem noteRank_schedule (s : State) (w : Who) : (noteRank s w).schedule = s.schedule := rfl
@[simp] theorem setBlocked_schedule (s : State) (w : Who) (b : Block) : (setBlocked s w b).schedule = s.schedule := by
  unfold setBlocked
  split
  · exact (modWarp_schedule _ _ _ _ _).trans (noteRank_schedule s w)
  · exact (modWarp_schedule _ _ _ _ _).trans rfl
@[simp] theorem noteIssue_schedule (s : State) (x : Iss) : (noteIssue s x).schedule = s.schedule := (modWarp_schedule _ _ _ _ _).trans (noteRank_schedule s x.w)
@[simp] theorem endIssue_schedule (s : State) (x : Iss) : (endIssue s x).schedule = s.schedule := (modWarp_schedule _ _ _ _ _).trans (noteIssue_schedule s x)
@[simp] theorem awaitEnd_schedule (s : State) (x : Iss) (b : Block) : (awaitEnd s x b).schedule = s.schedule := (modWarp_schedule _ _ _ _ _).trans (noteIssue_schedule s x)
@[simp] theorem stepPc_schedule (s : State) (w : Who) (n : Nat) : (stepPc s w n).schedule = s.schedule := modSplit_schedule s _ _
@[simp] theorem stopSpeculation_schedule (s : State) (w : Who) : (stopSpeculation s w).schedule = s.schedule := modWarp_schedule s _ _ _ _

@[simp] theorem modGroup_stepping (s : State) (c g : Nat) (f : Group → Group) : (modGroup s c g f).stepping = s.stepping := by
  unfold modGroup
  split <;> rfl
@[simp] theorem modWarp_stepping (s : State) (c g w : Nat) (f : Warp → Warp) : (modWarp s c g w f).stepping = s.stepping := modGroup_stepping s c g _
@[simp] theorem modSplit_stepping (s : State) (w : Who) (f : Split → Split) : (modSplit s w f).stepping = s.stepping := modWarp_stepping s _ _ _ _
@[simp] theorem onGroup_stepping (s : State) (x : Iss) (f : Group → Group) : (onGroup s x f).stepping = s.stepping := modGroup_stepping s _ _ f
@[simp] theorem onWarp_stepping (s : State) (x : Iss) (f : Warp → Warp) : (onWarp s x f).stepping = s.stepping := modWarp_stepping s _ _ _ f
@[simp] theorem onSplit_stepping (s : State) (x : Iss) (f : Split → Split) : (onSplit s x f).stepping = s.stepping := modSplit_stepping s _ f
@[simp] theorem noteRank_stepping (s : State) (w : Who) : (noteRank s w).stepping = s.stepping := rfl
@[simp] theorem setBlocked_stepping (s : State) (w : Who) (b : Block) : (setBlocked s w b).stepping = s.stepping := by
  unfold setBlocked
  split
  · exact (modWarp_stepping _ _ _ _ _).trans (noteRank_stepping s w)
  · exact (modWarp_stepping _ _ _ _ _).trans rfl
@[simp] theorem noteIssue_stepping (s : State) (x : Iss) : (noteIssue s x).stepping = s.stepping := (modWarp_stepping _ _ _ _ _).trans (noteRank_stepping s x.w)
@[simp] theorem endIssue_stepping (s : State) (x : Iss) : (endIssue s x).stepping = s.stepping := (modWarp_stepping _ _ _ _ _).trans (noteIssue_stepping s x)
@[simp] theorem awaitEnd_stepping (s : State) (x : Iss) (b : Block) : (awaitEnd s x b).stepping = s.stepping := (modWarp_stepping _ _ _ _ _).trans (noteIssue_stepping s x)
@[simp] theorem stepPc_stepping (s : State) (w : Who) (n : Nat) : (stepPc s w n).stepping = s.stepping := modSplit_stepping s _ _
@[simp] theorem stopSpeculation_stepping (s : State) (w : Who) : (stopSpeculation s w).stepping = s.stepping := modWarp_stepping s _ _ _ _

@[simp] theorem modGroup_cur (s : State) (c g : Nat) (f : Group → Group) : (modGroup s c g f).cur = s.cur := by
  unfold modGroup
  split <;> rfl
@[simp] theorem modWarp_cur (s : State) (c g w : Nat) (f : Warp → Warp) : (modWarp s c g w f).cur = s.cur := modGroup_cur s c g _
@[simp] theorem modSplit_cur (s : State) (w : Who) (f : Split → Split) : (modSplit s w f).cur = s.cur := modWarp_cur s _ _ _ _
@[simp] theorem onGroup_cur (s : State) (x : Iss) (f : Group → Group) : (onGroup s x f).cur = s.cur := modGroup_cur s _ _ f
@[simp] theorem onWarp_cur (s : State) (x : Iss) (f : Warp → Warp) : (onWarp s x f).cur = s.cur := modWarp_cur s _ _ _ f
@[simp] theorem onSplit_cur (s : State) (x : Iss) (f : Split → Split) : (onSplit s x f).cur = s.cur := modSplit_cur s _ f
@[simp] theorem noteRank_cur (s : State) (w : Who) : (noteRank s w).cur = s.cur := rfl
@[simp] theorem setBlocked_cur (s : State) (w : Who) (b : Block) : (setBlocked s w b).cur = s.cur := by
  unfold setBlocked
  split
  · exact (modWarp_cur _ _ _ _ _).trans (noteRank_cur s w)
  · exact (modWarp_cur _ _ _ _ _).trans rfl
@[simp] theorem noteIssue_cur (s : State) (x : Iss) : (noteIssue s x).cur = s.cur := (modWarp_cur _ _ _ _ _).trans (noteRank_cur s x.w)
@[simp] theorem endIssue_cur (s : State) (x : Iss) : (endIssue s x).cur = s.cur := (modWarp_cur _ _ _ _ _).trans (noteIssue_cur s x)
@[simp] theorem awaitEnd_cur (s : State) (x : Iss) (b : Block) : (awaitEnd s x b).cur = s.cur := (modWarp_cur _ _ _ _ _).trans (noteIssue_cur s x)
@[simp] theorem stepPc_cur (s : State) (w : Who) (n : Nat) : (stepPc s w n).cur = s.cur := modSplit_cur s _ _
@[simp] theorem stopSpeculation_cur (s : State) (w : Who) : (stopSpeculation s w).cur = s.cur := modWarp_cur s _ _ _ _

@[simp] theorem modGroup_nextId (s : State) (c g : Nat) (f : Group → Group) : (modGroup s c g f).nextId = s.nextId := by
  unfold modGroup
  split <;> rfl
@[simp] theorem modWarp_nextId (s : State) (c g w : Nat) (f : Warp → Warp) : (modWarp s c g w f).nextId = s.nextId := modGroup_nextId s c g _
@[simp] theorem modSplit_nextId (s : State) (w : Who) (f : Split → Split) : (modSplit s w f).nextId = s.nextId := modWarp_nextId s _ _ _ _
@[simp] theorem onGroup_nextId (s : State) (x : Iss) (f : Group → Group) : (onGroup s x f).nextId = s.nextId := modGroup_nextId s _ _ f
@[simp] theorem onWarp_nextId (s : State) (x : Iss) (f : Warp → Warp) : (onWarp s x f).nextId = s.nextId := modWarp_nextId s _ _ _ f
@[simp] theorem onSplit_nextId (s : State) (x : Iss) (f : Split → Split) : (onSplit s x f).nextId = s.nextId := modSplit_nextId s _ f
@[simp] theorem noteRank_nextId (s : State) (w : Who) : (noteRank s w).nextId = s.nextId := rfl
@[simp] theorem setBlocked_nextId (s : State) (w : Who) (b : Block) : (setBlocked s w b).nextId = s.nextId := by
  unfold setBlocked
  split
  · exact (modWarp_nextId _ _ _ _ _).trans (noteRank_nextId s w)
  · exact (modWarp_nextId _ _ _ _ _).trans rfl
@[simp] theorem noteIssue_nextId (s : State) (x : Iss) : (noteIssue s x).nextId = s.nextId := (modWarp_nextId _ _ _ _ _).trans (noteRank_nextId s x.w)
@[simp] theorem endIssue_nextId (s : State) (x : Iss) : (endIssue s x).nextId = s.nextId := (modWarp_nextId _ _ _ _ _).trans (noteIssue_nextId s x)
@[simp] theorem awaitEnd_nextId (s : State) (x : Iss) (b : Block) : (awaitEnd s x b).nextId = s.nextId := (modWarp_nextId _ _ _ _ _).trans (noteIssue_nextId s x)
@[simp] theorem stepPc_nextId (s : State) (w : Who) (n : Nat) : (stepPc s w n).nextId = s.nextId := modSplit_nextId s _ _
@[simp] theorem stopSpeculation_nextId (s : State) (w : Who) : (stopSpeculation s w).nextId = s.nextId := modWarp_nextId s _ _ _ _

@[simp] theorem modGroup_freeCtr (s : State) (c g : Nat) (f : Group → Group) : (modGroup s c g f).freeCtr = s.freeCtr := by
  unfold modGroup
  split <;> rfl
@[simp] theorem modWarp_freeCtr (s : State) (c g w : Nat) (f : Warp → Warp) : (modWarp s c g w f).freeCtr = s.freeCtr := modGroup_freeCtr s c g _
@[simp] theorem modSplit_freeCtr (s : State) (w : Who) (f : Split → Split) : (modSplit s w f).freeCtr = s.freeCtr := modWarp_freeCtr s _ _ _ _
@[simp] theorem onGroup_freeCtr (s : State) (x : Iss) (f : Group → Group) : (onGroup s x f).freeCtr = s.freeCtr := modGroup_freeCtr s _ _ f
@[simp] theorem onWarp_freeCtr (s : State) (x : Iss) (f : Warp → Warp) : (onWarp s x f).freeCtr = s.freeCtr := modWarp_freeCtr s _ _ _ f
@[simp] theorem onSplit_freeCtr (s : State) (x : Iss) (f : Split → Split) : (onSplit s x f).freeCtr = s.freeCtr := modSplit_freeCtr s _ f
@[simp] theorem noteRank_freeCtr (s : State) (w : Who) : (noteRank s w).freeCtr = s.freeCtr := rfl
@[simp] theorem setBlocked_freeCtr (s : State) (w : Who) (b : Block) : (setBlocked s w b).freeCtr = s.freeCtr := by
  unfold setBlocked
  split
  · exact (modWarp_freeCtr _ _ _ _ _).trans (noteRank_freeCtr s w)
  · exact (modWarp_freeCtr _ _ _ _ _).trans rfl
@[simp] theorem noteIssue_freeCtr (s : State) (x : Iss) : (noteIssue s x).freeCtr = s.freeCtr := (modWarp_freeCtr _ _ _ _ _).trans (noteRank_freeCtr s x.w)
@[simp] theorem endIssue_freeCtr (s : State) (x : Iss) : (endIssue s x).freeCtr = s.freeCtr := (modWarp_freeCtr _ _ _ _ _).trans (noteIssue_freeCtr s x)
@[simp] theorem awaitEnd_freeCtr (s : State) (x : Iss) (b : Block) : (awaitEnd s x b).freeCtr = s.freeCtr := (modWarp_freeCtr _ _ _ _ _).trans (noteIssue_freeCtr s x)
@[simp] theorem stepPc_freeCtr (s : State) (w : Who) (n : Nat) : (stepPc s w n).freeCtr = s.freeCtr := modSplit_freeCtr s _ _
@[simp] theorem stopSpeculation_freeCtr (s : State) (w : Who) : (stopSpeculation s w).freeCtr = s.freeCtr := modWarp_freeCtr s _ _ _ _

@[simp] theorem setSplit_part (y : Warp) (i : Nat) (x : Option Split) : (y.setSplit i x).part = y.part := rfl
@[simp] theorem setVreg_part (y : Warp) (r : Nat) (m : W32) (f : Nat → W32) : (setVreg y r m f).part = y.part := rfl
@[simp] theorem setCond_part (y : Warp) (c : Nat) (v : Bool) : (setCond y c v).part = y.part := rfl
@[simp] theorem setPred_part (y : Warp) (p : Nat) (m v : W32) : (setPred y p m v).part = y.part := by
  unfold setPred
  split <;> rfl
@[simp] theorem setSplit_wslot (y : Warp) (i : Nat) (x : Option Split) : (y.setSplit i x).wslot = y.wslot := rfl
@[simp] theorem setVreg_wslot (y : Warp) (r : Nat) (m : W32) (f : Nat → W32) : (setVreg y r m f).wslot = y.wslot := rfl
@[simp] theorem setCond_wslot (y : Warp) (c : Nat) (v : Bool) : (setCond y c v).wslot = y.wslot := rfl
@[simp] theorem setPred_wslot (y : Warp) (p : Nat) (m v : W32) : (setPred y p m v).wslot = y.wslot := by
  unfold setPred
  split <;> rfl
@[simp] theorem setSplit_rbase (y : Warp) (i : Nat) (x : Option Split) : (y.setSplit i x).rbase = y.rbase := rfl
@[simp] theorem setVreg_rbase (y : Warp) (r : Nat) (m : W32) (f : Nat → W32) : (setVreg y r m f).rbase = y.rbase := rfl
@[simp] theorem setCond_rbase (y : Warp) (c : Nat) (v : Bool) : (setCond y c v).rbase = y.rbase := rfl
@[simp] theorem setPred_rbase (y : Warp) (p : Nat) (m v : W32) : (setPred y p m v).rbase = y.rbase := by
  unfold setPred
  split <;> rfl
@[simp] theorem setSplit_vregs (y : Warp) (i : Nat) (x : Option Split) : (y.setSplit i x).vregs = y.vregs := rfl
@[simp] theorem setCond_vregs (y : Warp) (c : Nat) (v : Bool) : (setCond y c v).vregs = y.vregs := rfl
@[simp] theorem setPred_vregs (y : Warp) (p : Nat) (m v : W32) : (setPred y p m v).vregs = y.vregs := by
  unfold setPred
  split <;> rfl
@[simp] theorem setSplit_prods (y : Warp) (i : Nat) (x : Option Split) : (y.setSplit i x).prods = y.prods := rfl
@[simp] theorem setVreg_prods (y : Warp) (r : Nat) (m : W32) (f : Nat → W32) : (setVreg y r m f).prods = y.prods := rfl
@[simp] theorem setCond_prods (y : Warp) (c : Nat) (v : Bool) : (setCond y c v).prods = y.prods := rfl
@[simp] theorem setPred_prods (y : Warp) (p : Nat) (m v : W32) : (setPred y p m v).prods = y.prods := by
  unfold setPred
  split <;> rfl
@[simp] theorem setSplit_preds (y : Warp) (i : Nat) (x : Option Split) : (y.setSplit i x).preds = y.preds := rfl
@[simp] theorem setVreg_preds (y : Warp) (r : Nat) (m : W32) (f : Nat → W32) : (setVreg y r m f).preds = y.preds := rfl
@[simp] theorem setCond_preds (y : Warp) (c : Nat) (v : Bool) : (setCond y c v).preds = y.preds := rfl
@[simp] theorem setSplit_conds (y : Warp) (i : Nat) (x : Option Split) : (y.setSplit i x).conds = y.conds := rfl
@[simp] theorem setVreg_conds (y : Warp) (r : Nat) (m : W32) (f : Nat → W32) : (setVreg y r m f).conds = y.conds := rfl
@[simp] theorem setPred_conds (y : Warp) (p : Nat) (m v : W32) : (setPred y p m v).conds = y.conds := by
  unfold setPred
  split <;> rfl
@[simp] theorem setSplit_toks (y : Warp) (i : Nat) (x : Option Split) : (y.setSplit i x).toks = y.toks := rfl
@[simp] theorem setVreg_toks (y : Warp) (r : Nat) (m : W32) (f : Nat → W32) : (setVreg y r m f).toks = y.toks := rfl
@[simp] theorem setCond_toks (y : Warp) (c : Nat) (v : Bool) : (setCond y c v).toks = y.toks := rfl
@[simp] theorem setPred_toks (y : Warp) (p : Nat) (m v : W32) : (setPred y p m v).toks = y.toks := by
  unfold setPred
  split <;> rfl
@[simp] theorem setVreg_splits (y : Warp) (r : Nat) (m : W32) (f : Nat → W32) : (setVreg y r m f).splits = y.splits := rfl
@[simp] theorem setCond_splits (y : Warp) (c : Nat) (v : Bool) : (setCond y c v).splits = y.splits := rfl
@[simp] theorem setPred_splits (y : Warp) (p : Nat) (m v : W32) : (setPred y p m v).splits = y.splits := by
  unfold setPred
  split <;> rfl
@[simp] theorem setSplit_wlist (y : Warp) (i : Nat) (x : Option Split) : (y.setSplit i x).wlist = y.wlist := rfl
@[simp] theorem setVreg_wlist (y : Warp) (r : Nat) (m : W32) (f : Nat → W32) : (setVreg y r m f).wlist = y.wlist := rfl
@[simp] theorem setCond_wlist (y : Warp) (c : Nat) (v : Bool) : (setCond y c v).wlist = y.wlist := rfl
@[simp] theorem setPred_wlist (y : Warp) (p : Nat) (m v : W32) : (setPred y p m v).wlist = y.wlist := by
  unfold setPred
  split <;> rfl
@[simp] theorem setSplit_spilled (y : Warp) (i : Nat) (x : Option Split) : (y.setSplit i x).spilled = y.spilled := rfl
@[simp] theorem setVreg_spilled (y : Warp) (r : Nat) (m : W32) (f : Nat → W32) : (setVreg y r m f).spilled = y.spilled := rfl
@[simp] theorem setCond_spilled (y : Warp) (c : Nat) (v : Bool) : (setCond y c v).spilled = y.spilled := rfl
@[simp] theorem setPred_spilled (y : Warp) (p : Nat) (m v : W32) : (setPred y p m v).spilled = y.spilled := by
  unfold setPred
  split <;> rfl
@[simp] theorem setSplit_lastSlot (y : Warp) (i : Nat) (x : Option Split) : (y.setSplit i x).lastSlot = y.lastSlot := rfl
@[simp] theorem setVreg_lastSlot (y : Warp) (r : Nat) (m : W32) (f : Nat → W32) : (setVreg y r m f).lastSlot = y.lastSlot := rfl
@[simp] theorem setCond_lastSlot (y : Warp) (c : Nat) (v : Bool) : (setCond y c v).lastSlot = y.lastSlot := rfl
@[simp] theorem setPred_lastSlot (y : Warp) (p : Nat) (m v : W32) : (setPred y p m v).lastSlot = y.lastSlot := by
  unfold setPred
  split <;> rfl
@[simp] theorem setSplit_run (y : Warp) (i : Nat) (x : Option Split) : (y.setSplit i x).run = y.run := rfl
@[simp] theorem setVreg_run (y : Warp) (r : Nat) (m : W32) (f : Nat → W32) : (setVreg y r m f).run = y.run := rfl
@[simp] theorem setCond_run (y : Warp) (c : Nat) (v : Bool) : (setCond y c v).run = y.run := rfl
@[simp] theorem setPred_run (y : Warp) (p : Nat) (m v : W32) : (setPred y p m v).run = y.run := by
  unfold setPred
  split <;> rfl
@[simp] theorem setSplit_halted (y : Warp) (i : Nat) (x : Option Split) : (y.setSplit i x).halted = y.halted := rfl
@[simp] theorem setVreg_halted (y : Warp) (r : Nat) (m : W32) (f : Nat → W32) : (setVreg y r m f).halted = y.halted := rfl
@[simp] theorem setCond_halted (y : Warp) (c : Nat) (v : Bool) : (setCond y c v).halted = y.halted := rfl
@[simp] theorem setPred_halted (y : Warp) (p : Nat) (m v : W32) : (setPred y p m v).halted = y.halted := by
  unfold setPred
  split <;> rfl
@[simp] theorem setSplit_pend (y : Warp) (i : Nat) (x : Option Split) : (y.setSplit i x).pend = y.pend := rfl
@[simp] theorem setVreg_pend (y : Warp) (r : Nat) (m : W32) (f : Nat → W32) : (setVreg y r m f).pend = y.pend := rfl
@[simp] theorem setCond_pend (y : Warp) (c : Nat) (v : Bool) : (setCond y c v).pend = y.pend := rfl
@[simp] theorem setPred_pend (y : Warp) (p : Nat) (m v : W32) : (setPred y p m v).pend = y.pend := by
  unfold setPred
  split <;> rfl
@[simp] theorem setSplit_parked (y : Warp) (i : Nat) (x : Option Split) : (y.setSplit i x).parked = y.parked := rfl
@[simp] theorem setVreg_parked (y : Warp) (r : Nat) (m : W32) (f : Nat → W32) : (setVreg y r m f).parked = y.parked := rfl
@[simp] theorem setCond_parked (y : Warp) (c : Nat) (v : Bool) : (setCond y c v).parked = y.parked := rfl
@[simp] theorem setPred_parked (y : Warp) (p : Nat) (m v : W32) : (setPred y p m v).parked = y.parked := by
  unfold setPred
  split <;> rfl
@[simp] theorem setSplit_spec (y : Warp) (i : Nat) (x : Option Split) : (y.setSplit i x).spec = y.spec := rfl
@[simp] theorem setVreg_spec (y : Warp) (r : Nat) (m : W32) (f : Nat → W32) : (setVreg y r m f).spec = y.spec := rfl
@[simp] theorem setCond_spec (y : Warp) (c : Nat) (v : Bool) : (setCond y c v).spec = y.spec := rfl
@[simp] theorem setPred_spec (y : Warp) (p : Nat) (m v : W32) : (setPred y p m v).spec = y.spec := by
  unfold setPred
  split <;> rfl
@[simp] theorem setSplit_wrote (y : Warp) (i : Nat) (x : Option Split) : (y.setSplit i x).wrote = y.wrote := rfl
@[simp] theorem setVreg_wrote (y : Warp) (r : Nat) (m : W32) (f : Nat → W32) : (setVreg y r m f).wrote = y.wrote := rfl
@[simp] theorem setCond_wrote (y : Warp) (c : Nat) (v : Bool) : (setCond y c v).wrote = y.wrote := rfl
@[simp] theorem setPred_wrote (y : Warp) (p : Nat) (m v : W32) : (setPred y p m v).wrote = y.wrote := by
  unfold setPred
  split <;> rfl
@[simp] theorem setSplit_dcount (y : Warp) (i : Nat) (x : Option Split) : (y.setSplit i x).dcount = y.dcount := rfl
@[simp] theorem setVreg_dcount (y : Warp) (r : Nat) (m : W32) (f : Nat → W32) : (setVreg y r m f).dcount = y.dcount := rfl
@[simp] theorem setCond_dcount (y : Warp) (c : Nat) (v : Bool) : (setCond y c v).dcount = y.dcount := rfl
@[simp] theorem setPred_dcount (y : Warp) (p : Nat) (m v : W32) : (setPred y p m v).dcount = y.dcount := by
  unfold setPred
  split <;> rfl
@[simp] theorem setSplit_seen (y : Warp) (i : Nat) (x : Option Split) : (y.setSplit i x).seen = y.seen := rfl
@[simp] theorem setVreg_seen (y : Warp) (r : Nat) (m : W32) (f : Nat → W32) : (setVreg y r m f).seen = y.seen := rfl
@[simp] theorem setCond_seen (y : Warp) (c : Nat) (v : Bool) : (setCond y c v).seen = y.seen := rfl
@[simp] theorem setPred_seen (y : Warp) (p : Nat) (m v : W32) : (setPred y p m v).seen = y.seen := by
  unfold setPred
  split <;> rfl
@[simp] theorem setSplit_blockedAt (y : Warp) (i : Nat) (x : Option Split) : (y.setSplit i x).blockedAt = y.blockedAt := rfl
@[simp] theorem setVreg_blockedAt (y : Warp) (r : Nat) (m : W32) (f : Nat → W32) : (setVreg y r m f).blockedAt = y.blockedAt := rfl
@[simp] theorem setCond_blockedAt (y : Warp) (c : Nat) (v : Bool) : (setCond y c v).blockedAt = y.blockedAt := rfl
@[simp] theorem setPred_blockedAt (y : Warp) (p : Nat) (m v : W32) : (setPred y p m v).blockedAt = y.blockedAt := by
  unfold setPred
  split <;> rfl
@[simp] theorem setSplit_expiryHeld (y : Warp) (i : Nat) (x : Option Split) : (y.setSplit i x).expiryHeld = y.expiryHeld := rfl
@[simp] theorem setVreg_expiryHeld (y : Warp) (r : Nat) (m : W32) (f : Nat → W32) : (setVreg y r m f).expiryHeld = y.expiryHeld := rfl
@[simp] theorem setCond_expiryHeld (y : Warp) (c : Nat) (v : Bool) : (setCond y c v).expiryHeld = y.expiryHeld := rfl
@[simp] theorem setPred_expiryHeld (y : Warp) (p : Nat) (m v : W32) : (setPred y p m v).expiryHeld = y.expiryHeld := by
  unfold setPred
  split <;> rfl
@[simp] theorem setSplit_sysOut (y : Warp) (i : Nat) (x : Option Split) : (y.setSplit i x).sysOut = y.sysOut := rfl
@[simp] theorem setVreg_sysOut (y : Warp) (r : Nat) (m : W32) (f : Nat → W32) : (setVreg y r m f).sysOut = y.sysOut := rfl
@[simp] theorem setCond_sysOut (y : Warp) (c : Nat) (v : Bool) : (setCond y c v).sysOut = y.sysOut := rfl
@[simp] theorem setPred_sysOut (y : Warp) (p : Nat) (m v : W32) : (setPred y p m v).sysOut = y.sysOut := by
  unfold setPred
  split <;> rfl
@[simp] theorem setSplit_aside (y : Warp) (i : Nat) (x : Option Split) : (y.setSplit i x).aside = y.aside := rfl
@[simp] theorem setVreg_aside (y : Warp) (r : Nat) (m : W32) (f : Nat → W32) : (setVreg y r m f).aside = y.aside := rfl
@[simp] theorem setCond_aside (y : Warp) (c : Nat) (v : Bool) : (setCond y c v).aside = y.aside := rfl
@[simp] theorem setPred_aside (y : Warp) (p : Nat) (m v : W32) : (setPred y p m v).aside = y.aside := by
  unfold setPred
  split <;> rfl
@[simp] theorem setSplit_saved (y : Warp) (i : Nat) (x : Option Split) : (y.setSplit i x).saved = y.saved := rfl
@[simp] theorem setVreg_saved (y : Warp) (r : Nat) (m : W32) (f : Nat → W32) : (setVreg y r m f).saved = y.saved := rfl
@[simp] theorem setCond_saved (y : Warp) (c : Nat) (v : Bool) : (setCond y c v).saved = y.saved := rfl
@[simp] theorem setPred_saved (y : Warp) (p : Nat) (m v : W32) : (setPred y p m v).saved = y.saved := by
  unfold setPred
  split <;> rfl
@[simp] theorem setSplit_freed (y : Warp) (i : Nat) (x : Option Split) : (y.setSplit i x).freed = y.freed := rfl
@[simp] theorem setVreg_freed (y : Warp) (r : Nat) (m : W32) (f : Nat → W32) : (setVreg y r m f).freed = y.freed := rfl
@[simp] theorem setCond_freed (y : Warp) (c : Nat) (v : Bool) : (setCond y c v).freed = y.freed := rfl
@[simp] theorem setPred_freed (y : Warp) (p : Nat) (m v : W32) : (setPred y p m v).freed = y.freed := by
  unfold setPred
  split <;> rfl
@[simp] theorem setSplit_relFence (y : Warp) (i : Nat) (x : Option Split) : (y.setSplit i x).relFence = y.relFence := rfl
@[simp] theorem setVreg_relFence (y : Warp) (r : Nat) (m : W32) (f : Nat → W32) : (setVreg y r m f).relFence = y.relFence := rfl
@[simp] theorem setCond_relFence (y : Warp) (c : Nat) (v : Bool) : (setCond y c v).relFence = y.relFence := rfl
@[simp] theorem setPred_relFence (y : Warp) (p : Nat) (m v : W32) : (setPred y p m v).relFence = y.relFence := by
  unfold setPred
  split <;> rfl
@[simp] theorem setSplit_acqAt (y : Warp) (i : Nat) (x : Option Split) : (y.setSplit i x).acqAt = y.acqAt := rfl
@[simp] theorem setVreg_acqAt (y : Warp) (r : Nat) (m : W32) (f : Nat → W32) : (setVreg y r m f).acqAt = y.acqAt := rfl
@[simp] theorem setCond_acqAt (y : Warp) (c : Nat) (v : Bool) : (setCond y c v).acqAt = y.acqAt := rfl
@[simp] theorem setPred_acqAt (y : Warp) (p : Nat) (m v : W32) : (setPred y p m v).acqAt = y.acqAt := by
  unfold setPred
  split <;> rfl

@[simp] theorem setSreg_ctx (g : Group) (r : Nat) (v : W64) : (setSreg g r v).ctx = g.ctx := rfl
@[simp] theorem setSreg_launch (g : Group) (r : Nat) (v : W64) : (setSreg g r v).launch = g.launch := rfl
@[simp] theorem setSreg_gidx (g : Group) (r : Nat) (v : W64) : (setSreg g r v).gidx = g.gidx := rfl
@[simp] theorem setSreg_region (g : Group) (r : Nat) (v : W64) : (setSreg g r v).region = g.region := rfl
@[simp] theorem setSreg_tmpl (g : Group) (r : Nat) (v : W64) : (setSreg g r v).tmpl = g.tmpl := rfl
@[simp] theorem setSreg_retiring (g : Group) (r : Nat) (v : W64) : (setSreg g r v).retiring = g.retiring := rfl
@[simp] theorem setSreg_warps (g : Group) (r : Nat) (v : W64) : (setSreg g r v).warps = g.warps := rfl
@[simp] theorem setSreg_sempty (g : Group) (r : Nat) (v : W64) : (setSreg g r v).sempty = g.sempty := rfl
@[simp] theorem setSreg_uprods (g : Group) (r : Nat) (v : W64) : (setSreg g r v).uprods = g.uprods := rfl
@[simp] theorem setSreg_bars (g : Group) (r : Nat) (v : W64) : (setSreg g r v).bars = g.bars := rfl
@[simp] theorem setSreg_rings (g : Group) (r : Nat) (v : W64) : (setSreg g r v).rings = g.rings := rfl
@[simp] theorem setSreg_sbase (g : Group) (r : Nat) (v : W64) : (setSreg g r v).sbase = g.sbase := rfl

end Sys2Proof.Machine
end

