-- ==== Sys2Proof/Laws/Ops.lean ====
section
/-!
SUPPORT. What the shared operations do, said once: the flow of an instruction word (R232), registers written and read, the
ends of an instruction.
-/
namespace Sys2Proof.Machine

/-! ### The flow of an instruction word -/

/-- An instruction whose conditions hold has its effect. -/
theorem runWord_ready {s : State} {x : Iss} {roles : Roles} {stops : Bool} {n : Nat} {g : Guard} {tw : BitVec 8}
    {ops : Iss → W32 → List Opd} {body : Iss → W32 → State → Res}
    (h : Ready s x roles stops g tw (ops x (guardMask x g))) :
    runWord roles stops n g tw ops body s = finish x n (body x (guardMask x g) s) := by
  obtain ⟨hi, hc, hr, hs, ht, hm, hf⟩ := h
  have hnoSpec : (stops && x.wp.spec.isSome) = false := by
    cases stops
    · rfl
    · simp [hs rfl]
  have htok : (List.range 8).any (fun i => tw.getLsbD i && x.wp.toks.getD i 0 != 0) = false := by
    simp only [tokensFree, List.all_eq_true] at ht
    rw [List.any_eq_false]
    intro i hi'
    have := ht i hi'
    cases h1 : tw.getLsbD i
    · simp
    · rw [h1] at this
      simpa using this
  have hcount : (x.isVec && (ops x (guardMask x g)).any (fun o => o.vregs.any (fun (r, n) => !x.hasRegs r n))) = false := by
    simp only [inCount, Bool.or_eq_true, Bool.not_eq_true'] at hc
    rcases hc with hc | hc
    · simp [hc]
    · have : (ops x (guardMask x g)).any (fun o => o.vregs.any (fun (r, n) => !x.hasRegs r n)) = false := by
        rw [List.any_eq_false]
        intro o ho
        simp only [List.all_eq_true] at hc
        simp only [Bool.not_eq_true, List.any_eq_false]
        intro r hr'
        simp [hc o ho r hr']
      simp [this]
  simp only [allFull, List.all_eq_true, beq_iff_eq] at hf
  have hfe : ∀ (os : List Opd) (acc : W32), (∀ o ∈ os, o.emptyIn x (guardMask x g) = 0#32) →
      os.foldl (fun acc o => if o.traps then acc ||| o.emptyIn x (guardMask x g) else acc) acc = acc := by
    intro os
    induction os with
    | nil => intro acc _; rfl
    | cons o r ih =>
      intro acc ho
      simp only [List.foldl_cons, ho o (by simp), BitVec.or_zero, ite_self]
      exact ih acc (fun q hq => ho q (by simp [hq]))
  have hfind : (ops x (guardMask x g)).find? (fun o => !o.traps && o.emptyIn x (guardMask x g) != 0) = none := by
    rw [List.find?_eq_none]
    intro o ho
    simp [hf o ho]
  have hm' : (guardMask x g == 0) = false := by simpa using hm
  simp only [runWord, hi, hcount, hr, hnoSpec, htok, hm', hfe _ _ hf, hfind]
  simp

/-! ### Packets and mailbox commands -/

/-- A packet that may execute has its effect and completes (R101-R105). -/
theorem withPacket_ready (s : State) (k : Pkt) (c : Bool) (p : Nat) (f : Nat → State → State) (h : PacketReady s k c p) :
    withPacket k c false s f = .next (f p (opened s k)) := by
  obtain ⟨h1, h2, h3, h4, h5, h6, h8, h7⟩ := h
  unfold withPacket opened
  rw [h1]
  have e1 : ((ringOf s k.ring).st == RState.disabled || (ringOf s k.ring).st == RState.stopped) = false := by simp [h2, h3]
  have e2 : (k.barrier && (ringOf s k.ring).open_ != 0) = false := by
    cases hb : k.barrier with
    | false => rfl
    | true => simp [h4 hb]
  have e3 : (k.caddr.toNat % 8 != 0) = false := by simp [h5]
  have e4 : ∀ t : State, t.parts = s.parts → (c && isShadow t k.ring) = false := by
    intro t ht
    cases hc : c with
    | false => rfl
    | true =>
      have := (h7 hc).1
      simpa [isShadow, partOf, ht] using this
  have e5 : ∀ t : State, t.dies = s.dies → (c && fwDown t) = false := by
    intro t ht
    cases hc : c with
    | false => rfl
    | true =>
      have := (h7 hc).2
      simpa [fwDown, leaderOf, dieOf, ht] using this
  have e6 : (!(s.power == .d0 || s.power == .dieRetain)) = false := by rcases h8 with h | h <;> simp [h]
  simp only [e1, e2, e3, e6, h6, Bool.or_false, Bool.false_eq_true, if_false]
  rw [e5 (modRing s k.ring fun r => { r with open_ := r.open_ + 1 }) rfl,
    e4 (modRing s k.ring fun r => { r with open_ := r.open_ + 1 }) rfl]; rfl

/-- A mailbox command that its function may send has its effect (R458, R460). -/
theorem withMail_ready (s : State) (m : Mb) (c : Nat) (f : State → State) (h : MailReady s m c) : withMail m c s f = .next (f s) := by
  obtain ⟨h1, hf, h2, h3, h4⟩ := h
  unfold withMail
  have e1 : (s.power == .d3cold || fwDown s || decide (m.fn > 16) || (m.fn != 0 && !(partOf s (m.fn - 1)).vf)) = false := by
    by_cases h0 : m.fn = 0
    · simp [h1, h0, hf]
    · have := h3 h0
      have h2' : ¬ (m.fn > 16) := by omega
      simp [h1, h2', this.1, hf]
  have e2 : (m.fn != 0 && c != 3 && c != 4) = false := by
    by_cases h0 : m.fn = 0
    · simp [h0]
    · rcases (h3 h0).2 with h | h <;> simp [h]
  have e3 : (s.power == .d3hot && c != 3 && c != 5) = false := by
    by_cases h0 : s.power = .d3hot
    · rcases h4 h0 with h | h <;> simp [h]
    · simp [h0]
  simp only [e1, e2, e3, Bool.false_eq_true, if_false]

/-- A debug command that its function may give has its effect (R434). -/
theorem withDebug_ready (s : State) (m : Mb) (cmd : BitVec 256) (op level : Nat) (f : DbgCmd → State → State) (h : DebugReady s m cmd op level) :
    withDebug m cmd op level s f = .next (f (dbgCmdOf cmd.toNat) s) := by
  obtain ⟨h1, h2, h3, h4, h5, h6⟩ := h
  unfold withDebug
  rw [withMail_ready _ _ _ _ h1]
  simp [h2, h3, h4, h5, Nat.not_lt.2 h6]

end Sys2Proof.Machine
end

