-- ==== Sys2Proof/Laws/Mem.lean ====
section
/-!
SUPPORT. What roles, groups and homes are after the operations that change them: a group or a role reads as it was written last,
the others are left alone; a write at a home keeps the form of memory; a translation whose pages the TLB holds goes on.
-/
namespace Sys2Proof.Machine

/-! ### Cores, groups and roles -/

theorem groupAt_modGroup_same {s : State} {c g : Nat} {f : Group → Group} {k : Group} (h : groupAt s c g = some k) :
    groupAt (modGroup s c g f) c g = some (f k) := by
  unfold modGroup
  rw [h]
  simp [groupAt]

theorem groupAt_modGroup_other (s : State) {c g d q : Nat} (f : Group → Group) (h : ¬ (d = c ∧ q = g)) :
    groupAt (modGroup s c g f) d q = groupAt s d q := by
  unfold modGroup
  cases hk : groupAt s c g with
  | none => rfl
  | some k =>
    simp only [groupAt, coreOf_modCore]
    by_cases hd : d = c
    · subst hd
      simp only [if_true]
      rw [mapFind_mapSet_other]
      intro hq
      exact h ⟨rfl, hq⟩
    · simp [hd]

theorem warpAt_eq {s : State} {c g w : Nat} {k : Group} (h : groupAt s c g = some k) : warpAt s c g w = mapFind k.warps w := by
  simp [warpAt, h]

theorem warpAt_modWarp_same {s : State} {c g w : Nat} {f : Warp → Warp} {y : Warp} (h : warpAt s c g w = some y) :
    warpAt (modWarp s c g w f) c g w = some (f y) := by
  cases hk : groupAt s c g with
  | none => simp [warpAt, hk] at h
  | some k =>
    have hy : mapFind k.warps w = some y := by rw [← warpAt_eq hk]; exact h
    unfold modWarp
    rw [warpAt_eq (groupAt_modGroup_same hk)]
    simp [hy]

theorem warpAt_modWarp_other {s : State} {c g w v : Nat} (f : Warp → Warp) (h : v ≠ w) :
    warpAt (modWarp s c g w f) c g v = warpAt s c g v := by
  cases hk : groupAt s c g with
  | none => simp [modWarp, modGroup, hk]
  | some k =>
    unfold modWarp
    rw [warpAt_eq (groupAt_modGroup_same hk), warpAt_eq hk]
    cases mapFind k.warps w with
    | none => rfl
    | some y => simp only [mapFind_mapSet_other _ _ _ _ h]

/-! ### Memory's form -/

theorem squashReaders_mem (s : State) (ls : List Nat) : (squashReaders s ls).mem = s.mem := rfl

theorem homeWrite_mem (s : State) (pa : Nat) (bs : List Byte) (c : Bool) (p : Option (Nat × Nat)) :
    (homeWrite s pa bs c p).mem = memSetBytes s.mem pa bs := rfl

/-- Where none of its lines is poisoned or in a hole of the map a unit's write is one write at its home (R197). -/
theorem unitWrite_clean {s : State} (pa : Nat) (bs : List Byte) 
    (h : (linesOf pa bs.length).any (fun l => isPoisoned s l || inHole (l * 128)) = false) :
    unitWrite s pa bs = homeWrite s pa bs false none := by
  simp only [unitWrite, h]
  rfl

theorem hostWriteBytes_mem (s : State) (pa : Nat) (bs : List Byte) :
    (hostWriteBytes s pa bs).mem = memSetBytes s.mem pa bs := rfl

theorem homeWrite_inv {s : State} (pa : Nat) (bs : List Byte) (c : Bool) (p : Option (Nat × Nat)) (h : Inv s) :
    Inv (homeWrite s pa bs c p) := memory_wf_memSetBytes pa bs h

theorem lineWrite_inv {s : State} (pa : Nat) (bs : List Byte) (h : Inv s) : Inv (lineWrite s pa bs) := by
  unfold lineWrite
  split
  · exact h
  · split
    · exact homeWrite_inv pa bs false none (s := { s with poison := _ }) h
    · split
      · exact h
      · exact homeWrite_inv pa bs false none h

/-- A unit's write keeps memory's form, whatever lines are poisoned (R197). -/
theorem unitWrite_inv {s : State} (pa : Nat) (bs : List Byte) (h : Inv s) : Inv (unitWrite s pa bs) := by
  unfold unitWrite
  split
  · clear * - h
    generalize linesOf pa bs.length = ls
    induction ls generalizing s with
    | nil => exact h
    | cons a t ih => exact ih (lineWrite_inv _ _ h)
  · exact homeWrite_inv pa bs false none h

theorem hostWriteBytes_inv {s : State} (pa : Nat) (bs : List Byte) (h : Inv s) : Inv (hostWriteBytes s pa bs) :=
  memory_wf_memSetBytes pa bs h

theorem writeRanges_inv {s : State} (rs : List (Nat × Nat)) (bs : List Byte) (h : Inv s) : Inv (writeRanges s rs bs) := by
  induction rs generalizing s bs with
  | nil => exact h
  | cons e r ih => exact ih _ (unitWrite_inv _ _ h)

/-! ### Translation -/

/-- An access whose pages the TLB holds, in the user half and allowing it, goes on with their physical addresses (R186, R187). -/
theorem withTranslation_held {s : State} {x : Iss} {kind path : Nat} {b : Bool} {accs : List (Nat × Nat)}
    {k : List (Nat × Nat × TlbEntry) → State → Res} (h : pagesHeld s x kind accs = true) :
    withTranslation s x kind path b accs k = k (physLanes s x kind accs) (dropWalks s x) := by
  simp only [pagesHeld, List.all_eq_true, Bool.and_eq_true] at h
  have h1 : accs.filter (fun a => !userVa a.2) = [] := by
    rw [List.filter_eq_nil_iff]
    intro a ha
    simp [(h a ha).1]
  have hh : ∀ a ∈ accs, ∃ e, laneLookup s x (ctxOf s x.grp.ctx).pasid kind a.2 = .hit e := by
    intro a ha
    have := (h a ha).2
    revert this
    cases laneLookup s x (ctxOf s x.grp.ctx).pasid kind a.2 <;> simp
  have hf : ∀ q : LaneT, (∀ e, q ≠ .hit e) →
      (accs.map (fun a => (a, laneLookup s x (ctxOf s x.grp.ctx).pasid kind a.2))).filter (fun r => r.2 == q) = [] := by
    intro q hq
    rw [List.filter_eq_nil_iff]
    intro a ha
    simp only [List.mem_map] at ha
    obtain ⟨b, hb, rfl⟩ := ha
    obtain ⟨e, he⟩ := hh b hb
    simp only [he, beq_iff_eq]
    exact fun h => hq e h.symm
  simp only [withTranslation, translateLanes, h1]
  simp only [hf .unknown (by simp), hf .lost (by simp), hf .refuse (by simp), hf .page (by simp)]
  simp only [physLanes, List.filterMap_map]
  rfl

/-! ### Queued writes -/

theorem l1Update_mem (s : State) (c pa : Nat) (bs : List Byte) : (l1Update s c pa bs).mem = s.mem := by
  unfold l1Update
  generalize linesOf pa bs.length = ls
  induction ls generalizing s with
  | nil => rfl
  | cons a r ih =>
    rw [List.foldl_cons, ih]
    cases l1Line s c a <;> rfl

theorem addToken_mem (s : State) (w : Who) (k : Option Nat) (n : Int) : (addToken s w k n).mem = s.mem := by
  cases k with
  | none => rfl
  | some k =>
    simp only [addToken]
    split
    · simp
    · rfl

theorem noteOldV_mem (s : State) (m : List Host.Cell) (w : Who) (id pa n : Nat) : (noteOldV s m w id pa n).mem = s.mem := by
  unfold noteOldV
  split
  · split <;> rfl
  · rfl

/-- A store performed at its home keeps memory's form. -/
theorem performStore_inv {s : State} (r : Req) (h : Inv s) : Inv (performStore s r) := by
  have key : ∀ (ls : List LaneAcc) (s : State), Inv s → Inv (ls.foldl (fun s l =>
      l1Update (homeWrite s l.pa (bytesLE r.w l.v) false (promoOf s r)) r.who.core l.pa (bytesLE r.w l.v)) s) := by
    intro ls
    induction ls with
    | nil => exact fun s h => h
    | cons a t ih =>
      intro s h
      refine ih _ ?_
      have := homeWrite_inv (s := s) a.pa (bytesLE r.w a.v) false (promoOf s r) h
      simpa only [Inv, l1Update_mem] using this
  have note : ∀ (ls : List LaneAcc) (t : State), (ls.foldl (fun t l => noteOldV t s.mem r.who r.id l.pa r.w) t).mem = t.mem := by
    intro ls
    induction ls with
    | nil => exact fun _ => rfl
    | cons a t ih =>
      intro u
      rw [List.foldl_cons, ih, noteOldV_mem]
  have h1 := key r.lanes (clearPoison s r) h
  simpa only [Inv, performStore, retireReq, addToken_mem, note] using h1

/-- The writes of a write queue performed keep memory's form. -/
theorem drainTo_inv {s : State} (c id : Nat) (h : Inv s) : Inv (drainTo s c id) := by
  unfold drainTo
  generalize (writeQueue s c).filter (fun r => r.id < id) = q
  induction q generalizing s with
  | nil => exact h
  | cons a t ih => exact ih (performStore_inv a h)

/-- The same for the writes that touch some lines. -/
theorem drainLines_inv {s : State} (c : Nat) (lines : List Nat) (h : Inv s) : Inv (drainLines s c lines) := by
  exact drainTo_inv c _ h

end Sys2Proof.Machine
end

