-- ==== Sys2Proof/Laws/PerInstr.lean ====
section
/-!
SUPPORT. One lemma per constructor of Instr: the family Encoding says that the first word of an instruction announces as many
words as the encoder writes (R206, R229).
-/
namespace Sys2Proof.Laws

/-- Bit 63 of a full word is 0 (R207). -/
theorem fullWord_pair (op : BitVec 9) (g : Guard) (body : BitVec 50) : flag (fullWord op g body) 63 = false := by
  simp only [flag, fullWord, BitVec.getLsbD_append]
  rfl

/-- A full word holds its opcode in bits [62:54] (R207). -/
theorem fullWord_op (op : BitVec 9) (g : Guard) (body : BitVec 50) : fld (fullWord op g body) 54 9 = op := by
  apply BitVec.eq_of_getLsbD_eq
  intro i hi
  simp only [fld, fullWord, BitVec.getLsbD_extractLsb', BitVec.getLsbD_append]
  have h1 : ¬ (54 + i < 50) := by omega
  have h2 : ¬ (54 + i - 50 < 3) := by omega
  have h3 : ¬ (54 + i - 50 - 3 < 1) := by omega
  have h4 : 54 + i - 50 - 3 - 1 = i := by omega
  simp only [h1, h2, h3, h4, hi, if_true, if_false, decide_true, Bool.true_and]

/-- Bit 63 of a pair word is 1 (R224). -/
theorem pairWord_pair (h0 h1 : Half) : flag (pairWord h0 h1) 63 = true := by
  simp only [flag, pairWord, BitVec.getLsbD_append]
  rfl

theorem wordCount_full (op : BitVec 9) (g : Guard) (body : BitVec 50) :
    wordCount (fullWord op g body) = if 0x180 ≤ op.toNat && op.toNat ≤ 0x183 then 5 else 1 := by
  simp [wordCount, fullWord_pair, fullWord_op]

theorem wordCount_pair (h0 h1 : Half) : wordCount (pairWord h0 h1) = 1 := by
  simp [wordCount, pairWord_pair]

/-- The first word announces as many words as the instruction has. -/
def Encoding.Statement (i : Instr) : Prop := ∀ w r, encode i = some (w :: r) → wordCount w = r.length + 1

/-- An instruction whose words are known. -/
theorem encoding_of_words {i : Instr} {w : W64} {r : List W64} (h : encode i = some (w :: r))
    (hc : wordCount w = r.length + 1) : Encoding.Statement i := by
  intro w' r' h'
  rw [h] at h'
  simp only [Option.some.injEq, List.cons.injEq] at h'
  obtain ⟨rfl, rfl⟩ := h'
  exact hc

/-- A step of a unit or of the host has no words. -/
theorem encoding_of_none {i : Instr} (h : encode i = none) : Encoding.Statement i := by
  intro w r h'
  rw [h] at h'
  cases h'

theorem Encoding.iadd (a0 : Guard) (a1 : FA) : Encoding.Statement (.iadd a0 a1) := encoding_of_words rfl (wordCount_full _ _ _)
theorem Encoding.isub (a0 : Guard) (a1 : FA) : Encoding.Statement (.isub a0 a1) := encoding_of_words rfl (wordCount_full _ _ _)
theorem Encoding.imul (a0 : Guard) (a1 : FA) : Encoding.Statement (.imul a0 a1) := encoding_of_words rfl (wordCount_full _ _ _)
theorem Encoding.imulh (a0 : Guard) (a1 : FA) : Encoding.Statement (.imulh a0 a1) := encoding_of_words rfl (wordCount_full _ _ _)
theorem Encoding.imad (a0 : Guard) (a1 : FB) : Encoding.Statement (.imad a0 a1) := encoding_of_words rfl (wordCount_full _ _ _)
theorem Encoding.idiv (a0 : Guard) (a1 : FA) : Encoding.Statement (.idiv a0 a1) := encoding_of_words rfl (wordCount_full _ _ _)
theorem Encoding.irem (a0 : Guard) (a1 : FA) : Encoding.Statement (.irem a0 a1) := encoding_of_words rfl (wordCount_full _ _ _)
theorem Encoding.imin (a0 : Guard) (a1 : FA) : Encoding.Statement (.imin a0 a1) := encoding_of_words rfl (wordCount_full _ _ _)
theorem Encoding.imax (a0 : Guard) (a1 : FA) : Encoding.Statement (.imax a0 a1) := encoding_of_words rfl (wordCount_full _ _ _)
theorem Encoding.iabs (a0 : Guard) (a1 : FA) : Encoding.Statement (.iabs a0 a1) := encoding_of_words rfl (wordCount_full _ _ _)
theorem Encoding.ineg (a0 : Guard) (a1 : FA) : Encoding.Statement (.ineg a0 a1) := encoding_of_words rfl (wordCount_full _ _ _)
theorem Encoding.isad (a0 : Guard) (a1 : FB) : Encoding.Statement (.isad a0 a1) := encoding_of_words rfl (wordCount_full _ _ _)
theorem Encoding.iaddc (a0 : Guard) (a1 : FA) : Encoding.Statement (.iaddc a0 a1) := encoding_of_words rfl (wordCount_full _ _ _)
theorem Encoding.and_ (a0 : Guard) (a1 : FA) : Encoding.Statement (.and_ a0 a1) := encoding_of_words rfl (wordCount_full _ _ _)
theorem Encoding.or_ (a0 : Guard) (a1 : FA) : Encoding.Statement (.or_ a0 a1) := encoding_of_words rfl (wordCount_full _ _ _)
theorem Encoding.xor_ (a0 : Guard) (a1 : FA) : Encoding.Statement (.xor_ a0 a1) := encoding_of_words rfl (wordCount_full _ _ _)
theorem Encoding.not_ (a0 : Guard) (a1 : FA) : Encoding.Statement (.not_ a0 a1) := encoding_of_words rfl (wordCount_full _ _ _)
theorem Encoding.andn (a0 : Guard) (a1 : FA) : Encoding.Statement (.andn a0 a1) := encoding_of_words rfl (wordCount_full _ _ _)
theorem Encoding.shl (a0 : Guard) (a1 : FA) : Encoding.Statement (.shl a0 a1) := encoding_of_words rfl (wordCount_full _ _ _)
theorem Encoding.shr (a0 : Guard) (a1 : FA) : Encoding.Statement (.shr a0 a1) := encoding_of_words rfl (wordCount_full _ _ _)
theorem Encoding.sar (a0 : Guard) (a1 : FA) : Encoding.Statement (.sar a0 a1) := encoding_of_words rfl (wordCount_full _ _ _)
theorem Encoding.rot (a0 : Guard) (a1 : FA) : Encoding.Statement (.rot a0 a1) := encoding_of_words rfl (wordCount_full _ _ _)
theorem Encoding.funnel (a0 : Guard) (a1 : FB) : Encoding.Statement (.funnel a0 a1) :=
  encoding_of_words rfl (wordCount_full _ _ _)
theorem Encoding.popc (a0 : Guard) (a1 : FA) : Encoding.Statement (.popc a0 a1) := encoding_of_words rfl (wordCount_full _ _ _)
theorem Encoding.clz (a0 : Guard) (a1 : FA) : Encoding.Statement (.clz a0 a1) := encoding_of_words rfl (wordCount_full _ _ _)
theorem Encoding.ctz (a0 : Guard) (a1 : FA) : Encoding.Statement (.ctz a0 a1) := encoding_of_words rfl (wordCount_full _ _ _)
theorem Encoding.brev (a0 : Guard) (a1 : FA) : Encoding.Statement (.brev a0 a1) := encoding_of_words rfl (wordCount_full _ _ _)
theorem Encoding.bfe (a0 : Guard) (a1 : FB) : Encoding.Statement (.bfe a0 a1) := encoding_of_words rfl (wordCount_full _ _ _)
theorem Encoding.bfi (a0 : Guard) (a1 : FB) : Encoding.Statement (.bfi a0 a1) := encoding_of_words rfl (wordCount_full _ _ _)
theorem Encoding.sel (a0 : Guard) (a1 : FB) : Encoding.Statement (.sel a0 a1) := encoding_of_words rfl (wordCount_full _ _ _)
theorem Encoding.icmp (a0 : Guard) (a1 : FA) : Encoding.Statement (.icmp a0 a1) := encoding_of_words rfl (wordCount_full _ _ _)
theorem Encoding.mov (a0 : Guard) (a1 : FA) : Encoding.Statement (.mov a0 a1) := encoding_of_words rfl (wordCount_full _ _ _)
theorem Encoding.movi (a0 : Guard) (a1 : FI) : Encoding.Statement (.movi a0 a1) := encoding_of_words rfl (wordCount_full _ _ _)
theorem Encoding.movhi (a0 : Guard) (a1 : FI) : Encoding.Statement (.movhi a0 a1) := encoding_of_words rfl (wordCount_full _ _ _)
theorem Encoding.lea (a0 : Guard) (a1 : FB) : Encoding.Statement (.lea a0 a1) := encoding_of_words rfl (wordCount_full _ _ _)
theorem Encoding.dp4 (a0 : Guard) (a1 : FB) : Encoding.Statement (.dp4 a0 a1) := encoding_of_words rfl (wordCount_full _ _ _)
theorem Encoding.fadd (a0 : Guard) (a1 : FA) : Encoding.Statement (.fadd a0 a1) := encoding_of_words rfl (wordCount_full _ _ _)
theorem Encoding.fsub (a0 : Guard) (a1 : FA) : Encoding.Statement (.fsub a0 a1) := encoding_of_words rfl (wordCount_full _ _ _)
theorem Encoding.fmul (a0 : Guard) (a1 : FA) : Encoding.Statement (.fmul a0 a1) := encoding_of_words rfl (wordCount_full _ _ _)
theorem Encoding.fma (a0 : Guard) (a1 : FB) : Encoding.Statement (.fma a0 a1) := encoding_of_words rfl (wordCount_full _ _ _)
theorem Encoding.fmin (a0 : Guard) (a1 : FA) : Encoding.Statement (.fmin a0 a1) := encoding_of_words rfl (wordCount_full _ _ _)
theorem Encoding.fmax (a0 : Guard) (a1 : FA) : Encoding.Statement (.fmax a0 a1) := encoding_of_words rfl (wordCount_full _ _ _)
theorem Encoding.fminnum (a0 : Guard) (a1 : FA) : Encoding.Statement (.fminnum a0 a1) :=
  encoding_of_words rfl (wordCount_full _ _ _)
theorem Encoding.fmaxnum (a0 : Guard) (a1 : FA) : Encoding.Statement (.fmaxnum a0 a1) :=
  encoding_of_words rfl (wordCount_full _ _ _)
theorem Encoding.fabs (a0 : Guard) (a1 : FA) : Encoding.Statement (.fabs a0 a1) := encoding_of_words rfl (wordCount_full _ _ _)
theorem Encoding.fneg (a0 : Guard) (a1 : FA) : Encoding.Statement (.fneg a0 a1) := encoding_of_words rfl (wordCount_full _ _ _)
theorem Encoding.fcopysign (a0 : Guard) (a1 : FA) : Encoding.Statement (.fcopysign a0 a1) :=
  encoding_of_words rfl (wordCount_full _ _ _)
theorem Encoding.fcmp (a0 : Guard) (a1 : FA) : Encoding.Statement (.fcmp a0 a1) := encoding_of_words rfl (wordCount_full _ _ _)
theorem Encoding.fclass (a0 : Guard) (a1 : FA) : Encoding.Statement (.fclass a0 a1) :=
  encoding_of_words rfl (wordCount_full _ _ _)
theorem Encoding.fdiv (a0 : Guard) (a1 : FA) : Encoding.Statement (.fdiv a0 a1) := encoding_of_words rfl (wordCount_full _ _ _)
theorem Encoding.fsqrt (a0 : Guard) (a1 : FA) : Encoding.Statement (.fsqrt a0 a1) := encoding_of_words rfl (wordCount_full _ _ _)
theorem Encoding.frcp (a0 : Guard) (a1 : FA) : Encoding.Statement (.frcp a0 a1) := encoding_of_words rfl (wordCount_full _ _ _)
theorem Encoding.frsq (a0 : Guard) (a1 : FA) : Encoding.Statement (.frsq a0 a1) := encoding_of_words rfl (wordCount_full _ _ _)
theorem Encoding.fexp2 (a0 : Guard) (a1 : FA) : Encoding.Statement (.fexp2 a0 a1) := encoding_of_words rfl (wordCount_full _ _ _)
theorem Encoding.flog2 (a0 : Guard) (a1 : FA) : Encoding.Statement (.flog2 a0 a1) := encoding_of_words rfl (wordCount_full _ _ _)
theorem Encoding.fsin (a0 : Guard) (a1 : FA) : Encoding.Statement (.fsin a0 a1) := encoding_of_words rfl (wordCount_full _ _ _)
theorem Encoding.fcos (a0 : Guard) (a1 : FA) : Encoding.Statement (.fcos a0 a1) := encoding_of_words rfl (wordCount_full _ _ _)
theorem Encoding.ftanh (a0 : Guard) (a1 : FA) : Encoding.Statement (.ftanh a0 a1) := encoding_of_words rfl (wordCount_full _ _ _)
theorem Encoding.fscale (a0 : Guard) (a1 : FA) : Encoding.Statement (.fscale a0 a1) :=
  encoding_of_words rfl (wordCount_full _ _ _)
theorem Encoding.fgetexp (a0 : Guard) (a1 : FA) : Encoding.Statement (.fgetexp a0 a1) :=
  encoding_of_words rfl (wordCount_full _ _ _)
theorem Encoding.fround (a0 : Guard) (a1 : FA) : Encoding.Statement (.fround a0 a1) :=
  encoding_of_words rfl (wordCount_full _ _ _)
theorem Encoding.ffrac (a0 : Guard) (a1 : FA) : Encoding.Statement (.ffrac a0 a1) := encoding_of_words rfl (wordCount_full _ _ _)
theorem Encoding.fdot2 (a0 : Guard) (a1 : FB) : Encoding.Statement (.fdot2 a0 a1) := encoding_of_words rfl (wordCount_full _ _ _)
theorem Encoding.cvt (a0 : Guard) (a1 : FA) : Encoding.Statement (.cvt a0 a1) := encoding_of_words rfl (wordCount_full _ _ _)
theorem Encoding.cvtf8 (a0 : Guard) (a1 : FA) : Encoding.Statement (.cvtf8 a0 a1) := encoding_of_words rfl (wordCount_full _ _ _)
theorem Encoding.bxpack (a0 : Guard) (a1 : FA) : Encoding.Statement (.bxpack a0 a1) :=
  encoding_of_words rfl (wordCount_full _ _ _)
theorem Encoding.bxunpack (a0 : Guard) (a1 : FA) : Encoding.Statement (.bxunpack a0 a1) :=
  encoding_of_words rfl (wordCount_full _ _ _)
theorem Encoding.shfl (a0 : Guard) (a1 : FA) : Encoding.Statement (.shfl a0 a1) := encoding_of_words rfl (wordCount_full _ _ _)
theorem Encoding.red (a0 : Guard) (a1 : FA) : Encoding.Statement (.red a0 a1) := encoding_of_words rfl (wordCount_full _ _ _)
theorem Encoding.scan (a0 : Guard) (a1 : FA) : Encoding.Statement (.scan a0 a1) := encoding_of_words rfl (wordCount_full _ _ _)
theorem Encoding.match_ (a0 : Guard) (a1 : FA) : Encoding.Statement (.match_ a0 a1) :=
  encoding_of_words rfl (wordCount_full _ _ _)
theorem Encoding.elect (a0 : Guard) (a1 : FA) : Encoding.Statement (.elect a0 a1) := encoding_of_words rfl (wordCount_full _ _ _)
theorem Encoding.vote (a0 : Guard) (a1 : FA) : Encoding.Statement (.vote a0 a1) := encoding_of_words rfl (wordCount_full _ _ _)
theorem Encoding.rfal (a0 : Guard) (a1 : FA) : Encoding.Statement (.rfal a0 a1) := encoding_of_words rfl (wordCount_full _ _ _)
theorem Encoding.rdlane (a0 : Guard) (a1 : FA) : Encoding.Statement (.rdlane a0 a1) :=
  encoding_of_words rfl (wordCount_full _ _ _)
theorem Encoding.wrlane (a0 : Guard) (a1 : FA) : Encoding.Statement (.wrlane a0 a1) :=
  encoding_of_words rfl (wordCount_full _ _ _)
theorem Encoding.permx (a0 : Guard) (a1 : FA) : Encoding.Statement (.permx a0 a1) := encoding_of_words rfl (wordCount_full _ _ _)
theorem Encoding.ld (a0 : Guard) (a1 : FM) : Encoding.Statement (.ld a0 a1) := encoding_of_words rfl (wordCount_full _ _ _)
theorem Encoding.st (a0 : Guard) (a1 : FM) : Encoding.Statement (.st a0 a1) := encoding_of_words rfl (wordCount_full _ _ _)
theorem Encoding.ldl (a0 : Guard) (a1 : FM) : Encoding.Statement (.ldl a0 a1) := encoding_of_words rfl (wordCount_full _ _ _)
theorem Encoding.stl (a0 : Guard) (a1 : FM) : Encoding.Statement (.stl a0 a1) := encoding_of_words rfl (wordCount_full _ _ _)
theorem Encoding.ldu (a0 : Guard) (a1 : FM) : Encoding.Statement (.ldu a0 a1) := encoding_of_words rfl (wordCount_full _ _ _)
theorem Encoding.stu (a0 : Guard) (a1 : FM) : Encoding.Statement (.stu a0 a1) := encoding_of_words rfl (wordCount_full _ _ _)
theorem Encoding.ldx (a0 : Guard) (a1 : FM) : Encoding.Statement (.ldx a0 a1) := encoding_of_words rfl (wordCount_full _ _ _)
theorem Encoding.stx (a0 : Guard) (a1 : FM) : Encoding.Statement (.stx a0 a1) := encoding_of_words rfl (wordCount_full _ _ _)
theorem Encoding.pref (a0 : Guard) (a1 : FM) : Encoding.Statement (.pref a0 a1) := encoding_of_words rfl (wordCount_full _ _ _)
theorem Encoding.invl1 (a0 : Guard) (a1 : FM) : Encoding.Statement (.invl1 a0 a1) := encoding_of_words rfl (wordCount_full _ _ _)
theorem Encoding.waitk (a0 : Guard) (a1 : FM) : Encoding.Statement (.waitk a0 a1) := encoding_of_words rfl (wordCount_full _ _ _)
theorem Encoding.fence (a0 : Guard) (a1 : FM) : Encoding.Statement (.fence a0 a1) := encoding_of_words rfl (wordCount_full _ _ _)
theorem Encoding.fencex (a0 : Guard) (a1 : FM) : Encoding.Statement (.fencex a0 a1) :=
  encoding_of_words rfl (wordCount_full _ _ _)
theorem Encoding.ost (a0 : Guard) (a1 : FM) : Encoding.Statement (.ost a0 a1) := encoding_of_words rfl (wordCount_full _ _ _)
theorem Encoding.ald (a0 : Guard) (a1 : FM) : Encoding.Statement (.ald a0 a1) := encoding_of_words rfl (wordCount_full _ _ _)
theorem Encoding.atom (a0 : Guard) (a1 : FAtom) : Encoding.Statement (.atom a0 a1) := encoding_of_words rfl (wordCount_full _ _ _)
theorem Encoding.atomr (a0 : Guard) (a1 : FAtomr) : Encoding.Statement (.atomr a0 a1) :=
  encoding_of_words rfl (wordCount_full _ _ _)
theorem Encoding.cas (a0 : Guard) (a1 : FAtom) : Encoding.Statement (.cas a0 a1) := encoding_of_words rfl (wordCount_full _ _ _)
theorem Encoding.dcas (a0 : Guard) (a1 : FM) : Encoding.Statement (.dcas a0 a1) := encoding_of_words rfl (wordCount_full _ _ _)
theorem Encoding.amov (a0 : Guard) (a1 : FM) : Encoding.Statement (.amov a0 a1) := encoding_of_words rfl (wordCount_full _ _ _)
theorem Encoding.datom (a0 : Guard) (a1 : FM) : Encoding.Statement (.datom a0 a1) := encoding_of_words rfl (wordCount_full _ _ _)
theorem Encoding.bar (a0 : Guard) (a1 : FI) : Encoding.Statement (.bar a0 a1) := encoding_of_words rfl (wordCount_full _ _ _)
theorem Encoding.barspec (a0 : Guard) (a1 : FI) : Encoding.Statement (.barspec a0 a1) :=
  encoding_of_words rfl (wordCount_full _ _ _)
theorem Encoding.mbara (a0 : Guard) (a1 : FM) : Encoding.Statement (.mbara a0 a1) := encoding_of_words rfl (wordCount_full _ _ _)
theorem Encoding.mbarw (a0 : Guard) (a1 : FM) : Encoding.Statement (.mbarw a0 a1) := encoding_of_words rfl (wordCount_full _ _ _)
theorem Encoding.fempty (a0 : Guard) (a1 : FA) : Encoding.Statement (.fempty a0 a1) :=
  encoding_of_words rfl (wordCount_full _ _ _)
theorem Encoding.fefill (a0 : Guard) (a1 : FA) : Encoding.Statement (.fefill a0 a1) :=
  encoding_of_words rfl (wordCount_full _ _ _)
theorem Encoding.sadd (a0 : Guard) (a1 : FA) : Encoding.Statement (.sadd a0 a1) := encoding_of_words rfl (wordCount_full _ _ _)
theorem Encoding.ssub (a0 : Guard) (a1 : FA) : Encoding.Statement (.ssub a0 a1) := encoding_of_words rfl (wordCount_full _ _ _)
theorem Encoding.smul (a0 : Guard) (a1 : FA) : Encoding.Statement (.smul a0 a1) := encoding_of_words rfl (wordCount_full _ _ _)
theorem Encoding.smulh (a0 : Guard) (a1 : FA) : Encoding.Statement (.smulh a0 a1) := encoding_of_words rfl (wordCount_full _ _ _)
theorem Encoding.sdiv (a0 : Guard) (a1 : FA) : Encoding.Statement (.sdiv a0 a1) := encoding_of_words rfl (wordCount_full _ _ _)
theorem Encoding.sand (a0 : Guard) (a1 : FA) : Encoding.Statement (.sand a0 a1) := encoding_of_words rfl (wordCount_full _ _ _)
theorem Encoding.sor (a0 : Guard) (a1 : FA) : Encoding.Statement (.sor a0 a1) := encoding_of_words rfl (wordCount_full _ _ _)
theorem Encoding.sxor (a0 : Guard) (a1 : FA) : Encoding.Statement (.sxor a0 a1) := encoding_of_words rfl (wordCount_full _ _ _)
theorem Encoding.snot (a0 : Guard) (a1 : FA) : Encoding.Statement (.snot a0 a1) := encoding_of_words rfl (wordCount_full _ _ _)
theorem Encoding.sshl (a0 : Guard) (a1 : FA) : Encoding.Statement (.sshl a0 a1) := encoding_of_words rfl (wordCount_full _ _ _)
theorem Encoding.sshr (a0 : Guard) (a1 : FA) : Encoding.Statement (.sshr a0 a1) := encoding_of_words rfl (wordCount_full _ _ _)
theorem Encoding.ssar (a0 : Guard) (a1 : FA) : Encoding.Statement (.ssar a0 a1) := encoding_of_words rfl (wordCount_full _ _ _)
theorem Encoding.smin (a0 : Guard) (a1 : FA) : Encoding.Statement (.smin a0 a1) := encoding_of_words rfl (wordCount_full _ _ _)
theorem Encoding.smax (a0 : Guard) (a1 : FA) : Encoding.Statement (.smax a0 a1) := encoding_of_words rfl (wordCount_full _ _ _)
theorem Encoding.ssel (a0 : Guard) (a1 : FB) : Encoding.Statement (.ssel a0 a1) := encoding_of_words rfl (wordCount_full _ _ _)
theorem Encoding.scmp (a0 : Guard) (a1 : FA) : Encoding.Statement (.scmp a0 a1) := encoding_of_words rfl (wordCount_full _ _ _)
theorem Encoding.smov (a0 : Guard) (a1 : FA) : Encoding.Statement (.smov a0 a1) := encoding_of_words rfl (wordCount_full _ _ _)
theorem Encoding.smovi (a0 : Guard) (a1 : FI) : Encoding.Statement (.smovi a0 a1) := encoding_of_words rfl (wordCount_full _ _ _)
theorem Encoding.smovhi (a0 : Guard) (a1 : FI) : Encoding.Statement (.smovhi a0 a1) :=
  encoding_of_words rfl (wordCount_full _ _ _)
theorem Encoding.spopc (a0 : Guard) (a1 : FA) : Encoding.Statement (.spopc a0 a1) := encoding_of_words rfl (wordCount_full _ _ _)
theorem Encoding.sclz (a0 : Guard) (a1 : FA) : Encoding.Statement (.sclz a0 a1) := encoding_of_words rfl (wordCount_full _ _ _)
theorem Encoding.sfadd (a0 : Guard) (a1 : FA) : Encoding.Statement (.sfadd a0 a1) := encoding_of_words rfl (wordCount_full _ _ _)
theorem Encoding.sfmul (a0 : Guard) (a1 : FA) : Encoding.Statement (.sfmul a0 a1) := encoding_of_words rfl (wordCount_full _ _ _)
theorem Encoding.sfma (a0 : Guard) (a1 : FB) : Encoding.Statement (.sfma a0 a1) := encoding_of_words rfl (wordCount_full _ _ _)
theorem Encoding.scvt (a0 : Guard) (a1 : FA) : Encoding.Statement (.scvt a0 a1) := encoding_of_words rfl (wordCount_full _ _ _)
theorem Encoding.bra (a0 : Guard) (a1 : FJ) : Encoding.Statement (.bra a0 a1) := encoding_of_words rfl (wordCount_full _ _ _)
theorem Encoding.brc (a0 : Guard) (a1 : FJ) : Encoding.Statement (.brc a0 a1) := encoding_of_words rfl (wordCount_full _ _ _)
theorem Encoding.brv (a0 : Guard) (a1 : FJ) : Encoding.Statement (.brv a0 a1) := encoding_of_words rfl (wordCount_full _ _ _)
theorem Encoding.brx (a0 : Guard) (a1 : FJ) : Encoding.Statement (.brx a0 a1) := encoding_of_words rfl (wordCount_full _ _ _)
theorem Encoding.call (a0 : Guard) (a1 : FJ) : Encoding.Statement (.call a0 a1) := encoding_of_words rfl (wordCount_full _ _ _)
theorem Encoding.ret (a0 : Guard) (a1 : FJ) : Encoding.Statement (.ret a0 a1) := encoding_of_words rfl (wordCount_full _ _ _)
theorem Encoding.join (a0 : Guard) (a1 : FJ) : Encoding.Statement (.join a0 a1) := encoding_of_words rfl (wordCount_full _ _ _)
theorem Encoding.exit (a0 : Guard) (a1 : FJ) : Encoding.Statement (.exit a0 a1) := encoding_of_words rfl (wordCount_full _ _ _)
theorem Encoding.nop (a0 : Guard) (a1 : FJ) : Encoding.Statement (.nop a0 a1) := encoding_of_words rfl (wordCount_full _ _ _)
theorem Encoding.yield (a0 : Guard) (a1 : FJ) : Encoding.Statement (.yield a0 a1) := encoding_of_words rfl (wordCount_full _ _ _)
theorem Encoding.region (a0 : Guard) (a1 : FJ) : Encoding.Statement (.region a0 a1) :=
  encoding_of_words rfl (wordCount_full _ _ _)
theorem Encoding.setfmt (a0 : Guard) (a1 : FI) : Encoding.Statement (.setfmt a0 a1) :=
  encoding_of_words rfl (wordCount_full _ _ _)
theorem Encoding.getfmt (a0 : Guard) (a1 : FA) : Encoding.Statement (.getfmt a0 a1) :=
  encoding_of_words rfl (wordCount_full _ _ _)
theorem Encoding.getsr (a0 : Guard) (a1 : FI) : Encoding.Statement (.getsr a0 a1) := encoding_of_words rfl (wordCount_full _ _ _)
theorem Encoding.plog (a0 : Guard) (a1 : FA) : Encoding.Statement (.plog a0 a1) := encoding_of_words rfl (wordCount_full _ _ _)
theorem Encoding.tcopy (a0 : Guard) (a1 : FCopy) : Encoding.Statement (.tcopy a0 a1) :=
  encoding_of_words rfl (wordCount_full _ _ _)
theorem Encoding.tgather (a0 : Guard) (a1 : FCopy) : Encoding.Statement (.tgather a0 a1) :=
  encoding_of_words rfl (wordCount_full _ _ _)
theorem Encoding.tscatter (a0 : Guard) (a1 : FCopy) : Encoding.Statement (.tscatter a0 a1) :=
  encoding_of_words rfl (wordCount_full _ _ _)
theorem Encoding.tfill (a0 : Guard) (a1 : FCopy) : Encoding.Statement (.tfill a0 a1) :=
  encoding_of_words rfl (wordCount_full _ _ _)
theorem Encoding.cwait (a0 : Guard) (a1 : FI) : Encoding.Statement (.cwait a0 a1) := encoding_of_words rfl (wordCount_full _ _ _)
theorem Encoding.cpoll (a0 : Guard) (a1 : FA) : Encoding.Statement (.cpoll a0 a1) := encoding_of_words rfl (wordCount_full _ _ _)
theorem Encoding.stginit (a0 : Guard) (a1 : FI) : Encoding.Statement (.stginit a0 a1) :=
  encoding_of_words rfl (wordCount_full _ _ _)
theorem Encoding.stgfill (a0 : Guard) (a1 : FI) : Encoding.Statement (.stgfill a0 a1) :=
  encoding_of_words rfl (wordCount_full _ _ _)
theorem Encoding.stgwait (a0 : Guard) (a1 : FA) : Encoding.Statement (.stgwait a0 a1) :=
  encoding_of_words rfl (wordCount_full _ _ _)
theorem Encoding.stgfree (a0 : Guard) (a1 : FI) : Encoding.Statement (.stgfree a0 a1) :=
  encoding_of_words rfl (wordCount_full _ _ _)
theorem Encoding.stgqry (a0 : Guard) (a1 : FA) : Encoding.Statement (.stgqry a0 a1) :=
  encoding_of_words rfl (wordCount_full _ _ _)
theorem Encoding.calloc (a0 : Guard) (a1 : FA) : Encoding.Statement (.calloc a0 a1) :=
  encoding_of_words rfl (wordCount_full _ _ _)
theorem Encoding.cgate (a0 : Guard) (a1 : FA) : Encoding.Statement (.cgate a0 a1) := encoding_of_words rfl (wordCount_full _ _ _)
theorem Encoding.cpost (a0 : Guard) (a1 : FM) : Encoding.Statement (.cpost a0 a1) := encoding_of_words rfl (wordCount_full _ _ _)
theorem Encoding.cqry (a0 : Guard) (a1 : FA) : Encoding.Statement (.cqry a0 a1) := encoding_of_words rfl (wordCount_full _ _ _)
theorem Encoding.mclaim (a0 : Guard) (a1 : FI) : Encoding.Statement (.mclaim a0 a1) :=
  encoding_of_words rfl (wordCount_full _ _ _)
theorem Encoding.mrel (a0 : Guard) (a1 : FI) : Encoding.Statement (.mrel a0 a1) := encoding_of_words rfl (wordCount_full _ _ _)
theorem Encoding.mma (a0 : Guard) (a1 : FMma) : Encoding.Statement (.mma a0 a1) := encoding_of_words rfl (wordCount_full _ _ _)
theorem Encoding.mzero (a0 : Guard) (a1 : FI) : Encoding.Statement (.mzero a0 a1) := encoding_of_words rfl (wordCount_full _ _ _)
theorem Encoding.mdrain (a0 : Guard) (a1 : FM) : Encoding.Statement (.mdrain a0 a1) :=
  encoding_of_words rfl (wordCount_full _ _ _)
theorem Encoding.mwait (a0 : Guard) (a1 : FI) : Encoding.Statement (.mwait a0 a1) := encoding_of_words rfl (wordCount_full _ _ _)
theorem Encoding.mscale (a0 : Guard) (a1 : FA) : Encoding.Statement (.mscale a0 a1) :=
  encoding_of_words rfl (wordCount_full _ _ _)
theorem Encoding.emit (a0 : Guard) (a1 : FM) : Encoding.Statement (.emit a0 a1) := encoding_of_words rfl (wordCount_full _ _ _)
theorem Encoding.evrd (a0 : Guard) (a1 : FA) : Encoding.Statement (.evrd a0 a1) := encoding_of_words rfl (wordCount_full _ _ _)
theorem Encoding.evwait (a0 : Guard) (a1 : FA) : Encoding.Statement (.evwait a0 a1) :=
  encoding_of_words rfl (wordCount_full _ _ _)
theorem Encoding.aload (a0 : Guard) (a1 : FM) : Encoding.Statement (.aload a0 a1) := encoding_of_words rfl (wordCount_full _ _ _)
theorem Encoding.aarm (a0 : Guard) (a1 : FI) : Encoding.Statement (.aarm a0 a1) := encoding_of_words rfl (wordCount_full _ _ _)
theorem Encoding.adisarm (a0 : Guard) (a1 : FI) : Encoding.Statement (.adisarm a0 a1) :=
  encoding_of_words rfl (wordCount_full _ _ _)
theorem Encoding.asave (a0 : Guard) (a1 : FM) : Encoding.Statement (.asave a0 a1) := encoding_of_words rfl (wordCount_full _ _ _)
theorem Encoding.syscall (a0 : Guard) (a1 : FA) : Encoding.Statement (.syscall a0 a1) :=
  encoding_of_words rfl (wordCount_full _ _ _)
theorem Encoding.trap (a0 : Guard) (a1 : FI) : Encoding.Statement (.trap a0 a1) := encoding_of_words rfl (wordCount_full _ _ _)
theorem Encoding.brkpt (a0 : Guard) (a1 : FI) : Encoding.Statement (.brkpt a0 a1) := encoding_of_words rfl (wordCount_full _ _ _)
theorem Encoding.rdcyc (a0 : Guard) (a1 : FA) : Encoding.Statement (.rdcyc a0 a1) := encoding_of_words rfl (wordCount_full _ _ _)
theorem Encoding.vdsub (a0 : Guard) (a1 : FM) : Encoding.Statement (.vdsub a0 a1) := encoding_of_words rfl (wordCount_full _ _ _)
theorem Encoding.bqput (a0 : Guard) (a1 : FM) : Encoding.Statement (.bqput a0 a1) := encoding_of_words rfl (wordCount_full _ _ _)
theorem Encoding.bqget (a0 : Guard) (a1 : FM) : Encoding.Statement (.bqget a0 a1) := encoding_of_words rfl (wordCount_full _ _ _)
theorem Encoding.pairNop (a0 : HalfArgs) (a1 : Half) : Encoding.Statement (.pairNop a0 a1) :=
  encoding_of_words rfl (wordCount_pair _ _)
theorem Encoding.pairMov (a0 : HalfArgs) (a1 : Half) : Encoding.Statement (.pairMov a0 a1) :=
  encoding_of_words rfl (wordCount_pair _ _)
theorem Encoding.pairIadd (a0 : HalfArgs) (a1 : Half) : Encoding.Statement (.pairIadd a0 a1) :=
  encoding_of_words rfl (wordCount_pair _ _)
theorem Encoding.pairIsub (a0 : HalfArgs) (a1 : Half) : Encoding.Statement (.pairIsub a0 a1) :=
  encoding_of_words rfl (wordCount_pair _ _)
theorem Encoding.pairImul (a0 : HalfArgs) (a1 : Half) : Encoding.Statement (.pairImul a0 a1) :=
  encoding_of_words rfl (wordCount_pair _ _)
theorem Encoding.pairImin (a0 : HalfArgs) (a1 : Half) : Encoding.Statement (.pairImin a0 a1) :=
  encoding_of_words rfl (wordCount_pair _ _)
theorem Encoding.pairImax (a0 : HalfArgs) (a1 : Half) : Encoding.Statement (.pairImax a0 a1) :=
  encoding_of_words rfl (wordCount_pair _ _)
theorem Encoding.pairAnd (a0 : HalfArgs) (a1 : Half) : Encoding.Statement (.pairAnd a0 a1) :=
  encoding_of_words rfl (wordCount_pair _ _)
theorem Encoding.pairOr (a0 : HalfArgs) (a1 : Half) : Encoding.Statement (.pairOr a0 a1) :=
  encoding_of_words rfl (wordCount_pair _ _)
theorem Encoding.pairXor (a0 : HalfArgs) (a1 : Half) : Encoding.Statement (.pairXor a0 a1) :=
  encoding_of_words rfl (wordCount_pair _ _)
theorem Encoding.pairAndn (a0 : HalfArgs) (a1 : Half) : Encoding.Statement (.pairAndn a0 a1) :=
  encoding_of_words rfl (wordCount_pair _ _)
theorem Encoding.pairShl (a0 : HalfArgs) (a1 : Half) : Encoding.Statement (.pairShl a0 a1) :=
  encoding_of_words rfl (wordCount_pair _ _)
theorem Encoding.pairShr (a0 : HalfArgs) (a1 : Half) : Encoding.Statement (.pairShr a0 a1) :=
  encoding_of_words rfl (wordCount_pair _ _)
theorem Encoding.pairSar (a0 : HalfArgs) (a1 : Half) : Encoding.Statement (.pairSar a0 a1) :=
  encoding_of_words rfl (wordCount_pair _ _)
theorem Encoding.pairNot (a0 : HalfArgs) (a1 : Half) : Encoding.Statement (.pairNot a0 a1) :=
  encoding_of_words rfl (wordCount_pair _ _)
theorem Encoding.pairIneg (a0 : HalfArgs) (a1 : Half) : Encoding.Statement (.pairIneg a0 a1) :=
  encoding_of_words rfl (wordCount_pair _ _)
theorem Encoding.pairFadd (a0 : HalfArgs) (a1 : Half) : Encoding.Statement (.pairFadd a0 a1) :=
  encoding_of_words rfl (wordCount_pair _ _)
theorem Encoding.pairFsub (a0 : HalfArgs) (a1 : Half) : Encoding.Statement (.pairFsub a0 a1) :=
  encoding_of_words rfl (wordCount_pair _ _)
theorem Encoding.pairFmul (a0 : HalfArgs) (a1 : Half) : Encoding.Statement (.pairFmul a0 a1) :=
  encoding_of_words rfl (wordCount_pair _ _)
theorem Encoding.pairFmin (a0 : HalfArgs) (a1 : Half) : Encoding.Statement (.pairFmin a0 a1) :=
  encoding_of_words rfl (wordCount_pair _ _)
theorem Encoding.pairFmax (a0 : HalfArgs) (a1 : Half) : Encoding.Statement (.pairFmax a0 a1) :=
  encoding_of_words rfl (wordCount_pair _ _)
theorem Encoding.pairFminnum (a0 : HalfArgs) (a1 : Half) : Encoding.Statement (.pairFminnum a0 a1) :=
  encoding_of_words rfl (wordCount_pair _ _)
theorem Encoding.pairFmaxnum (a0 : HalfArgs) (a1 : Half) : Encoding.Statement (.pairFmaxnum a0 a1) :=
  encoding_of_words rfl (wordCount_pair _ _)
theorem Encoding.pairFabs (a0 : HalfArgs) (a1 : Half) : Encoding.Statement (.pairFabs a0 a1) :=
  encoding_of_words rfl (wordCount_pair _ _)
theorem Encoding.pairFneg (a0 : HalfArgs) (a1 : Half) : Encoding.Statement (.pairFneg a0 a1) :=
  encoding_of_words rfl (wordCount_pair _ _)
theorem Encoding.pairFcopysign (a0 : HalfArgs) (a1 : Half) : Encoding.Statement (.pairFcopysign a0 a1) :=
  encoding_of_words rfl (wordCount_pair _ _)
theorem Encoding.ringDoorbell (a0 : Nat) (a1 : Nat) (a2 : BitVec 16) : Encoding.Statement (.ringDoorbell a0 a1 a2) :=
  encoding_of_none rfl
theorem Encoding.ringEnable (a0 : Nat) (a1 : Nat) : Encoding.Statement (.ringEnable a0 a1) := encoding_of_none rfl
theorem Encoding.partitionRegisterWrite (a0 : Nat) (a1 : BitVec 128) : Encoding.Statement (.partitionRegisterWrite a0 a1) :=
  encoding_of_none rfl
theorem Encoding.registerWrite (a0 : Nat) (a1 : Nat) (a2 : BitVec 128) : Encoding.Statement (.registerWrite a0 a1 a2) :=
  encoding_of_none rfl
theorem Encoding.postEvent (a0 : Pkt) : Encoding.Statement (.postEvent a0) := encoding_of_none rfl
theorem Encoding.create (a0 : Pkt) : Encoding.Statement (.create a0) := encoding_of_none rfl
theorem Encoding.preempt (a0 : Pkt) : Encoding.Statement (.preempt a0) := encoding_of_none rfl
theorem Encoding.resume (a0 : Pkt) : Encoding.Statement (.resume a0) := encoding_of_none rfl
theorem Encoding.teardown (a0 : Pkt) : Encoding.Statement (.teardown a0) := encoding_of_none rfl
theorem Encoding.regionUpdate (a0 : Pkt) : Encoding.Statement (.regionUpdate a0) := encoding_of_none rfl
theorem Encoding.regionReset (a0 : Pkt) : Encoding.Statement (.regionReset a0) := encoding_of_none rfl
theorem Encoding.domainConfig (a0 : Pkt) : Encoding.Statement (.domainConfig a0) := encoding_of_none rfl
theorem Encoding.streamBind (a0 : Pkt) : Encoding.Statement (.streamBind a0) := encoding_of_none rfl
theorem Encoding.streamClose (a0 : Pkt) : Encoding.Statement (.streamClose a0) := encoding_of_none rfl
theorem Encoding.sliceExpiry (a0 : Nat) : Encoding.Statement (.sliceExpiry a0) := encoding_of_none rfl
theorem Encoding.saveComplete (a0 : Nat) : Encoding.Statement (.saveComplete a0) := encoding_of_none rfl
theorem Encoding.resumeComplete (a0 : Nat) : Encoding.Statement (.resumeComplete a0) := encoding_of_none rfl
theorem Encoding.invalidationComplete (a0 : Nat) : Encoding.Statement (.invalidationComplete a0) := encoding_of_none rfl
theorem Encoding.lazyWriteOutComplete (a0 : Nat) (a1 : Nat) : Encoding.Statement (.lazyWriteOutComplete a0 a1) :=
  encoding_of_none rfl
theorem Encoding.firmwareActivation : Encoding.Statement .firmwareActivation := encoding_of_none rfl
theorem Encoding.pageInval (a0 : Mb) (a1 : BitVec 256) : Encoding.Statement (.pageInval a0 a1) := encoding_of_none rfl
theorem Encoding.pageResolve (a0 : Mb) (a1 : BitVec 256) : Encoding.Statement (.pageResolve a0 a1) := encoding_of_none rfl
theorem Encoding.pageFail (a0 : Mb) (a1 : BitVec 256) : Encoding.Statement (.pageFail a0 a1) := encoding_of_none rfl
theorem Encoding.trapcfg (a0 : Mb) (a1 : BitVec 256) : Encoding.Statement (.trapcfg a0 a1) := encoding_of_none rfl
theorem Encoding.tracecfg (a0 : Mb) (a1 : BitVec 256) : Encoding.Statement (.tracecfg a0 a1) := encoding_of_none rfl
theorem Encoding.resolveRetry (a0 : Mb) (a1 : BitVec 256) : Encoding.Statement (.resolveRetry a0 a1) := encoding_of_none rfl
theorem Encoding.resolveSkip (a0 : Mb) (a1 : BitVec 256) : Encoding.Statement (.resolveSkip a0 a1) := encoding_of_none rfl
theorem Encoding.resolveGoto (a0 : Mb) (a1 : BitVec 256) : Encoding.Statement (.resolveGoto a0 a1) := encoding_of_none rfl
theorem Encoding.resolveRestart (a0 : Mb) (a1 : BitVec 256) : Encoding.Statement (.resolveRestart a0 a1) := encoding_of_none rfl
theorem Encoding.resolveKill (a0 : Mb) (a1 : BitVec 256) : Encoding.Statement (.resolveKill a0 a1) := encoding_of_none rfl
theorem Encoding.halt (a0 : Mb) (a1 : BitVec 256) : Encoding.Statement (.halt a0 a1) := encoding_of_none rfl
theorem Encoding.release (a0 : Mb) (a1 : BitVec 256) : Encoding.Statement (.release a0 a1) := encoding_of_none rfl
theorem Encoding.step (a0 : Mb) (a1 : BitVec 256) : Encoding.Statement (.step a0 a1) := encoding_of_none rfl
theorem Encoding.readreg (a0 : Mb) (a1 : BitVec 256) : Encoding.Statement (.readreg a0 a1) := encoding_of_none rfl
theorem Encoding.writereg (a0 : Mb) (a1 : BitVec 256) : Encoding.Statement (.writereg a0 a1) := encoding_of_none rfl
theorem Encoding.getVersion (a0 : Mb) (a1 : List Byte) : Encoding.Statement (.getVersion a0 a1) := encoding_of_none rfl
theorem Encoding.getCapabilities (a0 : Mb) (a1 : List Byte) : Encoding.Statement (.getCapabilities a0 a1) := encoding_of_none rfl
theorem Encoding.negotiateAlgorithms (a0 : Mb) (a1 : List Byte) : Encoding.Statement (.negotiateAlgorithms a0 a1) :=
  encoding_of_none rfl
theorem Encoding.getDigests (a0 : Mb) (a1 : List Byte) : Encoding.Statement (.getDigests a0 a1) := encoding_of_none rfl
theorem Encoding.getCertificate (a0 : Mb) (a1 : List Byte) : Encoding.Statement (.getCertificate a0 a1) := encoding_of_none rfl
theorem Encoding.challenge (a0 : Mb) (a1 : List Byte) : Encoding.Statement (.challenge a0 a1) := encoding_of_none rfl
theorem Encoding.getMeasurements (a0 : Mb) (a1 : List Byte) : Encoding.Statement (.getMeasurements a0 a1) := encoding_of_none rfl
theorem Encoding.syscallReply (a0 : Replier) (a1 : BitVec 32) (a2 : List W64) : Encoding.Statement (.syscallReply a0 a1 a2) :=
  encoding_of_none rfl
theorem Encoding.power (a0 : Mb) (a1 : BitVec 64) : Encoding.Statement (.power a0 a1) := encoding_of_none rfl
theorem Encoding.unlock (a0 : Mb) (a1 : BitVec 64) : Encoding.Statement (.unlock a0 a1) := encoding_of_none rfl
theorem Encoding.lock (a0 : Mb) (a1 : BitVec 64) : Encoding.Statement (.lock a0 a1) := encoding_of_none rfl
theorem Encoding.debuglvl (a0 : Mb) (a1 : BitVec 64) : Encoding.Statement (.debuglvl a0 a1) := encoding_of_none rfl
theorem Encoding.fwstage (a0 : Mb) (a1 : BitVec 64) : Encoding.Statement (.fwstage a0 a1) := encoding_of_none rfl
theorem Encoding.fwact (a0 : Mb) (a1 : BitVec 64) : Encoding.Statement (.fwact a0 a1) := encoding_of_none rfl
theorem Encoding.port (a0 : Mb) (a1 : BitVec 64) : Encoding.Statement (.port a0 a1) := encoding_of_none rfl
theorem Encoding.bqcfg (a0 : Mb) (a1 : BitVec 64) : Encoding.Statement (.bqcfg a0 a1) := encoding_of_none rfl
theorem Encoding.pwrcap (a0 : Mb) (a1 : BitVec 64) : Encoding.Statement (.pwrcap a0 a1) := encoding_of_none rfl
theorem Encoding.idsig (a0 : Mb) (a1 : BitVec 64) : Encoding.Statement (.idsig a0 a1) := encoding_of_none rfl
theorem Encoding.eventIntake (a0 : Nat) (a1 : Nat) : Encoding.Statement (.eventIntake a0 a1) := encoding_of_none rfl
theorem Encoding.closeMarkerIntake (a0 : Nat) (a1 : Nat) : Encoding.Statement (.closeMarkerIntake a0 a1) := encoding_of_none rfl
theorem Encoding.diecycleAdvance (a0 : Nat) : Encoding.Statement (.diecycleAdvance a0) := encoding_of_none rfl
theorem Encoding.eventRelease (a0 : Nat) : Encoding.Statement (.eventRelease a0) := encoding_of_none rfl
theorem Encoding.candidateDeadline (a0 : Nat) : Encoding.Statement (.candidateDeadline a0) := encoding_of_none rfl
theorem Encoding.entryStallResume (a0 : Nat) : Encoding.Statement (.entryStallResume a0) := encoding_of_none rfl
theorem Encoding.pendStallResume (a0 : Nat) : Encoding.Statement (.pendStallResume a0) := encoding_of_none rfl
theorem Encoding.groupOffer (a0 : Nat) (a1 : Nat) : Encoding.Statement (.groupOffer a0 a1) := encoding_of_none rfl
theorem Encoding.pendingLaunchRetry (a0 : Nat) (a1 : Nat) : Encoding.Statement (.pendingLaunchRetry a0 a1) := encoding_of_none rfl
theorem Encoding.launchComplete (a0 : Nat) (a1 : Nat) : Encoding.Statement (.launchComplete a0 a1) := encoding_of_none rfl
theorem Encoding.datomEntryArrival (a0 : Nat) : Encoding.Statement (.datomEntryArrival a0) := encoding_of_none rfl
theorem Encoding.datomApply (a0 : Nat) (a1 : Nat) : Encoding.Statement (.datomApply a0 a1) := encoding_of_none rfl
theorem Encoding.groupPlace (a0 : Nat) : Encoding.Statement (.groupPlace a0) := encoding_of_none rfl
theorem Encoding.stealRequest (a0 : Nat) : Encoding.Statement (.stealRequest a0) := encoding_of_none rfl
theorem Encoding.stealAnswer (a0 : Nat) : Encoding.Statement (.stealAnswer a0) := encoding_of_none rfl
theorem Encoding.detDispatch (a0 : Nat) (a1 : Nat) : Encoding.Statement (.detDispatch a0 a1) := encoding_of_none rfl
theorem Encoding.compactorMove (a0 : Nat) : Encoding.Statement (.compactorMove a0) := encoding_of_none rfl
theorem Encoding.groupSlotFree (a0 : Nat) (a1 : Nat) : Encoding.Statement (.groupSlotFree a0 a1) := encoding_of_none rfl
theorem Encoding.hang (a0 : Nat) (a1 : Nat) (a2 : Nat) : Encoding.Statement (.hang a0 a1 a2) := encoding_of_none rfl
theorem Encoding.probeSend (a0 : Nat) (a1 : Nat) (a2 : Nat) : Encoding.Statement (.probeSend a0 a1 a2) := encoding_of_none rfl
theorem Encoding.probeArrival (a0 : Nat) : Encoding.Statement (.probeArrival a0) := encoding_of_none rfl
theorem Encoding.barrierArrival (a0 : Nat) (a1 : Nat) (a2 : Nat) : Encoding.Statement (.barrierArrival a0 a1 a2) :=
  encoding_of_none rfl
theorem Encoding.trapTaken (a0 : Nat) (a1 : Nat) (a2 : Nat) : Encoding.Statement (.trapTaken a0 a1 a2) := encoding_of_none rfl
theorem Encoding.homeAccess (a0 : Nat) : Encoding.Statement (.homeAccess a0) := encoding_of_none rfl
theorem Encoding.loadReturn (a0 : Nat) : Encoding.Statement (.loadReturn a0) := encoding_of_none rfl
theorem Encoding.mbarwPoll (a0 : Nat) (a1 : Nat) (a2 : Nat) (a3 : Nat) : Encoding.Statement (.mbarwPoll a0 a1 a2 a3) :=
  encoding_of_none rfl
theorem Encoding.pageWalkComplete (a0 : Nat) (a1 : Nat) : Encoding.Statement (.pageWalkComplete a0 a1) := encoding_of_none rfl
theorem Encoding.pullAttemptComplete (a0 : Nat) (a1 : List Byte) (a2 : Bool) : Encoding.Statement (.pullAttemptComplete a0 a1 a2) :=
  encoding_of_none rfl
theorem Encoding.pullRetry (a0 : Nat) : Encoding.Statement (.pullRetry a0) := encoding_of_none rfl
theorem Encoding.hostWrite (a0 : Nat) (a1 : List Byte) : Encoding.Statement (.hostWrite a0 a1) := encoding_of_none rfl
theorem Encoding.copyRetire (a0 : Nat) (a1 : Nat) : Encoding.Statement (.copyRetire a0 a1) := encoding_of_none rfl
theorem Encoding.copyReplay (a0 : Nat) (a1 : Nat) : Encoding.Statement (.copyReplay a0 a1) := encoding_of_none rfl
theorem Encoding.arrayStart (a0 : Nat) : Encoding.Statement (.arrayStart a0) := encoding_of_none rfl
theorem Encoding.arrayRetire (a0 : Nat) : Encoding.Statement (.arrayRetire a0) := encoding_of_none rfl
theorem Encoding.drainStart (a0 : Nat) : Encoding.Statement (.drainStart a0) := encoding_of_none rfl
theorem Encoding.drainRetire (a0 : Nat) (a1 : Nat) : Encoding.Statement (.drainRetire a0 a1) := encoding_of_none rfl
theorem Encoding.mrelTakesEffect (a0 : Nat) (a1 : Nat) : Encoding.Statement (.mrelTakesEffect a0 a1) := encoding_of_none rfl
theorem Encoding.chunkArrival (a0 : Nat) (a1 : Nat) : Encoding.Statement (.chunkArrival a0 a1) := encoding_of_none rfl
theorem Encoding.combineDeadline (a0 : Nat) (a1 : Nat) : Encoding.Statement (.combineDeadline a0 a1) := encoding_of_none rfl
theorem Encoding.slotRelease (a0 : Nat) (a1 : Nat) : Encoding.Statement (.slotRelease a0 a1) := encoding_of_none rfl
theorem Encoding.submissionStart (a0 : Nat) (a1 : Nat) : Encoding.Statement (.submissionStart a0 a1) := encoding_of_none rfl
theorem Encoding.framePut (a0 : Nat) (a1 : Nat) : Encoding.Statement (.framePut a0 a1) := encoding_of_none rfl
theorem Encoding.submissionEnd (a0 : Nat) (a1 : Nat) : Encoding.Statement (.submissionEnd a0 a1) := encoding_of_none rfl
theorem Encoding.flitReceive (a0 : Nat) (a1 : BitVec 1280) : Encoding.Statement (.flitReceive a0 a1) := encoding_of_none rfl
theorem Encoding.portTrained (a0 : Nat) : Encoding.Statement (.portTrained a0) := encoding_of_none rfl
theorem Encoding.trainingTimeout (a0 : Nat) : Encoding.Statement (.trainingTimeout a0) := encoding_of_none rfl
theorem Encoding.lossOfSignal (a0 : Nat) : Encoding.Statement (.lossOfSignal a0) := encoding_of_none rfl
theorem Encoding.ucieModuleDown (a0 : Nat) : Encoding.Statement (.ucieModuleDown a0) := encoding_of_none rfl
theorem Encoding.ucieModuleActive (a0 : Nat) : Encoding.Statement (.ucieModuleActive a0) := encoding_of_none rfl
theorem Encoding.detectedError (a0 : Nat) (a1 : Nat) (a2 : Nat) (a3 : Bool) : Encoding.Statement (.detectedError a0 a1 a2 a3) :=
  encoding_of_none rfl
theorem Encoding.pmD3hot : Encoding.Statement .pmD3hot := encoding_of_none rfl
theorem Encoding.pmD0 : Encoding.Statement .pmD0 := encoding_of_none rfl
theorem Encoding.powerRemoved : Encoding.Statement .powerRemoved := encoding_of_none rfl
theorem Encoding.powerOn (a0 : BitVec 18) (a1 : Bool) (a2 : List Byte) : Encoding.Statement (.powerOn a0 a1 a2) :=
  encoding_of_none rfl
theorem Encoding.clockThrottle : Encoding.Statement .clockThrottle := encoding_of_none rfl
theorem Encoding.leaseRenew (a0 : Nat) : Encoding.Statement (.leaseRenew a0) := encoding_of_none rfl
theorem Encoding.leaseLapse (a0 : Nat) : Encoding.Statement (.leaseLapse a0) := encoding_of_none rfl
theorem Encoding.vfEnable (a0 : Nat) (a1 : Bool) : Encoding.Statement (.vfEnable a0 a1) := encoding_of_none rfl
theorem Encoding.routeTableLoad (a0 : List (Nat × Nat × Option Nat)) : Encoding.Statement (.routeTableLoad a0) :=
  encoding_of_none rfl

end Sys2Proof.Laws
end

