-- ==== Sys2Proof/Tests/Slice0.lean ====
section
/-!
SUPPORT. The model's own tests: terms that each encoding check refuses, a word of every opcode written out from the layouts,
single instructions with results from the worked examples of spec/, and, for every statement that has hypotheses, a concrete
state and operands that meet them (Sys2Proof/Certificates/Slice0/Obligations.lean).
-/
set_option exponentiation.threshold 2048

namespace Sys2Proof.Tests
open Sys2Proof.Machine
set_option maxRecDepth 100000

/-! ### Encoding checks: a term for each, refused -/

/-- The unguarded form (R207). -/
def noG : Guard := ⟨false, 7⟩

/-- Every term of a list is refused. -/
def allRefused (l : List Instr) : Bool := l.all (fun i => !wellFormed i)

/-- Layout A whole: IADD v2, v4, v6 of a type. -/
def fa (t : Ty) : FA := ⟨2, 4, 6, false, false, false, t, 0, false, false, 0, 0⟩
/-- Layout A with one source SRCB. -/
def fb1 (t : Ty) : FA := { fa t with srca := 0 }
/-- Layout A with a bare destination. -/
def fa0 (t : Ty) : FA := { fa t with
  srca := 0
  srcb := 0 }
/-- Layout B whole. -/
def fb (t : Ty) : FB := ⟨2, 4, 6, 8, false, false, false, t, 0, false, false⟩
/-- Layout I bare. -/
def fi (imm : BitVec 24) : FI := ⟨0, 0, false, .i8, imm⟩
/-- Layout M: a 4-byte access at v4 of register v2. -/
def fm : FM := ⟨2, 4, false, 0, 2, false, 0, 0, false, 0, 0⟩
/-- Layout M of the event, automaton and video instructions. -/
def fsys : FM := ⟨4, 8, true, 0, 0, false, 0, 0, false, 0, 0⟩
/-- Layout J bare. -/
def fj : FJ := ⟨0, 0, 0, false, 0, false, 0⟩
/-- A returning atomic of 4 bytes. -/
def fat : FAtom := ⟨2, 4, false, 6, false, 2, 0, 0, false, 0, 0⟩
/-- A copy start of 4-byte elements. -/
def fcopy : FCopy := ⟨4, 8, 0, 0, 0, false, 0, 2, false, 0, 0, false, 1, 1, 1, 0, 0, 0, 0, 0⟩
/-- MMA.I8.M64.N16. -/
def fmma : FMma := ⟨0, 0, 1, false, false, false, .i8, 0, false, 0, 1⟩

/-- The terms the refused ones below are made from are well formed themselves. -/
theorem test_wellFormed_bases : ([.iadd noG (fa .i32), .iadd noG (fa .i64), .iabs noG (fb1 .i32), .imad noG (fb .i32), .ld noG fm,
    .atom noG fat, .cas noG fat, .tcopy noG fcopy, .mma noG fmma, .mbara noG { fsys with
      wid := 3
      scope := 1
      ord := 2 }, .vdsub noG fsys, .nop noG fj, .trap noG (fi 1), .mrel noG (fi 1)] : List Instr).all wellFormed = true := by decide

/-- R207: the negated p7; R210-R213, R220: each field of layout A that must be 0. -/
theorem test_illFormed_layoutA : allRefused [
    .iadd ⟨true, 7⟩ (fa .i32), .imulh noG (fa .i16), .iadd noG (fa .f32), .iadd noG (fa .bx),
    .iabs noG (fa .i32), .iabs noG { fb1 .i32 with fea := true }, .iadd noG { fa .i32 with rnd := 1 },
    .imulh noG { fa .i32 with sat := true }, .sadd noG { fa .i32 with u := true }, .cqry noG { fa .n64 with srcb := 1 },
    .cqry noG { fa .n64 with
      srcb := 0
      feb := true }, .rdlane noG (fa .n32)] = true := by decide

/-- R209, R65: registers outside their bounds, pairs and quads not aligned. -/
theorem test_illFormed_registers : allRefused [
    .iadd noG { fa .i64 with dst := 3 }, .iadd noG { fa .n64 with srca := 5 }, .iadd noG { fa .f64 with srcb := 7 },
    .iadd noG { fa .i32 with
      u := true
      srcb := 256 }, .sadd noG { fa .i32 with dst := 256 }, .sadd noG { fa .i32 with srca := 511 },
    .icmp noG { fa .i32 with dst := 8 }, .scmp noG { fa .i32 with dst := 4 }, .lea noG { fb .i32 with dst := 3 },
    .evrd noG { fa0 .n64 with dst := 6 }, .evrd noG { fa0 .n64 with dst := 256 }, .syscall noG { fa .n64 with
      u := true
      srca := 6 }, .sel noG { fb .i32 with srcc := 8 }, .ssel noG { fb .i32 with srcc := 4 },
    .lea noG { fb .i32 with srcc := 8 }, .mscale noG { fa .i8 with
      dst := 8
      srca := 0
      u := true }] = true := by decide

/-- R221, R222, R275, R276: lane modifiers. -/
theorem test_illFormed_laneModifiers : allRefused [
    .iadd noG { fa .i32 with lmk := 7 }, .iadd noG { fa .i32 with lmp := 1 }, .iadd noG { fa .i32 with
      lmk := 2
      lmp := 1 },
    .iadd noG { fa .i32 with
      u := true
      lmt := true
      lmk := 1 }, .iabs noG { fb1 .i32 with lmk := 1 }, .cvt noG { fa .i32 with
      srcb := 2
      lmt := true
      lmk := 1 }, .shfl noG { fa .n32 with lmk := 1 }, .sadd noG { fa .i32 with lmt := true }] = true := by decide

/-- R214, R258, R282: layout B and the operators of comparisons. -/
theorem test_illFormed_layoutB_compare : allRefused [
    .imad noG (fb .f32), .imad noG { fb .i64 with dst := 3 }, .imad noG { fb .i64 with srca := 5 },
    .imad noG { fb .i64 with srcb := 7 }, .imad noG { fb .i64 with srcc := 9 }, .sel noG { fb .i32 with
      srcc := 1
      fec := true }, .sfma noG { fb .f32 with u := true }, .imad noG { fb .i32 with rnd := 1 }, .bfe noG { fb .i32 with sat := true },
    .imad noG { fb .i32 with
      u := true
      srcb := 300 }, .icmp noG { fa .i32 with
      dst := 1
      rnd := 3 }, .fcmp noG { fa .f32 with
      dst := 1
      rnd := 3
      sat := true }, .scmp noG { fa .i32 with
      dst := 1
      rnd := 3 }] = true := by decide

/-- R215, R277, R330, R361-R365, R369, R377, R388: layout I. -/
theorem test_illFormed_layoutI : allRefused [
    .movi noG { fi 1 with srca := 1 }, .movi noG { fi 1 with fe := true }, .movi noG { fi (2 ^ 16) with ty := .f16 },
    .movi noG { fi (2 ^ 8) with ty := .e4m3 }, .movi noG { fi 1 with ty := .bx }, .movi noG { fi 1 with
      ty := .n64
      dst := 1 }, .movhi noG { fi 1 with ty := .i32 }, .smovhi noG { fi 1 with ty := .n32 },
    .bar noG { fi 1 with dst := 1 }, .bar noG { fi 1 with srca := 1 }, .bar noG { fi 1 with fe := true },
    .bar noG { fi 1 with ty := .i16 }, .bar noG (fi (2 ^ 10)), .barspec noG (fi (2 ^ 10)),
    .cwait noG (fi 256), .stginit noG (fi 4), .stgfill noG (fi 32), .stgfree noG { fi 1 with srca := 1 },
    .stgfill noG (fi (2 ^ 23 + 4)), .aarm noG (fi (2 ^ 10)), .adisarm noG (fi (2 ^ 23 + 1)), .mclaim noG { fi 1 with dst := 4 },
    .mclaim noG (fi 0), .mclaim noG (fi (1 <<< 8 + 1)), .mclaim noG (fi (1 <<< 18 + 1)), .mrel noG (fi (1 <<< 22 + 1)),
    .mzero noG (fi 1), .mwait noG (fi 3), .trap noG (fi (2 ^ 16)), .brkpt noG (fi (2 ^ 16)),
    .setfmt noG ⟨0, 200, true, .n32, 0x800000⟩, .setfmt noG { fi 16 with ty := .n32 }, .setfmt noG { fi (2 ^ 23 + 1) with ty := .n32 }, .setfmt noG (fi 1),
    .getsr noG { fi 10 with ty := .n64 }, .getsr noG { fi 2 with ty := .n32 }, .getsr noG { fi 2 with
      ty := .n64
      dst := 256 }] = true := by decide

/-- R216-R218, R302-R316, R366, R369, R370, R386: layout M. -/
theorem test_illFormed_layoutM : allRefused [
    .ld noG { fm with wid := 5 }, .ld noG { fm with
      wid := 3
      data := 3 }, .ld noG { fm with
      wid := 4
      data := 2 }, .ld noG { fm with base := 5 }, .ld noG { fm with
      u := true
      base := 256 }, .ld noG { fm with scope := 1 }, .ld noG { fm with ord := 1 },
    .ldx noG { fm with wid := 1 }, .ldx noG { fm with scope := 6 }, .ldx noG { fm with ord := 2 }, .stx noG { fm with ord := 1 },
    .ldu noG { fsys with wid := 4 }, .ldu noG { fsys with u := false }, .ldu noG { fsys with data := 256 },
    .stu noG { fsys with ord := 3 }, .pref noG { fm with wid := 0 }, .pref noG { fm with data := 0 },
    .pref noG { fm with
      data := 0
      wid := 0
      tse := true }, .invl1 noG { fm with data := 0 }, .waitk noG { fm with base := 0 }, .fence noG { (⟨0, 0, false, 0, 0, false, 0, 0, false, 0, 0⟩ : FM) with scope := 1 },
    .fence noG ⟨0, 0, false, 0, 0, false, 0, 0, false, 6, 1⟩, .fencex noG ⟨6, 0, false, 0, 0, false, 0, 0, false, 0, 0⟩,
    .fencex noG ⟨0, 6, false, 0, 0, false, 0, 0, false, 0, 0⟩, .fencex noG ⟨2, 2, false, 0, 0, false, 0, 0, false, 0, 0⟩,
    .ost noG { fm with wid := 1 }, .ald noG { fm with wid := 0 }, .mbara noG { fsys with
      wid := 3
      scope := 0
      ord := 2 }, .mbara noG { fsys with
      wid := 3
      scope := 1
      ord := 1 }, .mbarw noG { fsys with
      wid := 3
      scope := 1
      ord := 2 }, .cpost noG { fsys with wid := 1 }, .cpost noG { fsys with
      wid := 2
      tse := true }, .emit noG { fsys with data := 6 }, .emit noG { fsys with u := false }, .emit noG { fsys with
      scope := 4
      ord := 1 }, .mdrain noG { fsys with data := 4 }, .aload noG { fsys with off := 1 }, .asave noG { fsys with base := 7 },
    .vdsub noG { fsys with wid := 1 }, .bqput noG { fsys with tse := true }, .bqget noG { fsys with scope := 1 }] = true := by decide

/-- R317-R325: the atomics. -/
theorem test_illFormed_atomics : allRefused [
    .atom noG { fat with wid := 1 }, .atom noG { fat with aop := 14 }, .atom noG { fat with scope := 6 },
    .atom noG { fat with
      wid := 3
      data := 3 }, .atom noG { fat with
      wid := 3
      src := 7 }, .cas noG { fat with aop := 1 }, .cas noG { fat with src := 7 }, .cas noG { fat with
      wid := 3
      src := 6 }, .atomr noG ⟨2, 4, false, 14, 0, 2, false, 0, 0, false, 0, 0⟩,
    .atomr noG ⟨2, 5, false, 0, 0, 2, false, 0, 0, false, 0, 0⟩, .dcas noG { fm with data := 2 }, .dcas noG { fm with
      data := 4
      wid := 3 }, .dcas noG { fm with
      data := 4
      base := 6 }, .dcas noG { fm with
      data := 4
      off := 1 }, .amov noG { fm with base := 6 }, .amov noG { fm with
      u := true
      base := 5 }, .datom noG { fm with scope := 1 }, .datom noG { fm with wid := 4 }] = true := by decide

/-- R219, R220, R255: layout J. -/
theorem test_illFormed_layoutJ : allRefused [
    .ret noG { fj with off := 1 }, .bra noG { fj with reg := 1 }, .bra noG { fj with creg := 1 }, .brv noG { fj with cneg := true },
    .brc noG { fj with pred := 1 }, .brc noG { fj with pneg := true }, .call noG { fj with len := 1 },
    .join ⟨false, 0⟩ fj, .region ⟨false, 0⟩ fj] = true := by decide

/-- R213, R229, R294, R295, R298, R336, R353: copies, conversions, reductions, MMA. -/
theorem test_illFormed_special : allRefused [
    .tcopy noG { fcopy with wid := 5 }, .tcopy noG { fcopy with data := 256 }, .tgather noG { fcopy with wid := 6 },
    .tfill noG { fcopy with f3 := 0x80000100 }, .tscatter noG { fcopy with base := 256 },
    .cvt noG { fa .i32 with srcb := 14 }, .cvt noG { fa .i32 with
      srca := 5
      srcb := 3 }, .cvt noG { fa .bx with srcb := 2 }, .cvtf8 noG { fa .f32 with srcb := 10 }, .cvtf8 noG { fa .e4m3 with
      srca := 6
      srcb := 10 }, .cvtf8 noG { fa .f32 with
      dst := 4
      srcb := 12
      rnd := 1 }, .bxpack noG { fa .f32 with srcb := 0 }, .bxunpack noG { fa .f32 with srcb := 4 },
    .red noG { fa .f32 with srcb := 3 }, .red noG { fa .i32 with srcb := 6 }, .scan noG { fa .i32 with
      srcb := 0
      rnd := 1 }, .red noG { fa .i32 with
      srcb := 1
      sat := true }, .red noG { fa .e4m3 with srcb := 0 }, .mma noG { fmma with mc := 3 }, .mma noG { fmma with n := 0 },
    .mma noG { fmma with srca := 8 }, .mma noG { fmma with fea := true }, .mma noG { fmma with rnd := 1 },
    .mma noG { fmma with
      ty := .f16
      sat := true }, .mma noG { fmma with ty := .bx }, .mma noG { fmma with ty := .f32 },
    .vote noG { fa .n32 with
      dst := 8
      srca := 1
      srcb := 0 }, .vote noG { fa .n32 with
      srca := 1
      srcb := 0
      fea := true }] = true := by decide

/-- R225, R227, R228: pair words; the first three are the spec's own examples of what traps ILLEGAL. -/
theorem test_illFormed_pairs : allRefused [
    .pairIadd ⟨7, 4, 8, 0, false⟩ ⟨.iadd, ⟨7, 5, 12, 0, false⟩⟩, .pairIadd ⟨7, 4, 9, 0, false⟩ ⟨.mov, ⟨7, 8, 4, 0, false⟩⟩,
    .pairMov ⟨7, 8, 4, 0, false⟩ ⟨.iadd, ⟨7, 4, 9, 0, false⟩⟩, .pairMov ⟨7, 8, 4, 0, false⟩ ⟨.mov, ⟨7, 8, 5, 0, false⟩⟩,
    .pairImul ⟨7, 4, 9, 5, false⟩ ⟨.nop, ⟨0, 0, 0, 0, false⟩⟩, .pairNop ⟨7, 0, 0, 0, false⟩ ⟨.nop, ⟨0, 0, 0, 0, false⟩⟩,
    .pairMov ⟨7, 8, 5, 5, false⟩ ⟨.nop, ⟨0, 0, 0, 0, false⟩⟩, .pairMov ⟨7, 9, 4, 5, false⟩ ⟨.nop, ⟨0, 0, 0, 0, false⟩⟩,
    .pairMov ⟨7, 8, 256, 0, true⟩ ⟨.nop, ⟨0, 0, 0, 0, false⟩⟩] = true := by decide

/-! ### Decoding -/

/-- A word, with the shape words after it, reads as an instruction, and the instruction is encoded as them. -/
def reads (e : W64 × List W64 × Instr) : Bool :=
  (match decodeWords e.1 e.2.1 with
    | .ok i => i == e.2.2
    | .error _ => false) && encode e.2.2 == some (e.1 :: e.2.1)

/-- How a word is refused. -/
def refusal (w : W64) (sh : List W64) : Option DecodeErr :=
  match decodeWords w sh with
  | .ok _ => none
  | .error e => some e

/-- The spec's worked encodings: `(!p3) FADD.F32.RUP v5, v7, v9~rot(3)`, `IADD.I32 v4, v9 || FMUL.F32 v6, s3`, and the pair of two
NOP halves. -/
theorem test_decode_spec_examples : ([
    (0x102C0A07048AD230, [], .fadd ⟨true, 3⟩ ⟨5, 7, 9, false, false, false, .f32, 3, false, true, 1, 3⟩),
    (0x92E0601A85C08090, [], .pairIadd ⟨7, 4, 9, 0, false⟩ ⟨.fmul, ⟨7, 6, 3, 2, true⟩⟩),
    (0x8000000000000000, [], .pairNop ⟨0, 0, 0, 0, false⟩ ⟨.nop, ⟨0, 0, 0, 0, false⟩⟩)] : List (W64 × List W64 × Instr)).all reads
    = true := by decide

/-- The bytes of the first of them from the lowest address up, as the spec lists them. -/
theorem test_decode_spec_bytes : (match decode [0x30, 0xD2, 0x8A, 0x04, 0x07, 0x0A, 0x2C, 0x10, 0xFF] with
    | .ok (i, r) => i == .fadd ⟨true, 3⟩ ⟨5, 7, 9, false, false, false, .f32, 3, false, true, 1, 3⟩ && r == [0xFF]
    | .error _ => false) = true := by decide

/-- R231, R210, R212, R224, R228, R206: what no instruction is. -/
theorem test_decode_refuses :
    refusal 0 [] = some (.unassigned 0) ∧ refusal (0x025 <<< 54) [] = some (.unassigned 0x25) ∧
    refusal (0x001 <<< 54 ||| 7 <<< 50 ||| 1) [] = some .reservedBit ∧
    refusal (0x001 <<< 54 ||| 7 <<< 50 ||| 0xF <<< 16) [] = some .reservedType ∧
    refusal (0xC000000000000000) [] = some .reservedBit ∧ refusal (0x8000000000000000 ||| 0x1A <<< 25) [] = some (.reservedPop 0x1A) ∧
    refusal (0x180 <<< 54 ||| 7 <<< 50 ||| 1 <<< 31) [] = some .short := by decide

/-- Class 000 of R231, words written out field by field (R207-R220). -/
theorem test_decode_integer : ([
    (0x006c072c04d12710, [], .iadd ⟨true, 3⟩ ⟨3, 300, 9, true, false, true, .i16, 0, true, false, 3, 17⟩),
    (0x00ac072c04d12710, [], .isub ⟨true, 3⟩ ⟨3, 300, 9, true, false, true, .i16, 0, true, false, 3, 17⟩),
    (0x00ec072c04d12710, [], .imul ⟨true, 3⟩ ⟨3, 300, 9, true, false, true, .i16, 0, true, false, 3, 17⟩),
    (0x012c072c04d60710, [], .imulh ⟨true, 3⟩ ⟨3, 300, 9, true, false, true, .n32, 0, false, false, 3, 17⟩),
    (0x016c112d04cbe898, [], .imad ⟨true, 3⟩ ⟨8, 301, 9, 303, true, false, true, .i16, 0, true, true⟩),
    (0x01ac072c04d12710, [], .idiv ⟨true, 3⟩ ⟨3, 300, 9, true, false, true, .i16, 0, true, false, 3, 17⟩),
    (0x01ec072c04d60710, [], .irem ⟨true, 3⟩ ⟨3, 300, 9, true, false, true, .n32, 0, false, false, 3, 17⟩),
    (0x022c072c04d60710, [], .imin ⟨true, 3⟩ ⟨3, 300, 9, true, false, true, .n32, 0, false, false, 3, 17⟩),
    (0x026c072c04d60710, [], .imax ⟨true, 3⟩ ⟨3, 300, 9, true, false, true, .n32, 0, false, false, 3, 17⟩),
    (0x02ac060096a03b50, [], .iabs ⟨true, 3⟩ ⟨3, 0, 301, false, true, false, .i8, 0, true, true, 5, 21⟩),
    (0x02ec060096a03b50, [], .ineg ⟨true, 3⟩ ⟨3, 0, 301, false, true, false, .i8, 0, true, true, 5, 21⟩),
    (0x032c112d04cbeb18, [], .isad ⟨true, 3⟩ ⟨8, 301, 9, 303, true, false, true, .n32, 0, true, true⟩),
    (0x036c072c04d68710, [], .iaddc ⟨true, 3⟩ ⟨3, 300, 9, true, false, true, .n32, 2, false, false, 3, 17⟩),
    (0x03ac072c04d60710, [], .and_ ⟨true, 3⟩ ⟨3, 300, 9, true, false, true, .n32, 0, false, false, 3, 17⟩),
    (0x03ec072c04d60710, [], .or_ ⟨true, 3⟩ ⟨3, 300, 9, true, false, true, .n32, 0, false, false, 3, 17⟩),
    (0x042c072c04d60710, [], .xor_ ⟨true, 3⟩ ⟨3, 300, 9, true, false, true, .n32, 0, false, false, 3, 17⟩),
    (0x046c060096a21b50, [], .not_ ⟨true, 3⟩ ⟨3, 0, 301, false, true, false, .i32, 0, false, true, 5, 21⟩),
    (0x04ac072c04d60710, [], .andn ⟨true, 3⟩ ⟨3, 300, 9, true, false, true, .n32, 0, false, false, 3, 17⟩),
    (0x04ec072c04d60710, [], .shl ⟨true, 3⟩ ⟨3, 300, 9, true, false, true, .n32, 0, false, false, 3, 17⟩),
    (0x052c072c04d60710, [], .shr ⟨true, 3⟩ ⟨3, 300, 9, true, false, true, .n32, 0, false, false, 3, 17⟩)] : List (W64 × List W64 × Instr)).all reads = true := by decide

/-- Class 000 of R231, words written out field by field (R207-R220). -/
theorem test_decode_integer_2 : ([
    (0x056c072c04d20710, [], .sar ⟨true, 3⟩ ⟨3, 300, 9, true, false, true, .i32, 0, false, false, 3, 17⟩),
    (0x05ac072c04d60710, [], .rot ⟨true, 3⟩ ⟨3, 300, 9, true, false, true, .n32, 0, false, false, 3, 17⟩),
    (0x05ec112e054bd380, [], .funnel ⟨true, 3⟩ ⟨8, 302, 10, 303, false, true, false, .n64, 0, false, false⟩),
    (0x062c060096a51b50, [], .popc ⟨true, 3⟩ ⟨3, 0, 301, false, true, false, .n16, 0, false, true, 5, 21⟩),
    (0x066c060096a51b50, [], .clz ⟨true, 3⟩ ⟨3, 0, 301, false, true, false, .n16, 0, false, true, 5, 21⟩),
    (0x06ac060096a51b50, [], .ctz ⟨true, 3⟩ ⟨3, 0, 301, false, true, false, .n16, 0, false, true, 5, 21⟩),
    (0x06ec060096a51b50, [], .brev ⟨true, 3⟩ ⟨3, 0, 301, false, true, false, .n16, 0, false, true, 5, 21⟩),
    (0x072c112d04cbe888, [], .bfe ⟨true, 3⟩ ⟨8, 301, 9, 303, true, false, true, .i16, 0, false, true⟩),
    (0x076c112d04cbeb08, [], .bfi ⟨true, 3⟩ ⟨8, 301, 9, 303, true, false, true, .n32, 0, false, true⟩),
    (0x07ac0f2d04815600, [], .sel ⟨true, 3⟩ ⟨7, 301, 9, 5, false, true, false, .e4m3, 0, false, false⟩),
    (0x07ec0d2d04c1a000, [], .icmp ⟨true, 3⟩ ⟨6, 301, 9, true, false, false, .i16, 2, true, false, 0, 0⟩),
    (0x082ffc0097231400, [], .mov ⟨true, 3⟩ ⟨510, 0, 302, false, true, false, .i64, 0, false, true, 2, 0⟩),
    (0x086e5a0051fc0000, [], .movi ⟨true, 3⟩ ⟨301, 0, false, .f32, 4161536⟩),
    (0x08ae592ebd5e6f78, [], .movhi ⟨true, 3⟩ ⟨300, 302, true, .n64, 11259375⟩),
    (0x08ee592e0481e308, [], .lea ⟨true, 3⟩ ⟨300, 302, 9, 7, true, false, false, .n32, 0, false, true⟩),
    (0x092c112d04cbea18, [], .dp4 ⟨true, 3⟩ ⟨8, 301, 9, 303, true, false, true, .n8, 0, true, true⟩)] : List (W64 × List W64 × Instr)).all reads = true := by decide

/-- Class 001 of R231, words written out field by field (R207-R220). -/
theorem test_decode_float : ([
    (0x102c072c04dae710, [], .fadd ⟨true, 3⟩ ⟨3, 300, 9, true, false, true, .f32, 3, true, false, 3, 17⟩),
    (0x106c072c04dae710, [], .fsub ⟨true, 3⟩ ⟨3, 300, 9, true, false, true, .f32, 3, true, false, 3, 17⟩),
    (0x10ac072c04dae710, [], .fmul ⟨true, 3⟩ ⟨3, 300, 9, true, false, true, .f32, 3, true, false, 3, 17⟩),
    (0x10ec112d04cbec38, [], .fma ⟨true, 3⟩ ⟨8, 301, 9, 303, true, false, true, .f16, 1, true, true⟩),
    (0x112c072c04d90710, [], .fmin ⟨true, 3⟩ ⟨3, 300, 9, true, false, true, .b16, 0, false, false, 3, 17⟩),
    (0x116c072c04d90710, [], .fmax ⟨true, 3⟩ ⟨3, 300, 9, true, false, true, .b16, 0, false, false, 3, 17⟩),
    (0x11ac072c04d90710, [], .fminnum ⟨true, 3⟩ ⟨3, 300, 9, true, false, true, .b16, 0, false, false, 3, 17⟩),
    (0x11ec072c04d90710, [], .fmaxnum ⟨true, 3⟩ ⟨3, 300, 9, true, false, true, .b16, 0, false, false, 3, 17⟩),
    (0x122c060096ac1b50, [], .fabs ⟨true, 3⟩ ⟨3, 0, 301, false, true, false, .e4m3, 0, false, true, 5, 21⟩),
    (0x126c060096ac1b50, [], .fneg ⟨true, 3⟩ ⟨3, 0, 301, false, true, false, .e4m3, 0, false, true, 5, 21⟩),
    (0x12ac072c04dd0710, [], .fcopysign ⟨true, 3⟩ ⟨3, 300, 9, true, false, true, .e5m2, 0, false, false, 3, 17⟩),
    (0x12ec0d2d04cac000, [], .fcmp ⟨true, 3⟩ ⟨6, 301, 9, true, false, false, .f32, 3, false, false, 0, 0⟩),
    (0x132c060096ac1b50, [], .fclass ⟨true, 3⟩ ⟨3, 0, 301, false, true, false, .e4m3, 0, false, true, 5, 21⟩),
    (0x136c072c04dae710, [], .fdiv ⟨true, 3⟩ ⟨3, 300, 9, true, false, true, .f32, 3, true, false, 3, 17⟩),
    (0x13ac060096a8bb50, [], .fsqrt ⟨true, 3⟩ ⟨3, 0, 301, false, true, false, .f16, 2, true, true, 5, 21⟩),
    (0x13ec060096a8bb50, [], .frcp ⟨true, 3⟩ ⟨3, 0, 301, false, true, false, .f16, 2, true, true, 5, 21⟩),
    (0x142c060096a8bb50, [], .frsq ⟨true, 3⟩ ⟨3, 0, 301, false, true, false, .f16, 2, true, true, 5, 21⟩),
    (0x146c060096aa7b50, [], .fexp2 ⟨true, 3⟩ ⟨3, 0, 301, false, true, false, .f32, 1, true, true, 5, 21⟩),
    (0x14ac060096aa7b50, [], .flog2 ⟨true, 3⟩ ⟨3, 0, 301, false, true, false, .f32, 1, true, true, 5, 21⟩),
    (0x14ec060096aa7b50, [], .fsin ⟨true, 3⟩ ⟨3, 0, 301, false, true, false, .f32, 1, true, true, 5, 21⟩)] : List (W64 × List W64 × Instr)).all reads = true := by decide

/-- Class 001 of R231, words written out field by field (R207-R220). -/
theorem test_decode_float_2 : ([
    (0x152c060096aa7b50, [], .fcos ⟨true, 3⟩ ⟨3, 0, 301, false, true, false, .f32, 1, true, true, 5, 21⟩),
    (0x156c060096aa7b50, [], .ftanh ⟨true, 3⟩ ⟨3, 0, 301, false, true, false, .f32, 1, true, true, 5, 21⟩),
    (0x15ac072c04dae710, [], .fscale ⟨true, 3⟩ ⟨3, 300, 9, true, false, true, .f32, 3, true, false, 3, 17⟩),
    (0x15ee5a00972b19f0, [], .fgetexp ⟨true, 3⟩ ⟨301, 0, 302, false, true, false, .f64, 0, false, true, 4, 31⟩),
    (0x162c060096a9db50, [], .fround ⟨true, 3⟩ ⟨3, 0, 301, false, true, false, .b16, 3, false, true, 5, 21⟩),
    (0x166c060096aa1b50, [], .ffrac ⟨true, 3⟩ ⟨3, 0, 301, false, true, false, .f32, 0, false, true, 5, 21⟩),
    (0x16ac112d04cbecd8, [], .fdot2 ⟨true, 3⟩ ⟨8, 301, 9, 303, true, false, true, .b16, 2, true, true⟩)] : List (W64 × List W64 × Instr)).all reads = true := by decide

/-- Class 010 of R231, words written out field by field (R207-R220). -/
theorem test_decode_convert_lanes : ([
    (0x202e592d05436c40, [], .cvt ⟨true, 3⟩ ⟨300, 301, 10, true, false, false, .i64, 1, true, false, 6, 4⟩),
    (0x206e5b30044da000, [], .cvtf8 ⟨true, 3⟩ ⟨301, 304, 8, true, false, false, .e5m2, 2, true, false, 0, 0⟩),
    (0x20ae5b2e01c96000, [], .bxpack ⟨true, 3⟩ ⟨301, 302, 3, true, false, false, .b16, 1, true, false, 0, 0⟩),
    (0x20ee5b2e00c8e000, [], .bxunpack ⟨true, 3⟩ ⟨301, 302, 1, true, false, false, .f16, 3, true, false, 0, 0⟩),
    (0x212e592e04d70000, [], .shfl ⟨true, 3⟩ ⟨300, 302, 9, true, false, true, .n64, 0, false, false, 0, 0⟩),
    (0x216e5b2f004aa000, [], .red ⟨true, 3⟩ ⟨301, 303, 0, true, false, false, .f32, 2, true, false, 0, 0⟩),
    (0x21ae5b2f02c50000, [], .scan ⟨true, 3⟩ ⟨301, 303, 5, true, false, false, .n16, 0, false, false, 0, 0⟩),
    (0x21ee5b2e00470000, [], .match_ ⟨true, 3⟩ ⟨301, 302, 0, true, false, false, .n64, 0, false, false, 0, 0⟩),
    (0x222c0c0000060000, [], .elect ⟨true, 3⟩ ⟨6, 0, 0, false, false, false, .n32, 0, false, false, 0, 0⟩),
    (0x226e5a0501860000, [], .vote ⟨true, 3⟩ ⟨301, 5, 3, false, false, false, .n32, 0, false, false, 0, 0⟩),
    (0x22ad912e00430000, [], .rfal ⟨true, 3⟩ ⟨200, 302, 0, true, false, false, .i64, 0, false, false, 0, 0⟩),
    (0x22ed912e64b70000, [], .rdlane ⟨true, 3⟩ ⟨200, 302, 201, false, true, true, .n64, 0, false, false, 0, 0⟩),
    (0x232e5cc864d30000, [], .wrlane ⟨true, 3⟩ ⟨302, 200, 201, true, false, true, .i64, 0, false, false, 0, 0⟩),
    (0x236e5b2e97a60000, [], .permx ⟨true, 3⟩ ⟨301, 302, 303, false, true, false, .n32, 0, false, false, 0, 0⟩)] : List (W64 × List W64 × Instr)).all reads = true := by decide

/-- Class 011 of R231, words written out field by field (R207-R220). -/
theorem test_decode_memory : ([
    (0x302c100a7fb34860, [], .ld ⟨true, 3⟩ ⟨8, 10, false, -3, 4, true, 5, 33, true, 0, 0⟩),
    (0x306c100a7fb34860, [], .st ⟨true, 3⟩ ⟨8, 10, false, -3, 4, true, 5, 33, true, 0, 0⟩),
    (0x30ac12c9bfe82020, [], .ldl ⟨true, 3⟩ ⟨9, 201, true, 511, 2, false, 0, 128, true, 0, 0⟩),
    (0x30ec12c9bfe82020, [], .stl ⟨true, 3⟩ ⟨9, 201, true, 511, 2, false, 0, 128, true, 0, 0⟩),
    (0x312d90c9c00fc015, [], .ldu ⟨true, 3⟩ ⟨200, 201, true, -512, 3, true, 7, 0, false, 5, 1⟩),
    (0x316d90c980a40012, [], .stu ⟨true, 3⟩ ⟨200, 201, true, 5, 1, false, 0, 0, false, 4, 2⟩),
    (0x31ac100a7faf486d, [], .ldx ⟨true, 3⟩ ⟨8, 10, false, -3, 3, true, 5, 33, true, 3, 1⟩),
    (0x31ec100a7fab4866, [], .stx ⟨true, 3⟩ ⟨8, 10, false, -3, 2, true, 5, 33, true, 1, 2⟩),
    (0x322c000a00e000e0, [], .pref ⟨true, 3⟩ ⟨0, 10, false, 7, 0, false, 0, 3, true, 0, 0⟩),
    (0x326c000000003c00, [], .invl1 ⟨true, 3⟩ ⟨0, 0, false, 0, 0, false, 0, 240, false, 0, 0⟩),
    (0x32ac000000003fc0, [], .waitk ⟨true, 3⟩ ⟨0, 0, false, 0, 0, false, 0, 255, false, 0, 0⟩),
    (0x32ec000000000057, [], .fence ⟨true, 3⟩ ⟨0, 0, false, 0, 0, false, 0, 1, false, 5, 3⟩),
    (0x332c0a0200000090, [], .fencex ⟨true, 3⟩ ⟨5, 2, false, 0, 0, false, 0, 2, false, 4, 0⟩),
    (0x336c100a7fb34860, [], .ost ⟨true, 3⟩ ⟨8, 10, false, -3, 4, true, 5, 33, true, 0, 0⟩),
    (0x33ac100a7faf4860, [], .ald ⟨true, 3⟩ ⟨8, 10, false, -3, 3, true, 5, 33, true, 0, 0⟩)] : List (W64 × List W64 × Instr)).all reads = true := by decide

/-- Class 100 of R231, words written out field by field (R207-R220). -/
theorem test_decode_atomic_barrier : ([
    (0x402c100a032b50b7, [], .atom ⟨true, 3⟩ ⟨8, 10, false, 12, true, 2, 13, 66, true, 5, 3⟩),
    (0x406c12c9ac2ac46a, [], .atomr ⟨true, 3⟩ ⟨9, 201, true, 5, 33, 2, true, 3, 17, true, 2, 2⟩),
    (0x40ac100a030c0051, [], .cas ⟨true, 3⟩ ⟨8, 10, false, 12, false, 3, 0, 1, false, 4, 1⟩),
    (0x40ec20c8800e8013, [], .dcas ⟨true, 3⟩ ⟨16, 200, true, 0, 3, true, 2, 0, false, 4, 3⟩),
    (0x412c120c0008000d, [], .amov ⟨true, 3⟩ ⟨9, 12, false, 0, 2, false, 0, 0, false, 3, 1⟩),
    (0x416c100a7faf4860, [], .datom ⟨true, 3⟩ ⟨8, 10, false, -3, 3, true, 5, 33, true, 0, 0⟩),
    (0x41ac0000000012f8, [], .bar ⟨true, 3⟩ ⟨0, 0, false, .i8, 607⟩),
    (0x41ec0000000001c8, [], .barspec ⟨true, 3⟩ ⟨0, 0, false, .i8, 57⟩),
    (0x422d90c9ffec0126, [], .mbara ⟨true, 3⟩ ⟨200, 201, true, -1, 3, false, 0, 4, true, 1, 2⟩),
    (0x426d90c9802c0015, [], .mbarw ⟨true, 3⟩ ⟨200, 201, true, 1, 3, false, 0, 0, false, 5, 1⟩),
    (0x42adfe0000070000, [], .fempty ⟨true, 3⟩ ⟨255, 0, 0, false, false, false, .n64, 0, false, false, 0, 0⟩),
    (0x42edfefe00470000, [], .fefill ⟨true, 3⟩ ⟨255, 254, 0, true, false, false, .n64, 0, false, false, 0, 0⟩)] : List (W64 × List W64 × Instr)).all reads = true := by decide

/-- Class 101 of R231, words written out field by field (R207-R220). -/
theorem test_decode_uniform_control : ([
    (0x502d90c965212000, [], .sadd ⟨true, 3⟩ ⟨200, 201, 202, false, true, false, .i16, 0, true, false, 0, 0⟩),
    (0x506d90c965212000, [], .ssub ⟨true, 3⟩ ⟨200, 201, 202, false, true, false, .i16, 0, true, false, 0, 0⟩),
    (0x50ad90c965212000, [], .smul ⟨true, 3⟩ ⟨200, 201, 202, false, true, false, .i16, 0, true, false, 0, 0⟩),
    (0x50ed90c965230000, [], .smulh ⟨true, 3⟩ ⟨200, 201, 202, false, true, false, .i64, 0, false, false, 0, 0⟩),
    (0x512d90c965212000, [], .sdiv ⟨true, 3⟩ ⟨200, 201, 202, false, true, false, .i16, 0, true, false, 0, 0⟩),
    (0x516d90c965240000, [], .sand ⟨true, 3⟩ ⟨200, 201, 202, false, true, false, .n8, 0, false, false, 0, 0⟩),
    (0x51ad90c965240000, [], .sor ⟨true, 3⟩ ⟨200, 201, 202, false, true, false, .n8, 0, false, false, 0, 0⟩),
    (0x51ed90c965240000, [], .sxor ⟨true, 3⟩ ⟨200, 201, 202, false, true, false, .n8, 0, false, false, 0, 0⟩),
    (0x522d90c900450000, [], .snot ⟨true, 3⟩ ⟨200, 201, 0, true, false, false, .n16, 0, false, false, 0, 0⟩),
    (0x526d90c965240000, [], .sshl ⟨true, 3⟩ ⟨200, 201, 202, false, true, false, .n8, 0, false, false, 0, 0⟩),
    (0x52ad90c965240000, [], .sshr ⟨true, 3⟩ ⟨200, 201, 202, false, true, false, .n8, 0, false, false, 0, 0⟩),
    (0x52ed90c965240000, [], .ssar ⟨true, 3⟩ ⟨200, 201, 202, false, true, false, .n8, 0, false, false, 0, 0⟩),
    (0x532d90c965240000, [], .smin ⟨true, 3⟩ ⟨200, 201, 202, false, true, false, .n8, 0, false, false, 0, 0⟩),
    (0x536d90c965240000, [], .smax ⟨true, 3⟩ ⟨200, 201, 202, false, true, false, .n8, 0, false, false, 0, 0⟩),
    (0x53ad90c96500d400, [], .ssel ⟨true, 3⟩ ⟨200, 201, 202, 3, false, true, false, .f16, 0, false, false⟩),
    (0x53ec06c9654bc000, [], .scmp ⟨true, 3⟩ ⟨3, 201, 202, true, false, false, .f64, 3, false, false, 0, 0⟩),
    (0x542d90c900450000, [], .smov ⟨true, 3⟩ ⟨200, 201, 0, true, false, false, .n16, 0, false, false, 0, 0⟩),
    (0x546dfe0007fffff8, [], .smovi ⟨true, 3⟩ ⟨255, 0, false, .i8, 16777215⟩),
    (0x54ad90c9bc000008, [], .smovhi ⟨true, 3⟩ ⟨200, 201, true, .n64, 8388609⟩),
    (0x54ed90c900450000, [], .spopc ⟨true, 3⟩ ⟨200, 201, 0, true, false, false, .n16, 0, false, false, 0, 0⟩)] : List (W64 × List W64 × Instr)).all reads = true := by decide

/-- Class 101 of R231, words written out field by field (R207-R220). -/
theorem test_decode_uniform_control_2 : ([
    (0x552d90c900450000, [], .sclz ⟨true, 3⟩ ⟨200, 201, 0, true, false, false, .n16, 0, false, false, 0, 0⟩),
    (0x556d90c9652b6000, [], .sfadd ⟨true, 3⟩ ⟨200, 201, 202, false, true, false, .f64, 1, true, false, 0, 0⟩),
    (0x55ad90c9652b6000, [], .sfmul ⟨true, 3⟩ ⟨200, 201, 202, false, true, false, .f64, 1, true, false, 0, 0⟩),
    (0x55ed90c96532fdf0, [], .sfma ⟨true, 3⟩ ⟨200, 201, 202, 203, true, true, true, .f64, 3, true, false⟩),
    (0x562d90c905c66000, [], .scvt ⟨true, 3⟩ ⟨200, 201, 11, true, false, false, .n32, 1, true, false, 0, 0⟩),
    (0x566e000000000000, [], .bra ⟨true, 3⟩ ⟨-33554432, 0, 0, false, 0, false, 0⟩),
    (0x56adffffff007000, [], .brc ⟨true, 3⟩ ⟨33554431, 0, 3, true, 0, false, 0⟩),
    (0x56efffffff000d00, [], .brv ⟨true, 3⟩ ⟨-1, 0, 0, false, 6, true, 0⟩),
    (0x572c0000099680ff, [], .brx ⟨true, 3⟩ ⟨9, 301, 0, false, 0, false, 255⟩),
    (0x576c000007970000, [], .call ⟨true, 3⟩ ⟨7, 302, 0, false, 0, false, 0⟩),
    (0x57ac000000970000, [], .ret ⟨true, 3⟩ ⟨0, 302, 0, false, 0, false, 0⟩),
    (0x57dc000000000000, [], .join ⟨false, 7⟩ ⟨0, 0, 0, false, 0, false, 0⟩),
    (0x582c000000000000, [], .exit ⟨true, 3⟩ ⟨0, 0, 0, false, 0, false, 0⟩),
    (0x586c000000000000, [], .nop ⟨true, 3⟩ ⟨0, 0, 0, false, 0, false, 0⟩),
    (0x58ac000000000000, [], .yield ⟨true, 3⟩ ⟨0, 0, 0, false, 0, false, 0⟩),
    (0x58dc000000000000, [], .region ⟨false, 7⟩ ⟨0, 0, 0, false, 0, false, 0⟩),
    (0x592c00c834000000, [], .setfmt ⟨true, 3⟩ ⟨0, 200, false, .n32, 8388608⟩),
    (0x596d900000060000, [], .getfmt ⟨true, 3⟩ ⟨200, 0, 0, false, false, false, .n32, 0, false, false, 0, 0⟩),
    (0x59ae580030000008, [], .getsr ⟨true, 3⟩ ⟨300, 0, false, .n32, 1⟩),
    (0x59ec00c864e70000, [], .plog ⟨true, 3⟩ ⟨0, 200, 201, true, true, false, .n64, 0, false, false, 0, 0⟩)] : List (W64 × List W64 × Instr)).all reads = true := by decide

/-- Class 110 of R231, words written out field by field (R207-R220). -/
theorem test_decode_copy_stage_combine : ([
    (0x602c0605b1b3a060, [0x2200000011, 0x4400000033, 0x6600000055, 0x7fffffff80000007], .tcopy ⟨true, 3⟩ ⟨3, 5, 1, 2, 0, true, 5, 4, true, 6, 129, true, 0x11, 0x22, 0x33, 0x44, 0x55, 0x66, 0x80000007, 0x7fffffff⟩),
    (0x606c0605b1b3a060, [0x2200000011, 0x4400000033, 0x6600000055, 0x7fffffff80000007], .tgather ⟨true, 3⟩ ⟨3, 5, 1, 2, 0, true, 5, 4, true, 6, 129, true, 0x11, 0x22, 0x33, 0x44, 0x55, 0x66, 0x80000007, 0x7fffffff⟩),
    (0x60ac0605b1b3a060, [0x2200000011, 0x4400000033, 0x6600000055, 0x7fffffff80000007], .tscatter ⟨true, 3⟩ ⟨3, 5, 1, 2, 0, true, 5, 4, true, 6, 129, true, 0x11, 0x22, 0x33, 0x44, 0x55, 0x66, 0x80000007, 0x7fffffff⟩),
    (0x60ec0605b1b3a060, [0x2200000011, 0x4400000033, 0x6600000055, 0x7fffffff80000007], .tfill ⟨true, 3⟩ ⟨3, 5, 1, 2, 0, true, 5, 4, true, 6, 129, true, 0x11, 0x22, 0x33, 0x44, 0x55, 0x66, 0x80000007, 0x7fffffff⟩),
    (0x612c000000000528, [], .cwait ⟨true, 3⟩ ⟨0, 0, false, .i8, 165⟩),
    (0x616d900000070000, [], .cpoll ⟨true, 3⟩ ⟨200, 0, 0, false, false, false, .n64, 0, false, false, 0, 0⟩),
    (0x61ac000000000018, [], .stginit ⟨true, 3⟩ ⟨0, 0, false, .i8, 3⟩),
    (0x61ec0000000000f8, [], .stgfill ⟨true, 3⟩ ⟨0, 0, false, .i8, 31⟩),
    (0x622d90c93fc70000, [], .stgwait ⟨true, 3⟩ ⟨200, 201, 127, true, false, false, .n64, 0, false, false, 0, 0⟩),
    (0x626c00c884000010, [], .stgfree ⟨true, 3⟩ ⟨0, 200, true, .i8, 8388610⟩),
    (0x62ad90000f870000, [], .stgqry ⟨true, 3⟩ ⟨200, 0, 31, false, false, false, .n64, 0, false, false, 0, 0⟩),
    (0x62ed90c96547e000, [], .calloc ⟨true, 3⟩ ⟨200, 201, 202, true, false, false, .n64, 3, true, false, 0, 0⟩),
    (0x632c00c965270000, [], .cgate ⟨true, 3⟩ ⟨0, 201, 202, false, true, false, .n64, 0, false, false, 0, 0⟩),
    (0x636c10c9800c0260, [], .cpost ⟨true, 3⟩ ⟨8, 201, true, 0, 3, false, 0, 9, true, 0, 0⟩),
    (0x63ad90c900470000, [], .cqry ⟨true, 3⟩ ⟨200, 201, 0, true, false, false, .n64, 0, false, false, 0, 0⟩)] : List (W64 × List W64 × Instr)).all reads = true := by decide

/-- Class 111 of R231, words written out field by field (R207-R220). -/
theorem test_decode_matrix_event_system : ([
    (0x702c060006005038, [], .mclaim ⟨true, 3⟩ ⟨3, 0, false, .i8, 12585479⟩),
    (0x706c000000000408, [], .mrel ⟨true, 3⟩ ⟨0, 0, false, .i8, 129⟩),
    (0x70ae580202803420, [], .mma ⟨true, 3⟩ ⟨300, 2, 5, false, false, false, .i8, 0, true, 2, 33⟩),
    (0x70ec000004009028, [], .mzero ⟨true, 3⟩ ⟨0, 0, false, .i8, 8393221⟩),
    (0x712df0c980025020, [], .mdrain ⟨true, 3⟩ ⟨248, 201, true, 0, 0, true, 1, 64, true, 0, 0⟩),
    (0x716c000000000010, [], .mwait ⟨true, 3⟩ ⟨0, 0, false, .i8, 2⟩),
    (0x71ac0e0064b00000, [], .mscale ⟨true, 3⟩ ⟨7, 0, 201, false, true, true, .i8, 0, false, false, 0, 0⟩),
    (0x71edf8c980030016, [], .emit ⟨true, 3⟩ ⟨252, 201, true, 0, 0, true, 4, 0, false, 5, 2⟩),
    (0x722df8c900470000, [], .evrd ⟨true, 3⟩ ⟨252, 201, 0, true, false, false, .n64, 0, false, false, 0, 0⟩),
    (0x726c08c900070000, [], .evwait ⟨true, 3⟩ ⟨4, 201, 0, false, false, false, .n64, 0, false, false, 0, 0⟩),
    (0x72ad90c98002c160, [], .aload ⟨true, 3⟩ ⟨200, 201, true, 0, 0, true, 3, 5, true, 0, 0⟩),
    (0x72ec000000001ff8, [], .aarm ⟨true, 3⟩ ⟨0, 0, false, .i8, 1023⟩),
    (0x732c00c884000000, [], .adisarm ⟨true, 3⟩ ⟨0, 200, true, .i8, 8388608⟩),
    (0x736d90ca80000140, [], .asave ⟨true, 3⟩ ⟨200, 202, true, 0, 0, false, 0, 5, false, 0, 0⟩),
    (0x73ac140c64f70000, [], .syscall ⟨true, 3⟩ ⟨10, 12, 201, true, true, true, .n64, 0, false, false, 0, 0⟩),
    (0x73ec000000000150, [], .trap ⟨true, 3⟩ ⟨0, 0, false, .i8, 42⟩),
    (0x742c00000007fff8, [], .brkpt ⟨true, 3⟩ ⟨0, 0, false, .i8, 65535⟩),
    (0x746d900000070000, [], .rdcyc ⟨true, 3⟩ ⟨200, 0, 0, false, false, false, .n64, 0, false, false, 0, 0⟩),
    (0x74ad90c98002c000, [], .vdsub ⟨true, 3⟩ ⟨200, 201, true, 0, 0, true, 3, 0, false, 0, 0⟩),
    (0x74ed90c980000060, [], .bqput ⟨true, 3⟩ ⟨200, 201, true, 0, 0, false, 0, 1, true, 0, 0⟩)] : List (W64 × List W64 × Instr)).all reads = true := by decide

/-- Class 111 of R231, words written out field by field (R207-R220). -/
theorem test_decode_matrix_event_system_2 : ([
    (0x752d90c980000000, [], .bqget ⟨true, 3⟩ ⟨200, 201, true, 0, 0, false, 0, 0, false, 0, 0⟩)] : List (W64 × List W64 × Instr)).all reads = true := by decide

/-- Pair words of each opcode of R228, written out by R224. -/
theorem test_decode_pairs : ([
    (0x8752e64180000000, [], .pairNop ⟨0, 0, 0, 0, false⟩ ⟨.and_, ⟨2, 302, 200, 1, true⟩⟩),
    (0x8852e641836592d0, [], .pairMov ⟨5, 300, 301, 0, false⟩ ⟨.or_, ⟨2, 302, 200, 1, true⟩⟩),
    (0x8952e641856592d0, [], .pairIadd ⟨5, 300, 301, 0, false⟩ ⟨.xor_, ⟨2, 302, 200, 1, true⟩⟩),
    (0x8a52e641876592d2, [], .pairIsub ⟨5, 300, 301, 1, false⟩ ⟨.andn, ⟨2, 302, 200, 1, true⟩⟩),
    (0x8b52e641896592d0, [], .pairImul ⟨5, 300, 301, 0, false⟩ ⟨.shl, ⟨2, 302, 200, 1, true⟩⟩),
    (0x8c52e6418b6592d0, [], .pairImin ⟨5, 300, 301, 0, false⟩ ⟨.shr, ⟨2, 302, 200, 1, true⟩⟩),
    (0x8d52e6408d6592d2, [], .pairImax ⟨5, 300, 301, 1, false⟩ ⟨.sar, ⟨2, 302, 200, 0, true⟩⟩),
    (0x8e52e6418f6592d2, [], .pairAnd ⟨5, 300, 301, 1, false⟩ ⟨.not_, ⟨2, 302, 200, 1, true⟩⟩),
    (0x8f52e640916592d2, [], .pairOr ⟨5, 300, 301, 1, false⟩ ⟨.ineg, ⟨2, 302, 200, 0, true⟩⟩),
    (0x9052e642936592d2, [], .pairXor ⟨5, 300, 301, 1, false⟩ ⟨.fadd, ⟨2, 302, 200, 2, true⟩⟩),
    (0x9152e643956592d2, [], .pairAndn ⟨5, 300, 301, 1, false⟩ ⟨.fsub, ⟨2, 302, 200, 3, true⟩⟩),
    (0x9252e644976592d2, [], .pairShl ⟨5, 300, 301, 1, false⟩ ⟨.fmul, ⟨2, 302, 200, 4, true⟩⟩),
    (0x9352e642996592d2, [], .pairShr ⟨5, 300, 301, 1, false⟩ ⟨.fmin, ⟨2, 302, 200, 2, true⟩⟩)] : List (W64 × List W64 × Instr)).all reads = true := by decide

/-- Pair words of each opcode of R228, written out by R224. -/
theorem test_decode_pairs_2 : ([
    (0x9452e6429b6592d0, [], .pairSar ⟨5, 300, 301, 0, false⟩ ⟨.fmax, ⟨2, 302, 200, 2, true⟩⟩),
    (0x9552e6439d6592d2, [], .pairNot ⟨5, 300, 301, 1, false⟩ ⟨.fminnum, ⟨2, 302, 200, 3, true⟩⟩),
    (0x9652e6449f6592d0, [], .pairIneg ⟨5, 300, 301, 0, false⟩ ⟨.fmaxnum, ⟨2, 302, 200, 4, true⟩⟩),
    (0x9752e642a16592d4, [], .pairFadd ⟨5, 300, 301, 2, false⟩ ⟨.fabs, ⟨2, 302, 200, 2, true⟩⟩),
    (0x9852e643a36592d6, [], .pairFsub ⟨5, 300, 301, 3, false⟩ ⟨.fneg, ⟨2, 302, 200, 3, true⟩⟩),
    (0x9952e644a56592d8, [], .pairFmul ⟨5, 300, 301, 4, false⟩ ⟨.fcopysign, ⟨2, 302, 200, 4, true⟩⟩),
    (0x80000000276592d4, [], .pairFmin ⟨5, 300, 301, 2, false⟩ ⟨.nop, ⟨0, 0, 0, 0, false⟩⟩),
    (0x8152e640a96592d4, [], .pairFmax ⟨5, 300, 301, 2, false⟩ ⟨.mov, ⟨2, 302, 200, 0, true⟩⟩),
    (0x8252e640ab6592d6, [], .pairFminnum ⟨5, 300, 301, 3, false⟩ ⟨.iadd, ⟨2, 302, 200, 0, true⟩⟩),
    (0x8352e641ad6592d8, [], .pairFmaxnum ⟨5, 300, 301, 4, false⟩ ⟨.isub, ⟨2, 302, 200, 1, true⟩⟩),
    (0x8452e640af6592d4, [], .pairFabs ⟨5, 300, 301, 2, false⟩ ⟨.imul, ⟨2, 302, 200, 0, true⟩⟩),
    (0x8552e640b16592d6, [], .pairFneg ⟨5, 300, 301, 3, false⟩ ⟨.imin, ⟨2, 302, 200, 0, true⟩⟩),
    (0x8652e641b36592d8, [], .pairFcopysign ⟨5, 300, 301, 4, false⟩ ⟨.imax, ⟨2, 302, 200, 1, true⟩⟩)] : List (W64 × List W64 × Instr)).all reads = true := by decide
/-! ### A small device to issue on -/

/-- A writable data page at 8192, and the attributes of ordinary memory. -/
def dataPage : TlbEntry := { loadPage with
  va := 8192
  pa := 8192
  w := true
  x := false }

/-- The group of the tests: 512 vector registers, a window of 4096 bytes at the start of the
slice, one stage ring of two stages, given uniform registers. -/
def tuned (us : SMap W64) (g : Group) : Group := { g with
  tmpl := { g.tmpl with
    vwarps := 0
    vregs := 511
    sramsz := 4096
    nrings := 2
    rings := [1, 0] }
  sbase := sliceBase 0
  rings := [[⟨3, 1⟩, ⟨0, 0⟩], [⟨0, 0⟩]]
  sregs := us }

/-- The warp of the tests: given vector registers and predicates. -/
def dressed (vs : SMap (List W32)) (ps : List W32) (y : Warp) : Warp := { y with
  vregs := vs
  preds := ps }

/-- Die 0, which leads; core 0 with one group, role `wid` of it next to issue at 4096: vector warp 0, copy warp 32 or the matrix thread 64. -/
def dev (wid : Nat) (us : SMap W64) (vs : SMap (List W32)) (ps : List W32) : State :=
  let s := loadWords State.reset 0
  let s := modCore s 0 (fun k => { k with tlb := [loadPage, dataPage] })
  let s := modWarp (modGroup s 0 0 (tuned us)) 0 0 wid (dressed vs ps)
  let s := modDie s 0 (fun d => { d with leads := true })
  { s with
    schedule := []
    cur := { core := 0, gslot := 0, wid := wid, slot := 0 } }

/-- Every lane of a register holding one value. -/
def every (v : W32) : List W32 := List.replicate 32 v
/-- A register that holds each lane's number. -/
def iota : List W32 := (List.range 32).map (BitVec.ofNat 32)

/-- Lane `l` of vector register `r` after an instruction. -/
def vAfter (o : Out) (r l : Nat) : Option W32 :=
  match o with
  | .next t => (warpAt t 0 0 0).map (fun y => vreg y r l)
  | _ => none
/-- A predicate after an instruction. -/
def pAfter (o : Out) (p : Nat) : Option W32 :=
  match o with
  | .next t => (warpAt t 0 0 0).map (fun y => predOf y p)
  | _ => none
/-- A uniform register after an instruction. -/
def uAfter (o : Out) (r : Nat) : Option W64 :=
  match o with
  | .next t => (groupAt t 0 0).map (fun g => sreg g r)
  | _ => none
/-- The splits of vector warp 0 after an instruction: their PCs and masks by slot, then those of its wait list. -/
def splitsAfter (o : Out) : Option (List (Option (Nat × W32)) × List (Nat × W32)) :=
  match o with
  | .next t => (warpAt t 0 0 0).map (fun y => (y.splits.map (fun q => q.map (fun x => (x.pc.toNat, x.mask))),
      y.wlist.map (fun e => (e.sp.pc.toNat, e.sp.mask))))
  | _ => none
/-- How vector warp 0 runs after an instruction. -/
def causeAfter (o : Out) : Option Cause :=
  match o with
  | .next t => match (warpAt t 0 0 0).map (fun y => y.run) with
    | some (RunState.trapped r _ _) => some r.cause
    | _ => none
  | _ => none

/-- Vector warp 0 with given vector registers. -/
def vdev (vs : SMap (List W32)) : State := dev 0 [] vs [0, 0, 0, 0, 0, 0, 0]
/-- Vector warp 0 with given uniform registers. -/
def udev (us : SMap W64) : State := dev 0 us [] [0, 0, 0, 0, 0, 0, 0]

/-- The context with a trap log that takes every cause (R427). -/
def handled (s : State) : State := modCtx s 0 (fun c => { c with
  tlog := some ⟨0x10000, 64, 0, 0, 0, []⟩
  tmask := 2 ^ 32 - 1 })

/-! ### Single instructions, with the spec's own results -/

/-- R279's example: IREM.I32 of -7 and 2 is -1, of -7 and 0 is -7. -/
theorem test_irem : vAfter (exec (.irem noG (fa .i32)) (vdev [(4, every (-7)), (6, every 2)])) 2 31 = some (-1) ∧
    vAfter (exec (.irem noG (fa .i32)) (vdev [(4, every (-7))])) 2 0 = some (-7) := by decide

/-- R279's rule on its corners: by 0 all ones, the least value by -1 itself, saturated the greatest. -/
theorem test_idiv : vAfter (exec (.idiv noG (fa .i32)) (vdev [(4, every 7)])) 2 0 = some 0xFFFFFFFF ∧
    vAfter (exec (.idiv noG (fa .i32)) (vdev [(4, every 0x80000000), (6, every (-1))])) 2 5 = some 0x80000000 ∧
    vAfter (exec (.idiv noG { fa .i32 with sat := true }) (vdev [(4, every 0x80000000), (6, every (-1))])) 2 5 = some 0x7FFFFFFF := by
  decide

/-- R257's example: SDIV.I32 of -7 and 2 is -3, extended; by 0 it is -1, and under N32 the same bits are zero-extended. -/
theorem test_sdiv : uAfter (exec (.sdiv noG (fa .i32)) (udev [(4, -7), (6, 2)])) 2 = some 0xFFFFFFFFFFFFFFFD ∧
    uAfter (exec (.sdiv noG (fa .i32)) (udev [(4, -7)])) 2 = some 0xFFFFFFFFFFFFFFFF ∧
    uAfter (exec (.sdiv noG (fa .n32)) (udev [(4, -7)])) 2 = some 0x00000000FFFFFFFF := by decide

/-- R260's example: the last SMOVHI of the three instructions. -/
theorem test_smovhi : uAfter (exec (.smovhi noG ⟨2, 2, false, .n64, 0xABCDEF⟩) (udev [(2, 0x0000000123456789)])) 2 =
    some 0x0123456789ABCDEF := by decide

/-- R283's example: MOVHI after MOVI. -/
theorem test_movhi : vAfter (exec (.movhi noG ⟨4, 4, false, .n32, 0x345678⟩) (vdev [(4, every 0x12)])) 4 9 = some 0x12345678 := by
  decide

/-- R284's example: LEA.N32 v4, v6, s3, 1. -/
theorem test_lea :
    let s := dev 0 [(3, 5)] [(6, every 0x00001000), (7, every 0x00000040)] []
    let o := exec (.lea noG ⟨4, 6, 3, 1, false, false, false, .n32, 0, false, true⟩) s
    vAfter o 4 0 = some 0x0000100A ∧ vAfter o 5 0 = some 0x00000040 := by decide

/-- R223's example: with PERM8 entry 17 lane 13 reads lane 8. -/
theorem test_mov_perm8 : vAfter (exec (.mov noG { fb1 .i32 with
    lmt := true
    lmk := 3
    lmp := 17 }) (vdev [(6, iota)])) 2 13 = some 8 := by decide

/-- R280: a carry into and out of IADDC.N32. -/
theorem test_iaddc : let o := exec (.iaddc noG { fa .n32 with rnd := 1 }) (dev 0 [] [(4, every 0xFFFFFFFF), (6, every 0)] [0, 2, 0, 0, 0, 0, 0])
    vAfter o 2 0 = some 0xFFFFFFFF ∧ vAfter o 2 1 = some 0 ∧ pAfter o 1 = some 2 := by decide

/-- R281 by hand: BFE.I32 of 4 bits at 4 of 0xC5 is -4; BFI of 0xF at 8, 8 bits long. -/
theorem test_bit_fields :
    vAfter (exec (.bfe noG (fb .i32)) (vdev [(4, every 0xC5), (6, every 4), (8, every 4)])) 2 0 = some (-4) ∧
    vAfter (exec (.bfi noG (fb .n32)) (vdev [(4, every 0xFFFFFFFF), (6, every 0xF), (8, every 0x808)])) 2 0 = some 0xFFFF0FFF := by decide

/-- R46's examples: CVT.I32.F32 toward zero of 3.0e9 and of -2.7. -/
theorem test_cvt_i32 : vAfter (exec (.cvt noG { fa .i32 with
      srcb := 10
      rnd := 1 }) (vdev [(4, every 0x4F32D05E)])) 2 0 = some 0x80000000 ∧
    vAfter (exec (.cvt noG { fa .i32 with
      srcb := 10
      rnd := 1 }) (vdev [(4, every 0xC02CCCCD)])) 2 0 = some 0xFFFFFFFE := by decide

/-- R46's and R45's examples: CVT.N8.F32 with SAT of -0.4 and of 300.0; N16 65,535 to F16 without and with SAT. -/
theorem test_cvt_narrow : vAfter (exec (.cvt noG { fa .n8 with
      srcb := 10
      sat := true }) (vdev [(4, 0xBECCCCCD :: 0x43960000 :: every 0)])) 2 0 = some 0 ∧
    vAfter (exec (.cvt noG { fa .n8 with
      srcb := 10
      sat := true }) (vdev [(4, 0xBECCCCCD :: 0x43960000 :: every 0)])) 2 1 = some 255 ∧
    vAfter (exec (.cvt noG { fa .f16 with srcb := 5 }) (vdev [(4, every 65535)])) 2 0 = some 0x7C00 ∧
    vAfter (exec (.cvt noG { fa .f16 with
      srcb := 5
      sat := true }) (vdev [(4, every 65535)])) 2 0 = some 0x7BFF := by decide

/-- The worked BX4 block: 5.0, -1.3, 0.6, 0.2, -3.0, 2.9, -0.0, NaN and zeros give the codes 5, 9, 1, 0, E, 6, 0, 8 under the scale
0x82 and the micro-exponents 0xFE. -/
theorem test_bxpack :
    let f := { fa .f32 with
      srcb := 2
      sat := true }
    let o := exec (.bxpack noG f) (vdev [(4, [0x40A00000, 0xBFA66666, 0x3F19999A, 0x3E4CCCCD, 0xC0400000, 0x4039999A, 0x80000000, 0x7FC00000] ++
        List.replicate 24 0)])
    (List.range 9).map (fun l => vAfter o 2 l) = [some 0xFE820005, some 0xFE820009, some 0xFE820001, some 0xFE820000, some 0xFE82000E,
      some 0xFE820006, some 0xFE820000, some 0xFE820008, some 0xFE820000] := by decide

/-- The same block read back: 5.0, -1.0, 0.5, 0.0, -3.0, 3.0, 0.0. -/
theorem test_bxunpack :
    let f := { fa .f32 with srcb := 2 }
    let o := exec (.bxunpack noG f) (vdev [(4, [0xFE820005, 0xFE820009, 0xFE820001, 0xFE820000,
      0xFE82000E, 0xFE820006, 0xFE820000, 0xFE820008] ++ List.replicate 24 0xFE820000)])
    (List.range 7).map (fun l => vAfter o 2 l) = [some 0x40A00000, some 0xBF800000, some 0x3F000000, some 0, some 0xC0400000, some 0x40400000,
      some 0] := by decide

/-- R261, R264's example: BRX over a table at 0x5000; slot 2 holds a split at 0x900, the targets take slots 0, 1 and 3 and the wait
list. -/
theorem test_brx : let tbl : List (BitVec 64) := [-0x3E00, -0x3F00, -0x3D00, -0x3C00]
    let s := dev 0 [] [(6, (List.range 32).map (fun l => BitVec.ofNat 32 (l / 8)))] []
    let s := modCore s 0 (fun k => { k with tlb := [{ loadPage with
      va := 0x5000
      pa := 0x5000 }] })
    let s := modWarp { s with mem := memSetBytes [] 0x5000 (tbl.flatMap (fun v => bytesLE 8 v.toNat)) } 0 0 0 (fun y => { y with
      splits := [some ⟨0x1000, 0xFFFFFFFF, 0, 0, 0, .none, none, [], .none, false⟩, none, some ⟨0x900, 0, 0, 0, 0, .join, none, [], .none, false⟩, none] })
    let s := modSplit s { core := 0, gslot := 0, wid := 0, slot := 2 } (fun q => { q with mask := 1 })
    splitsAfter (exec (.brx noG { fj with
      off := 0x7FF
      reg := 6
      len := 3 }) s) = some ([some (0x1100, 0xFF00), some (0x1200, 0xFF), some (0x900, 1), some (0x1300, 0xFF0000)], [(0x1400, 0xFF000000)]) := by
  decide

/-- R264: a lane whose index is above LEN traps BOUNDS. -/
theorem test_brx_bounds : causeAfter (exec (.brx noG { fj with
    reg := 6
    len := 3 }) (handled (vdev [(6, (List.range 32).map (fun l => if l = 9 then 4 else 0))]))) = some .bounds := by decide

/-- R261: BRA by a guard of lanes 0 to 3 leaves the others at the next word, in the lowest free slot. -/
theorem test_bra : splitsAfter (exec (.bra ⟨false, 0⟩ { fj with off := -3 }) (dev 0 [] [] [0xF, 0, 0, 0, 0, 0, 0])) =
    some ([some (4096 + 8 - 24, 0xF), some (4104, 0xFFFFFFF0), none, none], []) := by decide

/-- R254, R27: SADD.I32 saturated. -/
theorem test_sadd : uAfter (exec (.sadd noG { fa .i32 with sat := true }) (udev [(4, 0x7FFFFFFF), (6, 1)])) 2 = some 0x7FFFFFFF ∧
    uAfter (exec (.sadd noG (fa .i32)) (udev [(4, 0x7FFFFFFF), (6, 1)])) 2 = some 0xFFFFFFFF80000000 := by decide

/-- R32: 1.0 + 2^-24 in F32 to nearest even and upward. -/
theorem test_fadd : vAfter (exec (.fadd noG (fa .f32)) (vdev [(4, every 0x3F800000), (6, every 0x33800000)])) 2 0 = some 0x3F800000 ∧
    vAfter (exec (.fadd noG { fa .f32 with rnd := 3 }) (vdev [(4, every 0x3F800000), (6, every 0x33800000)])) 2 0 = some 0x3F800001 := by
  decide

/-- R297 by hand: SHFL from the next lane; lane 31's index 32 names no lane, and it keeps its own value. -/
theorem test_lanes : vAfter (exec (.shfl noG (fa .n32)) (vdev [(4, iota), (6, (List.range 32).map (fun l => BitVec.ofNat 32 (l + 1)))])) 2 4
      = some 5 ∧
    vAfter (exec (.shfl noG (fa .n32)) (vdev [(4, iota), (6, (List.range 32).map (fun l => BitVec.ofNat 32 (l + 1)))])) 2 31 = some 31 := by
  decide

/-- R224, R226: `IADD.I32 v4, v9 || MOV.I32 v8, v5` reads both halves before either writes. -/
theorem test_pair : let o := exec (.pairIadd ⟨7, 4, 9, 0, false⟩ ⟨.mov, ⟨7, 8, 5, 0, false⟩⟩) (vdev [(4, every 3), (5, every 7), (9, every 4)])
    vAfter o 4 0 = some 7 ∧ vAfter o 8 31 = some 7 := by decide

/-- R391, R427: TRAP with no handler takes USER and stops the fault domain, so the group is dropped; with a log it holds the role. -/
theorem test_trap : (match exec (.trap noG (fi 0x2A)) (vdev []) with
      | .next t => (groupAt t 0 0).isNone && (ctxOf t 0).st == .stopped
      | _ => false) = true ∧
    causeAfter (exec (.trap noG (fi 0x2A)) (handled (vdev []))) = some .user := by decide

/-- R134: an instruction of another role traps ROLE. -/
theorem test_role : causeAfter (exec (.mwait noG (fi 0)) (handled (vdev []))) = some .role := by decide

/-- R320, R305: the merged order of the worked DATOM log: 2^24, then seventeen additions of 1.0, each a tie to even. -/
theorem test_datom_order : (applyWord State.reset 0x8000 false (⟨0, 0x4B800000⟩ :: List.replicate 17 ⟨1, 0x3F800000⟩)).mem =
    memSetBytes [] 0x8000 (bytesLE 4 0x4B800000) := by decide

/-- R82's example: in the tree of three regions the first two groups of the launch are admitted, the third is not. -/
theorem test_admission :
    let tree := fun (n : Nat) => ([{ rcbOf 0 with
        groups := 256
        regkib := 65536
        usedgrp := n
        usedreg := 512 * n }, { rcbOf 0 with
        inhmask := 2 ^ 3
        regkib := 8192
        usedgrp := n
        usedreg := 512 * n }, { rcbOf 0 with
        parent := 1
        inhmask := 2 ^ 0
        groups := 16
        usedgrp := n
        usedreg := 512 * n }] : List Rcb)
    [14, 15, 16].map (fun n => admitted (tree n) 2 { grp := 1, reg := 512 }) = [true, true, false] := by decide

/-- R107: the first draw of core 0's generator, worked out by hand: 0x9E37 gives 0x70f5 and the victim is that modulo the 64 cores. -/
theorem test_steal_draw : stealVictim 65536 0x9E37 0 0 64 = (0x70f5, 53) := by decide

/-! ### Witnesses: states and operands that meet the hypotheses of the statements -/

/-- The issuer of a state; the idle role of an empty group where it has none. -/
def xOf (s : State) : Iss :=
  match issuer s with
  | some x => x
  | none => {
    w := s.cur
    grp := newGroup 0 (loadLaunch 0) 0 { gslot := 0, sbase := 0, parts := [] }
    wp := newWarp 0 0 0 0
    sp := ⟨0, 0, 0, 0, 0, .none, none, [], .none, false⟩ }

/-- A state whose `cur` names a split is issued from by it. -/
theorem issuer_xOf {s : State} (h : (issuer s).isSome = true) : issuer s = some (xOf s) := by
  unfold xOf
  cases hi : issuer s
  · simp [hi] at h
  · rfl

/-- `Ready` for the issuer of a state, as a value. -/
def readyB (s : State) (roles : Roles) (stops : Bool) (g : Guard) (tw : BitVec 8) (os : List Opd) : Bool :=
  (issuer s).isSome && inCount (xOf s) os && roles.allow (xOf s) && !(stops && (xOf s).wp.spec.isSome) &&
  tokensFree (xOf s).wp tw && guardMask (xOf s) g != 0 && allFull (xOf s) (guardMask (xOf s) g) os

theorem ready_of {s : State} {roles : Roles} {stops : Bool} {g : Guard} {tw : BitVec 8} {os : List Opd}
    (h : readyB s roles stops g tw os = true) : Ready s (xOf s) roles stops g tw os := by
  simp only [readyB, Bool.and_eq_true] at h
  obtain ⟨⟨⟨⟨⟨⟨h1, h2⟩, h3⟩, h4⟩, h5⟩, h6⟩, h7⟩ := h
  refine ⟨issuer_xOf h1, h2, h3, ?_, h5, by simpa using h6, h7⟩
  intro hs
  cases h8 : (xOf s).wp.spec
  · rfl
  · simp [hs, h8] at h4

/-- `Issuable` for the issuer of a state, as a value. -/
def issuableB (s : State) (roles : Roles) (stops : Bool) (g : Guard) (tw : BitVec 8) (os : List Opd) : Bool :=
  (issuer s).isSome && inCount (xOf s) os && roles.allow (xOf s) && !(stops && (xOf s).wp.spec.isSome) &&
  tokensFree (xOf s).wp tw && guardMask (xOf s) g != 0

theorem issuable_of {s : State} {roles : Roles} {stops : Bool} {g : Guard} {tw : BitVec 8} {os : List Opd}
    (h : issuableB s roles stops g tw os = true) : Issuable s (xOf s) roles stops g tw os := by
  simp only [issuableB, Bool.and_eq_true] at h
  obtain ⟨⟨⟨⟨⟨h1, h2⟩, h3⟩, h4⟩, h5⟩, h6⟩ := h
  refine ⟨issuer_xOf h1, h2, h3, ?_, h5, by simpa using h6⟩
  intro hs
  cases h8 : (xOf s).wp.spec
  · rfl
  · simp [hs, h8] at h4

/-- Vector warp 0: v4 and v5 hold addresses in the data page, v6 small numbers, p0 the lower half of the lanes. -/
def V : State := dev 0 [(4, 8192), (8, 1)] [(4, (List.range 32).map (fun l => BitVec.ofNat 32 (8192 + 4 * l))), (6, iota)]
  [0x0000FFFF, 0, 0, 0, 0, 0, 0]
/-- Copy warp 32 of the same device. -/
def C : State := dev 32 [(4, 8192), (8, 1)] [] [1, 0, 0, 0, 0, 0, 0]
/-- The matrix thread of the same device. -/
def M : State := dev 64 [(4, 8192), (8, 1)] [] [1, 0, 0, 0, 0, 0, 0]

/-- EncodeThenDecode: an instruction on the last pair of registers. -/
theorem witness_EncodeThenDecode : ∃ bs, WellFormed (.iadd noG { fa .i64 with dst := 510 }) ∧
    encodeBytes (.iadd noG { fa .i64 with dst := 510 }) = some bs := ⟨_, by decide, rfl⟩

/-- What StepRunsDecodedInstruction asks of a state that schedules an issue of role `wid` (identity-mapped pages), and whether the
words decode. -/
def fetchReady (s : State) (wid : Nat) (good : Bool) : Prop :=
  let t : State := { s with
    schedule := []
    cur := ⟨0, 0, wid, 0⟩ }
  let rd := fun a => BitVec.ofNat 64 (memNat s.mem a 8)
  let pc := (xOf t).sp.pc.toNat
  let more := if wordCount (rd pc) = 5 then [pc + 8, pc + 16, pc + 24, pc + 32] else []
  hostFinishes s = none ∧ s.stepping = none ∧ s.schedule = [.issue ⟨0, 0, wid, 0⟩] ∧ isTurn { s with schedule := [] } ⟨0, 0, wid, 0⟩ = true ∧
  (issuer t).isSome = true ∧ (refusal (rd pc) (more.map rd)).isNone = good ∧ (xOf t).wp.spec = none ∧
  ∀ a, a ∈ pc :: more → userVa a = true ∧ laneLookup t (xOf t) (ctxOf t (xOf t).grp.ctx).pasid 3 a = .hit loadPage ∧
    isPoisoned t (lineOf (loadPage.phys a)) = false ∧ rd a = BitVec.ofNat 64 (memNat t.mem (loadPage.phys a) 8)

/-- StepRunsDecodedInstruction: an IADD, a TGATHER with its four shape words, and a word that is no instruction. -/
theorem witness_StepRunsDecodedInstruction : fetchReady (loadWords State.reset 0x005C060503020000) 0 true ∧
    fetchReady (loadWords State.reset 0x0001000000000000000000800000100000000004000000020000002000000080605C2A1491020000) 32 true ∧
    fetchReady (loadWords State.reset 0) 0 false := by
  unfold fetchReady; decide

/-- StepRunsScheduledUnit: the step of a unit, an instruction word where a unit's step is asked for, and a host atomic half done. -/
theorem witness_StepRunsScheduledUnit :
    (let s : State := { V with schedule := [.unit .pmD0] }
     hostFinishes s = none ∧ s.stepping = none ∧ encode (.pmD0 : Instr) = none ∧
     encode (.nop noG fj) = some [fullWord 0x161 noG (packJ fj)]) ∧
    (hostFinishes { V with inflight := [⟨1, .cas, V.cur, 4, [⟨0, 2 ^ 42, 5, 0, 0, 0, 0⟩], none, 2, 0, [], false, true, 0, none, false, some [], false⟩] }).isSome =
      true := by decide

/-- StepKeepsMemoryForm: a state with its memory in form that steps. -/
theorem witness_StepKeepsMemoryForm : Machine.Inv (loadWords State.reset 0x005C060503020000) ∧
    (match step (loadWords State.reset 0x005C060503020000) with
      | .next _ => true
      | _ => false) = true := by unfold Machine.Inv; decide

/-- What the statements about a whole instruction word ask of its shape and issuer (R232). -/
def shaped (i : Instr) (s : State) : Bool :=
  match shapeOf i with
  | some h => (issuer s).isSome && h.roles.allow (xOf s) && (xOf s).sp.wait.isNone
  | none => false

/-- OtherRolesTrap: each role before an instruction of another. -/
theorem witness_OtherRolesTrap : ([(.mwait noG (fi 0), V), (.iadd noG (fa .i32), C), (.tcopy noG fcopy, M)] : List (Instr × State)).all
    (fun e => (issuer e.2).isSome && (shapeOf e.1).any (fun h => !h.roles.allow (xOf e.2)) && (xOf e.2).sp.wait.isNone &&
      (xOf e.2).wp.spec.isNone) = true := by decide

/-- The eighth token of a role is outstanding. -/
def awaiting (y : Warp) : Warp := { y with toks := [0, 0, 0, 0, 0, 0, 0, 1] }

/-- V in a group of 16 vector registers. -/
def VN20 : State := modGroup V 0 0 (fun g => { g with tmpl := { g.tmpl with vregs := 15 } })

/-- NoLaneNoEffect: p1 is false in every lane; a plain word and one that names tokens; a copy whose token is outstanding; a RET and an
IADD that are ILLEGAL for their role. -/
theorem witness_NoLaneNoEffect : ([.iadd ⟨false, 1⟩ (fa .i32), .ld ⟨false, 1⟩ { fm with twait := 0xFF }, .atom ⟨false, 1⟩ fat] : List Instr).all
    (fun i => shaped i V && (shapeOf i).any (fun h => tokensFree (xOf V).wp h.tok && guardMask (xOf V) h.guard == 0) &&
      (xOf V).wp.spec.isNone) = true ∧
    (let s := modWarp C 0 0 32 awaiting
     let i : Instr := .tcopy ⟨false, 1⟩ { fcopy with twait := 0x80 }
     shaped i s = true ∧ (shapeOf i).map (fun h => h.words) = some 5 ∧ guardMask (xOf s) ⟨false, 1⟩ = 0 ∧
     (xOf s).wp.spec = none) ∧
    (([.iadd ⟨false, 1⟩ (fa .i32), .ret ⟨false, 1⟩ { fj with reg := 3 }, .iadd ⟨false, 1⟩ { fa .i32 with dst := 20 }] : List Instr).map (fun i =>
      shaped i VN20 && (shapeOf i).any (fun h => tokensFree (xOf VN20).wp h.tok && guardMask (xOf VN20) h.guard == 0) &&
      roleIllegal i (xOf VN20)) = [false, true, true] ∧ shaped (.iadd ⟨false, 1⟩ (fa .i32)) VN20 = true) := by decide

/-- TokenHoldsIssue: a load and a copy that name a token outstanding; a load whose register is beyond the warp's count. -/
theorem witness_TokenHoldsIssue : (let s := modWarp V 0 0 0 awaiting
     shaped (.ld noG { fm with twait := 0x80 }) s = true ∧ tokensFree (xOf s).wp 0x80 = false ∧ (xOf s).wp.spec = none) ∧
    (let s := modWarp C 0 0 32 awaiting
     shaped (.tcopy noG { fcopy with twait := 0x80 }) s = true ∧ tokensFree (xOf s).wp 0x80 = false ∧
     guardMask (xOf s) noG ≠ 0 ∧ (xOf s).wp.spec = none) ∧
    (let s := modWarp VN20 0 0 0 awaiting
     ([.ld noG { fm with twait := 0x80 }, .ld noG { fm with
        data := 20
        twait := 0x80 }] : List Instr).map (fun i => shaped i s && roleIllegal i (xOf s)) = [false, true] ∧
     tokensFree (xOf s).wp 0x80 = false ∧ shaped (.ld noG { fm with
        data := 20
        twait := 0x80 }) s = true) := by decide

/-- A warp that speculates past barrier 2 (R156). -/
def speculating (y : Warp) : Warp := { y with spec := some ⟨2, 0, [], [], false, [], [], false⟩ }

/-- SpeculatorStops: an atomic and a fence met while speculating. -/
theorem witness_SpeculatorStops : let s := modWarp V 0 0 0 speculating
    ([.atom noG fat, .fence noG ⟨0, 0, false, 0, 0, false, 0, 0, false, 5, 3⟩] : List Instr).all (fun i => shaped i s &&
      (shapeOf i).any (fun h => h.stops) && (xOf s).wp.spec.isSome) = true := by decide

/-! #### Classes 000 to 010 -/

/-- Layout A on the last pair of registers, SRCB through a lane modifier. -/
def faLast : FA := { fa .n64 with
  dst := 510
  lmt := true
  lmk := 1
  lmp := 31 }
/-- Layout A with a uniform SRCB. -/
def faUni : FA := { fa .i32 with
  u := true
  srcb := 8 }

/-- IntegerTwoSourceCompletes, DivisionTowardZero: the last pair, and a uniform source under a guard. -/
theorem witness_IntegerTwoSourceCompletes :
    Ready V (xOf V) .vector false noG 0 [opA faLast (tyRegs faLast.ty), opB faLast (tyRegs faLast.ty), .vd faLast.dst.toNat (tyRegs faLast.ty)] ∧
    Ready V (xOf V) .vector false ⟨true, 0⟩ 0 [opA faUni (tyRegs faUni.ty), opB faUni (tyRegs faUni.ty), .vd faUni.dst.toNat (tyRegs faUni.ty)] :=
  ⟨ready_of (by decide), ready_of (by decide)⟩

/-- OneSourceAndShiftsComplete, OneSourceResultsAreRead: each clause on the last pair. -/
theorem witness_OneSourceAndShiftsComplete :
    Ready V (xOf V) .vector false noG 0 [opB faLast (tyRegs faLast.ty), .vd faLast.dst.toNat (tyRegs faLast.ty)] ∧
    Ready V (xOf V) .vector false noG 0 [opA faLast (tyRegs faLast.ty), opB faLast 1, .vd faLast.dst.toNat (tyRegs faLast.ty)] :=
  ⟨ready_of (by decide), ready_of (by decide)⟩

/-- The operands of a layout-B instruction. -/
def opsB (f : FB) (na nb nc nd : Nat) : List Opd :=
  [.v f.srca.toNat na id f.fea, opBb f nb, .v f.srcc.toNat nc id f.fec, .vd f.dst.toNat nd]
/-- Layout B on the last pair of registers. -/
def fbLast : FB := { fb .n64 with dst := 510 }

/-- ThreeSourceCompletes: each clause. -/
theorem witness_ThreeSourceCompletes : Ready V (xOf V) .vector false noG 0 (opsB fbLast 2 2 2 2) ∧
    Ready V (xOf V) .vector false noG 0 (opsB fbLast 2 2 1 2) ∧
    Ready V (xOf V) .vector false noG 0 (opsB { fb .i8 with dst := 511 } 1 1 1 1) :=
  ⟨ready_of (by decide), ready_of (by decide), ready_of (by decide)⟩

/-- AddWithCarry: the carry in p0. -/
theorem witness_AddWithCarry :
    Ready V (xOf V) .vector false noG 0 [opA faLast (tyRegs faLast.ty), opB faLast (tyRegs faLast.ty), .vd faLast.dst.toNat (tyRegs faLast.ty)] :=
  ready_of (by decide)

/-- Layout I on the last pair of registers. -/
def fiLast : FI := ⟨510, 4, false, .n64, 0xFFFFFF⟩

/-- SelectAndMoveComplete: each clause. -/
theorem witness_SelectAndMoveComplete :
    Ready V (xOf V) .vector false noG 0 [.v fbLast.srca.toNat 2 id fbLast.fea, opBb fbLast 2, .vd fbLast.dst.toNat 2] ∧
    Ready V (xOf V) .vector false noG 0 [opA faLast 2, opB faLast 2] ∧ Ready V (xOf V) .vector false noG 0 [.vd fiLast.dst.toNat 2] ∧
    Ready V (xOf V) .vector false noG 0 [.v fiLast.srca.toNat 2 id fiLast.fe, .vd fiLast.dst.toNat 2] :=
  ⟨ready_of (by decide), ready_of (by decide), ready_of (by decide), ready_of (by decide)⟩

/-- FloatArithmeticCompletes: each clause, on F64. -/
theorem witness_FloatArithmeticCompletes : let f := { faLast with ty := .f64 }
    Ready V (xOf V) .vector false noG 0 [opA f (tyRegs f.ty), opB f (tyRegs f.ty), .vd f.dst.toNat (tyRegs f.ty)] ∧
    Ready V (xOf V) .vector false noG 0 [opA f (tyRegs f.ty), opB f 1, .vd f.dst.toNat (tyRegs f.ty)] ∧
    Ready V (xOf V) .vector false noG 0 [opA f (tyRegs f.ty), opB f (tyRegs f.ty)] ∧
    Ready V (xOf V) .vector false noG 0 [opB f (tyRegs f.ty), .vd f.dst.toNat (tyRegs f.ty)] ∧
    Ready V (xOf V) .vector false noG 0 [opB f (tyRegs f.ty), .vd f.dst.toNat 1] :=
  ⟨ready_of (by decide), ready_of (by decide), ready_of (by decide), ready_of (by decide), ready_of (by decide)⟩

/-- ConversionsComplete: each clause; a quad ends at the last register. -/
theorem witness_ConversionsComplete :
    Ready V (xOf V) .vector false noG 0 [opA { fa .i64 with srcb := 11 } 2, .vd 510 2] ∧
    tyWidth .e4m3 = 8 ∧ Ready V (xOf V) .vector false noG 0 [opA { fa .e4m3 with srca := 508 } 4, .vd 2 1] ∧
    tyWidth .f32 ≠ 8 ∧ Ready V (xOf V) .vector false noG 0 [opA (fa .f32) 1, .vd 508 4] ∧
    Ready V (xOf V) .vector false noG 0 ((List.range 16).map (fun j => Opd.v 4 1 (fun l => laneA (fa .f32) (l / 16 * 16 + j)) false) ++ [.vd 2 1]) ∧
    Ready V (xOf V) .vector false noG 0 [opA (fa .b16) 1, .vd 2 1] :=
  ⟨ready_of (by decide), by decide, ready_of (by decide), by decide, ready_of (by decide), ready_of (by decide), ready_of (by decide)⟩

/-- LaneExchangesComplete: each clause; RDLANE and WRLANE name lane 31, the last. -/
theorem witness_LaneExchangesComplete : let x := xOf V
    let s := modGroup V 0 0 (fun g => setSreg g 8 31)
    Ready V x .vector false noG 0 [.v 4 2 (fun l => if valB (fa .n64) x 1 l < 32 then valB (fa .n64) x 1 l else l) false, opB (fa .n64) 1, .vd 2 2] ∧
    Ready V x .vector false noG 0 [opB (fa .n32) 1, .vl 4 2, .vd 2 1, .pre (maskOf ((lanesOf (guardMask x noG)).filter (fun l =>
      if valB (fa .n32) x 1 l % 64 < 32 then vEmpty x.wp 4 (valB (fa .n32) x 1 l % 64)
      else vEmpty x.wp 5 (valB (fa .n32) x 1 l % 64 - 32)))) .nothing false] ∧
    Ready V x .vector false noG 0 [.v 4 2 id false, .vd 2 2] ∧ Ready V x .vector false noG 0 [.v 4 2 id false, .vd 2 1] ∧
    Ready V x .vector false noG 0 [] ∧ Ready V x .vector false noG 0 [.vd 2 1] ∧
    Ready V x .vector false noG 0 [.v 4 2 (fun _ => (lanesOf (guardMask x noG)).headD 0) false, .ud 255] ∧
    (sreg (xOf s).grp 8).toNat % 2 ^ 32 = 31 ∧ Ready s (xOf s) .vector false noG 0 [.u 8 false, .v 4 2 (fun _ => 31) false, .ud 255] ∧
    inMask (xOf s).sp.mask 31 = true ∧ (∀ k, k < 2 → vEmpty (xOf s).wp (510 + k) 31 = false) ∧
    Ready s (xOf s) .vector false noG 0 [.u 8 false, .u 4 false, .vl 510 2] :=
  ⟨ready_of (by decide), ready_of (by decide), ready_of (by decide), ready_of (by decide), ready_of (by decide), ready_of (by decide),
    ready_of (by decide), by decide, ready_of (by decide), by decide, by decide, ready_of (by decide)⟩

/-- LaneExchangesComplete: RDLANE and WRLANE of lane 32; WRLANE to a lane that is not active, and to one that is empty. -/
theorem witness_LanesBeyond :
    let s := modGroup V 0 0 (fun g => setSreg g 8 32)
    let u := modGroup (modSplit V V.cur (fun q => { q with mask := 0x7FFFFFFF })) 0 0 (fun g => setSreg g 8 31)
    let e := modGroup (modWarp V 0 0 0 (fun y => produceV y 9 511 1 0x80000000)) 0 0 (fun g => setSreg g 8 31)
    (sreg (xOf s).grp 8).toNat % 2 ^ 32 ≥ 32 ∧ Ready s (xOf s) .vector false noG 0 [.u 8 false, .vl 4 2] ∧
    Ready s (xOf s) .vector false noG 0 [.u 8 false, .u 4 false, .vl 510 2] ∧
    Ready u (xOf u) .vector false noG 0 [.u 8 false, .u 4 false, .vl 510 2] ∧ inMask (xOf u).sp.mask 31 = false ∧
    Ready e (xOf e) .vector false noG 0 [.u 8 false, .u 4 false, .vl 510 2] ∧ inMask (xOf e).sp.mask 31 = true ∧
    vEmpty (xOf e).wp (510 + 1) 31 = true :=
  ⟨by decide, ready_of (by decide), ready_of (by decide), ready_of (by decide), by decide, ready_of (by decide), by decide, by decide⟩

/-! #### Classes 101 and the pair words -/

/-- UniformArithmeticCompletes, UniformResultsAreRead: each clause, on a vector warp, the copy warp and the matrix thread. -/
theorem witness_UniformArithmeticCompletes : Ready V (xOf V) .all false noG 0 [.u 4 false, .u 6 true, .ud 255] ∧
    Ready C (xOf C) .all false noG 0 [.u 4 false, .ud 255] ∧ Ready M (xOf M) .all false noG 0 [.u 4 false, .u 6 false] ∧
    Ready M (xOf M) .all false noG 0 [.u 4 false, .u 6 false, .u 8 false, .ud 0] ∧ Ready C (xOf C) .all false noG 0 [.ud 255] ∧
    3 < (xOf M).wp.conds.length :=
  ⟨ready_of (by decide), ready_of (by decide), ready_of (by decide), ready_of (by decide), ready_of (by decide), by decide⟩

/-- V with a jump table at 8192 and v10, v11 holding the address of the word after the instruction. -/
def VJ : State :=
  let s := modWarp V 0 0 0 (fun y => { y with vregs := mapSet (mapSet y.vregs 10 (every 4104)) 12 (every 0) })
  { s with mem := memSetBytes s.mem 8192 (bytesLE 8 (2 ^ 64 - 4096)) }

/-- TransfersComplete: the direct transfers, CALL and RET by a vector warp and by the copy warp. -/
theorem witness_TransfersComplete : Ready V (xOf V) .all false ⟨false, 0⟩ 0 [] ∧ Ready V (xOf V) .vector false noG 0 [] ∧
    Ready V (xOf V) .all false noG 0 [.vd 510 2] ∧ Ready C (xOf C) .all false noG 0 [.ud 255] ∧
    Ready VJ (xOf VJ) .all false noG 0 [.v 10 2 id false] ∧ Ready C (xOf C) .all false noG 0 [.u 4 false] ∧
    (xOf V).isVec = true ∧ (xOf C).isVec = false ∧
    (∀ l, l ∈ lanesOf (guardMask (xOf VJ) noG) → vregN (xOf VJ).wp 10 2 l % 8 = 0 ∧ userVa (vregN (xOf VJ).wp 10 2 l) = true) ∧
    (sreg (xOf C).grp 4).toNat % 8 = 0 ∧ userVa (sreg (xOf C).grp 4).toNat = true ∧ guardMask (xOf V) noG = (xOf V).sp.mask :=
  ⟨ready_of (by decide), ready_of (by decide), ready_of (by decide), ready_of (by decide), ready_of (by decide), ready_of (by decide),
    by decide⟩

/-- TransfersComplete: BRX over a table of one entry, 8192 (511 words past the next), which leads back by 4096 bytes. -/
theorem witness_TransfersComplete_brx :
    let x := xOf VJ
    let target : W64 := x.sp.pc + 8 + ((511 : BitVec 26).signExtend 64 <<< 3)
    let accs := (lanesOf (guardMask x noG)).map (fun l => (l, (target.toNat + 8 * (vreg x.wp 12 l).toNat) % 2 ^ 64))
    let u := dropWalks VJ x
    let pas := physLanes VJ x 0 accs
    let q := nowReq u x 8 0 0 (pas.all (fun p => l1able p.2.1 p.2.2) && !x.sp.homeLd) false (pas.map (fun p => (p.1, p.2.1)))
    let t := fun (l : Nat) => mapGet ((loadVals u q [] []).map (fun v => (v.1, target + BitVec.ofNat 64 v.2))) l 0
    Ready VJ x .vector false noG 0 [.v 12 1 id false] ∧
    (∀ l, l ∈ lanesOf (guardMask x noG) → (vreg x.wp 12 l).toNat ≤ 0) ∧ pagesHeld VJ x 0 accs = true ∧ x.wp.spec = none ∧
    poisoned u false 8 (pas.map (fun p => (p.1, p.2.1))) = [] ∧ eligible u q = true ∧
    (∀ l, l ∈ lanesOf (guardMask x noG) → (t l).toNat % 8 = 0 ∧ userVa (t l).toNat = true) :=
  ⟨ready_of (by decide), by decide⟩

/-- TransfersComplete: an index of BRX above its table; RET to a misaligned address and to one outside the user half, by a vector warp and
by the copy warp. -/
theorem witness_TransfersTrap :
    let vec := fun (v : W32) (hi : W32) => modWarp V 0 0 0 (fun y => { y with vregs := mapSet (mapSet y.vregs 10 (every v)) 11 (every hi) })
    let uni := fun (v : W64) => modGroup C 0 0 (fun g => setSreg g 4 v)
    (lanesOf (guardMask (xOf V) noG)).filter (fun l => (vreg (xOf V).wp 6 l).toNat > 30) = [31] ∧
    Ready V (xOf V) .vector false noG 0 [.v 6 1 id false] ∧
    (([vec 4100 0, vec 4096 0x01000000] : List State).all (fun s => readyB s .all false noG 0 [.v 10 2 id false] && (xOf s).isVec)) = true ∧
    ((vregN (xOf (vec 4100 0)).wp 10 2 0 % 8 ≠ 0 ∧ vregN (xOf (vec 4096 0x01000000)).wp 10 2 31 % 8 = 0 ∧
      userVa (vregN (xOf (vec 4096 0x01000000)).wp 10 2 31) = false)) ∧
    (([uni 4100, uni (2 ^ 56)] : List State).all (fun s => readyB s .all false noG 0 [.u 4 false] && !(xOf s).isVec)) = true ∧
    ((4100 : Nat) % 8 ≠ 0 ∧ 2 ^ 56 % 8 = 0 ∧ userVa (2 ^ 56) = false) :=
  ⟨by decide, ready_of (by decide), by decide, by decide, by decide, by decide⟩

/-- V with a debugger's level and a PLOG buffer of two records, `n` of them written. -/
def VP (n : Nat) : State := modPart V 0 (fun p => { p with
  dbg := 1
  plogBase := 8192
  plogSize := 2
  plogCount := n })
/-- V with a second split below the first. -/
def VL : State := modWarp V 0 0 0 (fun y => { y with splits := [y.split 0, some ⟨64, 1, 0, 0, 0, .none, none, [], .none, false⟩, none, none] })
/-- V with s8 naming the greatest FMT. -/
def VF : State := modGroup V 0 0 (fun g => setSreg g 8 15)

/-- V in its save handler, its context in a state. -/
def VA (st : XState) : State :=
  let s := modCtx V 0 (fun c => { c with st := st })
  modWarp s 0 0 0 (startHandler 4096 0)

/-- StatusAndControlComplete: each clause; SETFMT from a register that holds 15; YIELD in a save handler and in its reload handler. -/
theorem witness_StatusAndControlComplete : Ready V (xOf V) .all false noG 0 [] ∧ Ready V (xOf V) .all true noG 0 [] ∧
    Ready VF (xOf VF) .all false noG 0 [.u 8 false] ∧ Ready V (xOf V) .all false noG 0 [.ud 255] ∧
    Ready V (xOf V) .all false noG 0 [.vd 511 1] ∧ Ready C (xOf C) .all false noG 0 [.ud 255] ∧
    Ready (VP 1) (xOf (VP 1)) .all false noG 0 [.u 4 false, .u 8 false] ∧ Ready VL (xOf VL) .all false noG 0 [] ∧
    Ready (VA .saving) (xOf (VA .saving)) .all true noG 0 [] ∧ Ready (VA .resuming) (xOf (VA .resuming)) .all true noG 0 [] ∧
    ((xOf V).wp.aside = none ∧ ([.saving, .resuming] : List XState).all (fun st =>
      (xOf (VA st)).wp.aside.isSome && (ctxOf (VA st) 0).st == st) = true) ∧
    (lowerExists (xOf V).wp (xOf V).w.slot (xOf V).sp = false ∧ lowerExists (xOf VL).wp (xOf VL).w.slot (xOf VL).sp = true) ∧
    ((15 : BitVec 24).getLsbD 23 = false ∧ (0x800000 : BitVec 24).getLsbD 23 = true ∧ (sreg (xOf VF).grp 8).toNat % 2 ^ 32 = 15) ∧
    ((xOf V).isVec = true ∧ (xOf C).isVec = false ∧ (partOf V (ctxOf V (xOf V).grp.ctx).part).dbg = 0) ∧
    (partOf (VP 1) (ctxOf (VP 1) 0).part).plogCount < (partOf (VP 1) (ctxOf (VP 1) 0).part).plogSize ∧
    (partOf (VP 2) (ctxOf (VP 2) 0).part).plogSize ≤ (partOf (VP 2) (ctxOf (VP 2) 0).part).plogCount :=
  ⟨ready_of (by decide), ready_of (by decide), ready_of (by decide), ready_of (by decide), ready_of (by decide), ready_of (by decide),
    ready_of (by decide), ready_of (by decide), ready_of (by decide), ready_of (by decide), by decide, by decide, by decide, by decide,
    by decide, by decide⟩

/-- PairWordsComplete: the spec's pair word, and one on the last pair of registers. -/
theorem witness_PairWordsComplete : let h0 : Half := ⟨.iadd, ⟨7, 4, 9, 0, false⟩⟩
    let h1 : Half := ⟨.fmul, ⟨7, 6, 3, 2, true⟩⟩
    let h2 : Half := ⟨.mov, ⟨0, 510, 8, 5, true⟩⟩
    Ready V (xOf V) .vector false noGuard 0 (halfOpds (xOf V) h0 ++ halfOpds (xOf V) h1) ∧ halfBeyond (xOf V) h0 = false ∧
    halfBeyond (xOf V) h1 = false ∧ Ready V (xOf V) .vector false noGuard 0 (halfOpds (xOf V) h0 ++ halfOpds (xOf V) h2) ∧
    halfBeyond (xOf V) h2 = false :=
  ⟨ready_of (by decide), by decide, by decide, ready_of (by decide), by decide⟩

/-! #### Classes 011 and 100 -/

/-- Every address of a layout-M access of `w` bytes is aligned, in the user half, on a page that allows it, on no poisoned line. -/
def lanesOk (s : State) (m : W32) (kind w : Nat) (base : BitVec 9) (u : Bool) (off : Int) : Bool :=
  let x := xOf s
  let accs := laneAddrs x m base u off w
  let pas := (physLanes s x kind accs).map (fun p => (p.1, p.2.1))
  x.wp.spec.isNone && (misaligned w accs).isEmpty && pagesHeld s x kind accs && (poisoned (dropWalks s x) false w pas).isEmpty &&
  (poisoned (dropWalks s x) true w pas).isEmpty

/-- A 16-byte access whose last lane byte ends the page, of the last quad, at a uniform base. -/
def fmLast : FM := { fm with
  data := 508
  u := true
  wid := 4
  off := 255 }
/-- An 8-byte access of the last pair on the sync channel, acquire and .sys. -/
def fmSync : FM := { fm with
  data := 510
  u := true
  wid := 3
  scope := 5
  ord := 1 }

/-- VectorAccessesIssue: each clause, lane addresses 4 bytes apart and the last 16 bytes of the page. -/
theorem witness_VectorAccessesIssue :
    Ready V (xOf V) .vector (fm.ord != 0) noG fm.twait [opBase fm.base fm.u fm.fe 2, .vl fm.data.toNat (widRegs 4)] ∧
    lanesOk V (guardMask (xOf V) noG) 0 4 4 false 0 = true ∧ lanesOk V (guardMask (xOf V) noG) 1 4 4 false 0 = true ∧
    Ready V (xOf V) .vector false noG 0 [opBase fmLast.base fmLast.u fmLast.fe 2, .vl fmLast.data.toNat (widRegs 16)] ∧
    Ready V (xOf V) .vector false noG 0 [opBase fmLast.base fmLast.u fmLast.fe 2, .v fmLast.data.toNat (widRegs 16) id fmLast.fe] ∧
    lanesOk V (guardMask (xOf V) noG) 0 16 4 true 255 = true ∧ lanesOk V (guardMask (xOf V) noG) 1 16 4 true 255 = true ∧
    Ready V (xOf V) .vector (fmSync.ord != 0) noG 0 [opBase 4 true false 2, .vl 510 (widRegs 8)] ∧
    Ready V (xOf V) .vector true noG 0 [opBase 4 true false 2, .v 510 (widRegs 8) id false] :=
  ⟨ready_of (by decide), by decide, by decide, ready_of (by decide), ready_of (by decide), by decide, by decide, ready_of (by decide),
    ready_of (by decide)⟩

/-- WindowAndUniformAccessesIssue: the last 8 bytes of the window of 4096; LDU and STU of the last 8 bytes of the page. -/
theorem witness_WindowAndUniformAccessesIssue :
    let x := xOf V
    let offs := windowOffs x (guardMask x noG) 0 false 511 8
    let pas := offs.map (fun o => (o.1, x.grp.sbase + o.2.toNat))
    let va := wrapTo 64 (((sreg x.grp 4).toNat : Int) + 511 * 8)
    x.wp.spec = none ∧ (∀ o, o ∈ offs → o.2 % (8 : Int) = 0 ∧ 0 ≤ o.2 ∧ o.2 + (8 : Int) ≤ (x.grp.tmpl.sramsz : Int)) ∧
    Ready V x .vector false noG 0 [opBase 0 false false 1, .vl 510 2] ∧ poisoned V false 8 pas = [] ∧
    scoreboardHit V x false 8 (offs.map (fun o => o.2.toNat)) = false ∧
    Ready V x .vector false noG 0 [opBase 0 false false 1, .v 510 2 id false] ∧ poisoned V true 8 pas = [] ∧
    scoreboardHit V x true 8 (offs.map (fun o => o.2.toNat)) = false ∧
    (va % 8 = 0 ∧ userVa va = true ∧ isPoisoned (dropWalks V x) (lineOf (dataPage.phys va)) = false) ∧
    Ready V x .all true noG 0 [.u 4 false] ∧ laneLookup V x (ctxOf V x.grp.ctx).pasid 0 va = .hit dataPage ∧
    Ready V x .all true noG 0 [.u 4 false, .u 8 false] ∧ laneLookup V x (ctxOf V x.grp.ctx).pasid 1 va = .hit dataPage :=
  ⟨by decide, by decide, ready_of (by decide), by decide, by decide, ready_of (by decide), by decide, by decide, by decide,
    ready_of (by decide), by decide, ready_of (by decide), by decide⟩

/-- A store of V in flight. -/
def aStore : Req where
  id := 1
  kind := .store
  who := V.cur
  w := 4
  lanes := [{ lane := 31, pa := 12284, v := 5 }]
  tok := some 7
  scope := 5
  ord := 0
  after := []
  l1ok := false
  sync := false
  fmt := 0

/-- V speculating at barrier 2 with a store buffer and a read set. -/
def SV (buf : List (Nat × Byte)) (reads : List Nat) : State := modWarp V 0 0 0 (fun y => { y with spec := some ⟨2, 0, buf, reads, false, [], [], false⟩ })
/-- A buffer of 32 lines, and a read set of 64. -/
def fullBuf : List (Nat × Byte) := (List.range 32).map (fun i => (2 ^ 20 + 128 * i, 1))
def fullReads : List Nat := (List.range 64).map (fun i => 2 ^ 20 + i)

/-- What the clauses on a speculator's accesses ask, but for `Ready`: whether the lanes' checks pass, and for a load whether it waits and
whether the read set takes its lines, for a store whether the buffer takes it. -/
def specOk (s : State) (f : FM) : Bool :=
  let x := xOf s
  let w := 2 ^ f.wid.toNat
  let accs := laneAddrs x (guardMask x noG) f.base f.u f.off.toInt w
  let pas := fun (kind : Nat) => (physLanes s x kind accs).map (fun p => (p.1, p.2.1))
  (misaligned w accs).isEmpty && pagesHeld s x 0 accs && pagesHeld s x 1 accs && (poisoned (dropWalks s x) false w (pas 0)).isEmpty &&
  (poisoned (dropWalks s x) true w (pas 1)).isEmpty
def specLoads (s : State) (f : FM) (sync : Bool) : Option (Bool × Bool) :=
  let x := xOf s
  let w := 2 ^ f.wid.toNat
  let pa := (physLanes s x 0 (laneAddrs x (guardMask x noG) f.base f.u f.off.toInt w)).map (fun p => (p.1, p.2.1))
  x.wp.spec.map (fun p => (specWaits (dropWalks s x) (nowReq (dropWalks s x) x w f.scope.toNat f.ord.toNat (!sync) sync pa),
    (specReadSet p (specLines p w (pa.map (fun e => e.2)))).isSome))
def specStores (s : State) (f : FM) : Option Bool :=
  let x := xOf s
  let w := 2 ^ f.wid.toNat
  let pas := physLanes s x 1 (laneAddrs x (guardMask x noG) f.base f.u f.off.toInt w)
  x.wp.spec.map (fun p => (specStore p (tokOf f.tse f.tslot) (pas.map (fun q => (q.2.1, bytesLE w (vregN x.wp f.data.toNat (widRegs w) q.1 % 2 ^ (8 * w)))))).isSome)

/-- VectorAccessesIssue, a speculator: it waits for a store of its core that has not entered the write queue, its read set or buffer takes the lines or is full, on
either channel; a load served wholly from the buffer fits a full read set. -/
theorem witness_SpeculatorsAccess :
    let waits : State := { SV [] [] with
      inflight := [{ aStore with
        id := 0
        kind := .load }, aStore]
      nextId := 2 }
    Ready (SV [] []) (xOf (SV [] [])) .vector (fm.ord != 0) noG fm.twait [opBase fm.base fm.u fm.fe 2, .vl fm.data.toNat (widRegs 4)] ∧
    Ready (SV [] []) (xOf (SV [] [])) .vector (fm.ord != 0) noG fm.twait [opBase fm.base fm.u fm.fe 2, .v fm.data.toNat (widRegs 4) id fm.fe] ∧
    ([SV [] [], SV fullBuf fullReads].all (fun s => specOk s fm)) = true ∧ specOk waits fmLast = true ∧
    ([true, false].map (specLoads (SV [] []) fm) = [some (false, true), some (false, true)]) ∧
    ([true, false].map (specLoads (SV [] fullReads) fm) = [some (false, false), some (false, false)]) ∧
    specLoads (SV ((List.range 128).map (fun i => (8192 + i, 0))) fullReads) fm false = some (false, true) ∧
    ([true, false].map (specLoads waits fmLast) = [some (true, true), some (true, true)]) ∧
    specStores (SV [] []) fm = some true ∧ specStores (SV fullBuf []) fm = some false :=
  ⟨ready_of (by decide), ready_of (by decide), by decide, by decide, by decide, by decide, by decide, by decide, by decide, by decide⟩

/-- VectorAccessesIssue, WindowAndUniformAccessesIssue, the traps: an odd address of the last lane alone, the first address past the user half, at 2^56. -/
theorem witness_AccessesTrap :
    let odd := modWarp V 0 0 0 (fun y => { y with vregs := mapSet y.vregs 4 ((List.range 32).map (fun l => if l = 31 then 8193 else 8192)) })
    let far := modGroup V 0 0 (fun g => setSreg g 4 (2 ^ 56))
    let mis := fun (s : State) (f : FM) => (laneAddrs (xOf s) (guardMask (xOf s) noG) f.base f.u f.off.toInt 4).filter (fun a => a.2 % 4 ≠ 0)
    let out := fun (s : State) (f : FM) => (laneAddrs (xOf s) (guardMask (xOf s) noG) f.base f.u f.off.toInt 4).filter (fun a => userVa a.2 = false)
    let uni := { fm with u := true }
    let va := fun (s : State) (off : Nat) => wrapTo 64 (((sreg (xOf s).grp 4).toNat : Int) + off)
    Ready odd (xOf odd) .vector (fm.ord != 0) noG fm.twait [opBase fm.base fm.u fm.fe 2, .vl fm.data.toNat (widRegs 4)] ∧
    Ready odd (xOf odd) .vector (fm.ord != 0) noG fm.twait [opBase fm.base fm.u fm.fe 2, .v fm.data.toNat (widRegs 4) id fm.fe] ∧
    (mis odd fm).map (fun a => a.1) = [31] ∧
    Ready far (xOf far) .vector false noG 0 [opBase 4 true false 2, .vl 2 1] ∧
    Ready far (xOf far) .vector false noG 0 [opBase 4 true false 2, .v 2 1 id false] ∧
    mis far uni = [] ∧ (out far uni).length = 32 ∧
    Ready far (xOf far) .all false noG 0 [.u 4 false] ∧ Ready far (xOf far) .all false noG 0 [.u 4 false, .u 8 false] ∧
    (va V 1 % 4 ≠ 0 ∧ va far 0 % 4 = 0 ∧ userVa (va far 0) = false) :=
  ⟨ready_of (by decide), ready_of (by decide), by decide, ready_of (by decide), ready_of (by decide), by decide, by decide,
    ready_of (by decide), ready_of (by decide), by decide⟩

/-- V whose window is at 4096 bytes, with a copy of its group that writes, or reads, the window's last 4 bytes. -/
def VW (writes : Bool) : State :=
  let c := copyOf (xOf C) (copyArgs (xOf C) 0 { fcopy with base := 4 }) { fcopy with base := 4 } 1 []
  modCore V 0 (fun k => { k with copies := [{ c with entries := [(writes, 4092, 4)] }] })

/-- WindowAndUniformAccessesIssue, LDL and STL: an odd offset, the first offset outside the window, an offset that a copy holds. -/
theorem witness_WindowTraps :
    let offs := fun (base : W32) => windowOffs (xOf (modWarp V 0 0 0 (fun y => { y with vregs := mapSet y.vregs 6 (every base) })))
      (guardMask (xOf V) noG) 6 false 0 4
    let bad := fun (base : W32) => ((offs base).any (fun o => o.2 % 4 ≠ 0), (offs base).any (fun o => o.2 < 0 ∨ o.2 + 4 > 4096))
    let last := (offs 4092).map (fun o => o.2.toNat)
    Ready V (xOf V) .vector false noG 0 [opBase 6 false false 1, .vl 2 1] ∧ Ready V (xOf V) .vector false noG 0 [opBase 6 false false 1, .v 2 1 id false] ∧
    (xOf V).grp.tmpl.sramsz = 4096 ∧ bad 4094 = (true, true) ∧ bad 4096 = (false, true) ∧ bad (-4) = (false, true) ∧ bad 4092 = (false, false) ∧
    (let s := VW true; scoreboardHit s (xOf s) false 4 last = true ∧ scoreboardHit s (xOf s) true 4 last = true) ∧
    (let s := VW false; scoreboardHit s (xOf s) false 4 last = false ∧ scoreboardHit s (xOf s) true 4 last = true) :=
  ⟨ready_of (by decide), ready_of (by decide), by decide, by decide, by decide, by decide, by decide, by decide, by decide⟩

/-- WindowAndUniformAccessesIssue, a speculator's LDL, STL, LDU and STU: the last 8 bytes of the window and of the page. -/
theorem witness_SpeculatorsWindow :
    let s := SV [] []
    let x := xOf s
    let offs := windowOffs x (guardMask x noG) 0 false 511 8
    let pas := offs.map (fun o => (o.1, x.grp.sbase + o.2.toNat))
    let va := wrapTo 64 (((sreg x.grp 4).toNat : Int) + 511 * 8)
    let reads := fun (sync l1 : Bool) (pa : List (Nat × Nat)) => x.wp.spec.map (fun p => (specWaits (dropWalks s x) (nowReq (dropWalks s x) x 8 0 0 l1 sync pa),
      (specReadSet p (specLines p 8 (pa.map (fun e => e.2)))).isSome, (specStore p none (pa.map (fun e => (e.2, bytesLE 8 1)))).isSome))
    (∀ o, o ∈ offs → o.2 % (8 : Int) = 0 ∧ 0 ≤ o.2 ∧ o.2 + (8 : Int) ≤ (x.grp.tmpl.sramsz : Int)) ∧
    Ready s x .vector false noG 0 [opBase 0 false false 1, .vl 510 2] ∧ Ready s x .vector false noG 0 [opBase 0 false false 1, .v 510 2 id false] ∧
    poisoned s false 8 pas = [] ∧ poisoned s true 8 pas = [] ∧ scoreboardHit s x false 8 (offs.map (fun o => o.2.toNat)) = false ∧
    scoreboardHit s x true 8 (offs.map (fun o => o.2.toNat)) = false ∧
    reads false false pas = some (false, true, true) ∧
    (va % 8 = 0 ∧ userVa va = true ∧ isPoisoned (dropWalks s x) (lineOf (dataPage.phys va)) = false) ∧
    Ready s x .all false noG 0 [.u 4 false] ∧ laneLookup s x (ctxOf s x.grp.ctx).pasid 0 va = .hit dataPage ∧
    Ready s x .all false noG 0 [.u 4 false, .u 8 false] ∧ laneLookup s x (ctxOf s x.grp.ctx).pasid 1 va = .hit dataPage ∧
    ([true, false].map (fun l1 => reads true l1 [(0, dataPage.phys va)])) = [some (false, true, true), some (false, true, true)] :=
  ⟨by decide, ready_of (by decide), ready_of (by decide), by decide, by decide, by decide, by decide, by decide, by decide,
    ready_of (by decide), by decide, ready_of (by decide), by decide, by decide⟩

/-- PrefetchAndFencesComplete: each clause, the fences of every order on the copy warp, with every token waited for. -/
theorem witness_PrefetchAndFencesComplete : Ready V (xOf V) .vector false noG 0xFF [opBase 4 false false 2] ∧
    Ready V (xOf V) .vector false noG 0xFF [] ∧ Ready M (xOf M) .all false noG 0xFF [] ∧ Ready C (xOf C) .all true noG 0xFF [] ∧
    coreDrained C (xOf C) = true ∧ syncReturned C (xOf C) = true ∧ (∀ p, p < 6 → pathDrained C (xOf C) p = true) :=
  ⟨ready_of (by decide), ready_of (by decide), ready_of (by decide), ready_of (by decide), by decide, by decide, by decide⟩

/-- What AtomicsIssue asks of the addresses of an atomic. -/
def atomicOk (s : State) (w : Nat) (accs : List (Nat × Nat)) : Bool :=
  let x := xOf s
  let pas := physLanes s x 2 accs
  (misaligned w accs).isEmpty && pagesHeld s x 2 accs && (badMemtype pas).isEmpty &&
  (poisoned (dropWalks s x) false w (pas.map (fun p => (p.1, p.2.1)))).isEmpty

/-- V with a pair of addresses in each lane: v12, v13 and v14, v15. -/
def V2 : State := modWarp V 0 0 0 (fun y => { y with vregs := mapSet (mapSet y.vregs 12 (every 8192)) 14 (every 12280) })

/-- AtomicsIssue: each clause; the pair of DCAS and AMOV are the first and the last 8 bytes of the page. -/
theorem witness_AtomicsIssue :
    let x := xOf V
    let m := guardMask x noG
    let two := pairAddrs (xOf V2) (guardMask (xOf V2) noG) 12 false
    let accs := two.flatMap (fun p => [(p.1, p.2.1), (p.1, p.2.2)])
    atomicOk V 4 (laneAddrs x m 4 false 0 4) = true ∧
    Ready V x .vector true noG 0 [opBase 4 false false 2, .v 511 1 id false, .vl 2 1] ∧
    Ready V x .vector true noG 0 [opBase 4 false false 2, .v 510 2 id false, .vl 2 1] ∧
    atomicOk V 8 (laneAddrs x m 4 true 31 8) = true ∧ Ready V x .vector true noG 0 [opBase 4 true false 2, .v 510 2 id false] ∧
    atomicOk V2 8 accs = true ∧
    (∀ p, p ∈ physLanes V2 (xOf V2) 2 accs → p.2.2.sysat = false ∧ inHostMem p.2.1 = false) ∧
    (let at_ := fun (l i : Nat) => (((physLanes V2 (xOf V2) 2 accs).filter (fun p => p.1 == l)).map (fun p => p.2.1)).getD i 0
     ∀ l, l ∈ lanesOf (guardMask (xOf V2) noG) → inHostMem (at_ l 0) = inHostMem (at_ l 1)) ∧
    Ready V2 (xOf V2) .vector true noG 0 (.v 504 8 id false :: opPairBase 12 false false) ∧
    Ready V2 (xOf V2) .vector true noG 0 (.vl 510 2 :: opPairBase 12 false false) ∧
    atomicOk V 8 (laneAddrs x m 4 true 511 8) = true ∧
    (∀ p, p ∈ physLanes V x 2 (laneAddrs x m 4 true 511 8) → inHostMem p.2.1 = false ∧ x.wp.dcount.getD p.1 0 + 1 < 2 ^ 26) ∧
    Ready V x .vector true noG 0 [opBase 4 true false 2, .v 510 2 id false] :=
  ⟨by decide, ready_of (by decide), ready_of (by decide), by decide, ready_of (by decide), by decide, by decide, by decide,
    ready_of (by decide), ready_of (by decide), by decide, by decide, ready_of (by decide)⟩

/-- V with a REGION after the instruction at 4096. -/
def VB : State := { V with mem := memSetBytes V.mem 4104 (bytesLE 8 0x58DC000000000000) }

/-- BarrierInstructionsComplete: BAR of a vector warp and of the matrix thread, BARSPEC before a REGION, a barrier word at the end of the page. -/
theorem witness_BarrierInstructionsComplete :
    let accs := (lanesOf (xOf VB).sp.mask).map (fun l => (l, ((xOf VB).sp.pc + 8).toNat))
    let va := wrapTo 64 (((sreg (xOf V).grp 4).toNat : Int) + 511 * 8)
    Ready V (xOf V) .all true noGuard 0 [] ∧ Ready M (xOf M) .all true noGuard 0 [] ∧
    Ready VB (xOf VB) .vector true noGuard 0 [] ∧ pagesHeld VB (xOf VB) 3 accs = true ∧
    (∀ p, p ∈ physLanes VB (xOf VB) 3 accs → isRegionAt (dropWalks VB (xOf VB)) (xOf VB).w.core p.2.1 = true) ∧
    (va % 8 = 0 ∧ userVa va = true ∧ laneLookup V (xOf V) (ctxOf V (xOf V).grp.ctx).pasid 2 va = .hit dataPage ∧
      dataPage.noatom = false ∧ inHostMem (dataPage.phys va) = false ∧
      isPoisoned (dropWalks V (xOf V)) (lineOf (dataPage.phys va)) = false) ∧
    Ready V (xOf V) .all true noG 0 [.u 4 false] ∧ Ready V (xOf V) .all true noG 0 [.u 4 false, .u 8 false] ∧ (xOf V).sp.wait = none :=
  ⟨ready_of (by decide), ready_of (by decide), ready_of (by decide), by decide, by decide, by decide, ready_of (by decide),
    ready_of (by decide), by decide⟩

/-- BarrierInstructionsComplete, BARSPEC before no REGION. -/
theorem witness_BarspecAlone :
    let accs := (lanesOf (xOf V).sp.mask).map (fun l => (l, ((xOf V).sp.pc + 8).toNat))
    Ready V (xOf V) .vector true noGuard 0 [] ∧ pagesHeld V (xOf V) 3 accs = true ∧
    ((physLanes V (xOf V) 3 accs).any (fun p => !isRegionAt (dropWalks V (xOf V)) (xOf V).w.core p.2.1)) = true :=
  ⟨ready_of (by decide), by decide, by decide⟩

/-- BarrierWordArrival: a word that is malformed by each of its fields, at its bound; the last arrival, and the last but one, of the
greatest count. -/
theorem witness_BarrierWordArrival :
    let bad := fun (expect rest count : BitVec 16) => expect = 0 ∨ count.toNat ≥ expect.toNat ∨ rest ≠ 0
    let good := fun (expect rest count : BitVec 16) => count.toNat < expect.toNat ∧ rest = 0
    bad 0 0 0 ∧ bad 5 0 5 ∧ bad 0xFFFF 1 0 ∧
    (good 0xFFFF 0 0xFFFE ∧ (0xFFFE : BitVec 16).toNat + 1 = (0xFFFF : BitVec 16).toNat) ∧
    (good 1 0 0 ∧ (0 : BitVec 16).toNat + 1 = (1 : BitVec 16).toNat) ∧
    (good 0xFFFF 0 0xFFFD ∧ (0xFFFD : BitVec 16).toNat + 1 ≠ (0xFFFF : BitVec 16).toNat) := by decide

/-! #### Class 110 -/

/-- V with s20 empty. -/
def VE : State := modGroup V 0 0 (fun g => { g with sempty := [20] })
/-- A copy in flight of the copy warp. -/
def aCopy : Copy := copyOf (xOf C) (copyArgs (xOf C) 0 { fcopy with base := 4 }) { fcopy with base := 4 } 1 []
/-- C with that copy in flight. -/
def CC : State := modCore C 0 (fun k => { k with copies := [aCopy] })

/-- FullEmptyStagesAndWaitsComplete: each clause: s20 empty, stage 0 of ring 0 filled once more than freed (3 and 1), stage 1 at
0 and 0, a copy in flight or none. -/
theorem witness_FullEmptyStagesAndWaitsComplete : uProducing (xOf VE).grp 20 = false ∧ Ready VE (xOf VE) .all true noG 0 [] ∧
    Ready VE (xOf VE) .all true noG 0 [.u 4 false] ∧ (xOf VE).grp.sempty.contains 20 = true ∧ groupReleased VE (xOf VE) = true ∧
    stageOf (xOf V).grp 0 1 = some ⟨0, 0⟩ ∧ stageOf (xOf V).grp 0 0 = some ⟨3, 1⟩ ∧ (1 : BitVec 16) ≠ 3 ∧
    Ready V (xOf V) .all true noG 0 [.u 8 false] ∧ (sreg (xOf V).grp 8).toNat % 2 ^ 32 = 1 ∧
    Ready V (xOf V) .all true noG 0 [] ∧ 1 < (xOf V).grp.tmpl.nrings ∧ ringAwaited (xOf V).grp 1 = false ∧
    Ready V (xOf V) .all false noG 0 [.ud 255] ∧ (xOf V).sp.wait = none ∧
    (stageAnswer 3 false 2 = some 3 ∧ stageAnswer 3 false 3 = none ∧ stageAnswer 1 true 1 = none) ∧
    (groupCopies V (xOf V) (fun _ => true)).map (fun c => c.id) = [] ∧
    Ready CC (xOf CC) .all true noG 0 [] ∧ (groupCopies CC (xOf CC) (fun t => (1 : BitVec 24).getLsbD t)).map (fun c => c.id) ≠ [] :=
  ⟨by decide, ready_of (by decide), ready_of (by decide), by decide, by decide, by decide, by decide, by decide, ready_of (by decide),
    by decide, ready_of (by decide), by decide, by decide, ready_of (by decide), by decide, by decide, by decide, ready_of (by decide),
    by decide⟩

/-- FullEmptyStagesAndWaitsComplete, what waits: s20 with a value on its way, s20 full, and with s20 empty a load of the role in flight. -/
theorem witness_FullEmptyWaits :
    let s := modGroup V 0 0 (fun g => { g with uprods := [⟨1, 20, 1, true⟩] })
    let t : State := { VE with inflight := [{ aStore with kind := .load }] }
    uProducing (xOf s).grp 20 = true ∧ Ready s (xOf s) .all true noG 0 [] ∧ Ready s (xOf s) .all true noG 0 [.u 4 false] ∧
    (xOf V).grp.sempty.contains 20 = false ∧ Ready V (xOf V) .all true noG 0 [.u 4 false] ∧
    (uProducing (xOf t).grp 20 = false ∧ (xOf t).grp.sempty.contains 20 = true ∧ groupReleased t (xOf t) = false) ∧
    Ready t (xOf t) .all true noG 0 [.u 4 false] :=
  ⟨by decide, ready_of (by decide), ready_of (by decide), by decide, ready_of (by decide), by decide, ready_of (by decide)⟩

/-- V with vector warp 0 in an STGWAIT for stage 0 of ring 0, its operand `p`, by FPH or EPH, its register s30 empty meanwhile. -/
def VSW (eph : Bool) (p : Nat) : State :=
  modGroup V 0 0 (fun g => { g with
    uprods := [⟨9, 30, 1, true⟩]
    warps := g.warps.map (fun e => if e.1 = 0 then (0, { e.2 with splits := e.2.splits.map (fun o => o.map (fun q =>
      { q with wait := some (.stg 0 0 eph false p 30 9) })) }) else e) })

/-- FullEmptyStagesAndWaitsComplete, the STAGE traps: ring 2, which does not exist, stage 0 FULL and stage 1 EMPTY, ring 0 waited on; and a
fill that waits for a load of the role. -/
theorem witness_StageTraps :
    let busy : State := { V with inflight := [{ aStore with kind := .load }] }
    stageOf (xOf V).grp 2 0 = none ∧ stageOf (xOf V).grp 1 7 = none ∧ stageOf (xOf V).grp 0 0 = some ⟨3, 1⟩ ∧ stageOf (xOf V).grp 0 1 = some ⟨0, 0⟩ ∧
    groupReleased V (xOf V) = true ∧ (xOf V).grp.tmpl.nrings ≤ 3 ∧
    ringAwaited (xOf (VSW true 5)).grp 0 = true ∧ Ready busy (xOf busy) .all true noG 0 [] ∧ groupReleased busy (xOf busy) = false ∧
    Ready V (xOf V) .all true noG 0 [.u 8 false] ∧ (xOf V).sp.wait = none :=
  ⟨by decide, by decide, by decide, by decide, by decide, by decide, by decide, ready_of (by decide), by decide, ready_of (by decide), by decide⟩

/-- V with v5 empty in the last lane and s20 empty. -/
def VO : State := modWarp VE 0 0 0 (fun y => { y with prods := [⟨1, 5, 1, 0x80000000, 0x80000000⟩] })

/-- FullEmptyStagesAndWaitsComplete, R66: an operand empty in the last lane, with FE and without, of the integer and uniform instructions and of the
vector accesses; a destination and the data of a store that are empty. -/
theorem witness_EmptyOperands :
    let x := xOf VO
    let m := guardMask x noG
    let a := fun (fe : Bool) => { fa .i32 with
      srca := 5
      fea := fe }
    let u := fun (fe : Bool) => { fa .i64 with
      srca := 20
      fea := fe }
    let l := fun (fe : Bool) => { fm with
      base := 4
      fe := fe }
    let st := fun (fe : Bool) => { fm with
      data := 5
      base := 8
      u := true
      fe := fe }
    let osA := fun (fe : Bool) => [opA (a fe) 1, opB (a fe) 1, .vd (a fe).dst.toNat 1]
    let osU := fun (fe : Bool) => [Opd.u 20 fe, .u 6 false, .ud 2]
    let osL := fun (fe : Bool) => [opBase 4 false (l fe).fe 2, .vl 2 1]
    let osS := fun (fe : Bool) => [opBase 8 true (st fe).fe 2, .v 5 1 id fe]
    let bad := fun (os : List Opd) => (os.filter (fun o => o.traps)).foldl (fun acc o => acc ||| o.emptyIn x m) 0
    let waits := fun (os : List Opd) => (os.find? (fun o => o.emptyIn x m != 0)).map (fun o => o.block)
    (∀ fe, Issuable VO x .vector false noG 0 (osA fe)) ∧ (∀ fe, Issuable VO x .all false noG 0 (osU fe)) ∧
    (∀ fe, Issuable VO x .vector false noG 0 (osL fe)) ∧ (∀ fe, Issuable VO x .vector false noG 0 (osS fe)) ∧
    ([osA true, osL true, osS true].map bad = [0x80000000, 0x80000000, 0x80000000] ∧ bad (osU true) = m) ∧
    ([osA false, osU false, osL false, osS false].map bad = [0, 0, 0, 0]) ∧
    ([osA false, osU false, osL false, osS false].map waits = [some .nothing, some .groupRoles, some .nothing, some .nothing]) :=
  ⟨by intro fe; cases fe <;> exact issuable_of (by decide), by intro fe; cases fe <;> exact issuable_of (by decide),
    by intro fe; cases fe <;> exact issuable_of (by decide), by intro fe; cases fe <;> exact issuable_of (by decide), by decide, by decide,
    by decide⟩

/-- StageWaitAnswers, the end of the cycle: vector warp 0 alone waits, for EPH 1 of operand 0, which answers, and of operand 1. -/
theorem witness_StageWaitEnds :
    let ok := fun (s : State) (v : Option Nat) => (groupAt s 0 0).any (fun k => match k.warps with
      | (0, y) :: r => (match y.split 0 with
          | some q => (match q.wait with
              | some (.stg 0 0 true false p 30 9) => stageAnswer ((stageOf k 0 0).elim 0 (fun t => t.eph.toNat)) false p == v
              | _ => false)
          | none => false) && [1, 2, 3].all (fun j => (y.split j).isNone) &&
          r.all (fun z => (List.range 4).all (fun j => (z.2.split j).all (fun q => q.wait.isNone)))
      | _ => false)
    ok (VSW true 0) (some 1) = true ∧ ok (VSW true 1) none = true := by decide

/-- StageWaitAnswers: a counter equal to the operand, one above it, 2 and 2^15 above it, and further ahead. -/
theorem witness_StageWaitAnswers : (0 : BitVec 16) = 0xFFFF + 1 ∧ 2 ≤ ((1 : BitVec 16) - 0xFFFF).toNat ∧
    ((0x8000 : BitVec 16) - 0).toNat ≤ 2 ^ 15 ∧ 2 ^ 15 < ((0x8001 : BitVec 16) - 0).toNat := by decide

/-- C holding operand slot 3 for its group, with a route and an ACTIVE port to node 5. -/
def CS : State :=
  let s := modCore C 0 (fun k => { k with slots := [(3, { OpSlot.reset with holder := .held 0 })] })
  modPort { s with routes := [(5, (2, none))] } 2 (fun q => { q with st := .active })

/-- What CopiesStart asks of a copy start, but for `Ready`. -/
def copyOk (s : State) (op : Nat) (f : FCopy) (zero : Bool) : Bool :=
  let x := xOf s
  let a := copyArgs x op f
  let known := a.indexed && a.f 6 == 0
  let c := copyOf x a f s.nextId (if known then (indexRegs a).map (fun r => (sreg x.grp r).toNat % 2 ^ 32) else [])
  let k := coreOf s x.w.core
  match copyEntries x.grp c with
  | none => false
  | some es => copyLegal a f && copyBounds a && copyAligned a f && (!known || (indexRegs a).all (fun r => !uEmpty x.grp r)) &&
    copySlotsOk k c && (!f.stg || (stageOf x.grp c.ring c.stage).isSome) && (badBase c).isNone && k.copies.length < 64 &&
    (k.copies.flatMap (fun q => q.entries)).length + es.length ≤ 32 && (pendingAcqs s x).isEmpty && (c.count == 0) == zero &&
    (!isPeer f || (routePort s c.node).isSome)

/-- The operands of a copy start. -/
def copyOpds (f : FCopy) : List Opd := [.u f.data.toNat f.fe, .u f.base.toNat f.fe] ++
  (copyFields f).filterMap (fun v => if isSub v then some (Opd.u (v.toNat % 256) false) else none)

/-- TCOPY between translated addresses, of as many planes as may be. -/
def cpPlain : FCopy := { fcopy with
  base := 4
  f2 := 0x10000 }
/-- TGATHER into operand slot 3 by the index in s255, with the stage of ring 0, stage 1, filled at the end. -/
def cpGather : FCopy := { fcopy with
  data := 9
  base := 4
  dsp := 2
  stg := true
  f2 := 255
  f3 := 1
  f7 := 0x10000 }
/-- TFILL of the last word of the window. -/
def cpFill : FCopy := { fcopy with
  data := 10
  dsp := 1 }
/-- TCOPY of one line to node 5. -/
def cpPeer : FCopy := { fcopy with
  base := 4
  dsp := 3
  f0 := 32
  f7 := 5 }
/-- CS with s9 naming slot 3 and s10 the last word of the window. -/
def CR : State := modGroup CS 0 0 (fun g => setSreg (setSreg g 9 (3 <<< 18)) 10 4092)

/-- CopiesStart: TCOPY, TGATHER, TSCATTER, TFILL, a peer copy, and a copy of no element. -/
theorem witness_CopiesStart : Ready CR (xOf CR) .copyOnly true noG 0 (copyOpds cpPlain) ∧ copyOk CR 0 cpPlain false = true ∧
    Ready CR (xOf CR) .copyOnly true noG 0 (copyOpds cpGather) ∧ copyOk CR 1 cpGather false = true ∧
    copyOk CR 2 { cpGather with data := 4, base := 4, dsp := 0 } false = true ∧
    Ready CR (xOf CR) .copyOnly true noG 0 (copyOpds cpFill) ∧ copyOk CR 3 cpFill false = true ∧
    Ready CR (xOf CR) .copyOnly true noG 0 (copyOpds cpPeer) ∧ copyOk CR 0 cpPeer false = true ∧
    copyOk CR 0 { cpPlain with f0 := 0 } true = true :=
  ⟨ready_of (by decide), by decide, ready_of (by decide), by decide, by decide, ready_of (by decide), by decide, ready_of (by decide),
    by decide, by decide⟩

/-- CopiesStart, the ends: a copy of no element retires where nothing of its role comes before it, and does not with a load of the role in flight; one to node 5
without a route. -/
theorem witness_CopyEnds :
    let none_ := { cpPlain with f0 := 0 }
    let busy : State := { CR with
      inflight := [{ aStore with
        kind := .load
        who := CR.cur }]
      nextId := 2 }
    let far : State := { CR with routes := [] }
    let c := fun (s : State) (f : FCopy) => copyOf (xOf s) (copyArgs (xOf s) 0 f) f s.nextId []
    copyOk CR 0 none_ true = true ∧ (c CR none_).mayRetire CR 0 = true ∧
    copyOk busy 0 none_ true = true ∧ (c busy none_).mayRetire busy 0 = false ∧
    (isPeer cpPeer = true ∧ (routePort far (c far cpPeer).node).isNone = true ∧ (c far cpPeer).count ≠ 0) ∧
    Ready far (xOf far) .copyOnly true noG 0 (copyOpds cpPeer) :=
  ⟨by decide, by decide, by decide, by decide, by decide, ready_of (by decide)⟩

/-! #### Class 111: the matrix unit -/

/-- The core of M with a change. -/
def onM (f : Core → Core) : State := modCore M 0 f
/-- M whose group holds slots 6 and 7 and the last four blocks. -/
def MH : State := onM (fun k => takeItems k 0 ([6, 7], [508, 509, 510, 511]))
/-- A core of which another group holds slot 7. -/
def MO : State := onM (fun k => { k with slots := [(7, { OpSlot.reset with holder := .held 1 })] })
/-- The descriptor of the worked tile for the blocks from z508 up: OFMT F16, WIN, SCL 0.25, DSTRIDE 128. -/
def tileDesc : Nat := 508 + 1 <<< 11 + 8 <<< 18 + 1 <<< 25 + 1 <<< 29 + 128 <<< 64 + 0x3E800000 <<< 192
/-- MH with the descriptor in s16 to s23 and a window offset in s8, in a group whose window holds the tile. -/
def MD : State := modGroup MH 0 0 (fun g => { (List.range 8).foldl (fun g q => setSreg g (16 + q) (BitVec.ofNat 64 (tileDesc / 2 ^ (64 * q))))
    (setSreg g 8 0x400) with tmpl := { g.tmpl with sramsz := 0x400 + 64 * 128 } })
/-- V whose group holds slot 7 and the last block, with v6 the last address of slot 7 and v7 the last of the blocks. -/
def VM : State :=
  let s := modCore V 0 (fun k => takeItems k 0 ([7], [511]))
  modWarp s 0 0 0 (fun y => { y with vregs := mapSet (mapSet y.vregs 6 (every (7 * 2 ^ 18 + 0x2FFF0))) 7 (every (2 ^ 19 - 16)) })

/-- MatrixInstructionsComplete: claims, releases, MZERO, MMA and MDRAIN of the last items. -/
theorem witness_MatrixInstructionsComplete :
    let last : BitVec 24 := 0x800000 + 3 <<< 9 + 508
    Ready M (xOf M) .matOnly false noG 0 [] ∧ badBlocks (claimItems last).2 = false ∧
    (∀ h, h ∈ holders (coreOf M 0) (claimItems last) → h = .free ∨ h = .held (xOf M).w.gslot) ∧
    Ready MO (xOf MO) .matOnly false noG 0 [] ∧ (0x80 : BitVec 24).getLsbD 22 = false ∧
    (∃ h q, h ∈ holders (coreOf MO 0) (claimItems 0x80) ∧ h = .held q ∧ q ≠ (xOf MO).w.gslot) ∧
    Ready MH (xOf MH) .matOnly false noG 0 [] ∧ allHeld (coreOf MH 0) (xOf MH).w.gslot (claimItems last) = true ∧
    allHeld (coreOf MH 0) (xOf MH).w.gslot (claimItems 0xC0) = true ∧ mqRoom (coreOf MH 0) = true ∧
    tileTrap (coreOf MH 0) (xOf MH).w.gslot 64 16 508 [6, 7] = none ∧
    Ready MH (xOf MH) .matOnly false noG 0 [.u 4 false] ∧ slotHeld (coreOf MH 0) (xOf MH).w.gslot 7 = true ∧
    Ready MD (xOf MD) .matOnly false noG 0xFF (.u 8 false :: (List.range 8).map (fun q => Opd.u (16 + q) false)) ∧
    (readDesc (xOf MD).grp 16 = tileDesc ∧ drainLegal tileDesc = true ∧ (sreg (xOf MD).grp 8).toNat < 2 ^ 32 ∧
      tileTrap (coreOf MD 0) (xOf MD).w.gslot (drainM tileDesc) (drainN tileDesc) (bitsOf tileDesc 0 9) [] = none ∧
      drainTrap (xOf MD).grp tileDesc (sreg (xOf MD).grp 8).toNat = none ∧ mqRoom (coreOf MD 0) = true ∧ pendingAcqs MD (xOf MD) = []) ∧
    ((xOf M).sp.wait = none ∧ (∀ q, q ∈ (coreOf M 0).mq → q.gslot ≠ (xOf M).w.gslot) ∧
      (∀ q, q ∈ (coreOf M 0).drains → q.gslot ≠ (xOf M).w.gslot)) :=
  ⟨ready_of (by decide), by decide, by decide, ready_of (by decide), by decide, ⟨.held 1, 1, by decide, rfl, by decide⟩, ready_of (by decide),
    by decide, by decide, by decide, by decide, ready_of (by decide), by decide, ready_of (by decide), by decide, by decide⟩

/-- MatrixInstructionsComplete: OST of 16 bytes at the end of slot 7, ALD of 16 bytes at the end of the blocks. -/
theorem witness_MatrixInstructionsComplete_lanes :
    let f := { fm with
      data := 508
      base := 6
      wid := 4 }
    let h := { f with base := 7 }
    misaligned 16 (matAddrs (xOf VM) (guardMask (xOf VM) noG) f) = [] ∧
    (∀ p, p ∈ matAddrs (xOf VM) (guardMask (xOf VM) noG) f → p.2 < 2 ^ 21 ∧ p.2 % 2 ^ 18 < 0x30000 ∧
      (slotOf (coreOf VM 0) (p.2 / 2 ^ 18)).holder = .held (xOf VM).w.gslot) ∧
    Ready VM (xOf VM) .vector false noG 0 [opBase 6 false false 1, .v 508 4 id false] ∧
    misaligned 16 (matAddrs (xOf VM) (guardMask (xOf VM) noG) h) = [] ∧
    (∀ p, p ∈ matAddrs (xOf VM) (guardMask (xOf VM) noG) h → p.2 < 2 ^ 19 ∧
      (blockOf (coreOf VM 0) (p.2 / 1024)).holder = .held (xOf VM).w.gslot) ∧
    Ready VM (xOf VM) .vector false noG 0 [opBase 7 false false 1, .vl 508 4] :=
  ⟨by decide, by decide, ready_of (by decide), by decide, by decide, ready_of (by decide)⟩

/-- MH and MD with the 16 places of the array's queue taken. -/
def full16 (s : State) : State := modCore s 0 (fun k => { k with mq := List.replicate 16 { id := 3, gslot := 1, kind := .mzero 0 1, running := false } })

/-- MatrixInstructionsComplete, what traps and waits: blocks from 510 to 513; items not held; a claim that waits for another group's slot; a tile that is
too large, slot 8 by a register, slots not held, a full queue. -/
theorem witness_MatrixTraps :
    let beyond : BitVec 24 := 0x800000 + 3 <<< 9 + 510
    let large := fun (dst n : Nat) => decide (64 * 2 ^ 0 * (16 * n) > 131072) || decide (dst + (64 / 16) * n > 512)
    let wide := fun (s : State) (a b : Nat) => modGroup s 0 0 (fun g => setSreg (setSreg g 6 (BitVec.ofNat 64 a)) 7 (BitVec.ofNat 64 b))
    let byReg := { fmma with
      u := true
      srca := 6
      srcb := 7
      dst := 508 }
    Ready M (xOf M) .matOnly false noG 0 [] ∧ badBlocks (claimItems beyond).2 = true ∧ badBlocks (claimItems 0x80).2 = false ∧
    allHeld (coreOf M 0) (xOf M).w.gslot (claimItems 0x80) = false ∧
    Ready (full16 MH) (xOf (full16 MH)) .matOnly false noG 0 [] ∧ allHeld (coreOf (full16 MH) 0) 0 (claimItems 0xC0) = true ∧
    mqRoom (coreOf (full16 MH) 0) = false ∧
    Ready MO (xOf MO) .matOnly false noG 0 [] ∧ (0x400080 : BitVec 24).getLsbD 22 = true ∧ holders (coreOf MO 0) (claimItems 0x400080) = [.held 1] ∧
    (large 508 2 = true ∧ large 508 1 = false) ∧ Ready (wide MH 8 7) (xOf (wide MH 8 7)) .matOnly false noG 0 [.u byReg.srca.toNat byReg.fea, .u byReg.srcb.toNat byReg.feb] ∧
    (sreg (xOf (wide MH 8 7)).grp 6).toNat = 8 ∧ (sreg (xOf (wide MH 6 8)).grp 7).toNat = 8 ∧
    allHeld (coreOf M 0) 0 ([6, 7], [508, 509, 510, 511]) = false ∧ allHeld (coreOf (full16 MH) 0) 0 ([6, 7], [508, 509, 510, 511]) = true ∧
    slotHeld (coreOf M 0) 0 7 = false :=
  ⟨ready_of (by decide), by decide, by decide, by decide, ready_of (by decide), by decide, by decide, ready_of (by decide), by decide, by decide,
    by decide, ready_of (by decide), by decide, by decide, by decide, by decide, by decide⟩

/-- MD with another descriptor, base and state of the core. -/
def MDv (v base : Nat) (f : State → State) : State := modGroup (f MD) 0 0 (fun g =>
  (List.range 8).foldl (fun g q => setSreg g (16 + q) (BitVec.ofNat 64 (v / 2 ^ (64 * q)))) (setSreg g 8 (BitVec.ofNat 64 base)))

/-- MatrixInstructionsComplete, MDRAIN: a reserved bit, a window offset of 2^32, a tile beyond the blocks and one not held, a base that is not aligned, one whose rows
leave the window, one outside the user half, and a full queue. -/
theorem witness_DrainTraps :
    let free := fun (s : State) => modCore s 0 (fun k => { k with blocks := [] })
    let ready := fun (s : State) => Ready s (xOf s) .matOnly false noG 0 (.u 8 false :: (List.range 8).map (fun q => Opd.u (16 + q) false))
    let what := fun (s : State) => let v := readDesc (xOf s).grp 16; let b := (sreg (xOf s).grp 8).toNat
      (drainLegal v && (!v.testBit 25 || decide (b < 2 ^ 32)), tileTrap (coreOf s 0) 0 (drainM v) (drainN v) (bitsOf v 0 9) [], (drainTrap (xOf s).grp v b).map (fun e => e.1))
    let virt := tileDesc - 1 <<< 25
    (ready (MDv (tileDesc + 1 <<< 33) 0x400 id) ∧ (what (MDv (tileDesc + 1 <<< 33) 0x400 id)).1 = false ∧ (what (MDv tileDesc (2 ^ 32) id)).1 = false) ∧
    (ready (MDv (tileDesc + 1) 0x400 id) ∧ what (MDv (tileDesc + 1) 0x400 id) = (true, some .accRange, none) ∧
      what (MDv tileDesc 0x400 free) = (true, some .slot, none)) ∧
    (what (MDv tileDesc 0x440 id) = (true, none, some .align) ∧ what (MDv tileDesc 0x480 id) = (true, none, some .window) ∧
      what (MDv virt (2 ^ 56) id) = (true, none, some .pageProtection) ∧ ready (MDv virt (2 ^ 56) id)) ∧
    (ready (MDv tileDesc 0x400 full16) ∧ what (MDv tileDesc 0x400 full16) = (true, none, none) ∧ mqRoom (coreOf (MDv tileDesc 0x400 full16) 0) = false) :=
  ⟨⟨ready_of (by decide), by decide, by decide⟩, ⟨ready_of (by decide), by decide, by decide⟩,
    ⟨by decide, by decide, by decide, ready_of (by decide)⟩, ready_of (by decide), by decide, by decide⟩

/-- MatrixInstructionsComplete, OST and ALD: an odd address; the first past slot 7's bytes, the first past the blocks; a slot and a block not held. -/
theorem witness_LaneTraps :
    let at_ := fun (a b : W32) => modWarp V 0 0 0 (fun y => { y with vregs := mapSet (mapSet y.vregs 6 (every a)) 7 (every b) })
    let f := { fm with
      data := 508
      base := 6
      wid := 4 }
    let addrs := fun (s : State) (b : BitVec 9) => matAddrs (xOf s) (guardMask (xOf s) noG) { f with base := b }
    let s := at_ (7 * 2 ^ 18 + 8) (2 ^ 19 - 8)
    let t := at_ (7 * 2 ^ 18 + 0x30000) (2 ^ 19)
    let u := at_ (7 * 2 ^ 18) (2 ^ 19 - 16)
    (Ready s (xOf s) .vector false noG 0 [opBase 6 false false 1, .v 508 4 id false] ∧ Ready s (xOf s) .vector false noG 0 [opBase 7 false false 1, .vl 508 4] ∧
      ([6, 7].all (fun b => ((addrs s b).filter (fun a => a.2 % 16 ≠ 0)).length == 32)) = true) ∧
    (Ready t (xOf t) .vector false noG 0 [opBase 6 false false 1, .v 508 4 id false] ∧ Ready t (xOf t) .vector false noG 0 [opBase 7 false false 1, .vl 508 4] ∧
      ((addrs t 6).all (fun a => a.2 % 16 == 0 && !(decide (a.2 < 2 ^ 21) && decide (a.2 % 2 ^ 18 < 0x30000))) &&
        (addrs t 7).all (fun a => a.2 % 16 == 0 && !decide (a.2 < 2 ^ 19))) = true) ∧
    (Ready u (xOf u) .vector false noG 0 [opBase 6 false false 1, .v 508 4 id false] ∧ Ready u (xOf u) .vector false noG 0 [opBase 7 false false 1, .vl 508 4] ∧
      ((addrs u 6).all (fun a => a.2 % 16 == 0 && decide (a.2 < 2 ^ 21) && decide (a.2 % 2 ^ 18 < 0x30000) && !slotHeld (coreOf u 0) 0 (a.2 / 2 ^ 18)) &&
        (addrs u 7).all (fun a => a.2 % 16 == 0 && decide (a.2 < 2 ^ 19) && (blockOf (coreOf u 0) (a.2 / 1024)).holder != .held 0)) = true) :=
  ⟨⟨ready_of (by decide), ready_of (by decide), by decide⟩, ⟨ready_of (by decide), ready_of (by decide), by decide⟩,
    ready_of (by decide), ready_of (by decide), by decide⟩

/-- The state an instruction leads to. -/
def after (i : Instr) (s : State) : State :=
  match exec i s with
  | .next t => { t with
    schedule := []
    cur := s.cur }
  | _ => s
/-- The first request in flight may be performed, is of this kind, and no other access. -/
def firstIs (k : ReqKind) (s : State) : Bool :=
  (s.inflight[0]?).any (fun r => r.kind == k && eligible s r && r.ord == 0 && !r.sync)

/-- MatrixInstructionsComplete: the requests of an OST and of an ALD of 16 bytes. -/
theorem witness_MatrixInstructionsComplete_homes :
    firstIs .ost (after (.ost noG { fm with
      data := 508
      base := 6
      wid := 4 }) VM) = true ∧
    firstIs .ald (after (.ald noG { fm with
      data := 508
      base := 7
      wid := 4 }) VM) = true := by decide


/-! #### Events and automata -/

/-- V with domain 0 of die 0 configured, stream 3 of it OPEN for the context with record 7 as its latest, and stream 4 OPEN with
none; s12 names stream 3 with threshold 7, s13 with 8, s14 stream 4, s15 a stream that is not the context's. -/
def EV : State :=
  let s := modDom V 0 (fun d => { d with cfg := true })
  let s := modStream s 3 (fun t => { t with
    st := .open_
    latest := some { eventOfBits 3 with seq := 7 } })
  let s := modStream s 4 (fun t => { t with st := .open_ })
  modGroup s 0 0 (fun g => setSreg (setSreg (setSreg (setSreg g 12 (7 <<< 32 + 3)) 13 (8 <<< 32 + 3)) 14 4) 15 5)

/-- EventAndAutomatonInstructionsComplete, events: EMIT of s4 to s7 with a token; EVRD and EVWAIT of a record that meets the
threshold, of one that does not, of none, and of another's stream. -/
theorem witness_EventInstructions :
    let f : FM := { fm with
      data := 4
      ord := 2
      tse := true
      tslot := 7 }
    let mine := fun (r : Nat) => let n := (sreg (xOf EV).grp r).toNat % 2 ^ 14
      (streamOf EV n).st == .open_ && (streamOf EV n).ctx == (xOf EV).grp.ctx
    Ready EV (xOf EV) .all true noG f.twait ((List.range 4).map (fun i => Opd.u (f.data.toNat + i) f.fe)) ∧
    emitIllegal (xOf EV) f = false ∧ deviceReleased EV (xOf EV) = true ∧ (dieOf EV 0).intakeQ = [] ∧
    Ready EV (xOf EV) .all true noG 0 [.u 12 false] ∧ Ready EV (xOf EV) .all true noG 0 [.u 13 false] ∧
    Ready EV (xOf EV) .all true noG 0 [.u 14 false] ∧ Ready EV (xOf EV) .all true noG 0 [.u 15 false] ∧
    (mine 12 = true ∧ mine 14 = true ∧ mine 15 = false) ∧ (streamOf EV 4).latest = none ∧ (xOf EV).sp.wait = none ∧
    (streamOf EV 3).latest.map (fun e => (evMeets e 7, evMeets e 8)) = some (true, false) :=
  ⟨ready_of (by decide), by decide, by decide, by decide, ready_of (by decide), ready_of (by decide), ready_of (by decide),
    ready_of (by decide), by decide, by decide, by decide, by decide⟩

/-- The least image: two locations, one edge from 0 to 1, one template (R112 to R116). -/
def leastImage : List Byte := bytesLE 64 (1 + 1 <<< 33) ++ bytesLE 32 0 ++ bytesLE 32 (1 <<< 4) ++ bytesLE 128 (1 <<< 96)
/-- EV with that image at 8192, its state at 9216, and s9 to s11 the control words of automaton 255 of die 0: the slot, with FREE,
with STATE; s16 the state's address, s17 the image's. -/
def AV : State :=
  let s := { EV with mem := memSetBytes (memSetBytes EV.mem 8192 leastImage) 9216 (stateBytes (loadedAuto 0 leastImage 8192) 8192) }
  let s := modCtx s 0 (fun c => { c with regions := [{ rcbOf 0 with cands := 1 }] })
  modGroup s 0 0 (fun g => setSreg (setSreg (setSreg (setSreg (setSreg g 9 255) 10 (255 + 1 <<< 10)) 11 (255 + 1 <<< 11)) 16 9216) 17 8192)
/-- AV with the automaton LOADED. -/
def AL : State := modAuto AV 0 255 (fun _ => loadedAuto 0 leastImage 8192)
/-- AV with the automaton ARMED. -/
def AA : State := modAuto AL 0 255 (fun a => { a with st := .armed })

/-- ALOAD of an image and FREE of a slot: layout M with the control word in `d` and the address in `b`. -/
def fau (d b : BitVec 9) : FM := { fm with
  data := d
  base := b }

/-- A state in which the PLU of die 0 gives the turn to the issuer, and that turn taken. -/
def go (s : State) : State := modDie s 0 (fun d => { d with autoGo := some s.cur })
def given (s : State) : State := modDie (go s) 0 (fun d => { d with autoGo := none })

/-- EventAndAutomatonInstructionsComplete, ALOAD: FREE, an image, a state; the turn of the PLU not given and given. -/
theorem witness_AutomatonLoads :
    let x := xOf (go AV)
    let m := guardMask x noG
    let u := dropWalks (given AV) x
    let v := dropWalks u x
    ((dieOf AL 0).autoGo = none ∧ (dieOf (go AV) 0).autoGo = some x.w ∧ (dieOf (go AL) 0).autoGo = some (xOf (go AL)).w) ∧
    Ready AL (xOf AL) .vector true noG 0 [.u 10 false] ∧
    Ready (go AL) (xOf (go AL)) .vector true noG 0 [.u 10 false] ∧ autoMine (go AL) (xOf (go AL)) 0 255 [.loaded, .faulted] = true ∧
    Ready (go AV) x .vector true noG 0 [.u 9 false, .u 4 false] ∧ deviceReleased (go AV) x = true ∧
    (∃ h, heldBytes (given AV) x m 8192 64 = some h ∧ (imageSizes (ofBytesLE h)).2.2.2 = leastImage.length) ∧
    heldBytes u x m 8192 leastImage.length = some leastImage ∧
    ((autoOf v 0 255).st = .free ∧ imageOk leastImage (ctxOf v 0).regions.length = true ∧ (domOf v 0).cfg = true ∧
      (domOf v 0).die = 0 ∧ dieEntries v 0 ≤ 16384 ∧ admitted (ctxOf v 0).regions 0 { cand := 0 } = true) ∧
    Ready (go AV) x .vector true noG 0 [.u 11 false, .u 16 false] ∧ (match loadState (given AV) x m 0 255 9216 with
      | .done t => (autoOf t 0 255).st == .loaded
      | _ => false) = true :=
  ⟨by decide, ready_of (by decide), ready_of (by decide), by decide, ready_of (by decide), by decide, ⟨_, by rfl, by decide⟩, by decide, by decide,
    ready_of (by decide), by decide⟩

/-- AV with other control words in s9 to s11. -/
def AW (a b c : W64) (s : State) : State := modGroup s 0 0 (fun g => setSreg (setSreg (setSreg g 9 a) 10 b) 11 c)

/-- EventAndAutomatonInstructionsComplete, the traps: a control word with a reserved bit or with FREE and STATE, a slot that is not the
context's, an address that is not aligned, a slot in use. -/
theorem witness_AutomatonTraps :
    let s := AW (2 ^ 12) (2 ^ 10 + 2 ^ 11) (2 ^ 10) AL
    let free := go AV
    Ready s (xOf s) .vector true noG 0 [.u 9 false, .u 4 false] ∧ Ready s (xOf s) .vector true noG 0 [.u 10 false] ∧
    Ready s (xOf s) .vector true noG 0 [.u 11 false, .u 16 false, .u 17 false] ∧ Ready s (xOf s) .vector true noG 0 [.u 11 false] ∧
    ((sreg (xOf s).grp 9).toNat = 2 ^ 12 ∧ (sreg (xOf s).grp 10).toNat.testBit 11 = true ∧ (sreg (xOf s).grp 11).toNat = 2 ^ 10) ∧
    Ready free (xOf free) .vector true noG 0 [.u 10 false] ∧ autoMine free (xOf free) 0 255 [.loaded, .faulted] = false ∧
    Ready AV (xOf AV) .vector true noG 0 [.u 9 false, .u 8 false] ∧ (sreg (xOf AV).grp 8).toNat % 64 ≠ 0 ∧
    (∃ h, heldBytes (given AL) (xOf (go AL)) (guardMask (xOf (go AL)) noG) 8192 64 = some h ∧ (imageSizes (ofBytesLE h)).2.2.2 = leastImage.length) ∧
    heldBytes (dropWalks (given AL) (xOf (go AL))) (xOf (go AL)) (guardMask (xOf (go AL)) noG) 8192 leastImage.length = some leastImage ∧
    (autoOf (dropWalks (dropWalks (given AL) (xOf (go AL))) (xOf (go AL))) 0 255).st ≠ .free :=
  ⟨ready_of (by decide), ready_of (by decide), ready_of (by decide), ready_of (by decide), by decide, ready_of (by decide), by decide,
    ready_of (by decide), by decide, ⟨_, by rfl, by decide⟩, by decide, by decide⟩

/-- AL with a candidate whose deadline has gone by. -/
def ALate : State := modAuto (modStream (modStream AL 3 (fun t => { t with last := 100 })) 4 (fun t => { t with last := 100 })) 0 255 (fun a => { a with
  img := { a.img with locs := a.img.locs.map (fun l => { l with
    inven := true
    invc := 0 }) }
  cands := [⟨0, 1, [0, 0, 0, 0], [], []⟩] })

/-- EventAndAutomatonInstructionsComplete, AARM, ADISARM (by register and by immediate) and ASAVE, whose slot is theirs or is not, whose
turn has come or has not; an AARM whose candidate is late. -/
theorem witness_AutomatonArms :
    let a := autoOf (given AL) 0 255
    let x := xOf (go AL)
    let m := guardMask x noG
    let late := fun (s : State) => (autoOf (given s) 0 255).cands.filter (fun c =>
      (deadlineOf (autoOf (given s) 0 255).img c).elim false (fun t => decide (t < processingPoint (given s) 0)))
    Ready AL (xOf AL) .vector true noG 0 [.u 9 false] ∧ (dieOf AL 0).autoGo = none ∧
    Ready (go AL) x .vector true noG 0 [.u 9 false] ∧ Ready (go AL) x .vector true noG 0 [] ∧ autoMine (given AL) x 0 255 [.loaded] = true ∧
    (detElsewhere (given AL) 0 a = false ∧ (domOf (given AL) a.img.domain).halt = .run ∧ (domOf (given AL) a.img.domain).work = [] ∧ late AL = []) ∧
    (late ALate).length = 1 ∧ Ready (go ALate) (xOf (go ALate)) .vector true noG 0 [.u 9 false] ∧
    Ready (go AA) (xOf (go AA)) .vector true noG 0 [.u 9 false] ∧ autoMine (given AA) (xOf (go AA)) 0 255 [.armed] = true ∧ (domOf (given AA) 0).work = [] ∧
    (autoMine (given AA) (xOf (go AA)) 0 255 [.loaded] = false ∧ autoMine (given AL) x 0 255 [.armed] = false) ∧
    Ready (go AL) x .vector true noG 0 [.u 9 false, .u 16 false, .u 17 false] ∧ deviceReleased (go AL) x = true ∧ (go AL).poison = [] ∧
    (heldRange (given AL) x m 1 9216 (stateBytes a 8192).length).isSome = true ∧ (heldRange (dropWalks (given AL) x) x m 1 8192 256).isSome = true ∧
    Ready (go AA) (xOf (go AA)) .vector true noG 0 [.u 9 false, .u 16 false, .u 17 false] :=
  ⟨ready_of (by decide), by decide, ready_of (by decide), ready_of (by decide), by decide, by decide, by decide, ready_of (by decide), ready_of (by decide), by decide, by decide,
    by decide, ready_of (by decide), by decide, by decide, by decide, by decide, ready_of (by decide)⟩

/-- EventAndAutomatonInstructionsComplete, the turn of the PLU: one role that waits for it. -/
theorem witness_AutomatonTurn :
    let s := modWarp (modDie AL 0 (fun d => { d with autoQ := [(AL.cur, 0)] })) 0 0 0 (fun y =>
      { y with splits := y.splits.map (fun o => o.map (fun q => { q with blk := .plu })) })
    (dieOf s 0).autoGo = none ∧ (dieOf s 0).autoQ = [(AL.cur, 0)] ∧ atPlu s AL.cur = true := by decide

/-- EventAndAutomatonInstructionsComplete, EMIT: a kind from 0xE0; the queue of its core full; a copy to node 5 ahead, in its warp or not; U = 1 to node 5, with a port
that is up and has room, that has none, without a port that is up, and without a route. -/
theorem witness_EmitForms :
    let f : FM := { fm with data := 4, base := 10, ord := 2 }
    let r : FM := { f with u := true }
    let ops := (List.range 4).map (fun i => Opd.u (4 + i) false)
    let bad := modGroup EV 0 0 (fun g => setSreg g 4 (0xE0 <<< 16))
    let full := modDie EV 0 (fun d => { d with intakeQ := List.replicate 4 ⟨1, 0, false, eventOfBits 0, none, none, none, none, 0⟩ })
    let far := modPort (modGroup { EV with routes := [(5, (2, none))] } 0 0 (fun g => setSreg g 10 5)) 2 (fun q => { q with st := .active })
    let down := modPort far 2 (fun q => { q with st := .down })
    let nowhere : State := { far with routes := [] }
    let noRoom := modPort far 2 (fun q => { q with replay := (List.range 512).map (fun i => (i, 0)) })
    let busy : State := { EV with inflight := [aStore] }
    Ready bad (xOf bad) .all true noG 0 ops ∧ emitIllegal (xOf bad) f = true ∧
    Ready full (xOf full) .all true noG 0 ops ∧ emitIllegal (xOf full) f = false ∧
    ((dieOf full 0).intakeQ.filter (fun i => i.cls == 1 && i.key == 0)).length = 4 ∧
    (∀ t ∈ [far, down, nowhere, noRoom], Ready t (xOf t) .all true noG 0 (ops ++ [.u 10 false])) ∧
    (emitIllegal (xOf far) r = false ∧ copiesTo far (xOf far) 5 = false ∧ deviceReleased far (xOf far) = true ∧ routePort far 5 = some 2 ∧ portRoom far 2 = true) ∧
    (routePort down 5 = none ∧ mapFind down.routes 5 = some (2, none) ∧ routePort nowhere 5 = none ∧ mapFind nowhere.routes 5 = none ∧
      routePort noRoom 5 = some 2 ∧ portRoom noRoom 2 = false) ∧
    Ready busy (xOf busy) .all true noG 0 ops ∧ deviceReleased busy (xOf busy) = false := by
  refine ⟨ready_of (by decide), by decide, ready_of (by decide), by decide, by decide, ?_, by decide, by decide, ready_of (by decide), by decide⟩
  intro t ht
  simp only [List.mem_cons, List.not_mem_nil, or_false] at ht
  obtain rfl | rfl | rfl | rfl := ht <;> exact ready_of (by decide)

/-! #### Combining, the host, video -/

/-- V with the descriptor of a batch of one row of 64 at 8192 and its token record, expert 255, at 8256; the region's CSLOTS is 1.
s9 is the last die. -/
def KV : State :=
  let d := 100 <<< 160 + 8256 <<< 256 + 8192 <<< 320 + 8192 <<< 448
  let s := { V with mem := memSetBytes (memSetBytes V.mem 8192 (bytesLE 64 d)) 8256 (bytesLE 64 (0x3F800000 + 255 <<< 32 + 1 <<< 40)) }
  let s := modCtx s 0 (fun c => { c with regions := [{ rcbOf 0 with cslots := 1 }] })
  modGroup s 0 0 (fun g => setSreg g 9 3)
/-- CALLOC s10, s4 of the die in s9, its condition in c3. -/
def fCalloc : FA := { fa .i8 with
  dst := 10
  srcb := 9
  rnd := 3 }

/-- CombineInstructionsComplete, CALLOC: the batch of one row on the last die. -/
theorem witness_Calloc :
    let x := xOf KV
    let m := guardMask x noG
    let u := dropWalks KV x
    let bs := bytesLE 64 (100 <<< 160 + 8256 <<< 256 + 8192 <<< 320 + 8192 <<< 448)
    let ts := bytesLE 64 (0x3F800000 + 255 <<< 32 + 1 <<< 40)
    let b := batchOf (ofBytesLE bs) x.grp.ctx x.grp.region x.grp.launch
    Ready KV x .vector true noG 0 [.u 4 false, .u 9 false] ∧ x.sp.wait = none ∧ (sreg x.grp 9).toNat < 4 ∧
    (sreg x.grp 4).toNat % 64 = 0 ∧ deviceReleased KV x = true ∧ heldBytes KV x m 8192 64 = some bs ∧
    batchOk (ofBytesLE bs) = true ∧ heldBytes u x m (bitsOf (ofBytesLE bs) 256 64) (64 * b.n) = some ts ∧
    (∀ t, t < b.n → tokenOk (bytesAt ts (64 * t) 64) b.kmax = true) :=
  ⟨ready_of (by decide), by decide⟩

/-- CombineInstructionsComplete, CALLOC, the traps: die 4, an odd address, a descriptor with a reserved bit, a token record with one. -/
theorem witness_CallocTraps :
    let four := modGroup KV 0 0 (fun g => setSreg g 9 4)
    let d := 100 <<< 160 + 8256 <<< 256 + 8192 <<< 320 + 8192 <<< 448
    let spoil := fun (a : Nat) => { KV with mem := memSetBytes KV.mem (a + 63) [0x80] }
    let read := fun (s : State) => heldBytes s (xOf s) (guardMask (xOf s) noG) 8192 64
    let toks := fun (s : State) => heldBytes (dropWalks s (xOf s)) (xOf s) (guardMask (xOf s) noG) 8256 64
    (Ready four (xOf four) .vector true noG 0 [.u 4 false, .u 9 false] ∧ (sreg (xOf four).grp 9).toNat = 4) ∧
    (Ready KV (xOf KV) .vector true noG 0 [.u 8 false, .u 9 false] ∧ (sreg (xOf KV).grp 8).toNat = 1) ∧
    (Ready (spoil 8192) (xOf (spoil 8192)) .vector true noG 0 [.u 4 false, .u 9 false] ∧
      (read (spoil 8192)).any (fun bs => !batchOk (ofBytesLE bs)) = true) ∧
    (Ready (spoil 8256) (xOf (spoil 8256)) .vector true noG 0 [.u 4 false, .u 9 false] ∧ read (spoil 8256) = some (bytesLE 64 d) ∧
      (batchOf d 0 0 0).n = 1 ∧ (toks (spoil 8256)).any (fun ts => !tokenOk (bytesAt ts 0 64) (batchOf d 0 0 0).kmax) = true) :=
  ⟨⟨ready_of (by decide), by decide⟩, ⟨ready_of (by decide), by decide⟩, ⟨ready_of (by decide), by decide⟩, ready_of (by decide), by decide,
    by decide, by decide⟩

/-- KV in a region with no combine slots left to it. -/
def KN : State := modCtx KV 0 (fun c => { c with regions := [{ rcbOf 0 with cslots := 0 }] })
/-- What a role waits in as a CALLOC: the die, c, whether it is CALLOC.W, and whether its die has the slots. -/
def callocWaits (s : State) : Option (Nat × Nat × Bool × Bool) :=
  match waitOf s (xOf s).w with
  | some (.calloc _ die creg keep b rows) => some (die, creg, keep, (callocTry s die b rows).isSome)
  | _ => none

/-- CombineInstructionsComplete: a waiting CALLOC whose slots are free, one whose are not, and a CALLOC.W whose are not. -/
theorem witness_CallocServed : callocWaits (after (.calloc noG fCalloc) KV) = some (3, 3, false, true) ∧
    callocWaits (after (.calloc noG fCalloc) KN) = some (3, 3, false, false) ∧
    callocWaits (after (.calloc noG { fCalloc with sat := true }) KN) = some (3, 3, true, false) := by decide

/-- KV after that CALLOC is served, with the handle in s11, the new gate of expert 255 in s12 and the post's word in s13. -/
def KO : State :=
  modGroup (serveCalloc (after (.calloc noG fCalloc) KV) 3 (xOf KV).w) 0 0 (fun g => setSreg (setSreg (setSreg g 11 (1 <<< 32 + 3 <<< 13))
    12 (255 <<< 32 + 5)) 13 (1 <<< 32 + 255 <<< 24 + 3 <<< 13))

/-- CombineInstructionsComplete, CGATE, CPOST and CQRY of that slot; CPOST of one register and of a pair. -/
theorem witness_GatePostQuery :
    let x := xOf KO
    let h := (sreg x.grp 11).toNat
    let v := (sreg x.grp 12).toNat
    let c := cslotOf KO (bitsOf h 13 2) (bitsOf h 0 13)
    let p := (sreg x.grp 13).toNat
    Ready KO x .vector true noG 0 [.u 11 false, .u 12 false] ∧
    ((List.range c.rows.length).find? (fun p => (c.rows.getD p (0, 0, 0)).1 == bitsOf v 32 8) = some 0 ∧ bitsOf v 40 24 = 0 ∧
      bitsOf h 32 16 = c.gen ∧ c.st = .open_ ∧ bitsOf 0 32 16 ≠ c.gen) ∧
    Ready KO x .vector true noG 0 [.u 13 false, .v 511 1 id false, .pre 0 .nothing false] ∧
    Ready KO x .vector true noG 0 [.u 13 false, .v 510 2 id false, .pre 0 .nothing false] ∧
    (List.range 32).any (fun l => (List.range 2).any (fun i => vEmpty x.wp (510 + i) l)) = false ∧
    (x.sp.wait = none ∧ bitsOf p 56 8 = 0 ∧ bitsOf p 15 9 = 0 ∧ pendingAcqs KO x = []) ∧
    Ready KO x .vector false noG 0 [.u 11 false, .ud 255] :=
  ⟨ready_of (by decide), by decide, ready_of (by decide), ready_of (by decide), by decide, by decide, ready_of (by decide)⟩

/-- CombineInstructionsComplete, CGATE and CPOST, what traps and waits: reserved bits of their words, a Cistern that combines in the cycle, an acquire
open; an expert that is not expected. -/
theorem witness_GatePostTraps :
    let bad := modGroup KO 0 0 (fun g => setSreg (setSreg g 12 (1 <<< 63)) 13 (1 <<< 23))
    let busy := modDie KO 3 (fun d => { d with combining := true })
    let open_ := modWarp { KO with inflight := [{ aStore with kind := .load, sync := true, ord := 1 }] } 0 0 0 (fun y =>
      { y with splits := y.splits.map (fun o => o.map (fun q => { q with acqs := [1] })) })
    let c := cslotOf KO 3 0
    (Ready bad (xOf bad) .vector true noG 0 [.u 11 false, .u 12 false] ∧ bitsOf (sreg (xOf bad).grp 12).toNat 40 24 ≠ 0) ∧
    (Ready bad (xOf bad) .vector true noG 0 [.u 13 false, .v 511 1 id false, .pre 0 .nothing false] ∧ bitsOf (sreg (xOf bad).grp 13).toNat 15 9 ≠ 0) ∧
    (Ready busy (xOf busy) .vector true noG 0 [.u 11 false, .u 12 false] ∧ (dieOf busy 3).combining = true ∧ (dieOf KO 3).combining = false) ∧
    (Ready open_ (xOf open_) .vector true noG 0 [.u 13 false, .v 511 1 id false, .pre 0 .nothing false] ∧ pendingAcqs open_ (xOf open_) ≠ []) ∧
    (List.range c.rows.length).find? (fun p => (c.rows.getD p (0, 0, 0)).1 == bitsOf (254 <<< 32) 32 8) = none :=
  ⟨⟨ready_of (by decide), by decide⟩, ⟨ready_of (by decide), by decide⟩, ⟨ready_of (by decide), by decide⟩, ⟨ready_of (by decide), by decide⟩,
    by decide⟩

/-- V in a partition at INVASIVE. -/
def VI : State := modPart V 0 (fun p => { p with dbg := 2 })

/-- SystemCallsAndTrapsComplete: SYSCALL to the firmware and to the host (SERVICE from 2^31 up), TRAP, BRKPT below INVASIVE and at it. -/
theorem witness_SystemCallsAndTrapsComplete :
    Ready V (xOf V) .vector true noG 0 [.v 508 4 id false, .u 4 false, .vl 2 2] ∧ (xOf V).wp.sysOut = none ∧
    deviceReleased V (xOf V) = true ∧
    Ready (modGroup V 0 0 (fun g => setSreg g 4 0x80000000)) (xOf (modGroup V 0 0 (fun g => setSreg g 4 0x80000000))) .vector true noG 0
      [.v 508 4 id false, .u 4 false, .vl 2 2] ∧
    Ready V (xOf V) .all true noG 0 [] ∧ (partOf V (ctxOf V 0).part).dbg ≠ 2 ∧ Ready VI (xOf VI) .all true noG 0 [] ∧
    (partOf VI (ctxOf VI 0).part).dbg = 2 :=
  ⟨ready_of (by decide), by decide, by decide, ready_of (by decide), ready_of (by decide), by decide, ready_of (by decide), by decide⟩

/-- V whose partition may use decoder 7 of die 3, with that decoder and queue 31 of die 3 in s9 and s10; the queue holds one entry of
two, entries are read and written at s4. -/
def DV : State :=
  let s := modPart V 0 (fun p => { p with decmask := 2 ^ 31 })
  let s := modBq s 3 31 (fun b => { b with
    enabled := true
    cap := 2
    ents := [List.replicate 64 1] })
  modGroup s 0 0 (fun g => setSreg (setSreg g 9 31) 10 127)
/-- DV with the queue changed. -/
def DQ (f : BQ → BQ) : State := modBq DV 3 31 f

/-- VideoInstructionsComplete: VDSUB; BQPUT and BQGET of the queue with one entry, full, empty and DISABLED. -/
theorem witness_VideoInstructionsComplete :
    let x := xOf DV
    let m := guardMask x noG
    let v := (sreg x.grp 9).toNat
    let w := (sreg x.grp 10).toNat
    let mine := fun (s : State) => (bqOf s 3 31).part == (ctxOf s (xOf s).grp.ctx).part
    Ready DV x .vector true noG 0xFF [.u 9 false, .u 4 false] ∧ Ready DV x .vector true noG 0xFF [.u 10 false, .u 4 false] ∧
    ((sreg x.grp 4).toNat % 64 = 0 ∧ deviceReleased DV x = true ∧ v < 2 ^ 5 ∧
      (partOf DV (ctxOf DV x.grp.ctx).part).decmask.testBit (8 * (v / 8 % 4) + v % 8) = true ∧ (decOf DV 3 7).queue = [] ∧
      (heldBytes DV x m 8192 64).isSome = true) ∧
    (w < 2 ^ 7 ∧ w / 32 % 4 = 3 ∧ w % 32 = 31 ∧ x.sp.wait = none ∧ mine DV = true ∧ (bqOf DV 3 31).enabled = true ∧
      (bqOf DV 3 31).ents.length < (bqOf DV 3 31).cap ∧ (heldRange DV x m 1 8192 64).isSome = true ∧ DV.poison = []) ∧
    ([DQ (fun b => { b with cap := 1 }), DQ (fun b => { b with ents := [] }), DQ (fun b => { b with enabled := false })] : List State).all
      (fun s => readyB s .vector true noG 0xFF [.u 10 false, .u 4 false] && deviceReleased s (xOf s) && mine s && (xOf s).sp.wait.isNone &&
        (heldBytes s (xOf s) m 8192 64).isSome && (heldRange s (xOf s) m 1 8192 64).isSome && s.poison.isEmpty) = true :=
  ⟨ready_of (by decide), ready_of (by decide), by decide, by decide, by decide⟩

/-- A put and a get that the queue of DV is asked for in one cycle. -/
def aPut : Ask := ⟨(xOf DV).w, 1, .put 31 (List.replicate 64 2)⟩
def aGet : Ask := ⟨(xOf DV).w, 2, .get 31 [(8192, 64)]⟩
/-- DV asked, its queue of a capacity. -/
def DM (cap : Nat) (as : List Ask) : State := modDie (DQ (fun b => { b with cap := cap })) 3 (fun d => { d with asks := as })

/-- VideoInstructionsComplete: a put and a get that meet on the queue, FULL and not, in either order; each alone on a queue that can take
it and on one that cannot. -/
theorem witness_QueueAsksMeet : (dieOf (DM 1 [aPut, aGet]) 3).asks = [aPut, aGet] ∧ (dieOf (DM 2 [aGet, aPut]) 3).asks = [aGet, aPut] ∧
    ([1, 2] : List Nat).map (fun cap => decide ((bqOf (DM cap []) 3 31).cap ≤ (bqOf (DM cap []) 3 31).ents.length)) = [true, false] ∧
    (bqOf DV 3 31).enabled = true ∧ (bqOf DV 3 31).ents = [List.replicate 64 1] ∧
    (bqOf (DQ (fun b => { b with ents := [] })) 3 31).ents = [] := by decide

/-! #### Rings, packets, contexts -/

/-- `PacketReady` as a value, its partition with it. -/
def packetB (s : State) (k : Pkt) (control : Bool) (p : Nat) : Bool :=
  ringPart s k.ring == some p && (ringOf s k.ring).st != .disabled && (ringOf s k.ring).st != .stopped &&
  (!k.barrier || (ringOf s k.ring).open_ == 0) && k.caddr.toNat % 8 == 0 && !k.rsv &&
  (s.power == .d0 || s.power == .dieRetain) && (!control || !isShadow s k.ring && !fwDown s)
theorem packet_of {s : State} {k : Pkt} {control : Bool} {p : Nat} (h : packetB s k control p = true) : PacketReady s k control p := by
  simp only [packetB, Bool.and_eq_true] at h
  obtain ⟨⟨⟨⟨⟨⟨⟨h1, h2⟩, h3⟩, h4⟩, h5⟩, h6⟩, h8⟩, h7⟩ := h
  refine ⟨by simpa using h1, by simpa using h2, by simpa using h3, ?_, by simpa using h5, by simpa using h6, by simpa using h8, ?_⟩
  · intro hb; simpa [hb] using h4
  · intro hc; simpa [hc] using h7

/-- V with partition 0 on core 0 and ring 63 of it RUNNING. -/
def P : State :=
  let s := modPart V 0 (fun p => { p with
    en := true
    femask := 1 })
  modRing s 63 (fun r => { r with
    en := true
    st := .running })
/-- A packet of ring 63 with its BARRIER bit. -/
def pkt (v : Nat) : Pkt := ⟨63, 5, 8, true, BitVec.ofNat 256 v, false⟩

/-- RegisterStepsComplete: the last ring, whose EN is 0 or 1, the last function, and a partition register of partition 15 written. -/
theorem witness_RegisterStepsComplete : ({ V with power := .d3cold } : State).power = .d3cold ∧ V.power ≠ .d3cold ∧ (ringOf V 63).en = false ∧ (63 : Nat) < 64 ∧ (15 : Nat) < 16 ∧ (16 : Nat) ≠ 0 ∧
    (P.ctxs.all (fun e => e.2.st == .free || e.2.part != 15)) = true ∧
    (let new := partWritten (partOf P 15) (255 + 255 <<< 8 + 1 <<< 16 + 1 <<< 65)
     new.base ≤ new.limit ∧ (List.range 15).all (fun q => partsApart new (partOf P q)) = true ∧ new.en = true ∧
     (partOf P 15).en = false) := by decide

/-- EventPacketsComplete: POST_EVENT to an OPEN stream and to one that is not, DOMAIN_CONFIG of the last domain, STREAM_BIND of the
last stream to a domain of this context, STREAM_CLOSE. -/
theorem witness_EventPacketsComplete :
    let s := modStream (modDom P 63 (fun q => { q with cfg := true })) 3 (fun t => { t with st := .open_ })
    let e := eventOfBits (3 + 0xDF <<< 16)
    let b := 16383 + 63 <<< 16
    PacketReady s (pkt (3 + 0xDF <<< 16)) false 0 ∧ PacketReady s (pkt 63) true 0 ∧
    eventRsvOk (3 + 0xDF <<< 16) = true ∧ e.kind.toNat < 0xE0 ∧ (streamOf s 3).st = .open_ ∧
    (ctxOf s (streamOf s 3).ctx).part = 0 ∧ (streamOf s 4).st ≠ .open_ ∧
    bitsOf 63 6 2 = 0 ∧ bitsOf 63 12 244 = 0 ∧ (domOf s 63).buffer = false ∧
    bitsOf b 14 2 = 0 ∧ bitsOf b 22 2 = 0 ∧ bitsOf b 32 32 = 0 ∧ bitsOf b 128 128 = 0 ∧ bitsOf b 16 6 = 63 ∧
    (ctxOf s 0).st = .resident ∧ (ctxOf s 0).part = 0 ∧ (domOf s 63).cfg = true ∧ (streamOf s 16383).st ≠ .open_ ∧
    buffersOn s 0 < 16 ∧ bitsOf 3 14 242 = 0 ∧ (streamOf s 3).closing = false :=
  ⟨packet_of (by decide), packet_of (by decide), by decide⟩

/-- P with the descriptor of a context, PASID 2, its one RCB of no budget at 8192 + 128, at 8192; its save area has room. -/
def PC : State := { P with mem := memSetBytes P.mem 8192 (bytesLE 64 (4096 * 16 + (8320 / 64) <<< 70 + 2 <<< 204 + 4096 <<< 224)) }

/-- ContextPacketsComplete, CREATE. -/
theorem witness_Create :
    let d := memNat PC.mem 8192 64
    let n := newContext d []
    PacketReady PC (pkt 8192) true 0 ∧ bitsOf 8192 64 192 = 0 ∧ n.part = 0 ∧ freeCtx PC = some 1 ∧ inHole 8192 = false ∧ descOk d = true ∧
    ctxOfPasid PC n.pasid = none ∧ (∃ rs, readTree PC n.rcbbase (n.nregions + 1) = some rs ∧
    64 + (rs.getD 0 (rcbOf 0)).regkib + (rs.getD 0 (rcbOf 0)).sramkib + 2 * (rs.getD 0 (rcbOf 0)).groups +
      2048 * (coresOf PC 0).length ≤ n.savesize) :=
  ⟨packet_of (by decide), by decide, by decide, by decide, by decide, by decide, by decide, ⟨_, rfl, by decide⟩⟩

/-- P with its context in a state, its root region stopped, region 255 present and stopped, the tree readable at 8320. -/
def PX (st : XState) : State := modCtx P 0 (fun c => { c with
  st := st
  rcbbase := 8320
  regions := List.replicate 256 { rcbOf 0 with stopped := true } })

/-- ContextPacketsComplete: PREEMPT, RESUME, TEARDOWN, REGION_UPDATE and REGION_RESET from each state of the context that they
take; the last region and the root. -/
theorem witness_ContextPackets :
    ([.resident, .resuming, .saved, .stopped, .saving] : List XState).all (fun st => let s := PX st
      packetB s (pkt 0) true 0 && packetB s (pkt (255 <<< 8)) true 0 && (ctxOf s 0).st == st && (ctxOf s 0).part == 0 &&
      (readTree s (ctxOf s 0).rcbbase ((ctxOf s 0).nregions + 1)).isSome &&
      ((ctxOf s 0).regions[255]?).any (fun q => q.stopped) && ((ctxOf s 0).regions[0]?).any (fun q => q.stopped)) = true ∧
    bitsOf 0 8 248 = 0 ∧ bitsOf (255 <<< 8) 16 240 = 0 ∧ bitsOf (255 <<< 8) 8 8 = 255 := by decide

/-- V with its context in a state. -/
def VX (st : XState) : State := modCtx V 0 (fun c => { c with st := st })

/-- ContextStepsComplete: a slice of 1 that has run out at cycle 1024, with no warp HALTED and with one; a drained save in each mode
and after its handlers; a resume whose groups are all reloaded, with no packet, with a PREEMPT and with one after a stop; a teardown
whose pulls and stores have ended; an activation pending. -/
theorem witness_ContextStepsComplete :
    let late := fun (s : State) => modDie (modCtx s 0 (fun c => { c with slice := 1 })) 0 (fun d => { d with cycle := 1024 })
    let halted := modWarp (late V) 0 0 0 (fun y => { y with halted := true })
    let saving := VX .saving
    let sh := modCtx saving 0 (fun c => { c with shmode := true })
    let ran := modCtx saving 0 (fun c => { c with
      shmode := true
      handlers := true })
    let exits := mapWarps ran (fun _ _ _ _ y => { y with saved := true })
    let res := VX .resuming
    let wanted := modCtx res 0 (fun c => { c with open_ := [(0, 63, 5, 8)] })
    let stop := modCtx wanted 0 (fun c => { c with
      stopHeld := true
      regions := [{ rcbOf 0 with fdom := true }] })
    let after := fun (s : State) => let t := placeSaved s 0
      let t1 := modCtx t 0 (fun c => { c with
        st := .resident
        sliceAt := (dieOf t (clockDie t 0)).cycle
        lazy := false })
      heldStop (completeOpen (if (ctxOf t 0).lazy then writeArea t1 0 false else t1) 0 1 0) 0
    ((ctxOf (late V) 0).st = .resident ∧ (ctxOf (late V) 0).slice ≠ 0 ∧
      (ctxOf (late V) 0).sliceAt + (ctxOf (late V) 0).slice * 1024 ≤ (dieOf (late V) (clockDie (late V) 0)).cycle ∧
      (groupsOf (late V) 0).all (fun e => e.2.2.warps.all (fun y => !y.2.halted)) = true) ∧
    ((ctxOf halted 0).st = .resident ∧ (groupsOf halted 0).any (fun e => e.2.2.warps.any (fun y => y.2.halted)) = true) ∧
    ([saving, sh, ran, exits].all (fun s => (ctxOf s 0).st == .saving && drained s 0) = true) ∧ handlersDone exits 0 = true ∧
    ([res, wanted, stop].all (fun s => let t := placeSaved s 0
      (ctxOf s 0).st == .resuming && (ctxOf t 0).saved.isEmpty && (groupsOf t 0).all (fun e => e.2.2.warps.all (fun y => y.2.aside.isNone)))) = true ∧
    awaits (after res) 0 0 = false ∧ (awaits (after wanted) 0 0 = true ∧ (ctxOf (after wanted) 0).st = .resident) ∧
    (awaits (after stop) 0 0 = true ∧ (ctxOf (after stop) 0).st ≠ .resident) ∧
    ((ctxOf (VX .draining) 0).st = .draining ∧ (VX .draining).pulls = [] ∧ (VX .draining).inflight = []) ∧
    ({ V with fw := { V.fw with pending := true } } : State).fw.pending = true := by decide

/-! #### Pages, debug commands, the mailbox -/

/-- `MailReady` as a value. -/
def mailB (s : State) (m : Mb) (cls : Nat) : Bool :=
  s.power != .d3cold && !fwDown s && decide (m.fn ≤ 16) && (m.fn == 0 || ((partOf s (m.fn - 1)).vf && (cls == 3 || cls == 4))) &&
  (s.power != .d3hot || cls == 3 || cls == 5)
theorem mail_of {s : State} {m : Mb} {cls : Nat} (h : mailB s m cls = true) : MailReady s m cls := by
  simp only [mailB, Bool.and_eq_true] at h
  obtain ⟨⟨⟨⟨h1, h5⟩, h2⟩, h3⟩, h4⟩ := h
  refine ⟨by simpa using h1, by simpa using h5, by simpa using h2, ?_, ?_⟩
  · intro hm; simpa [hm] using h3
  · intro hp; simpa [hp] using h4

/-- The PF's mailbox. -/
def pf : Mb := ⟨0, 9⟩

/-- V whose context's page tables stand at 0x10000: at level 2, of 1 GiB, `e`; the record of a pull at 0x13000 with a leaf, and
`tries` attempts made; a walk of die 0 for page 2, which no unit waits for but it; a pull of that page on its way, by a port
or with no route, or waiting. -/
def PT (e tries : Nat) (active : Bool) (via : Option Nat := none) : State :=
  let s := modCtx V 0 (fun c => { c with ptroot := 16 })
  let m := memSetBytes s.mem 0x10000 (bytesLE 8 (1 + 0x11000))
  let m := memSetBytes m 0x11000 (bytesLE 8 (1 + 0x12000))
  let m := memSetBytes m 0x12000 (bytesLE 8 e)
  let m := memSetBytes m 0x13000 (bytesLE 32 (41 <<< 64 + tries <<< 200))
  let s := modDie { s with mem := m } 0 (fun d => { d with walks := [⟨0, 1, 2, 0, 0, V.cur, 0, [], false, none⟩] })
  { s with pulls := [⟨1, 8192, 0x12000, 0x13000, 0, active, 0, 0, via⟩] }

/-- What the walk of `PT e` finds. -/
def found (e : Nat) : WalkOut := (walk (PT e 0 true) 0 1 16 8192).1

/-- PageStepsComplete: each command, each end of a walk, the third and the fourth attempt of a pull, and a retry. -/
theorem witness_PageStepsComplete :
    mailB V pf 1 = true ∧ V.pageCmds = [] ∧
    ([0, 1, 2].all (fun a => pageCmdOk V (a <<< 16 + 1 <<< 64 + 1 <<< 128 + 8192 <<< 192) a && pageCmdOk V (a <<< 16 + 1 <<< 64) a)) = true ∧
    (let w : Walk := ⟨0, 1, 2, 0, 0, V.cur, 0, [], false, none⟩
     (dieOf (PT 0 0 true) 0).walks[0]? = some w ∧ w.res = none ∧ ctxOfPasid (PT 0 0 true) 1 = some 0 ∧
     (ctxOf (PT 0 0 true) 0).st ≠ .draining ∧ (ctxOf (PT 0 0 true) 0).ptroot = 16) ∧
    (found 37 = .malformed ∧ found 3 = .lost ∧ found 0 = .notPresent) ∧ (match found 41 with
      | .leaf q => q.size == 2 ^ 30 && q.w
      | _ => false) = true ∧
    found (2 + 0x13000) = .remote 0x12000 0x13000 2 ∧ (startPull (walk (PT (2 + 0x13000) 0 true) 0 1 16 8192).2 0 1 8192 0x12000 0x13000 2).isSome = true ∧
    (∃ p, (PT 0 2 true).pulls[0]? = some p ∧ p.active = true ∧ memNat (PT 0 2 true).mem (p.rec_ + 25) 1 + 1 = 3) ∧
    (∃ p, (PT 0 0 true (some 3)).pulls[0]? = some p ∧ p.active = true ∧ p.via ≠ none ∧ ctxOfPasid (PT 0 0 true (some 3)) p.pasid = some 0) ∧
    (∃ p, (PT 0 3 true).pulls[0]? = some p ∧ p.active = true ∧ memNat (PT 0 3 true).mem (p.rec_ + 25) 1 + 1 = 4) ∧
    (∃ p, (PT 0 3 false).pulls[0]? = some p ∧ p.active = false ∧ p.nextAt ≤ (dieOf (PT 0 3 false) p.die).cycle) :=
  ⟨by decide, by decide, by decide, by decide, by decide, by decide, by decide, by decide,
    ⟨_, rfl, by decide⟩, ⟨_, rfl, by decide⟩, ⟨_, rfl, by decide⟩, ⟨_, rfl, by decide⟩⟩

/-- PageStepsComplete: a command given again, done and not done, its end effect by its action; a page that comes with a route, whose
frame holds a window or does not. -/
theorem witness_PageStepsAgain :
    let c := fun (action : Nat) => (⟨pf, action, 1, 8192, 1, 7⟩ : PageCmd)
    let s := fun (action : Nat) => ({ V with pageCmds := [c action] } : State)
    let busy := fun (action : Nat) => ({ s action with inflight := [aStore] } : State)
    let p := PT 0 0 true (some 3)
    let win := { p with mem := memSetBytes p.mem 0x13008 (bytesLE 8 (9 + sliceBase 0)) }
    ([0, 1, 2].all (fun a => (s a).pageCmds.find? (fun q => q.mb == pf && q.action == a) == some (c a) && cmdDone (s a) (c a) && !fwDown (s a) &&
      !cmdDone (busy a) (c a))) = true ∧
    ([0, 1, 2].map (fun a => (c a).action) = [0, 1, 2]) ∧
    pullFrameOk p 0x13000 0 = true ∧ pullFrameOk win 0x13000 0 = false := by decide

/-- `DebugReady` as a value, its mailbox's part with it. -/
def debugB (s : State) (m : Mb) (cmd : BitVec 256) (op level : Nat) : Bool :=
  mailB s m 2 && bitsOf cmd.toNat 72 56 == 0 && bitsOf cmd.toNat 8 34 == 0 && bitsOf cmd.toNat 0 8 == op &&
  (ctxOf s (dbgCmdOf cmd.toNat).ctx).st != .free && decide (level ≤ (partOf s (ctxOf s (dbgCmdOf cmd.toNat).ctx).part).dbg)
theorem debug_of {s : State} {m : Mb} {cmd : BitVec 256} {op level : Nat} (h : debugB s m cmd op level = true) :
    DebugReady s m cmd op level := by
  simp only [debugB, Bool.and_eq_true] at h
  obtain ⟨⟨⟨⟨⟨h1, h2⟩, h3⟩, h4⟩, h5⟩, h6⟩ := h
  exact ⟨mail_of h1, by simpa using h2, by simpa using h3, by simpa using h4, by simpa using h5, by simpa using h6⟩

/-- A debug command for a warp of group slot 0 of core 0. -/
def dbg (op warp arg0 arg1 : Nat) : BitVec 256 := BitVec.ofNat 256 (op + warp <<< 44 + arg0 <<< 128 + arg1 <<< 192)
/-- VI, at INVASIVE, with vector warp 0 HALTED. -/
def VH : State := modWarp VI 0 0 0 (fun y => { y with halted := true })
/-- VI after the TRAP of vector warp 0, which its context handles. -/
def VT : State :=
  match exec (.trap noG (fi 5)) (handled VI) with
  | .next t => t
  | _ => V
/-- VT with its group saved. -/
def VS : State :=
  match groupAt VT 0 0 with
  | some g => modCtx VT 0 (fun c => { c with
    st := .saved
    saved := [⟨0, 0, g, none, [], [], [], [], []⟩] })
  | none => V

/-- DebugCommandsComplete: TRAPCFG of the least and the greatest size, TRACECFG with each ARG1, each RESOLVE of a resident and of
a saved role, HALT and RELEASE of one role and of all, STEP, and READREG and WRITEREG of the last register of each kind. -/
theorem witness_DebugCommandsComplete :
    ([6, 12].all (fun n => debugB VI pf (dbg 0x30 0 0x1000 (n + (2 ^ 32 - 1) <<< 32)) 0x30 0)) = true ∧
    ([0, 6].all (fun n => debugB VI pf (dbg 0x31 0 0x1000 n) 0x31 1)) = true ∧
    ((List.range 5).all (fun a => debugB VT pf (dbg 0x32 0 a 4096) 0x32 0 && debugB VS pf (dbg 0x32 0 a 4096) 0x32 0)) = true ∧
    (let d := dbgCmdOf (dbg 0x32 0 4 4096).toNat
     (dbgWarp VT d).any (fun p => isTrapped p.2) = true ∧ (ctxOf VT 0).saved.isEmpty = true ∧
     ((ctxOf VS 0).saved.find? (fun g => g.core == d.core && g.gslot == d.gslot && (ctxOf VS 0).st != .saving)).any (fun g =>
       (mapFind g.grp.warps 0).any isTrapped) = true) ∧
    ([0, 0x7F].all (fun w => debugB VI pf (dbg 0x33 w 0 0) 0x33 2 && !(dbgRoles VI (dbgCmdOf (dbg 0x33 w 0 0).toNat)).isEmpty &&
      debugB VH pf (dbg 0x34 w 0 0) 0x34 2 && !((dbgRoles VH (dbgCmdOf (dbg 0x34 w 0 0).toNat)).filter (fun w =>
        (warpAt VH 0 0 w).elim false (fun y => y.halted))).isEmpty)) = true ∧
    (debugB VH pf (dbg 0x35 0 0 0) 0x35 2 = true ∧ VH.stepping = none ∧ (dbgWarp VH (dbgCmdOf (dbg 0x35 0 0 0).toNat)).any (fun p =>
      p.2.halted && p.2.run == .run && p.2.parked.isNone && (p.2.split 0).any (fun q => q.hold == .none && q.wait.isNone)) = true) ∧
    (let u := dbg 0x36 0 (512 + 255) 7
     let v := dbg 0x36 0 (511 + 31 <<< 10) 7
     debugB VH pf u 0x36 2 = true ∧ debugB VH pf v 0x36 2 = true ∧ debugB VH pf (u + 1) 0x37 2 = true ∧ debugB VH pf (v + 1) 0x37 2 = true ∧
     (dbgWarp VH (dbgCmdOf u.toNat)).any (fun p => p.2.halted && dbgReg p.1 (dbgCmdOf u.toNat) == some (true, 255) &&
       dbgReg p.1 (dbgCmdOf v.toNat) == some (false, 511) && dbgReg p.1 (dbgCmdOf (u + 1).toNat) == some (true, 255)) = true) := by decide

/-- A mailbox command word. -/
def sys (v : Nat) : BitVec 64 := BitVec.ofNat 64 v

/-- MailboxOperationsComplete: SPDM of the last virtual function, enabled, in D0 and in D3HOT; POWER each way, with a partition idle
or none enabled; LOCK of a LOCKED and an UNLOCKED partition; DEBUGLVL down and up; FWACT with an image staged; PORT enabled and
disabled; BQCFG of the last queue; PWRCAP at the limit; IDSIG; a SYSCALL answered. -/
theorem witness_MailboxOperationsComplete :
    let ps := fun (f : Part → Part) => modPart V 15 f
    let hot : State := { ps (fun p => { p with vf := true }) with power := .d3hot }
    let sleep : State := { V with power := .dieRetain }
    let gated := ps (fun p => { p with
      en := true
      pwr := 1 })
    let open_ := ps (fun p => { p with sec := 1 })
    let staged : State := { V with fw := { V.fw with staged := some (1, 2, 3) } }
    let port := fun (st : PState) => modPort V 17 (fun q => { q with st := st })
    mailB (ps (fun p => { p with vf := true })) ⟨16, 1⟩ 3 = true ∧ mailB hot ⟨16, 1⟩ 3 = true ∧ mailB hot pf 5 = true ∧
    mailB V pf 5 = true ∧
    (mailB sleep pf 5 = true ∧ bitsOf 0 0 3 = 0 ∧ sleep.power = .dieRetain) ∧
    (bitsOf (1 + 15 <<< 8) 0 3 = 1 ∧ V.power = .d0 ∧ (partOf V 15).pwr = 0 ∧ partBusy V 15 = false) ∧
    (mailB gated pf 5 = true ∧ gated.power = .d0 ∧ gated.parts.all (fun e => !e.2.en || e.2.pwr == 1) = true) ∧
    ((partOf V 15).sec = 0 ∧ mailB open_ pf 5 = true ∧ (partOf open_ 15).sec = 1) ∧
    (bitsOf (sys (2 + 15 <<< 8)).toNat 0 2 = 2 ∧ bitsOf (sys (15 <<< 8)).toNat 0 2 = 0) ∧
    (mailB staged pf 5 = true ∧ staged.fw.staged ≠ none) ∧
    ([.disabled, .down].all (fun st => mailB (port st) pf 5 && (portOf (port st) 17).st == st)) = true ∧
    ((portOf (port .active) 17).st = .active ∧ bitsOf (sys (17 + 1 <<< 8)).toNat 0 5 = 17 ∧ (sys (17 + 1 <<< 8)).getLsbD 8 = true ∧
      (sys 17).getLsbD 8 = false) ∧
    ((bqOf V 3 31).enabled = false ∧ bitsOf (sys 127).toNat 0 5 = 31 ∧ bitsOf (sys 127).toNat 5 2 = 3 ∧
      bitsOf (sys (127 + 1 <<< 28)).toNat 28 12 > 0) ∧
    (sys 3200).toNat % 2 ^ 16 ≤ powerLimit { V with pwrLimit := some 3200 } ∧ inHole (sys (2 ^ 42)).toNat = false := by decide

/-- MailboxOperationsComplete, UNLOCK: whether a token verifies is the firmware's constants' to say; where the token at 0 does and
its body names this identity, counter 0 and a partition, every hypothesis holds at reset. -/
theorem witness_Unlock (hs : Sys2Proof.Config.signaturesVerify false (memGetBytes State.reset.mem 0 (64 + 384 + 16224)) = true)
    (hb : Sys2Proof.Config.tokenBody ((memGetBytes State.reset.mem 0 (64 + 384 + 16224)).take 64) = (15, Sys2Proof.Config.identity, 0)) :
    let tok := memGetBytes State.reset.mem 0 (64 + 384 + 16224)
    let b := Sys2Proof.Config.tokenBody (tok.take 64)
    Sys2Proof.Config.signaturesVerify false tok = true ∧ b.2.1 = Sys2Proof.Config.identity ∧ b.2.2 = State.reset.unlockCtr ∧ b.1 < 16 ∧
    (partOf State.reset b.1).sec = 0 ∧ (∀ e, e ∈ State.reset.ctxs → e.2.st ≠ .free → e.2.part ≠ b.1) := by
  intro tok b
  have h : b = (15, Sys2Proof.Config.identity, 0) := hb
  exact ⟨hs, by rw [h], by rw [h]; rfl, by rw [h]; decide, by rw [h]; rfl, fun e he => by cases he⟩

/-- MailboxOperationsComplete, FWSTAGE: whether an image verifies is the firmware's constants' to say; one that does is taken from
anywhere that is no hole. -/
theorem witness_Fwstage (h : fwImageOk ((partOf V 0).sec == 2) (memGetBytes V.mem 0x10000 (20480 + memNat V.mem 0x10010 8)) = true) :
    let n := memNat V.mem (0x10000 + 16) 8
    inHole 0x10000 = false ∧ 0x10000 + 20480 + n ≤ 2 ^ 52 ∧ fwImageOk ((partOf V 0).sec == 2) (memGetBytes V.mem 0x10000 (20480 + n)) = true :=
  ⟨by decide, by decide, h⟩

/-- V after a SYSCALL of vector warp 0. -/
def VY : State :=
  match exec (.syscall noG (fa .i8)) V with
  | .next t => t
  | _ => V

/-- MailboxOperationsComplete, SYSCALL_REPLY: the reply of the firmware. -/
theorem witness_SyscallReply : (dieOf VY 0).sysOut.map (fun e => (e.1, e.2.1)) = [(0, V.cur)] ∧
    VY.sysMsgs.map (fun m => (m.die, m.seq, m.toHost)) = [(0, 0, false)] ∧ (dieOf VY 0).fwHeld = false ∧
    (warpAt VY 0 0 0).map (fun y => y.sysOut.map (fun e => e.1)) = some (some 0) := by decide

/-- V after a SYSCALL of vector warp 0 to the host, virtual function 1 of its partition enabled. -/
def VYh : State :=
  match exec (.syscall noG (fa .i8)) (modGroup V 0 0 (fun g => setSreg g 6 0x80000000)) with
  | .next t => modPart t 0 (fun p => { p with vf := true })
  | _ => V

/-- MailboxOperationsComplete, SYSCALL_REPLY: the replies of the host by the PF and by the virtual function of the warp's partition, and one whose
SEQ is not outstanding. -/
theorem witness_HostReplies : (dieOf VYh 0).sysOut.map (fun e => (e.1, e.2.1)) = [(0, V.cur)] ∧
    VYh.sysMsgs.map (fun m => (m.die, m.seq, m.toHost)) = [(0, 0, true)] ∧ (warpAt VYh 0 0 0).map (fun y => y.sysOut.map (fun e => e.1)) = some (some 0) ∧
    mailB VYh pf 4 = true ∧ mailB VYh ⟨1, 9⟩ 4 = true ∧ (groupAt VYh 0 0).any (fun g => (ctxOf VYh g.ctx).part == 1 - 1) = true ∧
    (dieOf V 3).sysOut = [] ∧ mailB V pf 4 = true := by decide

/-! #### Events, dispatch, roles -/

/-- A record of a stream held for die 0, with a kind and a stamp. -/
def held (stream kind stamp : Nat) (marker : Bool) : Intake :=
  ⟨4, 63, marker, { eventOfBits (stream + kind <<< 16) with stamp := BitVec.ofNat 64 stamp }, none, none, none, none, 0⟩
/-- V with domain 0 configured, stream 3 of it OPEN at stamp 100, stream 5 of it closed, and entries held for die 0 from the
cycle before. -/
def EQ (is : List Intake) : State :=
  let s := modDom V 0 (fun d => { d with
    cfg := true
    buffer := true })
  let s := modStream s 3 (fun t => { t with
    st := .open_
    last := 100 })
  let s := modStream s 5 (fun t => { t with st := .closed })
  modDie s 0 (fun d => { d with
    intakeQ := is
    cycle := 1 })
/-- EQ with one entry. -/
def EI (i : Intake) : State := EQ [i]
/-- EI with an event buffered at stamp 99, below the frontier, and automaton 255 ARMED, one candidate of which has a deadline. -/
def EA (deadline : Nat) : State :=
  let img := imageOf leastImage
  let s := modDom (EI (held 3 1 100 false)) 0 (fun d => { d with buf := [⟨{ eventOfBits 3 with stamp := 99 }, 0⟩] })
  modAuto s 0 255 (fun _ => { loadedAuto 0 leastImage 8192 with
    st := .armed
    img := { img with locs := img.locs.map (fun l => { l with
      inven := true
      invc := deadline }) }
    cands := [⟨0, 1, [0, 0, 0, 0], [], []⟩] })

/-- EventStepsComplete: each row of R95 at its boundary, a close marker, an entry held behind one of a lower class, an event with a deadline at its own stamp, a deadline below
it, and a domain halted for each cause. -/
theorem witness_EventStepsComplete :
    let row := fun (i : Intake) => intakeRow (EI i) i (intakeStamp (EI i) 0 i)
    ([held 5 1 100 false, held 6 1 100 false, held 3 1 99 false, held 3 0 100 false, held 3 1 100 false, held 3 0 0 true] : List Intake).all
      (fun i => intakeTurn (EI i) 0 0) = true ∧
    intakeTurn (EQ [held 3 1 100 false, { held 3 2 100 false with cls := 1 }]) 0 1 = true ∧
    row (held 5 1 100 false) = .drop ∧ (streamOf (EI (held 5 1 100 false)) 5).st ≠ .unbound ∧
    row (held 6 1 100 false) = .drop ∧ (streamOf (EI (held 6 1 100 false)) 6).st = .unbound ∧
    V.power = .d0 ∧ ({ V with power := .d3hot } : State).power = .d3hot ∧
    row (held 3 1 99 false) = .stale ∧ row (held 3 0 100 false) = .beat ∧ row (held 3 1 100 false) = .keep ∧
    ((domOf (EA 99) 0).cfg = true ∧ (domOf (EA 99) 0).halt = .run ∧ (domOf (EA 99) 0).work = [] ∧
      (nextEvent (EA 99) 0).map (fun b => b.ev.stamp) = some 99 ∧ (deadlinesOf (EA 99) 0).map (fun l => l.1) = [99]) ∧
    ((domOf (EA 98) 0).cfg = true ∧ (domOf (EA 98) 0).halt = .run ∧ (domOf (EA 98) 0).work = [] ∧ firstDeadline (EA 98) 0 = some (98, 255, 0) ∧
      98 + 1 < frontierOf (EA 98) 0 ∧ (nextEvent (EA 98) 0).map (fun b => b.ev.stamp) = some 99) ∧
    (domOf (modDom V 63 (fun d => { d with halt := .entry 0 0 })) 63).halt = .entry 0 0 ∧
    (domOf (modDom V 63 (fun d => { d with halt := .pend 0 0 })) 63).halt = .pend 0 0 := by decide

/-- A region with budgets of every kind. -/
def ample : Rcb := { rcbOf 0 with
  sramkib := 4096
  regkib := 4096
  pend := 8
  groups := 8 }
/-- P with a launch 4 of two groups, and cores 0 and 1 in its partition. -/
def L (f : Launch → Launch) (rs : List Rcb) : State :=
  let s := modPart P 0 (fun p => { p with limit := 1 })
  modCtx s 0 (fun c => { c with
    regions := rs
    launches := c.launches ++ [f { loadLaunch 4096 with
      idx := 4
      count := 2
      admitted := 0
      pend := true }] })
/-- That launch as it is. -/
def same (l : Launch) : Launch := l
/-- That launch, waiting. -/
def waits (l : Launch) : Launch := { l with waiting := true }
/-- L with groups of the launch in a core's run queue. -/
def LQ (core : Nat) (gs : List Nat) : State := modCore (L same [ample]) core (fun k => { k with runq := gs.map (fun g => (0, 4, g)) })
/-- Whether a group of the launch may be placed on a core. -/
def places (s : State) (core g : Nat) : Bool := (placeGroup s core 0 4 g).isSome

/-- DispatchStepsComplete: a launch admitted and one refused, a retry, a placement. -/
theorem witness_DispatchOffers :
    let next := fun (s : State) (w : Bool) => (byIndex ((offerable s 0).filter (fun e => e.2.waiting == w))).head?
    (let s := L same [ample]
     (next s false).map (fun e => (e.1, e.2.idx)) = some (0, 4) ∧ offersOn s = true ∧ coreServes s 0 0 = true ∧
     (next s false).any (fun e => (admitNext s 0 0 e.2).isSome) = true) ∧
    (let s := L same [rcbOf 0]
     offersOn s = true ∧ coreServes s 0 0 = true ∧ (next s false).any (fun e => (admitNext s 0 0 e.2).isNone) = true) ∧
    (let s := L waits [ample]
     offersOn s = true ∧ (next s true).any (fun e => coreServes s 0 e.1 && (admitNext s e.1 0 e.2).isSome) = true) ∧
    (queueOf (LQ 0 [0]) 0 = [(0, 4, 0)] ∧ places (LQ 0 [0]) 0 0 = true) := by decide

/-- DispatchStepsComplete: a steal asked; one whose answer the power or a placement of this cycle puts off; one answered by an empty queue, by one whose
last group its own core takes, by the tail, which the thief can place or cannot, the slot that alone fits being freed in this cycle. -/
theorem witness_DispatchSteals :
    let asked := fun (gs : List Nat) => modCore (LQ 0 gs) 1 (fun k => { k with stealOut := some 0 })
    let dead := fun (c : Nat) (s : State) => modCore s c (fun k => { k with dead := true })
    let freed := fun (s : State) => modCore s 1 (fun k => { k with freedNow := List.range 32 })
    let at1 := fun (s : State) => placeAt s 1 0 4 1 (coreOf s 1).freedNow
    (let s := LQ 0 [0]
     partOfCore s 1 = some 0 ∧ 1 < (coresOf s 0).length ∧ (coreOf s 1).dead = false ∧ (coreOf s 1).runq = [] ∧ (coreOf s 1).stealOut = none ∧
     (coreOf s 1).groups.length < 32 ∧ (coreOf s 1).stealAt ≤ (dieOf s (1 / 64)).cycle) ∧
    ((coreOf (asked [0, 1]) 1).stealOut = some 0 ∧ ({ asked [] with power := .dieRetain } : State).power ≠ .d0 ∧
      (coreOf (asked []) 1).answerAt ≤ (dieOf (asked []) (1 / 64)).cycle) ∧
    (dieOf (asked [0]) (1 / 64)).cycle < (coreOf (putOffSteals (asked [0]) 0) 1).answerAt ∧
    queueOf (asked []) 0 = [] ∧
    (queueOf (asked [0]) 0 = [(0, 4, 0)] ∧ places (asked [0]) 0 0 = true) ∧
    ((queueOf (asked [0, 1]) 0).getLast? = some (0, 4, 1) ∧ (at1 (asked [0, 1])).isSome = true) ∧
    (places (dead 0 (asked [0])) 0 0 = false ∧ (placeAt (dead 0 (asked [0])) 1 0 4 0 []).isSome = true) ∧
    ((at1 (dead 1 (asked [0, 1]))).isNone = true ∧ (at1 (freed (asked [0, 1]))).isNone = true) := by decide

/-- DispatchStepsComplete: a DET group that fits no core, whether or not lazily held windows would do. -/
theorem witness_DetWaits :
    let det := fun (f : Launch → Launch) => modCtx (L f [{ ample with det := true }]) 0 (fun c => { c with detq := [(4, 0)] })
    let nowhere := fun (s : State) => (coresOf s 0).findSome? (fun c => placeGroup s c 0 4 0) = none
    let big := fun (l : Launch) => { l with tmpl := { l.tmpl with sramsz := 2 ^ 21 } }
    let lazy := fun (s : State) => (coresOf s 0).foldl (fun s c => modCore s c (fun k => { k with lazySram := [(5, 0, 0, 256, 256), (5, 0, 1, 768, 256)] })) s
    let room := fun (s : State) => (coresOf s 0).find? (fun c => (fitsIn s c (big (loadLaunch 4096)).tmpl [] (heldSram s c)).isSome)
    (let s := lazy (det big); detNextOf s 0 0 = some (4, 0) ∧ nowhere s ∧ (launchOf s 0 4).isSome = true ∧ (room s).isSome = true) ∧
    (let s := [0, 1].foldl (fun s c => modCore s c (fun k => { k with dead := true })) (det big)
     detNextOf s 0 0 = some (4, 0) ∧ nowhere s ∧ (launchOf s 0 4).isSome = true ∧ (room s).isNone = true) := by decide

/-- DispatchStepsComplete: a DET dispatch, a free slot, and the end of a launch with a completion event and without. -/
theorem witness_DispatchEnds :
    (let s := modCtx (L same [{ ample with det := true }]) 0 (fun c => { c with detq := [(4, 1), (4, 0)] })
     detNextOf s 0 0 = some (4, 0) ∧ (ctxOf s 0).st = .resident ∧
     ((coresOf s (ctxOf s 0).part).findSome? (fun c => placeGroup s c 0 4 0)).isSome = true) ∧
    (let s := modGroup P 0 0 (fun g => { g with
       retiring := true
       warps := g.warps.map (fun e => (e.1, { e.2 with freed := true })) })
     (groupAt s 0 0).any (fun g => g.retiring) = true ∧ mayFree s 0 0 = true) ∧
    ([true, false].all (fun cen => let s := L (fun l => { l with
        admitted := 2
        freed := 2
        reserve := some (0, 1, 1, 1)
        tmpl := { l.tmpl with cen := cen } }) [ample]
      (launchOf s 0 4).any (fun l => l.admitted == l.count && l.freed == l.count && datomsDone s 0 l))) = true := by decide

/-- A group of 32 vector warps of one granule each, warp w at granule `a` of partition w. -/
def thin (a : Nat) : Group :=
  { newGroup 0 { loadLaunch 4096 with tmpl := { loadTemplate 4096 with
      vwarps := 31
      cwarps := 0
      mthread := false
      vregs := 31 } } 0 { gslot := 0, sbase := 0, parts := (List.range 32).map (fun w => (w, w, a)) } with region := 0 }
/-- A group with a window of one granule at granule `a` of core 0's slice. -/
def windowed (a : Nat) : Group := { thin 0 with
  warps := []
  sbase := sliceBase 0 + 4096 * a
  tmpl := { (thin 0).tmpl with sramsz := 128 } }
/-- P whose core holds two groups and has in its queue the group of a launch of 512 registers and a window of `sram` bytes. -/
def LC (a b : Group) (sram : Nat) : State :=
  let s := L (fun l => { l with tmpl := { l.tmpl with
    vregs := 511
    sramsz := sram } }) [ample]
  modCore s 0 (fun k => { k with
    groups := [(0, a), (1, b)]
    runq := [(0, 4, 0)] })

/-- What the compactor of core 0 is to do for the head of its queue: the moves, and whether their blocks are quiet. -/
def moving (s : State) : Option (Bool × Bool) :=
  ((compactFor s 0).findSome? (movesFor s 0)).bind (fun p => if p.2.isEmpty then none else some (p.1, movesQuiet s 0 p))

/-- DispatchStepsComplete, the compactor: a block of 16 granules in a register file whose halves each hold one granule, quiet, and with a
load of one of the warps on its way. -/
theorem witness_RegisterMoves : moving (LC (thin 0) (thin 16) 0) = some (true, true) ∧
    moving ((List.range 32).foldl (fun s w => modWarp s 0 1 w (fun y => { y with prods := [⟨1, 3, 1, 1, 1⟩] }))
      (LC (thin 0) (thin 16) 0)) = some (true, false) := by
  decide

/-- DispatchStepsComplete, the compactor: a window of 2 MiB in a slice whose halves each hold one granule, quiet, and with a value on its
way. -/
theorem witness_WindowMoves : let s := LC (windowed 0) (windowed 512) (2 ^ 21)
    moving s = some (false, true) ∧
    moving (modCore s 0 (fun k => { k with drains := [0, 1].map (fun g => { id := 2 + g, gslot := g, desc := 0, base := 0, tok := none, img := none, waitPage := none }) })) =
      some (false, false) := by decide

/-- DispatchStepsComplete, the compactor: nothing to do. -/
theorem witness_NoMoves : (compactFor V 0).findSome? (movesFor V 0) = none ∧
    (compactFor V 0).any (fun t => (fits V 0 t).isNone && (sramMoves V 0 t (heldSram V 0)).isSome) = false := by decide

/-- DispatchStepsComplete, the claims: half of the slice is held lazily for context 5, which a window of 2 MiB of the queue's head asks for;
and a core whose free granules are enough only with what is held. -/
theorem witness_LazyClaims :
    let lazy := fun (l : List (Nat × Nat)) (s : State) => modCore s 0 (fun k => { k with lazySram := l.map (fun e => (5, 0, 0, e.1, e.2)) })
    let s := lazy [(512, 512)] (LC (windowed 0) { windowed 0 with tmpl := (thin 0).tmpl } (2 ^ 21))
    let t := lazy [(256, 256), (768, 256)] (LC (windowed 0) (windowed 512) (2 ^ 21))
    queueOf s 0 = [(0, 4, 0)] ∧ places s 0 0 = false ∧ (launchOf s 0 4).any (fun l => (fits s 0 l.tmpl).isNone &&
      (fitsIn s 0 l.tmpl [] (heldSram s 0)).any (fun p => lazyOwners (coreOf s 0) ((p.sbase - sliceBase 0) / 4096) (sramKib l.tmpl / 4) == [5])) = true ∧
    (compactFor t 0).findSome? (movesFor t 0) = none ∧
    (compactFor t 0).any (fun u => (fits t 0 u).isNone && (sramMoves t 0 u (heldSram t 0)).isSome) = true := by decide

/-! #### Roles, memory, engines -/

/-- A warp whose split stands at barrier 15 with count 2, speculating or not. -/
def standing15 (g : Guard) (y : Warp) : Warp :=
  { y with splits := y.splits.map (fun o => o.map (fun q => { q with hold := .bar 15 2 false g })) }
/-- V with vector warp 0 blocked on the other roles of its group for 2^20 cycles. -/
def VB20 : State :=
  let s := modDie V 0 (fun d => { d with cycle := 2 ^ 20 })
  modWarp s 0 0 0 (fun y => { y with splits := y.splits.map (fun o => o.map (fun q => { q with blk := .groupRoles })) })
/-- V waiting by MBARW for the phase 7 of a word at 8192 of phase `p`. -/
def VPh (p : Nat) : State :=
  let s := { V with mem := memSetBytes V.mem 8192 (bytesLE 8 (2 <<< 32 + p <<< 48)) }
  modSplit s V.cur (fun q => { q with wait := some (.mbarw 8192 7 2 1 2 1) })

/-- RoleStepsComplete: an entry starved for 2^24; a HANG and a WAIT_CYCLE pending, and one while the role speculates. -/
theorem witness_HangAndTrapTaken :
    let starve := modWarp V 0 0 0 (fun y => { y with wlist := [⟨⟨4096, 1, 0, 0, 4096, .none, none, [], .none, false⟩, 2 ^ 24⟩] })
    let pend := fun (c : Cause) => modWarp V 0 0 0 (fun y => { y with
      pend := some (c, 4096, 1)
      lastSlot := 0 })
    (warpAt starve 0 0 0).any (fun y => (starved y).isSome && y.run == .run && !y.halted && y.pend.isNone) = true ∧
    ([.hang, .waitCycle] : List Cause).all (fun c => (warpAt (pend c) 0 0 0).any (fun y => y.pend == some (c, 4096, 1) && y.run == .run &&
      !y.halted && !underWay y && y.spec.isNone && (y.split y.lastSlot).isSome)) = true ∧
    (warpAt (modWarp (pend .hang) 0 0 0 speculating) 0 0 0).any (fun y => y.pend.isSome && y.run == .run && !y.halted && !underWay y && y.spec.isSome) =
      true := by decide

/-- RoleStepsComplete: a speculator whose commit has waited. -/
theorem witness_DueCommit : let s := modWarp V 0 0 0 (fun y => { y with spec := some ⟨2, 0, [(8192, 1)], [], true, [], [], true⟩ })
    (groupAt s 0 0).isSome = true ∧ (warpAt s 0 0 0).any (fun y => y.spec.any (fun p => p.due)) = true := by decide

/-- V with vector warp 0 at barrier 15 under a guard, with a count. -/
def VG (g : Guard) (n : Nat) : State :=
  modWarp V 0 0 0 (fun y => { standing15 g y with splits := (standing15 g y).splits.map (fun o => o.map (fun q =>
    { q with hold := .bar 15 n false g })) })
/-- VG 2 where one role has arrived, of a count. -/
def VGe (e : Nat) : State := modGroup (VG noG 2) 0 0 (fun g => { g with bars := [(15, ⟨0, 1, e, false, [64]⟩)] })
/-- RoleStepsComplete: an arrival with lanes, the first and one that agrees; with none; one that waits for a store of the role; and counts
that are refused: above 37, above the launched roles, and other than the barrier's. -/
theorem witness_BarrierArrival :
    let stands := fun (s : State) (g : Guard) (n : Nat) => rankOk s ⟨0, 0, 0, 0⟩ && (warpAt s 0 0 0).any (fun y => y.run == .run && y.parked.isNone &&
      y.spec.isNone && standsAt y == some (4096, 15, n, false, g, BitVec.allOnes 32) && (List.range 4).find? (fun i => (y.split i).isSome) == some 0)
    let bar := fun (s : State) => (groupAt s 0 0).map (fun k => ((barOf k 15).a, (barOf k 15).e, (barOf k 15).zero))
    let busy : State := { VG noG 2 with inflight := [aStore] }
    (stands (VG noG 2) noG 2 = true ∧ stands (VG ⟨false, 1⟩ 2) ⟨false, 1⟩ 2 = true ∧ stands (VGe 2) noG 2 = true ∧ stands busy noG 2 = true ∧
      stands (VG noG 38) noG 38 = true ∧ stands (VG noG 4) noG 4 = true ∧ stands (VGe 3) noG 2 = true) ∧
    (warpAt (VG ⟨false, 1⟩ 2) 0 0 0).map (fun y => predOf y 1) = some 0 ∧
    (bar (VG noG 2) = some (0, 0, false) ∧ bar (VGe 2) = some (1, 2, false) ∧ bar (VGe 3) = some (1, 3, false)) ∧
    (groupAt (VG noG 2) 0 0).map (fun k => launchedRoles k.tmpl) = some 3 ∧
    (roleWritesDone (VG noG 2) 0 0 0 = true ∧ roleWritesDone (VGe 2) 0 0 0 = true ∧ roleWritesDone busy 0 0 0 = false) := by decide

/-- RoleStepsComplete: MBARW's word of a phase that has passed, a malformed one, and one of the phase waited for. -/
theorem witness_MbarwPoll :
    let polls := fun (s : State) => match engineTranslate s 0 0 8192 2 0 0 with
      | (.ok pa e, u) =>
        let r := pollReq V.cur 1 pa 7 2 []
        let v := memNat (sawHome (l1Drop (acquireAt u r) 0 (lineOf pa)) [(pa, 8)]).mem pa 8
        if pa == 8192 && !e.noatom && !inHostMem pa && eligible u r && !isPoisoned u (lineOf pa) then some (bitsOf v 48 16, mbarMalformed v)
        else none
      | _ => none
    ([VPh 8, { VPh 7 with mem := [] }, VPh 7] : List State).map polls = [some (8, false), some (0, true), some (7, false)] ∧
    (warpAt (VPh 7) 0 0 0).any (fun y => y.run == .run && !y.halted && (y.split 0).any (fun q =>
      q.wait == some (.mbarw 8192 7 2 1 2 1) && q.acqs.isEmpty)) = true ∧
    (groupAt (VPh 7) 0 0).map (fun k => (k.ctx, k.launch)) = some (0, 0) := by decide

/-- RoleStepsComplete: a block of 2^20 cycles, and a probe at a unit that awaits its sender. -/
theorem witness_Probes :
    let probe : State := { VB20 with probes := [⟨(0, 0, 64), [(0, 0, 0)], [(0, 0, 64)]⟩] }
    blockedSince VB20 (0, 0, 0) = some (0, 2 ^ 20) ∧ publishes VB20 (0, 0, 0) = [(0, 0, 32), (0, 0, 64)] ∧
    (probe.probes[0]?).map (fun p => p.todo) = some [(0, 0, 0)] ∧ (publishes probe (0, 0, 0)).contains (0, 0, 64) = true := by decide

/-- A DATOM entry of launch 4 of L in flight. -/
def aDatom : DInFlight := ⟨0, 4, 8192, true, ⟨1, 2⟩, V.cur, some 0⟩
/-- A holding buffer of its word with `n` entries. -/
def aBuf (n : Nat) : DBuf := ⟨homeOf 8192, 0, 0, 4, 8192, true, List.replicate n ⟨0, 0⟩⟩
/-- L, the launch ended or not, with a log block and that entry in flight. -/
def LD (ended : Bool) (bufs : List DBuf) (inflight : List DInFlight) : State :=
  let s := L (fun l => { l with
    admitted := if ended then 2 else 0
    freed := if ended then 2 else 0
    logBlocks := [0x30000] }) [ample]
  { s with
    dbufs := bufs
    datoms := inflight }

/-- The 64 buffers of that home, of other words of launch 5, full. -/
def fullBufs : List DBuf := (List.range 64).map (fun i => ⟨homeOf 8192, i, 0, 5, 65536 + 128 * i, true, List.replicate 16 ⟨0, 0⟩⟩)
/-- LD with those buffers, launch 5 in a fault domain of its own with `blocks` log blocks, the last one empty, or
full where they are as many as may be. -/
def LF (blocks launch : Nat) : State :=
  let s := LD false [] [{ aDatom with launch := launch }]
  modCtx { s with dbufs := fullBufs } 0 (fun c => { c with
    regions := [ample, { ample with fdom := true }]
    launches := c.launches ++ [{ loadLaunch 4096 with
      idx := 5
      tmpl := { loadTemplate 4096 with region := 1 }
      logBlocks := List.replicate blocks 0x40000
      logPos := if blocks < 16 then 0 else 65536 }] })

/-- MemoryStepsComplete: a store, a load and a host atomic that may be performed, a value on its way, an entry into a buffer of 15, into one
that spills its 16 and into a new one, the merge of an ended launch, and the host's write of the last bytes of its own memory and of a
line that was poisoned. -/
theorem witness_MemoryStepsComplete :
    let load : Req := { aStore with
      id := 2
      kind := .load }
    let host : Req := { aStore with
      kind := .cas
      lanes := [{ lane := 31, pa := 2 ^ 52 - 4, v := 5 }] }
    let fl : State := { V with inflight := [aStore, load] }
    let ret : State := { V with returns := [⟨1, V.cur, 4, [(0, 5)]⟩] }
    let h := homeOf 8192
    let mine := fun (s : State) => s.dbufs.find? (fun b => b.home == h && b.ctx == 0 && b.launch == 4 && b.pa == 8192)
    (eligible fl aStore = true ∧ (fl.inflight[1]?).any (fun r => r.kind == .load && r.id == 2) = true ∧ aStore.twoSteps = false) ∧
    eligible { V with inflight := [load] } load = true ∧ (eligible { V with inflight := [host] } host = true ∧ host.twoSteps = true) ∧
    (ret.returns[0]?).isSome = true ∧
    mine (LD false [aBuf 15] [aDatom]) = some (aBuf 15) ∧ mine (LD false [aBuf 16] [aDatom]) = some (aBuf 16) ∧
    (spillRun (addToken { LD false [aBuf 16] [aDatom] with datoms := [] } V.cur (some 0) (-1)) (aBuf 16)).isSome = true ∧
    mine (LD false [] [aDatom]) = none ∧
    (List.range 64).find? (fun i => (LD false [] [aDatom]).dbufs.all (fun b => b.num != i)) = some 0 ∧
    (let s := modDie (LD true [aBuf 2] []) (4 % 4) (fun d => { d with cycle := 1 })
     (launchOf s 0 4).any (fun l => mayApply s 0 l) = true) ∧
    (V.power ≠ .d3cold ∧ inHostMem (2 ^ 52 - 16) = true ∧ V.poison = [] ∧ (linesOf (2 ^ 52 - 16) 16).all (fun l => !inHole (l * 128)) = true ∧ (wholeLines [(8192, 128)]).contains 64 = true) := by
  decide

/-- MemoryStepsComplete: an entry that finds no buffer: the fullest spills, or its launch faults, the entry's own with it or not; and an
entry whose own buffer cannot spill. -/
theorem witness_DatomLogFull :
    let u := fun (s : State) (l : Nat) => addToken { s with datoms := s.datoms.filter (fun e => e.launch != l) } V.cur (some 0) (-1)
    let b : DBuf := ⟨homeOf 8192, 0, 0, 5, 65536, true, List.replicate 16 ⟨0, 0⟩⟩
    let ends := fun (l : Nat) => (launchOf (datomLogFault (u (LF 16 l) l) 0 5 (dieOfHome (homeOf 8192))) 0 l).isSome
    (fullBufs.head? = some b ∧ (List.range 64).all (fun i => fullBufs.any (fun q => q.num == i)) = true ∧
      (fullBufs.drop 1).all (fun q => q.ents.length == 16 && decide (0 < q.num) && q.pa != 8192) = true) ∧
    (spillRun (u (LF 1 4) 4) b).isSome = true ∧ (spillRun (u (LF 16 4) 4) b).isNone = true ∧ ends 4 = true ∧ ends 5 = false := by decide

/-- CC, and that copy waiting for page 2, done or stopped. -/
def CW (f : Copy → Copy) : State := modCore C 0 (fun k => { k with copies := [f aCopy] })
/-- MD with its drain issued, with an image or without, and the array's queue. -/
def MQ (img : Option (List W32)) (ops : List MatOp) (rel : List Mrel) : State := modCore MD 0 (fun k => { k with
  drains := [{ id := 2, gslot := 0, desc := tileDesc, base := 0x400, tok := some 0, img := img, waitPage := none }]
  mq := ops
  mrels := rel })
/-- The array's clearing of a block that the drain does not read, running. -/
def clears : MatOp := { id := 3, gslot := 0, kind := .mzero 0 1, running := true }

/-- EngineStepsComplete: a copy that ends, that stopped and that waited; the array's first operation started and retired; a drain read
and one written; a release. -/
theorem witness_EngineStepsComplete :
    (let t := runCopy (CW id) 0 aCopy.id
     (coreOf (CW id) 0).copies[0]? = some aCopy ∧ aCopy.waitPage = none ∧
     (copyById t 0 aCopy.id).any (fun d => d.done.length == d.count && d.dsp != 3 && d.fault.isNone && d.mayRetire t 0) = true) ∧
    (let s := CW (fun c => { c with fault := some .poison })
     (coreOf s 0).copies.all (fun c => !abandoned s 0 c) = true ∧ (copyById (runCopy s 0 aCopy.id) 0 aCopy.id).any (fun d => d.fault.isSome &&
       !abandoned (runCopy s 0 aCopy.id) 0 d && d.mayRetire (runCopy s 0 aCopy.id) 0) = true) ∧
    (let s := CW (fun c => { c with waitPage := some 2 })
     (coreOf s 0).copies.map (fun c => c.waitPage) = [some 2] ∧ (groupAt s 0 0).isSome = true ∧ pageOpen s (ctxOf s 0).pasid 2 = false ∧
     (coreOf s 0).copies.all (fun c => !abandoned s 0 c) = true) ∧
    (let s := MQ none [clears] []
     (coreOf s 0).mq = [clears] ∧ clears.running = true ∧ (coreOf s 0).drains.all (fun d => !(d.id < clears.id && d.img.isNone) ||
       !shares (drainBlocks d.desc) clears.kind.blocks) = true) ∧
    (let s := MQ none [clears] []
     (coreOf s 0).drains.find? (fun d => d.img.isNone) = (coreOf s 0).drains[0]? ∧ (coreOf s 0).drains.all (fun d => d.waitPage.isNone &&
       (coreOf s 0).mq.all (fun q => !(q.id < d.id && shares q.kind.blocks (drainBlocks d.desc)))) = true ∧ (groupAt s 0 0).any (fun g =>
       match (drainRows s 0 g tileDesc 0x400).1 with
       | .ok _ _ => true
       | _ => false) = true) ∧
    (let s := MQ (some (tileWords (coreOf MD 0) tileDesc)) [] []
     (coreOf s 0).drains[0]?.any (fun d => d.img.isSome && d.rows.isNone && !drainBehind (coreOf s 0) d && obsClear s 0 d.id) = true ∧ (groupAt s 0 0).any (fun g => match drainRows s 0 g tileDesc 0x400 with
       | (.ok _ t, _) => t.poison.isEmpty
       | _ => false) = true) ∧
    (let s := MQ none [] [⟨0, [7], [511], [1, 99]⟩]
     (coreOf s 0).mrels.all (fun r => r.before.all (fun i => (coreOf s 0).mq.all (fun q => q.id != i) &&
       (coreOf s 0).drains.all (fun d => d.id != i) && (coreOf s 0).copies.all (fun c => c.id != i) && s.inflight.all (fun q => q.id != i))) = true ∧
     (coreOf s 0).copies = [] ∧ s.inflight = []) := by decide

/-! #### Cistern, decoders, links, platform -/

/-- A state whose context has a page table that maps the first GiB to itself, writable, with the tables above it in die 3's walk cache. -/
def mapped (s : State) : State :=
  let s := modDie s 3 (fun d => { d with walkCache := [(1, walkKey 4 0, 0x11000), (1, walkKey 3 0, 0x12000)] })
  modCtx { s with mem := memSetBytes s.mem 0x12000 (bytesLE 8 41) } 0 (fun c => { c with ptroot := 16 })
/-- KO with the one slot of its batch changed, and a post of GEN `gen` held for die 3 since the cycle before. -/
def KS (f : CSlot → CSlot) (expert : Nat) (gen : Nat := 1) : State :=
  let s := modCslot (mapped KO) 3 0 f
  modDie s 3 (fun d => { d with
    chunkQ := [⟨V.cur, 99, 0, gen, expert, 0, true, List.replicate 256 1, 0, 0⟩]
    cycle := d.cycle + 1 })

/-- CisternAndDecoderStepsComplete: a post that traps, that is a duplicate, that is accepted, that is late for a batch and for none; at the
cycle of the deadline, and with every position present. -/
theorem witness_ChunkArrival :
    let row := fun (s : State) => ((dieOf s 3).chunkQ[0]?).map (fun k => classify s 3 k)
    let late := KS (fun c => { c with st := .combined }) 255
    let dead := modDie (KS id 255) 3 (fun d => { d with cycle := 100 })
    let full := KS (fun c => { c with arrmask := c.expmask }) 255
    (row (KS id 254) = some .trap ∧ row (KS (fun c => { c with rows := [(255, 0, 1)] }) 255) = some .dup ∧ row (KS id 255) = some (.accept 0)) ∧
    (cslotOf (KS id 255) 3 0).batch.isSome = true ∧ row late = some (.late (cslotOf late 3 0).batch) ∧ row (KS id 255 0) = some (.late none) ∧
    (chunkTurn (KS id 254) 3 0 && chunkTurn (KS id 255) 3 0 && chunkTurn (KS id 255 0) 3 0 && chunkTurn late 3 0) = true ∧
    ([dead, full].all (fun s => (cslotOf s 3 0).st == .open_ && (nextRelease s 3).isNone && combineDue (serveGates s 3) 3 0)) = true ∧
    ((cslotOf dead 3 0).deadline = 100 ∧ (dieOf dead 3).cycle = 100) := by decide

/-- CisternAndDecoderStepsComplete: a release at its turn, of a slot that failed and of one with a row, which is written, waits for its page
or fails. -/
theorem witness_SlotRelease :
    let made := fun (va : Nat) => KS (fun c => { c with
      st := .combined
      out := List.replicate 128 1
      outQ := [(va, List.replicate 128 1)] }) 255
    let failed := KS (fun c => { c with
      st := .combined
      result := 2 }) 255
    let ends := fun (s : State) => (cslotOf s 3 0).batch.map (fun b => let u := flushOut s 3 0 b (cslotOf s 3 0).outQ
      ((cslotOf u 3 0).failed, (cslotOf u 3 0).outQ.length))
    ([made 8192, failed].all (fun s => (cslotOf s 3 0).batch.isSome && nextRelease s 3 == some 0)) = true ∧
    ((cslotOf (made 8192) 3 0).result ≠ 2 ∧ (cslotOf failed 3 0).result = 2) ∧
    ([8192, 2 ^ 31, 2 ^ 56].map (fun va => ends (made va)) = [some (false, 0), some (false, 1), some (true, 1)]) := by decide

/-- A submission descriptor (R447): codec 2, 16 by 16 at most, a pitch of one line, two slots at 0x200000, a stream of 16 bytes at
0x3000, its context area at 0x100000, and its frames into batch queue 31 or into none. -/
def aSub (bq : Bool) : Nat :=
  (if bq then 1 <<< 186 + 31 <<< 187 else 0) + 1 <<< 176 + 2 <<< 180 + 1 <<< 208 + 16 <<< 224 + 16 <<< 240 + 16 <<< 288 + 0x200000 <<< 320 +
  0x100000 <<< 384 + 0x3000 <<< 448
/-- The device at reset with the context of the tests, page tables, that submission at 8192 queued at decoder 7 of die 3, and what the decoder is at. -/
def DD (v : Nat) (job : Option DecJob) : State :=
  let s := modCtx { State.reset with mem := memSetBytes [] 8192 (bytesLE 64 v) } 0 (fun _ => { newContext 0 [rcbOf 0] with pasid := 1 })
  let s := mapped s
  let s := modBq s 3 31 (fun b => { b with
    enabled := true
    cap := 1 })
  modDec s 3 7 (fun d => { d with
    st := .idle
    queue := [⟨8192, 0, 0, 0, some (V.cur, 7)⟩]
    job := job })
/-- A frame of one sample, and a job that has one. -/
def aFrame : Frame := ⟨1, 1, false, 0, [1, 2]⟩
def aJob (bq : Bool) (made status : Nat) : DecJob := ⟨aSub bq, 0, 0, 0, [aFrame], made, status, [], 0⟩

/-- Whether a unit's access is made. -/
def made (o : UnitOut) : Bool :=
  match o with
  | .ok _ _ => true
  | _ => false

/-- CisternAndDecoderStepsComplete: a decoder before a submission that is malformed and one that is not. -/
theorem witness_SubmissionStart : ([0, aSub false].all (fun v => let d := decOf (DD v none) 3 7
      d.st != .disabled && d.job.isNone && d.waitPage.isNone && d.queue.length == 1 &&
      (match unitGet (DD v none) 3 0 5 0 8192 64 with
        | .ok bs _ => ofBytesLE bs == v
        | _ => false))) = true ∧ vdOk 0 = false ∧ vdOk (aSub false) = true ∧
    made (unitGet (DD (aSub false) none) 3 0 5 0 0x3000 16) = true := by decide

/-- CisternAndDecoderStepsComplete: what that submission begins with, where its context area is stale and where it is not. -/
theorem witness_SubmissionStale : let v := aSub false
    let s : State := { DD v none with decStreams := [(vKey 0 v, ⟨true, 0, []⟩)] }
    (streamFor s 0 v).stale = true ∧ (streamFor (DD v none) 0 v).stale = false := by decide

/-- A range all of whose pages translate is read where no line is poisoned. -/
theorem unitGet_made {s : State} {die ctx path launch va n : Nat}
    (h : (unitPieces s die ctx 0 path launch (pagePieces va n)).2.1 = none)
    (hp : (unitPieces s die ctx 0 path launch (pagePieces va n)).2.2.poison = []) : made (unitGet s die ctx path launch va n) = true := by
  unfold unitGet withUnitRange
  cases hq : unitPieces s die ctx 0 path launch (pagePieces va n) with
  | mk rs r =>
    obtain ⟨e, t⟩ := r
    simp only [hq] at h hp
    subst h
    simp [isPoisoned, hp, made]

/-- A die written last is as it stands. -/
theorem modDie_again (s : State) (d : Nat) (f : Die → Die) : modDie (modDie s d f) d id = modDie s d f := by
  simp [modDie, dieOf, mapSet_mapSet_same]

/-- Whether a walk for an address reads no table that the die does not keep, and finds a page that allows the access. -/
def keptWalk (s : State) (die ctx kind va : Nat) : Bool :=
  let w := walkAt s.mem (dieOf s die).walkCache (ctxOf s ctx).pasid va 4 ((ctxOf s ctx).ptroot * 4096)
  userVa va && w.2.isEmpty && (match w.1 with
    | .leaf e => e.allows s kind va
    | _ => false)

/-- Such a walk leaves the device as it was, where no release is open. -/
theorem unitTranslate_kept {s : State} {die ctx kind path launch va : Nat} (hs : modDie s die id = s) (hp : s.promo = [])
    (hl : s.lineRec = []) (hn : (dieOf s die).walkCache.length ≤ 8192) (h : keptWalk s die ctx kind va = true) :
    ∃ pa e, unitTranslate s die ctx va kind path launch = (.ok pa e, s) := by
  simp only [keptWalk, Bool.and_eq_true, List.isEmpty_iff] at h
  obtain ⟨⟨hu, hw⟩, ho⟩ := h
  have hr : promoteWalk 6 s die (ctxOf s ctx).pasid (ctxOf s ctx).ptroot va = s := by
    have hz : ∀ l : List Nat, l.flatMap (fun a => (mapFind s.lineRec (lineOf a)).toList ++
        (List.range 8).flatMap (fun i => mapGet s.promo (a + i) [])) = [] := fun l => by
      simp [List.flatMap_eq_nil_iff, hp, hl, mapFind, mapGet]
    rw [promoteWalk, hz]
    simp [distinct]
  split at ho
  · rename_i e he
    have h0 : (dieOf s die).walkCache.length - 8192 = 0 := by omega
    have hd : modDie s die (fun d => { d with walkCache := d.walkCache.drop (d.walkCache.length - 8192) }) = s := by
      conv_rhs => rw [← hs]
      simp [modDie, h0]
    refine ⟨e.phys va, e, ?_⟩
    simp [unitTranslate, hu, answerWalk, walk, hr, he, hw, ho, hd]
  · exact absurd ho (by decide)

/-- Pieces each of which is walked so translate together. -/
theorem unitPieces_kept {s : State} {die ctx kind path launch : Nat} (hs : modDie s die id = s) (hp : s.promo = [])
    (hl : s.lineRec = []) (hn : (dieOf s die).walkCache.length ≤ 8192) (ps : List (Nat × Nat))
    (h : ps.all (fun p => keptWalk s die ctx kind p.1) = true) : (unitPieces s die ctx kind path launch ps).2 = (none, s) := by
  induction ps with
  | nil => rfl
  | cons p r ih =>
    simp only [List.all_cons, Bool.and_eq_true] at h
    obtain ⟨pa, e, ht⟩ := unitTranslate_kept (path := path) (launch := launch) hs hp hl hn h.1
    rw [unitPieces, ht]
    exact ih h.2

/-- CisternAndDecoderStepsComplete: the context area of that submission, 64 KiB at 0x100000. -/
theorem witness_DecoderArea : vCtxSize (aSub false) = 65536 ∧ bitsOf (aSub false) 384 64 = 0x100000 ∧
    made (unitGet (DD (aSub false) none) 3 0 5 0 0x100000 65536) = true := by
  have h : ∀ s, modDie s 3 id = s → s.promo = [] → s.lineRec = [] → s.poison = [] → (dieOf s 3).walkCache.length ≤ 8192 →
      (pagePieces 0x100000 65536).all (fun p => keptWalk s 3 0 0 p.1) = true → made (unitGet s 3 0 5 0 0x100000 65536) = true :=
    fun s hs hp hl hq hn hk => by
      have h := unitPieces_kept (path := 5) (launch := 0) hs hp hl hn _ hk
      exact unitGet_made (by rw [h]) (by rw [h]; exact hq)
  exact ⟨by decide, by decide, h _ (modDie_again _ _ _) rfl rfl rfl (by decide) (by decide)⟩

/-- CisternAndDecoderStepsComplete: a frame of a submission with no queue and with queue 31. -/
theorem witness_FramePut : let v := aSub true
    let own := DD v (some (aJob true 0 0))
    ((bqOf own 3 31).enabled = true ∧ (bqOf own 3 31).part = (ctxOf own (aJob true 0 0).ctx).part) ∧
    (bqOf (modBq own 3 31 (fun b => { b with part := 15 })) 3 31).part ≠ 0 ∧
    (aJob true 0 0).made < (aJob true 0 0).outputs ∧ ((aJob true 0 0).frames[0]?).isSome = true ∧
    bitsOf v 320 64 + 0 * vStride v = 0x200000 ∧ (aSub false).testBit 186 = false ∧ v.testBit 186 = true ∧ bitsOf v 187 5 = 31 := by decide
theorem witness_FrameRows : made (putRows (DD (aSub false) (some (aJob false 0 0))) 3 0 0 (frameRows (aSub false) 0x200000 aFrame)) = true := by
  decide
theorem witness_FrameQueue : (match putRows (DD (aSub true) (some (aJob true 0 0))) 3 0 0 (frameRows (aSub true) 0x200000 aFrame) with
      | .ok _ t => (bqPut t 3 31 []).isSome
      | _ => false) = true := by decide

/-- CisternAndDecoderStepsComplete: the end of a submission that failed and of one that did not. -/
theorem witness_SubmissionEnd : (let j := aJob false 1 5
     j.outputs ≤ j.made ∧ j.status ≠ 0) ∧
    (let j := aJob false 1 0
     j.outputs ≤ j.made ∧ j.status = 0 ∧
     made (unitPut (DD (aSub false) (some j)) 3 0 5 0 (bitsOf j.desc 384 64) (j.newCtx.take (vCtxSize j.desc))) = true) := by decide

/-- V as node 5 with the last port in a state. -/
def VN (st : PState) (f : Port → Port) : State := modPort { V with node := 5 } 17 (fun q => f { q with st := st })
/-- The flits a node sends to this one: an event and a line put, SEQ 0, and a NAK. -/
def aFlit (type : Nat) : BitVec 1280 := mkFlit ⟨type, 5, 0, 64, 0, 9, List.replicate 128 0, 3⟩ 0 0xFFF

/-- A flit with a bit of its check turned. -/
def spoilt (type : Nat) : BitVec 1280 := aFlit type ^^^ (1 <<< 1279)

/-- LinkStepsComplete: the last port in each state; a module that the package has and one it has not; a bad flit of a SEQ that failed and
of one that did not, and a bad NAK; a NAK; an event and a data flit in sequence. -/
theorem witness_LinkStepsComplete :
    let a := VN .active id
    (portOf (VN .training id) 17).st = .training ∧ (VN .training id).node ≠ 0xFFFF ∧ V.node = 0xFFFF ∧
    (portOf (modPort V 17 (fun q => { q with st := .training })) 17).st = .training ∧ (portOf (VN .retrain id) 17).st = .retrain ∧
    (portOf a 17).st = .active ∧ ((portOf a 17).lastGood + 1) % 4096 = 0 ∧
    (moduleMissing { V with noModule := some 1 } 0 = true ∧ moduleMissing { V with noModule := some 1 } 31 = false ∧ V.power ≠ .d3cold) ∧
    ([1, 2, 3, 5, 15].all (fun t => !flitOk (spoilt t) && flitFld (spoilt t) 0 4 == t && flitFld (spoilt t) 23 12 == 0)) = true ∧
    (0 ∉ (portOf a 17).fails ∧ 0 ∈ (portOf (VN .active (fun q => { q with fails := [0] })) 17).fails) ∧
    (flitOk (aFlit 3) = true ∧ flitFld (aFlit 3) 0 4 = 3 ∧ flitFld (aFlit 3) 35 1 = 1) ∧
    (portOf (VN .active (fun q => { q with nak := some (aFlit 3) })) 17).nak = some (aFlit 3) ∧
    ([1, 2].all (fun t => flitOk (aFlit t) && flitFld (aFlit t) 0 4 == t && flitFld (aFlit t) 23 12 == 0 &&
      (landFlit (ackFlits a 17 (flitFld (aFlit t) 36 12)) 17 (aFlit t)).isSome)) = true := by decide

/-- PlatformStepsComplete: D3HOT from D0 with a resident context and with none, from DIE-RETAIN, left, and power removed. -/
theorem witness_PowerSteps :
    let hot : State := { V with power := .d3hot }
    let busy := { V with pmPending := true }
    V.power = .d0 ∧ ({ V with power := .dieRetain } : State).power = .dieRetain ∧
    ((V.ctxs.foldl (fun t e => if e.2.st == .resident then beginSave t e.1 else t) busy).ctxs.any (fun e => e.2.st == .saving)) = true ∧
    (let s := VX .saved
     (s.ctxs.foldl (fun t e => if e.2.st == .resident then beginSave t e.1 else t) { s with pmPending := true }).ctxs.all (fun e =>
       e.2.st != .saving && e.2.st != .resuming && e.2.st != .resident) = true) ∧ hot.power = .d3hot ∧
    ({ V with power := .d3cold } : State).power = .d3cold := by decide

/-- PlatformStepsComplete, POWER_ON: an image verifies or does not, as the firmware's constants say; either way a clause holds of a
device in D3COLD. -/
theorem witness_PowerOn (openPart : Bool) (image : List Byte) : ({ V with power := .d3cold } : State).power = .d3cold ∧
    (fwImageOk openPart image = false ∨ fwImageOk openPart image = true) := ⟨rfl, by cases fwImageOk openPart image <;> simp⟩

/-- PlatformStepsComplete: a leader whose lease is its own after 2600000 cycles or another's; a follower at 13000000 cycles, with a link
stream and without, one whose turn comes after another die's, and one that sees a lease renewed. -/
theorem witness_Leases :
    let at_ := fun (leads : Bool) (c : Nat) => modDie V 3 (fun d => { d with
      leads := leads
      cycle := c })
    let other := fun (s : State) => ({ s with mem := memSetBytes s.mem 0x011FFFFFFF80 [1] } : State)
    let w := fun (s : State) => memNat s.mem 0x011FFFFFFF80 8
    let a := at_ true 2600000
    let b := at_ false 13000000
    ((dieOf a 3).leads = true ∧ (dieOf a 3).leaseSince + 2600000 ≤ (dieOf a 3).cycle ∧ w a = (dieOf a 3).leaseSeen ∧ leaseTurn a 3 = true ∧ V.power ≠ .d3cold ∧
      w (other a) ≠ (dieOf (other a) 3).leaseSeen) ∧
    ((dieOf b 3).leads = false ∧ (dieOf b 3).fwHeld = false ∧ (dieOf b 3).leaseSince + 13000000 ≤ (dieOf b 3).cycle ∧
      w b = (dieOf b 3).leaseSeen ∧ leaseTurn b 3 = true ∧ w b = (dieOf b 1).leaseSeen ∧ leaseTurn b 1 = false ∧
      (dieOf b 1).leads = false ∧ (dieOf b 1).fwHeld = false ∧ w (other b) ≠ (dieOf (other b) 3).leaseSeen ∧ b.linkStream = none ∧
      ({ b with linkStream := some 3 } : State).linkStream = some 3) := by decide

/-! #### Values, frames, traps -/

/-- DivisionTowardZero, the uniform clause: the greatest register number. -/
theorem witness_UniformDivision : let f : FA := { fa .i64 with
      dst := 255
      srca := 254
      srcb := 253 }
    Ready V (xOf V) .all false noG 0 [.u f.srca.toNat f.fea, .u f.srcb.toNat f.feb, .ud f.dst.toNat] := ready_of (by decide)

/-- BitFieldsAndAddress: each clause, 64-bit operands in the last registers. -/
theorem witness_BitFieldsAndAddress : let f : FB := ⟨510, 508, 506, 505, false, false, false, .n64, 0, false, true⟩
    let n := tyRegs f.ty
    Ready V (xOf V) .vector false noG 0 [.v f.srca.toNat n id f.fea, opBb f 1, .v f.srcc.toNat 1 id f.fec, .vd f.dst.toNat n] ∧
    Ready V (xOf V) .vector false noG 0 [.v f.srca.toNat n id f.fea, opBb f n, .v f.srcc.toNat 1 id f.fec, .vd f.dst.toNat n] ∧
    Ready V (xOf V) .vector false noG 0 [.v f.srca.toNat 2 id f.fea, opBb f 1, .vd f.dst.toNat 2] :=
  ⟨ready_of (by decide), ready_of (by decide), ready_of (by decide)⟩

/-- Perm8IsAffine: the last element of the last entry, with its equal; two entries that agree on every element are one. -/
theorem witness_Perm8IsAffine : (31 : Nat) < 32 ∧ (7 : Nat) < 8 ∧ perm8 31 7 = (5 * 7 + 7) % 8 ∧
    ((List.range 32).filter (fun q => (List.range 8).all (fun i => perm8 31 i == perm8 q i))) = [31] := by decide

/-- What the statements of frames ask of an instruction and a state: it has a shape, its role runs before it and after it. -/
def framed (i : Instr) (s : State) : Bool :=
  (shapeOf i).isSome && (issuer s).isSome && (xOf s).wp.run == .run && (xOf s).sp.wait.isNone &&
  (match exec i s with
    | .next t => (warpAt t s.cur.core s.cur.gslot s.cur.wid).any (fun y => y.run == .run)
    | _ => false)

/-- RegisterFrame: an instruction of each kind of destination, a carry with its predicate, a pair word and a transfer of control. -/
theorem witness_RegisterFrame :
    ([.iadd noG faLast, .iaddc noG { fa .i32 with rnd := 6 }, .icmp noG { fa .i32 with dst := 6 }, .sadd noG (fa .i64),
      .scmp noG { fa .i64 with dst := 3 }, .bra noG fj, .pairIadd ⟨7, 1, 2, 0, false⟩ ⟨.mov, ⟨7, 3, 4, 0, false⟩⟩] : List Instr).all
      (fun i => framed i V && (destsOf i).isSome) = true := by decide

/-- MemoryFrame: a load and a store that issue, and at their home a store of one lane, an atomic, a compare and swap, its double and a move,
the atomics also in their first and second step on host memory. -/
theorem witness_MemoryFrame :
    ([.ld noG fm, .st noG fm, .iadd noG faLast] : List Instr).all (fun i => framed i V && !writesAtIssue i && (match exec i V with
      | .next t => (ctxOf t 0).regions.map (fun q => q.stopped) == (ctxOf V 0).regions.map (fun q => q.stopped)
      | _ => false)) = true ∧
    (let one := fun (k : ReqKind) (pa : Nat) (got : Option (List Host.Cell)) => ({ aStore with
       kind := k
       lanes := [{ lane := 31, pa := pa, v := 5, pa2 := pa + 4 }]
       got := got } : Req)
     let runs := fun (r : Req) => let s : State := { V with inflight := [r] }
       Memory.wf s.mem && eligible s r && (match exec (.homeAccess 0) s with
         | .next _ => true
         | _ => false)
     ([.store, .atom 0 true, .cas, .load, .dcas, .amov] : List ReqKind).all (fun k => runs (one k 8192 none) && !(one k 8192 none).twoSteps) &&
     ([.atom 0 true, .cas, .dcas, .amov] : List ReqKind).all (fun k => runs (one k (2 ^ 42) none) && (one k (2 ^ 42) none).twoSteps &&
       runs (one k (2 ^ 42) (some [])) && !(one k (2 ^ 42) (some [])).twoSteps)) = true := by decide

/-- MemoryFrame, several lanes of one line: two on one word and a third on the next, at home and in the second step on host memory. -/
theorem witness_MemoryFrameLanes :
    (let three := fun (k : ReqKind) (pa : Nat) (got : Option (List Host.Cell)) => ({ aStore with
       kind := k
       scope := 0
       lanes := [{ lane := 0, pa := pa, v := 5, pa2 := pa + 8 }, { lane := 1, pa := pa, v := 6, pa2 := pa + 8 }, { lane := 31, pa := pa + 4, v := 7, pa2 := pa }]
       got := got } : Req)
     let runs := fun (r : Req) => let s : State := { V with inflight := [r] }
       Memory.wf s.mem && eligible s r && !r.twoSteps && (match exec (.homeAccess 0) s with
         | .next _ => true
         | _ => false)
     ([.store, .atom 0 true, .atom 0 false, .cas, .dcas, .amov, .load] : List ReqKind).all (fun k => runs (three k 8192 none)) &&
     ([.atom 0 true, .cas, .dcas, .amov] : List ReqKind).all (fun k => runs (three k (2 ^ 42) (some []))) &&
     (let home := { three .load 8192 none with
       sync := true
       scope := 3 }
      runs home && !home.queueServed)) = true := by decide

/-- HandledTrapIsRecorded: V with a log of 64 records that takes every cause, empty or at its last place. -/
theorem witness_HandledTrapIsRecorded :
    let last := modCtx (handled V) 0 (fun c => { c with tlog := some ⟨0x10000, 64, 0, 63, 63, []⟩ })
    Memory.wf (handled V).mem = true ∧ Ready (handled V) (xOf (handled V)) .all true noG 0 [] ∧
    (ctxOf (handled V) 0).tlog.isSome = true ∧ (handled V).poison = [] ∧ trapHandled (ctxOf (handled V) 0) .user = true ∧
    Memory.wf last.mem = true ∧ Ready last (xOf last) .all true noG 0 [] ∧ trapHandled (ctxOf last 0) .user = true :=
  ⟨by decide, ready_of (by decide), by decide, by decide, by decide, by decide, ready_of (by decide), by decide⟩

/-- HandledTrapIsRecorded, RoleStepsComplete: the role with a store in flight, or with none, and stopped at a trap. -/
theorem witness_TrapWaits :
    let busy : State := { handled V with inflight := [aStore] }
    let stopped := after (.trap noG (fi 5)) busy
    let at_ := fun (s : State) => (warpAt s 0 0 0).any (fun y => match y.run with
      | .trapping r n => roleQuiet s { V.cur with slot := r.split } && n == 1
      | _ => false)
    Ready busy (xOf busy) .all true noG 0 [] ∧ (roleQuiet busy V.cur = false ∧ roleQuiet (handled V) V.cur = true) ∧
    at_ { stopped with inflight := [] } = true :=
  ⟨ready_of (by decide), by decide, by decide⟩

/-- R426: a trap's record waits for the warp's earlier store; TRAP_TAKEN then writes it. -/
theorem test_trapWaitsForStore :
    let stopped := after (.trap noG (fi 5)) { handled V with inflight := [aStore] }
    let held := fun (s : State) => (ctxOf s 0).tlog.map (fun l => l.count)
    held (after (.trapTaken 0 0 0) stopped) = some 0 ∧ held (after (.trapTaken 0 0 0) { stopped with inflight := [] }) = some 1 := by
  decide

/-- ResolveResumes: the TRAPPED vector warp of VT, with each action. -/
theorem witness_ResolveResumes :
    ((List.range 4).all (fun a => debugB VT pf (dbg 0x32 0 a 4096) 0x32 0 && bitsOf (dbgCmdOf (dbg 0x32 0 a 4096).toNat).arg0 0 3 == a)) = true ∧
    (ctxOf VT 0).saved.isEmpty = true ∧ (dbgWarp VT (dbgCmdOf (dbg 0x32 0 2 4096).toNat)).any (fun p => p.2.aside.isNone &&
      (match p.2.run with
       | .trapped r _ (some _) => (p.2.split r.split).isSome
       | _ => false)) = true ∧
    (dbgCmdOf (dbg 0x32 0 2 4096).toNat).arg1 % 8 = 0 ∧ (dbgCmdOf (dbg 0x32 0 2 4096).toNat).arg1 < 2 ^ 56 := by decide

end Sys2Proof.Tests
end

