-- ==== Sys2Proof/Proofs/Perm8.lean ====
section
/-!
PERM8's entries (R223). An entry's multiplier is odd, so it can be cancelled modulo 8 and the entry is a permutation; the
elements 0 and 1 of an entry give back its offset and its multiplier, so no two entries are the same.
-/
namespace Sys2Proof.Proofs
open Sys2Proof.Machine

/-- The multiplier of PERM8's entry `p` (R223). -/
def perm8Mult (p : Nat) : Nat := ([1, 7, 3, 5] : List Nat).getD (p / 8) 0

theorem perm8_eq_affine {p : Nat} (hp : p < 32) (i : Nat) : perm8 p i = (perm8Mult p * i + p % 8) % 8 := by
  have hq : p / 8 < 4 := by omega
  unfold perm8 perm8Mult
  generalize p / 8 = q at hq
  interval_cases q <;> rfl

theorem coprime_eight_perm8Mult {p : Nat} (hp : p < 32) : Nat.Coprime 8 (perm8Mult p) := by
  have table : ∀ q < 4, Nat.Coprime 8 (([1, 7, 3, 5] : List Nat).getD q 0) := by decide
  exact table (p / 8) (by omega)

/-- The four multipliers are pairwise distinct modulo 8. -/
theorem div_eight_eq_of_perm8Mult_modEq {p q : Nat} (hp : p < 32) (hq : q < 32)
    (h : perm8Mult p ≡ perm8Mult q [MOD 8]) : p / 8 = q / 8 := by
  have table : ∀ m < 4, ∀ n < 4,
      ([1, 7, 3, 5] : List Nat).getD m 0 % 8 = ([1, 7, 3, 5] : List Nat).getD n 0 % 8 → m = n := by decide
  exact table (p / 8) (by omega) (q / 8) (by omega) h

theorem perm8_injOn {p i j : Nat} (hp : p < 32) (hi : i < 8) (hj : j < 8) (h : perm8 p i = perm8 p j) : i = j := by
  rw [perm8_eq_affine hp, perm8_eq_affine hp] at h
  have hmul : perm8Mult p * i ≡ perm8Mult p * j [MOD 8] := Nat.ModEq.add_right_cancel' (p % 8) h
  have hmod : i ≡ j [MOD 8] := hmul.cancel_left_of_coprime (coprime_eight_perm8Mult hp)
  exact hmod.eq_of_lt_of_lt hi hj

theorem perm8_entry_injective {p q : Nat} (hp : p < 32) (hq : q < 32)
    (h : ∀ i, i < 8 → perm8 p i = perm8 q i) : p = q := by
  have hoff : p % 8 = q % 8 := by
    simpa [perm8_eq_affine hp, perm8_eq_affine hq] using h 0 (by decide)
  have hmult : perm8Mult p ≡ perm8Mult q [MOD 8] := by
    have h1 := h 1 (by decide)
    rw [perm8_eq_affine hp, perm8_eq_affine hq, mul_one, mul_one, hoff] at h1
    exact Nat.ModEq.add_right_cancel' (q % 8) h1
  have hdiv : p / 8 = q / 8 := div_eight_eq_of_perm8Mult_modEq hp hq hmult
  calc p = 8 * (p / 8) + p % 8 := (Nat.div_add_mod p 8).symm
    _ = 8 * (q / 8) + q % 8 := by rw [hdiv, hoff]
    _ = q := Nat.div_add_mod q 8

/-- Settles O56: each entry is injective as its multiplier is coprime to 8, and its elements 0 and 1 determine it; the spec's
example of entry 17 is evaluated. -/
theorem perm8IsAffine : Obligations.Perm8IsAffine := by
  unfold Obligations.Perm8IsAffine
  exact ⟨fun _ i hp _ => perm8_eq_affine hp i, fun _ _ _ => perm8_injOn, fun _ _ => perm8_entry_injective,
    by decide, by decide⟩

end Sys2Proof.Proofs
end

