-- ==== Sys2Proof/Proofs/VectorForms.lean ====
section
/-!
The shared forms of vector and uniform instructions where they issue whole (R232): each ends past its word with its result
in the lanes of the guard, or in its uniform register. IADDC (R280), the one vector form with a result and a predicate.
-/
namespace Sys2Proof.Proofs
open Sys2Proof.Machine

theorem vecA2_ready {s : State} {x : Iss} {g : Guard} {f : FA} {na nb nd : Nat} {op : Iss → Nat → Nat → Nat}
    (h : Ready s x .vector false g 0 [opA f na, opB f nb, .vd f.dst.toNat nd]) :
    vecA2 g f na nb nd op s =
      .next (past x 1 (vecResult s x g f.dst nd (fun l => op x (valA f x na l) (valB f x nb l)))) :=
  runWord_ready h

theorem vecB3_ready {s : State} {x : Iss} {g : Guard} {f : FB} {na nb nc nd : Nat} {op : Iss → Nat → Nat → Nat → Nat}
    (h : Ready s x .vector false g 0
      [.v f.srca.toNat na id f.fea, opBb f nb, .v f.srcc.toNat nc id f.fec, .vd f.dst.toNat nd]) :
    vecB3 g f na nb nc nd op s = .next (past x 1 (vecResult s x g f.dst nd (fun l =>
      op x (vregN x.wp f.srca.toNat na l) (valBb f x nb l) (vregN x.wp f.srcc.toNat nc l)))) :=
  runWord_ready h

theorem intA2_ready {s : State} {x : Iss} {g : Guard} {f : FA} {op : Nat → Nat → Nat}
    (h : Ready s x .vector false g 0 [opA f (tyRegs f.ty), opB f (tyRegs f.ty), .vd f.dst.toNat (tyRegs f.ty)]) :
    intA2 g f op s = .next (past x 1 (vecResult s x g f.dst (tyRegs f.ty) (fun l =>
      extV f.ty (op (lowT f.ty (valA f x (tyRegs f.ty) l)) (lowT f.ty (valB f x (tyRegs f.ty) l)))))) :=
  vecA2_ready (op := fun _ a b => extV f.ty (op (lowT f.ty a) (lowT f.ty b))) h

theorem sInt2_ready {s : State} {x : Iss} {g : Guard} {f : FA} {op : Nat → Nat → Nat}
    (h : Ready s x .all false g 0 [.u f.srca.toNat f.fea, .u f.srcb.toNat f.feb, .ud f.dst.toNat]) :
    sInt2 g f op s =
      .next (past x 1 (uniResult s x f.dst (extS f.ty (op (sval x f.ty f.srca) (sval x f.ty f.srcb))))) := by
  unfold sInt2 sca2
  exact runWord_ready h

theorem exec_iaddc (g : Guard) (f : FA) (s : State) : exec (.iaddc g f) s = execIaddc g f s := by rfl

theorem execIaddc_ready {s : State} {x : Iss} {g : Guard} {f : FA}
    (h : Ready s x .vector false g 0 [opA f (tyRegs f.ty), opB f (tyRegs f.ty), .vd f.dst.toNat (tyRegs f.ty)]) :
    let sum := fun (l : Nat) => addCarry (tyWidth f.ty) (lowT f.ty (valA f x (tyRegs f.ty) l))
      (lowT f.ty (valB f x (tyRegs f.ty) l)) (inMask (predOf x.wp f.rnd.toNat) l)
    execIaddc g f s = .next (past x 1 (predResult (vecResult s x g f.dst (tyRegs f.ty) (fun l => (sum l).1)) x g
      (f.rnd.setWidth 9) (fun l => (sum l).2))) := by
  intro sum
  unfold execIaddc predResult
  rw [BitVec.toNat_setWidth_of_le (by decide)]
  exact runWord_ready h

/-- Settles O15: IADDC issues whole, and the sum and carry of `addCarry` are those of R280. -/
theorem addWithCarry : Obligations.AddWithCarry := by
  unfold Obligations.AddWithCarry
  intro s x g f n w h sum
  rw [exec_iaddc, execIaddc_ready h]
  rfl

end Sys2Proof.Proofs
end

