-- ==== Sys2Proof/Proofs/Division.lean ====
section
/-!
IDIV, IREM and SDIV (R279, R257): the model's quotient and remainder by their three cases, a divisor of 0, the least value
divided by -1, and the division toward zero.
-/
namespace Sys2Proof.Proofs
open Sys2Proof.Machine

theorem tyMin_eq (t : Ty) : tyMin t = if tySigned t then -(2 ^ (tyWidth t - 1) : Int) else 0 := by
  simp [tyMin]

theorem tyMax_eq (t : Ty) :
    tyMax t = if tySigned t then (2 ^ (tyWidth t - 1) : Int) - 1 else (2 ^ tyWidth t : Int) - 1 := by
  simp [tyMax]

section
variable {t : Ty} {p q : Nat}

theorem quotOf_divisor_zero (sat : Bool) (hq : readInt t q = 0) :
    quotOf t sat p q = if sat = false then 2 ^ tyWidth t - 1
      else if 0 ≤ readInt t p then wrapTo (tyWidth t) (tyMax t) else wrapTo (tyWidth t) (tyMin t) := by
  simp [quotOf, hq, apply_ite (wrapTo (tyWidth t))]

theorem remOf_divisor_zero (hq : readInt t q = 0) : remOf t p q = p % 2 ^ tyWidth t := by
  simp [remOf, hq, lowT]

theorem quotOf_overflow (sat : Bool) (h : tySigned t = true ∧ readInt t p = tyMin t ∧ readInt t q = -1) :
    quotOf t sat p q = if sat = false then wrapTo (tyWidth t) (tyMin t) else wrapTo (tyWidth t) (tyMax t) := by
  cases sat <;> simp [quotOf, h]

theorem remOf_overflow (h : tySigned t = true ∧ readInt t p = tyMin t ∧ readInt t q = -1) : remOf t p q = 0 := by
  simp [remOf, h]

theorem quotOf_eq_tdiv (sat : Bool) (hq : readInt t q ≠ 0)
    (h : ¬ (tySigned t = true ∧ readInt t p = tyMin t ∧ readInt t q = -1)) :
    quotOf t sat p q = wrapTo (tyWidth t) ((readInt t p).tdiv (readInt t q)) := by
  have hover : (tySigned t && readInt t p == tyMin t && readInt t q == -1) = false := by
    simpa [and_assoc] using h
  simp [quotOf, hq, hover]

/-- Outside the corners the remainder is that of the division toward zero. -/
theorem remOf_eq_tmod (hq : readInt t q ≠ 0)
    (h : ¬ (tySigned t = true ∧ readInt t p = tyMin t ∧ readInt t q = -1)) :
    remOf t p q = wrapTo (tyWidth t) ((readInt t p).tmod (readInt t q)) := by
  have hover : (tySigned t && readInt t p == tyMin t && readInt t q == -1) = false := by
    simpa [and_assoc] using h
  simp [remOf, hq, hover, Int.tmod_def, mul_comm]

end

theorem exec_idiv (g : Guard) (f : FA) (s : State) : exec (.idiv g f) s = intA2 g f (quotOf f.ty f.sat) s := by rfl
theorem exec_irem (g : Guard) (f : FA) (s : State) : exec (.irem g f) s = intA2 g f (remOf f.ty) s := by rfl
theorem exec_sdiv (g : Guard) (f : FA) (s : State) : exec (.sdiv g f) s = sInt2 g f (quotOf f.ty f.sat) s := by rfl

/-- Settles O54: the quotient and the remainder agree with R279 in each of its three cases, and the forms issue whole. -/
theorem divisionTowardZero : Obligations.DivisionTowardZero := by
  unfold Obligations.DivisionTowardZero
  intro s x g f n w least most quot rem
  have hleast : tyMin f.ty = least := tyMin_eq f.ty
  have hmost : tyMax f.ty = most := tyMax_eq f.ty
  have hquot : quotOf f.ty f.sat = quot := by
    funext p q
    by_cases hzero : readInt f.ty q = 0
    · simp only [quot, quotOf_divisor_zero _ hzero, if_pos hzero, hleast, hmost, w]
    by_cases hover : tySigned f.ty = true ∧ readInt f.ty p = least ∧ readInt f.ty q = -1
    · simp only [quot, if_neg hzero, if_pos hover, quotOf_overflow _ (hleast ▸ hover), hleast, hmost, w]
    · simp only [quot, if_neg hzero, if_neg hover, quotOf_eq_tdiv _ hzero (hleast ▸ hover), w]
  have hrem : remOf f.ty = rem := by
    funext p q
    by_cases hzero : readInt f.ty q = 0
    · simp only [rem, if_pos hzero, remOf_divisor_zero hzero, w]
    by_cases hover : tySigned f.ty = true ∧ readInt f.ty p = least ∧ readInt f.ty q = -1
    · simp only [rem, if_neg hzero, if_pos hover, remOf_overflow (hleast ▸ hover)]
    · simp only [rem, if_neg hzero, if_neg hover, remOf_eq_tmod hzero (hleast ▸ hover), w]
  rw [exec_idiv, exec_irem, exec_sdiv, hquot, hrem]
  exact ⟨fun h => ⟨intA2_ready h, intA2_ready h⟩, sInt2_ready⟩

end Sys2Proof.Proofs
end

