-- ==== Sys2Proof/Proofs/BitFields.lean ====
section
/-!
BFE and BFI (R281) and LEA (R284): a field is shifted and cut by arithmetic, and read as signed from its own top bit.
-/
namespace Sys2Proof.Proofs
open Sys2Proof.Machine

theorem wrapTo_cast (w : Nat) (v : Int) : (wrapTo w v : Int) = v % 2 ^ w := by
  have hnonneg : 0 ≤ v % 2 ^ w := Int.emod_nonneg v (by positivity)
  simpa [wrapTo] using hnonneg

theorem wrapTo_lt (w : Nat) (v : Int) : wrapTo w v < 2 ^ w := by
  have hlt : v % 2 ^ w < 2 ^ w := Int.emod_lt_of_pos v (by positivity)
  rw [← wrapTo_cast] at hlt
  exact_mod_cast hlt

/-- The signed value of a field of `len` bits, by its exact value. -/
theorem signedOf_wrapTo (len : Nat) (v : Int) : signedOf len (wrapTo len v) =
    if v % 2 ^ len < 2 ^ (len - 1) then v % 2 ^ len else v % 2 ^ len - 2 ^ len := by
  have hcond : wrapTo len v < 2 ^ (len - 1) ↔ v % 2 ^ len < 2 ^ (len - 1) := by
    rw [← wrapTo_cast]
    exact_mod_cast Iff.rfl
  simp [signedOf, Nat.mod_eq_of_lt (wrapTo_lt len v), hcond, wrapTo_cast]

theorem bitExtract_eq (t : Ty) (a b c : Nat) :
    let w := tyWidth t
    let pos := Nat.min (b % 2 ^ 8) w
    let len := Nat.min (c % 2 ^ 8) w
    let field : Int := readInt t a / 2 ^ pos % 2 ^ len
    bitExtract t a b c = if len = 0 then 0
      else if tySigned t then wrapTo w (if field < 2 ^ (len - 1) then field else field - 2 ^ len) else field.toNat := by
  intro w pos len field
  have hshift : readInt t a / ((2 ^ pos : Nat) : Int) = readInt t a / 2 ^ pos := by push_cast; rfl
  have hfield : wrapTo len (readInt t a / 2 ^ pos) = field.toNat := by rw [← Int.toNat_natCast (wrapTo _ _), wrapTo_cast]
  calc bitExtract t a b c
      = if len = 0 then 0 else if tySigned t then wrapTo w (signedOf len (wrapTo len (readInt t a / 2 ^ pos)))
          else wrapTo len (readInt t a / 2 ^ pos) := by rw [← hshift]; rfl
    _ = _ := by rw [signedOf_wrapTo, hfield]

theorem bitInsert_eq (w a b c : Nat) :
    let pos := Nat.min (c % 2 ^ 8) w
    let len := Nat.min (c / 2 ^ 8 % 2 ^ 8) w
    let m := (2 ^ len - 1) * 2 ^ pos % 2 ^ w
    bitInsert w a b c = (a &&& (2 ^ w - 1 - m)) ||| (b * 2 ^ pos &&& m) := by
  simp only [bitInsert, Nat.shiftLeft_eq]
  rfl

theorem exec_bfe (g : Guard) (f : FB) (s : State) : exec (.bfe g f) s =
    vecB3 g f (tyRegs f.ty) 1 1 (tyRegs f.ty) (fun _ a b c => extV f.ty (bitExtract f.ty a b c)) s := by rfl
theorem exec_bfi (g : Guard) (f : FB) (s : State) : exec (.bfi g f) s =
    vecB3 g f (tyRegs f.ty) (tyRegs f.ty) 1 (tyRegs f.ty) (fun _ a b c => bitInsert (tyWidth f.ty) a b c) s := by rfl
theorem exec_lea (g : Guard) (f : FB) (s : State) : exec (.lea g f) s = execLea g f s := by rfl

theorem execLea_ready {s : State} {x : Iss} {g : Guard} {f : FB}
    (h : Ready s x .vector false g 0 [.v f.srca.toNat 2 id f.fea, opBb f 1, .vd f.dst.toNat 2]) :
    execLea g f s = .next (past x 1 (vecResult s x g f.dst 2 (fun l => wrapTo 64
      ((vregN x.wp f.srca.toNat 2 l : Int) + readInt f.ty (valBb f x 1 l) * ((2 ^ (f.srcc.toNat % 8) : Nat) : Int))))) :=
  runWord_ready h

/-- Settles O55: the three forms issue whole, and the model's bit operations are R281's arithmetic on fields and masks. -/
theorem bitFieldsAndAddress : Obligations.BitFieldsAndAddress := by
  unfold Obligations.BitFieldsAndAddress
  intro s x g f n w a c
  refine ⟨fun h => ?bfe, fun h => ?bfi, fun h => ?lea⟩
  case bfe =>
    rw [exec_bfe, vecB3_ready h]
    simp only [bitExtract_eq]
    rfl
  case bfi =>
    rw [exec_bfi, vecB3_ready h]
    simp only [bitInsert_eq]
    rfl
  case lea =>
    rw [exec_lea, execLea_ready h]
    push_cast
    rfl

end Sys2Proof.Proofs
end

