-- ==== Sys2Proof/Proofs/Encoding.lean ====
section
/-!
Decoding undoes encoding (R206, R207, R231): a field laid out in a word is read back from its place, so each layout's fields
are read back whole, the opcode finds its row of the map, and the bytes of the words are the words.
-/
namespace Sys2Proof.Proofs

/-! ### Fields of a packed word -/

theorem flag_eq_extract (w : W64) (i : Nat) : flag w i = (w.extractLsb' i 1).getLsbD 0 := by
  simp [flag]

theorem getLsbD_ofBool_zero (b : Bool) : (BitVec.ofBool b).getLsbD 0 = b := by cases b <;> rfl

theorem toNat_mod_two_pow_eq_extract (w : W64) (n : Nat) : w.toNat % 2 ^ n = (w.extractLsb' 0 n).toNat := by
  simp

theorem tyOf_tyCode (t : Ty) : tyOf (tyCode t) = some t := by cases t <;> rfl

theorem popOf_popCode (p : Pop) : popOf (popCode p) = some p := by cases p <;> rfl

theorem guardOf_fullWord (op : BitVec 9) (g : Guard) (body : BitVec 50) : guardOf (fullWord op g body) = g := by
  simp (disch := decide) only [guardOf, fld, flag_eq_extract, fullWord, BitVec.extractLsb'_append_eq_of_add_le,
    BitVec.extractLsb'_append_eq_of_le, Nat.reduceSub,
    BitVec.extractLsb'_eq_self, getLsbD_ofBool_zero]

/-! ### The layouts -/

theorem unpackA_packA (op : BitVec 9) (g : Guard) (f : FA) : unpackA (fullWord op g (packA f)) = .ok f := by
  simp (disch := decide) only [unpackA, packA, fullWord, withTy, toNat_mod_two_pow_eq_extract, fld, flag_eq_extract,
    BitVec.extractLsb'_append_eq_of_add_le, BitVec.extractLsb'_append_eq_of_le, Nat.reduceSub,
    BitVec.extractLsb'_eq_self, getLsbD_ofBool_zero, tyOf_tyCode]
  rfl

theorem unpackB_packB (op : BitVec 9) (g : Guard) (f : FB) : unpackB (fullWord op g (packB f)) = .ok f := by
  simp (disch := decide) only [unpackB, packB, fullWord, withTy, toNat_mod_two_pow_eq_extract, fld, flag_eq_extract,
    BitVec.extractLsb'_append_eq_of_add_le, BitVec.extractLsb'_append_eq_of_le, Nat.reduceSub,
    BitVec.extractLsb'_eq_self, getLsbD_ofBool_zero, tyOf_tyCode]
  rfl

theorem unpackI_packI (op : BitVec 9) (g : Guard) (f : FI) : unpackI (fullWord op g (packI f)) = .ok f := by
  simp (disch := decide) only [unpackI, packI, fullWord, withTy, toNat_mod_two_pow_eq_extract, fld, flag_eq_extract,
    BitVec.extractLsb'_append_eq_of_add_le, BitVec.extractLsb'_append_eq_of_le, Nat.reduceSub,
    BitVec.extractLsb'_eq_self, getLsbD_ofBool_zero, tyOf_tyCode]
  rfl

theorem unpackM_packM (op : BitVec 9) (g : Guard) (f : FM) : unpackM (fullWord op g (packM f)) = .ok f := by
  simp (disch := decide) only [unpackM, packM, fullWord, fld, flag_eq_extract,
    BitVec.extractLsb'_append_eq_of_add_le, BitVec.extractLsb'_append_eq_of_le, Nat.reduceSub,
    BitVec.extractLsb'_eq_self, getLsbD_ofBool_zero]

theorem unpackJ_packJ (op : BitVec 9) (g : Guard) (f : FJ) : unpackJ (fullWord op g (packJ f)) = .ok f := by
  simp (disch := decide) only [unpackJ, packJ, fullWord, fld, flag_eq_extract,
    BitVec.extractLsb'_append_eq_of_add_le, BitVec.extractLsb'_append_eq_of_le, Nat.reduceSub,
    BitVec.extractLsb'_eq_self, getLsbD_ofBool_zero]

theorem unpackAtom_packAtom (op : BitVec 9) (g : Guard) (f : FAtom) : unpackAtom (fullWord op g (packAtom f)) = .ok f := by
  simp (disch := decide) only [unpackAtom, packAtom, fullWord, fld, flag_eq_extract,
    BitVec.extractLsb'_append_eq_of_add_le, BitVec.extractLsb'_append_eq_of_le, Nat.reduceSub,
    BitVec.extractLsb'_eq_self, getLsbD_ofBool_zero]

theorem unpackAtomr_packAtomr (op : BitVec 9) (g : Guard) (f : FAtomr) :
    unpackAtomr (fullWord op g (packAtomr f)) = .ok f := by
  simp (disch := decide) only [unpackAtomr, packAtomr, fullWord, fld, flag_eq_extract,
    BitVec.extractLsb'_append_eq_of_add_le, BitVec.extractLsb'_append_eq_of_le, Nat.reduceSub,
    BitVec.extractLsb'_eq_self, getLsbD_ofBool_zero]

theorem unpackMma_packMma (op : BitVec 9) (g : Guard) (f : FMma) : unpackMma (fullWord op g (packMma f)) = .ok f := by
  simp (disch := decide) only [unpackMma, packMma, fullWord, withTy, toNat_mod_two_pow_eq_extract, fld, flag_eq_extract,
    BitVec.extractLsb'_append_eq_of_add_le, BitVec.extractLsb'_append_eq_of_le, Nat.reduceSub,
    BitVec.extractLsb'_eq_self, getLsbD_ofBool_zero, tyOf_tyCode]
  rfl

/-- SCOPE and ORD of a copy start are 0 (R353). -/
theorem copyWord_low (op : BitVec 9) (g : Guard) (f : FCopy) : (fullWord op g (packCopy f)).toNat % 32 = 0 := by
  have hlow : (fullWord op g (packCopy f)).extractLsb' 0 5 = 0#5 := by
    apply BitVec.eq_of_getLsbD_eq
    intro i hi
    simp only [fullWord, packCopy, BitVec.getLsbD_extractLsb', BitVec.getLsbD_append]
    interval_cases i <;> rfl
  rw [show (32 : Nat) = 2 ^ 5 from rfl, toNat_mod_two_pow_eq_extract, hlow]
  rfl

theorem unpackCopy_packCopy (op : BitVec 9) (g : Guard) (f : FCopy) :
    unpackCopy (fullWord op g (packCopy f)) (copyShape f) = .ok f := by
  simp only [unpackCopy, copyShape, copyWord_low]
  simp (disch := decide) only [packCopy, fullWord, fld, flag_eq_extract,
    BitVec.extractLsb'_append_eq_of_add_le, BitVec.extractLsb'_append_eq_of_le, Nat.reduceSub,
    BitVec.extractLsb'_eq_self, getLsbD_ofBool_zero]
  rfl

/-! ### Words -/

/-- The words of an instruction are read back: one word, or the five of a copy start. -/
def ReadsBack (i : Instr) : Prop :=
  ∀ ws, encode i = some ws → ∃ w sh, ws = w :: sh ∧ wordCount w = sh.length + 1 ∧ (sh = [] ∨ sh.length = 4) ∧
    (if flag w 63 then decodePair w else decodeFull w sh) = .ok i

theorem readsBack_of_word {i : Instr} {w : W64} {sh : List W64} (henc : encode i = some (w :: sh))
    (hcount : wordCount w = sh.length + 1) (hlen : sh = [] ∨ sh.length = 4)
    (hdec : (if flag w 63 then decodePair w else decodeFull w sh) = .ok i) : ReadsBack i := by
  intro ws hws
  rw [henc, Option.some.injEq] at hws
  exact ⟨w, sh, hws.symm, hcount, hlen, hdec⟩

theorem readsBack_of_none {i : Instr} (henc : encode i = none) : ReadsBack i := by
  intro ws hws
  rw [henc] at hws
  cases hws

/-- A full word is read back by its opcode's row of the map. -/
theorem readsBack_full {α : Type} {op : BitVec 9} {g : Guard} {f : α} {mk : Guard → α → Instr}
    {unpack : W64 → Except DecodeErr α} {body : BitVec 50} (henc : encode (mk g f) = some [fullWord op g body])
    (hop : (0x180 ≤ op.toNat && op.toNat ≤ 0x183) = false) (hunpack : unpack (fullWord op g body) = .ok f)
    (hrow : ∀ w sh, fld w 54 9 = op → decodeFull w sh = (unpack w).map (mk (guardOf w))) :
    ReadsBack (mk g f) := by
  refine readsBack_of_word henc ?_ (.inl rfl) ?_
  · rw [Laws.wordCount_full, hop]
    rfl
  · rw [Laws.fullWord_pair, if_neg (by decide), hrow _ _ (Laws.fullWord_op op g body), hunpack, guardOf_fullWord]
    rfl

theorem readsBack_copy {op : BitVec 9} {g : Guard} {f : FCopy} {mk : Guard → FCopy → Instr}
    (henc : encode (mk g f) = some (fullWord op g (packCopy f) :: copyShape f))
    (hop : (0x180 ≤ op.toNat && op.toNat ≤ 0x183) = true)
    (hrow : ∀ w sh, fld w 54 9 = op → decodeFull w sh = (unpackCopy w sh).map (mk (guardOf w))) :
    ReadsBack (mk g f) := by
  refine readsBack_of_word henc ?_ (.inr rfl) ?_
  · rw [Laws.wordCount_full, hop]
    rfl
  · rw [Laws.fullWord_pair, if_neg (by decide), hrow _ _ (Laws.fullWord_op op g _), unpackCopy_packCopy, guardOf_fullWord]
    rfl

theorem extract_pairWord_low (h0 h1 : Half) {l n : Nat} (h : l + n ≤ 31) :
    (pairWord h0 h1).extractLsb' l n = (packHalf h0).extractLsb' l n := by
  rw [pairWord, BitVec.extractLsb'_append_eq_of_add_le h]

theorem extract_pairWord_high (h0 h1 : Half) {l n : Nat} (h : l + n ≤ 31) :
    (pairWord h0 h1).extractLsb' (31 + l) n = (packHalf h1).extractLsb' l n := by
  rw [pairWord, BitVec.extractLsb'_append_eq_of_le (by omega), Nat.add_sub_cancel_left,
    BitVec.extractLsb'_append_eq_of_add_le h]

/-- A half is read back from the place where it stands in its word (R224). -/
theorem unpackHalf_of_extract {w : W64} {l : Nat} {h : Half}
    (hw : ∀ k n, k + n ≤ 31 → w.extractLsb' (l + k) n = (packHalf h).extractLsb' k n) : unpackHalf w l = .ok h := by
  have hu : flag w l = ((packHalf h).extractLsb' 0 1).getLsbD 0 := by
    rw [flag_eq_extract, ← hw 0 1 (by decide), Nat.add_zero]
  simp only [unpackHalf, fld, hu]
  simp (disch := decide) only [hw]
  simp (disch := decide) only [packHalf, BitVec.extractLsb'_append_eq_of_add_le,
    BitVec.extractLsb'_append_eq_of_le, Nat.reduceSub,
    BitVec.extractLsb'_eq_self, getLsbD_ofBool_zero, popOf_popCode]

theorem decodePair_pairWord (h0 h1 : Half) : decodePair (pairWord h0 h1) = .ok (pairInstr h0 h1) := by
  have hlow : unpackHalf (pairWord h0 h1) 0 = .ok h0 :=
    unpackHalf_of_extract (fun k n h => by rw [Nat.zero_add, extract_pairWord_low h0 h1 h])
  have hhigh : unpackHalf (pairWord h0 h1) 31 = .ok h1 := unpackHalf_of_extract (fun k n => extract_pairWord_high h0 h1)
  have hrsv : flag (pairWord h0 h1) 62 = false := by
    simp only [flag, pairWord, BitVec.getLsbD_append]
    rfl
  simp only [decodePair, hrsv, hlow, hhigh]
  rfl

theorem readsBack_pair {i : Instr} {h0 h1 : Half} (henc : encode i = some [pairWord h0 h1]) (hi : pairInstr h0 h1 = i) :
    ReadsBack i := by
  refine readsBack_of_word henc (Laws.wordCount_pair h0 h1) (.inl rfl) ?_
  rw [Laws.pairWord_pair, if_pos rfl, decodePair_pairWord, hi]

set_option maxRecDepth 20000 in
/-- The opcode map of R231 and the pair opcodes of R228, row by row. -/
theorem readsBack (i : Instr) : ReadsBack i := by
  cases i with
  | iadd g f | isub g f | imul g f | imulh g f | idiv g f | irem g f | imin g f | imax g f | iabs g f | ineg g f
  | iaddc g f | and_ g f | or_ g f | xor_ g f | not_ g f | andn g f | shl g f | shr g f | sar g f | rot g f
  | popc g f | clz g f | ctz g f | brev g f | icmp g f | mov g f | fadd g f | fsub g f | fmul g f | fmin g f
  | fmax g f | fminnum g f | fmaxnum g f | fabs g f | fneg g f | fcopysign g f | fcmp g f | fclass g f | fdiv g f
  | fsqrt g f | frcp g f | frsq g f | fexp2 g f | flog2 g f | fsin g f | fcos g f | ftanh g f | fscale g f
  | fgetexp g f | fround g f | ffrac g f | cvt g f | cvtf8 g f | bxpack g f | bxunpack g f | shfl g f | red g f
  | scan g f | match_ g f | elect g f | vote g f | rfal g f | rdlane g f | wrlane g f | permx g f | fempty g f
  | fefill g f | sadd g f | ssub g f | smul g f | smulh g f | sdiv g f | sand g f | sor g f | sxor g f | snot g f
  | sshl g f | sshr g f | ssar g f | smin g f | smax g f | scmp g f | smov g f | spopc g f | sclz g f | sfadd g f
  | sfmul g f | scvt g f | getfmt g f | plog g f | cpoll g f | stgwait g f | stgqry g f | calloc g f | cgate g f
  | cqry g f | mscale g f | evrd g f | evwait g f | syscall g f | rdcyc g f =>
    exact readsBack_full rfl (by decide) (unpackA_packA _ g f) (fun w sh h => by delta decodeFull; rw [h]; rfl)
  | imad g f | isad g f | funnel g f | bfe g f | bfi g f | sel g f | lea g f | dp4 g f | fma g f | fdot2 g f
  | ssel g f | sfma g f =>
    exact readsBack_full rfl (by decide) (unpackB_packB _ g f) (fun w sh h => by delta decodeFull; rw [h]; rfl)
  | movi g f | movhi g f | bar g f | barspec g f | smovi g f | smovhi g f | setfmt g f | getsr g f | cwait g f
  | stginit g f | stgfill g f | stgfree g f | mclaim g f | mrel g f | mzero g f | mwait g f | aarm g f | adisarm g f
  | trap g f | brkpt g f =>
    exact readsBack_full rfl (by decide) (unpackI_packI _ g f) (fun w sh h => by delta decodeFull; rw [h]; rfl)
  | ld g f | st g f | ldl g f | stl g f | ldu g f | stu g f | ldx g f | stx g f | pref g f | invl1 g f | waitk g f
  | fence g f | fencex g f | ost g f | ald g f | dcas g f | amov g f | datom g f | mbara g f | mbarw g f | cpost g f
  | mdrain g f | emit g f | aload g f | asave g f | vdsub g f | bqput g f | bqget g f =>
    exact readsBack_full rfl (by decide) (unpackM_packM _ g f) (fun w sh h => by delta decodeFull; rw [h]; rfl)
  | atom g f | cas g f =>
    exact readsBack_full rfl (by decide) (unpackAtom_packAtom _ g f) (fun w sh h => by delta decodeFull; rw [h]; rfl)
  | atomr g f =>
    exact readsBack_full rfl (by decide) (unpackAtomr_packAtomr _ g f) (fun w sh h => by delta decodeFull; rw [h]; rfl)
  | bra g f | brc g f | brv g f | brx g f | call g f | ret g f | join g f | exit g f | nop g f | yield g f
  | region g f =>
    exact readsBack_full rfl (by decide) (unpackJ_packJ _ g f) (fun w sh h => by delta decodeFull; rw [h]; rfl)
  | tcopy g f | tgather g f | tscatter g f | tfill g f =>
    exact readsBack_copy rfl (by decide) (fun w sh h => by delta decodeFull; rw [h]; rfl)
  | mma g f =>
    exact readsBack_full rfl (by decide) (unpackMma_packMma _ g f) (fun w sh h => by delta decodeFull; rw [h]; rfl)
  | pairNop a h | pairMov a h | pairIadd a h | pairIsub a h | pairImul a h | pairImin a h | pairImax a h
  | pairAnd a h | pairOr a h | pairXor a h | pairAndn a h | pairShl a h | pairShr a h | pairSar a h | pairNot a h
  | pairIneg a h | pairFadd a h | pairFsub a h | pairFmul a h | pairFmin a h | pairFmax a h | pairFminnum a h
  | pairFmaxnum a h | pairFabs a h | pairFneg a h | pairFcopysign a h =>
    exact readsBack_pair rfl rfl
  | ringDoorbell _ _ _ | ringEnable _ _ | partitionRegisterWrite _ _ | registerWrite _ _ _ | postEvent _ | create _
  | preempt _ | resume _ | teardown _ | regionUpdate _ | regionReset _ | domainConfig _ | streamBind _
  | streamClose _ | sliceExpiry _ | saveComplete _ | resumeComplete _ | invalidationComplete _
  | lazyWriteOutComplete _ _ | firmwareActivation | pageInval _ _ | pageResolve _ _ | pageFail _ _ | trapcfg _ _
  | tracecfg _ _ | resolveRetry _ _ | resolveSkip _ _ | resolveGoto _ _ | resolveRestart _ _ | resolveKill _ _
  | halt _ _ | release _ _ | step _ _ | readreg _ _ | writereg _ _ | getVersion _ _ | getCapabilities _ _
  | negotiateAlgorithms _ _ | getDigests _ _ | getCertificate _ _ | challenge _ _ | getMeasurements _ _
  | syscallReply _ _ _ | power _ _ | unlock _ _ | lock _ _ | debuglvl _ _ | fwstage _ _ | fwact _ _ | port _ _
  | bqcfg _ _ | pwrcap _ _ | idsig _ _ | eventIntake _ _ | closeMarkerIntake _ _ | diecycleAdvance _ | eventRelease _
  | candidateDeadline _ | entryStallResume _ | pendStallResume _ | groupOffer _ _ | pendingLaunchRetry _ _
  | launchComplete _ _ | datomEntryArrival _ | datomApply _ _ | groupPlace _ | stealRequest _ | stealAnswer _
  | detDispatch _ _ | compactorMove _ | groupSlotFree _ _ | hang _ _ _ | probeSend _ _ _ | probeArrival _
  | barrierArrival _ _ _ | trapTaken _ _ _ | homeAccess _ | loadReturn _ | mbarwPoll _ _ _ _ | pageWalkComplete _ _
  | pullAttemptComplete _ _ _ | pullRetry _ | hostWrite _ _ | copyRetire _ _ | copyReplay _ _ | arrayStart _
  | arrayRetire _ | drainStart _ | drainRetire _ _ | mrelTakesEffect _ _ | chunkArrival _ _ | combineDeadline _ _
  | slotRelease _ _ | submissionStart _ _ | framePut _ _ | submissionEnd _ _ | flitReceive _ _ | portTrained _
  | trainingTimeout _ | lossOfSignal _ | ucieModuleDown _ | ucieModuleActive _ | detectedError _ _ _ _ | pmD3hot
  | pmD0 | powerRemoved | powerOn _ _ _ | clockThrottle | leaseRenew _ | leaseLapse _
  | vfEnable _ _ | routeTableLoad _ =>
    exact readsBack_of_none rfl

/-! ### Bytes -/

theorem ofBytesLE_bytesLE (n x : Nat) : ofBytesLE (bytesLE n x) = x % 256 ^ n := by
  induction n generalizing x with
  | zero => simp [bytesLE, ofBytesLE, Nat.mod_one]
  | succ n ih =>
    have hdiv : x >>> 8 = x / 256 := Nat.shiftRight_eq_div_pow x 8
    rw [bytesLE, ofBytesLE, ih, BitVec.toNat_ofNat, hdiv]
    calc x % 2 ^ 8 + 256 * (x / 256 % 256 ^ n) = x % (256 * 256 ^ n) := Nat.mod_mul.symm
      _ = x % 256 ^ (n + 1) := by rw [pow_succ']

/-- The first word of a list of words is taken back from their bytes (R206). -/
theorem takeWord_bytesLE (w : W64) (bs : List Byte) : takeWord (bytesLE 8 w.toNat ++ bs) = .ok (w, bs) := by
  have hword : wordOfBytes (bytesLE 8 w.toNat) = w := by
    rw [wordOfBytes, ofBytesLE_bytesLE, Nat.mod_eq_of_lt (show w.toNat < 256 ^ 8 from w.isLt), BitVec.ofNat_toNat,
      BitVec.setWidth_eq]
  calc takeWord (bytesLE 8 w.toNat ++ bs) = .ok (wordOfBytes (bytesLE 8 w.toNat), bs) := rfl
    _ = .ok (w, bs) := by rw [hword]

theorem decodeWords_of_readsBack {i : Instr} {w : W64} {sh : List W64} (hwf : WellFormed i)
    (hdec : (if flag w 63 then decodePair w else decodeFull w sh) = .ok i) : decodeWords w sh = .ok i := by
  simp only [decodeWords, hdec, if_pos hwf]

/-- Settles O1: the words of `encode` are read back, by the layouts and the rows of the opcode map, and their bytes in order. -/
theorem encodeThenDecode : Obligations.EncodeThenDecode := by
  unfold Obligations.EncodeThenDecode
  intro i bs rest hwf hbs
  obtain ⟨ws, henc, rfl⟩ := Option.map_eq_some_iff.1 hbs
  obtain ⟨w, sh, rfl, hcount, hlen, hdec⟩ := readsBack i ws henc
  have hwords : decodeWords w sh = .ok i := decodeWords_of_readsBack hwf hdec
  rcases hlen with rfl | hlen
  · simp only [decode, List.flatMap_cons, List.flatMap_nil, List.append_assoc, takeWord_bytesLE, hcount, hwords,
      List.nil_append, bind, Except.bind]
    rfl
  · obtain ⟨a, b, c, d, rfl⟩ := List.length_eq_four.1 hlen
    simp only [decode, List.flatMap_cons, List.flatMap_nil, List.append_assoc, takeWord_bytesLE, hcount, hwords,
      List.nil_append, bind, Except.bind]
    rfl

end Sys2Proof.Proofs
end

