-- ==== Sys2Proof/Proofs/ExecArms.lean ====
section
/-!
What `exec` makes of each instruction word and of each step: its own meaning.
-/
namespace Sys2Proof.Proofs
open Sys2Proof.Machine

theorem exec_iadd (g : Guard) (f : FA) (s : State) : exec (.iadd g f) s = execIadd g f s := by rfl
theorem exec_isub (g : Guard) (f : FA) (s : State) : exec (.isub g f) s = execIsub g f s := by rfl
theorem exec_imul (g : Guard) (f : FA) (s : State) : exec (.imul g f) s = execImul g f s := by rfl
theorem exec_imulh (g : Guard) (f : FA) (s : State) : exec (.imulh g f) s = execImulh g f s := by rfl
theorem exec_imad (g : Guard) (f : FB) (s : State) : exec (.imad g f) s = execImad g f s := by rfl
theorem exec_imin (g : Guard) (f : FA) (s : State) : exec (.imin g f) s = execImin g f s := by rfl
theorem exec_imax (g : Guard) (f : FA) (s : State) : exec (.imax g f) s = execImax g f s := by rfl
theorem exec_iabs (g : Guard) (f : FA) (s : State) : exec (.iabs g f) s = execIabs g f s := by rfl
theorem exec_ineg (g : Guard) (f : FA) (s : State) : exec (.ineg g f) s = execIneg g f s := by rfl
theorem exec_isad (g : Guard) (f : FB) (s : State) : exec (.isad g f) s = execIsad g f s := by rfl
theorem exec_and_ (g : Guard) (f : FA) (s : State) : exec (.and_ g f) s = execAnd g f s := by rfl
theorem exec_or_ (g : Guard) (f : FA) (s : State) : exec (.or_ g f) s = execOr g f s := by rfl
theorem exec_xor_ (g : Guard) (f : FA) (s : State) : exec (.xor_ g f) s = execXor g f s := by rfl
theorem exec_not_ (g : Guard) (f : FA) (s : State) : exec (.not_ g f) s = execNot g f s := by rfl
theorem exec_andn (g : Guard) (f : FA) (s : State) : exec (.andn g f) s = execAndn g f s := by rfl
theorem exec_shl (g : Guard) (f : FA) (s : State) : exec (.shl g f) s = execShl g f s := by rfl
theorem exec_shr (g : Guard) (f : FA) (s : State) : exec (.shr g f) s = execShr g f s := by rfl
theorem exec_sar (g : Guard) (f : FA) (s : State) : exec (.sar g f) s = execSar g f s := by rfl
theorem exec_rot (g : Guard) (f : FA) (s : State) : exec (.rot g f) s = execRot g f s := by rfl
theorem exec_funnel (g : Guard) (f : FB) (s : State) : exec (.funnel g f) s = execFunnel g f s := by rfl
theorem exec_popc (g : Guard) (f : FA) (s : State) : exec (.popc g f) s = execPopc g f s := by rfl
theorem exec_clz (g : Guard) (f : FA) (s : State) : exec (.clz g f) s = execClz g f s := by rfl
theorem exec_ctz (g : Guard) (f : FA) (s : State) : exec (.ctz g f) s = execCtz g f s := by rfl
theorem exec_brev (g : Guard) (f : FA) (s : State) : exec (.brev g f) s = execBrev g f s := by rfl
theorem exec_sel (g : Guard) (f : FB) (s : State) : exec (.sel g f) s = execSel g f s := by rfl
theorem exec_icmp (g : Guard) (f : FA) (s : State) : exec (.icmp g f) s = execIcmp g f s := by rfl
theorem exec_mov (g : Guard) (f : FA) (s : State) : exec (.mov g f) s = execMov g f s := by rfl
theorem exec_movi (g : Guard) (f : FI) (s : State) : exec (.movi g f) s = execMovi g f s := by rfl
theorem exec_movhi (g : Guard) (f : FI) (s : State) : exec (.movhi g f) s = execMovhi g f s := by rfl
theorem exec_dp4 (g : Guard) (f : FB) (s : State) : exec (.dp4 g f) s = execDp4 g f s := by rfl
theorem exec_fadd (g : Guard) (f : FA) (s : State) : exec (.fadd g f) s = execFadd g f s := by rfl
theorem exec_fsub (g : Guard) (f : FA) (s : State) : exec (.fsub g f) s = execFsub g f s := by rfl
theorem exec_fmul (g : Guard) (f : FA) (s : State) : exec (.fmul g f) s = execFmul g f s := by rfl
theorem exec_fma (g : Guard) (f : FB) (s : State) : exec (.fma g f) s = execFma g f s := by rfl
theorem exec_fmin (g : Guard) (f : FA) (s : State) : exec (.fmin g f) s = execFmin g f s := by rfl
theorem exec_fmax (g : Guard) (f : FA) (s : State) : exec (.fmax g f) s = execFmax g f s := by rfl
theorem exec_fminnum (g : Guard) (f : FA) (s : State) : exec (.fminnum g f) s = execFminnum g f s := by rfl
theorem exec_fmaxnum (g : Guard) (f : FA) (s : State) : exec (.fmaxnum g f) s = execFmaxnum g f s := by rfl
theorem exec_fabs (g : Guard) (f : FA) (s : State) : exec (.fabs g f) s = execFabs g f s := by rfl
theorem exec_fneg (g : Guard) (f : FA) (s : State) : exec (.fneg g f) s = execFneg g f s := by rfl
theorem exec_fcopysign (g : Guard) (f : FA) (s : State) : exec (.fcopysign g f) s = execFcopysign g f s := by rfl
theorem exec_fcmp (g : Guard) (f : FA) (s : State) : exec (.fcmp g f) s = execFcmp g f s := by rfl
theorem exec_fclass (g : Guard) (f : FA) (s : State) : exec (.fclass g f) s = execFclass g f s := by rfl
theorem exec_fdiv (g : Guard) (f : FA) (s : State) : exec (.fdiv g f) s = execFdiv g f s := by rfl
theorem exec_fsqrt (g : Guard) (f : FA) (s : State) : exec (.fsqrt g f) s = execFsqrt g f s := by rfl
theorem exec_frcp (g : Guard) (f : FA) (s : State) : exec (.frcp g f) s = execFrcp g f s := by rfl
theorem exec_frsq (g : Guard) (f : FA) (s : State) : exec (.frsq g f) s = execFrsq g f s := by rfl
theorem exec_fexp2 (g : Guard) (f : FA) (s : State) : exec (.fexp2 g f) s = execFexp2 g f s := by rfl
theorem exec_flog2 (g : Guard) (f : FA) (s : State) : exec (.flog2 g f) s = execFlog2 g f s := by rfl
theorem exec_fsin (g : Guard) (f : FA) (s : State) : exec (.fsin g f) s = execFsin g f s := by rfl
theorem exec_fcos (g : Guard) (f : FA) (s : State) : exec (.fcos g f) s = execFcos g f s := by rfl
theorem exec_ftanh (g : Guard) (f : FA) (s : State) : exec (.ftanh g f) s = execFtanh g f s := by rfl
theorem exec_fscale (g : Guard) (f : FA) (s : State) : exec (.fscale g f) s = execFscale g f s := by rfl
theorem exec_fgetexp (g : Guard) (f : FA) (s : State) : exec (.fgetexp g f) s = execFgetexp g f s := by rfl
theorem exec_fround (g : Guard) (f : FA) (s : State) : exec (.fround g f) s = execFround g f s := by rfl
theorem exec_ffrac (g : Guard) (f : FA) (s : State) : exec (.ffrac g f) s = execFfrac g f s := by rfl
theorem exec_fdot2 (g : Guard) (f : FB) (s : State) : exec (.fdot2 g f) s = execFdot2 g f s := by rfl
theorem exec_cvt (g : Guard) (f : FA) (s : State) : exec (.cvt g f) s = execCvt g f s := by rfl
theorem exec_cvtf8 (g : Guard) (f : FA) (s : State) : exec (.cvtf8 g f) s = execCvtf8 g f s := by rfl
theorem exec_bxpack (g : Guard) (f : FA) (s : State) : exec (.bxpack g f) s = execBxpack g f s := by rfl
theorem exec_bxunpack (g : Guard) (f : FA) (s : State) : exec (.bxunpack g f) s = execBxunpack g f s := by rfl
theorem exec_shfl (g : Guard) (f : FA) (s : State) : exec (.shfl g f) s = execShfl g f s := by rfl
theorem exec_red (g : Guard) (f : FA) (s : State) : exec (.red g f) s = execRed g f s := by rfl
theorem exec_scan (g : Guard) (f : FA) (s : State) : exec (.scan g f) s = execScan g f s := by rfl
theorem exec_match_ (g : Guard) (f : FA) (s : State) : exec (.match_ g f) s = execMatch g f s := by rfl
theorem exec_elect (g : Guard) (f : FA) (s : State) : exec (.elect g f) s = execElect g f s := by rfl
theorem exec_vote (g : Guard) (f : FA) (s : State) : exec (.vote g f) s = execVote g f s := by rfl
theorem exec_rfal (g : Guard) (f : FA) (s : State) : exec (.rfal g f) s = execRfal g f s := by rfl
theorem exec_rdlane (g : Guard) (f : FA) (s : State) : exec (.rdlane g f) s = execRdlane g f s := by rfl
theorem exec_wrlane (g : Guard) (f : FA) (s : State) : exec (.wrlane g f) s = execWrlane g f s := by rfl
theorem exec_permx (g : Guard) (f : FA) (s : State) : exec (.permx g f) s = execPermx g f s := by rfl
theorem exec_ld (g : Guard) (f : FM) (s : State) : exec (.ld g f) s = execLd g f s := by rfl
theorem exec_st (g : Guard) (f : FM) (s : State) : exec (.st g f) s = execSt g f s := by rfl
theorem exec_ldl (g : Guard) (f : FM) (s : State) : exec (.ldl g f) s = execLdl g f s := by rfl
theorem exec_stl (g : Guard) (f : FM) (s : State) : exec (.stl g f) s = execStl g f s := by rfl
theorem exec_ldu (g : Guard) (f : FM) (s : State) : exec (.ldu g f) s = execLdu g f s := by rfl
theorem exec_stu (g : Guard) (f : FM) (s : State) : exec (.stu g f) s = execStu g f s := by rfl
theorem exec_ldx (g : Guard) (f : FM) (s : State) : exec (.ldx g f) s = execLdx g f s := by rfl
theorem exec_stx (g : Guard) (f : FM) (s : State) : exec (.stx g f) s = execStx g f s := by rfl
theorem exec_pref (g : Guard) (f : FM) (s : State) : exec (.pref g f) s = execPref g f s := by rfl
theorem exec_invl1 (g : Guard) (f : FM) (s : State) : exec (.invl1 g f) s = execInvl1 g f s := by rfl
theorem exec_waitk (g : Guard) (f : FM) (s : State) : exec (.waitk g f) s = execWaitk g f s := by rfl
theorem exec_fence (g : Guard) (f : FM) (s : State) : exec (.fence g f) s = execFence g f s := by rfl
theorem exec_fencex (g : Guard) (f : FM) (s : State) : exec (.fencex g f) s = execFencex g f s := by rfl
theorem exec_ost (g : Guard) (f : FM) (s : State) : exec (.ost g f) s = execOst g f s := by rfl
theorem exec_ald (g : Guard) (f : FM) (s : State) : exec (.ald g f) s = execAld g f s := by rfl
theorem exec_atom (g : Guard) (f : FAtom) (s : State) : exec (.atom g f) s = execAtom g f s := by rfl
theorem exec_atomr (g : Guard) (f : FAtomr) (s : State) : exec (.atomr g f) s = execAtomr g f s := by rfl
theorem exec_cas (g : Guard) (f : FAtom) (s : State) : exec (.cas g f) s = execCas g f s := by rfl
theorem exec_dcas (g : Guard) (f : FM) (s : State) : exec (.dcas g f) s = execDcas g f s := by rfl
theorem exec_amov (g : Guard) (f : FM) (s : State) : exec (.amov g f) s = execAmov g f s := by rfl
theorem exec_datom (g : Guard) (f : FM) (s : State) : exec (.datom g f) s = execDatom g f s := by rfl
theorem exec_bar (g : Guard) (f : FI) (s : State) : exec (.bar g f) s = execBar g f s := by rfl
theorem exec_barspec (g : Guard) (f : FI) (s : State) : exec (.barspec g f) s = execBarspec g f s := by rfl
theorem exec_mbara (g : Guard) (f : FM) (s : State) : exec (.mbara g f) s = execMbara g f s := by rfl
theorem exec_mbarw (g : Guard) (f : FM) (s : State) : exec (.mbarw g f) s = execMbarw g f s := by rfl
theorem exec_fempty (g : Guard) (f : FA) (s : State) : exec (.fempty g f) s = execFempty g f s := by rfl
theorem exec_fefill (g : Guard) (f : FA) (s : State) : exec (.fefill g f) s = execFefill g f s := by rfl
theorem exec_sadd (g : Guard) (f : FA) (s : State) : exec (.sadd g f) s = execSadd g f s := by rfl
theorem exec_ssub (g : Guard) (f : FA) (s : State) : exec (.ssub g f) s = execSsub g f s := by rfl
theorem exec_smul (g : Guard) (f : FA) (s : State) : exec (.smul g f) s = execSmul g f s := by rfl
theorem exec_smulh (g : Guard) (f : FA) (s : State) : exec (.smulh g f) s = execSmulh g f s := by rfl
theorem exec_sand (g : Guard) (f : FA) (s : State) : exec (.sand g f) s = execSand g f s := by rfl
theorem exec_sor (g : Guard) (f : FA) (s : State) : exec (.sor g f) s = execSor g f s := by rfl
theorem exec_sxor (g : Guard) (f : FA) (s : State) : exec (.sxor g f) s = execSxor g f s := by rfl
theorem exec_snot (g : Guard) (f : FA) (s : State) : exec (.snot g f) s = execSnot g f s := by rfl
theorem exec_sshl (g : Guard) (f : FA) (s : State) : exec (.sshl g f) s = execSshl g f s := by rfl
theorem exec_sshr (g : Guard) (f : FA) (s : State) : exec (.sshr g f) s = execSshr g f s := by rfl
theorem exec_ssar (g : Guard) (f : FA) (s : State) : exec (.ssar g f) s = execSsar g f s := by rfl
theorem exec_smin (g : Guard) (f : FA) (s : State) : exec (.smin g f) s = execSmin g f s := by rfl
theorem exec_smax (g : Guard) (f : FA) (s : State) : exec (.smax g f) s = execSmax g f s := by rfl
theorem exec_ssel (g : Guard) (f : FB) (s : State) : exec (.ssel g f) s = execSsel g f s := by rfl
theorem exec_scmp (g : Guard) (f : FA) (s : State) : exec (.scmp g f) s = execScmp g f s := by rfl
theorem exec_smov (g : Guard) (f : FA) (s : State) : exec (.smov g f) s = execSmov g f s := by rfl
theorem exec_smovi (g : Guard) (f : FI) (s : State) : exec (.smovi g f) s = execSmovi g f s := by rfl
theorem exec_smovhi (g : Guard) (f : FI) (s : State) : exec (.smovhi g f) s = execSmovhi g f s := by rfl
theorem exec_spopc (g : Guard) (f : FA) (s : State) : exec (.spopc g f) s = execSpopc g f s := by rfl
theorem exec_sclz (g : Guard) (f : FA) (s : State) : exec (.sclz g f) s = execSclz g f s := by rfl
theorem exec_sfadd (g : Guard) (f : FA) (s : State) : exec (.sfadd g f) s = execSfadd g f s := by rfl
theorem exec_sfmul (g : Guard) (f : FA) (s : State) : exec (.sfmul g f) s = execSfmul g f s := by rfl
theorem exec_sfma (g : Guard) (f : FB) (s : State) : exec (.sfma g f) s = execSfma g f s := by rfl
theorem exec_scvt (g : Guard) (f : FA) (s : State) : exec (.scvt g f) s = execScvt g f s := by rfl
theorem exec_bra (g : Guard) (f : FJ) (s : State) : exec (.bra g f) s = execBra g f s := by rfl
theorem exec_brc (g : Guard) (f : FJ) (s : State) : exec (.brc g f) s = execBrc g f s := by rfl
theorem exec_brv (g : Guard) (f : FJ) (s : State) : exec (.brv g f) s = execBrv g f s := by rfl
theorem exec_brx (g : Guard) (f : FJ) (s : State) : exec (.brx g f) s = execBrx g f s := by rfl
theorem exec_call (g : Guard) (f : FJ) (s : State) : exec (.call g f) s = execCall g f s := by rfl
theorem exec_ret (g : Guard) (f : FJ) (s : State) : exec (.ret g f) s = execRet g f s := by rfl
theorem exec_join (g : Guard) (f : FJ) (s : State) : exec (.join g f) s = execJoin g f s := by rfl
theorem exec_exit (g : Guard) (f : FJ) (s : State) : exec (.exit g f) s = execExit g f s := by rfl
theorem exec_nop (g : Guard) (f : FJ) (s : State) : exec (.nop g f) s = execNop g f s := by rfl
theorem exec_yield (g : Guard) (f : FJ) (s : State) : exec (.yield g f) s = execYield g f s := by rfl
theorem exec_region (g : Guard) (f : FJ) (s : State) : exec (.region g f) s = execRegion g f s := by rfl
theorem exec_setfmt (g : Guard) (f : FI) (s : State) : exec (.setfmt g f) s = execSetfmt g f s := by rfl
theorem exec_getfmt (g : Guard) (f : FA) (s : State) : exec (.getfmt g f) s = execGetfmt g f s := by rfl
theorem exec_getsr (g : Guard) (f : FI) (s : State) : exec (.getsr g f) s = execGetsr g f s := by rfl
theorem exec_plog (g : Guard) (f : FA) (s : State) : exec (.plog g f) s = execPlog g f s := by rfl
theorem exec_tcopy (g : Guard) (f : FCopy) (s : State) : exec (.tcopy g f) s = execTcopy g f s := by rfl
theorem exec_tgather (g : Guard) (f : FCopy) (s : State) : exec (.tgather g f) s = execTgather g f s := by rfl
theorem exec_tscatter (g : Guard) (f : FCopy) (s : State) : exec (.tscatter g f) s = execTscatter g f s := by rfl
theorem exec_tfill (g : Guard) (f : FCopy) (s : State) : exec (.tfill g f) s = execTfill g f s := by rfl
theorem exec_cwait (g : Guard) (f : FI) (s : State) : exec (.cwait g f) s = execCwait g f s := by rfl
theorem exec_cpoll (g : Guard) (f : FA) (s : State) : exec (.cpoll g f) s = execCpoll g f s := by rfl
theorem exec_stginit (g : Guard) (f : FI) (s : State) : exec (.stginit g f) s = execStginit g f s := by rfl
theorem exec_stgfill (g : Guard) (f : FI) (s : State) : exec (.stgfill g f) s = execStgfill g f s := by rfl
theorem exec_stgwait (g : Guard) (f : FA) (s : State) : exec (.stgwait g f) s = execStgwait g f s := by rfl
theorem exec_stgfree (g : Guard) (f : FI) (s : State) : exec (.stgfree g f) s = execStgfree g f s := by rfl
theorem exec_stgqry (g : Guard) (f : FA) (s : State) : exec (.stgqry g f) s = execStgqry g f s := by rfl
theorem exec_calloc (g : Guard) (f : FA) (s : State) : exec (.calloc g f) s = execCalloc g f s := by rfl
theorem exec_cgate (g : Guard) (f : FA) (s : State) : exec (.cgate g f) s = execCgate g f s := by rfl
theorem exec_cpost (g : Guard) (f : FM) (s : State) : exec (.cpost g f) s = execCpost g f s := by rfl
theorem exec_cqry (g : Guard) (f : FA) (s : State) : exec (.cqry g f) s = execCqry g f s := by rfl
theorem exec_mclaim (g : Guard) (f : FI) (s : State) : exec (.mclaim g f) s = execMclaim g f s := by rfl
theorem exec_mrel (g : Guard) (f : FI) (s : State) : exec (.mrel g f) s = execMrel g f s := by rfl
theorem exec_mma (g : Guard) (f : FMma) (s : State) : exec (.mma g f) s = execMma g f s := by rfl
theorem exec_mzero (g : Guard) (f : FI) (s : State) : exec (.mzero g f) s = execMzero g f s := by rfl
theorem exec_mdrain (g : Guard) (f : FM) (s : State) : exec (.mdrain g f) s = execMdrain g f s := by rfl
theorem exec_mwait (g : Guard) (f : FI) (s : State) : exec (.mwait g f) s = execMwait g f s := by rfl
theorem exec_mscale (g : Guard) (f : FA) (s : State) : exec (.mscale g f) s = execMscale g f s := by rfl
theorem exec_emit (g : Guard) (f : FM) (s : State) : exec (.emit g f) s = execEmit g f s := by rfl
theorem exec_evrd (g : Guard) (f : FA) (s : State) : exec (.evrd g f) s = execEvrd g f s := by rfl
theorem exec_evwait (g : Guard) (f : FA) (s : State) : exec (.evwait g f) s = execEvwait g f s := by rfl
theorem exec_aload (g : Guard) (f : FM) (s : State) : exec (.aload g f) s = execAload g f s := by rfl
theorem exec_aarm (g : Guard) (f : FI) (s : State) : exec (.aarm g f) s = execAarm g f s := by rfl
theorem exec_adisarm (g : Guard) (f : FI) (s : State) : exec (.adisarm g f) s = execAdisarm g f s := by rfl
theorem exec_asave (g : Guard) (f : FM) (s : State) : exec (.asave g f) s = execAsave g f s := by rfl
theorem exec_syscall (g : Guard) (f : FA) (s : State) : exec (.syscall g f) s = execSyscall g f s := by rfl
theorem exec_trap (g : Guard) (f : FI) (s : State) : exec (.trap g f) s = execTrap g f s := by rfl
theorem exec_brkpt (g : Guard) (f : FI) (s : State) : exec (.brkpt g f) s = execBrkpt g f s := by rfl
theorem exec_rdcyc (g : Guard) (f : FA) (s : State) : exec (.rdcyc g f) s = execRdcyc g f s := by rfl
theorem exec_vdsub (g : Guard) (f : FM) (s : State) : exec (.vdsub g f) s = execVdsub g f s := by rfl
theorem exec_bqput (g : Guard) (f : FM) (s : State) : exec (.bqput g f) s = execBqput g f s := by rfl
theorem exec_bqget (g : Guard) (f : FM) (s : State) : exec (.bqget g f) s = execBqget g f s := by rfl
theorem exec_pairNop (a : HalfArgs) (h : Half) (s : State) : exec (.pairNop a h) s = execPairNop a h s := by rfl
theorem exec_pairMov (a : HalfArgs) (h : Half) (s : State) : exec (.pairMov a h) s = execPairMov a h s := by rfl
theorem exec_pairIadd (a : HalfArgs) (h : Half) (s : State) : exec (.pairIadd a h) s = execPairIadd a h s := by rfl
theorem exec_pairIsub (a : HalfArgs) (h : Half) (s : State) : exec (.pairIsub a h) s = execPairIsub a h s := by rfl
theorem exec_pairImul (a : HalfArgs) (h : Half) (s : State) : exec (.pairImul a h) s = execPairImul a h s := by rfl
theorem exec_pairImin (a : HalfArgs) (h : Half) (s : State) : exec (.pairImin a h) s = execPairImin a h s := by rfl
theorem exec_pairImax (a : HalfArgs) (h : Half) (s : State) : exec (.pairImax a h) s = execPairImax a h s := by rfl
theorem exec_pairAnd (a : HalfArgs) (h : Half) (s : State) : exec (.pairAnd a h) s = execPairAnd a h s := by rfl
theorem exec_pairOr (a : HalfArgs) (h : Half) (s : State) : exec (.pairOr a h) s = execPairOr a h s := by rfl
theorem exec_pairXor (a : HalfArgs) (h : Half) (s : State) : exec (.pairXor a h) s = execPairXor a h s := by rfl
theorem exec_pairAndn (a : HalfArgs) (h : Half) (s : State) : exec (.pairAndn a h) s = execPairAndn a h s := by rfl
theorem exec_pairShl (a : HalfArgs) (h : Half) (s : State) : exec (.pairShl a h) s = execPairShl a h s := by rfl
theorem exec_pairShr (a : HalfArgs) (h : Half) (s : State) : exec (.pairShr a h) s = execPairShr a h s := by rfl
theorem exec_pairSar (a : HalfArgs) (h : Half) (s : State) : exec (.pairSar a h) s = execPairSar a h s := by rfl
theorem exec_pairNot (a : HalfArgs) (h : Half) (s : State) : exec (.pairNot a h) s = execPairNot a h s := by rfl
theorem exec_pairIneg (a : HalfArgs) (h : Half) (s : State) : exec (.pairIneg a h) s = execPairIneg a h s := by rfl
theorem exec_pairFadd (a : HalfArgs) (h : Half) (s : State) : exec (.pairFadd a h) s = execPairFadd a h s := by rfl
theorem exec_pairFsub (a : HalfArgs) (h : Half) (s : State) : exec (.pairFsub a h) s = execPairFsub a h s := by rfl
theorem exec_pairFmul (a : HalfArgs) (h : Half) (s : State) : exec (.pairFmul a h) s = execPairFmul a h s := by rfl
theorem exec_pairFmin (a : HalfArgs) (h : Half) (s : State) : exec (.pairFmin a h) s = execPairFmin a h s := by rfl
theorem exec_pairFmax (a : HalfArgs) (h : Half) (s : State) : exec (.pairFmax a h) s = execPairFmax a h s := by rfl
theorem exec_pairFminnum (a : HalfArgs) (h : Half) (s : State) :
    exec (.pairFminnum a h) s = execPairFminnum a h s := by rfl
theorem exec_pairFmaxnum (a : HalfArgs) (h : Half) (s : State) :
    exec (.pairFmaxnum a h) s = execPairFmaxnum a h s := by rfl
theorem exec_pairFabs (a : HalfArgs) (h : Half) (s : State) : exec (.pairFabs a h) s = execPairFabs a h s := by rfl
theorem exec_pairFneg (a : HalfArgs) (h : Half) (s : State) : exec (.pairFneg a h) s = execPairFneg a h s := by rfl
theorem exec_pairFcopysign (a : HalfArgs) (h : Half) (s : State) :
    exec (.pairFcopysign a h) s = execPairFcopysign a h s := by rfl
theorem exec_ringDoorbell (fn : Nat) (ring : Nat) (tail : BitVec 16) (s : State) :
    exec (.ringDoorbell fn ring tail) s = execRingDoorbell fn ring tail s := by rfl
theorem exec_ringEnable (fn : Nat) (ring : Nat) (s : State) :
    exec (.ringEnable fn ring) s = execRingEnable fn ring s := by rfl
theorem exec_partitionRegisterWrite (p : Nat) (v : BitVec 128) (s : State) :
    exec (.partitionRegisterWrite p v) s = execPartitionRegisterWrite p v s := by rfl
theorem exec_registerWrite (fn : Nat) (ring : Nat) (v : BitVec 128) (s : State) :
    exec (.registerWrite fn ring v) s = execRegisterWrite fn ring v s := by rfl
theorem exec_postEvent (k : Pkt) (s : State) : exec (.postEvent k) s = execPostEvent k s := by rfl
theorem exec_create (k : Pkt) (s : State) : exec (.create k) s = execCreate k s := by rfl
theorem exec_preempt (k : Pkt) (s : State) : exec (.preempt k) s = execPreempt k s := by rfl
theorem exec_resume (k : Pkt) (s : State) : exec (.resume k) s = execResume k s := by rfl
theorem exec_teardown (k : Pkt) (s : State) : exec (.teardown k) s = execTeardown k s := by rfl
theorem exec_regionUpdate (k : Pkt) (s : State) : exec (.regionUpdate k) s = execRegionUpdate k s := by rfl
theorem exec_regionReset (k : Pkt) (s : State) : exec (.regionReset k) s = execRegionReset k s := by rfl
theorem exec_domainConfig (k : Pkt) (s : State) : exec (.domainConfig k) s = execDomainConfig k s := by rfl
theorem exec_streamBind (k : Pkt) (s : State) : exec (.streamBind k) s = execStreamBind k s := by rfl
theorem exec_streamClose (k : Pkt) (s : State) : exec (.streamClose k) s = execStreamClose k s := by rfl
theorem exec_sliceExpiry (ctx : Nat) (s : State) : exec (.sliceExpiry ctx) s = execSliceExpiry ctx s := by rfl
theorem exec_saveComplete (ctx : Nat) (s : State) : exec (.saveComplete ctx) s = execSaveComplete ctx s := by rfl
theorem exec_resumeComplete (ctx : Nat) (s : State) : exec (.resumeComplete ctx) s = execResumeComplete ctx s := by rfl
theorem exec_invalidationComplete (ctx : Nat) (s : State) :
    exec (.invalidationComplete ctx) s = execInvalidationComplete ctx s := by rfl
theorem exec_lazyWriteOutComplete (core ctx : Nat) (s : State) :
    exec (.lazyWriteOutComplete core ctx) s = execLazyWriteOutComplete core ctx s := by rfl
theorem exec_firmwareActivation (s : State) : exec .firmwareActivation s = execFirmwareActivation s := by rfl
theorem exec_pageInval (m : Mb) (cmd : BitVec 256) (s : State) :
    exec (.pageInval m cmd) s = execPageInval m cmd s := by rfl
theorem exec_pageResolve (m : Mb) (cmd : BitVec 256) (s : State) :
    exec (.pageResolve m cmd) s = execPageResolve m cmd s := by rfl
theorem exec_pageFail (m : Mb) (cmd : BitVec 256) (s : State) :
    exec (.pageFail m cmd) s = execPageFail m cmd s := by rfl
theorem exec_trapcfg (m : Mb) (cmd : BitVec 256) (s : State) : exec (.trapcfg m cmd) s = execTrapcfg m cmd s := by rfl
theorem exec_tracecfg (m : Mb) (cmd : BitVec 256) (s : State) :
    exec (.tracecfg m cmd) s = execTracecfg m cmd s := by rfl
theorem exec_resolveRetry (m : Mb) (cmd : BitVec 256) (s : State) :
    exec (.resolveRetry m cmd) s = execResolveRetry m cmd s := by rfl
theorem exec_resolveSkip (m : Mb) (cmd : BitVec 256) (s : State) :
    exec (.resolveSkip m cmd) s = execResolveSkip m cmd s := by rfl
theorem exec_resolveGoto (m : Mb) (cmd : BitVec 256) (s : State) :
    exec (.resolveGoto m cmd) s = execResolveGoto m cmd s := by rfl
theorem exec_resolveRestart (m : Mb) (cmd : BitVec 256) (s : State) :
    exec (.resolveRestart m cmd) s = execResolveRestart m cmd s := by rfl
theorem exec_resolveKill (m : Mb) (cmd : BitVec 256) (s : State) :
    exec (.resolveKill m cmd) s = execResolveKill m cmd s := by rfl
theorem exec_halt (m : Mb) (cmd : BitVec 256) (s : State) : exec (.halt m cmd) s = execHalt m cmd s := by rfl
theorem exec_release (m : Mb) (cmd : BitVec 256) (s : State) : exec (.release m cmd) s = execRelease m cmd s := by rfl
theorem exec_step (m : Mb) (cmd : BitVec 256) (s : State) : exec (.step m cmd) s = execStep m cmd s := by rfl
theorem exec_readreg (m : Mb) (cmd : BitVec 256) (s : State) : exec (.readreg m cmd) s = execReadreg m cmd s := by rfl
theorem exec_writereg (m : Mb) (cmd : BitVec 256) (s : State) :
    exec (.writereg m cmd) s = execWritereg m cmd s := by rfl
theorem exec_getVersion (m : Mb) (msg : List Byte) (s : State) :
    exec (.getVersion m msg) s = execGetVersion m msg s := by rfl
theorem exec_getCapabilities (m : Mb) (msg : List Byte) (s : State) :
    exec (.getCapabilities m msg) s = execGetCapabilities m msg s := by rfl
theorem exec_negotiateAlgorithms (m : Mb) (msg : List Byte) (s : State) :
    exec (.negotiateAlgorithms m msg) s = execNegotiateAlgorithms m msg s := by rfl
theorem exec_getDigests (m : Mb) (msg : List Byte) (s : State) :
    exec (.getDigests m msg) s = execGetDigests m msg s := by rfl
theorem exec_getCertificate (m : Mb) (msg : List Byte) (s : State) :
    exec (.getCertificate m msg) s = execGetCertificate m msg s := by rfl
theorem exec_challenge (m : Mb) (msg : List Byte) (s : State) :
    exec (.challenge m msg) s = execChallenge m msg s := by rfl
theorem exec_getMeasurements (m : Mb) (msg : List Byte) (s : State) :
    exec (.getMeasurements m msg) s = execGetMeasurements m msg s := by rfl
theorem exec_syscallReply (r : Replier) (seq : BitVec 32) (vals : List W64) (s : State) :
    exec (.syscallReply r seq vals) s = execSyscallReply r seq vals s := by rfl
theorem exec_power (m : Mb) (w : BitVec 64) (s : State) : exec (.power m w) s = execPower m w s := by rfl
theorem exec_unlock (m : Mb) (w : BitVec 64) (s : State) : exec (.unlock m w) s = execUnlock m w s := by rfl
theorem exec_lock (m : Mb) (w : BitVec 64) (s : State) : exec (.lock m w) s = execLock m w s := by rfl
theorem exec_debuglvl (m : Mb) (w : BitVec 64) (s : State) : exec (.debuglvl m w) s = execDebuglvl m w s := by rfl
theorem exec_fwstage (m : Mb) (w : BitVec 64) (s : State) : exec (.fwstage m w) s = execFwstage m w s := by rfl
theorem exec_fwact (m : Mb) (w : BitVec 64) (s : State) : exec (.fwact m w) s = execFwact m w s := by rfl
theorem exec_port (m : Mb) (w : BitVec 64) (s : State) : exec (.port m w) s = execPort m w s := by rfl
theorem exec_bqcfg (m : Mb) (w : BitVec 64) (s : State) : exec (.bqcfg m w) s = execBqcfg m w s := by rfl
theorem exec_pwrcap (m : Mb) (w : BitVec 64) (s : State) : exec (.pwrcap m w) s = execPwrcap m w s := by rfl
theorem exec_idsig (m : Mb) (w : BitVec 64) (s : State) : exec (.idsig m w) s = execIdsig m w s := by rfl
theorem exec_eventIntake (die n : Nat) (s : State) : exec (.eventIntake die n) s = execEventIntake die n s := by rfl
theorem exec_closeMarkerIntake (die n : Nat) (s : State) :
    exec (.closeMarkerIntake die n) s = execCloseMarkerIntake die n s := by rfl
theorem exec_diecycleAdvance (die : Nat) (s : State) :
    exec (.diecycleAdvance die) s = execDiecycleAdvance die s := by rfl
theorem exec_eventRelease (dom : Nat) (s : State) : exec (.eventRelease dom) s = execEventRelease dom s := by rfl
theorem exec_candidateDeadline (dom : Nat) (s : State) :
    exec (.candidateDeadline dom) s = execCandidateDeadline dom s := by rfl
theorem exec_entryStallResume (dom : Nat) (s : State) :
    exec (.entryStallResume dom) s = execEntryStallResume dom s := by rfl
theorem exec_pendStallResume (dom : Nat) (s : State) :
    exec (.pendStallResume dom) s = execPendStallResume dom s := by rfl
theorem exec_groupOffer (die core : Nat) (s : State) :
    exec (.groupOffer die core) s = execGroupOffer die core s := by rfl
theorem exec_pendingLaunchRetry (die core : Nat) (s : State) :
    exec (.pendingLaunchRetry die core) s = execPendingLaunchRetry die core s := by rfl
theorem exec_launchComplete (ctx idx : Nat) (s : State) :
    exec (.launchComplete ctx idx) s = execLaunchComplete ctx idx s := by rfl
theorem exec_datomEntryArrival (n : Nat) (s : State) :
    exec (.datomEntryArrival n) s = execDatomEntryArrival n s := by rfl
theorem exec_datomApply (ctx idx : Nat) (s : State) : exec (.datomApply ctx idx) s = execDatomApply ctx idx s := by rfl
theorem exec_groupPlace (core : Nat) (s : State) : exec (.groupPlace core) s = execGroupPlace core s := by rfl
theorem exec_stealRequest (core : Nat) (s : State) : exec (.stealRequest core) s = execStealRequest core s := by rfl
theorem exec_stealAnswer (core : Nat) (s : State) : exec (.stealAnswer core) s = execStealAnswer core s := by rfl
theorem exec_detDispatch (ctx region : Nat) (s : State) :
    exec (.detDispatch ctx region) s = execDetDispatch ctx region s := by rfl
theorem exec_compactorMove (core : Nat) (s : State) : exec (.compactorMove core) s = execCompactorMove core s := by rfl
theorem exec_groupSlotFree (core gslot : Nat) (s : State) :
    exec (.groupSlotFree core gslot) s = execGroupSlotFree core gslot s := by rfl
theorem exec_hang (core gslot wid : Nat) (s : State) :
    exec (.hang core gslot wid) s = execHang core gslot wid s := by rfl
theorem exec_probeSend (core gslot wid : Nat) (s : State) :
    exec (.probeSend core gslot wid) s = execProbeSend core gslot wid s := by rfl
theorem exec_probeArrival (n : Nat) (s : State) : exec (.probeArrival n) s = execProbeArrival n s := by rfl
theorem exec_barrierArrival (core gslot wid : Nat) (s : State) :
    exec (.barrierArrival core gslot wid) s = execBarrierArrival core gslot wid s := by rfl
theorem exec_trapTaken (core gslot wid : Nat) (s : State) :
    exec (.trapTaken core gslot wid) s = execTrapTaken core gslot wid s := by rfl
theorem exec_homeAccess (n : Nat) (s : State) : exec (.homeAccess n) s = execHomeAccess n s := by rfl
theorem exec_loadReturn (n : Nat) (s : State) : exec (.loadReturn n) s = execLoadReturn n s := by rfl
theorem exec_mbarwPoll (core gslot wid slot : Nat) (s : State) :
    exec (.mbarwPoll core gslot wid slot) s = execMbarwPoll core gslot wid slot s := by rfl
theorem exec_pageWalkComplete (die n : Nat) (s : State) :
    exec (.pageWalkComplete die n) s = execPageWalkComplete die n s := by rfl
theorem exec_pullAttemptComplete (n : Nat) (page : List Byte) (ok : Bool) (s : State) :
    exec (.pullAttemptComplete n page ok) s = execPullAttemptComplete n page ok s := by rfl
theorem exec_pullRetry (n : Nat) (s : State) : exec (.pullRetry n) s = execPullRetry n s := by rfl
theorem exec_hostWrite (pa : Nat) (bytes : List Byte) (s : State) :
    exec (.hostWrite pa bytes) s = execHostWrite pa bytes s := by rfl
theorem exec_copyRetire (core n : Nat) (s : State) : exec (.copyRetire core n) s = execCopyRetire core n s := by rfl
theorem exec_copyReplay (core n : Nat) (s : State) : exec (.copyReplay core n) s = execCopyReplay core n s := by rfl
theorem exec_arrayStart (core : Nat) (s : State) : exec (.arrayStart core) s = execArrayStart core s := by rfl
theorem exec_arrayRetire (core : Nat) (s : State) : exec (.arrayRetire core) s = execArrayRetire core s := by rfl
theorem exec_drainStart (core : Nat) (s : State) : exec (.drainStart core) s = execDrainStart core s := by rfl
theorem exec_drainRetire (core n : Nat) (s : State) : exec (.drainRetire core n) s = execDrainRetire core n s := by rfl
theorem exec_mrelTakesEffect (core n : Nat) (s : State) :
    exec (.mrelTakesEffect core n) s = execMrelTakesEffect core n s := by rfl
theorem exec_chunkArrival (die n : Nat) (s : State) : exec (.chunkArrival die n) s = execChunkArrival die n s := by rfl
theorem exec_combineDeadline (die slot : Nat) (s : State) :
    exec (.combineDeadline die slot) s = execCombineDeadline die slot s := by rfl
theorem exec_slotRelease (die slot : Nat) (s : State) :
    exec (.slotRelease die slot) s = execSlotRelease die slot s := by rfl
theorem exec_submissionStart (die dec : Nat) (s : State) :
    exec (.submissionStart die dec) s = execSubmissionStart die dec s := by rfl
theorem exec_framePut (die dec : Nat) (s : State) : exec (.framePut die dec) s = execFramePut die dec s := by rfl
theorem exec_submissionEnd (die dec : Nat) (s : State) :
    exec (.submissionEnd die dec) s = execSubmissionEnd die dec s := by rfl
theorem exec_flitReceive (port : Nat) (flit : BitVec 1280) (s : State) :
    exec (.flitReceive port flit) s = execFlitReceive port flit s := by rfl
theorem exec_portTrained (port : Nat) (s : State) : exec (.portTrained port) s = execPortTrained port s := by rfl
theorem exec_trainingTimeout (port : Nat) (s : State) :
    exec (.trainingTimeout port) s = execTrainingTimeout port s := by rfl
theorem exec_lossOfSignal (port : Nat) (s : State) : exec (.lossOfSignal port) s = execLossOfSignal port s := by rfl
theorem exec_ucieModuleDown (k : Nat) (s : State) : exec (.ucieModuleDown k) s = execUcieModuleDown k s := by rfl
theorem exec_ucieModuleActive (k : Nat) (s : State) : exec (.ucieModuleActive k) s = execUcieModuleActive k s := by rfl
theorem exec_detectedError (kind core : Nat) (pa : Nat) (lasting : Bool) (s : State) :
    exec (.detectedError kind core pa lasting) s = execDetectedError kind core pa lasting s := by rfl
theorem exec_pmD3hot (s : State) : exec .pmD3hot s = execPmD3hot s := by rfl
theorem exec_pmD0 (s : State) : exec .pmD0 s = execPmD0 s := by rfl
theorem exec_powerRemoved (s : State) : exec .powerRemoved s = execPowerRemoved s := by rfl
theorem exec_powerOn (absent : BitVec 18) (openPart : Bool) (image : List Byte) (s : State) :
    exec (.powerOn absent openPart image) s = execPowerOn absent openPart image s := by rfl
theorem exec_clockThrottle (s : State) : exec .clockThrottle s = execClockThrottle s := by rfl
theorem exec_leaseRenew (die : Nat) (s : State) : exec (.leaseRenew die) s = execLeaseRenew die s := by rfl
theorem exec_leaseLapse (die : Nat) (s : State) : exec (.leaseLapse die) s = execLeaseLapse die s := by rfl
theorem exec_vfEnable (v : Nat) (on : Bool) (s : State) : exec (.vfEnable v on) s = execVfEnable v on s := by rfl
theorem exec_routeTableLoad (t : List (Nat × Nat × Option Nat)) (s : State) :
    exec (.routeTableLoad t) s = execRouteTableLoad t s := by rfl

end Sys2Proof.Proofs
end

