-- ==== Sys2Proof/Proofs/VectorArithmetic.lean ====
section
/-!
Classes 000 and 001 and the conversions of class 010 (R278 to R296) where they issue whole: each is one of the shared forms, and its
result is the form's at the instruction's own operation.
-/
namespace Sys2Proof.Proofs
open Sys2Proof.Machine

section Forms
variable {s : State} {x : Iss} {g : Guard} {f : FA}

theorem vecA1_ready {nb nd : Nat} {op : Iss → Nat → Nat}
    (h : Ready s x .vector false g 0 [opB f nb, .vd f.dst.toNat nd]) :
    vecA1 g f nb nd op s = .next (past x 1 (vecResult s x g f.dst nd (fun l => op x (valB f x nb l)))) :=
  runWord_ready h

theorem vecAa_ready {na nd : Nat} {op : Iss → Nat → Nat}
    (h : Ready s x .vector false g 0 [opA f na, .vd f.dst.toNat nd]) :
    vecAa g f na nd op s = .next (past x 1 (vecResult s x g f.dst nd (fun l => op x (valA f x na l)))) :=
  runWord_ready h

theorem vecCmp_ready {op : Nat → Nat → Bool}
    (h : Ready s x .vector false g 0 [opA f (tyRegs f.ty), opB f (tyRegs f.ty)]) :
    vecCmp g f op s = .next (past x 1 (predResult s x g f.dst (fun l =>
      op (valA f x (tyRegs f.ty) l) (valB f x (tyRegs f.ty) l)))) := by
  unfold vecCmp
  exact runWord_ready h

theorem intA1_ready {op : Nat → Nat}
    (h : Ready s x .vector false g 0 [opB f (tyRegs f.ty), .vd f.dst.toNat (tyRegs f.ty)]) :
    intA1 g f op s = .next (past x 1 (vecResult s x g f.dst (tyRegs f.ty) (fun l =>
      extV f.ty (op (lowT f.ty (valB f x (tyRegs f.ty) l)))))) :=
  vecA1_ready (op := fun _ b => extV f.ty (op (lowT f.ty b))) h

theorem shiftA_ready {op : Nat → Nat → Nat}
    (h : Ready s x .vector false g 0 [opA f (tyRegs f.ty), opB f 1, .vd f.dst.toNat (tyRegs f.ty)]) :
    shiftA g f op s = .next (past x 1 (vecResult s x g f.dst (tyRegs f.ty) (fun l =>
      extV f.ty (op (lowT f.ty (valA f x (tyRegs f.ty) l)) (valB f x 1 l % tyWidth f.ty))))) :=
  vecA2_ready (op := fun _ a b => extV f.ty (op (lowT f.ty a) (b % tyWidth f.ty))) h

theorem floatA2_ready {op : Fmt → Rnd → Nat → Nat → Nat}
    (h : Ready s x .vector false g 0 [opA f (tyRegs f.ty), opB f (tyRegs f.ty), .vd f.dst.toNat (tyRegs f.ty)]) :
    floatA2 g f op s = .next (past x 1 (vecResult s x g f.dst (tyRegs f.ty) (fun l =>
      op (fmtOf f.ty) (rndA f x) (lowT f.ty (valA f x (tyRegs f.ty) l)) (lowT f.ty (valB f x (tyRegs f.ty) l))))) :=
  vecA2_ready (op := fun x a b => op (fmtOf f.ty) (rndA f x) (lowT f.ty a) (lowT f.ty b)) h

theorem floatA1_ready {op : Fmt → Rnd → Nat → Nat}
    (h : Ready s x .vector false g 0 [opB f (tyRegs f.ty), .vd f.dst.toNat (tyRegs f.ty)]) :
    floatA1 g f op s = .next (past x 1 (vecResult s x g f.dst (tyRegs f.ty) (fun l =>
      op (fmtOf f.ty) (rndA f x) (lowT f.ty (valB f x (tyRegs f.ty) l))))) :=
  vecA1_ready (op := fun x b => op (fmtOf f.ty) (rndA f x) (lowT f.ty b)) h

end Forms

/-- The leading zeros of a value already cut to its width (R278). -/
theorem clz_lowT (t : Ty) (v : Nat) :
    clz (tyWidth t) (lowT t v) = if lowT t v = 0 then tyWidth t else tyWidth t - 1 - Nat.log2 (lowT t v) := by
  have hmod : lowT t v % 2 ^ tyWidth t = lowT t v := Nat.mod_mod _ _
  rw [clz, hmod]

/-- Settles O11: each is the two-source integer form at its own operation. -/
theorem integerTwoSourceCompletes : Obligations.IntegerTwoSourceCompletes := by
  unfold Obligations.IntegerTwoSourceCompletes
  intro s x g f n h put a
  exact ⟨(exec_iadd ..).trans (intA2_ready h), (exec_isub ..).trans (intA2_ready h), (exec_imul ..).trans
    (intA2_ready h), (exec_imulh ..).trans (intA2_ready h), (exec_imin ..).trans (intA2_ready h), (exec_imax
    ..).trans (intA2_ready h), (exec_and_ ..).trans (intA2_ready h), (exec_or_ ..).trans (intA2_ready h),
    (exec_xor_ ..).trans (intA2_ready h), (exec_andn ..).trans (intA2_ready h)⟩

/-- Settles O12: the one-source integer form and the shift form at each operation; a value cut to its width is its own low part. -/
theorem oneSourceAndShiftsComplete : Obligations.OneSourceAndShiftsComplete := by
  unfold Obligations.OneSourceAndShiftsComplete
  intro s x g f n w a b k result
  refine ⟨fun h => ⟨(exec_iabs ..).trans (intA1_ready h), (exec_ineg ..).trans (intA1_ready h), (exec_not_ ..).trans
    (intA1_ready h), (exec_popc ..).trans (intA1_ready h),
    ?clz, (exec_ctz ..).trans (intA1_ready h), (exec_brev ..).trans (intA1_ready h), (exec_mov ..).trans (intA1_ready
    h)⟩, fun h => ⟨(exec_shl ..).trans (shiftA_ready h), (exec_shr ..).trans (shiftA_ready h), (exec_sar ..).trans
    (shiftA_ready h), (exec_rot ..).trans (shiftA_ready h)⟩⟩
  have hclz := intA1_ready (op := clz (tyWidth f.ty)) h
  simp only [clz_lowT] at hclz
  exact (exec_clz ..).trans hclz

/-- Settles O14: each is the three-source form at its own operation; FUNNEL's shift is a division. -/
theorem threeSourceCompletes : Obligations.ThreeSourceCompletes := by
  unfold Obligations.ThreeSourceCompletes
  intro s x g f n ops put a w
  refine ⟨fun h => ⟨?imad, ?isad, ?fma⟩, fun h => ?funnel,
    fun h => ⟨(exec_dp4 ..).trans ((vecB3_ready h).trans rfl), (exec_fdot2 ..).trans ((vecB3_ready h).trans rfl)⟩⟩
  case imad =>
    rw [exec_imad, execImad]
    exact (vecB3_ready h).trans rfl
  case isad =>
    rw [exec_isad, execIsad]
    exact (vecB3_ready h).trans rfl
  case fma =>
    rw [exec_fma, execFma]
    exact (vecB3_ready h).trans rfl
  case funnel =>
    rw [exec_funnel, execFunnel]
    simp only [Nat.shiftRight_eq_div_pow]
    exact (vecB3_ready h).trans rfl

/-- Settles O16: SEL, MOVI and MOVHI are whole words of their own, ICMP the comparison form. -/
theorem selectAndMoveComplete : Obligations.SelectAndMoveComplete := by
  unfold Obligations.SelectAndMoveComplete
  intro s x g fa fb fi
  refine ⟨fun h => ?sel, fun h => (exec_icmp ..).trans (vecCmp_ready h), fun h => ?movi, fun h => ?movhi⟩
  case sel =>
    rw [exec_sel, execSel]
    exact runWord_ready h
  case movi =>
    rw [exec_movi, execMovi]
    exact runWord_ready h
  case movhi =>
    rw [exec_movhi, execMovhi]
    exact runWord_ready h

/-- Settles O17: each is the two-source or the one-source float form at its own operation. -/
theorem floatArithmeticCompletes : Obligations.FloatArithmeticCompletes := by
  unfold Obligations.FloatArithmeticCompletes
  refine ⟨fun s x g f => ⟨fun h => ?two, fun h => ?scale,
    fun h => (exec_fcmp ..).trans (vecCmp_ready h)⟩, fun s x g f => ⟨fun h => ?one, fun h => ?bits⟩⟩
  case scale =>
    rw [exec_fscale, execFscale]
    exact (vecA2_ready h).trans rfl
  case two =>
    exact ⟨(exec_fadd ..).trans (floatA2_ready h), (exec_fsub ..).trans (floatA2_ready h), (exec_fmul ..).trans
      (floatA2_ready h), (exec_fdiv ..).trans (floatA2_ready h), (exec_fmin ..).trans (floatA2_ready h),
      (exec_fmax ..).trans (floatA2_ready h), (exec_fminnum ..).trans (floatA2_ready h), (exec_fmaxnum ..).trans
      (floatA2_ready h), (exec_fcopysign ..).trans (floatA2_ready h)⟩
  case one =>
    exact ⟨(exec_fabs ..).trans (floatA1_ready h), (exec_fneg ..).trans (floatA1_ready h), (exec_fsqrt ..).trans
      (floatA1_ready h), (exec_frcp ..).trans (floatA1_ready h), (exec_frsq ..).trans (floatA1_ready h),
      (exec_fexp2 ..).trans (floatA1_ready h), (exec_flog2 ..).trans (floatA1_ready h), (exec_fsin ..).trans
      (floatA1_ready h), (exec_fcos ..).trans (floatA1_ready h), (exec_ftanh ..).trans (floatA1_ready h),
      (exec_fround ..).trans (floatA1_ready h), (exec_ffrac ..).trans (floatA1_ready h)⟩
  case bits => exact ⟨(exec_fclass ..).trans (vecA1_ready h), (exec_fgetexp ..).trans (vecA1_ready h)⟩

end Sys2Proof.Proofs
end

