-- ==== Sys2Proof/Proofs/LaneExchange.lean ====
section
/-!
Class 010 (R294 to R301): the conversions, and the exchanges between lanes. A lane number, an index or an operand's fullness decides
which of an exchange's operands are looked at; a mask made of the lanes that a test passes is the mask that the model writes.
-/
namespace Sys2Proof.Proofs
open Sys2Proof.Machine

/-! ### Masks and lanes -/

theorem getLsbD_foldl_setBits (ls : List Nat) (m : W32) (l : Nat) :
    (ls.foldl (fun m l => m ||| (1#32 <<< l)) m).getLsbD l = (m.getLsbD l || (decide (l < 32) && decide (l ∈ ls))) := by
  induction ls generalizing m with
  | nil => simp
  | cons a r ih =>
    rw [List.foldl_cons, ih]
    have hbit : (1#32 <<< a).getLsbD l = (decide (l < 32) && decide (l = a)) := by
      rw [Bool.eq_iff_iff]
      simp only [BitVec.getLsbD_shiftLeft, Bool.and_eq_true, decide_eq_true_eq, Bool.not_eq_true', decide_eq_false_iff_not,
        BitVec.getLsbD_one]
      omega
    rw [BitVec.getLsbD_or, hbit]
    simp [Bool.or_assoc, ← Bool.and_or_distrib_left]

@[simp] theorem inMask_maskOf (ls : List Nat) (l : Nat) : inMask (maskOf ls) l = (decide (l < 32) && decide (l ∈ ls)) := by
  rw [inMask, maskOf, getLsbD_foldl_setBits]
  simp

@[simp] theorem mem_lanesOf {m : W32} {l : Nat} : l ∈ lanesOf m ↔ l < 32 ∧ inMask m l = true := by
  simp [lanesOf]

theorem mask_ext {m n : W32} (h : ∀ l < 32, inMask m l = inMask n l) : m = n := BitVec.eq_of_getLsbD_eq h

theorem maskOf_lanesOf (m : W32) : maskOf (lanesOf m) = m :=
  mask_ext (fun l hl => by simp [hl])

theorem maskOf_eq_of_mem_iff {as bs : List Nat} (h : ∀ l, l ∈ as ↔ l ∈ bs) : maskOf as = maskOf bs :=
  mask_ext (fun l _ => by simp [h])

/-! ### Conversions -/

/-- Settles O18: CVT and CVTF8 are the form whose source is SRCA; BXPACK and BXUNPACK are whole words of their own. -/
theorem conversionsComplete : Obligations.ConversionsComplete := by
  unfold Obligations.ConversionsComplete
  intro s x g f t put rnd
  refine ⟨fun h => ?cvt, fun hw h => ?packF8, fun hw h => ?unpackF8, fun h => ?bxpack, fun h => ?bxunpack⟩
  case cvt =>
    rw [exec_cvt, execCvt]
    exact (vecAa_ready h).trans rfl
  case packF8 =>
    rw [exec_cvtf8, execCvtf8]
    simp only [if_pos hw]
    exact (vecAa_ready h).trans rfl
  case unpackF8 =>
    rw [exec_cvtf8, execCvtf8]
    simp only [if_neg hw]
    exact (vecAa_ready h).trans rfl
  case bxpack =>
    rw [exec_bxpack, execBxpack]
    exact runWord_ready h
  case bxunpack =>
    rw [exec_bxunpack, execBxunpack]
    exact runWord_ready h

/-! ### Exchanges between lanes -/

/-- An operand of an instruction that issues whole is full. -/
theorem emptyIn_of_ready {s : State} {x : Iss} {roles : Roles} {stops : Bool} {g : Guard} {tw : BitVec 8} {os : List Opd}
    (h : Ready s x roles stops g tw os) {o : Opd} (ho : o ∈ os) : o.emptyIn x (guardMask x g) = 0 := by
  obtain ⟨-, -, -, -, -, -, hfull⟩ := h
  simp only [allFull, List.all_eq_true, beq_iff_eq] at hfull
  exact hfull o ho

/-- A full uniform operand is not empty, as a lane passes the guard. -/
theorem uEmpty_of_ready {s : State} {x : Iss} {roles : Roles} {stops : Bool} {g : Guard} {tw : BitVec 8} {os : List Opd}
    (h : Ready s x roles stops g tw os) {r : Nat} {fe : Bool} (ho : .u r fe ∈ os) : uEmpty x.grp r = false := by
  have hempty := emptyIn_of_ready h ho
  obtain ⟨-, -, -, -, -, hm, -⟩ := h
  by_contra hne
  simp only [Opd.emptyIn, if_pos (Bool.eq_true_of_not_eq_false hne)] at hempty
  exact hm hempty

theorem elect_mask (m : W32) :
    maskOf ((lanesOf m).take 1) = maskOf ((lanesOf m).filter (fun l => some l == (lanesOf m).head?)) := by
  apply maskOf_eq_of_mem_iff
  intro l
  cases lanesOf m with
  | nil => simp
  | cons a r => simp

theorem vote_mask (m : W32) (b : Bool) : (if b then m else 0) = maskOf ((lanesOf m).filter (fun _ => b)) := by
  cases b
  · simp [maskOf]
  · simp [maskOf_lanesOf]

/-- What WRLANE does once it issues (R301). -/
def wrlaneBody (f : FA) (x : Iss) (m : W32) (s : State) : Res :=
  let lane := (sreg x.grp f.srca.toNat).toNat % 2 ^ 32
  if lane ≥ 32 then .trap .bounds m 0 0 s
  else if !inMask x.sp.mask lane then .done s
  else if (List.range (tyRegs f.ty)).any (fun k => vEmpty x.wp (f.dst.toNat + k) lane) then .hold .nothing s
  else .done (writeLanes s x (maskOf [lane]) f.dst.toNat (tyRegs f.ty) (fun _ => extV f.ty (sval x f.ty f.srcb)))

theorem execWrlane_ready {s : State} {x : Iss} {g : Guard} {f : FA}
    (h : Ready s x .vector false g 0 [.u f.srca.toNat f.fea, .u f.srcb.toNat f.feb, .vl f.dst.toNat (tyRegs f.ty)]) :
    execWrlane g f s = finish x 1 (wrlaneBody f x (guardMask x g) s) := by
  rw [execWrlane]
  exact runWord_ready h

/-- Settles O19: each exchange issues whole with the operands that its index, its lane number or its kind of vote selects. -/
theorem laneExchangesComplete : Obligations.LaneExchangesComplete := by
  unfold Obligations.LaneExchangesComplete
  intro s x g f n m put
  refine ⟨?shfl, ?permx, fun h => ⟨?red, ?scan⟩, fun h => ?match_, fun h => ⟨?elect, fun hne => ?vote⟩,
    fun heq h => ?ballot, fun h => ?rfal, fun hlane h => ?rdlane, fun hlane h => ?rdlaneBounds, fun h => ?wrlane⟩
  case shfl =>
    intro src h
    have hindex : (opB f 1).emptyIn x (guardMask x g) = 0 := emptyIn_of_ready h (by simp)
    rw [exec_shfl, execShfl]
    refine runWord_ready ?_
    simp only [hindex]
    exact h
  case permx =>
    intro idx h
    have hindex : (opB f 1).emptyIn x (guardMask x g) = 0 := emptyIn_of_ready h (by simp)
    rw [exec_permx, execPermx]
    refine runWord_ready ?_
    simp only [hindex]
    exact h
  case red =>
    rw [exec_red, execRed]
    exact runWord_ready h
  case scan =>
    rw [exec_scan, execScan]
    exact runWord_ready h
  case match_ =>
    rw [exec_match_, execMatch]
    exact runWord_ready h
  case elect =>
    rw [exec_elect, execElect, predResult, ← elect_mask]
    exact runWord_ready h
  case vote =>
    intro p
    have hballot : (f.srcb == 3) = false := by simpa using hne
    have hkind : (match f.srcb.toNat with
        | 0 => p == m
        | 1 => p != 0
        | _ => p == m || p == 0) = (if f.srcb = 0 then p == m else if f.srcb = 1 then p != 0 else p == m || p == 0) := by
      by_cases h0 : f.srcb = 0
      · simp [h0]
      by_cases h1 : f.srcb = 1
      · simp [h1]
      · rw [if_neg h0, if_neg h1]
        split
        · rename_i e
          exact absurd (BitVec.eq_of_toNat_eq e) h0
        · rename_i e
          exact absurd (BitVec.eq_of_toNat_eq e) h1
        · rfl
    rw [exec_vote, execVote, predResult, ← vote_mask, ← hkind]
    simp only [hballot]
    exact runWord_ready h
  case ballot =>
    have hballot : (f.srcb == 3) = true := by simpa using heq
    rw [exec_vote, execVote]
    simp only [hballot]
    exact runWord_ready h
  case rfal =>
    rw [exec_rfal, execRfal]
    exact runWord_ready h
  case rdlane =>
    have hindex : uEmpty x.grp f.srcb.toNat = false :=
      uEmpty_of_ready (fe := f.feb) h (by simp)
    rw [exec_rdlane, execRdlane]
    refine (runWord_ready (x := x) ?_).trans ?_
    · simp only [hindex, ge_iff_le, Bool.false_or, decide_eq_true_eq, if_neg (not_le.2 hlane)]
      exact h
    · simp only [if_neg (not_le.2 hlane)]
      rfl
  case rdlaneBounds =>
    rw [exec_rdlane, execRdlane]
    refine (runWord_ready (x := x) ?_).trans ?_
    · simp only [hlane, decide_true, Bool.or_true]
      exact h
    · simp only [if_pos hlane]
      rfl
  case wrlane =>
    rw [exec_wrlane, execWrlane_ready h]
    refine ⟨fun hl => ?_, fun hl hout => ?_, fun hl hin hempty => ?_, fun hl hin hfull => ?_⟩
    · simp only [wrlaneBody, if_pos hl]
      rfl
    · simp only [wrlaneBody, if_neg (not_le.2 hl), hout]
      rfl
    · have hany : (List.range (tyRegs f.ty)).any (fun k => vEmpty x.wp (f.dst.toNat + k)
          ((sreg x.grp f.srca.toNat).toNat % 2 ^ 32)) = true := by
        simpa using hempty
      simp only [wrlaneBody, if_neg (not_le.2 hl), hin, hany]
      rfl
    · have hany : (List.range (tyRegs f.ty)).any (fun k => vEmpty x.wp (f.dst.toNat + k)
          ((sreg x.grp f.srca.toNat).toNat % 2 ^ 32)) = false := by
        simpa using hfull
      simp only [wrlaneBody, if_neg (not_le.2 hl), hin, hany]
      rfl

end Sys2Proof.Proofs
end

