-- ==== Sys2Proof/Proofs/UniformArithmetic.lean ====
section
/-!
Class 101 (R253 to R260): the uniform instructions where they issue whole, by their two shared forms.
-/
namespace Sys2Proof.Proofs
open Sys2Proof.Machine

theorem sca2_ready {s : State} {x : Iss} {g : Guard} {f : FA} {op : Iss → Nat → Nat → Nat}
    (h : Ready s x .all false g 0 [.u f.srca.toNat f.fea, .u f.srcb.toNat f.feb, .ud f.dst.toNat]) :
    sca2 g f op s = .next (past x 1 (uniResult s x f.dst (extS f.ty (op x (sval x f.ty f.srca) (sval x f.ty f.srcb))))) :=
  runWord_ready h

theorem sca1_ready {s : State} {x : Iss} {g : Guard} {f : FA} {op : Iss → Nat → Nat}
    (h : Ready s x .all false g 0 [.u f.srca.toNat f.fea, .ud f.dst.toNat]) :
    sca1 g f op s = .next (past x 1 (uniResult s x f.dst (extS f.ty (op x (sval x f.ty f.srca))))) :=
  runWord_ready h

/-- Settles O20: each is a uniform form of two sources or of one at its own operation, or a whole word of its own. -/
theorem uniformArithmeticCompletes : Obligations.UniformArithmeticCompletes := by
  unfold Obligations.UniformArithmeticCompletes
  intro s x g f b i result w p q a rnd out
  refine ⟨fun h => ?two, fun h => ?one, fun h => ?scmp, fun h => ?ssel, fun h => ?sfma, fun h => ?smovi, fun h => ?smovhi⟩
  case two =>
    exact ⟨(exec_sadd ..).trans (sInt2_ready h), (exec_ssub ..).trans (sInt2_ready h), (exec_smul ..).trans
      (sInt2_ready h), (exec_smulh ..).trans (sInt2_ready h), (exec_sand ..).trans (sInt2_ready h), (exec_sor
      ..).trans (sInt2_ready h), (exec_sxor ..).trans (sInt2_ready h), (exec_sshl ..).trans (sInt2_ready h),
      (exec_sshr ..).trans (sInt2_ready h), (exec_ssar ..).trans (sInt2_ready h), (exec_smin ..).trans
      (sInt2_ready h), (exec_smax ..).trans (sInt2_ready h),
      (exec_sfadd ..).trans (sca2_ready h), (exec_sfmul ..).trans (sca2_ready h)⟩
  case one =>
    refine ⟨(exec_snot ..).trans (sca1_ready h), (exec_spopc ..).trans (sca1_ready h), ?_, (exec_smov ..).trans (sca1_ready h),
      ?_⟩
    · have hclz := sca1_ready (op := fun _ a => clz (tyWidth f.ty) a) h
      simp only [sval, clz_lowT] at hclz
      exact (exec_sclz ..).trans hclz
    · rw [exec_scvt, execScvt]
      exact runWord_ready h
  case scmp =>
    rw [exec_scmp, execScmp]
    exact runWord_ready h
  case ssel =>
    rw [exec_ssel, execSsel]
    exact runWord_ready h
  case sfma =>
    rw [exec_sfma, execSfma]
    exact runWord_ready h
  case smovi =>
    rw [exec_smovi, execSmovi]
    exact runWord_ready h
  case smovhi =>
    rw [exec_smovhi, execSmovhi]
    exact runWord_ready h

end Sys2Proof.Proofs
end

