-- ==== Sys2Proof/Proofs/IssueFrame.lean ====
section
/-!
What the end of an issue leaves of the role that issued (R138 to R142, R144): its splits, their bookkeeping and its speculation may
change, its registers, tokens and place do not; and of the state around it nothing changes but whose turn it is.
-/
namespace Sys2Proof.Proofs
open Sys2Proof.Machine

/-! ### The role -/

/-- `z` is `y` but for its splits and what an issue keeps beside them. -/
def IssueOnly (y z : Warp) : Prop :=
  { z with
    splits := y.splits
    wlist := y.wlist
    spilled := y.spilled
    lastSlot := y.lastSlot
    pend := y.pend
    blockedAt := y.blockedAt
    spec := y.spec } = y

theorem IssueOnly.refl (y : Warp) : IssueOnly y y := rfl

theorem IssueOnly.trans {y z u : Warp} (h : IssueOnly y z) (h' : IssueOnly z u) : IssueOnly y u := by
  unfold IssueOnly at *
  rw [← h, ← h']

theorem IssueOnly.eq {y z : Warp} (h : IssueOnly y z) : { z with
    splits := y.splits
    wlist := y.wlist
    spilled := y.spilled
    lastSlot := y.lastSlot
    pend := y.pend
    blockedAt := y.blockedAt
    spec := y.spec } = y := h

theorem IssueOnly.vregs {y z : Warp} (h : IssueOnly y z) : z.vregs = y.vregs := by rw [← h.eq]
theorem IssueOnly.preds {y z : Warp} (h : IssueOnly y z) : z.preds = y.preds := by rw [← h.eq]
theorem IssueOnly.conds {y z : Warp} (h : IssueOnly y z) : z.conds = y.conds := by rw [← h.eq]
theorem IssueOnly.prods {y z : Warp} (h : IssueOnly y z) : z.prods = y.prods := by rw [← h.eq]
theorem IssueOnly.toks {y z : Warp} (h : IssueOnly y z) : z.toks = y.toks := by rw [← h.eq]
theorem IssueOnly.part {y z : Warp} (h : IssueOnly y z) : z.part = y.part := by rw [← h.eq]
theorem IssueOnly.rbase {y z : Warp} (h : IssueOnly y z) : z.rbase = y.rbase := by rw [← h.eq]
theorem IssueOnly.run {y z : Warp} (h : IssueOnly y z) : z.run = y.run := by rw [← h.eq]

/-- A fold each of whose steps keeps a role but for its splits keeps it so. -/
theorem issueOnly_foldl {α : Type} {f : Warp → α → Warp} (hf : ∀ y a, IssueOnly y (f y a)) (l : List α) (y : Warp) :
    IssueOnly y (l.foldl f y) := by
  induction l generalizing y with
  | nil => exact .refl y
  | cons a r ih => exact (hf y a).trans (ih _)

theorem issueOnly_setSplit (y : Warp) (i : Nat) (q : Option Split) : IssueOnly y (y.setSplit i q) := rfl

theorem issueOnly_waitInsert (y : Warp) (e : WaitEntry) : IssueOnly y (waitInsert y e) := rfl

theorem issueOnly_placeSplit (y : Warp) (q : Split) : IssueOnly y (placeSplit y q) := by
  unfold placeSplit
  split <;> rfl

theorem issueOnly_mergeSlots (y : Warp) : IssueOnly y (mergeSlots y) := by
  refine issueOnly_foldl (fun y p => ?_) _ y
  dsimp only
  split
  · split <;> rfl
  · rfl

theorem issueOnly_absorb (y : Warp) : IssueOnly y (absorb y) := by
  refine issueOnly_foldl (fun y i => ?_) _ y
  dsimp only
  split
  · split
    · rfl
    · refine issueOnly_foldl (fun y e => ?_) _ y
      split
      · split <;> rfl
      · rfl
  · rfl

theorem issueOnly_refill (n : Nat) (y : Warp) : IssueOnly y (refill n y) := by
  induction n generalizing y with
  | zero => rfl
  | succ n ih =>
    unfold refill
    split
    · refine IssueOnly.trans ?_ (ih _)
      rfl
    · rfl

theorem issueOnly_unspill (n : Nat) (y : Warp) : IssueOnly y (unspill n y) := by
  induction n generalizing y with
  | zero => rfl
  | succ n ih =>
    unfold unspill
    split
    · split
      · refine IssueOnly.trans ?_ (ih _)
        rfl
      · rfl
    · rfl

theorem issueOnly_releaseJoins (y : Warp) : IssueOnly y (releaseJoins y) := by
  refine issueOnly_foldl (fun y i => ?_) _ y
  split
  · split <;> rfl
  · rfl

theorem issueOnly_rotateHeld (y : Warp) : IssueOnly y (rotateHeld y) := by
  unfold rotateHeld
  dsimp only
  split
  · split <;> rfl
  · rfl

theorem issueOnly_boundary (y : Warp) : IssueOnly y (boundary y) := by
  refine IssueOnly.trans ?_ ((issueOnly_mergeSlots _).trans ((issueOnly_absorb _).trans ((issueOnly_releaseJoins _).trans
    ((issueOnly_rotateHeld _).trans ((issueOnly_refill _ _).trans (issueOnly_unspill _ _))))))
  rfl

theorem issueOnly_countStarvation (old y : Warp) : IssueOnly y (countStarvation old y) := by
  unfold countStarvation pendHang
  dsimp only
  split <;> rfl

theorem issueOnly_setSplitBlock (now slot : Nat) (b : Block) (y : Warp) : IssueOnly y (setSplitBlock now slot b y) := by
  unfold setSplitBlock
  dsimp only
  split <;> rfl

/-! ### The role and its group in the state -/

/-- A change of a core that leaves its groups leaves every group as it reads. -/
theorem groupAt_modCore {s : State} {c : Nat} {f : Core → Core} (hf : ∀ k, (f k).groups = k.groups) (d q : Nat) :
    groupAt (modCore s c f) d q = groupAt s d q := by
  unfold groupAt
  rw [coreOf_modCore]
  split
  · rename_i h
    rw [hf, h]
  · rfl

theorem warpAt_modCore {s : State} {c : Nat} {f : Core → Core} (hf : ∀ k, (f k).groups = k.groups) (d q v : Nat) :
    warpAt (modCore s c f) d q v = warpAt s d q v := by
  unfold warpAt
  rw [groupAt_modCore hf]

@[simp] theorem groupAt_noteRank (s : State) (w : Who) (d q : Nat) : groupAt (noteRank s w) d q = groupAt s d q := by
  rw [noteRank, setRank, groupAt_modCore]
  exact fun _ => rfl

/-- The group of a role that is changed is what it was but for its roles. -/
theorem groupAt_modWarp {s : State} {c g : Nat} {k : Group} (h : groupAt s c g = some k) (w : Nat) (f : Warp → Warp) :
    ∃ ws, groupAt (modWarp s c g w f) c g = some { k with warps := ws } := by
  unfold modWarp
  rw [groupAt_modGroup_same h]
  split
  · exact ⟨_, rfl⟩
  · exact ⟨k.warps, rfl⟩

theorem issuer_groupAt {s : State} {x : Iss} (h : issuer s = some x) : groupAt s x.w.core x.w.gslot = some x.grp := by
  unfold issuer at h
  split at h
  · cases h
  · rename_i g hg
    split at h
    · cases h
    · rename_i y hy
      obtain ⟨q, -, rfl⟩ := Option.map_eq_some_iff.1 h
      exact hg

theorem issuer_warpAt {s : State} {x : Iss} (h : issuer s = some x) :
    warpAt s x.w.core x.w.gslot x.w.wid = some x.wp := by
  rw [warpAt_eq (issuer_groupAt h)]
  unfold issuer at h
  split at h
  · cases h
  · split at h
    · cases h
    · rename_i y hy
      obtain ⟨q, -, rfl⟩ := Option.map_eq_some_iff.1 h
      exact hy

theorem issuer_split {s : State} {x : Iss} (h : issuer s = some x) : x.wp.split x.w.slot = some x.sp := by
  unfold issuer at h
  split at h
  · cases h
  · split at h
    · cases h
    · obtain ⟨q, hq, rfl⟩ := Option.map_eq_some_iff.1 h
      exact hq

section Issue
variable {s : State} {x : Iss} {n : Nat}

theorem warpAt_stepPc {y : Warp} (h : warpAt s x.w.core x.w.gslot x.w.wid = some y) :
    ∃ z, warpAt (stepPc s x.w n) x.w.core x.w.gslot x.w.wid = some z ∧ IssueOnly y z :=
  ⟨_, warpAt_modWarp_same h, issueOnly_setSplit y _ _⟩

theorem groupAt_noteIssue {k : Group} (h : groupAt s x.w.core x.w.gslot = some k) :
    ∃ ws, groupAt (noteIssue s x) x.w.core x.w.gslot = some { k with warps := ws } := by
  refine groupAt_modWarp ?_ x.w.wid _
  rw [groupAt_modCore, groupAt_noteRank, h]
  exact fun _ => rfl

theorem warpAt_noteIssue {y : Warp} (h : warpAt s x.w.core x.w.gslot x.w.wid = some y) :
    ∃ z, warpAt (noteIssue s x) x.w.core x.w.gslot x.w.wid = some z ∧ IssueOnly y z := by
  refine ⟨_, warpAt_modWarp_same (y := y) ?_, IssueOnly.trans ?_ (issueOnly_countStarvation _ _)⟩
  · rw [warpAt_modCore, warpAt, groupAt_noteRank, ← warpAt, h]
    exact fun _ => rfl
  · rfl

theorem warpAt_endIssue {y : Warp} (h : warpAt s x.w.core x.w.gslot x.w.wid = some y) :
    ∃ z, warpAt (endIssue s x) x.w.core x.w.gslot x.w.wid = some z ∧ IssueOnly y z := by
  obtain ⟨z, hz, hyz⟩ := warpAt_noteIssue h
  exact ⟨_, warpAt_modWarp_same hz, hyz.trans ((issueOnly_setSplit z _ _).trans (issueOnly_boundary _))⟩

theorem warpAt_past {y : Warp} (h : warpAt s x.w.core x.w.gslot x.w.wid = some y) :
    ∃ z, warpAt (past x n s) x.w.core x.w.gslot x.w.wid = some z ∧ IssueOnly y z := by
  obtain ⟨z, hz, hyz⟩ := warpAt_stepPc (n := n) h
  obtain ⟨u, hu, hzu⟩ := warpAt_endIssue hz
  exact ⟨u, hu, hyz.trans hzu⟩

theorem groupAt_past {k : Group} (h : groupAt s x.w.core x.w.gslot = some k) :
    ∃ ws, groupAt (past x n s) x.w.core x.w.gslot = some { k with warps := ws } := by
  obtain ⟨ws, hstep⟩ : ∃ ws, groupAt (stepPc s x.w n) x.w.core x.w.gslot = some { k with warps := ws } :=
    groupAt_modWarp h x.w.wid _
  obtain ⟨vs, hnote⟩ := groupAt_noteIssue hstep
  exact groupAt_modWarp hnote x.w.wid _

end Issue

end Sys2Proof.Proofs
end

