-- ==== Sys2Proof/Proofs/ResultsRead.lean ====
section
/-!
What a register reads after an instruction has written it (R64, R65, R253, R273): the result in the lanes of the guard and in its own
register or pair, and in every other lane and register what it read before. The end of the issue changes no register.
-/
namespace Sys2Proof.Proofs
open Sys2Proof.Machine

/-! ### Vector registers -/

theorem lt_of_inMask {m : W32} {l : Nat} (h : inMask m l = true) : l < 32 := by
  by_contra hl
  rw [inMask, BitVec.getLsbD_of_ge m l (by omega)] at h
  cases h

theorem vreg_setVreg (y : Warp) (r : Nat) (m : W32) (f : Nat → W32) (q : Nat) {l : Nat} (hl : l < 32) :
    vreg (setVreg y r m f) q l = if q = r ∧ inMask m l = true then f l else vreg y q l := by
  simp only [vreg, setVreg, mapGet_mapSet]
  by_cases hq : q = r
  · subst hq
    simp [hl]
  · simp [hq]

theorem vreg_setVregN (y : Warp) (r n : Nat) (m : W32) (f : Nat → Nat) (q : Nat) {l : Nat} (hl : l < 32) :
    vreg (setVregN y r n m f) q l =
      if (r ≤ q ∧ q < r + n) ∧ inMask m l = true then BitVec.ofNat 32 (f l >>> (32 * (q - r))) else vreg y q l := by
  induction n with
  | zero =>
    have hnone : ¬ ((r ≤ q ∧ q < r + 0) ∧ inMask m l = true) := by omega
    rw [if_neg hnone]
    rfl
  | succ n ih =>
    have hstep : setVregN y r (n + 1) m f =
        setVreg (setVregN y r n m f) (r + n) m (fun l => BitVec.ofNat 32 (f l >>> (32 * n))) := by
      simp [setVregN, List.range_succ]
    rw [hstep, vreg_setVreg _ _ _ _ _ hl, ih]
    by_cases hq : q = r + n
    · subst hq
      simp
    · have hiff : (r ≤ q ∧ q < r + (n + 1)) ↔ (r ≤ q ∧ q < r + n) := by omega
      simp only [hq, false_and, if_false, hiff]

/-- A run of registers reads the low bits of what was written to it. -/
theorem vregN_setVregN (y : Warp) (r n : Nat) {m : W32} (f : Nat → Nat) {l : Nat} (h : inMask m l = true) :
    vregN (setVregN y r n m f) r n l = f l % 2 ^ (32 * n) := by
  have hsum : ∀ k ≤ n, (List.range k).foldl
      (fun acc j => acc + (vreg (setVregN y r n m f) (r + j) l).toNat <<< (32 * j)) 0 = f l % 2 ^ (32 * k) := by
    intro k hk
    induction k with
    | zero => simp [Nat.mod_one]
    | succ k ih =>
      have hreg : vreg (setVregN y r n m f) (r + k) l = BitVec.ofNat 32 (f l >>> (32 * k)) := by
        rw [vreg_setVregN _ _ _ _ _ _ (lt_of_inMask h), if_pos ⟨by omega, h⟩, Nat.add_sub_cancel_left]
      have hsplit : f l % 2 ^ (32 * (k + 1)) = f l % 2 ^ (32 * k) + 2 ^ (32 * k) * (f l / 2 ^ (32 * k) % 2 ^ 32) := by
        rw [Nat.mul_succ, pow_add, Nat.mod_mul]
      rw [List.range_succ, List.foldl_append, ih (by omega), List.foldl_cons, List.foldl_nil, hreg, hsplit,
        BitVec.toNat_ofNat, Nat.shiftLeft_eq, Nat.shiftRight_eq_div_pow, Nat.mul_comm (_ % 2 ^ 32)]
  exact hsum n le_rfl

theorem extV_lt (t : Ty) (v : Nat) : extV t v < 2 ^ (32 * tyRegs t) := by
  have hwrap : ∀ u : Int, wrapTo 32 u < 2 ^ 32 := wrapTo_lt 32
  cases t with
  | i8 | i16 => exact hwrap _
  | i32 | i64 | n8 | n16 | n32 | n64 | f16 | b16 | f32 | f64 | e4m3 | e5m2 | bx =>
    exact lt_of_lt_of_le (Nat.mod_lt _ (by decide)) (by decide)

/-! ### After a vector instruction -/

/-- In `t` the lanes of `m` read `v` in a run of registers, and every other lane and register of the role reads what it did. -/
def VecRead (t : State) (x : Iss) (m : W32) (dst n : Nat) (v : Nat → Nat) : Prop :=
  ∃ y, warpAt t x.w.core x.w.gslot x.w.wid = some y ∧ (∀ l, inMask m l = true → vregN y dst n l = v l) ∧
    ∀ r l, l < 32 → inMask m l = false ∨ r < dst ∨ dst + n ≤ r → vreg y r l = vreg x.wp r l

theorem vregN_congr {y z : Warp} (h : y.vregs = z.vregs) (r n l : Nat) : vregN y r n l = vregN z r n l := by
  simp only [vregN, vreg, h]

theorem vecRead_past {s : State} {x : Iss} {g : Guard} {dst : BitVec 9} {n : Nat} {v : Nat → Nat} (hi : issuer s = some x)
    (hv : ∀ l, v l < 2 ^ (32 * n)) :
    VecRead (past x 1 (vecResult s x g dst n v)) x (guardMask x g) dst.toNat n v := by
  obtain ⟨z, hz, hkeep⟩ := warpAt_past (n := 1)
    (warpAt_modWarp_same (f := fun y => setVregN y dst.toNat n (guardMask x g) v) (issuer_warpAt hi))
  refine ⟨z, hz, fun l hl => ?_, fun r l hl hout => ?_⟩
  · rw [vregN_congr hkeep.vregs, vregN_setVregN _ _ _ _ hl, Nat.mod_eq_of_lt (hv l)]
  · have hne : ¬ ((dst.toNat ≤ r ∧ r < dst.toNat + n) ∧ inMask (guardMask x g) l = true) := by
      rintro ⟨hr, hm⟩
      rcases hout with h | h
      · rw [hm] at h
        cases h
      · omega
    have hread := vreg_setVregN x.wp dst.toNat n (guardMask x g) v r hl
    rw [if_neg hne] at hread
    rw [← hread]
    simp only [vreg, hkeep.vregs]

/-- An instruction that completes with a vector result leaves its state with the result read. -/
theorem reads_of_completes {s : State} {x : Iss} {g : Guard} {f : FA} {i : Instr} {v : Nat → Nat} (hi : issuer s = some x)
    (hexec : exec i s = .next (past x 1 (vecResult s x g f.dst (tyRegs f.ty) (fun l => extV f.ty (v l))))) :
    ∃ t y, exec i s = .next t ∧ warpAt t x.w.core x.w.gslot x.w.wid = some y ∧
      (∀ l, inMask (guardMask x g) l = true → vregN y f.dst.toNat (tyRegs f.ty) l = extV f.ty (v l)) ∧
      (∀ r l, l < 32 → inMask (guardMask x g) l = false ∨ r < f.dst.toNat ∨ f.dst.toNat + tyRegs f.ty ≤ r →
        vreg y r l = vreg x.wp r l) := by
  obtain ⟨y, hy, hin, hout⟩ := vecRead_past (g := g) (dst := f.dst) hi (fun l => extV_lt f.ty (v l))
  exact ⟨_, y, hexec, hy, hin, hout⟩

/-- Settles O13: O12's instructions leave their results, and a read of the state they leave finds them. -/
theorem oneSourceResultsAreRead : Obligations.OneSourceResultsAreRead := by
  unfold Obligations.OneSourceResultsAreRead
  intro s x g f n w m a b k reads
  have hcompletes := oneSourceAndShiftsComplete
  unfold Obligations.OneSourceAndShiftsComplete at hcompletes
  obtain ⟨hone, hshift⟩ := hcompletes s x g f
  refine ⟨fun h => ?_, fun h => ?_⟩
  · obtain ⟨h1, h2, h3, h4, h5, h6, h7, h8⟩ := hone h
    exact ⟨reads_of_completes h.1 h1, reads_of_completes h.1 h2, reads_of_completes h.1 h3, reads_of_completes h.1 h4,
      reads_of_completes h.1 h5, reads_of_completes h.1 h6, reads_of_completes h.1 h7, reads_of_completes h.1 h8⟩
  · obtain ⟨h1, h2, h3, h4⟩ := hshift h
    exact ⟨reads_of_completes h.1 h1, reads_of_completes h.1 h2, reads_of_completes h.1 h3, reads_of_completes h.1 h4⟩

/-! ### After a uniform instruction -/

theorem sreg_setSreg (k : Group) (r q : Nat) (v : W64) : sreg (setSreg k r v) q = if q = r then v else sreg k q := by
  simp only [sreg, setSreg, mapGet_mapSet]

theorem reads_of_completes_uniform {s : State} {x : Iss} {i : Instr} {dst : BitVec 9} {v : W64} (hi : issuer s = some x)
    (hexec : exec i s = .next (past x 1 (uniResult s x dst v))) :
    ∃ t k, exec i s = .next t ∧ groupAt t x.w.core x.w.gslot = some k ∧ sreg k dst.toNat = v ∧
      ∀ r, r ≠ dst.toNat → sreg k r = sreg x.grp r := by
  obtain ⟨ws, hk⟩ := groupAt_past (n := 1)
    (groupAt_modGroup_same (f := fun k => setSreg k dst.toNat v) (issuer_groupAt hi))
  have hread := sreg_setSreg x.grp dst.toNat (v := v)
  refine ⟨_, _, hexec, hk, ?_, fun r hr => ?_⟩
  · exact (hread _).trans (if_pos rfl)
  · exact (hread r).trans (if_neg hr)

theorem condOf_setCond {y : Warp} {c : Nat} (hc : c < y.conds.length) (v : Bool) (q : Nat) :
    condOf (setCond y c v) q = if q = c then v else condOf y q := by
  simp only [condOf, setCond, listSet_getD, hc, and_true]

/-- Settles O21: O20's instructions leave their results, and a read of the state they leave finds them. -/
theorem uniformResultsAreRead : Obligations.UniformResultsAreRead := by
  unfold Obligations.UniformResultsAreRead
  intro s x g f b i w p q a rnd reads out
  have hcompletes := uniformArithmeticCompletes
  unfold Obligations.UniformArithmeticCompletes at hcompletes
  obtain ⟨htwo, hone, hcmp, hsel, hfma, hmovi, hmovhi⟩ := hcompletes s x g f b i
  refine ⟨fun h => ?two, fun h => ?one, fun h hc => ?scmp, fun h => reads_of_completes_uniform h.1 (hsel h),
    fun h => reads_of_completes_uniform h.1 (hfma h), fun h => reads_of_completes_uniform h.1 (hmovi h),
    fun h => reads_of_completes_uniform h.1 (hmovhi h)⟩
  case two =>
    obtain ⟨h1, h2, h3, h4, h5, h6, h7, h8, h9, h10, h11, h12, h13, h14⟩ := htwo h
    exact ⟨reads_of_completes_uniform h.1 h1, reads_of_completes_uniform h.1 h2, reads_of_completes_uniform h.1 h3,
      reads_of_completes_uniform h.1 h4, reads_of_completes_uniform h.1 h5, reads_of_completes_uniform h.1 h6,
      reads_of_completes_uniform h.1 h7, reads_of_completes_uniform h.1 h8, reads_of_completes_uniform h.1 h9,
      reads_of_completes_uniform h.1 h10, reads_of_completes_uniform h.1 h11, reads_of_completes_uniform h.1 h12,
      reads_of_completes_uniform h.1 h13, reads_of_completes_uniform h.1 h14⟩
  case one =>
    obtain ⟨h1, h2, h3, h4, h5⟩ := hone h
    exact ⟨reads_of_completes_uniform h.1 h1, reads_of_completes_uniform h.1 h2, reads_of_completes_uniform h.1 h3,
      reads_of_completes_uniform h.1 h4, reads_of_completes_uniform h.1 h5⟩
  case scmp =>
    obtain ⟨z, hz, hkeep⟩ := warpAt_past (n := 1)
      (warpAt_modWarp_same (f := fun y => setCond y f.dst.toNat (compareAs f.ty (cmpOp f) p q)) (issuer_warpAt h.1))
    have hread := condOf_setCond hc (compareAs f.ty (cmpOp f) p q)
    have hz' : ∀ c, condOf z c = condOf (setCond x.wp f.dst.toNat (compareAs f.ty (cmpOp f) p q)) c := fun c => by
      simp only [condOf, hkeep.conds]
    refine ⟨_, z, hcmp h, hz, ?_, fun c hne => ?_⟩
    · rw [hz', hread, if_pos rfl]
    · rw [hz', hread, if_neg hne]

end Sys2Proof.Proofs
end

