-- ==== Sys2Proof/Proofs/BeforeEffect.lean ====
section
/-!
What comes before an instruction's effect (R134, R158, R208, R209, R218, R232). A word that stops a speculator or waits for
tokens runs through `runWord` with its shape's roles, guard and tokens, and its operands name the registers that `regsNamed`
lists; what stops it before its effect is then said once, for all of them.
-/
namespace Sys2Proof.Proofs
open Sys2Proof.Machine

/-! ### Every such word runs through `runWord` -/

/-- The tokens that a word waits for: a copy's, of five words, only where a lane passes its guard (R357). -/
def shapeTok (h : Shape) (x : Iss) : BitVec 8 := if h.words = 5 ∧ guardMask x h.guard = 0 then noTok else h.tok

/-- A register of the operands lies beyond a vector warp's count (R209). -/
def beyondCount (x : Iss) (os : List Opd) : Bool :=
  x.isVec && os.any (fun o => o.vregs.any (fun r => !x.hasRegs r.1 r.2))

/-- A word goes the way of every word, with the registers that it names. -/
def RunsAs (i : Instr) (h : Shape) (s : State) (x : Iss) : Prop :=
  ∃ ops body, exec i s = runWord h.roles h.stops h.words h.guard (shapeTok h x) ops body s ∧
    (h.tok ≠ 0 → beyondCount x (ops x (guardMask x h.guard)) = roleIllegal i x)

/-- An instruction that does not wait is issued. -/
theorem orWait_issue {s : State} {x : Iss} {again : Iss → Wait → State → Res} {issue : State → Out}
    (hx : issuer s = some x) (hw : x.sp.wait = none) : orWait again issue s = issue s := by
  simp only [orWait, hx, hw]

/-- The tokens of a copy's word. -/
theorem copyTwait_eq {s : State} {x : Iss} (hx : issuer s = some x) (g : Guard) (f : FCopy) :
    copyTwait g f s = shapeTok ⟨.copyOnly, true, 5, g, f.twait⟩ x := by
  by_cases hm : guardMask x g = 0 <;> simp [copyTwait, hx, shapeTok, hm]

@[simp] theorem shapeTok_one (roles : Roles) (stops : Bool) (g : Guard) (tw : BitVec 8) (x : Iss) :
    shapeTok ⟨roles, stops, 1, g, tw⟩ x = tw := by
  simp [shapeTok]

@[simp] theorem v_vregs (r n : Nat) (src : Nat → Nat) (fe : Bool) : (Opd.v r n src fe).vregs = [(r, n)] := rfl
@[simp] theorem u_vregs (r : Nat) (fe : Bool) : (Opd.u r fe).vregs = [] := rfl
@[simp] theorem vl_vregs (r n : Nat) : (Opd.vl r n).vregs = [(r, n)] := rfl
@[simp] theorem pre_vregs (m : W32) (b : Block) (fe : Bool) : (Opd.pre m b fe).vregs = [] := rfl

/-- The operand of a base address names the registers that `srcRegs` lists. -/
@[simp] theorem opBase_vregs (b : BitVec 9) (u fe : Bool) (n : Nat) : (opBase b u fe n).vregs = srcRegs u b n := by
  cases u <;> rfl

/-- The operands of a pair of base addresses name the registers that `srcRegs` lists. -/
theorem any_opPairBase (b : BitVec 9) (u fe : Bool) (p : Nat × Nat → Bool) :
    (opPairBase b u fe).any (fun o => o.vregs.any p) = (srcRegs u b 4).any p := by
  cases u <;> simp [opPairBase, srcRegs, Opd.vregs]

/-- A word of one unit whose operands are given. -/
theorem runsAs_of_runWord {i : Instr} {s : State} {x : Iss} {roles : Roles} {stops : Bool} {g : Guard} {tw : BitVec 8}
    {ops : Iss → W32 → List Opd} {body : Iss → W32 → State → Res}
    (he : exec i s = runWord roles stops 1 g tw ops body s)
    (hn : tw ≠ 0 → beyondCount x (ops x (guardMask x g)) = roleIllegal i x) : RunsAs i ⟨roles, stops, 1, g, tw⟩ s x :=
  ⟨ops, body, by rw [he, shapeTok_one], hn⟩

/-- A word of one unit that names no token. -/
theorem runsAs_of_noTok {i : Instr} {s : State} {x : Iss} {roles : Roles} {stops : Bool} {g : Guard}
    {ops : Iss → W32 → List Opd} {body : Iss → W32 → State → Res}
    (he : exec i s = runWord roles stops 1 g noTok ops body s) : RunsAs i ⟨roles, stops, 1, g, 0⟩ s x :=
  runsAs_of_runWord he (fun h => absurd rfl h)

/-- A word of one unit that waits after its issue. -/
theorem runsAs_of_orWait {i : Instr} {s : State} {x : Iss} {roles : Roles} {stops : Bool} {g : Guard} {tw : BitVec 8}
    {again : Iss → Wait → State → Res} {ops : Iss → W32 → List Opd} {body : Iss → W32 → State → Res}
    (hx : issuer s = some x) (hw : x.sp.wait = none) (he : exec i s = orWait again (runWord roles stops 1 g tw ops body) s)
    (hn : tw ≠ 0 → beyondCount x (ops x (guardMask x g)) = roleIllegal i x) : RunsAs i ⟨roles, stops, 1, g, tw⟩ s x :=
  runsAs_of_runWord (he.trans (orWait_issue hx hw)) hn

/-- No operand of a copy names a vector register. -/
theorem any_uOpds {α : Type} (p : α → Bool) (q : α → Opd) (vs : List α) (b : Nat × Nat → Bool)
    (hq : ∀ v, (q v).vregs = []) :
    (vs.filterMap (fun v => if p v then some (q v) else none)).any (fun o => o.vregs.any b) = false := by
  rw [List.any_eq_false]
  intro o ho
  obtain ⟨v, -, hv⟩ := List.mem_filterMap.1 ho
  split at hv
  · cases hv
    simp [hq v]
  · cases hv

/-- A copy's word tests its guard before its tokens. -/
theorem copyStart_runsAs {i : Instr} {op : Nat} {g : Guard} {f : FCopy} {s : State} {x : Iss} (hx : issuer s = some x)
    (he : exec i s = copyStart op g f s) (hn : roleIllegal i x = false) : RunsAs i ⟨.copyOnly, true, 5, g,
      f.twait⟩ s x := by
  unfold copyStart at he
  refine ⟨_, _, by rw [he, copyTwait_eq hx], fun _ => ?_⟩
  have hu := any_uOpds isSub (fun v => Opd.u (v.toNat % 256) false) (copyFields f) (fun r => !x.hasRegs r.1 r.2)
    (fun _ => rfl)
  rw [hn, beyondCount, List.any_append, hu]
  simp

/-- Every word that stops a speculator or waits for tokens goes the way of every word. -/
theorem exec_runsAs {i : Instr} {h : Shape} {s : State} {x : Iss} (hi : shapeOf i = some h) (hx : issuer s = some x)
    (hw : x.sp.wait = none) (hs : h.stops = true ∨ h.tok ≠ 0) : RunsAs i h s x := by
  cases i with
  | ld g f | ldx g f =>
    cases hi
    exact runsAs_of_runWord (by
        simp only [exec_ld, exec_ldx, execLd, execLdx, loadWord]
        rfl)
      (by simp [beyondCount, roleIllegal, regsNamed, Bool.or_comm])
  | st g f | stx g f =>
    cases hi
    exact runsAs_of_runWord (by
        simp only [exec_st, exec_stx, execSt, execStx, storeWord]
        rfl)
      (by simp [beyondCount, roleIllegal, regsNamed, Bool.or_comm])
  | ldl g f | stl g f | ost g f | ald g f =>
    cases hi
    exact runsAs_of_runWord (by
        simp only [exec_ldl, exec_stl, exec_ost, exec_ald, execLdl, execStl, execOst, execAld]
        rfl)
      (by simp [beyondCount, roleIllegal, regsNamed, Bool.or_comm])
  | ldu g f | stu g f | waitk g f | invl1 g f | fence g f | fencex g f | pref g f | mbara g f =>
    cases hi
    exact runsAs_of_runWord (by
        simp only [exec_ldu, exec_stu, exec_waitk, exec_invl1, exec_fence, exec_fencex, exec_pref, exec_mbara, execLdu,
          execStu, execWaitk, execInvl1, execFence, execFencex, execPref, execMbara]
        rfl)
      (by simp [beyondCount, roleIllegal, regsNamed])
  | atom g f | cas g f | atomr g f | datom g f =>
    cases hi
    exact runsAs_of_runWord (by
        simp only [exec_atom, exec_cas, exec_atomr, exec_datom, execAtom, execCas, execAtomr, execDatom]
        rfl)
      (by simp [beyondCount, roleIllegal, regsNamed, Bool.or_assoc, Bool.or_comm])
  | dcas g f | amov g f =>
    cases hi
    exact runsAs_of_runWord (by
        simp only [exec_dcas, exec_amov, execDcas, execAmov]
        rfl)
      (by simp [beyondCount, roleIllegal, regsNamed, any_opPairBase])
  | mdrain g f | emit g f | asave g f | vdsub g f =>
    cases hi
    exact runsAs_of_runWord (by
        simp only [exec_mdrain, exec_emit, exec_asave, exec_vdsub, execMdrain, execEmit, execAsave, execVdsub]
        rfl)
      (by simp [beyondCount, roleIllegal, regsNamed])
  | aload g f =>
    cases hi
    exact runsAs_of_runWord (by
        simp only [exec_aload, execAload]
        rfl)
      (by simp [beyondCount, roleIllegal, regsNamed])
  | bar g f | barspec g f | fempty g f | fefill g f | yield g f | region g f | stginit g f | evrd g f | aarm g f
  | adisarm g f | syscall g f | trap g f | brkpt g f =>
    cases hi
    exact runsAs_of_noTok (by
        simp only [exec_bar, exec_barspec, exec_fempty, exec_fefill, exec_yield, exec_region, exec_stginit, exec_evrd,
          exec_aarm, exec_adisarm, exec_syscall, exec_trap, exec_brkpt, execBar, execBarspec, execFempty, execFefill,
          execYield, execRegion, execStginit, execEvrd, execAarm, execAdisarm, execSyscall, execTrap, execBrkpt]
        rfl)
  | stgfill g f | stgfree g f =>
    cases hi
    exact runsAs_of_noTok (by
        simp only [exec_stgfill, exec_stgfree, execStgfill, execStgfree, stageOp]
        rfl)
  | mbarw g f | cpost g f | bqput g f | bqget g f =>
    cases hi
    exact runsAs_of_orWait hx hw (by
        simp only [exec_mbarw, exec_cpost, exec_bqput, exec_bqget, execMbarw, execCpost, execBqput, execBqget]
        rfl)
      (by simp [beyondCount, roleIllegal, regsNamed])
  | cwait g f | stgwait g f | calloc g f | cgate g f | evwait g f =>
    cases hi
    exact runsAs_of_orWait hx hw (by
        simp only [exec_cwait, exec_stgwait, exec_calloc, exec_cgate, exec_evwait, execCwait, execStgwait, execCalloc,
          execCgate, execEvwait]
        rfl) (fun h => absurd rfl h)
  | tcopy g f | tgather g f | tscatter g f | tfill g f =>
    cases hi
    exact copyStart_runsAs hx (by
        simp only [exec_tcopy, exec_tgather, exec_tscatter, exec_tfill]
        rfl)
      (by simp [roleIllegal, regsNamed])
  | _ => exact absurd hs (by cases hi <;> simp)

/-! ### A speculator stops -/

/-- A trap of a speculating warp stops its speculation. -/
theorem finish_trap_speculating {s : State} {x : Iss} {p : Spec} (hp : x.wp.spec = some p) (n : Nat) (c : Cause) (m : W32)
    (a k : Nat) : finish x n (.trap c m a k s) = .next (setBlocked (stopSpeculation s x.w) x.w (.barrier p.bar)) := by
  simp [finish, hp]

/-- A speculating warp stops at a word that stops a speculator, whatever its operands. -/
theorem runWord_stops {s : State} {x : Iss} {p : Spec} {roles : Roles} {n : Nat} {g : Guard} {tw : BitVec 8}
    {ops : Iss → W32 → List Opd} {body : Iss → W32 → State → Res} (hx : issuer s = some x) (hr : roles.allow x = true)
    (hp : x.wp.spec = some p) :
    runWord roles true n g tw ops body s = .next (setBlocked (stopSpeculation s x.w) x.w (.barrier p.bar)) := by
  simp only [runWord, hx]
  split
  · exact finish_trap_speculating hp ..
  · simp [hr, hp, finish]

/-- Settles O10: a word that stops a speculator stops it before its effect, and so does the trap of an ILLEGAL word. -/
theorem speculatorStops : Obligations.SpeculatorStops := by
  intro i h s x p hi hx hr hw hs hp
  obtain ⟨ops, body, he, -⟩ := exec_runsAs hi hx hw (.inl hs)
  rw [he, hs]
  exact runWord_stops hx hr hp

/-! ### An outstanding token holds its word -/

/-- The tests of `runWord` for a token that is outstanding. -/
theorem tokensBusy_of_not_free {y : Warp} {tw : BitVec 8} (h : tokensFree y tw = false) :
    (List.range 8).any (fun i => tw.getLsbD i && y.toks.getD i 0 != 0) = true := by
  simp only [tokensFree, List.all_eq_false] at h
  obtain ⟨i, hi, hb⟩ := h
  exact List.any_eq_true.2 ⟨i, hi, by simpa using hb⟩

/-- A word that names an outstanding token is held, or ILLEGAL by the registers of its operands. -/
theorem runWord_held {s : State} {x : Iss} {roles : Roles} {stops : Bool} {n : Nat} {g : Guard} {tw : BitVec 8}
    {ops : Iss → W32 → List Opd} {body : Iss → W32 → State → Res} (hx : issuer s = some x) (hr : roles.allow x = true)
    (hs : stops = true → x.wp.spec = none) (ht : tokensFree x.wp tw = false) :
    runWord roles stops n g tw ops body s =
      if beyondCount x (ops x (guardMask x g)) then finish x n (.trap .illegal x.sp.mask 0 0 s)
      else .next (setBlocked s x.w .nothing) := by
  have hspec : (stops && x.wp.spec.isSome) = false := by
    cases stops
    · rfl
    · simp [hs rfl]
  have hbusy := tokensBusy_of_not_free ht
  cases hb : beyondCount x (ops x (guardMask x g)) <;> unfold beyondCount at hb
  · simp only [runWord, hx, hr, hspec, hbusy, hb, Bool.not_true, Bool.false_eq_true, ↓reduceIte, finish]
  · simp [runWord, hx, hb]

/-- No token is outstanding of a mask that names none. -/
theorem tok_ne_zero_of_not_free {y : Warp} {tw : BitVec 8} (h : tokensFree y tw = false) : tw ≠ 0 := by
  rintro rfl
  simp [tokensFree] at h

/-- Settles O9: the test of the tokens comes before the operands and, but for a copy's, before the guard. -/
theorem tokenHoldsIssue : Obligations.TokenHoldsIssue := by
  intro i h s x hi hx hr hw hs ht hg
  have hne := tok_ne_zero_of_not_free ht
  obtain ⟨ops, body, he, hn⟩ := exec_runsAs hi hx hw (.inr hne)
  have htok : shapeTok h x = h.tok := if_neg (fun hc => hg hc.1 hc.2)
  rw [he, htok, runWord_held hx hr hs ht, hn hne]

end Sys2Proof.Proofs
end

