-- ==== Sys2Proof/Proofs/IllegalWords.lean ====
section
/-!
Two statements about what comes before an effect that fail, each by a word whose ILLEGAL test the statement leaves out: CALL
tests its link register before its role, and SYSCALL names vector registers that `regsNamed` does not list.
-/
namespace Sys2Proof.Proofs
open Sys2Proof.Machine

/-- The role of the counterexamples, running at address 0 with all its lanes. -/
def loneRole : Warp where
  part := 0
  wslot := 0
  rbase := 0
  vregs := []
  prods := []
  preds := []
  conds := []
  toks := []
  splits := [some { pc := 0, mask := BitVec.allOnes 32, fmt := 0, ctr := 0, entry := 0 }]
  wlist := []
  spilled := []
  lastSlot := 0
  run := .run
  halted := false
  pend := none
  parked := none
  spec := none
  wrote := []
  dcount := []
  seen := []
  blockedAt := 0
  expiryHeld := false
  sysOut := none
  aside := none
  saved := false
  freed := false

/-- Its group, whose warps have one vector register. -/
def loneGroup (wid : Nat) : Group where
  ctx := 0
  launch := 0
  gidx := 0
  region := 0
  tmpl := templateOf 0
  retiring := false
  warps := [(wid, loneRole)]
  sregs := []
  sempty := []
  uprods := []
  bars := []
  rings := []
  sbase := 0

/-- The device on which role `wid` of one group issues. -/
def loneState (wid : Nat) : State :=
  { modCore State.reset 0 (fun k => { k with groups := [(0, loneGroup wid)] }) with cur := ⟨0, 0, wid, 0⟩ }

/-- That role's split, as it issues. -/
def loneIss (wid : Nat) : Iss where
  w := ⟨0, 0, wid, 0⟩
  grp := loneGroup wid
  wp := loneRole
  sp := { pc := 0, mask := BitVec.allOnes 32, fmt := 0, ctr := 0, entry := 0 }

/-- How role `wid` stands after an instruction. -/
def runAfter (wid : Nat) (o : Out) : Option RunState :=
  match o with
  | .next s => (warpAt s 0 0 wid).map (·.run)
  | _ => none

/-- The cause of the trap at which role `wid` stands after an instruction. -/
def causeAfter (wid : Nat) (o : Out) : Option Cause :=
  match runAfter wid o with
  | some (.trapped r _ _) => some r.cause
  | _ => none

/-- CALL with the link register 256, which no uniform register is. -/
def badCall : Instr := .call ⟨false, 7⟩ ⟨0, 256, 0, false, 0, false, 0⟩

/-- SYSCALL under a predicate that no lane has, its operands beyond a warp's one register. -/
def badSyscall : Instr := .syscall ⟨false, 1⟩ ⟨2, 4, 6, false, false, false, .n64, 0, false, false, 0, 0⟩

/-- Refutes O7: role 65 of a group may issue no word, but CALL with link register 256 traps ILLEGAL there and not ROLE, since its
link register is tested first. -/
theorem not_otherRolesTrap : ¬ Obligations.OtherRolesTrap := by
  intro h
  have hrole := h badCall ⟨.all, false, 1, ⟨false, 7⟩, 0⟩ (loneState 65) (loneIss 65) rfl rfl (by decide) rfl rfl
  have hcause := congrArg (causeAfter 65) hrole
  have hillegal : causeAfter 65 (exec badCall (loneState 65)) = some .illegal := by decide
  rw [hillegal] at hcause
  exact absurd hcause (by decide)

/-- Refutes O8: SYSCALL names four registers from SRCA and two from DST, which `regsNamed` does not list, so with no lane past its
guard it traps ILLEGAL where `roleIllegal` says that it does not. -/
theorem not_noLaneNoEffect : ¬ Obligations.NoLaneNoEffect := by
  intro h
  have hpast := h badSyscall ⟨.vector, true, 1, ⟨false, 1⟩, 0⟩ (loneState 0) (loneIss 0) rfl rfl (by decide) rfl
    (fun _ => rfl) (.inr (by decide)) (by decide)
  have hcause := congrArg (causeAfter 0) hpast
  have hillegal : causeAfter 0 (exec badSyscall (loneState 0)) = some .illegal := by decide
  rw [hillegal] at hcause
  exact absurd hcause (by decide)

end Sys2Proof.Proofs
end

