-- ==== Sys2Proof/Proofs/ControlTransfers.lean ====
section
/-!
Control transfers, JOIN, EXIT, YIELD, FMT, status and logging (R261 to R272).
-/
namespace Sys2Proof.Proofs
open Sys2Proof.Machine

/-- A word whose own registers are good and whose conditions hold has its effect. -/
theorem runWordIf_ready {s : State} {x : Iss} {bad : Iss → Bool} {roles : Roles} {stops : Bool} {g : Guard}
    {ops : Iss → W32 → List Opd} {body : Iss → W32 → State → Res} (hb : bad x = false)
    (h : Ready s x roles stops g 0 (ops x (guardMask x g))) :
    runWordIf bad roles stops g ops body s = finish x 1 (body x (guardMask x g) s) := by
  simp only [runWordIf, h.1, hb]
  exact runWord_ready h

/-! ### Targets -/

/-- Targets that are aligned and in the user half are taken (R262). -/
theorem checkTargets_good {s : State} {ts : List (Nat × W64)} {k : State → Res}
    (h : ∀ t, t ∈ ts → t.2.toNat % 8 = 0 ∧ userVa t.2.toNat = true) : checkTargets s ts k = k s := by
  have hmis : ts.filter (fun t => t.2.toNat % 8 != 0) = [] := List.filter_eq_nil_iff.2 fun t ht => by simp [(h t ht).1]
  have hout : ts.filter (fun t => !userVa t.2.toNat) = [] := List.filter_eq_nil_iff.2 fun t ht => by simp [(h t ht).2]
  simp only [checkTargets, hmis, hout]
  rfl

/-- The lanes of the guard with their targets, good where every one is. -/
theorem checkTargets_lanes_good {s : State} {ls : List Nat} {t : Nat → W64} {k : State → Res}
    (h : ∀ l, l ∈ ls → (t l).toNat % 8 = 0 ∧ userVa (t l).toNat = true) :
    checkTargets s (ls.map (fun l => (l, t l))) k = k s :=
  checkTargets_good fun e he => by
    obtain ⟨l, hl, rfl⟩ := List.mem_map.1 he
    exact h l hl

/-- A test of the targets, made of the lanes. -/
theorem filter_targets (ls : List Nat) (t : Nat → W64) (q : W64 → Bool) :
    (ls.map (fun l => (l, t l))).filter (fun e => q e.2) = (ls.filter (fun l => q (t l))).map (fun l => (l, t l)) := by
  rw [List.filter_map]
  rfl

/-- The lowest lane's target heads the targets of some lanes. -/
theorem headD_targets {ls : List Nat} (h : ls ≠ []) (t : Nat → W64) :
    ((ls.map (fun l => (l, t l))).map (fun e => e.2.toNat)).headD 0 = (t (ls.headD 0)).toNat := by
  cases ls with
  | nil => exact absurd rfl h
  | cons a r => rfl

/-- The lanes of some lanes with their targets. -/
theorem map_fst_targets (ls : List Nat) (t : Nat → W64) : (ls.map (fun l => (l, t l))).map (·.1) = ls := by
  rw [List.map_map]
  exact List.map_id ls

/-- The refusal of misaligned targets names the lowest lane's target. -/
theorem checkTargets_misaligned {s : State} {ls mis : List Nat} {t : Nat → W64} {k : State → Res}
    (hm : ls.filter (fun l => (t l).toNat % 8 != 0) = mis) (h : mis ≠ []) :
    checkTargets s (ls.map (fun l => (l, t l))) k = .trap .align (maskOf mis) (t (mis.headD 0)).toNat 0 s := by
  simp only [checkTargets]
  rw [filter_targets ls t (fun v => v.toNat % 8 != 0), hm, headD_targets h, map_fst_targets, if_pos (by simp [h])]

/-- The refusal of targets outside the user half comes after that of misaligned ones. -/
theorem checkTargets_outside {s : State} {ls out : List Nat} {t : Nat → W64} {k : State → Res}
    (hm : ls.filter (fun l => (t l).toNat % 8 != 0) = []) (ho : ls.filter (fun l => !userVa (t l).toNat) = out) (h : out ≠ []) :
    checkTargets s (ls.map (fun l => (l, t l))) k = .trap .pageProtection (maskOf out) (t (out.headD 0)).toNat 3 s := by
  simp only [checkTargets]
  rw [filter_targets ls t (fun v => v.toNat % 8 != 0), hm, filter_targets ls t (fun v => !userVa v.toNat), ho,
    if_neg (by simp), headD_targets h, map_fst_targets, if_pos (by simp [h])]

/-! ### Where every lane moves -/

/-- The lanes of a mask that are all at one PC. -/
theorem distinct_map_const {α β : Type} [BEq β] [LawfulBEq β] (ls : List α) (p : β) (h : ls ≠ []) :
    distinct (ls.map (fun _ => p)) = [p] := by
  cases ls with
  | nil => exact absurd rfl h
  | cons a r =>
    have hrest : ∀ r : List α, (r.map (fun _ => p)).foldl (fun acc x => if acc.contains x then acc else acc ++ [x]) [p] = [p] := by
      intro r
      induction r with
      | nil => rfl
      | cons a r ih => simpa using ih
    exact hrest r

/-- A transfer of every active lane takes the split whole to the target (R261). -/
theorem transfer_all {s : State} {x : Iss} (hv : x.isVec = true) (hm : lanesOf x.sp.mask ≠ []) (p : W64) :
    transfer s x x.sp.mask (fun _ => p) = onWarp s x (fun y => y.setSplit x.w.slot ((y.split x.w.slot).map (fun q =>
      { q with pc := p, mask := x.sp.mask, hold := .none, blk := .none }))) := by
  have hmap : (lanesOf x.sp.mask).map (fun l => if inMask x.sp.mask l then p else x.sp.pc + 8) =
      (lanesOf x.sp.mask).map (fun _ => p) := List.map_congr_left fun l hl => by simp [(mem_lanesOf.1 hl).2]
  have hfilter : (lanesOf x.sp.mask).filter (fun l => (if inMask x.sp.mask l then p else x.sp.pc + 8) == p) =
      lanesOf x.sp.mask := List.filter_eq_self.2 fun l hl => by simp [(mem_lanesOf.1 hl).2]
  simp only [transfer, placeLanes, hv, ↓reduceIte, hmap, distinct_map_const _ p hm]
  simp only [sortBy, List.foldl, insertBy, hfilter, maskOf_lanesOf]

/-- A lane passes the guard of an issued word. -/
theorem lanesOf_ne_nil {m : W32} (h : m ≠ 0) : lanesOf m ≠ [] := by
  intro hn
  apply h
  rw [← maskOf_lanesOf m, hn]
  rfl

/-! ### Tables of targets -/

/-- What a list without a key twice holds for one of its keys. -/
theorem mapGet_of_mem {α : Type} {m : List (Nat × α)} (hn : (m.map (·.1)).Nodup) {k : Nat} {v : α} (h : (k, v) ∈ m) (d : α) :
    mapGet m k d = v := by
  induction m with
  | nil => cases h
  | cons e r ih =>
    obtain ⟨j, u⟩ := e
    rw [List.map_cons, List.nodup_cons] at hn
    rw [mapGet]
    rcases List.mem_cons.1 h with heq | hr
    · cases heq
      exact if_pos rfl
    · have hne : j ≠ k := fun hj => hn.1 (hj ▸ List.mem_map.2 ⟨(k, v), hr, rfl⟩)
      rw [if_neg hne]
      exact ih hn.2 hr

/-- The lanes that an access reaches are lanes of the access, in their order. -/
theorem physLanes_lanes (s : State) (x : Iss) (kind : Nat) (accs : List (Nat × Nat)) :
    ((physLanes s x kind accs).map (·.1)).Sublist (accs.map (·.1)) := by
  induction accs with
  | nil => exact List.Sublist.refl _
  | cons a r ih =>
    simp only [physLanes, List.filterMap_cons] at ih ⊢
    split
    · exact ih.trans (List.sublist_cons_self _ _)
    · rename_i e he
      split at he
      · cases he
        exact ih.cons_cons _
      · cases he

theorem lanesOf_nodup (m : W32) : (lanesOf m).Nodup := List.nodup_range.filter _

theorem loadVals_lanes (s : State) (r : Req) (buf : SMap Byte) (olds : List Nat) :
    (loadVals s r buf olds).map (·.1) = r.lanes.map (·.lane) := by
  simp [loadVals]

theorem nowReq_lanes (s : State) (x : Iss) (w scope ord : Nat) (l1ok sync : Bool) (pas : List (Nat × Nat)) :
    (nowReq s x w scope ord l1ok sync pas).lanes.map (·.lane) = pas.map (·.1) := by
  simp [nowReq]

/-- The number in two registers. -/
theorem vregN_two (y : Warp) (r l : Nat) :
    vregN y r 2 l = (vreg y r l).toNat + (vreg y (r + 1) l).toNat * 4294967296 := by
  have hfold : vregN y r 2 l = 0 + (vreg y r l).toNat <<< (32 * 0) + (vreg y (r + 1) l).toNat <<< (32 * 1) := rfl
  rw [hfold, Nat.shiftLeft_eq, Nat.shiftLeft_eq]
  norm_num

theorem ofNat_toNat_word (v : W64) : BitVec.ofNat 64 v.toNat = v := by simp

/-- The lanes that a table's access reads for are lanes of the guard. -/
theorem tableVals_lanes (s u : State) (x : Iss) (kind w : Nat) (l1ok : Bool) (a : Nat → Nat) (v : Nat → W64) (m : W32) :
    (((loadVals u (nowReq u x w 0 0 l1ok false ((physLanes s x kind ((lanesOf m).map (fun l => (l, a l)))).map
      (fun p => (p.1, p.2.1)))) [] []).map (fun e => (e.1, v e.2))).map (·.1)).Sublist (lanesOf m) := by
  have hsub := physLanes_lanes s x kind ((lanesOf m).map (fun l => (l, a l)))
  have hlanes : ((lanesOf m).map (fun l => (l, a l))).map (·.1) = lanesOf m := by
    rw [List.map_map]
    exact List.map_id _
  rw [hlanes] at hsub
  have hkeys : ∀ vals : List (Nat × Nat), (vals.map (fun e => (e.1, v e.2))).map (·.1) = vals.map (·.1) := fun vals => by simp
  have hpas : ∀ pas : List (Nat × Nat × TlbEntry), (pas.map (fun p => (p.1, p.2.1))).map (·.1) = pas.map (·.1) := fun pas => by simp
  rw [hkeys, loadVals_lanes, nowReq_lanes, hpas]
  exact hsub

/-- The targets of a table are good where each lane's is. -/
theorem table_good {vals : List (Nat × W64)} {m : W32} (hs : (vals.map (·.1)).Sublist (lanesOf m))
    (hg : ∀ l, l ∈ lanesOf m → (mapGet vals l 0).toNat % 8 = 0 ∧ userVa (mapGet vals l 0).toNat = true) {e : Nat × W64}
    (he : e ∈ vals) : e.2.toNat % 8 = 0 ∧ userVa e.2.toNat = true := by
  have hl := hs.subset (List.mem_map.2 ⟨e, he, rfl⟩)
  have hget : mapGet vals e.1 0 = e.2 := mapGet_of_mem ((lanesOf_nodup m).sublist hs) he 0
  exact hget ▸ hg e.1 hl

/-- Two registers hold 64 bits. -/
theorem vregN_two_lt (y : Warp) (r l : Nat) : vregN y r 2 l < 18446744073709551616 := by
  have hlo : (vreg y r l).toNat < 4294967296 := (vreg y r l).isLt
  have hhi : (vreg y (r + 1) l).toNat < 4294967296 := (vreg y (r + 1) l).isLt
  rw [vregN_two]
  omega

theorem vregN_two_mod (y : Warp) (r l : Nat) : vregN y r 2 l % 18446744073709551616 = vregN y r 2 l :=
  Nat.mod_eq_of_lt (vregN_two_lt y r l)

/-- The target in a pair of registers. -/
theorem target_toNat (y : Warp) (r l : Nat) : (BitVec.ofNat 64 (vregN y r 2 l)).toNat = vregN y r 2 l :=
  Nat.mod_eq_of_lt (vregN_two_lt y r l)

/-- What a vector warp may issue, a word of every role may. -/
theorem Ready.all {s : State} {x : Iss} {stops : Bool} {g : Guard} {tw : BitVec 8} {os : List Opd}
    (h : Ready s x .vector stops g tw os) : x.isVec = true ∧ Ready s x .all stops g tw os := by
  obtain ⟨hi, hc, hr, hrest⟩ := h
  have hv : x.isVec = true := by simpa [Roles.allow, Roles.vector] using hr
  exact ⟨hv, hi, hc, by simp [Roles.allow, Roles.all, hv], hrest⟩

/-- RET in a vector warp: each lane's target is in its link registers. -/
theorem execRet_vector {s : State} {x : Iss} {g : Guard} {f : FJ} (hv : x.isVec = true) (hr : f.reg.toNat % 2 = 0)
    (h : Ready s x .all false g 0 [.v f.reg.toNat 2 id false]) :
    exec (.ret g f) s = finish x 1 (checkTargets s
      ((lanesOf (guardMask x g)).map (fun l => (l, BitVec.ofNat 64 (vregN x.wp f.reg.toNat 2 l))))
      (fun s => .jump (transfer s x (guardMask x g) (fun l => BitVec.ofNat 64 (vregN x.wp f.reg.toNat 2 l))))) := by
  rw [exec_ret, execRet]
  refine (runWordIf_ready (x := x) (by simp [badLink, hv, hr]) (by simpa [hv] using h)).trans ?_
  simp only [hv, ↓reduceIte]

/-- RET in another role: its target is in a uniform register. -/
theorem execRet_uniform {s : State} {x : Iss} {g : Guard} {f : FJ} (hv : x.isVec = false) (hr : f.reg.toNat < 256)
    (h : Ready s x .all false g 0 [.u f.reg.toNat false]) :
    exec (.ret g f) s = finish x 1 (checkTargets s
      ((lanesOf (guardMask x g)).map (fun l => (l, sreg x.grp f.reg.toNat)))
      (fun s => .jump (transfer s x (guardMask x g) (fun _ => sreg x.grp f.reg.toNat)))) := by
  rw [exec_ret, execRet]
  refine (runWordIf_ready (x := x) (by simp [badLink, hv, hr]) (by simpa [hv] using h)).trans ?_
  simp only [hv, Bool.false_eq_true, ↓reduceIte]

/-! ### The statements -/

/-- Settles O22: each transfer has its body's effect, its targets tested first. -/
theorem transfersComplete : Obligations.TransfersComplete := by
  refine ⟨fun s x g f => ⟨fun h => ⟨?bra, ?brc⟩, fun h => ?brv, fun hv hr h => ?callVec, fun hv hr h => ?callUni,
    fun hv hr hg h => ?retVec, fun hv hr hg h => ?retUni, fun hl hp hs hq he hg h => ?brx, fun ha h => ?brxBounds,
    fun hv hr h => ?retVecTraps, fun hv hr h => ?retUniTraps⟩, fun s x g f h hm => ?braWhole⟩
  case bra =>
    rw [exec_bra, execBra]
    exact runWord_ready h
  case brc =>
    rw [exec_brc, execBrc]
    exact runWord_ready h
  case brv =>
    rw [exec_brv, execBrv]
    exact runWord_ready h
  case callVec =>
    rw [exec_call, execCall]
    refine (runWordIf_ready (x := x) (by simp [badLink, hv, hr]) (by simpa [hv] using h)).trans ?_
    simp only [hv]
    rfl
  case callUni =>
    rw [exec_call, execCall]
    refine (runWordIf_ready (x := x) (by simp [badLink, hv, hr]) (by simpa [hv] using h)).trans ?_
    simp only [hv]
    rfl
  case retVec =>
    rw [execRet_vector hv hr h, checkTargets_lanes_good hg]
    rfl
  case retUni =>
    rw [execRet_uniform hv hr h, checkTargets_lanes_good hg]
    rfl
  case brx =>
    rw [exec_brx, execBrx]
    refine (runWord_ready h).trans ?_
    have habove : (lanesOf (guardMask x g)).filter (fun l => (vreg x.wp f.reg.toNat l).toNat > f.len.toNat) = [] :=
      List.filter_eq_nil_iff.2 fun l hm => by simpa using hl l hm
    simp only [habove, targetOf, withTranslation_held hp, hq, he, hs, ofNat_toNat_word, List.isEmpty_nil, Bool.not_true,
      Bool.false_eq_true, ↓reduceIte, Bool.or_false, Option.isSome_none, Bool.false_and]
    refine congrArg (finish x 1) (checkTargets_good fun e hm => ?_)
    refine table_good (m := guardMask x g) ?_ ?_ hm
    · exact tableVals_lanes s (dropWalks s x) x 0 8 _ _ (fun v => x.sp.pc + 8 + f.off.signExtend 64 <<< 3 + BitVec.ofNat 64 v) _
    · exact hg
  case brxBounds =>
    rw [exec_brx, execBrx]
    refine (runWord_ready h).trans ?_
    simp only []
    rw [if_pos (by simpa using ha)]
  case retVecTraps =>
    rw [execRet_vector hv hr h]
    refine ⟨fun hm => ?_, fun hm ho => ?_⟩
    · rw [checkTargets_misaligned (List.filter_congr fun l _ => ?_) hm, target_toNat]
      rw [target_toNat, Bool.eq_iff_iff]
      simp
    · rw [checkTargets_outside ?_ (List.filter_congr fun l _ => ?_) ho, target_toNat]
      · refine (List.filter_congr fun l _ => ?_).trans hm
        rw [target_toNat, Bool.eq_iff_iff]
        simp
      · rw [target_toNat, Bool.eq_iff_iff]
        simp
  case retUniTraps =>
    rw [execRet_uniform hv hr h]
    have hne := lanesOf_ne_nil h.2.2.2.2.2.1
    refine ⟨fun hm => ?_, fun hm ho => ?_⟩
    · rw [checkTargets_misaligned (List.filter_eq_self.2 fun l _ => by simpa using hm) hne]
    · rw [checkTargets_outside (List.filter_eq_nil_iff.2 fun l _ => by simpa using hm)
        (List.filter_eq_self.2 fun l _ => by simpa using ho) hne]
  case braWhole =>
    obtain ⟨hv, hall⟩ := Ready.all h
    have hne : lanesOf x.sp.mask ≠ [] := hm ▸ lanesOf_ne_nil h.2.2.2.2.2.1
    rw [exec_bra, execBra]
    refine (runWord_ready hall).trans ?_
    rw [hm, transfer_all hv hne]
    rfl

end Sys2Proof.Proofs
end

