-- ==== Sys2Proof/Proofs/StatusAndPairs.lean ====
section
/-!
JOIN, EXIT, NOP, YIELD, REGION, FMT, status and log words (R265 to R272), and pair words (R224 to R228).
-/
namespace Sys2Proof.Proofs
open Sys2Proof.Machine

/-- The split that issues is the one that `State.cur` names. -/
theorem issuer_w {s : State} {x : Iss} (h : issuer s = some x) : x.w = s.cur := by
  unfold issuer at h
  split at h
  · cases h
  · split at h
    · cases h
    · obtain ⟨q, -, rfl⟩ := Option.map_eq_some_iff.1 h
      rfl

/-- The end of an instruction leaves the split that issues. -/
@[simp] theorem past_cur (x : Iss) (n : Nat) (s : State) : (past x n s).cur = s.cur := by simp [past]

/-- EXIT ends its role where its last lane leaves (R266). -/
theorem execExit_ready {s : State} {x : Iss} {g : Guard} {j : FJ} (h : Ready s x .all true g 0 []) :
    exec (.exit g j) s = .next (checkExit (past x 1 (onSplit s x (fun q =>
      { q with mask := if x.isVec then q.mask &&& ~~~guardMask x g else 0 }))) x.w.core x.w.gslot x.w.wid) := by
  rw [exec_exit, execExit, runWord_ready h, finish, ← past]
  simp [issuer_w h.1]

/-- Settles O23: each word has its body's effect. -/
theorem statusAndControlComplete : Obligations.StatusAndControlComplete := by
  refine ⟨fun s x g j a i => ⟨fun h => ⟨?nop, fun hj => ?join⟩, fun h => ⟨execExit_ready h, ?region, fun hs => ?yield,
    fun hs hc => ?yieldSave,
    fun b hb hc => ?yieldReload⟩, fun hi h => ?setfmtImm, fun hi hv h => ?setfmtReg, fun h => ⟨?getfmt, ?rdcyc⟩,
      fun hi hv ht h => ?getsrLane,
    fun hi h => ?getsr, fun h => ⟨fun hp => ?plogOff, fun hp hf => ?plogFull, fun hp hf => ?plog⟩⟩,
      fun s x g j h hv hl => ?joinHeld⟩
  case nop =>
    rw [exec_nop, execNop]
    exact runWord_ready h
  case join =>
    rw [exec_join, execJoin]
    refine (runWord_ready h).trans ?_
    rw [if_neg (by cases hv : x.isVec <;> simp [hj, hv])]
    rfl
  case region =>
    rw [exec_region, execRegion]
    exact runWord_ready h
  case yield =>
    rw [exec_yield, execYield]
    refine (runWord_ready h).trans ?_
    simp only [hs]
    rfl
  case yieldSave =>
    rw [exec_yield, execYield]
    refine (runWord_ready h).trans ?_
    simp [Option.isSome_iff_ne_none.2 hs, hc]
    rfl
  case yieldReload =>
    rw [exec_yield, execYield]
    refine (runWord_ready h).trans ?_
    simp [hb, hc]
    rfl
  case setfmtImm =>
    rw [exec_setfmt, execSetfmt]
    refine (runWord_ready (x := x) (by simp only [hi]; exact h)).trans ?_
    simp only [hi, Bool.false_eq_true, ↓reduceIte]
    rw [if_neg (by omega)]
    rfl
  case setfmtReg =>
    rw [exec_setfmt, execSetfmt]
    refine (runWord_ready (x := x) (by simp only [hi]; exact h)).trans ?_
    simp only [hi, ↓reduceIte]
    rw [if_neg (by omega)]
    rfl
  case getfmt =>
    rw [exec_getfmt, execGetfmt]
    exact runWord_ready h
  case rdcyc =>
    rw [exec_rdcyc, execRdcyc]
    exact runWord_ready h
  case getsrLane =>
    rw [exec_getsr, execGetsr]
    refine (runWordIf_ready (x := x) (by simp [hi, hv, ht]) (by simpa [hi, hv] using h)).trans ?_
    simp only [hi, hv]
    rfl
  case getsr =>
    rw [exec_getsr, execGetsr]
    rcases hi with hi | ⟨hv, ht, hd⟩
    · have hlane : (i.imm == 1) = false := beq_eq_false_iff_ne.2 hi
      refine (runWordIf_ready (x := x) ?_ ?_).trans ?_ <;> simp only [hlane, Bool.false_and, Bool.false_eq_true, ↓reduceIte]
      · exact h
      · rfl
    · refine (runWordIf_ready (x := x) (by simp [hv, ht, hd]) (by simpa [hv] using h)).trans ?_
      simp only [hv, Bool.and_false]
      rfl
  case plogOff =>
    rw [exec_plog, execPlog]
    refine (runWord_ready h).trans ?_
    simp only [partNoOf, hp]
    rfl
  case plogFull =>
    rw [exec_plog, execPlog]
    refine (runWord_ready h).trans ?_
    simp only [partNoOf, hp, ge_iff_le, hf]
    rfl
  case plog =>
    rw [exec_plog, execPlog]
    refine (runWord_ready h).trans ?_
    simp only [partNoOf, hp, ge_iff_le, Nat.not_le.2 hf]
    rfl
  case joinHeld =>
    rw [exec_join, execJoin]
    refine (runWord_ready h).trans ?_
    simp only [hv, hl]
    rfl

/-! ### Pair words -/

/-- Each pair word runs its halves by the operation of its first half (R224). -/
theorem exec_pairInstr (p : Pop) (a : HalfArgs) (h : Half) (s : State) :
    exec (pairInstr ⟨p, a⟩ h) s = pairExec p (halfOp p) a h s := by
  cases p <;> rfl

/-- Settles O24: a pair word writes its first half, then its second. -/
theorem pairWordsComplete : Obligations.PairWordsComplete := by
  intro s x a h p h0 hready hb0 hb
  rw [exec_pairInstr, pairExec]
  refine (runWordIf_ready (x := x) ?_ hready).trans rfl
  rw [hb0, hb]
  rfl

end Sys2Proof.Proofs
end

