-- ==== Sys2Proof/Proofs/VectorAccesses.lean ====
section
/-!
Vector loads and stores (R304 to R312, R156, R158): what their translation, their test of poison and their issue do, and the
words LD, LDX, ST and STX.
-/
namespace Sys2Proof.Proofs
open Sys2Proof.Machine

/-! ### Translation and poison -/

section
variable {s : State} {x : Iss} {kind w : Nat} {accs : List (Nat × Nat)} {k : List (Nat × Nat × TlbEntry) → State → Res}

/-- Aligned lanes whose pages are held go on with their physical addresses (R186). -/
theorem withLanes_held (hm : misaligned w accs = []) (hp : pagesHeld s x kind accs = true) :
    withLanes s x kind w accs k = k (physLanes s x kind accs) (dropWalks s x) := by
  rw [← withTranslation_held (path := 0) (b := true) (k := k) hp, withLanes, hm]
  rfl

/-- A misaligned lane traps ALIGN (R304). -/
theorem withLanes_misaligned (hm : misaligned w accs ≠ []) :
    withLanes s x kind w accs k = .trap .align (blame (misaligned w accs)).1 (blame (misaligned w accs)).2 0 s := by
  rw [withLanes]
  exact if_pos (by simp [hm])

/-- A lane outside the user half traps PAGE_PROTECTION (R53). -/
theorem withTranslation_outside {path : Nat} {b : Bool} {out : List (Nat × Nat)} (ho : accs.filter (fun a => !userVa a.2) = out)
    (hne : out ≠ []) : withTranslation s x kind path b accs k = .trap .pageProtection (blame out).1 (blame out).2 kind s := by
  have htrap : translateLanes s x kind path b accs = .trap .pageProtection (blame out).1 (blame out).2 kind s := by
    rw [translateLanes, ho]
    exact if_pos (by simp [hne])
  rw [withTranslation, htrap]

theorem withLanes_outside {out : List (Nat × Nat)} (hm : misaligned w accs = []) (ho : accs.filter (fun a => !userVa a.2) = out)
    (hne : out ≠ []) : withLanes s x kind w accs k = .trap .pageProtection (blame out).1 (blame out).2 kind s := by
  rw [← withTranslation_outside (path := 0) (b := true) (k := k) ho hne, withLanes, hm]
  rfl

/-- Lines none of which is poisoned stop no access. -/
theorem withClean_clean {store : Bool} {pas : List (Nat × Nat × TlbEntry)} {k : State → Res}
    (h : poisoned s store w (pas.map (fun p => (p.1, p.2.1))) = []) : withClean s store w accs pas k = k s := by
  rw [withClean, h]
  rfl

end

/-! ### Issue -/

/-- A load of a warp that does not speculate: its requests, its registers to be written, its acquires. -/
def loadIssued (s : State) (x : Iss) (w dst : Nat) (tok : Option Nat) (scope ord : Nat) (sync l1 : Bool)
    (la : List LaneAcc) : State :=
  let r := sendReqs s x .load w scope ord tok (l1 && !x.sp.homeLd) sync (lineGroups la)
  let t := onWarp r.2 x (fun y => r.1.foldl (fun y i => produceV y i.1 dst (widRegs w) i.2) y)
  if ord % 2 = 1 then addAcqs t x r.1 scope else t

theorem loadLanes_plain {s : State} {x : Iss} (hs : x.wp.spec = none) (w dst : Nat) (tok : Option Nat) (scope ord : Nat)
    (sync l1 : Bool) (pas : List (Nat × Nat)) : loadLanes s x w dst tok scope ord sync l1 pas =
      .done (loadIssued s x w dst tok scope ord sync l1 (pas.map (fun p => { lane := p.1, pa := p.2, v := 0 }))) := by
  simp only [loadLanes, hs]
  rfl

theorem loadLanes_speculating {s : State} {x : Iss} {p : Spec} (hs : x.wp.spec = some p) (w dst : Nat) (tok : Option Nat)
    (scope ord : Nat) (sync l1 : Bool) (pas : List (Nat × Nat)) :
    loadLanes s x w dst tok scope ord sync l1 pas =
      specLoad s x p (nowReq s x w scope ord (l1 && !x.sp.homeLd) sync pas) (fun vals s =>
        .done (onWarp (sendNow s x w vals).2 x (fun y =>
          produceV y (sendNow s x w vals).1 dst (widRegs w) (maskOf (pas.map (·.1)))))) := by
  simp only [loadLanes, hs]

/-- The lines that a load of a speculating warp adds to its read set are those of its lanes. -/
theorem nowReq_pas (s : State) (x : Iss) (w scope ord : Nat) (l1ok sync : Bool) (pas : List (Nat × Nat)) :
    (nowReq s x w scope ord l1ok sync pas).lanes.map (·.pa) = pas.map (·.2) := by
  simp [nowReq]

section
variable {s : State} {x : Iss} {p : Spec} {r : Req} {k : List (Nat × Nat) → State → Res}

theorem specLoad_waits (h : specWaits s r = true) : specLoad s x p r k = .hold .nothing s := if_pos h

theorem specLoad_stops (h : specWaits s r = false) (hr : specReadSet p (specLines p r.w (r.lanes.map (·.pa))) = none) :
    specLoad s x p r k = specStop s x := by
  simp only [specLoad, h, hr]
  rfl

theorem specLoad_reads {p' : Spec} (h : specWaits s r = false)
    (hr : specReadSet p (specLines p r.w (r.lanes.map (·.pa))) = some p') : specLoad s x p r k =
      k (loadVals s r p.buf []) (onWarp (readNow s r) x (fun y => { y with spec := y.spec.map (fun _ => p') })) := by
  simp only [specLoad, h, hr]
  rfl

/-- A speculating warp that stops waits for its barrier (R158). -/
theorem finish_specStop (hs : x.wp.spec = some p) (n : Nat) :
    finish x n (specStop s x) = .next (setBlocked (stopSpeculation s x.w) x.w (.barrier p.bar)) := by
  simp [specStop, finish, hs]

end

/-- A store of a warp that does not speculate: its requests, and the lines it wrote. -/
theorem storeLanes_plain {s : State} {x : Iss} (hs : x.wp.spec = none) (w : Nat) (tok : Option Nat) (scope ord : Nat)
    (sync : Bool) (pas : List (Nat × Nat × Nat)) :
    storeLanes s x w tok scope ord sync pas =
      .done (noteWrites (sendReqs (squashCore s x.w.core (distinct (pas.map (fun p => lineOf p.2.1)))) x .store w scope ord tok
        false sync (lineGroups (pas.map (fun p => { lane := p.1, pa := p.2.1, v := p.2.2 })))).2 x.w
        (distinct (pas.map (fun p => lineOf p.2.1)))) := by
  simp only [storeLanes, hs]

theorem storeLanes_stops {s : State} {x : Iss} {p : Spec} (hs : x.wp.spec = some p) (w : Nat) {tok : Option Nat}
    (scope ord : Nat) (sync : Bool) {pas : List (Nat × Nat × Nat)}
    (hp : specStore p tok (pas.map (fun e => (e.2.1, bytesLE w e.2.2))) = none) :
    storeLanes s x w tok scope ord sync pas = specStop s x := by
  simp only [storeLanes, hs, hp]

theorem storeLanes_buffered {s : State} {x : Iss} {p p' : Spec} (hs : x.wp.spec = some p) (w : Nat) {tok : Option Nat}
    (scope ord : Nat) (sync : Bool) {pas : List (Nat × Nat × Nat)}
    (hp : specStore p tok (pas.map (fun e => (e.2.1, bytesLE w e.2.2))) = some p') :
    storeLanes s x w tok scope ord sync pas = .done (onWarp s x (specBuffer p p')) := by
  simp only [storeLanes, hs, hp]

/-! ### The words -/

section
variable {s : State} {x : Iss} {g : Guard} {f : FM}

/-- The operands of a load. -/
abbrev LoadReady (s : State) (x : Iss) (g : Guard) (f : FM) : Prop :=
  Ready s x .vector (f.ord != 0) g f.twait [opBase f.base f.u f.fe 2, .vl f.data.toNat (widRegs (widOf f.wid))]

/-- The operands of a store. -/
abbrev StoreReady (s : State) (x : Iss) (g : Guard) (f : FM) : Prop :=
  Ready s x .vector (f.ord != 0) g f.twait [opBase f.base f.u f.fe 2, .v f.data.toNat (widRegs (widOf f.wid)) id f.fe]

/-- The addresses of a vector access. -/
abbrev vecAccs (x : Iss) (g : Guard) (f : FM) : List (Nat × Nat) :=
  laneAddrs x (guardMask x g) f.base f.u f.off.toInt (widOf f.wid)

/-- A load's lanes are translated first. -/
theorem loadWord_translates (h : LoadReady s x g f) (sync : Bool) :
    ∃ k, loadWord g f sync s = finish x 1 (withLanes s x 0 (widOf f.wid) (vecAccs x g f) k) := by
  simp only [loadWord]
  exact ⟨_, runWord_ready h⟩

/-- A store's lanes are translated first. -/
theorem storeWord_translates (h : StoreReady s x g f) (sync : Bool) :
    ∃ k, storeWord g f sync s = finish x 1 (withLanes s x 1 (widOf f.wid) (vecAccs x g f) k) := by
  simp only [storeWord]
  exact ⟨_, runWord_ready h⟩

theorem loadWord_held (h : LoadReady s x g f) (sync : Bool) (hm : misaligned (widOf f.wid) (vecAccs x g f) = [])
    (hp : pagesHeld s x 0 (vecAccs x g f) = true)
    (hc : poisoned (dropWalks s x) false (widOf f.wid) ((physLanes s x 0 (vecAccs x g f)).map (fun p => (p.1, p.2.1))) = []) :
    loadWord g f sync s = finish x 1 (loadLanes (dropWalks s x) x (widOf f.wid) f.data.toNat (tokOf f.tse f.tslot)
      f.scope.toNat f.ord.toNat sync
      ((physLanes s x 0 (vecAccs x g f)).all (fun p => l1able p.2.1 p.2.2) && (!sync || f.scope.toNat < 3))
      ((physLanes s x 0 (vecAccs x g f)).map (fun p => (p.1, p.2.1)))) := by
  rw [loadWord]
  refine (runWord_ready h).trans ?_
  rw [withLanes_held hm hp, withClean_clean hc]

theorem storeWord_held (h : StoreReady s x g f) (sync : Bool) (hm : misaligned (widOf f.wid) (vecAccs x g f) = [])
    (hp : pagesHeld s x 1 (vecAccs x g f) = true)
    (hc : poisoned (dropWalks s x) (!sync) (widOf f.wid) ((physLanes s x 1 (vecAccs x g f)).map (fun p => (p.1, p.2.1))) = []) :
    storeWord g f sync s = finish x 1 (storeLanes (dropWalks s x) x (widOf f.wid) (tokOf f.tse f.tslot) f.scope.toNat
      f.ord.toNat sync ((physLanes s x 1 (vecAccs x g f)).map (fun p =>
        (p.1, p.2.1, vregN x.wp f.data.toNat (widRegs (widOf f.wid)) p.1 % 2 ^ (8 * widOf f.wid))))) := by
  rw [storeWord]
  refine (runWord_ready h).trans ?_
  rw [withLanes_held hm hp, withClean_clean hc]

/-- A load that speculates waits, stops its warp, or takes its value at once (R156, R158). -/
theorem loadLanes_ends {p : Spec} (hs : x.wp.spec = some p) (n w dst : Nat) (tok : Option Nat) (scope ord : Nat)
    (sync l1 : Bool) (pas : List (Nat × Nat)) :
    let q := nowReq s x w scope ord (l1 && !x.sp.homeLd) sync pas
    let o := finish x n (loadLanes s x w dst tok scope ord sync l1 pas)
    (specWaits s q = true → o = .next (setBlocked s x.w .nothing)) ∧
    (specWaits s q = false → specReadSet p (specLines p w (pas.map (fun e => e.2))) = none →
      o = .next (setBlocked (stopSpeculation s x.w) x.w (.barrier p.bar))) ∧
    (∀ p', specWaits s q = false → specReadSet p (specLines p w (pas.map (fun e => e.2))) = some p' →
      let r := sendNow (onWarp (readNow s q) x (fun y => { y with spec := y.spec.map (fun _ => p') })) x w (loadVals s q p.buf [])
      o = .next (past x n (onWarp r.2 x (fun y => produceV y r.1 dst (widRegs w) (maskOf (pas.map (fun e => e.1))))))) := by
  intro q o
  have hpas : q.lanes.map (·.pa) = pas.map (·.2) := nowReq_pas ..
  refine ⟨fun hw => ?_, fun hw hr => ?_, fun p' hw hr => ?_⟩
  · simp only [o]
    rw [loadLanes_speculating hs, specLoad_waits hw]
    rfl
  · simp only [o]
    rw [loadLanes_speculating hs, specLoad_stops hw (hpas ▸ hr)]
    exact finish_specStop hs n
  · simp only [o]
    rw [loadLanes_speculating hs, specLoad_reads hw (hpas ▸ hr)]
    rfl

/-- A store that speculates goes into the store buffer, or stops its warp (R156, R158). -/
theorem storeLanes_ends {p : Spec} (hs : x.wp.spec = some p) (n w : Nat) (tok : Option Nat) (scope ord : Nat) (sync : Bool)
    (pas : List (Nat × Nat × Nat)) :
    let put := specStore p tok (pas.map (fun e => (e.2.1, bytesLE w e.2.2)))
    let o := finish x n (storeLanes s x w tok scope ord sync pas)
    (put = none → o = .next (setBlocked (stopSpeculation s x.w) x.w (.barrier p.bar))) ∧
    (∀ p', put = some p' → o = .next (past x n (onWarp s x (specBuffer p p')))) := by
  intro put o
  refine ⟨fun hp => ?_, fun p' hp => ?_⟩
  · simp only [o]
    rw [storeLanes_stops hs w scope ord sync hp]
    exact finish_specStop hs n
  · simp only [o]
    rw [storeLanes_buffered hs w scope ord sync hp]
    rfl

/-- A misaligned lane traps ALIGN, one outside the user half PAGE_PROTECTION. -/
theorem withLanes_traps {o : Out} {kind w n : Nat} {accs : List (Nat × Nat)} {k : List (Nat × Nat × TlbEntry) → State → Res}
    (ho : o = finish x n (withLanes s x kind w accs k)) :
    let mis := accs.filter (fun a => a.2 % w ≠ 0)
    let out := accs.filter (fun a => userVa a.2 = false)
    (mis ≠ [] → o = finish x n (.trap .align (blame mis).1 (blame mis).2 0 s)) ∧
    (mis = [] → out ≠ [] → o = finish x n (.trap .pageProtection (blame out).1 (blame out).2 kind s)) := by
  intro mis out
  subst ho
  have hmis : misaligned w accs = mis := List.filter_congr fun a _ => by
    rw [Bool.eq_iff_iff]
    simp
  have hout : accs.filter (fun a => !userVa a.2) = out := List.filter_congr fun a _ => by simp
  refine ⟨fun hm => ?_, fun hm ho => ?_⟩
  · rw [withLanes_misaligned (hmis ▸ hm), hmis]
  · rw [withLanes_outside (hmis.trans hm) hout ho]

end

/-- Settles O25: a vector access is translated, tested for poison, and then issues. -/
theorem vectorAccessesIssue : Obligations.VectorAccessesIssue := by
  refine ⟨fun s x g f => ?load, fun s x g f => ?store, fun s x g f p => ?specLoad, fun s x g f p => ?specStore,
    fun s x g f => ?traps⟩
  case load =>
    intro w m accs u pas la h hs hm hp hc send fin l1
    refine ⟨?_, ?_⟩
    · rw [exec_ld, execLd, loadWord_held h false hm hp hc, loadLanes_plain hs]
      simp only [Bool.not_false, Bool.true_or, Bool.and_true, List.map_map]
      rfl
    · rw [exec_ldx, execLdx, loadWord_held h true hm hp hc, loadLanes_plain hs]
      simp only [Bool.not_true, Bool.false_or, List.map_map]
      rfl
  case store =>
    intro w n m accs u pas la lines h hs hm hp fin
    refine ⟨fun hc => ?_, fun hc => ?_⟩
    · rw [exec_st, execSt, storeWord_held h false hm hp hc, storeLanes_plain hs]
      simp only [List.map_map]
      rfl
    · rw [exec_stx, execStx, storeWord_held h true hm hp hc, storeLanes_plain hs]
      simp only [List.map_map]
      rfl
  case specLoad =>
    intro w accs u pas pa h hs hm hp hc l1 ends
    refine ⟨?_, ?_⟩
    · have hw := loadWord_held h false hm hp hc
      simp only [Bool.not_false, Bool.true_or, Bool.and_true] at hw
      simp only [ends, exec_ld, execLd, hw]
      exact loadLanes_ends hs ..
    · have hw := loadWord_held h true hm hp hc
      simp only [Bool.not_true, Bool.false_or] at hw
      simp only [ends, exec_ldx, execLdx, hw]
      exact loadLanes_ends hs ..
  case specStore =>
    intro w n accs u pas h hs hm hp put ends
    have hput : put = specStore p (tokOf f.tse f.tslot) ((pas.map (fun q =>
        (q.1, q.2.1, vregN x.wp f.data.toNat n q.1 % 2 ^ (8 * w)))).map (fun e => (e.2.1, bytesLE w e.2.2))) := by
      simp only [put, List.map_map]
      rfl
    refine ⟨fun hc => ?_, fun hc => ?_⟩
    · simp only [ends, exec_st, execSt, storeWord_held h false hm hp hc, hput]
      exact storeLanes_ends hs ..
    · simp only [ends, exec_stx, execStx, storeWord_held h true hm hp hc, hput]
      exact storeLanes_ends hs ..
  case traps =>
    intro w accs mis out traps
    refine ⟨fun h => ?_, fun h => ?_⟩
    · obtain ⟨k, hld⟩ := loadWord_translates h false
      obtain ⟨k', hldx⟩ := loadWord_translates h true
      exact ⟨withLanes_traps ((exec_ld g f s).trans hld), withLanes_traps ((exec_ldx g f s).trans hldx)⟩
    · obtain ⟨k, hst⟩ := storeWord_translates h false
      obtain ⟨k', hstx⟩ := storeWord_translates h true
      exact ⟨withLanes_traps ((exec_st g f s).trans hst), withLanes_traps ((exec_stx g f s).trans hstx)⟩

end Sys2Proof.Proofs
end

