-- ==== Sys2Proof/Proofs/WindowAndUniform.lean ====
section
/-!
Accesses of the group's window and accesses at one uniform address (R60, R303, R310, R311): LDL, STL, LDU and STU.
-/
namespace Sys2Proof.Proofs
open Sys2Proof.Machine

/-! ### The window -/

/-- The physical addresses of the window's offsets (R60). -/
abbrev windowPas (x : Iss) (offs : List (Nat × Int)) : List (Nat × Nat) := offs.map (fun o => (o.1, x.grp.sbase + o.2.toNat))

/-- The offsets of a window access. -/
abbrev vecOffs (x : Iss) (g : Guard) (f : FM) : List (Nat × Int) :=
  windowOffs x (guardMask x g) f.base f.u f.off.toInt (widOf f.wid)

/-- Offsets that are aligned and within the declared window (R60). -/
def InWindow (x : Iss) (w : Nat) (offs : List (Nat × Int)) : Prop :=
  ∀ o, o ∈ offs → o.2 % (w : Int) = 0 ∧ 0 ≤ o.2 ∧ o.2 + (w : Int) ≤ (x.grp.tmpl.sramsz : Int)

section
variable {s : State} {x : Iss} {w : Nat} {offs : List (Nat × Int)} {k : List (Nat × Nat) → Res}

theorem withWindow_misaligned {mis : List (Nat × Int)} (hm : offs.filter (fun o => o.2 % (w : Int) ≠ 0) = mis) (hne : mis ≠ []) :
    withWindow s x w offs k = .trap .align (maskOf (mis.map (·.1))) (wrapTo 64 ((mis.map (·.2)).headD 0)) 0 s := by
  have hmis : offs.filter (fun o => o.2 % (w : Int) != 0) = mis := (List.filter_congr fun o _ => by
    rw [Bool.eq_iff_iff]
    simp).trans hm
  simp only [withWindow, hmis]
  exact if_pos (by simp [hne])

theorem withWindow_outside {out : List (Nat × Int)} (hm : offs.filter (fun o => o.2 % (w : Int) ≠ 0) = [])
    (ho : offs.filter (fun o => o.2 < 0 ∨ o.2 + (w : Int) > (x.grp.tmpl.sramsz : Int)) = out) (hne : out ≠ []) :
    withWindow s x w offs k = .trap .window (maskOf (out.map (·.1))) (wrapTo 64 ((out.map (·.2)).headD 0)) 0 s := by
  have hmis : offs.filter (fun o => o.2 % (w : Int) != 0) = [] := (List.filter_congr fun o _ => by
    rw [Bool.eq_iff_iff]
    simp).trans hm
  have hout : offs.filter (fun o => o.2 < 0 || o.2 + (w : Int) > (x.grp.tmpl.sramsz : Int)) = out := (List.filter_congr fun o _ => by
    rw [Bool.eq_iff_iff]
    simp).trans ho
  simp only [withWindow, hmis, hout]
  exact (if_neg (by simp)).trans (if_pos (by simp [hne]))

theorem withWindow_inside (hm : offs.filter (fun o => o.2 % (w : Int) ≠ 0) = [])
    (ho : offs.filter (fun o => o.2 < 0 ∨ o.2 + (w : Int) > (x.grp.tmpl.sramsz : Int)) = []) :
    withWindow s x w offs k = k (offs.map (fun o => (o.1, o.2.toNat))) := by
  have hmis : offs.filter (fun o => o.2 % (w : Int) != 0) = [] := (List.filter_congr fun o _ => by
    rw [Bool.eq_iff_iff]
    simp).trans hm
  have hout : offs.filter (fun o => o.2 < 0 || o.2 + (w : Int) > (x.grp.tmpl.sramsz : Int)) = [] := (List.filter_congr fun o _ => by
    rw [Bool.eq_iff_iff]
    simp).trans ho
  simp only [withWindow, hmis, hout]
  rfl

/-- Good offsets are none of the refused ones. -/
theorem inWindow_filters (h : InWindow x w offs) : offs.filter (fun o => o.2 % (w : Int) ≠ 0) = [] ∧
    offs.filter (fun o => o.2 < 0 ∨ o.2 + (w : Int) > (x.grp.tmpl.sramsz : Int)) = [] := by
  refine ⟨List.filter_eq_nil_iff.2 fun o ho => ?_, List.filter_eq_nil_iff.2 fun o ho => ?_⟩
  · simpa using (h o ho).1
  · obtain ⟨-, hlo, hhi⟩ := h o ho
    simp only [decide_eq_true_eq]
    omega

end

section
variable {s : State} {x : Iss} {g : Guard} {f : FM}

abbrev LdlReady (s : State) (x : Iss) (g : Guard) (f : FM) : Prop :=
  Ready s x .vector false g f.twait [opBase f.base f.u f.fe 1, .vl f.data.toNat (widRegs (widOf f.wid))]

abbrev StlReady (s : State) (x : Iss) (g : Guard) (f : FM) : Prop :=
  Ready s x .vector false g f.twait [opBase f.base f.u f.fe 1, .v f.data.toNat (widRegs (widOf f.wid)) id f.fe]

/-- A window access whose lines are good: held back by a copy of its group, or issued (R70). -/
def windowIssue (s : State) (x : Iss) (store : Bool) (w : Nat) (offs : List (Nat × Nat)) (go : List (Nat × Nat) → Res) : Res :=
  if !(poisoned s store w (offs.map (fun o => (o.1, windowPa x.grp o.2)))).isEmpty then
    let b := offs.filter (fun a => (poisoned s store w (offs.map (fun o => (o.1, windowPa x.grp o.2)))).any (fun q => q.1 == a.1))
    poisonTrap s ((poisoned s store w (offs.map (fun o => (o.1, windowPa x.grp o.2)))).map (fun q => lineOf q.2)) (blame b).1 (blame b).2
  else if scoreboardHit s x store w (offs.map (·.2)) then .hold .nothing s
  else go (offs.map (fun o => (o.1, windowPa x.grp o.2)))

/-- LDL is a window access that loads. -/
theorem execLdl_ready (h : LdlReady s x g f) : exec (.ldl g f) s = finish x 1 (withWindow s x (widOf f.wid) (vecOffs x g f)
    (fun offs => windowIssue s x false (widOf f.wid) offs
      (loadLanes s x (widOf f.wid) f.data.toNat (tokOf f.tse f.tslot) 0 0 false false))) := by
  rw [exec_ldl, execLdl]
  exact runWord_ready h

/-- STL is a window access that stores. -/
theorem execStl_ready (h : StlReady s x g f) : exec (.stl g f) s = finish x 1 (withWindow s x (widOf f.wid) (vecOffs x g f)
    (fun offs => windowIssue s x true (widOf f.wid) offs (fun pas => storeLanes s x (widOf f.wid) (tokOf f.tse f.tslot) 0 0 false
      (pas.map (fun p => (p.1, p.2, vregN x.wp f.data.toNat (widRegs (widOf f.wid)) p.1 % 2 ^ (8 * widOf f.wid))))))) := by
  rw [exec_stl, execStl]
  exact runWord_ready h

variable {store : Bool} {w : Nat} {offs : List (Nat × Int)} {go : List (Nat × Nat) → Res}

theorem windowPas_eq (x : Iss) (offs : List (Nat × Int)) :
    (offs.map (fun o => (o.1, o.2.toNat))).map (fun o => (o.1, windowPa x.grp o.2)) = windowPas x offs := by
  rw [List.map_map]
  rfl

theorem windowIssue_held (hc : poisoned s store w (windowPas x offs) = [])
    (hb : scoreboardHit s x store w (offs.map (fun o => o.2.toNat)) = true) :
    windowIssue s x store w (offs.map (fun o => (o.1, o.2.toNat))) go = .hold .nothing s := by
  rw [windowIssue, windowPas_eq, hc, List.map_map]
  exact if_pos hb

theorem windowIssue_goes (hc : poisoned s store w (windowPas x offs) = [])
    (hb : scoreboardHit s x store w (offs.map (fun o => o.2.toNat)) = false) :
    windowIssue s x store w (offs.map (fun o => (o.1, o.2.toNat))) go = go (windowPas x offs) := by
  rw [windowIssue, windowPas_eq, hc, List.map_map]
  refine (if_neg (by simp)).trans (if_neg ?_)
  exact Bool.eq_false_iff.1 hb

/-- A window access that is refused, or held back by a copy (R60, R70, R304). -/
theorem window_ends {o : Out} (ho : o = finish x 1 (withWindow s x w offs (fun offs => windowIssue s x store w offs go))) :
    let mis := offs.filter (fun o => o.2 % (w : Int) ≠ 0)
    let out := offs.filter (fun o => o.2 < 0 ∨ o.2 + (w : Int) > (x.grp.tmpl.sramsz : Int))
    let first := fun (l : List (Nat × Int)) => wrapTo 64 ((l.map (fun o => o.2)).headD 0)
    (mis ≠ [] → o = finish x 1 (.trap .align (maskOf (mis.map (fun o => o.1))) (first mis) 0 s)) ∧
    (mis = [] → out ≠ [] → o = finish x 1 (.trap .window (maskOf (out.map (fun o => o.1))) (first out) 0 s)) ∧
    (mis = [] → out = [] → poisoned s store w (windowPas x offs) = [] →
      scoreboardHit s x store w (offs.map (fun o => o.2.toNat)) = true → o = .next (setBlocked s x.w .nothing)) := by
  intro mis out first
  subst ho
  refine ⟨fun hm => ?_, fun hm hne => ?_, fun hm hn hc hb => ?_⟩
  · rw [withWindow_misaligned rfl hm]
  · rw [withWindow_outside hm rfl hne]
  · rw [withWindow_inside hm hn, windowIssue_held hc hb]
    rfl

/-- A window access that is good issues. -/
theorem window_goes (hin : InWindow x w offs) (hc : poisoned s store w (windowPas x offs) = [])
    (hb : scoreboardHit s x store w (offs.map (fun o => o.2.toNat)) = false) :
    withWindow s x w offs (fun offs => windowIssue s x store w offs go) = go (windowPas x offs) := by
  obtain ⟨hm, ho⟩ := inWindow_filters hin
  rw [withWindow_inside hm ho, windowIssue_goes hc hb]

end

/-! ### One uniform address -/

section
variable {s : State} {x : Iss} {kind w va : Nat} {m : W32} {e : TlbEntry} {k : List (Nat × Nat × TlbEntry) → State → Res}

/-- The lanes of a mask that all find one entry. -/
theorem physLanes_hit (h : laneLookup s x (ctxOf s x.grp.ctx).pasid kind va = .hit e) (ls : List Nat) :
    physLanes s x kind (ls.map (fun l => (l, va))) = ls.map (fun l => (l, e.phys va, e)) := by
  simp [physLanes, List.filterMap_map, h]

theorem pagesHeld_hit (hu : userVa va = true) (h : laneLookup s x (ctxOf s x.grp.ctx).pasid kind va = .hit e) (ls : List Nat) :
    pagesHeld s x kind (ls.map (fun l => (l, va))) = true := by
  simp [pagesHeld, hu, h]

/-- A uniform access whose page is held goes on with its physical address. -/
theorem withWide_hit (hm : m ≠ 0) (ha : va % w = 0) (hu : userVa va = true)
    (h : laneLookup s x (ctxOf s x.grp.ctx).pasid kind va = .hit e) :
    withWide s x m kind w va k = k [(0, e.phys va, e)] (dropWalks s x) := by
  have hmis : misaligned w ((lanesOf m).map (fun l => (l, va))) = [] :=
    List.filter_eq_nil_iff.2 fun a ht => by
      obtain ⟨l, -, rfl⟩ := List.mem_map.1 ht
      simpa using ha
  rw [withWide, withLanes_held hmis (pagesHeld_hit hu h _), physLanes_hit h]
  cases hl : lanesOf m with
  | nil => exact absurd hl (lanesOf_ne_nil hm)
  | cons a r => rfl

theorem wideClean_clean {k : State → Res} (h : isPoisoned s (lineOf (e.phys va)) = false) :
    wideClean s m va [(0, e.phys va, e)] k = k s := by
  simp [wideClean, h]

/-- A uniform access that is refused names all lanes of the guard. -/
theorem withWide_traps {o : Out} {n : Nat} (hm : m ≠ 0) (ho : o = finish x n (withWide s x m kind w va k)) :
    (va % w ≠ 0 → o = finish x n (.trap .align (maskOf (lanesOf m)) va 0 s)) ∧
    (va % w = 0 → userVa va = false → o = finish x n (.trap .pageProtection (maskOf (lanesOf m)) va kind s)) := by
  subst ho
  have hblame : blame ((lanesOf m).map (fun l => (l, va))) = (maskOf (lanesOf m), va) := by
    rw [blame, List.map_map, List.map_map]
    refine Prod.ext (congrArg maskOf (List.map_id _)) ?_
    cases hl : lanesOf m with
    | nil => exact absurd hl (lanesOf_ne_nil hm)
    | cons a r => rfl
  have hfilter : ∀ (q : Nat → Bool), q va = true → ((lanesOf m).map (fun l => (l, va))).filter (fun a => q a.2) =
      (lanesOf m).map (fun l => (l, va)) := fun q hq => List.filter_eq_self.2 fun a ha => by
    obtain ⟨l, -, rfl⟩ := List.mem_map.1 ha
    exact hq
  have hne : (lanesOf m).map (fun l => (l, va)) ≠ [] := by simpa using lanesOf_ne_nil hm
  refine ⟨fun ha => ?_, fun ha hu => ?_⟩
  · have hmis : misaligned w ((lanesOf m).map (fun l => (l, va))) = (lanesOf m).map (fun l => (l, va)) :=
      hfilter (fun v => v % w != 0) (by simpa using ha)
    rw [withWide, withLanes_misaligned (by rw [hmis]; exact hne), hmis, hblame]
  · have hmis : misaligned w ((lanesOf m).map (fun l => (l, va))) = [] := List.filter_eq_nil_iff.2 fun a ht => by
      obtain ⟨l, -, rfl⟩ := List.mem_map.1 ht
      simpa using ha
    rw [withWide, withLanes_outside hmis (hfilter (fun v => !userVa v) (by simp [hu])) hne, hblame]

end
/-! ### LDU and STU -/

section
variable {s : State} {x : Iss} {g : Guard} {f : FM}

abbrev LduReady (s : State) (x : Iss) (g : Guard) (f : FM) : Prop :=
  Ready s x .all (f.ord != 0) g f.twait [.u f.base.toNat f.fe]

abbrev StuReady (s : State) (x : Iss) (g : Guard) (f : FM) : Prop :=
  Ready s x .all (f.ord != 0) g f.twait [.u f.base.toNat f.fe, .u f.data.toNat f.fe]

/-- LDU at the addresses that its translation gives. -/
def lduIssue (x : Iss) (f : FM) (pas : List (Nat × Nat × TlbEntry)) (s : State) : Res :=
  let w := widOf f.wid
  let l1 := pas.all (fun p => l1able p.2.1 p.2.2) && f.scope.toNat < 3 && !x.sp.homeLd
  match x.wp.spec with
  | some p => specLoad s x p (nowReq s x w f.scope.toNat f.ord.toNat l1 true (pas.map (fun q => (0, q.2.1)))) (fun vals s =>
      let (id, s) := sendNow s x w vals
      .done (onGroup s x (fun k => produceU k id f.data.toNat 0)))
  | none =>
    let la := pas.map (fun q => ({ lane := 0, pa := q.2.1, v := 0 } : LaneAcc))
    let (ids, s) := sendReqs s x .load w f.scope.toNat f.ord.toNat (tokOf f.tse f.tslot) l1 true [la]
    let s := onGroup s x (fun k => ids.foldl (fun k i => produceU k i.1 f.data.toNat 0) k)
    .done (if f.ord == 1 then addAcqs s x ids f.scope.toNat else s)

theorem execLdu_ready (h : LduReady s x g f) : exec (.ldu g f) s = finish x 1
    (withWide s x (guardMask x g) 0 (widOf f.wid) (uniformAddr x f.base f.off.toInt (widOf f.wid)) (fun pas s =>
      wideClean s (guardMask x g) (uniformAddr x f.base f.off.toInt (widOf f.wid)) pas (lduIssue x f pas))) := by
  rw [exec_ldu, execLdu]
  exact runWord_ready h

theorem execStu_ready (h : StuReady s x g f) : exec (.stu g f) s = finish x 1
    (withWide s x (guardMask x g) 1 (widOf f.wid) (uniformAddr x f.base f.off.toInt (widOf f.wid)) (fun pas s =>
      wideClean s (guardMask x g) (uniformAddr x f.base f.off.toInt (widOf f.wid)) pas (fun s =>
        storeLanes s x (widOf f.wid) (tokOf f.tse f.tslot) f.scope.toNat f.ord.toNat true
          (pas.map (fun p => (0, p.2.1, (sreg x.grp f.data.toNat).toNat % 2 ^ (8 * widOf f.wid))))))) := by
  rw [exec_stu, execStu]
  exact runWord_ready h

end

section
variable {s : State} {x : Iss} {g : Guard} {f : FM}

theorem execLdl_goes (h : LdlReady s x g f) (hin : InWindow x (widOf f.wid) (vecOffs x g f))
    (hc : poisoned s false (widOf f.wid) (windowPas x (vecOffs x g f)) = [])
    (hb : scoreboardHit s x false (widOf f.wid) ((vecOffs x g f).map (fun o => o.2.toNat)) = false) :
    exec (.ldl g f) s = finish x 1 (loadLanes s x (widOf f.wid) f.data.toNat (tokOf f.tse f.tslot) 0 0 false false
      (windowPas x (vecOffs x g f))) := by
  rw [execLdl_ready h, window_goes hin hc hb]

theorem execStl_goes (h : StlReady s x g f) (hin : InWindow x (widOf f.wid) (vecOffs x g f))
    (hc : poisoned s true (widOf f.wid) (windowPas x (vecOffs x g f)) = [])
    (hb : scoreboardHit s x true (widOf f.wid) ((vecOffs x g f).map (fun o => o.2.toNat)) = false) :
    exec (.stl g f) s = finish x 1 (storeLanes s x (widOf f.wid) (tokOf f.tse f.tslot) 0 0 false
      ((windowPas x (vecOffs x g f)).map (fun p =>
        (p.1, p.2, vregN x.wp f.data.toNat (widRegs (widOf f.wid)) p.1 % 2 ^ (8 * widOf f.wid))))) := by
  rw [execStl_ready h, window_goes hin hc hb]

variable {e : TlbEntry} (ha : uniformAddr x f.base f.off.toInt (widOf f.wid) % widOf f.wid = 0)
  (hu : userVa (uniformAddr x f.base f.off.toInt (widOf f.wid)) = true)
  (hc : isPoisoned (dropWalks s x) (lineOf (e.phys (uniformAddr x f.base f.off.toInt (widOf f.wid)))) = false)
include ha hu hc

theorem execLdu_goes (h : LduReady s x g f)
    (he : laneLookup s x (ctxOf s x.grp.ctx).pasid 0 (uniformAddr x f.base f.off.toInt (widOf f.wid)) = .hit e) :
    exec (.ldu g f) s =
      finish x 1 (lduIssue x f [(0, e.phys (uniformAddr x f.base f.off.toInt (widOf f.wid)), e)] (dropWalks s x)) := by
  rw [execLdu_ready h, withWide_hit h.2.2.2.2.2.1 ha hu he, wideClean_clean hc]

theorem execStu_goes (h : StuReady s x g f)
    (he : laneLookup s x (ctxOf s x.grp.ctx).pasid 1 (uniformAddr x f.base f.off.toInt (widOf f.wid)) = .hit e) :
    exec (.stu g f) s = finish x 1 (storeLanes (dropWalks s x) x (widOf f.wid) (tokOf f.tse f.tslot) f.scope.toNat f.ord.toNat
      true [(0, e.phys (uniformAddr x f.base f.off.toInt (widOf f.wid)),
        (sreg x.grp f.data.toNat).toNat % 2 ^ (8 * widOf f.wid))]) := by
  rw [execStu_ready h, withWide_hit h.2.2.2.2.2.1 ha hu he, wideClean_clean hc]
  rfl

end

theorem lduIssue_speculating {x : Iss} {f : FM} {p : Spec} {e : TlbEntry} {pa : Nat} (hs : x.wp.spec = some p) (s : State) :
    lduIssue x f [(0, pa, e)] s = specLoad s x p (nowReq s x (widOf f.wid) f.scope.toNat f.ord.toNat
      (l1able pa e && f.scope.toNat < 3 && !x.sp.homeLd) true [(0, pa)]) (fun vals s =>
        .done (onGroup (sendNow s x (widOf f.wid) vals).2 x (fun k =>
          produceU k (sendNow s x (widOf f.wid) vals).1 f.data.toNat 0))) := by
  simp only [lduIssue, hs, List.all_cons, List.all_nil, Bool.and_true, List.map_cons, List.map_nil]

theorem lduIssue_plain {x : Iss} {f : FM} {e : TlbEntry} {pa : Nat} (hs : x.wp.spec = none) (s : State) :
    lduIssue x f [(0, pa, e)] s =
      let r := sendReqs s x .load (widOf f.wid) f.scope.toNat f.ord.toNat (tokOf f.tse f.tslot)
        (l1able pa e && f.scope.toNat < 3 && !x.sp.homeLd) true [[{ lane := 0, pa := pa, v := 0 }]]
      let t := onGroup r.2 x (fun k => r.1.foldl (fun k i => produceU k i.1 f.data.toNat 0) k)
      .done (if f.ord == 1 then addAcqs t x r.1 f.scope.toNat else t) := by
  simp only [lduIssue, hs, List.all_cons, List.all_nil, Bool.and_true, List.map_cons, List.map_nil]

theorem distinct_single {α : Type} [BEq α] (a : α) : distinct [a] = [a] := rfl

/-- One access is one line's request. -/
theorem lineGroups_single (a : LaneAcc) : lineGroups [a] = [[a]] := by
  simp [lineGroups, distinct_single]

/-- Settles O26: a window access is tested against its window and the copies, a uniform one is translated once. -/
theorem windowAndUniformAccessesIssue : Obligations.WindowAndUniformAccessesIssue := by
  refine ⟨fun s x g f => ?window, fun s x g f => ?windowEnds, fun s x g f p => ?windowSpec, fun s x g f => ?uniTraps,
    fun s x g f e p => ?uniSpec, fun s x g f e => ?uni⟩
  case window =>
    intro w n offs pas hs hin
    refine ⟨fun h hc hb => ?_, fun h hc hb => ?_⟩
    · rw [execLdl_goes h hin hc hb, loadLanes_plain hs]
      rfl
    · intro lines
      rw [execStl_goes h hin hc hb, storeLanes_plain hs]
      simp only [lines, pas, windowPas, List.map_map]
      rfl
  case windowEnds =>
    intro w n offs mis out first pas ends
    exact ⟨fun h => window_ends (execLdl_ready h), fun h => window_ends (execStl_ready h)⟩
  case windowSpec =>
    intro w n offs pas hs hin
    refine ⟨fun h hc hb => ?_, fun h hc hb p' hp => ?_⟩
    · intro q p' hw hr r
      rw [execLdl_goes h hin hc hb]
      exact (loadLanes_ends hs 1 w f.data.toNat (tokOf f.tse f.tslot) 0 0 false false pas).2.2 p' hw hr
    · rw [execStl_goes h hin hc hb]
      refine (storeLanes_ends hs 1 w (tokOf f.tse f.tslot) 0 0 false _).2 p' ?_
      rw [List.map_map]
      exact hp
  case uniTraps =>
    intro w va all traps
    exact ⟨fun h => withWide_traps h.2.2.2.2.2.1 (execLdu_ready h), fun h => withWide_traps h.2.2.2.2.2.1 (execStu_ready h)⟩
  case uniSpec =>
    intro w va u hs ha hu hc
    refine ⟨fun h he => ?_, fun h he p' hp => ?_⟩
    · intro q p' hw hr r
      rw [execLdu_goes ha hu hc h he, lduIssue_speculating hs]
      exact congrArg (finish x 1) (specLoad_reads hw hr)
    · rw [execStu_goes ha hu hc h he]
      exact (storeLanes_ends hs 1 w (tokOf f.tse f.tslot) f.scope.toNat f.ord.toNat true _).2 p' hp
  case uni =>
    intro w va u hs ha hu hc
    refine ⟨fun h he => ?_, fun h he => ?_⟩
    · rw [execLdu_goes ha hu hc h he, lduIssue_plain hs]
      rfl
    · rw [execStu_goes ha hu hc h he, storeLanes_plain hs]
      simp only [List.map_cons, List.map_nil, lineGroups_single, distinct_single]
      rfl

end Sys2Proof.Proofs
end

