-- ==== Sys2Proof/Proofs/FencesAndAtomics.lean ====
section
/-!
Prefetch, invalidation, waits and fences (R313 to R316), and the atomics (R72, R317 to R326).
-/
namespace Sys2Proof.Proofs
open Sys2Proof.Machine

/-! ### Fences -/

/-- Settles O27: each word has its body's effect, a fence once what it orders has been performed. -/
theorem prefetchAndFencesComplete : Obligations.PrefetchAndFencesComplete := by
  refine fun s x g f => ⟨fun h => ?pref, fun h => ?invl1, fun h => ?waitk, fun h => ⟨fun hr ha => ?fence, ?fencex⟩⟩
  case pref =>
    rw [exec_pref, execPref]
    exact runWord_ready h
  case invl1 =>
    rw [exec_invl1, execInvl1]
    exact runWord_ready h
  case waitk =>
    rw [exec_waitk, execWaitk]
    exact runWord_ready h
  case fence =>
    rw [exec_fence, execFence]
    refine (runWord_ready h).trans ?_
    have hrel : (f.ord.getLsbD 1 && !coreDrained s x) = false := by
      cases ho : f.ord.getLsbD 1
      · rfl
      · simp [hr ho]
    have hacq : (f.ord.getLsbD 0 && !syncReturned s x) = false := by
      cases ho : f.ord.getLsbD 0
      · rfl
      · simp [ha ho]
    simp only [hrel, hacq]
    rfl
  case fencex =>
    intro seen hd
    rw [exec_fencex, execFencex]
    refine (runWord_ready h).trans ?_
    simp only [hd, ↓reduceIte]
    rfl

/-! ### Atomics -/

/-- The conditions on the lanes of an atomic (R304, R319). -/
def AtomicLanes (s : State) (x : Iss) (w : Nat) (accs : List (Nat × Nat)) : Prop :=
  misaligned w accs = [] ∧ pagesHeld s x 2 accs = true ∧ badMemtype (physLanes s x 2 accs) = [] ∧
  poisoned (dropWalks s x) false w ((physLanes s x 2 accs).map (fun p => (p.1, p.2.1))) = []

theorem withAtomic_held {s : State} {x : Iss} {w : Nat} {accs : List (Nat × Nat)}
    {k : List (Nat × Nat × TlbEntry) → State → Res} (h : AtomicLanes s x w accs) :
    withAtomic s x w accs k = k (physLanes s x 2 accs) (dropWalks s x) := by
  obtain ⟨hm, hp, hb, hc⟩ := h
  rw [withAtomic, withLanes_held hm hp, hb]
  exact (if_neg (by simp)).trans (withClean_clean hc)

/-- An atomic is sent whole. -/
theorem sendAtomic_done (s : State) (x : Iss) (kind : ReqKind) (w scope ord : Nat) (tok : Option Nat) (dst : Option (Nat × Nat))
    (groups : List (List LaneAcc)) (sys : Nat → Bool) : ∃ t, sendAtomic s x kind w scope ord tok dst groups sys = .done t :=
  ⟨_, rfl⟩

/-- What an atomic sends is its end. -/
theorem atomic_ends {o : Out} {x : Iss} {r : Res} (hd : ∃ t, r = .done t) (ho : o = finish x 1 r) :
    ∃ t, r = .done t ∧ o = .next (past x 1 t) := by
  obtain ⟨t, ht⟩ := hd
  exact ⟨t, ht, by rw [ho, ht]; rfl⟩

/-! ### Atomics on two words -/

/-- The entry of an address that is not there. -/
def noEntry : TlbEntry where
  pasid := 0
  va := 0
  size := 0
  pa := 0
  w := false
  x := false
  nc := false
  noatom := false
  sysat := false

/-- The two physical addresses of a lane of a two-word atomic, with their entries (R322, R323). -/
def pairAt (pas : List (Nat × Nat × TlbEntry)) (l i : Nat) : Nat × Nat × TlbEntry :=
  (pas.filter (fun p => p.1 == l)).getD i (l, 0, noEntry)

/-- The rows of a two-word atomic: its lanes with their entries and addresses. -/
def pairRows (pas : List (Nat × Nat × TlbEntry)) (ls : List Nat) : List (Nat × TlbEntry × Nat × TlbEntry × Nat) :=
  ls.map (fun l => (l, (pairAt pas l 0).2.2, (pairAt pas l 0).2.1, (pairAt pas l 1).2.2, (pairAt pas l 1).2.1))

theorem pairAt_pa (pas : List (Nat × Nat × TlbEntry)) (l i : Nat) :
    (pairAt pas l i).2.1 = ((pas.filter (fun p => p.1 == l)).map (fun p => p.2.1)).getD i 0 := by
  simp only [pairAt, List.getD_eq_getElem?_getD, List.getElem?_map]
  cases (pas.filter (fun p => p.1 == l))[i]? <;> rfl

/-- An address of a lane is one of the access's, or none. -/
theorem pairAt_cases (pas : List (Nat × Nat × TlbEntry)) (l i : Nat) :
    pairAt pas l i ∈ pas ∨ ((pairAt pas l i).2.2.noatom = false ∧ (pairAt pas l i).2.2.sysat = false) := by
  simp only [pairAt, List.getD_eq_getElem?_getD]
  cases hq : (pas.filter (fun p => p.1 == l))[i]? with
  | none => exact .inr ⟨rfl, rfl⟩
  | some q => exact .inl (List.mem_of_mem_filter (List.mem_of_getElem? hq))

/-- No address of a lane refuses atomics or is a system-atomic one of host memory (R72). -/
theorem pairAt_good {pas : List (Nat × Nat × TlbEntry)} (hb : badMemtype pas = [])
    (hs : ∀ p, p ∈ pas → p.2.2.sysat = true → inHostMem p.2.1 = false) (l i : Nat) :
    (pairAt pas l i).2.2.noatom = false ∧ ((pairAt pas l i).2.2.sysat && inHostMem (pairAt pas l i).2.1) = false := by
  rcases pairAt_cases pas l i with hmem | ⟨hn, hs'⟩
  · refine ⟨?_, ?_⟩
    · have hall : pas.filter (fun p => p.2.2.noatom) = [] := List.map_eq_nil_iff.1 hb
      simpa using List.filter_eq_nil_iff.1 hall _ hmem
    · cases hsys : (pairAt pas l i).2.2.sysat
      · rfl
      · simp [hs _ hmem hsys]
  · simp [hn, hs']

/-- A two-word atomic whose lanes are good goes on with its rows. -/
theorem withPair_held {s : State} {x : Iss} {w : Nat} {as : List (Nat × Nat × Nat)}
    {k : List (Nat × TlbEntry × Nat × TlbEntry × Nat) → State → Res}
    (h : AtomicLanes s x w (as.flatMap (fun p => [(p.1, p.2.1), (p.1, p.2.2)])))
    (hs : ∀ p, p ∈ physLanes s x 2 (as.flatMap (fun p => [(p.1, p.2.1), (p.1, p.2.2)])) → p.2.2.sysat = true →
      inHostMem p.2.1 = false)
    (hh : ∀ l, l ∈ as.map (·.1) → inHostMem (pairAt (physLanes s x 2 (as.flatMap (fun p => [(p.1, p.2.1), (p.1, p.2.2)]))) l 0).2.1 =
      inHostMem (pairAt (physLanes s x 2 (as.flatMap (fun p => [(p.1, p.2.1), (p.1, p.2.2)]))) l 1).2.1) :
    withPair s x w as k = k (pairRows (physLanes s x 2 (as.flatMap (fun p => [(p.1, p.2.1), (p.1, p.2.2)]))) (as.map (·.1)))
      (dropWalks s x) := by
  obtain ⟨hm, hp, hb, hc⟩ := h
  have hbad : (pairRows (physLanes s x 2 (as.flatMap (fun p => [(p.1, p.2.1), (p.1, p.2.2)]))) (as.map (·.1))).filter
      (fun (_, e, a, f, b) => e.noatom || f.noatom || (e.sysat && inHostMem a) || (f.sysat && inHostMem b) ||
        inHostMem a != inHostMem b) = [] := List.filter_eq_nil_iff.2 fun q hq => by
    obtain ⟨l, hl, rfl⟩ := List.mem_map.1 hq
    obtain ⟨hn0, hs0⟩ := pairAt_good hb hs l 0
    obtain ⟨hn1, hs1⟩ := pairAt_good hb hs l 1
    simp only [hn0, hs0, hn1, hs1]
    simp [hh l hl]
  rw [withPair, withLanes_held hm hp]
  refine (if_neg ?_).trans (withClean_clean hc)
  change ¬ (!(List.filter _ (pairRows _ _)).isEmpty) = true
  rw [hbad]
  simp

/-- The lanes of a two-word atomic. -/
theorem pairAddrs_lanes (x : Iss) (m : W32) (base : BitVec 9) (u : Bool) : (pairAddrs x m base u).map (·.1) = lanesOf m := by
  rw [pairAddrs, List.map_map]
  refine (List.map_congr_left fun l _ => ?_).trans (List.map_id _)
  cases u <;> rfl

/-- Settles O28: an atomic is translated, tested for its memory type and for poison, and then sent. -/
theorem atomicsIssue : Obligations.AtomicsIssue := by
  intro s x g a r f u m ok
  refine ⟨?atom, ?atomr, ?pair, ?datom⟩
  case atom =>
    intro w n accs pas hok
    refine ⟨fun h => atomic_ends (sendAtomic_done ..) ?_, fun h => atomic_ends (sendAtomic_done ..) ?_⟩
    · rw [exec_atom, execAtom]
      refine (runWord_ready h).trans ?_
      exact congrArg (finish x 1) (withAtomic_held hok)
    · rw [exec_cas, execCas]
      refine (runWord_ready h).trans ?_
      exact congrArg (finish x 1) (withAtomic_held hok)
  case atomr =>
    intro w n accs pas hok h
    refine atomic_ends (sendAtomic_done ..) ?_
    rw [exec_atomr, execAtomr]
    refine (runWord_ready h).trans ?_
    exact congrArg (finish x 1) (withAtomic_held hok)
  case pair =>
    intro w n two accs at_ v hok hs hh
    have hlanes : two.map (·.1) = lanesOf m := pairAddrs_lanes ..
    have hpair : ∀ l, l ∈ two.map (·.1) → inHostMem (pairAt (physLanes s x 2 accs) l 0).2.1 =
        inHostMem (pairAt (physLanes s x 2 accs) l 1).2.1 := fun l hl => by
      rw [pairAt_pa, pairAt_pa]
      exact hh l (hlanes ▸ hl)
    refine ⟨fun h => atomic_ends (sendAtomic_done ..) ?_, fun h => atomic_ends (sendAtomic_done ..) ?_⟩
    · rw [exec_dcas, execDcas]
      refine (runWord_ready h).trans ?_
      refine (congrArg (finish x 1) (withPair_held hok hs ?_)).trans ?_
      · exact hpair
      · rw [hlanes, pairRows]
        simp only [List.map_map, Function.comp_def, pairAt_pa]
        rfl
    · rw [exec_amov, execAmov]
      refine (runWord_ready h).trans ?_
      refine (congrArg (finish x 1) (withPair_held hok hs ?_)).trans ?_
      · exact hpair
      · rw [hlanes, pairRows]
        simp only [List.map_map, Function.comp_def, pairAt_pa]
        rfl
  case datom =>
    intro w n accs pas cnt hok hp h
    rw [exec_datom, execDatom]
    refine (runWord_ready h).trans ?_
    obtain ⟨hm, hpages, hb, hc⟩ := hok
    have hbad : (pas.filter (fun p => p.2.2.noatom || inHostMem p.2.1)).map (·.1) = [] :=
      List.map_eq_nil_iff.2 (List.filter_eq_nil_iff.2 fun p hmem => by
        have hall : pas.filter (fun p => p.2.2.noatom) = [] := List.map_eq_nil_iff.1 hb
        have hn : p.2.2.noatom = false := by simpa using List.filter_eq_nil_iff.1 hall _ hmem
        simp [hn, (hp p hmem).1])
    have hcnt : pas.any (fun p => cnt p.1 + 1 ≥ 2 ^ 26) = false := List.any_eq_false.2 fun p hmem => by
      exact not_le.2 (hp p hmem).2 ∘ of_decide_eq_true
    refine (congrArg (finish x 1) (withLanes_held hm hpages)).trans (congrArg (finish x 1) (a₂ := .done _) ?_)
    refine (if_neg ?_).trans ((withClean_clean hc).trans ((if_neg ?_).trans ?_))
    · simp only [pas] at hbad
      simp [hbad]
    · exact Bool.eq_false_iff.1 hcnt
    · simp only [List.length_map]
      rfl

end Sys2Proof.Proofs
end

