-- ==== Sys2Proof/Proofs/BarriersAndStages.lean ====
section
/-!
Barriers and barrier words (R153 to R161), uniform full/empty, stage rings and waits for copies (R162 to R165, R361 to R367),
and operands that are not full (R66, R67).
-/
namespace Sys2Proof.Proofs
open Sys2Proof.Machine

/-! ### Barriers -/

/-- A uniform word of memory whose page is held and allows atomics (R161). -/
theorem withBarWord_held {s : State} {x : Iss} {m : W32} {f : FM} {e : TlbEntry}
    {k : List (Nat × Nat × TlbEntry) → State → Res} (hm : m ≠ 0) (ha : uniformAddr x f.base f.off.toInt 8 % 8 = 0)
    (hu : userVa (uniformAddr x f.base f.off.toInt 8) = true)
    (he : laneLookup s x (ctxOf s x.grp.ctx).pasid 2 (uniformAddr x f.base f.off.toInt 8) = .hit e) (hn : e.noatom = false)
    (hh : inHostMem (e.phys (uniformAddr x f.base f.off.toInt 8)) = false)
    (hc : isPoisoned (dropWalks s x) (lineOf (e.phys (uniformAddr x f.base f.off.toInt 8))) = false) :
    withBarWord s x m f k = k [(0, e.phys (uniformAddr x f.base f.off.toInt 8), e)] (dropWalks s x) := by
  rw [withBarWord, withWide_hit hm ha hu he]
  refine (if_neg ?_).trans (wideClean_clean hc)
  simp [hn, hh]

/-- Settles O29: a barrier holds its split, a barrier word is sent or waited for. -/
theorem barrierInstructionsComplete : Obligations.BarrierInstructionsComplete := by
  refine ⟨fun s x g f => ⟨fun h => ?bar, fun h hp => ⟨fun hr => ?barspec, fun hr => ?noRegion⟩⟩, fun s x g f e => ?words⟩
  case bar =>
    rw [exec_bar, execBar]
    exact runWord_ready h
  case barspec =>
    rw [exec_barspec, execBarspec]
    refine (runWord_ready h).trans ((congrArg (finish x 1) (withTranslation_held hp)).trans ?_)
    rw [if_pos (List.all_eq_true.2 hr)]
    rfl
  case noRegion =>
    rw [exec_barspec, execBarspec]
    refine (runWord_ready h).trans ((congrArg (finish x 1) (withTranslation_held hp)).trans ?_)
    obtain ⟨p, hmem, hp'⟩ := hr
    rw [if_neg fun hall => ?_]
    · rfl
    · simpa [hp'] using List.all_eq_true.1 hall p hmem
  case words =>
    intro va u pa ha hu he hn hh hc
    refine ⟨fun h => ?_, fun h hw => ?_⟩
    · rw [exec_mbara, execMbara]
      exact (runWord_ready h).trans (congrArg (finish x 1) (withBarWord_held h.2.2.2.2.2.1 ha hu he hn hh hc))
    · rw [exec_mbarw, execMbarw, orWait_issue h.1 hw]
      exact (runWord_ready h).trans (congrArg (finish x 1) (withBarWord_held h.2.2.2.2.2.1 ha hu he hn hh hc))

/-- The fields of a barrier word (R160). -/
theorem barrierWord_fields (phase expect rest count : BitVec 16) :
    let v := phase.toNat * 2 ^ 48 + expect.toNat * 2 ^ 32 + rest.toNat * 2 ^ 16 + count.toNat
    v % 2 ^ 16 = count.toNat ∧ bitsOf v 32 16 = expect.toNat ∧ bitsOf v 48 16 = phase.toNat ∧ bitsOf v 16 16 = rest.toNat := by
  have hp := phase.isLt
  have he := expect.isLt
  have hr := rest.isLt
  have hc := count.isLt
  simp only [bitsOf, Nat.shiftRight_eq_div_pow]
  norm_num at hp he hr hc ⊢
  omega

/-- Settles O30: the word's fields are read as they were put together. -/
theorem barrierWordArrival : Obligations.BarrierWordArrival := by
  intro phase expect rest count v
  obtain ⟨hcount, hexpect, hphase, hrest⟩ := barrierWord_fields phase expect rest count
  have hword : mbarWord v = if expect.toNat = 0 || count.toNat ≥ expect.toNat || rest.toNat != 0 then v
      else if count.toNat + 1 = expect.toNat then ((phase.toNat + 1) % 2 ^ 16) <<< 48 + expect.toNat <<< 32 else v + 1 := by
    rw [mbarWord, hcount, hexpect, hphase, hrest]
  rw [hword]
  refine ⟨fun h => if_pos ?_, fun hlt h0 h1 => ?_, fun hlt h0 h1 => ?_⟩
  · rcases h with rfl | h | h
    · rfl
    · simp [h]
    · have hr : rest.toNat ≠ 0 := fun h0 => h (BitVec.eq_of_toNat_eq (by simpa using h0))
      simp [hr]
  · rw [if_neg (by simp [h0]; omega), if_pos h1, Nat.shiftLeft_eq, Nat.shiftLeft_eq]
  · rw [if_neg (by simp [h0]; omega), if_neg h1]
    simp [v, h0, Nat.add_assoc]

/-! ### Operands that are not full -/

/-- The issue of a word but for its operands: it traps FE_EMPTY by those that trap, waits for the first that is empty, or has its
effect (R66, R67). -/
theorem runWord_issuable {s : State} {x : Iss} {roles : Roles} {stops : Bool} {n : Nat} {g : Guard} {tw : BitVec 8}
    {os : List Opd} {body : Iss → W32 → State → Res} (h : Issuable s x roles stops g tw os) :
    runWord roles stops n g tw (fun _ _ => os) body s =
      let bad := os.foldl (fun acc o => if o.traps then acc ||| o.emptyIn x (guardMask x g) else acc) 0
      finish x n (if bad != 0 then .trap .feEmpty bad 0 0 s
        else match os.find? (fun o => !o.traps && o.emptyIn x (guardMask x g) != 0) with
          | some o => .hold o.block s
          | none => body x (guardMask x g) s) := by
  obtain ⟨hi, hc, hr, hs, ht, hm⟩ := h
  have hspec : (stops && x.wp.spec.isSome) = false := by
    cases stops
    · rfl
    · simp [hs rfl]
  have htok : (List.range 8).any (fun i => tw.getLsbD i && x.wp.toks.getD i 0 != 0) = false := List.any_eq_false.2 fun i hi' => by
    have hall := List.all_eq_true.1 ht i hi'
    simpa [or_iff_not_imp_left] using hall
  have hcount : (x.isVec && os.any (fun o => o.vregs.any (fun (r, n) => !x.hasRegs r n))) = false := by
    cases hv : x.isVec
    · rfl
    · simp only [inCount, hv, Bool.not_true, Bool.false_or, List.all_eq_true] at hc
      rw [Bool.true_and, List.any_eq_false]
      intro o ho hany
      obtain ⟨r, hr', hn⟩ := List.any_eq_true.1 hany
      simp [hc o ho r hr'] at hn
  have hm' : (guardMask x g == 0) = false := beq_eq_false_iff_ne.2 hm
  simp only [runWord, hi, hcount, hr, hspec, htok, hm', Bool.not_true, Bool.false_eq_true, ↓reduceIte] <;> rfl

/-- The lanes in which an operand that traps is empty. -/
def emptyLanes (x : Iss) (m : W32) (os : List Opd) : W32 :=
  (os.filter (fun o => o.traps)).foldl (fun acc o => acc ||| o.emptyIn x m) 0

/-- Where no operand that traps is empty, the first that is empty is one that waits. -/
theorem find_waiting {x : Iss} {m : W32} {os : List Opd} (h : emptyLanes x m os = 0) :
    os.find? (fun o => !o.traps && o.emptyIn x m != 0) = os.find? (fun o => o.emptyIn x m != 0) := by
  have hzero : ∀ (l : List Opd) (acc : W32), l.foldl (fun acc o => acc ||| o.emptyIn x m) acc = 0 →
      acc = 0 ∧ ∀ o ∈ l, o.emptyIn x m = 0 := by
    intro l
    induction l with
    | nil => exact fun acc h => ⟨h, fun _ ho => nomatch ho⟩
    | cons a r ih =>
      intro acc hacc
      obtain ⟨hor, hr⟩ := ih _ hacc
      obtain ⟨ha, hb⟩ := BitVec.or_eq_zero_iff.1 hor
      exact ⟨ha, List.forall_mem_cons.2 ⟨hb, hr⟩⟩
  have hall := (hzero _ 0 h).2
  refine List.find?_congr fun o ho => ?_
  cases ht : o.traps
  · simp
  · simp [hall o (List.mem_filter.2 ⟨ho, ht⟩)]

/-- A word that is not full traps FE_EMPTY or waits (R66). -/
theorem notFull_ends {o : Out} {s : State} {x : Iss} {roles : Roles} {stops : Bool} {g : Guard} {tw : BitVec 8} {os : List Opd}
    {body : Iss → W32 → State → Res} (h : Issuable s x roles stops g tw os)
    (ho : o = runWord roles stops 1 g tw (fun _ _ => os) body s) :
    (emptyLanes x (guardMask x g) os ≠ 0 → o = finish x 1 (.trap .feEmpty (emptyLanes x (guardMask x g) os) 0 0 s)) ∧
    (emptyLanes x (guardMask x g) os = 0 → ∀ q, os.find? (fun q => q.emptyIn x (guardMask x g) != 0) = some q →
      o = .next (setBlocked s x.w q.block)) := by
  have hbad : os.foldl (fun acc o => if o.traps then acc ||| o.emptyIn x (guardMask x g) else acc) 0 =
      emptyLanes x (guardMask x g) os := by
    rw [emptyLanes, List.foldl_filter]
  rw [runWord_issuable h] at ho
  simp only [hbad] at ho
  subst ho
  refine ⟨fun hne => ?_, fun hz q hq => ?_⟩
  · rw [if_pos (by simpa using hne)]
  · rw [if_neg (by simp [hz]), find_waiting hz, hq]
    rfl

/-- A two-source integer word's operands. -/
theorem intA2_word (g : Guard) (f : FA) (op : Nat → Nat → Nat) (s : State) : ∃ body, intA2 g f op s =
    runWord .vector false 1 g noTok (fun _ _ => [opA f (tyRegs f.ty), opB f (tyRegs f.ty), .vd f.dst.toNat (tyRegs f.ty)]) body s := by
  simp only [intA2, vecA2]
  exact ⟨_, rfl⟩

/-- A two-source uniform word's operands. -/
theorem sInt2_word (g : Guard) (f : FA) (op : Nat → Nat → Nat) (s : State) : ∃ body, sInt2 g f op s =
    runWord .all false 1 g noTok
      (fun _ _ => [.u f.srca.toNat f.fea, .u f.srcb.toNat f.feb, .ud f.dst.toNat]) body s := by
  simp only [sInt2, sca2]
  exact ⟨_, rfl⟩

/-- A load's operands. -/
theorem loadWord_word (g : Guard) (f : FM) (sync : Bool) (s : State) : ∃ body, loadWord g f sync s =
    runWord .vector (f.ord != 0) 1 g f.twait
      (fun _ _ => [opBase f.base f.u f.fe 2, .vl f.data.toNat (widRegs (widOf f.wid))]) body s := by
  simp only [loadWord]
  exact ⟨_, rfl⟩

/-- A store's operands. -/
theorem storeWord_word (g : Guard) (f : FM) (sync : Bool) (s : State) : ∃ body, storeWord g f sync s =
    runWord .vector (f.ord != 0) 1 g f.twait
      (fun _ _ => [opBase f.base f.u f.fe 2, .v f.data.toNat (widRegs (widOf f.wid)) id f.fe]) body s := by
  simp only [storeWord]
  exact ⟨_, rfl⟩

/-- The two-source integer words differ in their operation. -/
theorem intWords (s : State) (g : Guard) (f : FA) : ∀ i ∈ ([.iadd g f, .isub g f, .imul g f, .imulh g f, .imin g f, .imax g f,
    .and_ g f, .or_ g f, .xor_ g f, .andn g f] : List Instr), ∃ op, exec i s = intA2 g f op s := by
  simp only [List.forall_mem_cons, List.not_mem_nil, IsEmpty.forall_iff, implies_true, and_true]
  exact ⟨⟨_, exec_iadd ..⟩, ⟨_, exec_isub ..⟩, ⟨_, exec_imul ..⟩, ⟨_, exec_imulh ..⟩, ⟨_, exec_imin ..⟩, ⟨_, exec_imax ..⟩,
    ⟨_, exec_and_ ..⟩, ⟨_, exec_or_ ..⟩, ⟨_, exec_xor_ ..⟩, ⟨_, exec_andn ..⟩⟩

/-- The two-source uniform words differ in their operation. -/
theorem uniformWords (s : State) (g : Guard) (f : FA) : ∀ i ∈ ([.sadd g f, .ssub g f, .smul g f, .smulh g f, .sand g f, .sor g f,
    .sxor g f, .sshl g f, .sshr g f, .ssar g f, .smin g f, .smax g f] : List Instr), ∃ op, exec i s = sInt2 g f op s := by
  simp only [List.forall_mem_cons, List.not_mem_nil, IsEmpty.forall_iff, implies_true, and_true]
  exact ⟨⟨_, exec_sadd ..⟩, ⟨_, exec_ssub ..⟩, ⟨_, exec_smul ..⟩, ⟨_, exec_smulh ..⟩, ⟨_, exec_sand ..⟩, ⟨_, exec_sor ..⟩,
    ⟨_, exec_sxor ..⟩, ⟨_, exec_sshl ..⟩, ⟨_, exec_sshr ..⟩, ⟨_, exec_ssar ..⟩, ⟨_, exec_smin ..⟩, ⟨_, exec_smax ..⟩⟩

theorem loadWords (s : State) (g : Guard) (l : FM) : ∀ i ∈ ([.ld g l, .ldx g l] : List Instr),
    ∃ sync, exec i s = loadWord g l sync s := by
  simp only [List.forall_mem_cons, List.not_mem_nil, IsEmpty.forall_iff, implies_true, and_true]
  exact ⟨⟨_, exec_ld ..⟩, ⟨_, exec_ldx ..⟩⟩

theorem storeWords (s : State) (g : Guard) (l : FM) : ∀ i ∈ ([.st g l, .stx g l] : List Instr),
    ∃ sync, exec i s = storeWord g l sync s := by
  simp only [List.forall_mem_cons, List.not_mem_nil, IsEmpty.forall_iff, implies_true, and_true]
  exact ⟨⟨_, exec_st ..⟩, ⟨_, exec_stx ..⟩⟩

/-! ### Stage rings -/

section
variable {s : State} {x : Iss} {g : Guard} {i : FI} {op : Stage → Option Stage}

/-- The stage that STGFILL and STGFREE name (R362). -/
def stageNo (x : Iss) (i : FI) : Nat :=
  if i.imm.getLsbD 23 then (sreg x.grp i.srca.toNat).toNat % 2 ^ 32 else i.imm.toNat / 4 % 8

variable (h : Ready s x .all true g 0 (if i.imm.getLsbD 23 then [.u i.srca.toNat i.fe] else []))
include h

theorem stageOp_missing (hn : stageOf x.grp (i.imm.toNat % 4) (stageNo x i) = none) :
    stageOp g i op s = finish x 1 (.trap .stage (guardMask x g) 0 0 s) := by
  rw [stageOp]
  refine (runWord_ready h).trans ?_
  rw [stageNo] at hn
  simp only [hn]

theorem stageOp_held {t : Stage} (ht : stageOf x.grp (i.imm.toNat % 4) (stageNo x i) = some t) (hr : groupReleased s x = false) :
    stageOp g i op s = .next (setBlocked s x.w .nothing) := by
  rw [stageOp]
  refine (runWord_ready h).trans ?_
  rw [stageNo] at ht
  simp only [ht, hr]
  rfl

theorem stageOp_refused {t : Stage} (ht : stageOf x.grp (i.imm.toNat % 4) (stageNo x i) = some t) (hr : groupReleased s x = true)
    (ho : op t = none) : stageOp g i op s = finish x 1 (.trap .stage (guardMask x g) 0 0 s) := by
  rw [stageOp]
  refine (runWord_ready h).trans ?_
  rw [stageNo] at ht
  simp only [ht, hr, ho]
  rfl

theorem stageOp_done {t t' : Stage} (ht : stageOf x.grp (i.imm.toNat % 4) (stageNo x i) = some t) (hr : groupReleased s x = true)
    (ho : op t = some t') :
    stageOp g i op s = .next (past x 1 (setStage s x.w.core x.w.gslot (i.imm.toNat % 4) (stageNo x i) t')) := by
  rw [stageOp]
  refine (runWord_ready h).trans ?_
  rw [stageNo] at ht
  simp only [ht, hr, ho]
  rfl

end

/-- Settles O31: each word has its body's effect, its operands tested first. -/
theorem fullEmptyStagesAndWaitsComplete : Obligations.FullEmptyStagesAndWaitsComplete := by
  refine ⟨fun s x g f => ⟨fun hu => ⟨fun h => ?fempty, fun h he => ⟨fun hr => ?fefill, fun hr => ?fefillWaits⟩⟩,
    fun hu h => ?femptyHeld, fun hu h => ?fefillHeld⟩, fun s x g i a => ?stages, fun s x g f l => ?empties⟩
  case fempty =>
    rw [exec_fempty, execFempty]
    refine (runWord_ready h).trans ?_
    simp only [hu]
    rfl
  case fefill =>
    rw [exec_fefill, execFefill]
    refine (runWord_ready h).trans ?_
    simp only [hu, he, hr]
    rfl
  case fefillWaits =>
    rw [exec_fefill, execFefill]
    refine (runWord_ready h).trans ?_
    simp only [hu, he, hr]
    rfl
  case femptyHeld =>
    rw [exec_fempty, execFempty]
    refine (runWord_ready h).trans ?_
    simp only [hu]
    rfl
  case fefillHeld =>
    rw [exec_fefill, execFefill]
    refine (runWord_ready h).trans ?_
    rw [if_pos (by simpa using hu)]
    rfl
  case stages =>
    intro m bad waits
    refine ⟨?op, fun h => ⟨fun hn ha => ?stginit, fun hb => ?stginitBad⟩, ⟨fun h => ⟨fun hn => ?qryBad, fun t ht => ?qry⟩,
      fun h hw => ⟨fun hn => ?waitBad, fun t ht => ?wait⟩⟩, fun h hw => ⟨fun he => ?cwaitDone, fun he => ?cwait⟩, fun h => ?cpoll⟩
    case op =>
      intro reg ring stage h
      simp only [exec_stgfill, exec_stgfree, execStgfill, execStgfree]
      refine ⟨fun hn => ⟨stageOp_missing h hn, stageOp_missing h hn⟩, fun t ht => ⟨fun hr => ⟨fun he => ⟨?_, ?_⟩, fun hne => ⟨?_, ?_⟩⟩,
        fun hr => ⟨stageOp_held h ht hr, stageOp_held h ht hr⟩⟩⟩
      · exact stageOp_refused h ht hr (by simp [Stage.free, he])
      · exact stageOp_done h ht hr (by simp [Stage.fill, he])
      · exact stageOp_refused h ht hr (by simp [Stage.fill, hne])
      · exact stageOp_done h ht hr (by simp [Stage.free, hne])
    case stginit =>
      rw [exec_stginit, execStginit]
      refine (runWord_ready h).trans ?_
      rw [if_neg (by simp [ha]; omega)]
      rfl
    case stginitBad =>
      rw [exec_stginit, execStginit]
      refine (runWord_ready h).trans ?_
      rw [if_pos (by simpa using hb)]
    case qryBad =>
      rw [exec_stgqry, execStgqry]
      refine (runWord_ready h).trans ?_
      simp only [hn]
      rfl
    case qry =>
      rw [exec_stgqry, execStgqry]
      refine (runWord_ready h).trans ?_
      simp only [ht]
      rfl
    case waitBad =>
      rw [exec_stgwait, execStgwait, orWait_issue h.1 hw]
      refine (runWord_ready h).trans ?_
      simp only [hn]
      rfl
    case wait =>
      rw [exec_stgwait, execStgwait, orWait_issue h.1 hw]
      refine (runWord_ready h).trans ?_
      simp only [ht]
      rfl
    case cwaitDone =>
      rw [exec_cwait, execCwait, orWait_issue h.1 hw]
      refine (runWord_ready h).trans ?_
      rw [if_pos (by simpa using he)]
      rfl
    case cwait =>
      rw [exec_cwait, execCwait, orWait_issue h.1 hw]
      refine (runWord_ready h).trans ?_
      rw [if_neg (by simpa using he)]
      rfl
    case cpoll =>
      rw [exec_cpoll, execCpoll]
      exact runWord_ready h
  case empties =>
    intro n w m ends
    refine ⟨fun h i hi => ?_, fun h i hi => ?_, fun h i hi => ?_, fun h i hi => ?_⟩
    · obtain ⟨op, hop⟩ := intWords s g f i hi
      obtain ⟨body, hbody⟩ := intA2_word g f op s
      exact notFull_ends h (hop.trans hbody)
    · obtain ⟨op, hop⟩ := uniformWords s g f i hi
      obtain ⟨body, hbody⟩ := sInt2_word g f op s
      exact notFull_ends h (hop.trans hbody)
    · obtain ⟨sync, hsync⟩ := loadWords s g l i hi
      obtain ⟨body, hbody⟩ := loadWord_word g l sync s
      exact notFull_ends h (hsync.trans hbody)
    · obtain ⟨sync, hsync⟩ := storeWords s g l i hi
      obtain ⟨body, hbody⟩ := storeWord_word g l sync s
      exact notFull_ends h (hsync.trans hbody)

/-! ### The answers of STGWAIT -/

/-- The distance that STGWAIT tests (R164). -/
theorem stage_distance (c p : BitVec 16) : (c.toNat + 2 ^ 16 - p.toNat % 2 ^ 16) % 2 ^ 16 = (c - p).toNat := by
  have hc := c.isLt
  have hp := p.isLt
  rw [BitVec.toNat_sub]
  omega

/-- STGWAIT without PARITY, by its distance. -/
theorem stageAnswer_plain (c p : BitVec 16) : stageAnswer c.toNat false p.toNat =
    if (c - p).toNat = 1 then some c.toNat
    else if 2 ≤ (c - p).toNat ∧ (c - p).toNat ≤ 2 ^ 15 then some (c.toNat + ((c - p).toNat - 1) * 2 ^ 16 + 2 ^ 32)
    else none := by
  rw [← stage_distance, ← Nat.shiftLeft_eq]
  rfl

/-- A fold that only one entry changes. -/
theorem foldl_only {α β : Type} {f : α → β → α} {l : List β} {i : β} (hn : l.Nodup) (hi : i ∈ l)
    (h : ∀ s, ∀ j ∈ l, j ≠ i → f s j = s) (s : α) : l.foldl f s = f s i := by
  have hkeep : ∀ (r : List β) (s : α), (∀ s, ∀ j ∈ r, f s j = s) → r.foldl f s = s := by
    intro r
    induction r with
    | nil => exact fun s _ => rfl
    | cons a r ih =>
      intro s hr
      rw [List.foldl_cons, hr s a List.mem_cons_self]
      exact ih s fun s j hj => hr s j (List.mem_cons_of_mem _ hj)
  induction l generalizing s with
  | nil => exact nomatch hi
  | cons a r ih =>
    obtain ⟨ha, hr⟩ := List.nodup_cons.1 hn
    rw [List.foldl_cons]
    rcases List.mem_cons.1 hi with rfl | hi'
    · exact hkeep r _ fun s j hj => h s j (List.mem_cons_of_mem _ hj) fun hji => ha (hji ▸ hj)
    · rw [h s a List.mem_cons_self fun hai => ha (hai ▸ hi')]
      exact ih hr hi' (fun s j hj => h s j (List.mem_cons_of_mem _ hj)) s

/-- A split does not wait for a stage. -/
def NoStage (q : Split) : Prop := ∀ r st e p o d n, q.wait ≠ some (.stg r st e p o d n)

/-- One split's STGWAIT evaluated (R163). -/
def evalStage (k : Group) (c g w : Nat) (y : Warp) (s : State) (i : Nat) : State :=
  match (y.split i).bind (fun q => q.wait) with
  | some (.stg r st eph par op _ id) =>
    match (stageOf k r st).bind (fun t => stageAnswer (t.counter eph) par op) with
    | some v => wakeSplit (modGroup s c g (fun k => arriveU k id v)) { core := c, gslot := g, wid := w, slot := i } 1
    | none => s
  | _ => s

theorem evalStages_eq {s : State} {c g : Nat} {k : Group} (h : groupAt s c g = some k) :
    evalStages s c g = k.warps.foldl (fun s z => (List.range 4).foldl (evalStage k c g z.1 z.2) s) s := by
  simp only [evalStages, h]
  rfl

theorem evalStage_noStage {k : Group} {c g w : Nat} {y : Warp} {i : Nat} (h : ∀ q, y.split i = some q → NoStage q) (s : State) :
    evalStage k c g w y s i = s := by
  unfold evalStage
  split
  · next r st eph par op d id hw =>
    obtain ⟨q, hq, hwait⟩ := Option.bind_eq_some_iff.1 hw
    exact absurd hwait (h q hq _ _ _ _ _ _ _)
  · rfl

theorem evalStage_stage {k : Group} {c g w r st op d id : Nat} {y : Warp} {i : Nat} {sp : Split} {eph par : Bool} {t : Stage}
    (hs : y.split i = some sp) (hw : sp.wait = some (.stg r st eph par op d id)) (ht : stageOf k r st = some t) (s : State) :
    evalStage k c g w y s i = match stageAnswer (t.counter eph) par op with
      | some v => wakeSplit (modGroup s c g (fun k => arriveU k id v)) { core := c, gslot := g, wid := w, slot := i } 1
      | none => s := by
  simp only [evalStage, hs, Option.bind_some, hw, ht]

/-- Settles O32: the answer by its distance, and the one split that waits evaluated. -/
theorem stageWaitAnswers : Obligations.StageWaitAnswers := by
  refine ⟨fun c p => ⟨?parity, fun h => ?same, fun h => ?next, fun hlo hhi => ?missed, fun h => ?behind⟩, ?eval⟩
  case parity =>
    by_cases hb : c.toNat % 2 = p.toNat % 2 <;> simp [stageAnswer, hb]
  case same =>
    subst h
    simp [stageAnswer_plain]
  case next =>
    subst h
    have hd : (p + 1 - p).toNat = 1 := by
      rw [BitVec.add_comm, BitVec.add_sub_cancel]
      rfl
    rw [stageAnswer_plain, if_pos hd]
  case missed => rw [stageAnswer_plain, if_neg (by omega), if_pos ⟨hlo, hhi⟩]
  case behind => rw [stageAnswer_plain, if_neg (by omega), if_neg (by omega)]
  case eval =>
    intro s c g k a b w i r st d op id y sp eph par t noWait hk hwarps hothers hslots hi hs hw ht n
    have hwarp : ∀ (z : Nat × Warp), z ∈ a ++ b → ∀ s, (List.range 4).foldl (evalStage k c g z.1 z.2) s = s := by
      intro z hz s
      refine (foldl_only List.nodup_range (List.mem_range.2 (Nat.zero_lt_succ 3)) (fun s j _ _ => ?_) s).trans ?_
      · exact evalStage_noStage (hothers z hz j) s
      · exact evalStage_noStage (hothers z hz 0) s
    have hrest : ∀ (l : List (Nat × Warp)) (s : State), (∀ z ∈ l, z ∈ a ++ b) →
        l.foldl (fun s z => (List.range 4).foldl (evalStage k c g z.1 z.2) s) s = s := by
      intro l
      induction l with
      | nil => exact fun s _ => rfl
      | cons z l ih =>
        intro s hl
        rw [List.foldl_cons, hwarp z (hl z List.mem_cons_self)]
        exact ih s fun z hz => hl z (List.mem_cons_of_mem _ hz)
    have heval : evalStages s c g = evalStage k c g w y s i := by
      rw [evalStages_eq hk, hwarps, List.foldl_append, hrest a s fun z hz => List.mem_append_left _ hz, List.foldl_cons,
        hrest b _ fun z hz => List.mem_append_right _ hz]
      exact foldl_only List.nodup_range (List.mem_range.2 hi) (fun s j _ hj => evalStage_noStage (hslots j · hj) s) s
    rw [heval, evalStage_stage hs hw ht]
    exact ⟨fun v hv => by rw [show t.counter eph = n from rfl, hv], fun hn => by rw [show t.counter eph = n from rfl, hn]⟩

end Sys2Proof.Proofs
end

