-- ==== Sys2Proof/Proofs/CopyStarts.lean ====
section
/-!
Copy starts (R353 to R358): what comes of a start whose tests all pass.
-/
namespace Sys2Proof.Proofs
open Sys2Proof.Machine

/-- The tokens that a copy waits for, where a lane passes its guard. -/
theorem copyTwait_some {s : State} {x : Iss} {g : Guard} (f : FCopy) (hx : issuer s = some x) (hm : guardMask x g ≠ 0) :
    copyTwait g f s = f.twait := by
  simp only [copyTwait, hx]
  exact if_neg (by simpa using hm)

/-- The four copy starts. -/
theorem exec_copyStart {op : Nat} (h : op < 4) (g : Guard) (f : FCopy) (s : State) :
    exec (if op = 0 then .tcopy g f else if op = 1 then .tgather g f else if op = 2 then .tscatter g f else .tfill g f) s =
      copyStart op g f s := by
  match op, h with
  | 0, _ => rfl
  | 1, _ => rfl
  | 2, _ => rfl
  | 3, _ => rfl

/-- Settles O33: the copy is in flight, retired at once, or its launch is faulted. -/
theorem copiesStart : Obligations.CopiesStart := by
  intro s x g f op es i a known c k hop h hlegal hbounds haligned hknown hes hslots hstage hbase hroom hentries hacqs t now
  have hready : Ready s x .copyOnly true g (copyTwait g f s) _ := (copyTwait_some f h.1 h.2.2.2.2.2.1).symm ▸ h
  have hk : (a.indexed && a.f 6 == 0 && (indexRegs a).any (fun r => uEmpty x.grp r)) = false := by
    cases hkn : known
    · simp [show (a.indexed && a.f 6 == 0) = false from hkn]
    · rw [Bool.and_eq_false_iff]
      exact .inr (List.any_eq_false.2 fun r hr => by simp [hknown hkn r hr])
  have hst : (f.stg && (stageOf x.grp c.ring c.stage).isNone) = false := by
    cases hf : f.stg
    · rfl
    · simpa using hstage hf
  have hbody : exec i s = finish x 5 (if c.count = 0 && c.mayRetire t x.w.core then .done (retireCopy t x.w.core { c with entries := es })
      else if isPeer f && (routePort t c.node).isNone then
        .done (regionFault t x.grp.ctx x.grp.region Cause.poison.code x.grp.launch x.die)
      else .done t) := by
    refine (exec_copyStart hop g f s).trans ?_
    rw [copyStart]
    refine (runWord_ready hready).trans (congrArg (finish x 5) ?_)
    refine (if_neg ?_).trans ((if_neg ?_).trans ((if_neg ?_).trans ((if_neg ?_).trans ?_)))
    · exact fun hn => by simp [a] at hlegal; simp [hlegal] at hn
    · exact fun hn => by simp [a] at hbounds; simp [hbounds] at hn
    · exact fun hn => by simp [a] at haligned; simp [haligned] at hn
    · exact fun hn => by simp [a, hn] at hk
    have hfull : (decide (k.copies.length ≥ 64) || decide ((k.copies.flatMap (fun q => q.entries)).length + es.length > 32)) = false := by
      simp only [Bool.or_eq_false_iff, decide_eq_false_iff_not]
      omega
    have hpend : (!(pendingAcqs { s with nextId := s.nextId + 1 } x).isEmpty) = false := by
      rw [show pendingAcqs { s with nextId := s.nextId + 1 } x = [] from hacqs]
      rfl
    have hcore : coreOf { s with nextId := s.nextId + 1 } x.w.core = k := rfl
    simp only [c, known, a] at hes hslots hst hbase
    simp only [freshId, hes, hcore, hslots, hst, hbase, hfull, hpend]
    rfl
  rw [hbody]
  refine ⟨fun hn => ?_, fun hn hr => ?_, fun hn hp hr => ?_⟩
  · rw [if_pos (by simpa using hn)]
    rfl
  · rw [if_neg (by simpa [now] using hn), if_neg ?_]
    · rfl
    · intro hnone
      simp only [Bool.and_eq_true, Option.isNone_iff_eq_none] at hnone
      simp [hnone.2] at hr
      exact absurd hnone.1 (by simp [hr])
  · rw [if_neg (by simpa [now] using hn), if_pos (by simp [hp, hr])]
    rfl

end Sys2Proof.Proofs
end

