-- ==== Sys2Proof/Proofs/MatrixInstructions.lean ====
section
/-!
The matrix instructions, OST and ALD (R330 to R351).
-/
namespace Sys2Proof.Proofs
open Sys2Proof.Machine

/-! ### Claims -/

/-- What another group holds makes a claim wait or fail. -/
def heldByOther (hs : List Holder) (g : Nat) : Bool :=
  hs.any (fun h => match h with
    | .held q => q != g
    | _ => false)

theorem heldByOther_iff (hs : List Holder) (g : Nat) : heldByOther hs g = true ↔ ∃ h q, h ∈ hs ∧ h = .held q ∧ q ≠ g := by
  rw [heldByOther, List.any_eq_true]
  constructor
  · rintro ⟨h, hm, hh⟩
    match h, hh with
    | .held q, hh => exact ⟨_, q, hm, rfl, by simpa using hh⟩
  · rintro ⟨h, q, hm, rfl, hq⟩
    exact ⟨_, hm, by simpa using hq⟩

/-- What is free or held by the group itself is held by no other. -/
theorem heldByOther_own {hs : List Holder} {g : Nat} (h : ∀ o,
  o ∈ hs → o = .free ∨ o = .held g) : heldByOther hs g = false := by
  rw [← Bool.not_eq_true, heldByOther_iff]
  rintro ⟨o, q, hm, rfl, hq⟩
  rcases h _ hm with h | h
  · cases h
  · exact hq (Holder.held.inj h)

/-- What is free or held by the group itself is held lazily by no context. -/
theorem lazyHolders_own {k : Core} {it : List Nat × List Nat} {g : Nat} (h : ∀ o,
  o ∈ holders k it → o = .free ∨ o = .held g) :
    lazyHolders k it = [] := by
  refine congrArg distinct (List.filterMap_eq_nil_iff.2 fun o ho => ?_)
  rcases h o ho with rfl | rfl <;> rfl

/-- MCLAIM past its tests (R330). -/
theorem execMclaim_ready {s : State} {x : Iss} {g : Guard} {f : FI} (h : Ready s x .matOnly false g 0 [])
    (hb : badBlocks (claimItems f.imm).2 = false) :
    execMclaim g f s = finish x 1 (
      if heldByOther (holders (coreOf s x.w.core) (claimItems f.imm)) x.w.gslot then
        (if f.imm.getLsbD 22 then .hold .nothing s
          else .done (onWarp (modCore s x.w.core (endClaim x.w.gslot)) x (fun y => setCond y f.dst.toNat false)))
      else if !(lazyHolders (coreOf s x.w.core) (claimItems f.imm)).isEmpty then
        .hold .nothing (modCore s x.w.core (fun k => { k with
          claimed := distinct (k.claimed ++ lazyHolders (coreOf s x.w.core) (claimItems f.imm))
          claims := k.claims.filter (fun q => q.1 != x.w.gslot) ++ [(x.w.gslot, (claimItems f.imm).1,
            (claimItems f.imm).2)] }))
      else .done (onWarp (modCore s x.w.core (fun k => endClaim x.w.gslot (takeItems k x.w.gslot (claimItems f.imm)))) x
        (fun y => setCond y f.dst.toNat true))) := by
  rw [execMclaim]
  refine (runWord_ready h).trans (congrArg (finish x 1) (if_neg ?_))
  simp [hb]

/-- MZERO past its tests (R341). -/
theorem execMzero_ready {s : State} {x : Iss} {g : Guard} {f : FI} (h : Ready s x .matOnly false g 0 [])
    (hb : badBlocks (claimItems f.imm).2 = false) (hh : allHeld (coreOf s x.w.core) x.w.gslot (claimItems f.imm) = true) :
    execMzero g f s = finish x 1 (
      if !mqRoom (coreOf s x.w.core) then .hold .nothing s
      else .done (modCore { s with nextId := s.nextId + 1 } x.w.core (fun k => { k with mq := k.mq ++ [{
        id := s.nextId
        gslot := x.w.gslot
        kind := .mzero ((claimItems f.imm).2.headD 0) (claimItems f.imm).2.length
        running := false }] }))) := by
  rw [execMzero]
  refine (runWord_ready h).trans (congrArg (finish x 1) ((if_neg ?_).trans ((if_neg ?_).trans rfl)))
  · simp [hb]
  · simp [hh]

/-! ### Tiles -/

/-- A tile's checks (R337): too large, or not held. -/
theorem tileTrap_large {k : Core} {g m n z : Nat} {slots : List Nat} (h : m * n > 131072 ∨ z + (m / 16) * (n / 16) > 512) :
    tileTrap k g m n z slots = some .accRange := by
  rw [tileTrap]
  exact if_pos (by simpa using h)

theorem tileTrap_fits {k : Core} {g m n z : Nat} {slots : List Nat} (h : ¬(m * n > 131072 ∨ z + (m / 16) *
  (n / 16) > 512)) :
    tileTrap k g m n z slots =
      if allHeld k g (slots, (List.range ((m / 16) * (n / 16))).map (fun i => z + i)) then none else some .slot := by
  rw [tileTrap]
  refine (if_neg (by simpa using h)).trans ?_
  cases allHeld k g (slots, (List.range ((m / 16) * (n / 16))).map (fun i => z + i)) <;> rfl

/-- An operand that MMA reads by its registers or its fields. -/
def mmaOperand (x : Iss) (u : Bool) (r : Nat) : Nat := if u then (sreg x.grp r).toNat else r

/-- MMA of a tile that is too large (R337). -/
theorem execMma_large {s : State} {x : Iss} {g : Guard} {f : FMma}
    (h : Ready s x .matOnly false g 0 (if f.u then [.u f.srca.toNat f.fea, .u f.srcb.toNat f.feb] else []))
    (hl : tileM f.mc.toNat * (16 * f.n.toNat) > 131072 ∨ f.dst.toNat + (tileM f.mc.toNat / 16) *
      (16 * f.n.toNat / 16) > 512) :
    execMma g f s = finish x 1 (.trap .accRange (guardMask x g) 0 0 s) := by
  rw [execMma]
  refine (runWord_ready h).trans (congrArg (finish x 1) ?_)
  simp only [tileTrap_large hl]

/-- MMA of a tile that fits (R337). -/
theorem execMma_fits {s : State} {x : Iss} {g : Guard} {f : FMma}
    (h : Ready s x .matOnly false g 0 (if f.u then [.u f.srca.toNat f.fea, .u f.srcb.toNat f.feb] else []))
    (hl : ¬(tileM f.mc.toNat * (16 * f.n.toNat) > 131072 ∨ f.dst.toNat + (tileM f.mc.toNat / 16) *
      (16 * f.n.toNat / 16) > 512)) :
    let p := mmaOperand x f.u f.srca.toNat
    let q := mmaOperand x f.u f.srcb.toNat
    let m := tileM f.mc.toNat
    let n := 16 * f.n.toNat
    execMma g f s = finish x 1 (
      if p ≥ 8 || q ≥ 8 then .trap .slot (guardMask x g) 0 0 s
      else if allHeld (coreOf s x.w.core) x.w.gslot ([p, q],
        (List.range ((m / 16) * (n / 16))).map (fun i => f.dst.toNat + i)) then
        if !mqRoom (coreOf s x.w.core) then .hold .nothing s
        else .done (modCore { s with nextId := s.nextId + 1 } x.w.core (fun k => { k with mq := k.mq ++ [{
          id := s.nextId
          gslot := x.w.gslot
          kind := .mma f.ty f.rnd.toNat f.sat m n p q f.dst.toNat (slotOf (coreOf s x.w.core) p).sx.toInt
            (slotOf (coreOf s x.w.core) q).sx.toInt
          running := false }] }))
      else .trap .slot (guardMask x g) 0 0 s) := by
  intro p q m n
  rw [execMma]
  refine (runWord_ready h).trans (congrArg (finish x 1) ?_)
  simp only [tileTrap_fits hl, p, q, m, n, mmaOperand]
  generalize allHeld _ _ ([_, _], _) = named
  generalize allHeld _ _ ([], _) = unnamed
  cases named <;> cases unnamed <;> rfl

/-! ### Drains -/

section drain
variable {s : State} {x : Iss} {g : Guard} {d : FM} {v base : Nat}

/-- MDRAIN whose operands can be read. -/
abbrev DrainReady (s : State) (x : Iss) (g : Guard) (d : FM) : Prop :=
  Ready s x .matOnly false g d.twait (.u d.base.toNat d.fe :: (List.range 8).map (fun q => Opd.u (d.data.toNat + q) d.fe))

/-- The rules of a drain's descriptor and base (R343). -/
def drainGood (v base : Nat) : Prop := drainLegal v = true ∧ (v.testBit 25 = true → base < 2 ^ 32)

theorem drainGood_iff (v base : Nat) : drainGood v base ↔ (!drainLegal v || (descBit v 25 && decide
  (base ≥ 2 ^ 32))) = false := by
  rw [drainGood, descBit, Bool.or_eq_false_iff, Bool.and_eq_false_imp, Bool.not_eq_false', decide_eq_false_iff_not, not_le]

theorem execMdrain_illegal (h : DrainReady s x g d) (hv : readDesc x.grp d.data.toNat = v)
    (hbase : (sreg x.grp d.base.toNat).toNat = base) (hg : ¬drainGood v base) :
    execMdrain g d s = finish x 1 (.trap .illegal (guardMask x g) 0 0 s) := by
  subst hv hbase
  rw [drainGood_iff, Bool.not_eq_false] at hg
  rw [execMdrain]
  exact (runWord_ready h).trans (congrArg (finish x 1) (if_pos hg))

/-- MDRAIN with a good descriptor (R344). -/
theorem execMdrain_good (h : DrainReady s x g d) (hv : readDesc x.grp d.data.toNat = v)
    (hbase : (sreg x.grp d.base.toNat).toNat = base) (hg : drainGood v base) {tile : Option Cause}
    (ht : tileTrap (coreOf s x.w.core) x.w.gslot (drainM v) (drainN v) (descFld v 0 9) [] = tile) {bad : Option
      (Cause × Nat)}
    (hd : drainTrap x.grp v base = bad) {r : Res}
    (hr : (match tile with
      | some c => .trap c (guardMask x g) 0 0 s
      | none => match bad with
        | some (c, va) => .trap c (guardMask x g) va (if c == .pageProtection && va == base then 1 else 0) s
        | none =>
          if !mqRoom (coreOf s x.w.core) || !(pendingAcqs s x).isEmpty then .hold .nothing s
          else .done (addToken (modCore { s with nextId := s.nextId + 1 } x.w.core
            (fun k => { k with drains := k.drains ++ [{
            id := s.nextId
            gslot := x.w.gslot
            desc := v
            base := base
            tok := tokOf d.tse d.tslot
            img := none
            waitPage := none }] })) x.w (tokOf d.tse d.tslot) 1)) = r) :
    execMdrain g d s = finish x 1 r := by
  subst hv hbase
  rw [drainGood_iff] at hg
  rw [execMdrain]
  refine (runWord_ready h).trans (congrArg (finish x 1) ((if_neg (Bool.eq_false_iff.1 hg)).trans ?_))
  · rw [ht, hd, ← hr]
    rcases tile with _ | c
    · rcases bad with _ | ⟨c, va⟩ <;> rfl
    · rfl
end drain

/-- MWAIT with nothing of its group left (R348). -/
theorem execMwait_done {s : State} {x : Iss} {g : Guard} {f : FI} (h : Ready s x .matOnly false g 0 [])
  (hw : x.sp.wait = none)
    (hq : ∀ q, q ∈ (coreOf s x.w.core).mq → q.gslot ≠ x.w.gslot) (hd : ∀ q,
      q ∈ (coreOf s x.w.core).drains → q.gslot ≠ x.w.gslot) :
    execMwait g f s = .next (past x 1 s) := by
  rw [execMwait, orWait_issue h.1 hw]
  refine (runWord_ready h).trans (congrArg (finish x 1) (if_pos ?_))
  have hmq : (coreOf s x.w.core).mq.filter (fun q => q.gslot == x.w.gslot) = [] :=
    List.filter_eq_nil_iff.2 fun q hm => by simpa using hq q hm
  have hdr : (coreOf s x.w.core).drains.filter (fun d => d.gslot == x.w.gslot) = [] :=
    List.filter_eq_nil_iff.2 fun q hm => by simpa using hd q hm
  simp [hmq, hdr]

/-! ### OST and ALD -/

section withMat
variable {s : State} {w : Nat} {as : List (Nat × Nat)} {inside held : Nat → Bool} {c : Cause} {k : Res}

/-- The tests of OST and ALD (R349, R350): by their addresses. -/
theorem withMat_traps {o : Out} {x : Iss} (ho : o = finish x 1 (withMat s w as (fun a => !inside a)
  (fun a => !held a) c k)) :
    let mis := as.filter (fun a => a.2 % w ≠ 0)
    let out := as.filter (fun a => inside a.2 = false)
    let free := as.filter (fun a => held a.2 = false)
    (mis ≠ [] → o = finish x 1 (.trap .align (blame mis).1 (blame mis).2 0 s)) ∧
    (mis = [] → out ≠ [] → o = finish x 1 (.trap c (blame out).1 0 0 s)) ∧
    (mis = [] → out = [] → free ≠ [] → o = finish x 1 (.trap .slot (blame free).1 0 0 s)) := by
  intro mis out free
  have hmis : misaligned w as = mis := List.filter_congr fun a _ => by
    rw [Bool.eq_iff_iff]
    simp
  have hout : as.filter (fun a => !inside a.2) = out := List.filter_congr fun a _ => by simp
  have hfree : as.filter (fun a => !held a.2) = free := List.filter_congr fun a _ => by simp
  subst ho
  simp only [withMat, hmis, hout, hfree]
  refine ⟨fun hm => congrArg _ (if_pos ?_), fun hm ho => congrArg _ ((if_neg ?_).trans (if_pos ?_)), fun hm ho hf =>
    congrArg _ ((if_neg ?_).trans ((if_neg ?_).trans (if_pos ?_)))⟩ <;> simp [*]

/-- OST and ALD past their tests. -/
theorem withMat_held (hm : misaligned w as = []) (hin : ∀ p, p ∈ as → inside p.2 = true ∧ held p.2 = true) :
    withMat s w as (fun a => !inside a) (fun a => !held a) c k = k := by
  have hout : as.filter (fun a => !inside a.2) = [] := List.filter_eq_nil_iff.2 fun a ha => by simp [(hin a ha).1]
  have hfree : as.filter (fun a => !held a.2) = [] := List.filter_eq_nil_iff.2 fun a ha => by simp [(hin a ha).2]
  simp only [withMat, hm, hout, hfree]
  rfl
end withMat

/-- An offset among the operand slots' bytes (R349). -/
def inSlots (a : Nat) : Bool := decide (a < 2 ^ 21) && decide (a % 2 ^ 18 < 0x30000)
/-- An offset among the accumulator blocks' bytes (R350). -/
def inBlocks (a : Nat) : Bool := decide (a < 2 ^ 19)

theorem execOst_ready {s : State} {x : Iss} {g : Guard} {f : FM}
    (h : Ready s x .vector false g f.twait [opBase f.base f.u f.fe 1, .v f.data.toNat (widRegs (widOf f.wid)) id f.fe]) :
    execOst g f s = finish x 1 (withMat s (widOf f.wid) (matAddrs x (guardMask x g) f) (fun a => !inSlots a)
      (fun a => !slotHeld (coreOf s x.w.core) x.w.gslot (a / 2 ^ 18)) .slot
      (.done (sendReqs s x .ost (widOf f.wid) 0 0 (tokOf f.tse f.tslot) false false (lineGroups
        ((matAddrs x (guardMask x g) f).map (fun p => ({
          lane := p.1
          pa := slotSpace + p.2
          v := vregN x.wp f.data.toNat (widRegs (widOf f.wid)) p.1 } : LaneAcc))))).2)) := by
  have hin : (fun a => !inSlots a) = fun a => decide (a ≥ 2 ^ 21) || decide (a % 2 ^ 18 ≥ 0x30000) := by
    funext a
    simp only [inSlots, Bool.not_and, ← decide_not, Nat.not_lt, ge_iff_le]
  rw [hin, execOst]
  exact runWord_ready h

theorem execAld_ready {s : State} {x : Iss} {g : Guard} {f : FM}
    (h : Ready s x .vector false g f.twait [opBase f.base f.u f.fe 1, .vl f.data.toNat (widRegs (widOf f.wid))]) :
    let ws := aldWords f.data.toNat (widRegs (widOf f.wid)) (matAddrs x (guardMask x g) f)
    let r := sendReqs s x .ald 4 0 0 (tokOf f.tse f.tslot) false false (ws.map (fun e => [e.2]))
    execAld g f s = finish x 1 (withMat s (widOf f.wid) (matAddrs x (guardMask x g) f) (fun a => !inBlocks a)
      (fun a => !((blockOf (coreOf s x.w.core) (a / 1024)).holder == .held x.w.gslot)) .accRange
      (.done (onWarp r.2 x (fun y => (ws.zip r.1).foldl (fun y e => produceV y e.2.1 e.1.1 1 e.2.2) y)))) := by
  intro ws r
  have hin : (fun a => !inBlocks a) = fun a => decide (a ≥ 2 ^ 19) := by
    funext a
    simp only [inBlocks, ← decide_not, Nat.not_lt]
  rw [hin, execAld]
  exact runWord_ready h

/-! ### OST and ALD at their home -/

theorem addToken_returns (s : State) (w : Who) (k : Option Nat) (n : Int) : (addToken s w k n).returns = s.returns := by
  unfold addToken
  split
  · rfl
  · split
    · exact modWarp_returns ..
    · rfl

/-- What OST's lane makes of its row (R349). -/
def ostLane (w : Nat) (k : Core) (l : LaneAcc) : Core :=
  let a := l.pa - slotSpace
  let bs := bytesLE w l.v
  let bytes := (List.range w).foldl (fun m j => mapSet m (a % 2 ^ 18 + j) (bs.getD j 0)) (slotOf k (a / 2 ^ 18)).bytes
  let o := slotOf k (a / 2 ^ 18)
  let row := bytes.filter (fun e => e.2 != 0)
  { k with slots := mapSet k.slots (a / 2 ^ 18) { o with bytes := row } }

/-- What OST at its home makes of the state, but for its token. -/
def ostDone (s : State) (r : Req) : State :=
  { modCore s r.who.core (fun k => r.lanes.foldl (ostLane r.w) k) with
    inflight := s.inflight.filter (fun q => q.id != r.id) }

theorem coreOf_ostDone (s : State) (r : Req) : coreOf (ostDone s r) r.who.core = r.lanes.foldl (ostLane r.w)
  (coreOf s r.who.core) :=
  (coreOf_modCore s r.who.core r.who.core (fun k => r.lanes.foldl (ostLane r.w) k)).trans (if_pos rfl)

theorem performOst_eq (s : State) (r : Req) : performOst s r = addToken (ostDone s r) r.who r.tok (-1) := rfl

/-- ALD at its home reads a word for each lane (R350). -/
theorem performAld_returns (s : State) (r : Req) : (performAld s r).returns = s.returns ++ [{
    id := r.id
    who := r.who
    w := r.w
    vals := r.lanes.map (fun l => (l.lane,
      (mapGet (blockOf (coreOf s r.who.core) ((l.pa - blockSpace) / 1024)).words
        ((l.pa - blockSpace) % 1024 / 4) 0).toNat)) }] :=
  congrArg (· ++ _) (addToken_returns ..)

/-- A request with no ordering acquires nothing. -/
theorem acquireAt_plain {s : State} {r : Req} (ho : r.ord = 0) (hs : r.sync = false) : acquireAt s r = s := by
  simp only [acquireAt, ho, hs]
  rfl

theorem perform_ost {s : State} {r : Req} (hk : r.kind = .ost) (ho : r.ord = 0)
  (hs : r.sync = false) : perform s r = performOst s r := by
  rw [perform, acquireAt_plain ho hs, hk]

theorem perform_ald {s : State} {r : Req} (hk : r.kind = .ald) (ho : r.ord = 0)
  (hs : r.sync = false) : perform s r = performAld s r := by
  rw [perform, acquireAt_plain ho hs, hk]

/-- An access of the operand slots or blocks in one step. -/
theorem execHomeAccess_matrix {s : State} {n : Nat} {r : Req} (hr : s.inflight[n]? = some r) (he : eligible s r = true)
    (hk : r.kind = .ost ∨ r.kind = .ald) : execHomeAccess n s = .next (perform s r) := by
  have hone : r.twoSteps = false := by
    rcases hk with hk | hk <;> simp [Req.twoSteps, hk]
  simp [execHomeAccess, hr, he, hone]

/-- Settles O34: each instruction by its tests, then OST and ALD at issue and at their home. -/
theorem matrixInstructionsComplete : Obligations.MatrixInstructionsComplete := by
  refine ⟨fun s x g i a f d => ?issue, fun s x g f => ?traps, fun s x g f => ?goes, fun s n r hr he ho hs => ?home⟩
  case issue =>
    intro k it s1 bad
    refine ⟨fun h hb => ⟨fun hown => ?_, fun hi hother => ?_, fun hi hother => ?_, fun hh => ?_, fun hh hroom => ?_,
      fun hh hroom => ?_, fun hh => ⟨?_, ?_⟩⟩, fun h hb => ⟨?_, ?_, ?_⟩, fun h => ?mma, fun h => ?mscale, fun h => ?mdrain,
      fun h hw hq hd => (exec_mwait ..).trans (execMwait_done h hw hq hd)⟩
    · rw [exec_mclaim, execMclaim_ready h hb, heldByOther_own hown, lazyHolders_own hown]
      rfl
    · rw [exec_mclaim, execMclaim_ready h hb, (heldByOther_iff _ _).2 hother, hi]
      rfl
    · rw [exec_mclaim, execMclaim_ready h hb, (heldByOther_iff _ _).2 hother, hi]
      rfl
    · rw [exec_mrel, execMrel]
      refine ⟨_, rfl, rfl, rfl, (runWord_ready h).trans (congrArg (finish x 1) ((if_neg ?_).trans (if_neg ?_)))⟩
      · exact fun hn => by simp [it] at hb; simp [hb] at hn
      · exact fun hn => by simp [k, it] at hh; simp [hh] at hn
    · rw [exec_mzero, execMzero_ready h hb hh, hroom]
      rfl
    · rw [exec_mzero, execMzero_ready h hb hh, hroom]
      rfl
    · rw [exec_mrel, execMrel]
      exact (runWord_ready h).trans (congrArg (finish x 1) ((if_neg (by simpa using hb)).trans (if_pos
        (by simpa using hh))))
    · rw [exec_mzero, execMzero]
      exact (runWord_ready h).trans (congrArg (finish x 1) ((if_neg (by simpa using hb)).trans (if_pos
        (by simpa using hh))))
    · rw [exec_mclaim, execMclaim]
      exact (runWord_ready h).trans (congrArg (finish x 1) (if_pos hb))
    · rw [exec_mrel, execMrel]
      exact (runWord_ready h).trans (congrArg (finish x 1) (if_pos hb))
    · rw [exec_mzero, execMzero]
      exact (runWord_ready h).trans (congrArg (finish x 1) (if_pos hb))
    case mma =>
      intro p q m n large held
      refine ⟨fun hl => ?_, fun hl hbad => ?_, fun hl hp hq hh hroom => ?_, fun hl hp hq hh hroom => ?_⟩
      · exact (exec_mma ..).trans (execMma_large h hl)
      all_goals
        rw [exec_mma, execMma_fits h hl]
      · by_cases hpq : (decide (p ≥ 8) || decide (q ≥ 8)) = true
        · exact congrArg (finish x 1) (if_pos hpq)
        · refine congrArg (finish x 1) ((if_neg hpq).trans (if_neg ?_))
          have hnot : held = false := by
            simp only [Bool.or_eq_true, decide_eq_true_eq, not_or] at hpq
            exact (hbad.resolve_left hpq.1).resolve_left hpq.2
          exact fun hn => by simpa [hnot] using show held = true from hn
      · refine congrArg (finish x 1) ((if_neg ?_).trans ((if_pos hh).trans (if_pos (by simpa using hroom))))
        simpa using ⟨hp, hq⟩
      · refine congrArg (finish x 1) ((if_neg ?_).trans ((if_pos hh).trans (if_neg (by simpa using hroom))))
        simpa using ⟨hp, hq⟩
    case mscale =>
      refine ⟨fun hh => ?_, fun hh => ?_⟩
      · rw [exec_mscale, execMscale]
        refine (runWord_ready h).trans (congrArg (finish x 1) (if_pos ?_))
        simpa [k] using hh
      · rw [exec_mscale, execMscale]
        refine (runWord_ready h).trans ((congrArg (finish x 1) (if_neg ?_)).trans ?_)
        · simpa [k] using hh
        simp only [BitVec.ofNat_toNat]
        rfl
    case mdrain =>
      intro v base tok legal tile
      refine ⟨fun hl => ?_, fun c hl ht => ?_, fun c va hl ht hd => ?_, fun hl ht hd hroom => ?_,
        fun hl ht hd hroom hacq => ?_⟩
      · exact (exec_mdrain ..).trans (execMdrain_illegal h rfl rfl hl)
      all_goals refine (exec_mdrain ..).trans ?_
      · exact execMdrain_good h rfl rfl hl ht rfl rfl
      · exact execMdrain_good h rfl rfl hl ht hd rfl
      · refine execMdrain_good h rfl rfl hl ht hd (if_pos ?_)
        rcases hroom with hr | hp
        · simp [show mqRoom (coreOf s x.w.core) = false from hr]
        · simp [hp]
      · refine execMdrain_good h rfl rfl hl ht hd (if_neg ?_)
        simp [show mqRoom (coreOf s x.w.core) = true from hroom, hacq]
  case traps =>
    intro w n as k ends
    exact ⟨fun h => withMat_traps (inside := inSlots) ((exec_ost ..).trans (execOst_ready h)),
      fun h => withMat_traps (inside := inBlocks) ((exec_ald ..).trans (execAld_ready h))⟩
  case goes =>
    intro w n as k hm
    refine ⟨fun hin h => ?_, fun hin h => ?_⟩
    · refine ((exec_ost ..).trans (execOst_ready h)).trans (congrArg (finish x 1) (withMat_held hm fun p hp => ?_))
      obtain ⟨hlt, hrow, hheld⟩ := hin p hp
      exact ⟨Bool.and_eq_true_iff.2 ⟨decide_eq_true hlt, decide_eq_true hrow⟩, beq_iff_eq.2 hheld⟩
    · intro ws r
      refine ((exec_ald ..).trans (execAld_ready h)).trans (congrArg (finish x 1) (withMat_held hm fun p hp => ?_))
      obtain ⟨hlt, hheld⟩ := hin p hp
      exact ⟨decide_eq_true hlt, beq_iff_eq.2 hheld⟩
  case home =>
    intro gone
    refine ⟨fun hk => ⟨ostDone s r, ?_, rfl, coreOf_ostDone s r⟩, fun hk => ⟨performAld s r, ?_, performAld_returns s r⟩⟩
    · rw [exec_homeAccess, execHomeAccess_matrix hr he (.inl hk), perform_ost hk ho hs, performOst_eq]
    · rw [exec_homeAccess, execHomeAccess_matrix hr he (.inr hk), perform_ald hk ho hs]

end Sys2Proof.Proofs
end

