-- ==== Sys2Proof/Proofs/EventInstructions.lean ====
section
/-!
EMIT, EVRD and EVWAIT (R372 to R376).
-/
namespace Sys2Proof.Proofs
open Sys2Proof.Machine

/-! ### EMIT -/

/-- The operands of EMIT (R372). -/
def emitOpds (f : FM) : List Opd :=
  (List.range 4).map (fun i => Opd.u (f.data.toNat + i) f.fe) ++ (if f.u then [Opd.u f.base.toNat f.fe] else [])

section emit
variable {s : State} {x : Iss} {g : Guard} {f : FM}

/-- EMIT past its operands (R372). -/
theorem execEmit_ready (h : Ready s x .all true g f.twait (emitOpds f)) :
    execEmit g f s = finish x 1 (
      if emitIllegal x f then .trap .illegal (guardMask x g) 0 0 s
      else if f.ord == 2 && !deviceReleased s x then .hold .nothing s
      else if f.u then emitRemote s x (emitRecord x f.data.toNat (f.ord == 2)) (sreg x.grp f.base.toNat).toNat
        (tokOf f.tse f.tslot)
      else emitLocal s x (emitRecord x f.data.toNat (f.ord == 2)) (tokOf f.tse f.tslot)) := by
  rw [execEmit]
  exact runWord_ready h

/-- EMIT of a good record whose release, if it has one, has been performed. -/
theorem execEmit_sends (h : Ready s x .all true g f.twait (emitOpds f)) (hi : emitIllegal x f = false)
    (hr : f.ord = 2 → deviceReleased s x = true) :
    execEmit g f s = finish x 1 (
      if f.u then emitRemote s x (emitRecord x f.data.toNat (f.ord == 2)) (sreg x.grp f.base.toNat).toNat
        (tokOf f.tse f.tslot)
      else emitLocal s x (emitRecord x f.data.toNat (f.ord == 2)) (tokOf f.tse f.tslot)) := by
  rw [execEmit_ready h, hi]
  refine congrArg (finish x 1) ((if_neg Bool.false_ne_true).trans (if_neg ?_))
  by_cases ho : f.ord = 2
  · simp [hr ho]
  · rw [beq_eq_false_iff_ne.2 ho]
    exact Bool.false_ne_true

end emit

section emitRemote
variable {s : State} {x : Iss} {e : EventRec} {node : Nat} {tok : Option Nat}

/-- A remote EMIT that no copy of its issuer holds back (R203). -/
theorem emitRemote_free (hc : e.rel = true → copiesTo s x node = false) : (e.rel && copiesTo s x node) = false := by
  cases he : e.rel
  · rfl
  · simp [hc he]

theorem emitRemote_unreachable (hc : e.rel = true → copiesTo s x node = false) (hr : routePort s node = none) :
    emitRemote s x e node tok = match mapFind s.routes node with
      | some (p, _) => .done (modPort s p (fun q => { q with unreach := (q.unreach + 1) % 2 ^ 32 }))
      | none => .done s := by
  cases hm : mapFind s.routes node <;> simp only [emitRemote, emitRemote_free hc, hr, hm, Bool.false_eq_true, if_false]

theorem emitRemote_full {p : Nat} (hc : e.rel = true → copiesTo s x node = false) (hr : routePort s node = some p)
    (hp : portRoom s p = false) : emitRemote s x e node tok = .hold .nothing s := by
  simp only [emitRemote, emitRemote_free hc, hr, hp, Bool.false_eq_true, if_false, Bool.not_false, if_true]

/-- The flit of a remote EMIT (R202): its number and the state once it is sent. -/
def emitFlit (s : State) (e : EventRec) (node p : Nat) : Nat × State :=
  let t := raiseTx s node p
  let sent : EventRec := { e with stamp := BitVec.ofNat 64 (portOf t p).tx }
  sendFlit t p { type := 1, dst := node, nev := 0, body := bytesLE 128 sent.bits }

theorem emitRemote_sends {p : Nat} (hc : e.rel = true → copiesTo s x node = false) (hr : routePort s node = some p)
    (hp : portRoom s p = true) : emitRemote s x e node tok = match tok with
      | none => .done (emitFlit s e node p).2
      | some k => .done (modPort (addToken (emitFlit s e node p).2 x.w tok 1) p (fun q =>
          { q with toks := q.toks ++ [((emitFlit s e node p).1, x.w, k)] })) := by
  simp only [emitRemote, emitRemote_free hc, hr, hp, Bool.false_eq_true, if_false, Bool.not_true]
  cases tok <;> rfl
end emitRemote

/-! ### EVRD and EVWAIT -/

section streams
variable {s : State} {x : Iss} {g : Guard} {a : FA}

@[simp] theorem streamOf_produceEvent (s : State) (x : Iss) (d n : Nat) : streamOf
  (produceEvent s x d).2 n = streamOf s n := by
  simp [produceEvent, freshId, streamOf]

/-- EVRD past its operand (R375). -/
theorem execEvrd_ready (h : Ready s x .all true g 0 [.u a.srca.toNat a.fea]) :
    let r := produceEvent s x a.dst.toNat
    execEvrd g a s = finish x 1 (
      match (if streamMine s x (streamWord x a).1 then (streamOf s (streamWord x a).1).latest else none) with
      | some e => .done (fillEvent r.2 x.w r.1 e)
      | none => .done (onGroup r.2 x (fun k => arriveU k r.1 0))) := by
  intro r
  rw [execEvrd]
  refine (runWord_ready h).trans (congrArg (finish x 1) ?_)
  simp only [streamMine, streamOf_produceEvent]
  rfl

/-- The record of an EVWAIT's stream, where it meets the threshold (R376). -/
def evTest (s : State) (x : Iss) (n thr id : Nat) : Option State :=
  match (streamOf s n).latest with
  | some e => if evMeets e thr then some (fillEvent s x.w id e) else none
  | none => none

/-- EVWAIT at its issue, past its operand (R376). -/
theorem execEvwait_ready (h : Ready s x .all true g 0 [.u a.srca.toNat a.fea]) (hw : x.sp.wait = none) :
    let r := produceEvent s x a.dst.toNat
    execEvwait g a s = finish x 1 (
      if !streamMine s x (streamWord x a).1 then .trap .automaton (guardMask x g) 0 0 s
      else match evTest r.2 x (streamWord x a).1 (streamWord x a).2 r.1 with
        | some t => .done t
        | none => .issued (.launches (streamWord x a).1) (beginWait r.2 x (.evwait (streamWord x a).1
        (streamWord x a).2 a.dst.toNat r.1))) := by
  intro r
  rw [execEvwait, orWait_issue h.1 hw]
  refine (runWord_ready h).trans (congrArg (finish x 1) ?_)
  rfl

theorem evTest_meets {n thr id : Nat} {e : EventRec} (hl : (streamOf s n).latest = some e) (hm : evMeets e thr = true) :
    evTest s x n thr id = some (fillEvent s x.w id e) := by
  simp only [evTest, hl, hm, if_true]

theorem evTest_short {n thr id : Nat} (h : ∀ e, (streamOf s n).latest = some e → evMeets e thr = false) :
    evTest s x n thr id = none := by
  unfold evTest
  split
  · next e he => rw [h e he, if_neg Bool.false_ne_true]
  · rfl

end streams

section events
variable {s : State} {x : Iss} {g : Guard}

/-- EMIT by its record, its form and the room. -/
theorem emit_completes {f : FM} (h : Ready s x .all true g f.twait (emitOpds f)) :
    let tok := tokOf f.tse f.tslot
    let e := emitRecord x f.data.toNat (f.ord == 2)
    let node := (sreg x.grp f.base.toNat).toNat
    let held := ((dieOf s x.die).intakeQ.filter (fun i => i.cls == 1 && i.key == x.w.core)).length
    (emitIllegal x f = true → exec (.emit g f) s = finish x 1 (.trap .illegal (guardMask x g) 0 0 s)) ∧
    (emitIllegal x f = false → (f.ord = 2 → deviceReleased s x = true) →
     (f.u = false →
      (held < 4 → exec (.emit g f) s = .next (past x 1 (sendEvent (addToken s x.w tok 1) x.die 1 x.w.core e (some x.grp.ctx)
        (tok.map (fun k => (x.w, k))) none))) ∧
      (4 ≤ held → exec (.emit g f) s = .next (setBlocked s x.w .nothing))) ∧
     (f.u = true → (f.ord = 2 → copiesTo s x node = false) →
      (routePort s node = none →
        (∀ p q, mapFind s.routes node = some (p, q) →
          exec (.emit g f) s = .next (past x 1 (modPort s p (fun r => { r with unreach := (r.unreach + 1) % 2 ^ 32 })))) ∧
        (mapFind s.routes node = none → exec (.emit g f) s = .next (past x 1 s))) ∧
      (∀ p, routePort s node = some p → portRoom s p = false → exec (.emit g f) s = .next (setBlocked s x.w .nothing)) ∧
      (∀ p, routePort s node = some p → portRoom s p = true →
        let r := emitFlit s e node p
        (tok = none → exec (.emit g f) s = .next (past x 1 r.2)) ∧
        (∀ k, tok = some k → exec (.emit g f) s = .next (past x 1
          (modPort (addToken r.2 x.w tok 1) p (fun q => { q with toks := q.toks ++ [(r.1, x.w, k)] }))))))) ∧
    (emitIllegal x f = false → f.ord = 2 → deviceReleased s x = false → exec (.emit g f) s = .next
      (setBlocked s x.w .nothing)) := by
  intro tok e node held
  refine ⟨fun hi => ?_, fun hi hr => ⟨fun hu => ?_, fun hu hc => ?_⟩, fun hi ho hr => ?_⟩
  · rw [exec_emit, execEmit_ready h, hi]
    rfl
  · have hemit : exec (.emit g f) s = finish x 1 (emitLocal s x e tok) := by
      rw [exec_emit, execEmit_sends h hi hr, hu]
      rfl
    rw [hemit]
    exact ⟨fun hlt => congrArg (finish x 1) (if_neg (Nat.not_le.2 hlt)), fun hle => congrArg (finish x 1) (if_pos hle)⟩
  · have hc' : e.rel = true → copiesTo s x node = false := fun he => hc (beq_iff_eq.1 he)
    have hemit : exec (.emit g f) s = finish x 1 (emitRemote s x e node tok) := by
      rw [exec_emit, execEmit_sends h hi hr, hu]
      rfl
    rw [hemit]
    refine ⟨fun hn => ?_, fun p hp hroom => ?_, fun p hp hroom => ?_⟩
    · rw [emitRemote_unreachable hc' hn]
      exact ⟨fun p q hpq => by rw [hpq]; rfl, fun hnone => by rw [hnone]; rfl⟩
    · rw [emitRemote_full hc' hp hroom]
      rfl
    · rw [emitRemote_sends hc' hp hroom]
      exact ⟨fun ht => by rw [ht]; rfl, fun k ht => by rw [ht]; rfl⟩
  · rw [exec_emit, execEmit_ready h, hi]
    refine congrArg (finish x 1) ((if_neg Bool.false_ne_true).trans (if_pos ?_))
    simp [ho, hr]

/-- EVRD and EVWAIT by the latest record of their stream. -/
theorem streamReads_complete {a : FA} (h : Ready s x .all true g 0 [.u a.srca.toNat a.fea]) :
    let n := (sreg x.grp a.srca.toNat).toNat % 2 ^ 14
    let thr := (sreg x.grp a.srca.toNat).toNat / 2 ^ 32
    let r := produceEvent s x a.dst.toNat
    let mine := (streamOf s n).st == .open_ && (streamOf s n).ctx == x.grp.ctx
    (∀ e, mine = true → (streamOf s n).latest = some e → exec (.evrd g a) s = .next (past x 1 (fillEvent r.2 x.w r.1 e))) ∧
    (mine = false ∨ (streamOf s n).latest = none →
      exec (.evrd g a) s = .next (past x 1 (onGroup r.2 x (fun k => arriveU k r.1 0)))) ∧
    (mine = false → x.sp.wait = none → exec (.evwait g a) s = finish x 1 (.trap .automaton (guardMask x g) 0 0 s)) ∧
    (mine = true → x.sp.wait = none →
      (∀ e, (streamOf s n).latest = some e → evMeets e thr = true →
        exec (.evwait g a) s = .next (past x 1 (fillEvent r.2 x.w r.1 e))) ∧
      ((∀ e, (streamOf s n).latest = some e → evMeets e thr = false) →
        exec (.evwait g a) s = .next (awaitEnd (beginWait r.2 x (.evwait n thr a.dst.toNat r.1)) x (.launches n)))) := by
  intro n thr r mine
  refine ⟨fun e hm hl => ?_, fun hnone => ?_, fun hm hw => ?_, fun hm hw => ⟨fun e hl he => ?_, fun hshort => ?_⟩⟩
  · rw [exec_evrd, execEvrd_ready h, show streamMine s x (streamWord x a).1 = true from hm, if_pos rfl,
      show (streamOf s (streamWord x a).1).latest = some e from hl]
    rfl
  · have hread : (if streamMine s x (streamWord x a).1 then (streamOf s (streamWord x a).1).latest else none) = none := by
      rcases hnone with hm | hl
      · rw [show streamMine s x (streamWord x a).1 = false from hm, if_neg Bool.false_ne_true]
      · rw [show (streamOf s (streamWord x a).1).latest = none from hl, ite_self]
    rw [exec_evrd, execEvrd_ready h, hread]
    rfl
  · rw [exec_evwait, execEvwait_ready h hw, show streamMine s x (streamWord x a).1 = false from hm]
    rfl
  · have hl' : (streamOf r.2 (streamWord x a).1).latest = some e := (congrArg Stream.latest
    (streamOf_produceEvent ..)).trans hl
    have htest : evTest (produceEvent s x a.dst.toNat).2 x (streamWord x a).1 (streamWord x a).2
      (produceEvent s x a.dst.toNat).1 =
        some (fillEvent r.2 x.w r.1 e) := evTest_meets hl' he
    rw [exec_evwait, execEvwait_ready h hw, show streamMine s x (streamWord x a).1 = true from hm, htest]
    rfl
  · have hshort' : ∀ e,
    (streamOf r.2 (streamWord x a).1).latest = some e → evMeets e (streamWord x a).2 = false := fun e he =>
      hshort e ((congrArg Stream.latest (streamOf_produceEvent ..)).symm.trans he)
    have htest : evTest (produceEvent s x a.dst.toNat).2 x (streamWord x a).1 (streamWord x a).2
      (produceEvent s x a.dst.toNat).1 =
        none := evTest_short hshort'
    rw [exec_evwait, execEvwait_ready h hw, show streamMine s x (streamWord x a).1 = true from hm, htest]
    rfl
end events

end Sys2Proof.Proofs
end

