-- ==== Sys2Proof/Proofs/AutomatonInstructions.lean ====
section
/-!
The automaton instructions (R377 to R382) and the structures that they read and write (R371).
-/
namespace Sys2Proof.Proofs
open Sys2Proof.Machine

/-! ### Structures in translated memory -/

section structures
variable {s : State} {x : Iss} {m : W32} {va n : Nat}

/-- A range whose pages are held is translated at once (R371). -/
theorem withRange_held {kind path : Nat} {rs : List (Nat × Nat)} {k : List (Nat × Nat) → State → Res}
    (h : heldRange s x m kind va n = some rs) : withRange s x m kind path va n k = k rs (dropWalks s x) := by
  simp only [heldRange, Option.ite_none_right_eq_some, Option.some.injEq] at h
  obtain ⟨hpages, hrs⟩ := h
  rw [withRange]
  refine (withTranslation_held hpages).trans ?_
  rw [← hrs]

/-- A structure whose bytes are held is read at once (R371). -/
theorem structRead_held {path : Nat} {bs : List Byte} {k : List Byte → State → Res} (h : heldBytes s x m va n = some bs) :
    structRead s x m path va n k = k bs (dropWalks s x) := by
  unfold heldBytes at h
  split at h
  case h_2 => cases h
  case h_1 rs hrs =>
    simp only [Option.ite_none_left_eq_some, Option.some.injEq] at h
    obtain ⟨hclean, rfl⟩ := h
    rw [structRead, withRange_held hrs]
    refine if_pos ?_
    rw [List.isEmpty_iff, List.filter_eq_nil_iff]
    exact fun l hl hbad => hclean (List.any_eq_true.2 ⟨l, hl, hbad⟩)

/-- A structure whose range is held, where nothing is poisoned, is written at once (R371). -/
theorem structRange_held {path : Nat} {rs : List (Nat × Nat)} {k : List (Nat × Nat) → State → Res}
  (h : heldRange s x m 1 va n = some rs)
    (hp : s.poison = []) : structRange s x m path va n k = k rs (dropWalks s x) := by
  rw [structRange, withRange_held h]
  refine if_pos ?_
  rw [List.isEmpty_iff, List.filter_eq_nil_iff]
  intro l _
  simp [isPoisoned, dropWalks, hp]

/-- An image whose header and whole are held is read at once (R112, R371). -/
theorem readImage_held {h bs : List Byte} {k : List Byte → State → Res} (hh : heldBytes s x m va 64 = some h)
    (hbs : heldBytes (dropWalks s x) x m va (imageSizes (ofBytesLE h)).2.2.2 = some bs) :
    readImage s x m va k = k bs (dropWalks (dropWalks s x) x) := by
  rw [readImage, structRead_held hh]
  exact structRead_held hbs
end structures

/-! ### Turns of the PLU -/

/-- A PLU's turn taken (R378). -/
def turnTaken (s : State) (die : Nat) : State := modDie s die (fun d => { d with autoGo := none })

/-- An automaton instruction that asks the PLU of a die for its turn (R378). -/
def turnAsked (s : State) (x : Iss) (die : Nat) : State :=
  modDie s die (fun d => if d.autoQ.any (fun e => e.1 == x.w) then d else { d with autoQ := d.autoQ ++ [(x.w, d.cycle)] })

@[simp] theorem autoOf_turnTaken (s : State) (die n : Nat) : autoOf (turnTaken s die) die n = autoOf s die n := by
  simp [autoOf, turnTaken]

theorem autoMine_turnTaken (s : State) (x : Iss) (die n : Nat) (sts : List AState) :
    autoMine (turnTaken s die) x die n sts = autoMine s x die n sts := by
  simp [autoMine]

section pluTurn
variable {s t : State} {x : Iss} {die : Nat} {k : State → Res}

theorem pluTurn_wait (h : (dieOf s die).autoGo ≠ some x.w) : pluTurn x die k s = .hold .plu (turnAsked s x die) := by
  rw [pluTurn]
  exact if_neg (by simpa using h)

theorem pluTurn_done (h : (dieOf s die).autoGo = some x.w) (hk : k
  (turnTaken s die) = .done t) : pluTurn x die k s = .done t := by
  rw [pluTurn]
  refine (if_pos (by simpa using h)).trans ?_
  rw [show k (modDie s die fun d => { d with autoGo := none }) = .done t from hk]

theorem pluTurn_trap {c : Cause} {lanes : W32} {va code : Nat} (h : (dieOf s die).autoGo = some x.w)
    (hk : k (turnTaken s die) = .trap c lanes va code t) : pluTurn x die k s = .trap c lanes va code t := by
  rw [pluTurn]
  refine (if_pos (by simpa using h)).trans ?_
  rw [show k (modDie s die fun d => { d with autoGo := none }) = .trap c lanes va code t from hk]
end pluTurn

/-! ### ALOAD -/

section aload
variable {s : State} {x : Iss} {g : Guard} {f : FM}

/-- ALOAD past its operands (R377). -/
theorem execAload_ready {cw va : Nat} (hcw : (sreg x.grp f.data.toNat).toNat = cw) (hva :
  (sreg x.grp f.base.toNat).toNat = va)
    (h : Ready s x .vector true g f.twait ([.u f.data.toNat f.fe] ++
      (if cw.testBit 10 then [] else [.u f.base.toNat f.fe]))) :
    execAload g f s = finish x 1 (
      if cw ≥ 2 ^ 12 || (cw.testBit 10 && cw.testBit 11) then .trap .automaton (guardMask x g) 0 0 s
      else if cw.testBit 10 then pluTurn x (bitsOf cw 8 2) (fun s =>
        if autoMine s x (bitsOf cw 8 2) (bitsOf cw 0 8) [.loaded,
          .faulted] then .done (freeAuto s (bitsOf cw 8 2) (bitsOf cw 0 8))
        else .trap .automaton (guardMask x g) 0 0 s) s
      else if va % 64 != 0 then .trap .align (guardMask x g) va 0 s
      else if !deviceReleased s x then .hold .nothing s
      else pluTurn x (bitsOf cw 8 2) (fun s =>
        if cw.testBit 11 then loadState s x (guardMask x g) (bitsOf cw 8 2) (bitsOf cw 0 8) va
        else readImage s x (guardMask x g) va (fun bs s =>
          acceptLoad s x (guardMask x g) (bitsOf cw 8 2) (bitsOf cw 0 8) (loadedAuto x.grp.ctx bs va) bs)) s) := by
  subst hcw hva
  rw [execAload]
  exact runWord_ready h

/-- What ALOAD asks of an image that it accepts (R116, R379). -/
def imageAccepted (v : State) (x : Iss) (die n : Nat) (a : Auto) (bs : List Byte) : Prop :=
  (autoOf v die n).st = .free ∧ imageOk bs (ctxOf v x.grp.ctx).regions.length = true ∧ (domOf v a.img.domain).cfg = true ∧
    (domOf v a.img.domain).die = die ∧ dieEntries v die ≤ 16384 ∧
    admitted (ctxOf v x.grp.ctx).regions a.img.region { cand := 0 } = true

/-- An automaton without candidates is accepted by its image alone (R379). -/
theorem acceptLoad_image (v : State) (x : Iss) (m : W32) (die n : Nat) (a : Auto) (bs : List Byte) (hc : a.cands = []) :
    (imageAccepted v x die n a bs →
      acceptLoad v x m die n a bs = .done (modAuto (charge v x.grp.ctx a.img.region { cand := 0 }) die n (fun _ => a))) ∧
    (¬imageAccepted v x die n a bs → acceptLoad v x m die n a bs = .trap .automaton m 0 0 v) := by
  have hentries : a.entries = 0 := by
    rw [Auto.entries, hc]
    rfl
  have htest : ((autoOf v die n).st != .free || !imageOk bs
    (ctxOf v x.grp.ctx).regions.length || !(domOf v a.img.domain).cfg ||
      (domOf v a.img.domain).die != die || !candsOk a.img a.nextSeq none a.cands || decide (a.entries > a.img.candmax) ||
      decide (dieEntries v die + a.entries > 16384) || !admitted
        (ctxOf v x.grp.ctx).regions a.img.region { cand := a.entries }) = false ↔
      imageAccepted v x die n a bs := by
    simp [hentries, hc, candsOk, imageAccepted, and_assoc]
  refine ⟨fun h => ?_, fun h => ?_⟩
  · rw [acceptLoad]
    refine (if_neg (Bool.eq_false_iff.1 (htest.2 h))).trans ?_
    rw [hentries]
  · rw [acceptLoad]
    exact if_pos (Bool.not_eq_false _ ▸ mt htest.1 h)

/-- ALOAD that frees a slot (R379). -/
theorem aload_frees {cw die n : Nat} (hcw : (sreg x.grp f.data.toNat).toNat = cw) (hdie : bitsOf cw 8 2 = die)
  (hn : bitsOf cw 0 8 = n)
    (hf : cw.testBit 10 = true) (h : Ready s x .vector true g f.twait [.u f.data.toNat f.fe]) :
    (2 ^ 12 ≤ cw ∨ cw.testBit 11 = true → execAload g f s = finish x 1 (.trap .automaton (guardMask x g) 0 0 s)) ∧
    (cw < 2 ^ 12 → cw.testBit 11 = false →
      ((dieOf s die).autoGo ≠ some x.w → execAload g f s = .next (setBlocked (turnAsked s x die) x.w .plu)) ∧
      ((dieOf s die).autoGo = some x.w → autoMine s x die n [.loaded, .faulted] = true →
        execAload g f s = .next (past x 1 (freeAuto (turnTaken s die) die n))) ∧
      ((dieOf s die).autoGo = some x.w → autoMine s x die n [.loaded, .faulted] = false →
        execAload g f s = finish x 1 (.trap .automaton (guardMask x g) 0 0 (turnTaken s die)))) := by
  subst hdie hn
  rw [execAload_ready (s := s) hcw rfl (by rwa [if_pos hf])]
  refine ⟨fun hbad => congrArg (finish x 1) (if_pos ?_), fun hlt h11 => ?_⟩
  · simpa [hf] using hbad
  · have hgood : ¬(decide (cw ≥ 2 ^ 12) || (cw.testBit 10 && cw.testBit 11)) = true := by simpa [h11] using hlt
    rw [if_neg hgood, if_pos hf]
    exact ⟨fun hq => congrArg (finish x 1) (pluTurn_wait hq),
      fun ht hm => congrArg (finish x 1) (pluTurn_done ht (if_pos ((autoMine_turnTaken ..).trans hm))),
      fun ht hm => congrArg (finish x 1) (pluTurn_trap ht (if_neg (Bool.eq_false_iff.1
        ((autoMine_turnTaken ..).trans hm))))⟩

/-- ALOAD of an image or of a state (R379, R380). -/
theorem aload_loads {cw va : Nat} (hcw : (sreg x.grp f.data.toNat).toNat = cw) (hva : (sreg x.grp f.base.toNat).toNat = va)
    (hf : cw.testBit 10 = false) (h : Ready s x .vector true g f.twait [.u f.data.toNat f.fe, .u f.base.toNat f.fe]) :
    (2 ^ 12 ≤ cw → execAload g f s = finish x 1 (.trap .automaton (guardMask x g) 0 0 s)) ∧
    (cw < 2 ^ 12 → va % 64 ≠ 0 → execAload g f s = finish x 1 (.trap .align (guardMask x g) va 0 s)) ∧
    (cw < 2 ^ 12 → va % 64 = 0 → deviceReleased s x = true →
      execAload g f s = finish x 1 (pluTurn x (bitsOf cw 8 2) (fun s =>
        if cw.testBit 11 then loadState s x (guardMask x g) (bitsOf cw 8 2) (bitsOf cw 0 8) va
        else readImage s x (guardMask x g) va (fun bs s =>
          acceptLoad s x (guardMask x g) (bitsOf cw 8 2) (bitsOf cw 0 8) (loadedAuto x.grp.ctx bs va) bs)) s)) := by
  rw [execAload_ready (s := s) hcw hva (by rwa [if_neg (Bool.eq_false_iff.1 hf)])]
  have hgood : cw < 2 ^ 12 → ¬(decide (cw ≥ 2 ^ 12) || (cw.testBit 10 && cw.testBit 11)) = true := fun hlt => by
    simpa [hf] using hlt
  refine ⟨fun hle => congrArg (finish x 1) (if_pos ?_), fun hlt hva => ?_, fun hlt hva hr => ?_⟩
  · simpa [hf] using hle
  · rw [if_neg (hgood hlt), if_neg (Bool.eq_false_iff.1 hf)]
    exact congrArg (finish x 1) (if_pos (by simpa using hva))
  · rw [if_neg (hgood hlt), if_neg (Bool.eq_false_iff.1 hf)]
    exact congrArg (finish x 1) ((if_neg (by simpa using hva)).trans (if_neg (by simpa using hr)))

end aload

/-! ### AARM, ADISARM and ASAVE -/

section arm
variable {s : State} {x : Iss} {g : Guard} {i : FI}

/-- The operands of AARM and ADISARM (R377). -/
abbrev armOpds (i : FI) : List Opd := if i.imm.getLsbD 23 then [.u i.srca.toNat i.fe] else []

/-- The candidates that an arming automaton is late for (R381). -/
def lateCands (s : State) (a : Auto) : List Cand :=
  a.cands.filter (fun c => match deadlineOf a.img c with
    | some dl => dl < processingPoint s a.img.domain
    | none => false)

theorem lateCands_eq (s : State) (a : Auto) :
    lateCands s a = a.cands.filter (fun c => (deadlineOf a.img c).elim false
      (fun t => t < processingPoint s a.img.domain)) :=
  List.filter_congr fun c _ => by cases deadlineOf a.img c <;> rfl

/-- AARM in its turn (R381). -/
def armNow (x : Iss) (m : W32) (die n : Nat) (s : State) : Res :=
  let a := autoOf s die n
  let d := domOf s a.img.domain
  if !autoMine s x die n [.loaded] || detElsewhere s die a then .trap .automaton m 0 0 s
  else if d.halt != .run || !d.work.isEmpty then .hold .plu s
  else
    let ws := (lateCands s a).map (fun c => Work.expire n c.seq)
    let t := modAuto s die n (fun a => { a with st := .armed })
    .done (if ws.isEmpty then t else runWork (workFuel ws) t a.img.domain ws)

/-- ADISARM in its turn (R381). -/
def disarmNow (x : Iss) (m : W32) (die n : Nat) (s : State) : Res :=
  if !autoMine s x die n [.armed] then .trap .automaton m 0 0 s
  else if (domOf s (autoOf s die n).img.domain).work.any (fun w => w.ofSlot n) then .hold .plu s
  else .done (modAuto s die n (fun a => { a with st := .loaded }))

theorem execAarm_ready (h : Ready s x .vector true g 0 (armOpds i)) :
    execAarm g i s = finish x 1 (
      if armWord x i ≥ 2 ^ 10 then .trap .automaton (guardMask x g) 0 0 s
      else pluTurn x (bitsOf (armWord x i) 8 2) (armNow x (guardMask x g) (bitsOf (armWord x i) 8 2) (bitsOf
        (armWord x i) 0 8)) s) := by
  rw [execAarm]
  exact runWord_ready h

theorem execAdisarm_ready (h : Ready s x .vector true g 0 (armOpds i)) :
    execAdisarm g i s = finish x 1 (
      if armWord x i ≥ 2 ^ 10 then .trap .automaton (guardMask x g) 0 0 s
      else pluTurn x (bitsOf (armWord x i) 8 2) (disarmNow x (guardMask x g) (bitsOf (armWord x i) 8 2) (bitsOf
        (armWord x i) 0 8)) s) := by
  rw [execAdisarm]
  exact runWord_ready h

theorem armNow_trap {m : W32} {die n : Nat} (h : autoMine s x die n [.loaded] = false ∨ detElsewhere s die
  (autoOf s die n) = true) :
    armNow x m die n s = .trap .automaton m 0 0 s := by
  refine if_pos ?_
  rcases h with h | h <;> simp [h]

theorem armNow_arms {m : W32} {die n : Nat} {late : List Cand} (hm : autoMine s x die n [.loaded] = true)
    (he : detElsewhere s die (autoOf s die n) = false) (hrun : (domOf s (autoOf s die n).img.domain).halt = .run)
    (hwork : (domOf s (autoOf s die n).img.domain).work = []) (hl : lateCands s (autoOf s die n) = late) :
    let ws := late.map (fun c => Work.expire n c.seq)
    let t := modAuto s die n (fun a => { a with st := .armed })
    (late = [] → armNow x m die n s = .done t) ∧
    (late ≠ [] → armNow x m die n s = .done (runWork (workFuel ws) t (autoOf s die n).img.domain ws)) := by
  intro ws t
  subst hl
  have hdone : armNow x m die n s = .done (if ws.isEmpty then t else runWork (workFuel ws) t
    (autoOf s die n).img.domain ws) := by
    refine (if_neg ?_).trans (if_neg ?_)
    · simp [hm, he]
    · simp [hrun, hwork]
  rw [hdone]
  refine ⟨fun hnil => congrArg Res.done (if_pos ?_), fun hne => congrArg Res.done (if_neg ?_)⟩
  · simp [ws, hnil]
  · simpa [ws] using hne

theorem disarmNow_trap {m : W32} {die n : Nat} (h : autoMine s x die n [.armed] = false) :
    disarmNow x m die n s = .trap .automaton m 0 0 s :=
  if_pos (by simp [h])

theorem disarmNow_disarms {m : W32} {die n : Nat} (hm : autoMine s x die n [.armed] = true)
    (hw : ∀ w, w ∈ (domOf s (autoOf s die n).img.domain).work → w.ofSlot n = false) :
    disarmNow x m die n s = .done (modAuto s die n (fun a => { a with st := .loaded })) := by
  refine (if_neg ?_).trans (if_neg ?_)
  · simp [hm]
  · rw [List.any_eq_true]
    rintro ⟨w, hmem, hslot⟩
    exact absurd hslot (Bool.eq_false_iff.1 (hw w hmem))
end arm

section asave
variable {s : State} {x : Iss} {g : Guard} {f : FM}

/-- ASAVE in its turn (R382). -/
def saveNow (x : Iss) (m : W32) (die n va img : Nat) (s : State) : Res :=
  if !autoMine s x die n [.loaded] then .trap .automaton m 0 0 s
  else
    let a := autoOf s die n
    let bs := stateBytes a img
    structRange s x m 0 va bs.length (fun rs s => structRange s x m 0 img a.img.raw.length (fun is s =>
      .done (structWrite (structWrite s x.w is a.img.raw) x.w rs bs)))

theorem execAsave_ready (h : Ready s x .vector true g f.twait [.u f.data.toNat f.fe, .u f.base.toNat f.fe,
  .u (f.base.toNat + 1) f.fe]) :
    let m := guardMask x g
    let cw := (sreg x.grp f.data.toNat).toNat
    let va := (sreg x.grp f.base.toNat).toNat
    let img := (sreg x.grp (f.base.toNat + 1)).toNat
    execAsave g f s = finish x 1 (
      if cw ≥ 2 ^ 10 then .trap .automaton m 0 0 s
      else if va % 64 != 0 then .trap .align m va 0 s
      else if img % 64 != 0 then .trap .align m img 0 s
      else if !deviceReleased s x then .hold .nothing s
      else pluTurn x (bitsOf cw 8 2) (saveNow x m (bitsOf cw 8 2) (bitsOf cw 0 8) va img) s) := by
  intro m cw va img
  rw [execAsave]
  exact runWord_ready h

theorem saveNow_saves {m : W32} {die n va img : Nat} {rs is : List (Nat × Nat)} (hm : autoMine s x die n [.loaded] = true)
    (hp : s.poison = []) (hrs : heldRange s x m 1 va (stateBytes (autoOf s die n) img).length = some rs)
    (his : heldRange (dropWalks s x) x m 1 img (autoOf s die n).img.raw.length = some is) :
    saveNow x m die n va img s = .done (structWrite (structWrite (dropWalks (dropWalks s x) x) x.w is
      (autoOf s die n).img.raw) x.w rs
      (stateBytes (autoOf s die n) img)) := by
  refine (if_neg ?_).trans ((structRange_held hrs hp).trans (structRange_held his hp))
  simp [hm]
end asave

/-! ### The end of a cycle -/

/-- One instruction that asks has the next turn (R378). -/
theorem endAutos_one {s : State} {die c : Nat} {w : Who} (hgo : (dieOf s die).autoGo = none) (hq :
  (dieOf s die).autoQ = [(w, c)])
    (hw : atPlu s w = true) : endAutos s die = modDie s die (fun d => { d with autoGo := some w, autoQ := [] }) := by
  have hkept : ((dieOf s die).autoQ ++ ((dieOf s die).autoGo.map (fun w => (w, (dieOf s die).cycle))).toList).filter
      (fun e => atPlu s e.1) = [(w, c)] := by
    rw [hq, hgo]
    simp [hw]
  rw [endAutos, hkept]
  rfl

section settles
variable {s : State} {x : Iss} {g : Guard}

/-- ALOAD of an image in its turn (R379). -/
theorem aload_image {f : FM} {cw va die n : Nat} {h bs : List Byte} (hcw : (sreg x.grp f.data.toNat).toNat = cw)
    (hva : (sreg x.grp f.base.toNat).toNat = va) (hdie : bitsOf cw 8 2 = die) (hn : bitsOf cw 0 8 = n)
      (hf : cw.testBit 10 = false)
    (hready : Ready s x .vector true g f.twait [.u f.data.toNat f.fe,
      .u f.base.toNat f.fe]) (hlt : cw < 2 ^ 12) (hal : va % 64 = 0)
    (hrel : deviceReleased s x = true) (ht : (dieOf s die).autoGo = some x.w) (h11 : cw.testBit 11 = false)
    (hh : heldBytes (turnTaken s die) x (guardMask x g) va 64 = some h)
    (hbs : heldBytes (dropWalks (turnTaken s die) x) x (guardMask x g) va (imageSizes (ofBytesLE h)).2.2.2 = some bs) :
    let v := dropWalks (dropWalks (turnTaken s die) x) x
    let a := loadedAuto x.grp.ctx bs va
    (imageAccepted v x die n a bs →
      execAload g f s = .next (past x 1 (modAuto (charge v x.grp.ctx a.img.region { cand := 0 }) die n (fun _ => a)))) ∧
    (¬imageAccepted v x die n a bs → execAload g f s = finish x 1 (.trap .automaton (guardMask x g) 0 0 v)) := by
  intro v a
  subst hdie hn
  rw [(aload_loads hcw hva hf hready).2.2 hlt hal hrel]
  have hread : ∀ k,
    readImage (turnTaken s (bitsOf cw 8 2)) x (guardMask x g) va k = k bs v := fun k => readImage_held hh hbs
  refine ⟨fun hok => congrArg (finish x 1) (pluTurn_done ht ?_), fun hno => congrArg (finish x 1) (pluTurn_trap ht ?_)⟩ <;>
    refine (if_neg (Bool.eq_false_iff.1 h11)).trans ((hread _).trans ?_)
  · exact (acceptLoad_image v x _ _ _ a bs rfl).1 hok
  · exact (acceptLoad_image v x _ _ _ a bs rfl).2 hno

/-- AARM and ADISARM outside their turn, or with a bad control word (R377, R378). -/
theorem arm_waits {i : FI} {cw die : Nat} (hcw : armWord x i = cw) (hdie : bitsOf cw 8 2 = die)
    (h : Ready s x .vector true g 0 (armOpds i)) :
    (2 ^ 10 ≤ cw → execAarm g i s = finish x 1 (.trap .automaton (guardMask x g) 0 0 s) ∧
      execAdisarm g i s = finish x 1 (.trap .automaton (guardMask x g) 0 0 s)) ∧
    (cw < 2 ^ 10 → (dieOf s die).autoGo ≠ some x.w → execAarm g i s = .next (setBlocked (turnAsked s x die) x.w .plu) ∧
      execAdisarm g i s = .next (setBlocked (turnAsked s x die) x.w .plu)) := by
  subst hdie hcw
  rw [execAarm_ready h, execAdisarm_ready h]
  refine ⟨fun hle => ?_, fun hlt hq => ?_⟩
  · rw [if_pos hle, if_pos hle]
    exact ⟨rfl, rfl⟩
  · rw [if_neg (Nat.not_le.2 hlt), if_neg (Nat.not_le.2 hlt), pluTurn_wait hq, pluTurn_wait hq]
    exact ⟨rfl, rfl⟩

/-- AARM and ADISARM in their turn do what `armNow` and `disarmNow` say. -/
theorem arm_turn {i : FI} {cw die n : Nat} (hcw : armWord x i = cw) (hdie : bitsOf cw 8 2 = die) (hn : bitsOf cw 0 8 = n)
    (h : Ready s x .vector true g 0 (armOpds i)) (hlt : cw < 2 ^ 10) :
    execAarm g i s = finish x 1 (pluTurn x die (armNow x (guardMask x g) die n) s) ∧
    execAdisarm g i s = finish x 1 (pluTurn x die (disarmNow x (guardMask x g) die n) s) := by
  subst hn hdie hcw
  rw [execAarm_ready h, execAdisarm_ready h, if_neg (Nat.not_le.2 hlt), if_neg (Nat.not_le.2 hlt)]
  exact ⟨rfl, rfl⟩
end settles

/-- Settles O35: each instruction by its operands, and by its turn of the PLU. -/
theorem eventAndAutomatonInstructionsComplete : Obligations.EventAndAutomatonInstructionsComplete := by
  refine ⟨fun s x g f a => ⟨fun h => emit_completes h, fun h => streamReads_complete h⟩, fun s x g f i => ?automata,
    fun s die w c hgo hq hw => ?turns⟩
  case turns =>
    rw [endAutos_one hgo hq hw, dieOf_modDie, if_pos rfl]
    exact ⟨rfl, rfl⟩
  case automata =>
    intro m turn given bad queued
    refine ⟨?aload, ?arm, ?asave⟩
    case aload =>
      intro cw die n va p u
      refine ⟨fun hf h => ?_, fun hf h => ?_⟩
      · exact aload_frees (cw := cw) rfl rfl rfl hf h
      obtain ⟨hbad, halign, hgo⟩ := aload_loads (cw := cw) (va := va) rfl rfl hf h
      refine ⟨hbad, halign, fun hlt hva hr => ⟨fun hq => ?_, fun hd bs ht h11 hh hbs => ?_, fun t ht h11 hl => ?_⟩⟩
      · exact (hgo hlt hva hr).trans (congrArg (finish x 1) (pluTurn_wait hq))
      · exact aload_image (cw := cw) (va := va) rfl rfl rfl rfl hf h hlt hva hr ht h11 hh hbs
      · exact (hgo hlt hva hr).trans (congrArg (finish x 1) (pluTurn_done ht ((if_pos h11).trans hl)))
    case arm =>
      intro cw die n p a h
      obtain ⟨hbad, hwait⟩ := arm_waits (i := i) (cw := cw) (die := die) rfl rfl h
      refine ⟨hbad, hwait, fun hlt ht => ?_⟩
      obtain ⟨harm, hdisarm⟩ := arm_turn (i := i) (cw := cw) (die := die) (n := n) rfl rfl rfl h hlt
      refine ⟨fun hno => ?_, fun hm he hrun hwork => ?_, fun hno => ?_, fun hm hw => ?_⟩
      · exact harm.trans (congrArg (finish x 1) (pluTurn_trap ht (armNow_trap hno)))
      · intro late t
        obtain ⟨hnone, hlate⟩ := armNow_arms (x := x) (m := m) hm he hrun hwork (lateCands_eq p a)
        exact ⟨fun hnil => harm.trans (congrArg (finish x 1) (pluTurn_done ht (hnone hnil))),
          fun hne => harm.trans (congrArg (finish x 1) (pluTurn_done ht (hlate hne)))⟩
      · exact hdisarm.trans (congrArg (finish x 1) (pluTurn_trap ht (disarmNow_trap hno)))
      · exact hdisarm.trans (congrArg (finish x 1) (pluTurn_done ht (disarmNow_disarms hm hw)))
    case asave =>
      intro cw die n va img p a bs h
      have hsave : exec (.asave g f) s = finish x 1 (
          if cw ≥ 2 ^ 10 then .trap .automaton m 0 0 s
          else if va % 64 != 0 then .trap .align m va 0 s
          else if img % 64 != 0 then .trap .align m img 0 s
          else if !deviceReleased s x then .hold .nothing s
          else pluTurn x die (saveNow x m die n va img) s) := (exec_asave ..).trans (execAsave_ready h)
      refine ⟨fun hle => hsave.trans (congrArg (finish x 1) (if_pos hle)), fun hlt hva himg hr => ?_⟩
      have hgo : exec (.asave g f) s = finish x 1 (pluTurn x die (saveNow x m die n va img) s) := by
        refine hsave.trans (congrArg (finish x 1) ((if_neg (Nat.not_le.2 hlt)).trans ((if_neg ?_).trans ((if_neg ?_).trans
          (if_neg ?_)))))
        · simpa using hva
        · simpa using himg
        · simpa using hr
      refine ⟨fun hq => ?_, fun ht hm => ?_, fun rs is ht hm hp hrs his => ?_⟩
      · exact hgo.trans (congrArg (finish x 1) (pluTurn_wait hq))
      · exact hgo.trans (congrArg (finish x 1) (pluTurn_trap ht (if_pos (by simp [show autoMine
        (turnTaken s die) x die n [.loaded] = false from hm]))))
      · exact hgo.trans (congrArg (finish x 1) (pluTurn_done ht (saveNow_saves hm hp hrs his)))

end Sys2Proof.Proofs
end

