-- ==== Sys2Proof/Proofs/CombineInstructions.lean ====
section
/-!
CALLOC, CGATE, CPOST and CQRY (R383 to R387), SYSCALL, TRAP and BRKPT (R388, R391).
-/
namespace Sys2Proof.Proofs
open Sys2Proof.Machine

/-! ### CALLOC -/

section calloc
variable {s : State} {x : Iss} {g : Guard} {a : FA} {die va : Nat}

/-- A batch whose words have been read (R168, R169, R383). -/
def batchRead (x : Iss) (m : W32) (a : FA) (die : Nat) (bs : List Byte) (s : State) : Res :=
  let v := ofBytesLE bs
  if !batchOk v then .trap .combine m 0 0 s
  else
    let b := batchOf v x.grp.ctx x.grp.region x.grp.launch
    structRead s x m 0 (bitsOf v 256 64) (64 * b.n) (fun ts s =>
      let recs := (List.range b.n).map (fun t => bytesAt ts (64 * t) 64)
      if !recs.all (fun r => tokenOk r b.kmax) then .trap .combine m 0 0 s
      else
        let (id, s) := freshId s
        let s := onGroup s x (fun k => produceU k id a.dst.toNat 0)
        .issued .nothing (beginWait s x (.calloc id die a.rnd.toNat a.sat b (recs.map tokenRows))))

/-- CALLOC at its issue, past its operands (R383). -/
theorem execCalloc_ready (hdie : (sreg x.grp a.srcb.toNat).toNat = die) (hva : (sreg x.grp a.srca.toNat).toNat = va)
    (h : Ready s x .vector true g 0 [.u a.srca.toNat a.fea, .u a.srcb.toNat a.feb]) (hw : x.sp.wait = none) :
    execCalloc g a s = finish x 1 (
      if die ≥ 4 then .trap .combine (guardMask x g) 0 0 s
      else if va % 64 != 0 then .trap .align (guardMask x g) va 0 s
      else if !deviceReleased s x then .hold .nothing s
      else structRead s x (guardMask x g) 0 va 64 (batchRead x (guardMask x g) a die)) := by
  subst hdie hva
  rw [execCalloc, orWait_issue h.1 hw]
  exact runWord_ready h

/-- CALLOC whose batch is held (R371). -/
theorem execCalloc_reads {bs : List Byte} (hdie : (sreg x.grp a.srcb.toNat).toNat = die) (hva :
  (sreg x.grp a.srca.toNat).toNat = va)
    (h : Ready s x .vector true g 0 [.u a.srca.toNat a.fea, .u a.srcb.toNat a.feb]) (hw : x.sp.wait = none)
    (hlt : die < 4) (hal : va % 64 = 0) (hr : deviceReleased s x = true) (hbs : heldBytes s x
      (guardMask x g) va 64 = some bs) :
    execCalloc g a s = finish x 1 (batchRead x (guardMask x g) a die bs (dropWalks s x)) := by
  rw [execCalloc_ready hdie hva h hw, if_neg (Nat.not_le.2 hlt)]
  refine congrArg (finish x 1) ((if_neg ?_).trans ((if_neg ?_).trans (structRead_held hbs)))
  · simpa using hal
  · simpa using hr

theorem batchRead_bad {m : W32} {bs : List Byte} (hb : batchOk (ofBytesLE bs) = false) :
    batchRead x m a die bs s = .trap .combine m 0 0 s :=
  if_pos (by simp [hb])

/-- A good batch whose token records are held. -/
theorem batchRead_tokens {m : W32} {bs ts : List Byte} {b : Batch} (hb : batchOf
  (ofBytesLE bs) x.grp.ctx x.grp.region x.grp.launch = b)
    (hok : batchOk (ofBytesLE bs) = true) (hts : heldBytes s x m (bitsOf (ofBytesLE bs) 256 64) (64 * b.n) = some ts) :
    let v := dropWalks s x
    ((∃ t, t < b.n ∧ tokenOk (bytesAt ts (64 * t) 64) b.kmax = false) → batchRead x m a die bs s = .trap .combine m 0 0 v) ∧
    ((∀ t,
      t < b.n → tokenOk (bytesAt ts (64 * t) 64) b.kmax = true) → batchRead x m a die bs s = .issued .nothing (beginWait
      (onGroup { v with nextId := v.nextId + 1 } x (fun k => produceU k v.nextId a.dst.toNat 0)) x
      (.calloc v.nextId die a.rnd.toNat a.sat b ((List.range b.n).map (fun t => tokenRows (bytesAt ts
        (64 * t) 64)))))) := by
  intro v
  subst hb
  have hread := fun k => structRead_held (path := 0) (k := k) hts
  refine ⟨fun ⟨t, ht, hbad⟩ => ?_, fun hall => ?_⟩ <;>
    refine (if_neg (by simp [hok])).trans ((hread _).trans ?_)
  · refine if_pos ?_
    simp only [List.all_map, Bool.not_eq_true', List.all_eq_false]
    exact ⟨t, List.mem_range.2 ht, by simp [hbad]⟩
  · refine (if_neg ?_).trans ?_
    · simp only [List.all_map, Bool.not_eq_true', Bool.not_eq_false, List.all_eq_true]
      exact fun t ht => hall t (List.mem_range.1 ht)
    · simp only [List.map_map]
      rfl
end calloc

/-! ### CGATE and CPOST -/

section posts
variable {s : State} {x : Iss} {g : Guard}

theorem execCgate_ready {a : FA} {h v : Nat} (hh : (sreg x.grp a.srca.toNat).toNat = h) (hv :
  (sreg x.grp a.srcb.toNat).toNat = v)
    (hr : Ready s x .vector true g 0 [.u a.srca.toNat a.fea, .u a.srcb.toNat a.feb]) (hw : x.sp.wait = none) :
    execCgate g a s = finish x 1 (
      if bitsOf v 40 24 != 0 then .trap .combine (guardMask x g) 0 0 s
      else if (dieOf s (bitsOf h 13 2)).combining then .hold .nothing s
      else askUnit { s with nextId := s.nextId + 1 } x (guardMask x g) (bitsOf h 13 2) s.nextId (.gate h v)) := by
  subst hh hv
  rw [execCgate, orWait_issue hr.1 hw]
  exact runWord_ready hr

/-- The operands of CPOST (R385): its chunk's registers, empty in any lane, trap or wait in all of the guard's. -/
abbrev cpostOpds (x : Iss) (m : W32) (f : FM) : List Opd :=
  let n := if f.wid == 3 then 2 else 1
  [.u f.base.toNat f.fe, .v f.data.toNat n id f.fe,
    .pre (if (List.range 32).any (fun l => (List.range n).any (fun i => vEmpty x.wp
      (f.data.toNat + i) l)) then m else 0) .nothing f.fe]

/-- The chunk that CPOST gives to the Cistern (R385). -/
def postedChunk (s : State) (x : Iss) (f : FM) (v : Nat) : Chunk where
  who := x.w
  id := s.nextId
  q := bitsOf v 48 8
  gen := bitsOf v 32 16
  expert := bitsOf v 24 8
  slot := bitsOf v 0 13
  wide := f.wid == 3
  data := (List.range 32).flatMap (fun l =>
    bytesLE (4 * (if f.wid == 3 then 2 else 1)) (vregN x.wp f.data.toNat (if f.wid == 3 then 2 else 1) l))
  fromDie := x.die
  at_ := (dieOf s (bitsOf v 13 2)).cycle

theorem execCpost_ready {f : FM} {v : Nat} (hv : (sreg x.grp f.base.toNat).toNat = v)
    (hr : Ready s x .vector true g f.twait (cpostOpds x (guardMask x g) f)) (hw : x.sp.wait = none) :
    execCpost g f s = finish x 1 (
      if bitsOf v 56 8 != 0 || bitsOf v 15 9 != 0 then .trap .combine (guardMask x g) 0 0 s
      else if !(pendingAcqs s x).isEmpty then .hold .nothing s
      else .issued .nothing (beginWait (modDie { s with nextId := s.nextId + 1 } (bitsOf v 13 2) (fun e =>
        { e with chunkQ := e.chunkQ ++ [postedChunk s x f v] })) x (.answer s.nextId (guardMask x g)))) := by
  subst hv
  simp only [execCpost]
  rw [orWait_issue hr.1 hw]
  exact runWord_ready hr
end posts

/-! ### The Cistern's answers -/

section cistern
variable {s : State} {die : Nat}

/-- A CALLOC that the Cistern of its die serves (R166, R383). -/
theorem serveCalloc_waiting {w : Who} {id creg : Nat} {keep : Bool} {b : Batch} {rows : List (List (Nat × W32 × Nat))}
    (h : waitOf s w = some (.calloc id die creg keep b rows)) :
    serveCalloc s die w = match callocTry s die b rows with
      | some (h, s) => callocAnswer s w id creg h true
      | none => if keep then s else callocAnswer s w id creg 0 false := by
  cases hc : callocTry s die b rows <;> simp only [serveCalloc, h, hc, bne_self_eq_false, Bool.false_eq_true, if_false]

/-- The position of an expert among a slot's rows (R384). -/
def expertPos (c : CSlot) (v : Nat) : Option Nat :=
  (List.range c.rows.length).find? (fun p => (c.rows.getD p (0, 0, 0)).1 == bitsOf v 32 8)

theorem gateSlot_unexpected {h v : Nat} (he : expertPos (cslotOf s die (bitsOf h 0 13)) v = none) :
    gateSlot s die h v = (some .combine, s) := by
  simp only [gateSlot]
  rw [show List.find? _ _ = none from he]

theorem gateSlot_expected {h v p : Nat} (he : expertPos (cslotOf s die (bitsOf h 0 13)) v = some p) :
    gateSlot s die h v =
      if bitsOf h 32 16 != (cslotOf s die (bitsOf h 0 13)).gen || (cslotOf s die (bitsOf h 0 13)).st != .open_ then
        (some .combine, s)
      else (none, modCslot s die (bitsOf h 0 13) (fun c =>
        { c with rows := listSet c.rows p ((c.rows.getD p (0, 0, 0)).1, BitVec.ofNat 32 v, (c.rows.getD p (0, 0,
          0)).2.2) })) := by
  simp only [gateSlot]
  rw [show List.find? _ _ = some p from he]
end cistern

/-- Settles O36: each instruction by its tests, and the Cistern's answers. -/
theorem combineInstructionsComplete : Obligations.CombineInstructionsComplete := by
  refine ⟨fun s x g a f => ?issue, fun s die w => ⟨fun id creg keep b rows hwait => ?calloc, fun h v p => ?gate, fun h v =>
    gateSlot_unexpected⟩⟩
  case calloc =>
    intro answer
    rw [serveCalloc_waiting hwait]
    exact ⟨fun h t ht => by rw [ht]; rfl, fun hn hk => by rw [hn, hk]; rfl, fun hn hk => by rw [hn, hk]; rfl⟩
  case gate =>
    intro c he
    rw [gateSlot_expected he]
    refine ⟨fun hg hst => if_neg ?_, fun hno => if_pos ?_⟩
    · simp [show bitsOf h 32 16 = (cslotOf s die (bitsOf h 0 13)).gen from hg,
      show (cslotOf s die (bitsOf h 0 13)).st = .open_ from hst]
    · rcases hno with hno | hno
      · simp [show bitsOf h 32 16 ≠ (cslotOf s die (bitsOf h 0 13)).gen from hno]
      · simp [show (cslotOf s die (bitsOf h 0 13)).st ≠ .open_ from hno]
  case issue =>
    intro m u bad
    refine ⟨fun bs ts => ?_, ?_, ?_, fun h => ?_⟩
    · intro die va b rows v h hw
      have hready := execCalloc_ready (die := die) (va := va) rfl rfl h hw
      have hreads := fun (bs : List Byte) => execCalloc_reads (die := die) (va := va) (bs := bs) rfl rfl h hw
      refine ⟨fun hle => ?_, fun hlt hal => ?_, fun hlt hal hr hbs hb => ?_, fun hlt hal hr hbs hb hts => ?_⟩
      · exact (exec_calloc ..).trans (hready.trans (congrArg (finish x 1) (if_pos hle)))
      · refine (exec_calloc ..).trans (hready.trans (congrArg (finish x 1) ((if_neg (Nat.not_le.2 hlt)).trans (if_pos ?_))))
        simpa using hal
      · exact (exec_calloc ..).trans ((hreads bs hlt hal hr hbs).trans (congrArg (finish x 1) (batchRead_bad hb)))
      · have hgo := (exec_calloc ..).trans (hreads bs hlt hal hr hbs)
        obtain ⟨hno, hall⟩ := batchRead_tokens (die := die) (a := a) (b := b) rfl hb hts
        exact ⟨fun he => hgo.trans (congrArg (finish x 1) (hno he)), fun ha => hgo.trans (congrArg (finish x 1) (hall ha))⟩
    · intro h v hr hw
      rw [exec_cgate, execCgate_ready (h := h) (v := v) rfl rfl hr hw]
      refine ⟨fun hn => congrArg (finish x 1) (if_pos ?_),
        fun hz hc => congrArg (finish x 1) ((if_neg ?_).trans (if_pos hc)),
        fun hz hc => congrArg (finish x 1) ((if_neg ?_).trans (if_neg (Bool.eq_false_iff.1 hc)))⟩
      · simpa using hn
      all_goals simpa using hz
    · intro n v hr hw
      rw [exec_cpost, execCpost_ready (v := v) rfl hr hw]
      refine ⟨fun hn => congrArg (finish x 1) (if_pos ?_),
        fun hz hz' hp => congrArg (finish x 1) ((if_neg ?_).trans (if_pos ?_)),
        fun hz hz' hp => congrArg (finish x 1) ((if_neg ?_).trans (if_neg ?_))⟩
      · simpa using hn
      · simpa using ⟨hz, hz'⟩
      · simpa using hp
      · simpa using ⟨hz, hz'⟩
      · simpa using hp
    · intro hh
      rw [exec_cqry, execCqry]
      exact runWord_ready h

/-! ### SYSCALL, TRAP and BRKPT -/

/-- Settles O37: each instruction past its operands. -/
theorem systemCallsAndTrapsComplete : Obligations.SystemCallsAndTrapsComplete := by
  intro s x g a i m
  refine ⟨fun h hout hrel => ?_, fun h => ?_⟩
  · intro service seq t
    rw [exec_syscall, execSyscall]
    refine (runWord_ready h).trans (congrArg (finish x 1) (if_neg ?_))
    simp [hout, hrel]
  · have htrap : ∀ (c : Cause) (code : Nat),
        finish x 1 (.trap c m 0 code s) = .next (takeTrap (noteIssue s x) x.w c m 0 code 1) := fun c code => by
      rw [finish, h.2.2.2.1 rfl]
      rfl
    refine ⟨?_, fun hd => ?_, fun hd => ?_⟩
    · rw [exec_trap, execTrap]
      exact (runWord_ready h).trans (htrap ..)
    · rw [exec_brkpt, execBrkpt]
      exact (runWord_ready h).trans (congrArg (finish x 1) (if_pos hd))
    · rw [exec_brkpt, execBrkpt]
      exact (runWord_ready h).trans ((congrArg (finish x 1) (if_neg hd)).trans (htrap ..))

end Sys2Proof.Proofs
end

