-- ==== Sys2Proof/Proofs/VideoInstructions.lean ====
section
/-!
VDSUB, BQPUT and BQGET, and the queues at the end of a cycle (R109, R110, R393, R394).
-/
namespace Sys2Proof.Proofs
open Sys2Proof.Machine

/-! ### Operations on a queue -/

section queues
variable {s : State} {die q : Nat} {w : Who}

theorem runQueueOp_disabled {op : AskOp} (ho : op.queue = some q) (h : (bqOf s die q).enabled = false) :
    runQueueOp s die w op = (2, s) := by
  cases op <;> simp_all [AskOp.queue, runQueueOp]

/-- A put where the queue has room (R109). -/
theorem runQueueOp_put {e : List Byte} (he : (bqOf s die q).enabled = true) (hr : (bqOf s die q).ents.length <
  (bqOf s die q).cap) :
    runQueueOp s die w (.put q e) = (0, modBq s die q (fun b => { b with ents := b.ents ++ [e] })) := by
  have hput : bqPut s die q e = some (modBq s die q (fun b => { b with ents := b.ents ++ [e] })) := by
    rw [bqPut]
    exact if_neg (by simpa [he, BQ.full] using hr)
  simp only [runQueueOp, he, hput]
  rfl

theorem runQueueOp_putFull {e : List Byte} (he : (bqOf s die q).enabled = true) (hr : (bqOf s die q).cap ≤
  (bqOf s die q).ents.length) :
    runQueueOp s die w (.put q e) = (1, s) := by
  have hput : bqPut s die q e = none := by
    rw [bqPut]
    exact if_pos (by simpa [he, BQ.full] using hr)
  simp only [runQueueOp, he, hput]
  rfl

/-- A get of a queue with an entry (R109). -/
theorem runQueueOp_get {rs : List (Nat × Nat)} {e : List Byte} {r : List (List Byte)} (he : (bqOf s die q).enabled = true)
    (hr : (bqOf s die q).ents = e :: r) :
    runQueueOp s die w (.get q rs) = (0,
      acquireWide (settleDecoders (structWrite (modBq s die q (fun b => { b with ents := r })) w rs e)
      (ctxOfRole s w)) w) := by
  have hget : bqGet s die q = some (e, modBq s die q (fun b => { b with ents := r })) := by
    simp only [bqGet, hr, he]
    rfl
  simp only [runQueueOp, he, hget]
  rfl

theorem runQueueOp_getEmpty {rs : List (Nat × Nat)} (he : (bqOf s die q).enabled = true) (hr : (bqOf s die q).ents = []) :
    runQueueOp s die w (.get q rs) = (1, s) := by
  have hget : bqGet s die q = none := by
    simp only [bqGet, hr]
  simp only [runQueueOp, he, hget]
  rfl

theorem mustMeet_disabled {b : BQ} (op : AskOp) (h : b.enabled = false) : mustMeet b op = false := by
  cases op <;> simp [mustMeet, h]

theorem mustMeet_put {b : BQ} {q : Nat} {e : List Byte} (h : b.enabled = true) :
    mustMeet b (.put q e) = true ↔ b.cap ≤ b.ents.length := by
  simp [mustMeet, h, BQ.full]

theorem mustMeet_get {b : BQ} {q : Nat} {rs : List (Nat × Nat)} (h : b.enabled = true) :
    mustMeet b (.get q rs) = true ↔ b.ents.length < b.cap := by
  simp [mustMeet, h, BQ.full]

/-- The asker told at the end of the cycle (R394). -/
theorem answerQueue_of {a : Ask} {st : Nat} {t : State} (hq : a.op.queue = some q) (h : runQueueOp s die a.who a.op = (st,
  t)) :
    answerQueue s die a = answerRole (modGroup t a.who.core a.who.gslot
      (fun k => arriveU k a.id ((bqOf t die q).ents.length * 2 ^ 32 + st))) a.who a.id none := by
  rw [answerQueue, h, hq]
  rfl
end queues

/-! ### BQPUT and BQGET -/

section instructions
variable {s : State} {x : Iss} {g : Guard} {f : FM} {v va : Nat}

/-- The operands of VDSUB, BQPUT and BQGET. -/
abbrev descOpds (f : FM) : List Opd := [.u f.data.toNat f.fe, .u f.base.toNat f.fe]

/-- VDSUB past its tests (R393). -/
theorem execVdsub_reads {bs : List Byte} (hv : (sreg x.grp f.data.toNat).toNat = v) (hva :
  (sreg x.grp f.base.toNat).toNat = va)
    (h : Ready s x .vector true g f.twait (descOpds f)) (hlt : v < 2 ^ 5)
    (hmask : (partOf s (ctxOf s x.grp.ctx).part).decmask.testBit (8 * (v / 8 % 4) + v % 8) = true) (hal : va % 64 = 0)
    (hroom : (decOf s (v / 8 % 4) (v % 8)).queue.length < 16) (hr : deviceReleased s x = true)
    (hbs : heldBytes s x (guardMask x g) va 64 = some bs) :
    execVdsub g f s = .next (past x 1 (modDec (addToken (dropWalks s x) x.w (tokOf f.tse f.tslot) 1) (v / 8 % 4) (v % 8)
      (fun d => { d with
      queue := d.queue ++ [{
        va := va
        ctx := x.grp.ctx
        region := x.grp.region
        launch := x.grp.launch
        tok := (tokOf f.tse f.tslot).map (fun k => (x.w, k)) }]
      st := if d.st == .idle then .busy else d.st }))) := by
  subst hv hva
  rw [execVdsub]
  refine (runWord_ready h).trans (congrArg (finish x 1) ((if_neg (Nat.not_le.2 hlt)).trans ((if_neg ?_).trans
    ((if_neg ?_).trans
    ((if_neg ?_).trans (structRead_held hbs))))))
  · simp [hmask]
  · simp [hal]
  · simpa [hr] using hroom

theorem withQueue_bound {m : W32} {k : Nat → Nat → Nat → Res} (hv : (sreg x.grp f.data.toNat).toNat = v)
    (hva : (sreg x.grp f.base.toNat).toNat = va) (hlt : v < 2 ^ 7)
    (hb : (bqOf s (v / 32 % 4) (v % 32)).enabled = true → (bqOf s (v / 32 % 4) (v % 32)).part = (ctxOf s x.grp.ctx).part)
    (hal : va % 64 = 0) : withQueue s x m f k = k (v / 32 % 4) (v % 32) va := by
  subst hv hva
  rw [withQueue]
  refine (if_neg (Nat.not_le.2 hlt)).trans ((if_neg ?_).trans (if_neg ?_))
  · cases he : (bqOf s ((sreg x.grp f.data.toNat).toNat / 32 % 4) ((sreg x.grp f.data.toNat).toNat % 32)).enabled
    · simp [bqBound, he]
    · simp [bqBound, hb he]
  · simpa using hal

/-- BQPUT past its tests: its entry read, it asks its queue (R394). -/
theorem execBqput_reads {e : List Byte} (hv : (sreg x.grp f.data.toNat).toNat = v) (hva :
  (sreg x.grp f.base.toNat).toNat = va)
    (h : Ready s x .vector true g f.twait (descOpds f)) (hw : x.sp.wait = none) (hlt : v < 2 ^ 7)
    (hb : (bqOf s (v / 32 % 4) (v % 32)).enabled = true → (bqOf s (v / 32 % 4) (v % 32)).part = (ctxOf s x.grp.ctx).part)
    (hal : va % 64 = 0) (hr : deviceReleased s x = true) (he : heldBytes s x (guardMask x g) va 64 = some e) :
    execBqput g f s = finish x 1 (askQueue (dropWalks s x) x (guardMask x g) f.data.toNat (v / 32 % 4) (v % 32) (.put
      (v % 32) e)) := by
  rw [execBqput, orWait_issue h.1 hw]
  refine (runWord_ready h).trans (congrArg (finish x 1) ((withQueue_bound hv hva hlt hb hal).trans ((if_neg ?_).trans ?_)))
  · simpa using hr
  · exact structRead_held he

/-- BQGET past its tests: it asks its queue (R394). -/
theorem execBqget_reads {rs : List (Nat × Nat)} (hv : (sreg x.grp f.data.toNat).toNat = v) (hva :
  (sreg x.grp f.base.toNat).toNat = va)
    (h : Ready s x .vector true g f.twait (descOpds f)) (hw : x.sp.wait = none) (hlt : v < 2 ^ 7)
    (hb : (bqOf s (v / 32 % 4) (v % 32)).enabled = true → (bqOf s (v / 32 % 4) (v % 32)).part = (ctxOf s x.grp.ctx).part)
    (hal : va % 64 = 0) (hr : deviceReleased s x = true) (he : heldRange s x (guardMask x g) 1 va 64 = some rs)
      (hp : s.poison = []) :
    execBqget g f s = finish x 1 (askQueue (dropWalks s x) x (guardMask x g) f.data.toNat (v / 32 % 4) (v % 32) (.get
      (v % 32) rs)) := by
  rw [execBqget, orWait_issue h.1 hw]
  refine (runWord_ready h).trans (congrArg (finish x 1) ((withQueue_bound hv hva hlt hb hal).trans ((if_neg ?_).trans ?_)))
  · simpa using hr
  · exact structRange_held he hp

/-- The state in which a queue is asked (R110, R394): s[DATA] empty until the answer. -/
def askedState (u : State) (x : Iss) (r : Nat) : State :=
  onGroup { u with nextId := u.nextId + 1 } x (fun k => produceU k u.nextId r 0)

@[simp] theorem bqOf_askedState (u : State) (x : Iss) (r die q : Nat) : bqOf (askedState u x r) die q = bqOf u die q := by
  simp [bqOf, askedState, dieOf]

@[simp] theorem bqOf_dropWalks (s : State) (x : Iss) (die q : Nat) : bqOf (dropWalks s x) die q = bqOf s die q := by
  simp only [bqOf, dropWalks, dieOf_modDie]
  split
  · next h => rw [h]
  · rfl

/-- The status word answered at once (R394). -/
def statusNow (x : Iss) (id die q : Nat) (r : State) (st : Nat) : State :=
  onGroup r x (fun k => arriveU k id ((bqOf r die q).ents.length * 2 ^ 32 + st))

theorem askQueue_eq (u : State) (x : Iss) (m : W32) (r die q : Nat) (op : AskOp) :
    askQueue u x m r die q op =
      if mustMeet (bqOf (askedState u x r) die q) op then askUnit (askedState u x r) x m die u.nextId op
      else .done (statusNow x u.nextId die q (runQueueOp (askedState u x r) die x.w op).2 (runQueueOp
        (askedState u x r) die x.w op).1) := rfl

theorem askQueue_now {u t : State} {m : W32} {r die q st : Nat} {op : AskOp} (hm : mustMeet (bqOf u die q) op = false)
    (h : runQueueOp (askedState u x r) die x.w op = (st, t)) :
    askQueue u x m r die q op = .done (statusNow x u.nextId die q t st) := by
  rw [askQueue_eq, bqOf_askedState, hm, h]
  rfl

theorem askQueue_meets {u : State} {m : W32} {r die q : Nat} {op : AskOp} (hm : mustMeet (bqOf u die q) op = true) :
    askQueue u x m r die q op = askUnit (askedState u x r) x m die u.nextId op := by
  rw [askQueue_eq, bqOf_askedState, hm]
  rfl

/-- The context of a role is what it was when its group's registers wait for a value. -/
theorem ctxOfRole_askedState (u : State) (x : Iss) (r : Nat) : ctxOfRole (askedState u x r) x.w = ctxOfRole u x.w := by
  cases hk : groupAt u x.w.core x.w.gslot with
  | none =>
    have hsame : askedState u x r = { u with nextId := u.nextId + 1 } := by
      simp only [askedState, onGroup, modGroup]
      rw [show groupAt { u with nextId := u.nextId + 1 } x.w.core x.w.gslot = none from hk]
    rw [hsame]
    rfl
  | some k =>
    have hk' : groupAt (askedState u x r) x.w.core x.w.gslot = some (produceU k u.nextId r 0) :=
      groupAt_modGroup_same (s := { u with nextId := u.nextId + 1 }) hk
    rw [ctxOfRole, ctxOfRole, hk, hk']
    rfl

theorem ctxOfRole_dropWalks (s : State) (x : Iss) (w : Who) : ctxOfRole (dropWalks s x) w = ctxOfRole s w := rfl
end instructions

/-! ### The end of a cycle -/

theorem sortBy_two {α : Type} (le : α → α → Bool) (a b : α) : sortBy le [a, b] = [a, b] ∨ sortBy le [a, b] = [b, a] := by
  simp only [sortBy, List.foldl_cons, List.foldl_nil, insertBy]
  split
  · exact .inl rfl
  · exact .inr rfl

/-- A put and a get that meet at a queue, in the order of R110. -/
theorem meetQueue_two {s : State} {die q : Nat} {p r : Ask} {e : List Byte} {rs : List (Nat × Nat)} (hp : p.op = .put q e)
    (hr : r.op = .get q rs) (hasks : (dieOf s die).asks = [p, r] ∨ (dieOf s die).asks = [r, p]) :
    meetQueue s die q =
      if (bqOf s die q).full then answerQueue (answerQueue (modDie s die (fun d => { d with asks := [] })) die r) die p
      else answerQueue (answerQueue (modDie s die (fun d => { d with asks := [] })) die p) die r := by
  have htaken : ∀ le : Ask → Ask → Bool, sortBy le ((dieOf s die).asks.filter (fun a => a.op.queue == some q)) = [p, r] ∨
      sortBy le ((dieOf s die).asks.filter (fun a => a.op.queue == some q)) = [r, p] := by
    intro le
    rcases hasks with hasks | hasks <;> rw [hasks] <;> simp only [List.filter_cons, List.filter_nil, hp, hr, AskOp.queue,
      BEq.rfl, if_true]
    · exact sortBy_two le p r
    · exact (sortBy_two le r p).symm
  have hleft : modDie s die (fun d => { d with asks := d.asks.filter (fun a => !(a.op.queue == some q)) }) =
      modDie s die (fun d => { d with asks := [] }) := by
    refine congrArg (fun d => { s with dies := mapSet s.dies die { dieOf s die with asks := d } }) ?_
    rcases hasks with hasks | hasks <;> simp [hasks, hp, hr, AskOp.queue]
  have hfull : bqOf (modDie s die (fun d => { d with asks := [] })) die q = bqOf s die q := by
    simp [bqOf]
  simp only [meetQueue, takeAsks, hleft, hfull]
  rcases htaken (fun a b => decide (homeKey s die a.who ≤ homeKey s die b.who)) with hs | hs <;>
    rw [hs] <;> simp only [List.filter_cons, List.filter_nil, hp, hr] <;> cases (bqOf s die q).full <;> rfl

/-- Settles O38: each instruction by its queue, and the queues at the end of a cycle. -/
theorem videoInstructionsComplete : Obligations.VideoInstructionsComplete := by
  refine ⟨fun s x g f => ?issue, fun s die q p r e rs => ?meet, fun s die a => ?told⟩
  case told =>
    intro told
    refine ⟨fun q e ho he => ⟨fun hlt => ?_, fun hle => ?_⟩, fun q rs ho he => ⟨fun e r hents => ?_, fun hents => ?_⟩⟩ <;>
      refine answerQueue_of (by rw [ho]; rfl) (ho ▸ ?_)
    · exact runQueueOp_put he hlt
    · exact runQueueOp_putFull he hle
    · exact runQueueOp_get he hents
    · exact runQueueOp_getEmpty he hents
  case meet =>
    intro b t hp hr hasks
    rw [meetQueue_two hp hr hasks]
    exact ⟨fun hle => if_pos (by simpa [BQ.full] using hle), fun hlt => if_neg (by simpa [BQ.full] using hlt)⟩
  case issue =>
    intro m u v va h hal hrel
    refine ⟨fun bs hlt hmask hroom hbs => ?_, ?_⟩
    · intro tok
      rw [exec_vdsub, execVdsub_reads (v := v) (va := va) rfl rfl h hlt hmask hal hroom hrel hbs]
      simp only [beq_iff_eq]
      rfl
    · intro die q b t answer taken asked hlt hw hpart
      have hbq : bqOf (askedState u x f.data.toNat) die q = b := (bqOf_askedState ..).trans (bqOf_dropWalks ..)
      have hmeet : ∀ op,
        mustMeet (bqOf u die q) op = mustMeet b op := fun op => congrArg (mustMeet · op) (bqOf_dropWalks ..)
      refine ⟨fun e he => ?_, fun rs hrs hp => ?_⟩
      · have hput : exec (.bqput g f) s = finish x 1 (askQueue u x m f.data.toNat die q (.put q e)) :=
          (exec_bqput ..).trans (execBqput_reads (v := v) (va := va) rfl rfl h hw hlt hpart hal hrel he)
        refine ⟨fun hd => ?_, fun hen hroom => ?_, fun hen hfull => ?_⟩
        · rw [hput, askQueue_now ((hmeet _).trans (mustMeet_disabled _ hd)) (runQueueOp_disabled rfl (hbq ▸ hd))]
          rfl
        · rw [hput, askQueue_now ((hmeet _).trans ?_) (runQueueOp_put (hbq ▸ hen) (hbq ▸ hroom))]
          · rfl
          · exact Bool.eq_false_iff.2 (mt (mustMeet_put hen).1 (Nat.not_le.2 hroom))
        · rw [hput, askQueue_meets ((hmeet _).trans ((mustMeet_put hen).2 hfull))]
          rfl
      · have hget : exec (.bqget g f) s = finish x 1 (askQueue u x m f.data.toNat die q (.get q rs)) :=
          (exec_bqget ..).trans (execBqget_reads (v := v) (va := va) rfl rfl h hw hlt hpart hal hrel hrs hp)
        refine ⟨fun hd => ?_, fun e r hen hfull hents => ?_, fun hen hroom => ?_⟩
        · rw [hget, askQueue_now ((hmeet _).trans (mustMeet_disabled _ hd)) (runQueueOp_disabled rfl (hbq ▸ hd))]
          rfl
        · have hrole : ctxOfRole (modBq t die q (fun b => { b with ents := r })) x.w = ctxOfRole s x.w :=
            (ctxOfRole_askedState u x f.data.toNat).trans (ctxOfRole_dropWalks s x x.w)
          have hop : runQueueOp (askedState u x f.data.toNat) die x.w (.get q rs) =
              (0, taken (modBq t die q (fun b => { b with ents := r })) x.w rs e) := by
            rw [runQueueOp_get (hbq ▸ hen) (hbq ▸ hents)]
            exact congrArg (fun c => (0, acquireWide (settleDecoders _ c) x.w)) hrole
          rw [hget, askQueue_now ((hmeet _).trans ?_) hop]
          · rfl
          · exact Bool.eq_false_iff.2 (mt (mustMeet_get hen).1 (Nat.not_lt.2 hfull))
        · rw [hget, askQueue_meets ((hmeet _).trans ((mustMeet_get hen).2 hroom))]
          rfl

end Sys2Proof.Proofs
end

