-- ==== Sys2Proof/Proofs/Packets.lean ====
section
/-!
The register steps of the host (R7, R105, R457) and the ring packets about events and contexts (R75 to R102).
-/
namespace Sys2Proof.Proofs
open Sys2Proof.Machine

/-! ### Register steps -/

section registers
variable {s : State} {fn ring vf : Nat} {tail : BitVec 16} {v : BitVec 128} {on : Bool}

/-- What wakes a ring (R105): it is IDLE and has work. -/
theorem wakeRing_eq (r : Ring) :
    wakeRing r = if r.st = .idle ∧ r.tail % 2 ^ (r.logsz + 6) ≠ r.head then { r with st := .running } else r := by
  have htest : (r.st == .idle && r.hasWork) = true ↔ r.st = .idle ∧ r.tail % 2 ^ (r.logsz + 6) ≠ r.head := by
    simp [Ring.hasWork, Ring.capacity]
  rw [wakeRing, ite_congr (propext htest) (fun _ => rfl) (fun _ => rfl)]

/-- No register write takes effect in D3COLD (R460), nor in a ring register one of another function. -/
theorem ringWrites_refused (h : fn ≠ 0 ∨ s.power = .d3cold) :
    execRingDoorbell fn ring tail s = .next s ∧ execRingEnable fn ring s = .next s ∧ execRegisterWrite fn ring v s = .next s := by
  have htest : (fn != 0 || decide (ring ≥ 64) || s.power == .d3cold) = true := by
    rcases h with h | h <;> simp [h]
  refine ⟨if_pos htest, if_pos ?_, if_pos htest⟩
  rw [htest, Bool.true_or]

/-- A ring register that the PF may write (R105). -/
theorem ringWrites_taken (hr : ring < 64) (hp : s.power ≠ .d3cold) : ¬((0 : Nat) != 0 || decide
  (ring ≥ 64) || s.power == .d3cold) = true := by
  simpa [hp] using hr

theorem registerWrite_fields (hr : ring < 64) (hp : s.power ≠ .d3cold) :
    execRegisterWrite 0 ring v s = .next (modRing s ring (fun r => { r with
      base := v.toNat / 2 ^ 64
      pasid := v.toNat / 2 ^ 12 % 2 ^ 20
      fe := v.toNat / 2 ^ 8 % 2 ^ 4
      logsz := v.toNat / 2 ^ 4 % 2 ^ 4
      en := r.en && v.getLsbD 0 })) := by
  have hbase : bitsOf v.toNat 64 64 = v.toNat / 2 ^ 64 := by
    have hlt := v.isLt
    rw [bitsOf, Nat.shiftRight_eq_div_pow, Nat.mod_eq_of_lt]
    omega
  have hfield : ∀ l n, bitsOf v.toNat l n = v.toNat / 2 ^ l % 2 ^ n := fun l n => by rw [bitsOf, Nat.shiftRight_eq_div_pow]
  refine (if_neg (ringWrites_taken hr hp)).trans ?_
  simp only [hbase]
  simp only [hfield]
  rfl

/-- A partition register that may be written (R457). -/
theorem partitionWrite_taken (hv : vf < 16) (hp : s.power ≠ .d3cold) (hfree : ∀ e,
  e ∈ s.ctxs → e.2.st ≠ .free → e.2.part ≠ vf)
    (hle : (partWritten (partOf s vf) v.toNat).base ≤ (partWritten (partOf s vf) v.toNat).limit)
    (hapart : ∀ q, q < 16 → q ≠ vf → partsApart (partWritten (partOf s vf) v.toNat) (partOf s q) = true) :
    ¬(decide (vf ≥ 16) || s.power == .d3cold || s.ctxs.any (fun (_, c) => c.st != .free && c.part == vf) ||
      decide ((partWritten (partOf s vf) v.toNat).base > (partWritten (partOf s vf) v.toNat).limit) ||
      !((List.range 16).all (fun q => q == vf || partsApart (partWritten (partOf s vf) v.toNat) (partOf s q)))) = true := by
  have hbusy : s.ctxs.any (fun (_, c) => c.st != .free && c.part == vf) = false := by
    rw [List.any_eq_false]
    rintro ⟨n, c⟩ hm hbad
    simp only [Bool.and_eq_true, bne_iff_ne, beq_iff_eq] at hbad
    exact hfree _ hm hbad.1 hbad.2
  have hall : (List.range 16).all (fun q => q == vf || partsApart (partWritten (partOf s vf) v.toNat)
    (partOf s q)) = true := by
    rw [List.all_eq_true]
    intro q hq
    by_cases he : q = vf
    · simp [he]
    · simp [hapart q (List.mem_range.1 hq) he]
  rw [hbusy, hall]
  simp [hp, hv, hle]
end registers

/-- Settles O39: each register step by the function, the ring and the power state. -/
theorem registerStepsComplete : Obligations.RegisterStepsComplete := by
  intro s fn ring tail v vf on wake
  refine ⟨fun hp => ?_, fun hr hp => ⟨?_, fun hen => ?_, ?_⟩, fun hfn => ?_, fun hv hp => ?_, ?_⟩
  · obtain ⟨hbell, hen, hreg⟩ := ringWrites_refused (fn := fn) (ring := ring) (tail := tail) (v := v) (.inr hp)
    refine ⟨hbell, hen, hreg, if_pos ?_, if_pos ?_⟩ <;> simp [hp]
  · refine (if_neg (ringWrites_taken hr hp)).trans ?_
    simp only [wakeRing_eq]
    rfl
  · refine (if_neg ?_).trans ?_
    · rw [hen, Bool.or_false]
      exact ringWrites_taken hr hp
    · simp only [wakeRing_eq, Bool.or_eq_true, beq_iff_eq]
      rfl
  · exact registerWrite_fields hr hp
  · exact ringWrites_refused (.inl hfn)
  · exact if_neg (by simpa [hp] using hv)
  · intro new hv hp hfree hle hapart t
    refine (if_neg (partitionWrite_taken hv hp hfree hle hapart)).trans ?_
    simp only [Bool.and_eq_true, Bool.not_eq_true']
    rfl

/-! ### Packets -/

section packets
variable {s : State} {k : Pkt} {p : Nat} {c bad : Bool}

/-- A packet that is taken and none of whose reserved bits is set. -/
theorem withPacket_taken {f : Nat → State → State} (h : PacketReady s k c p) (hb : bad = false) :
    withPacket k c bad s f = .next (f p (opened s k)) := hb ▸ withPacket_ready s k c p f h

/-- A packet that names a context of its partition (R85). -/
theorem withContext_taken {f : Nat → State → State} (h : PacketReady s k true p) (hb : bad = false)
    (hp : (ctxOf s (bitsOf k.payload.toNat 0 8)).part = p) (hst : (ctxOf s (bitsOf k.payload.toNat 0 8)).st ≠ .free) :
    withContext k bad s f = .next (f (bitsOf k.payload.toNat 0 8) (opened s k)) := by
  rw [withContext, withPacket_taken h hb]
  refine congrArg Host.Outcome.next ((if_neg ?_).trans (if_neg ?_))
  · simpa [opened] using hst
  · simpa [opened] using hp
end packets

/-- Settles O40: each packet past its tests. -/
theorem eventPacketsComplete : Obligations.EventPacketsComplete := by
  intro s k p v u taken
  refine ⟨?_, fun h h6 h12 hbuf => ?_, ?_, ?_⟩
  · intro e h hrsv hkind hpart
    rw [exec_postEvent, execPostEvent]
    refine (withPacket_taken h ?_).trans (congrArg Host.Outcome.next (if_neg ?_))
    · simpa [show eventRsvOk k.payload.toNat = true from hrsv] using hkind
    · simpa [opened] using hpart
  · rw [exec_domainConfig, execDomainConfig]
    refine (withPacket_taken h ?_).trans (congrArg Host.Outcome.next (if_neg (Bool.eq_false_iff.1 hbuf)))
    simpa using ⟨h6, h12⟩
  · intro n d c h h14 h22 h32 h128 hfree hdrain hpart hcfg hst hroom
    rw [exec_streamBind, execStreamBind]
    refine (withPacket_taken h ?_).trans (congrArg Host.Outcome.next ((if_neg ?_).trans ((if_neg ?_).trans
      ((if_neg ?_).trans rfl))))
    · simpa using ⟨⟨⟨h14, h22⟩, h32⟩, h128⟩
    · simp [show (ctxOf (opened s k) (bitsOf k.payload.toNat 24 8)).part = p from hpart]
    · simp [show (ctxOf (opened s k) (bitsOf k.payload.toNat 24 8)).st ≠ .free from hfree,
        show (ctxOf (opened s k) (bitsOf k.payload.toNat 24 8)).st ≠ .draining from hdrain,
        show (domOf (opened s k) (bitsOf k.payload.toNat 16 6)).cfg = true from hcfg,
        show (streamOf (opened s k) (bitsOf k.payload.toNat 0 14)).st ≠ .open_ from hst]
    · simpa using show (domOf (opened s k) (bitsOf k.payload.toNat 16 6)).buffer = false →
        buffersOn (opened s k) (domOf (opened s k) (bitsOf k.payload.toNat 16 6)).die < 16 from hroom
  · intro n t h h14 ho hc hpart
    rw [exec_streamClose, execStreamClose]
    refine (withPacket_taken h ?_).trans (congrArg Host.Outcome.next ((if_neg ?_).trans ((if_neg ?_).trans rfl)))
    · simpa using h14
    · simp [show (streamOf (opened s k) (bitsOf k.payload.toNat 0 14)).st = .open_ from ho,
        show (streamOf (opened s k) (bitsOf k.payload.toNat 0 14)).closing = false from hc]
    · simp [show (ctxOf (opened s k) (streamOf (opened s k) (bitsOf k.payload.toNat 0 14)).ctx).part = p from hpart]

/-! ### Packets about contexts -/

section contexts
variable {s : State} {k : Pkt} {p x : Nat}

/-- A packet that names a context of its partition in a state that `st` says, by what it does. -/
theorem contextPacket {bad : Bool} {f : Nat → State → State} {t : State} {st : XState} (h : PacketReady s k true p)
  (hb : bad = false)
    (hp : (ctxOf s (bitsOf k.payload.toNat 0 8)).part = p) (hst : (ctxOf s (bitsOf k.payload.toNat 0 8)).st = st)
      (hne : st ≠ .free)
    (hf : f (bitsOf k.payload.toNat 0 8) (opened s k) = t) : withContext k bad s f = .next t := by
  rw [withContext_taken h hb hp (hst ▸ hne), hf]

theorem execTeardown_begins {st : XState} (h : PacketReady s k true p) (hv : bitsOf k.payload.toNat 8 248 = 0)
    (hp : (ctxOf s (bitsOf k.payload.toNat 0 8)).part = p) (hst : (ctxOf s (bitsOf k.payload.toNat 0 8)).st = st)
    (hs : st = .resident ∨ st = .stopped ∨ st = .saved) :
    execTeardown k s = .next (beginTeardown (waitFor (opened s k) (bitsOf k.payload.toNat 0 8) 2 k)
      (bitsOf k.payload.toNat 0 8)) := by
  rw [execTeardown]
  refine contextPacket h (by simp [hv]) hp hst (by rcases hs with rfl | rfl | rfl <;> simp) ?_
  rw [show (ctxOf (opened s k) (bitsOf k.payload.toNat 0 8)).st = st from hst]
  rcases hs with rfl | rfl | rfl <;> rfl

/-- A context that is RESIDENT, SAVED or STOPPED takes a new tree or a reset of a region. -/
theorem settled_test {st : XState} (hs : st = .resident ∨ st = .saved ∨ st = .stopped) :
    ¬(!(st == .resident || st == .saved || st == .stopped)) = true := by
  rcases hs with rfl | rfl | rfl <;> simp

theorem settled_ne_free {st : XState} (hs : st = .resident ∨ st = .saved ∨ st = .stopped) : st ≠ .free := by
  rcases hs with rfl | rfl | rfl <;> simp

theorem execRegionUpdate_takes {rs : List Rcb} (h : PacketReady s k true p) (hv : bitsOf k.payload.toNat 8 248 = 0)
    (hp : (ctxOf s (bitsOf k.payload.toNat 0 8)).part = p)
    (hs : (ctxOf s (bitsOf k.payload.toNat 0 8)).st = .resident ∨ (ctxOf s (bitsOf k.payload.toNat 0 8)).st = .saved ∨
      (ctxOf s (bitsOf k.payload.toNat 0 8)).st = .stopped)
    (hrs : readTree s (ctxOf s (bitsOf k.payload.toNat 0 8)).rcbbase ((ctxOf s
      (bitsOf k.payload.toNat 0 8)).nregions + 1) = some rs) :
    execRegionUpdate k s = .next (packetDone (modCtx (opened s k) (bitsOf k.payload.toNat 0 8) (fun c =>
      { c with regions := moveCharges c.regions rs })) k stOk 0) := by
  rw [execRegionUpdate]
  refine contextPacket h (by simp [hv]) hp rfl (settled_ne_free hs) ((if_neg (settled_test hs)).trans ?_)
  rw [show readTree (opened s k) (ctxOf (opened s k) (bitsOf k.payload.toNat 0 8)).rcbbase
    ((ctxOf (opened s k) (bitsOf k.payload.toNat 0 8)).nregions + 1) = some rs from hrs]

/-- A stopped region reset (R81). -/
def regionReset (s : State) (x r : Nat) : State :=
  let t := modRegion s x r (fun q => { q with stopped := false })
  if r = 0 then modCtx t x (fun c => { c with st := .resident, sliceAt := (dieOf t (clockDie t x)).cycle }) else t

theorem execRegionReset_resets {q : Rcb} (h : PacketReady s k true p) (hv : bitsOf k.payload.toNat 16 240 = 0)
    (hp : (ctxOf s (bitsOf k.payload.toNat 0 8)).part = p)
    (hs : (ctxOf s (bitsOf k.payload.toNat 0 8)).st = .resident ∨ (ctxOf s (bitsOf k.payload.toNat 0 8)).st = .saved ∨
      (ctxOf s (bitsOf k.payload.toNat 0 8)).st = .stopped)
    (hq : (ctxOf s (bitsOf k.payload.toNat 0 8)).regions[bitsOf k.payload.toNat 8 8]? = some q) (hstop : q.stopped = true)
    (hroot : bitsOf k.payload.toNat 8 8 = 0 → (ctxOf s (bitsOf k.payload.toNat 0 8)).st = .stopped) :
    execRegionReset k s =
      .next (packetDone (regionReset (opened s k) (bitsOf k.payload.toNat 0 8) (bitsOf k.payload.toNat 8 8)) k stOk 0) := by
  rw [execRegionReset]
  refine contextPacket h (by simp [hv]) hp rfl (settled_ne_free hs) ((if_neg (settled_test hs)).trans ?_)
  rw [show (ctxOf (opened s k) (bitsOf k.payload.toNat 0 8)).regions[bitsOf k.payload.toNat 8 8]? = some q from hq]
  refine (if_neg ?_).trans rfl
  simpa [hstop] using show bitsOf k.payload.toNat 8 8 = 0 → (ctxOf (opened s k)
    (bitsOf k.payload.toNat 0 8)).st = .stopped from hroot

/-- CREATE past its tests (R75 to R79). -/
theorem execCreate_creates {a d : Nat} {rs : List Rcb} (ha : bitsOf k.payload.toNat 0 64 = a) (hd : memNat s.mem a 64 = d)
    (h : PacketReady s k true p) (hv : bitsOf k.payload.toNat 64 192 = 0) (hp : (newContext d []).part = p)
      (hx : freeCtx s = some x)
    (hh : inHole a = false) (hok : descOk d = true) (hpas : ctxOfPasid s (newContext d []).pasid = none)
    (hrs : readTree s (newContext d []).rcbbase ((newContext d []).nregions + 1) = some rs)
    (hsave : saveMin (rs.getD 0 (rcbOf 0)) (coresOf s p).length ≤ (newContext d []).savesize) :
    let t := modCtx (opened s k) x (fun _ => newContext d rs)
    execCreate k s = .next (packetDone (writeBackTree (modCtx t x (fun c => { c with
      sliceAt := (dieOf t (clockDie t x)).cycle
      logMin := saveMin (rs.getD 0 (rcbOf 0)) (coresOf s p).length })) x) k stOk x) := by
  intro t
  subst ha hd
  rw [execCreate]
  refine (withPacket_taken h (by simp [hv])).trans (congrArg Host.Outcome.next ((if_neg ?_).trans ?_))
  · simpa using show (newContext (memNat (opened s k).mem (bitsOf k.payload.toNat 0 64) 64) []).part = p from hp
  rw [show freeCtx (opened s k) = some x from hx]
  refine (if_neg ?_).trans ?_
  · simp [hh, show descOk (memNat (opened s k).mem (bitsOf k.payload.toNat 0 64) 64) = true from hok]
  rw [show readTree (opened s k) (newContext (memNat (opened s k).mem (bitsOf k.payload.toNat 0 64) 64) []).rcbbase
    ((newContext (memNat (opened s k).mem (bitsOf k.payload.toNat 0 64) 64) []).nregions + 1) = some rs from hrs]
  refine (if_neg ?_).trans ((if_neg (Nat.not_lt.2 hsave)).trans rfl)
  rw [show ctxOfPasid (opened s k) (newContext (memNat (opened s k).mem
    (bitsOf k.payload.toNat 0 64) 64) []).pasid = none from hpas]
  exact Bool.false_ne_true
end contexts

/-- Settles O41: each packet past its tests. -/
theorem contextPacketsComplete : Obligations.ContextPacketsComplete := by
  intro s k p x v u done c
  refine ⟨?_, fun h hv hp => ⟨fun hst => ?_, fun hst => ?_, fun hst => ?_, fun hst => ?_, fun hst => ?_,
    fun rs hst hrs => ?_⟩,
    fun h hv hp q hq hstop => ⟨fun hr hst => ?_, fun hr hst => ?_⟩⟩
  · intro a d n h hv hp hx hh hok hpas rs hrs hsave t
    exact execCreate_creates (a := a) (d := d) rfl rfl h hv hp hx hh hok hpas hrs hsave
  · rw [exec_preempt, execPreempt]
    refine contextPacket h (by simpa using hv) hp hst (by simp) ?_
    rw [show (ctxOf (opened s k) (bitsOf k.payload.toNat 0 8)).st = .resident from hst]
  · rw [exec_preempt, execPreempt]
    refine contextPacket h (by simpa using hv) hp hst (by simp) ?_
    rw [show (ctxOf (opened s k) (bitsOf k.payload.toNat 0 8)).st = .resuming from hst]
  · rw [exec_resume, execResume]
    refine contextPacket h (by simpa using hv) hp hst (by simp) ?_
    rw [show (ctxOf (opened s k) (bitsOf k.payload.toNat 0 8)).st = .saved from hst]
  · exact execTeardown_begins h hv hp rfl hst
  · rw [exec_teardown, execTeardown]
    refine contextPacket h (by simpa using hv) hp hst (by simp) ?_
    rw [show (ctxOf (opened s k) (bitsOf k.payload.toNat 0 8)).st = .saving from hst]
  · exact execRegionUpdate_takes h hv hp hst hrs
  · rw [exec_regionReset, execRegionReset_resets h hv hp hst hq hstop fun h0 => absurd h0 hr, regionReset, if_neg hr]
    rfl
  · rw [exec_regionReset, execRegionReset_resets h hv hp (.inr (.inr hst)) hq hstop fun _ => hst, regionReset, if_pos hr,
    hr]
    rfl

end Sys2Proof.Proofs
end

