-- ==== Sys2Proof/Proofs/ContextsAndPages.lean ====
section
/-!
The steps of contexts (R85 to R92), the page commands, walks and pulls (R188 to R193).
-/
namespace Sys2Proof.Proofs
open Sys2Proof.Machine

/-! ### Contexts -/

section contexts
variable {s : State} {x : Nat}

/-- Whether a warp of a context is HALTED. -/
theorem anyHalted_iff (gs : List (Nat × Nat × Group)) :
    gs.any (fun (_, _, g) => g.warps.any (fun (_, y) => y.halted)) = true ↔ ∃ e y,
      e ∈ gs ∧ y ∈ e.2.2.warps ∧ y.2.halted = true := by
  simp only [List.any_eq_true]
  exact ⟨fun ⟨e, he, y, hy, hh⟩ => ⟨e, y, he, hy, hh⟩, fun ⟨e, y, he, hy, hh⟩ => ⟨e, he, y, hy, hh⟩⟩

/-- SLICE_EXPIRY of a context whose slice has run out (R85). -/
theorem execSliceExpiry_runOut (hst : (ctxOf s x).st = .resident) (hs : (ctxOf s x).slice ≠ 0)
    (hle : (ctxOf s x).sliceAt + (ctxOf s x).slice * 1024 ≤ (dieOf s (clockDie s x)).cycle) :
    execSliceExpiry x s =
      if (groupsOf s x).any (fun (_, _, g) => g.warps.any (fun (_, y) => y.halted)) then
        .next (mapWarps s (fun _ _ g _ y => if g.ctx == x && y.halted then { y with expiryHeld := true } else y))
      else .next (beginSave s x) := by
  refine if_neg ?_
  simp [hst, hs, hle]

/-- SAVE_COMPLETE of a drained context (R86). -/
theorem execSaveComplete_drained (hst : (ctxOf s x).st = .saving) (hd : drained s x = true) :
    execSaveComplete x s =
      if !(ctxOf s x).shmode then .next (finishSave s x)
      else if !(ctxOf s x).handlers then .next (startHandlers s x)
      else if handlersDone s x then .next (finishSave s x)
      else .next s := by
  refine if_neg ?_
  simp [hst, hd]

/-- A resume that has ended: the context RESIDENT, its packets completed, a held stop taken (R91). -/
def resumed (t : State) (x : Nat) : State :=
  let t1 := modCtx t x (fun c => { c with st := .resident, sliceAt := (dieOf t (clockDie t x)).cycle, lazy := false })
  heldStop (completeOpen (if (ctxOf t x).lazy then writeArea t1 x false else t1) x 1 0) x

/-- RESUME_COMPLETE once every group is placed and reloaded (R91). -/
theorem execResumeComplete_ends (hst : (ctxOf s x).st = .resuming) (hsaved : (ctxOf (placeSaved s x) x).saved = [])
    (haside : ∀ e y, e ∈ groupsOf (placeSaved s x) x → y ∈ e.2.2.warps → y.2.aside.isSome = true → y.2.run = .exited) :
    execResumeComplete x s =
      if !awaits (resumed (placeSaved s x) x) x 0 then .next (resumed (placeSaved s x) x)
      else if (ctxOf (resumed (placeSaved s x) x) x).st == .resident then .next (beginSave (resumed (placeSaved s x) x) x)
      else .next (completeOpen (resumed (placeSaved s x) x) x 0 5) := by
  refine (if_neg ?_).trans ((if_neg ?_).trans rfl)
  · simp [hst]
  · have hnone : (groupsOf (placeSaved s x) x).any (fun (_, _, g) =>
        g.warps.any (fun (_, y) => y.aside.isSome && y.run != .exited)) = false := by
      rw [List.any_eq_false]
      intro e he
      rw [List.any_eq_true]
      rintro ⟨y, hy, hbad⟩
      simp only [Bool.and_eq_true, bne_iff_ne] at hbad
      exact hbad.2 (haside e y he hy hbad.1)
    rw [hnone, hsaved]
    exact Bool.false_ne_true

/-- INVALIDATION_COMPLETE of a context whose pulls and stores have ended (R92). -/
theorem invalidation_test (hst : (ctxOf s x).st = .draining) (hpulls : ∀ q, q ∈ s.pulls → q.pasid ≠ (ctxOf s x).pasid)
    (hin : ∀ r, r ∈ s.inflight → (groupAt s r.who.core r.who.gslot).isSome = true) :
    ¬((ctxOf s x).st != .draining || s.pulls.any (fun p => p.pasid == (ctxOf s x).pasid) || s.inflight.any
      (fun r => orphan s r.who)) =
      true := by
  have hno : s.pulls.any (fun p => p.pasid == (ctxOf s x).pasid) = false :=
    List.any_eq_false.2 fun p hp => by simpa using hpulls p hp
  have hnone : s.inflight.any (fun r => orphan s r.who) = false :=
    List.any_eq_false.2 fun r hr => by
      have := hin r hr
      rw [orphan, Bool.not_eq_true, Option.isNone_eq_false_iff]
      exact this
  simp [hst, hno, hnone]
end contexts

/-- Settles O42: each step past its tests. -/
theorem contextStepsComplete : Obligations.ContextStepsComplete := by
  intro s x core c
  refine ⟨fun hst hs hle => ?_, fun hst hd => ?_, ?_, fun hst hp hin => ?_, ?_, fun hp => ?_⟩
  · rw [exec_sliceExpiry, execSliceExpiry_runOut hst hs hle]
    refine ⟨fun hno => if_neg ?_, fun e y he hy hh => if_pos ((anyHalted_iff _).2 ⟨e, y, he, hy, hh⟩)⟩
    rw [anyHalted_iff]
    rintro ⟨e, y, he, hy, hh⟩
    exact Bool.false_ne_true ((hno e y he hy).symm.trans hh)
  · rw [exec_saveComplete, execSaveComplete_drained hst hd]
    refine ⟨fun hsh => ?_, fun hsh hh => ?_, fun hsh hh hdone => ?_⟩
    · rw [show (ctxOf s x).shmode = false from hsh]
      rfl
    · rw [show (ctxOf s x).shmode = true from hsh, show (ctxOf s x).handlers = false from hh]
      rfl
    · rw [show (ctxOf s x).shmode = true from hsh, show (ctxOf s x).handlers = true from hh, hdone]
      rfl
  · intro t hst hsaved haside t1 t2
    have hends := (exec_resumeComplete ..).trans (execResumeComplete_ends (s := s) (x := x) hst hsaved haside)
    refine ⟨fun ha => hends.trans (if_pos ?_), fun ha hr => hends.trans ((if_neg ?_).trans (if_pos ?_)),
      fun ha hr => hends.trans ((if_neg ?_).trans (if_neg ?_))⟩
    · rw [show awaits (resumed (placeSaved s x) x) x 0 = false from ha]
      rfl
    · rw [show awaits (resumed (placeSaved s x) x) x 0 = true from ha]
      exact Bool.false_ne_true
    · exact beq_iff_eq.2 hr
    · rw [show awaits (resumed (placeSaved s x) x) x 0 = true from ha]
      exact Bool.false_ne_true
    · exact fun he => hr (beq_iff_eq.1 he)
  · exact (exec_invalidationComplete ..).trans (if_neg (invalidation_test hst hp hin))
  · rw [exec_lazyWriteOutComplete, execLazyWriteOutComplete]
    simp only [List.contains_iff_mem]
  · rw [exec_firmwareActivation, execFirmwareActivation, if_pos hp]

/-! ### Page commands -/

section pages
variable {s : State} {m : Mb} {cmd : BitVec 256} {action : Nat}

theorem finishPageCmd_eq (t : State) (c : PageCmd) :
    finishPageCmd t c = if cmdDone t c = true ∧ fwDown t = false
      then mbDone (pageCmdEffect { t with pageCmds := t.pageCmds.filter (fun q => q != c) } c) c.mb 0 0 0 [] else t := by
  simp only [finishPageCmd, Bool.and_eq_true, Bool.not_eq_true']
  rfl

theorem pageCommand_taken (hm : MailReady s m 1) (hnew : ∀ c,
  c ∈ s.pageCmds → c.mb ≠ m) (hok : pageCmdOk s cmd.toNat action = true) :
    pageCommand m cmd action s = .next (finishPageCmd (takePageCmd s (pageCmdOf s m cmd.toNat action))
      (pageCmdOf s m cmd.toNat action)) := by
  have hnone : s.pageCmds.find? (fun c => c.mb == m && c.action == action) = none := by
    rw [List.find?_eq_none]
    intro c hc hbad
    simp only [Bool.and_eq_true, beq_iff_eq] at hbad
    exact hnew c hc hbad.1
  rw [pageCommand, hnone]
  refine (withMail_ready s m 1 _ hm).trans (congrArg Host.Outcome.next (if_neg ?_))
  simp [hok]

theorem pageCommand_again {c : PageCmd} (hc : s.pageCmds.find? (fun q => q.mb == m && q.action == action) = some c) :
    pageCommand m cmd action s = .next (finishPageCmd s c) ∧ c.mb = m := by
  have hmb := List.find?_some hc
  simp only [Bool.and_eq_true, beq_iff_eq] at hmb
  rw [pageCommand, hc]
  exact ⟨rfl, hmb.1⟩

theorem exec_pageCommand {i : Instr} (h : (action, i) ∈ [(0, Instr.pageInval m cmd), (1, .pageResolve m cmd), (2,
  .pageFail m cmd)]) :
    exec i s = pageCommand m cmd action s := by
  simp only [List.mem_cons, Prod.mk.injEq, List.not_mem_nil, or_false] at h
  rcases h with ⟨rfl, rfl⟩ | ⟨rfl, rfl⟩ | ⟨rfl, rfl⟩ <;> rfl
end pages

/-! ### Walks -/

section walks
variable {s : State} {die n x : Nat} {w : Walk}

/-- The walks that join a walk that has no result yet (R186). -/
def sameWalk (w q : Walk) : Bool := q.pasid == w.pasid && q.page == w.page && q.res.isNone

/-- The walks that joined told their result. -/
def walkAnswered (t : State) (die : Nat) (w : Walk) (a : WalkRes) : State :=
  modDie t die (fun d => { d with walks := d.walks.map (fun q => if sameWalk w q then { q with res := some a } else q) })

/-- The walks that joined taken off their die. -/
def walkDropped (t : State) (die : Nat) (w : Walk) : State :=
  modDie t die (fun d => { d with walks := d.walks.filter (fun q => !sameWalk w q) })

/-- The roles of the walks that joined go on, or wait (R186). -/
def walkSettled (joined : List Walk) (die : Nat) (t : State) : State := joined.foldl (fun t q => settleWaiter t die q.who) t

/-- PAGE_WALK_COMPLETE of a walk of a context that is there (R186, R187). -/
theorem execPageWalkComplete_walks (hw : (dieOf s die).walks[n]? = some w) (hres : w.res = none)
  (hx : ctxOfPasid s w.pasid = some x)
    (hd : (ctxOf s x).st ≠ .draining) :
    let joined := (dieOf s die).walks.filter (sameWalk w)
    let r := walk s die w.pasid (ctxOf s x).ptroot (w.page * 4096)
    execPageWalkComplete die n s = match r.1 with
      | .malformed => .next (walkAnswered r.2 die w .protection)
      | .lost => .next (walkAnswered r.2 die w .lost)
      | .notPresent => .next (walkSettled joined die
          (walkAnswered (pageRequest r.2 die x (w.page * 4096) w.kind w.path w.launch) die w .wait))
      | .remote pte rec_ level => match startPull r.2 die w.pasid (w.page * 4096) pte rec_ level with
        | some t => .next (walkSettled joined die (walkAnswered t die w .wait))
        | none => .next (walkAnswered r.2 die w .protection)
      | .leaf e => .next (walkSettled joined die (joined.foldl (fun t q => tlbFill t q.who.core e)
      (walkDropped r.2 die w))) := by
  intro joined r
  have hsome : ¬w.res.isSome = true := by simp [hres]
  have hst : ¬((ctxOf s x).st == .draining) = true := by simpa using hd
  rw [execPageWalkComplete, hw]
  refine (if_neg hsome).trans ?_
  simp only [hx]
  refine (if_neg hst).trans ?_
  generalize hr : r = out
  obtain ⟨o, t⟩ := out
  rw [show walk s die w.pasid (ctxOf s x).ptroot (w.page * 4096) = (o, t) from hr]
  cases o with
  | remote pte rec_ level =>
    dsimp only
    cases startPull t die w.pasid (w.page * 4096) pte rec_ level <;> rfl
  | malformed => rfl
  | lost => rfl
  | notPresent => rfl
  | leaf e => rfl
end walks

/-! ### Writes of a unit leave the dies unchanged -/

theorem homeWrite_dies (s : State) (pa : Nat) (bs : List Byte) (c : Bool) (p : Option (Nat × Nat)) :
  (homeWrite s pa bs c p).dies = s.dies := rfl

theorem lineWrite_dies (s : State) (pa : Nat) (bs : List Byte) : (lineWrite s pa bs).dies = s.dies := by
  unfold lineWrite
  split
  · rfl
  · split
    · rfl
    · split <;> rfl

theorem unitWrite_dies (s : State) (pa : Nat) (bs : List Byte) : (unitWrite s pa bs).dies = s.dies := by
  unfold unitWrite
  split
  · next hbad =>
    clear hbad
    induction linesOf pa bs.length generalizing s with
    | nil => rfl
    | cons a r ih => exact (ih _).trans (lineWrite_dies ..)
  · rfl

/-! ### Pulls -/

section pulls
variable {s : State} {n x : Nat} {p : Pull} {page : List Byte}

/-- The state without a pull. -/
def pullGone (s : State) (n : Nat) : State := { s with pulls := listDrop s.pulls n }

/-- An attempt that failed (R193). -/
def pullFailed (s : State) (n : Nat) (p : Pull) : State :=
  let tries := memNat s.mem (p.rec_ + 25) 1 + 1
  let kept := pullRecord s p.rec_ 25 tries
  if tries < 4 then
    { kept with pulls := listSet kept.pulls n { p with active := false, nextAt := (dieOf s p.die).cycle + 2 ^ 16 } }
  else
    failWaiters (unitWrite (pullRecord (pullRecord (pullGone s n) p.rec_ 25 tries) p.rec_ 24 2) p.pte
      (bytesLE 8 (memNat s.mem p.pte 8 / 4 * 4 + 3))) p.covers p.covers .pageLost

/-- An attempt that brought its page (R192). -/
def pullDone (s : State) (n : Nat) (p : Pull) (page : List Byte) : State :=
  let leaf := memNat s.mem (p.rec_ + 8) 8
  let placed := unitWrite (pullGone s n) (pteBase leaf) (page.take (leafSize p.level))
  wakeWaiters (unitWrite (pullRecord (pullRecord placed p.rec_ 25 (memNat s.mem (p.rec_ + 25) 1 + 1)) p.rec_ 24 1) p.pte
    (bytesLE 8 leaf))
    p.covers

/-- PULL_ATTEMPT_COMPLETE of a pull whose context is there (R192, R193). -/
theorem execPullAttemptComplete_ends {ok : Bool} (hp : s.pulls[n]? = some p) (ha : p.active = true)
  (hx : ctxOfPasid s p.pasid = some x)
    (hd : (ctxOf s x).st ≠ .draining) :
    execPullAttemptComplete n page ok s = .next (
      if ok && p.via.isSome then
        if !pullFrameOk s p.rec_ p.level then wakeWaiters (pullGone s n) p.covers else pullDone s n p page
      else pullFailed s n p) := by
  have hst : ((ctxOf s x).st == .draining) = false := by simpa using hd
  rw [execPullAttemptComplete, hp]
  have hcycle : (dieOf (pullRecord s p.rec_ 25 (memNat s.mem (p.rec_ + 25) 1 + 1)) p.die).cycle =
    (dieOf s p.die).cycle := by
    rw [dieOf, pullRecord, unitWrite_dies]
    rfl
  simp only [ha, hx, hst, Bool.not_true, Bool.false_eq_true, if_false, pullFailed, hcycle]
  split
  · split <;> rfl
  · split <;> rfl

theorem execPullRetry_retries (hp : s.pulls[n]? = some p) (ha : p.active = false) (hle : p.nextAt ≤ (dieOf s p.die).cycle) :
    execPullRetry n s = .next { s with pulls := listSet s.pulls n { p with
      active := true
      via := pullRoute s p.rec_ } } := by
  rw [execPullRetry, hp]
  refine if_neg ?_
  simp [ha, hle]
end pulls

/-- Settles O43: the commands by their tests, a walk by what it finds, a pull by its attempt. -/
theorem pageStepsComplete : Obligations.PageStepsComplete := by
  intro s m cmd die n page v pasid fin
  refine ⟨fun action i hi => ⟨fun hm hnew hok => ?_, fun c hc => ?_⟩, fun t c => ?effect, fun w x hw hres hx hd => ?walks,
    fun p x hp ha hx hd => ?pulls, fun p hp ha hle => (exec_pullRetry ..).trans (execPullRetry_retries hp ha hle)⟩
  · intro c
    rw [exec_pageCommand hi, pageCommand_taken hm hnew hok, finishPageCmd_eq]
    rfl
  · obtain ⟨hagain, hmb⟩ := pageCommand_again hc
    rw [exec_pageCommand hi, hagain, finishPageCmd_eq, hmb]
  case effect =>
    intro gone
    refine ⟨fun h => ?_, fun h => ?_, fun h => ?_⟩ <;> rw [pageCmdEffect, h] <;> rfl
  case walks =>
    intro same r joined settle answer
    have hwalk := (exec_pageWalkComplete ..).trans (execPageWalkComplete_walks hw hres hx hd)
    refine ⟨fun h => ?_, fun h => ?_, fun h => ?_, fun pte rec_ level t h ht => ?_, fun e h => ?_⟩ <;>
      rw [hwalk, show (walk s die w.pasid (ctxOf s x).ptroot (w.page * 4096)).1 = _ from h]
    · rfl
    · rfl
    · rfl
    · dsimp only
      rw [show startPull (walk s die w.pasid (ctxOf s x).ptroot (w.page * 4096)).2 die w.pasid
        (w.page * 4096) pte rec_ level = some t
        from ht]
      rfl
    · rfl
  case pulls =>
    intro tries leaf gone put failed
    have hpull := fun (ok : Bool) => (exec_pullAttemptComplete ..).trans (execPullAttemptComplete_ends (ok := ok)
      (page := page) hp ha hx hd)
    have hfailed : ∀ ok, (ok && p.via.isSome) = false → failed ok := fun ok hok => by
      refine ⟨fun hlt => (hpull ok).trans (congrArg Host.Outcome.next ((if_neg (Bool.eq_false_iff.1 hok)).trans
        (if_pos hlt))),
        fun hle => (hpull ok).trans (congrArg Host.Outcome.next ((if_neg (Bool.eq_false_iff.1 hok)).trans (if_neg
          (Nat.not_lt.2 hle))))⟩
    refine ⟨hfailed false rfl, fun hv => hfailed true (by simp [hv]), fun hv hf => (hpull true).trans ?_,
      fun hv hf => (hpull true).trans ?_⟩
    · refine congrArg Host.Outcome.next ((if_pos ?_).trans (if_pos ?_))
      · simpa [Option.isSome_iff_ne_none] using hv
      · simp [hf]
    · refine congrArg Host.Outcome.next ((if_pos ?_).trans (if_neg ?_))
      · simpa [Option.isSome_iff_ne_none] using hv
      · simp [hf]

end Sys2Proof.Proofs
end

