-- ==== Sys2Proof/Proofs/DebugCommands.lean ====
section
/-!
The debug commands (R430 to R434).
-/
namespace Sys2Proof.Proofs
open Sys2Proof.Machine

section debug
variable {s : State} {m : Mb} {cmd : BitVec 256}

/-- A RESOLVE of a TRAPPED role, which is resident or saved (R432). -/
theorem resolveCmd_said {act : Nat} {held : Option SavedGroup} (h : DebugReady s m cmd 0x32 0)
    (hact : bitsOf (dbgCmdOf cmd.toNat).arg0 0 3 = act)
    (hheld : (ctxOf s (dbgCmdOf cmd.toNat).ctx).saved.find? (fun g => g.core == (dbgCmdOf cmd.toNat).core &&
      g.gslot == (dbgCmdOf cmd.toNat).gslot && (ctxOf s (dbgCmdOf cmd.toNat).ctx).st != .saving) = held) :
    let d := dbgCmdOf cmd.toNat
    (∀ g y, held = none → dbgWarp s d = some (g, y) → isTrapped y = true →
      resolveCmd m cmd act s = .next (mbDone (resolveRole s d.core d.gslot d.warp act
        (BitVec.ofNat 64 d.arg1)) m 0 0 0 [])) ∧
    (∀ g y, held = some g → mapFind g.grp.warps d.warp = some y → isTrapped y = true →
      resolveCmd m cmd act s =
        .next (mbDone (modCtx s d.ctx (fun c => { c with resolveHeld := c.resolveHeld ++ [(m.fn,
          cmd)] })) m 0 0 0 [])) := by
  intro d
  refine ⟨fun g y hn hy ht => ?_, fun g y hg hy ht => ?_⟩ <;> rw [resolveCmd] <;>
    refine (withDebug_ready s m cmd _ _ _ h).trans (congrArg Host.Outcome.next ((if_neg (by simpa using hact)).trans ?_))
  · simp only [hheld, hn, show dbgWarp s (dbgCmdOf cmd.toNat) = some (g, y) from hy, ht, if_true]
    rfl
  · simp only [hheld, hg, show mapFind g.grp.warps (dbgCmdOf cmd.toNat).warp = some y from hy, ht, if_true]
    rfl

/-- READREG and WRITEREG of a register of a role that is HALTED or TRAPPED (R432). -/
theorem regCmd_taken {op : Nat} {f : DbgCmd → Group → Warp → Bool → Nat → Nat → State → State} {g : Group} {y : Warp} {u : Bool} {n : Nat}
    (h : DebugReady s m cmd op 2) (hw : dbgWarp s (dbgCmdOf cmd.toNat) = some (g,
      y)) (hy : y.halted = true ∨ isTrapped y = true)
    (hr : dbgReg g (dbgCmdOf cmd.toNat) = some (u, n)) :
    regCmd m cmd op s f = .next (f (dbgCmdOf cmd.toNat) g y u n (bitsOf (dbgCmdOf cmd.toNat).arg0 10 5) s) := by
  have hrole : (!y.halted && !isTrapped y) = false := by
    rcases hy with hy | hy <;> simp [hy]
  rw [regCmd, withDebug_ready s m cmd _ _ _ h]
  simp only [hw, hrole, hr, Bool.false_eq_true, if_false]

theorem execHalt_halts (h : DebugReady s m cmd 0x33 2) (hw : dbgRoles s (dbgCmdOf cmd.toNat) ≠ []) :
    let d := dbgCmdOf cmd.toNat
    execHalt m cmd s = .next (mbDone ((dbgRoles s d).foldl (fun t w => modWarp t d.core d.gslot w (fun y =>
      { rollback (dieOf t (dieOfCore d.core)).cycle y with halted := true })) s) m 0 0 0 []) := by
  intro d
  obtain ⟨a, r, hl⟩ := List.exists_cons_of_ne_nil hw
  rw [execHalt, withDebug_ready s m cmd _ _ _ h]
  simp only [d, hl]
  rfl

theorem execRelease_releases {ws : List Nat} (h : DebugReady s m cmd 0x34 2)
    (hl : (dbgRoles s (dbgCmdOf cmd.toNat)).filter (fun w =>
      (warpAt s (dbgCmdOf cmd.toNat).core (dbgCmdOf cmd.toNat).gslot w).elim false (fun y => y.halted)) = ws)
        (hne : ws ≠ []) :
    let d := dbgCmdOf cmd.toNat
    execRelease m cmd s = .next (mbDone (lateExpiry (ws.foldl
      (fun t w => releaseWarp t d.core d.gslot w) s) d.ctx) m 0 0 0 []) := by
  intro d
  obtain ⟨a, r, rfl⟩ := List.exists_cons_of_ne_nil hne
  rw [execRelease, withDebug_ready s m cmd _ _ _ h]
  simp only [hl]
  rfl

theorem execStep_steps {g : Group} {y : Warp} {q : Split} (h : DebugReady s m cmd 0x35 2)
    (hw : dbgWarp s (dbgCmdOf cmd.toNat) = some (g,
      y)) (hq : y.split (dbgCmdOf cmd.toNat).split = some q) (hh : y.halted = true)
    (hrun : y.run = .run) (hs : s.stepping = none) (hhold : q.hold = .none) (hp : y.parked = none)
    (hwait : q.wait = none ∨ q.wait = some .brkpt) :
    let d := dbgCmdOf cmd.toNat
    execStep m cmd s = .next { s with
      stepping := some (m, { core := d.core, gslot := d.gslot, wid := d.warp, slot := d.split }) } := by
  intro d
  have hgo : (q.hold != .none || y.parked.isSome || (q.wait.isSome && q.wait != some .brkpt)) = false := by
    rcases hwait with hwait | hwait <;> simp [hhold, hp, hwait]
  have hmay : (!y.halted || y.run != .run || s.stepping.isSome) = false := by simp [hh, hrun, hs]
  rw [execStep, withDebug_ready s m cmd _ _ _ h]
  simp only [hw, hq, hmay, hgo, Bool.false_eq_true, if_false]
  rfl
end debug

/-- Settles O44: each command past its tests. -/
theorem debugCommandsComplete : Obligations.DebugCommandsComplete := by
  intro s m cmd d c done n
  refine ⟨fun h hal hlo hhi => ?_, fun h => ⟨fun h0 => ?_, fun h0 => ?_⟩, ?resolve, fun h hne => ?_, ?release,
    fun g y q h hw hq hh hrun hs hhold hp hwait => ?_, fun g y r hw hy => ⟨fun h hr => ?_, fun h hr => ?_, fun h hr => ?_,
      ?write⟩⟩
  · rw [exec_trapcfg, execTrapcfg]
    refine (withDebug_ready s m cmd _ _ _ h).trans (congrArg Host.Outcome.next ((if_neg ?_).trans rfl))
    have hlo' : ¬bitsOf (dbgCmdOf cmd.toNat).arg1 0 12 < 6 := Nat.not_lt.2 hlo
    have hhi' : ¬bitsOf (dbgCmdOf cmd.toNat).arg1 0 12 > 12 := Nat.not_lt.2 hhi
    simpa [hlo', hhi'] using hal
  · rw [exec_tracecfg, execTracecfg]
    exact (withDebug_ready s m cmd _ _ _ h).trans (congrArg Host.Outcome.next (if_pos h0))
  · rw [exec_tracecfg, execTracecfg]
    exact (withDebug_ready s m cmd _ _ _ h).trans (congrArg Host.Outcome.next (if_neg h0))
  case resolve =>
    intro held said
    exact ⟨fun h ha => resolveCmd_said h ha rfl, fun h ha => resolveCmd_said h ha rfl, fun h ha => resolveCmd_said h ha rfl,
      fun h ha => resolveCmd_said h ha rfl, fun h ha => resolveCmd_said h ha rfl⟩
  · exact (exec_halt ..).trans (execHalt_halts h hne)
  case release =>
    intro ws h hne
    exact (exec_release ..).trans (execRelease_releases h rfl hne)
  · exact (exec_step ..).trans (execStep_steps h hw hq hh hrun hs hhold hp hwait)
  · rw [exec_readreg, execReadreg, regCmd_taken h hw hy hr]
    rfl
  · rw [exec_readreg, execReadreg, regCmd_taken h hw hy hr]
    rfl
  · rw [exec_writereg, execWritereg, regCmd_taken h hw hy hr]
    rfl
  case write =>
    intro h hr l
    rw [exec_writereg, execWritereg, regCmd_taken h hw hy hr]
    rfl

end Sys2Proof.Proofs
end

