-- ==== Sys2Proof/Proofs/MailboxOperations.lean ====
section
/-!
SPDM requests (R464), the SYSTEM operations (R459 to R463) and the replies to SYSCALL (R389, R390).
-/
namespace Sys2Proof.Proofs
open Sys2Proof.Machine

section mailbox
variable {s : State} {m : Mb} {w : BitVec 64} {v : Nat}

/-- An SPDM request and the responder's answer join the transcript (R464). -/
theorem spdm_answers (code : Nat) (msg : List Byte) (h : MailReady s m 3) {t : List Byte}
    (ht : (if code = 0x84 then [] else mapGet s.spdm m.fn []) = t) :
    spdm m code msg s = .next (mbDone { s with spdm := mapSet s.spdm m.fn (t ++ msg ++
      Sys2Proof.Config.spdmResponse code msg t m.fn (measOf s m.fn)) } m 0 0 0
      (Sys2Proof.Config.spdmResponse code msg t m.fn (measOf s m.fn))) := by
  subst ht
  rw [spdm]
  exact withMail_ready s m 3 _ h

/-! ### SYSTEM operations -/

theorem execPower_d0 (h : MailReady s m 5) (h0 : bitsOf w.toNat 0 3 = 0) (hp : s.power = .dieRetain) :
    execPower m w s = .next (mbDone (setPwr { s with power := .d0 } 0) m 0 0 0 []) := by
  rw [execPower]
  refine (withMail_ready s m 5 _ h).trans (congrArg Host.Outcome.next ?_)
  rw [h0]
  exact if_pos (beq_iff_eq.2 hp)

theorem execPower_gated (h : MailReady s m 5) (h1 : bitsOf w.toNat 0 3 = 1) (hp : s.power = .d0)
    (hpwr : (partOf s (bitsOf w.toNat 8 4)).pwr = 0) (hb : partBusy s (bitsOf w.toNat 8 4) = false) :
    execPower m w s = .next (mbDone (modPart s (bitsOf w.toNat 8 4) (fun q => { q with pwr := 1 })) m 0 0 0 []) := by
  rw [execPower]
  refine (withMail_ready s m 5 _ h).trans (congrArg Host.Outcome.next ?_)
  rw [h1]
  exact if_pos (by simp [hp, hpwr, hb])

theorem execPower_retain (h : MailReady s m 5) (h2 : bitsOf w.toNat 0 3 = 2) (hp : s.power = .d0)
    (hall : ∀ e, e ∈ s.parts → e.2.en = true → e.2.pwr = 1) :
    execPower m w s = .next (mbDone (setPwr { s with power := .dieRetain } 2) m 0 0 0 []) := by
  have hgated : s.parts.all (fun (_, q) => !q.en || q.pwr = 1) = true := by
    rw [List.all_eq_true]
    intro e he
    cases hen : e.2.en
    · simp [hen]
    · simp [hen, hall e he hen]
  rw [execPower]
  refine (withMail_ready s m 5 _ h).trans (congrArg Host.Outcome.next ?_)
  rw [h2]
  exact if_pos (by rw [hp, hgated]; rfl)

/-- UNLOCK with a token that verifies (R459). -/
theorem execUnlock_unlocks {tok : List Byte} {b : Nat × BitVec 128 × Nat} (h : MailReady s m 5)
    (htok : memGetBytes s.mem w.toNat (64 + 384 + 16224) = tok) (hb : Sys2Proof.Config.tokenBody (tok.take 64) = b)
    (hsig : Sys2Proof.Config.signaturesVerify false tok = true) (hid : b.2.1 = Sys2Proof.Config.identity)
      (hctr : b.2.2 = s.unlockCtr)
    (hlt : b.1 < 16) (hsec : (partOf s b.1).sec = 0) (hfree : ∀ e, e ∈ s.ctxs → e.2.st ≠ .free → e.2.part ≠ b.1) :
    execUnlock m w s = .next (mbDone (modPart s b.1 (fun q => { q with sec := 1 })) m 0 0 0 []) := by
  subst htok hb
  have hbusy : s.ctxs.any (fun (_, c) =>
      c.st != .free && c.part == (Sys2Proof.Config.tokenBody ((memGetBytes s.mem w.toNat
        (64 + 384 + 16224)).take 64)).1) = false := by
    rw [List.any_eq_false]
    rintro ⟨n, c⟩ hm hbad
    simp only [Bool.and_eq_true, bne_iff_ne, beq_iff_eq] at hbad
    exact hfree _ hm hbad.1 hbad.2
  rw [execUnlock]
  refine (withMail_ready s m 5 _ h).trans (congrArg Host.Outcome.next ((if_neg ?_).trans (if_neg ?_)))
  · simpa [hsig, hid, hctr] using hlt
  · rw [hbusy, hsec]
    exact Bool.false_ne_true

theorem execLock_locked (h : MailReady s m 5) (h0 : (partOf s (bitsOf w.toNat 8 4)).sec = 0) :
    execLock m w s = .next (mbDone s m 0 0 0 []) := by
  rw [execLock]
  refine (withMail_ready s m 5 _ h).trans (congrArg Host.Outcome.next ?_)
  simp only [h0]
  rfl

/-- The counter of UNLOCK's tokens moved on (R459). -/
def countUnlock (s : State) : State := { s with unlockCtr := s.unlockCtr + 1 }

theorem execLock_locks (h : MailReady s m 5) (h1 : (partOf s (bitsOf w.toNat 8 4)).sec = 1) :
    execLock m w s = .next (mbDone (countUnlock (modPart (releasePart s (bitsOf w.toNat 8 4)) (bitsOf w.toNat 8 4)
      (fun q => { q with sec := 0, dbg := 0 }))) m 0 0 0 []) := by
  rw [execLock]
  refine (withMail_ready s m 5 _ h).trans (congrArg Host.Outcome.next ?_)
  simp only [h1]
  rfl

theorem execDebuglvl_sets (h : MailReady s m 5) (h3 : bitsOf w.toNat 0 2 ≠ 3)
    (hsec : bitsOf w.toNat 0 2 ≠ 0 → (partOf s (bitsOf w.toNat 8 4)).sec ≠ 0) :
    execDebuglvl m w s = .next (mbDone (modPart (if (partOf s (bitsOf w.toNat 8 4)).dbg = 2 ∧ bitsOf w.toNat 0 2 < 2
      then releasePart s (bitsOf w.toNat 8 4) else s) (bitsOf w.toNat 8 4)
        (fun q => { q with dbg := bitsOf w.toNat 0 2 })) m 0 0 0 []) := by
  rw [execDebuglvl]
  refine (withMail_ready s m 5 _ h).trans (congrArg Host.Outcome.next ((if_neg h3).trans ((if_neg ?_).trans ?_)))
  · simpa using hsec
  · simp only [Bool.and_eq_true, decide_eq_true_eq]
    rfl

theorem execFwstage_stages (h : MailReady s m 5) (hv : inHole w.toNat = false) (hle : w.toNat + 20480 + memNat s.mem
  (w.toNat + 16) 8 ≤ 2 ^ 52)
    {img : List Byte} (himg : memGetBytes s.mem w.toNat (20480 + memNat s.mem (w.toNat + 16) 8) = img)
    (hok : fwImageOk ((partOf s 0).sec == 2) img = true) :
    execFwstage m w s = .next (mbDone { s with fw := { s.fw with
      staged := some (bytesAt img 0 4, bytesAt img 4 4, bytesAt img 8 8) } } m 0 0 0 []) := by
  subst himg
  rw [execFwstage]
  refine (withMail_ready s m 5 _ h).trans (congrArg Host.Outcome.next ((if_neg ?_).trans ((if_neg ?_).trans rfl)))
  · simpa [hv] using hle
  · simp [hok]

theorem execFwact_activates (h : MailReady s m 5) (hs : s.fw.staged ≠ none) : execFwact m w s = .next (mbDone
  (activate s) m 0 0 0 []) := by
  rw [execFwact]
  refine (withMail_ready s m 5 _ h).trans (congrArg Host.Outcome.next (if_neg ?_))
  simpa using hs

/-- The link stream named (R201). -/
def linked (s : State) (w : BitVec 64) : State := { s with linkStream := some (bitsOf w.toNat 16 14) }

/-- PORT of a port that is there (R201). -/
theorem execPort_present (h : MailReady s m 5) (hn : bitsOf w.toNat 0 5 < 18) (hst : (portOf s
  (bitsOf w.toNat 0 5)).st ≠ .absent) :
    execPort m w s = .next (mbDone (
      if w.getLsbD 8 then
        (if (portOf s (bitsOf w.toNat 0 5)).st == .disabled || (portOf s (bitsOf w.toNat 0 5)).st == .down
          then portTo (linked s w) (bitsOf w.toNat 0 5) .training else linked s w)
      else if (portOf s (bitsOf w.toNat 0 5)).st == .disabled then linked s w
      else portDown (linked s w) (bitsOf w.toNat 0 5) .disabled) m 0 0 0 []) := by
  rw [execPort]
  refine (withMail_ready s m 5 _ h).trans (congrArg Host.Outcome.next ((if_neg ?_).trans ((if_neg ?_).trans rfl)))
  · exact Nat.not_lt.2 (Nat.le_of_lt_succ hn)
  · simpa using hst

/-! ### Replies to SYSCALL -/

section replies
variable {die id q : Nat} {who : Who} {lanes : W32} {y : Warp}

/-- A request of a die taken off, with its message (R389). -/
def requestGone (s : State) (die q : Nat) : State :=
  { modDie s die (fun d => { d with sysOut := d.sysOut.filter (fun e => e.1 != q) }) with
    sysMsgs := s.sysMsgs.filter (fun m => !(m.die == die && m.seq == q)) }

/-- A reply written in the registers of its warp, which goes on (R389). -/
def replied (t : State) (who : Who) (lanes : W32) (id : Nat) (val : Nat → Nat) : State :=
  l1Clear (freeWarp (modWarp (synced t who) who.core who.gslot who.wid
    (fun y => homeLoads { arriveV y id ((lanesOf lanes).map (fun l => (l, val l))) with sysOut := none }))
    who.core who.gslot who.wid) who.core

theorem replyTo_eq (val : Nat → Nat) :
    replyTo s die who lanes id q val = match warpAt (requestGone s die q) who.core who.gslot who.wid with
      | some y => if y.sysOut == some (q, id) then replied (requestGone s die q) who lanes id val else requestGone s die q
      | none => requestGone s die q := rfl

/-- A reply that reaches its warp (R389). -/
theorem replyTo_waiting (val : Nat → Nat) (hy : warpAt s who.core who.gslot who.wid = some y) (ho : y.sysOut = some (q,
  id)) :
    replyTo s die who lanes id q val = replied (requestGone s die q) who lanes id val := by
  rw [replyTo_eq, show warpAt (requestGone s die q) who.core who.gslot who.wid = some y from hy]
  exact if_pos (by simp [ho])

/-- A reply whose SEQ is not outstanding is discarded (R390). -/
theorem execSyscallReply_unknown {seq : BitVec 32} {vals : List W64} (hf : (dieOf s die).sysOut.find?
  (fun e => e.1 == seq.toNat) = none) :
    execSyscallReply ⟨none, die⟩ seq vals s = .next s ∧
    (MailReady s m 4 → execSyscallReply ⟨some m, die⟩ seq vals s = .next (mbDone s m 0 0 0 [])) := by
  simp only [execSyscallReply, hf]
  exact ⟨trivial, fun h => withMail_ready s m 4 _ h⟩

theorem execSyscallReply_found {seq : BitVec 32} {vals : List W64} {msg : SysMsg}
    (hf : (dieOf s die).sysOut.find? (fun e => e.1 == seq.toNat) = some (seq.toNat, who, lanes, id))
    (hm : s.sysMsgs.find? (fun m => m.die == die && m.seq == seq.toNat) = some msg) :
    execSyscallReply ⟨none, die⟩ seq vals s =
      (if msg.toHost || (dieOf s die).fwHeld then .next s
        else .next (replyTo s die who lanes id seq.toNat (firmwareReply s msg.rec_))) ∧
    (MailReady s m 4 → execSyscallReply ⟨some m, die⟩ seq vals s = .next (mbDone (
      if msg.toHost && (decide (m.fn = 0) || (groupAt s who.core who.gslot).elim false (fun g =>
        (ctxOf s g.ctx).part == m.fn - 1))
      then replyTo s die who lanes id seq.toNat (fun l => (vals.getD l 0).toNat) else s) m 0 0 0 [])) := by
  simp only [execSyscallReply, hf, hm]
  exact ⟨trivial, fun h => withMail_ready s m 4 _ h⟩
end replies
end mailbox

/-- Settles O45: the requests, the operations and the replies past their tests. -/
theorem mailboxOperationsComplete : Obligations.MailboxOperationsComplete := by
  refine ⟨fun s m msg h => ?spdm, fun s m w vals => ?_⟩
  case spdm =>
    intro said t
    exact ⟨spdm_answers 0x84 msg h rfl, spdm_answers 0xE1 msg h rfl, spdm_answers 0xE3 msg h rfl,
      spdm_answers 0x81 msg h rfl,
      spdm_answers 0x82 msg h rfl, spdm_answers 0x83 msg h rfl, spdm_answers 0xE0 msg h rfl⟩
  intro v p done
  refine ⟨fun h => ?system, fun die seq who lanes id msg y hf hm hy ho => ?reply, fun die seq hf => ?unknown⟩
  case unknown =>
    exact execSyscallReply_unknown hf
  case reply =>
    intro t reply
    obtain ⟨hfw, hhost⟩ := execSyscallReply_found (m := m) (vals := vals) hf hm
    refine ⟨fun hh hheld => ?_, fun h hh hmine => ?_⟩
    · rw [exec_syscallReply, hfw, hh, hheld, replyTo_waiting _ hy ho]
      rfl
    · have hmine' : (msg.toHost && (decide (m.fn = 0) ||
          (groupAt s who.core who.gslot).elim false (fun g => (ctxOf s g.ctx).part == m.fn - 1))) = true := by
        rcases hmine with hmine | hmine
        · simp [hh, hmine]
        · cases hg : groupAt s who.core who.gslot <;> simp_all
      rw [exec_syscallReply, hhost h, if_pos hmine', replyTo_waiting _ hy ho]
      rfl
  case system =>
    refine ⟨execPower_d0 h, execPower_gated h, execPower_retain h, ?_, execLock_locked h, execLock_locks h, ?_, ?_,
      execFwact_activates (w := w) h,
      ?port, ?bqcfg, fun hle => ?_, fun hv => ?_⟩
    · intro tok b hsig hid hctr hlt hsec hfree
      exact execUnlock_unlocks h rfl rfl hsig hid hctr hlt hsec hfree
    · intro l h3 hsec
      exact execDebuglvl_sets h h3 hsec
    · intro n img hv hle hok
      exact execFwstage_stages h hv hle rfl hok
    case port =>
      intro n t hn hst
      refine ⟨fun h8 hs => ?_, fun h8 hs => ?_⟩
      · rw [exec_port, execPort_present h hn hst, h8]
        refine congrArg (fun t => Host.Outcome.next (mbDone t m 0 0 0 [])) ((if_pos rfl).trans (if_pos ?_))
        rcases hs with hs | hs <;> simp [show (portOf s (bitsOf w.toNat 0 5)).st = _ from hs]
      · rw [exec_port, execPort_present h hn hst, h8]
        refine congrArg (fun t => Host.Outcome.next (mbDone t m 0 0 0 [])) ((if_neg Bool.false_ne_true).trans (if_neg ?_))
        simpa using hs
    case bqcfg =>
      intro q die t he
      rw [exec_bqcfg, execBqcfg]
      exact (withMail_ready s m 5 _ h).trans (congrArg Host.Outcome.next (if_neg (Bool.eq_false_iff.1 he)))
    · rw [exec_pwrcap, execPwrcap]
      exact (withMail_ready s m 5 _ h).trans (congrArg Host.Outcome.next (if_neg (Nat.not_lt.2 hle)))
    · rw [exec_idsig, execIdsig]
      exact (withMail_ready s m 5 _ h).trans (congrArg Host.Outcome.next (if_neg (Bool.eq_false_iff.1 hv)))

end Sys2Proof.Proofs
end

