-- ==== Sys2Proof/Proofs/EventSteps.lean ====
section
/-!
The steps of a PLU (R94 to R97, R117, R118, R122 to R124).
-/
namespace Sys2Proof.Proofs
open Sys2Proof.Machine

/-! ### Intake -/

section intake
variable {s : State} {die n : Nat} {i : Intake}

theorem execEventIntake_takes (hq : (dieOf s die).intakeQ[n]? = some i) (ht : intakeTurn s die n = true)
  (hm : i.marker = false) :
    execEventIntake die n s = .next (takeRecord s die n i) := by
  rw [execEventIntake, hq]
  exact congrArg Host.Outcome.next (if_neg (by simp [ht, hm]))

theorem execCloseMarkerIntake_takes (hq : (dieOf s die).intakeQ[n]? = some i) (ht : intakeTurn s die n = true)
  (hm : i.marker = true) :
    execCloseMarkerIntake die n s = .next (takeMarker s die n i) := by
  rw [execCloseMarkerIntake, hq]
  exact congrArg Host.Outcome.next (if_neg (by simp [ht, hm]))

/-- What becomes of a record taken in, by its row of R95. -/
def intakeEffect (s : State) (die n : Nat) (i : Intake) (row : Taken) : State :=
  let num := i.ev.stream.toNat
  let t := streamOf s num
  let stamp := intakeStamp s die i
  let u := takenIn (takeOff s die n) i
  match row with
  | .drop => if t.st == .unbound then u else modDom u t.dom (fun d => { d with drop := (d.drop + 1) % 2 ^ 64 })
  | .stale => modDom u t.dom (fun d => { d with stale := (d.stale + 1) % 2 ^ 64 })
  | .beat => refreshDom (modStream u num (fun t => { t with last := stamp })) t.dom
  | _ => refreshDom (modDom (modStream u num (fun t => { t with last := stamp })) t.dom (fun d => { d with
      buf := d.buf ++ [{ ev := { i.ev with stamp := BitVec.ofNat 64 stamp }, ord := d.nextOrd }]
      nextOrd := d.nextOrd + 1 })) t.dom

theorem takeRecord_eq (s : State) (die n : Nat) (i : Intake) :
    takeRecord s die n i = intakeEffect s die n i (intakeRow s i (intakeStamp s die i)) := rfl

theorem takeRecord_row {row : Taken} (hr : intakeRow s i (intakeStamp s die i) = row) :
    takeRecord s die n i = intakeEffect s die n i row := by
  rw [takeRecord_eq, hr]
end intake

/-! ### Cycles -/

/-- A die's next cycle raises the streams of its DIECYCLE domains (R97). -/
theorem newCycle_eq (u : State) (die : Nat) :
    let cycle := ((dieOf u die).cycle + 1) % 2 ^ 64
    let t := modDie u die (fun d => { d with cycle := cycle, intook := false })
    let mine := fun (n : Nat) => (domOf t n).cfg && (domOf t n).kind == .diecycle && (domOf t n).die == die
    newCycle u die = (u.domains.map (fun e => e.1)).foldl (fun s n => if mine n then refreshDom s n else s)
      { t with streams := u.streams.map (fun e => (e.1, if e.2.st == .open_ && mine e.2.dom
        then { e.2 with last := Nat.max e.2.last cycle } else e.2)) } := by
  intro cycle t mine
  rfl

/-! ### Release and deadlines -/

section release
variable {s : State} {dom : Nat}

/-- A domain that goes on (R118): configured, not halted, with no step left. -/
def domainRuns (s : State) (dom : Nat) : Prop := (domOf s dom).cfg = true ∧ (domOf s dom).halt = .run ∧
  (domOf s dom).work = []

theorem domainRuns_test (h : domainRuns s dom) : ¬(!(domOf s dom).cfg ||
  (domOf s dom).halt != .run || !(domOf s dom).work.isEmpty) = true := by
  obtain ⟨hc, hh, hw⟩ := h
  simp [hc, hh, hw]

/-- The domain once an event is out of its buffer (R118). -/
def releasedFrom (s : State) (dom : Nat) (b : Buffered) : State :=
  modDom s dom (fun d => { d with buf := d.buf.filter (fun x => x.ord != b.ord), t := b.ev.stamp.toNat })

/-- The automata that see an event stand at it (R122). -/
def seenAt (s : State) (dom : Nat) (b : Buffered) (see : List (Nat × Auto)) : State :=
  see.foldl (fun t e => modAuto t (domOf s dom).die e.1 (fun a =>
    { a with pos := some (b.ev.stamp.toNat, b.ev.stream.toNat, b.ev.seq.toNat) })) (releasedFrom s dom b)

/-- EVENT_RELEASE of the next event, no earlier deadline before it (R118, R122). -/
theorem execEventRelease_offers {b : Buffered} (h : domainRuns s dom) (hb : nextEvent s dom = some b)
    (hd : ∀ l, l ∈ deadlinesOf s dom → b.ev.stamp.toNat ≤ l.1) :
    let num := b.ev.stream.toNat
    let see := (armedOf s dom).filter (fun e => !seenBefore e.2 b.ev)
    let ws := see.map (fun e => Work.offer e.1 b.ev (e.2.cands.map (fun c => c.seq)))
    let t := seenAt s dom b see
    execEventRelease dom s = .next (runWork (workFuel ws) (if (streamOf t num).dom == dom then
      wakeEvwaits (modStream t num (fun t => { t with latest := some b.ev })) num b.ev else t) dom ws) := by
  intro num see ws t
  have hno : (deadlinesOf s dom).any (fun x => x.1 + 1 ≤ b.ev.stamp.toNat) = false :=
    List.any_eq_false.2 fun x hx => by simpa using hd x hx
  rw [execEventRelease]
  refine (if_neg (domainRuns_test h)).trans ?_
  rw [hb]
  refine (if_neg ?_).trans rfl
  rw [hno]
  exact Bool.false_ne_true

/-- CANDIDATE_DEADLINE of the first deadline, no earlier event before it (R118, R123). -/
theorem execCandidateDeadline_expires {dl i c : Nat} (h : domainRuns s dom) (hf : firstDeadline s dom = some (dl, i, c))
    (hlt : dl + 1 < frontierOf s dom) (hb : ∀ b, nextEvent s dom = some b → dl + 1 ≤ b.ev.stamp.toNat) :
    execCandidateDeadline dom s = .next (runWork (workFuel [.expire i c]) (modDom s dom
      (fun d => { d with t := dl + 1 })) dom
      [.expire i c]) := by
  rw [execCandidateDeadline]
  refine (if_neg (domainRuns_test h)).trans ?_
  rw [hf]
  refine if_neg ?_
  cases hn : nextEvent s dom with
  | none => simpa using hlt
  | some b => simpa [hlt] using hb b hn
end release

/-- Settles O46: intake by its row, the cycle's end, the next event, the first deadline, a halted domain. -/
theorem eventStepsComplete : Obligations.EventStepsComplete := by
  intro s die n dom q d
  refine ⟨fun i hq ht => ?intake, ?cycle, fun b hc hh hw hb hd => ?release, fun dl i c hc hh hw hf hlt hb => ?_,
    fun x r hh => ?_,
    fun x r hh => ?_⟩
  case intake =>
    intro num t stamp u
    refine ⟨fun hm => ?_, fun hm => (exec_closeMarkerIntake ..).trans (execCloseMarkerIntake_takes hq ht hm)⟩
    have htake := (exec_eventIntake ..).trans (execEventIntake_takes hq ht hm)
    refine ⟨fun hr hst => ?_, fun hr hst => ?_, fun hr => ?_, fun hr => ?_, fun hr => ?_⟩ <;>
      refine htake.trans (congrArg Host.Outcome.next ((takeRecord_row hr).trans ?_))
    · exact if_neg fun he => hst (beq_iff_eq.1 he)
    · exact if_pos (beq_iff_eq.2 hst)
    all_goals rfl
  case cycle =>
    intro u cycle t mine
    rw [exec_diecycleAdvance, execDiecycleAdvance]
    refine ⟨fun hp => congrArg Host.Outcome.next (if_pos ?_),
      fun hp hp' => congrArg Host.Outcome.next ((if_neg ?_).trans (newCycle_eq _ die))⟩
    · rcases hp with hp | hp <;> simp [hp]
    · simp [hp, hp']
  case release =>
    intro num see ws t
    exact (exec_eventRelease ..).trans (execEventRelease_offers ⟨hc, hh, hw⟩ hb hd)
  · exact (exec_candidateDeadline ..).trans (execCandidateDeadline_expires ⟨hc, hh, hw⟩ hf hlt hb)
  · rw [exec_entryStallResume, execEntryStallResume, show (domOf s dom).halt = .entry x r from hh]
  · rw [exec_pendStallResume, execPendStallResume, show (domOf s dom).halt = .pend x r from hh]

end Sys2Proof.Proofs
end

