-- ==== Sys2Proof/Proofs/DispatchSteps.lean ====
section
/-!
The steps of dispatch (R148): a statement that fails. COMPACTOR_MOVE lets go of the roles that it held before it looks for lazily
held windows to claim, and which windows it may move depends on what it holds: those of a context that is being saved only while
it holds their groups.
-/
namespace Sys2Proof.Proofs
open Sys2Proof.Machine
set_option maxRecDepth 20000

/-- A template whose groups ask for half of a slice. -/
def halfSlice : Template := { templateOf 0 with sramsz := 2 ^ 21 }

/-- A launch of one such group, in a core's queue. -/
def halfLaunch : Launch where
  idx := 4
  die := 0
  slot := 0
  tmpl := halfSlice
  args := []
  count := 1
  admitted := 1
  freed := 0
  pend := false
  waiting := false
  acq := false
  reserve := none
  drawn := []
  logBlocks := []
  logPos := 0
  logRuns := []
  applied := false
  at_ := 0

/-- A group of context `x` with a window of one granule, at granule `a` of the slice of core 0. -/
def granuleGroup (x a : Nat) : Group :=
  { loneGroup 0 with
    ctx := x
    warps := []
    sbase := sliceBase 0 + 4096 * a
    tmpl := { templateOf 0 with sramsz := 128 } }

/-- A core with one window in each half of its slice and half of the slice held lazily for context 6. The compactor holds the
group of the upper window, whose context 5 is being saved. -/
def splitCore : Core :=
  { Core.reset 0 with
    groups := [(0, granuleGroup 0 0), (1, granuleGroup 5 512)]
    runq := [(0, 4, 0)]
    lazySram := [(6, 0, 0, 256, 256), (6, 0, 1, 768, 256)]
    pause := [(1, 0)] }

/-- The device of that core, which is a partition of its own. -/
def splitState : State :=
  { State.reset with
    cores := [(0, splitCore)]
    parts := [(0, { Part.reset with en := true })]
    ctxs := [(0, { Context.reset with
        st := .resident
        launches := [halfLaunch] }),
      (5, { Context.reset with st := .saving })] }

/-- The contexts of whose windows a core has claimed some, after an instruction. -/
def claimedAfter (o : Out) : List Nat :=
  match o with
  | .next s => (coreOf s 0).claimed
  | _ => []

/-- No moves make room while the lazily held windows stand. -/
theorem splitState_moves : (compactFor splitState 0).findSome? (movesFor splitState 0) = none := by decide

/-- With them written out, a move of the upper window would. -/
theorem splitState_stuck : (compactFor splitState 0).any (fun t =>
    (fits splitState 0 t).isNone && (sramMoves splitState 0 t (heldSram splitState 0)).isSome) = true := by decide

/-- Refutes O47: where no moves are to be made COMPACTOR_MOVE lets go of the group that it holds, whose window may then not be
moved, so it claims nothing; the statement has it claim the windows of context 6. -/
theorem not_dispatchStepsComplete : ¬ Obligations.DispatchStepsComplete := by
  intro h
  obtain ⟨-, -, -, -, -, -, -, hmove, -⟩ := h splitState 0 0 0 0
  obtain ⟨-, -, hidle⟩ := hmove rfl
  have hclaim := congrArg claimedAfter ((hidle splitState_moves).2 splitState_stuck)
  have hnone : claimedAfter (exec (.compactorMove 0) splitState) = [] := by decide
  rw [hnone] at hclaim
  exact absurd hclaim (by decide)

end Sys2Proof.Proofs
end

