-- ==== Sys2Proof/Proofs/RoleSteps.lean ====
section
/-!
A role apart from its instructions: HANG, pending traps, barrier arrivals, the polls of MBARW, probes (R144, R145,
  R152 to R154,
R161, R426, R430).
-/
namespace Sys2Proof.Proofs
open Sys2Proof.Machine

/-! ### Changes of one group and one warp -/

theorem modCore_modCore (s : State) (c : Nat) (f h : Core → Core) :
    modCore (modCore s c f) c h = modCore s c (fun k => h (f k)) := by
  simp only [modCore, coreOf, mapGet_mapSet_same, mapSet_mapSet_same]

theorem modGroup_modGroup (s : State) (c g : Nat) (f h : Group → Group) :
    modGroup (modGroup s c g f) c g h = modGroup s c g (fun k => h (f k)) := by
  cases hg : groupAt s c g with
  | none => simp only [modGroup, hg]
  | some k =>
    rw [modGroup.eq_1 (modGroup s c g f), groupAt_modGroup_same hg]
    simp only [modGroup, hg, modCore_modCore, mapSet_mapSet_same]

theorem modWarp_modWarp (s : State) (c g w : Nat) (f h : Warp → Warp) :
    modWarp (modWarp s c g w f) c g w h = modWarp s c g w (fun y => h (f y)) := by
  rw [modWarp, modWarp, modGroup_modGroup, modWarp]
  refine congrArg (modGroup s c g) (funext fun k => ?_)
  cases hk : mapFind k.warps w with
  | none => simp only [hk]
  | some y => simp only [mapFind_mapSet_same, mapSet_mapSet_same]

theorem groupAt_of_warpAt {s : State} {c g w : Nat} {y : Warp} (hy : warpAt s c g w = some y) :
    ∃ k, groupAt s c g = some k ∧ mapFind k.warps w = some y := by
  rw [warpAt] at hy
  split at hy
  · exact ⟨_, ‹_›, hy⟩
  · cases hy

theorem modWarp_congr {s : State} {c g w : Nat} {y : Warp} {f h : Warp → Warp} (hy : warpAt s c g w = some y)
    (hf : f y = h y) : modWarp s c g w f = modWarp s c g w h := by
  obtain ⟨k, hk, hw⟩ := groupAt_of_warpAt hy
  simp only [modWarp, modGroup, hk, hw, hf]

/-! ### Walks and the roles -/

/-- The state without its roles: what performed stores leave at the homes, and what is on its way. -/
def homes (s : State) : State := { s with
  cores := []
  ctxs := []
  stale := []
  poison := [] }

/-- A fold of changes, each of which the homes alone determine. -/
theorem homes_foldl {α : Type} {f : State → α → State}
    (hf : ∀ s t a, homes s = homes t → homes (f s a) = homes (f t a)) (l : List α) {s t : State}
    (h : homes s = homes t) : homes (l.foldl f s) = homes (l.foldl f t) := by
  induction l generalizing s t with
  | nil => exact h
  | cons a r ih => exact ih (hf s t a h)

/-- A fold of changes that leave the homes alone. -/
theorem homes_foldl_keep {α : Type} {f : State → α → State} (hf : ∀ s a, homes (f s a) = homes s) (l : List α) (s : State) :
    homes (l.foldl f s) = homes s := by
  induction l generalizing s with
  | nil => rfl
  | cons a r ih => exact (ih _).trans (hf s a)

theorem homes_modGroup (s : State) (c g : Nat) (f : Group → Group) : homes (modGroup s c g f) = homes s := by
  rw [modGroup]
  split <;> rfl

theorem homes_modWarp (s : State) (c g w : Nat) (f : Warp → Warp) : homes (modWarp s c g w f) = homes s :=
  homes_modGroup ..

theorem homes_addToken (s : State) (w : Who) (k : Option Nat) (n : Int) : homes (addToken s w k n) = homes s := by
  cases k with
  | none => rfl
  | some k =>
    rw [addToken]
    split
    · exact homes_modWarp ..
    · rfl

theorem homes_noteOldV (s : State) (m : List Host.Cell) (w : Who) (id pa n : Nat) :
    homes (noteOldV s m w id pa n) = homes s := by
  unfold noteOldV
  split
  · split <;> rfl
  · rfl

theorem homes_l1Update (s : State) (c pa : Nat) (bs : List Byte) : homes (l1Update s c pa bs) = homes s := by
  refine homes_foldl_keep (fun s l => ?_) _ s
  split <;> rfl

theorem homes_homeWrite {s t : State} (h : homes s = homes t) (pa : Nat) (bs : List Byte) (b : Bool) (p : Option
  (Nat × Nat)) :
    homes (homeWrite s pa bs b p) = homes (homeWrite t pa bs b p) := by
  have key : ∀ s, homes (homeWrite s pa bs b p) = homes (homeWrite (homes s) pa bs b p) := fun _ => rfl
  rw [key s, key t, h]

theorem homes_retireReq (s : State) (r : Req) :
    homes (retireReq s r) = { homes s with inflight := s.inflight.filter (fun q => q.id != r.id) } :=
  homes_addToken ..

theorem homes_performStore {s t : State} (h : homes s = homes t) (r : Req) :
    homes (performStore s r) = homes (performStore t r) := by
  have keep : ∀ u, homes (retireReq u r) = homes (retireReq (homes u) r) := fun u =>
    (homes_retireReq u r).trans (homes_retireReq (homes u) r).symm
  have hs : ∀ m l u, homes (List.foldl (fun s (l : LaneAcc) => noteOldV s m r.who r.id l.pa r.w) u l) = homes u :=
    fun m l u => homes_foldl_keep (fun s a => homes_noteOldV ..) l u
  rw [performStore, performStore, keep, hs, keep (List.foldl _ _ _), hs]
  congr 2
  refine homes_foldl (fun s t l h => ?_) _ h
  rw [homes_l1Update, homes_l1Update, show promoOf s r = promoOf (homes s) r from rfl, h]
  exact homes_homeWrite h ..

theorem homes_drainTo {s t : State} (h : homes s = homes t) (c id : Nat) :
    homes (drainTo s c id) = homes (drainTo t c id) := by
  rw [drainTo, drainTo, show writeQueue s c = writeQueue (homes s) c from rfl, h]
  exact homes_foldl (fun s t r h => homes_performStore h r) _ h

theorem homes_promoteWalk (n : Nat) {s t : State} (h : homes s = homes t) (die pasid root va : Nat) :
    homes (promoteWalk n s die pasid root va) = homes (promoteWalk n t die pasid root va) := by
  induction n generalizing s t with
  | zero => exact h
  | succ n ih =>
    have key : ∀ s, recordOpen s = recordOpen (homes s) := fun _ => rfl
    have hmem : s.mem = t.mem := (congrArg State.mem h :)
    have hdies : s.dies = t.dies := (congrArg State.dies h :)
    have hrec : s.lineRec = t.lineRec := (congrArg State.lineRec h :)
    have hpromo : s.promo = t.promo := (congrArg State.promo h :)
    simp only [promoteWalk, dieOf, hmem, hdies, hrec, hpromo, key s, key t, h]
    split
    · exact h
    · exact ih (homes_foldl (fun s t e h => homes_drainTo h e.1 e.2) _ h)

/-- What a walk finds the homes alone determine. -/
theorem walk_homes {s t : State} (h : homes s = homes t) (die pasid root va : Nat) :
    (walk s die pasid root va).1 = (walk t die pasid root va).1 := by
  have hp := homes_promoteWalk 6 h die pasid root va
  have hmem : (promoteWalk 6 s die pasid root va).mem = (promoteWalk 6 t die pasid root va).mem :=
    (congrArg State.mem hp :)
  have hdies : (promoteWalk 6 s die pasid root va).dies = (promoteWalk 6 t die pasid root va).dies :=
    (congrArg State.dies hp :)
  have key : ∀ u, (walk u die pasid root va).1 = (walkAt (promoteWalk 6 u die pasid root va).mem
      (dieOf (promoteWalk 6 u die pasid root va) die).walkCache pasid va 4 (root * 4096)).1 := fun _ => rfl
  rw [key s, key t, dieOf, dieOf, hmem, hdies]

/-! ### Traps that were pending -/

/-- No trap is pending. -/
def unpend (y : Warp) : Warp := { y with pend := none }

section unpended
variable {s : State} {w : Who} {y : Warp} (hy : warpAt s w.core w.gslot w.wid = some y)
include hy

theorem takeTrap_unpend (c : Cause) (lanes : W32) (addr code n : Nat) :
    takeTrap (modWarp s w.core w.gslot w.wid unpend) w c lanes addr code n = takeTrap s w c lanes addr code n := by
  obtain ⟨k, hk, -⟩ := groupAt_of_warpAt hy
  obtain ⟨ws, hws⟩ := groupAt_modWarp hk w.wid unpend
  simp only [takeTrap, hk, hy, hws, warpAt_modWarp_same hy, modWarp_modWarp]
  rfl

theorem wordsAt_unpend : wordsAt (modWarp s w.core w.gslot w.wid unpend) w = wordsAt s w := by
  obtain ⟨k, hk, -⟩ := groupAt_of_warpAt hy
  obtain ⟨ws, hws⟩ := groupAt_modWarp hk w.wid unpend
  have hwalk : ∀ d p r va, (walk (modWarp s w.core w.gslot w.wid unpend) d p r va).1 = (walk s d p r va).1 :=
    fun d p r va => walk_homes (homes_modWarp ..) d p r va
  have htlb : (coreOf (modWarp s w.core w.gslot w.wid unpend) w.core).tlb = (coreOf s w.core).tlb := by
    simp only [modWarp, modGroup, hk, coreOf_modCore, if_true]
  simp only [wordsAt, hk, hy, hws, warpAt_modWarp_same hy, entryFor, tlbFind, htlb, hwalk, ctxOf, modWarp_ctxs, modWarp_mem,
    Option.bind_some, show (unpend y).split w.slot = y.split w.slot from rfl]
  cases y.split w.slot <;> rfl
end unpended
section pending
variable {s : State} {core gslot wid : Nat} {y : Warp} (hy : warpAt s core gslot wid = some y) (hr : y.run = .run)
include hy

/-- A role whose trap has waited for what it issued before (R426). -/
theorem execTrapTaken_records {r : TrapRec} {n : Nat} (hr : y.run = .trapping r n)
    (hq : roleQuiet s { core := core, gslot := gslot, wid := wid, slot := r.split } = true) :
    execTrapTaken core gslot wid s =
      .next (recordTrap s { core := core, gslot := gslot, wid := wid, slot := r.split } r n) := by
  simp only [execTrapTaken, hy, hr, hq, if_true]

include hr

theorem execHang_pends {e : WaitEntry} (he : starved y = some e) (hh : y.halted = false) (hp : y.pend = none) :
    execHang core gslot wid s = .next (modWarp s core gslot wid (fun y =>
      { y with pend := some (.hang, e.sp.pc, e.sp.mask) })) := by
  rw [execHang, hy]
  refine (if_neg (by simp [hr, hh, hp])).trans (congrArg Host.Outcome.next (modWarp_congr hy ?_))
  rw [pendHang, he]

/-- A speculator with a trap pending only stops. -/
theorem execTrapTaken_stops {r : Cause × W64 × W32} (hp : y.pend = some r) (hh : y.halted = false)
    (hu : underWay y = false) (hs : y.spec ≠ none) :
    execTrapTaken core gslot wid s = .next (modWarp s core gslot wid (fun y =>
      { y with spec := y.spec.map (fun p => { p with stopped := true }) })) := by
  obtain ⟨c, a, lanes⟩ := r
  simp only [execTrapTaken, hy, hr, hp]
  exact (if_neg (by simp [hh, hu])).trans (if_pos (Option.isSome_iff_ne_none.2 hs))

/-- The wait of a role's last split has ended without its answer. -/
def waitDropped (s : State) (w : Who) (y : Warp) : State :=
  modGroup s w.core w.gslot (fun g => dropWait g ((y.split w.slot).bind (fun q => q.wait)))

theorem execTrapTaken_takes {c : Cause} {a : W64} {lanes : W32} (hp : y.pend = some (c, a, lanes)) (hh : y.halted = false)
    (hu : underWay y = false) (hs : y.spec = none) (hl : (y.split y.lastSlot).isSome = true) {w : Who}
    (hw : w = { core := core, gslot := gslot, wid := wid, slot := y.lastSlot }) {t : State}
    (ht : modSplit (waitDropped s w y) w (fun q => { q with wait := none }) = t) :
    execTrapTaken core gslot wid s = .next (takeTrap t w c
      (if c = .hang then lanes else (y.split y.lastSlot).elim lanes (fun q => q.mask)) a.toNat 0 (wordsAt t w)) := by
  subst hw ht
  simp only [execTrapTaken, hy, hr, hp]
  refine (if_neg (by simp [hh, hu])).trans ((if_neg (by simp [hs])).trans ?_)
  simp only [hl, if_true, beq_iff_eq]
  rfl
end pending

/-- What a role's split waits for may be dropped before its pending trap or after. -/
theorem modSplit_unpend (s : State) (w : Who) (f : Split → Split) :
    modSplit (modWarp s w.core w.gslot w.wid unpend) w f = modWarp (modSplit s w f) w.core w.gslot w.wid unpend := by
  rw [modSplit, modSplit, modWarp_modWarp, modWarp_modWarp]
  rfl

theorem dropWait_warps (g : Group) (w : Option Wait) : (dropWait g w).warps = g.warps :=
  (apply_ite Group.warps _ _ _).trans (ite_self _)

theorem warpAt_waitDropped {s : State} {w : Who} {x y : Warp} (hy : warpAt s w.core w.gslot w.wid = some y) :
    ∃ z, warpAt (modSplit (waitDropped s w x) w (fun q => { q with wait := none })) w.core w.gslot w.wid = some z := by
  obtain ⟨k, hk, hw⟩ := groupAt_of_warpAt hy
  refine ⟨_, warpAt_modWarp_same (y := y) ?_⟩
  rw [warpAt, waitDropped, groupAt_modGroup_same hk]
  exact (congrArg (fun ws => mapFind ws w.wid) (dropWait_warps ..)).trans hw

section arrivals
variable {s : State} {core gslot wid : Nat} {y : Warp} {k : Group} (hk : groupAt s core gslot = some k)
  (hy : warpAt s core gslot wid = some y)
include hk hy

theorem execBarrierArrival_due {p : Spec} (hs : y.spec = some p) (hd : p.due = true) :
    execBarrierArrival core gslot wid s = .next (commit s core gslot wid p) := by
  simp only [execBarrierArrival, hk, hy, hs, Option.elim, hd, if_true]

/-- What an arrival does with the lanes that stand at its barrier. -/
theorem execBarrierArrival_stands {pc : W64} {b n : Nat} {sp : Bool} {g : Guard} {lanes : W32} (hr : y.run = .run)
    (hp : y.parked = none) (hs : y.spec = none) {who : Who}
    (hw : who = { core := core, gslot := gslot, wid := wid, slot := 0 }) (ho : rankOk s who = true)
    (ha : standsAt y = some (pc, b, n, sp, g, lanes)) {m : W32}
    (hm : lanes &&& (if g.neg then ~~~(predOf y g.pred.toNat) else predOf y g.pred.toNat) = m) :
    execBarrierArrival core gslot wid s =
      if m = 0 then .next (modWarp s core gslot wid (fun y => warpPast y b 1))
      else if countBad k b n = true then
        .next (takeTrap s { who with slot := ((List.range 4).find? (fun i => (y.split i).isSome)).getD 0 } .illegal m 0 0 1)
      else if roleWritesDone s core gslot wid = true then
        .next (arrive (noteRank s who) core gslot wid b n (sp && !y.halted))
      else .next s := by
  subst hw hm
  simp only [execBarrierArrival, hk, hy, hs, ha]
  refine (if_neg (by simp)).trans ((if_neg (by simp [hr, hp, ho])).trans ?_)
  simp only [beq_iff_eq]
end arrivals

/-- The counts that a barrier refuses (R153, R154). -/
theorem countBad_eq_false (k : Group) (b n : Nat) : countBad k b n = false ↔
    n ≤ 37 ∧ n ≤ launchedRoles k.tmpl ∧ ((barOf k b).a ≠ 0 → n = (barOf k b).e ∧ ((n = 0) ↔ (barOf k b).zero = true)) := by
  simp only [countBad, Bool.or_eq_false_iff, decide_eq_false_iff_not, Nat.not_lt, gt_iff_lt, Bool.and_eq_false_iff,
    and_assoc]
  refine and_congr_right fun _ => and_congr_right fun _ => ?_
  by_cases ha : (barOf k b).a = 0
  · simp [ha]
  · by_cases hn : n = (barOf k b).e
    · cases hz : (barOf k b).zero <;> simp [ha, hn]
    · simp [ha, hn]

section polls
variable {s u : State} {core gslot wid slot : Nat} {y : Warp} {k : Group} {sp : Split} {va q dst id scope : Nat} {lanes : W32}

/-- A poll of a barrier word is a read of its home (R161). -/
theorem execMbarwPoll_reads {pa : Nat} {e : TlbEntry} (hk : groupAt s core gslot = some k)
    (hy : warpAt s core gslot wid = some y) (hp : y.split slot = some sp)
    (hw : sp.wait = some (.mbarw va q dst id scope lanes)) (hr : y.run = .run) (hh : y.halted = false)
    (ht : engineTranslate s core k.ctx va 2 0 k.launch = (.ok pa e,
      u)) (ha : e.noatom = false) (hm : inHostMem pa = false) :
    execMbarwPoll core gslot wid slot s =
      .next (pollWord u { core := core, gslot := gslot, wid := wid, slot := slot } sp va pa q id scope lanes) := by
  simp only [execMbarwPoll, hk, hy, hp, hw]
  refine (if_neg (by simp [hr, hh])).trans ?_
  rw [ht]
  exact if_neg (by simp [ha, hm])

theorem pollWord_reads {w : Who} {pa : Nat} (he : eligible s (pollReq w id pa q scope sp.acqs) = true)
    (hp : isPoisoned s (lineOf pa) = false) {t : State}
    (ht : sawHome (l1Drop (acquireAt s (pollReq w id pa q scope sp.acqs)) w.core (lineOf pa)) [(pa, 8)] = t) :
    pollWord s w sp va pa q id scope lanes =
      if bitsOf (memNat t.mem pa 8) 48 16 != q || mbarMalformed (memNat t.mem pa 8) then
        wakeSplit (modGroup t w.core w.gslot (fun k => arriveU k id (memNat t.mem pa 8))) w 1
      else t := by
  subst ht
  simp only [pollWord, he, hp, Bool.not_true, Bool.false_eq_true, if_false]
  rfl
end polls

section probes
variable {s : State}

theorem execProbeSend_sends {core gslot wid t now : Nat} {u : Nat × Nat × Nat} (hu : u = (core, gslot, wid))
    (hb : blockedSince s u = some (t, now)) (hn : t + 2 ^ 20 ≤ now) {s2 : State}
    (h2 : (if (publishes s u).contains u then raiseCycle (restartClock s u now) u else restartClock s u now) = s2) :
    execProbeSend core gslot wid s = .next (if ((publishes s u).filter (fun v => v != u)).isEmpty then s2
      else { s2 with probes := s2.probes ++
        [{ sender := u, todo := (publishes s u).filter (fun v => v != u), seen := [u] }] }) := by
  subst hu h2
  rw [execProbeSend, hb]
  exact if_neg (Nat.not_lt.2 hn)

theorem execProbeArrival_forwards {n : Nat} {p : Probe} {u : Nat × Nat × Nat} {rest more todo : List (Nat × Nat × Nat)}
    (hp : s.probes[n]? = some p) (ht : p.todo = u :: rest) (hm : (if p.seen.contains u then [] else publishes s u) = more)
    (hd : rest ++ more.filter (fun v => v != p.sender && !p.seen.contains v && !rest.contains v) = todo) {t : State}
    {q : Probe} (hq : { p with todo := todo, seen := if p.seen.contains u then p.seen else p.seen ++ [u] } = q)
    (hs : { s with probes := if todo.isEmpty then listDrop s.probes n else listSet s.probes n q } = t) :
    execProbeArrival n s = .next (if more.contains p.sender then raiseCycle t p.sender else t) := by
  subst hm hd hq hs
  simp only [execProbeArrival, hp, ht]
end probes

/-- Settles O48, step by step. -/
theorem roleStepsComplete : Obligations.RoleStepsComplete := by
  unfold Obligations.RoleStepsComplete
  intro s core gslot wid y hy
  refine ⟨fun e he hr hh hp => ?_, fun c a lanes hp hr hh hu hs hl => ?_, fun r n hr => ?_,
    fun r hp hr hh hu hs => ?_, fun k p hk hs hd => ?_, fun k pc b n sp g lanes hk hr hp hs => ?_,
    fun slot k sp va q dst id scope lanes pa e u hk hp hw hr hh ht ha hm => ?_, fun t now hb hn => ?_,
    fun n p u rest hp ht => ?_⟩
  · exact (exec_hang ..).trans (execHang_pends hy hr he hh hp)
  · intro who t
    obtain ⟨z, hz⟩ := warpAt_waitDropped (w := who) (x := y) hy
    have hm : t = modWarp (modSplit (waitDropped s who y) who (fun q => { q with wait := none })) who.core who.gslot
        who.wid unpend := modSplit_unpend (waitDropped s who y) who _
    rw [hm, takeTrap_unpend hz, wordsAt_unpend hz]
    exact (exec_trapTaken ..).trans (execTrapTaken_takes hy hr hp hh hu hs hl rfl rfl)
  · exact fun hq => (exec_trapTaken ..).trans (execTrapTaken_records hy hr hq)
  · exact (exec_trapTaken ..).trans (execTrapTaken_stops hy hr hp hh hu hs)
  · exact (exec_barrierArrival ..).trans (execBarrierArrival_due hk hy hs hd)
  · intro who ho ha p' m good
    have key := (exec_barrierArrival ..).trans (execBarrierArrival_stands hk hy hr hp hs rfl ho ha (m := m) rfl)
    have hgood : countBad k b n = false ↔ good := countBad_eq_false ..
    refine ⟨fun hm => key.trans (if_pos hm), fun hm hg hd => ?_, fun hm hg hd => ?_, fun slot hm hg hf => ?_⟩
    · exact key.trans ((if_neg hm).trans ((if_neg (Bool.eq_false_iff.1 (hgood.2 hg))).trans (if_pos hd)))
    · exact key.trans ((if_neg hm).trans ((if_neg (Bool.eq_false_iff.1 (hgood.2 hg))).trans
        (if_neg (Bool.eq_false_iff.1 hd))))
    · refine key.trans ((if_neg hm).trans ((if_pos ?_).trans ?_))
      · exact Bool.of_not_eq_false (fun h => hg (hgood.1 h))
      · rw [hf]
        rfl
  · intro who r he hpo t v
    have key := (exec_mbarwPoll ..).trans ((execMbarwPoll_reads hk hy hp hw hr hh ht ha hm).trans
      (congrArg Host.Outcome.next (pollWord_reads he hpo (t := t) rfl)))
    refine ⟨fun h => key.trans (congrArg Host.Outcome.next (if_pos ?_)),
      fun h h' => key.trans (congrArg Host.Outcome.next (if_neg ?_))⟩
    · rcases h with h | h <;> simp [v] at h <;> simp [h]
    · simp [v] at h h'
      simp [h, h']
  · exact (exec_probeSend ..).trans (execProbeSend_sends rfl hb hn rfl)
  · exact (exec_probeArrival ..).trans (execProbeArrival_forwards hp ht rfl rfl rfl rfl)

end Sys2Proof.Proofs
end

