-- ==== Sys2Proof/Proofs/MemorySteps.lean ====
section
/-!
The homes of memory: accesses, values returned, the entries of DATOM, the host's writes (R59, R67, R74, R305 to R308, R327,
  R328).
-/
namespace Sys2Proof.Proofs
open Sys2Proof.Machine

section accesses
variable {s : State} {n : Nat}

theorem execHomeAccess_performs {r : Req} (hr : s.inflight[n]? = some r) (he : eligible s r = true)
    (ht : r.twoSteps = false) : execHomeAccess n s = .next (perform s r) := by
  simp only [execHomeAccess, hr, he, ht, Bool.not_true, Bool.false_eq_true, if_false]

theorem execHomeAccess_readsFirst {r : Req} (hr : s.inflight[n]? = some r) (he : eligible s r = true)
    (ht : r.twoSteps = true) : execHomeAccess n s = .next (hostRead s r) := by
  simp only [execHomeAccess, hr, he, ht, Bool.not_true, Bool.false_eq_true, if_false, if_true]

theorem execLoadReturn_arrives {r : Ret} (hr : s.returns[n]? = some r) :
    execLoadReturn n s = .next (modGroup (freeWarp (modWarp { s with returns := listDrop s.returns n }
      r.who.core r.who.gslot r.who.wid (fun y => arriveV y r.id r.vals)) r.who.core r.who.gslot r.who.wid)
      r.who.core r.who.gslot (fun k => arriveU k r.id ((r.vals.map (fun e => e.2)).headD 0))) := by
  simp only [execLoadReturn, hr]
end accesses

/-! ### Holding buffers -/

/-- Of two holding buffers the one that is spilled first: the one of more entries, and of equally many the lower (R327). -/
def spillsBefore (b p : DBuf) : Bool := b.ents.length > p.ents.length || (b.ents.length == p.ents.length && b.num < p.num)

/-- The holding buffer that a search keeps after it has seen one more. -/
def spillChoice (o : Option DBuf) (q : DBuf) : Option DBuf :=
  match o with
  | some p => if spillsBefore q p then some q else some p
  | none => some q

/-- The search for the buffer to spill ends with the one that goes before all others. -/
theorem foldl_spillChoice {b : DBuf} {l : List DBuf} {o : Option DBuf} (hb : b ∈ l ∨ o = some b)
    (hl : ∀ q ∈ l, q = b ∨ spillsBefore b q = true ∧ spillsBefore q b = false)
    (ho : ∀ q, o = some q → q = b ∨ spillsBefore b q = true ∧ spillsBefore q b = false)
    (hself : spillsBefore b b = false) : l.foldl spillChoice o = some b := by
  induction l generalizing o with
  | nil => exact hb.resolve_left (by simp)
  | cons q r ih =>
    have hq := hl q (by simp)
    have hr : ∀ q ∈ r, q = b ∨ spillsBefore b q = true ∧ spillsBefore q b = false := fun q h => hl q (by simp [h])
    rw [List.foldl_cons]
    rcases o with _ | p
    · rcases hb with hb | hb
      · refine ih ?_ hr (fun p hp => ?_)
        · rcases List.mem_cons.1 hb with rfl | hb
          · exact .inr rfl
          · exact .inl hb
        · obtain rfl : q = p := by simpa [spillChoice] using hp
          exact hq
      · cases hb
    · rcases ho p rfl with rfl | ⟨hp, -⟩
      · have hkeep : spillChoice (some p) q = some p := by
          rcases hq with rfl | ⟨-, hq⟩ <;> simp [spillChoice, *]
        rw [hkeep]
        exact ih (.inr rfl) hr (fun q hq => .inl (Option.some.inj hq).symm)
      · rcases hq with rfl | ⟨hq, hq'⟩
        · rw [spillChoice, if_pos hp]
          exact ih (.inr rfl) hr (fun p hq => .inl (Option.some.inj hq).symm)
        · have hb : b ∈ r := by
            rcases hb with hb | hb
            · rcases List.mem_cons.1 hb with rfl | hb
              · exact absurd hq (by simp [hself])
              · exact hb
            · obtain rfl := Option.some.inj hb
              exact absurd hp (by simp [hself])
          refine ih (.inl hb) hr (fun z hz => ?_)
          rw [spillChoice] at hz
          split at hz
          · exact .inr (Option.some.inj hz ▸ ⟨hq, hq'⟩)
          · exact ho z hz

theorem spillsBefore_self (b : DBuf) : spillsBefore b b = false := by simp [spillsBefore]

/-- The buffer of more entries than any other of its home, or the lowest of those. -/
theorem spillChoice_most {b : DBuf} {here : List DBuf} (hb : b ∈ here) (hm : ∀ q, q ∈ here → q = b ∨
    q.ents.length < b.ents.length ∨ (q.ents.length = b.ents.length ∧ b.num < q.num)) :
    here.foldl spillChoice none = some b := by
  refine foldl_spillChoice (.inl hb) (fun q hq => (hm q hq).imp_right (fun h => ?_)) (by simp) (spillsBefore_self b)
  simp only [spillsBefore, Bool.or_eq_true, Bool.and_eq_true, decide_eq_true_eq, beq_iff_eq, Bool.or_eq_false_iff,
    Bool.and_eq_false_iff, decide_eq_false_iff_not, beq_eq_false_iff_ne]
  omega

/-- A search written out otherwise finds the same. -/
theorem foldl_of_choice {b : DBuf} {l : List DBuf} {f : Option DBuf → DBuf → Option DBuf}
    (h : l.foldl spillChoice none = some b) (hf : f = spillChoice) : l.foldl f none = some b := hf ▸ h

/-- An entry in a holding buffer of its home, among `old` (R327). -/
def heldBy (s : State) (e : DInFlight) (num : Nat) (old : List DEntry) : State :=
  { s with dbufs := s.dbufs.filter (fun q => !(q.home == homeOf e.pa && q.num == num)) ++ [{
      home := homeOf e.pa
      num := num
      ctx := e.ctx
      launch := e.launch
      pa := e.pa
      f64 := e.f64
      ents := insertBy (fun a b => decide (a.key ≤ b.key)) e.ent old }] }

section entries
variable {s u : State} {n : Nat} {e : DInFlight} (he : s.datoms[n]? = some e)
  (hu : addToken { s with datoms := listDrop s.datoms n } e.who e.tok (-1) = u)
include he hu

theorem execDatomEntryArrival_joins {b : DBuf} (hb : u.dbufs.find? (fun b => b.home == homeOf e.pa && b.ctx == e.ctx &&
    b.launch == e.launch && b.pa == e.pa) = some b) (hl : b.ents.length < 16) :
    execDatomEntryArrival n s = .next (heldBy u e b.num b.ents) := by
  subst hu
  simp only [execDatomEntryArrival, he, hb, hl, if_true, heldBy]

theorem execDatomEntryArrival_spills {b : DBuf} {t : State} (hb : u.dbufs.find?
  (fun b => b.home == homeOf e.pa && b.ctx == e.ctx &&
    b.launch == e.launch && b.pa == e.pa) = some b) (hl : 16 ≤ b.ents.length) (ht : spillRun u b = some t) :
    execDatomEntryArrival n s = .next (heldBy t e b.num []) := by
  subst hu
  simp only [execDatomEntryArrival, he, hb, Nat.not_lt.2 hl, if_false, ht, heldBy]

theorem execDatomEntryArrival_faults {b : DBuf} (hb : u.dbufs.find? (fun b => b.home == homeOf e.pa && b.ctx == e.ctx &&
    b.launch == e.launch && b.pa == e.pa) = some b) (hl : 16 ≤ b.ents.length) (ht : spillRun u b = none) :
    execDatomEntryArrival n s = .next (datomLogFault u e.ctx e.launch (dieOfHome (homeOf e.pa))) := by
  subst hu
  simp only [execDatomEntryArrival, he, hb, Nat.not_lt.2 hl, if_false, ht]

variable (hb : u.dbufs.find?
  (fun b => b.home == homeOf e.pa && b.ctx == e.ctx && b.launch == e.launch && b.pa == e.pa) = none)
include hb

theorem execDatomEntryArrival_opens {i : Nat} (hi : (List.range 64).find? (fun i =>
    (u.dbufs.filter (fun b => b.home == homeOf e.pa)).all (fun b => b.num != i)) = some i) :
    execDatomEntryArrival n s = .next (heldBy u e i []) := by
  subst hu
  simp only [execDatomEntryArrival, he, hb, hi, heldBy]

variable (hi : (List.range 64).find? (fun i =>
    (u.dbufs.filter (fun b => b.home == homeOf e.pa)).all (fun b => b.num != i)) = none) {b : DBuf}
  (hm : (u.dbufs.filter (fun b => b.home == homeOf e.pa)).foldl spillChoice none = some b)
include hi hm

/-- All buffers of the home in use: the fullest is spilled, and the entry has it. -/
theorem execDatomEntryArrival_spillsMost {t : State} (ht : spillRun u b = some t) :
    execDatomEntryArrival n s = .next (heldBy t e b.num []) := by
  subst hu
  simp only [execDatomEntryArrival, he, hb, hi]
  rw [foldl_of_choice hm]
  · simp only [ht, heldBy]
  · rfl

/-- Where the log of the launch is full it is faulted (R74). -/
theorem execDatomEntryArrival_faultsMost {t : State} (ht : spillRun u b = none)
    (hf : datomLogFault u b.ctx b.launch (dieOfHome (homeOf e.pa)) = t) :
    execDatomEntryArrival n s = .next (if (launchOf t e.ctx e.launch).isSome then
      heldBy { t with
        dbufs := t.dbufs.filter (fun q => !(q.home == homeOf e.pa && q.num == b.num)) } e b.num []
      else t) := by
  subst hu hf
  simp only [execDatomEntryArrival, he, hb, hi]
  rw [foldl_of_choice hm]
  · simp only [ht, heldBy]
  · rfl
end entries

section ends
variable {s : State}

theorem execDatomApply_applies {x idx : Nat} {l : Launch} (hl : launchOf s x idx = some l) (hm : mayApply s x l = true)
    {runs : List (Nat × Bool × List DEntry)} (hr : l.logRuns.map (fun r => (r.pa, r.f64, r.ents)) ++
      (s.dbufs.filter (fun b => b.ctx == x && b.launch == idx)).map (fun b => (b.pa, b.f64, b.ents)) = runs) {t : State}
    (ht : (distinct (runs.map (fun r => r.1))).foldl (fun t pa =>
      applyWord t pa (((runs.filter (fun r => r.1 == pa)).map (fun r => r.2.1)).headD false)
        (sortBy (fun a b => decide (a.key ≤ b.key)) ((runs.filter (fun r => r.1 == pa)).flatMap (fun r => r.2.2)))) s = t) :
    execDatomApply x idx s = .next (modLaunch { t with
      dbufs := t.dbufs.filter (fun b => !(b.ctx == x && b.launch == idx)) } x idx
      (fun l => { l with applied := true, logRuns := [] })) := by
  subst hr ht
  simp only [execDatomApply, hl, hm, Bool.not_true, Bool.false_eq_true, if_false]

theorem hostPut_clean {pa : Nat} {bytes : List Byte} {u : State}
    (hu : { s with poison := s.poison.filter (fun l => !(wholeLines [(pa, bytes.length)]).contains l) } = u)
    (h : ∀ l, l ∈ linesOf pa bytes.length → inHole (l * 128) = false ∧ isPoisoned u l = false) :
    hostPut s pa bytes = hostWriteBytes u pa bytes := by
  subst hu
  refine if_pos (List.all_eq_true.2 fun l hl => ?_)
  obtain ⟨hhole, hpoison⟩ := h l hl
  have hline : lineOf (l * 128) = l := Nat.mul_div_cancel l (by omega)
  show (!(inHole (l * 128) || isPoisoned _ (lineOf (l * 128)))) = true
  rw [hline, hhole, hpoison]
  rfl
end ends

/-- Settles O49, step by step. -/
theorem memoryStepsComplete : Obligations.MemoryStepsComplete := by
  unfold Obligations.MemoryStepsComplete
  intro s n x idx pa bytes
  refine ⟨fun r hr he => ⟨fun ht => ?_, fun ht => ?_⟩, fun r hr => ?_, fun e he => ?_, fun l hl hm => ?_, fun hd => ?_⟩
  · exact (exec_homeAccess ..).trans (execHomeAccess_performs hr he ht)
  · exact (exec_homeAccess ..).trans (execHomeAccess_readsFirst hr he ht)
  · exact (exec_loadReturn ..).trans (execLoadReturn_arrives hr)
  · intro h u here put mine
    refine ⟨fun b hb hl => ?_, fun b t hb hl ht => ?_, fun b hb hl ht => ?_, fun i hb hi => ?_,
      fun b hb hi hmem hmost => ⟨fun t ht => ?_, fun ht => ?_⟩⟩
    · exact (exec_datomEntryArrival ..).trans (execDatomEntryArrival_joins he rfl hb hl)
    · exact (exec_datomEntryArrival ..).trans (execDatomEntryArrival_spills he rfl hb hl ht)
    · exact (exec_datomEntryArrival ..).trans (execDatomEntryArrival_faults he rfl hb hl ht)
    · exact (exec_datomEntryArrival ..).trans (execDatomEntryArrival_opens he rfl hb hi)
    · exact (exec_datomEntryArrival ..).trans
        (execDatomEntryArrival_spillsMost he rfl hb hi (spillChoice_most hmem hmost) ht)
    · intro t
      have key := (exec_datomEntryArrival ..).trans
        (execDatomEntryArrival_faultsMost he rfl hb hi (spillChoice_most hmem hmost) ht (t := t) rfl)
      exact ⟨fun hsome => key.trans (congrArg Host.Outcome.next (if_pos hsome)),
        fun hnone => key.trans (congrArg Host.Outcome.next (if_neg (Bool.eq_false_iff.1 hnone)))⟩
  · exact (exec_datomApply ..).trans (execDatomApply_applies hl hm rfl rfl)
  · intro u h
    refine (exec_hostWrite ..).trans (congrArg Host.Outcome.next ((if_neg ?_).trans (hostPut_clean rfl h)))
    rcases hd with hd | hd <;> simp [hd]

end Sys2Proof.Proofs
end

