-- ==== Sys2Proof/Proofs/EngineSteps.lean ====
section
/-!
The engines of a core: copies that retire or begin again, the array, the drain units, releases (R191, R332, R339,
  R345 to R347,
R358 to R360).
-/
namespace Sys2Proof.Proofs
open Sys2Proof.Machine

section copies
variable {s : State} {core n : Nat} {c : Copy} (hc : (coreOf s core).copies[n]? = some c)
include hc

theorem execCopyRetire_retires {d : Copy} (hw : c.waitPage = none) (hf : c.fault = none ∨ abandoned s core c = false)
    {t : State} (ht : runCopy s core c.id = t) (hd : copyById t core c.id = some d) (hm : d.mayRetire t core = true)
    (he : d.fault.isSome = true ∧ abandoned t core d = false ∨
      d.fault = none ∧ d.done.length = d.count ∧ (d.dsp = 3 → xidUnacked t d.id = false)) :
    execCopyRetire core n s = .next (retireCopy t core d) := by
  subst ht
  rw [execCopyRetire, hc]
  refine (if_neg ?_).trans ?_
  · rcases hf with hf | hf <;> simp [hw, hf]
  simp only [hd, hm]
  rcases he with ⟨hfault, hab⟩ | ⟨hfault, hdone, hack⟩
  · simp [hfault, hab]
  · refine (if_neg (by simp [hfault])).trans ((if_neg (by simp [hfault])).trans (if_pos ?_))
    by_cases h3 : d.dsp = 3 <;> simp [hdone, h3, hack]

/-- A copy whose page came begins again (R191). -/
theorem execCopyReplay_again {p : Nat} {g : Group} (hw : c.waitPage = some p) (hg : groupAt s core c.gslot = some g)
    (hp : pageOpen s (ctxOf s g.ctx).pasid p = false) (ha : abandoned s core c = false) :
    execCopyReplay core n s = .next (modCopy s core c.id (fun q =>
      { q with waitPage := none, done := [], asked := [], idx := if q.imem then [] else q.idx })) := by
  simp only [execCopyReplay, hc, hw, hg]
  exact if_neg (by simp [hp, ha])
end copies

section arrays
variable {s : State} {core : Nat} {q : MatOp} {r : List MatOp} (hq : (coreOf s core).mq = q :: r)
include hq

theorem execArrayStart_starts : execArrayStart core s = .next (modCore s core (fun k =>
    { k with mq := { q with running := true } :: r })) := by
  rw [execArrayStart, modCore, modCore, hq]

theorem execArrayRetire_writes (hr : q.running = true) (hd : ∀ d, d ∈ (coreOf s core).drains → d.id < q.id → d.img = none →
    shares (drainBlocks d.desc) q.kind.blocks = false) :
    execArrayRetire core s =
      .next (wakeDone (modCore s core (fun k => runMat { k with mq := r } q.kind q.blk)) core q.gslot) := by
  rw [execArrayRetire, hq]
  refine if_neg ?_
  have hmay : arrayMay (coreOf s core) q = true := by
    simp only [arrayMay, hr, Bool.true_and, Bool.not_eq_true', List.any_eq_false, Bool.and_eq_true, decide_eq_true_eq,
      Option.isNone_iff_eq_none]
    rintro d hmem ⟨⟨hid, himg⟩, hs⟩
    rw [hd d hmem hid himg] at hs
    cases hs
  simp [hmay]
end arrays

/-! ### Drains -/

section drains
variable {s : State} {core : Nat} {d : Drain} {g : Group}

theorem execDrainStart_reads {dst : List (List (Nat × Nat))} {t : State}
    (hd : (coreOf s core).drains.find? (fun d => d.img.isNone) = some d) (hg : groupAt s core d.gslot = some g)
    (hw : d.waitPage = none)
    (hq : ∀ q, q ∈ (coreOf s core).mq → q.id < d.id → shares q.kind.blocks (drainBlocks d.desc) = false)
    (hr : (drainRows s core g d.desc d.base).1 = .ok dst t) :
    execDrainStart core s = .next (modDrain t core d.id (fun e =>
      { e with waitPage := none, img := some (tileWords (coreOf s core) d.desc) })) := by
  simp only [execDrainStart, hd, hg, hw, hr, Bool.false_or]
  refine if_neg ?_
  simp only [List.any_eq_true, Bool.and_eq_true, decide_eq_true_eq, not_exists, not_and, Bool.not_eq_true]
  exact hq

/-- No line is poisoned. -/
def Unpoisoned (s : State) : Prop := s.poison = []

theorem lineWrite_unpoisoned (h : Unpoisoned s) (pa : Nat) (bs : List Byte) : Unpoisoned (lineWrite s pa bs) := by
  unfold lineWrite
  split
  · exact h
  · split
    · exact (congrArg (List.filter _) h :)
    · split
      · exact h
      · exact h

theorem unitWrite_unpoisoned (h : Unpoisoned s) (pa : Nat) (bs : List Byte) : Unpoisoned (unitWrite s pa bs) := by
  unfold unitWrite
  split
  · exact List.foldlRecOn _ _ h (fun s h l _ => lineWrite_unpoisoned h _ _)
  · exact h

theorem drainPiece_unpoisoned (h : Unpoisoned s) (own : Nat × Nat) (pa : Nat) (bs : List Byte) :
    Unpoisoned (drainPiece s own pa bs) := by
  unfold drainPiece
  split
  · have hc : Unpoisoned { s with poison := s.poison.filter (fun l => l != lineOf pa) } := (congrArg (List.filter _) h :)
    exact unitWrite_unpoisoned hc pa bs
  · split
    · exact h
    · exact unitWrite_unpoisoned h pa bs

theorem unitSaw_unpoisoned (h : Unpoisoned s) (rs : List (Nat × Nat)) : Unpoisoned (unitSaw s rs) := by
  unfold unitSaw sawHome
  split <;> exact h

theorem drainShare_unpoisoned (h : Unpoisoned s) (own : Nat × Nat) (u : Nat) (img : List W32)
    (dst res : List (List (Nat × Nat))) : Unpoisoned (drainShare s core own u d img dst res) := by
  refine (modWarp_poison ..).trans (List.foldlRecOn _ _ h (fun s h i _ => ?_))
  have hsaw := unitSaw_unpoisoned h (res.getD i [])
  dsimp only
  split
  · exact hsaw
  · exact List.foldlRecOn _ _ hsaw (fun s h p _ => drainPiece_unpoisoned h ..)

theorem drainWrite_all {img : List W32} {dst res : List (List (Nat × Nat))} {t : State} (hi : d.img = some img)
    (hg : groupAt s core d.gslot = some g) (hr : d.rows = none) (hb : drainBehind (coreOf s core) d = false)
    (ho : obsClear s core d.id = true) (ht : drainRows s core g d.desc d.base = (.ok dst t, res)) (hp : Unpoisoned t) :
    drainWrite s core d (fun _ => true) true = retireDrain
      (((drainHomes dst).filter (fun h => !d.homes.contains h)).foldl
        (fun u h => drainShare u core (g.ctx, g.launch) h d img dst res)
        (modDrain t core d.id (fun q => { q with rows := some (dst, res) }))) core d none := by
  have hclean : ∀ u, Unpoisoned u → ∀ l, isPoisoned u l = false := fun u hu l => by
    rw [isPoisoned, hu]
    rfl
  have hdone : Unpoisoned (((drainHomes dst).filter (fun h => !d.homes.contains h)).foldl
      (fun u h => drainShare u core (g.ctx, g.launch) h d img dst res)
      (modDrain t core d.id (fun q => { q with rows := some (dst, res) }))) :=
    List.foldlRecOn _ _ hp (fun s h u _ => drainShare_unpoisoned h ..)
  simp only [drainWrite, hi, hg, hb, ho, hr, ht, hclean t hp, hclean _ hdone, Bool.and_true, Bool.not_true, Bool.or_self,
    Bool.false_eq_true, if_false, List.any_eq_true, and_false, exists_false]
  exact if_neg (by simp)
end drains

section releases
variable {s : State} {core n : Nat}

theorem execMrelTakesEffect_frees {r : Mrel} (hr : (coreOf s core).mrels[n]? = some r)
    (hb : ∀ i, i ∈ r.before → (∀ q, q ∈ (coreOf s core).mq → q.id ≠ i) ∧ (∀ d, d ∈ (coreOf s core).drains → d.id ≠ i))
    (hc : ∀ c, c ∈ (coreOf s core).copies → c.gslot = r.gslot → shares c.slots r.slots = false)
    (hi : ∀ q, q ∈ s.inflight → q.who.core = core → q.who.gslot = r.gslot →
      shares q.matItems.1 r.slots = false ∧ shares q.matItems.2 r.blocks = false) :
    execMrelTakesEffect core n s = .next (modCore s core (fun k => { k with
      mrels := listDrop k.mrels n
      slots := k.slots.map (fun e => (e.1, if r.slots.contains e.1 && e.2.holder == .held r.gslot
        then { e.2 with holder := .free } else e.2))
      blocks := k.blocks.map (fun e => (e.1, if r.blocks.contains e.1 && e.2.holder == .held r.gslot
        then { e.2 with holder := .free } else e.2)) })) := by
  have hbefore : shares r.before ((coreOf s core).mq.map (·.id) ++ (coreOf s core).drains.map (·.id)) = false := by
    simp only [shares, List.any_eq_false, List.contains_iff_mem, List.mem_append, List.mem_map, not_or, not_exists, not_and]
    exact fun i hmem => hb i hmem
  have hbusy : relBusy s core r = false := by
    simp only [relBusy, Bool.or_eq_false_iff, List.any_eq_false, Bool.and_eq_true, beq_iff_eq, Bool.or_eq_true, not_and,
      not_or, Bool.not_eq_true]
    exact ⟨hc, fun q hmem ⟨hcore, hslot⟩ => hi q hmem hcore hslot⟩
  rw [execMrelTakesEffect, hr]
  exact if_neg (by simp [hbefore, hbusy])
end releases

/-- Settles O50, step by step. -/
theorem engineStepsComplete : Obligations.EngineStepsComplete := by
  unfold Obligations.EngineStepsComplete
  intro s core n k
  refine ⟨fun c d hc hw hf => ?_, fun c p g hc hw hg hp ha => ?_, fun q r hq => ?_, fun q r hq hr hd => ?_,
    fun d g dst t hd hg hw hq hr => ?_, fun d img g dst res t hd hi hg hr hb ho ht hp => ?_, fun r hr hb hc hi => ?_⟩
  · exact fun hd hm he => (exec_copyRetire ..).trans (execCopyRetire_retires hc hw hf rfl hd hm he)
  · exact (exec_copyReplay ..).trans (execCopyReplay_again hc hw hg hp ha)
  · exact (exec_arrayStart ..).trans (execArrayStart_starts hq)
  · exact (exec_arrayRetire ..).trans (execArrayRetire_writes hq hr hd)
  · exact (exec_drainStart ..).trans (execDrainStart_reads hd hg hw hq hr)
  · refine (exec_drainRetire ..).trans ?_
    rw [execDrainRetire, show (coreOf s core).drains[n]? = some d from hd]
    exact congrArg Host.Outcome.next (drainWrite_all hi hg hr hb ho ht hp)
  · exact (exec_mrelTakesEffect ..).trans (execMrelTakesEffect_frees hr hb hc hi)

end Sys2Proof.Proofs
end

