-- ==== Sys2Proof/Proofs/CisternSteps.lean ====
section
/-!
The Cisterns and the decoders: posts, combining and release (R170 to R178, R386),
  submissions and their frames (R446 to R453).
-/
namespace Sys2Proof.Proofs
open Sys2Proof.Machine

section posts
variable {s t : State} {die n : Nat} {k : Chunk}

/-- A post whose turn it is leaves the queue. -/
theorem execChunkArrival_takes (hk : (dieOf s die).chunkQ[n]? = some k) (hn : chunkTurn s die n = true)
    (ht : modDie s die (fun d => { d with chunkQ := listDrop d.chunkQ n, arrived := d.arrived ++ [k.slot] }) = t) :
    execChunkArrival die n s = .next (takeChunk t die k) := by
  subst ht
  simp only [execChunkArrival, hk]
  exact if_neg (by simp [hn])

theorem takeChunk_traps (h : classify t die k = .trap) : takeChunk t die k = answerRole t k.who k.id (some .combine) := by
  simp only [takeChunk, h]

theorem takeChunk_duplicate (h : classify t die k = .dup) : takeChunk t die k =
    answerRole (modCslot t die k.slot (fun c => { c with dups := Nat.min 255 (c.dups + 1) })) k.who k.id none := by
  simp only [takeChunk, h]

theorem takeChunk_accepts {p : Nat} {b : Batch} (h : classify t die k = .accept p)
    (hb : (cslotOf t die k.slot).batch = some b) :
    takeChunk t die k = answerRole (acceptChunk t die k b p) k.who k.id none := by
  simp only [takeChunk, h, hb]

/-- A late post counted (R175). -/
def countLate (s : State) (die slot : Nat) : State :=
  modCslot s die slot (fun c => { c with lates := Nat.min 255 (c.lates + 1) })

theorem takeChunk_lateUnknown (h : classify t die k = .late none) :
    takeChunk t die k = answerRole (countLate t die k.slot) k.who k.id none := by
  simp only [takeChunk, h, countLate]

theorem takeChunk_late {b : Batch} (h : classify t die k = .late (some b)) :
    takeChunk t die k = answerRole (if b.lateev then deviceEvent (countLate t die k.slot) die 2 0 b.rstream 0xE5
      (b.token0 + (k.slot - b.first)) (b.gen * 2 ^ 32 + k.expert) false else countLate t die k.slot) k.who k.id none := by
  simp only [takeChunk, h, countLate]

/-- The queue of posts is no part of a slot. -/
theorem cslotOf_arrived (f : Die → Die) (hf : ∀ d, (f d).cslots = d.cslots) (i : Nat) :
    cslotOf (modDie s die f) die i = cslotOf s die i := by
  rw [cslotOf, cslotOf, dieOf_modDie, if_pos rfl, hf]
end posts

section slots
variable {s : State} {die n : Nat}

theorem execCombineDeadline_combines (ho : (cslotOf s die n).st = .open_)
    (hd : (cslotOf s die n).arrmask = (cslotOf s die n).expmask ∨ (cslotOf s die n).deadline ≤ (dieOf s die).cycle)
    (hr : nextRelease s die = none) (ht : combineDue (serveGates s die) die n = true) :
    execCombineDeadline die n s =
      .next (modDie (enterCombined (serveGates s die) die n) die (fun d => { d with combining := true })) := by
  have hdue : combineDue s die n = true := by simpa [combineDue, ho] using hd
  refine (if_neg (by simp [hdue, hr])).trans (congrArg Host.Outcome.next ?_)
  rw [ht, if_pos rfl]

theorem execSlotRelease_releases (hr : nextRelease s die = some n) :
    execSlotRelease die n s = .next (releaseSlot s die n) := by
  rw [execSlotRelease, hr]
  exact congrArg Host.Outcome.next (if_pos (by simp))

variable {b : Batch} (hb : (cslotOf s die n).batch = some b)
include hb

theorem releaseSlot_freed (hc : (cslotOf s die n).result = 2) : releaseSlot s die n = freeSlotEvent s die n b := by
  rw [releaseSlot, hb]
  exact if_pos hc

theorem releaseSlot_writes (hc : (cslotOf s die n).result ≠ 2) {u : State}
    (hu : flushOut s die n b (cslotOf s die n).outQ = u) : releaseSlot s die n =
      if (cslotOf u die n).failed || (cslotOf u die n).outQ.isEmpty then freeSlotEvent u die n b else u := by
  subst hu
  rw [releaseSlot, hb]
  exact if_neg hc
end slots

section decoders
variable {s t : State} {die n : Nat} {sub : Sub} {rest : List Sub}

/-- A submission taken: its token counts one less, and the decoder is at work on it. -/
def submissionTaken (s : State) (die n : Nat) (sub : Sub) (rest : List Sub) : State :=
  modDec (match sub.tok with
    | some (w, k) => addToken s w (some k) (-1)
    | none => s) die n (fun d => { d with queue := { sub with tok := none } :: rest, st := .busy })

/-- The job of a submission whose descriptor or stream is refused: no frame, and its status. -/
def refusedJob (sub : Sub) (v status : Nat) : DecJob where
  desc := v
  ctx := sub.ctx
  region := sub.region
  launch := sub.launch
  frames := []
  made := 0
  status := status
  newCtx := []
  frameNo := 0

/-- A unit reads the same of a state written out otherwise. -/
theorem unitGet_of_eq {u v : State} {x path launch va k : Nat} {r : UnitOut} (h : unitGet v die x path launch va k = r)
    (hu : u = v) : unitGet u die x path launch va k = r := hu ▸ h

section starts
variable {bs : List Byte} (hq : (decOf s die n).queue = sub :: rest) (hd : (decOf s die n).st ≠ .disabled)
  (hj : (decOf s die n).job = none) (hw : (decOf s die n).waitPage = none)
  (hg : unitGet s die sub.ctx 5 sub.launch sub.va 64 = .ok bs t)
include hq hd hj hw hg

theorem execSubmissionStart_malformed (hv : vdOk (ofBytesLE bs) = false) :
    execSubmissionStart die n s = .next (modDec (submissionTaken t die n sub rest) die n (fun d =>
      { d with job := some (refusedJob sub (ofBytesLE bs) 5) })) := by
  rw [execSubmissionStart, hq]
  refine (if_neg (by simp [hd, hj, hw])).trans ?_
  rw [hg]
  exact (if_pos (by simp [hv])).trans rfl

theorem execSubmissionStart_stale (hv : vdOk (ofBytesLE bs) = true)
    (hs : (streamFor (submissionTaken t die n sub rest) sub.ctx (ofBytesLE bs)).stale = true) :
    execSubmissionStart die n s = .next (modDec (submissionTaken t die n sub rest) die n (fun d =>
      { d with job := some (refusedJob sub (ofBytesLE bs) 3) })) := by
  rw [execSubmissionStart, hq]
  refine (if_neg (by simp [hd, hj, hw])).trans ?_
  rw [hg]
  exact (if_neg (by simp [hv])).trans ((if_pos hs).trans rfl)

theorem execSubmissionStart_decodes {src area : List Byte} {u w : State} (hv : vdOk (ofBytesLE bs) = true)
    (hs : (streamFor (submissionTaken t die n sub rest) sub.ctx (ofBytesLE bs)).stale = false)
    (h1 : unitGet (submissionTaken t die n sub rest) die sub.ctx 5 sub.launch (bitsOf (ofBytesLE bs) 448 64)
      (bitsOf (ofBytesLE bs) 288 32) = .ok src u)
    (h2 : unitGet u die sub.ctx 5 sub.launch (bitsOf (ofBytesLE bs) 384 64) (vCtxSize (ofBytesLE bs)) = .ok area w) :
    execSubmissionStart die n s = .next (modDec w die n (fun d =>
      { d with job := some (decodeJob w { sub with tok := none } (ofBytesLE bs) src area) })) := by
  rw [execSubmissionStart, hq]
  refine (if_neg (by simp [hd, hj, hw])).trans ?_
  rw [hg]
  refine (if_neg (by simp [hv])).trans ((if_neg (Bool.eq_false_iff.1 hs)).trans ?_)
  dsimp only
  rw [unitGet_of_eq h1]
  · dsimp only
    rw [h2]
  · rfl
end starts

section frames
variable {j : DecJob} (hq : (decOf s die n).queue = sub :: rest) (hj : (decOf s die n).job = some j)
include hq hj

/-- A frame made. -/
def frameMade (s : State) (die n : Nat) (j : DecJob) : State :=
  modDec s die n (fun d => { d with st := .busy, job := some { j with made := j.made + 1 } })

section puts
variable {f : Frame} {bs : List Byte} (hm : j.made < j.outputs) (hf : j.frames[j.made]? = some f)
  (hp : putRows s die j.ctx j.launch (frameRows j.desc (bitsOf j.desc 320 64 + j.made * vStride j.desc) f) = .ok bs t)
include hm hf hp

theorem execFramePut_unqueued (h : j.desc.testBit 186 = false ∨ ¬ ((bqOf t die (bitsOf j.desc 187 5)).enabled = true ∧
    (bqOf t die (bitsOf j.desc 187 5)).part = (ctxOf t j.ctx).part)) :
    execFramePut die n s = .next (frameMade t die n j) := by
  rw [execFramePut, hq, hj]
  refine (if_neg (Nat.not_le.2 hm)).trans ?_
  rw [hf]
  dsimp only
  rw [hp]
  refine (if_pos ?_).trans rfl
  rcases h with h | h
  · simp [h]
  · by_cases he : (bqOf t die (bitsOf j.desc 187 5)).enabled = true
    · have hpart : ¬ (bqOf t die (bitsOf j.desc 187 5)).part = (ctxOf t j.ctx).part := fun hpart => h ⟨he, hpart⟩
      simp [hpart]
    · simp [he]

theorem execFramePut_queued {u : State} (hb : j.desc.testBit 186 = true)
    (he : (bqOf t die (bitsOf j.desc 187 5)).enabled = true)
    (ho : (bqOf t die (bitsOf j.desc 187 5)).part = (ctxOf t j.ctx).part)
    (hu : bqPut t die (bitsOf j.desc 187 5) (bytesLE 64 (frameDesc die n j j.made f)) = some u) :
    execFramePut die n s = .next (frameMade u die n j) := by
  rw [execFramePut, hq, hj]
  refine (if_neg (Nat.not_le.2 hm)).trans ?_
  rw [hf]
  dsimp only
  rw [hp]
  refine (if_neg (by simp [hb, he, ho])).trans ?_
  rw [hu]
  rfl
end puts

theorem execSubmissionEnd_failed (hm : j.outputs ≤ j.made) (hs : j.status ≠ 0) :
    execSubmissionEnd die n s = .next (endSubmission s die n j j.status) := by
  rw [execSubmissionEnd, hq, hj]
  exact (if_neg (Nat.not_lt.2 hm)).trans (if_pos (by simpa using hs))

theorem execSubmissionEnd_writes {bs : List Byte} (hm : j.outputs ≤ j.made) (hs : j.status = 0)
    (hu : unitPut s die j.ctx 5 j.launch (bitsOf j.desc 384 64) (j.newCtx.take (vCtxSize j.desc)) = .ok bs t) :
    execSubmissionEnd die n s = .next (endSubmission t die n j 0) := by
  rw [execSubmissionEnd, hq, hj]
  refine (if_neg (Nat.not_lt.2 hm)).trans ((if_neg (by simp [hs])).trans ?_)
  rw [hu]
end frames
end decoders

/-- Settles O51, step by step. -/
theorem cisternAndDecoderStepsComplete : Obligations.CisternAndDecoderStepsComplete := by
  unfold Obligations.CisternAndDecoderStepsComplete
  intro s die n
  refine ⟨fun k hk hn => ?_, ?_, fun b hb hr => ?_, fun sub rest bs t hq hd hj hw hg => ?_,
    fun sub rest j f bs t hq hj hm hf hp => ?_, fun sub rest j hq hj hm => ⟨fun hs => ?_, fun bs t hs hu => ?_⟩⟩
  · intro t told
    have key := (exec_chunkArrival ..).trans (execChunkArrival_takes hk hn (t := t) rfl)
    refine ⟨fun h => key.trans (congrArg Host.Outcome.next (takeChunk_traps h)),
      fun h => key.trans (congrArg Host.Outcome.next (takeChunk_duplicate h)),
      fun p b h hb => key.trans (congrArg Host.Outcome.next (takeChunk_accepts h ((congrArg CSlot.batch ?_).trans hb))),
      fun h => key.trans (congrArg Host.Outcome.next (takeChunk_lateUnknown h)),
      fun b h => key.trans (congrArg Host.Outcome.next (takeChunk_late h))⟩
    exact cslotOf_arrived (fun d => { d with chunkQ := listDrop d.chunkQ n, arrived := d.arrived ++ [k.slot] })
      (fun _ => rfl) k.slot
  · exact fun ho hd hr ht => (exec_combineDeadline ..).trans (execCombineDeadline_combines ho hd hr ht)
  · have key := (exec_slotRelease ..).trans (execSlotRelease_releases hr)
    refine ⟨fun hc => key.trans (congrArg Host.Outcome.next (releaseSlot_freed hb hc)), fun hc => ?_⟩
    have hwrite := releaseSlot_writes hb hc rfl
    refine ⟨fun h => key.trans (congrArg Host.Outcome.next (hwrite.trans (if_pos ?_))),
      fun hf ho => key.trans (congrArg Host.Outcome.next (hwrite.trans (if_neg ?_)))⟩
    · simpa using h
    · simpa [hf] using ho
  · exact ⟨fun hv => (exec_submissionStart ..).trans (execSubmissionStart_malformed hq hd hj hw hg hv),
      fun hv hs => (exec_submissionStart ..).trans (execSubmissionStart_stale hq hd hj hw hg hv hs),
      fun src t2 area t3 hv hs h1 h2 => (exec_submissionStart ..).trans
        (execSubmissionStart_decodes hq hd hj hw hg hv hs h1 h2)⟩
  · exact ⟨fun h => (exec_framePut ..).trans (execFramePut_unqueued hq hj hm hf hp h),
      fun u hb hmine hu => (exec_framePut ..).trans (execFramePut_queued hq hj hm hf hp hb hmine.1 hmine.2 hu)⟩
  · exact (exec_submissionEnd ..).trans (execSubmissionEnd_failed hq hj hm hs)
  · exact (exec_submissionEnd ..).trans (execSubmissionEnd_writes hq hj hm hs hu)

end Sys2Proof.Proofs
end

