-- ==== Sys2Proof/Proofs/LinkSteps.lean ====
section
/-!
The peer links: training, loss of signal, flits that are bad, refused or in sequence (R196, R198 to R202, R205).
-/
namespace Sys2Proof.Proofs
open Sys2Proof.Machine

section training
variable {s : State} {p : Nat}

theorem execPortTrained_numbered (h : (portOf s p).st = .training) (hn : s.node ≠ 0xFFFF) :
    execPortTrained p s = .next (portTo (modPort s p (fun q =>
      { q with seq := 0, lastGood := 0xFFF, replay := [] })) p .active) := by
  simp only [execPortTrained, h, if_neg hn]

/-- A package without a number takes one with its first trained port. -/
theorem execPortTrained_numbers (h : (portOf s p).st = .training) (hn : s.node = 0xFFFF) :
    execPortTrained p s = .next (portTo (modPort { (freshFree s).2 with node := (freshFree s).1 % 0xFFFF } p (fun q =>
      { q with seq := 0, lastGood := 0xFFF, replay := [] })) p .active) := by
  simp only [execPortTrained, h, if_pos hn]

theorem execPortTrained_replays (h : (portOf s p).st = .retrain) :
    execPortTrained p s = .next (portTo (modPort s p (fun q => { q with
      sent := q.sent ++ q.replay.map (fun r => r.2)
      tx := q.tx + (q.replay.map (fun r => r.2)).length
      transient := q.transient + 1
      fails := [] })) p .active) := by
  simp only [execPortTrained, h, Port.put]

theorem execTrainingTimeout_down (h : (portOf s p).st = .training ∨ (portOf s p).st = .retrain) :
    execTrainingTimeout p s = .next (portDown s p .down) := by
  rcases h with h | h <;> simp only [execTrainingTimeout, h]

theorem execLossOfSignal_retrains (h : (portOf s p).st = .active) :
    execLossOfSignal p s = .next (portTo (modPort s p (fun q => { q with nak := none })) p .retrain) :=
  if_pos (by simp [h])
end training

section flits
variable {s : State} {p : Nat} {f : BitVec 1280} (ha : (portOf s p).st = .active)

/-- The types of flit that a SEQ counts for. -/
theorem mayBeSequenced_iff : mayBeSequenced f = true ↔ flitFld f 0 4 ≠ 0 ∧ flitFld f 0 4 ≠ 3 ∧ flitFld f 0 4 ≠ 4 := by
  simp [mayBeSequenced, and_assoc]

section bad
variable (hf : flitOk f = false)
include ha hf

theorem execFlitReceive_bad {again : Bool}
    (hg : (mayBeSequenced f && (portOf s p).fails.contains (flitFld f 23 12)) = again) :
    execFlitReceive p f s = .next (if again then
        portTo (sendControl (modPort s p (fun q => { q with
          fails := if mayBeSequenced f && !again then q.fails ++ [flitFld f 23 12] else q.fails })) p 3) p .retrain
      else sendControl (modPort s p (fun q => { q with
        fails := if mayBeSequenced f && !again then q.fails ++ [flitFld f 23 12] else q.fails })) p 3) := by
  subst hg
  exact (if_neg (by simp [ha])).trans ((if_pos (by simp [hf])).trans rfl)

/-- The first failure of a SEQ is noted. -/
theorem execFlitReceive_fails (hm : mayBeSequenced f = true) (hs : flitFld f 23 12 ∉ (portOf s p).fails) :
    execFlitReceive p f s = .next (sendControl (modPort s p (fun q =>
      { q with fails := q.fails ++ [flitFld f 23 12] })) p 3) := by
  rw [execFlitReceive_bad ha hf (again := false) (by simp [hm, hs])]
  simp only [hm, Bool.not_false, Bool.and_self, if_true, Bool.false_eq_true, if_false]

/-- The second brings RETRAIN. -/
theorem execFlitReceive_failsAgain (hm : mayBeSequenced f = true) (hs : flitFld f 23 12 ∈ (portOf s p).fails) :
    execFlitReceive p f s = .next (portTo (sendControl (modPort s p
      (fun q => { q with fails := q.fails })) p 3) p .retrain) := by
  rw [execFlitReceive_bad ha hf (again := true) (by simp [hm, hs])]
  simp only [Bool.not_true, Bool.and_false, if_true, Bool.false_eq_true, if_false]

/-- A flit that no SEQ counts for is only refused. -/
theorem execFlitReceive_refused (hm : mayBeSequenced f = false) :
    execFlitReceive p f s = .next (sendControl (modPort s p (fun q => { q with fails := q.fails })) p 3) := by
  rw [execFlitReceive_bad ha hf (again := false) (by simp [hm])]
  simp only [hm, Bool.false_and, Bool.false_eq_true, if_false]
end bad

/-- What a flit acknowledges has been acknowledged. -/
def acknowledged (s : State) (p : Nat) (f : BitVec 1280) : State :=
  if flitFld f 35 1 = 1 then ackFlits s p (flitFld f 36 12) else s

section good
variable (hf : flitOk f = true)
include ha hf

theorem execFlitReceive_nak (h3 : flitFld f 0 4 = 3) :
    execFlitReceive p f s = .next (modPort s p (fun q => { q with nak := some f })) :=
  (if_neg (by simp [ha])).trans ((if_neg (by simp [hf])).trans (if_pos h3))

theorem execFlitReceive_lands {u : State} (hd : flitFld f 0 4 = 1 ∨ flitFld f 0 4 = 2) {want : Nat}
    (hw : ((portOf s p).lastGood + 1) % 4096 = want) (hs : flitFld f 23 12 = want)
    (hl : landFlit (acknowledged s p f) p f = some u) :
    execFlitReceive p f s = .next (sendControl (modPort u p (fun q => { q with
      lastGood := want
      fails := q.fails.filter (fun n => n != want)
      transient := if q.fails.contains want then q.transient + 1 else q.transient })) p 0) := by
  subst hw
  have h3 : flitFld f 0 4 ≠ 3 := by omega
  have hseq : sequenced f = true := by
    rcases hd with hd | hd <;> simp [sequenced, hd]
  refine (if_neg (by simp [ha])).trans ((if_neg (by simp [hf])).trans ((if_neg h3).trans
    ((if_neg (by simp [hseq])).trans ((if_neg (by simp [hs])).trans ?_))))
  rw [acknowledged] at hl
  rw [hl, hs]
end good

/-- At the end of the cycle a NAK acknowledges and brings the replay. -/
theorem endNak_replays (hn : (portOf s p).nak = some f) :
    endNak s p = modPort (acknowledged (modPort s p (fun q => { q with nak := none })) p f) p (fun q =>
      if q.st = .active then { q with
        sent := q.sent ++ q.replay.map (fun r => r.2)
        tx := q.tx + (q.replay.map (fun r => r.2)).length }
      else q) := by
  simp only [endNak, hn, beq_iff_eq]
  rfl
end flits

/-- Settles O52, step by step. -/
theorem linkStepsComplete : Obligations.LinkStepsComplete := by
  unfold Obligations.LinkStepsComplete
  intro s p k f routes q want
  refine ⟨fun h hn => ?_, fun h hn => ?_, fun h => ?_, fun h => ?_, fun h => ?_, ?_, fun hm hd => ?_, fun h => ?_, ?_,
    fun ha hf => ?_, fun ha hf => ?_⟩
  · exact (exec_portTrained ..).trans (execPortTrained_numbered h hn)
  · exact (exec_portTrained ..).trans (execPortTrained_numbers h hn)
  · exact (exec_portTrained ..).trans (execPortTrained_replays h)
  · exact (exec_trainingTimeout ..).trans (execTrainingTimeout_down h)
  · exact (exec_lossOfSignal ..).trans (execLossOfSignal_retrains h)
  · exact exec_ucieModuleDown ..
  · exact (exec_ucieModuleActive ..).trans (congrArg Host.Outcome.next (if_neg (by simp [hm, hd])))
  · refine (exec_ucieModuleActive ..).trans (congrArg Host.Outcome.next (if_pos ?_))
    rcases h with h | h <;> simp [h]
  · exact exec_routeTableLoad ..
  · intro seq counts
    refine ⟨fun hc hs => ?_, fun hc hs => ?_, fun hc => ?_⟩
    · exact (exec_flitReceive ..).trans (execFlitReceive_fails ha hf (mayBeSequenced_iff.2 hc) hs)
    · exact (exec_flitReceive ..).trans (execFlitReceive_failsAgain ha hf (mayBeSequenced_iff.2 hc) hs)
    · exact (exec_flitReceive ..).trans
        (execFlitReceive_refused ha hf (Bool.eq_false_iff.2 (fun h => hc (mayBeSequenced_iff.1 h))))
  · exact ⟨fun h3 => (exec_flitReceive ..).trans (execFlitReceive_nak ha hf h3), endNak_replays,
      fun u hd hs hl => (exec_flitReceive ..).trans (execFlitReceive_lands ha hf hd rfl hs hl)⟩

end Sys2Proof.Proofs
end

