-- ==== Sys2Proof/Proofs/PlatformSteps.lean ====
section
/-!
The platform: power states, boot, the clock, the firmware's lease, detected errors (R197, R435, R460, R462, R463, R465).
-/
namespace Sys2Proof.Proofs
open Sys2Proof.Machine

/-! ### Power -/

section power
variable {s : State}

/-- Every resident context begins its save. -/
def savesBegun (s : State) : State :=
  s.ctxs.foldl (fun t e => if e.2.st == .resident then beginSave t e.1 else t) { s with pmPending := true }

/-- What the cores hold lazily is written out. -/
def lazyWritten (s : State) : State :=
  (s.cores.map (fun e => e.1)).foldl (fun t c => (t.ctxs.map (fun e => e.1)).foldl (fun t x => writeOut t c x) t) s

/-- Every port of the package is down. -/
def portsDown (s : State) : State :=
  (List.range 18).foldl (fun t p =>
    if (portOf t p).st = .disabled ∨ (portOf t p).st = .absent then t else portDown t p .disabled) s

theorem execPmD3hot_begins (hd : s.power = .d0 ∨ s.power = .dieRetain) :
    execPmD3hot s = if (savesBegun s).ctxs.any (fun e => e.2.st == .saving || e.2.st == .resuming || e.2.st == .resident)
      then .next (savesBegun s)
      else .next (setPwr { portsDown (lazyWritten (savesBegun s)) with power := .d3hot, pmPending := false } 3) := by
  refine (if_neg (by rcases hd with hd | hd <;> simp [hd])).trans ?_
  have hports : portsDown = (fun s => (List.range 18).foldl (fun s p =>
      if (portOf s p).st == .disabled || (portOf s p).st == .absent then s else portDown s p .disabled) s) := by
    funext s
    simp only [portsDown, Bool.or_eq_true, beq_iff_eq]
  rw [hports]
  rfl

theorem execPowerRemoved_resets (hd : s.power = .d3hot) : execPowerRemoved s = .next { State.reset with
    power := .d3cold
    mem := s.mem.filter (fun c => inHostMem c.1)
    schedule := s.schedule
    freeCtr := s.freeCtr } := if_neg (by simp [hd])
end power

/-! ### Boot -/

section boot
variable {s : State} {absent : BitVec 18} {openPart : Bool} {image : List Byte}

/-- The boot ROM's settings: limits, partitions, ports, and the firmware held where the image does not verify. -/
def bootSet (s : State) (absent : BitVec 18) (openPart : Bool) (image : List Byte) : State :=
  (List.range 4).foldl (fun t d => modDie t d (fun k => { k with fwHeld := !fwImageOk openPart image }))
    ((List.range 18).foldl (fun t p => modPort t p
      (fun q => { q with st := if absent.getLsbD p then .absent else .disabled }))
      ((List.range 16).foldl (fun t p => modPart t p (fun q => { q with sec := if openPart then 2 else 0 })) { s with
        power := .d0
        noModule := some Sys2Proof.Config.missingModules
        pwrLimit := some (if Sys2Proof.Config.formM then 3200 else Sys2Proof.Config.packageLimit image) }))

theorem execPowerOn_held (hd : s.power = .d3cold) (hf : fwImageOk openPart image = false) :
    execPowerOn absent openPart image s = .next (bootSet s absent openPart image) :=
  (if_neg (by simp [hd])).trans ((if_pos (by simp [hf])).trans rfl)

/-- The firmware of an image that verified is at work. -/
def bootedWith (s : State) (image : List Byte) : State := { s with fw := {
  version := bytesAt image 0 4
  svn := bytesAt image 4 4
  layouts := bytesAt image 8 8
  layout := 3
  staged := none
  pending := false } }

/-- The boot ROM and the image are measured, and each partition's fuses and security. -/
def bootMeasured (s : State) (image : List Byte) : State :=
  (List.range 16).foldl (fun t p => modPart t p (fun q =>
      { q with meas4 := extended 0 (Sys2Proof.Config.fuses ++ [BitVec.ofNat 8 q.sec]) }))
    (extendMeas (extendMeas (extendMeas s 0 Sys2Proof.Config.bootRom) 1 (image.take 20480)) 2
      ((image.drop 20480).take (bytesAt image 16 8)))

theorem execPowerOn_boots (hd : s.power = .d3cold) (hf : fwImageOk openPart image = true) {t : State}
    (ht : bootMeasured (bootedWith (bootSet s absent openPart image) image) image = t) :
    execPowerOn absent openPart image s = .next (extendMeas t 3 (Sys2Proof.Config.fuses ++ secBytes t)) := by
  subst ht
  exact (if_neg (by simp [hd])).trans ((if_neg (by simp [hf])).trans rfl)
end boot

/-! ### The lease -/

section lease
variable {s : State} {die : Nat}

theorem unitWrite_linkStream (s : State) (pa : Nat) (bs : List Byte) : (unitWrite s pa bs).linkStream = s.linkStream := by
  have hline : ∀ (t : State) a b, (lineWrite t a b).linkStream = t.linkStream := fun t a b => by
    unfold lineWrite
    split
    · rfl
    · split
      · rfl
      · split <;> rfl
  unfold unitWrite
  split
  · exact List.foldlRecOn (motive := fun t => t.linkStream = s.linkStream) _ _ rfl (fun t h l _ => (hline t _ _).trans h)
  · rfl

/-- The lease's word. -/
def leaseWord (s : State) : Nat := memNat s.mem leaseAddr 8

/-- A die has taken or renewed the lease. -/
def leaseTaken (s : State) (die v : Nat) : State := seeLease (unitWrite s leaseAddr (bytesLE 8 v)) die v true

theorem leaseTaken_linkStream (s : State) (die v : Nat) : (leaseTaken s die v).linkStream = s.linkStream := by
  simp only [leaseTaken, seeLease, modDie, unitWrite_linkStream]

variable (hp : s.power ≠ .d3cold) (hh : (dieOf s die).fwHeld = false)
include hp hh

section renews
variable (hl : (dieOf s die).leads = true) (hd : (dieOf s die).leaseSince + 2600000 ≤ (dieOf s die).cycle)
include hl hd

theorem execLeaseRenew_due : execLeaseRenew die s =
    if leaseWord s != (dieOf s die).leaseSeen then .next (seeLease s die (leaseWord s) false)
    else if !leaseTurn s die then .next s
    else .next (leaseTaken s die (leaseOf (bitsOf (leaseWord s) 32 32) (bitsOf (leaseWord s) 16 16 + 1) (bitsOf
      (leaseWord s) 0 2))) :=
  if_neg (by simp [hp, hh, hl, hd])

theorem execLeaseRenew_renews (hw : leaseWord s = (dieOf s die).leaseSeen) (ht : leaseTurn s die = true) :
    execLeaseRenew die s = .next (leaseTaken s die
      (leaseOf (bitsOf (leaseWord s) 32 32) (bitsOf (leaseWord s) 16 16 + 1) (bitsOf (leaseWord s) 0 2))) :=
  (execLeaseRenew_due hp hh hl hd).trans ((if_neg (by simp [hw])).trans (if_neg (by simp [ht])))

theorem execLeaseRenew_lost (hw : leaseWord s ≠ (dieOf s die).leaseSeen) :
    execLeaseRenew die s = .next (seeLease s die (leaseWord s) false) :=
  (execLeaseRenew_due hp hh hl hd).trans (if_pos (by simpa using hw))
end renews

variable (hl : (dieOf s die).leads = false)
include hl

theorem execLeaseLapse_sees (hw : leaseWord s ≠ (dieOf s die).leaseSeen) :
    execLeaseLapse die s = .next (seeLease s die (leaseWord s) false) :=
  (if_neg (by simp [hp, hh, hl])).trans (if_pos (by simpa [leaseWord] using hw))

theorem execLeaseLapse_waits (hw : leaseWord s = (dieOf s die).leaseSeen) (ht : leaseTurn s die = false) :
    execLeaseLapse die s = .next s :=
  (if_neg (by simp [hp, hh, hl])).trans ((if_neg (by simpa [leaseWord] using hw)).trans (if_pos (by simp [ht])))

/-- A lease that has lapsed is taken, and the management stream is told. -/
theorem execLeaseLapse_takes (hw : leaseWord s = (dieOf s die).leaseSeen)
    (hd : (dieOf s die).leaseSince + 13000000 ≤ (dieOf s die).cycle) (ht : leaseTurn s die = true) {v : Nat}
    (hv : leaseOf (bitsOf (leaseWord s) 32 32 + 1) 0 die = v) {o : Option Nat} (ho : s.linkStream = o)
    {t : State} (hs : leaseTaken s die v = t) :
    execLeaseLapse die s = .next (o.elim t
      (fun n => deviceEvent t die 3 100 n 0xEB die (bitsOf v 32 32) false)) := by
  subst hv hs
  refine (if_neg (by simp [hp, hh, hl])).trans ((if_neg (by simpa [leaseWord] using hw)).trans
    ((if_neg (by simpa [ht] using hd)).trans ?_))
  have hlink := (leaseTaken_linkStream s die (leaseOf (bitsOf (leaseWord s) 32 32 + 1) 0 die)).trans ho
  rw [leaseTaken, leaseWord] at hlink
  dsimp only
  rw [hlink]
  cases o <;> rfl
end lease

/-! ### Detected errors -/

section errors
variable {s : State} {kind core pa : Nat} (hp : s.power ≠ .d3cold)
include hp

theorem execDetectedError_counts : execDetectedError kind core pa false s = .next { s with
    errCount := mapSet s.errCount (kind * 1024 + core) (mapGet s.errCount (kind * 1024 + core) 0 + 1) } :=
  (if_neg (by simpa using hp)).trans ((if_pos (by simp)).trans rfl)

/-- A lasting error takes its core out of service, or poisons its line. -/
def errorTaken (s : State) (kind core pa : Nat) : State :=
  if kind < 4 then modCore (removeCore s core) core (poisonHeld kind pa)
  else if isPoisoned s (lineOf pa) then s else { s with poison := s.poison ++ [lineOf pa] }

theorem execDetectedError_lasts {o : Option Nat} (ho : (errorTaken s kind core pa).linkStream = o) :
    execDetectedError kind core pa true s = .next (o.elim (errorTaken s kind core pa) (fun n =>
      if kind ≤ 4 then deviceEvent (errorTaken s kind core pa) (core / 64) 3 srcFirmware n 0xE9 core kind false
      else errorTaken s kind core pa)) := by
  refine (if_neg (by simpa using hp)).trans ((if_neg (by simp)).trans ?_)
  rw [errorTaken] at ho
  dsimp only
  rw [ho]
  cases o <;> rfl
end errors

/-- Settles O53, step by step. -/
theorem platformStepsComplete : Obligations.PlatformStepsComplete := by
  unfold Obligations.PlatformStepsComplete
  intro s core pa die kind absent openPart image
  refine ⟨fun hd => ?_, fun hd => ⟨?_, ?_⟩, fun hd => ?_, fun hp => ?_, fun hp => ?_, fun hp => ⟨?_, ?_⟩⟩
  · intro t
    have key := (exec_pmD3hot s).trans (execPmD3hot_begins hd)
    refine ⟨fun ⟨e, hmem, he⟩ => key.trans (if_pos (List.any_eq_true.2 ⟨e, hmem, ?_⟩)),
      fun h => key.trans (if_neg (fun hany => ?_))⟩
    · simpa [or_assoc] using he
    · obtain ⟨e, hmem, he⟩ := List.any_eq_true.1 hany
      obtain ⟨h1, h2, h3⟩ := h e hmem
      simp [h1, h2, h3] at he
  · exact (exec_pmD0 s).trans (if_pos (by simp [hd]))
  · exact (exec_powerRemoved s).trans (execPowerRemoved_resets hd)
  · exact ⟨fun hf => (exec_powerOn ..).trans (execPowerOn_held hd hf),
      fun hf => (exec_powerOn ..).trans (execPowerOn_boots hd hf rfl)⟩
  · exact (exec_clockThrottle s).trans (congrArg Host.Outcome.next (if_neg (by simpa using hp)))
  · intro d w
    refine ⟨fun hl hh hd => ⟨fun hw ht => ?_, fun hw => ?_⟩, fun hl hh => ?_⟩
    · exact (exec_leaseRenew ..).trans (execLeaseRenew_renews hp hh hl hd hw ht)
    · exact (exec_leaseRenew ..).trans (execLeaseRenew_lost hp hh hl hd hw)
    · intro v t
      exact ⟨fun hw => (exec_leaseLapse ..).trans (execLeaseLapse_sees hp hh hl hw),
        fun hw hd ht => ⟨fun hn => (exec_leaseLapse ..).trans (execLeaseLapse_takes hp hh hl hw hd ht rfl hn rfl),
          fun n hn => (exec_leaseLapse ..).trans (execLeaseLapse_takes hp hh hl hw hd ht rfl hn rfl)⟩,
        fun hw ht => (exec_leaseLapse ..).trans (execLeaseLapse_waits hp hh hl hw ht)⟩
  · exact (exec_detectedError ..).trans (execDetectedError_counts hp)
  · exact ⟨fun hn => (exec_detectedError ..).trans (execDetectedError_lasts hp hn),
      fun n hn => (exec_detectedError ..).trans (execDetectedError_lasts hp hn)⟩

end Sys2Proof.Proofs
end

