-- ==== Sys2Proof/Proofs/TrapRecords.lean ====
section
/-!
A trap's record and RESOLVE (R426, R427, R429, R432): a statement that fails,
  since no store reaches a hole of the physical map and
a log's base may lie in one, and one that holds.
-/
namespace Sys2Proof.Proofs
open Sys2Proof.Machine

/-! ### A log in a hole of the map -/

/-- A log of one record, behind the last byte of HBM, where the physical map has a hole. -/
def holeLog : TrapLog where
  base := 0x12000000000
  size := 1
  head := 0
  tail := 0
  count := 0
  heldIdx := []

/-- The device on which one role issues, whose context has all its traps handled. -/
def holeState : State :=
  { loneState 0 with ctxs := [(0, { Context.reset with
      st := .resident
      tlog := some holeLog
      tmask := 2 ^ 21 - 1 })] }

/-- The 64 bytes at the log's base after an instruction. -/
def recordAfter (o : Out) : Option Nat :=
  match o with
  | .next s => some (memNat s.mem 0x12000000000 64)
  | _ => none

/-- TRAP under a guard that every lane passes. -/
def trapGuard : Guard := ⟨false, 7⟩

/-- A TRAP's fields. -/
def trapFields : FI := ⟨0, 0, false, .n32, 5⟩

theorem ready_holeState : Ready holeState (loneIss 0) .all true trapGuard 0 [] :=
  ⟨rfl, rfl, rfl, fun _ => rfl, by decide, by decide, rfl⟩

/-- Nothing is written at the log's base. -/
theorem recordAfter_trap : recordAfter (exec (.trap trapGuard trapFields) holeState) = some 0 := by decide

set_option exponentiation.threshold 512 in
/-- Refutes O59: the record of a log whose base lies in a hole of the physical map is written nowhere,
  since `unitWrite` writes no
line of a hole, and the bytes at its tail read 0. -/
theorem not_handledTrapIsRecorded : ¬ Obligations.HandledTrapIsRecorded := by
  intro h
  obtain ⟨t, -, hexec, -, -, -, -, -, -, -, hrecord, -⟩ := (h holeState (loneIss 0) trapGuard trapFields holeLog rfl
    ready_holeState rfl rfl (fun _ _ => rfl)).2 rfl
  have hzero := recordAfter_trap
  rw [hexec] at hzero
  have hmem : memNat t.mem 0x12000000000 64 = 0 := Option.some.inj hzero
  rw [show holeLog.base + 64 * holeLog.tail = 0x12000000000 from rfl, hmem] at hrecord
  exact absurd hrecord (by decide)

/-! ### RESOLVE -/

theorem split_setSplit_same {y : Warp} {i : Nat} {q : Split} (h : y.split i = some q) (r : Split) :
    (y.setSplit i (some r)).split i = some r := by
  have hi : i < y.splits.length := by
    by_contra hn
    rw [Warp.split, List.getElem?_eq_none (Nat.not_lt.1 hn)] at h
    cases h
  simp [Warp.split, Warp.setSplit, listSet_getElem?, hi]

theorem advanceHead_heldIdx (n : Nat) (l : TrapLog) : (advanceHead n l).heldIdx = l.heldIdx := by
  induction n generalizing l with
  | zero => rfl
  | succ n ih =>
    rw [advanceHead]
    split
    · rfl
    · exact ih _

/-- A freed record is held no more. -/
theorem freeRecord_notHeld {s : State} {x i : Nat} {l : TrapLog} (h : (ctxOf (freeRecord s x (some i)) x).tlog = some l) :
    i ∉ l.heldIdx := by
  rw [freeRecord, ctxOf_modCtx, if_pos rfl] at h
  cases hl : (ctxOf s x).tlog with
  | none =>
    rw [hl] at h
    cases hl.symm.trans h
  | some k =>
    rw [hl] at h
    obtain rfl := Option.some.inj h
    rw [advanceHead_heldIdx]
    simp

/-- What a RESOLVE that lets a role go on leaves of it. -/
structure GoesOn (s t : State) (c g w x idx : Nat) (y : Warp) (slot : Nat) (q : Split) (pc : W64) : Prop where
  role : ∃ z, warpAt t c g w = some z ∧ z.run = .run ∧
    z.split slot = some { q with pc := pc, hold := .none, wait := none, blk := .none } ∧
    z.vregs = y.vregs ∧ z.preds = y.preds ∧ z.conds = y.conds
  memory : t.mem = s.mem
  record : ∀ l, (ctxOf t x).tlog = some l → idx ∉ l.heldIdx

section resumes
variable {s : State} {c g w : Nat} {k : Group} {y : Warp} {r : TrapRec} {n idx : Nat} {q : Split}
  (hk : groupAt s c g = some k) (hy : warpAt s c g w = some y) (hr : y.run = .trapped r n (some idx))
  (hq : y.split r.split = some q)
include hk hy hr hq

theorem resumeTrapped_goesOn (pc : TrapRec → Nat → W64) :
    GoesOn s (resumeTrapped s c g w pc) c g w k.ctx idx y r.split q (pc r n) := by
  simp only [resumeTrapped, hk, hy, hr]
  refine ⟨?role, ?memory, fun l hl => ?record⟩
  case role =>
    refine ⟨_, warpAt_modWarp_same (y := y) hy, ?_⟩
    have hsplit := split_setSplit_same (y := { y with run := .run, pend := none }) (i := r.split) (q := q) hq
      { q with pc := pc r n, hold := .none, wait := none, blk := .none }
    rw [show ({ y with run := .run, pend := none } : Warp).split r.split = some q from hq]
    split
    · exact ⟨rfl, hsplit, rfl, rfl, rfl⟩
    · exact ⟨rfl, hsplit, rfl, rfl, rfl⟩
  case memory => rw [modWarp_mem]; rfl
  case record =>
    rw [ctxOf, modWarp_ctxs] at hl
    exact freeRecord_notHeld hl

variable (ha : y.aside = none)
include ha

/-- The program counter at which a RESOLVE of the `act`-th kind lets a role go on,
  `target` being an aligned address of the user
half. -/
def resolvePc (act : Nat) (target : W64) (r : TrapRec) (n : Nat) : W64 :=
  match act with
  | 0 => r.pc
  | 1 => r.pc + BitVec.ofNat 64 (8 * n)
  | 2 => target
  | _ => r.entry

theorem resolveRole_goesOn {act : Nat} (h3 : act ≤ 3) {target : W64}
    (ht : act = 2 → target.toNat % 8 = 0 ∧ userVa target.toNat = true) :
    GoesOn s (resolveRole s c g w act target) c g w k.ctx idx y r.split q (resolvePc act target r n) := by
  have hgo := resumeTrapped_goesOn hk hy hr hq (fun r n => resolvePc act target r n)
  have hrole : resolveRole s c g w act target = resumeTrapped s c g w (fun r n => resolvePc act target r n) := by
    rw [resolveRole, hy]
    simp only [ha]
    obtain rfl | rfl | rfl | rfl : act = 0 ∨ act = 1 ∨ act = 2 ∨ act = 3 := by omega
    · simp only [resolveWarp, hk, hy, hr, resolvePc]
    · simp only [resolveWarp, hk, hy, hr, resolvePc]
    · obtain ⟨halign, huser⟩ := ht rfl
      simp only [resolveWarp, hk, hy, hr, resolvePc, halign, huser, bne_self_eq_false, Bool.not_true, Bool.false_eq_true,
        if_false]
    · simp only [resolveWarp, hk, hy, hr, resolvePc]
  rwa [hrole]
end resumes

theorem dbgWarp_some {s : State} {d : DbgCmd} {g : Group} {y : Warp} (h : dbgWarp s d = some (g, y)) :
    groupAt s d.core d.gslot = some g ∧ warpAt s d.core d.gslot d.warp = some y ∧ g.ctx = d.ctx := by
  rw [dbgWarp] at h
  split at h
  · cases h
  · split at h
    · rename_i k z hk hz
      split at h
      · rename_i hctx
        cases h
        simp only [Bool.and_eq_true, beq_iff_eq] at hctx
        exact ⟨hk, hz, hctx.1⟩
      · cases h
    · cases h

section commands
variable {s : State} {m : Mb} {cmd : BitVec 256} {g : Group} {y : Warp} {r : TrapRec} {words idx : Nat} {q : Split}

/-- A RESOLVE of a resident TRAPPED role is answered, and the role goes on. -/
theorem resolveCmd_goesOn (h : DebugReady s m cmd 0x32 0) (hs : (ctxOf s (dbgCmdOf cmd.toNat).ctx).saved = [])
    (hw : dbgWarp s (dbgCmdOf cmd.toNat) = some (g, y)) (hr : y.run = .trapped r words (some idx)) (ha : y.aside = none)
    (hq : y.split r.split = some q) {act : Nat} (h3 : act ≤ 3)
    (ht : act = 2 → (dbgCmdOf cmd.toNat).arg1 % 8 = 0 ∧ (dbgCmdOf cmd.toNat).arg1 < 2 ^ 56)
    (hact : bitsOf (dbgCmdOf cmd.toNat).arg0 0 3 = act) :
    ∃ t, resolveCmd m cmd act s = .next t ∧ GoesOn s t (dbgCmdOf cmd.toNat).core (dbgCmdOf cmd.toNat).gslot
      (dbgCmdOf cmd.toNat).warp (dbgCmdOf cmd.toNat).ctx idx y r.split q
      (resolvePc act (BitVec.ofNat 64 (dbgCmdOf cmd.toNat).arg1) r words) := by
  obtain ⟨hk, hy, hctx⟩ := dbgWarp_some hw
  have htrapped : isTrapped y = true := by simp [isTrapped, hr]
  have hsaid := (resolveCmd_said h hact rfl).1 g y (by simp [hs]) hw htrapped
  refine ⟨_, hsaid, ?_⟩
  have htarget : act = 2 → (BitVec.ofNat 64 (dbgCmdOf cmd.toNat).arg1).toNat % 8 = 0 ∧
      userVa (BitVec.ofNat 64 (dbgCmdOf cmd.toNat).arg1).toNat = true := fun h2 => by
    obtain ⟨halign, huser⟩ := ht h2
    have hval : (BitVec.ofNat 64 (dbgCmdOf cmd.toNat).arg1).toNat = (dbgCmdOf cmd.toNat).arg1 := by
      rw [BitVec.toNat_ofNat]
      omega
    rw [hval]
    exact ⟨halign, decide_eq_true huser⟩
  have hgo := resolveRole_goesOn hk hy hr hq ha h3 htarget
  rw [hctx] at hgo
  exact ⟨hgo.role, hgo.memory, hgo.record⟩
end commands

/-- Settles O60: a RESOLVE resumes the trapped role. -/
theorem resolveResumes : Obligations.ResolveResumes := by
  unfold Obligations.ResolveResumes
  intro s m cmd g y r words idx q d target h hs hw hr ha hq goesOn
  have key : ∀ (act : Nat) (i : Instr), act ≤ 3 → (act = 2 → d.arg1 % 8 = 0 ∧ d.arg1 < 2 ^ 56) →
      exec i s = resolveCmd m cmd act s → goesOn act i (resolvePc act target r words) := fun act i h3 ht hi hact => by
    obtain ⟨t, hexec, ⟨z, hz, hrest⟩, hmem, hrec⟩ := resolveCmd_goesOn h hs hw hr ha hq h3 ht hact
    obtain ⟨hrun, hsplit, hv, hp, hc⟩ := hrest
    exact ⟨t, z, hi.trans hexec, hz, hrun, hsplit, hv, hp, hc, hmem, hrec⟩
  exact ⟨key 0 _ (by omega) (by omega) (exec_resolveRetry ..), key 1 _ (by omega) (by omega) (exec_resolveSkip ..),
    fun h8 h56 => key 2 _ (by omega) (fun _ => ⟨h8, h56⟩) (exec_resolveGoto ..),
    key 3 _ (by omega) (by omega) (exec_resolveRestart ..)⟩

end Sys2Proof.Proofs
end

