-- ==== Sys2Proof/Proofs/Steps.lean ====
section
/-!
What the step of the machine is: a decoded instruction or a scheduled unit, and the state after reset.
-/
namespace Sys2Proof.Proofs
open Sys2Proof.Machine

/-- Settles O2: each word is decoded. -/
theorem writtenWordsDecode : Obligations.WrittenWordsDecode := by
  unfold Obligations.WrittenWordsDecode
  exact ⟨rfl, rfl, rfl, rfl, rfl, rfl⟩

/-- Settles O6: at reset every table is empty, and reads its reset value. -/
theorem resetLeavesNothingInUse : Obligations.ResetLeavesNothingInUse :=
  ⟨rfl, rfl, fun _ => rfl, fun _ => rfl, fun _ => ⟨rfl, rfl⟩, fun _ _ => rfl, fun _ _ => rfl, fun _ _ => rfl, fun _ => rfl,
    fun _ => rfl, fun _ => rfl⟩

/-- Where no STEP command has its issue to come, none is made now. -/
theorem steppingNow_none {s : State} (h : s.stepping = none) : steppingNow s = none := by
  rw [steppingNow, h]
  rfl

/-- The first entry of the schedule is the next step. -/
theorem step_entry {s : State} {e : Sched} {r : List Sched} (hf : hostFinishes s = none) (hs : s.stepping = none)
    (he : s.schedule = e :: r) : step s = runEntry e { s with schedule := r } := by
  simp only [step, hf, steppingNow_none hs, he]

/-- Settles O4: a host atomic half done is finished, else the schedule's entry runs. -/
theorem stepRunsScheduledUnit : Obligations.StepRunsScheduledUnit := by
  unfold Obligations.StepRunsScheduledUnit
  refine ⟨fun s r h => ?_, fun s i r hf hs he => ⟨fun hi => ?_, fun ws hi => ?_⟩⟩
  · rw [step, h]
  · rw [step_entry hf hs he, runEntry, hi]
    rfl
  · rw [step_entry hf hs he, runEntry, hi]
    rfl

/-! ### Fetch -/

section fetch
variable {s : State} {x : Iss} {rd : Nat → W64}

/-- A word that may be fetched: on a page that the TLB holds and a line that is not poisoned. -/
def Fetchable (s : State) (x : Iss) (rd : Nat → W64) (a : Nat) : Prop :=
  userVa a = true ∧ ∃ e, laneLookup s x (ctxOf s x.grp.ctx).pasid 3 a = .hit e ∧
    isPoisoned s (lineOf (e.phys a)) = false ∧ rd a = BitVec.ofNat 64 (memNat s.mem (e.phys a) 8)

theorem fetchWord_word {a : Nat} (h : Fetchable s x rd a) : fetchWord s x a = .word (rd a) := by
  obtain ⟨hu, e, hl, hp, hw⟩ := h
  simp only [fetchWord, hu, hl, hp, hw, if_true, Bool.false_eq_true, if_false]

theorem fetchWords_words {l : List Nat} (h : ∀ a ∈ l, Fetchable s x rd a) : fetchWords s x l = .ok (l.map rd) := by
  induction l with
  | nil => rfl
  | cons a r ih =>
    simp only [fetchWords, fetchWord_word (h a (by simp)), ih (fun b hb => h b (by simp [hb])), List.map_cons]

theorem fetchInstr_words {pc : Nat} {more : List Nat} (hpc : x.sp.pc.toNat = pc) (hm : shapeAddrs pc (rd pc) = more)
    (h : ∀ a ∈ pc :: more, Fetchable s x rd a) :
    (∀ i, decodeWords (rd pc) (more.map rd) = .ok i → fetchInstr s x = .instr i) ∧
    (∀ e, decodeWords (rd pc) (more.map rd) = .error e →
      fetchInstr s x = .stop (more.length + 1) (.trap .illegal x.sp.mask 0 0 s)) := by
  have hmore := fetchWords_words (l := more) (fun a ha => h a (by simp [ha]))
  refine ⟨fun i hd => ?_, fun e hd => ?_⟩ <;>
    simp only [fetchInstr, hpc, fetchWord_word (h pc (by simp)), hm, hmore, hd, List.length_map]

theorem issueWord_turn {w : Who} (ht : isTurn s w = true) (hx : issuer { s with cur := w } = some x) :
    issueWord w s = issueCur x { s with cur := w } := by
  rw [issueWord, if_pos ht]
  dsimp only
  rw [hx]
end fetch

/-- Settles O3: the entry is an issue, and the words are fetched and decoded. -/
theorem stepRunsDecodedInstruction : Obligations.StepRunsDecodedInstruction := by
  unfold Obligations.StepRunsDecodedInstruction
  intro s w r x rd hf hs he t pc more ht hx hwords
  have hstep : step s = issueCur x t := (step_entry hf hs he).trans (issueWord_turn ht hx)
  have hmore : shapeAddrs pc (rd pc) = more := by simp only [shapeAddrs, beq_iff_eq, more]
  obtain ⟨hinstr, hbad⟩ := fetchInstr_words (s := t) (x := x) (rd := rd) rfl hmore hwords
  refine ⟨fun i hd => ?_, fun e hd hspec => ?_⟩
  · rw [hstep, issueCur, hinstr i hd]
  · have hw : x.w = w := issuer_w hx
    rw [hstep, issueCur, hbad e hd, ← hw]
    exact if_neg (by simp [hspec])

end Sys2Proof.Proofs
end

