-- ==== Sys2Proof/Proofs/MemoryFrames.lean ====
section
/-!
A second fault in a fault domain (R74,
  R427): memory changes at the issue of an instruction word that no trap ends and that stops no
region. A DATOM beyond its lane's 2^26 entries faults its launch; where the domain stopped in this cycle for a later launch, the
record of the domain is written again for the earlier one.
-/
namespace Sys2Proof.Proofs
open Sys2Proof.Machine

/-- The role of the counterexample: one lane, whose next DATOM entry is one too many. -/
def fullRole : Warp :=
  { loneRole with
    splits := [some { pc := 0, mask := 1, fmt := 0, ctr := 0, entry := 0 }]
    dcount := [2 ^ 26 - 1] }

/-- A fault domain that stopped in cycle 0 for launch 5. -/
def stoppedDomain : Rcb :=
  { rcbOf 0 with
    stopped := true
    flaunch := 5 }

/-- The page that holds virtual and physical address 0. -/
def zeroPage : TlbEntry where
  pasid := 0
  va := 0
  size := 4096
  pa := 0
  w := true
  x := true
  nc := false
  noatom := false
  sysat := false

/-- The device on which that role of launch 0 issues, in the stopped domain, with its page in the TLB. -/
def stoppedState : State :=
  { modCore State.reset 0 (fun k => { k with
      groups := [(0, { loneGroup 0 with warps := [(0, fullRole)] })]
      tlb := [zeroPage] }) with
    cur := ⟨0, 0, 0, 0⟩
    ctxs := [(0, { Context.reset with
      st := .resident
      regions := [stoppedDomain] })] }

/-- That role's split, as it issues. -/
def fullIss : Iss where
  w := ⟨0, 0, 0, 0⟩
  grp := { loneGroup 0 with warps := [(0, fullRole)] }
  wp := fullRole
  sp := { pc := 0, mask := 1, fmt := 0, ctr := 0, entry := 0 }

/-- DATOM of the word at address 0. -/
def fullDatom : Instr := .datom ⟨false, 7⟩ ⟨0, 0, true, 0, 2, false, 0, 0, false, 0, 0⟩

/-- The state after an instruction. -/
def stateAfter (o : Out) : State :=
  match o with
  | .next s => s
  | _ => State.reset

/-- Whether an instruction has a next state. -/
def isNext (o : Out) : Bool :=
  match o with
  | .next _ => true
  | _ => false

theorem eq_stateAfter {o : Out} (h : isNext o = true) : o = .next (stateAfter o) := by
  cases o with
  | next s => rfl
  | fault f => cases h
  | refused r => cases h

/-- The state after that DATOM. -/
def refaulted : State := stateAfter (exec fullDatom stoppedState)

theorem exec_fullDatom : exec fullDatom stoppedState = .next refaulted := eq_stateAfter (by decide)

/-- The role goes on. -/
theorem refaulted_run : (warpAt refaulted 0 0 0).map (·.run) = some .run := by decide

/-- No region is stopped that was not. -/
theorem refaulted_stopped :
    (ctxOf refaulted 0).regions.map (·.stopped) = (ctxOf stoppedState 0).regions.map (·.stopped) := by decide

/-- The domain's record is written again. -/
theorem refaulted_mem : refaulted.mem ≠ stoppedState.mem := by decide

/-- Refutes O58: that DATOM changes memory. -/
theorem not_memoryFrame : ¬ Obligations.MemoryFrame := by
  intro h
  obtain ⟨y, hy, hrun⟩ := Option.map_eq_some_iff.1 refaulted_run
  refine refaulted_mem (h.1 fullDatom ⟨.vector, true, 1, ⟨false, 7⟩, 0⟩ stoppedState refaulted fullIss y rfl rfl rfl rfl
    exec_fullDatom hy hrun (fun n p q hp hq => ?_))
  have hstop := congrArg (fun l => l[n]?) refaulted_stopped
  simp only [List.getElem?_map] at hstop
  rw [show (ctxOf refaulted 0).regions[n]? = some q from hq,
    show (ctxOf stoppedState 0).regions[n]? = some p from hp] at hstop
  exact Option.some.inj hstop

end Sys2Proof.Proofs
end

