-- ==== Sys2Proof/Proofs/StoppedRoles.lean ====
section
/-!
A role that has taken a trap is no longer at work (R426): it is TRAPPED, or waits for what it issued before,
  or its group has left
the core; the stop of a fault domain that may follow lets no role run again (`RunsKept`).
-/
namespace Sys2Proof.Proofs
open Sys2Proof.Machine

/-- Every role of `t` is a role of `s`, and runs or stands as it did there. -/
def RunsKept (s t : State) : Prop :=
  ∀ c g w y, warpAt t c g w = some y → ∃ z, warpAt s c g w = some z ∧ y.run = z.run

theorem RunsKept.refl (s : State) : RunsKept s s := fun _ _ _ y h => ⟨y, h, rfl⟩

theorem RunsKept.trans {s t u : State} (h : RunsKept s t) (h' : RunsKept t u) : RunsKept s u := fun c g w y hy => by
  obtain ⟨z, hz, hyz⟩ := h' c g w y hy
  obtain ⟨a, ha, hza⟩ := h c g w z hz
  exact ⟨a, ha, hyz.trans hza⟩

theorem runsKept_foldl {α : Type} {f : State → α → State} (hf : ∀ s a, RunsKept s (f s a)) (l : List α) (s : State) :
    RunsKept s (l.foldl f s) :=
  List.foldlRecOn (motive := RunsKept s) l f (RunsKept.refl s) (fun _ h a _ => h.trans (hf _ a))

theorem runsKept_of_groupAt {s t : State} (h : ∀ c g k, groupAt t c g = some k → groupAt s c g = some k) : RunsKept s t :=
  fun c g w y hy => by
    unfold warpAt at hy ⊢
    split at hy
    · rename_i k hk
      rw [h c g k hk]
      exact ⟨y, hy, rfl⟩
    · cases hy

theorem runsKept_of_cores {s t : State} (h : t.cores = s.cores) : RunsKept s t :=
  runsKept_of_groupAt (fun c g k hk => by rwa [groupAt, coreOf, h] at hk)

theorem mapFind_map {α β : Type} (f : Nat → α → β) (m : SMap α) (k : Nat) :
    mapFind (m.map (fun e => (e.1, f e.1 e.2))) k = (mapFind m k).map (f k) := by
  induction m with
  | nil => rfl
  | cons e m ih =>
    simp only [List.map_cons, mapFind]
    split
    · rename_i h
      rw [h]
      rfl
    · exact ih

theorem mapFind_mapDel {α : Type} (m : SMap α) (k q : Nat) :
    mapFind (mapDel m k) q = if q = k then none else mapFind m q := by
  induction m with
  | nil => exact (ite_self _).symm
  | cons e m ih =>
    unfold mapDel at ih ⊢
    by_cases he : e.1 = k
    · rw [List.filter_cons_of_neg (by simp [he]), ih]
      by_cases hq : q = k
      · simp [hq]
      · simp [hq, mapFind, he, Ne.symm hq]
    · rw [List.filter_cons_of_pos (by simp [he])]
      simp only [mapFind, ih]
      by_cases hq : q = k
      · simp [hq, he]
      · simp [hq]

/-- A core is the entry of its number, or the one that reset leaves. -/
theorem coreOf_eq (s : State) (c : Nat) : coreOf s c = (mapFind s.cores c).getD (Core.reset c) := by
  unfold coreOf
  generalize s.cores = m
  induction m with
  | nil => rfl
  | cons e m ih =>
    simp only [mapGet, mapFind]
    split
    · rfl
    · exact ih

theorem coreOf_mapCores (s : State) (f : Nat → Core → Core) (c : Nat) :
    coreOf { s with cores := s.cores.map (fun e => (e.1, f e.1 e.2)) } c =
      ((mapFind s.cores c).map (f c)).getD (Core.reset c) := by
  rw [coreOf_eq, mapFind_map]

/-- A change of each core that leaves its groups. -/
theorem runsKept_mapCores {s t : State} {f : Nat × Core → Nat × Core} (h : t.cores = s.cores.map f)
    (hf : ∀ e, (f e).1 = e.1 ∧ (f e).2.groups = e.2.groups) : RunsKept s t := by
  have hgroups : ∀ (m : SMap Core) (c : Nat),
    (mapGet (m.map f) c (Core.reset c)).groups = (mapGet m c (Core.reset c)).groups := by
    intro m c
    induction m with
    | nil => rfl
    | cons e m ih =>
      simp only [List.map_cons, mapGet, (hf e).1]
      split
      · exact (hf e).2
      · exact ih
  refine runsKept_of_groupAt (fun c g k hk => ?_)
  rwa [groupAt, coreOf, h, hgroups] at hk

/-- A group each of whose roles is mapped by `f`. -/
def rolesMapped (f : Nat → Warp → Warp) (x : Machine.Group) : Machine.Group :=
  { x with warps := x.warps.map (fun e => (e.1, f e.1 e.2)) }

/-- A core each of whose groups' roles is mapped by `f`. -/
def groupsMapped (f : Nat → Machine.Group → Nat → Warp → Warp) (k : Core) : Core :=
  { k with groups := k.groups.map (fun e => (e.1, rolesMapped (f e.1 e.2) e.2)) }

theorem mapWarps_eq (s : State) (f : Nat → Nat → Machine.Group → Nat → Warp → Warp) :
    mapWarps s f = { s with cores := s.cores.map (fun e => (e.1, groupsMapped (f e.1) e.2)) } := rfl

theorem mapFind_groupsMapped (f : Nat → Machine.Group → Nat → Warp → Warp) (k : Core) (g : Nat) :
    mapFind (groupsMapped f k).groups g = (mapFind k.groups g).map (fun x => rolesMapped (f g x) x) :=
  mapFind_map (fun g x => rolesMapped (f g x) x) k.groups g

theorem runsKept_mapWarps (s : State) (f : Nat → Nat → Machine.Group → Nat → Warp → Warp)
    (hf : ∀ c g x w y, (f c g x w y).run = y.run) : RunsKept s (mapWarps s f) := by
  intro c g w y hy
  rw [warpAt, groupAt, mapWarps_eq, coreOf_mapCores s (fun c => groupsMapped (f c))] at hy
  rw [warpAt, groupAt, coreOf_eq]
  cases hc : mapFind s.cores c with
  | none =>
    rw [hc] at hy
    exact ⟨y, hy, rfl⟩
  | some q =>
    rw [hc, Option.map_some, Option.getD_some, mapFind_groupsMapped] at hy
    rw [Option.getD_some]
    cases hg : mapFind q.groups g with
    | none =>
      rw [hg] at hy
      cases hy
    | some x =>
      rw [hg] at hy
      obtain ⟨z, hz, rfl⟩ := Option.map_eq_some_iff.1 ((mapFind_map (f c g x) x.warps w).symm.trans hy)
      exact ⟨z, hz, hf c g x w z⟩

theorem runsKept_modCore {s : State} {c : Nat} {f : Core → Core}
    (hf : ∀ k g y, mapFind (f k).groups g = some y → mapFind k.groups g = some y) : RunsKept s (modCore s c f) := by
  refine runsKept_of_groupAt (fun d g k hk => ?_)
  rw [groupAt, coreOf_modCore] at hk
  split at hk
  · rename_i h
    rw [groupAt, h]
    exact hf _ _ _ hk
  · exact hk

theorem rollback_run (now : Nat) (y : Warp) : (rollback now y).run = y.run := by
  unfold rollback
  split
  · rename_i p _
    exact List.foldlRecOn (motive := fun z : Warp => z.run = y.run) _ _ rfl (fun _ h _ _ => h)
  · rfl

theorem runsKept_squashReaders (s : State) (ls : List Nat) : RunsKept s (squashReaders s ls) :=
  runsKept_mapWarps s _ (fun c g x w y => by
    split
    · exact (apply_ite Warp.run _ _ _).trans ((congrArg (ite _ · _) (rollback_run _ y)).trans (ite_self _))
    · rfl)

theorem runsKept_homeWrite (s : State) (pa : Nat) (bs : List Byte) (chain : Bool) (promo : Option (Nat × Nat)) :
    RunsKept s (homeWrite s pa bs chain promo) :=
  (runsKept_of_cores rfl).trans (runsKept_squashReaders _ _)

theorem runsKept_lineWrite (s : State) (pa : Nat) (bs : List Byte) : RunsKept s (lineWrite s pa bs) := by
  unfold lineWrite
  split
  · exact RunsKept.refl s
  · split
    · exact (runsKept_of_cores rfl).trans (runsKept_homeWrite _ _ _ _ _)
    · split
      · exact RunsKept.refl s
      · exact runsKept_homeWrite _ _ _ _ _

theorem runsKept_unitWrite (s : State) (pa : Nat) (bs : List Byte) : RunsKept s (unitWrite s pa bs) := by
  unfold unitWrite
  split
  · exact runsKept_foldl (fun t _ => runsKept_lineWrite t _ _) _ _
  · exact runsKept_homeWrite _ _ _ _ _

theorem runsKept_writeBackRcb (s : State) (x r : Nat) : RunsKept s (writeBackRcb s x r) := by
  unfold writeBackRcb
  dsimp only
  split
  · exact runsKept_unitWrite _ _ _
  · exact RunsKept.refl s

theorem runsKept_freeRecord (s : State) (x : Nat) (i : Option Nat) : RunsKept s (freeRecord s x i) := by
  cases i with
  | none => exact RunsKept.refl s
  | some i => exact runsKept_of_cores rfl

theorem runsKept_freeRecords (s : State) (g : Machine.Group) : RunsKept s (freeRecords s g) :=
  runsKept_foldl (fun t (e : Nat × Warp) => runsKept_freeRecord t g.ctx (recordOf e.2)) _ _

theorem runsKept_dropGroup (s : State) (c g : Nat) : RunsKept s (dropGroup s c g) := by
  have hfree : RunsKept s ((groupAt s c g).elim s (freeRecords s)) := by
    cases groupAt s c g with
    | none => exact RunsKept.refl s
    | some k => exact runsKept_freeRecords s k
  have hdel : RunsKept (dropWalksOf ((groupAt s c g).elim s (freeRecords s)) c g)
      (modCore (dropWalksOf ((groupAt s c g).elim s (freeRecords s)) c g) c
        (fun k => releaseCore { k with groups := mapDel k.groups g } g)) :=
    runsKept_modCore (fun k q y hy => by
      have hfind := (mapFind_mapDel k.groups g q).symm.trans hy
      split at hfind
      · cases hfind
      · exact hfind)
  exact hfree.trans ((runsKept_of_cores rfl).trans (hdel.trans (runsKept_of_cores rfl)))

theorem runsKept_dropGroups (s : State) (x : Nat) (bad : Machine.Group → Bool) : RunsKept s (dropGroups s x bad) :=
  runsKept_foldl (fun t e => by
    obtain ⟨c, g, k⟩ := e
    dsimp only
    split
    · exact runsKept_dropGroup t c g
    · exact RunsKept.refl t) _ _

theorem runsKept_dropSaved (s : State) (x : Nat) (bad : Machine.Group → Bool) : RunsKept s (dropSaved s x bad) :=
  (runsKept_foldl (fun t g => runsKept_freeRecords t (SavedGroup.grp g)) _ s).trans
    (runsKept_mapCores rfl (fun _ => ⟨rfl, rfl⟩))

theorem runsKept_settleLazy (s : State) (x : Nat) : RunsKept s (settleLazy s x) := by
  unfold settleLazy
  split
  · exact (runsKept_of_cores (t := (freshFree (modCtx s x _)).2) rfl).trans (runsKept_unitWrite _ _ _)
  · exact RunsKept.refl s

theorem runsKept_returnReserves (s : State) (x : Nat) (bad : Launch → Bool) (below : Nat → Bool) :
    RunsKept s (returnReserves s x bad below) :=
  runsKept_foldl (fun t l => by
    split
    · split
      · exact RunsKept.refl t
      · exact runsKept_of_cores rfl
    · exact RunsKept.refl t) _ _

theorem runsKept_dropLaunches (s : State) (x : Nat) (bad : Launch → Bool) : RunsKept s (dropLaunches s x bad) :=
  runsKept_mapCores rfl (fun _ => ⟨rfl, rfl⟩)

theorem RunsKept.of_cores {s t u : State} (h : RunsKept s t) (hc : u.cores = t.cores) : RunsKept s u :=
  h.trans (runsKept_of_cores hc)

theorem cores_deviceEvent (s : State) (d cls key stream kind p0 p1 : Nat) (rel : Bool) :
    (deviceEvent s d cls key stream kind p0 p1 rel).cores = s.cores := rfl

theorem cores_modRegion (s : State) (x r : Nat) (f : Rcb → Rcb) : (modRegion s x r f).cores = s.cores := rfl

theorem cores_faultAutomata (s : State) (x : Nat) (bad : Nat → Bool) : (faultAutomata s x bad).cores = s.cores := rfl

theorem cores_uncharge (s : State) (x r : Nat) (u : Machine.Use) : (uncharge s x r u).cores = s.cores := rfl

theorem runsKept_stopRegion (s : State) (x dom cause launch die : Nat) :
    RunsKept s (stopRegion s x dom cause launch die) := by
  have hend : ∀ t : State, RunsKept s t →
      RunsKept s (if dom = 0 then modCtx t x (fun c => { c with
        st := .stopped
        lazy := false
        stopHeld := false }) else t) :=
    fun t h => by
      split
      · exact h.of_cores rfl
      · exact h
  have hback : ∀ (t : State) (p : Nat) (u : Machine.Use),
    RunsKept s t → RunsKept s (if dom = 0 then t else uncharge t x p u) :=
    fun t p u h => by
      split
      · exact h
      · exact h.of_cores rfl
  unfold stopRegion
  dsimp only
  split
  · exact RunsKept.refl s
  · refine hend _ ((RunsKept.trans ?_ (runsKept_writeBackRcb _ _ _)).of_cores (cores_deviceEvent _ _ _ _ _ _ _ _ _))
    refine ((hback _ _ _ ?_).of_cores (modCtx_cores _ _ _)).of_cores (cores_modRegion _ _ _ _)
    refine RunsKept.of_cores ?_ (cores_faultAutomata _ _ _)
    exact (runsKept_dropGroups s x _).trans ((runsKept_dropSaved _ x _).trans ((runsKept_settleLazy _ x).trans
      ((runsKept_returnReserves _ x _ _).trans (runsKept_dropLaunches _ x _))))

theorem runsKept_secondFault (s : State) (x dom cause launch : Nat) (k : Rcb) :
    RunsKept s (secondFault s x dom cause launch k) := by
  unfold secondFault
  split
  · dsimp only
    split
    · exact ((runsKept_of_cores (cores_modRegion _ _ _ _)).trans (runsKept_writeBackRcb _ x dom)).trans
        (runsKept_of_groupAt (fun _ _ _ h => h))
    · exact runsKept_of_cores rfl
  · exact RunsKept.refl s

theorem runsKept_regionFault (s : State) (x r cause launch die : Nat) : RunsKept s
  (regionFault s x r cause launch die) := by
  unfold regionFault
  dsimp only
  split
  · exact RunsKept.refl s
  · split
    · split
      · exact runsKept_secondFault s x _ cause launch _
      · exact RunsKept.refl s
    · split
      · exact runsKept_of_cores rfl
      · split
        · exact runsKept_of_cores rfl
        · exact (runsKept_of_cores rfl).trans (runsKept_stopRegion _ x _ cause launch die)

theorem warpAt_of_modWarp {s : State} {c g w : Nat} {f : Warp → Warp} {y : Warp}
    (h : warpAt (modWarp s c g w f) c g w = some y) : ∃ z, warpAt s c g w = some z ∧ y = f z := by
  cases hz : warpAt s c g w with
  | some z =>
    rw [warpAt_modWarp_same hz] at h
    exact ⟨z, rfl, (Option.some.inj h).symm⟩
  | none =>
    unfold modWarp at h
    cases hk : groupAt s c g with
    | none =>
      rw [modGroup, hk] at h
      rw [h] at hz
      cases hz
    | some k =>
      rw [warpAt_eq hk] at hz
      rw [warpAt_eq (groupAt_modGroup_same hk), hz, hz] at h
      cases h

theorem recordTrap_not_run {s : State} {w : Who} {r : TrapRec} {words : Nat} {k : Machine.Group} {y : Warp}
    (hk : groupAt s w.core w.gslot = some k)
    (h : warpAt (recordTrap s w r words) w.core w.gslot w.wid = some y) : y.run ≠ .run := by
  unfold recordTrap at h
  rw [hk] at h
  dsimp only at h
  split at h
  · obtain ⟨z, -, rfl⟩ := warpAt_of_modWarp h
    simp
  · obtain ⟨z, hz, hrun⟩ := runsKept_regionFault _ _ _ _ _ _ _ _ _ _ h
    obtain ⟨u, -, rfl⟩ := warpAt_of_modWarp hz
    rw [hrun]
    simp

theorem trapping_not_run {s : State} {w : Who} {r : TrapRec} {words : Nat} {y : Warp}
    (hk : ∃ k, groupAt s w.core w.gslot = some k)
    (h : warpAt (if roleQuiet s w then recordTrap s w r words
      else modWarp s w.core w.gslot w.wid (fun y => { y with run := .trapping r words })) w.core w.gslot w.wid = some y) :
    y.run ≠ .run := by
  obtain ⟨k, hk⟩ := hk
  split at h
  · exact recordTrap_not_run hk h
  · obtain ⟨u, -, rfl⟩ := warpAt_of_modWarp h
    simp

/-- A trap leaves its role no longer at work, or takes it off its core. -/
theorem takeTrap_not_run {s : State} {w : Who} {cause : Cause} {lanes : W32} {addr code words : Nat} {y : Warp}
    (h : warpAt (takeTrap s w cause lanes addr code words) w.core w.gslot w.wid = some y) : y.run ≠ .run := by
  unfold takeTrap at h
  split at h
  · rename_i k z hk hz
    have hunpend : ∃ k',
      groupAt (modWarp s w.core w.gslot w.wid (fun y => { y with pend := none })) w.core w.gslot = some k' :=
      (groupAt_modWarp hk w.wid _).imp' _ (fun _ => id)
    refine trapping_not_run ?_ h
    split
    · rw [groupAt_modCore (f := fun k => { k with claims := k.claims.filter (fun q => q.1 != w.gslot) }) (fun _ => rfl)]
      exact hunpend
    · exact hunpend
  · rename_i hnone
    unfold warpAt at h
    split at h
    · rename_i k hk
      exact (hnone k y hk ((warpAt_eq hk).trans h)).elim
    · cases h

end Sys2Proof.Proofs
end

