-- ==== Sys2Proof/Proofs/RegisterFrames.lean ====
section
/-!
What an instruction word on its role's own registers leaves as it was (R208, R253,
  R273). `RoleOnly` relates two states that differ
in one role alone and there in the registers named; every part of an issue has it, so each word's end has it,
  whatever the end is. A
trap is no end of a role that still runs (`takeTrap_not_run`).
-/
namespace Sys2Proof.Proofs
open Sys2Proof.Machine

/-! ### Two states that differ in one role -/

/-- A role's registers are what they were but for those named, and in the lanes of `m`. -/
structure WarpKept (m : W32) (ds : List Dest) (z y : Warp) : Prop where
  vreg : ∀ r l, l < 32 → inMask m l = false ∨ (∀ q n, Dest.vec q n ∈ ds → r < q ∨ q + n ≤ r) → vreg y r l = vreg z r l
  pred : ∀ p, Dest.pred p ∉ ds → predOf y p = predOf z p
  cond : ∀ c, Dest.cond c ∉ ds → condOf y c = condOf z c
  prods : y.prods = z.prods
  toks : y.toks = z.toks
  part : y.part = z.part
  rbase : y.rbase = z.rbase

/-- A group is what it was but for its role `v`, and its uniform registers for those named. -/
structure GroupKept (v : Nat) (m : W32) (ds : List Dest) (k k' : Machine.Group) : Prop where
  rest : { k' with warps := k.warps, sregs := k.sregs } = k
  sreg : ∀ r, Dest.uni r ∉ ds → sreg k' r = sreg k r
  others : ∀ u, u ≠ v → mapFind k'.warps u = mapFind k.warps u
  role : ∀ z, mapFind k.warps v = some z → ∃ y, mapFind k'.warps v = some y ∧ WarpKept m ds z y

/-- A core but for its groups and what says whose turn it is to issue (R4, R14). -/
def issueSide (k k' : Core) : Core :=
  { k' with
    groups := k.groups
    turn := k.turn
    tried := k.tried
    ranks := k.ranks
    lastWarp := k.lastWarp
    lastMt := k.lastMt }

/-- Two states that differ in one role's registers, those named, and in its core's turns to issue. -/
structure RoleOnly (w : Who) (m : W32) (ds : List Dest) (s t : State) : Prop where
  rest : { t with cores := s.cores } = s
  cores : ∀ c, c ≠ w.core → coreOf t c = coreOf s c
  core : issueSide (coreOf s w.core) (coreOf t w.core) = coreOf s w.core
  groups : ∀ q, q ≠ w.gslot → groupAt t w.core q = groupAt s w.core q
  group : ∀ k, groupAt s w.core w.gslot = some k → ∃ k', groupAt t w.core w.gslot = some k' ∧ GroupKept w.wid m ds k k'

section kept
variable {w : Who} {m : W32} {ds : List Dest}

theorem WarpKept.refl (y : Warp) : WarpKept m ds y y :=
  ⟨fun _ _ _ _ => rfl, fun _ _ => rfl, fun _ _ => rfl, rfl, rfl, rfl, rfl⟩

theorem WarpKept.trans {y z u : Warp} (h : WarpKept m ds y z) (h' : WarpKept m ds z u) : WarpKept m ds y u where
  vreg r l hl hout := (h'.vreg r l hl hout).trans (h.vreg r l hl hout)
  pred p hp := (h'.pred p hp).trans (h.pred p hp)
  cond c hc := (h'.cond c hc).trans (h.cond c hc)
  prods := h'.prods.trans h.prods
  toks := h'.toks.trans h.toks
  part := h'.part.trans h.part
  rbase := h'.rbase.trans h.rbase

theorem GroupKept.refl (v : Nat) (k : Machine.Group) : GroupKept v m ds k k :=
  ⟨rfl, fun _ _ => rfl, fun _ _ => rfl, fun z hz => ⟨z, hz, WarpKept.refl z⟩⟩

theorem GroupKept.trans {v : Nat} {k l n : Machine.Group} (h : GroupKept v m ds k l) (h' : GroupKept v m ds l n) :
    GroupKept v m ds k n where
  rest :=
    calc { n with warps := k.warps, sregs := k.sregs }
      _ = { { n with warps := l.warps, sregs := l.sregs } with warps := k.warps, sregs := k.sregs } := rfl
      _ = k := by rw [h'.rest, h.rest]
  sreg r hr := (h'.sreg r hr).trans (h.sreg r hr)
  others u hu := (h'.others u hu).trans (h.others u hu)
  role z hz := by
    obtain ⟨y, hy, hzy⟩ := h.role z hz
    obtain ⟨u, hu, hyu⟩ := h'.role y hy
    exact ⟨u, hu, hzy.trans hyu⟩

theorem RoleOnly.refl (s : State) : RoleOnly w m ds s s :=
  ⟨rfl, fun _ _ => rfl, rfl, fun _ _ => rfl, fun k hk => ⟨k, hk, GroupKept.refl _ k⟩⟩

theorem RoleOnly.trans {s t u : State} (h : RoleOnly w m ds s t) (h' : RoleOnly w m ds t u) : RoleOnly w m ds s u where
  rest :=
    calc { u with cores := s.cores }
      _ = { { u with cores := t.cores } with cores := s.cores } := rfl
      _ = s := by rw [h'.rest, h.rest]
  cores c hc := (h'.cores c hc).trans (h.cores c hc)
  core :=
    calc issueSide (coreOf s w.core) (coreOf u w.core)
      _ = issueSide (coreOf s w.core) (issueSide (coreOf t w.core) (coreOf u w.core)) := rfl
      _ = coreOf s w.core := by rw [h'.core, h.core]
  groups q hq := (h'.groups q hq).trans (h.groups q hq)
  group k hk := by
    obtain ⟨l, hl, hkl⟩ := h.group k hk
    obtain ⟨n, hn, hln⟩ := h'.group l hl
    exact ⟨n, hn, hkl.trans hln⟩

theorem roleOnly_modGroup (s : State) {f : Machine.Group → Machine.Group} (hf : ∀ k, GroupKept w.wid m ds k (f k)) :
    RoleOnly w m ds s (modGroup s w.core w.gslot f) := by
  cases hk : groupAt s w.core w.gslot with
  | none =>
    rw [modGroup, hk]
    exact RoleOnly.refl s
  | some k =>
    have hmod : modGroup s w.core w.gslot f =
        modCore s w.core (fun q => { q with groups := mapSet q.groups w.gslot (f k) }) := by rw [modGroup, hk]
    refine ⟨?_, fun c hc => ?_, ?_, fun q hq => groupAt_modGroup_other s f (fun h => hq h.2),
      fun l hl => ⟨f k, groupAt_modGroup_same hk, ?_⟩⟩
    · rw [hmod]
      rfl
    · rw [hmod, coreOf_modCore, if_neg hc]
    · rw [hmod, coreOf_modCore, if_pos rfl]
      rfl
    · rw [hk] at hl
      cases hl
      exact hf k

theorem roleOnly_modWarp (s : State) {f : Warp → Warp} (hf : ∀ y, WarpKept m ds y (f y)) :
    RoleOnly w m ds s (modWarp s w.core w.gslot w.wid f) :=
  roleOnly_modGroup s (fun k => by
    split
    · rename_i y hy
      exact ⟨rfl, fun _ _ => rfl, fun u hu => mapFind_mapSet_other _ _ _ _ hu,
        fun z hz => ⟨f y, mapFind_mapSet_same _ _ _, by
          rw [hy] at hz
          cases hz
          exact hf y⟩⟩
    · exact GroupKept.refl _ k)

theorem roleOnly_modCore (s : State) {f : Core → Core} (hf : ∀ k, (f k).groups = k.groups ∧ issueSide k (f k) = k) :
    RoleOnly w m ds s (modCore s w.core f) where
  rest := rfl
  cores c hc := by rw [coreOf_modCore, if_neg hc]
  core := by
    rw [coreOf_modCore, if_pos rfl]
    exact (hf _).2
  groups q _ := groupAt_modCore (fun k => (hf k).1) _ _
  group k hk := ⟨k, (groupAt_modCore (fun k => (hf k).1) _ _).trans hk, GroupKept.refl _ k⟩

theorem WarpKept.of_issueOnly {y z : Warp} (h : IssueOnly y z) : WarpKept m ds y z where
  vreg r l _ _ := by simp only [Machine.vreg, h.vregs]
  pred p _ := by simp only [predOf, h.preds]
  cond c _ := by simp only [condOf, h.conds]
  prods := h.prods
  toks := h.toks
  part := h.part
  rbase := h.rbase

theorem roleOnly_issueOnly (s : State) {f : Warp → Warp} (hf : ∀ y, IssueOnly y (f y)) :
    RoleOnly w m ds s (modWarp s w.core w.gslot w.wid f) :=
  roleOnly_modWarp s (fun y => WarpKept.of_issueOnly (hf y))

/-! ### The parts of an issue -/

theorem roleOnly_modSplit (s : State) (f : Split → Split) : RoleOnly w m ds s (modSplit s w f) :=
  roleOnly_issueOnly s (fun y => issueOnly_setSplit y _ _)

theorem roleOnly_noteRank (s : State) : RoleOnly w m ds s (noteRank s w) := by
  unfold noteRank setRank
  exact roleOnly_modCore s (fun _ => ⟨rfl, rfl⟩)

theorem roleOnly_stopSpeculation (s : State) : RoleOnly w m ds s (stopSpeculation s w) :=
  roleOnly_modWarp s (fun _ => ⟨fun _ _ _ _ => rfl, fun _ _ => rfl, fun _ _ => rfl, rfl, rfl, rfl, rfl⟩)

theorem roleOnly_setBlocked (s : State) (b : Block) : RoleOnly w m ds s (setBlocked s w b) := by
  have hnote : RoleOnly w m ds s (if b == .groupRoles then noteRank s w else s) := by
    split
    · exact roleOnly_noteRank s
    · exact RoleOnly.refl s
  unfold setBlocked
  exact hnote.trans (RoleOnly.trans (roleOnly_modCore (f := fun k => { k with tried := w :: k.tried }) _ (fun _ => ⟨rfl,
    rfl⟩))
    (roleOnly_issueOnly _ (fun y => issueOnly_setSplitBlock _ _ b y)))

variable {x : Iss}

theorem roleOnly_noteIssue (s : State) : RoleOnly x.w m ds s (noteIssue s x) := by
  have hturn : RoleOnly x.w m ds (noteRank s x.w) (modCore (noteRank s x.w) x.w.core (fun k => { k with
      turn := issueUnit x.w.wid x.wp.part :: k.turn
      lastMt := if x.w.wid == 64 then x.wp.wslot else k.lastMt
      lastWarp := if x.w.wid == 64 then k.lastWarp else mapSet k.lastWarp x.wp.part x.wp.wslot })) :=
    roleOnly_modCore _ (fun _ => ⟨rfl, rfl⟩)
  have hslot : ∀ y : Warp, IssueOnly y (countStarvation x.wp { y with lastSlot := x.w.slot }) :=
    fun y => IssueOnly.trans (z := { y with lastSlot := x.w.slot }) rfl (issueOnly_countStarvation _ _)
  exact (roleOnly_noteRank s).trans (hturn.trans (roleOnly_issueOnly _ hslot))

theorem roleOnly_endIssue (s : State) : RoleOnly x.w m ds s (endIssue s x) :=
  (roleOnly_noteIssue s).trans
    (roleOnly_issueOnly _ (fun y => (issueOnly_setSplit y _ _).trans (issueOnly_boundary _)))

theorem roleOnly_awaitEnd (s : State) (b : Block) : RoleOnly x.w m ds s (awaitEnd s x b) :=
  (roleOnly_noteIssue s).trans
    (roleOnly_issueOnly _ (fun y => (issueOnly_setSplitBlock _ _ b y).trans (issueOnly_boundary _)))

/-! ### What a word does to its role -/

theorem roleOnly_placeLanes (s : State) (nx : Nat → W64) : RoleOnly x.w m ds s (placeLanes s x nx) := by
  unfold placeLanes
  dsimp only
  split
  · exact RoleOnly.refl s
  · exact roleOnly_issueOnly s (fun y => (issueOnly_setSplit y _ _).trans
      (issueOnly_foldl (fun z _ => issueOnly_placeSplit z _) _ _))

/-- A write of vector registers changes no more of its role. -/
theorem setVregN_eq (y : Warp) (r n : Nat) (m' : W32) (v : Nat → Nat) :
    setVregN y r n m' v = { y with vregs := (setVregN y r n m' v).vregs } :=
  List.foldlRecOn (motive := fun z : Warp => z = { y with vregs := z.vregs }) _ _ rfl (fun z h a _ => by
    dsimp only [setVreg]
    rw [h])

theorem warpKept_setVregN {y : Warp} {n : Nat} {r : Nat} {m' : W32} (v : Nat → Nat) (hm : ∀ l,
  inMask m' l = true → inMask m l = true)
    (hd : Dest.vec r n ∈ ds) : WarpKept m ds y (setVregN y r n m' v) where
  vreg q l hl hout := by
    rw [vreg_setVregN _ _ _ _ _ _ hl, if_neg]
    rintro ⟨hq, hin⟩
    rcases hout with hout | hout
    · rw [hm l hin] at hout
      cases hout
    · have := hout r n hd
      omega
  pred p _ := by rw [setVregN_eq]; rfl
  cond c _ := by rw [setVregN_eq]; rfl
  prods := by rw [setVregN_eq]
  toks := by rw [setVregN_eq]
  part := by rw [setVregN_eq]
  rbase := by rw [setVregN_eq]

theorem roleOnly_writeLanes (s : State) {r n : Nat} (v : Nat → Nat) (hd : Dest.vec r n ∈ ds) :
    RoleOnly x.w m ds s (writeLanes s x m r n v) :=
  roleOnly_modWarp s (fun _ => warpKept_setVregN v (fun _ h => h) hd)

theorem predOf_setPred (y : Warp) (p q : Nat) (m' v : W32) (hq : q ≠ p) : predOf (setPred y p m' v) q = predOf y q := by
  unfold setPred
  split
  · rfl
  · simp only [predOf, listSet_getD, hq, false_and, if_false]

theorem roleOnly_setPred (s : State) {p : Nat} (m' v : W32) (hd : Dest.pred p ∈ ds) :
    RoleOnly x.w m ds s (onWarp s x (fun y => setPred y p m' v)) :=
  roleOnly_modWarp s (fun y => ⟨fun _ _ _ _ => by simp only [vreg, setPred_vregs],
    fun q hq => predOf_setPred y p q m' v (fun h => hq (h ▸ hd)),
    fun _ _ => by simp only [condOf, setPred_conds], setPred_prods _ _ _ _, setPred_toks _ _ _ _, setPred_part _ _ _ _,
    setPred_rbase _ _ _ _⟩)

theorem roleOnly_setCond (s : State) {c : Nat} (v : Bool) (hd : Dest.cond c ∈ ds) :
    RoleOnly x.w m ds s (onWarp s x (fun y => setCond y c v)) :=
  roleOnly_modWarp s (fun _ => ⟨fun _ _ _ _ => rfl, fun _ _ => rfl, fun q hq => by
    have hne : q ≠ c := fun h => hq (h ▸ hd)
    simp only [condOf, setCond, listSet_getD, hne, false_and, if_false], rfl, rfl, rfl, rfl⟩)

theorem roleOnly_setSreg (s : State) {r : Nat} (v : W64) (hd : Dest.uni r ∈ ds) :
    RoleOnly x.w m ds s (onGroup s x (fun k => setSreg k r v)) :=
  roleOnly_modGroup s (fun k => ⟨rfl, fun q hq => by
    rw [sreg_setSreg, if_neg]
    rintro rfl
    exact hq hd, fun _ _ => rfl, fun z hz => ⟨z, hz, WarpKept.refl z⟩⟩)

/-! ### The ends of an issue -/

/-- The state that a word's end carries has changed its role alone. -/
def ResKept (w : Who) (m : W32) (ds : List Dest) (s : State) : Res → Prop
  | .done t | .jump t | .hold _ t | .issued _ t | .trap _ _ _ _ t => RoleOnly w m ds s t

/-- An outcome in whose next state the issuing role runs has changed that role alone. -/
def OutKept (w : Who) (m : W32) (ds : List Dest) (s : State) (o : Out) : Prop :=
  ∀ t y, o = .next t → warpAt t w.core w.gslot w.wid = some y → y.run = .run → RoleOnly w m ds s t

variable {s : State}

theorem outKept_next {t : State} (h : RoleOnly w m ds s t) : OutKept w m ds s (.next t) := fun u _ hu _ _ => by
  cases hu
  exact h

theorem finish_kept {n : Nat} {r : Res} (h : ResKept x.w m ds s r) : OutKept x.w m ds s (finish x n r) := by
  cases r with
  | done t => exact outKept_next (RoleOnly.trans h ((roleOnly_modSplit t _).trans (roleOnly_endIssue _)))
  | jump t => exact outKept_next (RoleOnly.trans h (roleOnly_endIssue t))
  | hold b t => exact outKept_next (RoleOnly.trans h (roleOnly_setBlocked t b))
  | issued b t => exact outKept_next (RoleOnly.trans h (roleOnly_awaitEnd t b))
  | trap c lanes addr code t =>
    unfold finish
    dsimp only
    split
    · exact outKept_next (RoleOnly.trans h ((roleOnly_stopSpeculation t).trans (roleOnly_setBlocked _ _)))
    · intro u y hu hy hrun
      cases hu
      exact (takeTrap_not_run hy hrun).elim

theorem runWord_kept {roles : Roles} {stops : Bool} {n : Nat} {g : Guard} {tw : BitVec 8} {ops : Iss → W32 → List Opd}
    {body : Iss → W32 → State → Res} (hi : issuer s = some x)
    (hb : ResKept x.w (guardMask x g) ds s (body x (guardMask x g) s)) :
    OutKept x.w (guardMask x g) ds s (runWord roles stops n g tw ops body s) := by
  have hself : RoleOnly x.w (guardMask x g) ds s s := RoleOnly.refl s
  unfold runWord
  rw [hi]
  refine finish_kept ?_
  split
  · exact hself
  · split
    · exact hself
    · split
      · exact roleOnly_stopSpeculation s
      · split
        · exact hself
        · split
          · exact hself
          · dsimp only
            split
            · exact hself
            · split
              · exact hself
              · exact hb

theorem runWordIf_kept {bad : Iss → Bool} {roles : Roles} {stops : Bool} {g : Guard} {ops : Iss → W32 → List Opd}
    {body : Iss → W32 → State → Res} (hi : issuer s = some x)
    (hb : ResKept x.w (guardMask x g) ds s (body x (guardMask x g) s)) :
    OutKept x.w (guardMask x g) ds s (runWordIf bad roles stops g ops body s) := by
  unfold runWordIf
  rw [hi]
  dsimp only
  split
  · exact finish_kept (RoleOnly.refl s)
  · exact runWord_kept hi hb

end kept

end Sys2Proof.Proofs
end

