-- ==== Sys2Proof/Proofs/RegisterWords.lean ====
section
/-!
The instruction words whose whole effect is on registers or splits,
  each by the kind of write that its body makes: lanes of vector
registers, a predicate, a condition, a uniform register, or the place of its lanes in the splits.
-/
namespace Sys2Proof.Proofs
open Sys2Proof.Machine

/-- A word that leaves what `destsOf` does not name, in the lanes of its guard. -/
def WordKept (i : Instr) (s : State) (x : Iss) : Prop :=
  ∀ h ds, shapeOf i = some h → destsOf i = some ds → OutKept x.w (guardMask x h.guard) ds s (exec i s)

section words
variable {i : Instr} {s : State} {x : Iss} {roles : Roles} {stops : Bool} {k : Nat} {g : Guard} {tw : BitVec 8}
  {ops : Iss → W32 → List Opd} {ds : List Dest}

theorem wordKept_of {h : Shape} (hs : shapeOf i = some h) (hd : destsOf i = some ds)
    (hk : OutKept x.w (guardMask x h.guard) ds s (exec i s)) : WordKept i s x := fun h' ds' hs' hd' => by
  rw [hs] at hs'
  rw [hd] at hd'
  cases hs'
  cases hd'
  exact hk

theorem wordKept_of_none (hd : destsOf i = none) : WordKept i s x := fun _ _ _ hd' => by
  rw [hd] at hd'
  cases hd'

variable (hi : issuer s = some x)
include hi

theorem lanes_kept {r n : Nat} {v : Iss → W32 → Nat → Nat} (hd : Dest.vec r n ∈ ds) :
    OutKept x.w (guardMask x g) ds s (runWord roles stops k g tw ops (fun x m s => .done (writeLanes s x m r n
      (v x m))) s) :=
  runWord_kept hi (roleOnly_writeLanes s _ hd)

theorem uniform_kept {r : Nat} {v : Iss → W32 → State → W64} (hd : Dest.uni r ∈ ds) :
    OutKept x.w (guardMask x g) ds s (runWord roles stops k g tw ops
      (fun x m s => .done (onGroup s x (fun q => setSreg q r (v x m s)))) s) :=
  runWord_kept hi (roleOnly_setSreg s _ hd)

theorem predicate_kept {p : Nat} {v : Iss → W32 → W32} (hd : Dest.pred p ∈ ds) :
    OutKept x.w (guardMask x g) ds s (runWord roles stops k g tw ops
      (fun x m s => .done (onWarp s x (fun y => setPred y p m (v x m)))) s) :=
  runWord_kept hi (roleOnly_setPred s _ _ hd)

theorem transfer_kept {moving : Iss → W32 → W32} {dest : Iss → Nat → W64} :
    OutKept x.w (guardMask x g) ds s (runWord roles stops k g tw ops
      (fun x m s => .jump (transfer s x (moving x m) (dest x))) s) :=
  runWord_kept hi (roleOnly_placeLanes s _)

theorem conditional_kept {c : Nat} {v : Iss → Bool} (hd : Dest.cond c ∈ ds) :
    OutKept x.w (guardMask x g) ds s (runWord roles stops k g tw ops
      (fun x _ s => .done (onWarp s x (fun y => setCond y c (v x)))) s) :=
  runWord_kept hi (roleOnly_setCond s _ hd)

/-! ### Words with ends or destinations of their own -/

theorem iaddc_kept (g : Guard) (f : FA) : WordKept (.iaddc g f) s x := by
  refine wordKept_of rfl rfl ?_
  rw [exec_iaddc, execIaddc]
  refine runWord_kept hi ?_
  exact (roleOnly_writeLanes s _ List.mem_cons_self).trans
    (roleOnly_setPred _ _ _ (List.mem_cons_of_mem _ List.mem_cons_self))

theorem cvtf8_kept (g : Guard) (f : FA) : WordKept (.cvtf8 g f) s x := by
  refine wordKept_of rfl rfl ?_
  rw [exec_cvtf8, execCvtf8]
  split
  · exact lanes_kept hi List.mem_cons_self
  · exact lanes_kept hi List.mem_cons_self

theorem vote_kept (g : Guard) (f : FA) : WordKept (.vote g f) s x := by
  refine wordKept_of rfl rfl ?_
  rw [exec_vote, execVote]
  refine runWord_kept hi ?_
  dsimp only
  by_cases h : f.srcb = 3
  · simp only [h, beq_self_eq_true, if_true]
    exact roleOnly_writeLanes s _ List.mem_cons_self
  · simp only [h, beq_eq_false_iff_ne.2 h, Bool.false_eq_true, if_false]
    exact roleOnly_setPred s _ _ List.mem_cons_self

theorem rdlane_kept (g : Guard) (f : FA) : WordKept (.rdlane g f) s x := by
  refine wordKept_of rfl rfl ?_
  rw [exec_rdlane, execRdlane]
  refine runWord_kept hi ?_
  dsimp only
  split
  · exact RoleOnly.refl s
  · exact roleOnly_setSreg s _ List.mem_cons_self

theorem stgqry_kept (g : Guard) (f : FA) : WordKept (.stgqry g f) s x := by
  refine wordKept_of rfl rfl ?_
  rw [exec_stgqry, execStgqry]
  refine runWord_kept hi ?_
  dsimp only
  split
  · exact RoleOnly.refl s
  · exact roleOnly_setSreg s _ List.mem_cons_self

theorem getsr_kept (g : Guard) (f : FI) : WordKept (.getsr g f) s x := by
  refine wordKept_of rfl rfl ?_
  rw [exec_getsr]
  refine runWordIf_kept hi ?_
  dsimp only [ResKept]
  split
  · exact roleOnly_writeLanes s _ List.mem_cons_self
  · exact roleOnly_setSreg s _ (List.mem_cons_of_mem _ List.mem_cons_self)

theorem call_kept (g : Guard) (f : FJ) : WordKept (.call g f) s x := by
  refine wordKept_of rfl rfl ?_
  rw [exec_call]
  refine runWordIf_kept hi (RoleOnly.trans ?_ (roleOnly_placeLanes _ _))
  split
  · exact roleOnly_writeLanes s _ List.mem_cons_self
  · exact roleOnly_setSreg s _ (List.mem_cons_of_mem _ List.mem_cons_self)

omit hi in
theorem checkTargets_kept {w : Who} {m : W32} {ts : List (Nat × W64)} {go : State → Res} (h : ResKept w m ds s (go s)) :
    ResKept w m ds s (checkTargets s ts go) := by
  unfold checkTargets
  dsimp only
  split
  · exact RoleOnly.refl s
  · split
    · exact RoleOnly.refl s
    · exact h

theorem ret_kept (g : Guard) (f : FJ) : WordKept (.ret g f) s x := by
  refine wordKept_of rfl rfl ?_
  rw [exec_ret]
  exact runWordIf_kept hi (checkTargets_kept (roleOnly_placeLanes s _))

theorem join_kept (g : Guard) (f : FJ) : WordKept (.join g f) s x := by
  refine wordKept_of rfl rfl ?_
  rw [exec_join]
  refine runWord_kept hi ?_
  dsimp only
  split
  · exact (roleOnly_modSplit s _).trans (roleOnly_issueOnly _ issueOnly_boundary)
  · exact RoleOnly.refl s

theorem setfmt_kept (g : Guard) (f : FI) : WordKept (.setfmt g f) s x := by
  refine wordKept_of rfl rfl ?_
  rw [exec_setfmt, execSetfmt]
  refine runWord_kept hi ?_
  dsimp only
  generalize (if f.imm.getLsbD 23 = true then _ else _ : Nat) = v
  split
  · exact RoleOnly.refl s
  · exact roleOnly_modSplit s _

/-! ### Pair words -/

omit hi in
theorem inMask_halfMask {a : HalfArgs} {l : Nat} (h : inMask (halfMask x a) l = true) : inMask
  (guardMask x noGuard) l = true := by
  have hlt : l < 32 := lt_of_inMask h
  have hall : (BitVec.allOnes 32).getLsbD l = true := BitVec.getLsbD_allOnes.trans (decide_eq_true hlt)
  simp only [inMask, halfMask, guardMask, BitVec.getLsbD_and, Bool.and_eq_true] at h ⊢
  exact ⟨h.1, hall⟩

omit hi in
theorem warpKept_halfWrite {y : Warp} {op : HalfOp} {p : Pop} {a : HalfArgs} (hd : p ≠ .nop → halfDests a ∈ ds) :
    WarpKept (guardMask x noGuard) ds y (halfWrite y op p x a) := by
  unfold halfWrite
  split
  · exact WarpKept.refl y
  · rename_i hp
    exact warpKept_setVregN _ (fun _ h => inMask_halfMask h) (hd (fun h => hp (by simp [h])))

theorem pairExec_kept {p : Pop} {op : HalfOp} {a : HalfArgs} {h : Half} (ha : p ≠ .nop → halfDests a ∈ ds)
    (hh : halfDests h.args ∈ ds) : OutKept x.w (guardMask x noGuard) ds s (pairExec p op a h s) :=
  runWordIf_kept (g := noGuard) hi (roleOnly_modWarp s (fun _ =>
    (warpKept_halfWrite ha).trans (warpKept_halfWrite (fun _ => hh))))

/-! ### Every word -/

theorem wordKept (i : Instr) : WordKept i s x := by
  cases i with
  | iabs g f | ineg g f | not_ g f | popc g f | clz g f | ctz g f | brev g f | mov g f | fabs g f | fneg g f | fsqrt g f
  | frcp g f | frsq g f | fexp2 g f | flog2 g f | fsin g f | fcos g f | ftanh g f | fround g f | ffrac g f | fclass g f
  | fgetexp g f =>
    refine wordKept_of rfl rfl ?_
    simp only [exec_iabs, exec_ineg, exec_not_, exec_popc, exec_clz, exec_ctz, exec_brev, exec_mov, exec_fabs, exec_fneg,
      exec_fsqrt, exec_frcp, exec_frsq, exec_fexp2, exec_flog2, exec_fsin, exec_fcos, exec_ftanh, exec_fround, exec_ffrac,
      exec_fclass, exec_fgetexp, execIabs, execIneg, execNot, execPopc, execClz, execCtz, execBrev, execMov, execFabs,
      execFneg, execFsqrt, execFrcp, execFrsq, execFexp2, execFlog2, execFsin, execFcos, execFtanh, execFround, execFfrac,
      execFclass, execFgetexp, vecA1, intA1, floatA1]
    exact lanes_kept hi List.mem_cons_self
  | iadd g f | isub g f | imul g f | imulh g f | idiv g f | irem g f | imin g f | imax g f | and_ g f | or_ g f | xor_ g f
  | andn g f | shl g f | shr g f | sar g f | rot g f | fadd g f | fsub g f | fmul g f | fmin g f | fmax g f | fminnum g f
  | fmaxnum g f | fcopysign g f | fdiv g f | fscale g f =>
    refine wordKept_of rfl rfl ?_
    simp only [exec_iadd, exec_isub, exec_imul, exec_imulh, exec_idiv, exec_irem, exec_imin, exec_imax, exec_and_,
      exec_or_, exec_xor_, exec_andn, exec_shl, exec_shr, exec_sar, exec_rot, exec_fadd, exec_fsub, exec_fmul, exec_fmin,
      exec_fmax, exec_fminnum, exec_fmaxnum, exec_fcopysign, exec_fdiv, exec_fscale, execIadd, execIsub, execImul,
      execImulh, execImin, execImax, execAnd, execOr, execXor, execAndn, execShl, execShr, execSar,
      execRot, execFadd, execFsub, execFmul, execFmin, execFmax, execFminnum, execFmaxnum, execFcopysign, execFdiv,
      execFscale, vecA2, intA2, shiftA, floatA2]
    exact lanes_kept hi List.mem_cons_self
  | imad g f | isad g f | funnel g f | bfe g f | bfi g f | fma g f | dp4 g f | fdot2 g f =>
    refine wordKept_of rfl rfl ?_
    simp only [exec_imad, exec_isad, exec_funnel, exec_bfe, exec_bfi, exec_fma, exec_dp4, exec_fdot2, execImad, execIsad,
      execFunnel, execFma, execDp4, execFdot2, vecB3]
    exact lanes_kept hi List.mem_cons_self
  | sel g f | lea g f | movi g f | movhi g f | bxpack g f | match_ g f | permx g f | cvt g f | bxunpack g f | shfl g f
  | red g f | scan g f =>
    refine wordKept_of rfl rfl ?_
    simp only [exec_sel, exec_lea, exec_movi, exec_movhi, exec_bxpack, exec_match_, exec_permx, exec_cvt, exec_bxunpack,
      exec_shfl, exec_red, exec_scan, execSel, execLea, execMovi, execMovhi, execBxpack, execMatch, execPermx, execCvt,
      execBxunpack, execShfl, execRed, execScan, vecAa]
    exact lanes_kept hi List.mem_cons_self
  | rfal g f | sadd g f | ssub g f | smul g f | smulh g f | sdiv g f | sand g f | sor g f | sxor g f | snot g f | sshl g f
  | sshr g f | ssar g f | smin g f | smax g f | smov g f | spopc g f | sclz g f | sfadd g f | sfmul g f | scvt g f
  | getfmt g f | rdcyc g f | cpoll g f | cqry g f | ssel g f | sfma g f | smovi g f | smovhi g f =>
    refine wordKept_of rfl rfl ?_
    simp only [exec_rfal, exec_sadd, exec_ssub, exec_smul, exec_smulh, exec_sdiv, exec_sand, exec_sor, exec_sxor,
      exec_snot, exec_sshl, exec_sshr, exec_ssar, exec_smin, exec_smax, exec_smov, exec_spopc, exec_sclz, exec_sfadd,
      exec_sfmul, exec_scvt, exec_getfmt, exec_rdcyc, exec_cpoll, exec_cqry, exec_ssel, exec_sfma, exec_smovi,
      exec_smovhi, execRfal, execSadd, execSsub, execSmul, execSmulh, execSand, execSor, execSxor, execSnot,
      execSshl, execSshr, execSsar, execSmin, execSmax, execSmov, execSpopc, execSclz, execSfadd, execSfmul, execScvt,
      execGetfmt, execRdcyc, execCpoll, execCqry, execSsel, execSfma, execSmovi, execSmovhi, sInt2, sca1, sca2]
    exact uniform_kept hi List.mem_cons_self
  | icmp g f | fcmp g f | elect g f =>
    refine wordKept_of rfl rfl ?_
    simp only [exec_icmp, exec_fcmp, exec_elect, execIcmp, execFcmp, execElect, vecCmp]
    exact predicate_kept hi List.mem_cons_self
  | bra g f | brc g f | brv g f =>
    refine wordKept_of rfl rfl ?_
    simp only [exec_bra, exec_brc, exec_brv, execBra, execBrc, execBrv]
    exact transfer_kept hi
  | iaddc g f => exact iaddc_kept hi g f
  | cvtf8 g f => exact cvtf8_kept hi g f
  | vote g f => exact vote_kept hi g f
  | rdlane g f => exact rdlane_kept hi g f
  | stgqry g f => exact stgqry_kept hi g f
  | getsr g f => exact getsr_kept hi g f
  | call g f => exact call_kept hi g f
  | ret g f => exact ret_kept hi g f
  | join g f => exact join_kept hi g f
  | setfmt g f => exact setfmt_kept hi g f
  | scmp g f =>
    refine wordKept_of rfl rfl ?_
    rw [exec_scmp, execScmp]
    exact conditional_kept hi List.mem_cons_self
  | nop g f =>
    refine wordKept_of rfl rfl ?_
    rw [exec_nop]
    exact runWord_kept hi (RoleOnly.refl s)
  | waitk g f =>
    refine wordKept_of rfl rfl ?_
    rw [exec_waitk]
    exact runWord_kept hi (RoleOnly.refl s)
  | region g f =>
    refine wordKept_of rfl rfl ?_
    rw [exec_region]
    exact runWord_kept hi (roleOnly_modSplit s _)
  | bar g f =>
    refine wordKept_of rfl rfl ?_
    rw [exec_bar]
    exact runWord_kept (g := noGuard) hi (roleOnly_modSplit s _)
  | pairNop a h =>
    refine wordKept_of rfl rfl ?_
    rw [exec_pairNop]
    exact pairExec_kept hi (fun h => (h rfl).elim) List.mem_cons_self
  | pairMov a h | pairIadd a h | pairIsub a h | pairImul a h | pairImin a h | pairImax a h | pairAnd a h | pairOr a h
  | pairXor a h | pairAndn a h | pairShl a h | pairShr a h | pairSar a h | pairNot a h | pairIneg a h | pairFadd a h
  | pairFsub a h | pairFmul a h | pairFmin a h | pairFmax a h | pairFminnum a h | pairFmaxnum a h | pairFabs a h
  | pairFneg a h | pairFcopysign a h =>
    refine wordKept_of rfl rfl ?_
    simp only [exec_pairMov, exec_pairIadd, exec_pairIsub, exec_pairImul, exec_pairImin, exec_pairImax, exec_pairAnd,
      exec_pairOr, exec_pairXor, exec_pairAndn, exec_pairShl, exec_pairShr, exec_pairSar, exec_pairNot, exec_pairIneg,
      exec_pairFadd, exec_pairFsub, exec_pairFmul, exec_pairFmin, exec_pairFmax, exec_pairFminnum, exec_pairFmaxnum,
      exec_pairFabs, exec_pairFneg, exec_pairFcopysign]
    exact pairExec_kept hi (fun _ => List.mem_cons_self) (List.mem_cons_of_mem _ List.mem_cons_self)
  | _ => exact wordKept_of_none rfl

end words

/-- Settles O57: each part of an issue changes its role alone, and its body only the registers that it names,
  in the lanes of its
guard; a word that traps leaves no role that runs. -/
theorem registerFrame : Obligations.RegisterFrame := by
  unfold Obligations.RegisterFrame
  intro i h ds s t x y hs hd hi _ _ hexec hy hrun
  obtain ⟨hrest, hcores, hcore, hgroups, hgroup⟩ := wordKept hi i h ds hs hd t y hexec hy hrun
  obtain ⟨k, hk, hkept⟩ := hgroup x.grp (issuer_groupAt hi)
  obtain ⟨z, hz, hregs⟩ := hkept.role x.wp ((warpAt_eq (issuer_groupAt hi)).symm.trans (issuer_warpAt hi))
  obtain rfl : z = y := Option.some.inj (hz.symm.trans ((warpAt_eq hk).symm.trans hy))
  exact ⟨hrest, hcores, hcore, hgroups, ⟨k, hk, hkept.rest, hkept.sreg, hkept.others⟩, hregs.vreg, hregs.pred, hregs.cond,
    hregs.prods, hregs.toks, hregs.part, hregs.rbase⟩

end Sys2Proof.Proofs
end

