-- ==== Sys2Proof/Proofs/MemoryForm.lean ====
section
/-!
What it is for an outcome to leave memory in its canonical form (`Inv`),
  for each type of outcome that the model's functions have.
A function that writes no memory leaves it as it was (`f_mem`); one that writes keeps its form (`f_formed`).
-/
namespace Sys2Proof.Proofs
open Sys2Proof.Machine

/-- Memory in its canonical form: `Inv` as a property of the memory. -/
def Formed (m : List Host.Cell) : Prop := Memory.wf m = true

@[simp] theorem inv_iff {s : State} : Inv s ↔ Formed s.mem := Iff.rfl

theorem formed {s : State} (h : Inv s) : Formed s.mem := h

/-- The next state, if there is one, has memory in its form. -/
def OutFormed : Out → Prop
  | .next t => Formed t.mem
  | _ => True

def ResFormed : Res → Prop
  | .done t | .jump t | .hold _ t | .issued _ t | .trap _ _ _ _ t => Formed t.mem

def OptFormed : Option State → Prop
  | some t => Formed t.mem
  | none => True

def UnitFormed : UnitOut → Prop
  | .ok _ t | .wait _ t | .fault _ t => Formed t.mem

def RowsFormed : RowsT → Prop
  | .ok _ t | .page _ t | .stop _ t => Formed t.mem

def MovedFormed : Moved → Prop
  | .ok t | .page _ t | .stop _ t | .full t => Formed t.mem

def TResFormed : TRes → Prop
  | .ok _ t | .trap _ _ _ _ t | .wait t => Formed t.mem

def EntryFormed : EntryOut → Prop
  | .ok t | .drop t | .faulted t => Formed t.mem
  | .stall => True

def WorkFormed : WorkOut → Prop
  | .next _ t => Formed t.mem
  | .halt _ => True

/-! ### Each end's own condition -/

section ends
variable {t : State}

@[simp] theorem outFormed_next : OutFormed (.next t) ↔ Formed t.mem := Iff.rfl
@[simp] theorem outFormed_fault (e : Fault) : OutFormed (.fault e) := trivial
@[simp] theorem outFormed_refused (e : Refusal) : OutFormed (.refused e) := trivial
@[simp] theorem resFormed_done : ResFormed (.done t) ↔ Formed t.mem := Iff.rfl
@[simp] theorem resFormed_jump : ResFormed (.jump t) ↔ Formed t.mem := Iff.rfl
@[simp] theorem resFormed_hold (b : Block) : ResFormed (.hold b t) ↔ Formed t.mem := Iff.rfl
@[simp] theorem resFormed_issued (b : Block) : ResFormed (.issued b t) ↔ Formed t.mem := Iff.rfl
@[simp] theorem resFormed_trap (c : Cause) (m : W32) (a k : Nat) : ResFormed (.trap c m a k t) ↔ Formed t.mem := Iff.rfl
@[simp] theorem optFormed_some : OptFormed (some t) ↔ Formed t.mem := Iff.rfl
@[simp] theorem optFormed_none : OptFormed none := trivial
@[simp] theorem unitFormed_ok (bs : List Byte) : UnitFormed (.ok bs t) ↔ Formed t.mem := Iff.rfl
@[simp] theorem unitFormed_wait (p : Nat) : UnitFormed (.wait p t) ↔ Formed t.mem := Iff.rfl
@[simp] theorem unitFormed_fault (c : Cause) : UnitFormed (.fault c t) ↔ Formed t.mem := Iff.rfl
@[simp] theorem rowsFormed_ok (rs : List (List (Nat × Nat))) : RowsFormed (.ok rs t) ↔ Formed t.mem := Iff.rfl
@[simp] theorem rowsFormed_page (va : Nat) : RowsFormed (.page va t) ↔ Formed t.mem := Iff.rfl
@[simp] theorem rowsFormed_stop (c : Cause) : RowsFormed (.stop c t) ↔ Formed t.mem := Iff.rfl
@[simp] theorem movedFormed_ok : MovedFormed (.ok t) ↔ Formed t.mem := Iff.rfl
@[simp] theorem movedFormed_page (va : Nat) : MovedFormed (.page va t) ↔ Formed t.mem := Iff.rfl
@[simp] theorem movedFormed_stop (c : Cause) : MovedFormed (.stop c t) ↔ Formed t.mem := Iff.rfl
@[simp] theorem movedFormed_full : MovedFormed (.full t) ↔ Formed t.mem := Iff.rfl
@[simp] theorem tResFormed_ok (ps : List (Nat × Nat × TlbEntry)) : TResFormed (.ok ps t) ↔ Formed t.mem := Iff.rfl
@[simp] theorem tResFormed_trap (c : Cause) (m : W32) (a k : Nat) :
    TResFormed (.trap c m a k t) ↔ Formed t.mem := Iff.rfl
@[simp] theorem tResFormed_wait : TResFormed (.wait t) ↔ Formed t.mem := Iff.rfl
@[simp] theorem entryFormed_ok : EntryFormed (.ok t) ↔ Formed t.mem := Iff.rfl
@[simp] theorem entryFormed_drop : EntryFormed (.drop t) ↔ Formed t.mem := Iff.rfl
@[simp] theorem entryFormed_faulted : EntryFormed (.faulted t) ↔ Formed t.mem := Iff.rfl
@[simp] theorem entryFormed_stall : EntryFormed .stall := trivial
@[simp] theorem workFormed_next (ws : List Work) : WorkFormed (.next ws t) ↔ Formed t.mem := Iff.rfl
@[simp] theorem workFormed_halt (k : Halt) : WorkFormed (.halt k) := trivial
end ends

section branches
variable {c : Prop} [Decidable c]

@[simp] theorem mem_ite (s t : State) : (if c then s else t).mem = if c then s.mem else t.mem := apply_ite ..
@[simp] theorem snd_mem_ite {α : Type} (p q : α × State) :
    (if c then p else q).2.mem = if c then p.2.mem else q.2.mem := apply_ite (fun r : α × State => r.2.mem) ..
@[simp] theorem snd_snd_mem_ite {α β : Type} (p q : α × β × State) :
    (if c then p else q).2.2.mem = if c then p.2.2.mem else q.2.2.mem := apply_ite (fun r : α × β × State => r.2.2.mem) ..
@[simp] theorem outFormed_ite (o p : Out) : OutFormed
  (if c then o else p) = if c then OutFormed o else OutFormed p := apply_ite ..
@[simp] theorem resFormed_ite (o p : Res) : ResFormed
  (if c then o else p) = if c then ResFormed o else ResFormed p := apply_ite ..
@[simp] theorem optFormed_ite (o p : Option State) :
    OptFormed (if c then o else p) = if c then OptFormed o else OptFormed p := apply_ite ..
@[simp] theorem unitFormed_ite (o p : UnitOut) :
    UnitFormed (if c then o else p) = if c then UnitFormed o else UnitFormed p := apply_ite ..
@[simp] theorem formed_ite (m n : List Host.Cell) : Formed (if c then m else n) = if c then Formed m else Formed n :=
  apply_ite ..
@[simp] theorem rowsFormed_ite (o p : RowsT) :
    RowsFormed (if c then o else p) = if c then RowsFormed o else RowsFormed p := apply_ite ..
@[simp] theorem movedFormed_ite (o p : Moved) :
    MovedFormed (if c then o else p) = if c then MovedFormed o else MovedFormed p := apply_ite ..
@[simp] theorem tResFormed_ite (o p : TRes) :
    TResFormed (if c then o else p) = if c then TResFormed o else TResFormed p := apply_ite ..
@[simp] theorem entryFormed_ite (o p : EntryOut) :
    EntryFormed (if c then o else p) = if c then EntryFormed o else EntryFormed p := apply_ite ..
@[simp] theorem workFormed_ite (o p : WorkOut) :
    WorkFormed (if c then o else p) = if c then WorkFormed o else WorkFormed p := apply_ite ..
end branches

section folds
variable {α : Type} {f : State → α → State}

/-- A fold's step that leaves memory as it was. -/
def LeavesMem (f : State → α → State) : Prop := ∀ s a, (f s a).mem = s.mem

/-- A fold's step that keeps memory's form. -/
def KeepsForm (f : State → α → State) : Prop := ∀ s a, Formed s.mem → Formed (f s a).mem

@[simp] theorem leavesMem_iff : LeavesMem f ↔ ∀ s a, (f s a).mem = s.mem := Iff.rfl

@[simp] theorem keepsForm_iff : KeepsForm f ↔ ∀ s a, Formed s.mem → Formed (f s a).mem := Iff.rfl

@[simp] theorem foldl_mem (hf : LeavesMem f) (l : List α) (s : State) : (l.foldl f s).mem = s.mem :=
  List.foldlRecOn (motive := fun t : State => t.mem = s.mem) _ _ rfl (fun t h a _ => (hf t a).trans h)

@[simp] theorem foldl_formed (hf : KeepsForm f) (l : List α) {s : State} (h : Inv s) :
    Formed (l.foldl f s).mem :=
  List.foldlRecOn (motive := fun t : State => Formed t.mem) _ _ h (fun t ht a _ => hf t a ht)
end folds

/-- The state that a pair carries. -/
theorem formed_of_eq {α : Type} {p : α × State} {a : α} {t : State} (h : Formed p.2.mem) (he : p = (a, t)) :
    Formed t.mem := by
  rw [he] at h
  exact h

theorem formed_of_some {o : Option State} {t : State} (h : OptFormed o) (he : o = some t) : Formed t.mem := by
  rw [he] at h
  exact h

/-! ### Access -/

@[simp] theorem modRegion_mem {s : State} {x r : Nat} {f : Rcb → Rcb} : (modRegion s x r f).mem = s.mem := rfl

@[simp] theorem modLaunch_mem {s : State} {x i : Nat} {f : Launch → Launch} : (modLaunch s x i f).mem = s.mem := rfl

@[simp] theorem freshId_mem {s : State} : (freshId s).2.mem = s.mem := rfl

@[simp] theorem freshFree_mem {s : State} : (freshFree s).2.mem = s.mem := rfl

@[simp] theorem mapWarps_mem {s : State} {f : Nat → Nat → Machine.Group → Nat → Warp → Warp} :
  (mapWarps s f).mem = s.mem := rfl

/-! ### Memory -/

@[simp] theorem l1Drop_mem {s : State} {c line : Nat} : (l1Drop s c line).mem = s.mem := rfl

@[simp] theorem l1Clear_mem {s : State} {c : Nat} : (l1Clear s c).mem = s.mem := rfl

@[simp] theorem l1Fill_mem {s : State} {c line : Nat} : (l1Fill s c line).mem = s.mem := by
  unfold l1Fill
  split <;> simp

@[simp] theorem homeWrite_formed {s : State} {pa : Nat} {bs : List Byte} {chain : Bool} {promo : Option (Nat × Nat)}
  (h : Inv s) : Formed (homeWrite s pa bs chain promo).mem := memory_wf_memSetBytes pa bs h

@[simp] theorem l1Update_mem {s : State} {c pa : Nat} {bs : List Byte} :
  (l1Update s c pa bs).mem = s.mem := Machine.l1Update_mem ..

@[simp] theorem lineWrite_formed {s : State} {pa : Nat} {bs : List Byte} (h : Inv s) : Formed
  (lineWrite s pa bs).mem := lineWrite_inv pa bs h

@[simp] theorem unitWrite_formed {s : State} {pa : Nat} {bs : List Byte} (h : Inv s) : Formed
  (unitWrite s pa bs).mem := unitWrite_inv pa bs h

@[simp] theorem noteOld_mem {s : State} {m : List Host.Cell} {path : Nat} {own : Nat × Nat} {seen : List Nat}
    {role : Option Who} {pa n : Nat} : (noteOld s m path own seen role pa n).mem = s.mem := rfl

@[simp] theorem pathWrite_formed {s : State} {path : Nat} {own : Nat × Nat} {seen : List Nat} {pa : Nat}
    {bs : List Byte} (h : Inv s) : Formed (pathWrite s path own seen pa bs).mem := by
  simp [pathWrite, formed h]

@[simp] theorem noteOldV_mem {s : State} {m : List Host.Cell} {w : Who} {id pa n : Nat} :
  (noteOldV s m w id pa n).mem = s.mem := Machine.noteOldV_mem ..

@[simp] theorem synced_mem {s : State} {w : Who} : (synced s w).mem = s.mem := by
  simp [synced]

@[simp] theorem settleOwned_mem {s : State} {ctx : Nat} {launch : Option Nat} :
  (settleOwned s ctx launch).mem = s.mem := rfl

@[simp] theorem settleUnits_mem {s : State} {ctx : Nat} : (settleUnits s ctx).mem = s.mem := rfl

@[simp] theorem settleDecoders_mem {s : State} {ctx : Nat} : (settleDecoders s ctx).mem = s.mem := rfl

@[simp] theorem sawHome_mem {s : State} {rs : List (Nat × Nat)} : (sawHome s rs).mem = s.mem := by
  simp [sawHome]

@[simp] theorem addToken_mem {s : State} {w : Who} {k : Option Nat} {n : Int} :
  (addToken s w k n).mem = s.mem := Machine.addToken_mem ..

@[simp] theorem retireReq_mem {s : State} {r : Req} : (retireReq s r).mem = s.mem := by
  simp [retireReq]

@[simp] theorem clearPoison_mem {s : State} {r : Req} : (clearPoison s r).mem = s.mem := rfl

@[simp] theorem performStore_formed {s : State} {r : Req} (h : Inv s) : Formed
  (performStore s r).mem := performStore_inv r h

@[simp] theorem drainTo_formed {s : State} {c id : Nat} (h : Inv s) : Formed (drainTo s c id).mem := drainTo_inv c id h

@[simp] theorem drainLines_formed {s : State} {c : Nat} {lines : List Nat} (h : Inv s) : Formed
  (drainLines s c lines).mem := drainLines_inv c lines h

@[simp] theorem hostWriteBytes_formed {s : State} {pa : Nat} {bs : List Byte} (h : Inv s) : Formed
  (hostWriteBytes s pa bs).mem := memory_wf_memSetBytes pa bs h

@[simp] theorem hostPut_formed {s : State} {pa : Nat} {bytes : List Byte} (h : Inv s) :
    Formed (hostPut s pa bytes).mem := by
  simp +contextual [hostPut, formed h]

/-! ### Events -/

@[simp] theorem sendEvent_mem {s : State} {d cls key : Nat} {e : EventRec} {emitter : Option Nat} {tok : Option
  (Who × Nat)} {done : Option (Nat × W32 × W64)} : (sendEvent s d cls key e emitter tok done).mem = s.mem := rfl

@[simp] theorem deviceEvent_mem {s : State} {d cls key stream kind : Nat} {p0 p1 : Nat} {rel : Bool} :
  (deviceEvent s d cls key stream kind p0 p1 rel).mem = s.mem := rfl

/-! ### Charge -/

@[simp] theorem charge_mem {s : State} {x r : Nat} {u : Machine.Use} : (charge s x r u).mem = s.mem := rfl

@[simp] theorem uncharge_mem {s : State} {x r : Nat} {u : Machine.Use} : (uncharge s x r u).mem = s.mem := rfl

@[simp] theorem admitGroup_formed {s : State} {x idx gidx : Nat} {t : Template} (h : Inv s) :
    OptFormed (admitGroup s x idx gidx t) := by
  unfold admitGroup
  dsimp only
  repeat' split
  all_goals simp [formed h]

@[simp] theorem giveBack_mem {s : State} {x idx gidx r : Nat} {u : Machine.Use} :
    (giveBack s x idx gidx r u).mem = s.mem := by
  unfold giveBack
  split
  · rfl
  · rename_i l _
    dsimp only
    rw [uncharge_mem, modLaunch_mem]
    refine List.foldlRecOn
      (motive := fun p : List (Nat × Nat × Nat × Nat × Nat) × State × Machine.Use => p.2.1.mem = s.mem) l.drawn _ rfl
      (fun p hp e _ => ?_)
    split
    · rw [mem_ite]
      simp [hp]
    · exact hp

/-! ### Page -/

@[simp] theorem promoteWalk_formed {fuel : Nat} {s : State} {die pasid ptroot va : Nat} (h : Inv s) :
    Formed (promoteWalk fuel s die pasid ptroot va).mem := by
  induction fuel generalizing s with
  | zero => exact h
  | succ n ih =>
    unfold promoteWalk
    dsimp only
    split
    · exact h
    · exact ih (foldl_formed (fun t e ht => by simp [ht]) _ h)

@[simp] theorem walk_formed {s : State} {die pasid ptroot va : Nat} (h : Inv s) :
    Formed (walk s die pasid ptroot va).2.mem := by
  simp [walk, formed h]

@[simp] theorem tlbFill_mem {s : State} {c : Nat} {e : TlbEntry} : (tlbFill s c e).mem = s.mem := rfl

@[simp] theorem pageRequest_mem {s : State} {die ctx va kind path launch : Nat} :
    (pageRequest s die ctx va kind path launch).mem = s.mem := by
  simp [pageRequest]

@[simp] theorem startPull_formed {s : State} {die pasid va pte rec_ level : Nat} (h : Inv s) :
    OptFormed (startPull s die pasid va pte rec_ level) := by
  unfold startPull
  dsimp only
  repeat' split
  all_goals simp [formed h]

@[simp] theorem answerWalk_formed {s : State} {die ctx va kind path launch : Nat} (h : Inv s) :
    Formed (answerWalk s die ctx va kind path launch).2.mem := by
  unfold answerWalk
  dsimp only
  split
  case h_4 =>
    split
    · rename_i u hu
      exact formed_of_some (startPull_formed (walk_formed h)) hu
    · exact walk_formed h
  all_goals simp [formed h]

@[simp] theorem unitTranslate_formed {s : State} {die ctx va kind path launch : Nat} (h : Inv s) :
    Formed (unitTranslate s die ctx va kind path launch).2.mem := by
  simp [unitTranslate, formed h]

@[simp] theorem engineTranslate_formed {s : State} {c ctx va kind path launch : Nat} (h : Inv s) :
    Formed (engineTranslate s c ctx va kind path launch).2.mem := by
  unfold engineTranslate
  dsimp only
  repeat' split
  all_goals simp [formed h]

@[simp] theorem writeRanges_formed {s : State} {rs : List (Nat × Nat)} {bs : List Byte} (h : Inv s) : Formed
  (writeRanges s rs bs).mem := writeRanges_inv rs bs h

end Sys2Proof.Proofs
end

