-- ==== Sys2Proof/Proofs/MemoryFormIssue.lean ====
section
/-!
Memory's form under the common steps of an issue: faults and traps, the ends of a word,
  translation and the transfers of control.
-/
namespace Sys2Proof.Proofs
open Sys2Proof.Machine

/-! ### Ops -/

@[simp] theorem writeArea_formed {s : State} {x : Nat} {rest : Bool} (h : Inv s) : Formed (writeArea s x rest).mem := by
  simp [writeArea, formed h]

@[simp] theorem settleLazy_formed {s : State} {x : Nat} (h : Inv s) : Formed (settleLazy s x).mem := by
  simp [settleLazy, formed h]

@[simp] theorem writeOut_formed {s : State} {c x : Nat} (h : Inv s) : Formed (writeOut s c x).mem := by
  simp [writeOut, formed h]

@[simp] theorem writeBackRcb_formed {s : State} {x r : Nat} (h : Inv s) : Formed (writeBackRcb s x r).mem := by
  unfold writeBackRcb
  dsimp only
  repeat' split
  all_goals simp [formed h]

@[simp] theorem freeRecord_mem {s : State} {x : Nat} {i : Option Nat} : (freeRecord s x i).mem = s.mem := by
  unfold freeRecord
  split <;> simp

@[simp] theorem freeRecords_mem {s : State} {g : Machine.Group} : (freeRecords s g).mem = s.mem := by
  simp [freeRecords]

@[simp] theorem dropWalksOf_mem {s : State} {c g : Nat} : (dropWalksOf s c g).mem = s.mem := rfl

@[simp] theorem dropGroup_mem {s : State} {c g : Nat} : (dropGroup s c g).mem = s.mem := by
  unfold dropGroup
  cases groupAt s c g with
  | none => rfl
  | some k => exact freeRecords_mem

@[simp] theorem dropLaunches_mem {s : State} {x : Nat} {bad : Launch → Bool} : (dropLaunches s x bad).mem = s.mem := rfl

@[simp] theorem dropGroups_mem {s : State} {x : Nat} {bad : Machine.Group → Bool} :
    (dropGroups s x bad).mem = s.mem := by
  simp [dropGroups]

@[simp] theorem dropSaved_mem {s : State} {x : Nat} {bad : Machine.Group → Bool} : (dropSaved s x bad).mem = s.mem := by
  simp [dropSaved]

@[simp] theorem faultAutomata_mem {s : State} {x : Nat} {bad : Nat → Bool} : (faultAutomata s x bad).mem = s.mem := rfl

@[simp] theorem returnReserves_mem {s : State} {x : Nat} {bad : Launch → Bool} {below : Nat → Bool} :
    (returnReserves s x bad below).mem = s.mem := by
  refine foldl_mem (fun t l => ?_) _ _
  repeat' split
  all_goals rfl

@[simp] theorem stopRegion_formed {s : State} {x dom cause launch die : Nat} (h : Inv s) :
    Formed (stopRegion s x dom cause launch die).mem := by
  unfold stopRegion
  dsimp only
  repeat' split
  all_goals simp [formed h]

@[simp] theorem secondFault_formed {s : State} {x dom cause launch : Nat} {k : Rcb} (h : Inv s) :
    Formed (secondFault s x dom cause launch k).mem := by
  simp [secondFault, formed h]

@[simp] theorem regionFault_formed {s : State} {x r cause launch die : Nat} (h : Inv s) :
    Formed (regionFault s x r cause launch die).mem := by
  unfold regionFault
  dsimp only
  repeat' split
  all_goals simp [formed h]

@[simp] theorem logTrap_formed {s : State} {x die : Nat} {r : TrapRec} (h : Inv s) :
    Formed (logTrap s x die r).2.mem := by
  unfold logTrap
  dsimp only
  repeat' split
  all_goals simp [formed h]

@[simp] theorem recordTrap_formed {s : State} {w : Who} {r : TrapRec} {words : Nat} (h : Inv s) :
    Formed (recordTrap s w r words).mem := by
  unfold recordTrap
  split <;> simp [formed h]

@[simp] theorem takeTrap_formed {s : State} {w : Who} {cause : Cause} {lanes : W32} {addr : Nat} {code words : Nat}
    (h : Inv s) : Formed (takeTrap s w cause lanes addr code words).mem := by
  unfold takeTrap
  split <;> simp [formed h]

@[simp] theorem resumeTrapped_mem {s : State} {c g w : Nat} {pc : TrapRec → Nat → W64} :
    (resumeTrapped s c g w pc).mem = s.mem := by
  unfold resumeTrapped
  dsimp only
  repeat' split
  all_goals simp

@[simp] theorem setRank_mem {s : State} {w : Who} {place : Nat} : (setRank s w place).mem = s.mem := rfl

@[simp] theorem acquireWide_mem {s : State} {w : Who} : (acquireWide s w).mem = s.mem := by
  simp [acquireWide]

@[simp] theorem wakeSplit_mem {s : State} {w : Who} {words : Nat} : (wakeSplit s w words).mem = s.mem := by
  simp [wakeSplit]

@[simp] theorem wakeDone_mem {s : State} {c g : Nat} : (wakeDone s c g).mem = s.mem := by
  unfold wakeDone
  split
  · rfl
  · refine foldl_mem (fun t e => foldl_mem (fun u i => ?_) _ _) _ _
    repeat' split
    all_goals simp

@[simp] theorem finish_formed {x : Iss} {n : Nat} {r : Res} (h : ResFormed r) : OutFormed (finish x n r) := by
  cases r with
  | trap c lanes addr code t =>
    unfold finish
    dsimp only
    split
    · simpa using h
    · exact takeTrap_formed (by simpa using h)
  | _ => simpa [finish] using h

theorem runWord_formed {roles : Roles} {stops : Bool} {n : Nat} {g : Guard} {tw : BitVec 8} {ops : Iss → W32 → List Opd}
    {body : Iss → W32 → State → Res} {s : State} (h : Inv s) (hb : ∀ x m, ResFormed (body x m s)) :
    OutFormed (runWord roles stops n g tw ops body s) := by
  unfold runWord
  split
  · trivial
  · refine finish_formed ?_
    dsimp only
    repeat' split
    all_goals simp [formed h, hb]

/-! ### Operands -/

@[simp] theorem writeLanes_mem {s : State} {x : Iss} {m : W32} {dst n : Nat} {v : Nat → Nat} :
    (writeLanes s x m dst n v).mem = s.mem := by
  simp [writeLanes]

@[simp] theorem vecA2_formed {g : Guard} {f : FA} {na nb nd : Nat} {op : Iss → Nat → Nat → Nat} {s : State} (h : Inv s) :
    OutFormed (vecA2 g f na nb nd op s) := by
  unfold vecA2
  exact runWord_formed h (fun _ _ => by simp [formed h])

@[simp] theorem vecA1_formed {g : Guard} {f : FA} {nb nd : Nat} {op : Iss → Nat → Nat} {s : State} (h : Inv s) :
    OutFormed (vecA1 g f nb nd op s) := by
  unfold vecA1
  exact runWord_formed h (fun _ _ => by simp [formed h])

@[simp] theorem vecAa_formed {g : Guard} {f : FA} {na nd : Nat} {op : Iss → Nat → Nat} {s : State} (h : Inv s) :
    OutFormed (vecAa g f na nd op s) := by
  unfold vecAa
  exact runWord_formed h (fun _ _ => by simp [formed h])

@[simp] theorem vecB3_formed {g : Guard} {f : FB} {na nb nc nd : Nat} {op : Iss → Nat → Nat → Nat → Nat} {s : State}
    (h : Inv s) : OutFormed (vecB3 g f na nb nc nd op s) := by
  unfold vecB3
  exact runWord_formed h (fun _ _ => by simp [formed h])

@[simp] theorem vecCmp_formed {g : Guard} {f : FA} {op : Nat → Nat → Bool} {s : State} (h : Inv s) :
    OutFormed (vecCmp g f op s) := by
  unfold vecCmp
  exact runWord_formed h (fun _ _ => by simp [formed h])

@[simp] theorem sca2_formed {g : Guard} {f : FA} {op : Iss → Nat → Nat → Nat} {s : State} (h : Inv s) :
    OutFormed (sca2 g f op s) := by
  unfold sca2
  exact runWord_formed h (fun _ _ => by simp [formed h])

@[simp] theorem sca1_formed {g : Guard} {f : FA} {op : Iss → Nat → Nat} {s : State} (h : Inv s) :
    OutFormed (sca1 g f op s) := by
  unfold sca1
  exact runWord_formed h (fun _ _ => by simp [formed h])

/-! ### MemOps -/

@[simp] theorem dropWalks_mem {s : State} {x : Iss} : (dropWalks s x).mem = s.mem := rfl

@[simp] theorem openWalk_mem {s : State} {x : Iss} {pasid kind path : Nat} {restart : Bool} {accs : List (Nat × Nat)}
    {va : Nat} : (openWalk s x pasid kind path restart accs va).mem = s.mem := by
  simp [openWalk]

@[simp] theorem translateLanes_formed {s : State} {x : Iss} {kind path : Nat} {restart : Bool} {accs : List (Nat × Nat)}
    (h : Inv s) : TResFormed (translateLanes s x kind path restart accs) := by
  unfold translateLanes
  dsimp only
  repeat' split
  all_goals simp [formed h]

theorem withTranslation_formed {s : State} {x : Iss} {kind path : Nat} {restart : Bool} {accs : List (Nat × Nat)}
    {k : List (Nat × Nat × TlbEntry) → State → Res} (h : Inv s) (hk : ∀ pas t, Formed t.mem → ResFormed (k pas t)) :
    ResFormed (withTranslation s x kind path restart accs k) := by
  have ht : TResFormed (translateLanes s x kind path restart accs) := translateLanes_formed h
  unfold withTranslation
  split
  · rename_i heq
    rw [heq] at ht
    exact hk _ _ ht
  · rename_i heq
    rw [heq] at ht
    exact ht
  · rename_i heq
    rw [heq] at ht
    exact ht

@[simp] theorem poisonTrap_formed {s : State} {lines : List Nat} {lanes : W32} {addr : Nat} (h : Inv s) :
    ResFormed (poisonTrap s lines lanes addr) := by
  unfold poisonTrap
  split <;> simp [formed h]

@[simp] theorem sendReqs_mem {s : State} {x : Iss} {kind : ReqKind} {w scope ord : Nat} {tok : Option Nat}
    {l1ok sync : Bool} {groups : List (List LaneAcc)} {chain : Bool} {sys : Nat → Bool} :
    (sendReqs s x kind w scope ord tok l1ok sync groups chain sys).2.mem = s.mem := by
  unfold sendReqs
  refine List.foldlRecOn (motive := fun p : List (Nat × W32) × State => p.2.mem = s.mem) _ _ rfl (fun p hp g _ => ?_)
  simpa using hp

@[simp] theorem addAcqs_mem {s : State} {x : Iss} {ids : List (Nat × W32)} {scope : Nat} :
    (addAcqs s x ids scope).mem = s.mem := by
  simp [addAcqs]

@[simp] theorem noteWrites_mem {s : State} {w : Who} {lines : List Nat} : (noteWrites s w lines).mem = s.mem := by
  simp [noteWrites]

@[simp] theorem noteObs_mem {s : State} {c : Nat} {q : List Req} {rs : List (Nat × Nat)} :
    (noteObs s c q rs).mem = s.mem := by
  simp [noteObs]

@[simp] theorem acquireAt_formed {s : State} {r : Req} (h : Inv s) : Formed (acquireAt s r).mem := by
  have hdrain : ∀ l : List (Nat × Nat), Inv (l.foldl (fun s e => drainTo s e.1 e.2) s) :=
    fun l => foldl_formed (fun _ _ ht => drainTo_formed ht) l h
  unfold acquireAt
  dsimp only
  split
  · rw [l1Clear_mem]
    split
    · exact hdrain _
    · split <;> simp [formed h]
  · split
    · exact hdrain _
    · split <;> simp [formed h]

@[simp] theorem readNow_formed {s : State} {r : Req} (h : Inv s) : Formed (readNow s r).mem := by
  simp [readNow, formed h]

@[simp] theorem specStop_formed {s : State} {x : Iss} (h : Inv s) : ResFormed (specStop s x) := by
  simp [specStop, formed h]

/-! ### BarOps -/

@[simp] theorem setBar_mem {s : State} {c g b : Nat} {v : Bar} : (setBar s c g b v).mem = s.mem := by
  simp [setBar]

@[simp] theorem commitBuf_formed {s : State} {c g w : Nat} {p : Spec} (h : Inv s) :
    Formed (commitBuf s c g w p).mem := by
  simp +contextual [commitBuf, formed h]

@[simp] theorem commit_formed {s : State} {c g w : Nat} {p : Spec} (h : Inv s) : Formed (commit s c g w p).mem := by
  simp [commit, formed h]

@[simp] theorem completePhase_formed {s : State} {c g b : Nat} (h : Inv s) : Formed (completePhase s c g b).mem := by
  unfold completePhase
  split
  · exact h
  · refine foldl_formed (fun t w ht => ?_) _ (foldl_formed (fun t e ht => ?_) _ ?_)
    · repeat' split
      all_goals simp [ht]
    · repeat' split
      all_goals simp [ht]
    · simp [formed h]

@[simp] theorem squashBy_mem {s : State} {c g : Nat} {lines : List Nat} : (squashBy s c g lines).mem = s.mem := by
  simp [squashBy]

@[simp] theorem arrive_formed {s : State} {c g w b count : Nat} {spec : Bool} (h : Inv s) :
    Formed (arrive s c g w b count spec).mem := by
  unfold arrive
  dsimp only
  repeat' split
  all_goals simp [formed h]

@[simp] theorem exitCompletes_formed {s : State} {c g : Nat} (h : Inv s) : Formed (exitCompletes s c g).mem := by
  refine foldl_formed (fun t b ht => ?_) _ h
  repeat' split
  all_goals simp [ht]

@[simp] theorem freeWarp_mem {s : State} {c g w : Nat} : (freeWarp s c g w).mem = s.mem := by
  unfold freeWarp
  split <;> simp

@[simp] theorem checkExit_formed {s : State} {c g w : Nat} (h : Inv s) : Formed (checkExit s c g w).mem := by
  unfold checkExit
  split <;> simp [formed h]

/-! ### Control -/

theorem runWordIf_formed {bad : Iss → Bool} {roles : Roles} {stops : Bool} {g : Guard} {ops : Iss → W32 → List Opd}
    {body : Iss → W32 → State → Res} {s : State} (h : Inv s) (hb : ∀ x m, ResFormed (body x m s)) :
    OutFormed (runWordIf bad roles stops g ops body s) := by
  unfold runWordIf
  split
  · trivial
  · split
    · exact finish_formed h
    · exact runWord_formed h hb

@[simp] theorem placeLanes_mem {s : State} {x : Iss} {nx : Nat → W64} : (placeLanes s x nx).mem = s.mem := by
  unfold placeLanes
  dsimp only
  repeat' split
  all_goals simp

@[simp] theorem transfer_mem {s : State} {x : Iss} {moving : W32} {t : Nat → W64} :
    (transfer s x moving t).mem = s.mem := by
  simp [transfer]

theorem checkTargets_formed {s : State} {ts : List (Nat × W64)} {k : State → Res} (h : Inv s) (hk : ResFormed (k s)) :
    ResFormed (checkTargets s ts k) := by
  unfold checkTargets
  dsimp only
  repeat' split
  all_goals simp [formed h, hk]

@[simp] theorem execBra_formed {g : Guard} {f : FJ} {s : State} (h : Inv s) : OutFormed (execBra g f s) := by
  unfold execBra
  exact runWord_formed h (fun _ _ => by simp [formed h])

@[simp] theorem execBrc_formed {g : Guard} {f : FJ} {s : State} (h : Inv s) : OutFormed (execBrc g f s) := by
  unfold execBrc
  exact runWord_formed h (fun _ _ => by simp [formed h])

@[simp] theorem execBrv_formed {g : Guard} {f : FJ} {s : State} (h : Inv s) : OutFormed (execBrv g f s) := by
  unfold execBrv
  exact runWord_formed h (fun _ _ => by simp [formed h])

@[simp] theorem execCall_formed {g : Guard} {f : FJ} {s : State} (h : Inv s) : OutFormed (execCall g f s) := by
  unfold execCall
  exact runWordIf_formed h (fun _ _ => by simp [formed h])

@[simp] theorem execRet_formed {g : Guard} {f : FJ} {s : State} (h : Inv s) : OutFormed (execRet g f s) := by
  unfold execRet
  exact runWordIf_formed h (fun _ _ => checkTargets_formed h (by simp [formed h]))

@[simp] theorem execBrx_formed {g : Guard} {f : FJ} {s : State} (h : Inv s) : OutFormed (execBrx g f s) := by
  unfold execBrx
  refine runWord_formed h (fun x m => ?_)
  dsimp only
  split
  · simp [formed h]
  · refine withTranslation_formed h (fun pas t ht => ?_)
    repeat' split
    all_goals simp [checkTargets, formed ht]

@[simp] theorem execJoin_formed {g : Guard} {_f : FJ} {s : State} (h : Inv s) : OutFormed (execJoin g _f s) := by
  unfold execJoin
  exact runWord_formed h (fun _ _ => by simp [formed h])

@[simp] theorem execExit_formed {g : Guard} {_f : FJ} {s : State} (h : Inv s) : OutFormed (execExit g _f s) := by
  unfold execExit
  generalize hr : runWord _ _ _ _ _ _ _ _ = o
  have ho : OutFormed o := hr ▸ runWord_formed h (fun _ _ => by simp [formed h])
  cases o with
  | next t => exact checkExit_formed ho
  | fault e => trivial
  | refused e => trivial

@[simp] theorem execNop_formed {g : Guard} {_f : FJ} {s : State} (h : Inv s) : OutFormed (execNop g _f s) := by
  unfold execNop
  exact runWord_formed h (fun _ _ => by simp [formed h])

@[simp] theorem execYield_formed {g : Guard} {_f : FJ} {s : State} (h : Inv s) : OutFormed (execYield g _f s) := by
  unfold execYield
  exact runWord_formed h (fun _ _ => by simp [formed h])

@[simp] theorem execRegion_formed {g : Guard} {_f : FJ} {s : State} (h : Inv s) : OutFormed (execRegion g _f s) := by
  unfold execRegion
  exact runWord_formed h (fun _ _ => by simp [formed h])

@[simp] theorem execSetfmt_formed {g : Guard} {f : FI} {s : State} (h : Inv s) : OutFormed (execSetfmt g f s) := by
  unfold execSetfmt
  exact runWord_formed h (fun _ _ => by simp [formed h])

@[simp] theorem execGetfmt_formed {g : Guard} {f : FA} {s : State} (h : Inv s) : OutFormed (execGetfmt g f s) := by
  unfold execGetfmt
  exact runWord_formed h (fun _ _ => by simp [formed h])

@[simp] theorem execGetsr_formed {g : Guard} {f : FI} {s : State} (h : Inv s) : OutFormed (execGetsr g f s) := by
  unfold execGetsr
  exact runWordIf_formed h (fun _ _ => by simp [formed h])

@[simp] theorem execPlog_formed {g : Guard} {f : FA} {s : State} (h : Inv s) : OutFormed (execPlog g f s) := by
  unfold execPlog
  exact runWord_formed h (fun _ _ => by simp [formed h])

end Sys2Proof.Proofs
end

