-- ==== Sys2Proof/Proofs/MemoryFormAccesses.lean ====
section
/-!
Memory's form under the accesses: loads and stores, atomics and their homes, barriers, full/empty and stages, and the PLU.
-/
namespace Sys2Proof.Proofs
open Sys2Proof.Machine

/-! ### Mem -/

theorem withLanes_formed {s : State} {x : Iss} {kind w : Nat} {accs : List (Nat × Nat)}
    {k : List (Nat × Nat × TlbEntry) → State → Res} (h : Inv s) (hk : ∀ pas t, Machine.Inv t → ResFormed (k pas t)) :
    ResFormed (withLanes s x kind w accs k) := by
  unfold withLanes
  dsimp only
  split
  · exact h
  · exact withTranslation_formed h hk

theorem withClean_formed {s : State} {store : Bool} {w : Nat} {accs : List (Nat × Nat)} {pas : List (Nat × Nat × TlbEntry)}
    {k : State → Res} (h : Inv s) (hk : ResFormed (k s)) : ResFormed (withClean s store w accs pas k) := by
  unfold withClean
  dsimp only
  split
  · exact hk
  · exact poisonTrap_formed h

@[simp] theorem squashCore_mem {s : State} {c : Nat} {lines : List Nat} : (squashCore s c lines).mem = s.mem := rfl

theorem specLoad_formed {s : State} {x : Iss} {p : Spec} {r : Req} {k : List (Nat × Nat) → State → Res} (h : Inv s)
    (hk : ∀ vs t, Machine.Inv t → ResFormed (k vs t)) : ResFormed (specLoad s x p r k) := by
  unfold specLoad
  split
  · exact h
  · split
    · exact specStop_formed h
    · exact hk _ _ (by simp [formed h])

@[simp] theorem sendNow_mem {s : State} {x : Iss} {w : Nat} {vals : List (Nat × Nat)} :
    (sendNow s x w vals).2.mem = s.mem := rfl

@[simp] theorem loadLanes_formed {s : State} {x : Iss} {w dst : Nat} {tok : Option Nat} {scope ord : Nat}
    {sync l1 : Bool} {pas : List (Nat × Nat)} (h : Inv s) :
    ResFormed (loadLanes s x w dst tok scope ord sync l1 pas) := by
  unfold loadLanes
  dsimp only
  split
  · exact specLoad_formed h (fun vs t ht => by simp [formed ht])
  · simp [formed h]

@[simp] theorem storeLanes_formed {s : State} {x : Iss} {w : Nat} {tok : Option Nat} {scope ord : Nat} {sync : Bool}
    {pas : List (Nat × Nat × Nat)} (h : Inv s) : ResFormed (storeLanes s x w tok scope ord sync pas) := by
  unfold storeLanes
  dsimp only
  repeat' split
  all_goals simp [formed h]

@[simp] theorem loadWord_formed {g : Guard} {f : FM} {sync : Bool} {s : State} (h : Inv s) :
    OutFormed (loadWord g f sync s) := by
  unfold loadWord
  exact runWord_formed h (fun _ _ => withLanes_formed h (fun _ _ ht => withClean_formed ht (loadLanes_formed ht)))

@[simp] theorem storeWord_formed {g : Guard} {f : FM} {sync : Bool} {s : State} (h : Inv s) :
    OutFormed (storeWord g f sync s) := by
  unfold storeWord
  exact runWord_formed h (fun _ _ => withLanes_formed h (fun _ _ ht => withClean_formed ht (storeLanes_formed ht)))

@[simp] theorem execLd_formed {g : Guard} {f : FM} {s : State} (h : Inv s) : OutFormed (execLd g f s) := by
  simp [execLd, formed h]

@[simp] theorem execSt_formed {g : Guard} {f : FM} {s : State} (h : Inv s) : OutFormed (execSt g f s) := by
  simp [execSt, formed h]

@[simp] theorem execLdx_formed {g : Guard} {f : FM} {s : State} (h : Inv s) : OutFormed (execLdx g f s) := by
  simp [execLdx, formed h]

@[simp] theorem execStx_formed {g : Guard} {f : FM} {s : State} (h : Inv s) : OutFormed (execStx g f s) := by
  simp [execStx, formed h]

theorem withWindow_formed {s : State} {x : Iss} {w : Nat} {offs : List (Nat × Int)} {k : List (Nat × Nat) → Res} (h : Inv s)
    (hk : ∀ l, ResFormed (k l)) : ResFormed (withWindow s x w offs k) := by
  unfold withWindow
  dsimp only
  repeat' split
  · exact h
  · exact h
  · exact hk _

@[simp] theorem execLdl_formed {g : Guard} {f : FM} {s : State} (h : Inv s) : OutFormed (execLdl g f s) := by
  unfold execLdl
  refine runWord_formed h (fun x m => withWindow_formed h (fun offs => ?_))
  dsimp only
  split
  · exact poisonTrap_formed h
  · split
    · exact h
    · exact loadLanes_formed h

@[simp] theorem execStl_formed {g : Guard} {f : FM} {s : State} (h : Inv s) : OutFormed (execStl g f s) := by
  unfold execStl
  refine runWord_formed h (fun x m => withWindow_formed h (fun offs => ?_))
  dsimp only
  split
  · exact poisonTrap_formed h
  · split
    · exact h
    · exact storeLanes_formed h

theorem withWide_formed {s : State} {x : Iss} {m : W32} {kind w va : Nat} {k : List (Nat × Nat × TlbEntry) → State → Res}
    (h : Inv s) (hk : ∀ pas t, Machine.Inv t → ResFormed (k pas t)) : ResFormed (withWide s x m kind w va k) :=
  withLanes_formed h (fun _ _ ht => hk _ _ ht)

theorem wideClean_formed {s : State} {m : W32} {va : Nat} {pas : List (Nat × Nat × TlbEntry)} {k : State → Res} (h : Inv s)
    (hk : ResFormed (k s)) : ResFormed (wideClean s m va pas k) := by
  unfold wideClean
  split
  · exact poisonTrap_formed h
  · exact hk

@[simp] theorem execLdu_formed {g : Guard} {f : FM} {s : State} (h : Inv s) : OutFormed (execLdu g f s) := by
  unfold execLdu
  refine runWord_formed h (fun x m => withWide_formed h (fun pas t ht => wideClean_formed ht ?_))
  split
  · exact specLoad_formed ht (fun vs u hu => by simp [formed hu])
  · simp [formed ht]

@[simp] theorem execStu_formed {g : Guard} {f : FM} {s : State} (h : Inv s) : OutFormed (execStu g f s) := by
  unfold execStu
  exact runWord_formed h (fun _ _ => withWide_formed h (fun _ _ ht => wideClean_formed ht (storeLanes_formed ht)))

@[simp] theorem prefetch_formed {s : State} {x : Iss} {va : Nat} (h : Inv s) : Formed (prefetch s x va).mem := by
  unfold prefetch
  split <;> simp [formed h]

@[simp] theorem execPref_formed {g : Guard} {f : FM} {s : State} (h : Inv s) : OutFormed (execPref g f s) := by
  unfold execPref
  exact runWord_formed h (fun _ _ => foldl_formed (fun _ _ ht => prefetch_formed ht) _ h)

@[simp] theorem execInvl1_formed {g : Guard} {f : FM} {s : State} (h : Inv s) : OutFormed (execInvl1 g f s) := by
  unfold execInvl1
  exact runWord_formed h (fun _ _ => by simp [formed h])

@[simp] theorem execWaitk_formed {g : Guard} {f : FM} {s : State} (h : Inv s) : OutFormed (execWaitk g f s) := by
  unfold execWaitk
  exact runWord_formed h (fun _ _ => by simp [formed h])

@[simp] theorem fenceAcquire_formed {s : State} {x : Iss} {scope : Nat} (h : Inv s) :
    Formed (fenceAcquire s x scope).mem := by
  simp +contextual [fenceAcquire, formed h]

@[simp] theorem fenceRelease_mem {s : State} {x : Iss} {scope : Nat} : (fenceRelease s x scope).mem = s.mem := by
  simp [fenceRelease]

@[simp] theorem execFence_formed {g : Guard} {f : FM} {s : State} (h : Inv s) : OutFormed (execFence g f s) := by
  unfold execFence
  exact runWord_formed h (fun _ _ => by simp [formed h])

@[simp] theorem fencexSee_mem {s : State} {x : Iss} {src dst : Nat} : (fencexSee s x src dst).mem = s.mem := by
  simp [fencexSee]

@[simp] theorem execFencex_formed {g : Guard} {f : FM} {s : State} (h : Inv s) : OutFormed (execFencex g f s) := by
  unfold execFencex
  exact runWord_formed h (fun _ _ => by simp [formed h])

/-! ### Atomic -/

theorem withAtomic_formed {s : State} {x : Iss} {w : Nat} {accs : List (Nat × Nat)}
    {k : List (Nat × Nat × TlbEntry) → State → Res} (h : Inv s) (hk : ∀ pas t, Machine.Inv t → ResFormed (k pas t)) :
    ResFormed (withAtomic s x w accs k) :=
  withLanes_formed h (fun pas t ht => by
    dsimp only
    split
    · exact ht
    · exact withClean_formed ht (hk _ _ ht))

@[simp] theorem sendAtomic_formed {s : State} {x : Iss} {kind : ReqKind} {w scope ord : Nat} {tok : Option Nat}
    {dst : Option (Nat × Nat)} {groups : List (List LaneAcc)} {sys : Nat → Bool} (h : Inv s) :
    ResFormed (sendAtomic s x kind w scope ord tok dst groups sys) := by
  unfold sendAtomic
  dsimp only
  repeat' split
  all_goals simp [formed h]

@[simp] theorem execAtom_formed {g : Guard} {f : FAtom} {s : State} (h : Inv s) : OutFormed (execAtom g f s) := by
  unfold execAtom
  exact runWord_formed h (fun _ _ => withAtomic_formed h (fun _ _ ht => sendAtomic_formed ht))

@[simp] theorem execAtomr_formed {g : Guard} {f : FAtomr} {s : State} (h : Inv s) : OutFormed (execAtomr g f s) := by
  unfold execAtomr
  exact runWord_formed h (fun _ _ => withAtomic_formed h (fun _ _ ht => sendAtomic_formed ht))

@[simp] theorem execCas_formed {g : Guard} {f : FAtom} {s : State} (h : Inv s) : OutFormed (execCas g f s) := by
  unfold execCas
  exact runWord_formed h (fun _ _ => withAtomic_formed h (fun _ _ ht => sendAtomic_formed ht))

theorem withPair_formed {s : State} {x : Iss} {w : Nat} {as : List (Nat × Nat × Nat)}
    {k : List (Nat × TlbEntry × Nat × TlbEntry × Nat) → State → Res} (h : Inv s)
    (hk : ∀ rs t, Machine.Inv t → ResFormed (k rs t)) :
    ResFormed (withPair s x w as k) :=
  withLanes_formed h (fun pas t ht => by
    dsimp only
    split
    · exact ht
    · exact withClean_formed ht (hk _ _ ht))

@[simp] theorem execDcas_formed {g : Guard} {f : FM} {s : State} (h : Inv s) : OutFormed (execDcas g f s) := by
  unfold execDcas
  exact runWord_formed h (fun _ _ => withPair_formed h (fun _ _ ht => sendAtomic_formed ht))

@[simp] theorem execAmov_formed {g : Guard} {f : FM} {s : State} (h : Inv s) : OutFormed (execAmov g f s) := by
  unfold execAmov
  exact runWord_formed h (fun _ _ => withPair_formed h (fun _ _ ht => sendAtomic_formed ht))

@[simp] theorem execDatom_formed {g : Guard} {f : FM} {s : State} (h : Inv s) : OutFormed (execDatom g f s) := by
  unfold execDatom
  refine runWord_formed h (fun x m => withLanes_formed h (fun pas t ht => ?_))
  dsimp only
  split
  · exact ht
  · refine withClean_formed ht ?_
    split
    · exact regionFault_formed ht
    · simp [formed ht]

@[simp] theorem pushReturn_mem {s : State} {r : Req} {vals : List (Nat × Nat)} :
    (pushReturn s r vals).mem = s.mem := rfl

@[simp] theorem performAtom_formed {s : State} {r : Req} (h : Inv s) : Formed (performAtom s r).mem := by
  simp +contextual [performAtom, formed h]

@[simp] theorem performLoad_mem {s : State} {r : Req} {olds : List Nat} : (performLoad s r olds).mem = s.mem := by
  simp [performLoad]

@[simp] theorem performOst_mem {s : State} {r : Req} : (performOst s r).mem = s.mem := by
  simp [performOst]

@[simp] theorem performAld_mem {s : State} {r : Req} : (performAld s r).mem = s.mem := by
  simp [performAld]

@[simp] theorem perform_formed {s : State} {r : Req} {olds : List Nat } (h : Inv s) :
    Formed (perform s r olds).mem := by
  unfold perform
  dsimp only
  split <;> simp [formed h]

@[simp] theorem hostRead_mem {s : State} {r : Req} : (hostRead s r).mem = s.mem := rfl

@[simp] theorem execHomeAccess_formed {n : Nat} {s : State} (h : Inv s) : OutFormed (execHomeAccess n s) := by
  unfold execHomeAccess
  repeat' split
  all_goals simp [formed h]

@[simp] theorem hostAtomic_formed {aop w pa b : Nat} {s : State} (h : Inv s) :
    Formed (hostAtomic aop w pa b s).mem := by
  simp [hostAtomic, formed h]

@[simp] theorem oldAccess_formed {n : Nat} {words : List Nat} {s : State} (h : Inv s) :
    Formed (oldAccess n words s).mem := by
  unfold oldAccess
  repeat' split
  · exact perform_formed h
  · exact h
  · exact h

@[simp] theorem execLoadReturn_formed {n : Nat} {s : State} (h : Inv s) : OutFormed (execLoadReturn n s) := by
  unfold execLoadReturn
  split <;> simp [formed h]

@[simp] theorem spillRun_formed {s : State} {d : DBuf} (h : Inv s) : OptFormed (spillRun s d) := by
  unfold spillRun
  dsimp only
  repeat' split
  all_goals simp [formed h]

@[simp] theorem datomLogFault_formed {s : State} {x launch die : Nat} (h : Inv s) :
    Formed (datomLogFault s x launch die).mem := by
  unfold datomLogFault
  split <;> simp [formed h]

@[simp] theorem execDatomEntryArrival_formed {n : Nat} {s : State} (h : Inv s) :
    OutFormed (execDatomEntryArrival n s) := by
  unfold execDatomEntryArrival
  dsimp only
  repeat' split
  any_goals simp [formed h]
  all_goals
    refine formed_of_some (spillRun_formed ?_) ‹_›
    simp [formed h]

@[simp] theorem applyWord_formed {s : State} {pa : Nat} {f64 : Bool} {es : List DEntry} (h : Inv s) :
    Formed (applyWord s pa f64 es).mem := by
  simp [applyWord, formed h]

@[simp] theorem execDatomApply_formed {ctx idx : Nat} {s : State} (h : Inv s) :
    OutFormed (execDatomApply ctx idx s) := by
  unfold execDatomApply
  dsimp only
  repeat' split
  all_goals simp +contextual [formed h]

/-! ### Sync -/

theorem orWait_formed {again : Iss → Wait → State → Res} {issue : State → Out} {s : State}
    (ha : ∀ x w, ResFormed (again x w s)) (hs : OutFormed (issue s)) : OutFormed (orWait again issue s) := by
  unfold orWait
  repeat' split
  · trivial
  · exact finish_formed (ha _ _)
  · exact hs

@[simp] theorem beginWait_mem {s : State} {x : Iss} {w : Wait} : (beginWait s x w).mem = s.mem := by
  simp [beginWait]

@[simp] theorem holdAtBar_formed {s : State} {x : Iss} {g : Guard} {b count : Nat} {spec : Bool} (h : Inv s) :
    ResFormed (holdAtBar s x g b count spec) := by
  simp [holdAtBar, formed h]

@[simp] theorem execBar_formed {g : Guard} {f : FI} {s : State} (h : Inv s) : OutFormed (execBar g f s) := by
  unfold execBar
  exact runWord_formed h (fun _ _ => by simp [formed h])

@[simp] theorem execBarspec_formed {g : Guard} {f : FI} {s : State} (h : Inv s) : OutFormed (execBarspec g f s) := by
  unfold execBarspec
  exact runWord_formed h (fun _ _ => withTranslation_formed h (fun _ _ ht => by simp [formed ht]))

@[simp] theorem execBarrierArrival_formed {core gslot wid : Nat} {s : State} (h : Inv s) :
    OutFormed (execBarrierArrival core gslot wid s) := by
  have hcommit : ∀ y : Warp, Formed (y.spec.elim s (commit s core gslot wid)).mem := fun y => by
    cases y.spec with
    | none => exact h
    | some p => exact commit_formed h
  unfold execBarrierArrival
  dsimp only
  repeat' split
  all_goals simp [formed h, hcommit]

theorem withBarWord_formed {s : State} {x : Iss} {m : W32} {f : FM} {k : List (Nat × Nat × TlbEntry) → State → Res}
    (h : Inv s) (hk : ∀ pas t, Machine.Inv t → ResFormed (k pas t)) : ResFormed (withBarWord s x m f k) := by
  unfold withBarWord
  refine withWide_formed h (fun pas t ht => ?_)
  split
  · exact ht
  · exact wideClean_formed ht (hk _ _ ht)

@[simp] theorem execMbara_formed {g : Guard} {f : FM} {s : State} (h : Inv s) : OutFormed (execMbara g f s) := by
  unfold execMbara
  exact runWord_formed h (fun _ _ => withBarWord_formed h (fun _ _ ht => by simp [formed ht]))

@[simp] theorem execMbarw_formed {g : Guard} {f : FM} {s : State} (h : Inv s) : OutFormed (execMbarw g f s) := by
  unfold execMbarw
  exact orWait_formed (fun _ _ => h) (runWord_formed h (fun _ _ => withBarWord_formed h
    (fun _ _ ht => by simp [formed ht])))

@[simp] theorem dropPoll_mem {s : State} {who : Who} {id : Nat} : (dropPoll s who id).mem = s.mem := by
  simp [dropPoll]

@[simp] theorem pollWord_formed {s : State} {who : Who} {sp : Split} {va pa q id scope : Nat} {lanes : W32} (h : Inv s) :
    Formed (pollWord s who sp va pa q id scope lanes).mem := by
  simp [pollWord, formed h]

@[simp] theorem execMbarwPoll_formed {core gslot wid slot : Nat} {s : State} (h : Inv s) :
    OutFormed (execMbarwPoll core gslot wid slot s) := by
  unfold execMbarwPoll
  split
  · rename_i k y _ _
    split
    · exact h
    · split
      · split
        · exact h
        · have htr : ∀ {va t r}, engineTranslate s core k.ctx va 2 0 k.launch = (r, t) → Formed t.mem :=
            formed_of_eq (engineTranslate_formed h)
          split
          all_goals
            rename_i heq
            simp [htr heq]
      · exact h
  · exact h

@[simp] theorem execFempty_formed {g : Guard} {f : FA} {s : State} (h : Inv s) : OutFormed (execFempty g f s) := by
  unfold execFempty
  exact runWord_formed h (fun _ _ => by simp [formed h])

@[simp] theorem execFefill_formed {g : Guard} {f : FA} {s : State} (h : Inv s) : OutFormed (execFefill g f s) := by
  unfold execFefill
  exact runWord_formed h (fun _ _ => by simp [formed h])

@[simp] theorem evalStages_mem {s : State} {c g : Nat} : (evalStages s c g).mem = s.mem := by
  unfold evalStages
  split
  · rfl
  · refine foldl_mem (fun t e => foldl_mem (fun u i => ?_) _ _) _ _
    repeat' split
    all_goals simp

@[simp] theorem setStage_mem {s : State} {c g ring stage : Nat} {t : Stage} :
    (setStage s c g ring stage t).mem = s.mem := by
  simp [setStage]

@[simp] theorem stageOp_formed {g : Guard} {f : FI} {op : Stage → Option Stage} {s : State} (h : Inv s) :
    OutFormed (stageOp g f op s) := by
  unfold stageOp
  refine runWord_formed h (fun x m => ?_)
  dsimp only
  repeat' split
  all_goals simp [formed h]

@[simp] theorem execStgfill_formed {g : Guard} {f : FI} {s : State} (h : Inv s) : OutFormed (execStgfill g f s) := by
  simp [execStgfill, formed h]

@[simp] theorem execStgfree_formed {g : Guard} {f : FI} {s : State} (h : Inv s) : OutFormed (execStgfree g f s) := by
  simp [execStgfree, formed h]

@[simp] theorem execStginit_formed {g : Guard} {f : FI} {s : State} (h : Inv s) : OutFormed (execStginit g f s) := by
  unfold execStginit
  exact runWord_formed h (fun _ _ => by simp [formed h])

@[simp] theorem execStgqry_formed {g : Guard} {f : FA} {s : State} (h : Inv s) : OutFormed (execStgqry g f s) := by
  unfold execStgqry
  refine runWord_formed h (fun x m => ?_)
  split <;> simp [formed h]

@[simp] theorem execStgwait_formed {g : Guard} {f : FA} {s : State} (h : Inv s) : OutFormed (execStgwait g f s) := by
  unfold execStgwait
  refine orWait_formed (fun _ _ => h) (runWord_formed h (fun x m => ?_))
  split <;> simp [formed h]

@[simp] theorem execCwait_formed {g : Guard} {f : FI} {s : State} (h : Inv s) : OutFormed (execCwait g f s) := by
  unfold execCwait
  exact orWait_formed (fun _ _ => h) (runWord_formed h (fun x m => by simp [formed h]))

@[simp] theorem execCpoll_formed {g : Guard} {f : FA} {s : State} (h : Inv s) : OutFormed (execCpoll g f s) := by
  unfold execCpoll
  exact runWord_formed h (fun _ _ => by simp [formed h])

/-! ### Plu -/

@[simp] theorem ringDone_formed {s : State} {ring : Nat} {tag : W32} {caddr : W64} {status result : Nat} (h : Inv s) :
    Formed (ringDone s ring tag caddr status result).mem := by
  simp [ringDone, formed h]

@[simp] theorem refreshDom_mem {s : State} {n : Nat} : (refreshDom s n).mem = s.mem := rfl

@[simp] theorem modAuto_mem {s : State} {die i : Nat} {f : Auto → Auto} : (modAuto s die i f).mem = s.mem := rfl

@[simp] theorem discardCand_mem {s : State} {die i : Nat} {c : Cand} : (discardCand s die i c).mem = s.mem := rfl

@[simp] theorem takeEntry_formed {fuel : Nat} {s : State} {die i : Nat} {keep : Option Nat} {n : Nat} (h : Inv s) :
    EntryFormed (takeEntry fuel s die i keep n) := by
  induction fuel generalizing s with
  | zero =>
    unfold takeEntry
    dsimp only
    repeat' split
    all_goals simp +contextual [formed h]
  | succ n ih =>
    unfold takeEntry
    dsimp only
    split
    · simp [formed h]
    · split
      · split
        · rename_i hn _
          cases hn
          exact ih (by simp [formed h])
        · simp [formed h]
      all_goals simp +contextual [formed h]

@[simp] theorem acceptCand_formed {s : State} {die i : Nat} {c : Cand} {status stamp : Nat} (h : Inv s) :
    OptFormed (acceptCand s die i c status stamp) := by
  unfold acceptCand
  dsimp only
  repeat' split
  all_goals simp [formed h]

@[simp] theorem putCand_mem {s : State} {die i : Nat} {c : Cand} : (putCand s die i c).mem = s.mem := rfl

@[simp] theorem enterLoc_mem {s : State} {die i : Nat} {c : Cand} {e : EventRec} :
    (enterLoc s die i c e).2.mem = s.mem := by
  simp [enterLoc]

@[simp] theorem workStep_formed {s : State} {die : Nat} {w : Work} (h : Inv s) : WorkFormed (workStep s die w) := by
  have hent : ∀ {f i k n t}, takeEntry f s die i k n = .ok t ∨ takeEntry f s die i k n = .drop t ∨
      takeEntry f s die i k n = .faulted t → Formed t.mem := fun {f i k n t} ht => by
    have he : EntryFormed (takeEntry f s die i k n) := takeEntry_formed h
    rcases ht with ht | ht | ht
    all_goals
      rw [ht] at he
      exact he
  have hacc : ∀ {i c k p t}, acceptCand s die i c k p = some t → Formed t.mem := formed_of_some (acceptCand_formed h)
  unfold workStep
  dsimp only
  repeat' split
  any_goals simp [formed h]
  any_goals exact hacc ‹_›
  any_goals exact hent (.inl ‹_›)
  any_goals exact hent (.inr (.inl ‹_›))
  all_goals exact hent (.inr (.inr ‹_›))

@[simp] theorem runWork_formed {fuel : Nat} {s : State} {n : Nat} {ws : List Work} (h : Inv s) :
    Formed (runWork fuel s n ws).mem := by
  induction fuel generalizing s ws with
  | zero => cases ws <;> simp [runWork, formed h]
  | succ fuel ih =>
    cases ws with
    | nil => simp [runWork, formed h]
    | cons w r =>
      have hw : WorkFormed (workStep s (domOf s n).die w) := workStep_formed h
      unfold runWork
      split
      · simp [formed h]
      · rename_i heq
        rw [heq] at hw
        exact ih (by simpa using hw)

/-! ### PluSteps -/

@[simp] theorem takenIn_formed {s : State} {i : Intake} (h : Inv s) : Formed (takenIn s i).mem := by
  unfold takenIn
  dsimp only
  repeat' split
  all_goals simp [formed h]

@[simp] theorem takeOff_mem {s : State} {die n : Nat} : (takeOff s die n).mem = s.mem := rfl

@[simp] theorem takeRecord_formed {s : State} {die n : Nat} {i : Intake} (h : Inv s) :
    Formed (takeRecord s die n i).mem := by
  unfold takeRecord
  dsimp only
  repeat' split
  all_goals simp [formed h]

@[simp] theorem takeMarker_formed {s : State} {die n : Nat} {i : Intake} (h : Inv s) :
    Formed (takeMarker s die n i).mem := by
  simp [takeMarker, formed h]

@[simp] theorem execEventIntake_formed {die n : Nat} {s : State} (h : Inv s) : OutFormed (execEventIntake die n s) := by
  unfold execEventIntake
  split <;> simp [formed h]

@[simp] theorem execCloseMarkerIntake_formed {die n : Nat} {s : State} (h : Inv s) :
    OutFormed (execCloseMarkerIntake die n s) := by
  unfold execCloseMarkerIntake
  split <;> simp [formed h]

@[simp] theorem endIntake_formed {s : State} {die : Nat} (h : Inv s) : Formed (endIntake s die).mem := by
  unfold endIntake
  repeat' split
  all_goals simp [formed h]

@[simp] theorem ringLate_mem {s : State} {die n : Nat} : (ringLate s die n).mem = s.mem := by
  unfold ringLate
  split <;> simp

@[simp] theorem fillEvent_mem {s : State} {w : Who} {id : Nat} {e : EventRec} : (fillEvent s w id e).mem = s.mem := by
  unfold fillEvent
  dsimp only
  repeat' split
  all_goals simp

@[simp] theorem wakeEvwaits_mem {s : State} {stream : Nat} {e : EventRec} : (wakeEvwaits s stream e).mem = s.mem := by
  refine foldl_mem (fun t e => foldl_mem (fun u y => foldl_mem (fun v i => ?_) _ _) _ _) _ _
  repeat' split
  all_goals simp

@[simp] theorem execEventRelease_formed {dom : Nat} {s : State} (h : Inv s) : OutFormed (execEventRelease dom s) := by
  unfold execEventRelease
  split <;> simp [formed h]

@[simp] theorem execCandidateDeadline_formed {dom : Nat} {s : State} (h : Inv s) :
    OutFormed (execCandidateDeadline dom s) := by
  unfold execCandidateDeadline
  split <;> simp [formed h]

@[simp] theorem execEntryStallResume_formed {dom : Nat} {s : State} (h : Inv s) :
    OutFormed (execEntryStallResume dom s) := by
  unfold execEntryStallResume
  dsimp only
  repeat' split
  all_goals simp [formed h]

@[simp] theorem execPendStallResume_formed {dom : Nat} {s : State} (h : Inv s) :
    OutFormed (execPendStallResume dom s) := by
  unfold execPendStallResume
  dsimp only
  repeat' split
  all_goals simp [formed h]

/-! ### Net -/

@[simp] theorem raiseTx_mem {s : State} {node p : Nat} : (raiseTx s node p).mem = s.mem := by
  unfold raiseTx
  split <;> simp

@[simp] theorem sendAs_mem {s : State} {p : Nat} {b : FlitBody} : (sendAs s p b).2.mem = s.mem := by
  simp [sendAs]

@[simp] theorem sendFlit_mem {s : State} {p : Nat} {b : FlitBody} : (sendFlit s p b).2.mem = s.mem := by
  simp [sendFlit]

@[simp] theorem ackFlits_mem {s : State} {p ack : Nat} : (ackFlits s p ack).mem = s.mem := by
  simp [ackFlits]

@[simp] theorem landLine_formed {s : State} {op pa : Nat} {bs : List Byte} (h : Inv s) :
    Formed (landLine s op pa bs).mem := by
  simp [landLine, formed h]

@[simp] theorem endNak_mem {s : State} {p : Nat} : (endNak s p).mem = s.mem := by
  unfold endNak
  split <;> simp

@[simp] theorem peerPoison_mem {s : State} {core id : Nat} : (peerPoison s core id).mem = s.mem := rfl

end Sys2Proof.Proofs
end

