-- ==== Sys2Proof/Proofs/MemoryFormEngines.lean ====
section
/-!
Memory's form through the copy engines, the arrays, the event instructions, the home units and the Cisterns.
-/
namespace Sys2Proof.Proofs
open Sys2Proof.Machine

/-- The state that a triple carries. -/
theorem formed_of_triple {α β : Type} {p : α × β × State} {a : α} {b : β} {t : State} (h : Formed p.2.2.mem)
    (he : p = (a, b, t)) : Formed t.mem := by
  rw [he] at h
  exact h

/-- A fold of which every step keeps what was moved in memory's form. -/
theorem movedFormed_foldl {α : Type} {f : Moved → α → Moved} (hf : ∀ m a, MovedFormed m → MovedFormed (f m a)) (l : List α)
    {m : Moved} (hm : MovedFormed m) : MovedFormed (l.foldl f m) :=
  List.foldlRecOn (motive := MovedFormed) _ _ hm (fun n hn a _ => hf n a hn)

theorem rowsFormed_foldl {α : Type} {f : RowsT → α → RowsT} (hf : ∀ m a, RowsFormed m → RowsFormed (f m a)) (l : List α)
    {m : RowsT} (hm : RowsFormed m) : RowsFormed (l.foldl f m) :=
  List.foldlRecOn (motive := RowsFormed) _ _ hm (fun n hn a _ => hf n a hn)

/-- A copy's next step on what was moved, of which each end keeps memory's form. -/
theorem movedFormed_ok_of_eq {m : Moved} {t : State} (hm : MovedFormed m) (he : m = .ok t) : Formed t.mem := by
  rw [he] at hm
  exact hm

theorem rowsFormed_ok_of_eq {m : RowsT} {rs : List (List (Nat × Nat))} {t : State} (hm : RowsFormed m) (he : m = .ok rs t) :
    Formed t.mem := by
  rw [he] at hm
  exact hm

/-! ### Copy -/

@[simp] theorem noteFill_mem {s : State} {core : Nat} {c : Copy} : (noteFill s core c).mem = s.mem := rfl

@[simp] theorem copyFill_formed {s : State} {core : Nat} {g : Machine.Group} {c : Copy} (h : Inv s) :
    Formed (copyFill s core g c).mem := by
  unfold copyFill
  dsimp only
  repeat' split
  all_goals simp [formed h]

@[simp] theorem retireCopy_formed {s : State} {core : Nat} {c : Copy} (h : Inv s) :
    Formed (retireCopy s core c).mem := by
  unfold retireCopy
  dsimp only
  repeat' split
  all_goals simp [formed h]

@[simp] theorem copyStart_formed {op : Nat} {g : Guard} {f : FCopy} {s : State} (h : Inv s) :
    OutFormed (copyStart op g f s) := by
  unfold copyStart
  refine runWord_formed h (fun x m => ?_)
  extract_lets a known idx
  clear_value a known idx
  refine iteInduction (fun _ => h) (fun _ => iteInduction (fun _ => h) (fun _ => iteInduction (fun _ => h) (fun _ =>
    iteInduction (fun _ => h) (fun _ => ?_))))
  have hf : Formed (freshId s).2.mem := by simpa using h
  generalize freshId s = p at hf ⊢
  obtain ⟨id, t⟩ := p
  have ht : Formed t.mem := hf
  change ResFormed (let c := copyOf x a f id idx; _)
  extract_lets c
  clear_value c
  dsimp only
  repeat' split
  all_goals simp [ht]

@[simp] theorem execTcopy_formed {g : Guard} {f : FCopy} {s : State} (h : Inv s) : OutFormed (execTcopy g f s) := by
  simp [execTcopy, formed h]

@[simp] theorem execTgather_formed {g : Guard} {f : FCopy} {s : State} (h : Inv s) : OutFormed (execTgather g f s) := by
  simp [execTgather, formed h]

@[simp] theorem execTscatter_formed {g : Guard} {f : FCopy} {s : State} (h : Inv s) :
    OutFormed (execTscatter g f s) := by
  simp [execTscatter, formed h]

@[simp] theorem execTfill_formed {g : Guard} {f : FCopy} {s : State} (h : Inv s) : OutFormed (execTfill g f s) := by
  simp [execTfill, formed h]

@[simp] theorem sidePa_formed {s : State} {core : Nat} {g : Machine.Group} {c : Copy} {space va kind : Nat} (h : Inv s) :
    Formed (sidePa s core g c space va kind).2.2.mem := by
  have htr : ∀ {va k p r t}, engineTranslate s core g.ctx va k p g.launch = (r, t) → Formed t.mem :=
    formed_of_eq (engineTranslate_formed h)
  unfold sidePa
  split
  · split <;> exact h
  · split <;> exact htr ‹_›

@[simp] theorem slotPut_formed {s : State} {core : Nat} {c : Copy} {k a : Nat} {bs : List Byte} (h : Inv s) :
    MovedFormed (slotPut s core c k a bs) := by
  simp [slotPut, formed h]

@[simp] theorem memPut_formed {s : State} {core : Nat} {g : Machine.Group} {c : Copy} {k a pa : Nat} {bs : List Byte}
    (h : Inv s) : MovedFormed (memPut s core g c k a pa bs) := by
  simp +contextual [memPut, formed h]

@[simp] theorem modCopy_mem {s : State} {core id : Nat} {f : Copy → Copy} : (modCopy s core id f).mem = s.mem := rfl

@[simp] theorem goesBy_mem {s : State} {core id p : Nat} : (goesBy s core id p).mem = s.mem := rfl

@[simp] theorem putElement_formed {s : State} {core : Nat} {g : Machine.Group} {c : Copy} {k : Nat} {bs : List Byte}
    (h : Inv s) : MovedFormed (putElement s core g c k bs) := by
  have hs : ∀ {sp va k r b t}, sidePa s core g c sp va k = (r, b, t) → Formed t.mem := formed_of_triple (sidePa_formed h)
  unfold putElement
  dsimp only
  split
  · exact slotPut_formed h
  · split
    · repeat' split
      all_goals simp [formed h]
    · split
      · exact hs ‹_›
      · exact hs ‹_›
      · exact memPut_formed (hs ‹_›)

@[simp] theorem moveElement_formed {s : State} {core : Nat} {g : Machine.Group} {c : Copy} {olds : List Nat} {k : Nat}
    (h : Inv s) : MovedFormed (moveElement s core g c olds k) := by
  have hs : ∀ {sp va k r b t}, sidePa s core g c sp va k = (r, b, t) → Formed t.mem := formed_of_triple (sidePa_formed h)
  unfold moveElement
  dsimp only
  split
  · exact putElement_formed h
  · split
    · repeat' split
      all_goals simp [formed h]
    · split
      · exact hs ‹_›
      · exact hs ‹_›
      · rename_i heq
        split
        · exact hs heq
        · simp [hs heq]

/-- One side of an element made ready. -/
def oneReady (core : Nat) (g : Machine.Group) (c : Copy) (k : Nat) (s : State) (space : Nat) (src : Bool) : Moved :=
  if space ≥ 2 then .ok s
  else match sidePa s core g c space (c.addr src k) (if src then 0 else 1) with
    | (.error f, _, s) => .stop f s
    | (.ok _, true, s) => .page (c.addr src k) s
    | (.ok _, false, s) => .ok s

theorem oneReady_formed {core : Nat} {g : Machine.Group} {c : Copy} {k : Nat} {s : State} {space : Nat} {src : Bool}
    (h : Inv s) : MovedFormed (oneReady core g c k s space src) := by
  have hs : ∀ {sp va k r b t}, sidePa s core g c sp va k = (r, b, t) → Formed t.mem := formed_of_triple (sidePa_formed h)
  unfold oneReady
  split
  · exact h
  · split <;> exact hs ‹_›

@[simp] theorem sideReady_formed {s : State} {core : Nat} {g : Machine.Group} {c : Copy} {k : Nat} (h : Inv s) :
    MovedFormed (sideReady s core g c k) := by
  have hone : MovedFormed (if c.op = 3 then Moved.ok s else oneReady core g c k s c.ssp true) := by
    split
    · exact h
    · exact oneReady_formed h
  change MovedFormed (match (if c.op = 3 then Moved.ok s else oneReady core g c k s c.ssp true) with
    | .ok s => oneReady core g c k s c.dsp false
    | m => m)
  split
  · exact oneReady_formed (movedFormed_ok_of_eq hone ‹_›)
  · exact hone

@[simp] theorem wordOld_mem {before s : State} {core : Nat} {g : Machine.Group} {c : Copy} {k : Nat} :
    (wordOld before s core g c k).mem = s.mem := by
  unfold wordOld
  repeat' split
  all_goals rfl

@[simp] theorem moveTogether_formed {s : State} {core : Nat} {g : Machine.Group} {c : Copy} {olds : List Nat}
    {ks : List Nat} (h : Inv s) : MovedFormed (moveTogether s core g c olds ks) := by
  have hready : MovedFormed (ks.foldl (fun (m : Moved) k => match m with
      | .ok s => sideReady s core g c k
      | m => m) (.ok s)) := movedFormed_foldl (fun m k hm => by
    split
    · exact sideReady_formed hm
    · exact hm) ks h
  unfold moveTogether
  split
  · exact moveElement_formed h
  · dsimp only
    split
    · rename_i heq
      have hmoved := movedFormed_foldl (f := fun (m : Moved) k => match m with
        | .ok s => moveElement s core g c olds k
        | m => m) (fun m k hm => by
          split
          · exact moveElement_formed hm
          · exact hm) ks
          (m := .ok _) (movedFormed_ok_of_eq hready heq)
      split
      · rename_i hend
        simpa using movedFormed_ok_of_eq hmoved hend
      all_goals exact movedFormed_ok_of_eq hready heq
    · exact hready

@[simp] theorem readIndices_formed {s : State} {core : Nat} {g : Machine.Group} {c : Copy} {olds : List Nat} (h : Inv s) :
    MovedFormed (readIndices s core g c olds) := by
  unfold readIndices
  dsimp only
  split
  · exact h
  · refine movedFormed_foldl (fun m r hm => ?_) _ (by simp [formed h])
    split
    · rename_i t
      have hs : ∀ {sp va k r b u}, sidePa t core g c sp va k = (r, b, u) → Formed u.mem :=
        formed_of_triple (sidePa_formed hm)
      split
      · exact hs ‹_›
      · exact hs ‹_›
      · rename_i heq
        split
        · exact hs heq
        · simp [hs heq]
    · exact hm

/-- What a copy's step makes of how it ended. -/
def noteMoved (core id : Nat) (m : Moved) (okk : State → State) : State := match m with
  | .ok s => okk s
  | .page va s => modCopy s core id (fun q => { q with waitPage := some (va / 4096) })
  | .stop f s => modCopy s core id (fun q => { q with fault := some f })
  | .full s => s

theorem noteMoved_formed {core id : Nat} {m : Moved} {okk : State → State} (hm : MovedFormed m)
    (hk : ∀ t, Machine.Inv t → Formed (okk t).mem) : Formed (noteMoved core id m okk).mem := by
  cases m with
  | ok t => exact hk t hm
  | page va t => simpa [noteMoved] using hm
  | stop f t => simpa [noteMoved] using hm
  | full t => exact hm

@[simp] theorem advanceCopy_formed {s : State} {core id k : Nat} {olds : List Nat} (h : Inv s) :
    Formed (advanceCopy s core id k olds).mem := by
  unfold advanceCopy
  split
  · exact h
  · split
    · exact h
    · split
      · exact h
      · refine noteMoved_formed (readIndices_formed h) (fun t ht => ?_)
        split
        · exact ht
        · dsimp only
          split
          · exact ht
          · exact noteMoved_formed (moveTogether_formed ht) (fun u hu => by simpa using hu)

@[simp] theorem runCopy_formed {s : State} {core id : Nat} (h : Inv s) : Formed (runCopy s core id).mem := by
  unfold runCopy
  dsimp only
  repeat' split
  all_goals simp +contextual [formed h]

@[simp] theorem execCopyRetire_formed {core n : Nat} {s : State} (h : Inv s) : OutFormed (execCopyRetire core n s) := by
  unfold execCopyRetire
  dsimp only
  repeat' split
  all_goals simp [formed h]

@[simp] theorem execCopyReplay_formed {core n : Nat} {s : State} (h : Inv s) : OutFormed (execCopyReplay core n s) := by
  unfold execCopyReplay
  split
  · exact h
  · split
    · split <;> simp [formed h]
    · exact h

/-! ### VecFloat -/

@[simp] theorem floatA2_formed {g : Guard} {f : FA} {op : Fmt → Rnd → Nat → Nat → Nat} {s : State} (h : Inv s) :
    OutFormed (floatA2 g f op s) := by
  simp [floatA2, formed h]

@[simp] theorem floatA1_formed {g : Guard} {f : FA} {op : Fmt → Rnd → Nat → Nat} {s : State} (h : Inv s) :
    OutFormed (floatA1 g f op s) := by
  simp [floatA1, formed h]

@[simp] theorem execFadd_formed {g : Guard} {f : FA} {s : State} (h : Inv s) : OutFormed (execFadd g f s) := by
  simp [execFadd, formed h]

@[simp] theorem execFsub_formed {g : Guard} {f : FA} {s : State} (h : Inv s) : OutFormed (execFsub g f s) := by
  simp [execFsub, formed h]

@[simp] theorem execFmul_formed {g : Guard} {f : FA} {s : State} (h : Inv s) : OutFormed (execFmul g f s) := by
  simp [execFmul, formed h]

@[simp] theorem execFma_formed {g : Guard} {f : FB} {s : State} (h : Inv s) : OutFormed (execFma g f s) := by
  simp [execFma, formed h]

@[simp] theorem execFmin_formed {g : Guard} {f : FA} {s : State} (h : Inv s) : OutFormed (execFmin g f s) := by
  simp [execFmin, formed h]

@[simp] theorem execFmax_formed {g : Guard} {f : FA} {s : State} (h : Inv s) : OutFormed (execFmax g f s) := by
  simp [execFmax, formed h]

@[simp] theorem execFminnum_formed {g : Guard} {f : FA} {s : State} (h : Inv s) : OutFormed (execFminnum g f s) := by
  simp [execFminnum, formed h]

@[simp] theorem execFmaxnum_formed {g : Guard} {f : FA} {s : State} (h : Inv s) : OutFormed (execFmaxnum g f s) := by
  simp [execFmaxnum, formed h]

@[simp] theorem execFabs_formed {g : Guard} {f : FA} {s : State} (h : Inv s) : OutFormed (execFabs g f s) := by
  simp [execFabs, formed h]

@[simp] theorem execFneg_formed {g : Guard} {f : FA} {s : State} (h : Inv s) : OutFormed (execFneg g f s) := by
  simp [execFneg, formed h]

@[simp] theorem execFcopysign_formed {g : Guard} {f : FA} {s : State} (h : Inv s) :
    OutFormed (execFcopysign g f s) := by
  simp [execFcopysign, formed h]

@[simp] theorem execFcmp_formed {g : Guard} {f : FA} {s : State} (h : Inv s) : OutFormed (execFcmp g f s) := by
  simp [execFcmp, formed h]

@[simp] theorem execFclass_formed {g : Guard} {f : FA} {s : State} (h : Inv s) : OutFormed (execFclass g f s) := by
  simp [execFclass, formed h]

@[simp] theorem execFdiv_formed {g : Guard} {f : FA} {s : State} (h : Inv s) : OutFormed (execFdiv g f s) := by
  simp [execFdiv, formed h]

@[simp] theorem execFsqrt_formed {g : Guard} {f : FA} {s : State} (h : Inv s) : OutFormed (execFsqrt g f s) := by
  simp [execFsqrt, formed h]

@[simp] theorem execFrcp_formed {g : Guard} {f : FA} {s : State} (h : Inv s) : OutFormed (execFrcp g f s) := by
  simp [execFrcp, formed h]

@[simp] theorem execFrsq_formed {g : Guard} {f : FA} {s : State} (h : Inv s) : OutFormed (execFrsq g f s) := by
  simp [execFrsq, formed h]

@[simp] theorem execFexp2_formed {g : Guard} {f : FA} {s : State} (h : Inv s) : OutFormed (execFexp2 g f s) := by
  simp [execFexp2, formed h]

@[simp] theorem execFlog2_formed {g : Guard} {f : FA} {s : State} (h : Inv s) : OutFormed (execFlog2 g f s) := by
  simp [execFlog2, formed h]

@[simp] theorem execFsin_formed {g : Guard} {f : FA} {s : State} (h : Inv s) : OutFormed (execFsin g f s) := by
  simp [execFsin, formed h]

@[simp] theorem execFcos_formed {g : Guard} {f : FA} {s : State} (h : Inv s) : OutFormed (execFcos g f s) := by
  simp [execFcos, formed h]

@[simp] theorem execFtanh_formed {g : Guard} {f : FA} {s : State} (h : Inv s) : OutFormed (execFtanh g f s) := by
  simp [execFtanh, formed h]

@[simp] theorem execFscale_formed {g : Guard} {f : FA} {s : State} (h : Inv s) : OutFormed (execFscale g f s) := by
  simp [execFscale, formed h]

@[simp] theorem execFgetexp_formed {g : Guard} {f : FA} {s : State} (h : Inv s) : OutFormed (execFgetexp g f s) := by
  simp [execFgetexp, formed h]

@[simp] theorem execFround_formed {g : Guard} {f : FA} {s : State} (h : Inv s) : OutFormed (execFround g f s) := by
  simp [execFround, formed h]

@[simp] theorem execFfrac_formed {g : Guard} {f : FA} {s : State} (h : Inv s) : OutFormed (execFfrac g f s) := by
  simp [execFfrac, formed h]

@[simp] theorem execFdot2_formed {g : Guard} {f : FB} {s : State} (h : Inv s) : OutFormed (execFdot2 g f s) := by
  simp [execFdot2, formed h]

/-! ### Matrix -/

@[simp] theorem execMclaim_formed {g : Guard} {f : FI} {s : State} (h : Inv s) : OutFormed (execMclaim g f s) := by
  unfold execMclaim
  exact runWord_formed h (fun _ _ => by simp [formed h])

@[simp] theorem execMrel_formed {g : Guard} {f : FI} {s : State} (h : Inv s) : OutFormed (execMrel g f s) := by
  unfold execMrel
  exact runWord_formed h (fun _ _ => by simp [formed h])

@[simp] theorem execMrelTakesEffect_formed {core n : Nat} {s : State} (h : Inv s) :
    OutFormed (execMrelTakesEffect core n s) := by
  unfold execMrelTakesEffect
  dsimp only
  repeat' split
  all_goals simp [formed h]

@[simp] theorem execMma_formed {g : Guard} {f : FMma} {s : State} (h : Inv s) : OutFormed (execMma g f s) := by
  unfold execMma
  refine runWord_formed h (fun x m => ?_)
  dsimp only
  repeat' split
  all_goals simp [formed h]

@[simp] theorem execMzero_formed {g : Guard} {f : FI} {s : State} (h : Inv s) : OutFormed (execMzero g f s) := by
  unfold execMzero
  exact runWord_formed h (fun _ _ => by simp [formed h])

@[simp] theorem execMscale_formed {g : Guard} {f : FA} {s : State} (h : Inv s) : OutFormed (execMscale g f s) := by
  unfold execMscale
  exact runWord_formed h (fun _ _ => by simp [formed h])

@[simp] theorem execArrayStart_formed {core : Nat} {s : State} (h : Inv s) : OutFormed (execArrayStart core s) := by
  simp [execArrayStart, formed h]

@[simp] theorem arrayBlock_mem {s : State} {core : Nat} : (arrayBlock s core).mem = s.mem := by
  unfold arrayBlock
  dsimp only
  repeat' split
  all_goals simp

@[simp] theorem execArrayRetire_formed {core : Nat} {s : State} (h : Inv s) : OutFormed (execArrayRetire core s) := by
  unfold execArrayRetire
  dsimp only
  repeat' split
  all_goals simp [formed h]

@[simp] theorem execMdrain_formed {g : Guard} {f : FM} {s : State} (h : Inv s) : OutFormed (execMdrain g f s) := by
  unfold execMdrain
  refine runWord_formed h (fun x m => ?_)
  generalize (sreg x.grp f.base.toNat).toNat = base
  generalize readDesc x.grp f.data.toNat = d
  refine iteInduction (fun _ => h) (fun _ => ?_)
  split
  · exact h
  · split
    · exact h
    · exact iteInduction (fun _ => h) (fun _ => by simp [formed h])

@[simp] theorem rowPhys_formed {fuel : Nat} {s : State} {core : Nat} {g : Machine.Group} {win : Bool} {va n kind : Nat}
    (h : Inv s) : RowsFormed (rowPhys fuel s core g win va n kind) := by
  induction fuel generalizing s va n with
  | zero => exact iteInduction (motive := RowsFormed) (fun _ => h) (fun _ => h)
  | succ fuel ih =>
    have htr : ∀ {va k p r t}, engineTranslate s core g.ctx va k p g.launch = (r, t) → Formed t.mem :=
      formed_of_eq (engineTranslate_formed h)
    refine iteInduction (motive := RowsFormed) (fun _ => h) (fun _ => iteInduction (motive := RowsFormed) (fun _ => h)
      (fun _ => ?_))
    change RowsFormed (match engineTranslate s core g.ctx va kind 2 g.launch with
      | (.ok pa _, s) =>
        match rowPhys fuel s core g win (va + Nat.min n (4096 - va % 4096)) (n - Nat.min n (4096 - va % 4096)) kind with
        | .ok rows s => .ok [(pa, Nat.min n (4096 - va % 4096)) :: rows.headD []] s
        | r => r
      | (.protection, s) => .stop .pageProtection s
      | (.lost, s) => .stop .pageLost s
      | (.wait, s) => .page va s)
    split
    · rename_i heq
      have hrow := ih (va := va + Nat.min n (4096 - va % 4096)) (n := n - Nat.min n (4096 - va % 4096)) (htr heq)
      split
      · exact rowsFormed_ok_of_eq hrow ‹_›
      · exact hrow
    all_goals exact htr ‹_›

@[simp] theorem rowsPhys_formed {s : State} {core : Nat} {g : Machine.Group} {win : Bool} {va stride rows n kind : Nat}
    (h : Inv s) : RowsFormed (rowsPhys s core g win va stride rows n kind) := by
  refine rowsFormed_foldl (fun m i hm => ?_) _ h
  split
  · have hrow := fun va => rowPhys_formed (fuel := 3) (core := core) (g := g) (win := win) (va := va) (n := n)
      (kind := kind) hm
    split
    · exact rowsFormed_ok_of_eq (hrow _) ‹_›
    · exact hrow _
  · exact hm

@[simp] theorem spanPages_formed {s : State} {core : Nat} {g : Machine.Group} {win : Bool} {va n kind : Nat} (h : Inv s) :
    RowsFormed (spanPages s core g win va n kind) := by
  unfold spanPages
  split
  · exact h
  · refine rowsFormed_foldl (fun m i hm => ?_) _ h
    split
    · have hrow := fun va => rowPhys_formed (fuel := 1) (core := core) (g := g) (win := win) (va := va) (n := 1)
        (kind := kind) hm
      split
      · exact rowsFormed_ok_of_eq (hrow _) ‹_›
      · exact hrow _
    · exact hm

@[simp] theorem spanRows_formed {s : State} {core : Nat} {g : Machine.Group} {win : Bool} {va stride rows n kind : Nat}
    (h : Inv s) : RowsFormed (spanRows s core g win va stride rows n kind) := by
  have hp := spanPages_formed (core := core) (g := g) (win := win) (va := va) (n := (rows - 1) * stride + n)
    (kind := kind) h
  unfold spanRows
  split
  · exact rowsPhys_formed (rowsFormed_ok_of_eq hp ‹_›)
  · exact hp

@[simp] theorem drainRows_formed {s : State} {core : Nat} {g : Machine.Group} {d base : Nat} (h : Inv s) :
    RowsFormed (drainRows s core g d base).1 := by
  have hp := spanRows_formed (core := core) (g := g) (win := descBit d 25) (va := base) (stride := descFld d 64 32)
    (rows := drainM d) (n := drainN d * drainE d) (kind := 1) h
  unfold drainRows
  split
  · rename_i heq
    have ht := rowsFormed_ok_of_eq hp heq
    split
    · have hr := spanRows_formed (core := core) (g := g) (win := descBit d 30) (va := resAddr d) (stride := descFld d 96 32)
        (rows := drainM d) (n := drainN d * resE d) (kind := 0) ht
      split
      · exact rowsFormed_ok_of_eq hr ‹_›
      · exact hr
    · exact ht
  · exact hp

@[simp] theorem retireDrain_formed {s : State} {core : Nat} {d : Drain} {c : Option Cause} (h : Inv s) :
    Formed (retireDrain s core d c).mem := by
  unfold retireDrain
  dsimp only
  repeat' split
  all_goals simp [formed h]

@[simp] theorem modDrain_mem {s : State} {core id : Nat} {f : Drain → Drain} : (modDrain s core id f).mem = s.mem := rfl

@[simp] theorem execDrainStart_formed {core : Nat} {s : State} (h : Inv s) : OutFormed (execDrainStart core s) := by
  unfold execDrainStart
  dsimp only
  split
  · exact h
  · split
    · exact h
    · rename_i d _ _ g _
      refine iteInduction (fun _ => h) (fun _ => ?_)
      have hr := drainRows_formed (core := core) (g := g) (d := d.desc) (base := d.base) h
      split
      all_goals
        rename_i heq
        rw [heq] at hr
      · exact retireDrain_formed hr
      · simpa using hr
      · simpa using hr

@[simp] theorem unitSaw_mem {s : State} {rs : List (Nat × Nat)} : (unitSaw s rs).mem = s.mem := by
  simp [unitSaw]

@[simp] theorem drainPiece_formed {s : State} {own : Nat × Nat} {pa : Nat} {bs : List Byte} (h : Inv s) :
    Formed (drainPiece s own pa bs).mem := by
  simp [drainPiece, formed h]

@[simp] theorem drainShare_formed {s : State} {core : Nat} {own : Nat × Nat} {hu : Nat} {d : Drain} {img : List W32}
    {dst res : List (List (Nat × Nat))} (h : Inv s) : Formed (drainShare s core own hu d img dst res).mem := by
  unfold drainShare
  rw [modDrain_mem, noteWrites_mem]
  refine foldl_formed (fun t i ht => ?_) _ h
  dsimp only
  split
  · simp [ht]
  · exact foldl_formed (fun u p hu => drainPiece_formed hu) _ (by simp [ht])

/-- A drain's write once its rows have their addresses. -/
def drainGo (core : Nat) (d : Drain) (pick : Nat → Bool) (fin : Bool) (img : List W32) (g : Machine.Group) (s : State)
    (dst res : List (List (Nat × Nat))) : State :=
  let read := (res.flatMap rangeLines) ++ (if descBit d.desc 26 then dst.flatMap rangeLines else [])
  if d.homes.isEmpty && read.any (fun l => isPoisoned s l) then retireDrain s core d (some .poison)
  else
    let s := modDrain s core d.id (fun q => { q with rows := some (dst, res) })
    let left := (drainHomes dst).filter (fun h => !d.homes.contains h && pick h)
    let s := left.foldl (fun s h => drainShare s core (g.ctx, g.launch) h d img dst res) s
    if !fin then s
    else
      let part := dst.any (fun rs => (rangeLines rs).any (fun l => isPoisoned s l))
      retireDrain s core d (if part then some .poison else none)

theorem drainGo_formed {core : Nat} {d : Drain} {pick : Nat → Bool} {fin : Bool} {img : List W32} {g : Machine.Group} {s : State}
    {dst res : List (List (Nat × Nat))} (h : Inv s) : Formed (drainGo core d pick fin img g s dst res).mem := by
  have hl : ∀ l : List Nat, Formed (l.foldl (fun s h => drainShare s core (g.ctx, g.launch) h d img dst res)
      (modDrain s core d.id (fun q => { q with rows := some (dst, res) }))).mem :=
    fun l => foldl_formed (fun _ _ ht => drainShare_formed ht) l (by simpa using h)
  unfold drainGo
  dsimp only
  generalize (_ ++ _ : List Nat) = read
  refine iteInduction (motive := fun t : State => Formed t.mem) (fun _ => retireDrain_formed h) (fun _ => ?_)
  exact iteInduction (motive := fun t : State => Formed t.mem) (fun _ => hl _) (fun _ => retireDrain_formed (hl _))

@[simp] theorem drainWrite_formed {s : State} {core : Nat} {d : Drain} {pick : Nat → Bool} {fin : Bool} (h : Inv s) :
    Formed (drainWrite s core d pick fin).mem := by
  unfold drainWrite
  split
  · rename_i img g _ _
    split
    · exact h
    · change Formed (match d.rows with
        | some (dst, res) => drainGo core d pick fin img g s dst res
        | none => match drainRows s core g d.desc d.base with
          | (.stop c s, _) => retireDrain s core d (some c)
          | (.page va s, _) => modDrain s core d.id (fun q => { q with waitPage := some (va / 4096) })
          | (.ok dst s, res) => drainGo core d pick fin img g s dst res).mem
      split
      · exact drainGo_formed h
      · have hr := drainRows_formed (core := core) (g := g) (d := d.desc) (base := d.base) h
        split
        all_goals
          rename_i heq
          rw [heq] at hr
        · exact retireDrain_formed hr
        · simpa using hr
        · exact drainGo_formed hr
  · exact h

@[simp] theorem drainPart_formed {s : State} {core id hu : Nat} (h : Inv s) : Formed (drainPart s core id hu).mem := by
  unfold drainPart
  split
  · exact drainWrite_formed h
  · exact h

@[simp] theorem execDrainRetire_formed {core n : Nat} {s : State} (h : Inv s) :
    OutFormed (execDrainRetire core n s) := by
  unfold execDrainRetire
  split <;> simp [formed h]

@[simp] theorem execMwait_formed {g : Guard} {f : FI} {s : State} (h : Inv s) : OutFormed (execMwait g f s) := by
  unfold execMwait
  exact orWait_formed (fun _ _ => h) (runWord_formed h (fun x m => iteInduction (fun _ => h) (fun _ => by simp [formed h])))

theorem withMat_formed {s : State} {w : Nat} {as : List (Nat × Nat)} {outside unheld : Nat → Bool} {c : Cause} {k : Res}
    (h : Inv s) (hk : ResFormed k) : ResFormed (withMat s w as outside unheld c k) := by
  unfold withMat
  exact iteInduction (fun _ => h) (fun _ => iteInduction (fun _ => h) (fun _ => iteInduction (fun _ => h) (fun _ => hk)))

@[simp] theorem execOst_formed {g : Guard} {f : FM} {s : State} (h : Inv s) : OutFormed (execOst g f s) := by
  unfold execOst
  exact runWord_formed h (fun _ _ => withMat_formed h (by simp [formed h]))

@[simp] theorem execAld_formed {g : Guard} {f : FM} {s : State} (h : Inv s) : OutFormed (execAld g f s) := by
  unfold execAld
  exact runWord_formed h (fun _ _ => withMat_formed h (by simp [formed h]))

/-! ### EventIns -/

theorem withRange_formed {s : State} {x : Iss} {m : W32} {kind path va n : Nat} {k : List (Nat × Nat) → State → Res}
    (h : Inv s) (hk : ∀ rs t, Machine.Inv t → ResFormed (k rs t)) : ResFormed (withRange s x m kind path va n k) := by
  unfold withRange
  exact withTranslation_formed h (fun _ _ ht => hk _ _ ht)

theorem structRead_formed {s : State} {x : Iss} {m : W32} {path va n : Nat} {k : List Byte → State → Res} (h : Inv s)
    (hk : ∀ bs t, Machine.Inv t → ResFormed (k bs t)) : ResFormed (structRead s x m path va n k) := by
  unfold structRead
  exact withRange_formed h (fun _ _ ht => iteInduction (fun _ => hk _ _ ht) (fun _ => ht))

theorem structRange_formed {s : State} {x : Iss} {m : W32} {path va n : Nat} {k : List (Nat × Nat) → State → Res}
    (h : Inv s) (hk : ∀ rs t, Machine.Inv t → ResFormed (k rs t)) : ResFormed (structRange s x m path va n k) := by
  unfold structRange
  exact withRange_formed h (fun _ _ ht => iteInduction (fun _ => hk _ _ ht) (fun _ => ht))

@[simp] theorem structWrite_formed {s : State} {w : Who} {rs : List (Nat × Nat)} {bs : List Byte} (h : Inv s) :
    Formed (structWrite s w rs bs).mem := by
  simp [structWrite, formed h]

@[simp] theorem emitLocal_formed {s : State} {x : Iss} {e : EventRec} {tok : Option Nat} (h : Inv s) :
    ResFormed (emitLocal s x e tok) := by
  simp [emitLocal, formed h]

@[simp] theorem emitRemote_formed {s : State} {x : Iss} {e : EventRec} {node : Nat} {tok : Option Nat} (h : Inv s) :
    ResFormed (emitRemote s x e node tok) := by
  unfold emitRemote
  dsimp only
  repeat' split
  all_goals simp [formed h]

@[simp] theorem execEmit_formed {g : Guard} {f : FM} {s : State} (h : Inv s) : OutFormed (execEmit g f s) := by
  unfold execEmit
  exact runWord_formed h (fun _ _ => by simp [formed h])

@[simp] theorem produceEvent_mem {s : State} {x : Iss} {d : Nat} : (produceEvent s x d).2.mem = s.mem := by
  simp [produceEvent]

@[simp] theorem execEvrd_formed {g : Guard} {f : FA} {s : State} (h : Inv s) : OutFormed (execEvrd g f s) := by
  unfold execEvrd
  refine runWord_formed h (fun x m => ?_)
  dsimp only
  repeat' split
  all_goals simp [formed h]

/-- What an EVWAIT that finds its record makes of the state. -/
def evFound (s : State) (x : Iss) (n thr id : Nat) : Option State :=
  match (streamOf s n).latest with
  | some e => if evMeets e thr then some (fillEvent s x.w id e) else none
  | none => none

theorem evFound_mem {s t : State} {x : Iss} {n thr id : Nat} (he : evFound s x n thr id = some t) : t.mem = s.mem := by
  unfold evFound at he
  split at he
  · split at he
    · cases he
      simp
    · cases he
  · cases he

@[simp] theorem execEvwait_formed {g : Guard} {f : FA} {s : State} (h : Inv s) : OutFormed (execEvwait g f s) := by
  unfold execEvwait
  dsimp only
  refine orWait_formed (fun x w => ?_) (runWord_formed h (fun x m => ?_))
  · split
    · split
      · rename_i heq
        have ht := evFound_mem heq
        simp [ht, formed h]
      · exact h
    · exact h
  · split
    · exact h
    · have hp : Formed (produceEvent s x f.dst.toNat).2.mem := by simp [formed h]
      split
      · rename_i heq
        have ht := evFound_mem heq
        simpa [ht] using hp
      · simpa using hp

@[simp] theorem askUnit_formed {s : State} {x : Iss} {m : W32} {die id : Nat} {op : AskOp} (h : Inv s) :
    ResFormed (askUnit s x m die id op) := by
  simp [askUnit, formed h]

theorem pluTurn_formed {x : Iss} {die : Nat} {k : State → Res} {s : State} (h : Inv s)
    (hk : ∀ t, Machine.Inv t → ResFormed (k t)) :
    ResFormed (pluTurn x die k s) := by
  have hr := hk (modDie s die (fun d => { d with autoGo := none })) (by simp [formed h])
  unfold pluTurn
  dsimp only
  split
  · split
    · rename_i heq
      rw [heq] at hr
      simpa using hr
    · exact hr
  · simp [formed h]

@[simp] theorem endAutos_mem {s : State} {die : Nat} : (endAutos s die).mem = s.mem := rfl

@[simp] theorem freeAuto_mem {s : State} {die i : Nat} : (freeAuto s die i).mem = s.mem := by
  simp [freeAuto]

theorem readImage_formed {s : State} {x : Iss} {m : W32} {va : Nat} {k : List Byte → State → Res} (h : Inv s)
    (hk : ∀ bs t, Machine.Inv t → ResFormed (k bs t)) : ResFormed (readImage s x m va k) := by
  unfold readImage
  exact structRead_formed h (fun _ _ ht => structRead_formed ht hk)

theorem readCands_formed {n : Nat} {s : State} {x : Iss} {m : W32} {va : Nat} {acc : List Cand} {k : List Cand → State → Res}
    (h : Inv s) (hk : ∀ cs t, Machine.Inv t → ResFormed (k cs t)) : ResFormed (readCands n s x m va acc k) := by
  induction n generalizing s va acc with
  | zero => exact hk _ _ h
  | succ n ih =>
    unfold readCands
    exact structRead_formed h (fun _ _ ht => structRead_formed ht (fun _ _ hu => iteInduction (fun _ => ih hu)
      (fun _ => hu)))

@[simp] theorem acceptLoad_formed {s : State} {x : Iss} {m : W32} {die i : Nat} {a : Auto} {bs : List Byte} (h : Inv s) :
    ResFormed (acceptLoad s x m die i a bs) := by
  simp [acceptLoad, formed h]

@[simp] theorem loadState_formed {s : State} {x : Iss} {m : W32} {die i va : Nat} (h : Inv s) :
    ResFormed (loadState s x m die i va) := by
  unfold loadState
  refine structRead_formed h (fun _ _ ht => iteInduction (fun _ => ht) (fun _ => ?_))
  exact readImage_formed ht (fun _ _ hu => readCands_formed hu (fun _ _ hv => acceptLoad_formed hv))

@[simp] theorem execAload_formed {g : Guard} {f : FM} {s : State} (h : Inv s) : OutFormed (execAload g f s) := by
  unfold execAload
  refine runWord_formed h (fun x m => ?_)
  dsimp only
  split
  · exact h
  · split
    · exact pluTurn_formed h (fun t ht => iteInduction (fun _ => by simpa using ht) (fun _ => ht))
    · split
      · exact h
      · split
        · exact h
        · exact pluTurn_formed h (fun t ht => iteInduction (fun _ => loadState_formed ht)
            (fun _ => readImage_formed ht (fun _ _ hu => acceptLoad_formed hu)))

@[simp] theorem execAsave_formed {g : Guard} {f : FM} {s : State} (h : Inv s) : OutFormed (execAsave g f s) := by
  unfold execAsave
  refine runWord_formed h (fun x m => ?_)
  dsimp only
  refine iteInduction (fun _ => h) (fun _ => iteInduction (fun _ => h) (fun _ => iteInduction (fun _ => h) (fun _ =>
    iteInduction (fun _ => h) (fun _ => pluTurn_formed h (fun t ht => iteInduction (fun _ => ht) (fun _ => ?_))))))
  exact structRange_formed ht (fun _ _ hu => structRange_formed hu (fun _ _ hv => by simp [formed hv]))

@[simp] theorem execAarm_formed {g : Guard} {f : FI} {s : State} (h : Inv s) : OutFormed (execAarm g f s) := by
  unfold execAarm
  refine runWord_formed h (fun x m => iteInduction (fun _ => h) (fun _ => pluTurn_formed h (fun t ht => ?_)))
  dsimp only
  repeat' split
  all_goals simp [formed ht]

@[simp] theorem execAdisarm_formed {g : Guard} {f : FI} {s : State} (h : Inv s) : OutFormed (execAdisarm g f s) := by
  unfold execAdisarm
  refine runWord_formed h (fun x m => iteInduction (fun _ => h) (fun _ => pluTurn_formed h (fun t ht => ?_)))
  repeat' split
  all_goals simp [formed ht]

/-! ### UnitMem -/

@[simp] theorem unitPieces_formed {s : State} {die ctx kind path launch : Nat} {ps : List (Nat × Nat)} (h : Inv s) :
    Formed (unitPieces s die ctx kind path launch ps).2.2.mem := by
  induction ps generalizing s with
  | nil => exact h
  | cons p r ih =>
    obtain ⟨va, n⟩ := p
    have htr : ∀ {r t}, unitTranslate s die ctx va kind path launch = (r, t) → Formed t.mem :=
      formed_of_eq (unitTranslate_formed h)
    unfold unitPieces
    split
    · exact ih (htr ‹_›)
    · exact htr ‹_›

theorem withUnitRange_formed {s : State} {die ctx kind path launch va n : Nat} {k : List (Nat × Nat) → State → UnitOut}
    (h : Inv s) (hk : ∀ rs t, Machine.Inv t → UnitFormed (k rs t)) :
    UnitFormed (withUnitRange s die ctx kind path launch va n k) := by
  have hp : ∀ {a b t}, unitPieces s die ctx kind path launch (pagePieces va n) = (a, b, t) → Formed t.mem :=
    formed_of_triple (unitPieces_formed h)
  unfold withUnitRange
  split
  · exact hk _ _ (hp ‹_›)
  all_goals exact hp ‹_›

@[simp] theorem unitGet_formed {s : State} {die ctx path launch va n : Nat} (h : Inv s) :
    UnitFormed (unitGet s die ctx path launch va n) := by
  unfold unitGet
  exact withUnitRange_formed h (fun _ _ ht => iteInduction (fun _ => ht) (fun _ => by simpa using ht))

@[simp] theorem writeRangesOn_formed {s : State} {path : Nat} {own : Nat × Nat} {rs : List (Nat × Nat)} {bs : List Byte}
    (h : Inv s) : Formed (writeRangesOn s path own rs bs).mem := by
  induction rs generalizing s bs with
  | nil => exact h
  | cons p r ih =>
    unfold writeRangesOn
    exact ih (pathWrite_formed h)

@[simp] theorem unitPut_formed {s : State} {die ctx path launch va : Nat} {bs : List Byte} (h : Inv s) :
    UnitFormed (unitPut s die ctx path launch va bs) := by
  unfold unitPut
  exact withUnitRange_formed h (fun _ t ht => iteInduction (fun _ => ht) (fun _ => writeRangesOn_formed ht))

@[simp] theorem takeAsks_mem {s : State} {die : Nat} {p : AskOp → Bool} : (takeAsks s die p).2.mem = s.mem := rfl

@[simp] theorem answerRole_formed {s : State} {w : Who} {id : Nat} {trap : Option Cause} (h : Inv s) :
    Formed (answerRole s w id trap).mem := by
  unfold answerRole
  repeat' split
  all_goals simp [formed h]

/-! ### Combine -/

@[simp] theorem modCslot_mem {s : State} {die i : Nat} {f : CSlot → CSlot} : (modCslot s die i f).mem = s.mem := rfl

theorem callocTry_mem {s : State} {die : Nat} {b : Batch} {rows : List (List (Nat × W32 × Nat))} {n : Nat} {t : State}
    (ht : callocTry s die b rows = some (n, t)) : t.mem = s.mem := by
  unfold callocTry at ht
  split at ht
  · cases ht
  · split at ht
    · cases ht
    · cases ht
      simp

@[simp] theorem execCalloc_formed {g : Guard} {f : FA} {s : State} (h : Inv s) : OutFormed (execCalloc g f s) := by
  unfold execCalloc
  refine orWait_formed (fun _ _ => h) (runWord_formed h (fun x m => ?_))
  refine iteInduction (fun _ => h) (fun _ => iteInduction (fun _ => h) (fun _ => iteInduction (fun _ => h) (fun _ => ?_)))
  refine structRead_formed h (fun _ t ht => iteInduction (fun _ => ht) (fun _ => structRead_formed ht (fun _ u hu => ?_)))
  exact iteInduction (fun _ => hu) (fun _ => by simp [formed hu])

@[simp] theorem callocAnswer_mem {s : State} {w : Who} {id creg hu : Nat} {ok : Bool} :
    (callocAnswer s w id creg hu ok).mem = s.mem := by
  simp [callocAnswer]

@[simp] theorem serveCalloc_mem {s : State} {die : Nat} {w : Who} : (serveCalloc s die w).mem = s.mem := by
  unfold serveCalloc
  split
  · split
    · rfl
    · split
      · rename_i heq
        have ht := callocTry_mem heq
        simp [ht]
      · split <;> simp
  · rfl

@[simp] theorem leaveStage_mem {s : State} {die i : Nat} {b : Batch} : (leaveStage s die i b).mem = s.mem := rfl

@[simp] theorem slotFault_formed {s : State} {die i : Nat} {b : Batch} {c : Cause} (h : Inv s) :
    Formed (slotFault s die i b c).mem := by
  simp [slotFault, formed h]

@[simp] theorem retryStaged_formed {s : State} {die : Nat} {ready : Nat → Nat → Bool} (h : Inv s) :
    Formed (retryStaged s die ready).mem := by
  unfold retryStaged
  refine foldl_formed (fun t e ht => ?_) _ h
  split
  · exact ht
  · have hput : ∀ {ph va bs o}, unitPut t die e.ctx ph e.launch va bs = o → UnitFormed o := fun he => he ▸ unitPut_formed ht
    split
    all_goals
      rename_i heq
      have hu := hput heq
      simp only [unitFormed_ok, unitFormed_wait, unitFormed_fault] at hu
      simp [hu]

@[simp] theorem failStaged_formed {s : State} {die : Nat} {bad : Nat → Nat → Bool} {cause : Cause} (h : Inv s) :
    Formed (failStaged s die bad cause).mem := by
  simp +contextual [failStaged, formed h]

@[simp] theorem slotWaits_mem {s : State} {die i p : Nat} : (slotWaits s die i p).mem = s.mem := rfl

@[simp] theorem flushStage_formed {s : State} {die i : Nat} {b : Batch} {q : List (Nat × List Byte)} (h : Inv s) :
    Formed (flushStage s die i b q).mem := by
  induction q generalizing s with
  | nil => exact h
  | cons p r ih =>
    obtain ⟨va, bs⟩ := p
    have hput : UnitFormed (unitPut s die b.ctx 3 b.launch va bs) := unitPut_formed h
    unfold flushStage
    dsimp only
    split
    · exact h
    · split
      · exact ih h
      · cases hu : unitPut s die b.ctx 3 b.launch va bs with
        | ok _ t =>
          rw [hu] at hput
          exact ih (by simpa using hput)
        | wait p t =>
          rw [hu] at hput
          exact ih (by simpa using hput)
        | fault c t =>
          rw [hu] at hput
          exact slotFault_formed (by simpa using hput)

@[simp] theorem readPieces_formed {s : State} {die i : Nat} {b : Batch} {q : List (Nat × Nat)} (h : Inv s) :
    Formed (readPieces s die i b q).2.mem := by
  induction q generalizing s with
  | nil => exact h
  | cons p r ih =>
    obtain ⟨va, n⟩ := p
    have hget : UnitFormed (unitGet s die b.ctx 3 b.launch va n) := unitGet_formed h
    unfold readPieces
    split
    · exact ih h
    · cases hu : unitGet s die b.ctx 3 b.launch va n with
      | ok _ t =>
        rw [hu] at hget
        exact ih hget
      | wait p t =>
        rw [hu] at hget
        exact ih (by simpa using hget)
      | fault c t =>
        rw [hu] at hget
        exact slotFault_formed (by simpa using hget)

@[simp] theorem readRows_formed {s : State} {die i : Nat} {b : Batch} {q : List (Nat × Nat)} (h : Inv s) :
    Formed (readRows s die i b q).2.mem := by
  induction q generalizing s with
  | nil => exact h
  | cons p r ih =>
    unfold readRows
    exact ih (readPieces_formed h)

@[simp] theorem tryCombine_formed {s : State} {die i : Nat} (h : Inv s) : Formed (tryCombine s die i).mem := by
  unfold tryCombine
  dsimp only
  split
  · exact h
  · split
    · exact h
    · have hfl := fun b q => flushStage_formed (die := die) (i := i) (b := b) (q := q) h
      split
      · exact hfl _ _
      · have hrd := fun b q q' => readRows_formed (die := die) (i := i) (b := b) (q := q') (hfl b q)
        split
        · rename_i heq
          have ht := formed_of_eq (hrd _ _ _) heq
          split <;> simp [ht]
        · exact formed_of_eq (hrd _ _ _) ‹_›

@[simp] theorem enterCombined_formed {s : State} {die i : Nat} (h : Inv s) : Formed (enterCombined s die i).mem := by
  unfold enterCombined
  dsimp only
  repeat' split
  all_goals simp [formed h]

@[simp] theorem gateSlot_mem {s : State} {die hu v : Nat} : (gateSlot s die hu v).2.mem = s.mem := by
  unfold gateSlot
  dsimp only
  repeat' split
  all_goals simp

@[simp] theorem serveGates_formed {s : State} {die : Nat} (h : Inv s) : Formed (serveGates s die).mem := by
  have hg : ∀ (t : State) v w, (gateSlot t die v w).2.mem = t.mem := fun t v w => by
    unfold gateSlot
    dsimp only
    repeat' split
    all_goals rfl
  unfold serveGates
  refine foldl_formed (fun t a ht => ?_) _ (by simp [formed h])
  split
  · rename_i hdl v _
    refine answerRole_formed (s := (gateSlot t die hdl v).2) ?_
    rw [inv_iff, hg]
    exact ht
  · exact ht

@[simp] theorem freeSlotEvent_mem {s : State} {die i : Nat} {b : Batch} : (freeSlotEvent s die i b).mem = s.mem := by
  simp [freeSlotEvent]

@[simp] theorem flushOut_formed {s : State} {die i : Nat} {b : Batch} {q : List (Nat × List Byte)} (h : Inv s) :
    Formed (flushOut s die i b q).mem := by
  induction q generalizing s with
  | nil => exact h
  | cons p r ih =>
    obtain ⟨va, bs⟩ := p
    have hput : UnitFormed (unitPut s die b.ctx 3 b.launch va bs) := unitPut_formed h
    unfold flushOut
    split
    · exact h
    · cases hu : unitPut s die b.ctx 3 b.launch va bs with
      | ok _ t =>
        rw [hu] at hput
        exact ih (by simpa using hput)
      | wait p t =>
        rw [hu] at hput
        exact ih (by simpa using hput)
      | fault c t =>
        rw [hu] at hput
        exact slotFault_formed (by simpa using hput)

@[simp] theorem releaseSlot_formed {s : State} {die i : Nat} (h : Inv s) : Formed (releaseSlot s die i).mem := by
  unfold releaseSlot
  dsimp only
  repeat' split
  all_goals simp [formed h]

@[simp] theorem execSlotRelease_formed {die slot : Nat} {s : State} (h : Inv s) :
    OutFormed (execSlotRelease die slot s) := by
  simp [execSlotRelease, formed h]

@[simp] theorem execCombineDeadline_formed {die slot : Nat} {s : State} (h : Inv s) :
    OutFormed (execCombineDeadline die slot s) := by
  simp [execCombineDeadline, formed h]

@[simp] theorem endCistern_formed {s : State} {die : Nat} (h : Inv s) : Formed (endCistern s die).mem := by
  unfold endCistern
  dsimp only
  rw [modDie_mem]
  refine foldl_formed (fun t w ht => by simpa using ht) _ (foldl_formed (fun t i ht => ?_) _ (serveGates_formed ?_))
  · split <;> simp [ht]
  · split <;> simp [formed h]

@[simp] theorem acceptChunk_formed {s : State} {die : Nat} {k : Chunk} {b : Batch} {p : Nat} (h : Inv s) :
    Formed (acceptChunk s die k b p).mem := by
  simp [acceptChunk, formed h]

@[simp] theorem takeChunk_formed {s : State} {die : Nat} {k : Chunk} (h : Inv s) : Formed (takeChunk s die k).mem := by
  unfold takeChunk
  dsimp only
  repeat' split
  all_goals simp [formed h]

@[simp] theorem execChunkArrival_formed {die n : Nat} {s : State} (h : Inv s) :
    OutFormed (execChunkArrival die n s) := by
  unfold execChunkArrival
  split <;> simp [formed h]

@[simp] theorem execCpost_formed {g : Guard} {f : FM} {s : State} (h : Inv s) : OutFormed (execCpost g f s) := by
  unfold execCpost
  refine orWait_formed (fun _ _ => h) (runWord_formed h (fun x m => ?_))
  exact iteInduction (fun _ => h) (fun _ => iteInduction (fun _ => h) (fun _ => by simp [formed h]))

@[simp] theorem execCgate_formed {g : Guard} {f : FA} {s : State} (h : Inv s) : OutFormed (execCgate g f s) := by
  unfold execCgate
  refine orWait_formed (fun _ _ => h) (runWord_formed h (fun x m => ?_))
  exact iteInduction (fun _ => h) (fun _ => iteInduction (fun _ => h) (fun _ => by simp [formed h]))

@[simp] theorem execCqry_formed {g : Guard} {f : FA} {s : State} (h : Inv s) : OutFormed (execCqry g f s) := by
  unfold execCqry
  exact runWord_formed h (fun _ _ => by simp [formed h])

end Sys2Proof.Proofs
end

