-- ==== Sys2Proof/Proofs/MemoryFormLaunches.lean ====
section
/-!
Memory's form through the launches, the video units and the contexts.
-/
namespace Sys2Proof.Proofs
open Sys2Proof.Machine

section searches
variable {α : Type} {f : α → Option State}

theorem optFormed_findSome (hf : ∀ a, OptFormed (f a)) (l : List α) : OptFormed (l.findSome? f) := by
  induction l with
  | nil => trivial
  | cons a r ih =>
    rw [List.findSome?_cons]
    split
    · rename_i heq
      exact heq ▸ hf a
    · exact ih

theorem optFormed_getD {o : Option State} {s : State} (ho : OptFormed o) (h : Inv s) : Formed (o.getD s).mem := by
  cases o with
  | none => exact h
  | some t => exact ho
end searches

/-! ### Launch -/

@[simp] theorem claimRoom_mem {s : State} {core : Nat} {t : Template} : (claimRoom s core t).mem = s.mem := by
  unfold claimRoom
  dsimp only
  repeat' split
  all_goals simp

@[simp] theorem takeReserve_formed {s : State} {ctx : Nat} {l : Launch} {gidx : Nat} (h : Inv s) :
    OptFormed (takeReserve s ctx l gidx) := by
  simp [takeReserve, formed h]

@[simp] theorem groupAcquires_mem {s : State} {core gslot : Nat} : (groupAcquires s core gslot).mem = s.mem := by
  simp [groupAcquires]

@[simp] theorem placeAt_formed {s : State} {core ctx idx gidx : Nat} {barred : List Nat} (h : Inv s) :
    OptFormed (placeAt s core ctx idx gidx barred) := by
  unfold placeAt
  split
  · trivial
  · split
    · rename_i heq
      have ht := formed_of_some (takeReserve_formed h) heq
      dsimp only
      split <;> simp [ht]
    · trivial

@[simp] theorem placeGroup_formed {s : State} {core ctx idx gidx : Nat} (h : Inv s) :
    OptFormed (placeGroup s core ctx idx gidx) := by
  simp [placeGroup, formed h]

@[simp] theorem wakePower_mem {s : State} {p : Nat} : (wakePower s p).mem = s.mem := by
  simp [wakePower]

@[simp] theorem admitNext_formed {s : State} {ctx core : Nat} {l : Launch} (h : Inv s) :
    OptFormed (admitNext s ctx core l) := by
  unfold admitNext
  split
  · trivial
  · rename_i heq
    have ht := formed_of_some (admitGroup_formed h) heq
    dsimp only
    repeat' split
    all_goals simp [ht]

@[simp] theorem execGroupOffer_formed {die core : Nat} {s : State} (h : Inv s) :
    OutFormed (execGroupOffer die core s) := by
  unfold execGroupOffer
  split
  · exact h
  · split
    · exact h
    · split
      · exact formed_of_some (admitNext_formed h) ‹_›
      · simpa using h

@[simp] theorem execPendingLaunchRetry_formed {die core : Nat} {s : State} (h : Inv s) :
    OutFormed (execPendingLaunchRetry die core s) := by
  unfold execPendingLaunchRetry
  refine iteInduction (fun _ => h) (fun _ => optFormed_getD (optFormed_findSome (fun e => ?_) _) h)
  exact iteInduction (motive := OptFormed) (fun _ => admitNext_formed h) (fun _ => trivial)

@[simp] theorem unqueue_mem {s : State} {core : Nat} {q : Nat × Nat × Nat} : (unqueue s core q).mem = s.mem := rfl

@[simp] theorem putOffSteals_mem {s : State} {v : Nat} : (putOffSteals s v).mem = s.mem := rfl

@[simp] theorem execGroupPlace_formed {core : Nat} {s : State} (h : Inv s) : OutFormed (execGroupPlace core s) := by
  unfold execGroupPlace
  split
  · exact h
  · rename_i q _ _
    split
    · rename_i heq
      have ht := formed_of_some (placeGroup_formed h) heq
      split <;> simp [ht]
    · change Formed _
      cases launchOf s q.1 q.2.1 with
      | none => exact h
      | some l => simpa using h

@[simp] theorem execStealRequest_formed {core : Nat} {s : State} (h : Inv s) : OutFormed (execStealRequest core s) := by
  unfold execStealRequest
  split <;> simp [formed h]

@[simp] theorem execStealAnswer_formed {core : Nat} {s : State} (h : Inv s) : OutFormed (execStealAnswer core s) := by
  unfold execStealAnswer
  split
  · exact h
  · rename_i v _
    dsimp only
    split
    · exact h
    · split
      · simpa using h
      · rename_i q _
        have hp : OptFormed (if (queueOf s v).length = 1 then placeGroup s v q.1 q.2.1 q.2.2 else none) :=
          iteInduction (motive := OptFormed) (fun _ => placeGroup_formed h) (fun _ => trivial)
        split
        · rename_i heq
          have ht := formed_of_some hp heq
          simpa using ht
        · split
          · rename_i heq
            have ht := formed_of_some (placeAt_formed h) heq
            simpa using ht
          · simpa using h

@[simp] theorem execDetDispatch_formed {ctx region : Nat} {s : State} (h : Inv s) :
    OutFormed (execDetDispatch ctx region s) := by
  unfold execDetDispatch
  split
  · exact h
  · split
    · exact h
    · split
      · rename_i heq
        have ht := formed_of_some (optFormed_findSome (fun _ => placeGroup_formed h) _) heq
        simpa using ht
      · dsimp only
        split
        · rename_i heq
          obtain ⟨l, _, hl⟩ := Option.bind_eq_some_iff.1 heq
          obtain ⟨c, _, rfl⟩ := Option.map_eq_some_iff.1 hl
          simpa using h
        · simpa using h

@[simp] theorem moveWindow_formed {s : State} {core gslot b : Nat} (h : Inv s) :
    Formed (moveWindow s core gslot b).mem := by
  unfold moveWindow
  split
  · exact h
  · dsimp only
    rw [modGroup_mem]
    exact memory_wf_memSetBytes _ _ h

@[simp] theorem moveRegs_mem {s : State} {core key b : Nat} : (moveRegs s core key b).mem = s.mem := by
  simp [moveRegs]

@[simp] theorem execCompactorMove_formed {core : Nat} {s : State} (h : Inv s) :
    OutFormed (execCompactorMove core s) := by
  unfold execCompactorMove
  dsimp only
  repeat' split
  all_goals simp +contextual [formed h]

@[simp] theorem noteFreed_mem {s : State} {x idx : Nat} : (noteFreed s x idx).mem = s.mem := rfl

@[simp] theorem execGroupSlotFree_formed {core gslot : Nat} {s : State} (h : Inv s) :
    OutFormed (execGroupSlotFree core gslot s) := by
  unfold execGroupSlotFree
  split <;> simp [formed h]

@[simp] theorem execLaunchComplete_formed {ctx idx : Nat} {s : State} (h : Inv s) :
    OutFormed (execLaunchComplete ctx idx s) := by
  unfold execLaunchComplete
  dsimp only
  repeat' split
  all_goals simp [formed h]

@[simp] theorem execHang_formed {core gslot wid : Nat} {s : State} (h : Inv s) :
    OutFormed (execHang core gslot wid s) := by
  unfold execHang
  split <;> simp [formed h]

@[simp] theorem execTrapTaken_formed {core gslot wid : Nat} {s : State} (h : Inv s) :
    OutFormed (execTrapTaken core gslot wid s) := by
  unfold execTrapTaken
  dsimp only
  repeat' split
  all_goals simp [formed h]

@[simp] theorem restartClock_mem {s : State} {u : Nat × Nat × Nat} {now : Nat} :
    (restartClock s u now).mem = s.mem := by
  simp [restartClock]

@[simp] theorem raiseCycle_formed {s : State} {u : Nat × Nat × Nat} (h : Inv s) : Formed (raiseCycle s u).mem := by
  unfold raiseCycle
  dsimp only
  repeat' split
  all_goals simp [formed h]

@[simp] theorem execProbeSend_formed {core gslot wid : Nat} {s : State} (h : Inv s) :
    OutFormed (execProbeSend core gslot wid s) := by
  unfold execProbeSend
  dsimp only
  repeat' split
  all_goals simp [formed h]

@[simp] theorem execProbeArrival_formed {n : Nat} {s : State} (h : Inv s) : OutFormed (execProbeArrival n s) := by
  unfold execProbeArrival
  dsimp only
  repeat' split
  all_goals simp [formed h]

/-! ### Video -/

@[simp] theorem modBq_mem {s : State} {die q : Nat} {f : BQ → BQ} : (modBq s die q f).mem = s.mem := rfl

@[simp] theorem lowWater_mem {s : State} {die q : Nat} : (lowWater s die q).mem = s.mem := rfl

@[simp] theorem bqPut_formed {s : State} {die q : Nat} {e : List Byte} (h : Inv s) : OptFormed (bqPut s die q e) := by
  simp [bqPut, formed h]

theorem bqGet_mem {s t : State} {die q : Nat} {e : List Byte} (he : bqGet s die q = some (e, t)) : t.mem = s.mem := by
  unfold bqGet at he
  dsimp only at he
  split at he
  · cases he
  · split at he
    · cases he
    · cases he
      rfl

@[simp] theorem runQueueOp_formed {s : State} {die : Nat} {w : Who} {op : AskOp} (h : Inv s) :
    Formed (runQueueOp s die w op).2.mem := by
  unfold runQueueOp
  split
  · split
    · exact h
    · split
      · exact formed_of_some (bqPut_formed h) ‹_›
      · exact h
  · split
    · exact h
    · split
      · rename_i heq
        have ht := bqGet_mem heq
        simp [ht, formed h]
      · exact h
  · exact h

@[simp] theorem answerQueue_formed {s : State} {die : Nat} {a : Ask} (h : Inv s) :
    Formed (answerQueue s die a).mem := by
  simp [answerQueue, formed h]

@[simp] theorem askQueue_formed {s : State} {x : Iss} {m : W32} {r die q : Nat} {op : AskOp} (h : Inv s) :
    ResFormed (askQueue s x m r die q op) := by
  simp [askQueue, formed h]

@[simp] theorem meetQueue_formed {s : State} {die q : Nat} (h : Inv s) : Formed (meetQueue s die q).mem := by
  simp +contextual [meetQueue, formed h]

@[simp] theorem endQueues_formed {s : State} {die : Nat} (h : Inv s) : Formed (endQueues s die).mem := by
  simp +contextual [endQueues, formed h]

theorem withQueue_formed {s : State} {x : Iss} {m : W32} {f : FM} {k : Nat → Nat → Nat → Res} (h : Inv s)
    (hk : ∀ die q va, ResFormed (k die q va)) : ResFormed (withQueue s x m f k) := by
  unfold withQueue
  exact iteInduction (fun _ => h) (fun _ => iteInduction (fun _ => h) (fun _ => iteInduction (fun _ => h)
    (fun _ => hk _ _ _)))

@[simp] theorem execBqput_formed {g : Guard} {f : FM} {s : State} (h : Inv s) : OutFormed (execBqput g f s) := by
  unfold execBqput
  refine orWait_formed (fun _ _ => h) (runWord_formed h (fun x m => withQueue_formed h (fun _ _ _ => ?_)))
  exact iteInduction (fun _ => h) (fun _ => structRead_formed h (fun _ _ ht => by simp [formed ht]))

@[simp] theorem execBqget_formed {g : Guard} {f : FM} {s : State} (h : Inv s) : OutFormed (execBqget g f s) := by
  unfold execBqget
  refine orWait_formed (fun _ _ => h) (runWord_formed h (fun x m => withQueue_formed h (fun _ _ _ => ?_)))
  exact iteInduction (fun _ => h) (fun _ => structRange_formed h (fun _ _ ht => by simp [formed ht]))

@[simp] theorem modDec_mem {s : State} {die d : Nat} {f : Decoder → Decoder} : (modDec s die d f).mem = s.mem := rfl

@[simp] theorem execVdsub_formed {g : Guard} {f : FM} {s : State} (h : Inv s) : OutFormed (execVdsub g f s) := by
  unfold execVdsub
  refine runWord_formed h (fun x m => iteInduction (fun _ => h) (fun _ => iteInduction (fun _ => h) (fun _ =>
    iteInduction (fun _ => h) (fun _ => iteInduction (fun _ => h) (fun _ => ?_)))))
  exact structRead_formed h (fun _ _ ht => by simp [formed ht])

@[simp] theorem decWait_mem {s : State} {die dec page : Nat} : (decWait s die dec page).mem = s.mem := rfl

@[simp] theorem decFault_formed {s : State} {die dec : Nat} {sub : Sub} {v : Nat} {c : Cause} (h : Inv s) :
    Formed (decFault s die dec sub v c).mem := by
  simp [decFault, formed h]

@[simp] theorem execSubmissionStart_formed {die dec : Nat} {s : State} (h : Inv s) :
    OutFormed (execSubmissionStart die dec s) := by
  have hget : ∀ {t : State} {ctx launch va n o}, Machine.Inv t → unitGet t die ctx 5 launch va n = o → UnitFormed o :=
    fun ht he => he ▸ unitGet_formed ht
  unfold execSubmissionStart
  dsimp only
  split
  · exact h
  · rename_i sub rest _
    split
    · exact h
    · split
      · rename_i heq
        simpa using hget h heq
      · rename_i heq
        have ht := hget h heq
        rw [unitFormed_fault] at ht
        split <;> simp [ht]
      · rename_i t heq
        have ht := hget h heq
        rw [unitFormed_ok] at ht
        generalize hw : modDec (match sub.tok with
          | some (w, k) => addToken t w (some k) (-1)
          | none => t) die dec _ = u
        have hu : Formed u.mem := by
          rw [← hw, modDec_mem]
          split <;> simp [ht]
        refine iteInduction (fun _ => by simpa using hu) (fun _ => iteInduction (fun _ => by simpa using hu) (fun _ => ?_))
        split
        · rename_i h1
          simpa using hget hu h1
        · rename_i h1
          exact decFault_formed (hget hu h1)
        · rename_i h1
          have hv := hget hu h1
          split
          · rename_i h2
            simpa using hget hv h2
          · rename_i h2
            exact decFault_formed (hget hv h2)
          · rename_i h2
            simpa using hget hv h2

@[simp] theorem putRows_formed {s : State} {die ctx launch : Nat} {rows : List (Nat × List Byte)} (h : Inv s) :
    UnitFormed (putRows s die ctx launch rows) := by
  induction rows generalizing s with
  | nil => exact h
  | cons p r ih =>
    obtain ⟨va, bs⟩ := p
    have hput : UnitFormed (unitPut s die ctx 5 launch va bs) := unitPut_formed h
    unfold putRows
    split
    · rename_i heq
      rw [heq] at hput
      exact ih hput
    · exact hput

@[simp] theorem execFramePut_formed {die dec : Nat} {s : State} (h : Inv s) : OutFormed (execFramePut die dec s) := by
  unfold execFramePut
  dsimp only
  split
  · rename_i j _ _
    split
    · exact h
    · split
      · exact h
      · have hp := fun rows => putRows_formed (die := die) (ctx := j.ctx) (launch := j.launch) (rows := rows) h
        split
        all_goals
          rename_i heq
          have hu := heq ▸ hp _
        · simpa using hu
        · exact decFault_formed hu
        · split
          · simpa using hu
          · split
            · rename_i hb
              have ht := formed_of_some (bqPut_formed hu) hb
              simpa using ht
            · simpa using hu
  · exact h

@[simp] theorem endSubmission_mem {s : State} {die dec : Nat} {j : DecJob} {status : Nat} :
    (endSubmission s die dec j status).mem = s.mem := by
  simp [endSubmission]

@[simp] theorem execSubmissionEnd_formed {die dec : Nat} {s : State} (h : Inv s) :
    OutFormed (execSubmissionEnd die dec s) := by
  unfold execSubmissionEnd
  dsimp only
  split
  · rename_i j _ _
    split
    · exact h
    · split
      · simp [formed h]
      · have hp := fun va bs => unitPut_formed (die := die) (ctx := j.ctx) (path := 5) (launch := j.launch) (va := va)
          (bs := bs) h
        split
        all_goals
          rename_i heq
          have hu := heq ▸ hp _ _
        · simpa using hu
        · simpa using hu
        · exact decFault_formed hu
  · exact h

/-! ### Context -/

@[simp] theorem completeOpen_formed {s : State} {x code status : Nat} (h : Inv s) :
    Formed (completeOpen s x code status).mem := by
  simp +contextual [completeOpen, formed h]

@[simp] theorem beginSave_mem {s : State} {x : Nat} : (beginSave s x).mem = s.mem := rfl

@[simp] theorem dropGroupWalks_mem {s : State} {c g : Nat} : (dropGroupWalks s c g).mem = s.mem := by
  simp [dropGroupWalks]

@[simp] theorem renameToks_mem {s : State} {f : Who → Who} : (renameToks s f).mem = s.mem := rfl

@[simp] theorem saveGroup_mem {s : State} {x c g : Nat} {k : Machine.Group} {early : Option SavedGroup} :
    (saveGroup s x c g k early).mem = s.mem := by
  simp [saveGroup]

@[simp] theorem writeBackTree_formed {s : State} {x : Nat} (h : Inv s) : Formed (writeBackTree s x).mem := by
  simp +contextual [writeBackTree, formed h]

@[simp] theorem stopRings_mem {s : State} {pasid : Nat} : (stopRings s pasid).mem = s.mem := rfl

@[simp] theorem beginTeardown_formed {s : State} {x : Nat} (h : Inv s) : Formed (beginTeardown s x).mem := by
  simp [beginTeardown, formed h]

@[simp] theorem execInvalidationComplete_formed {ctx : Nat} {s : State} (h : Inv s) :
    OutFormed (execInvalidationComplete ctx s) := by
  simp [execInvalidationComplete, formed h]

@[simp] theorem heldStop_formed {s : State} {x : Nat} (h : Inv s) : Formed (heldStop s x).mem := by
  unfold heldStop
  dsimp only
  repeat' split
  all_goals simp [formed h]

@[simp] theorem startHandlers_mem {s : State} {x : Nat} : (startHandlers s x).mem = s.mem := by
  simp [startHandlers]

@[simp] theorem afterStep_formed {s : State} {o : Out} (h : Inv s) (ho : OutFormed o) : Formed (afterStep s o).mem := by
  cases o with
  | next t => exact ho
  | fault e => exact h
  | refused e => exact h

@[simp] theorem freeRetired_formed {s : State} {x : Nat} (h : Inv s) : Formed (freeRetired s x).mem := by
  unfold freeRetired
  exact foldl_formed (fun t e ht => afterStep_formed ht (execGroupSlotFree_formed ht)) _ h

@[simp] theorem finishSave_formed {s : State} {x : Nat} (h : Inv s) : Formed (finishSave s x).mem := by
  have hend : ∀ t : State, Machine.Inv t → Formed (if awaits t x 2 then beginTeardown t x else t).mem := fun t ht =>
    iteInduction (motive := fun u : State => Formed u.mem) (fun _ => beginTeardown_formed ht) (fun _ => ht)
  unfold finishSave
  dsimp only
  refine hend _ (heldStop_formed (completeOpen_formed (writeBackTree_formed (writeArea_formed ?_))))
  simp [formed h]

@[simp] theorem execSaveComplete_formed {ctx : Nat} {s : State} (h : Inv s) : OutFormed (execSaveComplete ctx s) := by
  simp [execSaveComplete, formed h]

@[simp] theorem execSliceExpiry_formed {ctx : Nat} {s : State} (h : Inv s) : OutFormed (execSliceExpiry ctx s) := by
  simp [execSliceExpiry, formed h]

@[simp] theorem execLazyWriteOutComplete_formed {core ctx : Nat} {s : State} (h : Inv s) :
    OutFormed (execLazyWriteOutComplete core ctx s) := by
  simp [execLazyWriteOutComplete, formed h]

@[simp] theorem clearWay_formed {s : State} {c x : Nat} {g : SavedGroup} {p : Place} (h : Inv s) :
    Formed (clearWay s c x g p).mem := by
  unfold clearWay
  dsimp only
  refine foldl_formed (fun t a ht => ?_) _ ?_
  · split
    · split <;> simp [ht]
    · exact ht
  · split
    · exact h
    · exact foldl_formed (fun _ _ ht => by simp [ht]) _ h

@[simp] theorem retestEvwaits_mem {s : State} {c g : Nat} : (retestEvwaits s c g).mem = s.mem := by
  unfold retestEvwaits
  split
  · rfl
  · refine foldl_mem (fun t e => foldl_mem (fun u i => ?_) _ _) _ _
    repeat' split
    all_goals simp

@[simp] theorem resolveWarp_formed {s : State} {c g w act : Nat} {target : W64} (h : Inv s) :
    Formed (resolveWarp s c g w act target).mem := by
  unfold resolveWarp
  dsimp only
  repeat' split
  all_goals simp [formed h]

@[simp] theorem resolveRole_formed {s : State} {c g w act : Nat} {target : W64} (h : Inv s) :
    Formed (resolveRole s c g w act target).mem := by
  unfold resolveRole
  dsimp only
  repeat' split
  all_goals simp [formed h]

@[simp] theorem ownLines_mem {s : State} {base n : Nat} {poisoned : List Nat} :
    (ownLines s base n poisoned).mem = s.mem := rfl

@[simp] theorem raiseLost_formed {s : State} {c gslot : Nat} {bad : Bool} (h : Inv s) :
    Formed (raiseLost s c gslot bad).mem := by
  unfold raiseLost
  split <;> simp [formed h]

@[simp] theorem restoreAt_formed {s : State} {c x : Nat} {g : SavedGroup} {p : Place} (h : Inv s) :
    Formed (restoreAt s c x g p).mem := by
  unfold restoreAt
  extract_lets old mine here slots blocks lost inPlace window bad freed cx ctr counted grp seat seated powered owned filled cleared
    renamed held noted settled resolved
  have hseat : owned.mem = s.mem := by
    simp [owned, powered, seated]
    rfl
  have hform : Formed owned.mem := hseat ▸ h
  have hfill : Formed filled.mem := by
    clear_value window
    cases window with
    | none => exact hform
    | some bs => exact memory_wf_memSetBytes _ _ hform
  have hsettle : Formed settled.mem := by simp [settled, noted, renamed, cleared, hfill]
  exact raiseLost_formed (foldl_formed (fun _ _ ht => resolveRole_formed ht) _ hsettle)

@[simp] theorem restoreGroup_formed {s : State} {c x : Nat} {g : SavedGroup} {p : Place} (h : Inv s) :
    Formed (restoreGroup s c x g p).mem := by
  unfold restoreGroup
  dsimp only
  repeat' split
  all_goals simp [formed h]

@[simp] theorem claimsFirst_formed {s : State} {x : Nat} (h : Inv s) : Formed (claimsFirst s x).mem := by
  have hplace : ∀ (t : State) (l : List Nat),
    Formed t.mem → Formed (l.foldl (fun s c => afterStep s (execGroupPlace c s)) t).mem :=
    fun _ l ht => foldl_formed (fun _ _ hu => afterStep_formed hu (execGroupPlace_formed hu)) l ht
  have hdet : ∀ (t : State) (l : List (Nat × Nat)), Formed t.mem →
      Formed (l.foldl (fun s e => afterStep s (execDetDispatch e.1 e.2 s)) t).mem :=
    fun _ l ht => foldl_formed (fun _ _ hu => afterStep_formed hu (execDetDispatch_formed hu)) l ht
  have hmove : ∀ (t : State) (l : List Nat), Formed t.mem →
      Formed (l.foldl (fun s c => afterStep s (execCompactorMove c s)) t).mem :=
    fun _ l ht => foldl_formed (fun _ _ hu => afterStep_formed hu (execCompactorMove_formed hu)) l ht
  have hout : ∀ l : List Nat, Formed (l.foldl (fun s c => writeOut s c x) s).mem :=
    fun l => foldl_formed (fun _ _ hu => writeOut_formed hu) l h
  unfold claimsFirst
  dsimp only
  split
  · exact hout _
  · exact hdet _ _ (hplace _ _ (hmove _ _ (hdet _ _ (hplace _ _ (hout _)))))

@[simp] theorem placeSaved_formed {s : State} {x : Nat} (h : Inv s) : Formed (placeSaved s x).mem := by
  unfold placeSaved
  split
  · exact h
  · refine foldl_formed (fun t e ht => ?_) _ (claimsFirst_formed h)
    repeat' split
    all_goals simp [ht]

@[simp] theorem beginResume_formed {s : State} {x : Nat} (h : Inv s) : Formed (beginResume s x).mem := by
  simp [beginResume, formed h]

@[simp] theorem execResumeComplete_formed {ctx : Nat} {s : State} (h : Inv s) :
    OutFormed (execResumeComplete ctx s) := by
  have hp := placeSaved_formed (x := ctx) h
  have hend : ∀ t : State, Machine.Inv t → OutFormed (if !awaits t ctx 0 then .next t
      else if (ctxOf t ctx).st == .resident then .next (beginSave t ctx) else .next
        (completeOpen t ctx 0 5)) := fun t ht => by
    refine iteInduction (fun _ => ht) (fun _ => iteInduction (fun _ => ?_) (fun _ => completeOpen_formed ht))
    simpa using ht
  unfold execResumeComplete
  generalize placeSaved s ctx = t at hp
  dsimp only
  split
  · exact h
  · split
    · exact hp
    · refine hend _ (heldStop_formed (completeOpen_formed ?_))
      split
      · exact writeArea_formed (by simpa using hp)
      · simpa using hp

@[simp] theorem activate_mem {s : State} : (activate s).mem = s.mem := by
  unfold activate
  split <;> simp

@[simp] theorem execFirmwareActivation_formed {s : State} (h : Inv s) : OutFormed (execFirmwareActivation s) := by
  simp [execFirmwareActivation, formed h]

end Sys2Proof.Proofs
end

