-- ==== Sys2Proof/Proofs/MemoryFormCycles.lean ====
section
/-!
Memory's form through the end of a cycle, the host's packets and commands, and the links.
-/
namespace Sys2Proof.Proofs
open Sys2Proof.Machine

/-! ### Cycle -/

@[simp] theorem endWaits_mem {s : State} {die : Nat} : (endWaits s die).mem = s.mem := by
  simp [endWaits]

@[simp] theorem newTurns_mem {s : State} {die : Nat} : (newTurns s die).mem = s.mem := rfl

@[simp] theorem endNaks_mem {s : State} {die : Nat} : (endNaks s die).mem = s.mem := by
  simp [endNaks]

@[simp] theorem endCycle_formed {s : State} {die : Nat} (h : Inv s) : Formed (endCycle s die).mem := by
  have hc : Formed (endCistern (endQueues s die) die).mem := endCistern_formed (endQueues_formed h)
  unfold endCycle
  simp [hc]

@[simp] theorem newCycle_mem {s : State} {die : Nat} : (newCycle s die).mem = s.mem := by
  simp [newCycle]

@[simp] theorem execDiecycleAdvance_formed {die : Nat} {s : State} (h : Inv s) :
    OutFormed (execDiecycleAdvance die s) := by
  simp [execDiecycleAdvance, formed h]

/-! ### Wellhead -/

@[simp] theorem execRingDoorbell_formed {fn ring : Nat} {tail : BitVec 16} {s : State} (h : Inv s) :
    OutFormed (execRingDoorbell fn ring tail s) := by
  simp [execRingDoorbell, formed h]

@[simp] theorem execRingEnable_formed {fn ring : Nat} {s : State} (h : Inv s) :
    OutFormed (execRingEnable fn ring s) := by
  simp [execRingEnable, formed h]

@[simp] theorem execRegisterWrite_formed {fn ring : Nat} {v : BitVec 128} {s : State} (h : Inv s) :
    OutFormed (execRegisterWrite fn ring v s) := by
  simp [execRegisterWrite, formed h]

@[simp] theorem execVfEnable_formed {v : Nat} {on : Bool} {s : State} (h : Inv s) :
    OutFormed (execVfEnable v on s) := by
  simp [execVfEnable, formed h]

@[simp] theorem extendMeas_mem {s : State} {i : Nat} {data : List Byte} : (extendMeas s i data).mem = s.mem := rfl

@[simp] theorem bindDecoders_mem {s : State} : (bindDecoders s).mem = s.mem := by
  simp [bindDecoders]

@[simp] theorem execPartitionRegisterWrite_formed {p : Nat} {v : BitVec 128} {s : State} (h : Inv s) :
    OutFormed (execPartitionRegisterWrite p v s) := by
  simp [execPartitionRegisterWrite, formed h]

@[simp] theorem packetDone_formed {s : State} {k : Pkt} {status result : Nat} (h : Inv s) :
    Formed (packetDone s k status result).mem := by
  simp [packetDone, formed h]

theorem withPacket_formed {k : Pkt} {control bad : Bool} {s : State} {f : Nat → State → State} (h : Inv s)
    (hf : ∀ p t, Machine.Inv t → Formed (f p t).mem) : OutFormed (withPacket k control bad s f) := by
  have hr : ∀ g : Ring → Ring, Formed (modRing s k.ring g).mem := fun g => by simp [formed h]
  unfold withPacket
  split
  · exact h
  · dsimp only
    refine iteInduction (fun _ => h) (fun _ => iteInduction (fun _ => hr _) (fun _ => iteInduction (fun _ => h)
      (fun _ => ?_)))
    refine iteInduction (fun _ => hr _) (fun _ => iteInduction (fun _ => packetDone_formed (hr _)) (fun _ => ?_))
    exact iteInduction (fun _ => packetDone_formed (hr _)) (fun _ => hf _ _ (hr _))

theorem withContext_formed {k : Pkt} {bad : Bool} {s : State} {f : Nat → State → State} (h : Inv s)
    (hf : ∀ p t, Machine.Inv t → Formed (f p t).mem) : OutFormed (withContext k bad s f) := by
  unfold withContext
  refine withPacket_formed h (fun p t ht => ?_)
  refine iteInduction (motive := fun u : State => Formed u.mem) (fun _ => packetDone_formed ht) (fun _ => ?_)
  exact iteInduction (motive := fun u : State => Formed u.mem) (fun _ => packetDone_formed ht) (fun _ => hf _ _ ht)

@[simp] theorem waitFor_mem {s : State} {x code : Nat} {k : Pkt} : (waitFor s x code k).mem = s.mem := rfl

@[simp] theorem execPostEvent_formed {k : Pkt} {s : State} (h : Inv s) : OutFormed (execPostEvent k s) := by
  unfold execPostEvent
  refine withPacket_formed h (fun p t ht => ?_)
  exact iteInduction (motive := fun u : State => Formed u.mem) (fun _ => packetDone_formed ht) (fun _ => by simpa using ht)

@[simp] theorem execCreate_formed {k : Pkt} {s : State} (h : Inv s) : OutFormed (execCreate k s) := by
  unfold execCreate
  refine withPacket_formed h (fun p t ht => ?_)
  dsimp only
  split
  · exact packetDone_formed ht
  · split
    · exact packetDone_formed ht
    · split
      · exact packetDone_formed ht
      · split
        · exact packetDone_formed ht
        · split
          · exact packetDone_formed ht
          · split
            · exact packetDone_formed ht
            · exact packetDone_formed (writeBackTree_formed (by simpa using ht))

@[simp] theorem execPreempt_formed {k : Pkt} {s : State} (h : Inv s) : OutFormed (execPreempt k s) := by
  unfold execPreempt
  refine withContext_formed h (fun p t ht => ?_)
  split <;> simp [formed ht]

@[simp] theorem execResume_formed {k : Pkt} {s : State} (h : Inv s) : OutFormed (execResume k s) := by
  unfold execResume
  refine withContext_formed h (fun p t ht => ?_)
  split <;> simp [formed ht]

@[simp] theorem execTeardown_formed {k : Pkt} {s : State} (h : Inv s) : OutFormed (execTeardown k s) := by
  unfold execTeardown
  refine withContext_formed h (fun p t ht => ?_)
  split <;> simp [formed ht]

@[simp] theorem execRegionUpdate_formed {k : Pkt} {s : State} (h : Inv s) : OutFormed (execRegionUpdate k s) := by
  unfold execRegionUpdate
  refine withContext_formed h (fun p t ht => ?_)
  dsimp only
  repeat' split
  all_goals simp [formed ht]

@[simp] theorem execRegionReset_formed {k : Pkt} {s : State} (h : Inv s) : OutFormed (execRegionReset k s) := by
  unfold execRegionReset
  refine withContext_formed h (fun p t ht => ?_)
  dsimp only
  repeat' split
  all_goals simp [formed ht]

@[simp] theorem execDomainConfig_formed {k : Pkt} {s : State} (h : Inv s) : OutFormed (execDomainConfig k s) := by
  unfold execDomainConfig
  refine withPacket_formed h (fun p t ht => ?_)
  dsimp only
  repeat' split
  all_goals simp [formed ht]

@[simp] theorem execStreamBind_formed {k : Pkt} {s : State} (h : Inv s) : OutFormed (execStreamBind k s) := by
  unfold execStreamBind
  refine withPacket_formed h (fun p t ht => ?_)
  dsimp only
  repeat' split
  all_goals simp [formed ht]

@[simp] theorem execStreamClose_formed {k : Pkt} {s : State} (h : Inv s) : OutFormed (execStreamClose k s) := by
  unfold execStreamClose
  refine withPacket_formed h (fun p t ht => ?_)
  dsimp only
  repeat' split
  all_goals simp [formed ht]

/-! ### PageCmds -/

@[simp] theorem mbDone_mem {s : State} {m : Mb} {status result value : Nat} {body : List Byte} :
    (mbDone s m status result value body).mem = s.mem := rfl

theorem withMail_formed {m : Mb} {cls : Nat} {s : State} {f : State → State} (h : Inv s) (hf : Formed (f s).mem) :
    OutFormed (withMail m cls s f) := by
  unfold withMail
  repeat' split
  all_goals simp [formed h, hf]

@[simp] theorem wakeDecoders_mem {s : State} {ready : Nat → Nat → Bool} : (wakeDecoders s ready).mem = s.mem := rfl

@[simp] theorem wakeCslots_formed {s : State} {ready : Nat → Nat → Bool} (h : Inv s) :
    Formed (wakeCslots s ready).mem := by
  unfold wakeCslots
  refine foldl_formed (fun t e ht => ?_) _ h
  obtain ⟨n, k⟩ := e
  refine foldl_formed (fun u q hu => ?_) _ (retryStaged_formed ht)
  obtain ⟨i, c⟩ := q
  dsimp only
  repeat' split
  all_goals simp [hu]

@[simp] theorem wakeWalkers_mem {s : State} {ready : Nat → Nat → Bool} : (wakeWalkers s ready).mem = s.mem := by
  simp [wakeWalkers]

@[simp] theorem wakeWaiters_formed {s : State} {ready : Nat → Nat → Bool} (h : Inv s) :
    Formed (wakeWaiters s ready).mem := by
  simp [wakeWaiters, formed h]

@[simp] theorem failRole_formed {s : State} {range : Nat → Bool} {cause : Cause} {who : Who} {kind : Nat}
    {accs : List (Nat × Nat)} (h : Inv s) : Formed (failRole s range cause who kind accs).mem := by
  unfold failRole
  dsimp only
  repeat' split
  all_goals simp [formed h]

@[simp] theorem failOne_formed {s : State} {bad range : Nat → Nat → Bool} {cause : Cause} {w : Who} (h : Inv s) :
    Formed (failOne s bad range cause w).mem := by
  unfold failOne
  dsimp only
  repeat' split
  all_goals simp [formed h]

@[simp] theorem failDecoders_formed {s : State} {bad : Nat → Nat → Bool} {cause : Cause} (h : Inv s) :
    Formed (failDecoders s bad cause).mem := by
  unfold failDecoders
  refine foldl_formed (fun t e ht => foldl_formed (fun u q hu => ?_) _ ht) _ h
  obtain ⟨i, d⟩ := q
  dsimp only
  split
  · rename_i sub _ _ _
    split
    · have hget : UnitFormed (unitGet u e.1 sub.ctx 5 sub.launch sub.va 64) := unitGet_formed hu
      split
      all_goals
        rename_i heq
        rw [heq] at hget
      · exact decFault_formed hget
      · exact regionFault_formed (by simpa using hget)
      · exact regionFault_formed (by simpa using hget)
    · exact hu
  · exact hu

@[simp] theorem failWaiters_formed {s : State} {bad range : Nat → Nat → Bool} {cause : Cause} (h : Inv s) :
    Formed (failWaiters s bad range cause).mem := by
  unfold failWaiters
  dsimp only
  refine failDecoders_formed (foldl_formed (fun t e ht => foldl_formed (fun u q hu => ?_) _ (failStaged_formed ht)) _
    (foldl_formed (fun t e ht => foldl_formed (fun u d hu => ?_) _ (foldl_formed (fun u q hu => ?_) _ ht)) _
      (foldl_formed (fun t e ht => foldl_formed (fun u w hu => failOne_formed hu) _ ht) _ h)))
  all_goals
    repeat' split
    all_goals simp [hu]

@[simp] theorem invalidate_mem {s : State} {c : PageCmd} : (invalidate s c).mem = s.mem := rfl

@[simp] theorem squashBuffered_mem {s : State} {x : Nat} : (squashBuffered s x).mem = s.mem := rfl

@[simp] theorem closeRequests_mem {s : State} {gone : Nat → Nat → Bool} : (closeRequests s gone).mem = s.mem := rfl

@[simp] theorem pageCmdEffect_formed {s : State} {c : PageCmd} (h : Inv s) : Formed (pageCmdEffect s c).mem := by
  unfold pageCmdEffect
  split <;> simp [formed h]

@[simp] theorem finishPageCmd_formed {s : State} {c : PageCmd} (h : Inv s) : Formed (finishPageCmd s c).mem := by
  simp [finishPageCmd, formed h]

@[simp] theorem takePageCmd_mem {s : State} {c : PageCmd} : (takePageCmd s c).mem = s.mem := rfl

@[simp] theorem pageCommand_formed {m : Mb} {cmd : BitVec 256} {action : Nat} {s : State} (h : Inv s) :
    OutFormed (pageCommand m cmd action s) := by
  unfold pageCommand
  split
  · exact finishPageCmd_formed h
  · refine withMail_formed h ?_
    split
    · simpa using h
    · exact finishPageCmd_formed (by simpa using h)

@[simp] theorem execPageInval_formed {m : Mb} {cmd : BitVec 256} {s : State} (h : Inv s) :
    OutFormed (execPageInval m cmd s) := by
  simp [execPageInval, formed h]

@[simp] theorem execPageResolve_formed {m : Mb} {cmd : BitVec 256} {s : State} (h : Inv s) :
    OutFormed (execPageResolve m cmd s) := by
  simp [execPageResolve, formed h]

@[simp] theorem execPageFail_formed {m : Mb} {cmd : BitVec 256} {s : State} (h : Inv s) :
    OutFormed (execPageFail m cmd s) := by
  simp [execPageFail, formed h]

@[simp] theorem settleWaiter_mem {s : State} {die : Nat} {who : Who} : (settleWaiter s die who).mem = s.mem := by
  unfold settleWaiter
  dsimp only
  repeat' split
  all_goals simp

@[simp] theorem execPageWalkComplete_formed {die n : Nat} {s : State} (h : Inv s) :
    OutFormed (execPageWalkComplete die n s) := by
  unfold execPageWalkComplete
  split
  · exact h
  · rename_i w _
    dsimp only
    split
    · exact h
    · split
      · simpa using h
      · rename_i x _
        split
        · simpa using h
        · have hw : Formed (walk s die w.pasid (ctxOf s x).ptroot (w.page * 4096)).2.mem := walk_formed h
          split
          · simpa using hw
          · simpa using hw
          · simpa using hw
          · split
            · rename_i heq
              have ht := formed_of_some (startPull_formed hw) heq
              simpa using ht
            · simpa using hw
          · simpa using hw

@[simp] theorem pullRecord_formed {s : State} {rec_ off v : Nat} (h : Inv s) :
    Formed (pullRecord s rec_ off v).mem := by
  simp [pullRecord, formed h]

@[simp] theorem execPullAttemptComplete_formed {n : Nat} {page : List Byte} {ok : Bool} {s : State} (h : Inv s) :
    OutFormed (execPullAttemptComplete n page ok s) := by
  unfold execPullAttemptComplete
  split
  · exact h
  · dsimp only
    refine iteInduction (fun _ => h) (fun _ => iteInduction (fun _ => h) (fun _ => iteInduction (fun _ => ?_)
      (fun _ => ?_)))
    · refine iteInduction (fun _ => wakeWaiters_formed h) (fun _ => ?_)
      exact wakeWaiters_formed (unitWrite_formed (pullRecord_formed (pullRecord_formed (unitWrite_formed h))))
    · refine iteInduction (fun _ => pullRecord_formed h) (fun _ => ?_)
      exact failWaiters_formed (unitWrite_formed (pullRecord_formed (pullRecord_formed h)))

@[simp] theorem execPullRetry_formed {n : Nat} {s : State} (h : Inv s) : OutFormed (execPullRetry n s) := by
  unfold execPullRetry
  split <;> simp [formed h]

@[simp] theorem execHostWrite_formed {pa : Nat} {bytes : List Byte} {s : State} (h : Inv s) :
    OutFormed (execHostWrite pa bytes s) := by
  simp [execHostWrite, formed h]

/-! ### Debug -/

theorem withDebug_formed {m : Mb} {cmd : BitVec 256} {op level : Nat} {s : State} {f : DbgCmd → State → State} (h : Inv s)
    (hf : ∀ d, Formed (f d s).mem) : OutFormed (withDebug m cmd op level s f) := by
  unfold withDebug
  refine withMail_formed h ?_
  dsimp only
  repeat' split
  all_goals simp [formed h, hf]

@[simp] theorem execTrapcfg_formed {m : Mb} {cmd : BitVec 256} {s : State} (h : Inv s) :
    OutFormed (execTrapcfg m cmd s) := by
  unfold execTrapcfg
  refine withDebug_formed h (fun d => ?_)
  dsimp only
  repeat' split
  all_goals simp [formed h]

@[simp] theorem execTracecfg_formed {m : Mb} {cmd : BitVec 256} {s : State} (h : Inv s) :
    OutFormed (execTracecfg m cmd s) := by
  unfold execTracecfg
  refine withDebug_formed h (fun d => ?_)
  dsimp only
  repeat' split
  all_goals simp [formed h]

@[simp] theorem resolveCmd_formed {m : Mb} {cmd : BitVec 256} {act : Nat} {s : State} (h : Inv s) :
    OutFormed (resolveCmd m cmd act s) := by
  unfold resolveCmd
  refine withDebug_formed h (fun d => ?_)
  dsimp only
  repeat' split
  all_goals simp [formed h]

@[simp] theorem execResolveRetry_formed {m : Mb} {cmd : BitVec 256} {s : State} (h : Inv s) :
    OutFormed (execResolveRetry m cmd s) := by
  simp [execResolveRetry, formed h]

@[simp] theorem execResolveSkip_formed {m : Mb} {cmd : BitVec 256} {s : State} (h : Inv s) :
    OutFormed (execResolveSkip m cmd s) := by
  simp [execResolveSkip, formed h]

@[simp] theorem execResolveGoto_formed {m : Mb} {cmd : BitVec 256} {s : State} (h : Inv s) :
    OutFormed (execResolveGoto m cmd s) := by
  simp [execResolveGoto, formed h]

@[simp] theorem execResolveRestart_formed {m : Mb} {cmd : BitVec 256} {s : State} (h : Inv s) :
    OutFormed (execResolveRestart m cmd s) := by
  simp [execResolveRestart, formed h]

@[simp] theorem execResolveKill_formed {m : Mb} {cmd : BitVec 256} {s : State} (h : Inv s) :
    OutFormed (execResolveKill m cmd s) := by
  simp [execResolveKill, formed h]

@[simp] theorem execHalt_formed {m : Mb} {cmd : BitVec 256} {s : State} (h : Inv s) : OutFormed (execHalt m cmd s) := by
  unfold execHalt
  refine withDebug_formed h (fun d => ?_)
  dsimp only
  repeat' split
  all_goals simp [formed h]

@[simp] theorem releaseWarp_mem {s : State} {c g w : Nat} : (releaseWarp s c g w).mem = s.mem := by
  refine (foldl_mem (fun t i => ?_) _ _).trans (modWarp_mem ..)
  split <;> simp

@[simp] theorem lateExpiry_mem {s : State} {x : Nat} : (lateExpiry s x).mem = s.mem := by
  simp [lateExpiry]

@[simp] theorem execRelease_formed {m : Mb} {cmd : BitVec 256} {s : State} (h : Inv s) :
    OutFormed (execRelease m cmd s) := by
  unfold execRelease
  refine withDebug_formed h (fun d => ?_)
  repeat' split
  all_goals simp [formed h]

@[simp] theorem execStep_formed {m : Mb} {cmd : BitVec 256} {s : State} (h : Inv s) : OutFormed (execStep m cmd s) := by
  unfold execStep
  refine withDebug_formed h (fun d => ?_)
  repeat' split
  all_goals simp [formed h]

theorem regCmd_formed {m : Mb} {cmd : BitVec 256} {op : Nat} {s : State}
    {f : DbgCmd → Machine.Group → Warp → Bool → Nat → Nat → State → State} (h : Inv s)
    (hf : ∀ d g y u n l, Formed (f d g y u n l s).mem) : OutFormed (regCmd m cmd op s f) := by
  unfold regCmd
  refine withDebug_formed h (fun d => ?_)
  repeat' split
  all_goals simp [formed h, hf]

@[simp] theorem execReadreg_formed {m : Mb} {cmd : BitVec 256} {s : State} (h : Inv s) :
    OutFormed (execReadreg m cmd s) := by
  unfold execReadreg
  exact regCmd_formed h (fun _ _ _ _ _ _ => by simp [formed h])

@[simp] theorem execWritereg_formed {m : Mb} {cmd : BitVec 256} {s : State} (h : Inv s) :
    OutFormed (execWritereg m cmd s) := by
  unfold execWritereg
  refine regCmd_formed h (fun _ _ _ u _ _ => ?_)
  cases u <;> simp [formed h]

/-! ### System -/

@[simp] theorem execSyscall_formed {g : Guard} {f : FA} {s : State} (h : Inv s) : OutFormed (execSyscall g f s) := by
  unfold execSyscall
  exact runWord_formed h (fun x m => iteInduction (fun _ => h) (fun _ => by simp [formed h]))

@[simp] theorem replyTo_mem {s : State} {die : Nat} {w : Who} {m : W32} {id q : Nat} {val : Nat → Nat} :
    (replyTo s die w m id q val).mem = s.mem := by
  unfold replyTo
  dsimp only
  repeat' split
  all_goals simp

@[simp] theorem execSyscallReply_formed {r : Replier} {seq : BitVec 32} {vals : List W64} {s : State} (h : Inv s) :
    OutFormed (execSyscallReply r seq vals s) := by
  unfold execSyscallReply
  dsimp only
  split
  · split
    · split <;> simp [formed h]
    · exact h
  · refine withMail_formed h ?_
    repeat' split
    all_goals simp [formed h]

@[simp] theorem execTrap_formed {g : Guard} {f : FI} {s : State} (h : Inv s) : OutFormed (execTrap g f s) := by
  unfold execTrap
  exact runWord_formed h (fun _ _ => h)

@[simp] theorem execBrkpt_formed {g : Guard} {f : FI} {s : State} (h : Inv s) : OutFormed (execBrkpt g f s) := by
  unfold execBrkpt
  exact runWord_formed h (fun x m => iteInduction (fun _ => by simp [formed h]) (fun _ => h))

@[simp] theorem execRdcyc_formed {g : Guard} {f : FA} {s : State} (h : Inv s) : OutFormed (execRdcyc g f s) := by
  unfold execRdcyc
  exact runWord_formed h (fun x m => by simp [formed h])

/-! ### Link -/

@[simp] theorem linkEvent_mem {s : State} {p lost : Nat} : (linkEvent s p lost).mem = s.mem := by
  unfold linkEvent
  split <;> simp

@[simp] theorem portTo_mem {s : State} {p : Nat} {st : PState} : (portTo s p st).mem = s.mem := by
  simp [portTo]

@[simp] theorem portLost_mem {s : State} {p : Nat} : (portLost s p).2.mem = s.mem := by
  simp [portLost]

@[simp] theorem portDown_mem {s : State} {p : Nat} {st : PState} : (portDown s p st).mem = s.mem := by
  simp [portDown]

@[simp] theorem execPortTrained_formed {port : Nat} {s : State} (h : Inv s) : OutFormed (execPortTrained port s) := by
  unfold execPortTrained
  split <;> simp [formed h]

@[simp] theorem execTrainingTimeout_formed {port : Nat} {s : State} (h : Inv s) :
    OutFormed (execTrainingTimeout port s) := by
  unfold execTrainingTimeout
  split <;> simp [formed h]

@[simp] theorem execLossOfSignal_formed {port : Nat} {s : State} (h : Inv s) : OutFormed (execLossOfSignal port s) := by
  simp [execLossOfSignal, formed h]

@[simp] theorem execUcieModuleDown_formed {k : Nat} {s : State} (h : Inv s) : OutFormed (execUcieModuleDown k s) := by
  simp [execUcieModuleDown, formed h]

@[simp] theorem execUcieModuleActive_formed {k : Nat} {s : State} (h : Inv s) :
    OutFormed (execUcieModuleActive k s) := by
  simp [execUcieModuleActive, formed h]

@[simp] theorem execRouteTableLoad_formed {t : List (Nat × Nat × Option Nat)} {s : State} (h : Inv s) :
    OutFormed (execRouteTableLoad t s) := by
  simp [execRouteTableLoad, formed h]

@[simp] theorem sendControl_mem {s : State} {p type : Nat} : (sendControl s p type).mem = s.mem := rfl

@[simp] theorem landEvents_mem {s : State} {p : Nat} {f : BitVec 1280} : (landEvents s p f).mem = s.mem := by
  simp [landEvents]

@[simp] theorem landGet_formed {s : State} {xid addr : Nat} {bs : List Byte} (h : Inv s) :
    OptFormed (landGet s xid addr bs) := by
  unfold landGet
  split
  · exact h
  · rename_i n c _
    split
    · rename_i k g _ _
      have hp := putElement_formed (core := n) (g := g) (c := c) (k := k) (bs := bs) h
      split
      all_goals
        rename_i heq
        rw [heq] at hp
      · simpa using hp
      · simpa using hp
      · simpa using hp
      · trivial
    · exact h

@[simp] theorem sendLine_formed {s : State} {f : BitVec 1280} {op : Nat} (h : Inv s) : OptFormed (sendLine s f op) := by
  unfold sendLine
  split <;> simp [formed h]

@[simp] theorem forward_formed {s : State} {f : BitVec 1280} (h : Inv s) : OptFormed (forward s f) := by
  unfold forward
  split <;> simp [formed h]

@[simp] theorem landFlit_formed {s : State} {p : Nat} {f : BitVec 1280} (h : Inv s) : OptFormed (landFlit s p f) := by
  unfold landFlit
  dsimp only
  repeat' split
  all_goals simp [formed h]

@[simp] theorem execFlitReceive_formed {port : Nat} {flit : BitVec 1280} {s : State} (h : Inv s) :
    OutFormed (execFlitReceive port flit s) := by
  unfold execFlitReceive
  dsimp only
  split
  · exact h
  · split
    · split <;> simp [formed h]
    · split
      · simpa using h
      · have ha : Formed (if flitFld flit 35 1 = 1 then ackFlits s port (flitFld flit 36 12) else s).mem := by
          split <;> simp [formed h]
        generalize (if flitFld flit 35 1 = 1 then ackFlits s port (flitFld flit 36 12) else s) = t at ha
        refine iteInduction (fun _ => ha) (fun _ => iteInduction (fun _ => ?_) (fun _ => ?_))
        · split <;> simp [ha]
        · split
          · exact ha
          · rename_i heq
            have hu := formed_of_some (landFlit_formed ha) heq
            simpa using hu

end Sys2Proof.Proofs
end

