-- ==== Sys2Proof/Proofs/MemoryFormPlatform.lean ====
section
/-!
Memory's form through the integer and pair words, the platform's steps, conversions, uniform words and dispatch.
-/
namespace Sys2Proof.Proofs
open Sys2Proof.Machine

/-! ### VecInt -/

@[simp] theorem intA2_formed {g : Guard} {f : FA} {op : Nat → Nat → Nat} {s : State} (h : Inv s) :
    OutFormed (intA2 g f op s) := by
  simp [intA2, formed h]

@[simp] theorem intA1_formed {g : Guard} {f : FA} {op : Nat → Nat} {s : State} (h : Inv s) :
    OutFormed (intA1 g f op s) := by
  simp [intA1, formed h]

@[simp] theorem shiftA_formed {g : Guard} {f : FA} {op : Nat → Nat → Nat} {s : State} (h : Inv s) :
    OutFormed (shiftA g f op s) := by
  simp [shiftA, formed h]

@[simp] theorem execIadd_formed {g : Guard} {f : FA} {s : State} (h : Inv s) : OutFormed (execIadd g f s) := by
  simp [execIadd, formed h]

@[simp] theorem execIsub_formed {g : Guard} {f : FA} {s : State} (h : Inv s) : OutFormed (execIsub g f s) := by
  simp [execIsub, formed h]

@[simp] theorem execImul_formed {g : Guard} {f : FA} {s : State} (h : Inv s) : OutFormed (execImul g f s) := by
  simp [execImul, formed h]

@[simp] theorem execImulh_formed {g : Guard} {f : FA} {s : State} (h : Inv s) : OutFormed (execImulh g f s) := by
  simp [execImulh, formed h]

@[simp] theorem execImad_formed {g : Guard} {f : FB} {s : State} (h : Inv s) : OutFormed (execImad g f s) := by
  simp [execImad, formed h]

@[simp] theorem execIdiv_formed {g : Guard} {f : FA} {s : State} (h : Inv s) : OutFormed (execIdiv g f s) := by
  simp [execIdiv, formed h]

@[simp] theorem execIrem_formed {g : Guard} {f : FA} {s : State} (h : Inv s) : OutFormed (execIrem g f s) := by
  simp [execIrem, formed h]

@[simp] theorem execImin_formed {g : Guard} {f : FA} {s : State} (h : Inv s) : OutFormed (execImin g f s) := by
  simp [execImin, formed h]

@[simp] theorem execImax_formed {g : Guard} {f : FA} {s : State} (h : Inv s) : OutFormed (execImax g f s) := by
  simp [execImax, formed h]

@[simp] theorem execIabs_formed {g : Guard} {f : FA} {s : State} (h : Inv s) : OutFormed (execIabs g f s) := by
  simp [execIabs, formed h]

@[simp] theorem execIneg_formed {g : Guard} {f : FA} {s : State} (h : Inv s) : OutFormed (execIneg g f s) := by
  simp [execIneg, formed h]

@[simp] theorem execIsad_formed {g : Guard} {f : FB} {s : State} (h : Inv s) : OutFormed (execIsad g f s) := by
  simp [execIsad, formed h]

@[simp] theorem execIaddc_formed {g : Guard} {f : FA} {s : State} (h : Inv s) : OutFormed (execIaddc g f s) := by
  unfold execIaddc
  exact runWord_formed h (fun _ _ => by simp [formed h])

@[simp] theorem execAnd_formed {g : Guard} {f : FA} {s : State} (h : Inv s) : OutFormed (execAnd g f s) := by
  simp [execAnd, formed h]

@[simp] theorem execOr_formed {g : Guard} {f : FA} {s : State} (h : Inv s) : OutFormed (execOr g f s) := by
  simp [execOr, formed h]

@[simp] theorem execXor_formed {g : Guard} {f : FA} {s : State} (h : Inv s) : OutFormed (execXor g f s) := by
  simp [execXor, formed h]

@[simp] theorem execNot_formed {g : Guard} {f : FA} {s : State} (h : Inv s) : OutFormed (execNot g f s) := by
  simp [execNot, formed h]

@[simp] theorem execAndn_formed {g : Guard} {f : FA} {s : State} (h : Inv s) : OutFormed (execAndn g f s) := by
  simp [execAndn, formed h]

@[simp] theorem execShl_formed {g : Guard} {f : FA} {s : State} (h : Inv s) : OutFormed (execShl g f s) := by
  simp [execShl, formed h]

@[simp] theorem execShr_formed {g : Guard} {f : FA} {s : State} (h : Inv s) : OutFormed (execShr g f s) := by
  simp [execShr, formed h]

@[simp] theorem execSar_formed {g : Guard} {f : FA} {s : State} (h : Inv s) : OutFormed (execSar g f s) := by
  simp [execSar, formed h]

@[simp] theorem execRot_formed {g : Guard} {f : FA} {s : State} (h : Inv s) : OutFormed (execRot g f s) := by
  simp [execRot, formed h]

@[simp] theorem execFunnel_formed {g : Guard} {f : FB} {s : State} (h : Inv s) : OutFormed (execFunnel g f s) := by
  simp [execFunnel, formed h]

@[simp] theorem execPopc_formed {g : Guard} {f : FA} {s : State} (h : Inv s) : OutFormed (execPopc g f s) := by
  simp [execPopc, formed h]

@[simp] theorem execClz_formed {g : Guard} {f : FA} {s : State} (h : Inv s) : OutFormed (execClz g f s) := by
  simp [execClz, formed h]

@[simp] theorem execCtz_formed {g : Guard} {f : FA} {s : State} (h : Inv s) : OutFormed (execCtz g f s) := by
  simp [execCtz, formed h]

@[simp] theorem execBrev_formed {g : Guard} {f : FA} {s : State} (h : Inv s) : OutFormed (execBrev g f s) := by
  simp [execBrev, formed h]

@[simp] theorem execBfe_formed {g : Guard} {f : FB} {s : State} (h : Inv s) : OutFormed (execBfe g f s) := by
  simp [execBfe, formed h]

@[simp] theorem execBfi_formed {g : Guard} {f : FB} {s : State} (h : Inv s) : OutFormed (execBfi g f s) := by
  simp [execBfi, formed h]

@[simp] theorem execSel_formed {g : Guard} {f : FB} {s : State} (h : Inv s) : OutFormed (execSel g f s) := by
  unfold execSel
  exact runWord_formed h (fun _ _ => by simp [formed h])

@[simp] theorem execIcmp_formed {g : Guard} {f : FA} {s : State} (h : Inv s) : OutFormed (execIcmp g f s) := by
  simp [execIcmp, formed h]

@[simp] theorem execMov_formed {g : Guard} {f : FA} {s : State} (h : Inv s) : OutFormed (execMov g f s) := by
  simp [execMov, formed h]

@[simp] theorem execMovi_formed {g : Guard} {f : FI} {s : State} (h : Inv s) : OutFormed (execMovi g f s) := by
  unfold execMovi
  exact runWord_formed h (fun _ _ => by simp [formed h])

@[simp] theorem execMovhi_formed {g : Guard} {f : FI} {s : State} (h : Inv s) : OutFormed (execMovhi g f s) := by
  unfold execMovhi
  exact runWord_formed h (fun _ _ => by simp [formed h])

@[simp] theorem execLea_formed {g : Guard} {f : FB} {s : State} (h : Inv s) : OutFormed (execLea g f s) := by
  unfold execLea
  refine runWord_formed h (fun _ _ => ?_)
  rw [resFormed_done, writeLanes_mem]
  exact h

@[simp] theorem execDp4_formed {g : Guard} {f : FB} {s : State} (h : Inv s) : OutFormed (execDp4 g f s) := by
  simp [execDp4, formed h]

/-! ### Pair -/

@[simp] theorem pairExec_formed {p : Pop} {op : HalfOp} {a : HalfArgs} {hu : Half} {s : State} (h : Inv s) :
    OutFormed (pairExec p op a hu s) := by
  unfold pairExec
  exact runWordIf_formed h (fun _ _ => by simp [formed h])

@[simp] theorem execPairNop_formed {a : HalfArgs} {hu : Half} {s : State} (h : Inv s) :
    OutFormed (execPairNop a hu s) := by
  simp [execPairNop, formed h]

@[simp] theorem execPairMov_formed {a : HalfArgs} {hu : Half} {s : State} (h : Inv s) :
    OutFormed (execPairMov a hu s) := by
  simp [execPairMov, formed h]

@[simp] theorem execPairIadd_formed {a : HalfArgs} {hu : Half} {s : State} (h : Inv s) :
    OutFormed (execPairIadd a hu s) := by
  simp [execPairIadd, formed h]

@[simp] theorem execPairIsub_formed {a : HalfArgs} {hu : Half} {s : State} (h : Inv s) :
    OutFormed (execPairIsub a hu s) := by
  simp [execPairIsub, formed h]

@[simp] theorem execPairImul_formed {a : HalfArgs} {hu : Half} {s : State} (h : Inv s) :
    OutFormed (execPairImul a hu s) := by
  simp [execPairImul, formed h]

@[simp] theorem execPairImin_formed {a : HalfArgs} {hu : Half} {s : State} (h : Inv s) :
    OutFormed (execPairImin a hu s) := by
  simp [execPairImin, formed h]

@[simp] theorem execPairImax_formed {a : HalfArgs} {hu : Half} {s : State} (h : Inv s) :
    OutFormed (execPairImax a hu s) := by
  simp [execPairImax, formed h]

@[simp] theorem execPairAnd_formed {a : HalfArgs} {hu : Half} {s : State} (h : Inv s) :
    OutFormed (execPairAnd a hu s) := by
  simp [execPairAnd, formed h]

@[simp] theorem execPairOr_formed {a : HalfArgs} {hu : Half} {s : State} (h : Inv s) :
    OutFormed (execPairOr a hu s) := by
  simp [execPairOr, formed h]

@[simp] theorem execPairXor_formed {a : HalfArgs} {hu : Half} {s : State} (h : Inv s) :
    OutFormed (execPairXor a hu s) := by
  simp [execPairXor, formed h]

@[simp] theorem execPairAndn_formed {a : HalfArgs} {hu : Half} {s : State} (h : Inv s) :
    OutFormed (execPairAndn a hu s) := by
  simp [execPairAndn, formed h]

@[simp] theorem execPairShl_formed {a : HalfArgs} {hu : Half} {s : State} (h : Inv s) :
    OutFormed (execPairShl a hu s) := by
  simp [execPairShl, formed h]

@[simp] theorem execPairShr_formed {a : HalfArgs} {hu : Half} {s : State} (h : Inv s) :
    OutFormed (execPairShr a hu s) := by
  simp [execPairShr, formed h]

@[simp] theorem execPairSar_formed {a : HalfArgs} {hu : Half} {s : State} (h : Inv s) :
    OutFormed (execPairSar a hu s) := by
  simp [execPairSar, formed h]

@[simp] theorem execPairNot_formed {a : HalfArgs} {hu : Half} {s : State} (h : Inv s) :
    OutFormed (execPairNot a hu s) := by
  simp [execPairNot, formed h]

@[simp] theorem execPairIneg_formed {a : HalfArgs} {hu : Half} {s : State} (h : Inv s) :
    OutFormed (execPairIneg a hu s) := by
  simp [execPairIneg, formed h]

@[simp] theorem execPairFadd_formed {a : HalfArgs} {hu : Half} {s : State} (h : Inv s) :
    OutFormed (execPairFadd a hu s) := by
  simp [execPairFadd, formed h]

@[simp] theorem execPairFsub_formed {a : HalfArgs} {hu : Half} {s : State} (h : Inv s) :
    OutFormed (execPairFsub a hu s) := by
  simp [execPairFsub, formed h]

@[simp] theorem execPairFmul_formed {a : HalfArgs} {hu : Half} {s : State} (h : Inv s) :
    OutFormed (execPairFmul a hu s) := by
  simp [execPairFmul, formed h]

@[simp] theorem execPairFmin_formed {a : HalfArgs} {hu : Half} {s : State} (h : Inv s) :
    OutFormed (execPairFmin a hu s) := by
  simp [execPairFmin, formed h]

@[simp] theorem execPairFmax_formed {a : HalfArgs} {hu : Half} {s : State} (h : Inv s) :
    OutFormed (execPairFmax a hu s) := by
  simp [execPairFmax, formed h]

@[simp] theorem execPairFminnum_formed {a : HalfArgs} {hu : Half} {s : State} (h : Inv s) :
    OutFormed (execPairFminnum a hu s) := by
  simp [execPairFminnum, formed h]

@[simp] theorem execPairFmaxnum_formed {a : HalfArgs} {hu : Half} {s : State} (h : Inv s) :
    OutFormed (execPairFmaxnum a hu s) := by
  simp [execPairFmaxnum, formed h]

@[simp] theorem execPairFabs_formed {a : HalfArgs} {hu : Half} {s : State} (h : Inv s) :
    OutFormed (execPairFabs a hu s) := by
  simp [execPairFabs, formed h]

@[simp] theorem execPairFneg_formed {a : HalfArgs} {hu : Half} {s : State} (h : Inv s) :
    OutFormed (execPairFneg a hu s) := by
  simp [execPairFneg, formed h]

@[simp] theorem execPairFcopysign_formed {a : HalfArgs} {hu : Half} {s : State} (h : Inv s) :
    OutFormed (execPairFcopysign a hu s) := by
  simp [execPairFcopysign, formed h]

/-! ### Platform -/

@[simp] theorem setPwr_mem {s : State} {v : Nat} : (setPwr s v).mem = s.mem := by
  simp [setPwr]

@[simp] theorem execPower_formed {m : Mb} {w : BitVec 64} {s : State} (h : Inv s) : OutFormed (execPower m w s) := by
  unfold execPower
  refine withMail_formed h ?_
  dsimp only
  repeat' split
  all_goals simp [formed h]

@[simp] theorem execPmD3hot_formed {s : State} (h : Inv s) : OutFormed (execPmD3hot s) := by
  have hsave : Formed (s.ctxs.foldl (fun s (e : Nat × Context) => if e.2.st == .resident then beginSave s e.1 else s)
      { s with pmPending := true }).mem := by
    refine foldl_formed (fun t e ht => ?_) _ h
    split <;> simp [ht]
  unfold execPmD3hot
  refine iteInduction (fun _ => h) (fun _ => ?_)
  extract_lets u v w x
  refine iteInduction (fun _ => hsave) (fun _ => ?_)
  have hw : Formed w.mem := foldl_formed (fun t c ht => foldl_formed (fun t y ht => writeOut_formed ht) _ ht) _ hsave
  have hx : Formed x.mem := by
    refine foldl_formed (fun t p ht => ?_) _ hw
    split <;> simp [ht]
  simpa using hx

@[simp] theorem execPmD0_formed {s : State} (h : Inv s) : OutFormed (execPmD0 s) := by
  simp [execPmD0, formed h]

@[simp] theorem execPowerRemoved_formed {s : State} (h : Inv s) : OutFormed (execPowerRemoved s) := by
  unfold execPowerRemoved
  split
  · exact h
  · exact memory_wf_filter _ h

@[simp] theorem bootSet_mem {s : State} {absent : BitVec 18} {openPart : Bool} {image : List Byte} :
    (bootSet s absent openPart image).mem = s.mem := by
  unfold bootSet
  simp

@[simp] theorem bootedWith_mem {s : State} {image : List Byte} : (bootedWith s image).mem = s.mem := rfl

@[simp] theorem bootMeasured_mem {s : State} {image : List Byte} : (bootMeasured s image).mem = s.mem := by
  unfold bootMeasured
  simp only [foldl_mem, leavesMem_iff, modPart_mem, extendMeas_mem, implies_true]

@[simp] theorem execPowerOn_formed {absent : BitVec 18} {openPart : Bool} {image : List Byte} {s : State} (h : Inv s) :
    OutFormed (execPowerOn absent openPart image s) := by
  by_cases hd : s.power = .d3cold
  · cases hf : fwImageOk openPart image
    · rw [execPowerOn_held hd hf, outFormed_next, bootSet_mem]
      exact h
    · have hm : (bootMeasured (bootedWith (bootSet s absent openPart image) image) image).mem = s.mem := by
        rw [bootMeasured_mem, bootedWith_mem, bootSet_mem]
      generalize ht : bootMeasured (bootedWith (bootSet s absent openPart image) image) image = t at hm
      rw [execPowerOn_boots hd hf ht, outFormed_next, extendMeas_mem, hm]
      exact h
  · have he : execPowerOn absent openPart image s = .next s := if_pos (by simp [hd])
    exact he ▸ h

@[simp] theorem execClockThrottle_formed {s : State} (h : Inv s) : OutFormed (execClockThrottle s) := by
  simp [execClockThrottle, formed h]

@[simp] theorem execPwrcap_formed {m : Mb} {w : BitVec 64} {s : State} (h : Inv s) : OutFormed (execPwrcap m w s) := by
  unfold execPwrcap
  refine withMail_formed h ?_
  dsimp only
  repeat' split
  all_goals simp [formed h]

@[simp] theorem releaseRole_mem {s : State} {c g w : Nat} {y : Warp} : (releaseRole s c g w y).mem = s.mem := by
  simp [releaseRole]

@[simp] theorem releasePart_mem {s : State} {p : Nat} : (releasePart s p).mem = s.mem := by
  simp [releasePart]

@[simp] theorem execUnlock_formed {m : Mb} {w : BitVec 64} {s : State} (h : Inv s) : OutFormed (execUnlock m w s) := by
  unfold execUnlock
  refine withMail_formed h ?_
  dsimp only
  repeat' split
  all_goals simp [formed h]

@[simp] theorem execLock_formed {m : Mb} {w : BitVec 64} {s : State} (h : Inv s) : OutFormed (execLock m w s) := by
  unfold execLock
  refine withMail_formed h ?_
  dsimp only
  repeat' split
  all_goals simp [formed h]

@[simp] theorem execDebuglvl_formed {m : Mb} {w : BitVec 64} {s : State} (h : Inv s) :
    OutFormed (execDebuglvl m w s) := by
  unfold execDebuglvl
  refine withMail_formed h ?_
  dsimp only
  repeat' split
  all_goals simp [formed h]

@[simp] theorem execIdsig_formed {m : Mb} {w : BitVec 64} {s : State} (h : Inv s) : OutFormed (execIdsig m w s) := by
  unfold execIdsig
  refine withMail_formed h ?_
  dsimp only
  repeat' split
  all_goals simp [formed h]

@[simp] theorem execFwstage_formed {m : Mb} {w : BitVec 64} {s : State} (h : Inv s) :
    OutFormed (execFwstage m w s) := by
  unfold execFwstage
  refine withMail_formed h ?_
  dsimp only
  repeat' split
  all_goals simp [formed h]

@[simp] theorem execFwact_formed {m : Mb} {_w : BitVec 64} {s : State} (h : Inv s) : OutFormed (execFwact m _w s) := by
  unfold execFwact
  refine withMail_formed h ?_
  repeat' split
  all_goals simp [formed h]

@[simp] theorem execPort_formed {m : Mb} {w : BitVec 64} {s : State} (h : Inv s) : OutFormed (execPort m w s) := by
  unfold execPort
  refine withMail_formed h ?_
  dsimp only
  repeat' split
  all_goals simp [formed h]

@[simp] theorem execBqcfg_formed {m : Mb} {w : BitVec 64} {s : State} (h : Inv s) : OutFormed (execBqcfg m w s) := by
  unfold execBqcfg
  refine withMail_formed h ?_
  dsimp only
  repeat' split
  all_goals simp [formed h]

@[simp] theorem spdm_formed {m : Mb} {code : Nat} {msg : List Byte} {s : State} (h : Inv s) :
    OutFormed (spdm m code msg s) := by
  unfold spdm
  refine withMail_formed h ?_
  dsimp only
  repeat' split
  all_goals simp [formed h]

@[simp] theorem execGetVersion_formed {m : Mb} {msg : List Byte} {s : State} (h : Inv s) :
    OutFormed (execGetVersion m msg s) := by
  simp [execGetVersion, formed h]

@[simp] theorem execGetCapabilities_formed {m : Mb} {msg : List Byte} {s : State} (h : Inv s) :
    OutFormed (execGetCapabilities m msg s) := by
  simp [execGetCapabilities, formed h]

@[simp] theorem execNegotiateAlgorithms_formed {m : Mb} {msg : List Byte} {s : State} (h : Inv s) :
    OutFormed (execNegotiateAlgorithms m msg s) := by
  simp [execNegotiateAlgorithms, formed h]

@[simp] theorem execGetDigests_formed {m : Mb} {msg : List Byte} {s : State} (h : Inv s) :
    OutFormed (execGetDigests m msg s) := by
  simp [execGetDigests, formed h]

@[simp] theorem execGetCertificate_formed {m : Mb} {msg : List Byte} {s : State} (h : Inv s) :
    OutFormed (execGetCertificate m msg s) := by
  simp [execGetCertificate, formed h]

@[simp] theorem execChallenge_formed {m : Mb} {msg : List Byte} {s : State} (h : Inv s) :
    OutFormed (execChallenge m msg s) := by
  simp [execChallenge, formed h]

@[simp] theorem execGetMeasurements_formed {m : Mb} {msg : List Byte} {s : State} (h : Inv s) :
    OutFormed (execGetMeasurements m msg s) := by
  simp [execGetMeasurements, formed h]

@[simp] theorem seeLease_mem {s : State} {die w : Nat} {leads : Bool} : (seeLease s die w leads).mem = s.mem := rfl

@[simp] theorem execLeaseRenew_formed {die : Nat} {s : State} (h : Inv s) : OutFormed (execLeaseRenew die s) := by
  simp [execLeaseRenew, formed h]

@[simp] theorem execLeaseLapse_formed {die : Nat} {s : State} (h : Inv s) : OutFormed (execLeaseLapse die s) := by
  unfold execLeaseLapse
  extract_lets d w v u
  have hu : Formed u.mem := by
    rw [seeLease_mem]
    exact unitWrite_formed h
  clear_value u w d
  split
  · exact h
  · split
    · rw [outFormed_next, seeLease_mem]
      exact h
    · split
      · exact h
      · split <;> simp [hu]

@[simp] theorem removeCore_formed {s : State} {core : Nat} (h : Inv s) : Formed (removeCore s core).mem := by
  unfold removeCore
  dsimp only
  refine foldl_formed (fun t e ht => ?_) _ ?_
  · split <;> simp [ht]
  · rw [inv_iff, modCore_mem]
    refine foldl_formed (fun t e ht => ?_) _ (by simpa using h)
    split
    · exact regionFault_formed ht
    · exact ht

@[simp] theorem execDetectedError_formed {kind core : Nat} {pa : Nat} {lasting : Bool} {s : State} (h : Inv s) :
    OutFormed (execDetectedError kind core pa lasting s) := by
  unfold execDetectedError
  dsimp only
  repeat' split
  all_goals simp [formed h]

/-! ### VecConv -/

@[simp] theorem execCvt_formed {g : Guard} {f : FA} {s : State} (h : Inv s) : OutFormed (execCvt g f s) := by
  simp [execCvt, formed h]

@[simp] theorem execCvtf8_formed {g : Guard} {f : FA} {s : State} (h : Inv s) : OutFormed (execCvtf8 g f s) := by
  simp [execCvtf8, formed h]

@[simp] theorem execBxpack_formed {g : Guard} {f : FA} {s : State} (h : Inv s) : OutFormed (execBxpack g f s) := by
  unfold execBxpack
  exact runWord_formed h (fun _ _ => by simp [formed h])

@[simp] theorem execBxunpack_formed {g : Guard} {f : FA} {s : State} (h : Inv s) : OutFormed (execBxunpack g f s) := by
  unfold execBxunpack
  exact runWord_formed h (fun _ _ => by simp [formed h])

@[simp] theorem execShfl_formed {g : Guard} {f : FA} {s : State} (h : Inv s) : OutFormed (execShfl g f s) := by
  unfold execShfl
  exact runWord_formed h (fun _ _ => by simp [formed h])

@[simp] theorem execRed_formed {g : Guard} {f : FA} {s : State} (h : Inv s) : OutFormed (execRed g f s) := by
  unfold execRed
  exact runWord_formed h (fun _ _ => by simp [formed h])

@[simp] theorem execScan_formed {g : Guard} {f : FA} {s : State} (h : Inv s) : OutFormed (execScan g f s) := by
  unfold execScan
  exact runWord_formed h (fun _ _ => by simp [formed h])

@[simp] theorem execMatch_formed {g : Guard} {f : FA} {s : State} (h : Inv s) : OutFormed (execMatch g f s) := by
  unfold execMatch
  exact runWord_formed h (fun _ _ => by simp [formed h])

@[simp] theorem execElect_formed {g : Guard} {f : FA} {s : State} (h : Inv s) : OutFormed (execElect g f s) := by
  unfold execElect
  exact runWord_formed h (fun _ _ => by simp [formed h])

@[simp] theorem execVote_formed {g : Guard} {f : FA} {s : State} (h : Inv s) : OutFormed (execVote g f s) := by
  unfold execVote
  exact runWord_formed h (fun _ _ => by simp [formed h])

@[simp] theorem execRfal_formed {g : Guard} {f : FA} {s : State} (h : Inv s) : OutFormed (execRfal g f s) := by
  unfold execRfal
  exact runWord_formed h (fun _ _ => by simp [formed h])

@[simp] theorem execRdlane_formed {g : Guard} {f : FA} {s : State} (h : Inv s) : OutFormed (execRdlane g f s) := by
  unfold execRdlane
  exact runWord_formed h (fun _ _ => by simp [formed h])

@[simp] theorem execWrlane_formed {g : Guard} {f : FA} {s : State} (h : Inv s) : OutFormed (execWrlane g f s) := by
  unfold execWrlane
  exact runWord_formed h (fun _ _ => by simp [formed h])

@[simp] theorem execPermx_formed {g : Guard} {f : FA} {s : State} (h : Inv s) : OutFormed (execPermx g f s) := by
  unfold execPermx
  exact runWord_formed h (fun _ _ => by simp [formed h])

/-! ### Scalar -/

@[simp] theorem sInt2_formed {g : Guard} {f : FA} {op : Nat → Nat → Nat} {s : State} (h : Inv s) :
    OutFormed (sInt2 g f op s) := by
  simp [sInt2, formed h]

@[simp] theorem execSadd_formed {g : Guard} {f : FA} {s : State} (h : Inv s) : OutFormed (execSadd g f s) := by
  simp [execSadd, formed h]

@[simp] theorem execSsub_formed {g : Guard} {f : FA} {s : State} (h : Inv s) : OutFormed (execSsub g f s) := by
  simp [execSsub, formed h]

@[simp] theorem execSmul_formed {g : Guard} {f : FA} {s : State} (h : Inv s) : OutFormed (execSmul g f s) := by
  simp [execSmul, formed h]

@[simp] theorem execSmulh_formed {g : Guard} {f : FA} {s : State} (h : Inv s) : OutFormed (execSmulh g f s) := by
  simp [execSmulh, formed h]

@[simp] theorem execSdiv_formed {g : Guard} {f : FA} {s : State} (h : Inv s) : OutFormed (execSdiv g f s) := by
  simp [execSdiv, formed h]

@[simp] theorem execSand_formed {g : Guard} {f : FA} {s : State} (h : Inv s) : OutFormed (execSand g f s) := by
  simp [execSand, formed h]

@[simp] theorem execSor_formed {g : Guard} {f : FA} {s : State} (h : Inv s) : OutFormed (execSor g f s) := by
  simp [execSor, formed h]

@[simp] theorem execSxor_formed {g : Guard} {f : FA} {s : State} (h : Inv s) : OutFormed (execSxor g f s) := by
  simp [execSxor, formed h]

@[simp] theorem execSnot_formed {g : Guard} {f : FA} {s : State} (h : Inv s) : OutFormed (execSnot g f s) := by
  simp [execSnot, formed h]

@[simp] theorem execSshl_formed {g : Guard} {f : FA} {s : State} (h : Inv s) : OutFormed (execSshl g f s) := by
  simp [execSshl, formed h]

@[simp] theorem execSshr_formed {g : Guard} {f : FA} {s : State} (h : Inv s) : OutFormed (execSshr g f s) := by
  simp [execSshr, formed h]

@[simp] theorem execSsar_formed {g : Guard} {f : FA} {s : State} (h : Inv s) : OutFormed (execSsar g f s) := by
  simp [execSsar, formed h]

@[simp] theorem execSmin_formed {g : Guard} {f : FA} {s : State} (h : Inv s) : OutFormed (execSmin g f s) := by
  simp [execSmin, formed h]

@[simp] theorem execSmax_formed {g : Guard} {f : FA} {s : State} (h : Inv s) : OutFormed (execSmax g f s) := by
  simp [execSmax, formed h]

@[simp] theorem execSpopc_formed {g : Guard} {f : FA} {s : State} (h : Inv s) : OutFormed (execSpopc g f s) := by
  simp [execSpopc, formed h]

@[simp] theorem execSclz_formed {g : Guard} {f : FA} {s : State} (h : Inv s) : OutFormed (execSclz g f s) := by
  simp [execSclz, formed h]

@[simp] theorem execSmov_formed {g : Guard} {f : FA} {s : State} (h : Inv s) : OutFormed (execSmov g f s) := by
  simp [execSmov, formed h]

@[simp] theorem execSsel_formed {g : Guard} {f : FB} {s : State} (h : Inv s) : OutFormed (execSsel g f s) := by
  unfold execSsel
  exact runWord_formed h (fun _ _ => by simp [formed h])

@[simp] theorem execScmp_formed {g : Guard} {f : FA} {s : State} (h : Inv s) : OutFormed (execScmp g f s) := by
  unfold execScmp
  exact runWord_formed h (fun _ _ => by simp [formed h])

@[simp] theorem execSmovi_formed {g : Guard} {f : FI} {s : State} (h : Inv s) : OutFormed (execSmovi g f s) := by
  unfold execSmovi
  exact runWord_formed h (fun _ _ => by simp [formed h])

@[simp] theorem execSmovhi_formed {g : Guard} {f : FI} {s : State} (h : Inv s) : OutFormed (execSmovhi g f s) := by
  unfold execSmovhi
  exact runWord_formed h (fun _ _ => by simp [formed h])

@[simp] theorem execSfadd_formed {g : Guard} {f : FA} {s : State} (h : Inv s) : OutFormed (execSfadd g f s) := by
  simp [execSfadd, formed h]

@[simp] theorem execSfmul_formed {g : Guard} {f : FA} {s : State} (h : Inv s) : OutFormed (execSfmul g f s) := by
  simp [execSfmul, formed h]

@[simp] theorem execSfma_formed {g : Guard} {f : FB} {s : State} (h : Inv s) : OutFormed (execSfma g f s) := by
  unfold execSfma
  exact runWord_formed h (fun _ _ => by simp [formed h])

@[simp] theorem execScvt_formed {g : Guard} {f : FA} {s : State} (h : Inv s) : OutFormed (execScvt g f s) := by
  unfold execScvt
  exact runWord_formed h (fun _ _ => by simp [formed h])

/-! ### Dispatch -/

@[simp] theorem exec_formed {i : Instr} {s : State} (h : Inv s) : OutFormed (exec i s) := by
  unfold exec
  split <;> simp [formed h]

end Sys2Proof.Proofs
end

