-- ==== Sys2Proof/Proofs/MemoryFormStep.lean ====
section
/-!
Memory's form through the mailbox, the issue of a word and a step of the machine, which keeps `Inv` (O5).
-/
namespace Sys2Proof.Proofs
open Sys2Proof.Machine

/-- What a command or a unit does keeps memory's form. -/
def ActFormed (f : State → Out) : Prop := ∀ s : State, Machine.Inv s → OutFormed (f s)

theorem ActFormed.run {f : State → Out} (hf : ActFormed f) {s : State} (h : Inv s) : OutFormed (f s) := hf s h

/-- Every act of a list keeps memory's form. -/
def ActsFormed (fs : List (State → Out)) : Prop := ∀ f ∈ fs, ActFormed f

@[simp] theorem actFormed_iff {f : State → Out} : ActFormed f ↔ ∀ s : State, Formed s.mem → OutFormed (f s) := Iff.rfl

@[simp] theorem actsFormed_nil : ActsFormed [] := List.forall_mem_nil _

@[simp] theorem actsFormed_cons {f : State → Out} {fs : List (State → Out)} :
    ActsFormed (f :: fs) ↔ ActFormed f ∧ ActsFormed fs := List.forall_mem_cons

@[simp] theorem actsFormed_append {fs gs : List (State → Out)} : ActsFormed (fs ++ gs) ↔ ActsFormed fs ∧ ActsFormed gs :=
  List.forall_mem_append

@[simp] theorem actsFormed_map {α : Type} {g : α → State → Out} {l : List α} :
    ActsFormed (l.map g) ↔ ∀ a ∈ l, ActFormed (g a) := List.forall_mem_map

@[simp] theorem actsFormed_flatMap {α : Type} {g : α → List (State → Out)} {l : List α} :
    ActsFormed (l.flatMap g) ↔ ∀ a ∈ l, ActsFormed (g a) :=
  ⟨fun h a ha f hf => h f (List.mem_flatMap.2 ⟨a, ha, hf⟩), fun h f hf =>
    let ⟨a, ha, hm⟩ := List.mem_flatMap.1 hf
    h a ha f hm⟩

/-! ### Mailbox -/

@[simp] theorem badPacket_formed {k : Pkt} {s : State} (h : Inv s) : OutFormed (badPacket k s) := by
  unfold badPacket
  exact withPacket_formed h (fun _ _ ht => packetDone_formed ht)

@[simp] theorem fwPut_mem {s : State} {key fn : Nat} {words : List (List Byte)} :
    (fwPut s key fn words).mem = s.mem := rfl

@[simp] theorem runPacket_formed {bs : List Byte} {r : Nat} {s : State} (h : Inv s) : OutFormed (runPacket bs r s) := by
  unfold runPacket
  dsimp only
  split
  · rename_i i _
    have hx : OutFormed (exec i (modRing s r (fun q => { q with open_ := q.open_ - 1, st := .running }))) :=
      exec_formed (by simpa using h)
    split
    · rename_i heq
      rw [heq] at hx
      simpa using hx
    · exact hx
  · simpa using h

theorem debugInstr_formed {m : Mb} {cmd : BitVec 256} {f : State → Out} (hf : debugInstr m cmd = some f) :
    ActFormed f := by
  intro s h
  unfold debugInstr at hf
  split at hf
  case h_3 => split at hf <;> cases hf <;> simp [formed h]
  all_goals cases hf
  all_goals simp [formed h]

theorem pageInstr_formed {m : Mb} {cmd : BitVec 256} : ActFormed (pageInstr m cmd) := by
  unfold pageInstr
  split
  · exact fun _ h => execPageResolve_formed h
  · exact fun _ h => execPageFail_formed h
  · exact fun _ h => execPageInval_formed h

theorem spdmInstr_formed {m : Mb} {msg : List Byte} {f : State → Out} (hf : spdmInstr m msg = some f) :
    ActFormed f := by
  intro s h
  unfold spdmInstr at hf
  split at hf
  all_goals cases hf
  all_goals simp [formed h]

theorem systemInstr_formed {m : Mb} {op : Nat} {w : BitVec 64} {f : State → Out} (hf : systemInstr m op w = some f) :
    ActFormed f := by
  intro s h
  unfold systemInstr at hf
  split at hf
  all_goals cases hf
  all_goals simp [formed h]

theorem mailInstr_formed {s : State} {m : Mb} {cls : Nat} {body : List Byte} {f : State → Out}
    (hf : mailInstr s m cls body = some f) : ActFormed f := by
  unfold mailInstr at hf
  dsimp only at hf
  split at hf
  · cases hf
    exact pageInstr_formed
  · exact debugInstr_formed hf
  · exact spdmInstr_formed hf
  · cases hf
    exact fun _ h => execSyscallReply_formed h
  · exact systemInstr_formed hf
  · cases hf

@[simp] theorem runMail_formed {fn : Nat} {es : List (List Byte)} {s : State} (h : Inv s) :
    OutFormed (runMail fn es s) := by
  unfold runMail
  dsimp only
  split
  · exact withMail_formed h (by simp [formed h])
  · split
    · exact (mailInstr_formed ‹_›).run h
    · split
      · exact spdm_formed h
      · exact withMail_formed h (by simp [formed h])

@[simp] theorem mailPut_formed {fn : Nat} {e : List Byte} {s : State} (h : Inv s) : OutFormed (mailPut fn e s) := by
  simp [mailPut, formed h]

@[simp] theorem mailTake_formed {s : State} (h : Inv s) : OutFormed (mailTake s) := by
  unfold mailTake
  split <;> simp [formed h]

@[simp] theorem fwRun_formed {s : State} (h : Inv s) : OutFormed (fwRun s) := by
  unfold fwRun
  split
  · exact h
  · exact iteInduction (fun _ => h) (fun _ => iteInduction (fun _ => runPacket_formed h) (fun _ => runMail_formed h))

@[simp] theorem barRead_formed {fn bar off n : Nat} {s : State} (h : Inv s) : OutFormed (barRead fn bar off n s) := by
  simp [barRead, formed h]

@[simp] theorem writeRing_formed {r : Nat} {v : BitVec 128} {s : State} (h : Inv s) : OutFormed (writeRing r v s) := by
  have hw : OutFormed (execRegisterWrite 0 r v s) := execRegisterWrite_formed h
  unfold writeRing
  split
  · rename_i t heq
    rw [heq] at hw
    have he : OutFormed (if v.getLsbD 0 then execRingEnable 0 r t else .next t) :=
      iteInduction (fun _ => execRingEnable_formed hw) (fun _ => hw)
    split
    · rename_i hend
      rw [hend] at he
      exact execRingDoorbell_formed he
    · exact he
  · exact hw

@[simp] theorem barWrite_formed {fn bar off : Nat} {bs : List Byte} {s : State} (h : Inv s) :
    OutFormed (barWrite fn bar off bs s) := by
  unfold barWrite
  dsimp only
  repeat' split
  all_goals simp [formed h]

@[simp] theorem cacheFill_formed {p line way : Nat} {s : State} (h : Inv s) : OutFormed (cacheFill p line way s) := by
  simp [cacheFill, formed h]

/-! ### Issue -/

theorem fetchWord_formed {s : State} {x : Iss} {pc : Nat} {r : Res} (h : Inv s) (hr : fetchWord s x pc = .stop r) :
    ResFormed r := by
  have hother : ResFormed (withTranslation s x 3 0 false
      ((if x.isVec then lanesOf x.sp.mask else [0]).map (fun l => (l, pc)))
      (fun _ s => .hold .nothing s)) := withTranslation_formed h (fun _ _ ht => ht)
  unfold fetchWord at hr
  dsimp only at hr
  split at hr
  · split at hr
    · split at hr
      · cases hr
        exact h
      · cases hr
    · cases hr
      exact hother
  · cases hr
    exact hother

theorem fetchWords_formed {s : State} {x : Iss} {pcs : List Nat} {r : Res} (h : Inv s)
    (hr : fetchWords s x pcs = .error r) : ResFormed r := by
  induction pcs with
  | nil => cases hr
  | cons a pcs ih =>
    unfold fetchWords at hr
    split at hr
    · rename_i heq
      cases hr
      exact fetchWord_formed h heq
    · split at hr
      · cases hr
      · rename_i heq
        cases hr
        exact ih heq

theorem fetchInstr_formed {s : State} {x : Iss} {n : Nat} {r : Res} (h : Inv s) (hr : fetchInstr s x = .stop n r) :
    ResFormed r := by
  unfold fetchInstr at hr
  split at hr
  · rename_i heq
    cases hr
    exact fetchWord_formed h heq
  · split at hr
    · rename_i heq
      cases hr
      exact fetchWords_formed h heq
    · split at hr
      · cases hr
      · cases hr
        exact h

@[simp] theorem issueCur_formed {x : Iss} {s : State} (h : Inv s) : OutFormed (issueCur x s) := by
  unfold issueCur
  split
  · exact exec_formed h
  · exact finish_formed (fetchInstr_formed h ‹_›)

@[simp] theorem issueWord_formed {w : Who} {s : State} (h : Inv s) : OutFormed (issueWord w s) := by
  unfold issueWord
  refine iteInduction (fun _ => ?_) (fun _ => h)
  dsimp only
  split
  · exact issueCur_formed h
  · exact h

@[simp] theorem stepEnd_mem {s : State} {m : Mb} {w : Who} : (stepEnd s m w).mem = s.mem := by
  unfold stepEnd
  repeat' split
  all_goals simp

@[simp] theorem debugStep_formed {m : Mb} {w : Who} {s : State} (h : Inv s) : OutFormed (debugStep m w s) := by
  unfold debugStep
  extract_lets u v
  have hv : Formed v.mem := by
    have hu : Formed u.mem := h
    unfold v
    repeat' split
    all_goals simp [hu]
  clear_value v
  split
  · simpa using hv
  · rename_i x _
    refine iteInduction (fun _ => by simpa using hv) (fun _ => ?_)
    have hi : ∀ f : Core → Core, OutFormed (issueCur x (modCore v w.core f)) := fun f => issueCur_formed (by simpa using hv)
    split
    · rename_i heq
      have ht : OutFormed (.next _) := heq ▸ hi _
      simpa using ht
    · exact hi _

@[simp] theorem fetchRing_formed {r : Nat} {s : State} (h : Inv s) : OutFormed (fetchRing r s) := by
  unfold fetchRing
  refine iteInduction (fun _ => h) (fun _ => ?_)
  extract_lets q bs k out
  have hout : OutFormed out := by
    unfold out
    split
    · exact exec_formed h
    · exact badPacket_formed h
  refine iteInduction (fun _ => ?_) (fun _ => iteInduction (fun _ => ?_) (fun _ => iteInduction (fun _ => ?_)
    (fun _ => ?_)))
  · simpa using h
  · simpa using h
  · simpa using h
  · clear_value out
    cases out with
    | next t => simpa using hout
    | fault e => trivial
    | refused e => trivial

@[simp] theorem dieSteps_formed {s : State} : ActsFormed (dieSteps s) := by
  simp +contextual [dieSteps]

@[simp] theorem queueSteps_formed {s : State} : ActsFormed (queueSteps s) := by
  unfold queueSteps
  split <;> split <;> simp +contextual

@[simp] theorem roleSteps_formed {c g w : Nat} : ActsFormed (roleSteps c g w) := by
  simp +contextual [roleSteps]

@[simp] theorem coreSteps_formed {s : State} : ActsFormed (coreSteps s) := by
  simp +contextual [coreSteps]

@[simp] theorem memorySteps_formed {s : State} : ActsFormed (memorySteps s) := by
  simp +contextual [memorySteps]

theorem pageCmdAgain_formed {c : PageCmd} : ActFormed (pageCmdAgain c) := by
  unfold pageCmdAgain
  split
  · exact fun _ h => execPageInval_formed h
  · exact fun _ h => execPageResolve_formed h
  · exact fun _ h => execPageFail_formed h

@[simp] theorem defaultStep_formed {s : State} (h : Inv s) : OutFormed (defaultStep s) := by
  have hunits : ActsFormed (memorySteps s ++ coreSteps s ++ dieSteps s ++ queueSteps s ++ s.pageCmds.map pageCmdAgain) :=
    actsFormed_append.2 ⟨actsFormed_append.2 ⟨by simp only [actsFormed_append, memorySteps_formed, coreSteps_formed,
      dieSteps_formed, and_self], queueSteps_formed⟩, actsFormed_map.2 fun _ _ => pageCmdAgain_formed⟩
  unfold defaultStep
  dsimp only
  split
  · rename_i heq
    exact hunits _ (List.mem_of_find?_eq_some heq) s h
  · split
    · exact issueWord_formed h
    · exact execDiecycleAdvance_formed h

theorem withOlds_formed {words : List Nat} {f : State → Out} (hf : ActFormed f) : ActFormed (withOlds words f) := by
  intro s h
  have ho : OutFormed (f { s with olds := words }) := hf _ h
  unfold withOlds
  split
  · rename_i heq
    rw [heq] at ho
    exact ho
  · exact ho

/-! ### Step -/

@[simp] theorem runEntry_formed {e : Sched} {s : State} (h : Inv s) : OutFormed (runEntry e s) := by
  unfold runEntry
  split
  case h_1 => exact iteInduction (fun _ => h) (fun _ => exec_formed h)
  case h_2 => exact iteInduction (fun _ => h) (fun _ => withOlds_formed (fun _ ht => exec_formed ht) s h)
  all_goals simp [formed h]

@[simp] theorem step_formed {s : State} (h : Inv s) : OutFormed (step s) := by
  unfold step
  split
  · exact perform_formed h
  · split
    · exact debugStep_formed h
    · split
      · exact runEntry_formed h
      · exact defaultStep_formed h

/-- Settles O5: each function of the model keeps memory's form, so each step does. -/
theorem stepKeepsMemoryForm : Obligations.StepKeepsMemoryForm := by
  intro s t h hstep
  have hs : OutFormed (step s) := step_formed h
  rw [hstep] at hs
  exact hs

end Sys2Proof.Proofs
end
